-- ==== Sys2Proof/Word.lean ====
section
/-! DEFINITION. The word types of the AXM-960 (00_scope R5, R6) and the sparse table that every indexed store of
the model uses: a list of (index, value) pairs with strictly rising indices, in which a value equal to the
table's default is not listed. -/

namespace Sys2Proof

/-- A byte of any memory (R6). -/
abbrev Byte := BitVec 8
/-- A 32-bit word: the granule of memory and of a vector register element (R54). -/
abbrev Word := BitVec 32
/-- A 64-bit scalar register, program counter, virtual address or thread mask (R30, R54). -/
abbrev DWord := BitVec 64

/-- A sparse table indexed by numbers, kept with rising indices. -/
abbrev Tab (α : Type) := List (Nat × α)

namespace Tab

/-- The entry at an index, if one is listed. -/
def find? {α : Type} : Tab α → Nat → Option α
  | [], _ => none
  | (j, v) :: t, k => if j = k then some v else find? t k

/-- The value at an index of a table whose unlisted entries hold `d`. -/
def get {α : Type} (t : Tab α) (d : α) (k : Nat) : α := (find? t k).getD d

/-- Remove the entry at an index. -/
def erase {α : Type} : Tab α → Nat → Tab α
  | [], _ => []
  | (j, v) :: t, k => if j = k then t else (j, v) :: erase t k

/-- Place an entry at an index, in order. -/
def put {α : Type} : Tab α → Nat → α → Tab α
  | [], k, x => [(k, x)]
  | (j, v) :: t, k, x =>
    if k < j then (k, x) :: (j, v) :: t
    else if j = k then (k, x) :: t
    else (j, v) :: put t k x

/-- Write a value into a table with default `d`: the default itself is not listed. -/
def set {α : Type} [DecidableEq α] (t : Tab α) (d : α) (k : Nat) (x : α) : Tab α :=
  if x = d then erase t k else put t k x

/-- Apply `f` to the entry at an index, if one is listed. -/
def modify {α : Type} : Tab α → Nat → (α → α) → Tab α
  | [], _, _ => []
  | (j, v) :: t, k, f => if j = k then (j, f v) :: t else (j, v) :: modify t k f

/-- Apply `f` to every listed value. -/
def mapVals {α : Type} (f : α → α) (t : Tab α) : Tab α := t.map fun x => (x.1, f x.2)

/-- Keep the listed values that satisfy `p`. -/
def filterVals {α : Type} (p : α → Bool) (t : Tab α) : Tab α := t.filter fun x => p x.2

/-- The lowest index at or above `k` that the table does not list, looked for in `fuel` places. -/
def fresh {α : Type} (t : Tab α) (k : Nat) : Nat → Nat
  | 0 => k
  | n + 1 => if (find? t k).isSome then fresh t (k + 1) n else k

/-- Indices rise strictly and every one is at least `lo`. -/
def sortedFrom {α : Type} : Nat → Tab α → Bool
  | _, [] => true
  | lo, (j, _) :: t => decide (lo ≤ j) && sortedFrom (j + 1) t

end Tab

end Sys2Proof
end

