-- ==== Sys2Proof/Syntax.lean ====
section
/-! DEFINITION. The instructions and events of the AXM-960: one constructor of `Instr` per row of
spec/opcode_table.json. Vector-stream and matrix-stream instructions carry the 96-bit word's fields as they stand
(a reserved value traps only when the instruction issues, R195, and the handler reads the fields, Table 3.7);
stove instructions carry the fields of Table 15.7; an event names what it acts on. -/

namespace Sys2Proof

/-- The header of an instruction word without its opcode (Table 9.4). -/
structure Hdr where
  g1 : BitVec 4
  g2 : BitVec 4
  gm : Bool
  stall : BitVec 4
  yld : Bool
  u : Bool
  hint : BitVec 3
  reu : Bool
  fs : BitVec 3
  deriving DecidableEq, Repr, Inhabited

/-- Body format V (Table 9.5). -/
structure VBody where
  d : BitVec 8
  a : BitVec 8
  b : BitVec 8
  c : BitVec 8
  e : BitVec 8
  mod : BitVec 24
  deriving DecidableEq, Repr, Inhabited

/-- Body format I. -/
structure IBody where
  d : BitVec 8
  a : BitVec 8
  imm : BitVec 32
  mod : BitVec 16
  deriving DecidableEq, Repr, Inhabited

/-- Body format M: `c` is the control byte or a register code, `mm` is MEMMOD (Table 9.6). -/
structure MBody where
  d : BitVec 8
  a : BitVec 8
  b : BitVec 8
  c : BitVec 8
  off : BitVec 24
  mm : BitVec 8
  deriving DecidableEq, Repr, Inhabited

/-- Body format J (R193). -/
structure JBody where
  tdelta : BitVec 29
  tslot : BitVec 3
  rdelta : BitVec 29
  rslot : BitVec 3
  deriving DecidableEq, Repr, Inhabited

/-- Body format C of the matrix stream. -/
structure CBody where
  acc : BitVec 8
  warp : BitVec 8
  vreg : BitVec 8
  count : BitVec 8
  region : BitVec 8
  cmod : BitVec 24
  deriving DecidableEq, Repr, Inhabited

/-- Body format S of the system class. -/
structure SBody where
  d : BitVec 8
  sel : BitVec 16
  mod : BitVec 40
  deriving DecidableEq, Repr, Inhabited

/-- A register field the host writes over BAR0 (R386, Tables 19.2 and 20.1). -/
inductive HostReg where
  | mailboxOp
  | mailboxForce
  | mailboxArg (i : Nat)
  | doorbell
  | traceControl (unit : Nat)
  | traceStopCnt (unit : Nat)
  | traceStopIvl (unit : Nat)
  | traceDumpBase (unit : Nat)
  | traceDumpCtl (unit : Nat)
  | bootWindow (offset : Nat)
  | reserved
  deriving DecidableEq, Repr

/-- A host CXL.mem access (R386): a read of `len` bytes at a device physical address, or a write of bytes. -/
inductive HostAccess where
  | read (pa len : Nat)
  | write (pa : Nat) (bytes : List Byte)
  deriving DecidableEq, Repr

/-- Who fetches a line (R436): a fragment (core, warp slot, split entry) or a team's matrix sequencer. -/
inductive FetchUnit where
  | frag (core slot entry : Nat)
  | seq (core team : Nat)
  deriving DecidableEq, Repr

/-- One constructor per row of spec/opcode_table.json. -/
inductive Instr where
  /-- `nop` (R208). -/
  | nop (h : Hdr) (b : VBody)
  /-- `bra` (R203). -/
  | bra (h : Hdr) (b : JBody)
  /-- `brx` (R203). -/
  | brx (h : Hdr) (b : VBody)
  /-- `call` (R203). -/
  | call (h : Hdr) (b : JBody)
  /-- `callx` (R203). -/
  | callx (h : Hdr) (b : VBody)
  /-- `ret` (R203). -/
  | ret (h : Hdr) (b : VBody)
  /-- `exit` (R207). -/
  | exit (h : Hdr) (b : VBody)
  /-- `join` (R203). -/
  | join (h : Hdr) (b : VBody)
  /-- `yield` (R208). -/
  | yield (h : Hdr) (b : VBody)
  /-- `trap` (R210). -/
  | trap (h : Hdr) (b : IBody)
  /-- `tret` (R211). -/
  | tret (h : Hdr) (b : IBody)
  /-- `brk` (R209). -/
  | brk (h : Hdr) (b : VBody)
  /-- `bar.arrive` (R214). -/
  | barArrive (h : Hdr) (b : IBody)
  /-- `bar.wait` (R215). -/
  | barWait (h : Hdr) (b : IBody)
  /-- `bar.sync` (R215). -/
  | barSync (h : Hdr) (b : IBody)
  /-- `bar.query` (R215). -/
  | barQuery (h : Hdr) (b : IBody)
  /-- `drain` (R218). -/
  | drain (h : Hdr) (b : IBody)
  /-- `fence` (R219). -/
  | fence (h : Hdr) (b : IBody)
  /-- `owait` (R220). -/
  | owait (h : Hdr) (b : IBody)
  /-- `cwait` (R221). -/
  | cwait (h : Hdr) (b : VBody)
  /-- `cyield` (R222). -/
  | cyield (h : Hdr) (b : VBody)
  /-- `glaunch` (R223). -/
  | glaunch (h : Hdr) (b : VBody)
  /-- `gwait` (R224). -/
  | gwait (h : Hdr) (b : VBody)
  /-- `add` (R235). -/
  | add (h : Hdr) (b : VBody)
  /-- `sub` (R235). -/
  | sub (h : Hdr) (b : VBody)
  /-- `mul` (R235). -/
  | mul (h : Hdr) (b : VBody)
  /-- `mulh` (R235). -/
  | mulh (h : Hdr) (b : VBody)
  /-- `mad` (R235). -/
  | mad (h : Hdr) (b : VBody)
  /-- `min` (R235). -/
  | min (h : Hdr) (b : VBody)
  /-- `max` (R235). -/
  | max (h : Hdr) (b : VBody)
  /-- `abs` (R235). -/
  | abs (h : Hdr) (b : VBody)
  /-- `neg` (R235). -/
  | neg (h : Hdr) (b : VBody)
  /-- `and` (R235). -/
  | and (h : Hdr) (b : VBody)
  /-- `or` (R235). -/
  | or (h : Hdr) (b : VBody)
  /-- `xor` (R235). -/
  | xor (h : Hdr) (b : VBody)
  /-- `not` (R235). -/
  | not (h : Hdr) (b : VBody)
  /-- `andn` (R235). -/
  | andn (h : Hdr) (b : VBody)
  /-- `shl` (R239). -/
  | shl (h : Hdr) (b : VBody)
  /-- `shr` (R239). -/
  | shr (h : Hdr) (b : VBody)
  /-- `sar` (R239). -/
  | sar (h : Hdr) (b : VBody)
  /-- `rot` (R239). -/
  | rot (h : Hdr) (b : VBody)
  /-- `sel` (R235). -/
  | sel (h : Hdr) (b : VBody)
  /-- `mov` (R235). -/
  | mov (h : Hdr) (b : VBody)
  /-- `cmp` (R237). -/
  | cmp (h : Hdr) (b : VBody)
  /-- `addi` (R235). -/
  | addi (h : Hdr) (b : IBody)
  /-- `andi` (R235). -/
  | andi (h : Hdr) (b : IBody)
  /-- `ori` (R235). -/
  | ori (h : Hdr) (b : IBody)
  /-- `movi` (R236). -/
  | movi (h : Hdr) (b : IBody)
  /-- `cmpi` (R237). -/
  | cmpi (h : Hdr) (b : IBody)
  /-- `lea` (R238). -/
  | lea (h : Hdr) (b : VBody)
  /-- `add64` (R238). -/
  | add64 (h : Hdr) (b : VBody)
  /-- `mad64` (R238). -/
  | mad64 (h : Hdr) (b : VBody)
  /-- `popc` (R240). -/
  | popc (h : Hdr) (b : VBody)
  /-- `clz` (R240). -/
  | clz (h : Hdr) (b : VBody)
  /-- `ctz` (R240). -/
  | ctz (h : Hdr) (b : VBody)
  /-- `brev` (R240). -/
  | brev (h : Hdr) (b : VBody)
  /-- `bfe` (R240). -/
  | bfe (h : Hdr) (b : VBody)
  /-- `bfi` (R240). -/
  | bfi (h : Hdr) (b : VBody)
  /-- `prmt` (R240). -/
  | prmt (h : Hdr) (b : VBody)
  /-- `shfn` (R240). -/
  | shfn (h : Hdr) (b : VBody)
  /-- `lop3` (R240). -/
  | lop3 (h : Hdr) (b : VBody)
  /-- `shfl` (R243). -/
  | shfl (h : Hdr) (b : VBody)
  /-- `lred` (R244). -/
  | lred (h : Hdr) (b : VBody)
  /-- `lscan` (R244). -/
  | lscan (h : Hdr) (b : VBody)
  /-- `vote` (R245). -/
  | vote (h : Hdr) (b : VBody)
  /-- `ballot` (R245). -/
  | ballot (h : Hdr) (b : VBody)
  /-- `bcast` (R246). -/
  | bcast (h : Hdr) (b : VBody)
  /-- `match` (R247). -/
  | matchLanes (h : Hdr) (b : VBody)
  /-- `prank` (R247). -/
  | prank (h : Hdr) (b : VBody)
  /-- `plop` (R248). -/
  | plop (h : Hdr) (b : VBody)
  /-- `pmask` (R249). -/
  | pmask (h : Hdr) (b : VBody)
  /-- `psetm` (R250). -/
  | psetm (h : Hdr) (b : VBody)
  /-- `pact` (R251). -/
  | pact (h : Hdr) (b : VBody)
  /-- `fadd` (R256). -/
  | fadd (h : Hdr) (b : VBody)
  /-- `fsub` (R256). -/
  | fsub (h : Hdr) (b : VBody)
  /-- `fmul` (R256). -/
  | fmul (h : Hdr) (b : VBody)
  /-- `ffma` (R256). -/
  | ffma (h : Hdr) (b : VBody)
  /-- `fmin` (R257). -/
  | fmin (h : Hdr) (b : VBody)
  /-- `fmax` (R257). -/
  | fmax (h : Hdr) (b : VBody)
  /-- `fcmp` (R258). -/
  | fcmp (h : Hdr) (b : VBody)
  /-- `frnd` (R256). -/
  | frnd (h : Hdr) (b : VBody)
  /-- `fclass` (R259). -/
  | fclass (h : Hdr) (b : VBody)
  /-- `fscale` (R256). -/
  | fscale (h : Hdr) (b : VBody)
  /-- `fexpt` (R259). -/
  | fexpt (h : Hdr) (b : VBody)
  /-- `fdot2` (R260). -/
  | fdot2 (h : Hdr) (b : VBody)
  /-- `hadd2` (R261). -/
  | hadd2 (h : Hdr) (b : VBody)
  /-- `hsub2` (R261). -/
  | hsub2 (h : Hdr) (b : VBody)
  /-- `hmul2` (R261). -/
  | hmul2 (h : Hdr) (b : VBody)
  /-- `hfma2` (R261). -/
  | hfma2 (h : Hdr) (b : VBody)
  /-- `hmin2` (R261). -/
  | hmin2 (h : Hdr) (b : VBody)
  /-- `hmax2` (R261). -/
  | hmax2 (h : Hdr) (b : VBody)
  /-- `hcmp2` (R261). -/
  | hcmp2 (h : Hdr) (b : VBody)
  /-- `e8dot4` (R260). -/
  | e8dot4 (h : Hdr) (b : VBody)
  /-- `frcp` (R262). -/
  | frcp (h : Hdr) (b : VBody)
  /-- `frsq` (R262). -/
  | frsq (h : Hdr) (b : VBody)
  /-- `fsqrt` (R262). -/
  | fsqrt (h : Hdr) (b : VBody)
  /-- `fex2` (R262). -/
  | fex2 (h : Hdr) (b : VBody)
  /-- `flg2` (R262). -/
  | flg2 (h : Hdr) (b : VBody)
  /-- `fsin` (R262). -/
  | fsin (h : Hdr) (b : VBody)
  /-- `fcos` (R262). -/
  | fcos (h : Hdr) (b : VBody)
  /-- `fscs` (R263). -/
  | fscs (h : Hdr) (b : VBody)
  /-- `ftanh` (R262). -/
  | ftanh (h : Hdr) (b : VBody)
  /-- `fsig` (R262). -/
  | fsig (h : Hdr) (b : VBody)
  /-- `ferf` (R262). -/
  | ferf (h : Hdr) (b : VBody)
  /-- `cvt` (R264). -/
  | cvt (h : Hdr) (b : VBody)
  /-- `cvtq` (R266). -/
  | cvtq (h : Hdr) (b : VBody)
  /-- `cvtdq` (R266). -/
  | cvtdq (h : Hdr) (b : VBody)
  /-- `cvsc` (R266). -/
  | cvsc (h : Hdr) (b : VBody)
  /-- `pack` (R265). -/
  | pack (h : Hdr) (b : VBody)
  /-- `unpack` (R265). -/
  | unpack (h : Hdr) (b : VBody)
  /-- `ld` (R271). -/
  | ld (h : Hdr) (b : MBody)
  /-- `st` (R272). -/
  | st (h : Hdr) (b : MBody)
  /-- `ldp` (R273). -/
  | ldp (h : Hdr) (b : MBody)
  /-- `stp` (R273). -/
  | stp (h : Hdr) (b : MBody)
  /-- `ldc` (R272). -/
  | ldc (h : Hdr) (b : MBody)
  /-- `lds` (R271). -/
  | lds (h : Hdr) (b : MBody)
  /-- `sts` (R272). -/
  | sts (h : Hdr) (b : MBody)
  /-- `ldl` (R271). -/
  | ldl (h : Hdr) (b : MBody)
  /-- `stl` (R272). -/
  | stl (h : Hdr) (b : MBody)
  /-- `pf` (R276). -/
  | pf (h : Hdr) (b : MBody)
  /-- `wbr` (R277). -/
  | wbr (h : Hdr) (b : MBody)
  /-- `invr` (R277). -/
  | invr (h : Hdr) (b : MBody)
  /-- `atom` (R278). -/
  | atom (h : Hdr) (b : MBody)
  /-- `ared` (R278). -/
  | ared (h : Hdr) (b : MBody)
  /-- `cas16` (R280). -/
  | cas16 (h : Hdr) (b : MBody)
  /-- `txbeg` (R281). -/
  | txbeg (h : Hdr) (b : JBody)
  /-- `txend` (R283). -/
  | txend (h : Hdr) (b : VBody)
  /-- `txabt` (R284). -/
  | txabt (h : Hdr) (b : VBody)
  /-- `bcopy` (R312). -/
  | bcopy (h : Hdr) (b : VBody)
  /-- `bloop` (R315). -/
  | bloop (h : Hdr) (b : VBody)
  /-- `brel` (R315). -/
  | brel (h : Hdr) (b : VBody)
  /-- `bmcast` (R316). -/
  | bmcast (h : Hdr) (b : VBody)
  /-- `kcoll` (R317). -/
  | kcoll (h : Hdr) (b : VBody)
  /-- `mseal` (R293). -/
  | mseal (h : Hdr) (b : CBody)
  /-- `munseal` (R295). -/
  | munseal (h : Hdr) (b : CBody)
  /-- `mmac` (R297). -/
  | mmac (h : Hdr) (b : CBody)
  /-- `mstart` (R302). -/
  | mstart (h : Hdr) (b : CBody)
  /-- `mzero` (R302). -/
  | mzero (h : Hdr) (b : CBody)
  /-- `mget` (R303). -/
  | mget (h : Hdr) (b : CBody)
  /-- `mput` (R304). -/
  | mput (h : Hdr) (b : CBody)
  /-- `mbwait` (R305). -/
  | mbwait (h : Hdr) (b : CBody)
  /-- `mbarr` (R306). -/
  | mbarr (h : Hdr) (b : CBody)
  /-- `mbra` (R291). -/
  | mbra (h : Hdr) (b : JBody)
  /-- `mloop` (R291). -/
  | mloop (h : Hdr) (b : JBody)
  /-- `mset` (R291). -/
  | mset (h : Hdr) (b : IBody)
  /-- `mpoint` (R307). -/
  | mpoint (h : Hdr) (b : CBody)
  /-- `mend` (R307). -/
  | mend (h : Hdr) (b : CBody)
  /-- `mfence` (R296). -/
  | mfence (h : Hdr) (b : CBody)
  /-- `gred` (R323). -/
  | gred (h : Hdr) (b : MBody)
  /-- `nred` (R325). -/
  | nred (h : Hdr) (b : VBody)
  /-- `nlaunch` (R331). -/
  | nlaunch (h : Hdr) (b : VBody)
  /-- `nstat` (R333). -/
  | nstat (h : Hdr) (b : VBody)
  /-- `nkill` (R334). -/
  | nkill (h : Hdr) (b : VBody)
  /-- `srd` (R225). -/
  | srd (h : Hdr) (b : SBody)
  /-- `swr` (R226). -/
  | swr (h : Hdr) (b : SBody)
  /-- `sysc` (R227). -/
  | sysc (h : Hdr) (b : SBody)
  /-- `aopen` (R337). -/
  | aopen (a : BitVec 4) (b : BitVec 4)
  /-- `acol` (R337). -/
  | acol (a : BitVec 4) (b : BitVec 4) (imm : BitVec 15)
  /-- `awr` (R337). -/
  | awr
  /-- `anext` (R337). -/
  | anext
  /-- `aset` (R337). -/
  | aset (d : BitVec 4) (a : BitVec 4) (imm : BitVec 15)
  /-- `aadd` (R337). -/
  | aadd (d : BitVec 4) (a : BitVec 4) (b : BitVec 4) (imm : BitVec 15)
  /-- `aloop` (R337). -/
  | aloop (d : BitVec 4) (imm : BitVec 15)
  /-- `abr` (R337). -/
  | abr (d : BitVec 4) (a : BitVec 4) (b : BitVec 4) (imm : BitVec 15)
  /-- `awq` (R337). -/
  | awq (d : BitVec 4)
  /-- `aend` (R337). -/
  | aend
  /-- `xpop` (R338). -/
  | xpop (d : BitVec 4)
  /-- `xpush` (R338). -/
  | xpush (a : BitVec 4) (b : BitVec 4)
  /-- `xadd` (R338). -/
  | xadd (d : BitVec 4) (a : BitVec 4) (b : BitVec 4)
  /-- `xmul` (R338). -/
  | xmul (d : BitVec 4) (a : BitVec 4) (b : BitVec 4)
  /-- `xfma` (R338). -/
  | xfma (d : BitVec 4) (a : BitVec 4) (b : BitVec 4)
  /-- `xmax` (R338). -/
  | xmax (d : BitVec 4) (a : BitVec 4) (b : BitVec 4)
  /-- `xscale` (R338). -/
  | xscale (d : BitVec 4) (a : BitVec 4) (b : BitVec 4)
  /-- `xcvt` (R338). -/
  | xcvt (d : BitVec 4) (a : BitVec 4) (imm : BitVec 15)
  /-- `xset` (R338). -/
  | xset (d : BitVec 4) (a : BitVec 4) (imm : BitVec 15)
  /-- `xset.add` (R338). -/
  | xsetAdd (d : BitVec 4) (a : BitVec 4) (imm : BitVec 15)
  /-- `xset.b` (R338). -/
  | xsetB (d : BitVec 4) (a : BitVec 4)
  /-- `xloop` (R338). -/
  | xloop (d : BitVec 4) (imm : BitVec 15)
  /-- `xbr` (R338). -/
  | xbr (d : BitVec 4) (a : BitVec 4) (b : BitVec 4) (imm : BitVec 15)
  /-- `xend` (R338). -/
  | xend
  /-- Mailbox command that makes a VF a partition with a resource list. (R394) -/
  | pcreate (fn : Nat)
  /-- Mailbox command that replaces a partition's resources. (R395) -/
  | presize (fn : Nat)
  /-- Mailbox command that ends a partition's contexts and frees its resources. (R396) -/
  | pdestroy (fn : Nat)
  /-- Mailbox command that binds the hypervisor's error log. (R390) -/
  | logset (fn : Nat)
  /-- Mailbox command that sets a partition's bandwidth bucket at one regulator point. (R399) -/
  | setrate (fn : Nat)
  /-- Mailbox command that writes a stack's channel frame control register. (R366) -/
  | setframe (fn : Nat)
  /-- Mailbox command that creates an elided-constant page. (R390) -/
  | elide (fn : Nat)
  /-- FUSE operation 0: raises the fused SVN by one. (R407) -/
  | fuseRaiseSvn (fn : Nat)
  /-- FUSE operation 1: sets TESTMODE and performs the wipe. (R407) -/
  | fuseSetTestmode (fn : Nat)
  /-- FUSE operation 2: retires a free resource, setting its Sorica entry to STATE 2. (R407) -/
  | fuseRetireResource (fn : Nat)
  /-- Mailbox command that reads a context descriptor and creates a context. (R392) -/
  | ctxcreate (fn : Nat)
  /-- Mailbox command that ends or clears a context so that it accepts new records. (R390) -/
  | ctxreset (fn : Nat)
  /-- Mailbox command that binds a launch queue to a context and zeroes its head and tail. (R390) -/
  | qcreate (fn : Nat)
  /-- Mailbox command that halts a context and saves its teams. (R379) -/
  | preempt (fn : Nat)
  /-- Mailbox command that restores a pre-empted or stopped context. (R381) -/
  | resume (fn : Nat)
  /-- Mailbox command that delivers a system handler's reply to a held fragment. (R369) -/
  | reply (fn : Nat)
  /-- Mailbox command that invalidates a context's translations for a range. (R393) -/
  | tlbinv (fn : Nat)
  /-- Mailbox command that drops the instruction cache lines of a partition's cores. (R393) -/
  | icinv (fn : Nat)
  /-- Mailbox command that flips a 4 KiB page between host-bias and device-bias. (R387) -/
  | flip (fn : Nat)
  /-- Mailbox command that claims a performance counter bank or a trace unit. (R400) -/
  | claim (fn : Nat)
  /-- Mailbox command that releases a claim or a revoked claim. (R390) -/
  | unclaim (fn : Nat)
  /-- Mailbox command that opens an HPKE-sealed key into a tenant key slot. (R409) -/
  | keyload (fn : Nat)
  /-- Mailbox command that writes a signed quote. (R408) -/
  | attest (fn : Nat)
  /-- Mailbox command that verifies, measures and starts the firmware image. (R405) -/
  | boot (fn : Nat)
  /-- Host write of a new tail to a launch queue's doorbell, checked against the head. (R104) -/
  | launchDoorbell (vf queue : Nat) (tail : Word)
  /-- Write of NOW to a trace unit window that dumps context CTX, encrypted, to the dump area. (R417) -/
  | dumpNow (fn unit : Nat)
  /-- Write of ARM that arms a count stop, or sets BADSTOP when the count cannot be reached. (R416) -/
  | countStopArm (fn unit : Nat)
  /-- Software write of RCOUNT that consumes ring records; a value above WCOUNT is ignored. (R410) -/
  | traceRcountWrite (fn unit : Nat) (value : DWord)
  /-- Write to a register field with no row of its own; a write that sets a reserved bit is ignored. (R410) -/
  | registerWrite (fn : Nat) (reg : HostReg) (value : DWord)
  /-- Supplies applied and reset released: all state is cleared, VCLOCK is 0 and the boot ROM starts. (R404) -/
  | deviceReset
  /-- Removal of supply loses all device state except the fuses. (R24) -/
  | supplyRemoved
  /-- Reset of PF 0 or hot reset of link 0 returns the device to the state after boot step 1. (R402) -/
  | hotReset
  /-- Reset of a VF ends its contexts, releases its claims and clears its key slots. (R402) -/
  | functionLevelReset (vf : Nat)
  /-- A host link trains or falls back in width and rate. (R385) -/
  | linkTraining (link width rate : Nat)
  /-- Host CXL.mem access to device memory, checked at activate as function 0. (R386) -/
  | hostCxlMemAccess (access : HostAccess)
  /-- Once a colliding host request completes, the device reissues its back-invalidation and performs the waiting access. (R351) -/
  | backInvalidateReissue (line : Nat)
  /-- When measured power nears the limit, the management core lowers island frequencies and logs a throttle event. (R23) -/
  | throttle (island mhz : Nat)
  /-- VCLOCK advances by one at every point of the package. (R130) -/
  | vclockTick
  /-- The primary management core sends its 1 ms heartbeat to the shadow. (R406) -/
  | mgmtHeartbeat
  /-- After 10 ms without a heartbeat, the shadow holds the primary in reset and takes over the mailboxes. (R406) -/
  | takeover
  /-- A hearth reads and corrects a row in its patrol scrub, logging corrections. (R82) -/
  | patrolScrub (row : Nat)
  /-- A hearth zero-fills a released row in an ordinary interval, making it assignable. (R396) -/
  | zeroFill (row : Nat)
  /-- The package distributor takes and reads one launch record from a queue in rotation and places the grid in the pending pool. (R353) -/
  | launchAccept (vf : Nat)
  /-- The distributor rereads a grid's dependency counter on a serialised write or after 65,536 clocks, making the grid ready or refusing it. (R354) -/
  | dependencyReread (grid : Nat)
  /-- A grid ready for 2^24 clocks with no team placed gets dispatch priority 3. (R356) -/
  | priorityPromotion (grid : Nat)
  /-- The package distributor hands a range of teams to a die distributor in rotation. (R357) -/
  | packageRangeHandout (vf : Nat)
  /-- A die distributor hands a hive range to a hive distributor in rotation. (R357) -/
  | dieRangeHandout (die vf : Nat)
  /-- An idle hive distributor steals the upper half of the unstarted teams of a sibling's youngest range. (R359) -/
  | hiveSteal (hive vf : Nat)
  /-- An idle die distributor steals ranges from another die's package range queue. (R359) -/
  | dieSteal (die vf : Nat)
  /-- A hive distributor places a team on the lowest core that fits and starts it. (R360) -/
  | teamPlace (hive : Nat)
  /-- After 65,536 clocks without fitting, the hive places no team of a later range before the waiting team. (R361) -/
  | fitWaitExpiry (hive : Nat)
  /-- When its warps, sequencer and operations are done and its stores are acknowledged, a team releases its resources. (R42) -/
  | teamRetire (core team : Nat)
  /-- When its teams and children have retired, a grid adds its completion increment as a release at .sys. (R45) -/
  | gridRetire (grid : Nat)
  /-- A warp or sequencer fetches a line, translated and row-checked, trapping on failure. (R436) -/
  | instructionFetch (who : FetchUnit)
  /-- A slot that fails parity is refetched once from L2 and traps FETCH_PARITY if it fails again. (R182) -/
  | fetchParityRefetch (who : FetchUnit)
  /-- After 64 issue opportunities a yielding fragment is eligible again. (R208) -/
  | yieldExpiry (core slot entry : Nat)
  /-- A scheduler's sample down-counter reaches 0, reloads, and samples the next resident warp. (R131) -/
  | sample (core sched : Nat)
  /-- A pending store leaves L1 for its home within 64 clocks, merged by sector with a byte mask. (R87) -/
  | storeSend (id : Nat)
  /-- A store arrives at its home L2 slice, or at every copy of a replicated page, and is applied with its byte mask. (R91) -/
  | homeStore (id copy : Nat)
  /-- The home's acknowledgement clears the dirty bit, returns a stamp and lowers the warp's store counter. (R87) -/
  | storeAck (id : Nat)
  /-- Returned words fill L1 and are written back to the load's destination. (R271) -/
  | loadReply (id : Nat) (evict : List Nat)
  /-- An interlocked special-function result is written back. (R200) -/
  | sfuWriteback (id : Nat)
  /-- The die walker completes a page table walk and fills the TLBs, or finds the entry absent. (R100) -/
  | tlbWalk (core ctx : Nat) (va : DWord)
  /-- A hearth activates a row after checking the origin's function and rights, refusing with ROW_DENIED. (R115) -/
  | dramActivate (stack ch slice bank : Nat)
  /-- A slice-bank closes its open row under the DRAM timing. (R78) -/
  | dramPrecharge (stack ch slice bank : Nat)
  /-- A channel performs one burst, taking at most one queued word per slice. (R77) -/
  | burst (stack ch : Nat) (retry : Nat)
  /-- An L2 slice writes dirty words to DRAM on eviction, wbr or fence.mem. (R91) -/
  | l2Writeback (frame : Nat)
  /-- A migrated word is evicted from the synchronisation engine back to its home slice, dirty. (R94) -/
  | syncEvict (word : Nat)
  /-- The synchronisation engine performs one atomic step on a word as a new maximum write. (R278) -/
  | atomicExecute (id : Nat)
  /-- The atomic's old value returns to the warp and its acknowledgement lowers the store counter. (R278) -/
  | atomicReply (id : Nat)
  /-- The homes validate a surviving transaction's read set and commit its write set as one atomic event, or abort it. (R283) -/
  | txValidate (core slot thread : Nat)
  /-- A partition's solo grant is given to the next waiting txbeg, which opens its transactions. (R286) -/
  | soloGrant (vf : Nat)
  /-- A solo attempt that holds the grant for 2^20 ticks aborts with REASON 8. (R286) -/
  | soloTimeout (vf : Nat)
  /-- A waiting cwait or cyield rereads its counter when the engine serialises a write to it, and resumes if the target is met. (R221) -/
  | cwaitReread (core slot entry : Nat)
  /-- The system handler's reply arrives and is written to s[D]. (R227) -/
  | syscReply (id : Nat) (value : DWord)
  /-- A barrier wait counter reaches its limit, firing BARRIER_TIMEOUT. (R375) -/
  | barrierTimeout (core team bar : Nat)
  /-- The copy engine accepts an operation and reads its tensor layout record once. (R311) -/
  | copyAccept (hive ch : Nat)
  /-- The copy engine moves one part of an operation, stopping on an error. (R312) -/
  | copyPart (hive ch : Nat)
  /-- When a copy operation ends, its counter gains 1 as a release at .dev. (R314) -/
  | copyComplete (hive ch : Nat)
  /-- A bloop iteration starts once its stage has RELEASED set. (R315) -/
  | bloopIteration (hive ch : Nat)
  /-- A bmcast delivery to one team checks the allocation's generation and writes, waits for restore, or drops with MCAST_STALE. (R316) -/
  | mcastDelivery (hive ch index : Nat)
  /-- The collective engine combines a sequence's contributions, writes the destinations and adds to each participant's counter. (R317) -/
  | kcollSequence (die : Nat)
  /-- The partials of a gather-reduce are written back, or the instruction traps precisely. (R323) -/
  | gredReply (id : Nat)
  /-- A hearth accepts an indexed-reduce command and reads its layout record once. (R325) -/
  | nredAccept (stack : Nat)
  /-- The hearth computes and writes one bag of a command. (R328) -/
  | nredBag (stack : Nat)
  /-- A command ends, complete or stopped, and adds 1 to its counter as a release. (R329) -/
  | nredComplete (stack : Nat)
  /-- When the stoves are idle, the hearth reads both microprograms and loads and initialises each stove, or refuses the launch. (R331) -/
  | stoveLaunch (stack : Nat)
  /-- A stove whose threads have both ended discards its queues, and when all stoves end the launch adds to CNT. (R332) -/
  | stoveEnd (stack ch : Nat)
  /-- The hearth writes the status records of the selected stoves and adds to the counter. (R333) -/
  | nstatService (stack : Nat)
  /-- The hearth ends the selected stoves at an instruction boundary and adds to the counter. (R334) -/
  | nkillService (stack : Nat)
  /-- A channel frame starts on all channels of a stack, with its compute interval first. (R366) -/
  | frameStart (stack : Nat)
  /-- The compute interval ends: nred commands stop and ordinary traffic resumes. (R367) -/
  | ordinaryIntervalStart (stack : Nat)
  /-- At clock 98 of an ordinary interval, an address thread that has not suspended suspends at its current boundary. (R339) -/
  | stoveDeadline (stack ch : Nat)
  /-- The conversion of a region ends and its entry becomes sealed. (R293) -/
  | sealComplete (hive region : Nat)
  /-- A posted mmac's slab read finishes and its MATRIX operation completes. (R299) -/
  | slabReadDone (id : Nat)
  /-- The arbiter grants a grantable pass its cell by priority, age and posting order. (R364) -/
  | passGrant (hive cell : Nat)
  /-- A pass ends and adds its result into its tiles once. (R301) -/
  | passComplete (id : Nat)
  /-- A posted mget writes converted tile columns into the warp's registers. (R303) -/
  | mgetWriteback (id : Nat)
  /-- A posted mput writes the registers into tile columns. (R304) -/
  | mputDone (id : Nat)
  /-- A posted mzero sets every element of its tile to +0. (R302) -/
  | mzeroDone (id : Nat)
  /-- Taking a FOREIGN tile spills it to its owner's save record, zeroes it and gives it to the taker. (R384) -/
  | accForeignSpill (core tile : Nat)
  /-- After the halt, the context-save engine writes each team's record and completes the pre-emption request. (R380) -/
  | contextSave (ctx : Nat)
  /-- A saved team's record is written back onto its own core once the core fits it. (R381) -/
  | teamRestore (ctx index : Nat)
  /-- In replay mode, once every party has ended its quantum, stores and ending instructions are applied in a fixed order. (R414) -/
  | quantumBoundary (vf : Nat)
  /-- The named warp reaches STOPCNT and the context halts with STOPPED set. (R416) -/
  | countStop (unit : Nat)
  /-- The device reports its temperatures to the tray controller over the I3C basic sideband target. (R24) -/
  | i3cTemperatureReport
  /-- A resource's Sorica entry enters STATE 3, retired by fault, as the table's changers include faults. (R120) -/
  | retiredByFault (kind index : Nat)
  /-- When no place fits a screened team's shadow within 65,536 clocks of the team's placement, that team is not screened. (R372) -/
  | teamNotScreened (core team : Nat)
  deriving DecidableEq, Repr

end Sys2Proof
end

