-- ==== Sys2Proof/Decode.lean ====
section
/-! DEFINITION. Decoding: the 96-bit word of a vector or matrix stream (09 R180, R186, R190, R194, Table 9.7), the
32-bit stove word (15 R336, Tables 15.7 to 15.9), and after them the encoders, written from the same tables. -/

namespace Sys2Proof

/-- The opcode of a stream word, bits 95-86 (Table 9.4). -/
def opcOf (w : BitVec 96) : BitVec 10 := w.extractLsb' 86 10

/-- The header fields of a stream word, bits 85-64 (Table 9.4). -/
def hdrOf (w : BitVec 96) : Hdr where
  g1 := w.extractLsb' 82 4
  g2 := w.extractLsb' 78 4
  gm := w.getLsbD 77
  stall := w.extractLsb' 73 4
  yld := w.getLsbD 72
  u := w.getLsbD 71
  hint := w.extractLsb' 68 3
  reu := w.getLsbD 67
  fs := w.extractLsb' 64 3

/-- The body of a stream word, bits 63-0. -/
def bodyOf (w : BitVec 96) : DWord := w.extractLsb' 0 64

/-- Body format V (Table 9.5). -/
def vBodyOf (x : DWord) : VBody :=
  ⟨x.extractLsb' 56 8, x.extractLsb' 48 8, x.extractLsb' 40 8, x.extractLsb' 32 8, x.extractLsb' 24 8, x.extractLsb' 0 24⟩
/-- Body format I. -/
def iBodyOf (x : DWord) : IBody :=
  ⟨x.extractLsb' 56 8, x.extractLsb' 48 8, x.extractLsb' 16 32, x.extractLsb' 0 16⟩
/-- Body format M. -/
def mBodyOf (x : DWord) : MBody :=
  ⟨x.extractLsb' 56 8, x.extractLsb' 48 8, x.extractLsb' 40 8, x.extractLsb' 32 8, x.extractLsb' 8 24, x.extractLsb' 0 8⟩
/-- Body format J. -/
def jBodyOf (x : DWord) : JBody :=
  ⟨x.extractLsb' 35 29, x.extractLsb' 32 3, x.extractLsb' 3 29, x.extractLsb' 0 3⟩
/-- Body format C. -/
def cBodyOf (x : DWord) : CBody :=
  ⟨x.extractLsb' 56 8, x.extractLsb' 48 8, x.extractLsb' 40 8, x.extractLsb' 32 8, x.extractLsb' 24 8, x.extractLsb' 0 24⟩
/-- Body format S. -/
def sBodyOf (x : DWord) : SBody :=
  ⟨x.extractLsb' 56 8, x.extractLsb' 40 16, x.extractLsb' 0 40⟩

/-- Class 0x0 of Table 9.7, by operation. -/
def decodeControl (op : Nat) (h : Hdr) (x : DWord) : Option Instr :=
  match op with
  | 0 => some (.nop h (vBodyOf x))
  | 1 => some (.bra h (jBodyOf x))
  | 2 => some (.brx h (vBodyOf x))
  | 3 => some (.call h (jBodyOf x))
  | 4 => some (.callx h (vBodyOf x))
  | 5 => some (.ret h (vBodyOf x))
  | 6 => some (.exit h (vBodyOf x))
  | 7 => some (.join h (vBodyOf x))
  | 8 => some (.yield h (vBodyOf x))
  | 9 => some (.trap h (iBodyOf x))
  | 10 => some (.tret h (iBodyOf x))
  | 11 => some (.brk h (vBodyOf x))
  | _ => none

/-- Class 0x1 of Table 9.7, by operation. -/
def decodeSync (op : Nat) (h : Hdr) (x : DWord) : Option Instr :=
  match op with
  | 0 => some (.barArrive h (iBodyOf x))
  | 1 => some (.barWait h (iBodyOf x))
  | 2 => some (.barSync h (iBodyOf x))
  | 3 => some (.barQuery h (iBodyOf x))
  | 4 => some (.drain h (iBodyOf x))
  | 5 => some (.fence h (iBodyOf x))
  | 6 => some (.owait h (iBodyOf x))
  | 7 => some (.cwait h (vBodyOf x))
  | 8 => some (.cyield h (vBodyOf x))
  | 9 => some (.glaunch h (vBodyOf x))
  | 10 => some (.gwait h (vBodyOf x))
  | _ => none

/-- Class 0x2 of Table 9.7, by operation. -/
def decodeInteger (op : Nat) (h : Hdr) (x : DWord) : Option Instr :=
  match op with
  | 0 => some (.add h (vBodyOf x))
  | 1 => some (.sub h (vBodyOf x))
  | 2 => some (.mul h (vBodyOf x))
  | 3 => some (.mulh h (vBodyOf x))
  | 4 => some (.mad h (vBodyOf x))
  | 5 => some (.min h (vBodyOf x))
  | 6 => some (.max h (vBodyOf x))
  | 7 => some (.abs h (vBodyOf x))
  | 8 => some (.neg h (vBodyOf x))
  | 9 => some (.and h (vBodyOf x))
  | 10 => some (.or h (vBodyOf x))
  | 11 => some (.xor h (vBodyOf x))
  | 12 => some (.not h (vBodyOf x))
  | 13 => some (.andn h (vBodyOf x))
  | 14 => some (.shl h (vBodyOf x))
  | 15 => some (.shr h (vBodyOf x))
  | 16 => some (.sar h (vBodyOf x))
  | 17 => some (.rot h (vBodyOf x))
  | 18 => some (.sel h (vBodyOf x))
  | 19 => some (.mov h (vBodyOf x))
  | 20 => some (.cmp h (vBodyOf x))
  | 21 => some (.addi h (iBodyOf x))
  | 22 => some (.andi h (iBodyOf x))
  | 23 => some (.ori h (iBodyOf x))
  | 24 => some (.movi h (iBodyOf x))
  | 25 => some (.cmpi h (iBodyOf x))
  | 26 => some (.lea h (vBodyOf x))
  | 27 => some (.add64 h (vBodyOf x))
  | 28 => some (.mad64 h (vBodyOf x))
  | _ => none

/-- Class 0x3 of Table 9.7, by operation. -/
def decodeBit (op : Nat) (h : Hdr) (x : DWord) : Option Instr :=
  match op with
  | 0 => some (.popc h (vBodyOf x))
  | 1 => some (.clz h (vBodyOf x))
  | 2 => some (.ctz h (vBodyOf x))
  | 3 => some (.brev h (vBodyOf x))
  | 4 => some (.bfe h (vBodyOf x))
  | 5 => some (.bfi h (vBodyOf x))
  | 6 => some (.prmt h (vBodyOf x))
  | 7 => some (.shfn h (vBodyOf x))
  | 8 => some (.lop3 h (vBodyOf x))
  | _ => none

/-- Class 0x4 of Table 9.7, by operation. -/
def decodeCrossLane (op : Nat) (h : Hdr) (x : DWord) : Option Instr :=
  match op with
  | 0 => some (.shfl h (vBodyOf x))
  | 1 => some (.lred h (vBodyOf x))
  | 2 => some (.lscan h (vBodyOf x))
  | 3 => some (.vote h (vBodyOf x))
  | 4 => some (.ballot h (vBodyOf x))
  | 5 => some (.bcast h (vBodyOf x))
  | 6 => some (.matchLanes h (vBodyOf x))
  | 7 => some (.prank h (vBodyOf x))
  | _ => none

/-- Class 0x5 of Table 9.7, by operation. -/
def decodePredicate (op : Nat) (h : Hdr) (x : DWord) : Option Instr :=
  match op with
  | 0 => some (.plop h (vBodyOf x))
  | 1 => some (.pmask h (vBodyOf x))
  | 2 => some (.psetm h (vBodyOf x))
  | 3 => some (.pact h (vBodyOf x))
  | _ => none

/-- Class 0x6 of Table 9.7, by operation. -/
def decodeFp32 (op : Nat) (h : Hdr) (x : DWord) : Option Instr :=
  match op with
  | 0 => some (.fadd h (vBodyOf x))
  | 1 => some (.fsub h (vBodyOf x))
  | 2 => some (.fmul h (vBodyOf x))
  | 3 => some (.ffma h (vBodyOf x))
  | 4 => some (.fmin h (vBodyOf x))
  | 5 => some (.fmax h (vBodyOf x))
  | 6 => some (.fcmp h (vBodyOf x))
  | 7 => some (.frnd h (vBodyOf x))
  | 8 => some (.fclass h (vBodyOf x))
  | 9 => some (.fscale h (vBodyOf x))
  | 10 => some (.fexpt h (vBodyOf x))
  | 11 => some (.fdot2 h (vBodyOf x))
  | _ => none

/-- Class 0x7 of Table 9.7, by operation. -/
def decodePacked (op : Nat) (h : Hdr) (x : DWord) : Option Instr :=
  match op with
  | 0 => some (.hadd2 h (vBodyOf x))
  | 1 => some (.hsub2 h (vBodyOf x))
  | 2 => some (.hmul2 h (vBodyOf x))
  | 3 => some (.hfma2 h (vBodyOf x))
  | 4 => some (.hmin2 h (vBodyOf x))
  | 5 => some (.hmax2 h (vBodyOf x))
  | 6 => some (.hcmp2 h (vBodyOf x))
  | 7 => some (.e8dot4 h (vBodyOf x))
  | _ => none

/-- Class 0x8 of Table 9.7, by operation. -/
def decodeSpecial (op : Nat) (h : Hdr) (x : DWord) : Option Instr :=
  match op with
  | 0 => some (.frcp h (vBodyOf x))
  | 1 => some (.frsq h (vBodyOf x))
  | 2 => some (.fsqrt h (vBodyOf x))
  | 3 => some (.fex2 h (vBodyOf x))
  | 4 => some (.flg2 h (vBodyOf x))
  | 5 => some (.fsin h (vBodyOf x))
  | 6 => some (.fcos h (vBodyOf x))
  | 7 => some (.fscs h (vBodyOf x))
  | 8 => some (.ftanh h (vBodyOf x))
  | 9 => some (.fsig h (vBodyOf x))
  | 10 => some (.ferf h (vBodyOf x))
  | _ => none

/-- Class 0x9 of Table 9.7, by operation. -/
def decodeConvert (op : Nat) (h : Hdr) (x : DWord) : Option Instr :=
  match op with
  | 0 => some (.cvt h (vBodyOf x))
  | 1 => some (.cvtq h (vBodyOf x))
  | 2 => some (.cvtdq h (vBodyOf x))
  | 3 => some (.cvsc h (vBodyOf x))
  | 4 => some (.pack h (vBodyOf x))
  | 5 => some (.unpack h (vBodyOf x))
  | _ => none

/-- Class 0xA of Table 9.7, by operation. -/
def decodeMemory (op : Nat) (h : Hdr) (x : DWord) : Option Instr :=
  match op with
  | 0 => some (.ld h (mBodyOf x))
  | 1 => some (.st h (mBodyOf x))
  | 2 => some (.ldp h (mBodyOf x))
  | 3 => some (.stp h (mBodyOf x))
  | 4 => some (.ldc h (mBodyOf x))
  | 5 => some (.lds h (mBodyOf x))
  | 6 => some (.sts h (mBodyOf x))
  | 7 => some (.ldl h (mBodyOf x))
  | 8 => some (.stl h (mBodyOf x))
  | 9 => some (.pf h (mBodyOf x))
  | 10 => some (.wbr h (mBodyOf x))
  | 11 => some (.invr h (mBodyOf x))
  | _ => none

/-- Class 0xB of Table 9.7, by operation. -/
def decodeAtomic (op : Nat) (h : Hdr) (x : DWord) : Option Instr :=
  match op with
  | 0 => some (.atom h (mBodyOf x))
  | 1 => some (.ared h (mBodyOf x))
  | 2 => some (.cas16 h (mBodyOf x))
  | 3 => some (.txbeg h (jBodyOf x))
  | 4 => some (.txend h (vBodyOf x))
  | 5 => some (.txabt h (vBodyOf x))
  | _ => none

/-- Class 0xC of Table 9.7, by operation. -/
def decodeCopy (op : Nat) (h : Hdr) (x : DWord) : Option Instr :=
  match op with
  | 0 => some (.bcopy h (vBodyOf x))
  | 1 => some (.bloop h (vBodyOf x))
  | 2 => some (.brel h (vBodyOf x))
  | 3 => some (.bmcast h (vBodyOf x))
  | 4 => some (.kcoll h (vBodyOf x))
  | _ => none

/-- Class 0xD of Table 9.7, by operation. -/
def decodeMatrix (op : Nat) (h : Hdr) (x : DWord) : Option Instr :=
  match op with
  | 0 => some (.mseal h (cBodyOf x))
  | 1 => some (.munseal h (cBodyOf x))
  | 2 => some (.mmac h (cBodyOf x))
  | 3 => some (.mstart h (cBodyOf x))
  | 4 => some (.mzero h (cBodyOf x))
  | 5 => some (.mget h (cBodyOf x))
  | 6 => some (.mput h (cBodyOf x))
  | 7 => some (.mbwait h (cBodyOf x))
  | 8 => some (.mbarr h (cBodyOf x))
  | 9 => some (.mbra h (jBodyOf x))
  | 10 => some (.mloop h (jBodyOf x))
  | 11 => some (.mset h (iBodyOf x))
  | 12 => some (.mpoint h (cBodyOf x))
  | 13 => some (.mend h (cBodyOf x))
  | 14 => some (.mfence h (cBodyOf x))
  | _ => none

/-- Class 0xE of Table 9.7, by operation. -/
def decodeNear (op : Nat) (h : Hdr) (x : DWord) : Option Instr :=
  match op with
  | 0 => some (.gred h (mBodyOf x))
  | 1 => some (.nred h (vBodyOf x))
  | 2 => some (.nlaunch h (vBodyOf x))
  | 3 => some (.nstat h (vBodyOf x))
  | 4 => some (.nkill h (vBodyOf x))
  | _ => none

/-- Class 0xF of Table 9.7, by operation. -/
def decodeSystem (op : Nat) (h : Hdr) (x : DWord) : Option Instr :=
  match op with
  | 0 => some (.srd h (sBodyOf x))
  | 1 => some (.swr h (sBodyOf x))
  | 2 => some (.sysc h (sBodyOf x))
  | _ => none

/-- The instruction of a class and operation; none where Table 9.7 assigns no point (R194). -/
def decodeOpc (cls op : Nat) (h : Hdr) (x : DWord) : Option Instr :=
  match cls with
  | 0 => decodeControl op h x
  | 1 => decodeSync op h x
  | 2 => decodeInteger op h x
  | 3 => decodeBit op h x
  | 4 => decodeCrossLane op h x
  | 5 => decodePredicate op h x
  | 6 => decodeFp32 op h x
  | 7 => decodePacked op h x
  | 8 => decodeSpecial op h x
  | 9 => decodeConvert op h x
  | 10 => decodeMemory op h x
  | 11 => decodeAtomic op h x
  | 12 => decodeCopy op h x
  | 13 => decodeMatrix op h x
  | 14 => decodeNear op h x
  | 15 => decodeSystem op h x
  | _ => none

/-- The instruction of a 96-bit stream word; none is an unassigned point, which traps ILLEGAL_OPC (R194). -/
def decodeStream (w : BitVec 96) : Option Instr :=
  decodeOpc ((opcOf w).toNat / 64) ((opcOf w).toNat % 64) (hdrOf w) (bodyOf w)

/-- Why a stove word is no instruction (Table 15.7). -/
inductive StoveBad where
  | illegal
  | reserved
  deriving DecidableEq, Repr

/-- Accept an instruction only where every unused field is zero (R336). -/
def stoveIf (ok : Bool) (i : Instr) : Except StoveBad Instr := if ok then .ok i else .error .reserved

/-- The instruction of a stove word (Table 15.7). -/
def decodeStove (w : Word) : Except StoveBad Instr :=
  let d := w.extractLsb' 23 4
  let a := w.extractLsb' 19 4
  let b := w.extractLsb' 15 4
  let i := w.extractLsb' 0 15
  match (w.extractLsb' 27 5).toNat with
  | 0 => stoveIf (d == 0 && i == 0) (.aopen a b)
  | 1 => stoveIf (d == 0) (.acol a b i)
  | 2 => stoveIf (d == 0 && a == 0 && b == 0 && i == 0) .awr
  | 3 => stoveIf (d == 0 && a == 0 && b == 0 && i == 0) .anext
  | 4 => stoveIf (b == 0) (.aset d a i)
  | 5 => .ok (.aadd d a b i)
  | 6 => stoveIf (a == 0 && b == 0) (.aloop d i)
  | 7 => .ok (.abr d a b i)
  | 8 => stoveIf (a == 0 && b == 0 && i == 0) (.awq d)
  | 9 => stoveIf (d == 0 && a == 0 && b == 0 && i == 0) .aend
  | 16 => stoveIf (a == 0 && b == 0 && i == 0) (.xpop d)
  | 17 => stoveIf (d == 0 && i == 0) (.xpush a b)
  | 18 => stoveIf (i == 0) (.xadd d a b)
  | 19 => stoveIf (i == 0) (.xmul d a b)
  | 20 => stoveIf (i == 0) (.xfma d a b)
  | 21 => stoveIf (i == 0) (.xmax d a b)
  | 22 => stoveIf (i == 0) (.xscale d a b)
  | 23 => stoveIf (b == 0) (.xcvt d a i)
  | 24 =>
    match b.toNat with
    | 0 => .ok (.xset d a i)
    | 1 => .ok (.xsetAdd d a i)
    | 2 => stoveIf (i == 0) (.xsetB d a)
    | _ => .error .reserved
  | 25 => stoveIf (a == 0 && b == 0) (.xloop d i)
  | 26 => .ok (.xbr d a b i)
  | 27 => stoveIf (d == 0 && a == 0 && b == 0 && i == 0) .xend
  | _ => .error .illegal

/-- The word of an instruction given as its low `nbits` bits (opcode_table.json's numbering): 32-bit words are stove
words, 96-bit words are stream words. -/
def decodeTableWord (nbits w : Nat) : Option Instr :=
  if nbits ≤ 32 then (decodeStove (BitVec.ofNat 32 w)).toOption else decodeStream (BitVec.ofNat 96 w)

/-- The 12 bytes of slot `i` of a fetch line, as a stream word (Table 9.1). -/
def slotWord (line : BitVec 512) (i : Nat) : BitVec 96 := line.extractLsb' (96 * i) 96
/-- The line word (Table 9.2). -/
def lineWord (line : BitVec 512) : Word := line.extractLsb' 480 32

/-- The parity of a number's low `n` bits. -/
def parityBits (x : Nat) : Nat → Bool
  | 0 => false
  | n + 1 => xor (x.testBit n) (parityBits x n)

/-- Slot `i` and its parity bit hold an even number of ones (Table 9.2). -/
def slotParityOk (line : BitVec 512) (i : Nat) : Bool :=
  parityBits (slotWord line i).toNat 96 == (lineWord line).getLsbD (19 + i)

/-! The encoders. -/

/-- The header of an opcode and header fields (Table 9.4). -/
def packHdr (opc : Nat) (h : Hdr) : Word :=
  BitVec.ofNat 10 opc ++ h.g1 ++ h.g2 ++ BitVec.ofBool h.gm ++ h.stall ++ BitVec.ofBool h.yld ++ BitVec.ofBool h.u ++
    h.hint ++ BitVec.ofBool h.reu ++ h.fs

/-- Body format V. -/
def packV (b : VBody) : DWord := b.d ++ b.a ++ b.b ++ b.c ++ b.e ++ b.mod
/-- Body format I. -/
def packI (b : IBody) : DWord := b.d ++ b.a ++ b.imm ++ b.mod
/-- Body format M. -/
def packM (b : MBody) : DWord := b.d ++ b.a ++ b.b ++ b.c ++ b.off ++ b.mm
/-- Body format J. -/
def packJ (b : JBody) : DWord := b.tdelta ++ b.tslot ++ b.rdelta ++ b.rslot
/-- Body format C. -/
def packC (b : CBody) : DWord := b.acc ++ b.warp ++ b.vreg ++ b.count ++ b.region ++ b.cmod
/-- Body format S. -/
def packS (b : SBody) : DWord := b.d ++ b.sel ++ b.mod

/-- Opcode, header fields and body bits of a stream instruction (Table 9.7); none for a stove word or an event. -/
def streamParts (i : Instr) : Option (Nat × Hdr × DWord) :=
  match i with
  | .nop h b => some (0, h, packV b)
  | .bra h b => some (1, h, packJ b)
  | .brx h b => some (2, h, packV b)
  | .call h b => some (3, h, packJ b)
  | .callx h b => some (4, h, packV b)
  | .ret h b => some (5, h, packV b)
  | .exit h b => some (6, h, packV b)
  | .join h b => some (7, h, packV b)
  | .yield h b => some (8, h, packV b)
  | .trap h b => some (9, h, packI b)
  | .tret h b => some (10, h, packI b)
  | .brk h b => some (11, h, packV b)
  | .barArrive h b => some (64, h, packI b)
  | .barWait h b => some (65, h, packI b)
  | .barSync h b => some (66, h, packI b)
  | .barQuery h b => some (67, h, packI b)
  | .drain h b => some (68, h, packI b)
  | .fence h b => some (69, h, packI b)
  | .owait h b => some (70, h, packI b)
  | .cwait h b => some (71, h, packV b)
  | .cyield h b => some (72, h, packV b)
  | .glaunch h b => some (73, h, packV b)
  | .gwait h b => some (74, h, packV b)
  | .add h b => some (128, h, packV b)
  | .sub h b => some (129, h, packV b)
  | .mul h b => some (130, h, packV b)
  | .mulh h b => some (131, h, packV b)
  | .mad h b => some (132, h, packV b)
  | .min h b => some (133, h, packV b)
  | .max h b => some (134, h, packV b)
  | .abs h b => some (135, h, packV b)
  | .neg h b => some (136, h, packV b)
  | .and h b => some (137, h, packV b)
  | .or h b => some (138, h, packV b)
  | .xor h b => some (139, h, packV b)
  | .not h b => some (140, h, packV b)
  | .andn h b => some (141, h, packV b)
  | .shl h b => some (142, h, packV b)
  | .shr h b => some (143, h, packV b)
  | .sar h b => some (144, h, packV b)
  | .rot h b => some (145, h, packV b)
  | .sel h b => some (146, h, packV b)
  | .mov h b => some (147, h, packV b)
  | .cmp h b => some (148, h, packV b)
  | .addi h b => some (149, h, packI b)
  | .andi h b => some (150, h, packI b)
  | .ori h b => some (151, h, packI b)
  | .movi h b => some (152, h, packI b)
  | .cmpi h b => some (153, h, packI b)
  | .lea h b => some (154, h, packV b)
  | .add64 h b => some (155, h, packV b)
  | .mad64 h b => some (156, h, packV b)
  | .popc h b => some (192, h, packV b)
  | .clz h b => some (193, h, packV b)
  | .ctz h b => some (194, h, packV b)
  | .brev h b => some (195, h, packV b)
  | .bfe h b => some (196, h, packV b)
  | .bfi h b => some (197, h, packV b)
  | .prmt h b => some (198, h, packV b)
  | .shfn h b => some (199, h, packV b)
  | .lop3 h b => some (200, h, packV b)
  | .shfl h b => some (256, h, packV b)
  | .lred h b => some (257, h, packV b)
  | .lscan h b => some (258, h, packV b)
  | .vote h b => some (259, h, packV b)
  | .ballot h b => some (260, h, packV b)
  | .bcast h b => some (261, h, packV b)
  | .matchLanes h b => some (262, h, packV b)
  | .prank h b => some (263, h, packV b)
  | .plop h b => some (320, h, packV b)
  | .pmask h b => some (321, h, packV b)
  | .psetm h b => some (322, h, packV b)
  | .pact h b => some (323, h, packV b)
  | .fadd h b => some (384, h, packV b)
  | .fsub h b => some (385, h, packV b)
  | .fmul h b => some (386, h, packV b)
  | .ffma h b => some (387, h, packV b)
  | .fmin h b => some (388, h, packV b)
  | .fmax h b => some (389, h, packV b)
  | .fcmp h b => some (390, h, packV b)
  | .frnd h b => some (391, h, packV b)
  | .fclass h b => some (392, h, packV b)
  | .fscale h b => some (393, h, packV b)
  | .fexpt h b => some (394, h, packV b)
  | .fdot2 h b => some (395, h, packV b)
  | .hadd2 h b => some (448, h, packV b)
  | .hsub2 h b => some (449, h, packV b)
  | .hmul2 h b => some (450, h, packV b)
  | .hfma2 h b => some (451, h, packV b)
  | .hmin2 h b => some (452, h, packV b)
  | .hmax2 h b => some (453, h, packV b)
  | .hcmp2 h b => some (454, h, packV b)
  | .e8dot4 h b => some (455, h, packV b)
  | .frcp h b => some (512, h, packV b)
  | .frsq h b => some (513, h, packV b)
  | .fsqrt h b => some (514, h, packV b)
  | .fex2 h b => some (515, h, packV b)
  | .flg2 h b => some (516, h, packV b)
  | .fsin h b => some (517, h, packV b)
  | .fcos h b => some (518, h, packV b)
  | .fscs h b => some (519, h, packV b)
  | .ftanh h b => some (520, h, packV b)
  | .fsig h b => some (521, h, packV b)
  | .ferf h b => some (522, h, packV b)
  | .cvt h b => some (576, h, packV b)
  | .cvtq h b => some (577, h, packV b)
  | .cvtdq h b => some (578, h, packV b)
  | .cvsc h b => some (579, h, packV b)
  | .pack h b => some (580, h, packV b)
  | .unpack h b => some (581, h, packV b)
  | .ld h b => some (640, h, packM b)
  | .st h b => some (641, h, packM b)
  | .ldp h b => some (642, h, packM b)
  | .stp h b => some (643, h, packM b)
  | .ldc h b => some (644, h, packM b)
  | .lds h b => some (645, h, packM b)
  | .sts h b => some (646, h, packM b)
  | .ldl h b => some (647, h, packM b)
  | .stl h b => some (648, h, packM b)
  | .pf h b => some (649, h, packM b)
  | .wbr h b => some (650, h, packM b)
  | .invr h b => some (651, h, packM b)
  | .atom h b => some (704, h, packM b)
  | .ared h b => some (705, h, packM b)
  | .cas16 h b => some (706, h, packM b)
  | .txbeg h b => some (707, h, packJ b)
  | .txend h b => some (708, h, packV b)
  | .txabt h b => some (709, h, packV b)
  | .bcopy h b => some (768, h, packV b)
  | .bloop h b => some (769, h, packV b)
  | .brel h b => some (770, h, packV b)
  | .bmcast h b => some (771, h, packV b)
  | .kcoll h b => some (772, h, packV b)
  | .mseal h b => some (832, h, packC b)
  | .munseal h b => some (833, h, packC b)
  | .mmac h b => some (834, h, packC b)
  | .mstart h b => some (835, h, packC b)
  | .mzero h b => some (836, h, packC b)
  | .mget h b => some (837, h, packC b)
  | .mput h b => some (838, h, packC b)
  | .mbwait h b => some (839, h, packC b)
  | .mbarr h b => some (840, h, packC b)
  | .mbra h b => some (841, h, packJ b)
  | .mloop h b => some (842, h, packJ b)
  | .mset h b => some (843, h, packI b)
  | .mpoint h b => some (844, h, packC b)
  | .mend h b => some (845, h, packC b)
  | .mfence h b => some (846, h, packC b)
  | .gred h b => some (896, h, packM b)
  | .nred h b => some (897, h, packV b)
  | .nlaunch h b => some (898, h, packV b)
  | .nstat h b => some (899, h, packV b)
  | .nkill h b => some (900, h, packV b)
  | .srd h b => some (960, h, packS b)
  | .swr h b => some (961, h, packS b)
  | .sysc h b => some (962, h, packS b)
  | _ => none

/-- The 96-bit word of a stream instruction. -/
def encodeStream (i : Instr) : Option (BitVec 96) :=
  match streamParts i with
  | some (opc, h, x) => some (packHdr opc h ++ x)
  | none => none

/-- A stove word from its fields (Table 15.7). -/
def packStove (op : Nat) (d a b : BitVec 4) (i : BitVec 15) : Word := BitVec.ofNat 5 op ++ d ++ a ++ b ++ i

/-- The 32-bit word of a stove instruction. -/
def encodeStove (i : Instr) : Option Word :=
  match i with
  | .aopen a b => some (packStove 0 0 a b 0)
  | .acol a b imm => some (packStove 1 0 a b imm)
  | .awr => some (packStove 2 0 0 0 0)
  | .anext => some (packStove 3 0 0 0 0)
  | .aset d a imm => some (packStove 4 d a 0 imm)
  | .aadd d a b imm => some (packStove 5 d a b imm)
  | .aloop d imm => some (packStove 6 d 0 0 imm)
  | .abr d a b imm => some (packStove 7 d a b imm)
  | .awq d => some (packStove 8 d 0 0 0)
  | .aend => some (packStove 9 0 0 0 0)
  | .xpop d => some (packStove 16 d 0 0 0)
  | .xpush a b => some (packStove 17 0 a b 0)
  | .xadd d a b => some (packStove 18 d a b 0)
  | .xmul d a b => some (packStove 19 d a b 0)
  | .xfma d a b => some (packStove 20 d a b 0)
  | .xmax d a b => some (packStove 21 d a b 0)
  | .xscale d a b => some (packStove 22 d a b 0)
  | .xcvt d a imm => some (packStove 23 d a 0 imm)
  | .xset d a imm => some (packStove 24 d a 0 imm)
  | .xsetAdd d a imm => some (packStove 24 d a 1 imm)
  | .xsetB d a => some (packStove 24 d a 2 0)
  | .xloop d imm => some (packStove 25 d 0 0 imm)
  | .xbr d a b imm => some (packStove 26 d a b imm)
  | .xend => some (packStove 27 0 0 0 0)
  | _ => none

/-- The word of an instruction and its width in bits; none for an event, which has no word. -/
def encode (i : Instr) : Option (Nat × Nat) :=
  match encodeStream i, encodeStove i with
  | some w, _ => some (96, w.toNat)
  | none, some w => some (32, w.toNat)
  | none, none => none

end Sys2Proof
end

