-- ==== Sys2Proof/Config.lean ====
section
/-! DEFINITION. What the spec leaves to the implementation or leaves open as a value: opaque constants that nothing
in the model can evaluate (each is named in the assumption log), and the fixed figures of the AXM-960. -/

namespace Sys2Proof.Config

/-- A fresh 32-bit value that the spec leaves open, by a counter the step advances (assumption 3). -/
opaque freeWord : Nat → Word
/-- A fresh choice among `n` permitted outcomes, by the same counter (assumption 3). -/
opaque freePick : Nat → Nat
/-- The random 64-bit seed of a redundancy screen (R372). -/
opaque screenSeed : Nat → DWord
/-- The fixed value a core returns for a special function of an input where the spec gives a bound only (R262):
the function's operation number and the operand. -/
opaque specialValue : Nat → Word → Word
/-- Second component of `fscs` (R263). -/
opaque specialCos : Word → Word
/-- AES-256-GCM sealing: key, nonce, additional data, plaintext (R418; named by reference). -/
opaque aesGcmSeal : List Byte → List Byte → List Byte → List Byte → List Byte
/-- HPKE open in base mode under this boot's key: boot number, info, encapsulated key, ciphertext (R409). -/
opaque hpkeOpen : Nat → List Byte → List Byte → List Byte → Option (List Byte)
/-- The HPKE public key of a boot (R408). -/
opaque hpkePublic : Nat → List Byte
/-- ECDSA P-521 with SHA-512 verification: public key, message, signature (R404). -/
opaque ecdsaVerify : List Byte → List Byte → List Byte → Bool
/-- Signature with the identity key (R408). -/
opaque identitySign : List Byte → List Byte
/-- The fused hash of the firmware signing key (R404). -/
opaque fusedKeyHash : List Byte
/-- The identity certificate of R398. -/
opaque certificate : List Byte
/-- The highest frequency in MHz and supply voltage in mV that an island's fuses allow (R20, R23, assumption 86). -/
opaque fusedMhz : Nat → Nat
opaque fusedMv : Nat → Nat
/-- Parts fused off at manufacture: Sorica kind and index (R13, Table 5.7). -/
opaque fusedOff : List (Nat × Nat)

/-- Threads of a warp (R26). -/
def warpW : Nat := 64
/-- First row number of the reserved rows of a stack (R116). -/
def reservedRow : Nat := 0xFFBE

end Sys2Proof.Config
end

