-- ==== Sys2Proof/Machine/State.lean ====
section
/-! DEFINITION. The state of the AXM-960 as plain data, and the state after reset (19 R404, Table 19.10 step 1).
Every indexed store is a sparse table whose unlisted entries hold the value named beside it. Fields marked MODEL'S
OWN are no state of the spec: they carry what the spec leaves open (assumptions 1 to 3). -/

namespace Sys2Proof.Machine

/-- Reasons the machine stops. -/
inductive Fault where
  /-- Raised by the meaning of a stream or stove instruction when no agent that could issue it is named in
  `State.cur`; a step never calls one so. Safe: it allows nothing the device does. -/
  | noIssuer
  deriving DecidableEq, Repr

/-- Reasons the model declines to give a meaning. -/
inductive Refusal where
  /-- The dispatcher's arm of an instruction without a meaning. Safe: the run ends. -/
  | notModelled (mnemonic : String)
  deriving DecidableEq, Repr

/-- State of a split table entry (Table 2.2). -/
inductive EntryState where
  | free | run | parked | join
  deriving DecidableEq, Repr, Inhabited

/-- What a fragment waits in (R36, Table 18.3 WAIT). The instruction stays uncompleted at its PC (R228). -/
inductive Wait where
  | none
  /-- `bar.wait` or `bar.sync` on a barrier; the arrival has been made. -/
  | bar (b : Nat)
  | owait
  | cwait
  | gwait
  | drain
  | cyield
  /-- a release fence or store-release waiting for the store counter, or for DRAM write-back (`fence.mem`) -/
  | fence
  | wbr
  /-- held for the system handler (R369) -/
  | hold (cause : Nat)
  /-- its trap waits behind the running handler (R66) -/
  | held
  /-- `yield` period: issue opportunities left (R208) -/
  | yield (left : Nat)
  /-- `glaunch` at a full pool: children of its Active already launched (R223) -/
  | launch (n : Nat)
  /-- `txbeg` waiting for the solo grant (R281) -/
  | solo
  /-- `txend` whose commits are being validated (R283) -/
  | txend
  /-- stopped by an armed debug stop (R209, R416) -/
  | stopped
  deriving DecidableEq, Repr, Inhabited

/-- Split table entry (Table 2.2, R196). -/
structure Entry where
  mask : DWord
  pc : DWord
  rpc : Option DWord
  age : Nat
  parent : Option Nat
  st : EntryState
  /-- nominal clock (R196) -/
  nclk : Nat
  wait : Wait
  /-- order in which its AGE saturated (R37); none while below 4,096 -/
  satAt : Option Nat
  /-- YLD of its last instruction (R188) -/
  yld : Bool
  /-- its next instruction is the branch of its newest deferral record (R33) -/
  reexec : Bool
  /-- runs the user trap handler (R210, R211) -/
  handler : Bool
  /-- reached its PC by sequential execution from the lower slot (R184) -/
  seqd : Bool
  /-- its PC is a start PC, checked at its first fetch (R47, R181) -/
  start : Bool
  /-- STALL of the first of an instruction pair whose second has still to complete (R184, R196) -/
  paired : Option Nat
  deriving DecidableEq, Repr, Inhabited

/-- A FREE entry. -/
def Entry.empty : Entry := ⟨0, 0, none, 0, none, .free, 0, .none, none, false, false, false, false, false, none⟩

/-- Deferral record (Table 2.3). -/
structure Deferral where
  owner : Nat
  m : DWord
  p : DWord
  bpc : DWord
  jpc : DWord
  /-- next PCs of pending threads, kept where the record was begun by an abort or their transactions were aborted while
  they were pending (R284, R285); the others execute the branch again (R33) -/
  np : Tab DWord
  deriving DecidableEq, Repr, Inhabited

/-- Trap registers, selectors 0x0200-0x020A (Table 3.3, R66). -/
structure TrapRegs where
  cause : Word
  pc : DWord
  opc : Word
  d : Word
  a : Word
  b : Word
  c : Word
  e : Word
  mod : DWord
  imm : DWord
  mask : DWord
  deriving DecidableEq, Repr, Inhabited

/-- All trap registers zero, as after reset (Table 3.3). -/
def TrapRegs.zero : TrapRegs := ⟨0, 0, 0, 0, 0, 0, 0, 0, 0, 0, 0⟩

/-- A register element: a vector element, a scalar register, or a predicate of a thread. -/
inductive Elem where
  | v (r t : Nat)
  | s (r : Nat)
  | p (i t : Nat)
  deriving DecidableEq, Repr, Inhabited

/-- A fixed-latency result whose window is open (R197): the content of the element before it. -/
structure Window where
  elem : Elem
  old : DWord
  /-- nominal clock of the producer's issue -/
  at_ : Nat
  /-- write-back offset w of the element -/
  w : Nat
  deriving DecidableEq, Repr, Inhabited

/-- A write of one register element. -/
structure RegWrite where
  elem : Elem
  val : DWord
  deriving DecidableEq, Repr, Inhabited

/-- A word of a transaction's read or write set (R282). -/
structure TxWord where
  addr : Nat
  data : Word
  bytes : BitVec 4
  /-- virtual address of its first access -/
  va : DWord
  deriving DecidableEq, Repr, Inhabited

/-- What a release write carries (R275, R344): its stamp T, the home clock by which every write that happens before it has
taken effect (assumption 85), and the party that made it, `core` 384 for a party that no core holds. `scope` is its
scope code (R219). -/
structure RelInfo where
  stamp : Option DWord
  floor : Nat
  core : Nat
  slot : Nat
  /-- core × 8 + team slot -/
  team : Nat
  scope : Nat
  deriving DecidableEq, Repr, Inhabited

/-- An open lane-level transaction (R281, R282). -/
structure Tx where
  handler : DWord
  recon : DWord
  reads : List TxWord
  writes : List TxWord
  solo : Bool
  /-- number of the request by which `txend` has sent it to validation -/
  commit : Option Nat
  /-- REASON of an abort by `txend` whose transfer waits for the other commits of the fragment; 0 none -/
  lost : Nat
  deriving DecidableEq, Repr, Inhabited

/-- A trap held behind the running handler (R66). -/
structure HeldTrap where
  entry : Nat
  pc : DWord
  cause : Nat
  mask : DWord
  word : BitVec 96
  fetch : Bool
  deriving DecidableEq, Repr, Inhabited

/-- A resident warp. -/
structure Warp where
  /-- core × 8 + team slot of its team -/
  team : Nat
  warpid : Nat
  /-- order of residence (R363) -/
  born : Nat
  launched : DWord
  exited : DWord
  killed : Bool
  entries : Tab Entry
  deferrals : List Deferral
  /-- element r × 64 + t of the vector registers; unlisted 0 -/
  vregs : Tab Word
  /-- s0-s62; unlisted 0 -/
  sregs : Tab DWord
  /-- p0-p6 as masks over threads; unlisted 0 -/
  preds : Tab DWord
  fpflags : BitVec 5
  /-- TXSTAT by thread; unlisted 0 -/
  txstat : Tab Word
  tx : Tab Tx
  trap : TrapRegs
  /-- the entry that runs a handler and its MASK at handler entry (R211) -/
  handler : Option (Nat × DWord)
  /-- the instruction that trapped into the handler was a branch under re-execution (R33) -/
  handlerRe : Bool
  heldTraps : List HeldTrap
  workcnt : DWord
  /-- instructions retired in the current replay quantum (R414) -/
  quantum : Nat
  quantumDone : Bool
  /-- the entry whose ending instruction the boundary performs (R414) -/
  ending : Option Nat
  windows : List Window
  /-- engine operations outstanding, in issue order: class (0 COPY, 1 MATRIX, 2 GATHER, 3 COLL), number, and whether
  it has completed behind an older one (R123); a class's counter is the number listed -/
  ops : List (Nat × Nat × Bool)
  cntStore : Nat
  /-- largest acknowledgement stamp of the warp's stores (Table 10.7) -/
  ackT : DWord
  /-- largest release stamp carried by values returned to its loads (Table 10.7) -/
  acqT : DWord
  /-- what later stores of a thread carry after `fence.rel` (Table 10.7, R344); unlisted none -/
  relT : Tab (List RelInfo)
  /-- what values returned to its plain loads carried, for a later `fence.acq` (R344) -/
  got : List RelInfo
  /-- home clock by which every write of another party that happens before its next access has taken effect
  (assumption 85) -/
  floor : Nat
  /-- number of the newest release at `.dev` or wider; 0 none (R310) -/
  fenced : Nat
  /-- words its stores wrote and the home clock of the write, until they or a later write reach DRAM (Table 10.7, `.mem`) -/
  wrote : List (Nat × Nat)
  /-- dirty words that a `wbr` waits for, by entry (R277) -/
  owed : Tab (List (Nat × Nat))
  /-- word of the instruction its held or waiting fragments stopped at, by entry, and the elements that it read when it
  issued, guards among them (R200) -/
  stopWord : Tab (BitVec 96)
  stopVals : Tab (List RegWrite)
  /-- CRC of the stores of a screened team or its shadow (R372) -/
  crc : DWord
  deriving DecidableEq, Repr, Inhabited

/-- Numbered barrier of a team (Table 10.3) with its wait counter (R127) and the statuses of released generations
(R214). PEND and AGEN are kept by linear thread number of the team. -/
structure Barrier where
  gen : BitVec 16
  arrived : Nat
  expected : Nat
  mism : Bool
  abandon : Bool
  /-- AGEN of each thread with PEND set -/
  pend : Tab (BitVec 16)
  done : List (BitVec 16 × DWord)
  waitCnt : Nat
  /-- SGEN: the generations the team's sequencer has consumed (R305) -/
  sgen : BitVec 16
  /-- what happens before its arrivals has taken effect by this home clock (assumption 85) -/
  floor : Nat
  deriving DecidableEq, Repr, Inhabited

/-- A barrier at team start. -/
def Barrier.start : Barrier := ⟨0, 0, 0, false, false, [], [], 0, 0, 0⟩

/-- Reuse latch (R61): the operation that read the slab. -/
structure Latch where
  warp : Nat
  vreg : Nat
  count : Nat
  slab : Nat
  deriving DecidableEq, Repr, Inhabited

/-- Matrix sequencer of a team (R40, R290, R305, R307). -/
structure Sequencer where
  pc : DWord
  k : Tab Word
  live : BitVec 8
  ended : Bool
  /-- its PC is the start PC, checked at the first fetch (R47, R181) -/
  start : Bool
  /-- operations that the waiting `munseal` or `mfence` waits for (R295, R296) -/
  waitOps : List Nat
  waiting : Bool
  /-- `mstart` waits for a spill of this tile (R60, R384) -/
  spill : Option Nat
  quantum : Nat
  quantumDone : Bool
  /-- what happens before its waits has taken effect by this home clock (assumption 85) -/
  floor : Nat
  deriving DecidableEq, Repr, Inhabited

/-- What the redundancy screen keeps for a screened team or its shadow (R372). -/
structure Screen where
  /-- core × 8 + team slot of the other team, once placed -/
  other : Option Nat
  shadow : Bool
  /-- XOR of the per-warp CRCs of the other team, once it has retired -/
  peer : Option DWord
  ended : Bool
  /-- the shadow's own stores: byte address and byte, newest first (16 KiB at most) -/
  buffer : List (Nat × Byte)
  since : Nat
  deriving DecidableEq, Repr, Inhabited

/-- State of an accumulator tile (Table 3.2). -/
inductive TileState where
  | free | bound | draining | foreign
  deriving DecidableEq, Repr, Inhabited

/-- A physical accumulator tile: element t × 128 + n, unlisted +0; poisoned elements listed. -/
structure Tile where
  st : TileState
  /-- team (core × 8 + slot) and context it is tagged with -/
  team : Nat
  ctx : Nat
  data : Tab Word
  poison : List Nat
  deriving DecidableEq, Repr, Inhabited

/-- A FREE tile reading zero. -/
def Tile.zero : Tile := ⟨.free, 0, 0, [], []⟩

/-- A resident team (R39, R40). -/
structure Team where
  grid : Nat
  num : Nat
  /-- warp slots in ascending warp number -/
  slots : List Nat
  threads : Nat
  /-- tile of each accumulator name; none when unbound or spilled -/
  rename : List (Option Nat)
  /-- physical cells of its comb allocation, ascending (R73) -/
  cells : List Nat
  bytes : Nat
  gen : BitVec 16
  bars : Tab Barrier
  seq : Option Sequencer
  latch : Option Latch
  children : Nat
  /-- matrix, copy and near operations and stores of exited or killed warps still open are found in the tables -/
  screen : Option Screen
  /-- sequence numbers of its `kcoll` groups: (first team, count, next sequence) -/
  colls : List (Nat × Nat × Nat)
  born : Nat
  /-- saved contents of names whose tile a spill has still to free (R384), by tile -/
  reload : Tab Tile
  deriving DecidableEq, Repr, Inhabited

/-- A word of a core's L1 data cache (R86, R87). -/
structure L1Word where
  data : Word
  valid : BitVec 4
  dirty : BitVec 4
  poison : Bool
  /-- what the write of each of its bytes 0-3 carries (R275); unlisted nothing -/
  rel : Tab (List RelInfo)
  /-- home clock at which its clean bytes were read (assumption 85) -/
  fill : Nat
  /-- an atomic or commit of this core has written the word since: loads pass it by until it is filled again (R347) -/
  past : Bool
  /-- stored bits in error: 0 none, 1 a single bit, 2 two bits (R85) -/
  err : Nat
  /-- smallest stamp of the replies and acknowledgements that supplied it; none while no byte has one (R88) -/
  stamp : Option DWord
  deriving DecidableEq, Repr, Inhabited

/-- A translation held in a TLB or found by a walk. -/
structure Trans where
  ctx : Nat
  /-- first virtual address and size of the page -/
  va : Nat
  size : Nat
  /-- leaf entry (Table 5.3) -/
  pte : DWord
  deriving DecidableEq, Repr, Inhabited

/-- A core. -/
structure Core where
  /-- valid words by word address (physical) -/
  l1 : Tab L1Word
  /-- L1 instruction cache: context, line virtual address, 512 bits (R183) -/
  icache : List (Nat × Nat × BitVec 512)
  tlb : List Trans
  tiles : Tab Tile
  /-- hints of frames of its L1, 1 STREAM and 3 KEEP (Table 4.5); unlisted others -/
  marks : Tab Nat
  /-- home clock of the last store or atomic of the core that took effect (assumption 85) -/
  wtime : Nat
  /-- sample down-counters and rotation pointers by scheduler (R131), what is left of an island clock over a tick, in
  units of 1 / 1,200, and the schedulers whose sample is due -/
  down : Tab Nat
  rot : Tab Nat
  phase : Nat
  due : List Nat
  /-- scheduler's fragment that issued last at this clock (R413) -/
  lastIssue : Tab (Nat × Nat)
  deriving DecidableEq, Repr, Inhabited

/-- An idle core. -/
def Core.empty : Core := ⟨[], [], [], [], [], 0, [], [], 0, [], []⟩

/-- Comb region entry (Table 5.6) with its REFILL flag (R296). -/
structure Region where
  st : Nat
  owner : Nat
  gen : BitVec 16
  first : Nat
  depth : Nat
  width : Nat
  slot : Nat
  refill : Bool
  /-- scale offset k[S] at the seal, the wait for copies accepted before (R294) -/
  scale : Nat
  before : List Nat
  /-- its physical cells in region order -/
  cells : List Nat
  deriving DecidableEq, Repr, Inhabited

/-- Tensor layout record as accepted (Table 14.7). -/
structure Layout where
  esize : Nat
  rank : Nat
  fill : Bool
  fillv : Word
  base : DWord
  dim : List Nat
  gstr : List Int
  box : List Nat
  cbase : Nat
  cstr : List Nat
  deriving DecidableEq, Repr, Inhabited

/-- Kind of a copy-channel operation. -/
inductive CopyKind where
  | bcopy (toGlobal : Bool)
  | bloop
  | bmcast
  deriving DecidableEq, Repr, Inhabited

/-- An operation of a copy channel (R312-R316). -/
structure CopyOp where
  id : Nat
  kind : CopyKind
  core : Nat
  slot : Nat
  team : Nat
  vf : Nat
  ctx : Nat
  layrec : DWord
  delta : Nat
  coord : List Int
  /-- none where it stands in s63 -/
  counter : Option DWord
  loopN : Nat
  stages : Nat
  pitch : Nat
  step : List Int
  /-- first team and count of a multicast, and their resolved allocations: hive and generation; none absent -/
  first : Nat
  nteams : Nat
  dest : List (Option (Nat × BitVec 16))
  layout : Option Layout
  /-- iteration, next part, stages RELEASED, multicast deliveries made -/
  iter : Nat
  part : Nat
  started : Bool
  released : List Nat
  delivered : List Nat
  /-- the issuing thread's stores older than this number precede its reads (R310); 0 none -/
  after : Nat
  /-- elements read for a multicast with their poison, by part -/
  data : Tab (List (Word × Bool))
  /-- parts that each team of a multicast has had, its delivery under way -/
  moved : Tab Nat
  stopped : Bool
  deriving DecidableEq, Repr, Inhabited

/-- Block exponent of a sealed block, its NaN mark, and the type of a Q4 block, 4 for E = 0 (R149, R293). -/
structure BlockExp where
  ew : Int
  nan : Bool
  ty : Nat
  deriving DecidableEq, Repr, Inhabited

/-- A hive: its comb, region table, exponent store, generation counter and copy channels. -/
structure Hive where
  /-- word index cell × 8,192 + row × 32 + word; an unlisted word of a cell in `undef` is undefined (R41, R295) and
  takes an open value when it is first read, any other unlisted word is 0 -/
  comb : Tab Word
  undef : List Nat
  poison : List Nat
  /-- words whose stored bits are in error: 1 a single bit, 2 two bits (R85) -/
  err : Tab Nat
  /-- ids 0-15 as in the comb region table; 16 + team slot: a region whose `munseal` still waits for its passes (R295) -/
  regions : Tab Region
  /-- exponent store: cell × 2,048 + column × 8 + block; unlisted exponent 0, no mark (R293) -/
  exps : Tab BlockExp
  combGen : BitVec 16
  /-- the operation in progress and those waiting, by channel (Table 5.1) -/
  copy : Tab (List CopyOp)
  copyRot : Nat
  /-- its words as a replay quantum began: what the `lds` of the quantum return (R414) -/
  start : Option (Tab Word)
  deriving DecidableEq, Repr, Inhabited

/-- An idle hive. -/
def Hive.empty : Hive := ⟨[], [], [], [], [], [], 0, [], 0, none⟩

/-- A lane of a load in flight: the element of a thread and the physical parts of its bytes. -/
structure LoadLane where
  thread : Nat
  /-- (physical byte address, length) in ascending address; host addresses stand from 2^48 up -/
  parts : List (Nat × Nat)
  /-- the bytes, where they have been taken already: comb reads, transactional reads, and words its core has since
  stored to; none of them where one of the words was poisoned -/
  fixed : Option (List Byte)
  deriving DecidableEq, Repr, Inhabited

/-- A load in flight (R271), also `gred` (R323). -/
structure Load where
  core : Nat
  slot : Nat
  entry : Nat
  vf : Nat
  ctx : Nat
  pc : DWord
  lanes : List LoadLane
  dst : Nat
  size : Nat
  sgn : Bool
  uni : Bool
  hint : Nat
  /-- acquire scope, 0 none -/
  acq : Nat
  /-- gather-reduce: type (0 f32, 1 i32), the scalar count register, the fault's instruction word -/
  gred : Option (Nat × Nat × BitVec 96)
  /-- virtual address of each lane, 0 in the comb -/
  vas : List Nat
  /-- the warp's floor at its issue (assumption 85) -/
  floor : Nat
  /-- what the bytes of its lanes that are taken already carried, and those of them that came from beyond the core -/
  got : List RelInfo
  far : List Nat
  deriving DecidableEq, Repr, Inhabited

/-- Progress of a store (R87). -/
inductive StoreState where
  | pending | sent | homed (stamp : DWord)
  deriving DecidableEq, Repr, Inhabited

/-- A store part on its way to its home. -/
structure Store where
  core : Nat
  slot : Nat
  /-- team (core × 8 + slot) it counts for, also after its warp has gone -/
  team : Nat
  thread : Nat
  vf : Nat
  pc : DWord
  /-- physical byte address; host addresses stand from 2^48 up, comb words of a replay quantum from 2^60 up (R414) -/
  pa : Nat
  bytes : List Byte
  st : StoreState
  rel : List RelInfo
  /-- copies of a replicated page not yet written; [] when the page has one frame -/
  copies : List Nat
  va : DWord
  /-- number of the instruction's first part: equal in all parts of one instruction -/
  op : Nat
  /-- held for the quantum boundary (R414) -/
  replay : Bool
  /-- ATOMIC propagation: all copies at once (R349) -/
  atomicProp : Bool
  /-- its HINT: under NOL1 its bytes are not kept in L1 once acknowledged, STREAM and KEEP mark its frame in L2 (Table 4.5) -/
  hint : Nat
  /-- the parts of a thread take effect in ascending offset (R274) -/
  asc : Bool
  deriving DecidableEq, Repr, Inhabited

/-- An atomic on its way to or from the engine (R278, R280). -/
structure Atomic where
  core : Nat
  slot : Nat
  team : Nat
  thread : Nat
  vf : Nat
  pc : DWord
  va : DWord
  group : Nat
  pa : Nat
  size : Nat
  op : Nat
  ty : Nat
  x : BitVec 128
  cmp : BitVec 128
  /-- destination register, none for `ared`; scalar flag -/
  dst : Option Nat
  uni : Bool
  scope : Nat
  kind : Nat
  cas16 : Bool
  /-- a lane of its instruction has executed: the words of the others stay good until they have (R287) -/
  begun : Bool
  old : Option (BitVec 128)
  stamp : DWord
  rel : List RelInfo
  /-- what the value it read carried -/
  got : List RelInfo
  deriving DecidableEq, Repr, Inhabited

/-- Other interlocked results: special functions, `sysc` (R200, R227). -/
structure Pending where
  core : Nat
  slot : Nat
  writes : List RegWrite
  /-- a `sysc` request: service and argument -/
  sysc : Option (Nat × DWord)
  deriving DecidableEq, Repr, Inhabited

/-- A word of an L2 slice (R91). -/
structure L2Word where
  data : Word
  valid : BitVec 4
  dirty : BitVec 4
  poison : Bool
  /-- stored bits in error: 0 none, 1 a single bit, 2 two bits (R85) -/
  err : Nat
  deriving DecidableEq, Repr, Inhabited

/-- A word in a synchronisation engine (R94): `page` for a word of a SYNC page, otherwise migrated. -/
structure SyncWord where
  data : Word
  poison : Bool
  page : Bool
  /-- stored bits in error: 0 none, 1 a single bit, 2 two bits (R85) -/
  err : Nat
  deriving DecidableEq, Repr, Inhabited

/-- A request in a channel's word queue (R78). -/
structure WordReq where
  word : Nat
  vf : Nat
  write : Bool
  near : Bool
  data : Word
  poison : Bool
  /-- home clock at which the value of a write was taken -/
  at_ : Nat
  id : Nat
  /-- number of the load or atomic that asked for it (R419); 0 none -/
  by_ : Nat
  /-- prefetches that a read fills: core and hint (R276) -/
  fills : List (Nat × Nat)
  deriving DecidableEq, Repr, Inhabited

/-- A producer that stalls at a full queue (R105): the queue, the fragment and its PC. -/
structure Stall where
  queue : Nat
  core : Nat
  slot : Nat
  entry : Nat
  pc : DWord
  deriving DecidableEq, Repr, Inhabited

/-- A non-leaf entry of a die's walk cache (R118): the table that a context's addresses with this prefix reach at a level. -/
structure WalkEntry where
  ctx : Nat
  level : Nat
  /-- VA shifted right by 57 - 9 × level -/
  pre : Nat
  table : Nat
  deriving DecidableEq, Repr, Inhabited

/-- An open row of a slice-bank and the DRAM clock of its activate; `stove` for a row a stove holds. -/
structure OpenRow where
  row : Nat
  at_ : Nat
  stove : Bool
  deriving DecidableEq, Repr, Inhabited

/-- A slab read (R298, R299): registers of a warp of the team, element (register - vreg) × 64 + thread, as they stood
at the issue and, once read, as they were read. -/
structure Slab where
  team : Nat
  warp : Nat
  vreg : Nat
  count : Nat
  old : Tab Word
  data : Option (Tab Word)
  deriving DecidableEq, Repr, Inhabited

/-- A pass: an entry of a hive's reservation table (Table 14.3). -/
structure Pass where
  hive : Nat
  cell : Nat
  tile0 : Nat
  tile1 : Option Nat
  /-- element kinds of the activations and the weights (Table 7.6) -/
  akind : Nat
  wkind : Nat
  slab : Nat
  /-- first register of its part within the slab -/
  part : Nat
  granted : Bool
  age : Nat
  prio : Nat
  /-- words of a REFILL cell at the grant (R296) -/
  old : Option (Tab Word)
  deriving DecidableEq, Repr, Inhabited

/-- A move between a tile and a warp's registers (R303, R304). -/
structure TileMove where
  tile : Nat
  warp : Nat
  vreg : Nat
  count : Nat
  col : Nat
  kind : Nat
  rm : Nat
  sat : Bool
  /-- PC of the instruction, for the log (R374, Table 5.2) -/
  pc : DWord
  /-- threads that have exited since: their write-backs are discarded (R207) -/
  skip : DWord
  deriving DecidableEq, Repr, Inhabited

/-- A posted matrix operation (R300 to R304). An `mput` reads the slab of its own number. -/
inductive MatOp where
  | pass (p : Pass)
  | mget (m : TileMove)
  | mput (m : TileMove)
  | mzero (tile : Nat)
  deriving DecidableEq, Repr, Inhabited

/-- A posted operation with its team (core × 8 + slot). -/
structure Posted where
  team : Nat
  op : MatOp
  deriving DecidableEq, Repr, Inhabited

/-- State of a grid (R354): waiting for its dependency, or ready. -/
inductive GridState where
  | pending | ready
  deriving DecidableEq, Repr, Inhabited

/-- Launch record (Table 2.5). -/
structure LaunchRec where
  entry : DWord
  mstream : DWord
  gx : Nat
  gy : Nat
  gz : Nat
  flags : Nat
  tx : Nat
  ty : Nat
  tz : Nat
  warps : Nat
  vregs : Nat
  sregs : Nat
  accs : Nat
  comb : Nat
  handler : DWord
  watchdog : DWord
  params : DWord
  counter : DWord
  increment : DWord
  depAddr : DWord
  depTarget : DWord
  priority : Nat
  screen : Nat
  variants : DWord
  /-- eight format slots of 8 bytes (Table 7.5) -/
  fmt : List DWord
  reservedOk : Bool
  deriving DecidableEq, Repr, Inhabited

/-- An accepted grid. -/
structure Grid where
  ctx : Nat
  vf : Nat
  lr : LaunchRec
  lrec : DWord
  depth : Nat
  varidx : Word
  varsig : DWord
  /-- launching team (core × 8 + slot) and its birth number, and the parent grid -/
  parent : Option (Nat × Nat × Nat)
  kids : Nat
  st : GridState
  readyAt : Option Nat
  promoted : Bool
  /-- teams handed out, placed, retired; teams discarded by PRESIZE -/
  handed : Nat
  placed : Nat
  retired : Nat
  dropped : Nat
  seed : Option DWord
  /-- retired teams and the collective sequences they took part in: (first team, count, next sequence) (R317) -/
  left : List (Nat × List (Nat × Nat × Nat))
  /-- what happens before its events has taken effect by this home clock (assumption 85) -/
  floor : Nat
  /-- the hives that its teams have been placed on: the instances that it lies in (R345) -/
  on : List Nat
  deriving DecidableEq, Repr, Inhabited

/-- A range of consecutive teams (Table 5.1). -/
structure Range where
  grid : Nat
  lo : Nat
  hi : Nat
  /-- size of the hive ranges it is cut into (R357) -/
  cut : Nat
  deriving DecidableEq, Repr, Inhabited

/-- State of a context (R370, R379). -/
inductive CtxState where
  | live | halting | saved | faulted | gone
  deriving DecidableEq, Repr, Inhabited

/-- A saved team (Table 18.5): the team, its warps in ascending number, its matrix operations, comb and tiles. Cells are
named by their place in the allocation, tiles by accumulator name (64 + tile for one without a name), warps by number. -/
structure SavedTeam where
  core : Nat
  team : Team
  warps : List Warp
  comb : Tab Word
  undef : List Nat
  combPoison : List Nat
  combErr : Tab Nat
  exps : Tab BlockExp
  regions : Tab Region
  posted : List (Nat × Posted)
  slabs : List (Nat × Slab)
  /-- copy operations with their channel -/
  copies : List (Nat × CopyOp)
  /-- tiles saved eagerly or spilled: accumulator name and content -/
  tiles : Tab Tile
  /-- `sysc` requests whose reply has yet to come -/
  pend : List (Nat × Pending)
  /-- first byte and number of words of its record in the save area (Table 18.5) -/
  place : Nat × Nat
  deriving DecidableEq, Repr, Inhabited

/-- A context (Table 19.5). -/
structure Context where
  vf : Nat
  ptroot : DWord
  pbase : DWord
  psize : Nat
  schk : Bool
  eager : Bool
  savebase : DWord
  savesize : Nat
  diag : DWord
  vector : Nat
  st : CtxState
  cause : Nat
  saved : List SavedTeam
  /-- function and counter of a PREEMPT in progress, a device physical address (R380, R389) -/
  saveCounter : Option (Nat × DWord)
  deriving DecidableEq, Repr, Inhabited

/-- A launch queue (R104). -/
structure LQueue where
  ctx : Nat
  base : Nat
  n : Nat
  head : Word
  tail : Word
  deriving DecidableEq, Repr, Inhabited

/-- A log ring in device memory (Table 5.1). -/
structure LogRing where
  base : Nat
  n : Nat
  count : Nat
  drops : Nat
  lost : Bool
  deriving DecidableEq, Repr, Inhabited

/-- A log record (Table 5.2). -/
structure LogRec where
  vclock : DWord
  addr : DWord
  cause : Nat
  srckind : Nat
  srcidx : Nat
  vf : Nat
  flags : Nat
  detail : DWord
  deriving DecidableEq, Repr, Inhabited

/-- Bandwidth bucket of one partition at one point (R132, R399). -/
structure Bucket where
  rate : Nat
  burst : Nat
  level : Int
  /-- a new setting that takes effect at the next tick -/
  next : Option (Nat × Nat)
  deriving DecidableEq, Repr, Inhabited

/-- A checkpoint of a replay partition (R415): everything of its contexts inside the package. -/
structure Checkpoint where
  teams : Tab Team
  warps : Tab Warp
  tiles : List (Nat × Tab Tile)
  hives : Tab Hive
  grids : Tab Grid
  posted : Tab Posted
  slabs : Tab Slab
  pkgQ : Tab (List Range)
  dieQ : Tab (List Range)
  pool : List Nat
  returned : List Range
  heads : Tab Word
  /-- saved teams by context, `sysc` requests without a reply, the solo grant and those who wait for it -/
  saved : Tab (List SavedTeam)
  pend : Tab Pending
  soloHolder : Option (Nat × Nat × Nat)
  soloWait : List (Nat × Nat × Nat)
  /-- number of the boundary -/
  boundary : Nat
  /-- the rotations over its queues and dies, and the waits of its hives' oldest teams -/
  queueRot : Nat
  pkgRot : Nat
  dieRot : Tab Nat
  fitWait : Tab (Nat × Nat × Nat × Bool)
  /-- what its records leave of the save areas, for the undo log: first byte and entries of 16 bytes -/
  rest : List (Nat × Nat)
  deriving DecidableEq, Repr, Inhabited

/-- What a partition holds when it is created. -/
def Checkpoint.empty : Checkpoint := ⟨[], [], [], [], [], [], [], [], [], [], [], [], [], [], none, [], 0, 0, 0, [], [], []⟩

/-- A partition (R394). -/
structure Partition where
  hives : List Nat
  cells : List Nat
  stks : List Nat
  channels : List Nat
  l2ways : List Nat
  traceMask : Nat
  perfMask : Nat
  compMask : Nat
  ranges : List (Nat × Nat)
  link : Nat
  replay : Bool
  log : LogRing
  queues : Tab LQueue
  queueRot : Nat
  /-- pending pool: accepted grids not yet wholly handed out, in order of acceptance (R353, R356) -/
  pool : List Nat
  /-- where the distributors' rotations stand (R357) -/
  pkgRot : Nat
  dieRot : Tab Nat
  keys : Tab (List Byte)
  /-- dumps written under each key slot (R418) -/
  dumpSeq : Tab Nat
  interval : Word
  boundary : Nat
  /-- undo log: words with what they held before their first write in the interval, newest first (R415) -/
  undo : List (Nat × Word)
  /-- how many of its entries stand in the save areas (R415) -/
  undoDone : Nat
  /-- warps that have ended in the interval: core, warp slot, context and WORKCNT (R416) -/
  gone : List (Nat × Nat × Nat × DWord)
  /-- the same since the quantum began: what its plain loads return (R414) -/
  startVals : List (Nat × Word)
  ckpt : Option Checkpoint
  /-- re-executes up to a count stop (R416): nothing is traced -/
  reexec : Bool
  hostHeld : List (Nat × List Byte)
  /-- host writes applied in the interval: boundary, whether before the stores, address and bytes; those that a re-execution
  has still to apply again, and the number of the boundary at which it has caught up (R352, R414) -/
  hostLog : List (Nat × Bool × Nat × List Byte)
  rehost : List (Nat × Bool × Nat × List Byte)
  replayTo : Nat
  /-- engine events of the interval in order, by kind and place, and those that a re-execution has still to repeat (R352) -/
  trail : List (Nat × Nat)
  retrail : List (Nat × Nat)
  soloHolder : Option (Nat × Nat × Nat)
  soloSince : Nat
  soloWait : List (Nat × Nat × Nat)
  returned : List Range
  deriving DecidableEq, Repr, Inhabited

/-- Status of a mailbox command (Table 19.3). -/
inductive Status where
  | ok | busy | revoked | denied | nores | badarg | aborted | pending
  deriving DecidableEq, Repr, Inhabited

/-- A function's command mailbox (Table 19.2). -/
structure Mailbox where
  op : BitVec 16
  force : Bool
  status : Status
  args : List DWord
  msix : List Nat
  deriving DecidableEq, Repr, Inhabited

/-- A mailbox after reset. -/
def Mailbox.reset : Mailbox := ⟨0, false, .ok, [0, 0, 0, 0, 0, 0], []⟩

/-- A performance counter bank (R133, R400, R401). -/
structure Bank where
  holder : Option Nat
  sel : List Nat
  cnt : List DWord
  /-- revoked holders with their frozen counts and the selectors of their claims -/
  revoked : List (Nat × List DWord × List Nat)
  deriving DecidableEq, Repr, Inhabited

/-- A trace unit (Table 20.1). -/
structure TraceUnit where
  holder : Option Nat
  revoked : List Nat
  base : Nat
  n : Nat
  period : Nat
  wcount : DWord
  rcount : DWord
  drops : Word
  lost : Bool
  stopped : Bool
  badstop : Bool
  arm : Bool
  brk : Bool
  ctx : Nat
  core : Nat
  wslot : Nat
  stopcnt : DWord
  stopivl : Word
  dumpbase : DWord
  dumpsize : Word
  onfault : Bool
  key : Nat
  dumplen : DWord
  deriving DecidableEq, Repr, Inhabited

/-- A trace unit that nobody holds. -/
def TraceUnit.reset : TraceUnit :=
  ⟨none, [], 0, 0, 0, 0, 0, 0, false, false, false, false, false, 0, 0, 0, 0, 0, 0, 0, false, 0, 0⟩

/-- Sorica entry state (Table 5.7): entries differing from present-and-free with GEN 0 are listed. -/
structure Sorica where
  st : Nat
  owner : Nat
  gen : Word
  deriving DecidableEq, Repr, Inhabited

/-- A change of a Sorica entry that is being written (R120): STATE, OWNER and DETAIL before and after it, and how many of
its three steps have been made. -/
structure SoricaWrite where
  key : Nat
  old : Sorica
  oldDetail : Nat
  new : Sorica
  newDetail : Nat
  done : Nat
  deriving DecidableEq, Repr, Inhabited

/-- State of a stove (Table 15.6). -/
inductive StoveState where
  | idle | loaded | running | suspended | faulted | killed
  deriving DecidableEq, Repr, Inhabited

/-- Sixteen words of a burst with their poison marks. -/
structure BurstWords where
  words : List Word
  poison : List Bool
  deriving DecidableEq, Repr, Inhabited

/-- A burst of zeros. -/
def BurstWords.zero : BurstWords := ⟨List.replicate 16 0, List.replicate 16 false⟩

/-- A stove (R69, R331, R335). -/
structure Stove where
  st : StoveState
  acode : List Word
  xcode : List Word
  apc : Nat
  xpc : Nat
  aend : Bool
  xend : Bool
  ag : Tab Word
  xg : Tab Word
  bt : Tab BurstWords
  /-- bursts read, each with the DRAM clock of its arrival, tCL after its burst (R430, Table 4.3) -/
  dataQ : List (Nat × BurstWords)
  /-- bursts to write, each with the DRAM clock of its `xpush` -/
  writeQ : List (Nat × Word × BurstWords)
  buffer : Option (Word × BurstWords)
  /-- rows the microprogram holds open: bank to row; recorded across a suspension (R339) -/
  rows : Tab Nat
  qdrop : Bool
  bursts : Word
  /-- bursts that fall in the ordinary interval of the frame (R339) -/
  ordBursts : Nat
  vf : Nat
  ctx : Nat
  counter : DWord
  launch : Nat
  /-- one more than the DRAM clock at which the address thread, and the arithmetic thread, last issued (R430); 0 never -/
  lastA : Nat
  lastX : Nat
  deriving DecidableEq, Repr, Inhabited

/-- An idle stove: registers, queues and codes empty. -/
def Stove.idle : Stove :=
  ⟨.idle, [], [], 0, 0, false, false, [], [], [], [], [], none, [], false, 0, 0, 0, 0, 0, 0, 0, 0⟩

/-- A request in a hearth's near-memory command queue (Table 5.1). -/
inductive NearReq where
  /-- the 32 bytes of a command and the offset base -/
  | nred (bytes : List Byte) (base : DWord)
  | nlaunch (desc : List Byte)
  | nstat (mask : Word) (buf : DWord) (counter : DWord)
  | nkill (mask : Word) (counter : DWord)
  deriving DecidableEq, Repr, Inhabited

/-- A queued request with its issuer and the GATHER operation it belongs to. -/
structure NearCmd where
  op : Nat
  core : Nat
  slot : Nat
  vf : Nat
  ctx : Nat
  req : NearReq
  deriving DecidableEq, Repr, Inhabited

/-- An indexed-reduce command in progress (R325-R329). -/
structure Nred where
  cmd : NearCmd
  /-- 128 bytes of the table layout record, as read at acceptance -/
  layout : List Byte
  bag : Nat
  stopped : Bool
  /-- words read so far for the bag, with their poison -/
  words : Tab (Word × Bool)
  /-- elements of the bag's output still to be written, each with its value; none before they are computed -/
  out : Option (List (Nat × Word))
  /-- channel (stack × 32 + channel) on which it waits for its next burst (R367) -/
  want : Option Nat
  deriving DecidableEq, Repr, Inhabited

/-- A launch in progress: the channels whose stoves have not ended, and its counter. -/
structure Launch where
  vf : Nat
  ctx : Nat
  chans : List Nat
  counter : DWord
  deriving DecidableEq, Repr, Inhabited

/-- A stack's hearth (R366, Table 17.4). -/
structure Hearth where
  framelen : Nat
  computelen : Nat
  /-- accepted writes that have yet to take effect: DRAM clock of acceptance, FRAMELEN and COMPUTELEN -/
  next : List (Nat × Nat × Nat)
  /-- DRAM clock of the next frame start -/
  frameAt : Nat
  /-- a compute interval runs -/
  compute : Bool
  /-- DRAM clock at which the ordinary interval of the frame began or will begin -/
  ordAt : Nat
  queue : List NearCmd
  nred : Option Nred
  /-- launches whose stoves have not all ended, by their GATHER operation -/
  launches : Tab Launch
  /-- the party that had a channel's last burst in the compute interval, a stove if true (R367); unlisted neither -/
  lastNear : Tab Bool
  deriving DecidableEq, Repr, Inhabited

/-- A hearth after reset: FRAMELEN 4,096 and COMPUTELEN 1,024 (Table 17.4). -/
def Hearth.reset : Hearth := ⟨4096, 1024, [], 0, false, 0, [], none, [], []⟩

/-- A GATHER operation of several parts: how many completion adds are still due (Table 6.2). -/
structure Gather where
  core : Nat
  slot : Nat
  team : Nat
  left : Nat
  deriving DecidableEq, Repr, Inhabited

/-- An update of a completion counter or of its error word (R125, R126). -/
inductive CounterOp where
  | add (n : Nat)
  | error (cause : Nat) (bits : List Nat)
  | killed
  /-- no counter: the bytes of a log record, a trace record or a part of a dump (R107, R410, R418) -/
  | write (bytes : List Byte)
  deriving DecidableEq, Repr, Inhabited

/-- An update of a counter and what its add carries. -/
structure CounterReq where
  ctx : Nat
  vf : Nat
  counter : DWord
  /-- the address is a device physical address (R389) -/
  phys : Bool
  /-- it comes after what an ended context had issued: stores, atomics and commits (R370, R435) -/
  drain : Bool
  /-- number from which it is counted: flips that began earlier hold it (R387) -/
  id : Nat
  op : CounterOp
  /-- party and scope of the release; its stamp and floor are those of the update -/
  by_ : RelInfo
  deriving DecidableEq, Repr, Inhabited

/-- A commit in flight of a context that has ended: it takes effect as any other (R287, R346, R370). -/
structure Orphan where
  core : Nat
  slot : Nat
  thread : Nat
  team : Nat
  ctx : Nat
  vf : Nat
  tx : Tx
  rel : List RelInfo
  deriving DecidableEq, Repr, Inhabited

/-- What the screen keeps of a screened team that has retired before its shadow was placed (R372): its place, grid and team
number, the VCLOCK of its placement, and its CRC. -/
structure LeftScreen where
  ix : Nat
  grid : Nat
  num : Nat
  since : Nat
  crc : DWord
  deriving DecidableEq, Repr, Inhabited

/-- One contribution to a collective sequence (R317). -/
structure Contribution where
  core : Nat
  slot : Nat
  team : Nat
  vf : Nat
  ctx : Nat
  grid : Nat
  num : Nat
  first : Nat
  n : Nat
  seq : Nat
  op : Nat
  fn : Nat
  count : Nat
  src : DWord
  dst : DWord
  /-- none where it stands in s63 (assumption 99) -/
  counter : Option DWord
  /-- the issuing thread's stores older than this number precede its reads (R310, R317); 0 none -/
  after : Nat
  /-- operation number -/
  id : Nat
  /-- elements of its sequence done so far -/
  pos : Nat
  deriving DecidableEq, Repr, Inhabited

/-- Row permission entry (Table 5.4), its reserved bits always zero. -/
structure Perm where
  owner : Nat
  r : Bool
  w : Bool
  c : Bool
  deriving DecidableEq, Repr, Inhabited

/-- The reset value of a row permission entry: OWNER 0x7F and no rights. -/
def Perm.reset : Perm := ⟨0x7F, false, false, false⟩

/-- A part of an instruction pair (R184). -/
inductive PairRole where
  | alone
  | first (stall : Nat)
  | second (stall : Nat)
  deriving DecidableEq, Repr, Inhabited

/-- The agent whose instruction is being executed. MODEL'S OWN (assumption 1). -/
inductive Cur where
  | none
  /-- a fragment, the instruction's PC and word, its place in a pair, and how many times the two passes of
  redundant issue disagree on it (R371) -/
  | frag (core slot entry : Nat) (pc : DWord) (word : BitVec 96) (role : PairRole) (upset : Nat)
  | seq (core team : Nat) (pc : DWord) (word : BitVec 96)
  | stove (stack ch : Nat) (arith : Bool)
  deriving DecidableEq, Repr, Inhabited

/-- What an upset strikes: stored bits, of which `double` strikes two of one word (R81, R85), or a computation. -/
inductive Upset where
  | dram (word bit : Nat)
  | l1 (core word : Nat) (double : Bool)
  | l2 (word : Nat) (double : Bool)
  | sync (word : Nat) (double : Bool)
  | comb (hive word : Nat) (double : Bool)
  /-- the two computations of a sequencer's next instruction disagree, for good where `double` (R371) -/
  | seq (core team : Nat) (double : Bool)
  deriving DecidableEq, Repr

/-- What happens next. MODEL'S OWN (assumption 1): the order in which the parties of the package act, which the
spec leaves open, is the order of a list. -/
inductive Turn where
  /-- an issue opportunity of scheduler `sched` of a core (R36), the upsets the issued instruction meets, and the
  fragments (warp slot × 16 + entry) whose STALL count has not expired or whose unit is busy -/
  | issue (core sched upset : Nat) (notReady : List Nat)
  /-- the second instruction of a pair -/
  | second (core slot entry upset : Nat)
  | sequencer (core team : Nat)
  | stove (stack ch : Nat) (arith : Bool)
  /-- an ending instruction of a replay quantum, performed at its boundary (R414) -/
  | boundary (core slot entry : Nat)
  | boundarySeq (core team : Nat)
  /-- the ending instructions of a boundary have been performed -/
  | boundaryEnd (vf : Nat)
  /-- the acceptance of the operation that an instruction has just left in a copy channel: `COPY_ACCEPT` (R123, R311) -/
  | acceptCopy (hive ch : Nat)
  /-- stored bits flip (R81, R85) -/
  | upset (u : Upset)
  /-- the host refuses, or accepts again, requests to one of its 4 KiB pages (R99) -/
  | hostProtect (page : Nat) (deny : Bool)
  /-- the management core sets an island's frequency and voltage (R20) -/
  | setIsland (island mhz mv : Nat)
  | event (i : Instr)
  deriving DecidableEq, Repr

/-- Fuses (R404, R407): the only state kept without supply (R24). -/
structure Fuses where
  svn : Nat
  testmode : Bool
  /-- Sorica kind and index of the parts fused off: at manufacture (R13), and by FUSE (R407) -/
  retired : List (Nat × Nat)
  deriving DecidableEq, Repr, Inhabited

/-- The state of the device. -/
structure State where
  /-- the coming turns, MODEL'S OWN (assumption 1); when none is listed the next event is a VCLOCK tick -/
  agenda : List Turn
  /-- the issuing agent, MODEL'S OWN (assumption 1) -/
  cur : Cur
  /-- advances with every open value taken, MODEL'S OWN (assumption 3) -/
  freeCtr : Nat
  /-- numbers operations, grids and births apart, MODEL'S OWN (assumption 2) -/
  nextId : Nat
  /-- supplies applied (R24) -/
  powered : Bool
  /-- step of Table 19.10 that has been reached, 1-6 -/
  bootStep : Nat
  /-- boots since the fuses were made: names this boot's HPKE key pair (R404) -/
  boots : Nat
  /-- measurement M (R404) -/
  measure : List Byte
  bootWindow : Tab Byte
  fuses : Fuses
  vclock : DWord
  /-- DRAM command clocks since reset (R22) -/
  dclk : Nat
  /-- device memory (R74): data bytes by physical address; an unlisted byte is 0 (assumption 5) -/
  mem : List Host.Cell
  /-- DRAM check-bit syndrome of each word (R80, R81) by word address; unlisted 0, a good word -/
  synd : Tab (BitVec 8)
  /-- words whose stored copy is uncorrectable and stays so until overwritten (R83) -/
  poisoned : List Nat
  /-- write events at the homes so far, MODEL'S OWN (assumption 85) -/
  homeClk : Nat
  /-- what the newest write of a byte at its home, and its release sequence, carry (R275, R348); unlisted nothing -/
  rel : Tab (List RelInfo)
  /-- home clock of the zero fill of a row: the initial writes of its bytes (R342); unlisted 0 -/
  rowTime : Tab Nat
  /-- row permission table (R114) by row PA ÷ 2,048; unlisted `Perm.reset` -/
  perms : Tab Perm
  /-- bias table: the 4 KiB pages that are host-bias (R113) -/
  hostBias : List Nat
  /-- elision table (R117): row to constant -/
  elision : Tab Word
  /-- rows awaiting zero fill: ranges (first, count) of rows, all rows before they are first filled (R396) -/
  unfilled : List (Nat × Nat)
  /-- open rows by ((stack × 32 + channel) × 16 + slice) × 16 + bank (R77) -/
  openRows : Tab OpenRow
  /-- DRAM clock of the last precharge of a slice-bank, same index (Table 4.3) -/
  prechargeAt : Tab Nat
  /-- hearth word queues by stack × 32 + channel (R78), oldest first -/
  wordQ : Tab (List WordReq)
  /-- DRAM clock of a channel's last burst (Table 4.3) -/
  burstAt : Tab Nat
  /-- direction of a channel's last burst, write if true, and how many came in that direction since it last changed (R78) -/
  burstRun : Tab (Bool × Nat)
  /-- L2 slices by word address (R91) -/
  l2 : Tab L2Word
  /-- hints of frames of L2, 1 STREAM and 3 KEEP (Table 4.5); unlisted others -/
  l2marks : Tab Nat
  /-- synchronisation engines by word address (R94) -/
  sync : Tab SyncWord
  /-- overflow tags: words of SYNC pages that lie in the overflow area (R94) -/
  overflow : List Nat
  /-- host memory reached over CXL.cache (R99): bytes by host address; an unlisted byte is 0 -/
  hostMem : List Host.Cell
  /-- host writes in flight on lines that a back-invalidation collides with: address and bytes within a line (R351) -/
  hostInFlight : List (Nat × List Byte)
  /-- host pages whose requests the host rejects (R99), an input of the host -/
  hostDeny : List Nat
  /-- bias flips in progress: page, and the number from which accesses wait (R98, R387) -/
  flips : List (Nat × Nat)
  cores : Tab Core
  hives : Tab Hive
  /-- resident warps by core × 32 + warp slot -/
  warps : Tab Warp
  /-- resident teams by core × 8 + team slot -/
  teams : Tab Team
  /-- L2 TLBs by hive (R100) -/
  l2tlb : Tab (List Trans)
  /-- walk caches by die, newest first (R118) -/
  walkCache : Tab (List WalkEntry)
  /-- producers that stall at full queues, oldest first (R105) -/
  stalls : List Stall
  /-- requests that bandwidth buckets hold, by bucket, in order of arrival (R132) -/
  heldReq : Tab (List Nat)
  /-- spills of FOREIGN tiles that have been asked for, core and tile, oldest first (R384) -/
  spillQ : List (Nat × Nat)
  /-- updates of counters that wait at their engines, for the end of a solo attempt or of a bias flip, oldest first
  (R286, R387) -/
  engineQ : List CounterReq
  /-- operations in flight, by number in issue order -/
  loads : Tab Load
  stores : Tab Store
  atomics : Tab Atomic
  /-- commits in flight of ended contexts -/
  orphans : List Orphan
  /-- screens of teams that have retired before their shadows were placed (R372) -/
  screens : List LeftScreen
  pend : Tab Pending
  slabs : Tab Slab
  /-- posted matrix operations, by number in posting order -/
  posted : Tab Posted
  gathers : Tab Gather
  /-- collective engine queues by die (R317) -/
  coll : Tab (List Contribution)
  grids : Tab Grid
  /-- contexts by VF × 64 + the id that CTXCREATE returned -/
  contexts : Tab Context
  parts : Tab Partition
  /-- package range queues by VF × 4 + die and die range queues by hive (Table 5.1, R353), oldest first -/
  pkgQ : Tab (List Range)
  dieQ : Tab (List Range)
  /-- hive distributors: the wait of the oldest team (R361): grid, team number, start VCLOCK and whether it has expired -/
  fitWait : Tab (Nat × Nat × Nat × Bool)
  buckets : Tab Bucket
  hearths : Tab Hearth
  /-- stoves by stack × 32 + channel -/
  stoves : Tab Stove
  mailboxes : Tab Mailbox
  /-- functions with a pending command in doorbell order, and the consecutive function 0 commands that each has waited
  behind, at most 4 (R389) -/
  mboxOrder : List Nat
  f0Run : Tab Nat
  /-- the function whose command the management cores have begun (R389, R406) -/
  mboxCur : Option Nat
  hvLog : Option LogRing
  mgmtLog : List LogRec
  mgmtWraps : Nat
  banks : Tab Bank
  traceUnits : Tab TraceUnit
  /-- Sorica entries by kind × 65,536 + index -/
  sorica : Tab Sorica
  /-- changes of entries that are being written, oldest first (R120) -/
  soricaW : List SoricaWrite
  /-- resource event counters (R133) by ((kind × 65,536 + index) × 256 + code) -/
  events : Tab DWord
  /-- islands: frequency in MHz; unlisted at the nominal frequency of its domain -/
  islands : Tab Nat
  /-- islands: supply voltage in mV; unlisted 0 (assumption 86) -/
  volts : Tab Nat
  /-- host links: trained width and rate, (0, 0) untrained -/
  links : List (Nat × Nat)
  /-- the shadow management core directs the device (R406) -/
  shadow : Bool
  /-- VCLOCK of the primary's last heartbeat -/
  heartbeat : DWord
  /-- temperatures reported over I3C: VCLOCK of each report (R24) -/
  i3cReports : List DWord
  /-- words the host read by its last CXL.mem access, or the cause it was refused with (R386) -/
  hostRead : Option (List Byte × Nat)
  deriving DecidableEq, Repr

/-- What a byte of device or host memory that nothing has written reads as (assumption 5). -/
def memDefault : Byte := 0

/-- A canonical memory: addresses rise strictly and no listed byte is the default. -/
def Memory.wf (m : List Host.Cell) : Bool := Tab.sortedFrom 0 m && m.all fun c => c.2 != memDefault

/-- The device right after reset (Table 19.10 step 1): supplies applied, all state cleared, VCLOCK 0, every row
awaiting zero fill, fuses as made (assumption 8). -/
def State.reset : State where
  agenda := []
  cur := .none
  freeCtr := 0
  nextId := 0
  powered := true
  bootStep := 1
  boots := 0
  measure := List.replicate 64 0
  bootWindow := []
  fuses := ⟨0, false, Config.fusedOff⟩
  vclock := 0
  dclk := 0
  mem := []
  synd := []
  poisoned := []
  homeClk := 0
  rel := []
  rowTime := []
  perms := []
  hostBias := []
  elision := []
  unfilled := [(0, 2 ^ 28)]
  openRows := []
  prechargeAt := []
  wordQ := []
  burstAt := []
  burstRun := []
  l2 := []
  l2marks := []
  sync := []
  overflow := []
  hostMem := []
  hostInFlight := []
  hostDeny := []
  flips := []
  cores := []
  hives := []
  warps := []
  teams := []
  l2tlb := []
  walkCache := []
  stalls := []
  heldReq := []
  spillQ := []
  engineQ := []
  loads := []
  stores := []
  atomics := []
  orphans := []
  screens := []
  pend := []
  slabs := []
  posted := []
  gathers := []
  coll := []
  grids := []
  contexts := []
  parts := []
  pkgQ := []
  dieQ := []
  fitWait := []
  buckets := []
  hearths := []
  stoves := []
  mailboxes := []
  mboxOrder := []
  f0Run := []
  mboxCur := none
  hvLog := none
  mgmtLog := []
  mgmtWraps := 0
  banks := []
  traceUnits := []
  sorica := []
  soricaW := []
  events := []
  islands := []
  volts := []
  links := [(0, 0), (0, 0)]
  shadow := false
  heartbeat := 0
  i3cReports := []
  hostRead := none

end Sys2Proof.Machine
end

