-- ==== Sys2Proof/Machine/Base.lean ====
section
/-! DEFINITION. Bit fields, thread masks, program counters, and the accessors of the state that every later file uses. -/

namespace Sys2Proof.Machine

/-! ## Bits and masks -/

/-- Bits h down to l of a number (R5, R11). -/
def bitsOf (x h l : Nat) : Nat := (x >>> l) % 2 ^ (h + 1 - l)

/-- The signed value of the low `n` bits (Sext of R11). -/
def sextNat (x n : Nat) : Int := if x % 2 ^ n < 2 ^ (n - 1) then (x % 2 ^ n : Nat) else (x % 2 ^ n : Nat) - 2 ^ n

/-- A number as bytes, least significant first (R6). -/
def toBytes : Nat → Nat → List Byte
  | 0, _ => []
  | n + 1, x => BitVec.ofNat 8 x :: toBytes n (x / 256)

/-- Bytes as a number, least significant first (R6). -/
def ofBytes : List Byte → Nat
  | [] => 0
  | b :: t => b.toNat + 256 * ofBytes t

/-- Bytes `i` to `i + n - 1` of a list as a number. -/
def fieldOf (l : List Byte) (i n : Nat) : Nat := ofBytes ((l.drop i).take n)

/-- The threads of a mask, ascending. -/
def threadsOf (m : DWord) : List Nat := (List.range 64).filter fun t => m.getLsbD t

/-- The lowest thread of a mask. -/
def lowestOf (m : DWord) : Option Nat := (threadsOf m).head?

/-- The mask with bit t set where `f t` holds. -/
def maskWhere (f : Nat → Bool) : DWord :=
  BitVec.ofNat 64 ((List.range 64).foldl (fun acc t => if f t then acc + 2 ^ t else acc) 0)

/-- The mask of a list of threads. -/
def maskOf (l : List Nat) : DWord := maskWhere fun t => l.contains t

/-- The number of threads of a mask. -/
def countOf (m : DWord) : Nat := (threadsOf m).length

/-- The line of a PC (R166). -/
def lineOf (pc : DWord) : DWord := pc &&& ~~~(63#64)

/-- The slot field of a PC (R180). -/
def slotOf (pc : DWord) : Nat := (pc &&& 7#64).toNat

/-- Next(p) of R203: slot 4 runs on to slot 0 of the next line. -/
def nextPc (pc : DWord) : DWord := if slotOf pc = 4 then lineOf pc + 64 else pc + 1

/-- Bits 5-3 are zero and the slot is 0-4 (R181, R203). -/
def pcShapeOk (pc : DWord) : Bool := bitsOf pc.toNat 5 3 == 0 && decide (slotOf pc ≤ 4)

/-- The PC of a line delta and slot from a PC (R193). -/
def pcFrom (pc : DWord) (delta : Int) (slot : Nat) : DWord := lineOf pc + BitVec.ofInt 64 (64 * delta) + BitVec.ofNat 64 slot

/-! ## The CRC of R51 -/

/-- One bit of the CRC of R51, bit 7 of each byte first. -/
def crcBit (c : Nat) (bit : Bool) : Nat :=
  let top := c.testBit 63 != bit
  (c * 2 % 2 ^ 64) ^^^ (if top then 0x42F0E1EBA9EA3693 else 0)

/-- One byte of the CRC. -/
def crcByte (c : Nat) (b : Nat) : Nat := (List.range 8).foldl (fun c i => crcBit c (b.testBit (7 - i))) c

/-- CRC-64 of bytes, lowest first, from a running value. -/
def crc64 (c : Nat) (l : List Nat) : Nat := l.foldl crcByte c

/-! ## Physical addresses (R74 to R76) -/

def rowOfPa (pa : Nat) : Nat := pa / 2048
def bankOfPa (pa : Nat) : Nat := bitsOf pa 22 19
def chanOfPa (pa : Nat) : Nat := bitsOf pa 18 14
/-- The stack of a physical address: PA[13:11] XOR PA[25:23] (R74). -/
def stackOfPa (pa : Nat) : Nat := bitsOf pa 13 11 ^^^ bitsOf pa 25 23
def lineOfPa (pa : Nat) : Nat := bitsOf pa 10 6
/-- The slice that stores a word: w XOR c[3:0] (R75). -/
def sliceOfPa (pa : Nat) : Nat := bitsOf pa 5 2 ^^^ (lineOfPa pa % 16)
/-- The Row field, bits 38-23. -/
def rowFieldOf (pa : Nat) : Nat := bitsOf pa 38 23
/-- The home die (R15). -/
def homeDie (pa : Nat) : Nat := stackOfPa pa / 2
/-- The home L2 slice within its die (R76). -/
def homeSlice (pa : Nat) : Nat := 3 * chanOfPa pa + (bankOfPa pa + bitsOf pa 10 8) % 3
/-- The slice-bank index of `State.openRows`. -/
def sliceBank (stack ch slice bank : Nat) : Nat := ((stack * 32 + ch) * 16 + slice) * 16 + bank
/-- The channel, stack × 32 + channel, whose word queue a word's requests go through. -/
def queueIx (wa : Nat) : Nat := stackOfPa (4 * wa) * 32 + chanOfPa (4 * wa)
/-- The home slice of a byte address, numbered through the package. -/
def sliceIx (pa : Nat) : Nat := 96 * homeDie pa + homeSlice pa
def sliceBankOf (pa : Nat) : Nat := sliceBank (stackOfPa pa) (chanOfPa pa) (sliceOfPa pa) (bankOfPa pa)
/-- The physical address of line c, word w of a row of a bank and channel of a stack (R74). -/
def paOf (stack ch bank row line : Nat) : Nat :=
  row * 2 ^ 23 + bank * 2 ^ 19 + ch * 2 ^ 14 + (stack ^^^ (row % 8)) * 2 ^ 11 + line * 2 ^ 6
/-- Reserved rows: Row field 0xFFBE and above (R116). -/
def reservedPa (pa : Nat) : Bool := decide (Config.reservedRow ≤ rowFieldOf pa)
/-- Die, hive and core numbering (R14). -/
def dieOfCore (core : Nat) : Nat := core / 96
def hiveOfCore (core : Nat) : Nat := core / 4
def dieOfHive (hive : Nat) : Nat := hive / 24

/-! ## Parts of the state -/

def State.core (s : State) (c : Nat) : Core := s.cores.get Core.empty c
def State.setCore (s : State) (c : Nat) (x : Core) : State := { s with cores := s.cores.set Core.empty c x }
def State.modCore (s : State) (c : Nat) (f : Core → Core) : State := s.setCore c (f (s.core c))
def State.hive (s : State) (h : Nat) : Hive := s.hives.get Hive.empty h
def State.setHive (s : State) (h : Nat) (x : Hive) : State := { s with hives := s.hives.set Hive.empty h x }
def State.modHive (s : State) (h : Nat) (f : Hive → Hive) : State := s.setHive h (f (s.hive h))
/-- Index of a warp slot of a core. -/
def warpIx (core slot : Nat) : Nat := core * 32 + slot
/-- Index of a team slot of a core. -/
def teamIx (core team : Nat) : Nat := core * 8 + team
def State.warp? (s : State) (core slot : Nat) : Option Warp := s.warps.find? (warpIx core slot)
def State.setWarp (s : State) (core slot : Nat) (w : Warp) : State := { s with warps := s.warps.put (warpIx core slot) w }
def State.modWarp (s : State) (core slot : Nat) (f : Warp → Warp) : State := { s with warps := s.warps.modify (warpIx core slot) f }
def State.team? (s : State) (ix : Nat) : Option Team := s.teams.find? ix
def State.modTeam (s : State) (ix : Nat) (f : Team → Team) : State := { s with teams := s.teams.modify ix f }
def State.grid? (s : State) (g : Nat) : Option Grid := s.grids.find? g
def State.modGrid (s : State) (g : Nat) (f : Grid → Grid) : State := { s with grids := s.grids.modify g f }
def State.ctx? (s : State) (c : Nat) : Option Context := s.contexts.find? c
def State.modCtx (s : State) (c : Nat) (f : Context → Context) : State := { s with contexts := s.contexts.modify c f }
/-- The context is live. -/
def State.ctxLive (s : State) (ctx : Nat) : Bool := ((s.ctx? ctx).map (·.st)) == some CtxState.live
def State.part? (s : State) (vf : Nat) : Option Partition := s.parts.find? vf
def State.modPart (s : State) (vf : Nat) (f : Partition → Partition) : State := { s with parts := s.parts.modify vf f }
def State.hearth (s : State) (k : Nat) : Hearth := s.hearths.get Hearth.reset k
def State.modHearth (s : State) (k : Nat) (f : Hearth → Hearth) : State :=
  { s with hearths := s.hearths.set Hearth.reset k (f (s.hearth k)) }
def State.stove (s : State) (k : Nat) : Stove := s.stoves.get Stove.idle k
def State.setStove (s : State) (k : Nat) (x : Stove) : State := { s with stoves := s.stoves.set Stove.idle k x }
def State.mailbox (s : State) (fn : Nat) : Mailbox := s.mailboxes.get Mailbox.reset fn
def State.modMailbox (s : State) (fn : Nat) (f : Mailbox → Mailbox) : State :=
  { s with mailboxes := s.mailboxes.set Mailbox.reset fn (f (s.mailbox fn)) }
def State.unit (s : State) (u : Nat) : TraceUnit := s.traceUnits.get TraceUnit.reset u
def State.modUnit (s : State) (u : Nat) (f : TraceUnit → TraceUnit) : State :=
  { s with traceUnits := s.traceUnits.set TraceUnit.reset u (f (s.unit u)) }
def Warp.entry (w : Warp) (e : Nat) : Entry := w.entries.get Entry.empty e
def Warp.setEntry (w : Warp) (e : Nat) (x : Entry) : Warp := { w with entries := w.entries.set Entry.empty e x }
def Warp.modEntry (w : Warp) (e : Nat) (f : Entry → Entry) : Warp := w.setEntry e (f (w.entry e))
def Team.bar (t : Team) (b : Nat) : Barrier := t.bars.get Barrier.start b
def Team.setBar (t : Team) (b : Nat) (x : Barrier) : Team := { t with bars := t.bars.set Barrier.start b x }
def Core.tile (c : Core) (k : Nat) : Tile := c.tiles.get Tile.zero k
def Core.setTile (c : Core) (k : Nat) (x : Tile) : Core := { c with tiles := c.tiles.set Tile.zero k x }
def State.modTile (s : State) (core k : Nat) (f : Tile → Tile) : State :=
  s.modCore core fun c => c.setTile k (f (c.tile k))

/-- The grid, context and partition of a resident team. -/
def State.gridOfTeam (s : State) (ix : Nat) : Option Grid := (s.team? ix).bind fun t => s.grid? t.grid
def State.ctxIdOfTeam (s : State) (ix : Nat) : Nat := ((s.gridOfTeam ix).map (·.ctx)).getD 0
def State.vfOfTeam (s : State) (ix : Nat) : Nat := ((s.gridOfTeam ix).map (·.vf)).getD 0

/-- A number above those of resident teams names a saved team (R106, R380). -/
def teamAway (team : Nat) : Bool := decide (4096 ≤ team)

/-- A new number (assumption 2). -/
def State.fresh (s : State) : Nat × State := (s.nextId, { s with nextId := s.nextId + 1 })

/-- An open choice among `n` outcomes (assumption 3). -/
def State.pick (s : State) (n : Nat) : Nat × State :=
  (Config.freePick s.freeCtr % n, { s with freeCtr := s.freeCtr + 1 })

/-- An open 32-bit value (assumption 3). -/
def State.openWord (s : State) : Word × State := (Config.freeWord s.freeCtr, { s with freeCtr := s.freeCtr + 1 })

/-- The resource's event counter of Table 6.4 rises by one (R133). -/
def State.countEvent (s : State) (kind index code : Nat) : State :=
  let k := (kind * 65536 + index) * 256 + code
  { s with events := s.events.set 0 k (s.events.get 0 k + 1) }

/-- The performance counters of the partition's claimed banks that select a code rise by one (R133). A bank that function 0 holds
counts the events of every partition (assumption 108). -/
def State.countPerf (s : State) (vf code : Nat) : State :=
  { s with banks := s.banks.map fun kb =>
      if kb.2.holder = some vf || kb.2.holder = some 0 then
        (kb.1, { kb.2 with cnt := (kb.2.cnt.zip kb.2.sel).map fun cs => if cs.2 = code then cs.1 + 1 else cs.1 })
      else kb }

/-- An event of a resource in the course of a function's access: its resource counter and the banks that select it (R133). -/
def State.countRes (s : State) (vf kind index code : Nat) : State := (s.countEvent kind index code).countPerf vf code

/-- A list without its later repeats. -/
def firsts (l : List Nat) : List Nat := l.foldl (fun acc x => if acc.contains x then acc else acc ++ [x]) []

/-- Apply a state change to each number of a list in order. -/
def State.each {α : Type} (s : State) (l : List α) (f : State → α → State) : State := l.foldl f s

end Sys2Proof.Machine
end

