-- ==== Sys2Proof/Machine/Flags.lean ====
section
/-! DEFINITION. FPFLAGS bits (03 Table 3.4) and the integer comparison codes of `cmp` and `cmpi` (11 R237). -/

namespace Sys2Proof.Machine

/-- FPFLAGS bits (Table 3.4). -/
def flagNX : BitVec 5 := 1
def flagUF : BitVec 5 := 2
def flagOF : BitVec 5 := 4
def flagDZ : BitVec 5 := 8
def flagNV : BitVec 5 := 16

/-- The relation of an integer comparison code: 0 `.eq`, 1 `.ne`, 2 `.lt`, 3 `.le`, 4 `.gt`, 5 `.ge` (Table 11.2). -/
def intCC (cc : Nat) (a b : Int) : Bool :=
  match cc with
  | 0 => a == b
  | 1 => a != b
  | 2 => decide (a < b)
  | 3 => decide (a ≤ b)
  | 4 => decide (b < a)
  | _ => decide (b ≤ a)

end Sys2Proof.Machine
end

