-- ==== Sys2Proof/Machine/Float.lean ====
section
/-! DEFINITION. Number formats (07): exact dyadic values, the one rounding of R136, narrow formats and flushing (R139 to
R142), integer converts (R143), and the Q4 block family (R144, R145). -/

namespace Sys2Proof.Machine

/-! ## Exact values -/

/-- A decoded floating-point value: a NaN (signalling or quiet), an infinity, or the exact (-1)^neg × m × 2^e. -/
inductive Fv where
  | nan (sig : Bool)
  | inf (neg : Bool)
  | fin (neg : Bool) (m : Nat) (e : Int)
  deriving DecidableEq, Repr

/-- A binary format: exponent bits, mantissa bits, bias; `ext` for E4M3, whose all-ones exponent encodes finite
values (R139). -/
structure Fmt where
  eb : Nat
  mb : Nat
  bias : Nat
  ext : Bool
  deriving DecidableEq, Repr

def f32 : Fmt := ⟨8, 23, 127, false⟩
def f16 : Fmt := ⟨5, 10, 15, false⟩
def bf16 : Fmt := ⟨8, 7, 127, false⟩
def e4m3 : Fmt := ⟨4, 3, 7, true⟩
def e5m2 : Fmt := ⟨5, 2, 15, false⟩

/-- The exponent of the smallest normal of a format. -/
def Fmt.emin (f : Fmt) : Int := 1 - (f.bias : Int)
/-- The exponent of the largest finite value. -/
def Fmt.emax (f : Fmt) : Int := ((2 ^ f.eb - (if f.ext then 1 else 2) : Nat) : Int) - f.bias
/-- The sign bit's weight. -/
def Fmt.signBit (f : Fmt) : Nat := 2 ^ (f.eb + f.mb)
/-- The code of the largest finite value (Table 7.2). -/
def Fmt.largest (f : Fmt) : Nat := if f.ext then 2 ^ (f.eb + f.mb) - 2 else (2 ^ f.eb - 2) * 2 ^ f.mb + (2 ^ f.mb - 1)
/-- The code of +∞ (no such code in E4M3). -/
def Fmt.infCode (f : Fmt) : Nat := (2 ^ f.eb - 1) * 2 ^ f.mb
/-- The canonical NaN (R137, Table 7.2). -/
def Fmt.nanCode (f : Fmt) : Nat := if f.ext then 2 ^ (f.eb + f.mb) - 1 else f.infCode + 2 ^ (f.mb - 1)

/-- The exact value of a code, subnormals included (R139). FP8 NaNs are quiet. -/
def Fmt.value (f : Fmt) (x : Nat) : Fv :=
  let neg := x / f.signBit % 2 == 1
  let ex := x / 2 ^ f.mb % 2 ^ f.eb
  let m := x % 2 ^ f.mb
  if ex = 2 ^ f.eb - 1 && (!f.ext || m == 2 ^ f.mb - 1) then
    if m = 0 then .inf neg else .nan (decide (7 ≤ f.mb) && m < 2 ^ (f.mb - 1))
  else if ex = 0 then .fin neg m (f.emin - f.mb)
  else .fin neg (m + 2 ^ f.mb) ((ex : Int) - f.bias - f.mb)

/-- A NaN operand. -/
def Fv.isNan : Fv → Bool
  | .nan _ => true
  | _ => false
/-- A signalling NaN. -/
def Fv.isSig : Fv → Bool
  | .nan s => s
  | _ => false
/-- An infinity. -/
def Fv.isInf : Fv → Bool
  | .inf _ => true
  | _ => false
/-- A zero of either sign. -/
def Fv.isZero : Fv → Bool
  | .fin _ m _ => m == 0
  | _ => false
/-- The sign. -/
def Fv.neg : Fv → Bool
  | .nan _ => false
  | .inf n => n
  | .fin n _ _ => n
/-- The value of opposite sign. -/
def Fv.negate : Fv → Fv
  | .nan s => .nan s
  | .inf n => .inf (!n)
  | .fin n m e => .fin (!n) m e

/-- Flush a subnormal of a format to a zero of its sign (R140). -/
def Fmt.flush (f : Fmt) (x : Fv) : Fv :=
  match x with
  | .fin n m e => if m < 2 ^ f.mb then .fin n 0 e else x
  | _ => x

/-! ## Rounding -/

/-- m × 2^(−shift) rounded to an integer in a direction (Table 7.1), and whether it was inexact. -/
def roundMag (rm : Nat) (neg : Bool) (m : Nat) (shift : Int) : Nat × Bool :=
  if shift ≤ 0 then (m <<< (-shift).toNat, false)
  else if m = 0 then (0, false)
  else
    let k := shift.toNat
    let up (q : Nat) (half above : Bool) : Bool := match rm with
      | 0 => above || (half && q % 2 == 1)
      | 1 => false
      | 2 => neg
      | _ => !neg
    if k > Nat.log2 m + 1 then (if up 0 false false then 1 else 0, true)
    else
      let q := m >>> k
      let r := m % 2 ^ k
      if r = 0 then (q, false)
      else (if up q (r == 2 ^ (k - 1)) (decide (2 ^ (k - 1) < r)) then q + 1 else q, true)

/-- How results below the smallest normal and overflows are delivered: `flush` R140, `sat` Table 7.3. -/
structure RoundMode where
  rm : Nat
  flush : Bool
  sat : Bool
  deriving DecidableEq, Repr

/-- The result of an overflow in a format (Table 7.3, IEEE 754-2019). -/
def Fmt.overflow (f : Fmt) (md : RoundMode) (neg : Bool) : Nat :=
  let big := f.ext || md.sat || (match md.rm with | 0 => false | 1 => true | 2 => !neg | _ => neg)
  (if big then f.largest else f.infCode) + (if neg then f.signBit else 0)

/-- Round the exact value (-1)^neg × m × 2^e once into a format (R136, R138, R140, R142). -/
def Fmt.round (f : Fmt) (md : RoundMode) (neg : Bool) (m : Nat) (e : Int) : Nat × BitVec 5 :=
  let sign := if neg then f.signBit else 0
  if m = 0 then (sign, 0)
  else
    let ex := e + Nat.log2 m
    let u := roundMag md.rm neg m (ex - f.mb - e)
    let carry := u.1 == 2 ^ (f.mb + 1)
    let ex' := if carry then ex + 1 else ex
    let m' := if carry then 2 ^ f.mb else u.1
    if ex' > f.emax || (f.ext && ex' == f.emax && m' == 2 ^ (f.mb + 1) - 1) then (f.overflow md neg, flagOF ||| flagNX)
    else if ex' < f.emin then
      if md.flush then (sign, flagUF ||| flagNX)
      else
        let t := roundMag md.rm neg m (f.emin - f.mb - e)
        (sign + t.1, if t.2 then flagUF ||| flagNX else 0)
    else (sign + ((ex' + f.bias).toNat - 1) * 2 ^ f.mb + m', if u.2 then flagNX else 0)

/-- Gradual underflow, non-saturating: FP32 arithmetic in a direction. -/
def ieee (rm : Nat) : RoundMode := ⟨rm, false, false⟩
/-- Arithmetic on a narrow format (R140). -/
def narrowMode (rm : Nat) : RoundMode := ⟨rm, true, false⟩

/-- Deliver a value into a format. -/
def Fmt.pack (f : Fmt) (md : RoundMode) (x : Fv) : Nat × BitVec 5 :=
  match x with
  | .nan _ => (f.nanCode, 0)
  | .inf n =>
    if md.sat then (f.largest + (if n then f.signBit else 0), 0)
    else if f.ext then (f.nanCode, flagNV)
    else (f.infCode + (if n then f.signBit else 0), 0)
  | .fin n m e => f.round md n m e

/-! ## Exact operations -/

/-- The exact sum of two finite values: a signed magnitude at the smaller exponent; the sign of a zero sum (R256). -/
def addFin (rm : Nat) (n1 : Bool) (m1 : Nat) (e1 : Int) (n2 : Bool) (m2 : Nat) (e2 : Int) : Fv :=
  if m1 = 0 && m2 = 0 then .fin (if n1 == n2 then n1 else rm == 2) 0 0
  else if m1 = 0 then .fin n2 m2 e2
  else if m2 = 0 then .fin n1 m1 e1
  else
    let e := if e1 ≤ e2 then e1 else e2
    let a : Int := (m1 <<< (e1 - e).toNat : Nat)
    let b : Int := (m2 <<< (e2 - e).toNat : Nat)
    let x := (if n1 then -a else a) + (if n2 then -b else b)
    if x = 0 then .fin (rm == 2) 0 0 else .fin (decide (x < 0)) x.natAbs e

/-- An exact result, or the invalid operation. -/
def fvAdd (rm : Nat) (a b : Fv) : Option Fv :=
  match a, b with
  | .inf x, .inf y => if x == y then some (.inf x) else none
  | .inf x, _ => some (.inf x)
  | _, .inf y => some (.inf y)
  | .fin n1 m1 e1, .fin n2 m2 e2 => some (addFin rm n1 m1 e1 n2 m2 e2)
  | _, _ => none

/-- The exact product; 0 × ∞ is invalid. -/
def fvMul (a b : Fv) : Option Fv :=
  match a, b with
  | .inf x, .inf y => some (.inf (x ^^ y))
  | .inf x, .fin n m _ => if m = 0 then none else some (.inf (x ^^ n))
  | .fin n m _, .inf y => if m = 0 then none else some (.inf (n ^^ y))
  | .fin n1 m1 e1, .fin n2 m2 e2 => some (.fin (n1 ^^ n2) (m1 * m2) (e1 + e2))
  | _, _ => none

/-- Comparison of two non-NaN values: −1, 0 or 1; −0 equals +0 (R258). -/
def fvCmp (a b : Fv) : Int :=
  let key : Fv → Int × Nat × Int := fun x => match x with
    | .inf n => (if n then -2 else 2, 0, 0)
    | .nan _ => (0, 0, 0)
    | .fin n m e => if m = 0 then (0, 0, 0) else (if n then -1 else 1, m, e)
  let x := key a
  let y := key b
  if x.1 < y.1 then -1
  else if y.1 < x.1 then 1
  else if x.1 = 1 || x.1 = -1 then
    let e := if x.2.2 ≤ y.2.2 then x.2.2 else y.2.2
    let p := x.2.1 <<< (x.2.2 - e).toNat
    let q := y.2.1 <<< (y.2.2 - e).toNat
    if p < q then -x.1 else if q < p then x.1 else 0
  else 0

/-- The shared pattern of R256: a NaN input gives the canonical NaN, NV if any is signalling; an invalid operation
gives it with NV; otherwise one rounding. -/
def arith (f : Fmt) (md : RoundMode) (ins : List Fv) (op : Option Fv) : Nat × BitVec 5 :=
  if ins.any Fv.isNan then (f.nanCode, if ins.any Fv.isSig then flagNV else 0)
  else match op with
    | none => (f.nanCode, flagNV)
    | some x => f.pack md x

/-- a × b + c, invalid for 0 × ∞ with any c (R137). -/
def fmaOf (f : Fmt) (md : RoundMode) (a b c : Fv) : Nat × BitVec 5 :=
  if a.isNan || b.isNan then arith f md [a, b, c] none
  else match fvMul a b with
    | none => (f.nanCode, flagNV)
    | some p => arith f md [c] (fvAdd md.rm p c)

/-- Selection of R257: the smaller, or the larger with `big`, returned unrounded; −0 below +0. -/
def minMax (f : Fmt) (big : Bool) (a b : Nat) (va vb : Fv) : Nat × BitVec 5 :=
  let fl := if va.isSig || vb.isSig then flagNV else 0
  if va.isNan && vb.isNan then (f.nanCode, fl)
  else if va.isNan then (b, fl)
  else if vb.isNan then (a, fl)
  else
    let c := fvCmp va vb
    let aFirst := if c = 0 then va.neg || !vb.neg else decide (c < 0)
    (if aFirst != big then a else b, fl)

/-- Comparison of R258 by CC code. -/
def cmpCC (cc : Nat) (a b : Fv) : Bool × BitVec 5 :=
  if a.isNan || b.isNan then
    (cc == 1 || cc == 6,
     if (2 ≤ cc && cc ≤ 5) || a.isSig || b.isSig then flagNV else 0)
  else
    let c := fvCmp a b
    (match cc with
     | 0 => c == 0
     | 1 => c != 0
     | 2 => decide (c < 0)
     | 3 => decide (c ≤ 0)
     | 4 => decide (c > 0)
     | 5 => decide (c ≥ 0)
     | _ => false, 0)

/-- One FP32 sum in RNE, flags dropped (R148: engines). -/
def addF32 (rm : Nat) (a b : Word) : Word × BitVec 5 :=
  let x := f32.value a.toNat
  let y := f32.value b.toNat
  let r := arith f32 (ieee rm) [x, y] (fvAdd rm x y)
  (BitVec.ofNat 32 r.1, r.2)

/-! ## Converts -/

/-- Round a finite value to an integer and clamp it into a range (R143). -/
def toIntRange (rm : Nat) (x : Fv) (lo hi : Int) : Int × BitVec 5 :=
  match x with
  | .nan _ => (0, flagNV)
  | .inf n => (if n then lo else hi, flagNV)
  | .fin n m e =>
    if m ≠ 0 && e + Nat.log2 m > 70 then (if n then lo else hi, flagNV)
    else
      let r := roundMag rm n m (-e)
      let v : Int := if n then -(r.1 : Int) else r.1
      if v < lo then (lo, flagNV)
      else if hi < v then (hi, flagNV)
      else (v, if r.2 then flagNX else 0)

/-- An integer as an exact value. -/
def Fv.ofInt (i : Int) : Fv := .fin (decide (i < 0)) i.natAbs 0

/-- Convert a value between floats: widening or FP32 results round gradually, narrow results flush (R141, R142). -/
def convert (f : Fmt) (rm : Nat) (sat : Bool) (x : Fv) : Nat × BitVec 5 :=
  if x.isNan then (f.nanCode, if x.isSig then flagNV else 0)
  else f.pack ⟨rm, f != f32, sat⟩ x

/-! ## Q4 blocks -/

/-- Element `n` of Table 7.4 in ascending code magnitude, doubled for type 01 and times 64 for type 10 as
m × 2^e. -/
def q4Mag (t n : Nat) : Nat × Int :=
  match t with
  | 0 => (n, 0)
  | 1 => ([0, 1, 2, 3, 4, 6, 8, 12].getD n 0, -1)
  | 2 => (if n = 0 then 0 else 2 ^ (n - 1), -6)
  | _ => ([0, 1, 2, 3, 4, 6, 8, 12].getD n 0, 0)

/-- Value(T, code) of Table 7.4. -/
def q4Value (t code : Nat) : Fv :=
  if t = 0 then let v := sextNat code 4; .fin (decide (v < 0)) v.natAbs 0
  else let m := q4Mag t (code % 8); .fin (code / 8 % 2 == 1) m.1 m.2

/-- Decode an element under a scale byte, as FP32 bits (R144). -/
def q4Decode (sb code : Nat) : Word :=
  let ex := sb % 64
  if ex = 0 then 0
  else if ex = 63 then BitVec.ofNat 32 f32.nanCode
  else match q4Value (sb / 64 % 4) code with
    | .fin n m e => BitVec.ofNat 32 (f32.round (ieee 0) n m (e + ex - 31)).1
    | _ => 0

/-- |m × 2^e − m' × 2^e'| at a common exponent below both. -/
def absDiff (m : Nat) (e : Int) (m' : Nat) (e' : Int) (base : Int) : Nat :=
  let a := m <<< (e - base).toNat
  let b := m' <<< (e' - base).toNat
  if a ≤ b then b - a else a - b

/-- Nearest(T, y) of R145 for y = (-1)^n × m × 2^e, with its OF and NX. -/
def q4Nearest (t : Nat) (n : Bool) (m : Nat) (e : Int) : Nat × BitVec 5 :=
  if m = 0 then (if t = 0 then 0 else if n then 8 else 0, 0)
  else
    let top := if t = 0 then (if n then 8 else 7) else 7
    let lo : Int := if e < -6 then e else -6
    let dist (k : Nat) : Nat := let q := q4Mag t k; absDiff m e q.1 q.2 lo
    let codeOf (k : Nat) : Nat := if t = 0 then (if n then (16 - k) % 16 else k) else k + (if n then 8 else 0)
    let best := (List.range top).foldl (fun b i =>
      let k := i + 1
      if dist k < dist b then k
      else if dist k = dist b && codeOf k % 2 == 0 then k else b) 0
    let mx := q4Mag t top
    let beyond := decide (mx.1 <<< (mx.2 - lo).toNat < m <<< (e - lo).toNat)
    (codeOf best, (if beyond then flagOF else 0) ||| (if dist best = 0 then 0 else flagNX))

/-- floor(log2 of m × 2^e) for m ≠ 0. -/
def floorLog2 (m : Nat) (e : Int) : Int := e + Nat.log2 m

/-- Compare m × 2^e with m' × 2^e' (both non-zero). -/
def magLt (m : Nat) (e : Int) (m' : Nat) (e' : Int) : Bool :=
  let b := if e ≤ e' then e else e'
  decide (m <<< (e - b).toNat < m' <<< (e' - b).toNat)

/-- The exponent e of R145: log2 of m × 2^ex ÷ F, up (`near` clear) or nearest with ties up. -/
def q4Exp (t : Nat) (near : Bool) (m : Nat) (ex : Int) : Int :=
  let fm : Nat := [7, 6, 1, 12].getD t 1
  -- the largest e with fm × 2^e ≤ m × 2^ex
  let est := floorLog2 m ex - floorLog2 fm 0
  let fl := if magLt m ex fm est then est - 1 else est
  if near then (if magLt m ex (fm * 3) (fl - 1) then fl else fl + 1)
  else (if magLt fm fl m ex then fl + 1 else fl)

/-- Quantise 32 FP32 values (R145): scale byte, codes and flags. -/
def q4Quantise (t : Nat) (near : Bool) (xs : List Fv) : Nat × List Nat × BitVec 5 :=
  if xs.any fun x => x.isNan || x.isInf then (t * 64 + 63, xs.map fun _ => 0, flagNV)
  else
    let big := xs.foldl (fun (b : Nat × Int) x => match x with
      | .fin _ m e => if m = 0 then b else if b.1 = 0 || magLt b.1 b.2 m e then (m, e) else b
      | _ => b) (0, 0)
    let near1 (sh : Int) : List (Nat × BitVec 5) := xs.map fun x => match x with
      | .fin n m e => q4Nearest t n m (e - sh)
      | _ => (0, 0)
    if big.1 = 0 then (t * 64, (near1 0).map (·.1), 0)
    else
      let e := q4Exp t near big.1 big.2 + 31
      let ex : Int := if e < 1 then 1 else if 62 < e then 62 else e
      let r := near1 (ex - 31)
      (t * 64 + ex.toNat, r.map (·.1), r.foldl (fun f x => f ||| x.2) 0)

/-! ## K-blocks of the comb path (R149, R150) -/

/-- A K-block as integers with one exponent. -/
structure Block where
  ints : List Int
  exp : Int
  deriving DecidableEq, Repr

/-- A block of signed bytes. -/
def intBlock (raw : List Nat) : Block := ⟨raw.map fun x => sextNat x 8, 0⟩

/-- A block of floating-point codes aligned with c fraction bits below its largest exponent (Tables 7.8, 7.9); none is
a NaN mark. -/
def floatBlock (f : Fmt) (c : Int) (raw : List Nat) : Option Block :=
  let vs := raw.map f.value
  if vs.any fun v => v.isNan || v.isInf then none
  else
    let tops := vs.filterMap fun v => match v with
      | .fin _ m e => if m = 0 then none else some (floorLog2 m e)
      | _ => none
    match tops with
    | [] => some ⟨raw.map fun _ => 0, 0⟩
    | h :: l =>
      let top := l.foldl max h
      some ⟨vs.map fun v => match v with
        | .fin n m e =>
          let q : Int := (roundMag 0 n m (top - c - e)).1
          if n then -q else q
        | _ => 0, top - c⟩

/-- Iw of a Q4 code by the type of its block (Table 7.8). -/
def q4Int (t code : Nat) : Int :=
  if t = 0 then sextNat code 4
  else let m : Int := (q4Mag t (code % 8)).1; if code / 8 % 2 = 1 then -m else m

/-- How far ew lies below E, by type (Table 7.8). -/
def q4Off (t : Nat) : Int := match t with | 1 => 32 | 2 => 37 | _ => 31

end Sys2Proof.Machine
end

