-- ==== Sys2Proof/Machine/Operands.lean ====
section
/-! DEFINITION. What each instruction word names and which values its fields may take: register field codes and counts
(09 R190 to R192, R195 steps 4 to 8; 02 R48; 03 R55), the entries' field tables (Tables 10.1, 11.1, 12.1, 13.1, 14.6,
15.1), issue units (Table 9.3), latencies (Table 9.8), and the reads and writes of register elements. -/

namespace Sys2Proof

/-- Fields of a V body that must be zero. -/
def VBody.zeroBut (b : VBody) (d a bb c e : Bool) (modMask : BitVec 24) : Bool :=
  (d || b.d == 0) && (a || b.a == 0) && (bb || b.b == 0) && (c || b.c == 0) && (e || b.e == 0) && (b.mod &&& ~~~modMask) == 0
/-- Every field of a V body zero. -/
def VBody.zero (b : VBody) : Bool := b.zeroBut false false false false false 0
/-- Fields of an I body that must be zero. -/
def IBody.zeroBut (b : IBody) (d a imm : Bool) (modMask : BitVec 16) : Bool :=
  (d || b.d == 0) && (a || b.a == 0) && (imm || b.imm == 0) && (b.mod &&& ~~~modMask) == 0

end Sys2Proof

namespace Sys2Proof.Machine

/-- What a field code stands for. -/
inductive Role where
  /-- a register code: vector 0x00-0xBF or scalar 0xC0-0xFF; scalar with U set (R191) -/
  | reg
  /-- a scalar code whatever U is -/
  | scal
  /-- a vector code -/
  | vec
  /-- a predicate written per thread (D[2:0]) -/
  | pdst
  /-- a predicate read per thread; with U set in the lowest thread (R233) -/
  | psrc
  /-- a predicate read in every thread of the fragment's MASK at offset 0 (R248 under U, R249) -/
  | pall
  deriving DecidableEq, Repr

/-- A field that names registers: its code, how many vector or scalar registers it stands for, and its use. -/
structure Opnd where
  code : Nat
  role : Role
  nv : Nat
  ns : Nat
  read : Bool
  write : Bool
  /-- a thread-form instruction may name a scalar here as destination (R55) -/
  sdst : Bool
  deriving DecidableEq, Repr

def src (c : BitVec 8) : Opnd := ⟨c.toNat, .reg, 1, 1, true, false, false⟩
/-- A wide source: a pair of vector registers, or one scalar (R232). -/
def srcW (c : BitVec 8) : Opnd := ⟨c.toNat, .reg, 2, 1, true, false, false⟩
def srcN (c : BitVec 8) (nv ns : Nat) : Opnd := ⟨c.toNat, .reg, nv, ns, true, false, false⟩
def ssrc (c : BitVec 8) (ns : Nat) : Opnd := ⟨c.toNat, .scal, 0, ns, true, false, false⟩
def dst (c : BitVec 8) : Opnd := ⟨c.toNat, .reg, 1, 1, false, true, false⟩
def dstN (c : BitVec 8) (nv ns : Nat) : Opnd := ⟨c.toNat, .reg, nv, ns, false, true, false⟩
/-- A destination that may be scalar in thread form. -/
def dstS (c : BitVec 8) (nv : Nat) : Opnd := ⟨c.toNat, .reg, nv, 1, false, true, true⟩
def sdstO (c : BitVec 8) : Opnd := ⟨c.toNat, .scal, 0, 1, false, true, true⟩
def pdstO (c : BitVec 8) : Opnd := ⟨c.toNat, .pdst, 0, 0, false, true, false⟩
def psrcO (i : Nat) : Opnd := ⟨i, .psrc, 0, 0, true, false, false⟩
def pallO (i : Nat) : Opnd := ⟨i, .pall, 0, 0, true, false, false⟩

/-- Issue units (Table 9.3). -/
inductive Unit9 where
  | vec | sfu | uni | mem | eng | ctl | none
  deriving DecidableEq, Repr

/-- What the entry of an instruction fixes about its word. -/
structure Form where
  hdr : Hdr
  /-- a uniform form exists -/
  uok : Bool
  /-- HINT 0-5 is accepted -/
  hintOk : Bool
  /-- FS holds a value the entry defines -/
  fsOk : Bool
  /-- the remaining body conditions of step 6 -/
  body : Bool
  ops : List Opnd
  /-- format slot and the kinds it must have -/
  slot : Option (Nat × List Nat)
  /-- reads elements at offset 0 (R242, R266) -/
  cross : Bool
  /-- latency of Table 9.8, thread form -/
  lat : Nat
  cls : Nat
  /-- an instruction of R185's last case -/
  lone : Bool
  deriving DecidableEq, Repr

/-! ## Entry tables -/

/-- A form of a class with FS 0, HINT 0 and a uniform form. -/
def mkForm (cls : Nat) (h : Hdr) (lat : Nat) (body : Bool) (ops : List Opnd) : Form :=
  ⟨h, true, false, h.fs == 0, body, ops, none, false, lat, cls, false⟩
def Form.noU (f : Form) : Form := { f with uok := false }
def Form.alone (f : Form) : Form := { f with lone := true }
def Form.crossLane (f : Form) : Form := { f with cross := true }

/-- TY of Table 11.2. -/
def ty (m : BitVec 24) : Nat := m.toNat % 4
/-- Type sets of R229: 0 W, 1 S, 2 N, 3 Q, 4 none (TY 0). -/
def tyOk (set : Nat) (t : Nat) (u : Bool) : Bool :=
  match set with
  | 0 => t < 2 || u
  | 1 => t == 0 || (t == 2 && u)
  | 2 => t < 2
  | 3 => true
  | _ => t == 0

/-- Integer or bit instruction: type set, MOD bits beside TY, fields used. -/
def intForm (h : Hdr) (b : VBody) (lat set : Nat) (modMask : BitVec 24) (useB useC useE : Bool) (ops : List Opnd) : Form :=
  mkForm 2 h lat (b.zeroBut true true useB useC useE (modMask ||| 3) && tyOk set (ty b.mod) h.u) ops
/-- Three-operand integer form d, a, b. -/
def int3 (h : Hdr) (b : VBody) (lat : Nat) (modMask : BitVec 24) : Form :=
  intForm h b lat 0 modMask true false false [dst b.d, src b.a, src b.b]
/-- Two-operand integer form d, a. -/
def int2 (h : Hdr) (b : VBody) (set : Nat) (modMask : BitVec 24) : Form :=
  intForm h b 10 set modMask false false false [dst b.d, src b.a]
/-- Shift form: B is a register, or a constant with IB. -/
def shiftForm (h : Hdr) (b : VBody) : Form :=
  intForm h b 10 0 0x800 true false false ([dst b.d, src b.a] ++ if b.mod.getLsbD 11 then [] else [src b.b])
/-- Immediate form. -/
def immForm (h : Hdr) (b : IBody) (modMask : BitVec 16) (useA : Bool) (ops : List Opnd) : Form :=
  mkForm 2 h 10 (b.zeroBut true useA true (modMask ||| 3) && tyOk 0 (b.mod.toNat % 4) h.u) ops

/-- Operand codes with a constant flag: none when the flag makes the field a constant. -/
def orConst (m : BitVec 24) (bit : Nat) (c : BitVec 8) : List Opnd := if m.getLsbD bit then [] else [src c]

/-- A floating-point instruction (Tables 12.1, 12.2): MOD bits allowed. -/
def fpForm (cls lat : Nat) (h : Hdr) (b : VBody) (modMask : BitVec 24) (useB useC : Bool) (ok : Bool) (ops : List Opnd) : Form :=
  mkForm cls h lat (b.zeroBut true true useB useC false modMask && ok) ops
def modDt (m : BitVec 24) : Nat := bitsOf m.toNat 19 16
def modSt (m : BitVec 24) : Nat := bitsOf m.toNat 23 20
def modEl (m : BitVec 24) : Nat := bitsOf m.toNat 13 12
def modCc (m : BitVec 24) : Nat := bitsOf m.toNat 10 8
def modRm (m : BitVec 24) : Nat := m.toNat % 4
/-- Elements of a type code (Table 12.3). -/
def elemCount (t : Nat) : Nat := [1, 2, 2, 4, 4, 1, 1, 2, 2, 4, 4].getD t 0
/-- Packed 16-bit members. -/
def packedForm (h : Hdr) (b : VBody) (modMask : BitVec 24) (useC : Bool) (ops : List Opnd) : Form :=
  let dt := modDt b.mod
  fpForm 7 12 h b (modMask ||| 0xF0000) true useC (dt == 1 || dt == 2) ops

/-- SIZE, SPACE and SCALE of MEMMOD (Table 9.6). -/
def memSize (b : MBody) : Nat := b.mm.toNat / 32
def memSpace (b : MBody) : Nat := b.mm.toNat / 4 % 8
def memScale (b : MBody) : Nat := b.mm.toNat % 4
/-- Bytes of an access. -/
def memBytes (b : MBody) : Nat := 2 ^ memSize b
/-- Control byte fields (Table 13.2). -/
def ctlKind (b : MBody) : Nat := b.c.toNat % 4
def ctlScope (b : MBody) : Nat := b.c.toNat / 4 % 8
def ctlType (b : MBody) : Nat := b.c.toNat / 32
/-- KIND 0 requires SCOPE 0; another KIND requires SCOPE 1-6 (R268). -/
def ctlOk (b : MBody) : Bool := if ctlKind b = 0 then ctlScope b == 0 else 1 ≤ ctlScope b && ctlScope b ≤ 6
/-- Vector registers of a data group (Table 13.3). -/
def groupV (b : MBody) : Nat := [1, 1, 1, 2, 4].getD (memSize b) 1
def groupS (b : MBody) : Nat := if memSize b = 4 then 2 else 1
/-- Base and index operands of format M; an index of 0xFF is none (R191). -/
def memBase (b : MBody) : List Opnd := [ssrc b.a 1]
def memIndex (b : MBody) (scalar : Bool) : List Opnd :=
  if b.b = 0xFF then [] else if scalar then [ssrc b.b 1] else [src b.b]
def memIndexOk (b : MBody) : Bool := b.b != 0xFF || memScale b == 0
/-- A memory instruction: sizes up to `maxSize`, its space, order kinds allowed, FS condition. -/
def memForm (h : Hdr) (b : MBody) (u : Bool) (space : Nat) (kinds : List Nat) (fs : Bool) (scalarIx : Bool) (ops : List Opnd) : Form :=
  ⟨h, u, true, fs,
   memSize b ≤ 4 && memSpace b == space && memIndexOk b && ctlOk b && kinds.contains (ctlKind b) && ctlType b == 0,
   ops ++ memBase b ++ memIndex b scalarIx, none, false, 0, 10, false⟩
/-- SGN in FS[0], accepted with SIZE 000-010 (R268). -/
def sgnOk (h : Hdr) (b : MBody) : Bool := h.fs.toNat < 2 && (h.fs == 0 || memSize b ≤ 2)
def ldDst (b : MBody) : Opnd := ⟨b.d.toNat, .reg, groupV b, groupS b, false, true, false⟩
def stSrc (b : MBody) : Opnd := ⟨b.d.toNat, .reg, groupV b, groupS b, true, false, false⟩

/-- Width in vector registers of an atomic's value. -/
def atomW (b : MBody) : Nat := if memSize b = 3 then 2 else 1
/-- TYPE and SIZE agree (R268). -/
def atomTypeOk (b : MBody) : Bool :=
  (ctlType b ≤ 2 && memSize b == 2) || ((ctlType b == 3 || ctlType b == 4) && memSize b == 3)
/-- Atomic forms. -/
def atomForm (h : Hdr) (b : MBody) (fsMax : Nat) (kinds : List Nat) (ops : List Opnd) : Form :=
  ⟨h, true, true, h.fs.toNat ≤ fsMax && !(ctlType b == 2 && 3 ≤ h.fs.toNat && h.fs.toNat ≤ 5),
   memSpace b == 0 && memIndexOk b && ctlOk b && kinds.contains (ctlKind b) && atomTypeOk b,
   ops ++ memBase b ++ memIndex b false, none, false, 0, 11, false⟩

/-- Barrier operand of R213; NB only on `drain`. -/
def barOperandOk (imm : BitVec 32) (nb : Bool) : Bool :=
  let x := imm.toNat
  x < 65536 && (x / 16 % 2048 ≤ 1025) && (if x / 32768 = 1 then nb && x % 32768 == 0 else true)

/-- Special register selectors of Table 3.3. -/
def selKnown (sel : Nat) : Bool :=
  sel ≤ 2 || (0x10 ≤ sel && sel ≤ 0x14) || (0x18 ≤ sel && sel ≤ 0x1A) || (0x20 ≤ sel && sel ≤ 0x24) ||
    sel == 0x30 || sel == 0x31 || (0x100 ≤ sel && sel ≤ 0x102) || (0x200 ≤ sel && sel ≤ 0x20A) || sel == 0x300 || sel == 0x301

/-- A copy-class form: register fields are scalar, `e` tells whether E is used. -/
def copyForm (h : Hdr) (b : VBody) (modMask : BitVec 24) (e : Bool) (ops : List Opnd) : Form :=
  mkForm 12 h 0 (b.zeroBut true true true true e modMask) ops
/-- A near-memory form of format V, thread form only. -/
def nearForm (h : Hdr) (ok : Bool) (ops : List Opnd) : Form :=
  { mkForm 14 h 4 ok ops with uok := false, hintOk := true }

/-- The form of the rows that no warp issues: class 99. -/
def noForm : Form := ⟨default, false, false, false, false, [], none, false, 0, 99, false⟩

/-- Fields, operands and limits of every vector-stream instruction; `noForm` for the rows that no warp issues. -/
def form (i : Instr) : Form :=
  match i with
  | .nop h b => mkForm 0 h 0 b.zero []
  | .bra h _ => mkForm 0 h 0 true []
  | .brx h b => mkForm 0 h 0 (b.zeroBut false true true true false 0)
      ([src b.a, ssrc b.b 1] ++ if b.c = 0xFF then [] else [ssrc b.c 1])
  | .call h _ => mkForm 0 h 0 true [sdstO 0xFE]
  | .callx h b => mkForm 0 h 0 (b.zeroBut true true true true false 0)
      ([dstS b.d 2, src b.a, ssrc b.b 1] ++ if b.c = 0xFF then [] else [ssrc b.c 1])
  | .ret h b => mkForm 0 h 0 (b.zeroBut false true false false false 0) [srcW b.a]
  | .exit h b => (mkForm 0 h 0 b.zero []).alone
  | .join h b => mkForm 0 h 0 b.zero []
  | .yield h b => mkForm 0 h 0 b.zero []
  | .trap h b => (mkForm 0 h 0 (b.zeroBut false false true 0) []).noU.alone
  | .tret h b => (mkForm 0 h 0 (b.zeroBut false false true 0) []).noU.alone
  | .brk h b => (mkForm 0 h 0 (b.zeroBut false false false false false 0xFF) []).noU.alone
  | .barArrive h b => (mkForm 1 h 0 (b.zeroBut false false true 0 && barOperandOk b.imm false) []).noU
  | .barWait h b => (mkForm 1 h 0 (b.zeroBut true false true 0 && decide (b.imm.toNat < 16)) [sdstO b.d]).noU
  | .barSync h b => (mkForm 1 h 0 (b.zeroBut true false true 0 && barOperandOk b.imm false) [sdstO b.d]).noU
  | .barQuery h b => (mkForm 1 h 0 (b.zeroBut true false true 0 && decide (b.imm.toNat < 16)) [sdstO b.d]).noU
  | .drain h b => (mkForm 1 h 0 (b.zeroBut false false true 0 && barOperandOk b.imm true) []).noU
  | .fence h b => (mkForm 1 h 0 (b.zeroBut false false false 0x1F && b.mod.toNat % 4 != 3 &&
      (b.mod.toNat / 4 % 8 != 7 || b.mod.toNat % 4 == 2)) []).noU
  | .owait h b => (mkForm 1 h 0 (b.zeroBut false false true 3 && decide (b.imm.toNat < 64)) []).noU
  | .cwait h b => { (mkForm 1 h 0 (b.zeroBut true true true false false 0) [sdstO b.d, ssrc b.a 1, ssrc b.b 1]).noU with
      fsOk := 4 ≤ h.fs.toNat && h.fs.toNat ≤ 6 }
  | .cyield h b => { (mkForm 1 h 0 (b.zeroBut true true true false false 0xFFFFFF) [sdstO b.d, ssrc b.a 1, ssrc b.b 1]).noU with
      fsOk := 4 ≤ h.fs.toNat && h.fs.toNat ≤ 6 }
  | .glaunch h b => (mkForm 1 h 0 (b.zeroBut false true false false false 0) [ssrc b.a 1]).alone
  | .gwait h b => (mkForm 1 h 0 b.zero []).noU
  | .add h b => int3 h b 10 4
  | .sub h b => int3 h b 10 4
  | .mul h b => int3 h b 12 0
  | .mulh h b => int3 h b 12 0
  | .mad h b => intForm h b 12 0 4 true true false [dst b.d, src b.a, src b.b, src b.c]
  | .min h b => int3 h b 10 0
  | .max h b => int3 h b 10 0
  | .abs h b => int2 h b 1 4
  | .neg h b => int2 h b 1 4
  | .and h b => int3 h b 10 0
  | .or h b => int3 h b 10 0
  | .xor h b => int3 h b 10 0
  | .not h b => int2 h b 0 0
  | .andn h b => int3 h b 10 0
  | .shl h b => shiftForm h b
  | .shr h b => shiftForm h b
  | .sar h b => shiftForm h b
  | .rot h b => shiftForm h b
  | .sel h b => intForm h b 10 0 0xF0 true false false [dst b.d, src b.a, src b.b, psrcO (bitsOf b.mod.toNat 6 4)]
  | .mov h b => int2 h b 0 0
  | .cmp h b => mkForm 2 h 10 (b.zeroBut true true true false false 0x73 && tyOk 0 (ty b.mod) h.u &&
      decide (bitsOf b.mod.toNat 6 4 < 6)) [pdstO b.d, src b.a, src b.b]
  | .addi h b => immForm h b 4 true [dst b.d, src b.a]
  | .andi h b => immForm h b 0 true [dst b.d, src b.a]
  | .ori h b => immForm h b 0 true [dst b.d, src b.a]
  | .movi h b => immForm h b 0 false [dst b.d]
  | .cmpi h b => mkForm 2 h 10 (b.zeroBut true true true 0x73 && tyOk 0 (b.mod.toNat % 4) h.u &&
      decide (bitsOf b.mod.toNat 6 4 < 6)) [pdstO b.d, src b.a]
  | .lea h b => intForm h b 10 2 0x70 true false false [dstN b.d 2 1, srcW b.a, src b.b]
  | .add64 h b => intForm h b 12 3 0 true false false [dstN b.d 2 1, srcW b.a, if 2 ≤ ty b.mod then srcW b.b else src b.b]
  | .mad64 h b => intForm h b 14 2 0 true true false [dstN b.d 2 1, src b.a, src b.b, srcW b.c]
  | .popc h b => { int2 h b 0 0 with cls := 3 }
  | .clz h b => { int2 h b 0 0 with cls := 3 }
  | .ctz h b => { int2 h b 0 0 with cls := 3 }
  | .brev h b => { int2 h b 0 0 with cls := 3 }
  | .bfe h b => { intForm h b 10 0 0xC00 true true false
      ([dst b.d, src b.a] ++ orConst b.mod 11 b.b ++ orConst b.mod 10 b.c) with cls := 3 }
  | .bfi h b => { intForm h b 10 0 0x600 true true true
      ([dst b.d, src b.a, src b.b] ++ orConst b.mod 10 b.c ++ orConst b.mod 9 b.e) with cls := 3 }
  | .prmt h b => { intForm h b 10 2 0x400 true true (b.mod.getLsbD 10)
      ([dst b.d, src b.a, src b.b] ++ orConst b.mod 10 b.c) with cls := 3 }
  | .shfn h b => { intForm h b 10 0 0x500 true true false
      ([dst b.d, src b.a, src b.b] ++ orConst b.mod 10 b.c) with cls := 3 }
  | .lop3 h b => { intForm h b 10 0 0xFF0000 true true false [dst b.d, src b.a, src b.b, src b.c] with cls := 3 }
  | .shfl h b => ((mkForm 4 h 16 (b.zeroBut true true true false false 0xFF1C &&
      (b.mod.getLsbD 15 || bitsOf b.mod.toNat 14 12 == 0))
      ([dst b.d, src b.a] ++ orConst b.mod 11 b.b ++
        if b.mod.getLsbD 15 then [pdstO (BitVec.ofNat 8 (bitsOf b.mod.toNat 14 12))] else [])).noU).crossLane
  | .lred h b =>
      let t := ty b.mod
      let op := bitsOf b.mod.toNat 4 2
      ((mkForm 4 h 16 (b.zeroBut true true false false false 0x77F && t != 3 && decide (op < 6) &&
        (t != 2 || op < 3) && (bitsOf b.mod.toNat 6 5 == 0 || (t == 2 && op == 0)) &&
        (b.d.toNat < 0xC0 || bitsOf b.mod.toNat 10 8 == 0)) [dstS b.d 1, src b.a]).noU).crossLane
  | .lscan h b =>
      let t := ty b.mod
      let op := bitsOf b.mod.toNat 4 2
      let ex := b.mod.getLsbD 7
      ((mkForm 4 h 16 (b.zeroBut true true false ex false 0x7FF && t != 3 && decide (op < 6) &&
        (t != 2 || op < 3) && (bitsOf b.mod.toNat 6 5 == 0 || (t == 2 && op == 0)))
        ([dst b.d, src b.a] ++ if ex then [src b.c] else [])).noU).crossLane
  | .vote h b =>
      let pd := b.mod.getLsbD 20
      (mkForm 4 h 16 (b.zeroBut true false false false false 0x1F001C && decide (bitsOf b.mod.toNat 4 2 < 3))
        [if pd then pdstO b.d else sdstO b.d, pallO (bitsOf b.mod.toNat 18 16)]).crossLane
  | .ballot h b => (mkForm 4 h 16 (b.zeroBut true false false false false 0xF0000)
        [dstS b.d 2, pallO (bitsOf b.mod.toNat 18 16)]).crossLane
  | .bcast h b =>
      let first := b.mod.getLsbD 20
      ((mkForm 4 h 16 (b.zeroBut true true (!first) false false 0x100803 && tyOk 2 (ty b.mod) h.u &&
        !(first && b.mod.getLsbD 11))
        ([dstS b.d 1, src b.a] ++ if first || b.mod.getLsbD 11 then [] else [ssrc b.b 1])).noU).crossLane
  | .matchLanes h b => ((mkForm 4 h 16 (b.zeroBut true true false false false 0xF000 &&
        (b.mod.getLsbD 15 || bitsOf b.mod.toNat 14 12 == 0))
        ([dstN b.d 2 1, src b.a] ++
          if b.mod.getLsbD 15 then [pdstO (BitVec.ofNat 8 (bitsOf b.mod.toNat 14 12))] else [])).noU).crossLane
  | .prank h b => ((mkForm 4 h 16 (b.zeroBut true false false false false 0xF0700)
        [dst b.d, pallO (bitsOf b.mod.toNat 18 16)]).noU).crossLane
  | .plop h b => mkForm 5 h 10 (b.zeroBut true true true true false 0xFF && decide (b.a.toNat < 16) &&
        decide (b.b.toNat < 16) && decide (b.c.toNat < 16))
        ([pdstO b.d] ++ [b.a, b.b, b.c].map fun x => if h.u then pallO (x.toNat % 8) else psrcO (x.toNat % 8))
  | .pmask h b => mkForm 5 h 10 (b.zeroBut true true false false false 0 && decide (b.a.toNat < 16))
        [sdstO b.d, pallO (b.a.toNat % 8)]
  | .psetm h b => mkForm 5 h 10 (b.zeroBut true true false false false 0) [pdstO b.d, srcW b.a]
  | .pact h b => mkForm 5 h 10 (b.zeroBut true false false false false 3 && b.mod.toNat % 4 != 3) [sdstO b.d]
  | .fadd h b => fpForm 6 12 h b 3 true false true [dst b.d, src b.a, src b.b]
  | .fsub h b => fpForm 6 12 h b 3 true false true [dst b.d, src b.a, src b.b]
  | .fmul h b => fpForm 6 12 h b 3 true false true [dst b.d, src b.a, src b.b]
  | .ffma h b => fpForm 6 12 h b 3 true true true [dst b.d, src b.a, src b.b, src b.c]
  | .fmin h b => fpForm 6 12 h b 0 true false true [dst b.d, src b.a, src b.b]
  | .fmax h b => fpForm 6 12 h b 0 true false true [dst b.d, src b.a, src b.b]
  | .fcmp h b => fpForm 6 12 h b 0x700 true false (modCc b.mod != 7) [pdstO b.d, src b.a, src b.b]
  | .frnd h b => fpForm 6 12 h b 3 false false true [dst b.d, src b.a]
  | .fclass h b => fpForm 6 12 h b 0 false false true [dst b.d, src b.a]
  | .fscale h b => fpForm 6 12 h b 3 true false true [dst b.d, src b.a, src b.b]
  | .fexpt h b => fpForm 6 12 h b 0 false false true [dst b.d, src b.a]
  | .fdot2 h b => fpForm 6 14 h b 0xF0003 true true (modDt b.mod == 1 || modDt b.mod == 2)
        [dst b.d, src b.a, src b.b, src b.c]
  | .hadd2 h b => packedForm h b 3 false [dst b.d, src b.a, src b.b]
  | .hsub2 h b => packedForm h b 3 false [dst b.d, src b.a, src b.b]
  | .hmul2 h b => packedForm h b 3 false [dst b.d, src b.a, src b.b]
  | .hfma2 h b => packedForm h b 3 true [dst b.d, src b.a, src b.b, src b.c]
  | .hmin2 h b => packedForm h b 0 false [dst b.d, src b.a, src b.b]
  | .hmax2 h b => packedForm h b 0 false [dst b.d, src b.a, src b.b]
  | .hcmp2 h b => { packedForm h b 0x700 false [dst b.d, src b.a, src b.b] with
        body := (packedForm h b 0x700 false []).body && modCc b.mod != 7 }
  | .e8dot4 h b => fpForm 7 14 h b 0xFF0003 true true
        ((modDt b.mod == 3 || modDt b.mod == 4) && (modSt b.mod == 3 || modSt b.mod == 4))
        [dst b.d, src b.a, src b.b, src b.c]
  | .frcp h b => fpForm 8 0 h b 0 false false true [dst b.d, src b.a]
  | .frsq h b => fpForm 8 0 h b 0 false false true [dst b.d, src b.a]
  | .fsqrt h b => fpForm 8 0 h b 0 false false true [dst b.d, src b.a]
  | .fex2 h b => fpForm 8 0 h b 0 false false true [dst b.d, src b.a]
  | .flg2 h b => fpForm 8 0 h b 0 false false true [dst b.d, src b.a]
  | .fsin h b => fpForm 8 0 h b 0 false false true [dst b.d, src b.a]
  | .fcos h b => fpForm 8 0 h b 0 false false true [dst b.d, src b.a]
  | .fscs h b => fpForm 8 0 h b 0 false false true [dstN b.d 2 2, src b.a]
  | .ftanh h b => fpForm 8 0 h b 0 false false true [dst b.d, src b.a]
  | .fsig h b => fpForm 8 0 h b 0 false false true [dst b.d, src b.a]
  | .ferf h b => fpForm 8 0 h b 0 false false true [dst b.d, src b.a]
  | .cvt h b =>
      let s := modSt b.mod
      let d := modDt b.mod
      fpForm 9 12 h b 0xFF3083 false false (s ≤ 10 && d ≤ 10 && s != d && (s ≤ 4 || d ≤ 4) &&
        decide (modEl b.mod < elemCount s) && (!b.mod.getLsbD 7 || (1 ≤ d && d ≤ 4))) [dst b.d, src b.a]
  | .cvtq h b => { ((fpForm 9 16 h b 0 false false true [dst b.d, src b.a]).noU).crossLane with
        fsOk := true, slot := some (h.fs.toNat, [8, 9, 10, 11]) }
  | .cvtdq h b => ((fpForm 9 16 h b 0 false false true [dst b.d, src b.a]).noU).crossLane
  | .cvsc h b => { ((fpForm 9 12 h b 0 false false true [dst b.d, src b.a]).noU).crossLane with
        fsOk := true, slot := some (h.fs.toNat, [8, 9, 10, 11]) }
  | .pack h b =>
      let d := modDt b.mod
      let wide := d == 1 || d == 2
      mkForm 9 h 12 (b.zeroBut true true true (!wide) (!wide) 0xF0083 && decide (1 ≤ d) && decide (d ≤ 4))
        ([dst b.d, src b.a, src b.b] ++ if wide then [] else [src b.c, src b.e])
  | .unpack h b =>
      let s := modSt b.mod
      fpForm 9 12 h b 0xF03000 false false (1 ≤ s && s ≤ 4 && decide (modEl b.mod < elemCount s)) [dst b.d, src b.a]
  | .ld h b => memForm h b true 0 [0, 1] (sgnOk h b) false [ldDst b]
  | .st h b => memForm h b true 0 [0, 2] (h.fs == 0) false [stSrc b]
  | .ldp h b => memForm h b false 0 [0] (sgnOk h b) true [ldDst b]
  | .stp h b => memForm h b false 0 [0] (h.fs == 0) true [stSrc b]
  | .ldc h b => memForm h b true 1 [0] (sgnOk h b) false [ldDst b]
  | .lds h b => memForm h b true 2 [0] (sgnOk h b) false [ldDst b]
  | .sts h b => memForm h b true 2 [0] (h.fs == 0) false [stSrc b]
  | .ldl h b => memForm h b false 3 [0] (sgnOk h b) false [ldDst b]
  | .stl h b => memForm h b false 3 [0] (h.fs == 0) false [stSrc b]
  | .pf h b => { memForm h b true 0 [0] (h.fs == 0) false [] with
        body := (memForm h b true 0 [0] true false []).body && b.d == 0 }
  | .wbr h b => { memForm h b true 0 [0] (h.fs == 0) true [] with
        body := (memForm h b true 0 [0] true true []).body && b.d == 0 && memSize b == 0 }
  | .invr h b => { memForm h b true 0 [0] (h.fs == 0) true [] with
        body := (memForm h b true 0 [0] true true []).body && b.d == 0 && memSize b == 0 }
  | .atom h b =>
      let w := atomW b
      let k := if h.fs = 7 then 2 else 1
      atomForm h b 7 [0, 1, 2, 3] [⟨b.d.toNat, .reg, w * k, k, true, false, false⟩, ⟨b.d.toNat, .reg, w, 1, false, true, false⟩]
  | .ared h b => atomForm h b 5 [0, 2] [⟨b.d.toNat, .reg, atomW b, 1, true, false, false⟩]
  | .cas16 h b => ⟨h, true, true, h.fs == 0,
        memSize b == 4 && memSpace b == 0 && memIndexOk b && ctlOk b && ctlType b == 0,
        [⟨b.d.toNat, .reg, 8, 4, true, false, false⟩, ⟨b.d.toNat, .reg, 4, 2, false, true, false⟩] ++ memBase b ++ memIndex b false,
        none, false, 0, 11, false⟩
  | .txbeg h _ => { (mkForm 11 h 0 true [pdstO (h.fs.setWidth 8)]).noU with fsOk := true }
  | .txend h b => (mkForm 11 h 0 b.zero []).noU
  | .txabt h b => (mkForm 11 h 0 b.zero []).noU
  | .bcopy h b => copyForm h b 0x1F false [ssrc b.d 1, ssrc b.a 1, ssrc b.b 3, ssrc b.c 1]
  | .bloop h b => copyForm h b 0xF true [ssrc b.d 1, ssrc b.a 1, ssrc b.b 3, ssrc b.c 1, ssrc b.e 2]
  | .brel h b => mkForm 12 h 0 (b.zeroBut false false false false false 0x7F) []
  | .bmcast h b => copyForm h b 0xF0F true [ssrc b.d 1, ssrc b.a 1, ssrc b.b 3, ssrc b.c 1, ssrc b.e 1]
  | .kcoll h b => { copyForm h b 0x1F true [ssrc b.d 1, ssrc b.a 1, ssrc b.b 1, ssrc b.c 1, ssrc b.e 1] with
        body := b.zeroBut true true true true true 0x1F && b.mod.toNat % 4 != 3 && decide (b.mod.toNat / 4 % 8 < 6) }
  | .gred h b => ⟨h, false, true, decide (h.fs.toNat < 2), memSize b == 2 && memSpace b == 0 && memIndexOk b,
        [⟨b.d.toNat, .vec, 1, 0, false, true, false⟩, sdstO b.c] ++ memBase b ++ memIndex b false, none, false, 0, 14, false⟩
  | .nred h b => nearForm h (b.zeroBut false true true true false 0) [ssrc b.a 1, ssrc b.b 1, ssrc b.c 1]
  | .nlaunch h b => nearForm h (b.zeroBut false true false false false 0) [ssrc b.a 1]
  | .nstat h b => nearForm h (b.zeroBut false true true true false 0) [ssrc b.a 1, ssrc b.b 1, ssrc b.c 1]
  | .nkill h b => nearForm h (b.zeroBut false true false true false 0) [ssrc b.a 1, ssrc b.c 1]
  | .srd h b => mkForm 15 h 10 (selKnown b.sel.toNat && b.mod.toNat < 2 && !(b.mod.getLsbD 0 && 0xC0 ≤ b.d.toNat)) [dstS b.d 1]
  | .swr h b => mkForm 15 h 0 (b.sel == 0x100 && b.mod == 0) [ssrc b.d 1]
  | .sysc h b => (mkForm 15 h 0 (b.mod == 0) [ssrc b.d 1, sdstO b.d]).alone
  | _ => noForm

/-! ## Checks of R195 steps 4 to 7 -/

/-- Steps 4 and 5 for one operand: the code is one the role and U admit, and the group stays inside the file. -/
def Opnd.codeOk (o : Opnd) (u : Bool) : Bool :=
  match o.role with
  | .reg => if 0xC0 ≤ o.code then decide (o.code + o.ns ≤ 256) && (u || !o.write || o.sdst) else !u && decide (o.code + o.nv ≤ 192)
  | .scal => decide (0xC0 ≤ o.code) && decide (o.code + o.ns ≤ 256)
  | .vec => decide (o.code + o.nv ≤ 192)
  | .pdst => decide (o.code < 8)
  | _ => true

/-- Step 7: counts of the launch record (R48); s63 is always accessible. -/
def Opnd.countOk (o : Opnd) (vregs sregs : Nat) : Bool :=
  match o.role with
  | .reg | .scal | .vec =>
    if 0xC0 ≤ o.code then (List.range o.ns).all fun i => o.code + i - 0xC0 == 63 || decide (o.code + i - 0xC0 < sregs)
    else decide (o.code + o.nv ≤ vregs)
  | _ => true

/-- The header and body checks that depend on the word alone (steps 4 to 6 and R55). -/
def Form.static (f : Form) : Bool :=
  (f.uok || !f.hdr.u) && (if f.hintOk then decide (f.hdr.hint.toNat < 6) else f.hdr.hint == 0) && !f.hdr.reu && f.fsOk && f.body &&
    f.ops.all fun o => o.codeOk f.hdr.u

/-- A format slot holds defined values (R146, Tables 7.5, 7.6) and one of the kinds. -/
def slotOk (x : DWord) (kinds : List Nat) : Bool :=
  let n := x.toNat
  let k := n % 256
  let q4 := 8 ≤ k && k ≤ 11
  kinds.contains k && (bitsOf n 15 8 == if q4 then 5 else 0) && (if q4 then bitsOf n 23 16 ≤ 1 && bitsOf n 31 24 ≤ 1 else bitsOf n 31 16 == 0) &&
    (if q4 && bitsOf n 23 16 == 1 then bitsOf n 47 32 != 0 else bitsOf n 47 32 == 0) && bitsOf n 63 48 == 0

/-- Steps 4 to 6 against a launch record. -/
def Form.bodyOk (f : Form) (lr : LaunchRec) : Bool :=
  f.static && (match f.slot with
    | some (n, kinds) => slotOk (lr.fmt.getD n 0) kinds
    | none => true)

/-- Steps 4 to 7 against a launch record. -/
def Form.ok (f : Form) (lr : LaunchRec) : Bool := f.bodyOk lr && f.ops.all fun o => o.countOk lr.vregs lr.sregs

/-- The issue unit (Table 9.3). -/
def Form.unit (f : Form) (i : Instr) : Unit9 :=
  match i with
  | .atom _ _ => .mem
  | .ared _ _ => .mem
  | .cas16 _ _ => .mem
  | .txbeg _ _ => .ctl
  | .txend _ _ => .ctl
  | .txabt _ _ => .ctl
  | _ =>
    if f.cls = 8 then .sfu
    else if f.cls = 12 then .eng
    else if f.hdr.u then .uni
    else if (2 ≤ f.cls && f.cls ≤ 7) || f.cls = 9 then .vec
    else if f.cls = 10 || f.cls = 14 then .mem
    else .ctl

/-- A register a field names: kind (0 vector, 1 scalar, 2 predicate) and number. -/
def Opnd.names (o : Opnd) : List (Nat × Nat) :=
  match o.role with
  | .reg | .scal | .vec =>
    if 0xC0 ≤ o.code then (List.range o.ns).map fun i => (1, o.code + i - 0xC0) else (List.range o.nv).map fun i => (0, o.code + i)
  | _ => [(2, o.code)]

/-- Registers and guards an instruction names. -/
def Form.named (f : Form) : List (Nat × Nat) :=
  [(2, f.hdr.g1.toNat % 8), (2, f.hdr.g2.toNat % 8)] ++ f.ops.flatMap Opnd.names
/-- Registers an instruction writes; p7 and s63 hold nothing. -/
def Form.written (f : Form) : List (Nat × Nat) :=
  ((f.ops.filter (·.write)).flatMap Opnd.names).filter fun x => x != (2, 7) && x != (1, 63)

/-- A forbidden pair (R185); an instruction of class 0xD, which has no form of a warp, never pairs. -/
def pairForbidden (a b : Instr) : Bool :=
  let fa := form a
  let fb := form b
  fb.cls == 99 || (fa.unit a == fb.unit b || fa.unit a == .ctl || fa.lone || fb.lone || fa.written.any fun x => fb.named.contains x)

/-- The instruction's latency (Table 9.8): 4 with U set. -/
def Form.latency (f : Form) : Nat := if f.hdr.u then 4 else f.lat

/-! ## Elements read and written -/

/-- Elements an operand stands for, for the threads of a mask; each with the read offset of R197. -/
def Opnd.elems (o : Opnd) (u cross : Bool) (mask : DWord) : List (Elem × Nat) :=
  let off (t : Nat) : Nat := if u || cross then 0 else t / 16
  match o.role with
  | .pdst => (threadsOf mask).map fun t => (.p o.code t, off t)
  | .pall => (threadsOf mask).map fun t => (.p o.code t, 0)
  | .psrc =>
    if u then (match lowestOf mask with
      | some t => [(.p o.code t, 0)]
      | none => [])
    else (threadsOf mask).map fun t => (.p o.code t, off t)
  | _ =>
    if 0xC0 ≤ o.code then (List.range o.ns).map fun i => (.s (o.code + i - 0xC0), 0)
    else (List.range o.nv).flatMap fun i => (threadsOf mask).map fun t => (.v (o.code + i) t, off t)

/-- An element that holds nothing: s63 and p7. -/
def Elem.fixed : Elem → Bool
  | .s 63 => true
  | .p 7 _ => true
  | _ => false

/-- Elements the guards read (R187, R28). -/
def guardElems (h : Hdr) (mask : DWord) : List (Elem × Nat) :=
  let g1 := h.g1.toNat % 8
  let g2 := h.g2.toNat % 8
  if h.u then (match lowestOf mask with
    | some t => [(.p g1 t, 0), (.p g2 t, 0)]
    | none => [])
  else (threadsOf mask).flatMap fun t => [(.p g1 t, t / 16), (.p g2 t, t / 16)]

/-- Every element an instruction reads in a fragment, guards included (R199). -/
def Form.reads (f : Form) (mask : DWord) : List (Elem × Nat) :=
  (guardElems f.hdr mask ++ (f.ops.filter (·.read)).flatMap fun o => o.elems f.hdr.u f.cross mask).filter fun x => !x.1.fixed
/-- Every element it may write. -/
def Form.writes (f : Form) (mask : DWord) : List Elem :=
  (((f.ops.filter (·.write)).flatMap fun o => o.elems f.hdr.u f.cross mask).map (·.1)).filter fun x => !x.fixed

/-! ## The register file under R197 -/

/-- The content of an element in the register file. -/
def Warp.file (w : Warp) : Elem → DWord
  | .v r t => (w.vregs.get 0 (r * 64 + t)).setWidth 64
  | .s r => w.sregs.get 0 r
  | .p i t => if (w.preds.get 0 i).getLsbD t then 1 else 0

/-- Set an element of the register file; s63 and p7 hold nothing (Table 3.1). -/
def Warp.setFile (w : Warp) (e : Elem) (x : DWord) : Warp :=
  match e with
  | .v r t => { w with vregs := w.vregs.set 0 (r * 64 + t) (x.setWidth 32) }
  | .s r => if r = 63 then w else { w with sregs := w.sregs.set 0 r x }
  | .p i t =>
    if i = 7 then w
    else
      let old := w.preds.get 0 i
      let bit : DWord := BitVec.ofNat 64 (2 ^ t)
      { w with preds := w.preds.set 0 i (if x = 0 then old &&& ~~~bit else old ||| bit) }

/-- The value a reader at nominal clock plus offset `n` sees: the newest producer in program order whose result it
sees, else the content before the oldest (R197). -/
def windowValue (e : Elem) (n : Nat) : List Window → DWord → DWord
  | [], cur => cur
  | x :: l, cur => if x.elem = e then (if x.at_ + x.w ≤ n then cur else windowValue e n l x.old) else windowValue e n l cur

/-- The value of an element for a reader at nominal clock plus offset `n`; s63 reads 0 and p7 reads 1. -/
def Warp.read (w : Warp) (e : Elem) (n : Nat) : DWord :=
  match e with
  | .s 63 => 0
  | .p 7 _ => 1
  | _ => windowValue e n w.windows (w.file e)

/-- R197 would give the reader an earlier content of the element than that of its newest producer (R199). -/
def Warp.stale (w : Warp) (e : Elem) (n : Nat) : Bool :=
  ((w.windows.find? fun x => x.elem = e).map fun x => decide (n < x.at_ + x.w)).getD false

/-- Write a fixed-latency result: the file takes the new value and a window keeps the old one. -/
def Warp.writeFixed (w : Warp) (e : Elem) (x : DWord) (now off : Nat) : Warp :=
  if e.fixed then w else ({ w with windows := ⟨e, w.file e, now, off⟩ :: w.windows } : Warp).setFile e x

/-- Write an interlocked result, which every later reader sees (R200). -/
def Warp.writeBack (w : Warp) (e : Elem) (x : DWord) : Warp :=
  ({ w with windows := w.windows.filter fun y => y.elem != e } : Warp).setFile e x

/-- Close every window of a warp (R199). -/
def Warp.closeWindows (w : Warp) : Warp := { w with windows := [] }

/-- Drop, of each element, the newest window that is past for every reader and all those older than it. -/
def dropPast (past : Window → Bool) : List Elem → List Window → List Window
  | _, [] => []
  | seen, y :: l => if seen.contains y.elem || past y then dropPast past (y.elem :: seen) l else y :: dropPast past seen l

/-- Drop windows that no fragment can still need (R197): every clock has passed them, or a newer one of their element. -/
def Warp.prune (w : Warp) : Warp :=
  let live := w.entries.filter fun x => x.2.st == .run || x.2.st == .parked
  { w with windows := dropPast (fun y => live.all fun x => decide (y.at_ + y.w ≤ x.2.nclk)) [] w.windows }

/-- A guard holds (R187). -/
def guardHolds (h : Hdr) (p : Nat → Bool) : Bool :=
  let g1 := p (h.g1.toNat % 8) ^^ h.g1.getLsbD 3
  let g2 := p (h.g2.toNat % 8) ^^ h.g2.getLsbD 3
  if h.gm then g1 || g2 else g1 && g2

end Sys2Proof.Machine
end

