-- ==== Sys2Proof/Machine/Memory.lean ====
section
/-! DEFINITION. Memory: DRAM bytes with their check bits (04 R80 to R83), the word at its home (L2 slice or
synchronisation engine, R90 to R94), row permissions (05 R114 to R116), logs (05 R107), page walks and translation
(05 R108, R109; 04 R95 to R101), and the L1 data cache (04 R86 to R89). -/

namespace Sys2Proof.Machine

/-! ## Bytes -/

/-- The byte at an address of a memory list. -/
def Memory.read (m : List Host.Cell) (a : Nat) : Byte := Tab.get m memDefault a
/-- Write one byte, keeping the canonical form. -/
def Memory.write (m : List Host.Cell) (a : Nat) (b : Byte) : List Host.Cell := Tab.set m memDefault a b
/-- `n` bytes from an address. -/
def Memory.readN (m : List Host.Cell) (a n : Nat) : List Byte := (List.range n).map fun i => Memory.read m (a + i)
/-- Write consecutive bytes. -/
def Memory.writeN (m : List Host.Cell) (a : Nat) : List Byte → List Host.Cell
  | [] => m
  | b :: t => Memory.writeN (Memory.write m a b) (a + 1) t

/-! ## Check bits (R80, R81) -/

/-- The 8-bit values with exactly three ones, ascending. -/
def eccCols : List Nat := (List.range 256).filter fun x => ((List.range 8).filter x.testBit).length == 3
/-- Col(i) of R80. -/
def eccCol (i : Nat) : Nat := eccCols.getD i 0
/-- Code(x): XOR of Col(i) over the ones of x. -/
def eccCode (x : Word) : BitVec 8 :=
  BitVec.ofNat 8 ((List.range 32).foldl (fun acc i => if x.getLsbD i then acc ^^^ eccCol i else acc) 0)
/-- H of R80, made from the word address PA[38:2]. -/
def eccHash (wa : Nat) : Word :=
  let h := (wa * 0x9E3779B97F4A7C15) % 2 ^ 64 / 2 ^ 32
  let odd := ((List.range 31).filter fun i => h.testBit (i + 1)).length % 2
  BitVec.ofNat 32 (h / 2 * 2 + odd)
/-- The check bits stored with data for a word address (R80). -/
def eccCheck (wa : Nat) (d : Word) : BitVec 8 := eccCode (d ^^^ eccHash wa)

/-- The outcome of a DRAM read of a word: the data, corrected where R81 corrects it; poison where it cannot; and
whether a correction was made. -/
def eccResolve (d : Word) (syn : BitVec 8) : Word × Bool × Bool :=
  if syn = 0 then (d, false, false)
  else if ((List.range 8).filter syn.getLsbD).length = 1 then (d, false, true)
  else match (List.range 32).find? fun i => eccCol i = syn.toNat with
    | some i => (d ^^^ BitVec.ofNat 32 (2 ^ i), false, true)
    | none => (d, true, false)

/-- The stored data of a DRAM word. -/
def State.dramData (s : State) (wa : Nat) : Word := BitVec.ofNat 32 (ofBytes (Memory.readN s.mem (4 * wa) 4))
/-- A DRAM word as the hearth reads it: value and poison (R81, R82), the row's constant where it is elided (R97). -/
def State.dramWord (s : State) (wa : Nat) : Word × Bool :=
  match s.elision.find? (rowOfPa (4 * wa)) with
  | some k => (k, false)
  | none =>
    if s.poisoned.contains wa then (s.dramData wa, true)
    else let r := eccResolve (s.dramData wa) (s.synd.get 0 wa); (r.1, r.2.1)
/-- Write a whole DRAM word with fresh check bits, or as a poisoned word. -/
def State.setDram (s : State) (wa : Nat) (d : Word) (poison : Bool) : State :=
  { s with
    mem := Memory.writeN s.mem (4 * wa) (toBytes 4 d.toNat)
    synd := s.synd.erase wa
    poisoned := if poison then (if s.poisoned.contains wa then s.poisoned else wa :: s.poisoned)
                else s.poisoned.filter (· ≠ wa) }

/-- The newest write of a word that its channel's queue still holds (R78). -/
def State.queuedWrite (s : State) (wa : Nat) : Option WordReq :=
  (((s.wordQ.find? (queueIx wa)).getD []).filter fun r => r.write && r.word == wa).getLast?

/-- What DRAM holds of a word once its queue has been served: value and poison. -/
def State.memWord (s : State) (wa : Nat) : Word × Bool :=
  match s.queuedWrite wa with
  | some r => (r.data, r.poison)
  | none => s.dramWord wa

/-- A word's value goes to its channel's queue to be written (R78, R91); function 0 writes back (assumption 33). The hearth has
the first 128 requests of a queue; the slice holds the others until there is room (Table 5.1). -/
def State.pushWrite (s : State) (wa : Nat) (d : Word) (poison : Bool) : State :=
  let k := queueIx wa
  let f := s.fresh
  { f.2 with wordQ := s.wordQ.put k ((s.wordQ.find? k).getD [] ++ [⟨wa, 0, true, false, d, poison, s.homeClk, f.1, 0, []⟩]) }

/-- Merge bytes under a mask: byte i of `new` where the mask has bit i. -/
def mergeBytes (old new : Word) (mask : BitVec 4) : Word :=
  BitVec.ofNat 32 (ofBytes ((List.range 4).map fun i =>
    if mask.getLsbD i then new.extractLsb' (8 * i) 8 else old.extractLsb' (8 * i) 8))

/-- All four bytes. -/
def allBytes : BitVec 4 := 15

/-! ## What releases carry (R275, R344, R345) -/

/-- Where a party of a release lies: the core's hive, from 512 up that of a core which its saved team has left, and its die,
385 + d for a party that lies on die d without a hive. -/
def relHive (c : Nat) : Option Nat := if c < 384 then some (hiveOfCore c) else if 512 ≤ c && c < 896 then some (hiveOfCore (c - 512)) else none
def relDie (c : Nat) : Option Nat := if 385 ≤ c && c < 389 then some (c - 385) else (relHive c).map dieOfHive

/-- Two parties lie in one instance of a scope (Table 0.3): warp, team, hive, die, and from 5 up the package. A party that lies
on no single die lies in those of the package only. -/
def sameInstance (scope c k t c' k' t' : Nat) : Bool :=
  match scope with
  | 0 => false
  | 1 => c == c' && k == k'
  | 2 => t == t'
  | 3 => (relHive c).isSome && relHive c == relHive c'
  | 4 => (relDie c).isSome && relDie c == relDie c'
  | _ => true

/-- A release and an acquire at a scope by a warp form an edge (R345). -/
def RelInfo.meets (i : RelInfo) (core slot team scope : Nat) : Bool :=
  sameInstance i.scope i.core i.slot i.team core slot team && sameInstance scope i.core i.slot i.team core slot team

/-- Add what a write carries to what an earlier one of its release sequence carries: the newest of each party and scope. -/
def addRel (l : List RelInfo) (i : RelInfo) : List RelInfo :=
  match l.find? fun j => j.core == i.core && j.slot == i.slot && j.team == i.team && j.scope == i.scope with
  | none => i :: l
  | some j =>
    let st := match j.stamp, i.stamp with
      | some p, some q => some (if p.toNat < q.toNat then q else p)
      | none, y => y
      | y, none => y
    { i with stamp := st, floor := max j.floor i.floor } ::
      l.filter fun j => !(j.core == i.core && j.slot == i.slot && j.team == i.team && j.scope == i.scope)

/-- The release of a party that lies in no warp or team, at a scope of 6 (`.sys`): on one hive, on one die, or across dies. -/
def partyRelease (core : Nat) : RelInfo := ⟨none, 0, core, 32, 2 ^ 20, 6⟩
def noParty : RelInfo := partyRelease 384

def joinRel (l m : List RelInfo) : List RelInfo := m.foldl addRel l

/-- The home clock that an acquire at a scope reaches by what it read (R346). -/
def floorOf (l : List RelInfo) (core slot team scope : Nat) : Nat :=
  (l.filter fun i => i.meets core slot team scope).foldl (fun n i => max n i.floor) 0

/-- The later of two optional stamps. -/
def maxStamp (a b : Option DWord) : Option DWord :=
  match a, b with
  | some p, some q => some (if p.toNat < q.toNat then q else p)
  | none, y => y
  | y, none => y

/-- T: the largest release stamp carried (Table 10.7). -/
def stampOf (l : List RelInfo) : Option DWord := l.foldl (fun m i => maxStamp m i.stamp) none

/-! ## The word at its home -/

/-- The home must read DRAM for the word (R91): it lies in no engine or overflow area, wholly in no slice and in no elided row. -/
def State.needsDram (s : State) (wa : Nat) : Bool :=
  (s.sync.find? wa).isNone && !s.overflow.contains wa && (s.elision.find? (rowOfPa (4 * wa))).isNone &&
    match s.l2.find? wa with
    | some x => x.valid != allBytes
    | none => true

/-- The current value of a word at its home and its poison (R90 to R94); two bits in error poison it (R85). -/
def State.homeWord (s : State) (wa : Nat) : Word × Bool :=
  match s.sync.find? wa with
  | some x => (x.data, x.poison || decide (2 ≤ x.err))
  | none =>
    match s.l2.find? wa with
    | some x => let d := s.memWord wa
                (mergeBytes d.1 x.data x.valid, x.poison || decide (2 ≤ x.err) || (x.valid != allBytes && d.2))
    | none => s.memWord wa

/-- The row permission check of R115 at an activate: reserved rows pass no function, function 0 passes the rest. -/
def State.rowOk (s : State) (vf pa : Nat) (write near : Bool) : Bool :=
  if reservedPa pa then false
  else if vf = 0 then true
  else if s.fuses.testmode then true
  else
    let p := s.perms.get Perm.reset (rowOfPa pa)
    p.owner == vf && (if write then p.w else p.r) && (!near || p.c)

/-- A run of bytes that lies in device memory and whose rows take writes of a function (R115). -/
def State.mayWrite (s : State) (vf pa n : Nat) : Bool :=
  decide (pa + n ≤ 2 ^ 39) && (List.range ((pa + n + 2047) / 2048 - pa / 2048)).all fun i => s.rowOk vf ((pa / 2048 + i) * 2048) true false

/-- Materialise an elided row (R97): the constant is written into its 512 words and the entry is cleared. -/
def State.materialise (s : State) (row : Nat) : State :=
  match s.elision.find? row with
  | none => s
  | some k => { s.each (List.range 512) (fun s i => s.setDram (row * 512 + i) k false) with
                elision := s.elision.erase row }

/-- A write to an elided row has to wait for its constant to be written out: its stack is in a compute interval (R97, R367). -/
def State.matHeld (s : State) (pa : Nat) : Bool := (s.elision.find? (rowOfPa pa)).isSome && (s.hearth (stackOfPa pa)).compute

/-- The first write of a word since the list began, with what it held. -/
def noteWord (l : List (Nat × Word)) (wa : Nat) (d : Word) : List (Nat × Word) := if l.any fun y => y.1 == wa then l else (wa, d) :: l

/-- A word lies in the save area of a context of a function. -/
def State.inSaveArea (s : State) (vf wa : Nat) : Bool :=
  s.contexts.any fun c => c.2.vf == vf && decide (c.2.savebase.toNat ≤ 4 * wa) && decide (4 * wa < c.2.savebase.toNat + c.2.savesize)

/-- A word of a replay partition's rows, but for its save areas, is about to be written: the undo log and the start values keep it
(R414, R415). -/
def State.noteUndo (s : State) (wa : Nat) : State :=
  match s.perms.find? (rowOfPa (4 * wa)) with
  | none => s
  | some r =>
    if !((s.part? r.owner).map (·.replay)).getD false || s.inSaveArea r.owner wa then s
    else
      let d := (s.homeWord wa).1
      s.modPart r.owner fun p => { p with undo := noteWord p.undo wa d, startVals := noteWord p.startVals wa d }

/-- A value that a word had at a home clock, or a later one, is in DRAM: fences and `wbr` that wait for it have it
(Table 10.7, R277). -/
def State.reachDram (s : State) (wa clk : Nat) : State :=
  let left (l : List (Nat × Nat)) : List (Nat × Nat) := l.filter fun y => !(y.1 == wa && decide (y.2 ≤ clk))
  { s with warps := s.warps.mapVals fun w => { w with wrote := left w.wrote, owed := w.owed.mapVals left } }

/-- The value a word has at its home is in DRAM too, or the word lives in an engine that DRAM does not follow (R94). -/
def State.inDram (s : State) (wa : Nat) : Bool :=
  !(s.wordQ.any fun q => q.2.any fun r => r.word == wa && r.write) &&
  (match s.l2.find? wa with
    | some x => x.dirty == 0
    | none => true) &&
  match s.sync.find? wa with
    | some x => x.page
    | none => true

/-! ### Frames of the L2 slices (R91, R92) -/

/-- The set of its home slice that a frame lies in, numbered through the package (assumption 87). -/
def l2Set (frame : Nat) : Nat := (96 * homeDie (256 * frame) + homeSlice (256 * frame)) * 384 + frame % 384

/-- The function whose ways a frame takes: the owner of its row, where that is a partition (R394, R397). -/
def State.frameOwner (s : State) (frame : Nat) : Nat :=
  let o := (s.perms.get Perm.reset (rowOfPa (256 * frame))).owner
  if (s.part? o).isSome then o else 0

/-- Ways of each slice of a die that a function has: a partition its L2WAYS, function 0 what they leave of 16. -/
def State.waysOf (s : State) (vf die : Nat) : Nat :=
  match s.part? vf with
  | some p => p.l2ways.getD die 0
  | none => 16 - (s.parts.map fun p => p.2.l2ways.getD die 0).sum

/-- The frame is held compressed (R92): all 64 words valid, each within a signed twelve-bit difference of word 0. -/
def State.frameCompressed (s : State) (frame : Nat) : Bool :=
  match s.l2.find? (64 * frame) with
  | none => false
  | some x0 => (List.range 64).all fun i => match s.l2.find? (64 * frame + i) with
    | none => false
    | some x => x.valid == allBytes && (let d := (x.data - x0.data).toInt; decide (-2048 ≤ d) && decide (d ≤ 2047))

/-- The frames that the set and the ways of a frame hold. -/
def State.l2Frames (s : State) (frame : Nat) : List Nat :=
  let set := l2Set frame
  let vf := s.frameOwner frame
  ((s.l2.map fun x => x.1 / 64).dedup).filter fun f => l2Set f == set && s.frameOwner f == vf

/-- Frames fit: a compressed one takes half a physical frame, and each way has two tags (R91, R92). -/
def State.l2Fits (s : State) (frame : Nat) : Bool :=
  let l := s.l2Frames frame
  let ways := s.waysOf (s.frameOwner frame) (homeDie (256 * frame))
  decide (l.length ≤ 2 * ways) && decide ((l.map fun f => if s.frameCompressed f then 1 else 2).sum ≤ 2 * ways)

/-- Queued write-backs of words are overtaken by a newer one. -/
def State.dropWrites (s : State) (was : List Nat) : State :=
  if was.isEmpty then s
  else { s with wordQ := s.wordQ.mapVals fun q => q.filter fun r => !(r.write && was.contains r.word) }

/-- Queued writes of words reach DRAM at once: what a command of the management cores drains. -/
def State.serveWrites (s : State) (p : Nat → Bool) : State :=
  let l := s.wordQ.flatMap fun q => q.2.filter fun r => r.write && p r.word
  let s := s.each l fun s r => (s.setDram r.word r.data r.poison).reachDram r.word r.at_
  { s with wordQ := s.wordQ.mapVals fun q => q.filter fun r => !(r.write && p r.word) }

/-- A dirty word of a slice goes to the queue to DRAM and stays, clean (R91). -/
def State.writeThrough (s : State) (wa : Nat) : State :=
  match s.l2.find? wa with
  | none => s
  | some x =>
    if x.dirty = 0 then s
    else
      let h := s.homeWord wa
      { s.pushWrite wa h.1 h.2 with l2 := s.l2.put wa { x with dirty := 0 } }

/-- A frame leaves its slice: its dirty words are queued to DRAM (R91). -/
def State.l2Evict (s : State) (frame : Nat) : State :=
  let dirty := (s.l2.filter fun x => x.1 / 64 == frame && x.2.dirty != 0).map (·.1)
  let s := s.each dirty fun s w => let h := s.homeWord w; s.pushWrite w h.1 h.2
  { s with l2 := s.l2.filter fun x => x.1 / 64 != frame, l2marks := s.l2marks.erase frame }

/-- Those frames of a list that leave first by their marks (Table 4.5): STREAM, then those without one, then KEEP. -/
def preferred (marks : Tab Nat) (l : List Nat) : List Nat :=
  let of (m : Nat) : List Nat := l.filter fun f => Tab.get marks 0 f == m
  match of 1, of 0 with
  | [], [] => l
  | [], x => x
  | x, _ => x

/-- A hint is kept for a frame of L2: STREAM and KEEP mark it, any other use clears the mark. -/
def State.markL2 (s : State) (frame hint : Nat) : State :=
  { s with l2marks := s.l2marks.set 0 frame (if hint = 1 || hint = 3 then hint else 0) }

/-- Make a frame fit, other frames of its set leaving by their marks, otherwise in an order that is open (R89, R92); a frame without a way leaves at once. -/
def State.l2Trim (s : State) (frame : Nat) : Nat → State
  | 0 => s
  | n + 1 =>
    if s.l2Fits frame then s
    else match (s.l2Frames frame).filter (· ≠ frame) with
      | [] => s.l2Evict frame
      | l => let c := preferred s.l2marks l; let k := s.pick c.length; (k.2.l2Evict (c.getD k.1 frame)).l2Trim frame n

/-- Put a word into its slice. -/
def State.l2Put (s : State) (wa : Nat) (x : L2Word) : State := ({ s with l2 := s.l2.put wa x } : State).l2Trim (wa / 64) 34

/-- What bytes of a word carry after a write: what the write carries, after an atomic or commit also what they carried (R348). -/
def State.putRel (s : State) (wa : Nat) (mask : BitVec 4) (rel : List RelInfo) (atomic : Bool) : State :=
  { s with rel := ((List.range 4).filter mask.getLsbD).foldl (fun r i =>
      Tab.set r [] (4 * wa + i) (if atomic then joinRel (Tab.get r [] (4 * wa + i)) rel else rel)) s.rel }

/-- What the bytes of a word under a mask carry at their home. -/
def State.relOf (s : State) (wa : Nat) (mask : BitVec 4) : List RelInfo :=
  ((List.range 4).filter mask.getLsbD).foldl (fun l i => joinRel l (Tab.get s.rel [] (4 * wa + i))) []

/-! ### The synchronisation engine SRAM (R94) -/

/-- The bank of a word, numbered through the package. -/
def syncBank (wa : Nat) : Nat := 64 * homeDie (4 * wa) + wa / 4 % 64

/-- A word leaves the engine: one of a SYNC page to the overflow area (assumption 88), a migrated one to its home slice, dirty. -/
def State.syncOut (s : State) (wa : Nat) : State :=
  match s.sync.find? wa with
  | none => s
  | some x =>
    let s := { s with sync := s.sync.erase wa }
    let poison := x.poison || decide (2 ≤ x.err)
    if x.page then { s.pushWrite wa x.data poison with overflow := wa :: s.overflow.filter (· ≠ wa) }
    else s.l2Put wa ⟨x.data, allBytes, allBytes, poison, 0⟩

/-- Words of an atomic that its engine has still to execute. -/
def State.atomicWaits (s : State) (wa : Nat) : Bool :=
  s.atomics.any fun a => a.2.old.isNone && decide (a.2.pa < 4 * wa + 4) && decide (4 * wa < a.2.pa + 2 ^ a.2.size)

/-- Put a word into the engine: a bank of 16,384 words that is full gives up one for which no atomic waits. -/
def State.syncPut (s : State) (wa : Nat) (x : SyncWord) : State :=
  let others := ((s.sync.filter fun y => syncBank y.1 == syncBank wa).map (·.1)).filter (· ≠ wa)
  let s := if others.length < 16384 then s
    else match others.filter fun w => !s.atomicWaits w with
      | [] => s
      | c => let k := s.pick c.length; k.2.syncOut (c.getD k.1 0)
  { s with sync := s.sync.put wa x }

/-- A word of a SYNC page, in its engine or in the overflow area: neither L1 nor L2 holds it. -/
def State.syncPage (s : State) (wa : Nat) : Bool := s.overflow.contains wa || ((s.sync.find? wa).map (·.page)).getD false

/-- A word of the overflow area is brought in on use. -/
def State.bringIn (s : State) (wa : Nat) : State :=
  if !s.overflow.contains wa then s
  else
    let d := s.memWord wa
    ({ s with overflow := s.overflow.filter (· ≠ wa) } : State).syncPut wa ⟨d.1, d.2, true, 0⟩

/-- Move a word into its home's synchronisation engine (R94, R97). -/
def State.migrate (s : State) (wa : Nat) : State :=
  let s := (s.materialise (rowOfPa (4 * wa))).bringIn wa
  match s.sync.find? wa with
  | some _ => s
  | none =>
    let h := s.homeWord wa
    ({ s with l2 := s.l2.erase wa } : State).syncPut wa ⟨h.1, h.2, false, 0⟩

/-! ### Writes at the home -/

/-- A write of masked bytes to a word at its home (R83, R91, R94). The flag says that R83 discarded it. -/
def State.homeWrite (s : State) (wa : Nat) (d : Word) (mask : BitVec 4) (rel : List RelInfo) (atomic : Bool) : State × Bool :=
  let s := ((s.noteUndo wa).materialise (rowOfPa (4 * wa))).bringIn wa
  let cur := s.homeWord wa
  if cur.2 && mask != allBytes then (s, true)
  else
    let s := { s.putRel wa mask rel atomic with homeClk := s.homeClk + 1 }
    match s.sync.find? wa with
    | some x => ({ s with sync := s.sync.put wa { x with data := mergeBytes x.data d mask, poison := false, err := 0 } }, false)
    | none =>
      let x := (s.l2.find? wa).getD ⟨0, 0, 0, false, 0⟩
      (s.l2Put wa ⟨mergeBytes x.data d mask, x.valid ||| mask, x.dirty ||| mask,
                   if mask = allBytes then false else x.poison, if mask = allBytes then 0 else x.err⟩, false)

/-- The words that `n` bytes from a byte address touch, each with its byte mask. -/
def wordsOf (pa n : Nat) : List (Nat × BitVec 4) :=
  (List.range ((pa + n + 3) / 4 - pa / 4)).map fun i =>
    let wa := pa / 4 + i
    (wa, BitVec.ofNat 4 ((List.range 4).foldl (fun acc j =>
      if pa ≤ 4 * wa + j && 4 * wa + j < pa + n then acc + 2 ^ j else acc) 0))

/-- Bytes `[pa, pa + n)` placed in the word `wa` (zero elsewhere). -/
def wordFrom (pa wa : Nat) (bytes : List Byte) : Word :=
  BitVec.ofNat 32 (ofBytes ((List.range 4).map fun j =>
    if pa ≤ 4 * wa + j then bytes.getD (4 * wa + j - pa) 0 else 0))

/-- Move the words of a run of bytes into the engine. -/
def State.migrateRun (s : State) (pa n : Nat) : State := s.each (wordsOf pa n) fun s w => s.migrate w.1

/-- Bring the words of a run on a SYNC page into their engine (R94): no access to them is made in L1 or L2. -/
def State.bringSync (s : State) (vf pa n : Nat) : State :=
  s.each (wordsOf pa n) fun s w =>
    if s.rowOk vf (4 * w.1) false false || s.rowOk vf (4 * w.1) true false then
      let s := s.migrate w.1
      { s with sync := s.sync.modify w.1 fun z => { z with page := true } }
    else s

/-- Causes of Table 18.1 that a memory access by an engine can meet. -/
def causePageFault : Nat := 0x11
def causePagePerm : Nat := 0x12
def causeRowDenied : Nat := 0x15
def causeElided : Nat := 0x16
def causeUncorr : Nat := 0x20

/-- Read `n` bytes at their homes for a function: the row check is made where DRAM must be read (R115), and a
poisoned word gives UNCORR_DATA (R83). -/
def State.readPhys (s : State) (vf pa n : Nat) : Except Nat (List Byte) :=
  let ws := wordsOf pa n
  if ws.any fun w => s.needsDram w.1 && !s.rowOk vf (4 * w.1) false false then .error causeRowDenied
  else if ws.any fun w => (s.homeWord w.1).2 then .error causeUncorr
  else .ok ((List.range n).map fun i => (s.homeWord ((pa + i) / 4)).1.extractLsb' (8 * ((pa + i) % 4)) 8)

/-- The 4 KiB page of a physical address is host-bias (R113). -/
def State.isHostBias (s : State) (pa : Nat) : Bool := s.hostBias.contains (pa / 4096)

/-- A link runs at a flit-mode rate. -/
def State.flit (s : State) (link : Nat) : Bool := decide (64 ≤ (s.links.getD link (0, 0)).2)

/-- The link by which a function reaches host memory is up: in non-flit rates only PF 0 and the boot mailbox operate (R385). -/
def State.hostUp (s : State) (vf : Nat) : Bool :=
  match s.part? vf with
  | some p => s.flit p.link
  | none => s.flit 0 || s.flit 1

/-- A host write is in flight on the line of a host-bias word (R351). -/
def State.hostBusy (s : State) (pa : Nat) : Bool := s.isHostBias pa && s.hostInFlight.any fun h => h.1 / 64 == pa / 64

/-- A bias flip of the page of a physical address is in progress, and accesses with this number wait (R98, R387). -/
def State.flipWaits (s : State) (pa id : Nat) : Bool := s.flips.any fun f => f.1 == pa / 4096 && decide (f.2 ≤ id)

/-- Words of a host-bias page are not kept in L2: they are written through (R387). -/
def State.flushBias (s : State) (pa n : Nat) : State :=
  s.each (wordsOf pa n) fun s w =>
    match if s.isHostBias (4 * w.1) then s.l2.find? w.1 else none with
    | none => s
    | some x =>
      let h := s.homeWord w.1
      let s := if x.dirty = 0 then s else s.pushWrite w.1 h.1 h.2
      { s with l2 := s.l2.erase w.1 }

/-! ### Records of the device in memory (R107, R410, R418) -/

/-- Bytes of a record are written at their homes. -/
def State.putRecord (s : State) (pa : Nat) (bytes : List Byte) : State :=
  (s.each (wordsOf pa bytes.length) fun s w => (s.homeWrite w.1 (wordFrom pa w.1 bytes) w.2 [] false).1).flushBias pa bytes.length

/-- A write of the device to a line has to wait: for a host request on it (R351), for a flip of its page (R387), for its row to be
materialised (R367), or for an older write to it. -/
def State.recordWaits (s : State) (pa id : Nat) : Bool :=
  s.hostBusy pa || s.flipWaits pa id || s.matHeld pa || s.engineQ.any fun q => match q.op with
    | .write _ => q.counter.toNat / 64 == pa / 64
    | _ => false

/-- The device writes bytes of a record, line by line; those that have to wait do so at the engine. -/
def State.recordWrite (s : State) (vf pa : Nat) (bytes : List Byte) : State :=
  s.each (List.range ((pa % 64 + bytes.length + 63) / 64)) fun s i =>
    let a := max pa (pa / 64 * 64 + 64 * i)
    let b := (bytes.drop (a - pa)).take (pa / 64 * 64 + 64 * i + 64 - a)
    if s.recordWaits a s.nextId then
      { s with engineQ := s.engineQ ++ [⟨0, vf, BitVec.ofNat 64 a, true, false, s.nextId, .write b, noParty⟩] }
    else s.putRecord a b

/-- A run of words takes open values: the bytes of a record whose layout the spec does not give (R380, R415). -/
def State.openFill (s : State) (pa n : Nat) : State :=
  let s := s.each (List.range ((pa % 2048 + 4 * n + 2047) / 2048)) fun s i => s.materialise (rowOfPa pa + i)
  let ours (wa : Nat) : Bool := decide (pa / 4 ≤ wa) && decide (wa < pa / 4 + n)
  { s with
    mem := (List.range n).foldl (fun m i => Memory.writeN m (pa / 4 * 4 + 4 * i) (toBytes 4 (Config.freeWord (s.freeCtr + i)).toNat)) s.mem
    synd := s.synd.filter fun y => !ours y.1
    poisoned := s.poisoned.filter fun w => !ours w
    l2 := s.l2.filter fun y => !ours y.1
    wordQ := s.wordQ.mapVals fun q => q.filter fun r => !(r.write && ours r.word)
    freeCtr := s.freeCtr + n
    homeClk := s.homeClk + 1 }

/-! ## Logs (R107, Table 5.1) -/

/-- The source of a logged event: kind and index (Table 5.2), virtual address, DETAIL. -/
structure LogSrc where
  kind : Nat
  idx : Nat
  va : Option DWord
  detail : DWord
  deriving DecidableEq, Repr

/-- The 32 bytes of a log record (Table 5.2). -/
def LogRec.bytes (r : LogRec) : List Byte :=
  toBytes 8 r.vclock.toNat ++ toBytes 8 r.addr.toNat ++ toBytes 1 r.cause ++ toBytes 1 r.srckind ++ toBytes 2 r.srcidx ++
    toBytes 1 r.vf ++ toBytes 1 r.flags ++ toBytes 2 0 ++ toBytes 8 r.detail.toNat

/-- Index of the management core that directs the device (Table 1.2, R406). -/
def State.mgmtCore (s : State) : Nat := if s.shadow then 1 else 0

/-- Append to the management log: 4,096 records, the oldest overwritten and the wrap counted. -/
def State.logMgmt (s : State) (r : LogRec) : State :=
  if s.mgmtLog.length < 4096 then { s with mgmtLog := s.mgmtLog ++ [r] }
  else { s.countRes 0 23 0xFF 7 with mgmtLog := s.mgmtLog.tail ++ [r], mgmtWraps := s.mgmtWraps + 1 }

/-- Append a record to the ring of a function in device memory: dropped and counted when the ring is full, or where its rows do
not take the write, which the management log records (R115, R116, assumption 83); the next record written after a drop has FLAGS bit 2 set. Logs count event
0x07 under kind 23, the index of the log being its function (assumption 89). -/
def State.ringAppend (s : State) (vf : Nat) (g : LogRing) (r : LogRec) : State × LogRing :=
  let pa := g.base + 32 * (g.count % 2 ^ g.n)
  if g.count ≥ 2 ^ g.n then (s.countRes vf 23 vf 7, { g with drops := g.drops + 1, lost := true })
  else if !s.mayWrite vf pa 32 then
    ((s.countRes vf 23 vf 7).logMgmt ⟨s.vclock, BitVec.ofNat 64 pa, causeRowDenied, 7, s.mgmtCore, vf, 1, 0⟩,
      { g with drops := g.drops + 1, lost := true })
  else
    let r := if g.lost then { r with flags := r.flags ||| 4 } else r
    (s.recordWrite vf pa r.bytes, { g with count := g.count + 1, lost := false })

/-- Append to the hypervisor's log, where LOGSET has bound one. -/
def State.logHv (s : State) (r : LogRec) : State :=
  match s.hvLog with
  | none => s
  | some g => let x := s.ringAppend 0 g r; { x.1 with hvLog := some x.2 }

/-- Append to a partition's log. -/
def State.logPart (s : State) (vf : Nat) (r : LogRec) : State :=
  match s.part? vf with
  | none => s
  | some p => let x := s.ringAppend vf p.log r; x.1.modPart vf fun q => { q with log := x.2 }

/-- Record an event of partition work (R107): its log and the hypervisor's; an event without an owning partition
goes to the management log. -/
def State.log (s : State) (vf : Nat) (cause : Nat) (addr : DWord) (virt : Bool) (kind idx : Nat) (detail : DWord) : State :=
  let r : LogRec := ⟨s.vclock, addr, cause, kind, idx, vf, if virt then 2 else 0, detail⟩
  if (s.part? vf).isSome then (s.logPart vf r).logHv r else s.logMgmt r

/-- Record an event with a physical address (R107): the partition's record carries the virtual address or none, the
physical one goes to the hypervisor's log and the management log. -/
def State.logPhys (s : State) (vf : Nat) (cause : Nat) (pa : Nat) (va : Option DWord) (kind idx : Nat) (detail : DWord) : State :=
  let p : LogRec := ⟨s.vclock, BitVec.ofNat 64 pa, cause, kind, idx, vf, 1, detail⟩
  if (s.part? vf).isSome then
    let r : LogRec := ⟨s.vclock, va.getD 0, cause, kind, idx, vf, if va.isSome then 2 else 0, detail⟩
    ((s.logPart vf r).logHv p).logMgmt p
  else s.logMgmt { p with vf := if vf = 0 then 0 else 0xFF }

/-- A write at a home whose bytes R83 discards is logged with its address. -/
def State.homeWriteLogged (s : State) (vf wa : Nat) (d : Word) (mask : BitVec 4) (rel : List RelInfo) (atomic : Bool) (src : LogSrc) : State :=
  let x := s.homeWrite wa d mask rel atomic
  if x.2 then x.1.logPhys vf causeUncorr (4 * wa) src.va src.kind src.idx src.detail else x.1

/-! ## Reads of DRAM and of SRAM words (R81, R82, R85) -/

/-- Read a DRAM word at the hearth (R81, R82): value and poison; corrections are counted and written back, an
uncorrectable word is counted and logged. -/
def State.hearthRead (s : State) (vf wa : Nat) : Word × Bool × State :=
  let stack := stackOfPa (4 * wa)
  let v := s.dramWord wa
  let r := eccResolve (s.dramData wa) (s.synd.get 0 wa)
  if (s.elision.find? (rowOfPa (4 * wa))).isSome then (v.1, false, s)
  else if v.2 then (v.1, true, (s.countRes vf 20 stack 2).logPhys vf causeUncorr (4 * wa) none 4 stack 0)
  else if r.2.2 then (v.1, false, (s.setDram wa v.1 false).countRes vf 20 stack 1)
  else (v.1, false, s)

/-- What a read of a word at its home does beside returning it: a single bit in error in the engine or the slice is corrected,
rewritten and counted, two bits poison the word (R85); a word that DRAM must supply is read by the hearth (R82), one of the
overflow area is brought in. -/
def State.touch (s : State) (vf wa : Nat) : State :=
  let s := if s.overflow.contains wa then (s.hearthRead vf wa).2.2.bringIn wa else s
  match s.sync.find? wa with
  | some x =>
    if x.err = 0 then s
    else
      let s := if x.err = 1 then s.countRes vf 17 (homeDie (4 * wa)) 4 else s
      { s with sync := s.sync.put wa { x with poison := x.poison || decide (2 ≤ x.err), err := 0 } }
  | none =>
    let s := match s.l2.find? wa with
      | some x =>
        if x.err = 0 then s
        else
          let s := if x.err = 1 then s.countRes vf 3 (96 * homeDie (4 * wa) + homeSlice (4 * wa)) 4 else s
          { s with l2 := s.l2.put wa { x with poison := x.poison || decide (2 ≤ x.err), err := 0 } }
      | none => s
    if s.needsDram wa && s.rowOk vf (4 * wa) false false && (s.queuedWrite wa).isNone then (s.hearthRead vf wa).2.2 else s

/-- The fewest bursts that bring words from DRAM: in each channel as many as the words of one slice (R77). -/
def burstsOf (was : List Nat) : Nat :=
  (((was.map queueIx).dedup).map fun k =>
    let l := was.filter fun w => queueIx w == k
    (List.range 16).foldl (fun m sl => max m (l.filter fun w => sliceOfPa (4 * w) == sl).length) 0).sum

/-- What an engine's reads of words from DRAM count (R133): the words that L2 lacks and the bursts that bring them. -/
def State.countReads (s : State) (vf : Nat) (was : List Nat) : State :=
  (s.each was fun s _ => s.countPerf vf 11).each (List.range (burstsOf was)) fun s _ => s.countPerf vf 10

/-- An engine reads a run of bytes at their homes. -/
def State.touchRun (s : State) (vf pa n : Nat) : State :=
  let far := ((wordsOf pa n).map (·.1)).filter fun w => (s.needsDram w || s.overflow.contains w) && s.rowOk vf (4 * w) false false
  (s.countReads vf far).each (wordsOf pa n) fun s w => s.touch vf w.1

/-- Write bytes at their homes for a function, the row check made first (R115); what R83 discards is logged. -/
def State.writePhys (s : State) (vf pa : Nat) (bytes : List Byte) (rel : List RelInfo) (src : LogSrc) : Except Nat State :=
  let ws := wordsOf pa bytes.length
  if ws.any fun w => !s.rowOk vf (4 * w.1) true false then .error causeRowDenied
  else .ok ((s.each ws fun s w => s.homeWriteLogged vf w.1 (wordFrom pa w.1 bytes) w.2 rel false src).flushBias pa bytes.length)

/-! ## Translation -/

/-- A canonical 57-bit virtual address (R71). -/
def vaOk (va : DWord) : Bool :=
  let top := bitsOf va.toNat 63 57
  if va.getLsbD 56 then top == 127 else top == 0

/-- log2 of the page size of an SZ code (Table 5.3). -/
def pageBits (sz : Nat) : Nat := [12, 16, 21, 25, 30].getD sz 12

/-- The fields of a page table entry (Table 5.3). -/
def pteSz (e : DWord) : Nat := bitsOf e.toNat 47 45
def pteFrameHi (e : DWord) : Nat := bitsOf e.toNat 44 39
def pteFrame (e : DWord) : Nat := bitsOf e.toNat 38 12 * 4096
def pteHost (e : DWord) : Bool := e.getLsbD 8
def pteElide (e : DWord) : Bool := e.getLsbD 7
def pteSync (e : DWord) : Bool := e.getLsbD 6
def pteRepl (e : DWord) : Bool := e.getLsbD 5
def pteProp (e : DWord) : Bool := e.getLsbD 4
def pteRo (e : DWord) : Bool := e.getLsbD 3
def pteLeaf (e : DWord) : Bool := e.getLsbD 1
def pteV (e : DWord) : Bool := e.getLsbD 0
/-- The frame address of a leaf, the host frame's high bits included (R99). -/
def pteAddr (e : DWord) : Nat := pteFrame e + (if pteHost e then pteFrameHi e * 2 ^ 39 else 0)

/-- The entry is present at its level (R109, R95). -/
def pteOk (level : Nat) (e : DWord) : Bool :=
  pteV e && bitsOf e.toNat 63 48 == 0 && bitsOf e.toNat 11 9 == 0 && !e.getLsbD 2 &&
    if pteLeaf e then
      let sz := pteSz e
      let szLevel := match sz with | 0 | 1 => 4 | 2 | 3 => 3 | 4 => 2 | _ => 9
      level == szLevel && (pteHost e || pteFrameHi e == 0) && pteAddr e % 2 ^ pageBits sz == 0 &&
        !(pteHost e && (pteSync e || pteRepl e || pteElide e)) &&
        !(pteRepl e && (pteSync e || pteElide e || sz == 3 || sz == 4)) &&
        !(pteSync e && (pteElide e || 2 ≤ sz)) &&
        !(pteElide e && sz != 0)
    else
      level != 4 && bitsOf e.toNat 47 45 == 0 && pteFrameHi e == 0 && bitsOf e.toNat 8 3 == 0

/-- A byte that a walk reads: what a host request in flight on its line brings, else the home's (R351). -/
def State.walkByte (s : State) (a : Nat) (b : Byte) : Byte :=
  match (s.hostInFlight.filter fun h => s.isHostBias a && decide (h.1 ≤ a) && decide (a < h.1 + h.2.length)).getLast? with
  | some h => h.2.getD (a - h.1) b
  | none => b

/-- The tables that a walk reads from a level on (R108), and what it finds: levels 0 to 4, each indexed by nine bits of the
address. -/
def State.walkFrom (s : State) (vf : Nat) (va : Nat) (table level : Nat) : Nat → Except Nat DWord × List (Nat × Nat)
  | 0 => (.error causePageFault, [])
  | fuel + 1 =>
    let a := table + 8 * (va / 2 ^ (48 - 9 * level) % 512)
    match s.readPhys vf a 8 with
    | .error c => (.error c, [(level, table)])
    | .ok b =>
      let e := BitVec.ofNat 64 (ofBytes ((b.zip (List.range 8)).map fun y => s.walkByte (a + y.2) y.1))
      if !pteOk level e then (.error causePageFault, [(level, table)])
      else if pteLeaf e then (.ok e, [(level, table)])
      else
        let r := s.walkFrom vf va (pteFrame e) (level + 1) fuel
        (r.1, (level, table) :: r.2)

/-- The entry of a die's walk cache that a walk starts from: the one of the deepest level (R100, R118). -/
def State.walkStart (s : State) (die ctx va root : Nat) : Nat × Nat :=
  let l := ((s.walkCache.find? die).getD []).filter fun w => w.ctx == ctx && w.pre == va / 2 ^ (57 - 9 * w.level)
  l.foldl (fun b w => if b.1 < w.level then (w.level, w.table) else b) (0, root)

/-- A walk of a die's walker for a context (R100): the translation, and the tables read. -/
def State.lookup (s : State) (die ctx : Nat) (va : DWord) : Except Nat Trans × List (Nat × Nat) :=
  match s.ctx? ctx with
  | none => (.error causePageFault, [])
  | some c =>
    let b := s.walkStart die ctx va.toNat c.ptroot.toNat
    match s.walkFrom c.vf va.toNat b.2 b.1 (5 - b.1) with
    | (.error e, l) => (.error e, l)
    | (.ok pte, l) =>
      let size := 2 ^ pageBits (pteSz pte)
      (.ok ⟨ctx, va.toNat / size * size, size, pte⟩, l)

/-- The context's table as it translates an address. -/
def State.walk (s : State) (die ctx : Nat) (va : DWord) : Except Nat Trans := (s.lookup die ctx va).1

/-- The address of the entry that a refused activate keeps a walk from reading (R107, R115). -/
def State.walkDenied (s : State) (die ctx : Nat) (va : DWord) : Option Nat :=
  match s.lookup die ctx va with
  | (.error c, l) => if c = causeRowDenied then l.getLast?.map fun p => p.2 + 8 * (va.toNat / 2 ^ (48 - 9 * p.1) % 512) else none
  | _ => none

/-- What a walk leaves behind: the reads of its entries, and non-leaf entries in the die's walk cache, 256 at most, the oldest
leaving first (assumption 106). -/
def State.walked (s : State) (die ctx : Nat) (va : DWord) : State :=
  let path := (s.lookup die ctx va).2
  let vf := ((s.ctx? ctx).map (·.vf)).getD 0
  let s := s.each path fun s p => s.touchRun vf (p.2 + 8 * (va.toNat / 2 ^ (48 - 9 * p.1) % 512)) 8
  let new := (path.filter fun p => p.1 != 0).map fun p => (⟨ctx, p.1, va.toNat / 2 ^ (57 - 9 * p.1), p.2⟩ : WalkEntry)
  if new.isEmpty then s
  else { s with walkCache := s.walkCache.put die ((new ++ ((s.walkCache.find? die).getD []).filter fun w => !new.contains w).take 256) }

/-- A translation of the context that covers an address. -/
def findTrans (l : List Trans) (ctx va : Nat) : Option Trans :=
  l.find? fun t => t.ctx = ctx && t.va ≤ va && va < t.va + t.size

/-- A core's L1 TLB with one more translation, newest first, at most 64 for each page size, the oldest
leaving first (R100, R118, assumption 106). -/
def keepTrans (t : Trans) (l : List Trans) : List Trans :=
  t :: ((l.filter (·.size = t.size)).take 63 ++ l.filter (·.size ≠ t.size))

/-- Keep a translation in the core's L1 TLB and its hive's L2 TLB of 2,048 entries (R100). -/
def State.fillTlb (s : State) (core : Nat) (t : Trans) : State :=
  let s := s.modCore core fun c => { c with tlb := keepTrans t c.tlb }
  { s with l2tlb := s.l2tlb.put (hiveOfCore core) (t :: ((s.l2tlb.find? (hiveOfCore core)).getD []).take 2047) }

/-- Translate an address for a core: the L1 TLB, the hive's L2 TLB, or a walk that fills both (R100, R112). -/
def State.translate (s : State) (core ctx : Nat) (va : DWord) : Except Nat Trans × State :=
  if !vaOk va then (.error causePageFault, s)
  else match findTrans (s.core core).tlb ctx va.toNat with
    | some t => (.ok t, s)
    | none =>
      match findTrans ((s.l2tlb.find? (hiveOfCore core)).getD []) ctx va.toNat with
      | some t => (.ok t, s.modCore core fun c => { c with tlb := keepTrans t c.tlb })
      | none =>
        let w := s.walked (dieOfCore core) ctx va
        match s.walk (dieOfCore core) ctx va with
        | .ok t => (.ok t, w.fillTlb core t)
        | .error e => (.error e, w)

/-- What an access does to a page (Table 4.6, R279, R321). -/
inductive AccessKind where
  | read | write | atomic | nearRead | nearWrite | fetch
  deriving DecidableEq, Repr

/-- The physical side of a translated byte: device or host address, copies of a replicated page (R110), propagation. -/
structure Phys where
  pa : Nat
  host : Bool
  sync : Bool
  copies : List Nat
  atomicProp : Bool
  deriving DecidableEq, Repr, Inhabited

/-- Apply a translation to an address: attribute checks of R95, R96, R113, R279 and R321, and the copy a reader on
`die` uses (R110). -/
def State.applyTrans (s : State) (t : Trans) (va : DWord) (kind : AccessKind) (die : Nat) : Except Nat Phys :=
  let e := t.pte
  let pa0 := pteAddr e + (va.toNat - t.va)
  let host := pteHost e
  let bias := !host && s.isHostBias pa0
  -- a host page that the host rejects refuses every access (R99)
  let deny : Bool := (host && s.hostDeny.contains (pa0 / 4096)) || match kind with
    | .read | .fetch => false
    | .write => pteRo e
    | .atomic => pteRo e || pteRepl e || host || bias
    | .nearRead => host || bias || pteSync e
    | .nearWrite => pteRo e || pteRepl e || host || bias || pteSync e
  if pteSync e && bias then .error causePageFault
  else if deny then .error causePagePerm
  else
    let copies := if pteRepl e then (List.range 4).map fun d => pa0 ^^^ (d * 2 ^ 24) else []
    let pa := if pteRepl e then pa0 ^^^ ((homeDie pa0 ^^^ die) * 2 ^ 24) else pa0
    .ok ⟨pa, host, pteSync e, copies, pteProp e⟩

/-- Translate and check one byte address for an access by a core. -/
def State.resolve (s : State) (core ctx : Nat) (va : DWord) (kind : AccessKind) : Except Nat Phys × State :=
  match s.translate core ctx va with
  | (.error c, s) => (.error c, s)
  | (.ok t, s) => (s.applyTrans t va kind (dieOfCore core), s)

/-- The naturally aligned parts of `n` bytes at an address (R270): the fewest that cover it. -/
def partsOf (va n : Nat) : Nat → List (Nat × Nat)
  | 0 => []
  | fuel + 1 =>
    if n = 0 then []
    else
      let k := ([16, 8, 4, 2, 1].find? fun k => va % k = 0 && k ≤ n).getD 1
      (va, k) :: partsOf ((va + k) % 2 ^ 64) (n - k) fuel

/-- Translate every part of an access; the first failing part's cause, lowest code first. -/
def State.resolveParts (s : State) (core ctx : Nat) (parts : List (Nat × Nat)) (kind : AccessKind) :
    Except Nat (List (Phys × Nat)) × State :=
  parts.foldl (fun acc p =>
    let r := acc.2.resolve core ctx (BitVec.ofNat 64 p.1) kind
    match acc.1, r.1 with
    | .error c, .error c' => (.error (min c c'), r.2)
    | .error c, .ok _ => (.error c, r.2)
    | .ok _, .error c => (.error c, r.2)
    | .ok l, .ok x => (.ok (l ++ [(x, p.2)]), r.2)) (.ok [], s)

/-! ## Access by engines and record reads through a context -/

/-- Walk without a core's TLB: engines translate at the die's walker (R100, R427). -/
def State.resolveDie (s : State) (die ctx : Nat) (va : DWord) (kind : AccessKind) : Except Nat Phys :=
  if !vaOk va then .error causePageFault
  else match s.walk die ctx va with
    | .error c => .error c
    | .ok t => s.applyTrans t va kind die

/-- A word of a run must come from DRAM and its stack's channels are in a compute interval: ordinary traffic is held (R339, R367). -/
def State.dramHeld (s : State) (pa n : Nat) : Bool :=
  (wordsOf pa n).any fun w => (s.needsDram w.1 || s.overflow.contains w.1) && (s.hearth (stackOfPa (4 * w.1))).compute

/-- The solo holder of a partition other than a thread, and the words its sets lock (R286). -/
def State.lockedBy (s : State) (vf : Nat) (me : Option (Nat × Nat × Nat)) : List Nat :=
  match (s.part? vf).bind (·.soloHolder) with
  | none => []
  | some h =>
    if me = some h then []
    else match (s.warp? h.1 h.2.1).bind fun w => w.tx.find? h.2.2 with
      | none => []
      | some tx => tx.reads.map (·.addr) ++ tx.writes.map (·.addr)

/-- A replay partition's engines write outside the compute intervals of the stacks concerned, so that what they write reaches DRAM
before the next of their accesses (R352, assumption 47). -/
def State.replayHeld (s : State) (vf pa : Nat) : Bool :=
  ((s.part? vf).map (·.replay)).getD false && (s.hearth (stackOfPa pa)).compute

/-- An engine's access to a run of bytes of a context has to wait: for its host link, for a host request on its line, for a flip of its
page, a read for DRAM, a write for a solo attempt that locks one of its words. -/
def State.engineWaits (s : State) (die ctx : Nat) (va : DWord) (n : Nat) (kind : AccessKind) : Bool :=
  (partsOf va.toNat n (n + 1)).any fun p => match s.resolveDie die ctx (BitVec.ofNat 64 p.1) kind with
    | .error _ => false
    | .ok x =>
      let vf := ((s.ctx? ctx).map (·.vf)).getD 0
      if x.host then !s.hostUp vf
      else (x.pa :: x.copies).any (fun pa => s.hostBusy pa || s.flipWaits pa s.nextId) || (if kind = .write || kind = .nearWrite then
        (x.pa :: x.copies).any (fun pa => s.matHeld pa || s.replayHeld vf pa) ||
          (let l := s.lockedBy vf none; (wordsOf x.pa p.2).any fun w => l.contains w.1) else s.dramHeld x.pa p.2)

/-- Read `n` bytes of a context's memory at their homes, part by part (R121, R310), and the state after the reads. -/
def State.readVirt (s : State) (die ctx vf : Nat) (va : DWord) (n : Nat) (kind : AccessKind) : Except Nat (List Byte) × State :=
  (partsOf va.toNat n (n + 1)).foldl (fun acc p =>
    match acc.1 with
    | .error c => (.error c, acc.2)
    | .ok l =>
      let s := acc.2
      let w := s.walked die ctx (BitVec.ofNat 64 p.1)
      match s.resolveDie die ctx (BitVec.ofNat 64 p.1) kind with
      | .error c => (.error c, w)
      | .ok x =>
        if x.host then (.ok (l ++ Memory.readN s.hostMem x.pa p.2), w)
        else
          let w := (if x.sync then w.bringSync vf x.pa p.2 else w).touchRun vf x.pa p.2
          match s.readPhys vf x.pa p.2 with
          | .error c => (.error c, w)
          | .ok b => (.ok (l ++ b), w)) (.ok [], s)

/-- Write bytes of a context's memory at their homes, in every copy of a replicated page (R96); the copies that pass keep a
write that another copy refuses (R111). -/
def State.writeVirt (s : State) (die ctx vf : Nat) (va : DWord) (bytes : List Byte) (rel : List RelInfo) (src : LogSrc) : Option Nat × State :=
  (partsOf va.toNat bytes.length (bytes.length + 1)).foldl (fun acc p =>
    match acc.1 with
    | some c => (some c, acc.2)
    | none =>
      let s := acc.2
      let va1 := BitVec.ofNat 64 p.1
      let w := s.walked die ctx va1
      match s.resolveDie die ctx va1 .write with
      | .error c => (some c, w)
      | .ok x =>
        let b := (bytes.drop ((p.1 + 2 ^ 64 - va.toNat) % 2 ^ 64)).take p.2
        if x.host then (none, { w with hostMem := Memory.writeN w.hostMem x.pa b })
        else
          let w := if x.sync && w.rowOk vf x.pa true false then w.bringSync vf x.pa p.2 else w
          (if x.copies = [] then [x.pa] else x.copies).foldl (fun acc pa =>
          match acc.2.writePhys vf pa b rel { src with va := src.va.map fun _ => va1 } with
          | .error c => (some (acc.1.getD c), acc.2)
          | .ok s => (acc.1, s)) (none, w)) (none, s)

/-! ## L1 data (R86 to R89) -/

/-- Addresses `[a, a + n)` and `[b, b + m)` meet. -/
def overlaps (a n b m : Nat) : Bool := a < b + m && b < a + n

/-- A store has still to take effect at its own address. -/
def Store.underway (x : Store) : Bool := (x.st == .pending || x.st == .sent) && !x.replay && (x.copies.isEmpty || x.copies.contains x.pa)

/-- Bytes of a word that a core's stores have still to write at its home. -/
def State.unhomed (s : State) (core wa : Nat) : BitVec 4 :=
  BitVec.ofNat 4 ((List.range 4).foldl (fun acc i =>
    if s.stores.any fun x => x.2.core == core && x.2.underway && overlaps x.2.pa x.2.bytes.length (4 * wa + i) 1 then acc + 2 ^ i else acc) 0)

/-- The L1 word of a core. -/
def Core.l1Word? (c : Core) (wa : Nat) : Option L1Word := c.l1.find? wa

/-- A clean byte of an L1 word may be returned to a load whose warp has a floor: it was read late enough, in the present
life of its row, and no atomic of the core came after (assumption 85). -/
def State.freshWord (s : State) (wa : Nat) (x : L1Word) (floor : Nat) : Bool :=
  !x.past && decide (floor ≤ x.fill) && decide (Tab.get s.rowTime 0 (rowOfPa (4 * wa)) ≤ x.fill)

/-- A part of a load is served by the core's L1: every byte is valid there, and those that are not on their way home come from
one reading of the home, so that the part is single-copy atomic (R270, R347). -/
def State.partInL1 (s : State) (core floor a n : Nat) : Bool :=
  let ws := wordsOf a n
  let far := ws.filter fun w => s.unhomed core w.1 &&& w.2 != w.2
  (ws.all fun w => !s.syncPage w.1 && match (s.core core).l1.find? w.1 with
    | some x => x.valid &&& w.2 == w.2
    | none => false) &&
  (far.all fun w => match (s.core core).l1.find? w.1 with
    | some x => s.freshWord w.1 x floor
    | none => false) &&
  (((far.map fun w => (((s.core core).l1.find? w.1).map (·.fill)).getD 0).dedup).length ≤ 1)

/-- A byte as a core sees it: of L1 where `l1` says so or where its own store is on the way home, else of the home. -/
def State.coreByte (s : State) (core a : Nat) (l1 : Bool) : Byte :=
  match (s.core core).l1.find? (a / 4) with
  | some x => if l1 || (s.unhomed core (a / 4)).getLsbD (a % 4) then x.data.extractLsb' (8 * (a % 4)) 8
              else (s.homeWord (a / 4)).1.extractLsb' (8 * (a % 4)) 8
  | none => (s.homeWord (a / 4)).1.extractLsb' (8 * (a % 4)) 8

/-- What the write of a byte carries, seen in the same place. -/
def State.coreRel (s : State) (core a : Nat) (l1 : Bool) : List RelInfo :=
  match (s.core core).l1.find? (a / 4) with
  | some x => if l1 || (s.unhomed core (a / 4)).getLsbD (a % 4) then Tab.get x.rel [] (a % 4) else Tab.get s.rel [] a
  | none => Tab.get s.rel [] a

/-- The earlier of two stamps. -/
def minStamp (a b : DWord) : DWord := if a.toNat ≤ b.toNat then a else b

/-- The fill stamp of a sector: the smallest stamp that supplied its present words (R88). -/
def Core.fillStamp (c : Core) (sector : Nat) : Option DWord :=
  (c.l1.filter fun x => x.1 / 16 == sector).foldl (fun m x => match m, x.2.stamp with
    | some p, some q => some (minStamp p q)
    | none, y => y
    | y, none => y) none

/-! ### Frames of L1 (R86, Table 4.5) -/

/-- The frames that a set of the core holds: 64 sets (assumption 87). -/
def Core.setFrames (c : Core) (frame : Nat) : List Nat := ((c.l1.map fun x => x.1 / 64).dedup).filter fun f => f % 64 == frame % 64

/-- Frames without a dirty word of the set that a frame lies in, those that leave first. -/
def Core.victims (c : Core) (frame : Nat) : List Nat :=
  preferred c.marks ((c.setFrames frame).filter fun f => !(c.l1.any fun x => x.1 / 64 == f && x.2.dirty != 0))

/-- Make room for a frame in a core's L1: one of 16 leaves a full set, never one with a dirty word. None where all have one. -/
def State.l1Room (s : State) (core frame : Nat) : Option State :=
  let c := s.core core
  let l := c.setFrames frame
  if l.contains frame || l.length < 16 then some s
  else match c.victims frame with
    | [] => none
    | v =>
      let k := s.pick v.length
      let f := v.getD k.1 frame
      some (k.2.modCore core fun c => { c with l1 := c.l1.filter fun x => x.1 / 64 != f, marks := c.marks.erase f })

/-- A hint is kept for a frame: STREAM and KEEP mark it, any other use clears the mark. -/
def State.markFrame (s : State) (core frame hint : Nat) : State :=
  s.modCore core fun c => { c with marks := c.marks.set 0 frame (if hint = 1 || hint = 3 then hint else 0) }

/-- Fill a word of L1 with the home's value; bytes of stores on their way home stay (R86 to R88). Where the set has no room the
word is not kept. -/
def State.l1Fill (s : State) (core wa : Nat) (hint : Nat) : State :=
  match s.l1Room core (wa / 64) with
  | none => s
  | some s =>
    let h := s.homeWord wa
    let mine := s.unhomed core wa
    let rel : Tab (List RelInfo) := (List.range 4).foldl (fun r i => Tab.set r [] i (s.coreRel core (4 * wa + i) false)) []
    let s := s.markFrame core (wa / 64) hint
    s.modCore core fun c =>
      let x := (c.l1.find? wa).getD ⟨0, 0, 0, false, [], 0, false, 0, none⟩
      { c with l1 := c.l1.put wa ⟨mergeBytes h.1 x.data mine, allBytes, x.dirty, h.2 && mine != allBytes, rel, s.homeClk, false, 0, some s.vclock⟩ }

/-- A store's bytes enter L1 valid and dirty (R87). -/
def State.l1Store (s : State) (core wa : Nat) (d : Word) (mask : BitVec 4) (rel : List RelInfo) : State :=
  s.modCore core fun c =>
    let x := (c.l1.find? wa).getD ⟨0, 0, 0, false, [], 0, false, 0, none⟩
    { c with l1 := c.l1.put wa { x with
        data := mergeBytes x.data d mask, valid := x.valid ||| mask, dirty := x.dirty ||| mask,
        poison := x.poison && mask != allBytes, err := if mask = allBytes then 0 else x.err
        rel := ((List.range 4).filter mask.getLsbD).foldl (fun r i => Tab.set r [] i rel) x.rel } }

/-- Drop the clean bytes of words that satisfy a predicate (R88). -/
def Core.dropClean (c : Core) (p : Nat → Bool) : Core :=
  { c with l1 := c.l1.filterMap fun kx =>
      if !p kx.1 then some kx
      else if kx.2.dirty = 0 then none
      else some (kx.1, { kx.2 with valid := kx.2.dirty, stamp := none }) }

/-- Self-invalidation at an acquire carrying T (R88): clean words of sectors whose fill stamp is below T + 16. -/
def State.acquireL1 (s : State) (core : Nat) (t : DWord) : State :=
  s.modCore core fun c => c.dropClean fun wa => match c.fillStamp (wa / 16) with
    | some f => decide (f.toNat < t.toNat + 16)
    | none => false

/-- A read of a word in L1: a single bit in error is corrected, rewritten and counted, two bits poison it (R85). -/
def State.touchL1 (s : State) (vf core wa : Nat) : State :=
  match (s.core core).l1.find? wa with
  | none => s
  | some x =>
    if x.err = 0 then s
    else
      let s := if x.err = 1 then s.countRes vf 15 core 4 else s
      s.modCore core fun c => { c with l1 := c.l1.put wa { x with poison := x.poison || decide (2 ≤ x.err), err := 0 } }

/-- An atomic or a commit of the core has written words: its loads pass by what L1 holds of them (R347). -/
def State.pastL1 (s : State) (core : Nat) (was : List Nat) : State :=
  s.modCore core fun c => { c with l1 := was.foldl (fun l wa => l.modify wa fun x => { x with past := true }) c.l1 }

end Sys2Proof.Machine
end

