-- ==== Sys2Proof/Machine/Split.lean ====
section
/-! DEFINITION. The split table of a warp as plain operations (02 R30 to R35): grouping by next PC, splitting or deferring
(R32), the checks before a fetch and fusion (R33), and exit (R31). Each returns the trace events of 20 R411. -/

namespace Sys2Proof.Machine

/-- A divergence or reconvergence event (Tables 20.2, 20.3). -/
structure TraceEv where
  kind : Nat
  deferred : Bool
  entry : Nat
  aux : Nat
  mask : DWord
  deriving DecidableEq, Repr

/-- The PC of a JOIN entry or record whose transfer names no reconvergence point: no next PC equals it. -/
def noPc : DWord := 0xFFFFFFFFFFFFFFFF

/-- The newest deferral record an entry owns. -/
def Warp.newest (w : Warp) (e : Nat) : Option Deferral := w.deferrals.find? fun r => r.owner = e

/-- Change the first list element that satisfies `p`; an answer of none removes it. -/
def changeFirst {α : Type} (p : α → Bool) (f : α → Option α) : List α → List α
  | [] => []
  | x :: l => if p x then (match f x with
      | some y => y :: l
      | none => l) else x :: changeFirst p f l

/-- Change or release the newest record an entry owns. -/
def Warp.changeNewest (w : Warp) (e : Nat) (f : Deferral → Option Deferral) : Warp :=
  { w with deferrals := changeFirst (fun r => r.owner = e) f w.deferrals }

/-- Add a thread to its group, groups keeping the order of their first thread. -/
def addToGroup (pc : DWord) (t : Nat) : List (DWord × DWord) → List (DWord × DWord)
  | [] => [(pc, BitVec.ofNat 64 (2 ^ t))]
  | (p, m) :: l => if p = pc then (p, m ||| BitVec.ofNat 64 (2 ^ t)) :: l else (p, m) :: addToGroup pc t l

/-- Threads of a mask grouped by next PC, the group of `taken` first, otherwise by lowest thread number (R32). -/
def groupsOf (m taken : DWord) (np : Nat → DWord) : List (DWord × DWord) :=
  (threadsOf (m &&& taken) ++ threadsOf (m &&& ~~~taken)).foldl (fun l t => addToGroup (np t) t l) []

/-- The nominal clock once a pair whose second instruction is left behind has been counted (R184, R196). -/
def Entry.clockDue (x : Entry) : Nat :=
  match x.paired with
  | some n => x.nclk + 1 + n
  | none => x.nclk

/-- Place groups in the lowest FREE entries (R32); the group that falls through from `b` has reached its PC by sequential
execution (R184). -/
def Warp.placeGroups (w : Warp) (e : Nat) (x : Entry) (b : DWord) (jpc : Option DWord) : List (DWord × DWord) → Warp × List TraceEv
  | [] => (w, [])
  | (pc, m) :: l =>
    match (List.range 16).find? fun i => (w.entry i).st == .free with
    | none => (w, [])
    | some c =>
      let w := w.setEntry c { Entry.empty with
        mask := m, pc := pc, rpc := jpc, parent := some e, st := .run, nclk := x.clockDue, yld := x.yld, handler := x.handler,
        seqd := pc == nextPc b }
      let r := w.placeGroups e x b jpc l
      (r.1, ⟨0, false, c, e, m⟩ :: r.2)

/-- Number of FREE entries. -/
def Warp.freeEntries (w : Warp) : Nat := ((List.range 16).filter fun i => (w.entry i).st == .free).length

/-- R32 and the re-execution of R33: continue, split or defer after a transfer of control by entry `e` at PC `b`;
none when the split takes neither (SPLIT_DEPTH, where the pseudocode of R32 traps: assumption 92). `keep` records the next
PCs of an abort. -/
def Warp.transfer (w : Warp) (e : Nat) (b : DWord) (np : Nat → DWord) (taken : DWord) (recon : Option DWord) (keep : Bool) :
    Option (Warp × List TraceEv) :=
  let x := w.entry e
  let jpc := recon.or x.rpc
  match groupsOf x.mask taken np with
  | [] => some (w, [])
  | (pc1, g1) :: rest =>
    if x.reexec then
      some ((w.changeNewest e fun r => some { r with p := r.p &&& ~~~g1 }).setEntry e { x with mask := g1, pc := pc1, reexec := false, seqd := pc1 == nextPc b }, [])
    else if rest.isEmpty then some (w.setEntry e { x with pc := pc1, seqd := pc1 == nextPc b }, [])
    else if rest.length + 1 ≤ w.freeEntries then
      some ((w.setEntry e { x with st := .join, pc := jpc.getD noPc }).placeGroups e x b jpc ((pc1, g1) :: rest))
    else if w.deferrals.length < 32 then
      let p := x.mask &&& ~~~g1
      let r : Deferral := ⟨e, x.mask, p, b, jpc.getD noPc, if keep then (threadsOf p).map fun t => (t, np t) else []⟩
      some (({ w with deferrals := r :: w.deferrals } : Warp).setEntry e { x with mask := g1, pc := pc1, seqd := pc1 == nextPc b },
        [⟨0, true, e, (x.parent.getD 15) % 16, g1⟩])
    else none

/-- Run the pending threads of the newest record again (R31, R33 step 1): the branch executes for them, or, for an
threads with a recorded next PC, the first group takes it. -/
def Warp.resumePending (w : Warp) (e : Nat) (x : Entry) (r : Deferral) : Warp :=
  let own := r.p &&& ~~~maskOf (r.np.map (·.1))
  if own != 0 then w.setEntry e { x with mask := own, pc := r.bpc, reexec := true, wait := .none, seqd := false }
  else match groupsOf r.p 0 fun t => Tab.get r.np 0 t with
    | (pc, g) :: _ =>
      (w.changeNewest e fun r => some { r with p := r.p &&& ~~~g }).setEntry e
        { x with mask := g, pc := pc, wait := .none, seqd := false }
    | [] => w

/-- Release the newest record and continue at its JPC with its M. -/
def Warp.releaseRecord (w : Warp) (e : Nat) (x : Entry) (r : Deferral) : Warp × List TraceEv :=
  ((w.changeNewest e fun _ => none).setEntry e { x with mask := r.m, pc := r.jpc, wait := .none, seqd := false },
    [⟨1, true, e, 0, r.m⟩])

/-- The entry has arrived: PARKED, or RUN with an empty MASK and no record left (R31, R33). -/
def Warp.arrived (w : Warp) (e : Nat) : Bool :=
  let x := w.entry e
  x.st == .parked || (x.st == .run && x.mask == 0 && (w.newest e).isNone)

/-- The innermost ancestor in state JOIN at a PC. -/
def Warp.ancestorAt (w : Warp) (pc : DWord) : Nat → Option Nat → Option Nat
  | 0, _ => none
  | _, none => none
  | fuel + 1, some a =>
    let x := w.entry a
    if x.st = .join && x.pc = pc then some a else w.ancestorAt pc fuel x.parent

/-- One step of R31 and R33 for entry `e`, if one applies. An entry that parks by step 2 or 3 keeps the records it owns
(assumption 93). -/
def Warp.settleEntry (w : Warp) (e : Nat) : Option (Warp × List TraceEv) :=
  let x := w.entry e
  match x.st with
  | .run =>
    if x.mask = 0 then
      match w.newest e with
      | none => none
      | some r => some (if r.p = 0 then w.releaseRecord e x r else (w.resumePending e x r, []))
    else if x.reexec || x.wait != .none then none
    else
      match (w.newest e).filter fun r => r.jpc = x.pc with
      | some r => some (if r.p = 0 then w.releaseRecord e x r else (w.resumePending e x r, []))
      | none =>
        if x.rpc = some x.pc then some (w.setEntry e { x with st := .parked }, [])
        else match w.ancestorAt x.pc 16 x.parent with
          | some a => some (w.setEntry e { x with st := .parked, parent := some a }, [])
          | none => none
  | .join =>
    let kids := (List.range 16).filter fun i => (w.entry i).st != .free && (w.entry i).parent == some e
    if kids.all w.arrived then
      let m := kids.foldl (fun m i => m ||| (w.entry i).mask) 0
      let n := kids.foldl (fun n i => max n (w.entry i).clockDue) x.clockDue
      let w := kids.foldl (fun w i => w.setEntry i Entry.empty) w
      if m = 0 && (w.newest e).isNone then some (w.setEntry e Entry.empty, [⟨1, false, e, 0, m⟩])
      else some (w.setEntry e { x with st := .run, mask := m, nclk := n, age := 0, satAt := none, wait := .none, seqd := false, paired := none },
        [⟨1, false, e, 0, m⟩])
    else none
  | _ => none

/-- Apply the checks of R31 and R33 until none applies. -/
def Warp.settleFuel : Nat → Warp → Warp × List TraceEv
  | 0, w => (w, [])
  | fuel + 1, w =>
    match (List.range 16).findSome? w.settleEntry with
    | none => (w, [])
    | some (w', l) => let r := Warp.settleFuel fuel w'; (r.1, l ++ r.2)
def Warp.settle (w : Warp) : Warp × List TraceEv := w.settleFuel 128

/-- Clear threads from an entry's MASK and from every deferral record (R31, R207). -/
def Warp.exitThreads (w : Warp) (e : Nat) (m : DWord) : Warp :=
  let w := w.modEntry e fun x => { x with mask := x.mask &&& ~~~m }
  { w with
    exited := w.exited ||| m
    deferrals := w.deferrals.map fun r => { r with m := r.m &&& ~~~m, p := r.p &&& ~~~m } }

/-- The warp has exited: entry 0's MASK is zero (R31), or it has been killed (R373). -/
def Warp.done (w : Warp) : Bool :=
  w.killed || ((w.entry 0).mask == 0 && (w.entry 0).st != .join && (w.newest 0).isNone)

/-- The launched threads that have not executed `exit` (R251). -/
def Warp.live (w : Warp) : DWord := if w.killed then 0 else w.launched &&& ~~~w.exited

/-- The RUN entry that holds a thread. -/
def Warp.entryOf (w : Warp) (t : Nat) : Option Nat :=
  (List.range 16).find? fun i => (w.entry i).st == .run && (w.entry i).mask.getLsbD t

end Sys2Proof.Machine
end

