-- ==== Sys2Proof/Machine/Report.lean ====
section
/-! DEFINITION. How events are reported: completion counters and error words (06 R125, R126), signals to functions, trace
records (20 R410, R411), dumps (20 R417, R418), the kill of a warp (18 R373), and the end of a context (18 R370). -/

namespace Sys2Proof.Machine

/-! ## Causes (Table 18.1) -/

def causeIllegal : Nat := 0x01
def causeReserved : Nat := 0x02
def causeBadTarget : Nat := 0x03
def causeParity : Nat := 0x04
def causeStallShort : Nat := 0x05
def causeSoftTrap : Nat := 0x06
def causeSplitDepth : Nat := 0x07
def causeAlign : Nat := 0x10
def causeCombBounds : Nat := 0x13
def causeCombSealed : Nat := 0x14
def causeMcastStale : Nat := 0x17
def causeMismatch : Nat := 0x21
def causeScreen : Nat := 0x22
def causeTimeout : Nat := 0x30
def causeAbandoned : Nat := 0x31
def causeDepth : Nat := 0x32
def causeNoVariant : Nat := 0x33
def causeInvalid : Nat := 0x34
def causeForeign : Nat := 0x40
def causeSolo : Nat := 0x41

/-! ## Completion counters and error words -/

/-- SEEN bit of a cause (Table 6.3); RESERVED_FIELD is BADREC. -/
def seenBit (cause : Nat) : List Nat :=
  match cause with
  | 0x34 => [0] | 0x33 => [1] | 0x11 => [2] | 0x12 => [3] | 0x10 => [4] | 0x15 => [5] | 0x16 => [6] | 0x17 => [7]
  | 0x20 => [8] | 0x13 => [9] | 0x14 => [10] | 0x02 => [11]
  | _ => []

/-- The update of R125. -/
def ewUpdate (ew cause : Nat) (bits : List Nat) : Nat :=
  let first := if bitsOf ew 63 56 = 0 then cause else bitsOf ew 63 56
  let count := if bitsOf ew 55 48 = 255 then 255 else bitsOf ew 55 48 + 1
  first * 2 ^ 56 + count * 2 ^ 48 + bits.foldl (fun x b => x ||| 2 ^ b) (ew % 2 ^ 48)

/-- Nothing that an ended context had issued is still on its way (R370, R435). -/
def State.ctxDrained (s : State) (ctx : Nat) : Bool :=
  !(s.stores.any fun x => x.2.slot == 64 + ctx) && !(s.atomics.any fun x => x.2.slot == 64 + ctx) && !(s.orphans.any fun o => o.ctx == ctx)

/-- Where an update of a counter is made, or the cause that the address meets (R125, R279). -/
def State.counterPlace (s : State) (q : CounterReq) : Except Nat Phys :=
  if q.counter.toNat % 16 ≠ 0 then .error causeAlign
  else if !q.phys then s.resolveDie 0 q.ctx q.counter .atomic
  else if s.isHostBias q.counter.toNat then .error causePagePerm
  else .ok ⟨q.counter.toNat, false, false, [], false⟩

/-- The place of a counter that may be updated, or the cause that forbids it and the address where there is one. -/
def State.counterPa (s : State) (q : CounterReq) : Except (Nat × Option Nat) Phys :=
  match s.counterPlace q with
  | .error c => .error (c, if q.phys then some q.counter.toNat else if c = causeRowDenied then s.walkDenied 0 q.ctx q.counter else none)
  | .ok x =>
    if !s.rowOk q.vf x.pa true false then .error (causeRowDenied, some x.pa)
    else if (List.range 4).any fun i => (s.homeWord (x.pa / 4 + i)).2 then .error (causeUncorr, some x.pa)
    else .ok x

/-- Eight bytes at their home. -/
def State.home8 (s : State) (pa : Nat) : Nat :=
  (s.homeWord (pa / 4)).1.toNat + 2 ^ 32 * (s.homeWord (pa / 4 + 1)).1.toNat

/-- Replace eight bytes at their home as one atomic write (R126). -/
def State.atomicWrite8 (s : State) (vf pa : Nat) (x : Nat) (rel : List RelInfo) : State :=
  let s := s.migrateRun pa 8
  s.each (wordsOf pa 8) fun s w => s.homeWriteLogged vf w.1 (wordFrom pa w.1 (toBytes 8 x)) w.2 rel true ⟨6, homeDie pa, none, 0⟩

/-- Make an update of a counter at its home (R125, R126), or write a record. An update that cannot be made is logged, each by
itself, with the engine of the counter's home die as its source, engine 0 where it has no home (assumption 100). -/
def State.applyCounter (s : State) (q : CounterReq) : State :=
  match q.op with
  | .write b => s.putRecord q.counter.toNat b
  | op =>
    let w := if q.phys then s else s.walked 0 q.ctx q.counter
    match s.counterPa q with
    | .error (c, none) => w.log q.vf c q.counter true 6 0 0
    | .error (c, some pa) => (w.touchRun q.vf pa 16).logPhys q.vf c pa (if q.phys then none else some q.counter) 6 (homeDie pa) 0
    | .ok x =>
      let pa := x.pa
      let w := (if x.sync then w.bringSync q.vf pa 16 else w).touchRun q.vf pa 16
      match op with
      | .add n => w.atomicWrite8 q.vf pa ((w.home8 pa + n) % 2 ^ 64) [{ q.by_ with stamp := some s.vclock, floor := s.homeClk + 2 }]
      | .error cause bits => w.atomicWrite8 q.vf (pa + 8) (ewUpdate (w.home8 (pa + 8)) cause bits) []
      | .killed => w.atomicWrite8 q.vf (pa + 8) (w.home8 (pa + 8) ||| 2 ^ 13) []
      | .write _ => w

/-- Two updates are of one counter. -/
def State.sameCounter (s : State) (p q : CounterReq) : Bool :=
  (p.phys == q.phys && p.ctx == q.ctx && p.counter == q.counter) || match s.counterPlace p, s.counterPlace q with
    | .ok x, .ok y => x.pa == y.pa
    | _, _ => false

/-- An update waits at its engine: what the ended context had issued is on its way (R435), a solo attempt has locked one of its
words (R286), its page is being flipped (R387), its words must come from DRAM in a compute interval (R367), or an older update of
the counter waits; a record waits for its line. -/
def State.reqWaits (s : State) (q : CounterReq) : Bool :=
  match q.op with
  | .write _ => s.recordWaits q.counter.toNat q.id
  | _ => (q.drain && !s.ctxDrained q.ctx) || (s.engineQ.any fun p => s.sameCounter p q) ||
    match s.counterPlace q with
    | .ok x => s.flipWaits x.pa q.id || s.dramHeld x.pa 16 || s.matHeld x.pa ||
        (let l := s.lockedBy q.vf none; (List.range 4).any fun i => l.contains (x.pa / 4 + i))
    | .error _ => false

/-- An update of a counter of a context that comes now would wait. -/
def State.counterWaits (s : State) (ctx vf : Nat) (counter : DWord) : Bool :=
  s.reqWaits ⟨ctx, vf, counter, false, false, s.nextId, .killed, noParty⟩

/-- An update of a counter reaches its engine. -/
def State.counterUpdate (s : State) (q : CounterReq) : State :=
  if s.reqWaits q then { s with engineQ := s.engineQ ++ [q] } else s.applyCounter q

/-- What waits at the engines and no longer has to takes place, in order. -/
def State.drainEngine (s : State) : State := s.engineQ.foldl State.counterUpdate { s with engineQ := [] }

/-- A party's release at a scope: an engine counts as the warp whose operation it is (R345). -/
def releaseBy (core slot team scope : Nat) : RelInfo := ⟨none, 0, core, slot, team, scope⟩

/-- A grid's release: it counts as no warp, and lies in the instances that its teams have been placed in (R345). -/
def Grid.release (g : Grid) : RelInfo :=
  match (g.on).dedup, ((g.on).map dieOfHive).dedup with
  | [h], _ => partyRelease (4 * h)
  | _, [d] => partyRelease (385 + d)
  | _, _ => noParty

/-- An update of a context's counter that comes now. -/
def State.updateOf (s : State) (ctx vf : Nat) (counter : DWord) (op : CounterOp) (by_ : RelInfo) : State :=
  s.counterUpdate ⟨ctx, vf, counter, false, false, s.nextId, op, by_⟩

/-- The same where the context ends: made at the place that the address names now, once all that the context had issued has
completed (R370, R435). -/
def State.endUpdate (s : State) (ctx vf : Nat) (counter : DWord) (op : CounterOp) (by_ : RelInfo) : State :=
  let q : CounterReq := ⟨ctx, vf, counter, false, true, s.nextId, op, by_⟩
  match s.counterPlace q with
  | .error _ => s.counterUpdate q
  | .ok x => (if x.sync then s.bringSync vf x.pa 16 else s).counterUpdate { q with counter := BitVec.ofNat 64 x.pa, phys := true }

/-- Record an error in the error word of a counter (R125). -/
def State.ewError (s : State) (ctx vf : Nat) (counter : DWord) (cause : Nat) (bits : List Nat) : State :=
  s.updateOf ctx vf counter (.error cause bits) noParty

/-- Add to a completion counter (R126). -/
def State.counterAdd (s : State) (ctx vf : Nat) (counter : DWord) (inc : Nat) (by_ : RelInfo) : State :=
  s.updateOf ctx vf counter (.add inc) by_

/-- Set KILLED in an error word (Table 6.3). -/
def State.ewKilled (s : State) (ctx vf : Nat) (counter : DWord) : State :=
  s.updateOf ctx vf counter .killed noParty

/-- The counter of a record in which address 0 names none (Table 2.5, Table 15.5). -/
def namedCounter (c : DWord) : Option DWord := if c = 0 then none else some c

/-- The same for a counter that may be none. -/
def State.ewErrorOn (s : State) (ctx vf : Nat) (counter : Option DWord) (cause : Nat) (bits : List Nat) : State :=
  match counter with
  | none => s
  | some c => s.ewError ctx vf c cause bits
def State.counterAddOn (s : State) (ctx vf : Nat) (counter : Option DWord) (inc : Nat) (by_ : RelInfo) : State :=
  match counter with
  | none => s
  | some c => s.counterAdd ctx vf c inc by_
def State.counterWaitsOn (s : State) (ctx vf : Nat) (counter : Option DWord) : Bool :=
  match counter with
  | none => false
  | some c => s.counterWaits ctx vf c

/-- Send an MSI-X vector to a function (R385, R388). -/
def State.signal (s : State) (fn vec : Nat) : State := s.modMailbox fn fun m => { m with msix := m.msix ++ [vec] }

/-- A fault as it is logged: its cause, lanes, virtual and physical address. -/
structure FaultInfo where
  cause : Nat
  mask : DWord
  va : DWord
  pa : Option Nat
  deriving DecidableEq, Repr

/-- DETAIL of a fault an instruction raises (Table 5.2). -/
def detailOf (cause : Nat) (mask pc : DWord) : DWord :=
  if cause = causeAlign || cause = causePageFault || cause = causePagePerm || cause = causeCombBounds || cause = causeCombSealed ||
    cause = causeRowDenied then mask else pc

/-- Log a fault of an instruction of a core (R107). -/
def State.logFault (s : State) (vf core : Nat) (f : FaultInfo) (pc : DWord) : State :=
  let d := detailOf f.cause f.mask pc
  match f.pa with
  | some pa => s.logPhys vf f.cause pa (some f.va) 0 core d
  | none => s.log vf f.cause f.va (f.va != 0) 0 core d

/-! ## Trace -/

/-- Claimed trace units of a partition, ascending (R411). -/
def State.unitsOf (s : State) (vf : Nat) : List Nat :=
  match s.part? vf with
  | none => []
  | some p => (List.range 16).filter fun u => p.traceMask.testBit u && (s.unit u).holder.isSome

/-- The function in whose name a trace unit writes: its partition's, or function 0. -/
def State.unitOwner (s : State) (u : Nat) : Nat := ((List.find? (fun (p : Nat × Partition) => p.2.traceMask.testBit u) s.parts).map (·.1)).getD 0

/-- Write a 16-byte record into a unit's ring, or drop it: where the ring is full (R410), or where its row does not take
the write (R115, assumption 83). -/
def State.unitRecord (s : State) (u : Nat) (q : DWord) (w : Nat) (work : Word) : State :=
  let x := s.unit u
  let at_ := x.base + 16 * (x.wcount.toNat % 2 ^ x.n)
  if !s.mayWrite (s.unitOwner u) at_ 16 then
    ((s.modUnit u fun x => { x with drops := x.drops + 1, lost := true }).countRes (s.unitOwner u) 11 u 7).logPhys (s.unitOwner u) causeRowDenied at_ none 7 s.mgmtCore 0
  else if 2 ^ x.n ≤ (x.wcount - x.rcount).toNat then
    (s.modUnit u fun x => { x with drops := x.drops + 1, lost := true }).countRes (s.unitOwner u) 11 u 7
  else
    let w := if x.lost then w + 2 ^ 16 else w
    let b := toBytes 8 q.toNat ++ toBytes 4 w ++ toBytes 4 work.toNat
    (s.recordWrite (s.unitOwner u) at_ b).modUnit u fun x => { x with wcount := x.wcount + 1, lost := false }

/-- The units that take a core's records: of each holder's k claimed units of the partition the (core mod k)-th (R411). -/
def State.unitsFor (s : State) (vf core : Nat) : List Nat :=
  let us := s.unitsOf vf
  ((us.map fun u => (s.unit u).holder).dedup).filterMap fun h =>
    let l := us.filter fun u => (s.unit u).holder == h
    l[core % l.length]?

/-- Write the trace record of an event of a traced grid (R411, Table 20.2). -/
def State.trace (s : State) (core slot : Nat) (team : Nat) (work : DWord) (seq : Bool) (ev : TraceEv) : State :=
  match s.gridOfTeam team with
  | none => s
  | some g =>
    if g.lr.flags % 2 = 0 || !s.ctxLive g.ctx || ((s.part? g.vf).map (·.reexec)).getD false then s
    else
      let ivl := ((s.part? g.vf).map fun p => p.interval.toNat % 16).getD 0
      let w := core * 2 ^ 23 + (if seq then 0 else slot) * 2 ^ 18 + ivl * 2 ^ 12 + ev.kind * 2 ^ 10 +
        (if ev.deferred then 2 ^ 9 else 0) + (if seq then 2 ^ 8 else 0) + ev.entry * 2 ^ 4 + ev.aux
      s.each (s.unitsFor g.vf core) fun s u => s.unitRecord u ev.mask w (work.setWidth 32)

/-- Trace events of one warp in order. -/
def State.traceAll (s : State) (core slot : Nat) (l : List TraceEv) : State :=
  match s.warp? core slot with
  | none => s
  | some w => s.each l fun s ev => s.trace core slot w.team w.workcnt false ev

/-! ## Dumps -/

/-- One section of a dump: header with the number of uncorrectable words, and data (R418). -/
def dumpSection (kind index code bad : Nat) (data : List Byte) : List Byte :=
  toBytes 1 kind ++ toBytes 2 index ++ toBytes 1 code ++ toBytes 4 0 ++ toBytes 4 data.length ++ toBytes 4 bad ++ data

/-- A section of words, each with its address and whether it is uncorrectable: such a word is dumped as 0 (R417). -/
def dumpWords (kind index code : Nat) (l : List (Nat × Word × Bool)) : List Byte :=
  dumpSection kind index code (l.filter (·.2.2)).length (l.flatMap fun x => toBytes 8 x.1 ++ toBytes 4 (if x.2.2 then 0 else x.2.1.toNat))

/-- Resident teams of a context: index and team. -/
def State.teamsOf (s : State) (ctx : Nat) : List (Nat × Team) :=
  s.teams.filter fun kt => s.ctxIdOfTeam kt.1 == ctx

/-- A split table (Tables 2.2, 2.3) as bytes. -/
def Warp.splitBytes (w : Warp) : List Byte :=
  (w.entries.flatMap fun x => toBytes 1 x.1 ++ toBytes 8 x.2.mask.toNat ++ toBytes 8 x.2.pc.toNat ++ toBytes 8 (x.2.rpc.getD 0).toNat ++
    toBytes 2 x.2.age ++ toBytes 1 (x.2.parent.getD 31) ++
    toBytes 1 (match x.2.st with | .free => 0 | .run => 1 | .parked => 2 | .join => 3)) ++
  w.deferrals.flatMap fun r => toBytes 1 r.owner ++ toBytes 8 r.m.toNat ++ toBytes 8 r.p.toNat ++ toBytes 8 r.bpc.toNat ++ toBytes 8 r.jpc.toNat

/-- Barrier state of a team (Table 10.3) as bytes. -/
def Team.barBytes (t : Team) : List Byte :=
  (List.range 16).flatMap fun b =>
    let x := t.bar b
    toBytes 2 x.gen.toNat ++ toBytes 2 x.arrived ++ toBytes 2 x.expected ++ toBytes 1 (if x.mism then 1 else 0) ++
      toBytes 1 (if x.abandon then 1 else 0) ++ toBytes 8 x.waitCnt ++ x.pend.flatMap fun y => toBytes 2 y.1 ++ toBytes 2 y.2.toNat

/-- The other registers of a warp (Table 3.1): flags, transaction state, counters and trap registers, as bytes. -/
def Warp.specialBytes (w : Warp) : List Byte :=
  toBytes 2 w.warpid ++ toBytes 8 w.launched.toNat ++ toBytes 8 w.exited.toNat ++ toBytes 1 w.fpflags.toNat ++
    w.txstat.flatMap (fun x => toBytes 1 x.1 ++ toBytes 4 x.2.toNat) ++ toBytes 8 w.workcnt.toNat ++ toBytes 2 w.cntStore ++
    w.ops.flatMap (fun o => toBytes 1 o.1) ++
    ([w.trap.cause, w.trap.opc, w.trap.d, w.trap.a, w.trap.b, w.trap.c, w.trap.e].flatMap fun x => toBytes 4 x.toNat) ++
    [w.trap.pc, w.trap.mod, w.trap.imm, w.trap.mask].flatMap fun x => toBytes 8 x.toNat

/-- A team's sequencer registers and its reuse latch, as sections (Table 3.1, R61). -/
def State.seqSections (s : State) (core : Nat) (t : Team) : List (List Byte) :=
  (t.seq.toList.map fun q => dumpSection 15 core 10 0 ((List.range 8).flatMap (fun i => toBytes 4 (q.k.get 0 i).toNat) ++
    toBytes 8 q.pc.toNat ++ toBytes 1 q.live.toNat ++ (List.range 16).flatMap fun b => toBytes 2 (t.bar b).sgen.toNat)) ++
  t.latch.toList.map fun l => dumpSection 15 core 11 0 (((s.slabs.find? l.slab).bind (·.data)).getD [] |>.flatMap fun x => toBytes 2 x.1 ++ toBytes 4 x.2.toNat)

/-- The sections of what the teams of a context hold (R417). The spec names the memories taken; their order and the layout
of their data are open (assumption 20). -/
def State.teamSections (s : State) (ctx : Nat) : List (List Byte) :=
  (s.teamsOf ctx).flatMap fun kt =>
    let core := kt.1 / 8
    let hive := s.hive (hiveOfCore core)
    ((kt.2.slots.filterMap (s.warp? core)).flatMap fun w =>
      [dumpSection 15 core 1 0 (w.vregs.flatMap (fun x => toBytes 4 x.2.toNat) ++ w.sregs.flatMap (fun x => toBytes 8 x.2.toNat) ++
        w.preds.flatMap (fun x => toBytes 8 x.2.toNat) ++ w.specialBytes), dumpSection 15 core 5 0 w.splitBytes]) ++
    [dumpSection 15 core 2 0 kt.2.barBytes] ++ s.seqSections core kt.2 ++
    (kt.2.rename.filterMap id).map (fun t =>
      let x := (s.core core).tile t
      dumpWords 15 core 3 (x.data.map fun y => (y.1, y.2, x.poison.contains y.1))) ++
    kt.2.cells.flatMap fun c =>
      [dumpWords 16 (hiveOfCore core) 4 ((hive.comb.filter fun x => x.1 / 8192 == c).map fun x =>
          (x.1, x.2, hive.poison.contains x.1 || decide (2 ≤ Tab.get hive.err 0 x.1))),
       dumpSection 16 (hiveOfCore core) 6 0 ((hive.exps.filter fun x => x.1 / 2048 == c).flatMap fun x =>
          toBytes 2 x.1 ++ toBytes 4 (BitVec.ofInt 32 x.2.ew).toNat ++ toBytes 1 (if x.2.nan then 1 else 0) ++ toBytes 1 x.2.ty)]

/-- The sections of a partition's caches and engines: L1 words of its cores, L2 words in its ways, and its words in its completion
counter banks (R417). -/
def State.cacheSections (s : State) (vf : Nat) : List (List Byte) :=
  let cores := (s.cores.filter fun c => ((s.part? vf).map (·.hives.contains (hiveOfCore c.1))).getD false)
  let ours := s.l2.filter fun x => s.frameOwner (x.1 / 64) == vf
  let slice (wa : Nat) : Nat := sliceIx (4 * wa)
  let banks := ((s.part? vf).map (·.compMask)).getD 0
  (cores.map fun c => dumpWords 15 c.1 7 (c.2.l1.map fun x => (x.1, x.2.data, x.2.poison || decide (2 ≤ x.2.err)))) ++
  ((ours.map fun x => slice x.1).dedup.map fun k =>
    dumpWords 3 k 8 ((ours.filter fun x => slice x.1 == k).map fun x => (x.1, x.2.data, x.2.poison || decide (2 ≤ x.2.err)))) ++
  (List.range 4).map fun d => dumpWords 17 d 9 ((s.sync.filter fun x => homeDie (4 * x.1) == d && banks.testBit (syncBank x.1) && s.frameOwner (x.1 / 64) == vf).map fun x =>
    (x.1, x.2.data, x.2.poison || decide (2 ≤ x.2.err)))

/-- The longest run of whole sections within a size. -/
def takeSections : List (List Byte) → Nat → List Byte × Bool
  | [], _ => ([], false)
  | x :: l, room => if x.length ≤ room then let r := takeSections l (room - x.length); (x ++ r.1, r.2) else ([], true)

/-- A list cut or filled with zeros to a length. -/
def fitTo (n : Nat) (l : List Byte) : List Byte := l.take n ++ List.replicate (n - l.length) 0

/-- Write a context's dump through a trace unit (R417, R418). An area too small for header and tag, or one whose rows do
not all take the write, gets nothing (R115, assumption 83). -/
def State.dump (s : State) (unit vf ctx cause : Nat) : State :=
  let u := s.unit unit
  match (s.part? vf).bind fun p => (p.keys.find? u.key).map fun k => (p, k) with
  | none => s.log vf cause 0 false 7 s.mgmtCore 0xFF
  | some (p, key) =>
    let seq := p.dumpSeq.get 0 u.key
    let nonce := toBytes 1 vf ++ toBytes 1 u.key ++ [0, 0] ++ toBytes 8 seq
    let body := takeSections (s.teamSections ctx ++ s.cacheSections vf) (u.dumpsize.toNat - 80)
    let hdr := [1, 0, 0, 0] ++ toBytes 1 vf ++ toBytes 1 u.key ++ toBytes 1 cause ++ toBytes 1 (ctx % 64) ++ toBytes 8 seq ++
      toBytes 8 s.vclock.toNat ++ nonce ++ toBytes 8 body.1.length ++ toBytes 1 (if body.2 then 1 else 0) ++ List.replicate 19 0
    -- a ciphertext as long as its plaintext, and a 16-byte tag
    let out := hdr ++ fitTo (body.1.length + 16) (Config.aesGcmSeal key nonce hdr body.1)
    if u.dumpsize.toNat < 80 then s
    else if !s.mayWrite vf u.dumpbase.toNat out.length then s.logPhys vf causeRowDenied u.dumpbase.toNat none 7 s.mgmtCore 0
    else
    let s := s.recordWrite vf u.dumpbase.toNat out
    let s := s.modPart vf fun p => { p with dumpSeq := p.dumpSeq.set 0 u.key (seq + 1) }
    s.modUnit unit fun u => { u with dumplen := BitVec.ofNat 64 out.length }

/-! ## Releasing what a team holds -/

/-- The team slot of a team on its hive, 0-31 (Table 5.6). -/
def hiveTeamSlot (team : Nat) : Nat := team / 8 % 4 * 8 + team % 8

/-- Mark cells' contents undefined (R41, R295, R119). -/
def Hive.undefine (h : Hive) (cells : List Nat) : Hive :=
  { h with
    comb := h.comb.filter fun x => !cells.contains (x.1 / 8192)
    poison := h.poison.filter fun x => !cells.contains (x / 8192)
    err := h.err.filter fun x => !cells.contains (x.1 / 8192)
    undef := cells ++ h.undef.filter fun c => !cells.contains c
    start := h.start.map fun t => t.filter fun x => !cells.contains (x.1 / 8192) }

/-- Release a team's comb allocation and the regions it owns (R119, R378). -/
def State.releaseComb (s : State) (team : Nat) (t : Team) : State :=
  s.modHive (hiveOfCore (team / 8)) fun h =>
    ({ h with
        regions := h.regions.filter fun r => !(r.2.owner == hiveTeamSlot team && r.2.gen == t.gen)
        exps := h.exps.filter fun x => !t.cells.contains (x.1 / 2048) } : Hive).undefine t.cells

/-- Release a thread's or a warp's solo grant (R286). -/
def State.releaseSolo (s : State) (vf : Nat) (p : Nat × Nat × Nat → Bool) : State :=
  (s.modPart vf fun q => { q with
    soloHolder := q.soloHolder.filter fun h => !p h
    soloWait := q.soloWait.filter fun h => !p h }).drainEngine

/-! ## Transactions at their homes (R283, R286) -/

/-- The TXSTAT of an abort (R284). -/
def txAborted (st : Word) (reason : Nat) : Word :=
  let n := bitsOf st.toNat 15 8
  BitVec.ofNat 32 ((if n = 255 then 255 else n + 1) * 256 + bitsOf st.toNat 7 7 * 128 + reason)

/-- Mark a thread's transaction lost with a reason, its sets discarded, its TXSTAT updated: it leaves for its handler when the `txend`
completes. -/
def Warp.loseTx (w : Warp) (t reason : Nat) : Warp := { w with
  tx := w.tx.modify t fun y => { y with commit := none, lost := reason, reads := [], writes := [] }
  txstat := w.txstat.set 0 t (txAborted (w.txstat.get 0 t) reason) }

/-- What an acquire at a scope by a warp does with what its read carried: the warp's floor and its acquire stamp rise, and L1
drops what T makes old, where the scope reaches past the core (R88, R345, Table 10.7). T is that of the writes read, whatever their
scopes (R275). -/
def State.acquire (s : State) (core slot scope : Nat) (got : List RelInfo) : State :=
  match s.warp? core slot with
  | none => s
  | some w =>
    let s := s.setWarp core slot { w with
      floor := max w.floor (floorOf got core slot w.team scope)
      acqT := (maxStamp (some w.acqT) (stampOf got)).getD 0 }
    match stampOf got with
    | some t => if scope < 3 then s else s.acquireL1 core t
    | none => s

/-- A warp's next accesses come after what had taken effect by a home clock. -/
def State.raiseFloor (s : State) (core slot clk : Nat) : State := s.modWarp core slot fun w => { w with floor := max w.floor clk }

/-- What a release at a scope by a thread carries: its own information and that of its earlier release fences (R344, R346). -/
def State.releaseInfo (s : State) (core slot thread scope : Nat) : List RelInfo :=
  match s.warp? core slot with
  | none => []
  | some w =>
    let own := if scope = 0 then [] else [(⟨some w.ackT, max w.floor (s.core core).wtime, core, slot, w.team, scope⟩ : RelInfo)]
    joinRel (Tab.get w.relT [] thread) own

/-- Stores or atomics of a warp have written words at their homes: the core's clock of writes, and what `fence.mem` waits
for (Table 10.7). -/
def State.wroteWords (s : State) (core slot : Nat) (was : List Nat) : State :=
  let s := s.modCore core fun c => { c with wtime := s.homeClk }
  if 32 ≤ slot then s else s.modWarp core slot fun w =>
    { w with wrote := (was.filter fun a => decide (a < 2 ^ 37) && !s.inDram a).map (fun a => (a, s.homeClk)) ++
        w.wrote.filter fun y => !was.contains y.1 }

/-- The homes refuse a commit (R283): some word read no longer holds the value read, or a solo attempt has locked a word. -/
def State.txStale (s : State) (vf : Nat) (me : Nat × Nat × Nat) (tx : Tx) : Bool :=
  let locked := s.lockedBy vf (some me)
  !tx.solo && ((tx.reads.any fun r => r.bytes != 0 && (let h := s.homeWord r.addr; h.2 || h.1 != r.data)) ||
    (tx.reads ++ tx.writes).any fun r => locked.contains r.addr)

/-- The homes install a commit's write set as one event (R283), each of its bytes as an atomic would (R348). -/
def State.txInstall (s : State) (core slot vf : Nat) (tx : Tx) (rel : List RelInfo) : State :=
  let rel := rel.map fun i => { i with floor := max i.floor (s.homeClk + tx.writes.length) }
  let s := s.each tx.writes fun s r => s.homeWriteLogged vf r.addr r.data r.bytes rel true ⟨0, core, none, 0⟩
  (s.pastL1 core (tx.writes.map (·.addr))).wroteWords core slot (tx.writes.map (·.addr))

/-- Validate and commit a thread's transaction, or abort it with REASON 2 (R283); none when a row denies the write. The commit
acquires from every byte that it reads or writes (R344, R348). -/
def State.commitTx (s : State) (core slot thread : Nat) : Option State :=
  match s.warp? core slot with
  | none => some s
  | some w =>
    match w.tx.find? thread with
    | none => some s
    | some tx =>
      let vf := s.vfOfTeam w.team
      let s := s.each (tx.reads ++ tx.writes) fun s r => s.touch vf r.addr
      let ack (s : State) : State := s.modWarp core slot fun w => { w with cntStore := w.cntStore - 1 }
      if s.txStale vf (core, slot, thread) tx then some (ack (s.modWarp core slot fun w => w.loseTx thread 2))
      else if tx.writes.any fun r => !s.rowOk vf (4 * r.addr) true false then none
      else
        let got := (tx.reads ++ tx.writes).foldl (fun l r => joinRel l (s.relOf r.addr r.bytes)) []
        let s := s.acquire core slot 5 got
        let s := s.txInstall core slot vf tx (s.releaseInfo core slot thread 5)
        let s := s.modWarp core slot fun w => { w with
          tx := w.tx.erase thread
          ackT := if w.ackT.toNat < s.vclock.toNat then s.vclock else w.ackT
          txstat := w.txstat.set 0 thread (w.txstat.get 0 thread &&& ~~~(0xFF00#32)) }
        some (ack (s.releaseSolo vf fun h => h == (core, slot, thread)))

/-- The homes validate a commit of an ended context: installed, or dropped (R283, R287). -/
def State.commitOrphan (s : State) (o : Orphan) : State :=
  let s := { s with orphans := s.orphans.erase o }
  let s := s.each (o.tx.reads ++ o.tx.writes) fun s r => s.touch o.vf r.addr
  if s.txStale o.vf (o.core, o.slot, o.thread) o.tx then s.drainEngine
  else match o.tx.writes.find? fun r => !s.rowOk o.vf (4 * r.addr) true false with
    | some r => (s.logFault o.vf o.core ⟨causeRowDenied, maskOf [o.thread], r.va, some (4 * r.addr)⟩ 0).drainEngine
    | none => (s.txInstall o.core 32 o.vf o.tx o.rel).drainEngine

/-! ## Tiles of other contexts (18 R384) -/

/-- The team of a core that has taken a FOREIGN tile. -/
def State.taker (s : State) (core tile : Nat) : Option Nat :=
  (List.range 8).findSome? fun i => match s.team? (teamIx core i) with
    | some t => if t.rename.contains (some tile) || (t.seq.bind (·.spill)) == some tile then some (teamIx core i) else none
    | none => none

/-- The spill of a FOREIGN tile is asked for: the newest request of a die's context-save engine (R384). -/
def State.askSpill (s : State) (core tile : Nat) : State :=
  { s with spillQ := s.spillQ.filter (· ≠ (core, tile)) ++ [(core, tile)] }

/-- Give a tile, zeroed, to a team, or with what a restored team has to reload into it. -/
def State.handTile (s : State) (core tile team ctx : Nat) : State :=
  let x := (((s.team? team).map (·.reload)).bind fun t => Tab.find? t tile).getD Tile.zero
  let s := s.modTile core tile fun _ => { x with st := .bound, team := team, ctx := ctx }
  { s.modTeam team fun t => { t with reload := t.reload.erase tile } with spillQ := s.spillQ.filter (· ≠ (core, tile)) }

/-- A warp of a replay partition has ended in the interval: its place and WORKCNT are kept (R416). -/
def State.noteGone (s : State) (core slot : Nat) : State :=
  match s.warp? core slot with
  | none => s
  | some w => s.modPart (s.vfOfTeam w.team) fun p =>
      if p.replay && !w.killed then { p with gone := (core, slot, s.ctxIdOfTeam w.team, w.workcnt) :: p.gone } else p

/-- Retire a team from its core: warps, registers, tiles, barriers, comb (R42). -/
def State.removeTeam (s : State) (team : Nat) (t : Team) : State :=
  let core := team / 8
  let s := s.each t.slots fun s k => s.noteGone core k
  let s := s.releaseComb team t
  let s := s.each (List.range 24) fun s k => s.modTile core k fun x => if x.team = team && x.st != .foreign then Tile.zero else x
  { s with
    -- comb stores that a quantum still holds go with the comb
    stores := s.stores.filter fun x => !(decide (2 ^ 60 ≤ x.2.pa) && x.2.team == team)
    warps := s.warps.filter fun x => !(x.1 / 32 == core && t.slots.contains (x.1 % 32))
    stalls := s.stalls.filter fun y => !(y.core == core && if y.entry = 16 then teamIx core y.slot == team else t.slots.contains y.slot)
    teams := s.teams.erase team }

/-- End the screen of a team or its shadow: the shadow leaves its core (R372). -/
def State.endScreen (s : State) (team : Nat) : State :=
  match (s.team? team).bind (·.screen) with
  | none => s
  | some x =>
    let real := if x.shadow then x.other else some team
    let shadow := if x.shadow then some team else x.other
    let s := match real with
      | some r => s.modTeam r fun t => { t with screen := none }
      | none => s
    match shadow.bind fun k => (s.team? k).map fun t => (k, t) with
    | none => s
    | some (k, t) =>
      let ours (core slot : Nat) : Bool := k / 8 == core && t.slots.contains slot
      let s := { s with
        loads := s.loads.filter fun y => !ours y.2.core y.2.slot
        pend := s.pend.filter fun y => !ours y.2.core y.2.slot
        stores := s.stores.mapVals fun y => if ours y.core y.slot then { y with slot := 32 } else y
        posted := s.posted.filter fun y => y.2.team != k
        slabs := s.slabs.filter fun y => y.2.team != k }
      s.removeTeam k t

/-! ## The kill of a warp -/

/-- R373: the kill of a warp for a cause, at a PC and address. -/
def State.killWarp (s : State) (core slot : Nat) (f : FaultInfo) (pc : DWord) : State :=
  match s.warp? core slot with
  | none => s
  | some w =>
    let vf := s.vfOfTeam w.team
    let ctx := s.ctxIdOfTeam w.team
    let counter := ((s.gridOfTeam w.team).map (·.lr.counter)).getD 0
    let s := (s.noteGone core slot).releaseSolo vf fun h => h.1 == core && h.2.1 == slot
    let s := s.setWarp core slot { w with
      killed := true, entries := [], deferrals := [], vregs := [], sregs := [], preds := [], tx := w.tx.filter fun y => y.2.commit.isSome, windows := [],
      handler := none, heldTraps := [], stopWord := [], stopVals := [], ops := [], cntStore := 0, workcnt := 0 }
    let s := { s with
      loads := s.loads.filter fun x => !(x.2.core == core && x.2.slot == slot)
      pend := s.pend.filter fun x => !(x.2.core == core && x.2.slot == slot) }
    let s := s.modTeam w.team fun t => (List.range 16).foldl (fun t b =>
      t.setBar b { t.bar b with abandon := true, pend := (t.bar b).pend.filter fun x => x.1 / 64 != w.warpid }) t
    let s := s.ewErrorOn ctx vf (namedCounter counter) f.cause (seenBit f.cause)
    let s := s.logFault vf core f pc
    s.log vf causeAbandoned 0 false 0 core pc

/-! ## The kill of a stove (15 R334) -/

/-- Close the rows a stove holds on its channel, each once tRAS has passed (R337, R431). -/
def State.closeRows (s : State) (k : Nat) (banks : List Nat) : State :=
  s.each banks fun s b => s.each (List.range 16) fun s sl =>
    let ix := sliceBank (k / 32) (k % 32) sl b
    match s.openRows.find? ix with
    | none => s
    | some o => if o.stove then { s with
        openRows := s.openRows.erase ix
        prechargeAt := s.prechargeAt.put ix (max s.dclk (o.at_ + 80)) } else s

/-- A stove is at work. -/
def Stove.busy (x : Stove) : Bool := x.st == .running || x.st == .suspended || x.st == .loaded

/-- Its queues are discarded; words left in them set QDROP (R332). -/
def Stove.discard (x : Stove) : Stove :=
  { x with dataQ := [], writeQ := [], buffer := none, rows := [], qdrop := x.qdrop || !x.dataQ.isEmpty || !x.writeQ.isEmpty }

/-- End a stove as by `nkill` (R334): registers, queues and rows go. -/
def State.killStove (s : State) (k : Nat) : State :=
  let x := s.stove k
  let s := s.closeRows k (x.rows.map (·.1))
  let s := s.setStove k { x.discard with st := .killed, apc := 0, xpc := 0, ag := [], xg := [], bt := [] }
  match namedCounter x.counter with
  | none => s
  | some c => s.ewKilled x.ctx x.vf c

/-! ## The end of a context -/

/-- Remove a grid and its ranges from every queue. -/
def State.dropGrids (s : State) (p : Nat → Bool) : State :=
  let keep (l : List Range) : List Range := l.filter fun r => !p r.grid
  { s with
    grids := s.grids.filter fun g => !p g.1
    screens := s.screens.filter fun y => !p y.grid
    pkgQ := s.pkgQ.mapVals keep
    dieQ := s.dieQ.mapVals keep
    parts := s.parts.mapVals fun x => { x with returned := keep x.returned, pool := x.pool.filter fun g => !p g } }

/-- R370: end a context with a cause; a fault dumps it (R417). `st` is the state the context is left in. What it had issued goes on
as of no warp, and its grids' counters follow that. -/
def State.endContext (s : State) (ctx cause : Nat) (st : CtxState) : State :=
  match s.ctx? ctx with
  | none => s
  | some c =>
    let s := s.modCtx ctx fun c => { c with st := st, cause := cause }
    let s := if st != .faulted then s else s.each (s.unitsOf c.vf) fun s u => if (s.unit u).onfault then s.dump u c.vf ctx cause else s
    let ts := s.teamsOf ctx
    let gs := s.grids.filter fun g => g.2.ctx == ctx
    let left := ts.flatMap fun kt => kt.2.slots.flatMap fun k => match s.warp? (kt.1 / 8) k with
      | none => []
      | some w => (w.tx.filter fun y => y.2.commit.isSome).map fun y =>
          (⟨kt.1 / 8, k, y.1, kt.1, ctx, c.vf, y.2, s.releaseInfo (kt.1 / 8) k y.1 5⟩ : Orphan)
    let ours (core slot : Nat) : Bool := ts.any fun t => t.1 / 8 == core && t.2.slots.contains slot
    let claims := s.cores.flatMap fun c => c.2.tiles.filterMap fun t =>
      if t.2.ctx == ctx && t.2.st == TileState.foreign then (s.taker c.1 t.1).map fun k => (c.1, t.1, k) else none
    let mine (team : Nat) : Bool := ts.any fun t => t.1 == team
    let s := { s with
      loads := s.loads.filter fun x => x.2.ctx != ctx
      pend := s.pend.filter fun x => !ours x.2.core x.2.slot
      stores := s.stores.mapVals fun x => if x.slot < 64 && (ours x.core x.slot || mine x.team) then { x with slot := 64 + ctx, team := 2 ^ 20 } else x
      atomics := s.atomics.mapVals fun x => if x.slot < 64 && (ours x.core x.slot || mine x.team) then { x with slot := 64 + ctx, team := 2 ^ 20 } else x
      orphans := s.orphans ++ left
      hives := s.hives.mapVals fun h => { h with copy := h.copy.mapVals fun q => q.filter fun o => o.ctx != ctx }
      coll := s.coll.mapVals fun l => l.filter fun o => o.ctx != ctx
      hearths := s.hearths.mapVals fun h => { h with
        queue := h.queue.filter fun q => q.ctx != ctx
        nred := h.nred.filter fun n => n.cmd.ctx != ctx }
      posted := s.posted.filter fun x => !mine x.2.team
      slabs := s.slabs.filter fun x => !mine x.2.team
      gathers := s.gathers.filter fun x => !mine x.2.team
      cores := s.cores.mapVals fun x => { x with tiles := x.tiles.filterVals fun (t : Tile) => !(t.ctx == ctx && t.st != TileState.free) } }
    let s := s.each ((s.stoves.filter fun x => x.2.ctx == ctx && x.2.busy).map (·.1)) State.killStove
    let s := s.each ts fun s t => s.removeTeam t.1 t.2
    -- a tile that another team waits to have spilled has nothing left to save: the team has it, zeroed (R68)
    let s := s.each claims fun s y => s.handTile y.1 y.2.1 y.2.2 (s.ctxIdOfTeam y.2.2)
    let s := s.modCtx ctx fun c => { c with saved := [] }
    let s := s.releaseSolo c.vf fun h => (s.warp? h.1 h.2.1).isNone
    let s := s.each gs fun s g =>
      match namedCounter g.2.lr.counter with
      | none => s
      | some k => (s.endUpdate ctx g.2.vf k (.error cause (12 :: seenBit cause)) noParty).endUpdate ctx g.2.vf k (.add g.2.lr.increment.toNat) g.2.release
    s.dropGrids fun g => gs.any fun x => x.1 == g

/-- A context fault (R370): the cause is logged, and the context ends and refuses records until it is reset. -/
def State.contextFault (s : State) (ctx vf core : Nat) (f : FaultInfo) (pc : DWord) : State :=
  (s.logFault vf core f pc).endContext ctx f.cause .faulted

end Sys2Proof.Machine
end

