-- ==== Sys2Proof/Machine/Ops.lean ====
section
/-! DEFINITION. The operations every vector-stream instruction shares: the issuer and its operands, reading a line for a target's BT
bit (09 R181, R436), taking a trap and returning from one (18 R368, R369; 03 R66; 10 R210, R211), completion, and the
order of checks at issue (09 R195). -/

namespace Sys2Proof.Machine

/-! ## The issuer -/

/-- A fragment at the issue of an instruction. -/
structure Ctx where
  core : Nat
  slot : Nat
  entry : Nat
  pc : DWord
  word : BitVec 96
  role : PairRole
  upset : Nat
  w : Warp
  e : Entry
  f : Form
  team : Nat
  gctx : Nat
  vf : Nat
  lr : LaunchRec
  act : DWord

/-- The fragment's MASK. -/
def Ctx.mask (x : Ctx) : DWord := x.e.mask
/-- U is set. -/
def Ctx.u (x : Ctx) : Bool := x.f.hdr.u
/-- The nominal clock at issue (R196). -/
def Ctx.now (x : Ctx) : Nat := x.e.nclk
/-- The read offset of a thread's elements (R197). -/
def Ctx.off (x : Ctx) (t : Nat) : Nat := if x.u || x.f.cross then 0 else t / 16
/-- The next sequential PC. -/
def Ctx.next (x : Ctx) : DWord := nextPc x.pc

/-- Active: the threads whose guards hold; with U set the whole MASK or none, by the lowest thread (R187, R28). A cross-lane
instruction reads its operands at offset 0, its guards at offset t / 16 as any other (R242, assumption 112). -/
def activeOf (w : Warp) (e : Entry) (h : Hdr) : DWord :=
  if h.u then
    match lowestOf e.mask with
    | none => 0
    | some t => if guardHolds h fun i => w.read (.p i t) e.nclk != 0 then e.mask else 0
  else maskWhere fun t => e.mask.getLsbD t && guardHolds h fun i => w.read (.p i t) (e.nclk + t / 16) != 0

/-- The fragment is inside an instruction that has issued and is evaluated again (R228). -/
def Wait.again : Wait → Bool
  | .none => false
  | .hold _ => false
  | .held => false
  | .yield _ => false
  | .stopped => false
  | _ => true

/-- A warp as its waiting instruction reads it: the elements that it has read keep the value they had at its issue (R200). -/
def Warp.asRead (w : Warp) (entry : Nat) : Warp :=
  if !(w.entry entry).wait.again then w
  else (Tab.get w.stopVals [] entry).foldl (fun w r => { w.setFile r.elem r.val with windows := w.windows.filter fun y => y.elem != r.elem }) w

/-- The issuing fragment named in `State.cur`, if it is one that can issue. -/
def State.issuer (s : State) (i : Instr) : Option Ctx :=
  match s.cur with
  | .frag core slot entry pc word role upset =>
    match (s.warp? core slot).map fun w => w.asRead entry with
    | none => none
    | some w =>
      match s.gridOfTeam w.team with
      | none => none
      | some g =>
        let e := w.entry entry
        if e.st = .run then
          some ⟨core, slot, entry, pc, word, role, upset, w, e, form i, w.team, g.ctx, g.vf, g.lr, activeOf w e (form i).hdr⟩
        else none
  | _ => none

/-! ## Reading operands -/

/-- A vector element. -/
def Ctx.v (x : Ctx) (r t : Nat) : Word := (x.w.read (.v r t) (x.now + x.off t)).setWidth 32
/-- A scalar register; s63 reads 0. -/
def Ctx.s (x : Ctx) (r : Nat) : DWord := x.w.read (.s r) x.now
/-- The scalar a code 0xC0-0xFF names. -/
def Ctx.scal (x : Ctx) (code : BitVec 8) : DWord := x.s (code.toNat - 0xC0)
/-- A predicate of a thread. -/
def Ctx.p (x : Ctx) (i t : Nat) : Bool := x.w.read (.p i t) (x.now + x.off t) != 0
/-- A 32-bit operand (R55, R231). -/
def Ctx.op32 (x : Ctx) (code : BitVec 8) (t : Nat) : Word :=
  if 0xC0 ≤ code.toNat then (x.scal code).setWidth 32 else x.v code.toNat t
/-- A wide operand (R232). -/
def Ctx.op64 (x : Ctx) (code : BitVec 8) (t : Nat) : DWord :=
  if 0xC0 ≤ code.toNat then x.scal code else x.v (code.toNat + 1) t ++ x.v code.toNat t
/-- The threads an instruction computes for: Active, or one for the fragment with U set. -/
def Ctx.threads (x : Ctx) : List Nat :=
  if x.u then (if x.act = 0 then [] else (lowestOf x.mask).toList) else threadsOf x.act

/-! ## Writing results -/

/-- A 32-bit result: widened into a scalar by R56. -/
def put32 (d : BitVec 8) (t : Nat) (v : Word) (signed : Bool) : RegWrite :=
  if 0xC0 ≤ d.toNat then ⟨.s (d.toNat - 0xC0), if signed then v.signExtend 64 else v.setWidth 64⟩ else ⟨.v d.toNat t, v.setWidth 64⟩
/-- A 64-bit result: a scalar, or a pair (R232). -/
def put64 (d : BitVec 8) (t : Nat) (v : DWord) : List RegWrite :=
  if 0xC0 ≤ d.toNat then [⟨.s (d.toNat - 0xC0), v⟩]
  else [⟨.v d.toNat t, (v.setWidth 32).setWidth 64⟩, ⟨.v (d.toNat + 1) t, v >>> 32⟩]
/-- A predicate result (R237, R57). -/
def putP (d : BitVec 8) (t : Nat) (b : Bool) : RegWrite := ⟨.p (d.toNat % 8) t, if b then 1 else 0⟩
/-- A scalar result. -/
def putS (d : BitVec 8) (v : DWord) : RegWrite := ⟨.s (d.toNat - 0xC0), v⟩

/-- The slot of an element's write-back (R197). -/
def Elem.slotIx : Elem → Nat
  | .v _ t => t / 16
  | .p _ t => t / 16
  | .s _ => 0

/-- Write fixed-latency results. -/
def State.commit (s : State) (x : Ctx) (ws : List RegWrite) : State :=
  s.modWarp x.core x.slot fun w => ws.foldl (fun w r =>
    w.writeFixed r.elem r.val x.now (x.f.latency + if x.u then 0 else r.elem.slotIx)) w
/-- Write interlocked results. -/
def State.writeBack (s : State) (core slot : Nat) (ws : List RegWrite) : State :=
  s.modWarp core slot fun w => ws.foldl (fun w r => w.writeBack r.elem r.val) w
/-- OR flags into FPFLAGS (R63). -/
def State.orFlags (s : State) (x : Ctx) (f : BitVec 5) : State :=
  s.modWarp x.core x.slot fun w => { w with fpflags := w.fpflags ||| f }

/-! ## Lines and targets -/

/-- The line at an address as a fetch of the core sees it: its address is translated (R436), and the words come from the
instruction cache, else from the homes (R183). -/
def State.lineAt (s : State) (core ctx vf : Nat) (line : DWord) : Except Nat (BitVec 512) :=
  match (s.resolve core ctx line .fetch).1 with
  | .error c => .error c
  | .ok x =>
    match (s.core core).icache.find? fun l => l.1 = ctx && l.2.1 = line.toNat with
    | some l => .ok l.2.2
    | none =>
      if x.host then .ok (BitVec.ofNat 512 (ofBytes (Memory.readN s.hostMem x.pa 64)))
      else match s.readPhys vf x.pa 64 with
        | .error c => .error c
        | .ok b => .ok (BitVec.ofNat 512 (ofBytes b))

/-- Why a checked target fails (R181, R436); none when it may be taken. -/
def State.targetCause (s : State) (core ctx vf : Nat) (pc : DWord) : Option Nat :=
  if !pcShapeOk pc then some causeBadTarget
  else match s.lineAt core ctx vf (lineOf pc) with
    | .error c => some c
    | .ok l => if (lineWord l).getLsbD (27 + slotOf pc) then none else some causeBadTarget

/-! ## Traps -/

/-- Operations per class (Table 9.7). -/
def classOps : List Nat := [12, 11, 29, 9, 8, 4, 12, 8, 11, 6, 12, 6, 5, 15, 5, 3]

/-- Body format of an opcode: 0 V, 1 I, 2 M, 3 J, 4 C, 5 S; V for an unassigned point (R66). -/
def bodyFormat (opc : Nat) : Nat :=
  let c := opc / 64
  let o := opc % 64
  if classOps.getD c 0 ≤ o then 0
  else match c with
    | 0x0 => if o = 1 || o = 3 then 3 else if o = 9 || o = 10 then 1 else 0
    | 0x1 => if o ≤ 6 then 1 else 0
    | 0x2 => if 0x15 ≤ o && o ≤ 0x19 then 1 else 0
    | 0xA => 2
    | 0xB => if o ≤ 2 then 2 else if o = 3 then 3 else 0
    | 0xD => if o = 9 || o = 10 then 3 else if o = 11 then 1 else 4
    | 0xE => if o = 0 then 2 else 0
    | 0xF => 5
    | _ => 0

/-- The trap registers of an instruction word (Table 3.7); all but cause, PC and mask are zero when no word was read. -/
def trapRegs (cause : Nat) (pc : DWord) (word : BitVec 96) (mask : DWord) (noWord : Bool) : TrapRegs :=
  let b := bodyOf word
  let f8 (l : Nat) : Word := (b.extractLsb' l 8).setWidth 32
  let base : TrapRegs := { TrapRegs.zero with cause := BitVec.ofNat 32 cause, pc := pc, mask := mask }
  if noWord then base
  else
    let base := { base with opc := word.extractLsb' 64 32 }
    match bodyFormat (opcOf word).toNat with
    | 1 => { base with d := f8 56, a := f8 48, mod := (b.extractLsb' 0 16).setWidth 64, imm := (b.extractLsb' 16 32).signExtend 64 }
    | 2 => { base with d := f8 56, a := f8 48, b := f8 40, c := f8 32, mod := (b.extractLsb' 0 8).setWidth 64,
                       imm := (b.extractLsb' 8 24).signExtend 64 }
    | 3 => { base with d := (b.extractLsb' 32 3).setWidth 32, a := (b.extractLsb' 0 3).setWidth 32,
                       mod := (b.extractLsb' 3 29).signExtend 64, imm := (b.extractLsb' 35 29).signExtend 64 }
    | 5 => { base with d := f8 56, mod := (b.extractLsb' 0 40).setWidth 64, imm := (b.extractLsb' 40 16).setWidth 64 }
    | _ => { base with d := f8 56, a := f8 48, b := f8 40, c := f8 32, e := f8 24, mod := (b.extractLsb' 0 24).setWidth 64 }

/-- Routes of Table 18.1 for a party of a warp: 0 User, 1 System, 2 Kill, 3 Context. What a hearth finds makes `gred` trap (R324):
its own statement governs (R1, assumption 103). -/
def routeOf (cause : Nat) (gred : Bool) : Nat :=
  if cause = causePageFault || cause = causePagePerm then 1
  else if cause = causeMismatch || (cause = causeUncorr && !gred) then 2
  else if cause = causeRowDenied || cause = causeUncorr then (if gred then 0 else 3)
  else if cause ≤ causeSplitDepth || cause = causeAlign || cause = causeCombBounds || cause = causeCombSealed || cause = causeDepth then 0
  else 3

/-- The trap registers are in use: a handler runs or a System hold stands (R66, R369). -/
def Warp.trapBusy (w : Warp) : Bool :=
  w.handler.isSome || w.entries.any fun x => match x.2.wait with
    | .hold _ => true
    | _ => false

/-- Enter the user trap handler (R210): trap registers are written, the PC becomes the handler PC checked under R181,
AGE becomes 0 and every window closes; MASK, RPC and registers stay. A bad handler PC makes a context fault. That the
instruction was a branch under re-execution is kept for `tret` (R33). -/
def State.enterHandler (s : State) (core slot entry : Nat) (regs : TrapRegs) : State :=
  match s.warp? core slot with
  | none => s
  | some w =>
    match s.gridOfTeam w.team with
    | none => s
    | some g =>
      if g.lr.handler = 0 || (s.targetCause core g.ctx g.vf g.lr.handler).isSome then s.endContext g.ctx regs.cause.toNat .faulted
      else
        let e := w.entry entry
        s.setWarp core slot (({ w with trap := regs, handler := some (entry, e.mask), handlerRe := e.reexec } : Warp).closeWindows.setEntry entry
          { e with pc := g.lr.handler, nclk := e.clockDue, age := 0, satAt := none, wait := .none, handler := true, seqd := false, reexec := false, paired := none })

/-- Hold a fragment for the system handler (R369): trap registers are written, the function is signalled. -/
def State.systemHold (s : State) (core slot entry : Nat) (regs : TrapRegs) : State :=
  match s.warp? core slot with
  | none => s
  | some w =>
    let s := s.setWarp core slot (({ w with trap := regs } : Warp).setEntry entry
      { w.entry entry with wait := .hold regs.cause.toNat })
    s.signal (s.vfOfTeam w.team) (((s.ctx? (s.ctxIdOfTeam w.team)).map (·.vector)).getD 0)

/-- A fault of a refused activate that has no physical address came from a page walk: it has that of the entry (R107, R115). -/
def State.withDenied (s : State) (core ctx : Nat) (f : FaultInfo) : FaultInfo :=
  if f.cause = causeRowDenied && f.pa.isNone && f.va != 0 then { f with pa := s.walkDenied (dieOfCore core) ctx f.va } else f

/-- Take a trap for entry `entry` at `pc`: the one operation of every fault of a warp's instruction (R368). The
instruction has had no effect. Inside a handler it is a context fault; behind a running handler or a System hold it
waits (R66). `noWord`: the line could not be fetched (R436). -/
def State.takeTrap (s : State) (core slot entry : Nat) (pc : DWord) (word : BitVec 96) (noWord gred : Bool) (f : FaultInfo) : State :=
  match s.warp? core slot with
  | none => s
  | some w =>
    let vf := s.vfOfTeam w.team
    let ctx := s.ctxIdOfTeam w.team
    let route := routeOf f.cause gred
    if route = 2 then s.killWarp core slot f pc
    else
      let s := s.logFault vf core (s.withDenied core ctx f) pc
      if route = 3 || (w.entry entry).handler then s.endContext ctx f.cause .faulted
      else if w.trapBusy then
        s.setWarp core slot (({ w with heldTraps := w.heldTraps ++ [⟨entry, pc, f.cause, f.mask, word, noWord⟩] } : Warp).setEntry entry
          { w.entry entry with wait := .held })
      else
        let regs := trapRegs f.cause pc word f.mask noWord
        if route = 1 then s.systemHold core slot entry regs else s.enterHandler core slot entry regs

/-- Release the trap registers; the oldest held trap of the warp enters (R66, R211). -/
def State.nextHeldTrap (s : State) (core slot : Nat) : State :=
  match s.warp? core slot with
  | none => s
  | some w =>
    match w.heldTraps with
    | [] => s
    | h :: l =>
      let s := s.setWarp core slot { w with heldTraps := l }
      let regs := trapRegs h.cause h.pc h.word h.mask h.fetch
      if routeOf h.cause false = 1 then s.systemHold core slot h.entry regs else s.enterHandler core slot h.entry regs

/-- End the handler of a warp: its fragments are ordinary again, windows close, and the next held trap enters
(R211, R207, R199). -/
def State.endHandler (s : State) (core slot : Nat) : State :=
  (s.modWarp core slot fun w => ({ w with
    handler := none, handlerRe := false, entries := w.entries.mapVals fun e => { e with handler := false } } : Warp).closeWindows).nextHeldTrap core slot

/-! ## Completion -/

/-- What the effect of an instruction answers to its issue. -/
inductive Eff where
  /-- a trap; the instruction has had no effect -/
  | trap (f : FaultInfo)
  /-- complete; the fragment continues at the next slot -/
  | done (s : State)
  /-- complete with a transfer of control (R32): next PC by thread, the taken threads, the reconvergence PC; `keep`
  for an abort -/
  | jump (s : State) (np : Nat → DWord) (taken : DWord) (recon : Option DWord) (keep : Bool)
  /-- complete; the whole fragment continues at a PC (`cyield`) -/
  | goto (s : State) (c : DWord)
  /-- complete; a fragment that then still runs stands aside (`yield`) -/
  | stand (s : State) (k : Wait)
  /-- complete; the fragment then runs the user's handler no more: `f` is applied last -/
  | after (s : State) (f : State → State)
  /-- uncompleted: the fragment waits (R228) -/
  | wait (s : State) (w : Wait)
  /-- uncompleted: the fragment stalls at a full queue or counter and will issue the instruction again (R103) -/
  | stall (s : State)
  /-- the fragment has ended without completing (a kill, the end of the context, a handler entered another way) -/
  | stop (s : State)

/-- A fault without an address. -/
def plain (cause : Nat) (mask : DWord) : FaultInfo := ⟨cause, mask, 0, none⟩

/-- The instruction is `gred` (Table 15.1). -/
def Ctx.isGred (x : Ctx) : Bool := (opcOf x.word).toNat == 14 * 64

/-- Trap the issuing fragment. -/
def State.trapAt (s : State) (x : Ctx) (f : FaultInfo) : State :=
  s.takeTrap x.core x.slot x.entry x.pc x.word false x.isGred f

/-- Completion of an instruction of a fragment (R128, R196, R37): counts, the nominal clock, AGE. The second of a pair
follows at the same opportunity (R184). -/
def State.advance (s : State) (x : Ctx) : State :=
  let stall := x.f.hdr.stall.toNat
  let adv := match x.role with
    | .alone => 1 + stall
    | .first _ => 0
    | .second st => 1 + max st stall
  let replay := ((s.part? x.vf).map (·.replay)).getD false
  let s := s.modWarp x.core x.slot fun w => ({ w with
    workcnt := w.workcnt + 1
    quantum := if replay then w.quantum + 1 else w.quantum } : Warp).modEntry x.entry fun e =>
      { e with
        nclk := e.nclk + adv, age := 0, satAt := none, wait := .none, yld := x.f.hdr.yld
        paired := match x.role with
          | .first _ => some stall
          | _ => none }
  let s := s.countPerf x.vf 8
  match x.role with
  | .first _ => { s with agenda := .second x.core x.slot x.entry x.upset :: s.agenda }
  | _ => s

/-- Apply the checks before the next fetch (R31, R33), with their trace records. -/
def State.settleWarp (s : State) (core slot : Nat) : State :=
  match s.warp? core slot with
  | none => s
  | some w =>
    let r := w.settle
    (s.setWarp core slot r.1.prune).traceAll core slot r.2

/-- Continue at the next slot. -/
def State.fallThrough (s : State) (x : Ctx) : State :=
  (s.advance x).modWarp x.core x.slot fun w => w.modEntry x.entry fun e => { e with pc := x.next, seqd := true, reexec := false }

/-- Carry out a transfer of control, if the split table has room (R32). -/
def State.jump (s : State) (x : Ctx) (np : Nat → DWord) (taken : DWord) (recon : Option DWord) (keep : Bool) : Option State :=
  let s := s.advance x
  match s.warp? x.core x.slot with
  | none => none
  | some w =>
    match w.transfer x.entry x.pc np taken recon keep with
    | none => none
    | some (w', l) =>
      let s := s.setWarp x.core x.slot w'
      some (if x.u then s else s.traceAll x.core x.slot l)

/-- The elements that an instruction reads, guards among them, with what it reads in them. -/
def Ctx.values (x : Ctx) : List RegWrite := (x.f.reads x.mask).map fun r => ⟨r.1, x.w.read r.1 (x.now + r.2)⟩

/-- A fragment that runs on from where its instruction has brought it goes on at another PC. -/
def State.goOn (s : State) (x : Ctx) (c : DWord) : State :=
  s.modWarp x.core x.slot fun w => w.modEntry x.entry fun e => { e with pc := c, seqd := false }

/-- The fragment stands aside, if it still runs (R208). -/
def State.standAside (s : State) (x : Ctx) (k : Wait) : State :=
  s.modWarp x.core x.slot fun w => w.modEntry x.entry fun e => if e.st == EntryState.run && e.mask != 0 then { e with wait := k } else e

/-- Put the fragment into a wait. -/
def State.waitIn (s : State) (x : Ctx) (entry : Nat) (k : Wait) : State :=
  s.modWarp x.core x.slot fun w =>
    ({ w with stopWord := w.stopWord.put entry x.word, stopVals := w.stopVals.put entry x.values } : Warp).modEntry entry fun e => { e with wait := k }

/-- Finish an instruction whose effect is known. -/
def finish (x : Ctx) (s : State) (r : Eff) : State :=
  match r with
  | .trap f => s.trapAt x f
  | .done s' => (s'.fallThrough x).settleWarp x.core x.slot
  | .jump s' np taken recon keep =>
    match s'.jump x np taken recon keep with
    | none => s.trapAt x (plain causeSplitDepth x.mask)
    | some s'' => s''.settleWarp x.core x.slot
  | .goto s' c => ((s'.fallThrough x).goOn x c).settleWarp x.core x.slot
  | .stand s' k => ((s'.fallThrough x).settleWarp x.core x.slot).standAside x k
  | .after s' f => (f (s'.fallThrough x)).settleWarp x.core x.slot
  | .wait s' k => s'.waitIn x x.entry k
  | .stall s' => s'
  | .stop s' => s'

/-! ## Transactions at issue (R282, R284) -/

/-- Abort the open transactions of threads with a reason: discarded, closed, TXSTAT updated, the solo grant released. -/
def State.abortTx (s : State) (core slot : Nat) (m : DWord) (reason : Nat) : State :=
  let vf := ((s.warp? core slot).map fun w => s.vfOfTeam w.team).getD 0
  let s := s.modWarp core slot fun w => (threadsOf m).foldl (fun w t =>
    match w.tx.find? t with
    | none => w
    | some _ => { w with tx := w.tx.erase t, txstat := w.txstat.set 0 t (txAborted (w.txstat.get 0 t) reason) }) w
  s.releaseSolo vf fun h => h.1 == core && h.2.1 == slot && m.getLsbD h.2.2

/-- Threads of a mask with an open transaction. -/
def Warp.inTx (w : Warp) (m : DWord) : DWord := maskWhere fun t => m.getLsbD t && (w.tx.find? t).isSome

/-- Instructions that abort open transactions (R282). -/
def abortsTx (i : Instr) : Bool :=
  let f := form i
  match i with
  | .ld h b => h.u || ctlKind b != 0 || memSize b == 4
  | .st h b => h.u || ctlKind b != 0 || memSize b == 4
  | .ldc _ _ => false
  | .lds _ _ => false
  | .sts _ _ => false
  | .ldl _ _ => false
  | .stl _ _ => false
  | .txbeg _ _ => false
  | .txend _ _ => false
  | .txabt _ _ => false
  | .glaunch _ _ => true
  | .gwait _ _ => true
  | .sysc _ _ => true
  | .trap _ _ => true
  | _ => f.cls = 1 || f.cls = 10 || f.cls = 11 || f.cls = 12 || f.cls = 14

/-- The handler a thread's abort goes to, and the recorded reconvergence PC. -/
def Warp.abortPc (w : Warp) (t : Nat) (other : DWord) : DWord := ((w.tx.find? t).map (·.handler)).getD other
def Warp.abortRecon (w : Warp) (m : DWord) : Option DWord := (lowestOf m).bind fun t => (w.tx.find? t).map (·.recon)

/-- Run an instruction whose issue aborts the transactions of `ab`: those threads leave for their handlers, and it
executes for the others as if they alone had issued it (R282). Where the others trap, wait or stall, the transfer of those
that left is itself counted in WORKCNT (assumption 101). -/
def runAborting (x : Ctx) (s : State) (ab : DWord) (eff : Ctx → State → Eff) : State :=
  let s1 := s.abortTx x.core x.slot ab 6
  let rest := x.act &&& ~~~ab
  let recon := x.w.abortRecon ab
  let leave (s2 : State) (other : DWord) : State :=
    match s2.jump x (fun t => if ab.getLsbD t then x.w.abortPc t other else other) 0 recon true with
    | none => s.trapAt x (plain causeSplitDepth x.mask)
    | some s3 => s3
  let after (s2 : State) (f : State → Nat → State) : State :=
    let s3 := leave s2 x.pc
    match (s3.warp? x.core x.slot).bind fun w => (lowestOf rest).bind w.entryOf with
    | none => s3
    | some e => f s3 e
  if rest = 0 then (leave s1 x.next).settleWarp x.core x.slot
  else match eff { x with act := rest, e := { x.e with mask := x.e.mask &&& ~~~ab } } s1 with
    | .done s2 => (leave s2 x.next).settleWarp x.core x.slot
    | .jump s2 _ _ _ _ => (leave s2 x.next).settleWarp x.core x.slot
    | .goto s2 c => (leave s2 c).settleWarp x.core x.slot
    | .stand s2 _ => (leave s2 x.next).settleWarp x.core x.slot
    | .after s2 _ => (leave s2 x.next).settleWarp x.core x.slot
    | .trap f => after s1 fun s3 e => s3.takeTrap x.core x.slot e x.pc x.word false x.isGred f
    | .wait s2 k => after s2 fun s3 e => s3.waitIn x e k
    | .stall s2 => after s2 fun s3 _ => s3
    | .stop s2 => s2

/-! ## Issue -/

/-- The pair that names slot a of a line's PAIR field (Table 9.2). -/
def pairLower (pair a : Nat) : Bool :=
  match pair with
  | 1 => a == 0
  | 2 => a == 1
  | 3 => a == 2
  | 4 => a == 3
  | 5 => a == 0 || a == 2
  | 6 => a == 1 || a == 3
  | _ => false

/-- The instruction in the slot after a PC of the same line. -/
def State.partner (s : State) (core ctx vf : Nat) (pc : DWord) : Option Instr :=
  match s.lineAt core ctx vf (lineOf pc) with
  | .error _ => none
  | .ok l => decodeStream (slotWord l (slotOf pc + 1))

/-- The pair rule checked at a (R195 step 8). -/
def Ctx.pairBad (x : Ctx) (i : Instr) (s : State) : Bool :=
  match x.role with
  | .first _ => match s.partner x.core x.gctx x.vf x.pc with
    | some j => pairForbidden i j
    | none => false
  | _ => false

/-- SCHK.EN is set and an operand has not been written back (R195 step 9, R199). -/
def Ctx.shortStall (x : Ctx) (s : State) : Bool :=
  ((s.ctx? x.gctx).map (·.schk)).getD false && (x.f.reads x.mask).any fun r => x.w.stale r.1 (x.now + r.2)

/-- Instructions that raise no trap after step 6 of R195 (R276). -/
def lateSilent (i : Instr) : Bool :=
  match i with
  | .pf _ _ => true
  | _ => false

/-- The trap of steps 4 to 9 of R195, if any; a prefetch traps at no step after 6 (R276), its pair's own rule excepted
(assumption 80). -/
def Ctx.checkIssue (x : Ctx) (i : Instr) (s : State) : Option Nat :=
  if !(if lateSilent i then x.f.bodyOk x.lr else x.f.ok x.lr) || x.pairBad i s then some causeReserved
  else if !lateSilent i && x.shortStall s then some causeStallShort
  else none

/-- The two passes of the instruction's unit disagree for good (R371): the second attempt mismatched too. -/
def Ctx.mismatch (x : Ctx) (i : Instr) : Bool := x.f.unit i != .ctl && decide (2 ≤ x.upset)

/-- R371: one disagreement is repaired and counted. -/
def State.countUpset (s : State) (x : Ctx) (i : Instr) : State :=
  if x.f.unit i != .ctl && x.upset != 0 then s.countRes x.vf 15 x.core 5 else s

/-- Instructions whose issue ends the redundancy screen of their team (R372). -/
def endsScreen (i : Instr) : Bool :=
  match i with
  | .glaunch _ _ => true
  | .gwait _ _ => true
  | .sysc _ _ => true
  | _ => (form i).cls = 11 || (form i).cls = 12 || (form i).cls = 14

/-- Steps 4 to 10 of R195 for an instruction of a fragment. -/
def issueAt (i : Instr) (s : State) (eff : Ctx → State → Eff) (x : Ctx) : State :=
  match x.checkIssue i s with
  | some c => s.trapAt x (plain c x.mask)
  | none =>
    let s := s.countUpset x i
    let s := if endsScreen i && ((s.team? x.team).bind (·.screen)).isSome then s.endScreen x.team else s
    if (s.warp? x.core x.slot).isNone then s
    else if x.mismatch i then s.killWarp x.core x.slot (plain causeMismatch x.mask) x.pc
    else
      let ab := if abortsTx i then x.w.inTx x.act else 0
      if ab = 0 then finish x s (eff x s) else runAborting x s ab eff

/-- Change a team's sequencer. -/
def State.modSeq (s : State) (ix : Nat) (f : Sequencer → Sequencer) : State :=
  s.modTeam ix fun t => { t with seq := t.seq.map f }

/-- R374: uncorrectable data end a sequencer as at `mend`; no warp is killed. -/
def State.seqPoison (s : State) (ix : Nat) (pc : DWord) (f : FaultInfo) : State :=
  let vf := s.vfOfTeam ix
  let ctx := s.ctxIdOfTeam ix
  let counter := ((s.gridOfTeam ix).map (·.lr.counter)).getD 0
  let s := s.modSeq ix fun q => { q with ended := true }
  let s := s.modTeam ix fun t => (List.range 16).foldl (fun t b => t.setBar b { t.bar b with abandon := true }) t
  let s := s.ewErrorOn ctx vf (namedCounter counter) causeUncorr (seenBit causeUncorr)
  match f.pa with
  | some pa => s.logPhys vf causeUncorr pa (some f.va) 1 (ix / 8) pc
  | none => s.log vf causeUncorr f.va (f.va != 0) 1 (ix / 8) pc

/-- A trap of a matrix sequencer never enters the user handler: it is a context fault, but for UNCORR_DATA (R368, R374). -/
def State.seqTrap (s : State) (core team : Nat) (pc : DWord) (f : FaultInfo) : State :=
  let ix := teamIx core team
  let vf := s.vfOfTeam ix
  if f.cause = causeUncorr then s.seqPoison ix pc f
  else
    let s := match f.pa with
      | some pa => s.logPhys vf f.cause pa (some f.va) 1 core (detailOf f.cause f.mask pc)
      | none => s.log vf f.cause f.va (f.va != 0) 1 core (detailOf f.cause f.mask pc)
    s.endContext (s.ctxIdOfTeam ix) f.cause .faulted

/-- The issue of a vector-stream instruction by the agent in `State.cur`; a sequencer that fetched it traps
ILLEGAL_OPC (R194). -/
def issue (i : Instr) (s : State) (eff : Ctx → State → Eff) : Host.Outcome State Fault Refusal :=
  match s.cur with
  | .seq core team pc _ => .next ({ s with cur := .none }.seqTrap core team pc (plain causeIllegal 0))
  | _ =>
    match s.issuer i with
    | none => .fault .noIssuer
    | some x => .next (issueAt i { s with cur := .none } eff x)

/-! ## Full queues (R103, R105) -/

/-- The producer still stalls: its fragment is RUN at the instruction, or its sequencer, entry 16, is. -/
def State.stalls? (s : State) (y : Stall) : Bool :=
  if y.entry = 16 then (((s.team? (teamIx y.core y.slot)).bind (·.seq)).map fun q => !q.ended && q.pc == y.pc).getD false
  else ((s.warp? y.core y.slot).map fun w => let e := w.entry y.entry; e.st == .run && e.mask != 0 && e.pc == y.pc).getD false

/-- No producer has stalled at the queue for longer: it may proceed when there is room. -/
def State.firstAt (s : State) (y : Stall) : Bool :=
  match s.stalls.find? fun z => z.queue == y.queue && s.stalls? z with
  | none => true
  | some z => z == y

/-- A producer begins to stall. -/
def State.stallAt (s : State) (y : Stall) : State :=
  let l := s.stalls.filter s.stalls?
  { s with stalls := if l.contains y then l else l ++ [y] }

/-- It stalls no more. -/
def State.unstall (s : State) (y : Stall) : State := { s with stalls := s.stalls.filter (· != y) }

/-- The issuing fragment as a producer of a queue. -/
def Ctx.producer (x : Ctx) (queue : Nat) : Stall := ⟨queue, x.core, x.slot, x.entry, x.pc⟩

/-- Put work into queues that have room, in its turn, or stall: the oldest stalled producer of a queue proceeds first. -/
def Ctx.enqueue (x : Ctx) (s : State) (queues : List Nat) (room : Bool) (k : State → Eff) : Eff :=
  if room && queues.all fun q => s.firstAt (x.producer q) then k (s.each queues fun s q => s.unstall (x.producer q))
  else .stall (s.each queues fun s q => s.stallAt (x.producer q))

/-! ## Shapes of effects -/

/-- Fixed-latency results and flags. -/
def results (x : Ctx) (s : State) (ws : List RegWrite) (f : BitVec 5) : Eff := .done ((s.commit x ws).orFlags x f)

/-- One 32-bit result per thread. -/
def perThread (x : Ctx) (s : State) (d : BitVec 8) (signed : Bool) (f : Nat → Word) : Eff :=
  results x s (x.threads.map fun t => put32 d t (f t) signed) 0

/-- One 32-bit result and flags per thread. -/
def perThreadF (x : Ctx) (s : State) (d : BitVec 8) (signed : Bool) (f : Nat → Word × BitVec 5) : Eff :=
  let rs := x.threads.map fun t => (t, f t)
  results x s (rs.map fun r => put32 d r.1 r.2.1 signed) (rs.foldl (fun a r => a ||| r.2.2) 0)

/-- One predicate result per thread; with U set, in every thread of MASK (R57). -/
def perThreadP (x : Ctx) (s : State) (d : BitVec 8) (f : Nat → Bool × BitVec 5) : Eff :=
  let rs := x.threads.map fun t => (t, f t)
  let ws := rs.flatMap fun r => if x.u then (threadsOf x.mask).map fun t => putP d t r.2.1 else [putP d r.1 r.2.1]
  results x s ws (rs.foldl (fun a r => a ||| r.2.2) 0)

end Sys2Proof.Machine
end

