-- ==== Sys2Proof/Machine/Control.lean ====
section
/-! DEFINITION. The control class (10 R203 to R211): transfers of control, `exit`, `nop`, `yield`, `brk`, and the way into
and out of the user trap handler. -/

namespace Sys2Proof.Machine

/-! ## Transfers (R203 to R206) -/

/-- The fault of the threads whose target fails, lowest cause first (R181, R436). -/
def targetFault (bad : List (Nat × DWord × Nat)) : Option FaultInfo :=
  match bad.map (·.2.2) with
  | [] => none
  | c :: l =>
    let cause := l.foldl min c
    let lanes := bad.filter fun x => x.2.2 == cause
    some ⟨cause, maskOf (lanes.map (·.1)), if cause = causeBadTarget then 0 else ((lanes.map (·.2.1)).head?).getD 0, none⟩

/-- Threads of Active whose next PC the transfer changes and whose target fails. -/
def Ctx.badTargets (x : Ctx) (s : State) (target : Nat → DWord) : List (Nat × DWord × Nat) :=
  (threadsOf x.act).filterMap fun t =>
    if target t = x.next then none
    else (s.targetCause x.core x.gctx x.vf (target t)).map fun c => (t, target t, c)

/-- The one operation of every transfer: check targets and, whatever Active is, the shape of the reconvergence PC (R203, R206),
write the link, continue, split or defer. -/
def xfer (x : Ctx) (s : State) (target : Nat → DWord) (recon : Option DWord) (checked takenFirst : Bool) (link : List RegWrite) : Eff :=
  match if checked then targetFault (x.badTargets s target) else none with
  | some f => .trap f
  | none =>
    if recon.any (fun r => !pcShapeOk r) then .trap (plain causeBadTarget x.mask)
    else .jump (if x.act = 0 then s else s.writeBack x.core x.slot link)
      (fun t => if x.act.getLsbD t then target t else x.next) (if takenFirst then x.act else 0) recon false

/-- Target and reconvergence PCs of a J-format body (R193). -/
def jTarget (pc : DWord) (b : JBody) : DWord := pcFrom pc b.tdelta.toInt b.tslot.toNat
def jRecon (pc : DWord) (b : JBody) : DWord := pcFrom pc b.rdelta.toInt b.rslot.toNat

/-- The target of `brx` and `callx`: s[B] + Zext(A[t]) (Table 10.2). -/
def Ctx.xTarget (x : Ctx) (a b : BitVec 8) (t : Nat) : DWord := x.scal b + (x.op32 a t).setWidth 64
/-- Their reconvergence PC: s[C], none when C = 0xFF. -/
def Ctx.xRecon (x : Ctx) (c : BitVec 8) : Option DWord := if c = 0xFF then none else some (x.scal c)

def execBra (h : Hdr) (b : JBody) (s : State) : Host.Outcome State Fault Refusal :=
  issue (.bra h b) s fun x s => xfer x s (fun _ => jTarget x.pc b) (some (jRecon x.pc b)) true true []

def execBrx (h : Hdr) (b : VBody) (s : State) : Host.Outcome State Fault Refusal :=
  issue (.brx h b) s fun x s => xfer x s (x.xTarget b.a b.b) (x.xRecon b.c) true false []

def execCall (h : Hdr) (b : JBody) (s : State) : Host.Outcome State Fault Refusal :=
  issue (.call h b) s fun x s => xfer x s (fun _ => jTarget x.pc b) (some (jRecon x.pc b)) true true [⟨.s 62, x.next⟩]

def execCallx (h : Hdr) (b : VBody) (s : State) : Host.Outcome State Fault Refusal :=
  issue (.callx h b) s fun x s =>
    xfer x s (x.xTarget b.a b.b) (x.xRecon b.c) true false ((threadsOf x.act).flatMap fun t => put64 b.d t x.next)

def execRet (h : Hdr) (b : VBody) (s : State) : Host.Outcome State Fault Refusal :=
  issue (.ret h b) s fun x s => xfer x s (x.op64 b.a) none true false []

def execJoin (h : Hdr) (b : VBody) (s : State) : Host.Outcome State Fault Refusal :=
  issue (.join h b) s fun x s => xfer x s (fun _ => x.e.rpc.getD x.next) none false false []

/-! ## Exit (R207) -/

/-- An interlocked write-back of one of the threads. -/
def RegWrite.ofThread (r : RegWrite) (m : DWord) : Bool :=
  match r.elem with
  | .v _ t => m.getLsbD t
  | .p _ t => m.getLsbD t
  | .s _ => false

/-- Discard the pending interlocked write-backs of threads of a warp. -/
def State.dropPending (s : State) (core slot : Nat) (m : DWord) : State :=
  { s with
    loads := s.loads.mapVals fun l =>
      if l.core == core && l.slot == slot && !l.uni && l.gred.isNone then { l with lanes := l.lanes.filter fun n => !m.getLsbD n.thread } else l
    posted := s.posted.mapVals fun p => match p.op with
      | .mget g => if p.team / 8 == core && ((s.team? p.team).map fun t => t.slots[g.warp]?) == some (some slot)
                   then { p with op := .mget { g with skip := g.skip ||| m } } else p
      | _ => p
    pend := s.pend.mapVals fun p =>
      if p.core == core && p.slot == slot then { p with writes := p.writes.filter fun r => !r.ofThread m } else p
    atomics := s.atomics.mapVals fun a =>
      if a.core == core && a.slot == slot && !a.uni && m.getLsbD a.thread then { a with dst := none } else a }

/-- End threads: their MASK and record bits, transactions and pending results go. -/
def State.endThreads (s : State) (x : Ctx) (m : DWord) : State :=
  let s := s.releaseSolo x.vf fun h => h.1 == x.core && h.2.1 == x.slot && m.getLsbD h.2.2
  let s := s.dropPending x.core x.slot m
  s.modWarp x.core x.slot fun w => ({ w with tx := w.tx.filter fun t => !m.getLsbD t.1 } : Warp).exitThreads x.entry m

/-- No fragment is left in the user trap handler. A handler whose fragment has split goes on while any of its fragments has a
thread left (assumption 111). -/
def Warp.handlerEmpty (w : Warp) : Bool :=
  w.entries.all fun e => !(e.2.handler && (e.2.st == EntryState.run || e.2.st == EntryState.parked) && e.2.mask != 0)

/-- The handler ends as if by `tret` when none of its fragments has a thread left (R207, assumption 111). -/
def State.exitHandler (s : State) (x : Ctx) : State :=
  match s.warp? x.core x.slot with
  | none => s
  | some w => if x.e.handler && w.handlerEmpty then s.endHandler x.core x.slot else s

def execExit (h : Hdr) (b : VBody) (s : State) : Host.Outcome State Fault Refusal :=
  issue (.exit h b) s fun x s => .done (if x.act = 0 then s else (s.endThreads x x.act).exitHandler x)

/-! ## nop, yield, brk -/

def execNop (h : Hdr) (b : VBody) (s : State) : Host.Outcome State Fault Refusal :=
  issue (.nop h b) s fun _ s => .done s

def execYield (h : Hdr) (b : VBody) (s : State) : Host.Outcome State Fault Refusal :=
  issue (.yield h b) s fun x s =>
    if x.act = 0 then .done s
    else .stand s (.yield 64)

/-- The trace unit that has `brk` stops armed for a context (Table 20.1). -/
def State.brkUnit (s : State) (vf ctx : Nat) : Option Nat :=
  (s.unitsOf vf).find? fun u => (s.unit u).brk && (s.unit u).ctx == ctx % 64

/-- Threads pending in deferral records take their handlers for next PCs; a fragment that was to run the branch again for
them runs it without them (R284). -/
def Warp.abortPending (w : Warp) (m : DWord) : Warp :=
  let pending := w.deferrals.foldl (fun p r => p ||| r.p) 0 &&& m
  { w with
    deferrals := w.deferrals.map fun r => { r with np := (threadsOf (r.p &&& m)).foldl (fun l t => Tab.put l t (w.abortPc t r.bpc)) r.np }
    entries := w.entries.mapVals fun e => if e.reexec then { e with mask := e.mask &&& ~~~pending } else e }

/-- A fragment, PARKED ones too, transfers its threads of a mask to their handlers (R284, R285): whatever it waited for it waits
for no more. -/
def State.abortEntry (s : State) (core slot : Nat) (old : Warp) (m : DWord) (e : Nat) : State :=
  match s.warp? core slot with
  | none => s
  | some w =>
    let y := w.entry e
    let k := y.mask &&& m
    if (y.st != EntryState.run && y.st != EntryState.parked) || y.reexec || k = 0 then s
    else
      let held : Bool := match y.wait with
        | .hold _ => true
        | _ => false
      let w := ({ w with heldTraps := w.heldTraps.filter fun h => h.entry != e } : Warp).setEntry e { y with st := .run, wait := .none }
      let s := match w.transfer e y.pc (fun t => if k.getLsbD t then old.abortPc t y.pc else y.pc) 0 (old.abortRecon k) true with
        | some (v, l) => (s.setWarp core slot v).traceAll core slot l
        | none => s.takeTrap core slot e y.pc 0 true false (plain causeSplitDepth y.mask)
      if held then s.nextHeldTrap core slot else s

/-- Abort open transactions of a warp between instructions: each thread resumes at its handler, whether it runs, waits at its
reconvergence point or is pending in a deferral record (R285, R286). -/
def State.abortInPlace (s : State) (core slot : Nat) (m : DWord) (reason : Nat) : State :=
  match s.warp? core slot with
  | none => s
  | some w =>
    let s := (s.abortTx core slot m reason).modWarp core slot fun v => { v with
      deferrals := (w.abortPending m).deferrals
      entries := (w.abortPending m).entries }
    (s.each (List.range 16) fun s e => s.abortEntry core slot w m e).settleWarp core slot

/-- Halt a context (R379): open transactions abort with REASON 7, and no fragment of it is selected. A commit already
sent to validation completes (R287). -/
def State.haltContext (s : State) (ctx : Nat) : State :=
  let s := s.modCtx ctx fun c => { c with st := if c.st = .live then .halting else c.st }
  s.each (s.teamsOf ctx) fun s kt => s.each kt.2.slots fun s slot =>
    match s.warp? (kt.1 / 8) slot with
    | none => s
    | some w =>
      let open_ := maskOf ((w.tx.filter fun y => y.2.commit.isNone && y.2.lost == 0).map (·.1))
      if open_ = 0 then s else s.abortInPlace (kt.1 / 8) slot open_ 7

/-- A precise stop (R416): STOPPED, a record in the management log, and the halt of the context. -/
def State.stopAt (s : State) (unit vf core ctx : Nat) (detail : DWord) : State :=
  let s := s.modUnit unit fun u => { u with stopped := true }
  let s := s.logMgmt ⟨s.vclock, 0, 0, 0, core, vf, 0, detail⟩
  s.haltContext ctx

/-- `brk`; where some of its Active threads have an open transaction it is `nop` for all (R209, R282, assumption 111). -/
def execBrk (h : Hdr) (b : VBody) (s : State) : Host.Outcome State Fault Refusal :=
  issue (.brk h b) s fun x s =>
    match s.brkUnit x.vf x.gctx with
    | some u =>
      if x.act != 0 && x.e.wait != .stopped && (x.w.inTx x.act) = 0 then
        .stop ((s.waitIn x x.entry .stopped).stopAt u x.vf x.core x.gctx ((b.mod.extractLsb' 0 8).setWidth 64))
      else .done s
    | none => .done s

/-! ## The user trap handler (R210, R211) -/

def execTrap (h : Hdr) (b : IBody) (s : State) : Host.Outcome State Fault Refusal :=
  issue (.trap h b) s fun x s => if x.act = 0 then .done s else .trap (plain causeSoftTrap x.mask)

/-- `tret` may end the handler: its fragment runs it with the MASK of its entry, the mode is 0 or 1 and there is no
guard. -/
def Ctx.tretOk (x : Ctx) (h : Hdr) (b : IBody) : Bool :=
  x.w.handler == some (x.entry, x.mask) && decide (b.imm.toNat ≤ 1) && h.g1 == 7 && h.g2 == 7 && !h.gm

/-- The fragment leaves the handler for a PC. Of a branch that trapped under re-execution, mode 1 executes it again as such, and
mode 0 lets the group fall through, so that it is pending no more (R33, R211). -/
def Warp.leaveHandler (w : Warp) (entry : Nat) (mode : Nat) : Warp :=
  let m := (w.entry entry).mask
  let w := if w.handlerRe && mode = 0 then w.changeNewest entry fun r => some { r with p := r.p &&& ~~~m } else w
  w.modEntry entry fun e =>
    { e with pc := if mode = 0 then nextPc w.trap.pc else w.trap.pc, seqd := false, reexec := w.handlerRe && mode != 0 }

def execTret (h : Hdr) (b : IBody) (s : State) : Host.Outcome State Fault Refusal :=
  issue (.tret h b) s fun x s =>
    if !x.tretOk h b then .trap (plain causeReserved x.mask)
    else .after s fun s => (s.modWarp x.core x.slot fun w => w.leaveHandler x.entry b.imm.toNat).endHandler x.core x.slot

end Sys2Proof.Machine
end

