-- ==== Sys2Proof/Machine/Sync.lean ====
section
/-! DEFINITION. The synchronisation class but for child grids (10 R212 to R222): numbered barriers, `drain`, fences, `owait`,
`cwait` and `cyield`. -/

namespace Sys2Proof.Machine

/-! ## Barrier state (R212 to R217) -/

/-- The status of Table 10.4. -/
def barStatus (gen : BitVec 16) (arrived expected : Nat) (aband mism ovr noarr : Bool) : DWord :=
  BitVec.ofNat 64 (gen.toNat + arrived * 2 ^ 16 + expected * 2 ^ 27 + (if aband then 2 ^ 40 else 0) + (if mism then 2 ^ 41 else 0) +
    (if ovr then 2 ^ 42 else 0) + (if noarr then 2 ^ 43 else 0))

/-- Status(current). -/
def Barrier.current (b : Barrier) : DWord := barStatus b.gen b.arrived b.expected b.abandon b.mism false false

/-- Status(b) kept at a release: NOARR and ABANDONED are 0. -/
def Barrier.released (b : Barrier) : DWord :=
  barStatus b.gen b.arrived b.expected false b.mism (decide (b.expected < b.arrived)) false

/-- Release(b): the status is kept for threads that have still to wait on the generation. -/
def Barrier.release (b : Barrier) : Barrier :=
  { b with
    done := (b.gen, b.released) :: b.done.filter fun d => b.pend.any fun p => p.2 == d.1
    gen := b.gen + 1, arrived := 0, expected := 0, mism := false, waitCnt := 0 }

/-- The arrival of R214: `size` arrivals by the threads `lin`, count `c` (0: the team's launched threads), and whether
it releases. -/
def Barrier.arrive (b : Barrier) (launched c size : Nat) (lin : List Nat) : Barrier × Bool :=
  let want := if c = 0 then launched else c
  let b1 : Barrier :=
    if b.arrived = 0 && b.expected = 0 then { b with expected := want }
    else if want != b.expected then { b with mism := true }
    else b
  let b2 : Barrier := { b1 with
    arrived := min (b1.arrived + size) 2047
    pend := lin.foldl (fun p t => Tab.put p t b1.gen) b1.pend }
  if b2.expected ≤ b2.arrived then (b2.release, true) else (b2, false)

/-- Arrive for a team, with the trace records of R411. What happens before the arrival has taken effect by home clock `clk`. -/
def State.arrive (s : State) (team bar c size : Nat) (lin : List Nat) (slot entry : Nat) (mask : DWord) (work : DWord) (seq : Bool) (clk : Nat) : State :=
  match s.team? team with
  | none => s
  | some t =>
    let core := team / 8
    let old := t.bar bar
    let r := old.arrive t.threads c size lin
    let s := s.modTeam team fun t => t.setBar bar { r.1 with floor := max old.floor clk }
    let s := s.trace core slot team work seq ⟨2, false, entry, bar, mask⟩
    if r.2 then
      let st := ((r.1.done.head?).map (·.2)).getD 0
      s.trace core slot team work seq ⟨3, false, entry, bar, st⟩
    else s

/-- Linear thread numbers of threads of a warp (R39). -/
def Warp.linear (w : Warp) (m : DWord) : List Nat := (threadsOf m).map fun t => 64 * w.warpid + t

/-- Fragment arrival with Active. -/
def State.arriveActive (s : State) (x : Ctx) (operand : Nat) : State :=
  s.arrive x.team (operand % 16) (operand / 16 % 2048) (countOf x.act) (x.w.linear x.act) x.slot x.entry x.act (x.w.workcnt + 1) false x.w.floor

/-- W of R215: the threads that have arrived and not waited since. -/
def Barrier.waiting (b : Barrier) (lin : List Nat) : List Nat := lin.filter fun t => (b.pend.find? t).isSome

/-- The wait of R215 is over. -/
def Barrier.ready (b : Barrier) (lin : List Nat) : Bool :=
  b.abandon || (b.waiting lin).all fun t => Tab.get b.pend 0 t != b.gen

/-- How far back a generation lies from the present one. -/
def Barrier.back (b : Barrier) (g : BitVec 16) : Nat := (b.gen - g).toNat

/-- The result of a wait that returns, and the barrier after it. -/
def Barrier.finishWait (b : Barrier) (lin : List Nat) : DWord × Barrier :=
  let w := b.waiting lin
  match w with
  | [] => (b.current ||| 0x80000000000, b)
  | t0 :: _ =>
    let gens := w.map fun t => Tab.get b.pend 0 t
    let newest := gens.foldl (fun n g => if b.back g < b.back n then g else n) (Tab.get b.pend 0 t0)
    let status (g : BitVec 16) : DWord :=
      if g = b.gen then b.current else ((b.done.find? fun d => d.1 = g).map (·.2)).getD 0
    let flags := gens.foldl (fun f g => f ||| (status g &&& 0x70000000000)) 0
    let aband : DWord := if b.abandon then 0x10000000000 else 0
    (status newest ||| flags ||| aband, { b with pend := b.pend.filter fun p => !w.contains p.1 })

/-- The barrier an instruction of a fragment names. -/
def State.barOf (s : State) (x : Ctx) (bar : Nat) : Barrier := ((s.team? x.team).map fun t => t.bar bar).getD Barrier.start

/-- Close the stall windows of the issuing warp (R199). -/
def State.closeWin (s : State) (x : Ctx) : State := s.modWarp x.core x.slot Warp.closeWindows

/-- Wait at a barrier in which the arrival has been made, or return its status. The warp's stall windows close as the wait
returns (R199, assumption 110). -/
def barWaitEff (x : Ctx) (s : State) (d : BitVec 8) (bar : Nat) : Eff :=
  let b := s.barOf x bar
  let lin := x.w.linear x.act
  if b.ready lin then
    let r := b.finishWait lin
    .done ((((s.modTeam x.team fun t => t.setBar bar r.2).raiseFloor x.core x.slot b.floor).writeBack x.core x.slot [putS d r.1]).closeWin x)
  else .wait s (.bar bar)

def execBarArrive (h : Hdr) (b : IBody) (s : State) : Host.Outcome State Fault Refusal :=
  issue (.barArrive h b) s fun x s => .done (if x.act = 0 then s else s.arriveActive x b.imm.toNat)

def execBarWait (h : Hdr) (b : IBody) (s : State) : Host.Outcome State Fault Refusal :=
  issue (.barWait h b) s fun x s => if x.act = 0 then .done s else barWaitEff x s b.d (b.imm.toNat % 16)

def execBarSync (h : Hdr) (b : IBody) (s : State) : Host.Outcome State Fault Refusal :=
  issue (.barSync h b) s fun x s =>
    if x.act = 0 then .done s
    else
      let bar := b.imm.toNat % 16
      barWaitEff x (if x.e.wait = .bar bar then s else s.arriveActive x b.imm.toNat) b.d bar

def execBarQuery (h : Hdr) (b : IBody) (s : State) : Host.Outcome State Fault Refusal :=
  issue (.barQuery h b) s fun x s =>
    if x.act = 0 then .done s
    else
      let y := s.barOf x (b.imm.toNat % 16)
      let none_ : DWord := if (y.waiting (x.w.linear x.act)).isEmpty then 0x80000000000 else 0
      .done (s.writeBack x.core x.slot [putS b.d (y.current ||| none_)])

/-! ## drain, fence, owait (R218 to R220) -/

def execDrain (h : Hdr) (b : IBody) (s : State) : Host.Outcome State Fault Refusal :=
  issue (.drain h b) s fun x s =>
    if x.act = 0 then .done s
    else if x.w.cntStore != 0 then .wait s .drain
    else .done ((if b.imm.getLsbD 15 then s else s.arriveActive x b.imm.toNat).closeWin x)

/-- The number of a release at `.dev` or wider bounds the stores that a later copy follows (R310). -/
def State.noteRelease (s : State) (core slot scope : Nat) : State :=
  if scope < 5 then s else s.modWarp core slot fun w => { w with fenced := s.nextId }

/-- Release half of a fence (Table 10.7): later stores of Active carry T. -/
def State.fenceRel (s : State) (x : Ctx) (scope : Nat) : State :=
  (s.modWarp x.core x.slot fun w => { w with
    relT := (threadsOf x.act).foldl (fun r t => Tab.put r t (s.releaseInfo x.core x.slot t scope)) w.relT }).noteRelease x.core x.slot scope

/-- Acquire half of a fence (Table 10.7): T is the largest stamp that values returned to the warp's loads have carried. -/
def State.fenceAcq (s : State) (x : Ctx) (scope : Nat) : State :=
  let s := s.acquire x.core x.slot scope x.w.got
  if scope < 3 then s else s.acquireL1 x.core x.w.acqT

/-- The condition a fence waits for: kind 0 `.rel`, 1 `.acq`, 2 `.ar`; scope 7 is `.mem`, which first notes the words that it
waits for. -/
def Warp.fenceReady (w : Warp) (entry kind scope : Nat) : Bool :=
  (kind == 1 || decide (scope < 3) || w.cntStore == 0) && (scope != 7 || (Tab.get w.owed [] entry).isEmpty)

def execFence (h : Hdr) (b : IBody) (s : State) : Host.Outcome State Fault Refusal :=
  issue (.fence h b) s fun x s =>
    let kind := b.mod.toNat % 4
    let scope := b.mod.toNat / 4 % 8
    if x.act = 0 then .done s
    else if !x.w.fenceReady x.entry kind scope then .wait s .fence
    else if scope = 7 && (x.w.owed.find? x.entry).isNone && !x.w.wrote.isEmpty then
      .wait (s.modWarp x.core x.slot fun w => { w with owed := w.owed.put x.entry w.wrote }) .fence
    else
      let wide := if scope = 7 then 5 else scope
      let s := if kind = 1 then s else s.fenceRel x wide
      let s := if kind = 0 then s else s.fenceAcq x wide
      .done (s.modWarp x.core x.slot fun w => { w with owed := w.owed.erase x.entry })

/-- The outstanding counter of a class code: 0 COPY, 1 MATRIX, 2 GATHER, 3 COLL (R123, R220). -/
def Warp.counter (w : Warp) (cls : Nat) : Nat := (w.ops.filter fun y => y.1 == cls).length

/-- An accepted operation counts on a warp. -/
def Warp.pushOp (w : Warp) (cls id : Nat) : Warp := { w with ops := w.ops ++ [(cls, id, false)] }

/-- A completed operation retires with the older ones of its class (R123). -/
def retireOps (cls : Nat) : Bool → List (Nat × Nat × Bool) → List (Nat × Nat × Bool)
  | _, [] => []
  | open_, y :: l =>
    if y.1 != cls then y :: retireOps cls open_ l
    else if y.2.2 && !open_ then retireOps cls false l
    else y :: retireOps cls true l
def State.opDone (s : State) (core slot cls id : Nat) : State :=
  s.modWarp core slot fun w => { w with
    ops := retireOps cls false (w.ops.map fun y => if y.1 == cls && y.2.1 == id then (y.1, y.2.1, true) else y) }

def execOwait (h : Hdr) (b : IBody) (s : State) : Host.Outcome State Fault Refusal :=
  issue (.owait h b) s fun x s =>
    if x.act = 0 then .done s
    else if b.imm.toNat < x.w.counter (b.mod.toNat % 4) then .wait s .owait
    else .done (((s.raiseFloor x.core x.slot s.homeClk).acquireL1 x.core s.vclock).closeWin x)

/-! ## cwait and cyield (R221, R222) -/

/-- The continuation of `cyield`. -/
def cyieldTarget (pc : DWord) (m : BitVec 24) : DWord := pcFrom pc (sextNat (m.toNat / 8) 21) (m.toNat % 8)

/-- A counter lies in host memory at 2^48 and up, as `State.rel` and stores name it. -/
def Phys.named (p : Phys) : Nat := if p.host then 2 ^ 48 + p.pa else p.pa

/-- The first failing check of a counter read, then the place of the counter; the continuation of a `cyield` is checked at its
issue only (R222). -/
def Ctx.counterRead (x : Ctx) (s : State) (va : DWord) (cont : Option DWord) : Except FaultInfo Phys × State :=
  match (if x.e.wait = .cyield then none else cont).bind fun c => (s.targetCause x.core x.gctx x.vf c).map fun k => (c, k) with
  | some (c, k) => (.error ⟨k, x.mask, if k = causeBadTarget then 0 else c, none⟩, s)
  | none =>
    if va.toNat % 16 ≠ 0 then (.error ⟨causeAlign, x.mask, va, none⟩, s)
    else match s.resolve x.core x.gctx va .read with
      | (.error c, s) => (.error ⟨c, x.mask, va, none⟩, s)
      | (.ok p, s) =>
        if p.host then (.ok p, s)
        else
          let w := s.touchRun x.vf p.pa 16
          match s.readPhys x.vf p.pa 16 with
          | .error c => (.error ⟨c, x.mask, va, some p.pa⟩, w)
          | .ok _ => (.ok p, w)

/-- Sixteen bytes of a counter and its error word. -/
def State.counterBytes (s : State) (p : Phys) : Nat × DWord :=
  if p.host then
    let b := Memory.readN s.hostMem p.pa 16
    (fieldOf b 0 8, BitVec.ofNat 64 (fieldOf b 8 8))
  else (s.home8 p.pa, BitVec.ofNat 64 (s.home8 (p.pa + 8)))

/-- The read at the home has to wait: for a store of the core to the counter that is on its way there (R347), for a host request
on its line (R351), for a flip of its page (R387), for the host link (R385), or for what must come from DRAM in a compute interval (R367). -/
def State.counterBusy (s : State) (core vf : Nat) (p : Phys) : Bool :=
  ((wordsOf p.named 16).any fun w => s.unhomed core w.1 != 0) || (p.host && !s.hostUp vf) || (!p.host && (s.hostBusy p.pa || s.flipWaits p.pa s.nextId || s.matHeld p.pa || s.dramHeld p.pa 16))

/-- One evaluation of `cwait` or `cyield`: complete when c ≥ s[B], otherwise wait. -/
def cwaitEff (x : Ctx) (s : State) (d a b : BitVec 8) (cont : Option DWord) (scope : Nat) : Eff :=
  match x.counterRead s (x.scal a) cont with
  | (.error f, _) => .trap f
  | (.ok p, s) =>
    let again : Wait := if cont.isSome then .cyield else .cwait
    if s.counterBusy x.core x.vf p then .wait s again
    else
      let r := s.counterBytes p
      let got := (wordsOf p.named 16).foldl (fun l w => joinRel l (s.relOf w.1 w.2)) []
      let s := if p.host || s.isHostBias p.pa then s else if p.sync then s.bringSync x.vf p.pa 16 else s.migrateRun p.pa 16
      if r.1 < (x.scal b).toNat then .wait s again
      else
        let s := ((s.acquire x.core x.slot scope got).writeBack x.core x.slot [putS d r.2]).closeWin x
        match cont with
        | none => .done s
        | some c => .goto s c

def execCwait (h : Hdr) (b : VBody) (s : State) : Host.Outcome State Fault Refusal :=
  issue (.cwait h b) s fun x s => if x.act = 0 then .done s else cwaitEff x s b.d b.a b.b none h.fs.toNat

def execCyield (h : Hdr) (b : VBody) (s : State) : Host.Outcome State Fault Refusal :=
  issue (.cyield h b) s fun x s =>
    if x.act = 0 then .done s else cwaitEff x s b.d b.a b.b (some (cyieldTarget x.pc b.mod)) h.fs.toNat

end Sys2Proof.Machine
end

