-- ==== Sys2Proof/Machine/MemInstr.lean ====
section
/-! DEFINITION. The memory class (13 R267 to R277): addresses, lane checks, loads, stores, transactional accesses, prefetch,
`wbr` and `invr`. A load's values return by `LOAD_REPLY`; a store travels by `STORE_SEND`, `HOME_STORE`, `STORE_ACK`. -/

namespace Sys2Proof.Machine

/-! ## Addresses (R192, R273, R72) -/

/-- Where host addresses stand among the addresses of loads and stores in flight. -/
def hostTag : Nat := 2 ^ 48
/-- The address a part is kept under. -/
def Phys.tagged (p : Phys) : Nat := if p.host then hostTag + p.pa else p.pa

/-- The effective address of a thread. -/
def Ctx.ea (x : Ctx) (b : MBody) (t : Nat) : DWord :=
  let index : DWord :=
    if b.b = 0xFF then 0
    else if 0xC0 ≤ b.b.toNat then x.scal b.b else (x.v b.b.toNat t).signExtend 64
  x.scal b.a + b.off.signExtend 64 + index <<< memScale b

/-- The pattern address of `ldp` and `stp`. -/
def Ctx.patternEa (x : Ctx) (b : MBody) (t : Nat) : DWord :=
  let stride : DWord := if b.b = 0xFF then 0 else (((x.scal b.b).setWidth 32).signExtend 64) <<< memScale b
  x.scal b.a + b.off.signExtend 64 + BitVec.ofNat 64 t * stride

/-- The virtual address of a private offset (R72). -/
def Ctx.privateVa (x : Ctx) (c : Context) (t : Nat) (o : Nat) : Nat :=
  (c.pbase.toNat + (x.core * 32 + x.slot) * 64 * c.psize + o / 4 * 256 + t * 4 + o % 4) % 2 ^ 64

/-! ## Lane checks (R101) -/

/-- Parts of a lane's access: a place and a length. -/
abbrev Parts := List (Phys × Nat)

/-- Check every lane; the lowest cause decides, and its lanes are the mask. `vaOf` is the address logged. -/
def checkLanes (s : State) (ts : List Nat) (f : Nat → State → Except Nat Parts × State) (vaOf : Nat → DWord) :
    Except FaultInfo (List (Nat × Parts)) × State :=
  let r := ts.foldl (fun (acc : List (Nat × Except Nat Parts) × State) t =>
    let y := f t acc.2
    (acc.1 ++ [(t, y.1)], y.2)) ([], s)
  let bad := r.1.filterMap fun y => match y.2 with
    | .error c => some (y.1, c)
    | .ok _ => none
  match bad with
  | [] => (.ok (r.1.filterMap fun y => match y.2 with
      | .ok p => some (y.1, p)
      | .error _ => none), r.2)
  | (_, c0) :: _ =>
    let c := bad.foldl (fun m y => min m y.2) c0
    let lanes := (bad.filter fun y => y.2 == c).map (·.1)
    (.error ⟨c, maskOf lanes, ((lanes.head?).map vaOf).getD 0, none⟩, r.2)

/-- A global access of `n` bytes. -/
def Ctx.globalLane (x : Ctx) (va : DWord) (n : Nat) (kind : AccessKind) (aligned : Bool) (s : State) : Except Nat Parts × State :=
  if aligned && va.toNat % n ≠ 0 then (.error causeAlign, s)
  else s.resolveParts x.core x.gctx (partsOf va.toNat n (n + 1)) kind

/-- A private access: alignment (R274), bound (R72), then its word parts in ascending offset. An access past the bound reports
that, whatever the translation of its other bytes (assumption 97). -/
def Ctx.privateLane (x : Ctx) (o : DWord) (n t : Nat) (kind : AccessKind) (s : State) : Except Nat Parts × State :=
  match s.ctx? x.gctx with
  | none => (.error causePagePerm, s)
  | some c =>
    if o.toNat % min n 4 ≠ 0 then (.error causeAlign, s)
    else if c.psize < o.toNat + n then (.error causePagePerm, s)
    else s.resolveParts x.core x.gctx ((List.range ((n + 3) / 4)).map fun i => (x.privateVa c t (o.toNat + 4 * i), min n 4)) kind

/-! ## Register groups (Table 13.3) -/

/-- Writes of a loaded value into the group of code `d`. -/
def groupWrites (d size : Nat) (sgn : Bool) (t : Nat) (bytes : List Byte) : List RegWrite :=
  let v := ofBytes bytes
  let n := 8 * 2 ^ size
  let ext : Nat := if sgn && size ≤ 2 then (sextNat v n % (2 ^ 64 : Nat)).toNat else v
  if 0xC0 ≤ d then
    ⟨.s (d - 0xC0), BitVec.ofNat 64 ext⟩ :: if size = 4 then [⟨.s (d - 0xC0 + 1), BitVec.ofNat 64 (v / 2 ^ 64)⟩] else []
  else (List.range (if size ≤ 2 then 1 else 2 ^ (size - 2))).map fun i =>
    ⟨.v (d + i) t, BitVec.ofNat 64 (ext / 2 ^ (32 * i) % 2 ^ 32)⟩

/-- The low bytes of the group of code `d` for a thread. -/
def Ctx.groupBytes (x : Ctx) (d : BitVec 8) (n t : Nat) : List Byte :=
  if 0xC0 ≤ d.toNat then
    toBytes n ((x.scal d).toNat + if n = 16 then 2 ^ 64 * (x.s (d.toNat - 0xC0 + 1)).toNat else 0)
  else toBytes n ((List.range ((n + 3) / 4)).foldl (fun acc i => acc + 2 ^ (32 * i) * (x.v (d.toNat + i) t).toNat) 0)

/-! ## Loads -/

/-- A lane touches a replicated page with ATOMIC propagation: no clean word of it stays in L1 (R349). -/
def lanesAtomic (lanes : List (Nat × Parts)) : Bool := lanes.any fun y => y.2.any fun p => p.1.copies != [] && p.1.atomicProp

/-- The partition records replay (R414). -/
def State.replays (s : State) (vf : Nat) : Bool := ((s.part? vf).map (·.replay)).getD false

/-- A part of a load is served by its core's L1. An acquire reads at the homes (R88), and so do the loads of a replay quantum. -/
def State.fromL1 (s : State) (l : Load) (p : Nat × Nat) : Bool :=
  l.acq == 0 && !s.replays l.vf && decide (p.1 < hostTag) && s.partInL1 l.core l.floor p.1 p.2

/-- The thread's own latest held store to a byte (R414). -/
def State.ownHeld (s : State) (core slot thread : Nat) (uni : Bool) (a : Nat) : Option Byte :=
  ((s.stores.filter fun x => x.2.replay && x.2.core == core && x.2.slot == slot && (uni || x.2.thread == thread) &&
    x.2.pa ≤ a && a < x.2.pa + x.2.bytes.length).getLast?).map fun x => x.2.bytes.getD (a - x.2.pa) 0

/-- The byte a load returns: a shadow's own stores (R372), in replay the thread's own held stores and then the home as the quantum
began (R414), the host's byte (R99), otherwise what the core sees of it. -/
def State.loadByte (s : State) (l : Load) (thread : Nat) (l1 : Bool) (a : Nat) : Byte :=
  let shadow := ((s.warp? l.core l.slot).bind fun w => (s.team? w.team).bind (·.screen)).bind fun y => Tab.find? y.buffer a
  match shadow, s.ownHeld l.core l.slot thread l.uni a with
  | some b, _ => b
  | none, some b => b
  | none, none =>
    if hostTag ≤ a then Memory.read s.hostMem (a - hostTag)
    else if s.replays l.vf && l.acq = 0 then
      let start := (((s.part? l.vf).map (·.startVals)).getD []).find? fun y => y.1 == a / 4
      ((start.map (·.2)).getD (s.homeWord (a / 4)).1).extractLsb' (8 * (a % 4)) 8
    else s.coreByte l.core a l1

/-- The bytes of a lane, part by part. -/
def State.laneBytes (s : State) (l : Load) (y : LoadLane) : List Byte :=
  match y.fixed with
  | some b => b
  | none => y.parts.flatMap fun p => let l1 := s.fromL1 l p; (List.range p.2).map fun i => s.loadByte l y.thread l1 (p.1 + i)

/-- What the writes that a lane reads carry. -/
def State.laneRel (s : State) (l : Load) (y : LoadLane) : List RelInfo :=
  if y.fixed.isSome then []
  else y.parts.foldl (fun r p => let l1 := s.fromL1 l p; (List.range p.2).foldl (fun r i => joinRel r (s.coreRel l.core (p.1 + i) l1)) r) []

/-- A lane meets a poisoned word (R83): in L1, for bytes that L1 or the core's own stores on their way home give, and at the home for
the others. -/
def State.lanePoison (s : State) (l : Load) (y : LoadLane) : Bool :=
  match y.fixed with
  | some b => b.isEmpty
  | none => y.parts.any fun p => decide (p.1 < hostTag) &&
      let l1 := s.fromL1 l p
      (wordsOf p.1 p.2).any fun w =>
        let un := s.unhomed l.core w.1
        let held := match (s.core l.core).l1.find? w.1 with
          | some x => x.poison || decide (2 ≤ x.err)
          | none => false
        if l1 then held else (un &&& w.2 != 0 && held) || (w.2 &&& ~~~un != 0 && (s.homeWord w.1).2)

/-- Issue a load: its destination is interlocked until the reply. `noL1`: its words are not kept in L1. -/
def State.issueLoad (s : State) (x : Ctx) (d : BitVec 8) (size : Nat) (sgn : Bool) (acq : Nat) (noL1 : Bool) (lanes : List LoadLane) (vas : List Nat) : State :=
  if lanes.isEmpty then s
  else
    let f := s.fresh
    { f.2 with loads := f.2.loads.put f.1 {
        core := x.core, slot := x.slot, entry := x.entry, vf := x.vf, ctx := x.gctx, pc := x.pc, lanes := lanes, dst := d.toNat,
        size := size, sgn := sgn, uni := x.u, hint := if noL1 then 2 else x.f.hdr.hint.toNat, acq := acq, gred := none, vas := vas,
        floor := x.w.floor, got := [], far := [] } }

/-- Bring the words of SYNC pages that lanes name into their engine (R94). -/
def State.bringLanes (s : State) (vf : Nat) (lanes : List (Nat × Parts)) : State :=
  s.each lanes fun s y => s.each y.2 fun s p => if p.1.sync then s.bringSync vf p.1.pa p.2 else s

/-- A lane read from memory at its reply. -/
def memLane (y : Nat × Parts) : LoadLane := ⟨y.1, y.2.map fun p => (p.1.tagged, p.2), none⟩

/-- The shared load of R271 over checked lanes. -/
def loadEff (x : Ctx) (s : State) (b : MBody) (acq : Nat) (r : Except FaultInfo (List (Nat × Parts)) × State) (vaOf : Nat → DWord) : Eff :=
  match r with
  | (.error f, _) => .trap f
  | (.ok lanes, s') =>
    if x.act = 0 then .done s
    else .done ((s'.bringLanes x.vf lanes).issueLoad x b.d (memSize b) (x.f.hdr.fs.getLsbD 0) acq (lanesAtomic lanes) (lanes.map memLane) (lanes.map fun y => (vaOf y.1).toNat))

/-! ## Transactional accesses (R282) -/

/-- The bytes of a word a mask covers, as bits. -/
def TxWord.over (w : TxWord) (old : Word) : Word := mergeBytes old w.data w.bytes

/-- The value a transaction sees of a word: its own write set over the home's value. -/
def Tx.value (tx : Tx) (s : State) (wa : Nat) : Word :=
  let h := (s.homeWord wa).1
  match tx.writes.find? fun w => w.addr = wa with
  | some w => w.over h
  | none => h

/-- A word enters the read set with the value that its home gave (R282), once for each value that it has given, so that a commit
checks them all (R283). A word of which the own write set gave every byte enters without one: its home was not read. -/
def Tx.addRead (tx : Tx) (wa : Nat) (va : DWord) (home : Option Word) : Tx :=
  match home with
  | some d => if tx.reads.any fun r => r.addr == wa && r.bytes == allBytes && r.data == d then tx
              else { tx with reads := tx.reads ++ [⟨wa, d, allBytes, va⟩] }
  | none => if tx.reads.any fun r => r.addr == wa then tx else { tx with reads := tx.reads ++ [⟨wa, 0, 0, va⟩] }

/-- The own write set holds the bytes of a word under a mask. -/
def Tx.holds (tx : Tx) (w : Nat × BitVec 4) : Bool := tx.writes.any fun y => y.addr == w.1 && y.bytes &&& w.2 == w.2

/-- Add masked bytes to the write set. -/
def Tx.addWrite (tx : Tx) (va : DWord) (wa : Nat) (d : Word) (mask : BitVec 4) : Tx :=
  if tx.writes.any fun w => w.addr == wa then
    { tx with writes := tx.writes.map fun w => if w.addr = wa then { w with data := mergeBytes w.data d mask, bytes := w.bytes ||| mask } else w }
  else { tx with writes := tx.writes ++ [⟨wa, d, mask, va⟩] }

/-- Distinct words of a set with further ones. -/
def setSize (l : List TxWord) (was : List Nat) : Nat := (l.map (·.addr) ++ was).dedup.length

/-- What one transactional lane comes to: an abort reason, a poisoned word, or its new transaction with the bytes read. -/
inductive TxStep where
  | abort (reason : Nat)
  | cause (c : Nat) (pa : Nat)
  | ok (tx : Tx) (bytes : List Byte)
  deriving DecidableEq, Repr

/-- One lane of a transactional `ld` or `st` of `bytes` (`none` for a load). A word of an elided row is materialised (R279). -/
def Ctx.txLane (x : Ctx) (s : State) (va : DWord) (n t : Nat) (bytes : Option (List Byte)) : TxStep × State :=
  match x.w.tx.find? t with
  | none => (.abort 6, s)
  | some tx =>
    match x.globalLane va n .atomic true s with
    | (.error _, s) => (.abort 6, s)
    | (.ok ps, s) =>
      let pa := ((ps.head?).map (·.1.pa)).getD 0
      let ws := wordsOf pa n
      let s := if ps.any (·.1.sync) then s.bringSync x.vf pa n else s
      match bytes with
      | none =>
        if 16 < setSize tx.reads (ws.map (·.1)) then (.abort 3, s)
        else
          let far := ws.filter fun w => !tx.holds w
          let t := s.each far fun s w => s.touchRun x.vf (4 * w.1) 4
          match far.findSome? fun w => match s.readPhys x.vf (4 * w.1) 4 with
            | .error c => some (c, 4 * w.1)
            | .ok _ => none with
          | some y => (.cause y.1 y.2, t)
          | none =>
            let s := if far.isEmpty then s else t.materialise (rowOfPa pa)
            (.ok (ws.foldl (fun tx w => tx.addRead w.1 va (if tx.holds w then none else some (s.homeWord w.1).1)) tx)
              ((List.range n).map fun i => (tx.value s ((pa + i) / 4)).extractLsb' (8 * ((pa + i) % 4)) 8), s)
      | some bs =>
        if 16 < setSize tx.writes (ws.map (·.1)) then (.abort 4, s)
        else
          let s := if s.rowOk x.vf pa true false then s.materialise (rowOfPa pa) else s
          (.ok (ws.foldl (fun tx w => tx.addWrite va w.1 (wordFrom pa w.1 bs) w.2) tx) [], s)

/-- Results of the transactional lanes, by thread. -/
def Ctx.txLanes (x : Ctx) (s : State) (vaOf : Nat → DWord) (n : Nat) (ts : List Nat) (bytes : Nat → Option (List Byte)) :
    List (Nat × TxStep) × State :=
  ts.foldl (fun acc t => let y := x.txLane acc.2 (vaOf t) n t (bytes t); (acc.1 ++ [(t, y.1)], y.2)) ([], s)

/-- A transactional access waits for the core's own stores and atomics on the words it touches (R347), for a flip of their
page (R387), and for what must come from DRAM in a compute interval (R367). -/
def Ctx.txBusy (x : Ctx) (s : State) (vaOf : Nat → DWord) (n : Nat) (ts : List Nat) : Bool :=
  ts.any fun t => match (x.globalLane (vaOf t) n .atomic true s).1 with
    | .error _ => false
    | .ok ps => ps.any fun p => s.flipWaits p.1.pa s.nextId || s.matHeld p.1.pa || s.dramHeld p.1.pa p.2 || (wordsOf p.1.pa p.2).any fun w =>
        s.unhomed x.core w.1 != 0 || s.atomics.any fun a => a.2.core == x.core && a.2.old.isNone && overlaps a.2.pa (2 ^ a.2.size) (4 * w.1) 4

/-- A poisoned or denied word met by a transactional lane. -/
def txFault (l : List (Nat × TxStep)) (vaOf : Nat → DWord) : Option FaultInfo :=
  l.findSome? fun y => match y.2 with
    | .cause c pa => some ⟨c, maskOf [y.1], vaOf y.1, some pa⟩
    | _ => none

/-- Install the lanes' new transactions; abort the others with their reasons; the aborted threads go to their handlers. -/
def txFinish (x : Ctx) (s : State) (l : List (Nat × TxStep)) : Eff :=
  let s := s.modWarp x.core x.slot fun w => l.foldl (fun (w : Warp) y => match y.2 with
    | .ok tx _ => { w with tx := w.tx.put y.1 tx }
    | _ => w) w
  let ab := l.filterMap fun y => match y.2 with
    | .abort r => some (y.1, r)
    | _ => none
  if ab.isEmpty then .done s
  else
    let m := maskOf (ab.map (·.1))
    let s := s.each ab fun s y => s.abortTx x.core x.slot (maskOf [y.1]) y.2
    .jump s (fun t => if m.getLsbD t then x.w.abortPc t x.next else x.next) 0 (x.w.abortRecon m) true

/-- Threads with and without an open transaction, for a transactional form. -/
def Ctx.txSplit (x : Ctx) : List Nat × List Nat :=
  let m := x.w.inTx x.act
  (x.threads.filter fun t => !(m.getLsbD t && !x.u), if x.u then [] else threadsOf m)

def execLd (h : Hdr) (b : MBody) (s : State) : Host.Outcome State Fault Refusal :=
  issue (.ld h b) s fun x s =>
    let n := memBytes b
    let ts := x.txSplit
    match checkLanes s ts.1 (fun t s => x.globalLane (x.ea b t) n .read false s) (x.ea b) with
    | (.error f, _) => .trap f
    | (.ok lanes, s) =>
      if x.txBusy s (x.ea b) n ts.2 then .stall s else
      let r := x.txLanes s (x.ea b) n ts.2 fun _ => none
      let tl := r.1
      let s := r.2
      match txFault tl (x.ea b) with
      | some f => .trap f
      | none =>
        let done := tl.filterMap fun y => match y.2 with
          | .ok _ bytes => some (⟨y.1, [], some bytes⟩ : LoadLane)
          | _ => none
        let ls := lanes.map memLane ++ done
        txFinish x ((s.bringLanes x.vf lanes).issueLoad x b.d (memSize b) (h.fs.getLsbD 0) (if ctlKind b = 1 then ctlScope b else 0) (lanesAtomic lanes) ls
          (ls.map fun l => (x.ea b l.thread).toNat)) tl

def execLdp (h : Hdr) (b : MBody) (s : State) : Host.Outcome State Fault Refusal :=
  issue (.ldp h b) s fun x s =>
    loadEff x s b 0 (checkLanes s x.threads (fun t s => x.globalLane (x.patternEa b t) (memBytes b) .read false s) (x.patternEa b)) (x.patternEa b)

def execLdc (h : Hdr) (b : MBody) (s : State) : Host.Outcome State Fault Refusal :=
  issue (.ldc h b) s fun x s =>
    loadEff x s b 0 (checkLanes s x.threads (fun t s => x.globalLane (x.ea b t) (memBytes b) .read false s) (x.ea b)) (x.ea b)

def execLdl (h : Hdr) (b : MBody) (s : State) : Host.Outcome State Fault Refusal :=
  issue (.ldl h b) s fun x s =>
    loadEff x s b 0 (checkLanes s x.threads (fun t s => x.privateLane (x.ea b t) (memBytes b) t .read s) fun _ => 0) fun _ => 0

/-! ## Comb accesses (R73, R93, R274) -/

/-- The word index of a comb offset in its hive, if the team's allocation holds it. -/
def combIndex (cells : List Nat) (o : Nat) : Option Nat := cells[o / 32768]?.map fun c => c * 8192 + o % 32768 / 4

/-- A comb word and its poison; an undefined word takes an open value when first read. A single bit in error is corrected,
rewritten and counted, two bits poison the word (R85). -/
def State.combWord (s : State) (vf hive wi : Nat) : Word × Bool × State :=
  let h := s.hive hive
  let e := Tab.get h.err 0 wi
  let bad := h.poison.contains wi || decide (2 ≤ e)
  let s := if e = 0 then s
    else (if e = 1 then s.countRes vf 16 hive 4 else s).modHive hive fun h => { h with
      err := h.err.erase wi, poison := if bad && !h.poison.contains wi then wi :: h.poison else h.poison }
  match h.comb.find? wi with
  | some v => (v, bad, s)
  | none =>
    if h.undef.contains (wi / 8192) then
      let f := s.openWord
      (f.1, bad, f.2.modHive hive fun h => { h with comb := h.comb.put wi f.1 })
    else (0, bad, s)

/-- Write masked bytes of a comb word; what R83 discards is logged, a comb word having no address (R107). -/
def State.combWrite (s : State) (vf hive wi : Nat) (d : Word) (mask : BitVec 4) (src : LogSrc) : State :=
  let r := s.combWord vf hive wi
  if r.2.1 && mask != allBytes then r.2.2.log vf causeUncorr 0 false src.kind src.idx src.detail
  else r.2.2.modHive hive fun h => { h with
    comb := h.comb.put wi (mergeBytes r.1 d mask), poison := h.poison.filter (· ≠ wi) }

/-- The cell of a physical index belongs to a region that is sealed or being sealed (R93). -/
def Hive.cellSealed (h : Hive) (cell : Nat) : Bool :=
  h.regions.any fun r => (r.2.st == 1 || r.2.st == 2) && r.2.cells.contains cell

/-- One of these copy operations has still to end, in its channel or in the save record of its team. -/
def State.copyOpen (s : State) (ids : List Nat) : Bool :=
  (s.hives.any fun h => h.2.copy.any fun q => q.2.any fun o => ids.contains o.id) ||
    s.contexts.any fun c => c.2.saved.any fun v => v.copies.any fun o => ids.contains o.2.id

/-- The cell form of a word of a region whose FP8 columns are being converted (R293); none where it is as staged. -/
def State.sealForm (s : State) (hive wi : Nat) : Option Word :=
  let h := s.hive hive
  match List.find? (fun (r : Nat × Region) => r.2.st == 1 && r.2.cells.contains (wi / 8192)) h.regions with
  | none => none
  | some r =>
    let kind := ((s.gridOfTeam (hive * 32 + r.2.owner)).map fun g => (g.lr.fmt.getD r.2.slot 0).toNat % 256).getD 0
    let ws := (List.range 8).map fun i => wi / 8 * 8 + i
    if s.copyOpen r.2.before || (kind != 4 && kind != 5) ||
        ws.any fun w => (h.comb.find? w).isNone then none
    else (floatBlock (if kind = 4 then e4m3 else e5m2) 6 (ws.flatMap fun w => (toBytes 4 (h.comb.get 0 w).toNat).map (·.toNat))).map fun b =>
      BitVec.ofNat 32 (ofBytes (((b.ints.drop (4 * (wi % 8))).take 4).map (BitVec.ofInt 8)))

/-- A comb word as a reader sees it: during a conversion either form (R293). -/
def State.combView (s : State) (vf hive wi : Nat) : Word × Bool × State :=
  let r := s.combWord vf hive wi
  match r.2.2.sealForm hive wi with
  | none => r
  | some v => let c := r.2.2.pick 2; (if c.1 = 0 then r.1 else v, r.2.1, c.2)

/-- Bytes of a run of comb offsets, word by word; the flag tells that a poisoned word was met. -/
def State.combRead (s : State) (vf hive : Nat) (cells : List Nat) (o n : Nat) : List Byte × Bool × State :=
  (wordsOf o n).foldl (fun (acc : List Byte × Bool × State) w =>
    match combIndex cells (4 * w.1) with
    | none => acc
    | some wi =>
      let r := acc.2.2.combView vf hive wi
      let bytes := ((List.range 4).filter w.2.getLsbD).map fun j => r.1.extractLsb' (8 * j) 8
      (acc.1 ++ bytes, acc.2.1 || r.2.1, r.2.2)) ([], false, s)

/-- Where a byte of a comb word stands among the addresses of stores held for a quantum boundary (R414). -/
def combTag : Nat := 2 ^ 60
def combAddr (hive wi : Nat) : Nat := combTag + (hive * 2 ^ 21 + wi) * 4

/-- A comb word as a replay quantum's loads see it: as the quantum began (R414). -/
def State.combStart (s : State) (vf hive wi : Nat) : Word × Bool × State :=
  let r := s.combView vf hive wi
  match (s.hive hive).start with
  | none => r
  | some t => match t.find? wi with
    | some v => (v, r.2)
    | none => if (s.hive hive).undef.contains (wi / 8192) then r else (0, r.2)

/-- The bytes that `lds` returns to a thread, with the poison met: the comb's, in replay those of its own held stores and of the
quantum's start. -/
def Ctx.ldsBytes (x : Ctx) (s : State) (cells : List Nat) (o n t : Nat) : List Byte × Bool × State :=
  let hive := hiveOfCore x.core
  if !s.replays x.vf then s.combRead x.vf hive cells o n
  else (wordsOf o n).foldl (fun (acc : List Byte × Bool × State) w =>
    match combIndex cells (4 * w.1) with
    | none => acc
    | some wi =>
      let r := acc.2.2.combStart x.vf hive wi
      let own (j : Nat) : Option Byte := s.ownHeld x.core x.slot t x.u (combAddr hive wi + j)
      let js := (List.range 4).filter w.2.getLsbD
      (acc.1 ++ js.map (fun j => (own j).getD (r.1.extractLsb' (8 * j) 8)), acc.2.1 || (r.2.1 && js.any fun j => (own j).isNone), r.2.2)) ([], false, s)

/-- Comb bounds and seal checks of a lane: the lowest cause. -/
def Ctx.combLane (x : Ctx) (team : Team) (o : DWord) (n : Nat) (write : Bool) (s : State) : Except Nat Parts × State :=
  if team.bytes < o.toNat + n then (.error causeCombBounds, s)
  else if write && (List.range n).any fun i => match combIndex team.cells (o.toNat + i) with
      | some wi => (s.hive (hiveOfCore x.core)).cellSealed (wi / 8192)
      | none => false then (.error causeCombSealed, s)
  else (.ok [], s)

def execLds (h : Hdr) (b : MBody) (s : State) : Host.Outcome State Fault Refusal :=
  issue (.lds h b) s fun x s =>
    match s.team? x.team with
    | none => .done s
    | some team =>
      let n := memBytes b
      match checkLanes s x.threads (fun t s => x.combLane team (x.ea b t) n false s) fun _ => 0 with
      | (.error f, _) => .trap f
      | (.ok lanes, s) =>
        let r := lanes.foldl (fun (acc : List LoadLane × Bool × State) y =>
          let v := x.ldsBytes acc.2.2 team.cells (x.ea b y.1).toNat n y.1
          (acc.1 ++ [⟨y.1, [], some v.1⟩], acc.2.1 || v.2.1, v.2.2)) ([], false, s)
        if r.2.1 then .trap (plain causeUncorr x.act)
        else .done (r.2.2.issueLoad x b.d (memSize b) (h.fs.getLsbD 0) 0 false r.1 (r.1.map fun _ => 0))

/-! ## Stores (R272) -/

/-- Keep only the bytes that no higher-numbered thread of the instruction writes, in maximal runs: (place, virtual
address, thread, first byte, bytes). -/
structure StoreRun where
  thread : Nat
  place : Phys
  off : Nat
  va : DWord
  bytes : List Byte
  deriving DecidableEq, Repr

/-- Maximal runs of kept bytes of one part. -/
def keepRuns (t : Nat) (p : Phys) (va : DWord) (kept : Nat → Bool) : Nat → List Byte → List StoreRun
  | _, [] => []
  | i, b :: l =>
    let rest := keepRuns t p va kept (i + 1) l
    if !kept i then rest
    else match rest with
      | r :: rs => if r.off = i + 1 then { r with off := i, va := va + BitVec.ofNat 64 i, bytes := b :: r.bytes } :: rs
                   else ⟨t, p, i, va + BitVec.ofNat 64 i, [b]⟩ :: rest
      | [] => [⟨t, p, i, va + BitVec.ofNat 64 i, [b]⟩]

/-- Byte addresses of checked parts. -/
def partBytes (ps : Parts) : List Nat := ps.flatMap fun p => (List.range p.2).map fun i => p.1.tagged + i

/-- Runs of a lane's parts. -/
def laneRuns (t : Nat) (va : DWord) (kept : Nat → Bool) : Parts → List Byte → List StoreRun
  | [], _ => []
  | (p, n) :: ps, bytes =>
    keepRuns t p va (fun i => kept (p.tagged + i)) 0 (bytes.take n) ++ laneRuns t (va + BitVec.ofNat 64 n) kept ps (bytes.drop n)

/-- Runs of every lane, lanes ascending. -/
def storeRuns (vaOf : Nat → DWord) (data : Nat → List Byte) : List (Nat × Parts) → List StoreRun
  | [] => []
  | (t, ps) :: l =>
    let above := l.flatMap fun y => partBytes y.2
    laneRuns t (vaOf t) (fun a => !above.contains a) ps (data t) ++ storeRuns vaOf data l

/-- Bytes of a lane that come from beyond its core. -/
def State.farBytes (s : State) (l : Load) (y : LoadLane) : List Nat :=
  y.parts.flatMap fun p => if s.fromL1 l p then [] else
    ((List.range p.2).map (p.1 + ·)).filter fun a => !(s.unhomed l.core (a / 4)).getLsbD (a % 4)

/-- Lanes of a load take their bytes now. -/
def State.takeLanes (s : State) (l : Load) (p : LoadLane → Bool) : Load :=
  let now := l.lanes.filter fun y => y.fixed.isNone && p y
  { l with
    got := now.foldl (fun g y => joinRel g (s.laneRel l y)) l.got
    far := l.far ++ now.flatMap (s.farBytes l)
    lanes := l.lanes.map fun y =>
      if y.fixed.isNone && p y then { y with fixed := some (if s.lanePoison l y then [] else s.laneBytes l y) } else y }

/-- A load of the core in flight has still to take bytes of a run: no later write of the core to them issues before it has (R347). -/
def State.loadsMeet (s : State) (core a n : Nat) : Bool :=
  s.loads.any fun l => l.2.core == core && l.2.gred.isNone && l.2.lanes.any fun y => y.fixed.isNone && y.parts.any fun p => overlaps p.1 p.2 a n

/-- How the stores of an instruction are kept in L1: its hint, and that its parts take effect in ascending offset. -/
structure StoreWay where
  hint : Nat
  asc : Bool
  deriving DecidableEq, Repr

/-- The bytes of a run enter L1, where its set has room for the frame (R86, R87); `force`: where it has none they are not kept
(assumption 87). -/
def State.keepRun (s : State) (x : Ctx) (r : StoreRun) (hint : Nat) (rel : List RelInfo) (force : Bool) : Option State :=
  let a := r.place.tagged + r.off
  (wordsOf a r.bytes.length).foldl (fun acc w => acc.bind fun s =>
    match s.l1Room x.core (w.1 / 64) with
    | some s => some ((s.markFrame x.core (w.1 / 64) hint).l1Store x.core w.1 (wordFrom a w.1 r.bytes) w.2 rel)
    | none => if force then some s else none) (some s)

/-- Issue the runs of a store instruction: L1 takes the bytes valid and dirty, and one request for each maximal run of bytes
that a lane keeps of a part leaves for its home, counted in the store counter (R87, R124, assumption 102). None while L1 has no
room, or a load of the core has still to take some of the bytes. -/
def State.sendStores (s : State) (x : Ctx) (way : StoreWay) (runs : List StoreRun) (rel : Nat → List RelInfo) : Option State :=
  let op := s.nextId
  let replay := s.replays x.vf
  let force := !(s.stores.any fun y => y.2.core == x.core)
  let r := runs.foldl (fun (acc : Option State) r => acc.bind fun s =>
    let a := r.place.tagged + r.off
    if s.loadsMeet x.core a r.bytes.length then none
    else (if r.place.host || r.place.sync || replay || s.isHostBias r.place.pa then some s
      else s.keepRun x r way.hint (rel r.thread) force).map fun s =>
    let f := s.fresh
    { f.2 with stores := f.2.stores.put f.1 {
        core := x.core, slot := x.slot, team := x.team, thread := r.thread, vf := x.vf, pc := x.pc, pa := a, bytes := r.bytes,
        st := .pending, rel := rel r.thread, copies := r.place.copies.map (· + r.off), va := r.va, op := op, replay := replay,
        atomicProp := r.place.atomicProp && r.place.copies != [], hint := way.hint, asc := way.asc } }) (some s)
  r.map fun s => s.modWarp x.core x.slot fun w => { w with cntStore := w.cntStore + runs.length }

/-- Fold global stores of a screened team or its shadow into the warp's CRC: address, byte mask, data (R372). -/
def Warp.foldStores (w : Warp) (runs : List StoreRun) : Warp :=
  { w with crc := runs.foldl (fun c r => BitVec.ofNat 64 (crc64 c.toNat
      ((toBytes 8 r.va.toNat ++ toBytes 8 (2 ^ r.bytes.length - 1) ++ r.bytes).map (·.toNat)))) w.crc }

/-- A shadow's stores enter its buffer; more than 16 KiB of bytes end the screen (R372). -/
def State.shadowStores (s : State) (team : Nat) (runs : List StoreRun) : State :=
  let new := runs.flatMap fun r => (r.bytes.zip (List.range r.bytes.length)).map fun b => (r.place.tagged + r.off + b.2, b.1)
  let s := s.modTeam team fun t => { t with screen := t.screen.map fun y =>
    { y with buffer := new ++ y.buffer.filter fun z => !new.any fun n => n.1 == z.1 } }
  if 16384 < (((s.team? team).bind (·.screen)).map (·.buffer.length)).getD 0 then s.endScreen team else s

/-- Issue stores; those of a screened team are folded, and a shadow's global ones are not performed. -/
def State.issueStores (s : State) (x : Ctx) (glob : Bool) (way : StoreWay) (runs : List StoreRun) (rel : Nat → List RelInfo) : Option State :=
  match if glob then (s.team? x.team).bind (·.screen) else none with
  | none => s.sendStores x way runs rel
  | some y =>
    let s := s.modWarp x.core x.slot fun w => w.foldStores runs
    if !y.shadow then s.sendStores x way runs rel
    else if runs.any fun r => s.loadsMeet x.core (r.place.tagged + r.off) r.bytes.length then none
    else some (s.shadowStores x.team runs)

/-- The shared store of R272 over checked lanes, a release at scope `scope` where that is not 0; none while the store counter or
L1 has no room (Table 6.1). -/
def storeLanes (x : Ctx) (s : State) (b : MBody) (lanes : List (Nat × Parts)) (vaOf : Nat → DWord) (scope : Nat) : Option State :=
  let runs := storeRuns vaOf (x.groupBytes b.d (memBytes b)) lanes
  if lanes.isEmpty then some s
  else if 1023 < x.w.cntStore + runs.length then none
  else ((s.bringLanes x.vf lanes).issueStores x (memSpace b == 0) ⟨x.f.hdr.hint.toNat, memSpace b == 3⟩ runs fun t =>
      s.releaseInfo x.core x.slot t scope).map fun s => s.noteRelease x.core x.slot scope

def storeEff (x : Ctx) (s : State) (b : MBody) (r : Except FaultInfo (List (Nat × Parts)) × State) (vaOf : Nat → DWord) : Eff :=
  match r with
  | (.error f, _) => .trap f
  | (.ok lanes, s') =>
    match storeLanes x s' b lanes vaOf 0 with
    | none => .stall s
    | some s'' => .done s''

def execSt (h : Hdr) (b : MBody) (s : State) : Host.Outcome State Fault Refusal :=
  issue (.st h b) s fun x s0 =>
    let n := memBytes b
    let ts := x.txSplit
    let scope := if ctlKind b == 2 then ctlScope b else 0
    match checkLanes s0 ts.1 (fun t s => x.globalLane (x.ea b t) n .write false s) (x.ea b) with
    | (.error f, _) => .trap f
    | (.ok lanes, s) =>
      if 3 ≤ scope && x.act != 0 && x.w.cntStore != 0 then .wait s0 .fence
      else if x.txBusy s (x.ea b) n ts.2 then .stall s
      else
        let tl := x.txLanes s (x.ea b) n ts.2 fun t => some (x.groupBytes b.d n t)
        match storeLanes x tl.2 b lanes (x.ea b) scope with
        | none => .stall s0
        | some s => txFinish x s tl.1

def execStp (h : Hdr) (b : MBody) (s : State) : Host.Outcome State Fault Refusal :=
  issue (.stp h b) s fun x s =>
    storeEff x s b (checkLanes s x.threads (fun t s => x.globalLane (x.patternEa b t) (memBytes b) .write false s) (x.patternEa b)) (x.patternEa b)

def execStl (h : Hdr) (b : MBody) (s : State) : Host.Outcome State Fault Refusal :=
  issue (.stl h b) s fun x s =>
    let va (t : Nat) : DWord := ((s.ctx? x.gctx).map fun c => BitVec.ofNat 64 (x.privateVa c t (x.ea b t).toNat)).getD 0
    let r := checkLanes s x.threads (fun t s => x.privateLane (x.ea b t) (memBytes b) t .write s) fun _ => 0
    storeEff x s b r va

/-- The bytes of a comb word that a thread of `sts` writes: those that no higher-numbered thread writes too (R272). -/
def combKept (off : Nat → Nat) (n : Nat) (ts : List Nat) (t : Nat) (w : Nat × BitVec 4) : BitVec 4 :=
  BitVec.ofNat 4 ((List.range 4).foldl (fun acc j =>
    if w.2.getLsbD j && !(ts.any fun z => decide (t < z) && decide (off z ≤ 4 * w.1 + j) && decide (4 * w.1 + j < off z + n)) then acc + 2 ^ j else acc) 0)

/-- Store masked bytes of a comb word; in replay they are held for the boundary (R414). -/
def Ctx.combStore (x : Ctx) (s : State) (op t wi : Nat) (d : Word) (mask : BitVec 4) : State :=
  let hive := hiveOfCore x.core
  if mask = 0 then s
  else if !s.replays x.vf then s.combWrite x.vf hive wi d mask ⟨0, x.core, none, x.pc⟩
  else s.each ((List.range 4).filter mask.getLsbD) fun s j =>
    let f := s.fresh
    { f.2 with stores := f.2.stores.put f.1 {
        core := x.core, slot := x.slot, team := x.team, thread := t, vf := x.vf, pc := x.pc, pa := combAddr hive wi + j,
        bytes := [d.extractLsb' (8 * j) 8], st := .pending, rel := [], copies := [], va := 0, op := op, replay := true,
        atomicProp := false, hint := 0, asc := false } }

def execSts (h : Hdr) (b : MBody) (s : State) : Host.Outcome State Fault Refusal :=
  issue (.sts h b) s fun x s =>
    match s.team? x.team with
    | none => .done s
    | some team =>
      let n := memBytes b
      match checkLanes s x.threads (fun t s => x.combLane team (x.ea b t) n true s) fun _ => 0 with
      | (.error f, _) => .trap f
      | (.ok lanes, s) =>
        let op := s.nextId
        .done (s.each lanes fun s y =>
          let o := (x.ea b y.1).toNat
          let bytes := x.groupBytes b.d n y.1
          s.each (wordsOf o n) fun s w => match combIndex team.cells (4 * w.1) with
            | some wi => x.combStore s op y.1 wi (wordFrom o w.1 bytes) (combKept (fun z => (x.ea b z).toNat) n (lanes.map (·.1)) y.1 w)
            | none => s)

/-! ## Prefetch, write-back, self-invalidation (R276, R277) -/

/-- Queue a hearth read of a word for a function (R78): one for the command with number `by_` - 1 (R419), or, where that is 0, one
for the prefetches of the word, which its arrival fills. -/
def State.queueRead (s : State) (vf wa by_ : Nat) (fills : List (Nat × Nat)) : State :=
  let k := queueIx wa
  let q := (s.wordQ.find? k).getD []
  let same (r : WordReq) : Bool := r.word == wa && !r.write && r.by_ == by_ && r.vf == vf
  if q.any same then { s with wordQ := s.wordQ.put k (q.map fun r => if same r then { r with fills := fills ++ r.fills } else r) }
  else
    let f := (s.countPerf vf 11).fresh
    { f.2 with wordQ := f.2.wordQ.put k (q ++ [⟨wa, vf, false, false, 0, false, 0, f.1, by_, fills⟩]) }

/-- Words that an access of words of device memory fills under its hint (Table 4.5). Words of SYNC pages, of the engines, and
host-bias words are not filled. -/
def State.hintWords (s : State) (hint : Nat) (was : List Nat) : List Nat :=
  let more := match hint with
    | 4 => was.flatMap fun w => (List.range 16).map fun i => w / 16 * 16 + i
    | 5 => was.flatMap fun w => (List.range 64).map fun i => w / 64 * 64 + i
    | _ => was
  (more.dedup).filter fun w => (s.sync.find? w).isNone && !s.syncPage w && !s.isHostBias (4 * w)

/-- Prefetch words for a core as a load with the hint fills them: into L1 and L2, by hearth reads where DRAM must supply them. -/
def State.prefetchWords (s : State) (core vf hint : Nat) (was : List Nat) : State :=
  s.each (s.hintWords hint was) fun s wa =>
    if s.needsDram wa then
      if s.rowOk vf (4 * wa) false false then s.queueRead vf wa 0 (if hint = 2 then [] else [(core, hint)]) else s
    else
      let s := (s.touch vf wa).markL2 (wa / 64) hint
      if hint = 2 then s else s.l1Fill core wa hint

/-- R276: where a check of steps 7 or 9 of R195 would trap, every lane is dropped (assumption 80). It waits for a flip of a page that
it names (R98). -/
def execPf (h : Hdr) (b : MBody) (s : State) : Host.Outcome State Fault Refusal :=
  issue (.pf h b) s fun x s =>
    if !x.f.ok x.lr || x.shortStall s then .done s
    else
      let lane (t : Nat) (s : State) : List (Phys × Nat) × State := match x.globalLane (x.ea b t) (memBytes b) .read false s with
        | (.error _, s) => ([], s)
        | (.ok ps, s) => (ps.filter fun p => !p.1.host && !p.1.sync, s)
      if x.threads.any fun t => (lane t s).1.any fun p => s.flipWaits p.1.pa s.nextId then .stall s
      else .done (s.each x.threads fun s t =>
        let r := lane t s
        r.2.each r.1 fun s p =>
          s.prefetchWords x.core x.vf (if p.1.copies != [] && p.1.atomicProp then 2 else h.hint.toNat) ((wordsOf p.1.pa p.2).map (·.1)))

/-- The byte range of `wbr` and `invr`. -/
def Ctx.range (x : Ctx) (b : MBody) : DWord × DWord :=
  (x.scal b.a + b.off.signExtend 64, if b.b = 0xFF then 4 else x.scal b.b <<< memScale b)

/-- Words of a list that the range names through the context's translation: by 4 KiB pages, absent ones skipped. -/
def State.wordsInRange (s : State) (core ctx : Nat) (lo len : DWord) (was : List Nat) : List Nat :=
  if was.isEmpty then []
  else
    let a := lo.toNat
    let n := len.toNat
    let pages := if n = 0 then [] else List.range ((a % 4096 + n + 4095) / 4096)
    let spans := pages.filterMap fun i =>
      let va := (a / 4096 + i) * 4096
      match (s.resolve core ctx (BitVec.ofNat 64 va) .read).1 with
      | .error _ => none
      | .ok p => if p.host || p.sync then none else
          some ((if p.copies = [] then [p.pa] else p.copies), max va a - va, min (va + 4096) (a + n) - va)
    was.filter fun wa => spans.any fun sp => sp.1.any fun pa => decide (pa + sp.2.1 < 4 * wa + 4) && decide (4 * wa < pa + sp.2.2)

/-- Words of a list of pairs that the range names. -/
def State.storesInRange (s : State) (core ctx : Nat) (lo len : DWord) : List Nat :=
  s.wordsInRange core ctx lo len ((s.stores.filter fun y => y.2.core == core && y.2.pa < hostTag).flatMap fun y =>
    (if y.2.copies = [] then [y.2.pa] else y.2.copies).flatMap fun pa => (wordsOf pa y.2.bytes.length).map (·.1))

/-- Words of the range whose value at the home is not in DRAM: dirty in a slice, on their way, or migrated, so that near-memory
commands see them (R277, assumption 81), each with the home clock of that value. Words of elided rows and of SYNC pages are left out. -/
def State.owedInRange (s : State) (core ctx : Nat) (lo len : DWord) : List (Nat × Nat) :=
  let queued := s.wordQ.flatMap fun q => (q.2.filter fun r => r.write).map (·.word)
  let l2 := (s.l2.filter fun y => y.2.dirty != 0 && (s.elision.find? (rowOfPa (4 * y.1))).isNone).map (·.1)
  let moved := (s.sync.filter fun y => !y.2.page).map (·.1)
  ((s.wordsInRange core ctx lo len (l2 ++ queued ++ moved)).dedup).map fun w =>
    (w, if l2.contains w || moved.contains w then s.homeClk else ((s.queuedWrite w).map (·.at_)).getD s.homeClk)

/-- What a `wbr` waits for is over: its stores acknowledged, then the words noted at that moment written to DRAM (R277). -/
def State.wbrReady (s : State) (core ctx : Nat) (lo len : DWord) (owed : Option (List (Nat × Nat))) : Bool :=
  match owed with
  | none => (s.storesInRange core ctx lo len).isEmpty
  | some l => l.isEmpty

def execWbr (h : Hdr) (b : MBody) (s : State) : Host.Outcome State Fault Refusal :=
  issue (.wbr h b) s fun x s =>
    if x.act = 0 then .done s
    else
      let r := x.range b
      let note (l : Option (List (Nat × Nat))) (s : State) : State := s.modWarp x.core x.slot fun w => { w with
        owed := match l with
          | none => w.owed.erase x.entry
          | some l => w.owed.put x.entry l }
      let owed := if x.e.wait = .wbr then x.w.owed.find? x.entry else none
      if !s.wbrReady x.core x.gctx r.1 r.2 owed then .wait (note owed s) .wbr
      else if owed.isSome then .done (note none s)
      else
        let l := s.owedInRange x.core x.gctx r.1 r.2
        if l.isEmpty then .done (note none s) else .wait (note (some l) s) .wbr

def execInvr (h : Hdr) (b : MBody) (s : State) : Host.Outcome State Fault Refusal :=
  issue (.invr h b) s fun x s =>
    if x.act = 0 then .done s
    else
      let r := x.range b
      let ws := s.wordsInRange x.core x.gctx r.1 r.2 ((s.core x.core).l1.map (·.1))
      .done (s.modCore x.core fun c => c.dropClean fun wa => ws.contains wa)

end Sys2Proof.Machine
end

