-- ==== Sys2Proof/Machine/AtomicTx.lean ====
section
/-! DEFINITION. The atomic class (13 R278 to R286): atomics and `cas16` leave for the engine of their word's home
(`ATOMIC_EXECUTE`, `ATOMIC_REPLY`); lane-level transactions open, abort, and commit through `TX_VALIDATE`. -/

namespace Sys2Proof.Machine

/-! ## Atomics -/

/-- A lane of an atomic as issued: its place, operand and comparand. -/
structure AtomLane where
  thread : Nat
  place : Phys
  va : DWord
  x : BitVec 128
  cmp : BitVec 128
  deriving DecidableEq, Repr

/-- Issue the lanes of an atomic instruction in ascending thread order: each counts in the store counter until its reply. -/
def State.issueAtomics (s : State) (x : Ctx) (b : MBody) (op : Nat) (c16 : Bool) (dst : Option Nat) (lanes : List AtomLane) : State :=
  let group := s.nextId
  let scope := if ctlKind b = 2 || ctlKind b = 3 then ctlScope b else 0
  let s := s.each lanes fun s y =>
    let f := s.fresh
    { f.2 with atomics := f.2.atomics.put f.1 {
        core := x.core, slot := x.slot, team := x.team, thread := y.thread, vf := x.vf, pc := x.pc, va := y.va, group := group,
        pa := y.place.pa, size := memSize b, op := op, ty := ctlType b, x := y.x, cmp := y.cmp, dst := dst, uni := x.u,
        scope := ctlScope b, kind := ctlKind b, cas16 := c16, begun := false, old := none, stamp := 0,
        rel := s.releaseInfo x.core x.slot y.thread scope, got := [] } }
  s.modWarp x.core x.slot fun w => { w with cntStore := w.cntStore + lanes.length }

/-- The shared issue of `atom`, `ared` and `cas16`: lane checks, the wait of a release for the store counter, room in
it, and for loads of the core that have still to take some of the bytes (R278 to R280, R275, R347, Table 6.1). `second` is the distance of the second operand group, 0 for none. -/
def atomEff (x : Ctx) (s : State) (b : MBody) (op : Nat) (c16 : Bool) (dst : Option Nat) (second : Nat) : Eff :=
  let n := memBytes b
  match checkLanes s x.threads (fun t s => x.globalLane (x.ea b t) n .atomic true s) (x.ea b) with
  | (.error f, _) => .trap f
  | (.ok lanes, s') =>
    if x.act = 0 then .done s
    else if 2 ≤ ctlKind b && 3 ≤ ctlScope b && x.w.cntStore != 0 then .wait s .fence
    else if 1023 < x.w.cntStore + lanes.length || lanes.any (fun y => y.2.any fun p => s.loadsMeet x.core p.1.pa n) then .stall s
    else
      let group (d : BitVec 8) (t : Nat) : BitVec 128 := BitVec.ofNat 128 (ofBytes (x.groupBytes d n t))
      .done ((s'.bringLanes x.vf lanes).issueAtomics x b op c16 dst (lanes.filterMap fun y => (y.2.head?).map fun p =>
        if second = 0 then ⟨y.1, p.1, x.ea b y.1, group b.d y.1, 0⟩
        else ⟨y.1, p.1, x.ea b y.1, group (b.d + BitVec.ofNat 8 second) y.1, group b.d y.1⟩))

def execAtom (h : Hdr) (b : MBody) (s : State) : Host.Outcome State Fault Refusal :=
  issue (.atom h b) s fun x s =>
    atomEff x s b h.fs.toNat false (some b.d.toNat) (if h.fs = 7 then (if 0xC0 ≤ b.d.toNat then 1 else atomW b) else 0)

def execAred (h : Hdr) (b : MBody) (s : State) : Host.Outcome State Fault Refusal :=
  issue (.ared h b) s fun x s => atomEff x s b h.fs.toNat false none 0

def execCas16 (h : Hdr) (b : MBody) (s : State) : Host.Outcome State Fault Refusal :=
  issue (.cas16 h b) s fun x s => atomEff x s b 7 true (some b.d.toNat) (if 0xC0 ≤ b.d.toNat then 2 else 4)

/-! ## Opening a transaction (R281, R286) -/

/-- ABORTS of a thread's TXSTAT (Table 3.4). -/
def Warp.aborts (w : Warp) (t : Nat) : Nat := bitsOf (w.txstat.get 0 t).toNat 15 8

/-- TXSTAT with SOLO replaced. -/
def txSolo (st : Word) (solo : Bool) : Word := if solo then st ||| 0x80 else st &&& ~~~(0x80#32)

/-- Open a transaction for each thread of Active; `solo` is the thread that opens a solo attempt. -/
def State.openTx (s : State) (x : Ctx) (handler recon : DWord) (solo : Option Nat) : State :=
  s.modWarp x.core x.slot fun w => (threadsOf x.act).foldl (fun (w : Warp) t => { w with
    tx := w.tx.put t ⟨handler, recon, [], [], solo = some t, none, 0⟩
    txstat := w.txstat.set 0 t (txSolo (w.txstat.get 0 t) (solo == some t)) }) w

/-- The thread holds its partition's solo grant. -/
def State.holdsSolo (s : State) (x : Ctx) (t : Nat) : Bool :=
  ((s.part? x.vf).bind (·.soloHolder)) == some (x.core, x.slot, t)

/-- Ask for the partition's solo grant, once (R286). -/
def State.askSolo (s : State) (x : Ctx) (t : Nat) : State :=
  s.modPart x.vf fun p => { p with
    soloWait := if p.soloWait.contains (x.core, x.slot, t) then p.soloWait else p.soloWait ++ [(x.core, x.slot, t)] }

/-- Steps 3 to 5 of R281 for threads without an open transaction. -/
def txOpenEff (h : Hdr) (b : JBody) (x : Ctx) (s : State) : Eff :=
  let open_ (s : State) (solo : Option Nat) : State :=
    (s.openTx x (jTarget x.pc b) (jRecon x.pc b) solo).writeBack x.core x.slot
      ((threadsOf x.act).map fun t => putP (h.fs.setWidth 8) t (solo == some t))
  match (threadsOf x.act).find? fun t => 8 ≤ x.w.aborts t with
  | none => .done (open_ s none)
  | some t =>
    if s.holdsSolo x t then .done ((open_ s (some t)).log x.vf causeSolo 0 false 0 x.core x.pc)
    else .wait (s.askSolo x t) .solo

def execTxbeg (h : Hdr) (b : JBody) (s : State) : Host.Outcome State Fault Refusal :=
  issue (.txbeg h b) s fun x s =>
    let target := jTarget x.pc b
    if x.act = 0 then .done s
    else match s.targetCause x.core x.gctx x.vf target with
      | some c => .trap ⟨c, x.act, if c = causeBadTarget then 0 else target, none⟩
      | none =>
        if !pcShapeOk (jRecon x.pc b) then .trap (plain causeBadTarget x.mask)
        else
          let ab := x.w.inTx x.act
          if ab = 0 then txOpenEff h b x s else .stop (runAborting x s ab (txOpenEff h b))

/-! ## Commit and abort (R283, R284) -/

/-- The word addresses of a set. -/
def setAddrs (l : List TxWord) : List Nat := l.map (·.addr)

/-- Two word lists meet. -/
def meets (a b : List Nat) : Bool := a.any fun x => b.contains x

/-- Rule 1 of R283 between a survivor `t` and a later thread `u`. -/
def Tx.conflicts (t u : Tx) : Bool :=
  meets (setAddrs t.writes) (setAddrs u.reads ++ setAddrs u.writes) || meets (setAddrs t.reads) (setAddrs u.writes)

/-- The survivors of rule 1 among committing threads in ascending order: a solo thread ends the lower ones it
conflicts with. -/
def txSurvivors (c : List (Nat × Tx)) : List (Nat × Tx) :=
  c.foldl (fun w u =>
    if u.2.solo then (w.filter fun t => !t.2.conflicts u.2) ++ [u]
    else if w.any fun t => t.2.conflicts u.2 then w else w ++ [u]) []

/-- The committing transactions of a fragment. -/
def Ctx.txCommitting (x : Ctx) : List (Nat × Tx) :=
  (threadsOf x.act).filterMap fun t => (x.w.tx.find? t).map fun y => (t, y)

/-- `txend`: threads whose transactions are lost already only leave; rule 1 at issue, a wait while the homes validate the survivors, then the lost threads leave (R283). As a
release at `.dev` it first waits for the store counter (R275). -/
def execTxend (h : Hdr) (b : VBody) (s : State) : Host.Outcome State Fault Refusal :=
  issue (.txend h b) s fun x s =>
    let c := x.txCommitting
    let live := c.filter fun y => y.2.lost == 0
    if c.isEmpty then .done s
    else if x.e.wait = .txend || live.isEmpty then
      let m := maskOf (c.map (·.1))
      let s := s.modWarp x.core x.slot fun w => { w with tx := w.tx.filter fun t => !m.getLsbD t.1 }
      .jump s (fun t => if m.getLsbD t then x.w.abortPc t x.next else x.next) 0 (x.w.abortRecon m) true
    else if x.w.cntStore != 0 then .wait s .fence
    else
      let win := (txSurvivors live).map (·.1)
      let f := s.fresh
      .wait (f.2.modWarp x.core x.slot fun w => live.foldl (fun (w : Warp) y =>
        if win.contains y.1 then { w with tx := w.tx.modify y.1 fun z => { z with commit := some f.1 }, cntStore := w.cntStore + 1 }
        else w.loseTx y.1 1) w) .txend

def execTxabt (h : Hdr) (b : VBody) (s : State) : Host.Outcome State Fault Refusal :=
  issue (.txabt h b) s fun x s =>
    let m := x.w.inTx x.act
    if m = 0 then .done s
    else .jump (s.abortTx x.core x.slot m 5) (fun t => if m.getLsbD t then x.w.abortPc t x.next else x.next) 0 (x.w.abortRecon m) true

end Sys2Proof.Machine
end

