-- ==== Sys2Proof/Machine/Integer.lean ====
section
/-! DEFINITION. The integer class (11 R229 to R239). One shape, `intOp`, reads W-bit operands as exact integers, applies an
operation, saturates under SAT and truncates; each instruction names its operation. -/

namespace Sys2Proof.Machine

/-- W is 64 for TY 2 and 3 (R231). -/
def tyBits (t : Nat) : Nat := if 2 ≤ t then 64 else 32
/-- `.i` types are signed. -/
def tySigned (t : Nat) : Bool := t % 2 == 0

/-- The W-bit pattern of an operand for a thread. -/
def Ctx.pat (x : Ctx) (t : Nat) (code : BitVec 8) (th : Nat) : Nat :=
  if 2 ≤ t then (x.op64 code th).toNat else (x.op32 code th).toNat

/-- X(f): a W-bit pattern as an integer by the signedness of TY (R231). -/
def patInt (t p : Nat) : Int := if tySigned t then sextNat p (tyBits t) else p
/-- X(f) of an operand. -/
def Ctx.int (x : Ctx) (t : Nat) (code : BitVec 8) (th : Nat) : Int := patInt t (x.pat t code th)

/-- Clamp to the range of TY (R235). -/
def saturate (t : Nat) (v : Int) : Int :=
  let lo : Int := if tySigned t then -(2 ^ (tyBits t - 1) : Nat) else 0
  let hi : Int := if tySigned t then (2 ^ (tyBits t - 1) : Nat) - 1 else (2 ^ tyBits t : Nat) - 1
  if v < lo then lo else if hi < v then hi else v

/-- A W-bit result (R231, R56). -/
def putTy (t : Nat) (d : BitVec 8) (th : Nat) (v : Int) : RegWrite :=
  if 2 ≤ t then putS d (BitVec.ofInt 64 v) else put32 d th (BitVec.ofInt 32 v) (tySigned t)

/-- The one operation of R235: `f` is the exact value for a thread. -/
def intOp (x : Ctx) (s : State) (t : Nat) (sat : Bool) (d : BitVec 8) (f : Nat → Int) : Eff :=
  results x s (x.threads.map fun th => putTy t d th (if sat then saturate t (f th) else f th)) 0

/-- SAT of Table 11.2. -/
def modSat (m : Nat) : Bool := m.testBit 2

/-- Two-operand members. -/
def int2Op (x : Ctx) (s : State) (b : VBody) (f : Int → Int → Int) : Eff :=
  let t := ty b.mod
  intOp x s t (modSat b.mod.toNat) b.d fun th => f (x.int t b.a th) (x.int t b.b th)
/-- One-operand members. -/
def int1Op (x : Ctx) (s : State) (b : VBody) (f : Int → Int) : Eff :=
  let t := ty b.mod
  intOp x s t (modSat b.mod.toNat) b.d fun th => f (x.int t b.a th)
/-- Bitwise members on W-bit patterns. -/
def bit2Op (x : Ctx) (s : State) (b : VBody) (f : Nat → Nat → Nat) : Eff :=
  let t := ty b.mod
  intOp x s t false b.d fun th => f (x.pat t b.a th) (x.pat t b.b th)

/-- The immediate as b, extended to W bits by the signedness of TY (R236). -/
def immInt (t : Nat) (imm : BitVec 32) : Int := if tySigned t then imm.toInt else imm.toNat
/-- Immediate members. -/
def immOp (x : Ctx) (s : State) (b : IBody) (f : Nat → Int → Int) : Eff :=
  let t := b.mod.toNat % 4
  intOp x s t (modSat b.mod.toNat) b.d fun th => f th (immInt t b.imm)
/-- The W-bit pattern of the immediate. -/
def immPat (t : Nat) (imm : BitVec 32) : Nat := (immInt t imm % (2 ^ tyBits t : Nat)).toNat

/-- The higher half of a product (Table 11.4). -/
def mulHigh (t : Nat) (a b : Int) : Int := (a * b) / (2 ^ tyBits t : Nat)

/-- W-bit shifts of R239 by an amount. -/
def shiftLeft (w a n : Nat) : Nat := if w ≤ n then 0 else a <<< n % 2 ^ w
def shiftRight (w a n : Nat) : Nat := if w ≤ n then 0 else a >>> n
def shiftArith (w a n : Nat) : Nat :=
  if a.testBit (w - 1) then (if w ≤ n then 2 ^ w - 1 else (a >>> n) + (2 ^ w - 2 ^ (w - n))) else if w ≤ n then 0 else a >>> n
def rotateLeft (w a n : Nat) : Nat := let k := n % w; (a <<< k % 2 ^ w) + (a >>> (w - k))

/-- The amount of a shift: X(B) unsigned, or the constant under IB. -/
def Ctx.orConst (x : Ctx) (t : Nat) (m : BitVec 24) (flag : Nat) (code : BitVec 8) (th : Nat) : Nat :=
  if m.getLsbD flag then code.toNat else x.pat t code th
/-- Shift members. -/
def shiftOp (x : Ctx) (s : State) (b : VBody) (f : Nat → Nat → Nat → Nat) : Eff :=
  let t := ty b.mod
  intOp x s t false b.d fun th => f (tyBits t) (x.pat t b.a th) (x.orConst t b.mod 11 b.b th)

def execAdd (h : Hdr) (b : VBody) (s : State) : Host.Outcome State Fault Refusal :=
  issue (.add h b) s fun x s => int2Op x s b (· + ·)
def execSub (h : Hdr) (b : VBody) (s : State) : Host.Outcome State Fault Refusal :=
  issue (.sub h b) s fun x s => int2Op x s b (· - ·)
def execMul (h : Hdr) (b : VBody) (s : State) : Host.Outcome State Fault Refusal :=
  issue (.mul h b) s fun x s => int2Op x s b (· * ·)
def execMulh (h : Hdr) (b : VBody) (s : State) : Host.Outcome State Fault Refusal :=
  issue (.mulh h b) s fun x s => int2Op x s b (mulHigh (ty b.mod))
def execMad (h : Hdr) (b : VBody) (s : State) : Host.Outcome State Fault Refusal :=
  issue (.mad h b) s fun x s =>
    let t := ty b.mod
    intOp x s t (modSat b.mod.toNat) b.d fun th => x.int t b.a th * x.int t b.b th + x.int t b.c th
def execMin (h : Hdr) (b : VBody) (s : State) : Host.Outcome State Fault Refusal :=
  issue (.min h b) s fun x s => int2Op x s b fun p q => if p ≤ q then p else q
def execMax (h : Hdr) (b : VBody) (s : State) : Host.Outcome State Fault Refusal :=
  issue (.max h b) s fun x s => int2Op x s b fun p q => if p ≤ q then q else p
def execAbs (h : Hdr) (b : VBody) (s : State) : Host.Outcome State Fault Refusal :=
  issue (.abs h b) s fun x s => int1Op x s b fun p => if p < 0 then -p else p
def execNeg (h : Hdr) (b : VBody) (s : State) : Host.Outcome State Fault Refusal :=
  issue (.neg h b) s fun x s => int1Op x s b fun p => -p
def execAnd (h : Hdr) (b : VBody) (s : State) : Host.Outcome State Fault Refusal :=
  issue (.and h b) s fun x s => bit2Op x s b (· &&& ·)
def execOr (h : Hdr) (b : VBody) (s : State) : Host.Outcome State Fault Refusal :=
  issue (.or h b) s fun x s => bit2Op x s b (· ||| ·)
def execXor (h : Hdr) (b : VBody) (s : State) : Host.Outcome State Fault Refusal :=
  issue (.xor h b) s fun x s => bit2Op x s b (· ^^^ ·)
def execNot (h : Hdr) (b : VBody) (s : State) : Host.Outcome State Fault Refusal :=
  issue (.not h b) s fun x s => bit2Op x s b fun p _ => 2 ^ tyBits (ty b.mod) - 1 - p
def execAndn (h : Hdr) (b : VBody) (s : State) : Host.Outcome State Fault Refusal :=
  issue (.andn h b) s fun x s => bit2Op x s b fun p q => p &&& (2 ^ tyBits (ty b.mod) - 1 - q)
def execShl (h : Hdr) (b : VBody) (s : State) : Host.Outcome State Fault Refusal :=
  issue (.shl h b) s fun x s => shiftOp x s b shiftLeft
def execShr (h : Hdr) (b : VBody) (s : State) : Host.Outcome State Fault Refusal :=
  issue (.shr h b) s fun x s => shiftOp x s b shiftRight
def execSar (h : Hdr) (b : VBody) (s : State) : Host.Outcome State Fault Refusal :=
  issue (.sar h b) s fun x s => shiftOp x s b shiftArith
def execRot (h : Hdr) (b : VBody) (s : State) : Host.Outcome State Fault Refusal :=
  issue (.rot h b) s fun x s => shiftOp x s b rotateLeft
/-- `sel`: the predicate X, negated by PN, of the thread (with U of the lowest thread, R233). -/
def execSel (h : Hdr) (b : VBody) (s : State) : Host.Outcome State Fault Refusal :=
  issue (.sel h b) s fun x s =>
    let t := ty b.mod
    intOp x s t false b.d fun th => x.pat t (if x.p (bitsOf b.mod.toNat 6 4) th ^^ b.mod.getLsbD 7 then b.a else b.b) th
def execMov (h : Hdr) (b : VBody) (s : State) : Host.Outcome State Fault Refusal :=
  issue (.mov h b) s fun x s => bit2Op x s b fun p _ => p
/-- `cmp.cc` (R237). -/
def execCmp (h : Hdr) (b : VBody) (s : State) : Host.Outcome State Fault Refusal :=
  issue (.cmp h b) s fun x s =>
    let t := ty b.mod
    perThreadP x s b.d fun th => (intCC (bitsOf b.mod.toNat 6 4) (x.int t b.a th) (x.int t b.b th), 0)
def execAddi (h : Hdr) (b : IBody) (s : State) : Host.Outcome State Fault Refusal :=
  issue (.addi h b) s fun x s => immOp x s b fun th i => x.int (b.mod.toNat % 4) b.a th + i
def execAndi (h : Hdr) (b : IBody) (s : State) : Host.Outcome State Fault Refusal :=
  issue (.andi h b) s fun x s =>
    let t := b.mod.toNat % 4
    intOp x s t false b.d fun th => (x.pat t b.a th &&& immPat t b.imm : Nat)
def execOri (h : Hdr) (b : IBody) (s : State) : Host.Outcome State Fault Refusal :=
  issue (.ori h b) s fun x s =>
    let t := b.mod.toNat % 4
    intOp x s t false b.d fun th => (x.pat t b.a th ||| immPat t b.imm : Nat)
def execMovi (h : Hdr) (b : IBody) (s : State) : Host.Outcome State Fault Refusal :=
  issue (.movi h b) s fun x s => immOp x s b fun _ i => i
def execCmpi (h : Hdr) (b : IBody) (s : State) : Host.Outcome State Fault Refusal :=
  issue (.cmpi h b) s fun x s =>
    let t := b.mod.toNat % 4
    perThreadP x s b.d fun th => (intCC (bitsOf b.mod.toNat 6 4) (x.int t b.a th) (immInt t b.imm), 0)

/-- E(f) of R238: a 32-bit operand extended by the signedness of TY. -/
def Ctx.ext (x : Ctx) (t : Nat) (code : BitVec 8) (th : Nat) : Int :=
  let v := x.op32 code th
  if tySigned t then v.toInt else v.toNat
/-- 64-bit sums (R238). -/
def wideOp (x : Ctx) (s : State) (d : BitVec 8) (f : Nat → Int) : Eff :=
  results x s (x.threads.flatMap fun th => put64 d th (BitVec.ofInt 64 (f th))) 0

def execLea (h : Hdr) (b : VBody) (s : State) : Host.Outcome State Fault Refusal :=
  issue (.lea h b) s fun x s =>
    wideOp x s b.d fun th => (x.op64 b.a th).toNat + x.ext (ty b.mod) b.b th * (2 ^ bitsOf b.mod.toNat 6 4 : Nat)
def execAdd64 (h : Hdr) (b : VBody) (s : State) : Host.Outcome State Fault Refusal :=
  issue (.add64 h b) s fun x s =>
    wideOp x s b.d fun th => (x.op64 b.a th).toNat + if 2 ≤ ty b.mod then ((x.op64 b.b th).toNat : Int) else x.ext (ty b.mod) b.b th
def execMad64 (h : Hdr) (b : VBody) (s : State) : Host.Outcome State Fault Refusal :=
  issue (.mad64 h b) s fun x s =>
    wideOp x s b.d fun th => x.ext (ty b.mod) b.a th * x.ext (ty b.mod) b.b th + (x.op64 b.c th).toNat

end Sys2Proof.Machine
end

