-- ==== Sys2Proof/Machine/BitOps.lean ====
section
/-! DEFINITION. The bit class (11 R240): operations on W-bit patterns, per thread or once under U. -/

namespace Sys2Proof.Machine

/-- Ones of a pattern. -/
def onesOf (w a : Nat) : Nat := ((List.range w).filter a.testBit).length
/-- Zeros above the highest one; W for 0. -/
def leadingZeros (w a : Nat) : Nat := if a = 0 then w else w - 1 - Nat.log2 a
/-- Zeros below the lowest one; W for 0. -/
def trailingZeros (w a : Nat) : Nat := ((List.range w).find? a.testBit).getD w
/-- Bit i moved to bit W − 1 − i. -/
def reverseBits (w a : Nat) : Nat := (List.range w).foldl (fun acc i => if a.testBit i then acc + 2 ^ (w - 1 - i) else acc) 0
/-- `bfe`: the field at p of length l, extended by the signedness. -/
def extractField (w : Nat) (signed : Bool) (a pos len : Nat) : Int :=
  let p := min pos w
  let l := min len (w - p)
  let f := (a >>> p) % 2 ^ l
  if l = 0 then 0 else if signed then sextNat f l else f
/-- `bfi`: a's low l bits placed at p in b. -/
def insertField (w a b pos len : Nat) : Nat :=
  let p := min pos w
  let l := min len (w - p)
  let m := (2 ^ l - 1) <<< p
  (b &&& (2 ^ w - 1 - m)) ||| ((a <<< p) &&& m)
/-- `prmt`: bytes of {b, a} chosen by nibbles of a selector. -/
def permuteBytes (a b sel : Nat) : Nat :=
  let x := b * 2 ^ 32 + a
  (List.range 4).foldl (fun acc i =>
    let n := sel / 16 ^ i % 16
    let y := x / 256 ^ (n % 8) % 256
    let z := if 8 ≤ n then (if 128 ≤ y then 255 else 0) else y
    acc + z * 256 ^ i) 0
/-- `shfn`: a funnel shift of {b, a}. -/
def funnelShift (w : Nat) (left : Bool) (a b n : Nat) : Nat :=
  let x := b * 2 ^ w + a
  let k := min n w
  if left then (x <<< k) / 2 ^ w % 2 ^ w else (x >>> k) % 2 ^ w
/-- `lop3`: bit i is LUT[4·a + 2·b + c]. -/
def lookupBits (w lut a b c : Nat) : Nat :=
  (List.range w).foldl (fun acc i =>
    let k := (if a.testBit i then 4 else 0) + (if b.testBit i then 2 else 0) + if c.testBit i then 1 else 0
    if lut.testBit k then acc + 2 ^ i else acc) 0

/-- One-operand bit members. -/
def bit1Op (x : Ctx) (s : State) (b : VBody) (f : Nat → Nat → Nat) : Eff :=
  let t := ty b.mod
  intOp x s t false b.d fun th => f (tyBits t) (x.pat t b.a th)

def execPopc (h : Hdr) (b : VBody) (s : State) : Host.Outcome State Fault Refusal :=
  issue (.popc h b) s fun x s => bit1Op x s b onesOf
def execClz (h : Hdr) (b : VBody) (s : State) : Host.Outcome State Fault Refusal :=
  issue (.clz h b) s fun x s => bit1Op x s b leadingZeros
def execCtz (h : Hdr) (b : VBody) (s : State) : Host.Outcome State Fault Refusal :=
  issue (.ctz h b) s fun x s => bit1Op x s b trailingZeros
def execBrev (h : Hdr) (b : VBody) (s : State) : Host.Outcome State Fault Refusal :=
  issue (.brev h b) s fun x s => bit1Op x s b reverseBits
def execBfe (h : Hdr) (b : VBody) (s : State) : Host.Outcome State Fault Refusal :=
  issue (.bfe h b) s fun x s =>
    let t := ty b.mod
    intOp x s t false b.d fun th =>
      extractField (tyBits t) (tySigned t) (x.pat t b.a th) (x.orConst t b.mod 11 b.b th) (x.orConst t b.mod 10 b.c th)
def execBfi (h : Hdr) (b : VBody) (s : State) : Host.Outcome State Fault Refusal :=
  issue (.bfi h b) s fun x s =>
    let t := ty b.mod
    intOp x s t false b.d fun th =>
      insertField (tyBits t) (x.pat t b.a th) (x.pat t b.b th) (x.orConst t b.mod 10 b.c th) (x.orConst t b.mod 9 b.e th)
def execPrmt (h : Hdr) (b : VBody) (s : State) : Host.Outcome State Fault Refusal :=
  issue (.prmt h b) s fun x s =>
    let t := ty b.mod
    intOp x s t false b.d fun th =>
      permuteBytes (x.pat t b.a th) (x.pat t b.b th) (if b.mod.getLsbD 10 then (b.e ++ b.c).toNat else x.pat t b.c th % 65536)
def execShfn (h : Hdr) (b : VBody) (s : State) : Host.Outcome State Fault Refusal :=
  issue (.shfn h b) s fun x s =>
    let t := ty b.mod
    intOp x s t false b.d fun th =>
      funnelShift (tyBits t) (b.mod.getLsbD 8) (x.pat t b.a th) (x.pat t b.b th) (x.orConst t b.mod 10 b.c th)
def execLop3 (h : Hdr) (b : VBody) (s : State) : Host.Outcome State Fault Refusal :=
  issue (.lop3 h b) s fun x s =>
    let t := ty b.mod
    intOp x s t false b.d fun th =>
      lookupBits (tyBits t) (bitsOf b.mod.toNat 23 16) (x.pat t b.a th) (x.pat t b.b th) (x.pat t b.c th)

end Sys2Proof.Machine
end

