-- ==== Sys2Proof/Machine/Fp32.lean ====
section
/-! DEFINITION. The FP32 class (12 R256 to R260). -/

namespace Sys2Proof.Machine

/-- An FP32 operand as an exact value. -/
def Ctx.fl (x : Ctx) (code : BitVec 8) (t : Nat) : Fv := f32.value (x.op32 code t).toNat

/-- A 32-bit result with flags. -/
def word (r : Nat × BitVec 5) : Word × BitVec 5 := (BitVec.ofNat 32 r.1, r.2)

/-- Two-operand FP32 arithmetic (R256). -/
def fp2Op (x : Ctx) (s : State) (b : VBody) (op : Fv → Fv → Option Fv) : Eff :=
  perThreadF x s b.d false fun t =>
    let p := x.fl b.a t
    let q := x.fl b.b t
    word (arith f32 (ieee (modRm b.mod)) [p, q] (op p q))

def execFadd (h : Hdr) (b : VBody) (s : State) : Host.Outcome State Fault Refusal :=
  issue (.fadd h b) s fun x s => fp2Op x s b (fvAdd (modRm b.mod))
def execFsub (h : Hdr) (b : VBody) (s : State) : Host.Outcome State Fault Refusal :=
  issue (.fsub h b) s fun x s => fp2Op x s b fun p q => fvAdd (modRm b.mod) p q.negate
def execFmul (h : Hdr) (b : VBody) (s : State) : Host.Outcome State Fault Refusal :=
  issue (.fmul h b) s fun x s => fp2Op x s b fvMul
def execFfma (h : Hdr) (b : VBody) (s : State) : Host.Outcome State Fault Refusal :=
  issue (.ffma h b) s fun x s => perThreadF x s b.d false fun t =>
    word (fmaOf f32 (ieee (modRm b.mod)) (x.fl b.a t) (x.fl b.b t) (x.fl b.c t))

/-- `fmin` and `fmax` (R257). -/
def fpSelect (x : Ctx) (s : State) (b : VBody) (big : Bool) : Eff :=
  perThreadF x s b.d false fun t =>
    word (minMax f32 big (x.op32 b.a t).toNat (x.op32 b.b t).toNat (x.fl b.a t) (x.fl b.b t))
def execFmin (h : Hdr) (b : VBody) (s : State) : Host.Outcome State Fault Refusal :=
  issue (.fmin h b) s fun x s => fpSelect x s b false
def execFmax (h : Hdr) (b : VBody) (s : State) : Host.Outcome State Fault Refusal :=
  issue (.fmax h b) s fun x s => fpSelect x s b true

def execFcmp (h : Hdr) (b : VBody) (s : State) : Host.Outcome State Fault Refusal :=
  issue (.fcmp h b) s fun x s => perThreadP x s b.d fun t => cmpCC (modCc b.mod) (x.fl b.a t) (x.fl b.b t)

/-- Round a value to an integral value in a direction; the sign is kept and NX is not raised (Table 12.5). -/
def integral (rm : Nat) (v : Fv) : Fv :=
  match v with
  | .fin n m e => if 0 ≤ e then v else .fin n (roundMag rm n m (-e)).1 0
  | _ => v
def execFrnd (h : Hdr) (b : VBody) (s : State) : Host.Outcome State Fault Refusal :=
  issue (.frnd h b) s fun x s => perThreadF x s b.d false fun t =>
    let p := x.fl b.a t
    word (arith f32 (ieee 0) [p] (some (integral (modRm b.mod) p)))

/-- The class bit of R259. -/
def classBit (v : Fv) : Nat :=
  match v with
  | .nan sig => if sig then 8 else 9
  | .inf n => if n then 0 else 7
  | .fin n m _ =>
    if m = 0 then (if n then 3 else 4) else if m < 2 ^ 23 then (if n then 2 else 5) else if n then 1 else 6
def execFclass (h : Hdr) (b : VBody) (s : State) : Host.Outcome State Fault Refusal :=
  issue (.fclass h b) s fun x s => perThread x s b.d false fun t => BitVec.ofNat 32 (2 ^ classBit (x.fl b.a t))

/-- a × 2^b (Table 12.5). -/
def scaleBy (k : Int) (v : Fv) : Fv :=
  match v with
  | .fin n m e => .fin n m (e + k)
  | _ => v
def execFscale (h : Hdr) (b : VBody) (s : State) : Host.Outcome State Fault Refusal :=
  issue (.fscale h b) s fun x s => perThreadF x s b.d false fun t =>
    let p := x.fl b.a t
    word (arith f32 (ieee (modRm b.mod)) [p] (some (scaleBy (x.op32 b.b t).toInt p)))

/-- floor(log2|a|) as `.i32` (R259). -/
def exponentOf (v : Fv) : Word × BitVec 5 :=
  match v with
  | .nan sig => (0x7FFFFFFF, if sig then flagNV else 0)
  | .inf _ => (0x7FFFFFFF, 0)
  | .fin _ m e => (if m = 0 then 0x80000000 else BitVec.ofInt 32 (floorLog2 m e), 0)
def execFexpt (h : Hdr) (b : VBody) (s : State) : Host.Outcome State Fault Refusal :=
  issue (.fexpt h b) s fun x s => perThreadF x s b.d true fun t => exponentOf (x.fl b.a t)

/-- The exact sum of products and an addend, rounded once to FP32 (R260). -/
def dotOf (rm : Nat) (xs ys : List Fv) (c : Fv) : Nat × BitVec 5 :=
  let ps := (xs.zip ys).map fun p => if p.1.isNan || p.2.isNan then some (Fv.nan false) else fvMul p.1 p.2
  let ins := c :: (xs ++ ys)
  let infs := (c :: ps.filterMap id).filter Fv.isInf
  let invalid := ps.any Option.isNone || (infs.any Fv.neg && infs.any fun v => !v.neg)
  if invalid || ins.any Fv.isNan then (f32.nanCode, if invalid || ins.any Fv.isSig then flagNV else 0)
  else arith f32 (ieee rm) [] (ps.foldl (fun acc p =>
    match acc, p with
    | some u, some v => fvAdd rm u v
    | _, _ => none) (some c))

/-- Element `k` of a word as a code of a format. -/
def elemCode (f : Fmt) (w : Word) (k : Nat) : Nat :=
  let n := f.eb + f.mb + 1
  w.toNat / 2 ^ (n * k) % 2 ^ n
/-- Element `k` of a word, flushed (R140). -/
def elemFlushed (f : Fmt) (w : Word) (k : Nat) : Fv := f.flush (f.value (elemCode f w k))
/-- The float format of a type code (Table 12.3). -/
def fmtOf (code : Nat) : Fmt :=
  match code with
  | 1 => f16
  | 2 => bf16
  | 3 => e4m3
  | 4 => e5m2
  | _ => f32

def execFdot2 (h : Hdr) (b : VBody) (s : State) : Host.Outcome State Fault Refusal :=
  issue (.fdot2 h b) s fun x s => perThreadF x s b.d false fun t =>
    let f := fmtOf (modDt b.mod)
    word (dotOf (modRm b.mod) ((List.range 2).map (elemFlushed f (x.op32 b.a t))) ((List.range 2).map (elemFlushed f (x.op32 b.b t)))
      (x.fl b.c t))

end Sys2Proof.Machine
end

