-- ==== Sys2Proof/Machine/Convert.lean ====
section
/-! DEFINITION. The convert class (12 R264 to R266). -/

namespace Sys2Proof.Machine

/-- Bits and signedness of an integer type code 5–10. -/
def intTypeBits (code : Nat) : Nat := [32, 32, 16, 16, 8, 8].getD (code - 5) 32
def intTypeSigned (code : Nat) : Bool := code % 2 == 1

/-- Element `k` of a source type as an exact value (Table 12.3). -/
def cvtSource (st : Nat) (w : Word) (k : Nat) : Fv :=
  if st ≤ 4 then (fmtOf st).value (elemCode (fmtOf st) w k)
  else
    let n := intTypeBits st
    let v := w.toNat / 2 ^ (n * k) % 2 ^ n
    Fv.ofInt (if intTypeSigned st then sextNat v n else v)

/-- `cvt` of one value (R264). -/
def cvtValue (st dt rm k : Nat) (sat : Bool) (w : Word) : Word × BitVec 5 :=
  let v := cvtSource st w k
  if dt ≤ 4 then word (convert (fmtOf dt) rm sat v)
  else
    let n := intTypeBits dt
    let lo : Int := if intTypeSigned dt then -(2 ^ (n - 1) : Nat) else 0
    let hi : Int := if intTypeSigned dt then (2 ^ (n - 1) : Nat) - 1 else (2 ^ n : Nat) - 1
    let r := toIntRange rm v lo hi
    (BitVec.ofInt 32 r.1, r.2)

def execCvt (h : Hdr) (b : VBody) (s : State) : Host.Outcome State Fault Refusal :=
  issue (.cvt h b) s fun x s =>
    let dt := modDt b.mod
    perThreadF x s b.d (5 ≤ dt && intTypeSigned dt) fun t =>
      cvtValue (modSt b.mod) dt (modRm b.mod) (modEl b.mod) (b.mod.getLsbD 7) (x.op32 b.a t)

/-! ## Q4 groups (R266) -/

/-- Groups of 32 threads that hold an Active thread. -/
def q4Groups (x : Ctx) : List Nat := [0, 32].filter fun g => (List.range 32).any fun i => x.act.getLsbD (g + i)
/-- Type and NEAREST flag of the instruction's slot. -/
def q4Slot (x : Ctx) : Nat × Bool :=
  let n := (x.lr.fmt.getD x.f.hdr.fs.toNat 0).toNat
  (n % 4, bitsOf n 31 24 == 1)
/-- Quantise a group: positions outside Active contribute +0. -/
def q4Group (x : Ctx) (b : VBody) (g : Nat) : Nat × List Nat × BitVec 5 :=
  let sl := q4Slot x
  q4Quantise sl.1 sl.2 ((List.range 32).map fun i => if x.act.getLsbD (g + i) then x.fl b.a (g + i) else .fin false 0 0)
/-- Active threads of a group. -/
def groupThreads (x : Ctx) (g : Nat) : List Nat := (threadsOf x.act).filter fun t => t / 32 * 32 == g

def execCvtq (h : Hdr) (b : VBody) (s : State) : Host.Outcome State Fault Refusal :=
  issue (.cvtq h b) s fun x s =>
    let qs := (q4Groups x).map fun g => (g, q4Group x b g)
    results x s (qs.flatMap fun q => (groupThreads x q.1).map fun t =>
        let i := t % 32
        let v := if i ≤ 3 then (List.range 8).foldl (fun acc n => acc + (q.2.2.1.getD (8 * i + n) 0) * 16 ^ n) 0
          else if i = 4 then q.2.1 else 0
        put32 b.d t (BitVec.ofNat 32 v) false)
      (qs.foldl (fun f q => f ||| q.2.2.2) 0)

def execCvsc (h : Hdr) (b : VBody) (s : State) : Host.Outcome State Fault Refusal :=
  issue (.cvsc h b) s fun x s =>
    let qs := (q4Groups x).map fun g => (g, q4Group x b g)
    results x s (qs.flatMap fun q => (groupThreads x q.1).map fun t => put32 b.d t (BitVec.ofNat 32 q.2.1) false)
      (qs.foldl (fun f q => f ||| (q.2.2.2 &&& flagNV)) 0)

def execCvtdq (h : Hdr) (b : VBody) (s : State) : Host.Outcome State Fault Refusal :=
  issue (.cvtdq h b) s fun x s =>
    results x s ((q4Groups x).flatMap fun g =>
      let w (j : Nat) : Nat := if x.act.getLsbD (g + j) then (x.op32 b.a (g + j)).toNat else 0
      (groupThreads x g).map fun t =>
        let i := t % 32
        put32 b.d t (q4Decode (w 4 % 256) (w (i / 8) / 16 ^ (i % 8) % 16)) false) 0

/-! ## pack and unpack (R265) -/

def execPack (h : Hdr) (b : VBody) (s : State) : Host.Outcome State Fault Refusal :=
  issue (.pack h b) s fun x s => perThreadF x s b.d false fun t =>
    let f := fmtOf (modDt b.mod)
    let n := f.eb + f.mb + 1
    let srcs := if n = 16 then [b.a, b.b] else [b.a, b.b, b.c, b.e]
    let rs := srcs.map fun c => convert f (modRm b.mod) (b.mod.getLsbD 7) (x.fl c t)
    (BitVec.ofNat 32 (rs.foldr (fun r acc => r.1 + 2 ^ n * acc) 0), rs.foldl (fun fl r => fl ||| r.2) 0)

def execUnpack (h : Hdr) (b : VBody) (s : State) : Host.Outcome State Fault Refusal :=
  issue (.unpack h b) s fun x s => perThreadF x s b.d false fun t => cvtValue (modSt b.mod) 0 0 (modEl b.mod) false (x.op32 b.a t)

end Sys2Proof.Machine
end

