-- ==== Sys2Proof/Machine/Launch.lean ====
section
/-! DEFINITION. Acceptance of a launch record (02 R44 to R53; 17 R353 to R355): limits, placement variants, refusal, the
dependency counter; the child-grid instructions `glaunch` and `gwait` (10 R223, R224); acceptance from a launch queue
(05 R104). -/

namespace Sys2Proof.Machine

/-! ## The defect-map signature (R51) -/

/-- The bytes of a bitmap of `n` bits. -/
def bitmapBytes (n : Nat) (l : List Nat) : List Nat :=
  (List.range (n / 8)).map fun i => (List.range 8).foldl (fun x j => if l.contains (8 * i + j) then x + 2 ^ j else x) 0

/-- A Sorica entry's STATE: fused off where the part is, otherwise as listed (Table 5.7). -/
def State.soricaSt (s : State) (kind ix : Nat) : Nat :=
  if s.fuses.retired.contains (kind, ix) then 2 else ((s.sorica.find? (kind * 65536 + ix)).map (·.st)).getD 0

/-- Assigned resources that are present. -/
def State.present (s : State) (kind : Nat) (l : List Nat) : List Nat := l.filter fun i => s.soricaSt kind i < 2

/-- VARSIG of a partition as it stands. -/
def State.varsig (s : State) (p : Partition) : DWord :=
  BitVec.ofNat 64 (crc64 0 (bitmapBytes 96 (s.present 1 p.hives) ++ bitmapBytes 18432 (s.present 2 p.cells) ++
    bitmapBytes 8 (s.present 4 p.stks) ++ bitmapBytes 256 (s.present 5 p.channels)))

/-! ## The record (Table 2.5) -/

/-- The fields of a launch record. -/
def launchRec (b : List Byte) : LaunchRec where
  entry := BitVec.ofNat 64 (fieldOf b 0x00 8)
  mstream := BitVec.ofNat 64 (fieldOf b 0x08 8)
  gx := fieldOf b 0x10 4
  gy := fieldOf b 0x14 4
  gz := fieldOf b 0x18 4
  flags := fieldOf b 0x1D 3
  tx := fieldOf b 0x20 2
  ty := fieldOf b 0x22 2
  tz := fieldOf b 0x24 2
  warps := fieldOf b 0x26 1
  vregs := fieldOf b 0x28 2
  sregs := fieldOf b 0x2A 1
  accs := fieldOf b 0x2B 1
  comb := fieldOf b 0x2C 4
  handler := BitVec.ofNat 64 (fieldOf b 0x30 8)
  watchdog := BitVec.ofNat 64 (fieldOf b 0x38 8)
  params := BitVec.ofNat 64 (fieldOf b 0x40 8)
  counter := BitVec.ofNat 64 (fieldOf b 0x48 8)
  increment := BitVec.ofNat 64 (fieldOf b 0x50 8)
  depAddr := BitVec.ofNat 64 (fieldOf b 0x58 8)
  depTarget := BitVec.ofNat 64 (fieldOf b 0x60 8)
  priority := fieldOf b 0x68 1
  screen := fieldOf b 0x69 1
  variants := BitVec.ofNat 64 (fieldOf b 0x70 8)
  fmt := (List.range 8).map fun i => BitVec.ofNat 64 (fieldOf b (0x80 + 8 * i) 8)
  reservedOk := fieldOf b 0x27 1 == 0 && fieldOf b 0x6A 6 == 0 && fieldOf b 0x78 8 == 0 && fieldOf b 0xC0 64 == 0

/-- Threads of a team, and teams of a grid. -/
def LaunchRec.threads (r : LaunchRec) : Nat := r.tx * r.ty * r.tz
def LaunchRec.teams (r : LaunchRec) : Nat := r.gx * r.gy * r.gz
/-- Cells of a team's comb allocation (R73). -/
def LaunchRec.cells (r : LaunchRec) : Nat := (r.comb + 32767) / 32768
def LaunchRec.inOrder (r : LaunchRec) : Bool := r.flags.testBit 1

/-- Every "refused" limit of Table 2.5 holds. -/
def LaunchRec.valid (r : LaunchRec) : Bool :=
  r.reservedOk && 1 ≤ r.gx && 1 ≤ r.gy && 1 ≤ r.gz && r.flags < 8 && 1 ≤ r.threads && r.threads ≤ 1024 &&
    r.warps == (r.threads + 63) / 64 && 16 ≤ r.vregs && r.vregs ≤ 192 && r.vregs % 16 == 0 && r.sregs ≤ 64 && r.accs ≤ 8 &&
    r.comb % 4096 == 0 && r.comb ≤ 0x600000 && r.counter.toNat % 16 == 0 && r.depAddr.toNat % 8 == 0 && r.priority ≤ 3 &&
    (r.screen == 0 || (4 ≤ r.screen && r.screen ≤ 20)) && r.variants.toNat % 16 == 0

/-- Usable cells of a hive for a partition, ascending, numbered within the hive (R73). -/
def State.usableCells (s : State) (p : Partition) (hive : Nat) : List Nat :=
  ((List.range 192).filter fun c => p.cells.contains (192 * hive + c)).filter fun c => s.soricaSt 2 (192 * hive + c) < 2

/-- R355: a team fits an empty core of some hive of the partition. -/
def State.hasRoom (s : State) (p : Partition) (r : LaunchRec) : Bool :=
  decide (r.warps * r.vregs ≤ 3072) && (s.present 1 p.hives).any fun h =>
    decide (r.cells ≤ (s.usableCells p h).length) && (List.range 4).any fun i => decide (s.soricaSt 15 (4 * h + i) < 2)

/-! ## Refusal (R49) -/

/-- Log a fault of an engine's virtual access on a die: with its physical address where the failure lies behind the translation,
and with that of the entry where a walk was refused (R107); for a record of several words that of the record (assumption 96). -/
def State.logVirt (s : State) (die ctx vf cause : Nat) (va : DWord) (kind idx : Nat) (detail : DWord) : State :=
  if cause = causeRowDenied || cause = causeUncorr then
    match s.resolveDie die ctx va .read with
    | .ok x => s.logPhys vf cause x.pa (some va) kind idx detail
    | .error _ => match s.walkDenied die ctx va with
      | some pa => s.logPhys vf cause pa (some va) kind idx detail
      | none => s.log vf cause va true kind idx detail
  else s.log vf cause va (va != 0) kind idx detail

/-- Refuse a grid whose record has been read: the error word, the log, then the increment. -/
def State.refuse (s : State) (ctx vf : Nat) (r : LaunchRec) (lrec : DWord) (cause : Nat) (extra : List Nat) : State :=
  if r.counter = 0 || r.counter.toNat % 16 != 0 then s.logVirt 0 ctx vf cause lrec 8 4 0
  else ((s.ewError ctx vf r.counter cause (extra ++ seenBit cause)).logVirt 0 ctx vf cause lrec 8 4 0).counterAdd ctx vf r.counter r.increment.toNat noParty

/-! ## Variants (R52) -/

/-- The selected variant: entry PC, matrix-stream PC, index; or the cause of a refusal. The table is read in one step (assumption
107). -/
def State.variant (s : State) (ctx vf : Nat) (r : LaunchRec) (sig : DWord) : Except Nat (DWord × DWord × Word) × State :=
  if r.variants = 0 then (.ok (r.entry, r.mstream, 0xFFFFFFFF), s)
  else match s.readVirt 0 ctx vf r.variants 16 .read with
    | (.error c, s) => (.error c, s)
    | (.ok h, s) =>
      let n := fieldOf h 0 4
      if n = 0 || 256 < n || fieldOf h 4 12 != 0 then (.error causeInvalid, s)
      else match s.readVirt 0 ctx vf (r.variants + 16) (32 * n) .read with
        | (.error c, s) => (.error c, s)
        | (.ok b, s) =>
          let flagsOf (i : Nat) : Nat := fieldOf b (32 * i + 0x18) 8
          if (List.range n).any fun i => 1 < flagsOf i then (.error causeInvalid, s)
          else match (List.range n).find? fun i => flagsOf i == 1 || BitVec.ofNat 64 (fieldOf b (32 * i) 8) == sig with
            | none => (.error causeNoVariant, s)
            | some i => (.ok (BitVec.ofNat 64 (fieldOf b (32 * i + 8) 8), BitVec.ofNat 64 (fieldOf b (32 * i + 16) 8), BitVec.ofNat 32 i), s)

/-! ## Acceptance -/

/-- The acquire read of a dependency counter at `.sys` (R50, R354): where its target is reached, the home clock by which what the
release covers has taken effect. A read that has to wait leaves the grid pending. -/
def State.depMet (s : State) (ctx vf : Nat) (r : LaunchRec) : Except Nat (Option Nat) × State :=
  if r.depAddr = 0 then (.ok (some 0), s)
  else if s.engineWaits 0 ctx r.depAddr 8 .read then (.ok none, s)
  else match s.readVirt 0 ctx vf r.depAddr 8 .read with
    | (.error c, s) => (.error c, s)
    | (.ok b, s) =>
      let got := match s.resolveDie 0 ctx r.depAddr .read with
        | .ok x => (wordsOf x.named 8).foldl (fun l w => joinRel l (s.relOf w.1 w.2)) []
        | .error _ => []
      (.ok (if r.depTarget.toNat ≤ fieldOf b 0 8 then some (floorOf got 384 32 (2 ^ 20) 6) else none), s)

/-- Read and accept one launch record (R46 to R53, R355); the answer is the new grid, none when it is refused. The record's read
and the store of the depth are one step (assumption 94). Where several refusals apply, a field's comes first, then want of
room, then the variant table's, then the dependency counter's (assumption 95). `floor` is the home clock of what the launch
releases. -/
def State.accept (s : State) (ctx vf : Nat) (lrec : DWord) (depth : Nat) (parent : Option (Nat × Nat × Nat)) (queue floor : Nat) :
    State × Option Nat :=
  match s.readVirt 0 ctx vf lrec 256 .read, s.part? vf with
  | (.error c, s), _ => (s.logVirt 0 ctx vf c lrec 8 4 (BitVec.ofNat 64 queue), none)
  | (.ok _, s), none => (s, none)
  | (.ok b, s), some p =>
    let s := (s.writeVirt 0 ctx vf (lrec + 0x1C) [BitVec.ofNat 8 depth] [] ⟨8, 4, some 0, 0⟩).2
    let r := launchRec b
    if ((s.ctx? ctx).map (·.st)) = some .faulted then (s.refuse ctx vf r lrec causeInvalid [12], none)
    else if !r.valid || !s.hasRoom p r then (s.refuse ctx vf r lrec causeInvalid [], none)
    else
      let sig := s.varsig p
      match s.variant ctx vf r sig with
      | (.error c, s) => (s.refuse ctx vf r lrec c [], none)
      | (.ok v, s) =>
        match s.depMet ctx vf r with
        | (.error c, s) => (s.refuse ctx vf r lrec c [], none)
        | (.ok met, s) =>
          let seed : Option DWord := if r.screen = 0 then none else some (Config.screenSeed s.freeCtr)
          let s : State := if r.screen = 0 then s else { s with freeCtr := s.freeCtr + 1 }
          let f := s.fresh
          let g : Grid := {
            ctx := ctx, vf := vf, lr := { r with entry := v.1, mstream := v.2.1 }, lrec := lrec, depth := depth, varidx := v.2.2,
            varsig := sig, parent := parent, kids := 0, st := if met.isSome then .ready else .pending,
            readyAt := met.map fun _ => s.vclock.toNat, promoted := false, handed := 0, placed := 0, retired := 0,
            dropped := 0, seed := seed, left := [], floor := max floor (met.getD 0), on := [] }
          let s : State := { f.2 with grids := f.2.grids.put f.1 g }
          (s.modPart vf fun p => { p with pool := p.pool ++ [f.1] }, some f.1)

/-! ## Child grids (R223, R224) -/

/-- Entries free in a partition's pool (R353). -/
def State.poolFree (s : State) (vf : Nat) : Nat := 64 - ((s.part? vf).map (·.pool.length)).getD 64

/-- Launch one child for the fragment's team. -/
def State.launchChild (s : State) (x : Ctx) (lrec : DWord) : State :=
  match s.team? x.team, s.gridOfTeam x.team with
  | some t, some g =>
    let r := s.accept x.gctx x.vf lrec (g.depth + 1) (some (x.team, t.born, t.grid)) 0 (max x.w.floor (s.core x.core).wtime)
    match r.2 with
    | none => r.1
    | some _ => ((r.1.modTeam x.team fun t => { t with children := t.children + 1 }).modGrid t.grid fun g => { g with kids := g.kids + 1 })
  | _, _ => s

/-- Key of a partition's pool among the queues at which producers stall (R105). -/
def poolQueue (vf : Nat) : Nat := 400000 + vf

/-- Launch children in order while the pool has room and no other thread has stalled at it for longer: those left over. -/
def State.launchAll (s : State) (x : Ctx) : List DWord → State × List DWord
  | [] => (s.unstall (x.producer (poolQueue x.vf)), [])
  | a :: l =>
    if s.poolFree x.vf = 0 || !s.firstAt (x.producer (poolQueue x.vf)) then (s.stallAt (x.producer (poolQueue x.vf)), a :: l)
    else (s.launchChild x a).launchAll x l

/-- Stores and atomics of a core that have still to take effect: a launch, as a release of what came before it, follows them
(R223). -/
def State.coreOwes (s : State) (core : Nat) : Bool :=
  (s.stores.any fun y => y.2.core == core && !y.2.replay && (y.2.st == .pending || y.2.st == .sent)) ||
    s.atomics.any fun y => y.2.core == core && y.2.old.isNone

/-- `glaunch`: every lane is checked first; then the launches follow in ascending thread number, and a full pool
stalls the instruction at the launch that finds it full (R223, R105). -/
def execGlaunch (h : Hdr) (b : VBody) (s : State) : Host.Outcome State Fault Refusal :=
  issue (.glaunch h b) s fun x s =>
    let rec_ := x.scal b.a
    let done := match x.e.wait with
      | .launch n => n
      | _ => 0
    if x.act = 0 then .done s
    else if done = 0 && decide (10 ≤ ((s.gridOfTeam x.team).map (·.depth)).getD 0) then .trap (plain causeDepth x.mask)
    else match if done = 0 then
          (checkLanes s x.threads (fun _ s => if rec_.toNat % 64 ≠ 0 then (.error causeAlign, s)
            else s.resolveParts x.core x.gctx (partsOf rec_.toNat 256 257) .read) fun _ => rec_)
        else (.ok [], s) with
      | (.error f, _) => .trap f
      | (.ok _, s) =>
        if s.coreOwes x.core || s.engineWaits 0 x.gctx rec_ 256 .read || s.engineWaits 0 x.gctx (rec_ + 0x1C) 1 .write then .stall s else
        let r := s.launchAll x ((x.threads.drop done).map fun _ => rec_)
        if r.2.isEmpty then .done r.1 else .wait r.1 (.launch (x.threads.length - r.2.length))

/-- `gwait`: waits for the team's children, then acquires their stores. -/
def execGwait (h : Hdr) (b : VBody) (s : State) : Host.Outcome State Fault Refusal :=
  issue (.gwait h b) s fun x s =>
    if x.act = 0 then .done s
    else if ((s.team? x.team).map (·.children)).getD 0 != 0 then .wait s .gwait
    else .done (((s.raiseFloor x.core x.slot s.homeClk).acquireL1 x.core s.vclock).closeWin x)

/-! ## Launch queues (R104, R353) -/

/-- The launch queue whose turn it is: the next in rotation that holds an entry. -/
def Partition.nextQueue (p : Partition) : Option (Nat × LQueue) :=
  let live := p.queues.filter fun q => q.2.head != q.2.tail
  ((live.find? fun q => p.queueRot ≤ q.1).or live.head?)

/-- `LAUNCH_ACCEPT`: one record of the queue in turn. Acceptance pauses while fewer than 16 pool entries are free. -/
def execLaunchAccept (vf : Nat) (s : State) : Host.Outcome State Fault Refusal :=
  match s.part? vf with
  | none => .next s
  | some p =>
    match if s.poolFree vf < 16 then none else p.nextQueue with
    | none => .next s
    | some (n, q) =>
      let pa := q.base + 8 * (q.head.toNat % 2 ^ q.n)
      let qn : DWord := BitVec.ofNat 64 n
      let take (s : State) : State := s.modPart vf fun p => { p with
        queueRot := (n + 1) % 16, queues := p.queues.put n { q with head := q.head + 1 } }
      let s' := s.touchRun vf pa 8
      if s.hostBusy pa || s.flipWaits pa s.nextId then .next s
      else match s.readPhys vf pa 8 with
      | .error c => .next ((take s').logPhys vf c pa none 8 4 qn)
      | .ok b =>
        let lrec := BitVec.ofNat 64 (fieldOf b 0 8)
        if s.engineWaits 0 q.ctx lrec 256 .read || s.engineWaits 0 q.ctx (lrec + 0x1C) 1 .write then .next s else
        let s := s'.flushBias pa 8
        if lrec.toNat % 64 ≠ 0 then .next ((take s).log vf causeInvalid lrec true 8 4 qn)
        else .next (take ((s.accept q.ctx vf lrec 0 none n 0).1))

/-- Lower the counts of a retired or refused child's launchers (R45, R224). -/
def State.childGone (s : State) (g : Grid) : State :=
  match g.parent with
  | none => s
  | some (_, born, pg) =>
    let lower (t : Team) : Team := if t.born = born then { t with children := t.children - 1 } else t
    let s := s.modGrid pg fun y => { y with kids := y.kids - 1 }
    let s : State := { s with teams := s.teams.mapVals lower }
    s.modCtx g.ctx fun c => { c with saved := c.saved.map fun v => { v with team := lower v.team } }

/-- `DEPENDENCY_REREAD` (R354): the grid becomes ready, stays pending, or is refused once. -/
def execDependencyReread (grid : Nat) (s : State) : Host.Outcome State Fault Refusal :=
  match s.grid? grid with
  | none => .next s
  | some g =>
    if g.st = .ready then .next s
    else match s.depMet g.ctx g.vf g.lr with
      | (.ok (some clk), s) => .next (s.modGrid grid fun g => { g with st := .ready, readyAt := some s.vclock.toNat, floor := max g.floor clk })
      | (.ok none, s) => .next s
      | (.error c, s) =>
        let s := s.childGone g
        .next ((s.dropGrids (· == grid)).refuse g.ctx g.vf g.lr g.lrec c [])

/-- `PRIORITY_PROMOTION` (R356): priority 3 after 2^24 clocks ready with no team placed. -/
def execPriorityPromotion (grid : Nat) (s : State) : Host.Outcome State Fault Refusal :=
  .next (s.modGrid grid fun g =>
    match g.readyAt with
    | some t => if g.placed = 0 && t + 2 ^ 24 ≤ s.vclock.toNat then { g with promoted := true } else g
    | none => g)

end Sys2Proof.Machine
end

