-- ==== Sys2Proof/Machine/Sched.lean ====
section
/-! DEFINITION. Dispatch, stealing, placement and retirement (17 R356 to R362; 02 R40 to R45; 18 R372, R377, R383). -/

namespace Sys2Proof.Machine

/-- Dispatch priority (R356). -/
def Grid.prio (g : Grid) : Nat := if g.promoted then 3 else g.lr.priority

/-! ## Ranges (R357 to R359) -/

/-- Key of a partition's package range queue at a die: each partition has its own eight ranges there (R353, assumption 98). -/
def pkgIx (vf die : Nat) : Nat := vf * 4 + die
/-- Hives of a partition on a die, ascending. -/
def Partition.hivesOn (p : Partition) (die : Nat) : List Nat := (List.range 96).filter fun h => p.hives.contains h && h / 24 == die
/-- Dies that hold hives of a partition, ascending. -/
def Partition.dies (p : Partition) : List Nat := (List.range 4).filter fun d => !(p.hivesOn d).isEmpty
/-- Ceiling of a quotient. -/
def ceilDiv (a b : Nat) : Nat := (a + b - 1) / b
/-- Size of the hive ranges a die cuts a range of `n` teams into. -/
def Partition.dieCut (p : Partition) (die n : Nat) : Nat := max 1 (ceilDiv n (2 * (p.hivesOn die).length))
/-- The candidate at or after where a rotation stands, else the first. -/
def rotate (l : List Nat) (at_ : Nat) : Option Nat := (l.find? fun k => at_ ≤ k).or l.head?

/-- The ready grid of a pool that is handed out next: highest dispatch priority, then first accepted. -/
def State.nextGrid (s : State) (p : Partition) : Option (Nat × Grid) :=
  (p.pool.filterMap fun k => ((s.grid? k).filter fun g => g.st == .ready && s.ctxLive g.ctx).map fun g => (k, g)).foldl (fun best x =>
    match best with
    | none => some x
    | some y => if y.2.prio < x.2.prio then some x else some y) none

/-- Add a range to a die distributor's queue. -/
def State.pushPkg (s : State) (p : Partition) (vf die : Nat) (r : Range) : State :=
  { s with pkgQ := s.pkgQ.put (pkgIx vf die) (((s.pkgQ.find? (pkgIx vf die)).getD []) ++ [{ r with cut := p.dieCut die (r.hi + 1 - r.lo) }]) }

/-- The returned range that is handed out next: the first of a live context, of an INORDER grid its lowest (R358, R362). -/
def State.nextReturned (s : State) (p : Partition) : Option Range :=
  (p.returned.find? fun r => ((s.grid? r.grid).map fun g => s.ctxLive g.ctx).getD false).map fun r =>
    if ((s.grid? r.grid).map fun g => g.lr.inOrder).getD false then
      (p.returned.filter fun y => y.grid == r.grid).foldl (fun b y => if y.lo < b.lo then y else b) r
    else r

/-- `PACKAGE_RANGE_HANDOUT`: returned ranges go ahead of new ones (R357, R362). -/
def execPackageRangeHandout (vf : Nat) (s : State) : Host.Outcome State Fault Refusal :=
  match s.part? vf with
  | none => .next s
  | some p =>
    match rotate (p.dies.filter fun d => ((s.pkgQ.find? (pkgIx vf d)).getD []).length < 8) p.pkgRot with
    | none => .next s
    | some d =>
      match s.nextReturned p with
      | some r => .next ((s.pushPkg p vf d r).modPart vf fun p => { p with returned := p.returned.erase r, pkgRot := (d + 1) % 4 })
      | none =>
        match s.nextGrid p with
        | none => .next s
        | some (k, g) =>
          let t := g.lr.teams
          let rp := if g.lr.inOrder then 1 else min (2 ^ 20) (max 1 (ceilDiv t (8 * p.hives.length)))
          let hi := min (g.handed + rp) t
          let s := (s.pushPkg p vf d ⟨k, g.handed, hi - 1, 1⟩).modGrid k fun g => { g with handed := hi }
          .next (s.modPart vf fun p => { p with pkgRot := (d + 1) % 4, pool := if hi = t then p.pool.filter (· ≠ k) else p.pool })

/-- `DIE_RANGE_HANDOUT` (R357). -/
def execDieRangeHandout (die vf : Nat) (s : State) : Host.Outcome State Fault Refusal :=
  match s.part? vf, (s.pkgQ.find? (pkgIx vf die)).getD [] with
  | some p, r :: l =>
    match rotate ((p.hivesOn die).filter fun h => ((s.dieQ.find? h).getD []).length < 4) ((p.dieRot.find? die).getD 0) with
    | none => .next s
    | some h =>
      let last := min (r.lo + r.cut - 1) r.hi
      let s := { s with
        dieQ := s.dieQ.put h (((s.dieQ.find? h).getD []) ++ [{ r with hi := last }])
        pkgQ := s.pkgQ.put (pkgIx vf die) (if last = r.hi then l else { r with lo := last + 1 } :: l) }
      .next (s.modPart vf fun p => { p with dieRot := p.dieRot.put die (h + 1) })
  | _, _ => .next s

/-- Stealable unstarted teams of a queue (R358, R359). -/
def State.stealable (s : State) (l : List Range) : List Range :=
  l.filter fun r => decide (r.lo ≤ r.hi) && ((s.grid? r.grid).map fun g => !g.lr.inOrder).getD false
def sizeOf' (l : List Range) : Nat := (l.map fun r => r.hi + 1 - r.lo).sum

/-- The victim queue with the most stealable teams, lowest key on ties, and its youngest stealable range. -/
def State.victim (s : State) (q : Tab (List Range)) (keys : List Nat) : Option (Nat × Range) :=
  let best := keys.foldl (fun (b : Option (Nat × Nat)) k =>
    let n := sizeOf' (s.stealable ((q.find? k).getD []))
    match b with
    | none => if n = 0 then none else some (k, n)
    | some (_, m) => if m < n then some (k, n) else b) none
  best.bind fun b => ((s.stealable ((q.find? b.1).getD [])).getLast?).map fun r => (b.1, r)

/-- Take the upper half of a range (R359): the victim's queue and the stolen range. -/
def cutUpper (l : List Range) (r : Range) : List Range × Range :=
  let k := ceilDiv (r.hi + 1 - r.lo) 2
  let lo := r.hi + 1 - k
  (l.filterMap fun x => if x = r then (if lo = r.lo then none else some { r with hi := lo - 1 }) else some x, { r with lo := lo })

/-! ## Fit (R360, R73, R377, R380, R383) -/

/-- Cells that resident teams of a hive hold. -/
def State.heldCells (s : State) (hive : Nat) : List Nat :=
  (s.teams.filter fun t => t.1 / 32 == hive).flatMap fun t => t.2.cells

/-- The lowest run of `n` consecutive usable cells that no team holds. -/
def State.cellRun (s : State) (p : Partition) (hive n : Nat) : Option (List Nat) :=
  if n = 0 then some []
  else
    let u := s.usableCells p hive
    let held := s.heldCells hive
    ((List.range u.length).map fun i => (u.drop i).take n).find? fun run => run.length == n && run.all fun c => !held.contains c

/-- A FOREIGN tile that a rename table or an `mstart` of the core has taken waits for its spill (R384). -/
def State.tileClaimed (s : State) (core k : Nat) : Bool :=
  s.teams.any fun t => t.1 / 8 == core && (t.2.rename.contains (some k) || (t.2.seq.bind (·.spill)) == some k)

/-- Tiles that can be bound for a context, in the order in which they are taken: FREE, then FOREIGN of others. -/
def State.takeable (s : State) (core ctx : Nat) : List Nat :=
  let c := s.core core
  let free := (List.range 24).filter fun k => (c.tile k).st == .free
  free ++ (List.range 24).filter fun k => (c.tile k).st == .foreign && (c.tile k).ctx != ctx && !s.tileClaimed core k

/-- Warp-registers that resident teams of a core hold (R19). -/
def State.warpRegs (s : State) (core : Nat) : Nat :=
  ((s.teams.filter fun t => t.1 / 8 == core).map fun t => t.2.slots.length * (((s.grid? t.2.grid).map (·.lr.vregs)).getD 0)).sum

/-- Free team slot and warp slots of a core, lowest first. -/
def State.freeTeam (s : State) (core : Nat) : Option Nat := (List.range 8).find? fun t => (s.teams.find? (teamIx core t)).isNone
def State.freeSlots (s : State) (core : Nat) : List Nat := (List.range 32).filter fun w => (s.warp? core w).isNone

/-- Bytes of a team's save record (Table 18.5). -/
def State.recordSize (s : State) (eager : Bool) (ix : Nat) (t : Team) (r : LaunchRec) : Nat :=
  let sealed_ := ((s.hive (ix / 32)).regions.filter fun x => x.2.owner == hiveTeamSlot ix && x.2.st == 2).map fun x => x.2.depth * x.2.width
  let passes := (s.posted.filter fun x => x.2.team == ix).length
  let slabs := ((s.slabs.filter fun x => x.2.team == ix).map fun x => x.2.count).sum
  let mine (q : NearCmd) : Bool := q.core == ix / 8 && t.slots.contains q.slot
  let copies := (s.hives.map fun h => (h.2.copy.map fun q => (q.2.filter fun o => o.team == ix).length).sum).sum
  let colls := (s.coll.map fun q => (q.2.filter fun o => o.team == ix).length).sum
  let near := (s.hearths.map fun h => (h.2.queue.filter mine).length + (h.2.nred.toList.filter fun n => mine n.cmd).length).sum
  r.warps * (4096 + 256 * r.vregs) + 8192 + ((t.latch.map fun l => 256 * l.count).getD 0) + 64 * passes + 256 * slabs + r.comb +
    2048 * sealed_.sum + 128 * (copies + colls + near) + if eager then 32768 * r.accs else 0

/-- R380: the save area holds the records of the context's resident teams and of one more. -/
def State.saveFits (s : State) (ctx : Nat) (r : LaunchRec) : Bool :=
  match s.ctx? ctx with
  | none => false
  | some c =>
    let held := ((s.teamsOf ctx).map fun kt => match s.grid? kt.2.grid with
      | some g => s.recordSize c.eager kt.1 kt.2 g.lr
      | none => 0).sum
    decide (held + r.warps * (4096 + 256 * r.vregs) + 8192 + r.comb + (if c.eager then 32768 * r.accs else 0) ≤ c.savesize)

/-- A multicast names a generation of a hive. -/
def CopyOp.names (o : CopyOp) (hive : Nat) (g : BitVec 16) : Bool := o.dest.any fun d => d.any fun y => y.1 == hive && y.2 == g

/-- R377: the next value of the generation counter is named by an unfinished multicast, saved or not, or a saved
allocation. -/
def State.genNamed (s : State) (hive : Nat) (g : BitVec 16) : Bool :=
  (s.hives.any fun h => h.2.copy.any fun q => q.2.any fun o => o.names hive g) ||
    s.contexts.any fun c => c.2.saved.any fun v => (v.core / 4 == hive && v.team.gen == g) || v.copies.any fun o => o.2.names hive g

/-- The cells a team of a grid would take on a core; none when it does not fit. -/
def State.fits (s : State) (core : Nat) (g : Grid) : Option (List Nat) :=
  let h := hiveOfCore core
  match s.part? g.vf, s.ctx? g.ctx with
  | some p, some c =>
    if (s.freeTeam core).isSome && decide (g.lr.warps ≤ (s.freeSlots core).length) &&
        decide (s.warpRegs core + g.lr.warps * g.lr.vregs ≤ 3072) && decide (g.lr.accs ≤ (s.takeable core g.ctx).length) &&
        decide (s.soricaSt 15 core < 2) && p.hives.contains h && c.st == .live && !s.genNamed h ((s.hive h).combGen + 1) &&
        s.saveFits g.ctx g.lr then s.cellRun p h g.lr.cells
    else none
  | _, _ => none

/-- The lowest core of a hive that fits. -/
def State.fitHive (s : State) (hive : Nat) (g : Grid) (skip : Option Nat) : Option (Nat × List Nat) :=
  ((List.range 4).map fun i => 4 * hive + i).findSome? fun c => if skip = some c then none else (s.fits c g).map fun l => (c, l)

/-! ## Team start -/

/-- A warp at team start: entry 0 runs the launched threads at the entry PC (R39, R68). -/
def Warp.start (team warpid born : Nat) (threads : Nat) (pc : DWord) (floor : Nat) : Warp where
  team := team
  warpid := warpid
  born := born
  launched := maskWhere fun t => decide (64 * warpid + t < threads)
  exited := 0
  killed := false
  entries := [(0, { Entry.empty with mask := maskWhere fun t => decide (64 * warpid + t < threads), pc := pc, st := .run, start := true })]
  deferrals := []
  vregs := []
  sregs := []
  preds := []
  fpflags := 0
  txstat := []
  tx := []
  trap := TrapRegs.zero
  handler := none
  handlerRe := false
  heldTraps := []
  workcnt := 0
  quantum := 0
  quantumDone := false
  ending := none
  windows := []
  ops := []
  cntStore := 0
  ackT := 0
  acqT := 0
  relT := []
  got := []
  floor := floor
  fenced := 0
  wrote := []
  owed := []
  stopWord := []
  stopVals := []
  crc := 0

/-- Bind a takeable tile to a team: a FREE one reads zero; a FOREIGN one is bound when its spill completes. -/
def State.bindTile (s : State) (core k team ctx : Nat) : State :=
  if ((s.core core).tile k).st = .free then s.modTile core k fun _ => { Tile.zero with st := .bound, team := team, ctx := ctx }
  else s.askSpill core k

/-- Start a team of a grid on a core (R40, R41, R59, R377). -/
def State.startTeam (s : State) (core : Nat) (cells : List Nat) (k : Nat) (g : Grid) (num : Nat) (screen : Option Screen) : State :=
  match s.freeTeam core with
  | none => s
  | some slot =>
    let ix := teamIx core slot
    let h := hiveOfCore core
    let slots := (s.freeSlots core).take g.lr.warps
    let tiles := (s.takeable core g.ctx).take g.lr.accs
    let f := s.fresh
    let gen := (f.2.hive h).combGen
    let team : Team := {
      grid := k, num := num, slots := slots, threads := g.lr.threads,
      rename := (List.range 8).map fun i => tiles[i]?,
      cells := cells, bytes := g.lr.comb, gen := gen, bars := [],
      seq := if g.lr.mstream = 0 then none
             else some ⟨g.lr.mstream, [], BitVec.ofNat 8 (2 ^ g.lr.accs - 1), false, true, [], false, none, 0, false, g.floor⟩,
      latch := none, children := 0, screen := screen, colls := [], born := f.1, reload := [] }
    let s := { f.2 with teams := f.2.teams.put ix team }
    let s := s.each (slots.zip (List.range slots.length)) fun s y => s.setWarp core y.1 (Warp.start ix y.2 f.1 g.lr.threads g.lr.entry g.floor)
    let s := s.each tiles fun s t => s.bindTile core t ix g.ctx
    let s := s.modHive h fun hv =>
      let hv : Hive := { hv.undefine cells with combGen := hv.combGen + 1 }
      if g.lr.flags.testBit 2 then { hv with undef := hv.undef.filter fun c => !cells.contains c } else hv
    s.acquireL1 core (BitVec.ofNat 64 (g.readyAt.getD 0))

/-- Team l of a grid is screened (R372). -/
def Grid.screened (g : Grid) (num : Nat) : Bool :=
  match g.seed with
  | none => false
  | some d => crc64 0 ((toBytes 8 d.toNat ++ toBytes 8 num).map (·.toNat)) % 2 ^ g.lr.screen == 0

/-- Place team `num` of a grid. -/
def State.placeTeam (s : State) (core : Nat) (cells : List Nat) (k : Nat) (g : Grid) (num : Nat) : State :=
  let scr : Option Screen := if g.screened num then some ⟨none, false, none, false, [], s.vclock.toNat⟩ else none
  (s.startTeam core cells k g num scr).modGrid k fun g => { g with placed := g.placed + 1, on := if g.on.contains (hiveOfCore core) then g.on else hiveOfCore core :: g.on }

/-- A hive may hold the shadow of a team of a grid that was placed on a core at a VCLOCK: another hive of the partition, or
another core of its one hive, within 65,536 clocks (R372). -/
def State.shadowMay (s : State) (hive ix since : Nat) (g : Grid) : Bool :=
  let many := 1 < ((s.part? g.vf).map (·.hives.length)).getD 0
  (if many then ix / 32 != hive else ix / 32 == hive) && decide (s.vclock.toNat < since + 65536)

/-- A screened team that still waits for its shadow, and a core of the hive that fits it. -/
def State.shadowFor (s : State) (hive : Nat) : Option (Nat × Nat × Grid × Nat × List Nat) :=
  s.teams.findSome? fun t =>
    match t.2.screen, s.grid? t.2.grid with
    | some x, some g =>
      if x.other.isSome || x.shadow || x.ended || !s.shadowMay hive t.1 x.since g then none
      else (s.fitHive hive g (some (t.1 / 8))).map fun c => (t.1, t.2.grid, g, c.1, c.2)
    | _, _ => none

/-- The same for one that has retired meanwhile. -/
def State.leftShadow (s : State) (hive : Nat) : Option (LeftScreen × Grid × Nat × List Nat) :=
  s.screens.findSome? fun y => (s.grid? y.grid).bind fun g =>
    if s.shadowMay hive y.ix y.since g then (s.fitHive hive g (some (y.ix / 8))).map fun c => (y, g, c.1, c.2) else none

/-- Place the shadow of a screened team (R372). -/
def State.placeShadow (s : State) (of : Nat) (k : Nat) (g : Grid) (core : Nat) (cells : List Nat) : State :=
  match s.team? of, s.freeTeam core with
  | some t, some slot =>
    (s.startTeam core cells k g t.num (some ⟨some of, true, none, false, [], s.vclock.toNat⟩)).modTeam of fun t =>
      { t with screen := t.screen.map fun x => { x with other := some (teamIx core slot) } }
  | _, _ => s

/-- Place the shadow of one that has retired: its CRC is there already. -/
def State.placeLeft (s : State) (y : LeftScreen) (g : Grid) (core : Nat) (cells : List Nat) : State :=
  ({ s with screens := s.screens.erase y } : State).startTeam core cells y.grid g y.num (some ⟨none, true, some y.crc, false, [], s.vclock.toNat⟩)

/-! ## Placement (R360, R361) -/

/-- The team of a range may be placed now: every lower team of an INORDER grid has been (R358). -/
def Grid.turnOf (g : Grid) (num : Nat) : Bool := !g.lr.inOrder || decide (num = g.placed)

/-- Take the first team from a range of a hive's queue. -/
def State.startFrom (s : State) (hive : Nat) (r : Range) (g : Grid) (c : Nat × List Nat) : State :=
  let q := ((s.dieQ.find? hive).getD []).filterMap fun x =>
    if x = r then (if r.lo = r.hi then none else some { r with lo := r.lo + 1 }) else some x
  ({ s with dieQ := s.dieQ.put hive q } : State).placeTeam c.1 c.2 r.grid g r.lo

/-- The first range after the oldest whose team may be placed in its stead. -/
def State.laterFit (s : State) (hive prio : Nat) : List Range → Option (Range × Grid × Nat × List Nat)
  | [] => none
  | r :: l =>
    match s.grid? r.grid with
    | none => s.laterFit hive prio l
    | some g =>
      if g.prio ≤ prio && g.turnOf r.lo then
        match s.fitHive hive g none with
        | some c => some (r, g, c)
        | none => s.laterFit hive prio l
      else s.laterFit hive prio l

/-- The team at the head of a hive's queue: it starts where it fits and has its turn; while it does not fit, its wait runs and later
teams go first (R361). -/
def State.placeHead (s : State) (hive : Nat) (r : Range) (l : List Range) (g : Grid) : State :=
  let later (s : State) : State := match s.laterFit hive g.prio l with
    | some (r', g', c) => s.startFrom hive r' g' c
    | none => s
  match s.fitHive hive g none with
  | some c => if g.turnOf r.lo then ({ s with fitWait := s.fitWait.erase hive } : State).startFrom hive r g c else later s
  | none =>
    match (s.fitWait.find? hive).filter fun y => y.1 == r.grid && y.2.1 == r.lo with
    | none => later { s with fitWait := s.fitWait.put hive (r.grid, r.lo, s.vclock.toNat, false) }
    | some (_, _, _, expired) => if expired then s else later s

/-- `TEAM_PLACE`: a shadow that waits for a place, or a team of the hive's queue. -/
def execTeamPlace (hive : Nat) (s : State) : Host.Outcome State Fault Refusal :=
  match s.shadowFor hive, s.leftShadow hive with
  | some (of, k, g, core, cells), _ => .next (s.placeShadow of k g core cells)
  | none, some (y, g, core, cells) => .next (s.placeLeft y g core cells)
  | none, none =>
    match (s.dieQ.find? hive).getD [] with
    | [] => .next s
    | r :: l => match s.grid? r.grid with
      | none => .next s
      | some g => .next (s.placeHead hive r l g)

/-- `FIT_WAIT_EXPIRY` (R361). -/
def execFitWaitExpiry (hive : Nat) (s : State) : Host.Outcome State Fault Refusal :=
  match s.fitWait.find? hive with
  | some (k, n, t, _) => .next (if t + 65536 ≤ s.vclock.toNat then { s with fitWait := s.fitWait.put hive (k, n, t, true) } else s)
  | none => .next s

/-- `HIVE_STEAL` (R359). -/
def execHiveSteal (hive vf : Nat) (s : State) : Host.Outcome State Fault Refusal :=
  match s.part? vf with
  | none => .next s
  | some p =>
    if !p.hives.contains hive || !((s.dieQ.find? hive).getD []).isEmpty then .next s
    else match s.victim s.dieQ ((p.hivesOn (hive / 24)).filter (· ≠ hive)) with
      | none => .next s
      | some (v, r) =>
        match (s.grid? r.grid).bind fun g => s.fitHive hive g none with
        | none => .next s
        | some _ =>
          let c := cutUpper ((s.dieQ.find? v).getD []) r
          .next { s with dieQ := (s.dieQ.put v c.1).put hive [c.2] }

/-- `DIE_STEAL` (R359). -/
def execDieSteal (die vf : Nat) (s : State) : Host.Outcome State Fault Refusal :=
  match s.part? vf with
  | none => .next s
  | some p =>
    if !((s.pkgQ.find? (pkgIx vf die)).getD []).isEmpty ||
        (p.hivesOn die).all fun h => decide (4 ≤ ((s.dieQ.find? h).getD []).length) then .next s
    else match s.victim s.pkgQ ((p.dies.filter (· ≠ die)).map (pkgIx vf)) with
      | none => .next s
      | some (v, r) =>
        let c := cutUpper ((s.pkgQ.find? v).getD []) r
        .next (({ s with pkgQ := s.pkgQ.put v c.1 } : State).pushPkg p vf die c.2)

/-- `TEAM_NOT_SCREENED` (R372): 65,536 clocks without a place for the shadow. -/
def execTeamNotScreened (core team : Nat) (s : State) : Host.Outcome State Fault Refusal :=
  let s : State := { s with screens := s.screens.filter fun y => !(y.ix == teamIx core team && decide (y.since + 65536 ≤ s.vclock.toNat)) }
  .next (s.modTeam (teamIx core team) fun t => { t with screen := t.screen.filter fun x =>
    !(x.other.isNone && !x.shadow && decide (x.since + 65536 ≤ s.vclock.toNat)) })

/-! ## Retirement -/

/-- Work of a team that is still open (R42). -/
def State.teamOpen (s : State) (ix : Nat) : Bool :=
  (s.stores.any fun x => x.2.team == ix) || (s.atomics.any fun x => x.2.team == ix) ||
    (s.posted.any fun x => x.2.team == ix) || (s.slabs.any fun x => x.2.team == ix && x.2.data.isNone) ||
    (s.gathers.any fun x => x.2.team == ix) || (s.hives.any fun h => h.2.copy.any fun q => q.2.any fun o => o.team == ix) ||
    (s.coll.any fun q => q.2.any fun o => o.team == ix)

/-- The conditions of R42. -/
def State.canRetire (s : State) (ix : Nat) (t : Team) : Bool :=
  (t.slots.all fun w => ((s.warp? (ix / 8) w).map fun v => v.done && v.tx.all fun y => y.2.commit.isNone).getD true) &&
    ((t.seq.map fun q => q.ended).getD true) && !s.teamOpen ix

/-- The team's comparison value (R372). -/
def State.teamCrc (s : State) (ix : Nat) (t : Team) : DWord :=
  (t.slots.filterMap fun w => s.warp? (ix / 8) w).foldl (fun c w => c ^^^ w.crc) 0

/-- What a retiring screened team or shadow leaves for the comparison, and a SCREEN_MISMATCH when they differ. -/
def State.screenRetire (s : State) (ix : Nat) (t : Team) : State :=
  match t.screen with
  | none => s
  | some x =>
    if x.ended then s
    else
      let crc := s.teamCrc ix t
      match x.peer with
      | some c => if c = crc then s
          else (s.log (s.vfOfTeam ix) causeScreen 0 false 0 (ix / 8) (BitVec.ofNat 64 t.num)).countRes (s.vfOfTeam ix) 14 (dieOfCore (ix / 8)) 6
      | none => match x.other with
        | some o => s.modTeam o fun u => { u with screen := u.screen.map fun y => { y with peer := some crc } }
        | none => if x.shadow then s else { s with screens := s.screens ++ [⟨ix, t.grid, t.num, x.since, crc⟩] }

/-- `TEAM_RETIRE`. -/
def execTeamRetire (core team : Nat) (s : State) : Host.Outcome State Fault Refusal :=
  let ix := teamIx core team
  match s.team? ix with
  | none => .next s
  | some t =>
    if !s.canRetire ix t then .next s
    else
      let shadow := (t.screen.map (·.shadow)).getD false
      let s := (s.screenRetire ix t).removeTeam ix t
      .next (if shadow then s else s.modGrid t.grid fun g => { g with retired := g.retired + 1, left := g.left ++ [(t.num, t.colls)] })

/-- `GRID_RETIRE` (R45): the completion increment, as a release, and the launchers' counts. -/
def execGridRetire (grid : Nat) (s : State) : Host.Outcome State Fault Refusal :=
  match s.grid? grid with
  | none => .next s
  | some g =>
    if g.st = .pending || g.retired + g.dropped < g.lr.teams || g.kids != 0 || s.teams.any fun t => t.2.grid == grid then .next s
    else
      let s := match g.seed with
        | some d => s.log g.vf 0 g.lrec true 8 4 d
        | none => s
      let s := s.counterAddOn g.ctx g.vf (namedCounter g.lr.counter) g.lr.increment.toNat g.release
      .next ((s.childGone g).dropGrids (· == grid))

end Sys2Proof.Machine
end

