-- ==== Sys2Proof/Machine/MemEvents.lean ====
section
/-! DEFINITION. The events of the memory system: stores on their way home and back (04 R87, R91, R96), load replies (13
R271), atomics at their engine (13 R278 to R280), commits and the solo grant (R283, R286), counter rereads (10 R221),
DRAM (04 R77 to R84), L2 write-back, engine eviction, and the page walk. An event whose condition does not hold has not
happened: the state is unchanged. -/

namespace Sys2Proof.Machine

/-! ## Bandwidth (R16, R132, R399) -/

/-- Index of a partition's bucket at a regulator point. -/
def bucketIx (vf point index : Nat) : Nat := (vf * 3 + point) * 256 + index

/-- The number under which a bucket holds the burst of a stove's address thread. -/
def stoveReq (k : Nat) : Nat := 2 ^ 64 + k

/-- The line that the core holds for a PC of a context. -/
def State.cachedLine (s : State) (core ctx : Nat) (pc : DWord) : Option (BitVec 512) :=
  ((s.core core).icache.find? fun l => l.1 == ctx && l.2.1 == (lineOf pc).toNat).map (·.2.2)

/-- A fragment that fetches: its PC, MASK, context and partition. -/
def State.fetcher (s : State) (core slot entry : Nat) : Option (DWord × DWord × Nat × Nat) :=
  (s.warp? core slot).bind fun w =>
    let e := w.entry entry
    if e.st = .run && e.mask != 0 && (s.gridOfTeam w.team).isSome then some (e.pc, e.mask, s.ctxIdOfTeam w.team, s.vfOfTeam w.team) else none

/-- The PC, context and partition of a sequencer that fetches. -/
def State.seqFetcher (s : State) (core team : Nat) : Option (DWord × Nat × Nat) :=
  let ix := teamIx core team
  ((s.team? ix).bind (·.seq)).bind fun q =>
    if q.ended || (s.gridOfTeam ix).isNone then none else some (q.pc, s.ctxIdOfTeam ix, s.vfOfTeam ix)

/-- The number under which a bucket holds a fetch. -/
def fetchReq : FetchUnit → Nat
  | .frag core slot entry => 2 ^ 65 + core * 1024 + slot * 16 + entry
  | .seq core team => 2 ^ 65 + core * 1024 + 512 + team

/-- A fetch that a bucket holds is still wanted: the line at the PC is not there, or the slot fails its parity. -/
def State.fetchWanted (s : State) (id : Nat) : Bool :=
  let core := (id - 2 ^ 65) / 1024
  let r := (id - 2 ^ 65) % 1024
  let at_ : Option (DWord × Nat) := if r < 512 then (s.fetcher core (r / 16) (r % 16)).map fun y => (y.1, y.2.2.1)
    else (s.seqFetcher core (r - 512)).map fun y => (y.1, y.2.1)
  match at_ with
  | none => false
  | some (pc, ctx) => match s.cachedLine core ctx pc with
    | none => true
    | some l => !slotParityOk l (slotOf pc)

/-- A request that waits somewhere still exists; one that has left for its home waits no more. -/
def State.reqLive (s : State) (id : Nat) : Bool :=
  (decide (stoveReq 0 ≤ id) && (s.stove (id - stoveReq 0)).st == .running) || (decide (2 ^ 65 ≤ id) && s.fetchWanted id) || (s.loads.find? id).isSome || ((s.stores.find? id).map (·.st)) == some .pending || ((s.atomics.find? id).map (·.old)) == some none || (s.gathers.find? id).isSome ||
    (s.hives.any fun h => h.2.copy.any fun q => q.2.any fun o => o.id == id) || (s.coll.any fun q => q.2.any fun c => c.id == id) ||
    (s.wordQ.any fun q => q.2.any fun r => r.id == id) || (s.orphans.any fun o => o.tx.commit == some id) ||
    s.warps.any fun w => w.2.tx.any fun t => t.2.commit == some id

/-- A bucket lets a request pass now: its level is above 0, and no request that it has held for longer waits (R132). -/
def State.bucketOpen (s : State) (k id : Nat) : Bool :=
  match s.buckets.find? k with
  | none => true
  | some b => b.rate == 0 || (decide (0 < b.level) &&
      (match ((s.heldReq.find? k).getD []).find? s.reqLive with
        | none => true
        | some h => h == id))

/-- A bucket begins to hold a request. -/
def State.holdReq (s : State) (k id : Nat) : State :=
  let l := ((s.heldReq.find? k).getD []).filter s.reqLive
  { s with heldReq := s.heldReq.put k (if l.contains id then l else l ++ [id]) }

/-- Pass a request of a function through the buckets of points, each with index and bytes, or be held at the first that does not
let it pass. Function 0 is never regulated. -/
def State.through (s : State) (vf id : Nat) (l : List (Nat × Nat × Nat)) : Except State State :=
  if vf = 0 then .ok s
  else
    let l := (l.filter fun y => y.2.2 != 0).map fun y => (bucketIx vf y.1 y.2.1, y.2.2)
    match l.find? fun y => !s.bucketOpen y.1 id with
    | some y => .error (s.holdReq y.1 id)
    | none => .ok (s.each l fun s y => match s.buckets.find? y.1 with
        | none => s
        | some b =>
          if b.rate = 0 then s
          else
            let left := ((s.heldReq.find? y.1).getD []).filter (· ≠ id)
            { s with
              buckets := s.buckets.put y.1 { b with level := b.level - y.2 }
              heldReq := if left.isEmpty then s.heldReq.erase y.1 else s.heldReq.put y.1 left })

/-- A request of a function would pass them all now. -/
def State.mayPass (s : State) (vf id : Nat) (l : List (Nat × Nat × Nat)) : Bool :=
  vf == 0 || l.all fun y => y.2.2 == 0 || s.bucketOpen (bucketIx vf y.1 y.2.1) id

/-- Port 3·d + j of die `d` to another die (Table 1.5). -/
def dieport (d r : Nat) : Nat := 3 * d + if r < d then r else r - 1

/-- The die that reaches a byte address: its home, for host memory the die of the function's host link (R99). -/
def State.dieFor (s : State) (vf a : Nat) : Nat := if hostTag ≤ a then 2 * ((s.part? vf).map (·.link)).getD 0 else homeDie a

/-- What the bytes at addresses cost that a hive sends out, or that come to it: its own regulator, and the port of each other die
that sends them over the pair's own link (R16). -/
def State.traffic (s : State) (vf core : Nat) (out : Bool) (as : List Nat) : List (Nat × Nat × Nat) :=
  let d := dieOfCore core
  (0, hiveOfCore core, as.length) :: ((List.range 4).filter (· ≠ d)).map fun r =>
    (1, if out then dieport d r else dieport r d, (as.filter fun a => s.dieFor vf a == r).length)

/-- What the DRAM reads of words cost at their stacks. -/
def State.dramTraffic (s : State) (as : List Nat) : List (Nat × Nat × Nat) :=
  let ws := (((as.filter fun a => decide (a < hostTag)).map (· / 4)).dedup).filter s.needsDram
  (List.range 8).map fun k => (2, k, 4 * (ws.filter fun w => stackOfPa (4 * w) == k).length)

/-- Byte addresses of a run. -/
def bytesAt (a n : Nat) : List Nat := (List.range n).map (a + ·)

/-! ## Order at the homes -/

/-- An older store of the same core to some of these bytes has not reached its home (R347). -/
def State.olderStore (s : State) (core id a n : Nat) : Bool :=
  s.stores.any fun x => decide (x.1 < id) && x.2.core == core && (x.2.st == .pending || x.2.st == .sent) &&
    overlaps x.2.pa x.2.bytes.length a n
/-- An older atomic of the same core on some of these bytes has not executed. -/
def State.olderAtomic (s : State) (core id a n : Nat) : Bool :=
  s.atomics.any fun x => decide (x.1 < id) && x.2.core == core && x.2.old.isNone && overlaps x.2.pa (2 ^ x.2.size) a n

/-- An older load of the same core has still to take its bytes: no write of the core overtakes it (R347). -/
def State.olderLoad (s : State) (core id : Nat) : Bool :=
  s.loads.any fun x => decide (x.1 < id) && x.2.core == core && x.2.gred.isNone && x.2.lanes.any (·.fixed.isNone)

/-- A release past the core waits for every older store and atomic of its core but those of its own instruction (R344, R346). -/
def State.relWaits (s : State) (core id group : Nat) (rel : List RelInfo) : Bool :=
  (rel.any fun i => decide (3 ≤ i.scope)) &&
    ((s.stores.any fun x => decide (x.1 < id) && x.2.core == core && x.2.op != group && (x.2.st == .pending || x.2.st == .sent)) ||
      s.atomics.any fun x => decide (x.1 < id) && x.2.core == core && x.2.group != group && x.2.old.isNone)

/-- What a write carries when it takes effect at its home: everything older of its core has, and so will its own words. -/
def State.relNow (s : State) (core words : Nat) (rel : List RelInfo) : List RelInfo :=
  rel.map fun i => { i with floor := max i.floor (max (s.core core).wtime (s.homeClk + words)) }

/-- Requests with smaller numbers in the queue of a bank of the synchronisation engine (Table 5.1): atomics, loads and stores on SYNC
pages, and transaction validations. -/
def State.bankAhead (s : State) (bank id : Nat) : Nat :=
  let on (pa n : Nat) : Bool := decide (pa < hostTag) && (wordsOf pa n).any fun w => s.syncPage w.1 && syncBank w.1 == bank
  let of (t : Tx) : Bool := (t.commit.any fun c => decide (c < id)) && (t.reads ++ t.writes).any fun r => syncBank r.addr == bank
  (s.atomics.filter fun y => decide (y.1 < id) && y.2.old.isNone && syncBank (y.2.pa / 4) == bank).length +
    (s.stores.filter fun y => decide (y.1 < id) && y.2.st == .sent && on y.2.pa y.2.bytes.length).length +
    (s.loads.filter fun y => decide (y.1 < id) && y.2.gred.isNone && y.2.lanes.any fun z => z.fixed.isNone && z.parts.any fun p => on p.1 p.2).length +
    (s.warps.map fun w => (w.2.tx.filter fun t => of t.2).length).sum + (s.orphans.filter fun o => of o.tx).length

/-- A full queue of 32 holds a request on a word's bank back (R103, R105). -/
def State.bankFull (s : State) (wa id : Nat) : Bool := decide (32 ≤ s.bankAhead (syncBank wa) id)

/-- An access to a run of a SYNC page is held by a full queue. -/
def State.syncFull (s : State) (pa n id : Nat) : Bool := (wordsOf pa n).any fun w => s.syncPage w.1 && s.bankFull w.1 id

/-- Words that a solo attempt other than this thread's locks (R286). -/
def State.lockedRun (s : State) (vf : Nat) (me : Nat × Nat × Nat) (pa n : Nat) : Bool :=
  let l := s.lockedBy vf (some me)
  (wordsOf pa n).any fun w => l.contains w.1

/-! ## Stores -/

/-- Addresses that a store is written at: one, or every copy of its page. -/
def Store.places (x : Store) : List Nat := if x.copies.isEmpty then [x.pa] else x.copies

/-- The pending stores that leave with a store: those of its warp to its sector (R87). -/
def State.merged (s : State) (id : Nat) (x : Store) : Tab Store :=
  s.stores.filter fun y => y.1 == id || (y.2.st == .pending && !y.2.replay && y.2.core == x.core && y.2.slot == x.slot &&
    decide (x.slot < 32) && y.2.pa / 64 == x.pa / 64)

/-- `STORE_SEND`: a pending store leaves its L1, merged with the other pending stores of its warp to the same sector. -/
def execStoreSend (id : Nat) (s : State) : Host.Outcome State Fault Refusal :=
  match s.stores.find? id with
  | none => .next s
  | some x =>
    if x.st != .pending || x.replay then .next s
    else
      let l := s.merged id x
      let as := (l.flatMap fun y => y.2.places.flatMap fun a => bytesAt a y.2.bytes.length).dedup
      match s.through x.vf id (s.traffic x.vf x.core true as) with
      | .error s => .next s
      | .ok s => .next { s with stores := s.stores.map fun y => if (l.find? y.1).isSome then (y.1, { y.2 with st := .sent }) else y }

/-- The lanes of a store instruction whose words are refused at their homes. -/
def State.deniedLanes (s : State) (x : Store) : DWord :=
  maskOf ((s.stores.filter fun y => y.2.op == x.op && y.2.core == x.core && y.2.pa < hostTag &&
    (wordsOf y.2.pa y.2.bytes.length).any fun w => !s.rowOk x.vf (4 * w.1) true false).map fun y => y.2.thread)

/-- L1 once bytes of a word have taken effect at their home: a word that holds nothing else counts as read now, and one whose
bytes R83 discarded is poisoned. -/
def State.homedL1 (s : State) (core wa : Nat) (mask : BitVec 4) (lost : Bool) : State :=
  let un := s.unhomed core wa
  s.modCore core fun c => { c with l1 := c.l1.modify wa fun y => { y with
    fill := if y.valid &&& ~~~(mask ||| un) = 0 then s.homeClk else y.fill
    poison := y.poison || lost } }

/-- Apply the bytes of a store at one device address; none when a row denies it. -/
def State.applyStore (s : State) (x : Store) (pa : Nat) : Option State :=
  let ws := wordsOf pa x.bytes.length
  if ws.any fun w => !s.rowOk x.vf (4 * w.1) true false then none
  else
    let lost := ws.filter fun w => (s.homeWord w.1).2 && w.2 != allBytes
    let rel := s.relNow x.core ws.length x.rel
    let s := s.each ws fun s w => s.homeWriteLogged x.vf w.1 (wordFrom pa w.1 x.bytes) w.2 rel false ⟨0, x.core, some x.va, x.pc⟩
    let s := s.flushBias pa x.bytes.length
    let s := s.wroteWords x.core x.slot (ws.map (·.1))
    let s := s.each ((ws.map (·.1)).filter fun w => (s.l2.find? w).isSome) fun s w => s.markL2 (w / 64) x.hint
    some (s.each lost fun s w => s.homedL1 x.core w.1 w.2 true)

/-- A store refused at a row ends its context (R115, Table 18.1). -/
def State.denyStore (s : State) (id : Nat) (x : Store) (pa : Nat) : State :=
  let f : FaultInfo := ⟨causeRowDenied, s.deniedLanes x, x.va, some pa⟩
  let ctx := s.ctxIdOfTeam x.team
  let s := { s with stores := s.stores.erase id }
  if (s.team? x.team).isSome && x.slot < 32 then s.contextFault ctx x.vf x.core f x.pc else (s.logFault x.vf x.core f x.pc).drainEngine

/-- A store waits at its home: for older writes of its core on its bytes, for the core's older loads, for what its release covers,
for the lower parts of its own thread in ascending order (R274), for the host's link (R385), for a solo attempt, for a host request on its line, for a flip of
its page, for its row to be materialised (R367), or behind a full queue of its bank. -/
def State.storeWaits (s : State) (id : Nat) (x : Store) : Bool :=
  let n := x.bytes.length
  s.olderStore x.core id x.pa n || s.olderAtomic x.core id x.pa n || s.olderLoad x.core id || s.relWaits x.core id x.op x.rel ||
    (x.asc && s.stores.any fun y => decide (y.1 < id) && y.2.core == x.core && y.2.op == x.op && y.2.thread == x.thread &&
      (y.2.st == .pending || y.2.st == .sent)) ||
    (decide (hostTag ≤ x.pa) && !s.hostUp x.vf) ||
    (decide (x.pa < hostTag) && (s.lockedRun x.vf (x.core, x.slot, x.thread) x.pa n || s.syncFull x.pa n id ||
      x.places.any fun pa => s.hostBusy pa || s.flipWaits pa id || s.matHeld pa))

/-- A store has taken effect in every copy of its words. -/
def State.storeDone (s : State) (id : Nat) (x : Store) : State :=
  let s := { s with stores := s.stores.put id { x with st := .homed s.vclock, copies := [] } }
  s.each (wordsOf x.pa x.bytes.length) fun s w => s.homedL1 x.core w.1 w.2 false

/-- The host takes a store (R99). -/
def State.hostStore (s : State) (x : Store) : State :=
  let ws := wordsOf x.pa x.bytes.length
  let rel := s.relNow x.core 1 x.rel
  let s := s.each ws fun s w => s.putRel w.1 w.2 rel false
  ({ s with hostMem := Memory.writeN s.hostMem (x.pa - hostTag) x.bytes, homeClk := s.homeClk + 1 } : State).wroteWords x.core x.slot (ws.map (·.1))

/-- `HOME_STORE`: a store is applied at its home, at one copy of a NONATOMIC replicated page, or at all copies of an
ATOMIC one (R91, R96, R349). -/
def execHomeStore (id copy : Nat) (s : State) : Host.Outcome State Fault Refusal :=
  match s.stores.find? id with
  | none => .next s
  | some x =>
    if x.st != .sent || s.storeWaits id x then .next s
    else if hostTag ≤ x.pa then .next ((s.hostStore x).storeDone id x)
    else if x.copies.isEmpty then
      match s.applyStore x x.pa with
      | none => .next (s.denyStore id x x.pa)
      | some s => .next (s.storeDone id x)
    else if x.atomicProp then
      -- copies that pass take the store also when another is denied (R111)
      let r := x.copies.foldl (fun (acc : State × Option Nat) pa => match acc.1.applyStore x pa with
        | some s => (s, acc.2)
        | none => (acc.1, acc.2.or (some pa))) (s, none)
      match r.2 with
      | some pa => .next (r.1.denyStore id x pa)
      | none => .next (r.1.storeDone id x)
    else match x.copies[copy]? with
      | none => .next s
      | some pa =>
        match s.applyStore x pa with
        | none => .next (s.denyStore id x pa)
        | some s =>
          let rest := x.copies.filter (· ≠ pa)
          .next (if rest.isEmpty then s.storeDone id x else { s with stores := s.stores.put id { x with copies := rest } })

/-- The acknowledgement of a core's store clears the dirty bits that no other store in flight covers, and is a stamp of
the word (R87, R88). Bytes of a NOL1 store and words of an ATOMIC replicated page are not kept clean (Table 4.5, R349). -/
def State.ackL1 (s : State) (x : Store) (stamp : DWord) : State :=
  s.each (wordsOf x.pa x.bytes.length) fun s w =>
    let still : BitVec 4 := BitVec.ofNat 4 ((List.range 4).foldl (fun acc i =>
      if s.stores.any fun y => y.2.core == x.core && overlaps y.2.pa y.2.bytes.length (4 * w.1 + i) 1 then acc + 2 ^ i else acc) 0)
    s.modCore x.core fun c =>
      match c.l1.find? w.1 with
      | none => c
      | some y =>
        let dirty := y.dirty &&& (~~~w.2 ||| still)
        let valid := if x.atomicProp then y.valid &&& dirty else if x.hint == 2 then y.valid &&& (~~~w.2 ||| dirty) else y.valid
        let st := match y.stamp with
          | some t => if y.valid &&& ~~~w.2 = 0 then stamp else minStamp stamp t
          | none => stamp
        if valid = 0 then { c with l1 := c.l1.erase w.1 }
        else { c with l1 := c.l1.put w.1 { y with dirty := dirty, valid := valid, stamp := some st } }

/-- Count an acknowledgement to a warp: its store counter falls and the stamp is kept (R124, Table 10.7). -/
def State.ackWarp (s : State) (core slot : Nat) (stamp : DWord) : State :=
  s.modWarp core slot fun w => { w with cntStore := w.cntStore - 1, ackT := if w.ackT.toNat < stamp.toNat then stamp else w.ackT }

/-- `STORE_ACK`. -/
def execStoreAck (id : Nat) (s : State) : Host.Outcome State Fault Refusal :=
  match s.stores.find? id with
  | none => .next s
  | some x =>
    match x.st with
    | .homed stamp =>
      let s := { s with stores := s.stores.erase id }
      let s := if hostTag ≤ x.pa then s else s.ackL1 x stamp
      .next (if x.slot < 32 then s.ackWarp x.core x.slot stamp else s.drainEngine)
    | _ => .next s

/-! ## Loads -/

/-- An older load of the same thread has still to take some of these bytes (R343). -/
def State.olderMine (s : State) (id : Nat) (l : Load) (thread a n : Nat) : Bool :=
  s.loads.any fun x => decide (x.1 < id) && x.2.core == l.core && x.2.slot == l.slot && x.2.gred.isNone && x.2.lanes.any fun y =>
    y.fixed.isNone && (x.2.uni || l.uni || y.thread == thread) && y.parts.any fun p => overlaps p.1 p.2 a n

/-- A load waits for what must come before it: older atomics of its core, older loads of its threads, its own core's stores that L1
does not hold, the host's link (R385), a host request on its line, a flip of its page, or a full queue of its bank. -/
def State.loadBlocked (s : State) (id : Nat) (l : Load) : Bool :=
  l.lanes.any fun y => y.fixed.isNone && y.parts.any fun p =>
    s.olderAtomic l.core id p.1 p.2 || s.olderMine id l y.thread p.1 p.2 ||
      (decide (hostTag ≤ p.1) && !s.hostUp l.vf) || (p.1 < hostTag && (s.hostBusy p.1 || s.flipWaits p.1 id || s.syncFull p.1 p.2 id ||
        (wordsOf p.1 p.2).any fun w => s.overflow.contains w.1 && s.dramHeld (4 * w.1) 4)) ||
      (!s.replays l.vf && (wordsOf p.1 p.2).any fun w =>
        let held := (((s.core l.core).l1.find? w.1).map (·.dirty)).getD 0
        s.unhomed l.core w.1 &&& w.2 &&& ~~~held != 0)

/-- Words of a lane that DRAM must supply. -/
def State.dramWords (s : State) (l : Load) (y : LoadLane) : List Nat :=
  if y.fixed.isSome then [] else ((((s.farBytes l y).filter fun a => decide (a < hostTag)).map (· / 4)).dedup).filter s.needsDram

/-- Device words that lanes with bytes to take ask of their homes. -/
def State.asked (s : State) (l : Load) : List Nat :=
  firsts (l.lanes.flatMap fun y => if y.fixed.isSome then [] else ((s.farBytes l y).filter fun a => decide (a < hostTag)).map (· / 4))

/-- A home slice replies to a load once it holds every word that the load asks of it (R419): each slice of the lane does. -/
def State.laneReady (s : State) (l : Load) (y : LoadLane) : Bool :=
  let all := s.asked l
  (s.asked { l with lanes := [y] }).all fun w => all.all fun v => sliceIx (4 * v) != sliceIx (4 * w) || !s.needsDram v

/-- The lane's virtual address, for the log. -/
def Load.vaOf (l : Load) (y : LoadLane) : DWord :=
  BitVec.ofNat 64 ((((l.lanes.zip l.vas).find? fun z => z.1.thread == y.thread).map (·.2)).getD 0)

/-- Device words of the lanes. -/
def Load.words (l : Load) : List Nat :=
  (l.lanes.flatMap fun y => (y.parts.filter fun p => p.1 < hostTag).flatMap fun p => (wordsOf p.1 p.2).map (·.1)).dedup

/-- Those that are read at their homes. -/
def State.farWords (s : State) (l : Load) : List Nat :=
  (l.lanes.flatMap fun y => if y.fixed.isSome then [] else
    (y.parts.filter fun p => p.1 < hostTag && !s.fromL1 l p).flatMap fun p => (wordsOf p.1 p.2).map (·.1)).dedup

/-- Those that L1 gives. -/
def State.nearWords1 (s : State) (l : Load) : List Nat :=
  (l.lanes.flatMap fun y => if y.fixed.isSome then [] else y.parts.flatMap fun p =>
    if s.fromL1 l p then (wordsOf p.1 p.2).map (·.1) else []).dedup

/-- Values returned to a warp's reads: what they carry is kept for a later acquire fence (Table 10.7). -/
def State.gotInfo (s : State) (core slot : Nat) (got : List RelInfo) : State :=
  s.modWarp core slot fun w => { w with
    got := joinRel w.got got
    acqT := (maxStamp (some w.acqT) (stampOf got)).getD 0 }

/-- What the memory system answers a load: still waiting, a fault, or the state with its words brought in and the bytes
by lane. -/
inductive Reply where
  | wait (s : State)
  | denied (mask : DWord) (va : DWord) (pa : Nat)
  | poison (s : State) (va : DWord)
  | data (s : State) (lanes : List (Nat × List Byte))

/-- Words that a load has read at their homes fill its core's L1, unless its hint is NOL1 (Table 4.5) or its quantum is recorded; its
hint marks their frames. -/
def State.fillFor (s : State) (l : Load) (was : List Nat) : State :=
  let s := s.each (was.filter fun w => (s.l2.find? w).isSome) fun s w => s.markL2 (w / 64) l.hint
  if l.hint = 2 || s.replays l.vf then s
  else s.each ((s.hintWords 0 was).filter fun w => !s.needsDram w) fun s w => s.l1Fill l.core w l.hint

/-- Words that a load's hint fills beyond those it asked for: DRAM reads are queued whose arrival fills them (Table 4.5). -/
def State.fillMore (s : State) (l : Load) (was : List Nat) : State :=
  if (l.hint = 4 || l.hint = 5) && !s.replays l.vf then s.prefetchWords l.core l.vf l.hint was else s

/-- The home slices that hold all that a load asks of them reply (R419): lanes of them take their bytes. -/
def State.takeReady (s : State) (id : Nat) (l : Load) (p : LoadLane → Bool) : State :=
  let ready (y : LoadLane) : Bool := y.fixed.isNone && p y && !(s.asked { l with lanes := [y] }).isEmpty && s.laneReady l y
  if !l.lanes.any ready || s.loadBlocked id l then s
  else
    let sub := { l with lanes := l.lanes.filter ready }
    let far := s.farWords sub
    let s := (s.each far fun s w => s.touch l.vf w).each (s.nearWords1 sub) fun s w => s.touchL1 l.vf l.core w
    ({ s with loads := s.loads.put id (s.takeLanes l ready) } : State).fillFor l far

/-- Serve a load: row checks, hearth reads, poison, bandwidth, then L1 fills and what its values carry (R271, R86, R275). Each
part comes from L1, or from one reading of its home (R270). -/
def State.serveLoad (s : State) (id : Nat) (l : Load) : Reply :=
  if s.loadBlocked id l then .wait s
  else
    let bad := l.lanes.filterMap fun y => ((s.dramWords l y).find? fun w => !s.rowOk l.vf (4 * w) false false).map fun w => (y, w)
    match bad with
    | b :: _ => .denied (maskOf (bad.map fun y => y.1.thread)) (l.vaOf b.1) (4 * b.2)
    | [] =>
      let dram := (s.asked l).filter s.needsDram
      if !dram.isEmpty then
        let known := (s.loads.find? id).isSome
        let s := s.each dram fun s w => s.queueRead l.vf w (if known then id + 1 else 0) []
        .wait (if known then s.takeReady id l fun _ => true else s)
      else
        let far := s.farWords l
        let s := (s.each far fun s w => s.touch l.vf w).each (s.nearWords1 l) fun s w => s.touchL1 l.vf l.core w
        match l.lanes.find? (s.lanePoison l) with
        | some y => .poison s (l.vaOf y)
        | none =>
          let bytes := (l.far ++ (l.lanes.filter (·.fixed.isNone)).flatMap (s.farBytes l)).dedup
          match s.through l.vf id (s.traffic l.vf l.core false bytes) with
          | .error s => .wait s
          | .ok s =>
            let out := l.lanes.map fun y => (y.thread, s.laneBytes l y)
            let got := l.lanes.foldl (fun g y => joinRel g (s.laneRel l y)) l.got
            let s := (s.fillFor l far).fillMore l l.words
            let s := s.each far fun s w => s.flushBias (4 * w) 4
            .data (if l.acq = 0 then s.gotInfo l.core l.slot got else s.acquire l.core l.slot l.acq got) out

/-- Frames that the core's L1 replaces: each goes whole, where its marks let it go first (R86, Table 4.5). -/
def Core.replace (c : Core) (frames : List Nat) : Core :=
  frames.foldl (fun (c : Core) f => if (c.victims f).contains f then
    { c with l1 := c.l1.filter fun x => x.1 / 64 != f, marks := c.marks.erase f } else c) c

/-- `LOAD_REPLY`: the values are written back (R271); `evict` names frames that the core's L1 replaces. -/
def execLoadReply (id : Nat) (evict : List Nat) (s : State) : Host.Outcome State Fault Refusal :=
  match s.loads.find? id with
  | none => .next s
  | some l =>
    if l.gred.isSome then .next s
    else
      let drop (s : State) : State := { s with loads := s.loads.erase id }
      match s.serveLoad id l with
      | .wait s => .next s
      | .denied m va pa => .next ((drop s).contextFault l.ctx l.vf l.core ⟨causeRowDenied, m, va, some pa⟩ l.pc)
      | .poison s va => .next ((drop s).killWarp l.core l.slot ⟨causeUncorr, 0, va, none⟩ l.pc)
      | .data s out =>
        let s := (drop s).writeBack l.core l.slot (out.flatMap fun y => groupWrites l.dst l.size l.sgn y.1 y.2)
        .next (s.modCore l.core fun c => c.replace evict)

/-! ## Atomics -/

/-- Op(m, x) of Table 13.5 on `w`-bit values; TYPE 0 `.i32`, 1 `.n32`, 2 `.f32`, 3 `.i64`, 4 `.n64` (Table 13.2). -/
def atomOp (op ty : Nat) (m x cmp : BitVec 128) : BitVec 128 :=
  let w := if 3 ≤ ty then 64 else 32
  let mn := m.toNat % 2 ^ w
  let xn := x.toNat % 2 ^ w
  let sgn := ty == 0 || ty == 3
  let lt (a b : Nat) : Bool := if sgn then decide (sextNat a w < sextNat b w) else decide (a < b)
  let f (big : Bool) : Nat := (minMax f32 big mn xn (f32.value mn) (f32.value xn)).1
  let r : Nat := match op with
    | 0 => if ty = 2 then ((arith f32 (ieee 0) [f32.value mn, f32.value xn] (fvAdd 0 (f32.value mn) (f32.value xn))).1) else (mn + xn) % 2 ^ w
    | 1 => if ty = 2 then f false else if lt xn mn then xn else mn
    | 2 => if ty = 2 then f true else if lt mn xn then xn else mn
    | 3 => mn &&& xn
    | 4 => mn ||| xn
    | 5 => mn ^^^ xn
    | 6 => xn
    | _ => if mn = cmp.toNat % 2 ^ w then xn else mn
  BitVec.ofNat 128 r

/-- The words of an atomic. -/
def Atomic.words (a : Atomic) : List Nat := (wordsOf a.pa (2 ^ a.size)).map (·.1)

/-- Lanes of an atomic instruction that have still to execute. -/
def State.groupLanes (s : State) (a : Atomic) : List Atomic :=
  (s.atomics.filter fun y => y.2.group == a.group && y.2.core == a.core && y.2.old.isNone).map (·.2)

/-- An atomic waits at its bank: for older writes of its core on its bytes, for the core's older loads, for what its release covers,
for a solo attempt, for a flip of its page, for its row to be materialised (R367), or behind a full queue of its bank. -/
def State.atomicBlocked (s : State) (id : Nat) (a : Atomic) : Bool :=
  let n := 2 ^ a.size
  s.olderStore a.core id a.pa n || s.olderAtomic a.core id a.pa n || s.olderLoad a.core id || s.relWaits a.core id a.group a.rel ||
    s.lockedRun a.vf (a.core, a.slot, a.thread) a.pa n || s.flipWaits a.pa id || s.matHeld a.pa || s.bankFull (a.pa / 4) id

/-- What the lanes' words need before one of them executes: a denied lane, DRAM reads, or a poisoned lane. An instruction that ends in
UNCORR_DATA installs nothing (R287), so a lane waits until the words of all are there and good (assumption 104); once a lane has
executed, the others' words stay in their engines, and are good, until they have. -/
inductive GroupReady where
  | denied (l : List Atomic)
  | reads (l : List Nat)
  | poison (l : List Atomic)
  | ready
  deriving DecidableEq, Repr

def State.groupReady (s : State) (l : List Atomic) : GroupReady :=
  let denied := l.filter fun a => !s.rowOk a.vf a.pa true false || (a.words.any s.needsDram && !s.rowOk a.vf a.pa false false)
  let far := ((l.flatMap Atomic.words).dedup).filter s.needsDram
  let bad := l.filter fun a => !a.begun && a.words.any fun w => (s.homeWord w).2
  if !denied.isEmpty then .denied denied else if !far.isEmpty then .reads far else if !bad.isEmpty then .poison bad else .ready

/-- The lanes of an instruction whose words are all there execute from now on. -/
def State.beginGroup (s : State) (a : Atomic) : State :=
  { s with atomics := s.atomics.mapVals fun y => if y.group == a.group && y.core == a.core then { y with begun := true } else y }

/-- One indivisible step at the engine on the home's current value. -/
def State.atomicStep (s : State) (id : Nat) (a : Atomic) : State :=
  let n := 2 ^ a.size
  let s := s.migrateRun a.pa n
  let m : BitVec 128 := BitVec.ofNat 128 (ofBytes ((List.range n).map fun i =>
    (s.homeWord ((a.pa + i) / 4)).1.extractLsb' (8 * ((a.pa + i) % 4)) 8))
  let got := (wordsOf a.pa n).foldl (fun l w => joinRel l (s.relOf w.1 w.2)) []
  let v := if a.cas16 then (if m = a.cmp then a.x else m) else atomOp a.op a.ty m a.x a.cmp
  let bytes := toBytes n v.toNat
  let rel := s.relNow a.core a.words.length a.rel
  let s := if a.cas16 && m != a.cmp then s
    else ((s.each (wordsOf a.pa n) fun s w => s.homeWriteLogged a.vf w.1 (wordFrom a.pa w.1 bytes) w.2 rel true ⟨6, homeDie a.pa, some a.va, 0⟩).pastL1
      a.core a.words).wroteWords a.core a.slot a.words
  { s with atomics := s.atomics.put id { a with old := some m, stamp := s.vclock, got := got } }

/-- Bytes an atomic moves: its operands out, its old value back. -/
def State.atomicTraffic (s : State) (a : Atomic) : List (Nat × Nat × Nat) :=
  let n := 2 ^ a.size
  s.traffic a.vf a.core true (bytesAt a.pa n ++ if a.cas16 || a.op = 7 then bytesAt a.pa n else []) ++
    if a.dst.isSome then s.traffic a.vf a.core false (bytesAt a.pa n) else []

/-- `ATOMIC_EXECUTE` (R278, R279, R280). -/
def execAtomicExecute (id : Nat) (s : State) : Host.Outcome State Fault Refusal :=
  match s.atomics.find? id with
  | none => .next s
  | some a =>
    let lanes := s.groupLanes a
    let drop (s : State) : State := { s with atomics := s.atomics.erase id }
    if a.old.isSome || s.atomicBlocked id a then .next s
    else
      let s := if a.begun then s else s.each lanes fun s y => s.each y.words fun s w => if s.needsDram w then s else s.touch y.vf w
      match s.groupReady lanes with
      | .denied l =>
        let f : FaultInfo := ⟨causeRowDenied, maskOf (l.map (·.thread)), ((l.head?).map (·.va)).getD 0, (l.head?).map (·.pa)⟩
        .next (if a.slot < 32 then (drop s).contextFault (s.ctxIdOfTeam a.team) a.vf a.core f a.pc else ((drop s).logFault a.vf a.core f a.pc).drainEngine)
      | .reads l =>
        let here := ((lanes.flatMap Atomic.words).dedup).filter fun w => !l.contains w
        .next ((s.each here fun s w => s.migrate w).each l fun s w => s.queueRead a.vf w (a.group + 1) [])
      | .poison l =>
        let f : FaultInfo := ⟨causeUncorr, maskOf (l.map (·.thread)), ((l.head?).map (·.va)).getD 0, none⟩
        let s := { s with atomics := s.atomics.filter fun y => !(y.2.group == a.group && y.2.core == a.core && y.2.old.isNone) }
        .next (if a.slot < 32 then s.killWarp a.core a.slot f a.pc else (s.logFault a.vf a.core f a.pc).drainEngine)
      | .ready => match s.through a.vf id (s.atomicTraffic a) with
        | .error s => .next s
        | .ok s => .next ((s.each lanes fun s y => s.migrateRun y.pa (2 ^ y.size)).beginGroup a |>.atomicStep id a)

/-- The writes of an atomic's old value: `.i32` sign-extends into a scalar (R269, R56). -/
def Atomic.writes (a : Atomic) (old : BitVec 128) : List RegWrite :=
  match a.dst with
  | none => []
  | some d => groupWrites d a.size (a.ty == 0 && !a.cas16) a.thread (toBytes (2 ^ a.size) old.toNat)

/-- `ATOMIC_REPLY`: the old value returns and the acknowledgement lowers the store counter. -/
def execAtomicReply (id : Nat) (s : State) : Host.Outcome State Fault Refusal :=
  match s.atomics.find? id with
  | none => .next s
  | some a =>
    match a.old with
    | none => .next s
    | some m =>
      let s := { s with atomics := s.atomics.erase id }
      if 32 ≤ a.slot then .next s.drainEngine
      else
        let s := ((s.ackWarp a.core a.slot a.stamp).writeBack a.core a.slot (a.writes m)).gotInfo a.core a.slot a.got
        .next (if a.kind = 1 || a.kind = 3 then s.acquire a.core a.slot a.scope a.got else s)

/-! ## Transactions and rereads -/

/-- A commit waits for what comes before it: stores and atomics of its core, the core's older loads, flips of its pages, DRAM, and,
where no solo attempt makes it, full queues of its banks. -/
def State.commitBlocked (s : State) (core id : Nat) (t : Tx) : Bool :=
  s.olderLoad core id || s.relWaits core id s.nextId [⟨none, 0, core, 0, 0, 5⟩] ||
    (t.reads ++ t.writes).any fun r => s.flipWaits (4 * r.addr) id || s.dramHeld (4 * r.addr) 4 || s.matHeld (4 * r.addr) ||
      (!t.solo && s.bankFull r.addr id)

/-- The commit that an ended context left for a thread is validated (R283, R370). -/
def State.validateOrphan (s : State) (core slot thread : Nat) : State :=
  match s.orphans.find? fun o => o.core == core && o.slot == slot && o.thread == thread with
  | none => s
  | some o =>
    let id := o.tx.commit.getD 0
    if s.commitBlocked core id o.tx then s
    else match s.through o.vf id (s.traffic o.vf core true (o.tx.writes.flatMap fun r => bytesAt (4 * r.addr) 4)) with
      | .error s => s
      | .ok s => s.commitOrphan o

/-- `TX_VALIDATE` (R283). -/
def execTxValidate (core slot thread : Nat) (s : State) : Host.Outcome State Fault Refusal :=
  match (s.warp? core slot).bind fun w => (w.tx.find? thread).bind fun t => t.commit.map fun id => (w, t, id) with
  | none => .next (s.validateOrphan core slot thread)
  | some (w, t, id) =>
    let vf := s.vfOfTeam w.team
    if s.commitBlocked core id t then .next s
    else match s.through vf id (s.traffic vf core true (t.writes.flatMap fun r => bytesAt (4 * r.addr) 4)) with
      | .error s => .next s
      | .ok s => match s.commitTx core slot thread with
        | some s => .next s
        | none =>
          let s' := s.modWarp core slot fun w => { w with tx := w.tx.erase thread }
          let pc := ((w.entryOf thread).map fun e => (w.entry e).pc).getD 0
          let bad := t.writes.find? fun r => !s.rowOk vf (4 * r.addr) true false
          .next (s'.contextFault (s.ctxIdOfTeam w.team) vf core
            ⟨causeRowDenied, maskOf [thread], (bad.map (·.va)).getD 0, bad.map fun r => 4 * r.addr⟩ pc)

/-- Issue a waiting fragment's instruction again. -/
def State.again (s : State) (core slot entry : Nat) (run : Instr → State → Host.Outcome State Fault Refusal) : Host.Outcome State Fault Refusal :=
  match s.warp? core slot with
  | none => .next s
  | some w =>
    let e := w.entry entry
    match (w.stopWord.find? entry).bind fun x => (decodeStream x).map fun i => (x, i) with
    | none => .next s
    | some (x, i) =>
      let role : PairRole := match e.paired with
        | some n => .second n
        | none => .alone
      if e.st = .run then run i { s with cur := .frag core slot entry e.pc x role 0 } else .next s

/-- The context of a warp is live. -/
def State.warpLive (s : State) (core slot : Nat) : Bool :=
  match s.warp? core slot with
  | none => false
  | some w => ((s.ctx? (s.ctxIdOfTeam w.team)).map (·.st)) == some CtxState.live

/-- `SOLO_GRANT`: the grant goes to the next waiting `txbeg`, which then opens its transactions (R286); in replay a boundary
gives it (R414). -/
def execSoloGrant (vf : Nat) (s : State) : Host.Outcome State Fault Refusal :=
  match (s.part? vf).bind fun p => if p.soloHolder.isSome || p.replay then none else p.soloWait.head? with
  | none => .next s
  | some (core, slot, t) =>
    match (s.warp? core slot).bind fun w => w.entryOf t with
    | none => .next s
    | some e =>
      if !s.warpLive core slot then .next s
      else
        let s := s.modPart vf fun p => { p with
          soloHolder := some (core, slot, t), soloSince := s.vclock.toNat, soloWait := p.soloWait.drop 1 }
        s.again core slot e fun i s => match i with
          | .txbeg h b => execTxbeg h b s
          | _ => .next { s with cur := .none }

/-- `SOLO_TIMEOUT` (R286). -/
def execSoloTimeout (vf : Nat) (s : State) : Host.Outcome State Fault Refusal :=
  match (s.part? vf).bind fun p => p.soloHolder.map fun h => (p, h) with
  | none => .next s
  | some (p, core, slot, t) =>
    if s.vclock.toNat < p.soloSince + 2 ^ 20 then .next s
    else match (s.warp? core slot).bind fun w => w.tx.find? t with
      | none => .next (s.releaseSolo vf fun h => h == (core, slot, t))
      | some y => .next (if y.commit.isSome || y.lost != 0 then s else s.abortInPlace core slot (maskOf [t]) 8)

/-- `CWAIT_REREAD` (R221, R222): the waiting instruction reads its counter again; in replay only a boundary does (R414). -/
def execCwaitReread (core slot entry : Nat) (s : State) : Host.Outcome State Fault Refusal :=
  let waits := ((s.warp? core slot).map fun w => (w.entry entry).wait == .cwait || (w.entry entry).wait == .cyield).getD false
  if !waits || !s.warpLive core slot || s.replays (((s.warp? core slot).map fun w => s.vfOfTeam w.team).getD 0) then .next s
  else s.again core slot entry fun i s => match i with
    | .cwait h b => execCwait h b s
    | .cyield h b => execCyield h b s
    | _ => .next { s with cur := .none }

/-! ## Engines, L2 and DRAM -/

/-- `SYNC_EVICT`: a word leaves its engine, for its home slice or for the overflow area (R94); not one for which an atomic waits. -/
def execSyncEvict (word : Nat) (s : State) : Host.Outcome State Fault Refusal :=
  .next (if s.atomicWaits word then s else s.syncOut word)

/-- Requests of a channel's word queue: the hearth has the first 128, in the order in which they came (R78). -/
def State.queueOf (s : State) (stack ch : Nat) : List WordReq := ((s.wordQ.find? (stack * 32 + ch)).getD []).take 128

/-- `L2_WRITEBACK`: the dirty words of a frame are queued to DRAM; a clean frame is replaced (R91). -/
def execL2Writeback (frame : Nat) (s : State) : Host.Outcome State Fault Refusal :=
  let dirty := (s.l2.filter fun x => x.1 / 64 == frame && x.2.dirty != 0).map (·.1)
  if dirty.isEmpty then .next (s.l2Evict frame)
  else
    .next (s.each dirty fun s w =>
      let h := s.homeWord w
      let s := s.pushWrite w h.1 h.2
      { s with l2 := s.l2.modify w fun x => { x with data := h.1, valid := allBytes, dirty := 0, poison := h.2, err := 0 } })

/-- `TLB_WALK` (R100). -/
def execTlbWalk (core ctx : Nat) (va : DWord) (s : State) : Host.Outcome State Fault Refusal :=
  if !vaOk va then .next s
  else
    let w := s.walked (dieOfCore core) ctx va
    match s.walk (dieOfCore core) ctx va with
    | .ok t => .next (w.fillTlb core t)
    | .error _ => .next w

/-- Requests of a slice-bank, oldest first. -/
def State.bankReqs (s : State) (stack ch slice bank : Nat) : List WordReq :=
  (s.queueOf stack ch).filter fun r => sliceOfPa (4 * r.word) == slice && bankOfPa (4 * r.word) == bank

/-- An access in flight will report what happens to a read of a word. -/
def State.reportsRead (s : State) (wa : Nat) : Bool :=
  (s.loads.any fun l => l.2.lanes.any fun y => y.parts.any fun p => overlaps p.1 p.2 (4 * wa) 4) ||
    s.atomics.any fun a => a.2.old.isNone && overlaps a.2.pa (2 ^ a.2.size) (4 * wa) 4

/-- A slice-bank's activate (R115, R78, Table 4.3): for the oldest request of a closed one, in an ordinary interval. An
activate that fails the check answers its request with an error, which the waiting access reports, or else the hearth (R107). -/
def State.activateBank (s : State) (stack ch slice bank : Nat) : State :=
  let ix := sliceBank stack ch slice bank
  match s.bankReqs stack ch slice bank with
  | [] => s
  | r :: _ =>
    if (s.openRows.find? ix).isSome || (s.hearth stack).compute || s.dclk < (s.prechargeAt.find? ix).getD 0 + 34 then s
    else if s.rowOk r.vf (4 * r.word) r.write r.near then
      { s with openRows := s.openRows.put ix ⟨rowFieldOf (4 * r.word), s.dclk, false⟩ }
    else
      let t := { s with wordQ := s.wordQ.modify (stack * 32 + ch) fun q => q.erase r }
      if !r.write && s.reportsRead r.word then t else t.logPhys r.vf causeRowDenied (4 * r.word) none 4 stack 0

/-- A slice-bank's precharge: an ordinary row closes where its oldest word needs another row (R78) or none needs it (R431), no
sooner than tRAS after its activate. -/
def State.prechargeBank (s : State) (stack ch slice bank : Nat) : State :=
  let ix := sliceBank stack ch slice bank
  match s.openRows.find? ix with
  | none => s
  | some o =>
    let wanted := match s.bankReqs stack ch slice bank with
      | [] => false
      | r :: _ => rowFieldOf (4 * r.word) == o.row
    if o.stove || wanted || s.dclk < o.at_ + 80 then s
    else { s with openRows := s.openRows.erase ix, prechargeAt := s.prechargeAt.put ix s.dclk }

def execDramActivate (stack ch slice bank : Nat) (s : State) : Host.Outcome State Fault Refusal :=
  .next (s.activateBank stack ch slice bank)

def execDramPrecharge (stack ch slice bank : Nat) (s : State) : Host.Outcome State Fault Refusal :=
  .next (s.prechargeBank stack ch slice bank)

/-- In each DRAM clock the slice-banks precharge and activate what they can: every bank of a channel by itself (R78, R431). -/
def State.bankTurns (s : State) : State :=
  let s := s.each (s.openRows.map (·.1)) fun s ix => s.prechargeBank (ix / 8192) (ix / 256 % 32) (ix / 16 % 16) (ix % 16)
  s.each (s.wordQ.flatMap fun q => (q.2.take 128).map fun r => sliceBankOf (4 * r.word)).dedup fun s ix =>
    s.activateBank (ix / 8192) (ix / 256 % 32) (ix / 16 % 16) (ix % 16)

/-- The bucket of a stack for a function's requests. -/
def hearthBucket (r : WordReq) : Nat := bucketIx r.vf 2 (stackOfPa (4 * r.word))

/-- A request may go in a burst but for its bucket: its row is open for tRCD and no older request to its word waits. -/
def State.rowReady (s : State) (q : List WordReq) (r : WordReq) : Bool :=
  match s.openRows.find? (sliceBankOf (4 * r.word)) with
  | none => false
  | some o => o.row == rowFieldOf (4 * r.word) && !o.stove && decide (o.at_ + 34 ≤ s.dclk) &&
      ((q.takeWhile fun x => x != r).all fun x => x.word != r.word)

/-- It may go in a burst. -/
def State.burstReady (s : State) (q : List WordReq) (r : WordReq) : Bool :=
  s.rowReady q r && (r.vf == 0 || s.bucketOpen (hearthBucket r) r.id)

/-- A request waits for time alone: its row is open, or it is the one its slice-bank opens next (R78). -/
def State.burstLive (s : State) (q : List WordReq) (r : WordReq) : Bool :=
  let sb := sliceBankOf (4 * r.word)
  ((q.takeWhile fun x => x != r).all fun x => x.word != r.word) && (r.vf == 0 || s.bucketOpen (hearthBucket r) r.id) &&
    ((match s.openRows.find? sb with
      | some o => o.row == rowFieldOf (4 * r.word) && !o.stove
      | none => false) || (q.find? fun x => sliceBankOf (4 * x.word) == sb) == some r)

/-- The direction of a channel's next burst: that of the oldest ready request of `ready` at first; a direction then keeps its turn
while a request of it waits and it has had fewer than eight bursts or no other request is ready (R78, assumption 84). -/
def State.burstWrite (s : State) (k : Nat) (q ready : List WordReq) : Bool :=
  match s.burstRun.find? k with
  | none => (ready.head?.map (·.write)).getD false
  | some (w, n) =>
    if 8 ≤ n then (if ready.any fun r => r.write != w then !w else w)
    else if q.any fun r => r.write == w && s.burstLive q r then w
    else !w

/-- The requests one burst of channel `k` takes: the oldest ready one of each slice, in the burst's direction, in order of arrival. -/
def State.burstPick (s : State) (k : Nat) (q : List WordReq) : List WordReq :=
  let ready := q.filter (s.burstReady q)
  let w := s.burstWrite k q ready
  let l := (List.range 16).filterMap fun sl => ready.find? fun r => sliceOfPa (4 * r.word) == sl && r.write == w
  q.filter fun r => l.any fun y => y.id == r.id

/-- Requests ready for a burst that their buckets do not let pass are held from now on (R132). -/
def State.holdReady (s : State) (q : List WordReq) : State :=
  s.each (q.filter fun r => s.rowReady q r && r.vf != 0 && !s.bucketOpen (hearthBucket r) r.id) fun s r => s.holdReq (hearthBucket r) r.id

/-- The run of channel `k` after a burst in direction `w`. -/
def State.burstRunAfter (s : State) (k : Nat) (w : Bool) : Tab (Bool × Nat) :=
  s.burstRun.put k (match s.burstRun.find? k with
    | none => (w, 1)
    | some (v, n) => if v == w then (w, n + 1) else (w, 1))

/-- A word has come from DRAM: a home slice that now holds every word that a load asks of it replies, and an atomic's word moves into
its engine, before its slice gives it up again. -/
def State.arrived (s : State) (wa : Nat) : State :=
  let s := if s.atomicWaits wa then s.migrate wa else s
  s.each s.loads fun s x =>
    let l := x.2
    if l.gred.isSome || !(s.asked l).contains wa then s
    else s.takeReady x.1 l fun y => (s.asked { l with lanes := [y] }).any fun w => sliceIx (4 * w) == sliceIx (4 * wa)

/-- Serve one request of a burst; `fail` delivers its word poisoned (R84). A read fills the slice, and L1 for the prefetches
that asked for it (R276); a word that its engine has taken meanwhile is not filled. -/
def State.serveReq (s : State) (fail : Bool) (r : WordReq) : State :=
  if r.write then (s.setDram r.word r.data (r.poison || fail)).reachDram r.word r.at_
  else
    let v := s.hearthRead r.vf r.word
    let s := v.2.2
    if (s.sync.find? r.word).isSome || s.syncPage r.word then s
    else
      let x := (s.l2.find? r.word).getD ⟨0, 0, 0, false, 0⟩
      let y : L2Word := ⟨mergeBytes v.1 x.data x.valid, allBytes, x.dirty, x.poison || ((v.2.1 || fail) && x.valid != allBytes), x.err⟩
      let s := ({ s with l2 := s.l2.put r.word y } : State).arrived r.word
      let s := if s.isHostBias (4 * r.word) || (s.sync.find? r.word).isSome then s else s.each r.fills fun s f => s.l1Fill f.1 r.word f.2
      (s.flushBias (4 * r.word) 4).l2Trim (r.word / 64) 34

/-! ## A stove's claim to its channel (R337, R339, R430, R431) -/

/-- Clocks into the ordinary interval at which a DRAM clock falls; none inside the compute interval. -/
def Hearth.ordinary (h : Hearth) (t : Nat) : Option Nat :=
  if h.compute && t < h.ordAt then none else some (t - h.ordAt)

/-- The clock of the next burst of a stove on its channel after a row's activate. -/
def State.beatAt (s : State) (k bank : Nat) : Nat :=
  let act := ((s.openRows.find? (sliceBank (k / 32) (k % 32) 0 bank)).map (·.at_)).getD 0
  max (max s.dclk (act + 34)) (((s.burstAt.find? k).map (· + 2)).getD 0)

/-- Physical address of line `line` of a row of a stove's channel (R337). -/
def stovePa (k bank row line : Nat) : Nat := paOf (k / 32) (k % 32) bank row line

/-- A burst that a stove would take now breaks a limit of R339. -/
def State.burstLimit (s : State) (k : Nat) (x : Stove) (bank : Nat) : Bool :=
  ((s.hearth (k / 32)).ordinary (s.beatAt k bank)).any fun o => decide (96 < o) || decide (32 ≤ x.ordBursts)

/-- The fields of a write entry's tag (R337): column, bank, row. -/
def tagColumn (t : Word) : Nat := bitsOf t.toNat 4 0
def tagBank (t : Word) : Nat := bitsOf t.toNat 8 5
def tagRow (t : Word) : Nat := bitsOf t.toNat 24 9

/-- Registers of the address thread. -/
def Stove.agr (x : Stove) (i : BitVec 4) : Word := x.ag.get 0 i.toNat

/-- Bank, row and line of the burst that a running address thread has come to, its row open. -/
def Stove.nextBurst (x : Stove) : Option (Nat × Nat × Nat) :=
  if x.st != .running || x.aend then none
  else match decodeStove (x.acode.getD x.apc 0) with
    | .ok (.acol a b imm) =>
      if 16 ≤ x.dataQ.length then none
      else (x.rows.find? ((x.agr a).toNat % 16)).map fun row => ((x.agr a).toNat % 16, row, (x.agr b + imm.signExtend 32).toNat % 32)
    | .ok .awr => match x.buffer with
      | some y => if x.rows.find? (tagBank y.1) = some (tagRow y.1) then some (tagBank y.1, tagRow y.1, tagColumn y.1) else none
      | none => none
    | _ => none

/-- The sixteen words of a stove's burst have to wait: for a flip of their page (R98), for a place in their channel's queue, or for an
older request to one of them (R78, R103). -/
def State.lineHeld (s : State) (k pa : Nat) : Bool :=
  let q := (s.wordQ.find? k).getD []
  s.flipWaits pa s.nextId || decide (112 < q.length) || q.any fun r => decide (r.word / 16 = pa / 64)

/-- A stove is ready for the beat of this clock, so that no ordinary burst takes it (R431). -/
def State.stoveFirst (s : State) (k : Nat) : Bool :=
  let x := s.stove k
  match x.nextBurst with
  | none => false
  | some (bank, row, line) => decide (x.lastA ≤ s.dclk) && decide (s.beatAt k bank ≤ s.dclk) && !s.burstLimit k x bank &&
      !s.lineHeld k (stovePa k bank row line) && (x.vf == 0 || s.bucketOpen (bucketIx x.vf 2 (k / 32)) (stoveReq k))

/-- `BURST`: one burst of a channel in an ordinary interval (R77, R78, R84); `retry` counts its failed tries. -/
def execBurst (stack ch retry : Nat) (s : State) : Host.Outcome State Fault Refusal :=
  let k := stack * 32 + ch
  let q := s.queueOf stack ch
  if (s.hearth stack).compute || s.dclk < (s.burstAt.find? k).getD 0 + 2 || s.stoveFirst k then .next s
  else
    let pick := s.burstPick k q
    let s := s.holdReady q
    if pick.isEmpty then .next s
    else
      let r := pick.foldl (fun (acc : State × List WordReq) r =>
        match acc.1.through r.vf r.id [(2, stack, 4)] with
        | .error s => (s, acc.2)
        | .ok s => (s, acc.2 ++ [r])) (s, [])
      let pick := r.2
      let s := { r.1 with
        wordQ := r.1.wordQ.modify k fun q => q.filter fun r => !pick.any fun p => p.id == r.id
        burstAt := s.burstAt.put k s.dclk
        burstRun := s.burstRunAfter k (pick.any (·.write)) }
      let vfs := (pick.map (·.vf)).dedup
      let s := s.each (List.range (min retry 3)) fun s _ =>
        let s := vfs.foldl (fun (s : State) vf => s.countPerf vf 3) (s.countEvent 20 stack 3)
        if retry ≤ 3 then s.logMgmt ⟨s.vclock, 0, 0xF2, 4, stack, 0xFF, 0, 0⟩ else s
      let s := vfs.foldl (fun (s : State) vf => s.countPerf vf 10) s
      .next (s.each pick fun s r => s.serveReq (decide (3 < retry)) r)

end Sys2Proof.Machine
end

