-- ==== Sys2Proof/Machine/Copy.lean ====
section
/-! DEFINITION. The copy class (14 R309 to R318): `bcopy`, `bloop`, `brel`, `bmcast` and `kcoll`, and the events of the copy
channels and the collective engines. -/

namespace Sys2Proof.Machine

/-! ## Issue -/

/-- The unaligned address of a copy-class instruction, layout record first. -/
def copyAlign (x : Ctx) (b : VBody) : Option DWord :=
  if (x.scal b.a).toNat % 64 ≠ 0 then some (x.scal b.a)
  else if (x.scal b.c).toNat % 16 ≠ 0 then some (x.scal b.c)
  else none

/-- The operations of a copy channel. -/
def Hive.channel (h : Hive) (ch : Nat) : List CopyOp := (h.copy.find? ch).getD []

/-- A signed 32-bit half of a scalar. -/
def half (v : DWord) (hi : Bool) : Int := sextNat (if hi then v.toNat / 2 ^ 32 else v.toNat) 32

/-- The coordinates c0 to c4 (R312). -/
def Ctx.coords (x : Ctx) (b : VBody) : List Int :=
  let r := b.b.toNat - 0xC0
  [half (x.s r) false, half (x.s r) true, half (x.s (r + 1)) false, half (x.s (r + 1)) true, half (x.s (r + 2)) false]

/-- Queue keys of a copy channel and of a die's collective engine (R105). -/
def copyQueue (hive ch : Nat) : Nat := hive * 16 + ch
def collQueue (die : Nat) : Nat := 200000 + die

/-- A counter operand: s63 names no counter (R314, assumption 99). -/
def Ctx.counterIn (x : Ctx) (code : BitVec 8) : Option DWord := if code = 0xFF then none else some (x.scal code)

/-- Writes of a core older than a release that precedes an engine's reads have yet to take effect (R310). -/
def State.owesBefore (s : State) (core id : Nat) : Bool :=
  (s.stores.any fun x => decide (x.1 < id) && x.2.core == core && (x.2.st == .pending || x.2.st == .sent)) ||
    s.atomics.any fun x => decide (x.1 < id) && x.2.core == core && x.2.old.isNone

/-- A channel takes an operation: it has room, and the operation's record can be read (R121, R310). -/
def State.channelTakes (s : State) (x : Ctx) (ch : Nat) (layrec : DWord) : Bool :=
  decide (((s.hive (hiveOfCore x.core)).channel ch).length < 5) && !s.owesBefore x.core x.w.fenced &&
    !s.engineWaits (dieOfCore x.core) x.gctx layrec 128 .read

/-- Issue an operation to a channel of the hive, which accepts it in the same opportunity; it stalls while the channel is full or
the counter stands at 63. -/
def copyIssue (x : Ctx) (s : State) (b : VBody) (kind : CopyKind) (loopN stages pitch : Nat) (step : List Int) (first nteams : Nat) : Eff :=
  if x.act = 0 then .done s
  else match copyAlign x b with
    | some a => .trap ⟨causeAlign, x.mask, a, none⟩
    | none =>
      let h := hiveOfCore x.core
      let ch := b.mod.toNat % 16
      if 63 ≤ x.w.counter 0 then .stall s
      else x.enqueue s [copyQueue h ch] (s.channelTakes x ch (x.scal b.a)) fun s =>
        let f := s.fresh
        let op : CopyOp := {
          id := f.1, kind := kind, core := x.core, slot := x.slot, team := x.team, vf := x.vf, ctx := x.gctx, layrec := x.scal b.a,
          delta := (x.scal b.d).toNat % 2 ^ 32, coord := x.coords b, counter := x.counterIn b.c, loopN := loopN, stages := stages,
          pitch := pitch, step := step, first := first, nteams := nteams, dest := [], layout := none, iter := 0, part := 0,
          started := false, released := [], delivered := [], after := x.w.fenced, data := [], moved := [], stopped := false }
        let s := (f.2.modHive h fun y => { y with copy := y.copy.put ch (y.channel ch ++ [op]) }).modWarp x.core x.slot fun w => w.pushOp 0 f.1
        .done { s with agenda := .acceptCopy h ch :: s.agenda }

def execBcopy (h : Hdr) (b : VBody) (s : State) : Host.Outcome State Fault Refusal :=
  issue (.bcopy h b) s fun x s => copyIssue x s b (.bcopy (b.mod.getLsbD 4)) 1 1 0 [0, 0, 0, 0, 0] 0 0

/-- The loop pair of R315: N, S, PITCH and the five 12-bit steps. -/
def execBloop (h : Hdr) (b : VBody) (s : State) : Host.Outcome State Fault Refusal :=
  issue (.bloop h b) s fun x s =>
    let e := b.e.toNat - 0xC0
    let v := (x.s e).toNat
    let st := (x.s (e + 1)).toNat
    let bad := st / 2 ^ 60 != 0
    copyIssue x s b .bloop (if bad then 0 else v % 2 ^ 32) (bitsOf v 35 32) (bitsOf v 63 36)
      ((List.range 5).map fun d => sextNat (st / 2 ^ (12 * d)) 12) 0 0

def execBmcast (h : Hdr) (b : VBody) (s : State) : Host.Outcome State Fault Refusal :=
  issue (.bmcast h b) s fun x s =>
    copyIssue x s b .bmcast 1 1 0 [0, 0, 0, 0, 0] ((x.scal b.e).toNat % 2 ^ 32) (bitsOf b.mod.toNat 11 8 + 1)

/-- `brel`: RELEASED of a stage of the channel's current `bloop` (R315). -/
def execBrel (h : Hdr) (b : VBody) (s : State) : Host.Outcome State Fault Refusal :=
  issue (.brel h b) s fun x s =>
    if x.act = 0 then .done s
    else
      let ch := b.mod.toNat % 16
      let st := bitsOf b.mod.toNat 6 4
      .done (s.modHive (hiveOfCore x.core) fun y =>
        match y.channel ch with
        | op :: l =>
          if op.kind == .bloop && op.layout.isSome && st < op.stages && !op.released.contains st then
            { y with copy := y.copy.put ch ({ op with released := st :: op.released } :: l) }
          else y
        | [] => y)

/-- The entries of a die's collective queue: those of a halted context and of a saved team are kept outside it (R106). -/
def State.collQueued (s : State) (die : Nat) : List Contribution :=
  ((s.coll.find? die).getD []).filter fun o => s.ctxLive o.ctx && !teamAway o.team

/-- `kcoll`: a team's next contribution to a group (R317). -/
def execKcoll (h : Hdr) (b : VBody) (s : State) : Host.Outcome State Fault Refusal :=
  issue (.kcoll h b) s fun x s =>
    let g := (x.scal b.e).toNat
    let first := g % 2 ^ 32
    let n := g / 2 ^ 32
    let bad := [x.scal b.a, x.scal b.b].find? fun a => a.toNat % 4 != 0
    match s.team? x.team with
    | none => .done s
    | some t =>
      if x.act = 0 then .done s
      else if t.num < first || first + n ≤ t.num || 65536 < n then .trap (plain causeReserved x.mask)
      else match bad.or (if (x.scal b.c).toNat % 16 ≠ 0 then some (x.scal b.c) else none) with
        | some a => .trap ⟨causeAlign, x.mask, a, none⟩
        | none =>
          let die := dieOfCore x.core
          let q := (s.coll.find? die).getD []
          if 63 ≤ x.w.counter 3 then .stall s
          else x.enqueue s [collQueue die] (decide ((s.collQueued die).length < 64)) fun s =>
            let seq := ((t.colls.find? fun y => y.1 == first && y.2.1 == n).map (·.2.2)).getD 0
            let f := s.fresh
            let c : Contribution := {
              core := x.core, slot := x.slot, team := x.team, vf := x.vf, ctx := x.gctx, grid := t.grid, num := t.num, first := first,
              n := n, seq := seq, op := b.mod.toNat % 4, fn := b.mod.toNat / 4 % 8, count := (x.scal b.d).toNat, src := x.scal b.a,
              dst := x.scal b.b, counter := x.counterIn b.c, after := x.w.fenced, id := f.1, pos := 0 }
            let s : State := { f.2 with coll := f.2.coll.put die (q ++ [c]) }
            let s := s.modTeam x.team fun t => { t with
              colls := (first, n, seq + 1) :: t.colls.filter fun y => !(y.1 == first && y.2.1 == n) }
            .done (s.modWarp x.core x.slot fun w => w.pushOp 3 f.1)

/-! ## The tensor layout record (Table 14.7) -/

/-- The fields of a record, if every one is within its limits. -/
def parseLayout (b : List Byte) : Option Layout :=
  let r := fieldOf b 1 1
  let dims := (List.range 5).map fun i => fieldOf b (0x10 + 4 * i) 4
  let box := (List.range 5).map fun i => fieldOf b (0x50 + 2 * i) 2
  let ok := fieldOf b 0 1 ≤ 2 && 1 ≤ r && r ≤ 5 && fieldOf b 2 1 ≤ 1 && fieldOf b 3 1 == 0 && fieldOf b 0x24 4 == 0 &&
    fieldOf b 0x5A 6 == 0 && fieldOf b 0x74 12 == 0 && dims.all (fun d => 1 ≤ d && d ≤ 2 ^ 31) && box.all (fun d => 1 ≤ d) &&
    ((List.range 5).all fun i => i < r || (dims.getD i 0 == 1 && box.getD i 0 == 1))
  if ok then some {
    esize := fieldOf b 0 1, rank := r, fill := fieldOf b 2 1 == 1, fillv := BitVec.ofNat 32 (fieldOf b 4 4),
    base := BitVec.ofNat 64 (fieldOf b 8 8), dim := dims, gstr := (List.range 5).map fun i => sextNat (fieldOf b (0x28 + 8 * i) 8) 64,
    box := box, cbase := fieldOf b 0x60 4, cstr := (List.range 4).map fun i => fieldOf b (0x64 + 4 * i) 4 }
  else none

/-- Replace an operation of a channel by its new form. -/
def State.setOp (s : State) (hive ch : Nat) (op : CopyOp) : State :=
  s.modHive hive fun h => { h with copy := h.copy.put ch ((h.channel ch).map fun o => if o.id = op.id then op else o) }

/-- Report the error of a die's engine: the error word, then the log with the address (R125, R313). -/
def State.engineError (s : State) (die ctx vf : Nat) (counter : Option DWord) (cause : Nat) (va : DWord) (kind idx : Nat) : State :=
  (s.ewErrorOn ctx vf counter cause (seenBit cause)).logVirt die ctx vf cause va kind idx 0

/-- Stop an operation at an error. -/
def State.stopCopy (s : State) (hive ch : Nat) (op : CopyOp) (cause : Nat) (va : DWord) : State :=
  (s.setOp hive ch { op with stopped := true, started := false }).engineError (dieOfHive hive) op.ctx op.vf op.counter cause va 2 hive

/-- The allocations a multicast resolves at acceptance: hive and generation of each team (R316). -/
def State.resolveTeams (s : State) (grid first n : Nat) : List (Option (Nat × BitVec 16)) :=
  (List.range n).map fun i =>
    (List.find? (fun (t : Nat × Team) => t.2.grid == grid && t.2.num == first + i &&
      !((t.2.screen.map (·.shadow)).getD false)) s.teams).map fun (t : Nat × Team) => (t.1 / 32, t.2.gen)

/-- `COPY_ACCEPT` (R121, R311, R313): the engine accepts the oldest operation of a channel that it has not accepted: its record is
read, whole in one event (assumption 107), and the teams of a multicast are resolved. -/
def execCopyAccept (hive ch : Nat) (s : State) : Host.Outcome State Fault Refusal :=
  match ((s.hive hive).channel ch).find? fun op => op.layout.isNone && !op.stopped with
  | none => .next s
  | some op =>
    if !s.ctxLive op.ctx || s.owesBefore op.core op.after || s.engineWaits (dieOfHive hive) op.ctx op.layrec 128 .read then .next s
    else match s.readVirt (dieOfHive hive) op.ctx op.vf op.layrec 128 .read with
      | (.error c, s) => .next (s.stopCopy hive ch op c op.layrec)
      | (.ok b, s) =>
        match parseLayout b with
        | none => .next (s.stopCopy hive ch op causeReserved op.layrec)
        | some l =>
          if op.kind == .bloop && (op.loopN == 0 || op.stages == 0 || 8 < op.stages) then .next (s.stopCopy hive ch op causeReserved op.layrec)
          else
            let grid := ((s.team? op.team).map (·.grid)).getD 0
            .next (s.setOp hive ch { op with
              layout := some l, started := true
              dest := if op.kind == .bmcast then s.resolveTeams grid op.first op.nteams else [] })

/-! ## Parts (R312) -/

/-- Elements of a part, parts of a row and parts of a box: a part is up to 16 bytes along dimension 0. -/
def Layout.per (l : Layout) : Nat := 16 / 2 ^ l.esize
def Layout.rowParts (l : Layout) : Nat := ceilDiv (l.box.getD 0 1) l.per
def Layout.parts (l : Layout) : Nat := l.rowParts * ((l.box.drop 1).foldl (· * ·) 1)

/-- One element of a part: in bounds, its global address, its comb offset. -/
structure CopyElem where
  inb : Bool
  ga : DWord
  ca : Nat
  deriving DecidableEq, Repr

/-- Box indices of a row number, dimensions 1 to 4. -/
def rowIndex : List Nat → Nat → List Nat
  | [], _ => []
  | b :: l, r => r % b :: rowIndex l (r / b)

/-- The elements of part `p` of iteration `i`. -/
def CopyOp.elems (op : CopyOp) (l : Layout) (p : Nat) : List CopyElem :=
  let k := p % l.rowParts
  let outer := rowIndex (l.box.drop 1) (p / l.rowParts)
  let c := (op.coord.zip op.step).map fun (y : Int × Int) => y.1 + (op.iter : Int) * y.2
  let delta := op.delta + op.iter % (max 1 op.stages) * op.pitch
  ((List.range l.per).map fun q => k * l.per + q).filterMap fun i0 =>
    if l.box.getD 0 1 ≤ i0 then none
    else
      let ix := i0 :: outer
      let g := (c.zip ix).map fun (y : Int × Nat) => y.1 + (y.2 : Int)
      let inb := (g.zip l.dim).all fun (y : Int × Nat) => decide (0 ≤ y.1) && decide (y.1 < (y.2 : Int))
      let ga := l.base + BitVec.ofInt 64 ((g.zip l.gstr).map fun (y : Int × Int) => y.1 * y.2).sum
      let ca := l.cbase + delta + i0 * 2 ^ l.esize + ((outer.zip l.cstr).map fun (y : Nat × Nat) => y.1 * y.2).sum
      some ⟨inb, ga, ca⟩

/-- A write of operation `op` to a cell is refused (R293, R296); one accepted before the `mseal` issued is an input of it
(R294). -/
def Hive.copyBlocked (h : Hive) (op cell : Nat) : Bool :=
  h.regions.any fun r => r.2.cells.contains cell && ((r.2.st == 1 && !r.2.before.contains op) || (r.2.st == 2 && !r.2.refill))

/-- Why the comb side of an element fails in an allocation. -/
def State.combCause (s : State) (op hive : Nat) (cells : List Nat) (bytes ca n : Nat) (write : Bool) : Option Nat :=
  if ca % n ≠ 0 then some causeAlign
  else if bytes < ca + n then some causeCombBounds
  else match combIndex cells ca with
    | none => some causeCombBounds
    | some wi => if write && (s.hive hive).copyBlocked op (wi / 8192) then some causeCombSealed else none

/-- What a copy engine writes comes from it, at a virtual address (Table 5.2). -/
def copySrc (hive : Nat) : LogSrc := ⟨2, hive, none, 0⟩

/-- Write an element into a comb allocation, its poison with it (R83). -/
def State.combPut (s : State) (vf engine hive : Nat) (cells : List Nat) (ca n : Nat) (v : Word) (poison : Bool) : State :=
  match combIndex cells ca with
  | none => s
  | some wi =>
    let s := s.each (wordsOf ca n) fun s w => s.combWrite vf hive wi (wordFrom ca w.1 (toBytes n v.toNat)) w.2 (copySrc engine)
    if poison then s.modHive hive fun h => { h with poison := if h.poison.contains wi then h.poison else wi :: h.poison } else s

/-- Read a global element: its value and poison. -/
def State.globalGet (s : State) (die ctx vf : Nat) (ga : DWord) (n : Nat) : Except Nat (Word × Bool) × State :=
  if ga.toNat % n ≠ 0 then (.error causeAlign, s)
  else
    let w := s.walked die ctx ga
    match s.resolveDie die ctx ga .read with
    | .error c => (.error c, w)
    | .ok x =>
      if x.host then (.ok (BitVec.ofNat 32 (ofBytes (Memory.readN s.hostMem x.pa n)), false), w)
      else
        let w := (if x.sync then w.bringSync vf x.pa n else w).touchRun vf x.pa n
        match s.readPhys vf x.pa n with
        | .ok b => (.ok (BitVec.ofNat 32 (ofBytes b), false), w)
        | .error c =>
          if c = causeUncorr then
            (.ok (((s.homeWord (x.pa / 4)).1 >>> (8 * (x.pa % 4))) &&& BitVec.ofNat 32 (2 ^ (8 * n) - 1), true), w)
          else (.error c, w)

/-- Mark a word at its home poisoned. -/
def State.poisonHome (s : State) (wa : Nat) : State :=
  if (s.sync.find? wa).isSome || (s.l2.find? wa).isSome then
    { s with
      sync := s.sync.modify wa fun x => { x with poison := true }
      l2 := s.l2.modify wa fun x => { x with poison := true } }
  else s.pushWrite wa (s.homeWord wa).1 true

/-- Write a global element, its poison with it: the cause where it cannot be written. -/
def State.globalPut (s : State) (die ctx vf : Nat) (ga : DWord) (n : Nat) (v : Word) (poison : Bool) (src : LogSrc) : Option Nat × State :=
  if ga.toNat % n ≠ 0 then (some causeAlign, s)
  else
    let r := s.writeVirt die ctx vf ga (toBytes n v.toNat) [] { src with va := some ga }
    match r.1, s.resolveDie die ctx ga .write with
    | none, .ok x =>
      if x.host || !poison then r
      else (none, r.2.each (if x.copies = [] then [x.pa] else x.copies) fun s pa => s.poisonHome (pa / 4))
    | _, _ => r

/-- The element a `.g2c` part moves: from memory, or the fill value out of bounds. -/
def State.fetchElem (s : State) (die : Nat) (op : CopyOp) (l : Layout) (e : CopyElem) : Except Nat (Word × Bool) × State :=
  if e.inb then s.globalGet die op.ctx op.vf e.ga (2 ^ l.esize)
  else (.ok (if l.fill then l.fillv &&& BitVec.ofNat 32 (2 ^ (8 * 2 ^ l.esize) - 1) else 0, false), s)

/-- The operation moves to global memory. -/
def CopyOp.toGlobal (op : CopyOp) : Bool :=
  match op.kind with
  | .bcopy g => g
  | _ => false

/-- Move one element of an operation of a team's, to memory where it is in bounds, or into the comb; an error with its address. -/
def State.moveElem (s : State) (hive : Nat) (op : CopyOp) (l : Layout) (t : Team) (e : CopyElem) : State × Option (Nat × DWord) :=
  let die := dieOfHive hive
  let n := 2 ^ l.esize
  if op.toGlobal && !e.inb then (s, none)
  else match s.combCause op.id hive t.cells t.bytes e.ca n (!op.toGlobal) with
    | some c => (s, some (c, if c = causeAlign then e.ga else BitVec.ofNat 64 e.ca))
    | none =>
      if op.toGlobal then
        let r := s.combRead op.vf hive t.cells e.ca n
        let w := r.2.2.globalPut die op.ctx op.vf e.ga n (BitVec.ofNat 32 (ofBytes r.1)) r.2.1 (copySrc hive)
        (w.2, w.1.map fun c => (c, e.ga))
      else match s.fetchElem die op l e with
        | (.error c, s) => (s, some (c, e.ga))
        | (.ok v, s) => (s.combPut op.vf hive hive t.cells e.ca n v.1 v.2, none)

/-- Carry out one part of an operation up to its first error. -/
def State.movePart (s : State) (hive : Nat) (op : CopyOp) (l : Layout) : State × Option (Nat × DWord) :=
  match s.team? op.team with
  | none => (s, none)
  | some t => (op.elems l op.part).foldl (fun acc e => if acc.2.isSome then acc else acc.1.moveElem hive op l t e) (s, none)

/-- Read one part of a multicast: its elements, or the first error. -/
def State.readPart (s : State) (hive : Nat) (op : CopyOp) (l : Layout) : Except (Nat × DWord) (List (Word × Bool)) × State :=
  (op.elems l op.part).foldl (fun acc e =>
    match acc.1 with
    | .error c => (.error c, acc.2)
    | .ok vs => match acc.2.fetchElem (dieOfHive hive) op l e with
      | (.error c, s) => (.error (c, e.ga), s)
      | (.ok v, s) => (.ok (vs ++ [v]), s)) (.ok [], s)

/-- Deliveries to other hives that a multicast has still to make (R124, R316). -/
def CopyOp.remote (op : CopyOp) (hive : Nat) : Nat :=
  ((List.range op.dest.length).filter fun i => !op.delivered.contains i && match op.dest[i]? with
    | some (some d) => d.1 != hive
    | _ => false).length

/-- Deliveries sent, and deliveries acknowledged, in the store counter of the issuing warp (R124). -/
def State.mcastSent (s : State) (op : CopyOp) (n : Nat) : State :=
  s.modWarp op.core op.slot fun w => { w with cntStore := w.cntStore + n }
def State.mcastAcked (s : State) (op : CopyOp) (n : Nat) : State :=
  s.modWarp op.core op.slot fun w => { w with cntStore := w.cntStore - n }

/-- What the next part of an operation does to memory. -/
def CopyOp.access (op : CopyOp) : AccessKind := if op.toGlobal then .write else .read

/-- The next part has to wait: for what its global accesses wait for, for older writes that its reads follow (R310), or for room in
the store counter of its warp (R122). -/
def State.partHeld (s : State) (hive : Nat) (op : CopyOp) (l : Layout) : Bool :=
  (!op.toGlobal && s.owesBefore op.core op.after) ||
  ((op.elems l op.part).any fun e => e.inb && s.engineWaits (dieOfHive hive) op.ctx e.ga (2 ^ l.esize) op.access) ||
  (op.kind == .bmcast && op.part + 1 == l.parts &&
    decide (1023 < (((s.warp? op.core op.slot).map (·.cntStore)).getD 0) + op.remote hive))

/-- Part of an operation has been done. -/
def CopyOp.begun (op : CopyOp) : Bool := decide (0 < op.part) || decide (0 < op.iter)

/-- A saved team of the operation's context has an older operation of the channel, which is restored before it (R106, R381). -/
def State.savedBefore (s : State) (hive ch : Nat) (op : CopyOp) : Bool :=
  ((s.ctx? op.ctx).map fun c => c.saved.any fun v =>
    v.core / 4 == hive && v.copies.any fun y => y.1 == ch && decide (y.2.id < op.id)).getD false

/-- The operation at the head of a channel, in its turn. -/
def State.headOp (s : State) (hive ch : Nat) : Option CopyOp :=
  ((s.hive hive).channel ch).head?.filter fun op => op.begun || !s.savedBefore hive ch op

/-- The operation in progress of a channel, with a part ready. -/
def State.partReady (s : State) (hive ch : Nat) : Option (CopyOp × Layout) :=
  match s.headOp hive ch with
  | none => none
  | some op => match op.layout with
    | none => none
    | some l => if op.started && decide (op.part < l.parts) && s.ctxLive op.ctx && !s.partHeld hive op l then some (op, l) else none

/-- What a part costs at the hive, at the ports of other dies, and at the stacks. -/
def State.partTraffic (s : State) (hive : Nat) (op : CopyOp) (l : Layout) : List (Nat × Nat × Nat) :=
  let n := 2 ^ l.esize
  let as := (op.elems l op.part).flatMap fun e =>
    if !e.inb then [] else match s.resolveDie (dieOfHive hive) op.ctx e.ga op.access with
      | .error _ => []
      | .ok x => if x.host then bytesAt (hostTag + x.pa) n
          else if op.toGlobal && x.copies != [] then x.copies.flatMap fun pa => bytesAt pa n else bytesAt x.pa n
  s.traffic op.vf (4 * hive) op.toGlobal as ++ if op.toGlobal then [] else s.dramTraffic as

/-- The resident team that holds the allocation of a generation on a hive. -/
def State.holderOf (s : State) (hive : Nat) (gen : BitVec 16) : Option Team :=
  (List.find? (fun (t : Nat × Team) => t.1 / 32 == hive && t.2.gen == gen) s.teams).map (·.2)

/-- The next part of the delivery of a multicast to one of its teams. -/
def CopyOp.nextMove (op : CopyOp) (index : Nat) : Nat := (op.moved.find? index).getD 0

/-- A multicast has been read and has a delivery to make. -/
def CopyOp.delivers (op : CopyOp) (l : Layout) (index : Nat) : Bool :=
  op.kind == .bmcast && decide (l.parts ≤ op.part) && !op.stopped && !op.delivered.contains index && decide (index < op.dest.length)

/-- What a part of a delivery to another hive costs: the engine's regulator, and the port to another die (R16). -/
def CopyOp.deliveryTraffic (op : CopyOp) (l : Layout) (hive dest index : Nat) : List (Nat × Nat × Nat) :=
  let n := ((op.data.find? (op.nextMove index)).getD []).length * 2 ^ l.esize
  if dest = hive then []
  else (0, hive, n) :: if dieOfHive dest = dieOfHive hive then [] else [(1, dieport (dieOfHive hive) (dieOfHive dest), n)]

/-- A part of a delivery is ready on a channel, and no bucket holds it. -/
def State.moveReady (s : State) (hive ch : Nat) : Bool :=
  match s.headOp hive ch with
  | none => false
  | some op => match op.layout with
    | none => false
    | some l => s.ctxLive op.ctx && (List.range op.dest.length).any fun i => op.delivers l i && match op.dest[i]? with
      | some (some d) => (s.holderOf d.1 d.2).isSome && s.mayPass op.vf op.id (op.deliveryTraffic l hive d.1 i)
      | _ => false

/-- The channel that the copy engine serves next: in ascending rotation, one with a part ready, to read or to deliver, that no bucket
holds (R365). -/
def State.nextChannel (s : State) (hive : Nat) : Option Nat :=
  rotate ((List.range 16).filter fun ch => s.moveReady hive ch || match s.partReady hive ch with
    | none => false
    | some (op, l) => s.mayPass op.vf op.id (s.partTraffic hive op l)) (s.hive hive).copyRot

/-- `COPY_PART`: one part of the operation in progress, in the ascending order of the box (R312, R365). -/
def execCopyPart (hive ch : Nat) (s : State) : Host.Outcome State Fault Refusal :=
  match s.partReady hive ch with
  | none => .next s
  | some (op, l) =>
    let cost := s.partTraffic hive op l
    if s.mayPass op.vf op.id cost && s.nextChannel hive != some ch then .next s
    else match s.through op.vf op.id cost with
      | .error s => .next s
      | .ok s =>
        let s := s.modHive hive fun h => { h with copyRot := (ch + 1) % 16 }
        if op.kind == .bmcast then
          match s.readPart hive op l with
          | (.error c, s) => .next (s.stopCopy hive ch op c.1 c.2)
          | (.ok vs, s) => .next ((s.setOp hive ch { op with part := op.part + 1, data := op.data.put op.part vs }).mcastSent op
              (if op.part + 1 = l.parts then op.remote hive else 0))
        else match s.movePart hive op l with
          | (s, some c) => .next (s.stopCopy hive ch op c.1 c.2)
          | (s, none) => .next (s.setOp hive ch { op with part := op.part + 1 })

/-- Write the elements of one part of a multicast into one allocation, up to the first error. -/
def State.deliver (s : State) (engine : Nat) (op : CopyOp) (l : Layout) (hive : Nat) (t : Team) (p : Nat) : State × Option (Nat × DWord) :=
  let n := 2 ^ l.esize
  ((op.elems l p).zip ((op.data.find? p).getD [])).foldl (fun acc y =>
    if acc.2.isSome then acc
    else match acc.1.combCause op.id hive t.cells t.bytes y.1.ca n true with
      | some c => (acc.1, some (c, BitVec.ofNat 64 y.1.ca))
      | none => (acc.1.combPut op.vf engine hive t.cells y.1.ca n y.2.1 y.2.2, none)) (s, none)

/-- `MCAST_DELIVERY` (R316, R365, R378): the next part of one team's delivery, in its channel's turn; dropped with MCAST_STALE when its
allocation has changed, held while its team is saved. -/
def execMcastDelivery (hive ch index : Nat) (s : State) : Host.Outcome State Fault Refusal :=
  match s.headOp hive ch with
  | none => .next s
  | some op =>
    match op.layout, op.dest[index]? with
    | some l, some d =>
      if !op.delivers l index || !s.ctxLive op.ctx then .next s
      else
        let op' := { op with delivered := index :: op.delivered }
        let stale : State := (s.setOp hive ch op').engineError (dieOfHive hive) op.ctx op.vf op.counter causeMcastStale
          (BitVec.ofNat 64 (l.cbase + op.delta)) 2 hive
        match d with
        | none => .next stale
        | some (h, gen) =>
          let sent := if h = hive then 0 else 1
          match s.holderOf h gen with
          | some t =>
            let cost := op.deliveryTraffic l hive h index
            let p := op.nextMove index
            if s.mayPass op.vf op.id cost && s.nextChannel hive != some ch then .next s
            else match s.through op.vf op.id cost with
              | .error s => .next s
              | .ok s => match (s.modHive hive fun h => { h with copyRot := (ch + 1) % 16 }).deliver hive op l h t p with
                | (s, some c) => .next ((s.stopCopy hive ch op c.1 c.2).mcastAcked op (op.remote hive))
                | (s, none) => .next (if p + 1 < l.parts then s.setOp hive ch { op with moved := op.moved.put index (p + 1) }
                    else (s.setOp hive ch op').mcastAcked op sent)
          | none =>
            if s.contexts.any fun c => c.2.saved.any fun v => v.core / 4 == h && v.team.gen == gen then .next s
            else .next (stale.mcastAcked op sent)
    | _, _ => .next s

/-! ## What an operation may still write (R294, R296) -/

/-- The operation writes into the allocation of a team. -/
def CopyOp.intoTeam (op : CopyOp) (s : State) (ix : Nat) (t : Team) : Bool :=
  match op.kind with
  | .bcopy g => !g && op.team == ix
  | .bloop => op.team == ix
  | .bmcast =>
    if op.layout.isSome then op.names (ix / 32) t.gen
    else ((s.team? op.team).map (·.grid)) == some t.grid && decide (op.first ≤ t.num) && decide (t.num < op.first + op.nteams)

/-- Every operation in the copy channels. -/
def State.copyOps (s : State) : List CopyOp := s.hives.flatMap fun h => h.2.copy.flatMap (·.2)

/-- A write still to come of the operation falls in one of the cells, or may while its record is unread. -/
def CopyOp.touches (op : CopyOp) (cells region : List Nat) : Bool :=
  match op.layout with
  | none => !op.stopped
  | some l =>
    let left := op.loopN - op.iter
    (List.range (min left (max 1 op.stages))).any fun k =>
      let from_ := if k = 0 && left ≤ max 1 op.stages && op.kind != .bmcast then op.part else 0
      ((List.range (l.parts - from_)).any fun p =>
        (({ op with iter := op.iter + k } : CopyOp).elems l (from_ + p)).any fun e =>
          match combIndex cells e.ca with
          | some wi => region.contains (wi / 8192)
          | none => false)

/-- `COPY_COMPLETE` (R314, R315): the end of an operation or of an iteration adds 1 to the counter, once its error word is set
(Table 6.2). -/
def execCopyComplete (hive ch : Nat) (s : State) : Host.Outcome State Fault Refusal :=
  match s.headOp hive ch with
  | none => .next s
  | some op =>
    let rest := ((s.hive hive).channel ch).drop 1
    let parts := (op.layout.map (·.parts)).getD 0
    let whole := op.started && decide (parts ≤ op.part) && (op.kind != .bmcast || op.dest.length ≤ op.delivered.length)
    if !(op.stopped || whole) || s.counterWaitsOn op.ctx op.vf op.counter then .next s
    else
      let s := s.counterAddOn op.ctx op.vf op.counter 1 (releaseBy op.core op.slot op.team 5)
      if op.stopped || op.kind != .bloop || op.loopN ≤ op.iter + 1 then
        .next ((s.modHive hive fun h => { h with copy := h.copy.put ch rest }).opDone op.core op.slot 0 op.id)
      else .next (s.setOp hive ch { op with started := false, iter := op.iter + 1, part := 0 })

/-- Every warp of a team has exited or been killed (R318). -/
def State.warpsGone (s : State) (ix : Nat) : Bool :=
  ((s.team? ix).map fun t => t.slots.all fun w => ((s.warp? (ix / 8) w).map Warp.done).getD true).getD true

/-- `BLOOP_ITERATION` (R315): an iteration starts once its stage is RELEASED; with no warp left to release it the loop
ends with ABANDONED (R318). -/
def execBloopIteration (hive ch : Nat) (s : State) : Host.Outcome State Fault Refusal :=
  match s.headOp hive ch with
  | none => .next s
  | some op =>
    let st := op.iter % max 1 op.stages
    if op.kind != .bloop || op.layout.isNone || op.started || op.stopped || !s.ctxLive op.ctx then .next s
    else if op.iter < op.stages then .next (s.setOp hive ch { op with started := true })
    else if op.released.contains st then
      .next (s.setOp hive ch { op with started := true, released := op.released.filter (· ≠ st) })
    else if s.warpsGone op.team then .next (s.stopCopy hive ch op causeAbandoned 0)
    else .next s

/-! ## The collective engine (R317) -/

/-- The contributions to the sequence of one contribution, by ascending team number. -/
def State.sequence (s : State) (c : Contribution) : List Contribution :=
  let all := (s.coll.flatMap (·.2)).filter fun o =>
    o.grid == c.grid && o.first == c.first && o.n == c.n && o.seq == c.seq && !teamAway o.team
  (List.range c.n).filterMap fun i => all.find? fun o => o.num == c.first + i

/-- A member of the group has retired without contributing to the sequence. -/
def State.abandoned (s : State) (c : Contribution) : Bool :=
  ((s.grid? c.grid).map fun g => g.left.any fun y =>
    decide (c.first ≤ y.1) && decide (y.1 < c.first + c.n) &&
      decide (((y.2.find? fun z => z.1 == c.first && z.2.1 == c.n).map (·.2.2)).getD 0 ≤ c.seq)).getD false

/-- FN of two contributions. -/
def collFn (fn : Nat) (a b : Word) : Word :=
  let f (big : Bool) : Word := BitVec.ofNat 32 (minMax f32 big a.toNat b.toNat (f32.value a.toNat) (f32.value b.toNat)).1
  match fn with
  | 0 => (addF32 0 a b).1
  | 1 => a + b
  | 2 => f true
  | 3 => f false
  | 4 => if a.toInt < b.toInt then b else a
  | _ => if b.toInt < a.toInt then b else a

/-- The contributions whose sources a sequence reads, and those whose destinations it writes. -/
def Contribution.sources (c : Contribution) (cs : List Contribution) : List Contribution := if c.op = 0 then cs.take 1 else cs
def Contribution.targets (c : Contribution) (cs : List Contribution) : List Contribution := if c.op = 1 then cs.take 1 else cs

/-- Element `i` of a buffer. -/
def elemAt (a : DWord) (i : Nat) : DWord := a + BitVec.ofNat 64 (4 * i)

/-- One element of a sequence: read, combined, written, up to the first error. -/
def State.collElem (s : State) (die : Nat) (cs : List Contribution) (c : Contribution) (i : Nat) : State × Option (Nat × DWord) :=
  let r := (c.sources cs).foldl (fun (acc : Except (Nat × DWord) (List Word) × State) o =>
    match acc.1 with
    | .error e => (.error e, acc.2)
    | .ok l => match acc.2.readVirt die o.ctx o.vf (elemAt o.src i) 4 .read with
      | (.error e, s) => (.error (e, elemAt o.src i), s)
      | (.ok b, s) => (.ok (l ++ [BitVec.ofNat 32 (ofBytes b)]), s)) (.ok [], s)
  match r.1 with
  | .error e => (r.2, some e)
  | .ok [] => (r.2, none)
  | .ok (v :: l) =>
    let x := l.foldl (collFn c.fn) v
    (c.targets cs).foldl (fun acc o =>
      if acc.2.isSome then acc
      else
        let w := acc.1.writeVirt die o.ctx o.vf (elemAt o.dst i) (toBytes 4 x.toNat) [] ⟨3, die, some (elemAt o.dst i), 0⟩
        (w.2, w.1.map fun e => (e, elemAt o.dst i))) (r.2, none)

/-- The next element of a sequence has to wait: for what its accesses wait for, or for older writes that its reads follow. -/
def State.collHeld (s : State) (die : Nat) (cs : List Contribution) (c : Contribution) : Bool :=
  ((c.sources cs).any fun o => s.owesBefore o.core o.after || s.engineWaits die o.ctx (elemAt o.src c.pos) 4 .read) ||
    (c.targets cs).any fun o => s.engineWaits die o.ctx (elemAt o.dst c.pos) 4 .write

/-- What an element costs: the port of each other die that a source comes from or a destination lies at, and DRAM reads. -/
def State.collTraffic (s : State) (die : Nat) (cs : List Contribution) (c : Contribution) : List (Nat × Nat × Nat) :=
  let at_ (l : List Contribution) (f : Contribution → DWord) (k : AccessKind) : List Nat := l.flatMap fun o =>
    match s.resolveDie die o.ctx (elemAt (f o) c.pos) k with
    | .error _ => []
    | .ok x => (if x.host then [hostTag + x.pa] else if k = .write && x.copies != [] then x.copies else [x.pa]).flatMap fun a => bytesAt a 4
  let src := at_ (c.sources cs) (·.src) .read
  let dst := at_ (c.targets cs) (·.dst) .write
  ((List.range 4).filter (· ≠ die)).flatMap (fun r =>
    [(1, dieport r die, (src.filter fun a => s.dieFor c.vf a == r).length), (1, dieport die r, (dst.filter fun a => s.dieFor c.vf a == r).length)]) ++
    s.dramTraffic src

/-- End a sequence: error words, then the counters; the operations complete. -/
def State.collEnd (s : State) (die : Nat) (cs : List Contribution) (err : Option (Nat × DWord)) : State :=
  let s := { s with coll := s.coll.mapVals fun l => l.filter fun o => !cs.contains o }
  s.each cs fun s o =>
    let s := match err with
      | some (c, va) => s.engineError die o.ctx o.vf o.counter c va 3 die
      | none => s
    (s.counterAddOn o.ctx o.vf o.counter 1 (releaseBy o.core o.slot o.team 5)).opDone o.core o.slot 3 o.id

/-- A sequence has done one element more. -/
def State.collStep (s : State) (cs : List Contribution) : State :=
  { s with coll := s.coll.mapVals fun l => l.map fun o => if cs.contains o then { o with pos := o.pos + 1 } else o }

/-- `KCOLL_SEQUENCE`: the next element of the sequence at the head of a die's collective queue, once the sequence is complete, and its
end after the last; or its end when it is abandoned. It goes on only while its counters could be updated. Entries of a context that is halting or saved are passed over (R106, R318,
assumption 45). -/
def execKcollSequence (die : Nat) (s : State) : Host.Outcome State Fault Refusal :=
  match s.collQueued die with
  | [] => .next s
  | c :: _ =>
    let cs := s.sequence c
    if cs.any fun o => s.counterWaitsOn o.ctx o.vf o.counter then .next s
    else if s.abandoned c then .next (s.collEnd die cs (some (causeAbandoned, 0)))
    else if cs.length < c.n then .next s
    else if c.count = 0 || 2 ^ 24 < c.count || cs.any fun o => o.count != c.count || o.op != c.op || o.fn != c.fn then
      .next (s.collEnd die cs (some (causeReserved, 0)))
    else if c.count ≤ c.pos then .next (s.collEnd die cs none)
    else if s.collHeld die cs c then .next s
    else match s.through c.vf c.id (s.collTraffic die cs c) with
      | .error s => .next s
      | .ok s => match s.collElem die cs c c.pos with
        | (s, some e) => .next (s.collEnd die cs (some e))
        | (s, none) => .next (s.collStep cs)

end Sys2Proof.Machine
end

