-- ==== Sys2Proof/Machine/CrossLane.lean ====
section
/-! DEFINITION. The cross-lane class (11 R241 to R247): values of the Active threads of one fragment, read at offset 0. -/

namespace Sys2Proof.Machine

/-- Threads of a subgroup (R242). -/
def subSize (m : BitVec 24) : Nat :=
  let sg := bitsOf m.toNat 10 8
  if sg = 0 then 64 else min (2 ^ sg) 64

/-- Signed value of the low n bits of an offset word. -/
def offsetInt (n : Nat) (v : Nat) (signed : Bool) : Int := if signed then sextNat v n else (v % 2 ^ n : Nat)

/-- The source position of `shfl` within the subgroup (R243). -/
def shflPos (mode : Nat) (rel : Bool) (g i : Nat) (o : Int) : Int :=
  let o : Int := if rel then (let k := (g >>> min o.natAbs 8 : Nat); if o < 0 then -(k : Int) else if o = 0 then 0 else k) else o
  match mode with
  | 0 => o
  | 1 => i + o
  | 2 => (i + o) % (g : Int)
  | _ => if o < 0 then -1 else (i ^^^ o.toNat : Nat)

/-- `shfl`'s source thread, none when out of range or not Active. -/
def shflSource (x : Ctx) (b : VBody) (t : Nat) : Option Nat :=
  let g := subSize b.mod
  let mode := bitsOf b.mod.toNat 3 2
  let signed := mode == 1 || mode == 2
  let o := if b.mod.getLsbD 11 then offsetInt 8 b.b.toNat signed else offsetInt 32 (x.op32 b.b t).toNat signed
  let j := shflPos mode (b.mod.getLsbD 4) g (t % g) o
  if j < 0 || (g : Int) ≤ j then none
  else
    let src := t - t % g + j.toNat
    if x.act.getLsbD src then some src else none

def execShfl (h : Hdr) (b : VBody) (s : State) : Host.Outcome State Fault Refusal :=
  issue (.shfl h b) s fun x s =>
    results x s ((threadsOf x.act).flatMap fun t =>
      let src := shflSource x b t
      [put32 b.d t (x.op32 b.a (src.getD t)) false] ++
        if b.mod.getLsbD 15 then [putP (BitVec.ofNat 8 (bitsOf b.mod.toNat 14 12)) t src.isSome] else []) 0

/-! ## Reductions and scans (R244, R148) -/

/-- Combine two present values: TY 0 `.i32`, 1 `.n32`, 2 `.f32`; OP add, min, max, and, or, xor. -/
def combine (t op rm : Nat) (p q : Word) : Word :=
  match op with
  | 0 => if t = 2 then (addF32 rm p q).1 else p + q
  | 1 | 2 =>
    let big := op == 2
    if t = 2 then BitVec.ofNat 32 (minMax f32 big p.toNat q.toNat (f32.value p.toNat) (f32.value q.toNat)).1
    else if t = 0 then (if decide (p.toInt ≤ q.toInt) != big then p else q)
    else if decide (p.toNat ≤ q.toNat) != big then p else q
  | 3 => p &&& q
  | 4 => p ||| q
  | _ => p ^^^ q

/-- Combination with absent values. -/
def combineOpt (f : Word → Word → Word) (p q : Option Word) : Option Word :=
  match p, q with
  | some a, some b => some (f a b)
  | none, y => y
  | y, none => y

/-- The tree of `lred` over positions: at each step the even neighbour takes in the odd one. -/
def treeStep (f : Word → Word → Word) : List (Option Word) → List (Option Word)
  | a :: b :: l => combineOpt f a b :: treeStep f l
  | l => l
def treeReduce (f : Word → Word → Word) : Nat → List (Option Word) → Option Word
  | 0, l => l.headD none
  | n + 1, l => treeReduce f n (treeStep f l)

/-- The steps of `lscan`: each position from 2^k on takes in the step's input 2^k below. -/
def scanFrom (f : Word → Word → Word) : Nat → Nat → List (Option Word) → List (Option Word)
  | 0, _, l => l
  | n + 1, k, l =>
    scanFrom f n (2 * k) ((List.range l.length).map fun i =>
      if k ≤ i then combineOpt f (l.getD (i - k) none) (l.getD i none) else l.getD i none)

/-- The values of the subgroup of thread t, absent outside Active. -/
def subValues (x : Ctx) (a : BitVec 8) (g t : Nat) : List (Option Word) :=
  (List.range g).map fun i => let u := t - t % g + i; if x.act.getLsbD u then some (x.op32 a u) else none

def execLred (h : Hdr) (b : VBody) (s : State) : Host.Outcome State Fault Refusal :=
  issue (.lred h b) s fun x s =>
    let g := subSize b.mod
    let f := combine (ty b.mod) (bitsOf b.mod.toNat 4 2) (bitsOf b.mod.toNat 6 5)
    let total (t : Nat) : Word := (treeReduce f (Nat.log2 g) (subValues x b.a g t)).getD 0
    if 0xC0 ≤ b.d.toNat then results x s (if x.act = 0 then [] else [putS b.d ((total 0).setWidth 64)]) 0
    else
      -- one total per subgroup
      let tot := (List.range (64 / g)).map fun i => total (i * g)
      results x s ((threadsOf x.act).map fun t => put32 b.d t (tot.getD (t / g) 0) false) 0

def execLscan (h : Hdr) (b : VBody) (s : State) : Host.Outcome State Fault Refusal :=
  issue (.lscan h b) s fun x s =>
    let g := subSize b.mod
    let f := combine (ty b.mod) (bitsOf b.mod.toNat 4 2) (bitsOf b.mod.toNat 6 5)
    let scans := (List.range (64 / g)).map fun i => scanFrom f (Nat.log2 g) 1 (subValues x b.a g (i * g))
    let at_ (t : Nat) : Word := ((scans.getD (t / g) []).getD (t % g) none).getD 0
    results x s ((threadsOf x.act).map fun t =>
      let v := if b.mod.getLsbD 7 then
          (match ((List.range (t % g)).filter fun i => x.act.getLsbD (t - t % g + i)).getLast? with
            | some i => at_ (t - t % g + i)
            | none => x.op32 b.c t)
        else at_ t
      put32 b.d t v false) 0

/-! ## Votes and broadcasts (R245, R246) -/

/-- The source predicate of a thread under PS and PSN. -/
def Ctx.q (x : Ctx) (m : BitVec 24) (t : Nat) : Bool := x.p (bitsOf m.toNat 18 16) t ^^ m.getLsbD 19

def execVote (h : Hdr) (b : VBody) (s : State) : Host.Outcome State Fault Refusal :=
  issue (.vote h b) s fun x s =>
    if x.act = 0 then .done s
    else
      let qs := (threadsOf x.act).map (x.q b.mod)
      let any := qs.any id
      let all := qs.all id
      let r := match bitsOf b.mod.toNat 4 2 with
        | 0 => any
        | 1 => all
        | _ => all || !any
      results x s (if b.mod.getLsbD 20 then (threadsOf x.act).map fun t => putP b.d t r
        else [putS b.d (if r then 1 else 0)]) 0

def execBallot (h : Hdr) (b : VBody) (s : State) : Host.Outcome State Fault Refusal :=
  issue (.ballot h b) s fun x s =>
    if x.act = 0 then .done s
    else
      let m := maskWhere fun t => x.act.getLsbD t && x.q b.mod t
      results x s (if 0xC0 ≤ b.d.toNat then [putS b.d m] else (threadsOf x.act).flatMap fun t => put64 b.d t m) 0

def execBcast (h : Hdr) (b : VBody) (s : State) : Host.Outcome State Fault Refusal :=
  issue (.bcast h b) s fun x s =>
    if x.act = 0 then .done s
    else
      let lo := (lowestOf x.act).getD 0
      let want := if b.mod.getLsbD 20 then lo else if b.mod.getLsbD 11 then b.b.toNat else ((x.scal b.b).setWidth 32).toNat
      let src := if want < 64 && x.act.getLsbD want then want else lo
      let v := x.op32 b.a src
      results x s (if 0xC0 ≤ b.d.toNat then [put32 b.d 0 v (ty b.mod == 0)] else (threadsOf x.act).map fun t => put32 b.d t v false) 0

/-! ## match and prank (R247) -/

def execMatchLanes (h : Hdr) (b : VBody) (s : State) : Host.Outcome State Fault Refusal :=
  issue (.matchLanes h b) s fun x s =>
    let vals := (threadsOf x.act).map fun t => (t, x.op32 b.a t)
    let same (v : Word) : DWord := maskOf ((vals.filter fun y => y.2 == v).map (·.1))
    let all := match vals with
      | [] => true
      | y :: l => l.all fun z => z.2 == y.2
    results x s (vals.flatMap fun y => put64 b.d y.1 (same y.2) ++
      if b.mod.getLsbD 15 then [putP (BitVec.ofNat 8 (bitsOf b.mod.toNat 14 12)) y.1 all] else []) 0

def execPrank (h : Hdr) (b : VBody) (s : State) : Host.Outcome State Fault Refusal :=
  issue (.prank h b) s fun x s =>
    let g := subSize b.mod
    results x s ((threadsOf x.act).map fun t =>
      put32 b.d t (BitVec.ofNat 32 ((threadsOf x.act).filter fun u => t - t % g ≤ u && u < t && x.q b.mod u).length) false) 0

end Sys2Proof.Machine
end

