-- ==== Sys2Proof/Machine/Hash.lean ====
section
/-! DEFINITION. SHA-512 (FIPS 180-4), which 19 R404, R405 and R408 name: the measurement, the key hash and the quote. Its
constants are computed from the roots of primes, as that standard defines them. -/

namespace Sys2Proof.Machine

/-- The greatest `r` below 2^bits with r^k ≤ n. -/
def rootFrom (k n : Nat) : Nat → Nat → Nat
  | 0, r => r
  | b + 1, r => rootFrom k n b (if (r + 2 ^ b) ^ k ≤ n then r + 2 ^ b else r)

/-- The first primes. -/
def shaPrimes (n : Nat) : List Nat :=
  ((List.range 420).filter fun p => decide (2 ≤ p) && (List.range p).all fun d => d < 2 || p % d != 0).take n

/-- First 64 fractional bits of the cube roots of the first 80 primes. -/
def shaK : List (BitVec 64) := (shaPrimes 80).map fun p => BitVec.ofNat 64 (rootFrom 3 (p * 2 ^ 192) 70 0)
/-- First 64 fractional bits of the square roots of the first 8 primes. -/
def shaH : List (BitVec 64) := (shaPrimes 8).map fun p => BitVec.ofNat 64 (rootFrom 2 (p * 2 ^ 128) 70 0)

/-- Bytes as a big-endian number. -/
def ofBytesBE (l : List Byte) : Nat := ofBytes l.reverse
/-- A number as `n` big-endian bytes. -/
def toBytesBE (n x : Nat) : List Byte := (toBytes n x).reverse

/-- The message padded to whole blocks of 128 bytes. -/
def shaPad (m : List Byte) : List Byte :=
  m ++ 0x80 :: List.replicate ((239 - m.length % 128) % 128) 0 ++ toBytesBE 16 (8 * m.length)

/-- The message schedule: 16 words of a block, extended to 80; newest first. -/
def shaSchedule : Nat → List (BitVec 64) → List (BitVec 64)
  | 0, w => w
  | n + 1, w =>
    let g (i : Nat) := w.getD i 0
    let s0 := (g 14).rotateRight 1 ^^^ (g 14).rotateRight 8 ^^^ g 14 >>> 7
    let s1 := (g 1).rotateRight 19 ^^^ (g 1).rotateRight 61 ^^^ g 1 >>> 6
    shaSchedule n ((s1 + g 6 + s0 + g 15) :: w)

/-- One round on a, b, c, d, e, f, g, h. -/
def shaRound (v : List (BitVec 64)) (kw : BitVec 64) : List (BitVec 64) :=
  match v with
  | [a, b, c, d, e, f, g, h] =>
    let t1 := h + (e.rotateRight 14 ^^^ e.rotateRight 18 ^^^ e.rotateRight 41) + ((e &&& f) ^^^ (~~~e &&& g)) + kw
    let t2 := (a.rotateRight 28 ^^^ a.rotateRight 34 ^^^ a.rotateRight 39) + ((a &&& b) ^^^ (a &&& c) ^^^ (b &&& c))
    [t1 + t2, a, b, c, d + t1, e, f, g]
  | _ => v

/-- The compression of one block. -/
def shaBlock (h : List (BitVec 64)) (block : List Byte) : List (BitVec 64) :=
  let w := (List.range 16).map fun i => BitVec.ofNat 64 (ofBytesBE ((block.drop (8 * i)).take 8))
  let kw := (shaK.zip (shaSchedule 64 w.reverse).reverse).map fun x => x.1 + x.2
  (h.zip (kw.foldl shaRound h)).map fun x => x.1 + x.2

/-- SHA-512. -/
def sha512 (m : List Byte) : List Byte :=
  let p := shaPad m
  ((List.range (p.length / 128)).foldl (fun h i => shaBlock h ((p.drop (128 * i)).take 128)) shaH).flatMap fun x => toBytesBE 8 x.toNat

end Sys2Proof.Machine
end

