-- ==== Sys2Proof/Machine/Matrix.lean ====
section
/-! DEFINITION. The matrix stream (14 R288 to R308): the issue of the matrix sequencer and its fifteen instructions. -/

namespace Sys2Proof

/-- Body fields of format C that must be zero. -/
def CBody.zeroBut (b : CBody) (acc warp vreg count region : Bool) (mask : BitVec 24) : Bool :=
  (acc || b.acc == 0) && (warp || b.warp == 0) && (vreg || b.vreg == 0) && (count || b.count == 0) && (region || b.region == 0) &&
    (b.cmod &&& ~~~mask) == 0

end Sys2Proof

namespace Sys2Proof.Machine

/-! ## Issue of the sequencer (R290, R195) -/

/-- A sequencer at the issue of an instruction. -/
structure SeqCtx where
  core : Nat
  /-- team index core × 8 + team slot -/
  ix : Nat
  slot : Nat
  pc : DWord
  t : Team
  q : Sequencer
  g : Grid
  deriving Repr

/-- What an instruction of the sequencer comes to. -/
inductive SeqEff where
  | trap (cause : Nat) (va : DWord)
  | done (s : State)
  | goto (s : State) (pc : DWord)
  /-- uncompleted: the sequencer waits at the instruction -/
  | wait (s : State)
  | ended (s : State)

/-- The header fields every matrix-stream instruction carries (R189, Table 14.1). -/
def seqHdr (h : Hdr) (fs reu : Bool) : Bool :=
  h.g1 == 7 && h.g2 == 7 && !h.gm && h.stall == 0 && !h.yld && !h.u && h.hint == 0 && (fs || h.fs == 0) && (reu || !h.reu)

/-- An issued instruction counts in WORKCNT of warp 0 and is retired (R290, R128, R414). -/
def State.seqCount (s : State) (x : SeqCtx) : State :=
  let replay := ((s.part? x.g.vf).map (·.replay)).getD false
  let s := s.modWarp x.core (x.t.slots.headD 0) fun w => { w with workcnt := w.workcnt + 1 }
  let s := s.modSeq x.ix fun q => { q with quantum := if replay then q.quantum + 1 else q.quantum, waiting := false, waitOps := [] }
  s.countPerf x.g.vf 8

/-- Carry out what the instruction came to. -/
def seqFinish (x : SeqCtx) (s : State) (r : SeqEff) : State :=
  match r with
  | .trap c va => s.seqTrap x.core x.slot x.pc ⟨c, 0, va, none⟩
  | .done s' => (s'.modSeq x.ix fun q => { q with pc := nextPc x.pc }).seqCount x
  | .goto s' pc => (s'.modSeq x.ix fun q => { q with pc := pc }).seqCount x
  | .wait s' => s'
  | .ended s' => (s'.modSeq x.ix fun q => { q with ended := true }).seqCount x

/-- The issuing sequencer, if it still runs. -/
def State.sequencerAt (s : State) (core slot : Nat) (pc : DWord) : Option SeqCtx :=
  match s.team? (teamIx core slot) with
  | none => none
  | some t =>
    match t.seq, s.grid? t.grid with
    | some q, some g => if q.ended then none else some ⟨core, teamIx core slot, slot, pc, t, q, g⟩
    | _, _ => none

/-- The issue of a matrix-stream instruction: field checks (R195 steps 4 to 7), then its effect. Issued by a warp it
traps ILLEGAL_OPC (R194). -/
def seqIssue (i : Instr) (s : State) (ok : SeqCtx → Bool) (eff : SeqCtx → State → SeqEff) : Host.Outcome State Fault Refusal :=
  match s.cur with
  | .seq core slot pc _ =>
    match s.sequencerAt core slot pc with
    | none => .fault .noIssuer
    | some x =>
      let s : State := { s with cur := .none }
      .next (seqFinish x s (if ok x then eff x s else .trap causeReserved 0))
  | _ =>
    match s.issuer i with
    | none => .fault .noIssuer
    | some x => .next (({ s with cur := .none } : State).trapAt x (plain causeIllegal x.mask))

/-! ## Operands -/

/-- Counter k[i] (R291). -/
def SeqCtx.k (x : SeqCtx) (i : Nat) : Word := x.q.k.get 0 i
/-- VREG, with k[X] added when XV is set (R291). -/
def SeqCtx.vreg (x : SeqCtx) (v : BitVec 8) (xv : Bool) (i : Nat) : Nat := (v.toNat + if xv then (x.k i).toNat else 0) % 2 ^ 32
/-- The format slot, its kind, and whether it is one of those accepted (R146). -/
def SeqCtx.fmt (x : SeqCtx) (h : Hdr) : DWord := x.g.lr.fmt.getD h.fs.toNat 0
def SeqCtx.kind (x : SeqCtx) (h : Hdr) : Nat := (x.fmt h).toNat % 256
/-- An accumulator name in use (R48). -/
def SeqCtx.accOk (x : SeqCtx) (a : BitVec 8) : Bool := decide (a.toNat < x.g.lr.accs)
/-- A warp and a run of its registers (R289). -/
def SeqCtx.regsOk (x : SeqCtx) (warp : BitVec 8) (v n : Nat) : Bool :=
  decide (warp.toNat < x.g.lr.warps) && decide (v + n ≤ x.g.lr.vregs)
/-- Slot of a warp of the team. -/
def SeqCtx.slotOf (x : SeqCtx) (warp : BitVec 8) : Nat := x.t.slots.getD warp.toNat 0
/-- Tile of an accumulator name. -/
def SeqCtx.tile (x : SeqCtx) (a : Nat) : Nat := ((x.t.rename[a]?).bind id).getD 24
def SeqCtx.hive (x : SeqCtx) : Nat := hiveOfCore x.core
/-- The MATRIX counter of a warp has room (R123). -/
def SeqCtx.room (x : SeqCtx) (s : State) (warp : BitVec 8) : Bool :=
  ((s.warp? x.core (x.slotOf warp)).map fun w => decide (w.counter 1 < 63)).getD true

/-! ## Counters and control (R291, R305 to R307) -/

def execMset (h : Hdr) (b : IBody) (s : State) : Host.Outcome State Fault Refusal :=
  seqIssue (.mset h b) s (fun _ => seqHdr h false false && decide (b.d.toNat < 8) && b.a == 0 && decide (b.mod.toNat < 2)) fun x s =>
    .done (s.modSeq x.ix fun q => { q with k := q.k.set 0 b.d.toNat (if b.mod = 1 then x.k b.d.toNat + b.imm else b.imm) })

/-- A branch of the sequencer on the new value of its counter. -/
def seqBranch (x : SeqCtx) (s : State) (n : Nat) (v : Word) (target : DWord) : SeqEff :=
  let w (s : State) : State := s.modSeq x.ix fun q => { q with k := q.k.set 0 n v }
  if v = 0 then .done (w s)
  else match s.targetCause x.core x.g.ctx x.g.vf target with
    | some c => .trap c (if c = causeBadTarget then 0 else target)
    | none => .goto (w s) target

def execMbra (h : Hdr) (b : JBody) (s : State) : Host.Outcome State Fault Refusal :=
  seqIssue (.mbra h b) s (fun _ => seqHdr h true false && b.rdelta == 0 && b.rslot == 0) fun x s =>
    seqBranch x s h.fs.toNat (x.k h.fs.toNat) (jTarget x.pc b)

def execMloop (h : Hdr) (b : JBody) (s : State) : Host.Outcome State Fault Refusal :=
  seqIssue (.mloop h b) s (fun _ => seqHdr h true false && b.rdelta == 0 && b.rslot == 0) fun x s =>
    seqBranch x s h.fs.toNat (x.k h.fs.toNat - 1) (jTarget x.pc b)

/-- `mbwait`: consume the next generation of a barrier; an acquire of what it carries (R305). -/
def execMbwait (h : Hdr) (b : CBody) (s : State) : Host.Outcome State Fault Refusal :=
  seqIssue (.mbwait h b) s (fun _ => seqHdr h false false && b.zeroBut false false false false false 0xF) fun x s =>
    let n := b.cmod.toNat % 16
    let y := x.t.bar n
    if y.abandon then .ended s
    else if y.gen = y.sgen then .wait s
    else .done ((s.modTeam x.ix fun t => t.setBar n { t.bar n with sgen := (t.bar n).sgen + 1 }).modSeq x.ix fun q =>
      { q with floor := max q.floor y.floor })

/-- Posted work of a team has all completed. -/
def State.postedNone (s : State) (ix : Nat) : Bool := s.posted.all fun p => p.2.team != ix

/-- `mbarr`: an arrival of one after the posted work (R306). -/
def execMbarr (h : Hdr) (b : CBody) (s : State) : Host.Outcome State Fault Refusal :=
  seqIssue (.mbarr h b) s (fun _ => seqHdr h false false && b.zeroBut false false false false false 0x7FFF &&
      decide (b.cmod.toNat / 16 ≤ 1025)) fun x s =>
    if s.postedNone x.ix then
      .done (s.arrive x.ix (b.cmod.toNat % 16) (b.cmod.toNat / 16) 1 [] 0 0 0
        (((s.warp? x.core (x.t.slots.headD 0)).map fun w => w.workcnt + 1).getD 1) true x.q.floor)
    else .wait s

def execMpoint (h : Hdr) (b : CBody) (s : State) : Host.Outcome State Fault Refusal :=
  seqIssue (.mpoint h b) s (fun _ => seqHdr h false false && b.zeroBut false false false false false 0xFF) fun x s =>
    .done (s.modSeq x.ix fun q => { q with live := b.cmod.setWidth 8 })

def execMend (h : Hdr) (b : CBody) (s : State) : Host.Outcome State Fault Refusal :=
  seqIssue (.mend h b) s (fun _ => seqHdr h false false && b.zeroBut false false false false false 0) fun _ s => .ended s

/-! ## Tiles (R60, R302) -/

/-- Post an operation; its number. -/
def State.post (s : State) (ix : Nat) (op : MatOp) : Nat × State :=
  let f := s.fresh
  (f.1, { f.2 with posted := f.2.posted.put f.1 ⟨ix, op⟩ })

/-- The tiles an operation works on. -/
def MatOp.tiles : MatOp → List Nat
  | .pass p => p.tile0 :: p.tile1.toList
  | .mget m => [m.tile]
  | .mput m => [m.tile]
  | .mzero t => [t]

/-- Posted operations of a core's teams on a tile. -/
def State.tileBusy (s : State) (core tile : Nat) : Bool := s.posted.any fun p => p.2.team / 8 == core && p.2.op.tiles.contains tile

/-- A DRAINING tile with nothing left to complete becomes FREE (Table 3.2). -/
def State.drainTile (s : State) (core tile : Nat) : State :=
  if ((s.core core).tile tile).st = .draining && !s.tileBusy core tile then s.modTile core tile fun _ => Tile.zero else s

/-- Bind a name to a tile that reads zero; the tile it had drains. -/
def State.rebind (s : State) (x : SeqCtx) (name tile : Nat) : State :=
  let old := (x.t.rename[name]?).bind id
  let s := s.modTile x.core tile fun _ => { Tile.zero with st := .bound, team := x.ix, ctx := x.g.ctx }
  let s := s.modTeam x.ix fun t => { t with rename := t.rename.set name (some tile) }
  let s := s.modSeq x.ix fun q => { q with spill := none }
  match old with
  | none => s
  | some k => (s.modTile x.core k fun t => { t with st := .draining }).drainTile x.core k

/-- `mstart` (R60): the lowest FREE tile; else the lowest FOREIGN tile of another context, once it is spilled (R384). -/
def execMstart (h : Hdr) (b : CBody) (s : State) : Host.Outcome State Fault Refusal :=
  seqIssue (.mstart h b) s (fun x => seqHdr h false false && b.zeroBut true false false false false 0 && x.accOk b.acc) fun x s =>
    match x.q.spill with
    | some k => if ((s.core x.core).tile k).st = .foreign then .wait s else .done (s.rebind x b.acc.toNat k)
    | none =>
      match (s.takeable x.core x.g.ctx).head? with
      | none => .wait s
      | some k =>
        if ((s.core x.core).tile k).st = .free then .done (s.rebind x b.acc.toNat k)
        else .wait ((s.modSeq x.ix fun q => { q with spill := some k }).askSpill x.core k)

def execMzero (h : Hdr) (b : CBody) (s : State) : Host.Outcome State Fault Refusal :=
  seqIssue (.mzero h b) s (fun x => seqHdr h false false && b.zeroBut true false false false false 0 && x.accOk b.acc) fun x s =>
    .done (s.post x.ix (.mzero (x.tile b.acc.toNat))).2

/-! ## Moves (R303, R304) -/

/-- Elements of a kind in a register. -/
def perReg (kind : Nat) : Nat := match kind with | 1 => 1 | 2 => 2 | 3 => 2 | _ => 4

/-! ## Elements whose interlocked write-back is pending (R200) -/

/-- Elements a load writes. -/
def Load.writes (l : Load) : List Elem :=
  (l.lanes.flatMap fun y => (groupWrites l.dst l.size l.sgn y.thread []).map (·.elem)) ++
    match l.gred with
    | some (_, c, _) => [.s (c - 0xC0)]
    | none => []

/-- Elements an `mget` writes in its warp: in the launched threads that have not exited since (R207). -/
def TileMove.writes (m : TileMove) (w : Warp) : List Elem :=
  (List.range m.count).flatMap fun i => (threadsOf (w.launched &&& ~~~m.skip)).map fun t => .v (m.vreg + i) t

/-- Pending elements by what they wait for: 3 loads and atomics, 4 special functions, 5 `mget`, 6 others (Table 20.4). -/
def State.pendingElems (s : State) (core slot : Nat) (w : Warp) : List (Nat × Elem) :=
  ((s.loads.filter fun l => l.2.core == core && l.2.slot == slot).flatMap fun l => l.2.writes.map fun e => (3, e)) ++
  ((s.atomics.filter fun a => a.2.core == core && a.2.slot == slot).flatMap fun a => (a.2.writes 0).map fun r => (3, r.elem)) ++
  ((s.pend.filter fun p => p.2.core == core && p.2.slot == slot).flatMap fun p =>
    p.2.writes.map fun r => (if p.2.sysc.isSome then 6 else 4, r.elem)) ++
  (s.posted.flatMap fun p => match p.2.op with
    | .mget m => if p.2.team = w.team && m.warp = w.warpid then (m.writes w).map fun e => (5, e) else []
    | _ => [])

/-- A run of a warp's registers waits for interlocked results. -/
def State.regsPending (s : State) (core slot v n : Nat) : Bool :=
  match s.warp? core slot with
  | none => false
  | some w => (s.pendingElems core slot w).any fun y => match y.2 with
    | .v r _ => decide (v ≤ r) && decide (r < v + n)
    | _ => false

/-- The first element of the registers of a warp that a slab or a move takes, as they stand. -/
def State.regWords (s : State) (core slot v n : Nat) : Tab Word :=
  match s.warp? core slot with
  | none => []
  | some w => (w.vregs.filter fun y => decide (64 * v ≤ y.1) && decide (y.1 < 64 * (v + n)) && w.launched.getLsbD (y.1 % 64)).map
      fun y => (y.1 - 64 * v, y.2)

/-- The move of a `mget` or `mput`. -/
def SeqCtx.move (x : SeqCtx) (h : Hdr) (b : CBody) : TileMove where
  tile := x.tile b.acc.toNat
  warp := b.warp.toNat
  vreg := x.vreg b.vreg (b.cmod.getLsbD 15) (bitsOf b.cmod.toNat 14 12)
  count := b.count.toNat
  col := b.cmod.toNat % 128
  kind := x.kind h
  rm := bitsOf b.cmod.toNat 10 9
  sat := b.cmod.getLsbD 8
  pc := x.pc
  skip := 0

/-- Fields of a move (Table 14.2, R303, R304). -/
def SeqCtx.moveOk (x : SeqCtx) (h : Hdr) (b : CBody) (kinds : List Nat) (mask : BitVec 24) : Bool :=
  let m := x.move h b
  seqHdr h true false && b.zeroBut true true true true false mask && decide (1 ≤ m.count) && decide (m.count ≤ 128) &&
    slotOk (x.fmt h) kinds && decide (m.col + m.count * perReg m.kind ≤ 128) && x.accOk b.acc && x.regsOk b.warp m.vreg m.count

def execMget (h : Hdr) (b : CBody) (s : State) : Host.Outcome State Fault Refusal :=
  seqIssue (.mget h b) s (fun x => x.moveOk h b [1, 2, 3, 4, 5, 6] 0xF77F) fun x s =>
    let m := x.move h b
    if !x.room s b.warp || s.regsPending x.core (x.slotOf b.warp) m.vreg m.count then .wait s
    else
      let p := s.post x.ix (.mget m)
      .done (p.2.modWarp x.core (x.slotOf b.warp) fun w => w.pushOp 1 p.1)

def execMput (h : Hdr) (b : CBody) (s : State) : Host.Outcome State Fault Refusal :=
  seqIssue (.mput h b) s (fun x => x.moveOk h b [1, 2, 3] 0xF07F) fun x s =>
    let m := x.move h b
    if !x.room s b.warp || s.regsPending x.core (x.slotOf b.warp) m.vreg m.count then .wait s
    else
      let p := s.post x.ix (.mput m)
      let slab : Slab := ⟨x.ix, m.warp, m.vreg, m.count, s.regWords x.core (x.slotOf b.warp) m.vreg m.count, none⟩
      .done (({ p.2 with slabs := p.2.slabs.put p.1 slab } : State).modWarp x.core (x.slotOf b.warp) fun w => w.pushOp 1 p.1)

/-! ## Regions (R292 to R296) -/

/-- The region belongs to the team's allocation. -/
def Region.ownedBy (r : Region) (ix : Nat) (t : Team) : Bool := r.owner == hiveTeamSlot ix && r.gen == t.gen

/-- Global index of the Q4 block `b` of local column `n` of cell (kc, nc) (R292). -/
def q4Index (depth nc n kc b : Nat) : Nat := (256 * nc + n) * (8 * depth) + 8 * kc + b

/-- The checks of R293 after the field checks. -/
def SeqCtx.sealCause (x : SeqCtx) (s : State) (h : Hdr) (b : CBody) : Option Nat :=
  let m := b.cmod.toNat
  let first := m % 256
  let depth := bitsOf m 15 8
  let width := bitsOf m 23 16
  let hv := s.hive x.hive
  let cells := (x.t.cells.drop first).take (depth * width)
  let f := (x.fmt h).toNat
  let q4 := 8 ≤ f % 256
  let last := (x.k (b.vreg.toNat % 8)).toNat + q4Index depth (width - 1) 255 (depth - 1) 7 * bitsOf f 47 32
  if (hv.regions.find? (b.region.toNat % 16)).isSome || cells.any hv.cellSealed then some causeCombSealed
  else if x.t.cells.length < first + depth * width then some causeCombBounds
  else if q4 && bitsOf f 23 16 = 0 then some causeReserved
  else if q4 && x.t.bytes ≤ last then some causeCombBounds
  else if b.acc.getLsbD 0 && f % 256 ≠ 6 then some causeReserved
  else none

/-- `mseal` (R293): the entry is sealing from the issue; the sequencer waits until the conversion ends. -/
def execMseal (h : Hdr) (b : CBody) (s : State) : Host.Outcome State Fault Refusal :=
  seqIssue (.mseal h b) s (fun x =>
      seqHdr h true false && b.zeroBut true false true false true 0xFFFFFF && decide (b.region.toNat < 16) &&
        decide (b.acc.toNat < 2) && decide (b.vreg.toNat < 8) && decide (1 ≤ bitsOf b.cmod.toNat 15 8) &&
        decide (bitsOf b.cmod.toNat 15 8 ≤ 192) && decide (1 ≤ bitsOf b.cmod.toNat 23 16) && decide (bitsOf b.cmod.toNat 23 16 ≤ 192) &&
        slotOk (x.fmt h) [4, 5, 6, 8, 9, 10, 11]) fun x s =>
    let id := b.region.toNat
    if x.q.waiting then
      (if (((s.hive x.hive).regions.find? id).map (·.st)) == some 1 then .wait s else .done s)
    else match x.sealCause s h b with
      | some c => .trap c 0
      | none =>
        let m := b.cmod.toNat
        let depth := bitsOf m 15 8
        let width := bitsOf m 23 16
        let r : Region := {
          st := 1, owner := hiveTeamSlot x.ix, gen := x.t.gen, first := m % 256, depth := depth, width := width, slot := h.fs.toNat,
          refill := b.acc.getLsbD 0, scale := (x.k b.vreg.toNat).toNat,
          before := (s.copyOps.filter fun o => o.intoTeam s x.ix x.t).map (·.id),
          cells := (x.t.cells.drop (m % 256)).take (depth * width) }
        let s := s.modHive x.hive fun hv => { hv with regions := hv.regions.put id r }
        .wait (s.modSeq x.ix fun q => { q with waiting := true })

/-- Passes posted to a hive, by number. -/
def State.passes (s : State) (hive : Nat) : List (Nat × Pass) :=
  s.posted.filterMap fun p => match p.2.op with
    | .pass y => if y.hive = hive then some (p.1, y) else none
    | _ => none

/-- A posted operation has still to complete, here or in the save record of its team (R308). -/
def State.postedOpen (s : State) (i : Nat) : Bool :=
  (s.posted.find? i).isSome || s.contexts.any fun c => c.2.saved.any fun v => v.posted.any fun p => p.1 == i

/-- `munseal` (R295): the entry is free at issue; the cells become scratchpad once the passes on them have completed. -/
def execMunseal (h : Hdr) (b : CBody) (s : State) : Host.Outcome State Fault Refusal :=
  seqIssue (.munseal h b) s (fun _ => seqHdr h false false && b.zeroBut false false false false true 0 && decide (b.region.toNat < 16))
      fun x s =>
    let key := 16 + hiveTeamSlot x.ix
    let finishIf (s : State) (ids : List Nat) : SeqEff :=
      if ids.any s.postedOpen then .wait s
      else match (s.hive x.hive).regions.find? key with
        | none => .done s
        | some r => .done (s.modHive x.hive fun hv =>
            ({ hv with
              regions := hv.regions.erase key
              exps := hv.exps.filter fun e => !r.cells.contains (e.1 / 2048) } : Hive).undefine r.cells)
    if x.q.waiting then finishIf s x.q.waitOps
    else match ((s.hive x.hive).regions.find? b.region.toNat).filter fun r => r.st == 2 && r.ownedBy x.ix x.t with
      | none => .trap causeCombSealed 0
      | some r =>
        let ids := ((s.passes x.hive).filter fun p => r.cells.contains p.2.cell).map (·.1)
        let s := s.modHive x.hive fun hv => { hv with regions := (hv.regions.erase b.region.toNat).put key r }
        finishIf (s.modSeq x.ix fun q => { q with waiting := true, waitOps := ids }) ids

/-- `mfence` (R296). Under RGN a free id, and a region of another grid, name no copies: it waits for the hive's posted passes alone
(assumption 114). -/
def execMfence (h : Hdr) (b : CBody) (s : State) : Host.Outcome State Fault Refusal :=
  seqIssue (.mfence h b) s (fun _ => seqHdr h false false && b.zeroBut false false false false (b.cmod == 1) 1 && decide (b.region.toNat < 16))
      fun x s =>
    let region := ((s.hive x.hive).regions.find? b.region.toNat).map fun r => (r, x.hive * 32 + r.owner)
    let cells := ((region.map fun y => y.1.cells)).getD []
    let open_ (i : Nat) : Bool := s.postedOpen i || (s.copyOps.any fun o => o.id == i &&
      o.touches ((region.bind fun y => (s.team? y.2).map (·.cells)).getD []) cells) || (s.copyOpen [i] && !s.copyOps.any fun o => o.id == i)
    let ids :=
      if x.q.waiting then x.q.waitOps
      else if b.cmod = 0 then (s.posted.filter fun p => p.2.team == x.ix).map (·.1)
      else (s.passes x.hive).map (·.1) ++ ((region.bind fun y => (s.team? y.2).map fun t =>
        (s.copyOps.filter fun o => o.intoTeam s y.2 t).map (·.id)).getD [])
    let s := s.modSeq x.ix fun q => { q with waiting := true, waitOps := ids }
    if ids.any open_ then .wait s else .done s

/-! ## Multiply-accumulate (R297, R298) -/

/-- Registers of a warp per cell. -/
def regsPerCell (akind : Nat) : Nat := if akind = 3 then 128 else 64

/-- The region an `mmac` names and its owner's team, if it may use it (R296, R297). -/
def SeqCtx.region (x : SeqCtx) (s : State) (id : Nat) : Option (Region × Nat) :=
  match (s.hive x.hive).regions.find? id with
  | none => none
  | some r =>
    let ix := x.hive * 32 + r.owner
    match s.team? ix with
    | none => none
    | some t => if t.gen == r.gen && t.grid == x.t.grid then some (r, ix) else none

/-- Drop the slabs that neither a latch nor a posted operation still needs. -/
def State.pruneSlabs (s : State) : State :=
  { s with slabs := s.slabs.filter fun y =>
      y.2.data.isNone || (s.posted.any fun p => match p.2.op with
        | .pass q => q.slab == y.1
        | .mput _ => p.1 == y.1
        | _ => false) || s.teams.any fun t => (t.2.latch.map (·.slab)) == some y.1 }

/-- An `mmac` finds its slab in the latch (R298). -/
def SeqCtx.latched (x : SeqCtx) (warp : BitVec 8) (v n : Nat) : Option Latch :=
  x.t.latch.filter fun l => l.warp == warp.toNat && l.vreg == v && l.count == n

/-- The slab of an `mmac`: the latch's, or a new one with its MATRIX operation open (R298). -/
def SeqCtx.slab (x : SeqCtx) (s : State) (warp : BitVec 8) (v n : Nat) : Nat × State :=
  let slot := x.slotOf warp
  match x.latched warp v n with
  | some l =>
    let f := s.fresh
    (l.slab, (f.2.modWarp x.core slot fun w => w.pushOp 1 f.1).opDone x.core slot 1 f.1)
  | none =>
    let f := s.fresh
    let y : Slab := ⟨x.ix, warp.toNat, v, n, s.regWords x.core slot v n, none⟩
    (f.1, ({ f.2 with slabs := f.2.slabs.put f.1 y } : State).modWarp x.core slot fun w => w.pushOp 1 f.1)

/-- The sequencer as a producer of its hive's reservation table (R103, R105). -/
def SeqCtx.producer (x : SeqCtx) : Stall := ⟨300000 + x.hive, x.core, x.slot, 16, x.pc⟩

def execMmac (h : Hdr) (b : CBody) (s : State) : Host.Outcome State Fault Refusal :=
  seqIssue (.mmac h b) s (fun x =>
      let v := x.vreg b.vreg (b.cmod.getLsbD 19) (bitsOf b.cmod.toNat 18 16)
      seqHdr h true true && b.zeroBut true true true true true 0xFFFFF && decide (b.region.toNat < 16) && decide (1 ≤ b.count.toNat) &&
        slotOk (x.fmt h) [3, 4, 5, 6] && b.count.toNat % regsPerCell (x.kind h) == 0 && x.accOk b.acc && x.regsOk b.warp v b.count.toNat)
      fun x s =>
    let v := x.vreg b.vreg (b.cmod.getLsbD 19) (bitsOf b.cmod.toNat 18 16)
    let akind := x.kind h
    let per := regsPerCell akind
    let n := b.count.toNat / per
    let ncol := b.cmod.toNat % 256
    let kcell := bitsOf b.cmod.toNat 15 8
    match x.region s b.region.toNat with
    | none => .trap causeCombSealed 0
    | some (r, owner) =>
      let wkind := (x.g.lr.fmt.getD r.slot 0).toNat % 256
      let wq := decide (8 ≤ wkind)
      if r.depth < kcell + n || r.width ≤ ncol || (wq && x.g.lr.accs ≤ b.acc.toNat + 1) then .trap causeReserved 0
      else if !x.room s b.warp || ((x.latched b.warp v b.count.toNat).isNone && s.regsPending x.core (x.slotOf b.warp) v b.count.toNat) then .wait s
      else if 64 < (s.passes x.hive).length + n || !s.firstAt x.producer then .wait (s.stallAt x.producer)
      else
        let s := s.unstall x.producer
        let s := if owner != x.ix && x.t.screen.isSome then s.endScreen x.ix else s
        if (s.team? x.ix).isNone then .wait s
        else
          let sl := x.slab s b.warp v b.count.toNat
          let s := sl.2.modTeam x.ix fun t => { t with
            latch := if h.reu then some ⟨b.warp.toNat, v, b.count.toNat, sl.1⟩ else none }
          let s := s.each (List.range n) fun s j =>
            (s.post x.ix (.pass {
              hive := x.hive, cell := r.cells.getD (ncol * r.depth + kcell + j) 0, tile0 := x.tile b.acc.toNat,
              tile1 := if wq then some (x.tile (b.acc.toNat + 1)) else none, akind := akind, wkind := wkind, slab := sl.1,
              part := j * per, granted := false, age := 0, prio := x.g.lr.priority, old := none })).2
          .done s.pruneSlabs

end Sys2Proof.Machine
end

