-- ==== Sys2Proof/Machine/MatrixEvents.lean ====
section
/-! DEFINITION. The events of the matrix path: sealing (14 R293, R294), slab reads (R299), passes (R300, R301, R364;
07 R149 to R151), tile moves (R302 to R304, R374), and the spill of a FOREIGN tile (18 R384). -/

namespace Sys2Proof.Machine

/-! ## Sealing -/

/-- A byte of a comb word list. -/
def byteOf (ws : Nat → Word) (i : Nat) : Nat := (ws (i / 4)).toNat / 2 ^ (8 * (i % 4)) % 256

/-- Words of a cell with bits in error are read: corrected, or poisoned (R85). -/
def State.scrubCell (s : State) (vf hive cell : Nat) : State :=
  s.each (((s.hive hive).err.filter fun e => e.1 / 8192 == cell).map (·.1)) fun s wi => (s.combWord vf hive wi).2.2

/-- Give every undefined word of a cell a value: a seal reads all of them. -/
def State.defineCell (s : State) (vf hive cell : Nat) : State :=
  let s := s.scrubCell vf hive cell
  if !(s.hive hive).undef.contains cell then s
  else ((List.range 8192).foldl (fun (s : State) i => (s.combWord vf hive (cell * 8192 + i)).2.2) s).modHive hive fun h =>
    { h with undef := h.undef.filter (· ≠ cell) }

/-- Convert the FP8 columns of a cell in place (R149, R293). -/
def Hive.sealFloat (h : Hive) (f : Fmt) (cell : Nat) : Hive :=
  (List.range 1024).foldl (fun h i =>
    let ws := (List.range 8).map fun k => cell * 8192 + 8 * i + k
    let raw := (List.range 32).map fun k => byteOf (fun j => h.comb.get 0 (cell * 8192 + 8 * i + j)) k
    match floatBlock f 6 raw with
    | none => { h with exps := h.exps.put (cell * 2048 + i) ⟨0, true, 0⟩ }
    | some b =>
      let words := (List.range 8).map fun k => BitVec.ofNat 32 (ofBytes (((b.ints.drop (4 * k)).take 4).map (BitVec.ofInt 8)))
      { h with
        comb := (ws.zip words).foldl (fun c y => c.put y.1 y.2) h.comb
        exps := h.exps.put (cell * 2048 + i) ⟨b.exp, false, 0⟩ }) h

/-- Take the scale bytes of a Q4 cell into the exponent store (R144, R149, R292). -/
def State.sealQ4 (s : State) (vf hive : Nat) (r : Region) (t : Team) (stride j cell : Nat) : State :=
  (List.range 2048).foldl (fun (s : State) i =>
    let o := r.scale + q4Index r.depth (j / r.depth) (i / 8) (j % r.depth) (i % 8) * stride
    let v := s.combRead vf hive t.cells o 1
    let sb := ofBytes v.1
    let ex := sb % 64
    let ty := sb / 64 % 4
    let e : BlockExp := if ex = 63 then ⟨0, true, ty⟩ else if ex = 0 then ⟨0, false, 4⟩ else ⟨(ex : Int) - q4Off ty, false, ty⟩
    v.2.2.modHive hive fun h => { h with
      exps := h.exps.put (cell * 2048 + i) e
      poison := if v.2.1 then (cell * 8192 + 4 * i) :: h.poison else h.poison }) s

/-- `SEAL_COMPLETE` (R293). -/
def execSealComplete (hive region : Nat) (s : State) : Host.Outcome State Fault Refusal :=
  match ((s.hive hive).regions.find? region).filter fun r => r.st == 1 with
  | none => .next s
  | some r =>
    let ix := hive * 32 + r.owner
    match s.team? ix, s.gridOfTeam ix with
    | some t, some g =>
      if s.copyOpen r.before then .next s
      else
        let f := (g.lr.fmt.getD r.slot 0).toNat
        let kind := f % 256
        let s := s.each r.cells fun s c => s.defineCell g.vf hive c
        let s := s.each (r.cells.zip (List.range r.cells.length)) fun s y =>
          if 8 ≤ kind then s.sealQ4 g.vf hive r t (bitsOf f 47 32) y.2 y.1
          else if kind = 6 then s.modHive hive fun h => { h with exps := h.exps.filter fun e => e.1 / 2048 != y.1 }
          else s.modHive hive fun h => h.sealFloat (if kind = 4 then e4m3 else e5m2) y.1
        .next (s.modHive hive fun h => { h with regions := h.regions.put region { r with st := 2 } })
    | _, _ => .next s

/-! ## Slab reads -/

/-- Of two contents of an element, either (R299, R296); where they agree there is no choice. -/
def State.mixWords (s : State) (old new : Tab Word) : Tab Word × State :=
  (((old.map (·.1)) ++ new.map (·.1)).dedup).foldl (fun (acc : Tab Word × State) k =>
    let a := old.get 0 k
    let b := new.get 0 k
    if a = b then (acc.1.set 0 k a, acc.2)
    else let c := acc.2.pick 2; (acc.1.set 0 k (if c.1 = 0 then a else b), c.2)) ([], s)

/-- `SLAB_READ_DONE`: each element is taken before or after a write of the warp since the issue; in replay before (R414).
A killed warp reads 0. -/
def execSlabReadDone (id : Nat) (s : State) : Host.Outcome State Fault Refusal :=
  match s.slabs.find? id with
  | none => .next s
  | some y =>
    if y.data.isSome then .next s
    else match s.team? y.team with
      | none => .next s
      | some t =>
        let core := y.team / 8
        let slot := t.slots.getD y.warp 0
        let killed := ((s.warp? core slot).map (·.killed)).getD true
        let replay := ((s.part? (s.vfOfTeam y.team)).map (·.replay)).getD false
        let r := if killed then ([], s) else if replay then (y.old, s) else s.mixWords y.old (s.regWords core slot y.vreg y.count)
        .next ((({ r.2 with slabs := r.2.slabs.put id { y with data := some r.1 } } : State).opDone core slot 1 id).pruneSlabs)

/-! ## Passes -/

/-- An earlier posted operation of the team works on one of the tiles. -/
def State.tileBefore (s : State) (id : Nat) (p : Posted) : Bool :=
  s.posted.any fun o => decide (o.1 < id) && o.2.team == p.team && o.2.op.tiles.any fun t => p.op.tiles.contains t

/-- A number that names a cell of a saved team's allocation (R308): by the team's `born` and the cell's place. -/
def siblingCell (born pos : Nat) : Nat := 4096 * (born + 1) + pos
def awayCell (cell : Nat) : Bool := decide (4096 ≤ cell)

/-- A pass may be granted (R300), its cell being free and there. -/
def State.grantable (s : State) (id : Nat) (team : Nat) (p : Pass) : Bool :=
  !p.granted && ((s.slabs.find? p.slab).bind (·.data)).isSome &&
    !((s.hive p.hive).regions.any fun r => r.2.st == 1 && r.2.cells.contains p.cell) && !awayCell p.cell &&
    !s.tileBefore id ⟨team, .pass p⟩ && s.ctxLive (s.ctxIdOfTeam team)

/-- The arbiter's order (R364): one pass goes before another. -/
def passBefore (i : Nat) (p : Pass) (j : Nat) (q : Pass) : Bool :=
  let ep (x : Pass) : Nat := if 256 ≤ x.age then 3 else x.prio
  if ep p ≠ ep q then decide (ep q < ep p) else if p.age ≠ q.age then decide (q.age < p.age) else decide (i < j)

/-- Replace a posted pass. -/
def State.setPass (s : State) (id : Nat) (p : Pass) : State :=
  { s with posted := s.posted.modify id fun x => { x with op := .pass p } }

/-- Words of a cell. -/
def Hive.cellWords (h : Hive) (cell : Nat) : Tab Word := h.comb.filter fun y => y.1 / 8192 == cell

/-- `PASS_GRANT` (R364): the losers of a free cell age by one. -/
def execPassGrant (hive cell : Nat) (s : State) : Host.Outcome State Fault Refusal :=
  let here := (s.passes hive).filter fun p => p.2.cell == cell
  let ready := here.filter fun p => s.grantable p.1 (((s.posted.find? p.1).map (·.team)).getD 0) p.2
  if here.any fun p => p.2.granted then .next s
  else match ready with
    | [] => .next s
    | h :: l =>
      let best := l.foldl (fun b p => if passBefore p.1 p.2 b.1 b.2 then p else b) h
      let refill := (s.hive hive).regions.any fun r => r.2.refill && r.2.cells.contains cell
      .next (s.each ready fun s p =>
        if p.1 = best.1 then s.setPass p.1 { p.2 with granted := true, old := if refill then some ((s.hive hive).cellWords cell) else none }
        else s.setPass p.1 { p.2 with age := min (p.2.age + 1) 4095 })

/-- Weight block `b` of column `n` of a sealed cell; none carries a NaN mark. -/
def weightBlock (words : Tab Word) (exps : Tab BlockExp) (wkind cell n b : Nat) : Option Block :=
  let w (i : Nat) : Word := words.get 0 (cell * 8192 + i)
  let e := exps.get ⟨0, false, 0⟩ (cell * 2048 + 8 * n + b)
  if e.nan then none
  else if 8 ≤ wkind then
    if e.ty = 4 then some ⟨List.replicate 32 0, 0⟩
    else some ⟨(List.range 32).map fun k => q4Int e.ty (byteOf w (128 * n + 16 * b + k / 2) / 16 ^ (k % 2) % 16), e.ew⟩
  else some ⟨(intBlock ((List.range 32).map fun k => byteOf w (256 * n + 32 * b + k))).ints, e.ew⟩

/-- Activation block `b` of row `t` (R150, R297). -/
def activationBlock (data : Tab Word) (akind part t b : Nat) : Option Block :=
  let reg (k : Nat) : Nat := (data.get 0 ((part + k) * 64 + t)).toNat
  if akind = 3 then floatBlock bf16 14 ((List.range 32).map fun k => reg (16 * b + k / 2) / 2 ^ (16 * (k % 2)) % 2 ^ 16)
  else
    let raw := (List.range 32).map fun k => reg (8 * b + k / 4) / 2 ^ (8 * (k % 4)) % 256
    if akind = 6 then some (intBlock raw) else floatBlock (if akind = 4 then e4m3 else e5m2) 10 raw

/-- One K-block into a tile element (R151). -/
def addBlock (acc : Word) (a w : Option Block) : Word :=
  match a, w with
  | some a, some w =>
    let p : Int := ((a.ints.zip w.ints).map fun (y : Int × Int) => y.1 * y.2).sum
    let x := f32.value acc.toNat
    let y : Fv := .fin (decide (p < 0)) p.natAbs (a.exp + w.exp)
    BitVec.ofNat 32 (arith f32 (ieee 0) [x, y] (fvAdd 0 x y)).1
  | _, _ => 0x7FC00000

/-- Add a pass into one of its tiles, columns from `base` (0 or 128) of the cell. -/
def passTile (tile : Tile) (data words : Tab Word) (exps : Tab BlockExp) (p : Pass) (base : Nat) (poison : Bool) : Tile :=
  { tile with
    data := (List.range 8192).foldl (fun (d : Tab Word) i =>
      d.set 0 i ((List.range 8).foldl (fun acc b =>
        addBlock acc (activationBlock data p.akind p.part (i / 128) b) (weightBlock words exps p.wkind p.cell (base + i % 128) b))
          (tile.data.get 0 i))) tile.data
    poison := if poison then List.range 8192 else tile.poison }

/-- A posted operation is complete: it leaves, and tiles that drained become FREE. -/
def State.unpost (s : State) (id : Nat) (p : Posted) : State :=
  (({ s with posted := s.posted.erase id } : State).each p.op.tiles fun s t => s.drainTile (p.team / 8) t).pruneSlabs

/-- `PASS_COMPLETE` (R301): the result is added once, in ascending K-block order. -/
def execPassComplete (id : Nat) (s : State) : Host.Outcome State Fault Refusal :=
  match s.posted.find? id with
  | some ⟨team, .pass p⟩ =>
    if !p.granted then .next s
    else
      let core := team / 8
      let s := s.scrubCell (s.vfOfTeam team) p.hive p.cell
      let h := s.hive p.hive
      let data := ((s.slabs.find? p.slab).bind (·.data)).getD []
      let r := match p.old with
        | none => (h.cellWords p.cell, s)
        | some old => s.mixWords old (h.cellWords p.cell)
      let poison := h.poison.any fun w => w / 8192 == p.cell
      let s := r.2.modTile core p.tile0 fun t => passTile t data r.1 h.exps p 0 poison
      let s := match p.tile1 with
        | none => s
        | some k => s.modTile core k fun t => passTile t data r.1 h.exps p 128 poison
      .next (s.unpost id ⟨team, .pass p⟩)
  | _ => .next s

/-! ## Moves -/

/-- Convert of R303 to the codes of a kind. -/
def moveOut (m : TileMove) (x : Word) : Nat :=
  match m.kind with
  | 1 => x.toNat
  | 2 => (convert f16 m.rm m.sat (f32.value x.toNat)).1
  | 3 => (convert bf16 m.rm m.sat (f32.value x.toNat)).1
  | 4 => (convert e4m3 m.rm m.sat (f32.value x.toNat)).1
  | 5 => (convert e5m2 m.rm m.sat (f32.value x.toNat)).1
  | _ => (BitVec.ofInt 8 (toIntRange m.rm (f32.value x.toNat) (-128) 127).1).toNat

/-- The FP32 value an element of a kind widens to (R141). -/
def moveIn (kind code : Nat) : Word :=
  match kind with
  | 1 => BitVec.ofNat 32 code
  | 2 => BitVec.ofNat 32 (convert f32 0 false (f16.value code)).1
  | _ => BitVec.ofNat 32 (convert f32 0 false (bf16.value code)).1

/-- Register r of thread t after an `mget`. -/
def TileMove.word (m : TileMove) (tile : Tile) (t r : Nat) : Word :=
  let e := perReg m.kind
  BitVec.ofNat 32 ((List.range e).foldl (fun acc q =>
    acc + moveOut m (tile.data.get 0 (128 * t + m.col + r * e + q)) * 2 ^ (32 / e * q)) 0)

/-- The elements a move reads or writes. -/
def TileMove.elems (m : TileMove) : List Nat :=
  (List.range 64).flatMap fun t => (List.range (m.count * perReg m.kind)).map fun i => 128 * t + m.col + i

/-- `MGET_WRITEBACK` (R303). -/
def execMgetWriteback (id : Nat) (s : State) : Host.Outcome State Fault Refusal :=
  match s.posted.find? id with
  | some ⟨team, .mget m⟩ =>
    if s.tileBefore id ⟨team, .mget m⟩ then .next s
    else
      let core := team / 8
      let slot := ((s.team? team).map fun t => t.slots.getD m.warp 0).getD 0
      let tile := (s.core core).tile m.tile
      let s := if m.elems.any tile.poison.contains then s.seqPoison team m.pc ⟨causeUncorr, 0, 0, none⟩
        else match s.warp? core slot with
          | none => s
          | some w => if w.killed then s else s.writeBack core slot ((threadsOf (w.launched &&& ~~~m.skip)).flatMap fun t =>
              (List.range m.count).map fun r => ⟨.v (m.vreg + r) t, (m.word tile t r).setWidth 64⟩)
      .next ((s.opDone core slot 1 id).unpost id ⟨team, .mget m⟩)
  | _ => .next s

/-- `MPUT_DONE` (R304). -/
def execMputDone (id : Nat) (s : State) : Host.Outcome State Fault Refusal :=
  match s.posted.find? id with
  | some ⟨team, .mput m⟩ =>
    match (s.slabs.find? id).bind (·.data) with
    | none => .next s
    | some data =>
      if s.tileBefore id ⟨team, .mput m⟩ then .next s
      else
        let e := perReg m.kind
        let s := s.modTile (team / 8) m.tile fun tile => { tile with
          data := (List.range 64).foldl (fun d t => (List.range (m.count * e)).foldl (fun (d : Tab Word) i =>
            d.set 0 (128 * t + m.col + i)
              (moveIn m.kind ((data.get 0 (64 * (i / e) + t)).toNat / 2 ^ (32 / e * (i % e)) % 2 ^ (32 / e)))) d) tile.data
          poison := tile.poison.filter fun x => !m.elems.contains x }
        .next (s.unpost id ⟨team, .mput m⟩)
  | _ => .next s

/-- `MZERO_DONE` (R302). -/
def execMzeroDone (id : Nat) (s : State) : Host.Outcome State Fault Refusal :=
  match s.posted.find? id with
  | some ⟨team, .mzero t⟩ =>
    if s.tileBefore id ⟨team, .mzero t⟩ then .next s
    else .next ((s.modTile (team / 8) t fun y => { y with data := [], poison := [] }).unpost id ⟨team, .mzero t⟩)
  | _ => .next s

/-! ## ACC_FOREIGN (R384) -/

/-- What names a saved team, resident nowhere, in tile tags and in what its operations leave behind (`teamAway`). -/
def savedName (born : Nat) : Nat := 4096 + born

/-- Move a tile into the save record of the team that owned it. -/
def SavedTeam.spill (v : SavedTeam) (core tile : Nat) (x : Tile) : SavedTeam :=
  if v.core = core && savedName v.team.born = x.team then
    match (List.range 8).find? fun i => v.team.rename[i]? == some (some tile) with
    | none => v
    | some n => { v with
        team := { v.team with rename := v.team.rename.set n none }
        tiles := Tab.put v.tiles n x }
  else v

/-- Spill a FOREIGN tile to its owner's save record and give it, zeroed, to the team that takes it. The record's place in the save area
changes (assumption 62). -/
def State.spillTile (s : State) (core tile taker ctx vf : Nat) : State :=
  let x := (s.core core).tile tile
  let owner := ((s.ctx? x.ctx).map (·.saved)).getD []
  let s := s.modCtx x.ctx fun c => { c with saved := c.saved.map fun v => v.spill core tile x }
  let s := s.each (owner.filter fun v => v.core == core && savedName v.team.born == x.team) fun s v => s.openFill v.place.1 v.place.2
  (s.handTile core tile taker ctx).log vf causeForeign 0 false 0 core 0

/-- The request that the context-save engine of a die serves next. -/
def State.nextSpill (s : State) (die : Nat) : Option (Nat × Nat) :=
  s.spillQ.find? fun y => y.1 / 96 == die && ((s.core y.1).tile y.2).st == .foreign && (s.taker y.1 y.2).isSome

/-- `ACC_FOREIGN_SPILL`: spills are served in request order. -/
def execAccForeignSpill (core tile : Nat) (s : State) : Host.Outcome State Fault Refusal :=
  match s.taker core tile with
  | none => .next s
  | some ix =>
    if s.nextSpill (dieOfCore core) != some (core, tile) then .next s
    else .next (s.spillTile core tile ix (s.ctxIdOfTeam ix) (s.vfOfTeam ix))

end Sys2Proof.Machine
end

