-- ==== Sys2Proof/Machine/Near.lean ====
section
/-! DEFINITION. The near-memory class (15 R319 to R334): `gred`, `nred`, `nlaunch`, `nstat` and `nkill` at issue, and how the
hearth adders and stoves reach DRAM (R321, R322). -/

namespace Sys2Proof.Machine

/-! ## Near reads and writes -/

/-- An older request to the word waits in its channel's queue: the hearth serves those to one word in order (R78). -/
def State.wordQueued (s : State) (wa : Nat) : Bool := ((s.wordQ.find? (queueIx wa)).getD []).any fun r => r.word == wa

/-- Why near memory may not read a word: the row check, which a word of an elided row needs not (R321, R322). -/
def State.nearReadCause (s : State) (vf wa : Nat) : Option Nat :=
  if (s.elision.find? (rowOfPa (4 * wa))).isSome || s.rowOk vf (4 * wa) false true then none else some causeRowDenied

/-- Why a near write of a word is refused: one of an elided row needs no activate (R97, R322). -/
def State.nearWriteCause (s : State) (vf wa : Nat) : Option Nat :=
  if (s.elision.find? (rowOfPa (4 * wa))).isSome then some causeElided
  else if !s.rowOk vf (4 * wa) true true then some causeRowDenied
  else none

/-- Write a word in DRAM; a copy in the home slice that is not dirty is removed (R322). What earlier writes of the word carried
goes with the copy: a dirty one stays, and is written over the word later. -/
def State.nearWrite (s : State) (wa : Nat) (d : Word) : State :=
  let s := (s.noteUndo wa).setDram wa d false
  let s := { s with l2 := s.l2.filter fun x => !(x.1 == wa && x.2.dirty == 0), homeClk := s.homeClk + 1 }
  if (s.l2.find? wa).isSome || (s.sync.find? wa).isSome then s else s.putRel wa allBytes [] false

/-- What near memory finds at a run of bytes, with the words that it has already. -/
inductive NearGot where
  /-- it may not be read: cause and address -/
  | bad (cause : Nat) (va : DWord)
  /-- words of its next 64-byte line are still to be read -/
  | need (va : DWord) (was : List Nat)
  | got (bytes : List Byte)

/-- Bytes of a context's memory as near memory reads them (R321, R427): each part is translated, and each of its words is one that
`have_` holds or is still to be read; those that are, of one line of the channel, come with one burst. -/
def State.nearView (s : State) (die ctx vf : Nat) (have_ : Tab (Word × Bool)) (va : DWord) (n : Nat) : NearGot :=
  -- a word that the same burst brings
  let too (was : List Nat) (w : Nat) : Bool :=
    !was.contains w && (have_.find? w).isNone && decide (w / 16 = was.headD 0 / 16) && (s.nearReadCause vf w).isNone
  (partsOf va.toNat n (n + 1)).foldl (fun acc p =>
    let a := BitVec.ofNat 64 p.1
    match acc with
    | .bad c a => .bad c a
    | .need b was =>
      match s.resolveDie die ctx a .nearRead with
      | .error _ => .need b was
      | .ok x => .need b (was ++ ((wordsOf x.pa p.2).map (·.1)).filter (too was))
    | .got l =>
      match s.resolveDie die ctx a .nearRead with
      | .error c => .bad c a
      | .ok x =>
        (wordsOf x.pa p.2).foldl (fun acc w =>
          match acc with
          | .got l =>
            match have_.find? w.1 with
            | some v => if v.2 then .bad causeUncorr a
                else .got (l ++ ((List.range 4).filter w.2.getLsbD).map fun j => v.1.extractLsb' (8 * j) 8)
            | none => match s.nearReadCause vf w.1 with
              | some c => .bad c a
              | none => .need a [w.1]
          | .need b was => .need b (if too was w.1 then was ++ [w.1] else was)
          | b => b) (.got l)) (.got [])

/-- Read words at the hearth for a function: what they hold, and the state with corrections written back (R82). -/
def State.nearTake (s : State) (vf : Nat) (have_ : Tab (Word × Bool)) (was : List Nat) : Tab (Word × Bool) × State :=
  was.foldl (fun acc w => let v := acc.2.hearthRead vf w; (acc.1.put w (v.1, v.2.1), v.2.2)) (have_, s)

/-- Read a run burst by burst, `k` bursts at most; each counts (R133). -/
def State.nearAll (s : State) (die ctx vf : Nat) (have_ : Tab (Word × Bool)) (va : DWord) (n : Nat) : Nat → Except (Nat × DWord) (List Byte) × State
  | 0 => (.ok [], s)
  | k + 1 => match s.nearView die ctx vf have_ va n with
    | .bad c a => (.error (c, a), s)
    | .got l => (.ok l, s)
    | .need _ was => let r := (s.countPerf vf 10).nearTake vf have_ was; r.2.nearAll die ctx vf r.1 va n k

/-- What the walks for a run leave behind (R100). -/
def State.walkedRun (s : State) (die ctx : Nat) (va : DWord) (n : Nat) : State :=
  s.each (partsOf va.toNat n (n + 1)) fun s p => s.walked die ctx (BitVec.ofNat 64 p.1)

/-- All bytes of a run read at once: the bytes, or the cause with the address. -/
def State.nearBytes (s : State) (die ctx vf : Nat) (va : DWord) (n : Nat) : Except (Nat × DWord) (List Byte) × State :=
  (s.walkedRun die ctx va n).nearAll die ctx vf [] va n (n + 1)

/-! ## Reads at issue through the core (R325, R331) -/

/-- A read of `n` bytes through the issuing core's L1, as `ld` reads; none while it waits for the memory system. -/
def Ctx.coreRead (x : Ctx) (s : State) (va : DWord) (n : Nat) : Option (Except FaultInfo (List Byte)) × State :=
  match s.resolveParts x.core x.gctx (partsOf va.toNat n (n + 1)) .read with
  | (.error c, s) => (some (.error ⟨c, x.mask, va, none⟩), s)
  | (.ok ps, s) =>
    let l : Load := {
      core := x.core, slot := x.slot, entry := x.entry, vf := x.vf, ctx := x.gctx, pc := x.pc, lanes := [memLane (0, ps)], dst := 0,
      size := 0, sgn := false, uni := true, hint := 0, acq := 0, gred := none, vas := [va.toNat], floor := x.w.floor, got := [], far := [] }
    match (s.bringLanes x.vf [(0, ps)]).serveLoad s.nextId l with
    | .wait s => (none, s)
    | .denied _ va pa => (some (.error ⟨causeRowDenied, x.mask, va, some pa⟩), s)
    | .poison s va => (some (.error ⟨causeUncorr, x.mask, va, none⟩), s)
    | .data s out => (some (.ok (out.flatMap (·.2))), s)

/-! ## Queueing -/

/-- The GATHER operation of the issuing warp with `n` parts still to complete (R123). -/
def State.openGather (s : State) (x : Ctx) (n : Nat) : Nat × State :=
  let f := s.fresh
  (f.1, ({ f.2 with gathers := f.2.gathers.put f.1 ⟨x.core, x.slot, x.team, n⟩ } : State).modWarp x.core x.slot fun w => w.pushOp 2 f.1)

/-- Requests that wait at a hearth: those of a halted context lie in its save record meanwhile (R106). -/
def State.nearQueue (s : State) (stack : Nat) : List NearCmd := (s.hearth stack).queue.filter fun q =>
  s.ctxLive q.ctx && !((s.gathers.find? q.op).map fun g => teamAway g.team).getD false
/-- The queue has room for `n` more. -/
def State.nearRoom (s : State) (stack n : Nat) : Bool := decide ((s.nearQueue stack).length + n ≤ 256)
/-- Key of a hearth's queue among those at which producers stall (R105). -/
def nearKey (stack : Nat) : Nat := 100000 + stack

/-- Add a request to a hearth's queue. -/
def State.pushNear (s : State) (x : Ctx) (op stack : Nat) (r : NearReq) : State :=
  s.modHearth stack fun h => { h with queue := h.queue ++ [⟨op, x.core, x.slot, x.vf, x.gctx, r⟩] }

/-- The stack is assigned to the partition. -/
def State.stackOf (s : State) (vf stack : Nat) : Bool := decide (stack < 8) && ((s.part? vf).map fun p => p.stks.contains stack).getD false

/-- The GATHER counter has room (R123). -/
def Ctx.gatherRoom (x : Ctx) : Bool := decide (x.w.counter 2 < 63)

/-- `nred` (R325). -/
def execNred (h : Hdr) (b : VBody) (s : State) : Host.Outcome State Fault Refusal :=
  issue (.nred h b) s fun x s =>
    let n := (x.scal b.b).toNat
    let va := x.scal b.a
    if x.act = 0 then .done s
    else if n = 0 || 64 < n then .trap (plain causeReserved x.mask)
    else if va.toNat % 32 ≠ 0 then .trap ⟨causeAlign, x.mask, va, none⟩
    else match x.coreRead s va (32 * n) with
      | (none, s) => .stall s
      | (some (.error f), _) => .trap f
      | (some (.ok bytes), s) =>
        let cmds := (List.range n).map fun i => (bytes.drop (32 * i)).take 32
        let stackOf (c : List Byte) : Nat := fieldOf c 0x1D 1
        if cmds.any fun c => !s.stackOf x.vf (stackOf c) then .trap (plain causeReserved x.mask)
        else if !x.gatherRoom then .stall s
        else
          let ks := (cmds.map stackOf).dedup
          x.enqueue s (ks.map nearKey) (ks.all fun k => s.nearRoom k (cmds.filter fun c => stackOf c == k).length) fun s =>
            let g := s.openGather x n
            .done (g.2.each cmds fun s c => s.pushNear x g.1 (stackOf c) (.nred c (x.scal b.c)))

/-- `nlaunch` (R331): the descriptor is read at issue. -/
def execNlaunch (h : Hdr) (b : VBody) (s : State) : Host.Outcome State Fault Refusal :=
  issue (.nlaunch h b) s fun x s =>
    let va := x.scal b.a
    if x.act = 0 then .done s
    else if va.toNat % 64 ≠ 0 then .trap ⟨causeAlign, x.mask, va, none⟩
    else match x.coreRead s va 64 with
      | (none, s) => .stall s
      | (some (.error f), _) => .trap f
      | (some (.ok bytes), s) =>
        let k := fieldOf bytes 0x14 1
        if !s.stackOf x.vf k then .trap (plain causeReserved x.mask)
        else if !x.gatherRoom then .stall s
        else x.enqueue s [nearKey k] (s.nearRoom k 1) fun s =>
          let g := s.openGather x 1
          .done (g.2.pushNear x g.1 k (.nlaunch bytes))

/-- A channel selector (R320): stack and channel mask. -/
def selectorOk (v : DWord) : Bool := bitsOf v.toNat 31 3 == 0 && bitsOf v.toNat 63 32 != 0

/-- The shared issue of `nstat` and `nkill`. -/
def nearSelect (x : Ctx) (s : State) (sel : DWord) (bad : Option FaultInfo) (req : Word → NearReq) : Eff :=
  if x.act = 0 then .done s
  else if !selectorOk sel then .trap (plain causeReserved x.mask)
  else match bad with
    | some f => .trap f
    | none =>
      let k := sel.toNat % 8
      if !x.gatherRoom then .stall s
      else x.enqueue s [nearKey k] (s.nearRoom k 1) fun s =>
        let g := s.openGather x 1
        .done (g.2.pushNear x g.1 k (req ((sel >>> 32).setWidth 32)))

/-- `nstat` (R333). -/
def execNstat (h : Hdr) (b : VBody) (s : State) : Host.Outcome State Fault Refusal :=
  issue (.nstat h b) s fun x s =>
    let buf := x.scal b.b
    nearSelect x s (x.scal b.a) (if buf.toNat % 16 ≠ 0 then some ⟨causeAlign, x.mask, buf, none⟩ else none) fun m => .nstat m buf (x.scal b.c)

/-- `nkill` (R334). -/
def execNkill (h : Hdr) (b : VBody) (s : State) : Host.Outcome State Fault Refusal :=
  issue (.nkill h b) s fun x s => nearSelect x s (x.scal b.a) none fun m => .nkill m (x.scal b.c)

/-- `gred` (R323): the lanes are checked at issue; the words are read when the reply is due. -/
def execGred (h : Hdr) (b : MBody) (s : State) : Host.Outcome State Fault Refusal :=
  issue (.gred h b) s fun x s =>
    match checkLanes s x.threads (fun t s => x.globalLane (x.ea b t) 4 .nearRead true s) (x.ea b) with
    | (.error f, _) => .trap f
    | (.ok lanes, s) =>
      if x.act = 0 then .done s
      else if !x.gatherRoom then .stall s
      else
        let f := s.fresh
        let l : Load := {
          core := x.core, slot := x.slot, entry := x.entry, vf := x.vf, ctx := x.gctx, pc := x.pc, lanes := lanes.map memLane,
          dst := b.d.toNat, size := 2, sgn := false, uni := false, hint := 2, acq := 0, gred := some (h.fs.toNat, b.c.toNat, x.word),
          vas := lanes.map fun y => (x.ea b y.1).toNat, floor := x.w.floor, got := [], far := [] }
        .done (({ f.2 with loads := f.2.loads.put f.1 l } : State).modWarp x.core x.slot fun w => w.pushOp 2 f.1)

end Sys2Proof.Machine
end

