-- ==== Sys2Proof/Machine/Stove.lean ====
section
/-! DEFINITION. Stoves (15 R332, R335 to R341; 25 R430, R431): the issue of their two threads, rows and bursts under the
channel frame, and the twenty-four stove instructions. -/

namespace Sys2Proof.Machine

/-! ## Rows and time (R339, R430) -/

/-- The DRAM clock at which a row of a bank of a stove's channel can be activated: a row open there closes first. -/
def State.activateAt (s : State) (k bank : Nat) : Nat :=
  (List.range 16).foldl (fun t sl =>
    let ix := sliceBank (k / 32) (k % 32) sl bank
    max t (match s.openRows.find? ix with
      | some o => max s.dclk (o.at_ + 80) + 34
      | none => ((s.prechargeAt.find? ix).map (· + 34)).getD 0)) s.dclk

/-- Open a row for a stove at a DRAM clock, in all sixteen slices. -/
def State.holdRow (s : State) (k bank row at_ : Nat) : State :=
  s.each (List.range 16) fun s sl =>
    let ix := sliceBank (k / 32) (k % 32) sl bank
    let s : State := match s.openRows.find? ix with
      | some o => { s with prechargeAt := s.prechargeAt.put ix (max s.dclk (o.at_ + 80)) }
      | none => s
    { s with openRows := s.openRows.put ix ⟨row, at_, true⟩ }

/-- Suspend a stove's address thread (R339): its rows are precharged and recorded. -/
def State.suspendStove (s : State) (k : Nat) : State :=
  let x := s.stove k
  (s.closeRows k (x.rows.map (·.1))).setStove k { x with st := .suspended }

/-- A stove fault (R332): the error word of the launch's counter, the log; both threads stop. -/
def State.stoveFault (s : State) (k : Nat) (pc cause : Nat) (pa : Option Nat) : State :=
  let x := s.stove k
  let s := s.closeRows k (x.rows.map (·.1))
  let s := s.setStove k { x.discard with st := .faulted }
  let s := s.ewErrorOn x.ctx x.vf (namedCounter x.counter) cause (seenBit cause)
  match pa with
  | some pa => s.logPhys x.vf cause pa none 5 k (BitVec.ofNat 64 pc)
  | none => s.log x.vf cause 0 false 5 k (BitVec.ofNat 64 pc)

/-! ## Issue -/

/-- What a stove instruction comes to. -/
inductive StoveEff where
  | fault (cause : Nat) (pa : Option Nat)
  | done (s : State) (v : Stove)
  /-- continue at the word IMM15 away -/
  | branch (v : Stove) (imm : BitVec 15)
  | stall
  /-- stall, with what the memory system notes of it -/
  | hold (s : State)
  | suspend
  /-- complete, then suspend directly after (`anext`) -/
  | doneSuspend (s : State) (v : Stove)

/-- A thread that may issue. -/
def Stove.ready (x : Stove) (arith : Bool) : Bool :=
  if arith then (x.st == .running || x.st == .suspended) && !x.xend else x.st == .running && !x.aend

def Stove.pc (x : Stove) (arith : Bool) : Nat := if arith then x.xpc else x.apc
def Stove.setPc (x : Stove) (arith : Bool) (n : Nat) : Stove := if arith then { x with xpc := n } else { x with apc := n }
/-- One more than the clock at which the thread last issued. -/
def Stove.last (x : Stove) (arith : Bool) : Nat := if arith then x.lastX else x.lastA
/-- The thread has issued at a clock. -/
def Stove.issuedAt (x : Stove) (arith : Bool) (n : Nat) : Stove := if arith then { x with lastX := n + 1 } else { x with lastA := n + 1 }
def Stove.code (x : Stove) (arith : Bool) : List Word := if arith then x.xcode else x.acode

/-- The word index a branch goes to, if it is one (R336). -/
def Stove.target (x : Stove) (arith : Bool) (imm : BitVec 15) : Option Nat :=
  let t : Int := (x.pc arith : Int) + imm.toInt
  if 0 ≤ t && t < (x.code arith).length then some t.toNat else none

/-- Carry out what a stove instruction came to. -/
def stoveFinish (k : Nat) (arith : Bool) (s : State) (x : Stove) (r : StoveEff) : State :=
  let pc := x.pc arith
  match r with
  | .fault c pa => s.stoveFault k pc c pa
  | .done s v => s.setStove k ((v.issuedAt arith s.dclk).setPc arith (pc + 1))
  | .branch v imm => match x.target arith imm with
    | some t => s.setStove k ((v.issuedAt arith s.dclk).setPc arith t)
    | none => s.stoveFault k pc causeBadTarget none
  | .stall => s
  | .hold s => s
  | .suspend => s.suspendStove k
  | .doneSuspend s v => (s.setStove k ((v.issuedAt arith s.dclk).setPc arith (pc + 1))).suspendStove k

/-- The issue of a stove instruction by the thread in `State.cur`; an operation of the other thread is ILLEGAL_OPC
(R336). A thread issues one instruction in each DRAM clock (R430), of which a clock of the VCLOCK has two: the effect is that of the
clock `n` of its issue. -/
def stoveIssue (isArith : Bool) (s : State) (eff : Nat → State → Stove → StoveEff) : Host.Outcome State Fault Refusal :=
  match s.cur with
  | .stove stack ch arith =>
    let k := stack * 32 + ch
    let x := s.stove k
    let n := max s.dclk (x.last arith)
    let s : State := { s with cur := .none }
    if !x.ready arith then .fault .noIssuer
    else if s.dclk + 1 < n then .next s
    else if arith != isArith then .next (s.stoveFault k (x.pc arith) causeIllegal none)
    else
      let at_ : State := { s with dclk := n }
      .next { stoveFinish k arith at_ x (eff k at_ x) with dclk := s.dclk }
  | _ => .fault .noIssuer

/-- Registers. -/
def Stove.setAg (x : Stove) (i : BitVec 4) (v : Word) : Stove := { x with ag := x.ag.set 0 i.toNat v }
def Stove.xgr (x : Stove) (i : BitVec 4) : Word := x.xg.get 0 i.toNat
def Stove.setXg (x : Stove) (i : BitVec 4) (v : Word) : Stove := { x with xg := x.xg.set 0 i.toNat v }
def Stove.btr (x : Stove) (i : BitVec 4) : BurstWords := x.bt.get BurstWords.zero i.toNat
def Stove.setBt (x : Stove) (i : BitVec 4) (v : BurstWords) : Stove := { x with bt := x.bt.set BurstWords.zero i.toNat v }

/-- A decrementing loop's effect and a conditional branch's condition (Table 15.8). -/
def stoveCond (cc : Nat) (a b : Word) : Bool :=
  match cc with | 0 => a == b | 1 => a != b | 2 => decide (a.toNat < b.toNat) | 3 => decide (b.toNat ≤ a.toNat) | _ => true

/-- A branch: its target must lie in the code whether or not it is taken. -/
def stoveBranch (x : Stove) (arith : Bool) (s : State) (v : Stove) (taken : Bool) (imm : BitVec 15) : StoveEff :=
  if (x.target arith imm).isNone then .fault causeBadTarget none
  else if taken then .branch v imm else .done s v

/-! ## The address thread (R337) -/

/-- A row that an `aopen` or `awr` opens: its activate must fall no later than clock 18 of an ordinary interval. -/
def openStoveRow (k : Nat) (s : State) (x : Stove) (bank row : Nat) : Option (State × Stove) :=
  let t := s.activateAt k bank
  if ((s.hearth (k / 32)).ordinary t).any fun o => decide (18 < o) then none
  else some (s.holdRow k bank row t, { x with rows := x.rows.put bank row })

def execAopen (a b : BitVec 4) (s : State) : Host.Outcome State Fault Refusal :=
  stoveIssue false s fun k s x =>
    let bank := (x.agr a).toNat % 16
    let row := (x.agr b).toNat % 2 ^ 16
    let pa := stovePa k bank row 0
    if !s.rowOk x.vf pa false true then .fault causeRowDenied (some pa)
    else if x.rows.find? bank = some row then .done s x
    else match openStoveRow k s x bank row with
      | none => .suspend
      | some (s, v) => .done s v

/-- An indexed-reduce command waits for a burst on a channel. -/
def State.nredWants (s : State) (k : Nat) : Bool := s.hearths.any fun h => (h.2.nred.bind (·.want)) == some k

/-- The address thread waits for a burst on its channel: at an `acol` with room for its data, or at an `awr`. -/
def Stove.wantsBurst (x : Stove) : Bool :=
  x.st == .running && !x.aend && match (x.acode.getD x.apc 0).toNat / 2 ^ 27 with
    | 1 => decide (x.dataQ.length < 16)
    | 2 => x.buffer.isSome
    | _ => false

/-- It is the turn of the stove, or of the indexed-reduce command, on a channel in a compute interval: where both wait they alternate,
the stove first (R367). -/
def State.nearTurn (s : State) (k : Nat) (stove : Bool) : Bool :=
  let last := (s.hearth (k / 32)).lastNear.find? (k % 32)
  if stove then !(s.hearth (k / 32)).compute || !(s.nredWants k && last == some true)
  else !((s.stove k).wantsBurst && last != some true)

/-- A party has had a burst of a channel at a DRAM clock. -/
def State.hadBurst (s : State) (k vf t : Nat) (stove : Bool) : State :=
  let s : State := { s with burstAt := s.burstAt.put k t }
  let s := if (s.hearth (k / 32)).compute then s.modHearth (k / 32) fun h => { h with lastNear := h.lastNear.put (k % 32) stove } else s
  s.countPerf vf 10

/-- The hearth does not accept the sixteen words of a stove's burst yet: another party's turn comes first (R367), they have to wait,
or the partition's bucket is empty (R132). -/
def State.stoveHeld (s : State) (k : Nat) (x : Stove) (pa : Nat) : Option State :=
  let b := bucketIx x.vf 2 (k / 32)
  if !s.nearTurn k true || s.lineHeld k pa then some s
  else if x.vf != 0 && !s.bucketOpen b (stoveReq k) then some (s.holdReq b (stoveReq k))
  else none

/-- A stove takes the clock of a burst. -/
def takeBurst (k : Nat) (s : State) (x : Stove) (bank : Nat) : State × Stove :=
  let t := s.beatAt k bank
  let s := match s.through x.vf (stoveReq k) [(2, k / 32, 64)] with
    | .error s => s
    | .ok s => s
  (s.hadBurst k x.vf t true,
    { x with bursts := x.bursts + 1, ordBursts := if ((s.hearth (k / 32)).ordinary t).isSome then x.ordBursts + 1 else x.ordBursts })

/-- The sixteen words of a line as near memory reads them, corrections counted. -/
def State.readLine (s : State) (vf pa : Nat) : BurstWords × State :=
  let r := (List.range 16).foldl (fun (acc : List (Word × Bool) × State) i =>
    let v := acc.2.hearthRead vf (pa / 4 + i)
    (acc.1 ++ [(v.1, v.2.1)], v.2.2)) ([], s)
  (⟨r.1.map (·.1), r.1.map (·.2)⟩, r.2)

def execAcol (a b : BitVec 4) (imm : BitVec 15) (s : State) : Host.Outcome State Fault Refusal :=
  stoveIssue false s fun k s x =>
    let bank := (x.agr a).toNat % 16
    match x.rows.find? bank with
    | none => .fault causeReserved none
    | some row =>
      let pa := stovePa k bank row ((x.agr b + imm.signExtend 32).toNat % 32)
      if 16 ≤ x.dataQ.length then .stall
      else if s.burstLimit k x bank then .suspend
      else if s.isHostBias pa then .fault causePagePerm (some pa)
      else if !s.rowOk x.vf pa false true then .fault causeRowDenied (some pa)
      else match s.stoveHeld k x pa with
        | some s => .hold s
        | none =>
          let y := takeBurst k s x bank
          let r := y.1.readLine x.vf pa
          .done r.2 { y.2 with dataQ := y.2.dataQ ++ [(s.beatAt k bank + 34, r.1)] }

def execAwr (s : State) : Host.Outcome State Fault Refusal :=
  stoveIssue false s fun k s x =>
    match x.buffer with
    | none => .fault causeReserved none
    | some (tag, w) =>
      let bank := tagBank tag
      let row := tagRow tag
      let pa := stovePa k bank row (tagColumn tag)
      if bitsOf tag.toNat 31 25 ≠ 0 then .fault causeReserved none
      else if w.poison.any id then .fault causeUncorr (some pa)
      else
        let opened := if x.rows.find? bank = some row then some (s, x) else openStoveRow k s x bank row
        match opened.filter fun y => !y.1.burstLimit k y.2 bank with
        | none => .suspend
        | some o =>
          match (if s.isHostBias pa then some causePagePerm else s.nearWriteCause x.vf (pa / 4)), s.stoveHeld k x pa with
          | some c, _ => .fault c (some pa)
          | none, some s => .hold s
          | none, none =>
            let y := takeBurst k o.1 o.2 bank
            .done (y.1.each (w.words.zip (List.range 16)) fun s z => s.nearWrite (pa / 4 + z.2) z.1) { y.2 with buffer := none }

def execAnext (s : State) : Host.Outcome State Fault Refusal :=
  stoveIssue false s fun k s x =>
    let young := x.rows.any fun y => match s.openRows.find? (sliceBank (k / 32) (k % 32) 0 y.1) with
      | some o => decide (s.dclk < o.at_ + 80)
      | none => false
    if young then .stall
    else
      let s := s.closeRows k (x.rows.map (·.1))
      let v := { x with rows := [] }
      if (s.hearth (k / 32)).compute then .done s v else .doneSuspend s v

/-- `aset` and `xset`: Trunc(Sext(IMM15) << 4s, 32). -/
def stoveImm (imm : BitVec 15) (sh : Nat) : Word := imm.signExtend 32 <<< (4 * sh)

def execAset (d a : BitVec 4) (imm : BitVec 15) (s : State) : Host.Outcome State Fault Refusal :=
  stoveIssue false s fun _ s x => if 7 < a.toNat then .fault causeReserved none else .done s (x.setAg d (stoveImm imm a.toNat))

def execAadd (d a b : BitVec 4) (imm : BitVec 15) (s : State) : Host.Outcome State Fault Refusal :=
  stoveIssue false s fun _ s x => .done s (x.setAg d (x.agr a + x.agr b + imm.signExtend 32))

def execAloop (d : BitVec 4) (imm : BitVec 15) (s : State) : Host.Outcome State Fault Refusal :=
  stoveIssue false s fun _ s x => stoveBranch x false s (x.setAg d (x.agr d - 1)) (x.agr d - 1 != 0) imm

def execAbr (d a b : BitVec 4) (imm : BitVec 15) (s : State) : Host.Outcome State Fault Refusal :=
  stoveIssue false s fun _ s x =>
    if 4 < d.toNat then .fault causeReserved none
    else stoveBranch x false s x (stoveCond d.toNat (x.agr a) (x.agr b)) imm

def execAwq (d : BitVec 4) (s : State) : Host.Outcome State Fault Refusal :=
  stoveIssue false s fun _ s x =>
    if x.buffer.isSome then .fault causeReserved none
    else match x.writeQ with
      | [] => .stall
      | y :: l => if s.dclk ≤ y.1 then .stall else .done s ({ x with writeQ := l, buffer := some y.2 }.setAg d y.2.1)

def execAend (s : State) : Host.Outcome State Fault Refusal :=
  stoveIssue false s fun k s x => .done (s.closeRows k (x.rows.map (·.1))) { x with rows := [], aend := true }

/-! ## The arithmetic thread (R338) -/

/-- A register field names one of bt0 to bt3. -/
def btOk (i : BitVec 4) : Bool := decide (i.toNat < 4)

def execXpop (d : BitVec 4) (s : State) : Host.Outcome State Fault Refusal :=
  stoveIssue true s fun _ s x =>
    if !btOk d then .fault causeReserved none
    else match x.dataQ with
      | [] => .stall
      | y :: l => if s.dclk < y.1 then .stall else .done s ({ x with dataQ := l }.setBt d y.2)

def execXpush (a b : BitVec 4) (s : State) : Host.Outcome State Fault Refusal :=
  stoveIssue true s fun _ s x =>
    if !btOk a then .fault causeReserved none
    else if 16 ≤ x.writeQ.length then .stall
    else .done s { x with writeQ := x.writeQ ++ [(s.dclk, x.xgr b, x.btr a)] }

/-- An operation on whole bursts: field checks, poison of the registers it reads, then word by word. -/
def stoveBurst (x : Stove) (s : State) (d : BitVec 4) (reads : List (BitVec 4)) (f : Nat → Word) : StoveEff :=
  if !btOk d || reads.any fun r => !btOk r then .fault causeReserved none
  else if reads.any fun r => (x.btr r).poison.any id then .fault causeUncorr none
  else .done s (x.setBt d ⟨(List.range 16).map f, List.replicate 16 false⟩)

/-- Word `j` of a burst register. -/
def Stove.w (x : Stove) (r : BitVec 4) (j : Nat) : Word := (x.btr r).words.getD j 0

/-- Products, sums and products with a sum of FP32 words, rounded once (R338). -/
def mulF32 (a b : Word) : Word :=
  let x := f32.value a.toNat
  let y := f32.value b.toNat
  BitVec.ofNat 32 (arith f32 (ieee 0) [x, y] (fvMul x y)).1
def fmaF32 (a b c : Word) : Word := BitVec.ofNat 32 (fmaOf f32 (ieee 0) (f32.value a.toNat) (f32.value b.toNat) (f32.value c.toNat)).1
def maxF32 (a b : Word) : Word :=
  BitVec.ofNat 32 (minMax f32 true a.toNat b.toNat (f32.value a.toNat) (f32.value b.toNat)).1

def execXadd (d a b : BitVec 4) (s : State) : Host.Outcome State Fault Refusal :=
  stoveIssue true s fun _ s x => stoveBurst x s d [a, b] fun j => (addF32 0 (x.w a j) (x.w b j)).1

def execXmul (d a b : BitVec 4) (s : State) : Host.Outcome State Fault Refusal :=
  stoveIssue true s fun _ s x => stoveBurst x s d [a, b] fun j => mulF32 (x.w a j) (x.w b j)

def execXfma (d a b : BitVec 4) (s : State) : Host.Outcome State Fault Refusal :=
  stoveIssue true s fun _ s x => stoveBurst x s d [a, d] fun j => fmaF32 (x.w a j) (x.xgr b) (x.w d j)

def execXmax (d a b : BitVec 4) (s : State) : Host.Outcome State Fault Refusal :=
  stoveIssue true s fun _ s x => stoveBurst x s d [a, b] fun j => maxF32 (x.w a j) (x.w b j)

def execXscale (d a b : BitVec 4) (s : State) : Host.Outcome State Fault Refusal :=
  stoveIssue true s fun _ s x => stoveBurst x s d [a] fun j => mulF32 (x.w a j) (x.xgr b)

/-- `xcvt` of a word (Table 15.9). -/
def stoveCvt (mode : Nat) (w : Word) : Word :=
  let half := w.toNat / 2 ^ (16 * (mode % 2)) % 2 ^ 16
  match mode with
  | 0 => BitVec.ofNat 32 (convert f32 0 false (Fv.ofInt w.toInt)).1
  | 1 => BitVec.ofInt 32 (toIntRange 0 (f32.value w.toNat) (-(2 ^ 31)) (2 ^ 31 - 1)).1
  | 2 | 3 => BitVec.ofNat 32 (convert f32 0 false (f16.value half)).1
  | _ => BitVec.ofNat 32 (convert f32 0 false (bf16.value half)).1

def execXcvt (d a : BitVec 4) (imm : BitVec 15) (s : State) : Host.Outcome State Fault Refusal :=
  stoveIssue true s fun _ s x =>
    if 5 < imm.toNat then .fault causeReserved none else stoveBurst x s d [a] fun j => stoveCvt imm.toNat (x.w a j)

def execXset (d a : BitVec 4) (imm : BitVec 15) (s : State) : Host.Outcome State Fault Refusal :=
  stoveIssue true s fun _ s x => if 7 < a.toNat then .fault causeReserved none else .done s (x.setXg d (stoveImm imm a.toNat))

def execXsetAdd (d a : BitVec 4) (imm : BitVec 15) (s : State) : Host.Outcome State Fault Refusal :=
  stoveIssue true s fun _ s x => .done s (x.setXg d (x.xgr a + imm.signExtend 32))

def execXsetB (d a : BitVec 4) (s : State) : Host.Outcome State Fault Refusal :=
  stoveIssue true s fun _ s x =>
    if !btOk d then .fault causeReserved none
    else .done s (x.setBt d ⟨List.replicate 16 (x.xgr a), List.replicate 16 false⟩)

def execXloop (d : BitVec 4) (imm : BitVec 15) (s : State) : Host.Outcome State Fault Refusal :=
  stoveIssue true s fun _ s x => stoveBranch x true s (x.setXg d (x.xgr d - 1)) (x.xgr d - 1 != 0) imm

def execXbr (d a b : BitVec 4) (imm : BitVec 15) (s : State) : Host.Outcome State Fault Refusal :=
  stoveIssue true s fun _ s x =>
    if 4 < d.toNat then .fault causeReserved none
    else stoveBranch x true s x (stoveCond d.toNat (x.xgr a) (x.xgr b)) imm

def execXend (s : State) : Host.Outcome State Fault Refusal :=
  stoveIssue true s fun _ s x => .done s { x with xend := true }

end Sys2Proof.Machine
end

