-- ==== Sys2Proof/Machine/NearEvents.lean ====
section
/-! DEFINITION. The events of near memory: gather-reduce replies (15 R323, R324), indexed-reduce commands (R325 to R330),
launches and ends of stoves (R331, R332), their inspection and kill (R333, R334), and the channel frame (R339; 17 R366,
R367). -/

namespace Sys2Proof.Machine

/-- One part of a GATHER operation is complete; with the last the operation completes (R123, R325). -/
def State.gatherPart (s : State) (op : Nat) : State :=
  match s.gathers.find? op with
  | none => s
  | some g =>
    if 1 < g.left then { s with gathers := s.gathers.put op { g with left := g.left - 1 } }
    else ({ s with gathers := s.gathers.erase op } : State).opDone g.core g.slot 2 op

/-! ## `gred` (R323, R324) -/

/-- Word of a lane of a gather-reduce. -/
def LoadLane.wa (y : LoadLane) : Nat := (y.parts.headD (0, 0)).1 / 4

/-- Why the hearth may not read the word of a lane: its page has become host-bias (R321), or the row check (R322). -/
def State.gredDenied (s : State) (l : Load) (y : LoadLane) : Option Nat :=
  if y.fixed.isSome then none else if s.isHostBias (4 * y.wa) then some causePagePerm else s.nearReadCause l.vf y.wa

/-- Read the words whose channel is in its ordinary interval and whose page is not being flipped, as far as their buckets let them pass:
lanes of one address take it together, and a poisoned word leaves none (R323, R367, R98, R132). -/
def State.gredRead (s : State) (id : Nat) (l : Load) : Load × State :=
  ((l.lanes.filter fun y => y.fixed.isNone).map LoadLane.wa).dedup.foldl (fun acc w =>
    let s := acc.2
    let l := acc.1
    if (s.hearth (stackOfPa (4 * w))).compute || s.wordQueued w || s.flipWaits (4 * w) id || s.isHostBias (4 * w) || (s.nearReadCause l.vf w).isSome then acc
    else match s.through l.vf id [(2, stackOfPa (4 * w), 4)] with
      | .error s => (l, s)
      | .ok s =>
        let v := s.hearthRead l.vf w
        let b := if v.2.1 then [] else toBytes 4 v.1.toNat
        ({ l with lanes := l.lanes.map fun y => if y.fixed.isNone && y.wa == w then { y with fixed := some b } else y }, v.2.2)) (l, s)

/-- Why a lane that needs no reading any more fails. -/
def State.gredCause (s : State) (l : Load) (y : LoadLane) : Option Nat :=
  if y.fixed == some [] then some causeUncorr else s.gredDenied l y

/-- A lane as the adder sees it: group, word address, word. -/
def LoadLane.word (y : LoadLane) : Nat × Nat × Word :=
  let pa := (y.parts.headD (0, 0)).1
  ((stackOfPa pa * 32 + chanOfPa pa) * 16 + bankOfPa pa, pa / 4, BitVec.ofNat 32 (ofBytes (y.fixed.getD [])))

/-- m × x, rounded for `f32`. -/
def timesWord (i32 : Bool) (m : Nat) (x : Word) : Word :=
  if m = 1 then x else if i32 then BitVec.ofNat 32 (m * x.toNat)
  else BitVec.ofNat 32 (arith f32 (ieee 0) [f32.value x.toNat] (fvMul (Fv.ofInt m) (f32.value x.toNat))).1

/-- The partial of one group: equal addresses collapse into one term at the lowest lane. Addresses are compared as physical words
(assumption 109). -/
def gredPartial (i32 : Bool) (l : List (Nat × Nat × Word)) : Option Word :=
  let was := (l.map (·.2.1)).foldl (fun (acc : List Nat) w => if acc.contains w then acc else acc ++ [w]) []
  was.foldl (fun acc w =>
    let same := l.filter fun y => y.2.1 == w
    let term := timesWord i32 same.length ((same.headD (0, 0, 0)).2.2)
    match acc with
    | none => some term
    | some p => some (if i32 then p + term else (addF32 0 p term).1)) none

/-- The partials in ascending order of (stack, channel, bank). -/
def gredPartials (i32 : Bool) (l : List (Nat × Nat × Word)) : List Word :=
  let keys := (l.map (·.1)).foldl (fun (t : Tab Unit) k => t.put k ()) []
  keys.filterMap fun k => gredPartial i32 (l.filter fun y => y.1 == k.1)

/-- The canonical NaN for any NaN (R137). -/
def canonF32 (w : Word) : Word := if (f32.value w.toNat).isNan then BitVec.ofNat 32 f32.nanCode else w

/-- `GRED_REPLY`: words are read as their channels let it; once all are, the partials are written back, or the instruction traps with
the lanes concerned (R323, R324, assumption 103). -/
def execGredReply (id : Nat) (s : State) : Host.Outcome State Fault Refusal :=
  match s.loads.find? id with
  | none => .next s
  | some l0 =>
    match l0.gred with
    | none => .next s
    | some (fs, c, word) =>
      let r := s.gredRead id l0
      let l := r.1
      let now := ((l.lanes.zip l0.lanes).filter fun y => y.1.fixed.isSome && y.2.fixed.isNone).map fun y => y.1.wa
      let s : State := { r.2.each (List.range (burstsOf (firsts now))) (fun s _ => s.countPerf l.vf 10) with loads := r.2.loads.put id l }
      if l.lanes.any fun y => y.fixed.isNone && ((s.hearth (stackOfPa (4 * y.wa))).compute || s.flipWaits (4 * y.wa) id || (s.gredDenied l y).isNone) then .next s
      else
        let done (s : State) : State := ({ s with loads := s.loads.erase id } : State).opDone l.core l.slot 2 id
        let bad := l.lanes.filterMap fun y => (s.gredCause l y).map fun c => (y, c)
        match s.warp? l.core l.slot, (bad.map (·.2)).min? with
        | none, _ => .next { s with loads := s.loads.erase id }
        | some w, some cause =>
          let at_ := bad.filter fun y => y.2 == cause
          let first := ((at_.head?.map fun y => y.1).getD default)
          let f : FaultInfo := ⟨cause, maskOf (at_.map fun y => y.1.thread), l.vaOf first, some ((first.parts.headD (0, 0)).1)⟩
          let s := done s
          .next (match (lowestOf (f.mask &&& w.live)).bind w.entryOf with
            | some e => s.takeTrap l.core l.slot e l.pc word false true f
            | none => s.logFault l.vf l.core f l.pc)
        | some w, none =>
          let ls := l.lanes.map LoadLane.word
          let ps := gredPartials (fs == 1) ls
          let ps := if fs = 1 then ps else ps.map canonF32
          let ws := (ps.zip (l.lanes.map (·.thread))).filter fun y => !w.exited.getLsbD y.2
          let from_ := ((ls.map (·.1)).dedup.filterMap fun k => (ls.find? fun y => y.1 == k).map (·.2.1)).flatMap fun w => bytesAt (4 * w) 4
          match s.through l.vf id (s.traffic l.vf l.core false from_) with
          | .error s => .next s
          | .ok s => .next ((done s).writeBack l.core l.slot
              (ws.map (fun y => (⟨.v l.dst y.2, y.1.setWidth 64⟩ : RegWrite)) ++
                (if l.lanes.isEmpty then [] else [⟨.s (c - 0xC0), BitVec.ofNat 64 ps.length⟩])))

/-! ## Queue heads (R325, R365) -/

/-- The request a hearth would take now: the oldest of a live context, while no command is in progress. -/
def State.nearHead (s : State) (stack : Nat) : Option NearCmd :=
  if (s.hearth stack).nred.isSome then none else (s.nearQueue stack).head?

/-- Remove a request from its queue. -/
def State.takeNear (s : State) (stack : Nat) (c : NearCmd) : State :=
  s.modHearth stack fun h => { h with queue := h.queue.erase c }

/-- Log an error of a hearth (R329, R331): with the physical address where the failure lies behind the translation. -/
def State.logNear (s : State) (c : NearCmd) (stack cause : Nat) (va : DWord) : State :=
  if cause = causeRowDenied || cause = causeUncorr || cause = causeElided then
    match s.resolveDie (stack / 2) c.ctx va .nearRead with
    | .ok x => s.logPhys c.vf cause x.pa (some va) 4 stack 0
    | .error _ => s.log c.vf cause va true 4 stack 0
  else s.log c.vf cause va (va != 0) 4 stack 0

/-! ## Indexed reduce (R325 to R330) -/

/-- A command's fields (Table 15.3). -/
structure NredCmd where
  lrec : DWord
  idx : DWord
  bags : DWord
  out : DWord
  counter : Option DWord
  nbags : Nat
  op : Nat
  ok : Bool

/-- Read a command from its bytes and offset base. -/
def nredCmd (b : List Byte) (base : DWord) : NredCmd :=
  let a (o : Nat) : DWord := base + BitVec.ofNat 64 (fieldOf b o 5)
  { lrec := a 0, idx := a 5, bags := a 0x0A, out := a 0x0F
    counter := if fieldOf b 0x14 5 = 0xFFFFFFFFFF then none else some (a 0x14)
    nbags := fieldOf b 0x19 3
    op := fieldOf b 0x1C 1
    ok := (a 0).toNat % 64 == 0 && (a 5).toNat % 4 == 0 && (a 0x0A).toNat % 4 == 0 && (a 0x0F).toNat % 4 == 0 &&
      fieldOf b 0x19 3 != 0 && decide (fieldOf b 0x1C 1 ≤ 2) && fieldOf b 0x1E 2 == 0 }

/-- The counter the hearth may write: a misaligned one is only logged. -/
def NredCmd.cnt (c : NredCmd) : Option DWord := c.counter.filter fun a => a.toNat % 16 == 0
def NredCmd.badCnt (c : NredCmd) : Bool := match c.counter with | some a => a.toNat % 16 != 0 | none => false

/-- A table layout record's fields (Table 15.4), by segment. -/
def segFmt (r : List Byte) (g : Nat) : Nat := fieldOf r 6 1 / 4 ^ g % 4
def rowLen (r : List Byte) : Nat := fieldOf r 4 2
def tableRows (r : List Byte) : Nat := fieldOf r 0 4
/-- First row of a segment. -/
def segFirst (r : List Byte) (g : Nat) : Nat := if g = 0 then 0 else fieldOf r (4 + 4 * g) 4
def segBase (r : List Byte) (g : Nat) : Nat := fieldOf r (0x18 + 8 * g) 8
def segPitch (r : List Byte) (g : Nat) : Nat := fieldOf r (0x38 + 4 * g) 4
/-- Bytes of a row of a format. -/
def rowBytes (f n : Nat) : Nat := match f with | 0 => 4 * n | 1 => 2 * n | 2 => 4 + n | _ => 17 * n / 32
/-- The segment of a row. -/
def segOf (r : List Byte) (i : Nat) : Nat := if segFirst r 3 ≤ i then 3 else if segFirst r 2 ≤ i then 2 else if segFirst r 1 ≤ i then 1 else 0
/-- Address of a row. -/
def rowAddr (r : List Byte) (i : Nat) : DWord :=
  BitVec.ofNat 64 (segBase r (segOf r i) + (i - segFirst r (segOf r i)) * segPitch r (segOf r i))

/-- The limits of Table 15.4. -/
def layoutOk (r : List Byte) : Bool :=
  let gs := List.range 4
  decide (1 ≤ tableRows r) && decide (1 ≤ rowLen r) && decide (rowLen r ≤ 4096) &&
    (gs.all fun g => segFmt r g != 3 || rowLen r % 32 == 0) && fieldOf r 7 1 == 0 &&
    decide (segFirst r 1 ≤ segFirst r 2) && decide (segFirst r 2 ≤ segFirst r 3) && decide (segFirst r 3 ≤ tableRows r) &&
    decide (fieldOf r 0x14 4 ≤ tableRows r) &&
    (gs.all fun g => segBase r g % 4 == 0 && segPitch r g % 4 == 0 && decide (rowBytes (segFmt r g) (rowLen r) ≤ segPitch r g)) &&
    ((r.drop 0x48).all fun b => b == 0)

/-- Stop a command with an error: its error word, then the log. -/
def State.nredError (s : State) (stack : Nat) (n : Nred) (c : NredCmd) (cause : Nat) (va : DWord) : State :=
  let s := s.ewErrorOn n.cmd.ctx n.cmd.vf c.cnt cause (seenBit cause)
  (s.logNear n.cmd stack cause va).modHearth stack fun h => { h with nred := some { n with stopped := true, want := none } }

/-- Decode(row)[e] of R328 as an FP32 code. -/
def rowElem (f : Nat) (d : List Byte) (e : Nat) : Word :=
  match f with
  | 0 => BitVec.ofNat 32 (fieldOf d (4 * e) 4)
  | 1 => BitVec.ofNat 32 (convert f32 0 false (f16.value (fieldOf d (2 * e) 2))).1
  | 2 =>
    let x := Fv.ofInt (sextNat (fieldOf d (4 + e) 1) 8)
    let y := f32.value (fieldOf d 0 4)
    BitVec.ofNat 32 (arith f32 (ieee 0) [x, y] (fvMul x y)).1
  | _ =>
    let o := 17 * (e / 32)
    let code := fieldOf d (o + 1 + e % 32 / 2) 1
    q4Decode (fieldOf d o 1) (if e % 2 = 0 then code % 16 else code / 16)

/-- a ÷ n rounded once. -/
def meanF32 (a : Word) (n : Nat) : Word :=
  match f32.value a.toNat with
  | .fin neg m e =>
    if m = 0 then a
    else
      let k := 64 + Nat.log2 n
      let q := m * 2 ^ k / n
      BitVec.ofNat 32 (f32.round (ieee 0) neg (2 * q + if m * 2 ^ k % n = 0 then 0 else 1) (e - k - 1)).1
  | .nan _ => BitVec.ofNat 32 f32.nanCode
  | .inf _ => a

/-- The rows of a bag after collapse inside 4,096-position windows: row and multiplicity, in order of first use; `lo` is
the position of the first index. -/
def collapse (lo : Nat) (idx : List Nat) : List (Nat × Nat) :=
  (idx.zip (List.range idx.length)).foldl (fun (acc : List (Nat × Nat × Nat)) y =>
    let w := (lo + y.2) / 4096
    if acc.any fun z => z.1 == w && z.2.1 == y.1 then
      acc.map fun z => if z.1 == w && z.2.1 == y.1 then (z.1, z.2.1, z.2.2 + 1) else z
    else acc ++ [(w, y.1, 1)]) [] |>.map fun z => z.2

/-- Combine a term into an accumulator. -/
def nredTerm (op m : Nat) (acc : Option Word) (x : Word) : Option Word :=
  let t := if op = 2 then x else timesWord false m x
  match acc with
  | none => some t
  | some a => some (if op = 2 then maxF32 a t else (addF32 0 a t).1)

/-- The physical word of element `e` of a bag's output as it is translated now, or the refusal (R427, R322). -/
def State.nredOut (s : State) (die ctx vf : Nat) (va : DWord) (e : Nat) : Except (Nat × DWord) Nat :=
  let a := va + BitVec.ofNat 64 (4 * e)
  match s.resolveDie die ctx a .nearWrite with
  | .error c => .error (c, a)
  | .ok x => match s.nearWriteCause vf (x.pa / 4) with
    | some c => .error (c, a)
    | none => .ok (x.pa / 4)

/-- The first refusal of a bag's outputs: none of a bag with one is written (R329). -/
def State.nredBad (s : State) (die ctx vf : Nat) (va : DWord) (n : Nat) : Option (Nat × DWord) :=
  (List.range n).findSome? fun e => match s.nredOut die ctx vf va e with
    | .error c => some c
    | .ok _ => none

/-- The elements that one burst writes: from the first on those of its line, each with its word. -/
def State.nredLine (s : State) (die ctx vf : Nat) (va : DWord) (l : List (Nat × Word)) : List (Nat × Word) :=
  let place (e : Nat) : Option Nat := (s.nredOut die ctx vf va e).toOption
  (l.takeWhile fun y => (place y.1).map (· / 16) == (l.head?.bind fun z => place z.1).map (· / 16) && (place y.1).isSome).filterMap fun y =>
    (place y.1).map fun w => (w, y.2)

/-- What a command does next. -/
inductive NredNext where
  | bad (cause : Nat) (va : DWord)
  /-- a burst that reads these words -/
  | read (was : List Nat)
  /-- bursts that write these elements of the bag's output -/
  | write (l : List (Nat × Word))

/-- The bytes of the distinct rows a bag uses, or what comes first; a row below REPLB must be replicated. -/
def State.nredRows (s : State) (die ctx vf : Nat) (have_ : Tab (Word × Bool)) (r : List Byte) (rows : List Nat) :
    Except NredNext (Tab (List Byte)) :=
  rows.foldl (fun acc i => match acc with
    | .error c => .error c
    | .ok t =>
      let a := rowAddr r i
      let n := rowBytes (segFmt r (segOf r i)) (rowLen r)
      let repl := (partsOf a.toNat n (n + 1)).all fun p => match s.walk die ctx (BitVec.ofNat 64 p.1) with
        | .ok tr => pteRepl tr.pte
        | .error _ => true
      if i < fieldOf r 0x14 4 && !repl then .error (.bad causeReserved a)
      else match s.nearView die ctx vf have_ a n with
        | .bad c a => .error (.bad c a)
        | .need _ was => .error (.read was)
        | .got b => .ok (t.put i b)) (.ok [])

/-- The values of a bag (R328). -/
def bagValues (r : List Byte) (op total : Nat) (use : List (Nat × Nat)) (rows : Tab (List Byte)) : List Word :=
  (List.range (rowLen r)).map fun e =>
    let acc := use.foldl (fun acc y =>
      nredTerm op y.2 acc (rowElem (segFmt r (segOf r y.1)) ((rows.find? y.1).getD []) e)) none
    match acc with
    | none => 0
    | some a => canonF32 (if op = 1 then meanF32 a total else a)

/-- Where a bag's output starts. -/
def NredCmd.outOf (c : NredCmd) (r : List Byte) (bag : Nat) : DWord := c.out + BitVec.ofNat 64 (4 * rowLen r * bag)

/-- The next burst of a command (R328): it reads the bag's bounds, its indices and its rows, each as the words that it has tell, then
writes the bag's output. The indices in front of the first one outside the table come first: an error of a row of theirs is the
command's. -/
def State.nredNext (s : State) (stack : Nat) (n : Nred) (c : NredCmd) : NredNext :=
  let die := stack / 2
  let q := n.cmd
  let r := n.layout
  let bva := c.bags + BitVec.ofNat 64 (4 * n.bag)
  match n.out with
  | some l => .write l
  | none => match s.nearView die q.ctx q.vf n.words bva 8 with
    | .bad c a => .bad c a
    | .need _ was => .read was
    | .got bo =>
      let lo := fieldOf bo 0 4
      let hi := fieldOf bo 4 4
      let iva := c.idx + BitVec.ofNat 64 (4 * lo)
      if hi < lo then .bad causeReserved bva
      else match s.nearView die q.ctx q.vf n.words iva (4 * (hi - lo)) with
        | .bad c a => .bad c a
        | .need _ was => .read was
        | .got ib =>
          let idx := (List.range (hi - lo)).map fun k => fieldOf ib (4 * k) 4
          let good := (idx.takeWhile fun i => decide (i < tableRows r)).length
          match s.nredRows die q.ctx q.vf n.words r (idx.take good).dedup with
          | .error e => e
          | .ok rows =>
            if good < idx.length then .bad causeReserved (iva + BitVec.ofNat 64 (4 * good))
            else match s.nredBad die q.ctx q.vf (c.outOf r n.bag) (rowLen r) with
              | some e => .bad e.1 e.2
              | none => .write ((List.range (rowLen r)).zip (bagValues r c.op (hi - lo) (collapse lo idx) rows))

/-- The channel of a command's next burst. -/
def State.nredWant (s : State) (stack : Nat) (n : Nred) (c : NredCmd) : Option Nat :=
  if n.stopped || c.nbags ≤ n.bag then none
  else match s.nredNext stack n c with
    | .bad _ _ => none
    | .read was => was.head?.map queueIx
    | .write l => ((s.nredLine (stack / 2) n.cmd.ctx n.cmd.vf (c.outOf n.layout n.bag) l).head?).map fun y => queueIx y.1

/-- A command goes on, waiting for its next burst. -/
def State.setNred (s : State) (stack : Nat) (n : Nred) (c : NredCmd) : State :=
  s.modHearth stack fun h => { h with nred := some { n with want := s.nredWant stack n c } }

/-- Words of a run as near memory reaches them. -/
def State.nearWords (s : State) (die ctx : Nat) (va : DWord) (n : Nat) : List Nat :=
  (partsOf va.toNat n (n + 1)).flatMap fun p => match s.resolveDie die ctx (BitVec.ofNat 64 p.1) .nearRead with
    | .ok x => (wordsOf x.pa p.2).map (·.1)
    | .error _ => []

/-- A command's words can be read now: each of their stacks is in its compute interval (R329, R339), no older request to one of
them is queued (R78), and their pages are not being flipped (R98). -/
def State.nearMay (s : State) (was : List Nat) : Bool :=
  was.all fun w => (s.hearth (stackOfPa (4 * w))).compute && !s.wordQueued w && !s.flipWaits (4 * w) s.nextId

/-- What words cost that the hearth of a die reads, or writes: at their stacks, and at the port of each other die (R16). -/
def nearTraffic (die : Nat) (write : Bool) (was : List Nat) : List (Nat × Nat × Nat) :=
  (List.range 8).map (fun k => (2, k, 4 * (was.filter fun w => stackOfPa (4 * w) == k).length)) ++
    ((List.range 4).filter (· ≠ die)).map fun r =>
      (1, if write then dieport die r else dieport r die, 4 * (was.filter fun w => homeDie (4 * w) == r).length)

/-- `NRED_ACCEPT` (R121, R325, R329): the command at the head of the queue is taken, and its layout record read. -/
def execNredAccept (stack : Nat) (s : State) : Host.Outcome State Fault Refusal :=
  match s.nearHead stack with
  | none => .next s
  | some q =>
    match q.req with
    | .nred bytes base =>
      let c := nredCmd bytes base
      let n : Nred := ⟨q, [], 0, false, [], none, none⟩
      let was := s.nearWords (stack / 2) q.ctx c.lrec 128
      if c.badCnt then .next ((s.takeNear stack q).nredError stack n c causeReserved (c.counter.getD 0))
      else if !c.ok then .next ((s.takeNear stack q).nredError stack n c causeReserved c.lrec)
      else if !s.nearMay was then .next s
      else match s.through q.vf q.op (nearTraffic (stack / 2) false was) with
        | .error s => .next s
        | .ok s => match (s.takeNear stack q).nearBytes (stack / 2) q.ctx q.vf c.lrec 128 with
          | (.error e, s) => .next (s.nredError stack n c e.1 e.2)
          | (.ok r, s) =>
            if !layoutOk r then .next (s.nredError stack n c causeReserved c.lrec)
            else .next (s.setNred stack { n with layout := r } c)
    | _ => .next s

/-- A burst of an indexed-reduce command of a die for words of one line, in the compute interval of their channel (R329, R367): the
state after it, or that in which it waits. -/
def State.nearBurst (s : State) (die vf id : Nat) (write : Bool) (was : List Nat) : Except State State :=
  let k := queueIx (was.headD 0)
  if !s.nearMay was || decide (s.dclk < ((s.burstAt.find? k).map (· + 2)).getD 0) || !s.nearTurn k false then .error s
  else match s.through vf id (nearTraffic die write was) with
    | .error s => .error s
    | .ok s => .ok (s.hadBurst k vf s.dclk false)

/-- `NRED_BAG`: the next burst of the bag in progress (R328, R329). A command stops between bursts when an ordinary interval starts
(R339, R367), and each of its words is translated and checked when it is read or written (R427, R322). -/
def execNredBag (stack : Nat) (s : State) : Host.Outcome State Fault Refusal :=
  match (s.hearth stack).nred with
  | none => .next s
  | some n =>
    match n.cmd.req with
    | .nred bytes base =>
      let c := nredCmd bytes base
      let q := n.cmd
      if n.stopped || c.nbags ≤ n.bag then .next s
      else match s.nredNext stack n c with
        | .bad cause va => .next (s.nredError stack n c cause va)
        | .read was => match s.nearBurst (stack / 2) q.vf q.op false was with
          | .error s => .next (s.setNred stack n c)
          | .ok s =>
            let r := s.nearTake q.vf n.words was
            .next (r.2.setNred stack { n with words := r.1 } c)
        | .write l =>
          let out := c.outOf n.layout n.bag
          let line := s.nredLine (stack / 2) q.ctx q.vf out l
          match line, s.nredOut (stack / 2) q.ctx q.vf out (l.headD (0, 0)).1 with
          | [], .error e => .next (s.nredError stack n c e.1 e.2)
          | _, _ => match s.nearBurst (stack / 2) q.vf q.op true (line.map (·.1)) with
            | .error s => .next (s.setNred stack { n with out := some l } c)
            | .ok s =>
              let s := s.each line fun s y => s.nearWrite y.1 y.2
              let rest := l.drop line.length
              .next (s.setNred stack (if rest.isEmpty then { n with bag := n.bag + 1, words := [], out := none } else { n with out := some rest }) c)
    | _ => .next s

/-- The release with which a hearth reports a request: that of its issuing warp at `.dev` (R329, R345); a warp of a saved team is named
as its other releases are. -/
def State.nearBy (s : State) (op : Nat) : RelInfo :=
  match s.gathers.find? op with
  | some g => if 512 ≤ g.core then releaseBy (g.core - 512) (32 * (g.team - 4096 + 1) + g.slot) g.team 5 else releaseBy g.core g.slot g.team 5
  | none => noParty

/-- `NRED_COMPLETE`: the counter gains 1 as a release at `.dev` (R329). -/
def execNredComplete (stack : Nat) (s : State) : Host.Outcome State Fault Refusal :=
  match (s.hearth stack).nred with
  | none => .next s
  | some n =>
    match n.cmd.req with
    | .nred bytes base =>
      let c := nredCmd bytes base
      if (!n.stopped && n.bag < c.nbags) || s.counterWaitsOn n.cmd.ctx n.cmd.vf c.cnt then .next s
      else .next (((s.counterAddOn n.cmd.ctx n.cmd.vf c.cnt 1 (s.nearBy n.cmd.op)).gatherPart n.cmd.op).modHearth stack fun h => { h with nred := none })
    | _ => .next s

/-! ## Stoves (R331 to R334) -/

/-- A launch descriptor is within the limits of Table 15.5 for its partition. -/
def State.launchOk (s : State) (vf stack : Nat) (d : List Byte) : Bool :=
  let chans := (List.range 32).filter fun c => (fieldOf d 0x18 4).testBit c
  fieldOf d 0 1 % 4 == 0 && fieldOf d 8 1 % 4 == 0 && decide (1 ≤ fieldOf d 0x10 2) && decide (fieldOf d 0x10 2 ≤ 256) &&
    decide (1 ≤ fieldOf d 0x12 2) && decide (fieldOf d 0x12 2 ≤ 256) && fieldOf d 0x15 3 == 0 && fieldOf d 0x1C 4 == 0 &&
    !chans.isEmpty && fieldOf d 0x20 8 % 16 == 0 &&
    chans.all fun c => ((s.part? vf).map fun p => p.channels.contains (32 * stack + c)).getD false

/-- Words of a microprogram. -/
def codeWords (b : List Byte) : List Word := (List.range (b.length / 4)).map fun i => BitVec.ofNat 32 (fieldOf b (4 * i) 4)

/-- A stove as a launch leaves it. -/
def launchedStove (q : NearCmd) (d : List Byte) (ch : Nat) (acode xcode : List Word) : Stove :=
  let regs (o : Nat) : Tab Word := (List.range 3).foldl
    (fun (t : Tab Word) i => t.set 0 (i + 1) (BitVec.ofNat 32 (fieldOf d (o + 4 * i) 4))) (Tab.set ([] : Tab Word) 0 0 (BitVec.ofNat 32 ch))
  { Stove.idle with
    st := .loaded, acode := acode, xcode := xcode, ag := regs 0x28, xg := regs 0x34, vf := q.vf, ctx := q.ctx
    counter := BitVec.ofNat 64 (fieldOf d 0x20 8), launch := q.op }

/-- Refuse a launch (R331). -/
def State.refuseLaunch (s : State) (stack : Nat) (q : NearCmd) (cnt : DWord) (cause : Nat) (va : DWord) : State :=
  let s := s.takeNear stack q
  let cnt := (namedCounter cnt).filter fun a => a.toNat % 16 == 0
  let s := s.ewErrorOn q.ctx q.vf cnt cause (seenBit cause)
  ((s.logNear q stack cause va).counterAddOn q.ctx q.vf cnt 1 (s.nearBy q.op)).gatherPart q.op

/-- The bytes of a microprogram: `n` words at an address, read at once. -/
def State.nearCode (s : State) (stack : Nat) (q : NearCmd) (va : DWord) (n : Nat) : Except (Nat × DWord) (List Byte) × State :=
  s.nearBytes (stack / 2) q.ctx q.vf va (4 * n)

/-- `STOVE_LAUNCH`: the launch at the head of the queue is refused, waits, or loads its stoves (R331). -/
def execStoveLaunch (stack : Nat) (s : State) : Host.Outcome State Fault Refusal :=
  match s.nearHead stack with
  | none => .next s
  | some q =>
    match q.req with
    | .nlaunch d =>
      let cnt := BitVec.ofNat 64 (fieldOf d 0x20 8)
      let chans := (List.range 32).filter fun c => (fieldOf d 0x18 4).testBit c
      if s.counterWaitsOn q.ctx q.vf (namedCounter cnt) then .next s
      else if !s.launchOk q.vf stack d then .next (s.refuseLaunch stack q cnt causeReserved (if cnt.toNat % 16 = 0 then 0 else cnt))
      else if chans.any fun c => (s.stove (32 * stack + c)).busy || (s.hearth stack).launches.any fun l => l.2.chans.contains c then .next s
      else
        let acode := BitVec.ofNat 64 (fieldOf d 0 8)
        let xcode := BitVec.ofNat 64 (fieldOf d 8 8)
        let was := s.nearWords (stack / 2) q.ctx acode (4 * fieldOf d 0x10 2) ++ s.nearWords (stack / 2) q.ctx xcode (4 * fieldOf d 0x12 2)
        if was.any fun w => s.wordQueued w || s.flipWaits (4 * w) s.nextId then .next s
        else match s.through q.vf q.op (nearTraffic (stack / 2) false was) with
        | .error s => .next s
        | .ok s => match s.nearCode stack q acode (fieldOf d 0x10 2) with
        | (.error e, s) => .next (s.refuseLaunch stack q cnt e.1 e.2)
        | (.ok a, s) => match s.nearCode stack q xcode (fieldOf d 0x12 2) with
          | (.error e, s) => .next (s.refuseLaunch stack q cnt e.1 e.2)
          | (.ok x, s) =>
            let s := (s.takeNear stack q).each chans fun s c => s.setStove (32 * stack + c) (launchedStove q d c (codeWords a) (codeWords x))
            .next (s.modHearth stack fun h => { h with launches := h.launches.put q.op ⟨q.vf, q.ctx, chans, cnt⟩ })
    | _ => .next s

/-- Both threads have ended, or the stove was stopped. -/
def Stove.ended (x : Stove) : Bool :=
  x.st == .faulted || x.st == .killed || ((x.st == .running || x.st == .suspended) && x.aend && x.xend)

/-- `STOVE_END` (R332). -/
def execStoveEnd (stack ch : Nat) (s : State) : Host.Outcome State Fault Refusal :=
  let k := 32 * stack + ch
  let x := s.stove k
  match (s.hearth stack).launches.find? x.launch with
  | none => .next s
  | some l =>
    if !x.ended || !l.chans.contains ch || s.counterWaitsOn l.ctx l.vf (namedCounter l.counter) then .next s
    else
      let s := s.setStove k (if x.st == .faulted || x.st == .killed then x else { x.discard with st := .idle })
      let rest := l.chans.filter fun c => c != ch
      if !rest.isEmpty then .next (s.modHearth stack fun h => { h with launches := h.launches.put x.launch { l with chans := rest } })
      else .next (((s.counterAddOn l.ctx l.vf (namedCounter l.counter) 1 (s.nearBy x.launch)).gatherPart x.launch).modHearth stack fun h =>
        { h with launches := h.launches.erase x.launch })

/-- STATE of Table 15.6; a stove that waits for its first compute interval may report either 1 or 2. -/
def Stove.code6 (x : Stove) (pick : Nat) : Nat :=
  match x.st with
  | .idle => 0 | .loaded => 1 + pick | .running => 1 | .suspended => 2 | .faulted => 3 | .killed => 4

/-- A status record (Table 15.6). -/
def statusRecord (x : Stove) (st : Nat) : List Byte :=
  toBytes 2 x.apc ++ toBytes 2 x.xpc ++ toBytes 1 st ++ toBytes 1 x.dataQ.length ++ toBytes 1 x.writeQ.length ++
    toBytes 1 (if x.qdrop then 1 else 0) ++ toBytes 4 x.bursts.toNat ++ toBytes 4 0

/-- `NSTAT_SERVICE` (R333). -/
def execNstatService (stack : Nat) (s : State) : Host.Outcome State Fault Refusal :=
  match s.nearHead stack with
  | none => .next s
  | some q =>
    match q.req with
    | .nstat mask buf cnt =>
      if s.counterWaits q.ctx q.vf cnt || s.engineWaits (stack / 2) q.ctx buf (16 * ((List.range 32).filter mask.getLsbD).length) .write then .next s
      else match s.through q.vf q.op ((nearTraffic (stack / 2) true (s.nearWords (stack / 2) q.ctx buf
        (16 * ((List.range 32).filter mask.getLsbD).length))).filter fun y => y.1 == 1) with
      | .error s => .next s
      | .ok s =>
      let s := s.takeNear stack q
      let sel := ((List.range 32).filter mask.getLsbD).zip (List.range 32)
      let s := s.each sel fun s y =>
        let mine := ((s.part? q.vf).map fun p => p.channels.contains (32 * stack + y.1)).getD false
        let x := s.stove (32 * stack + y.1)
        let p := s.pick 2
        let s := if x.st == .loaded then p.2 else s
        let r := if mine then statusRecord x (x.code6 p.1) else statusRecord Stove.idle 0xFF
        let s := if mine then s else (s.ewError q.ctx q.vf cnt causeReserved (seenBit causeReserved)).logNear q stack causeReserved 0
        let va := buf + BitVec.ofNat 64 (16 * y.2)
        match s.writeVirt (stack / 2) q.ctx q.vf va r [] ⟨4, stack, some va, 0⟩ with
        | (none, s) => s
        | (some c, s) => (s.ewError q.ctx q.vf cnt c (seenBit c)).logNear q stack c va
      .next ((s.counterAdd q.ctx q.vf cnt 1 (s.nearBy q.op)).gatherPart q.op)
    | _ => .next s

/-- `NKILL_SERVICE` (R334). -/
def execNkillService (stack : Nat) (s : State) : Host.Outcome State Fault Refusal :=
  match s.nearHead stack with
  | none => .next s
  | some q =>
    match q.req with
    | .nkill mask cnt =>
      if s.counterWaits q.ctx q.vf cnt then .next s else
      let s := s.takeNear stack q
      let s := s.each ((List.range 32).filter mask.getLsbD) fun s c =>
        let k := 32 * stack + c
        let mine := ((s.part? q.vf).map fun p => p.channels.contains k).getD false
        if mine && (s.stove k).busy && (s.stove k).vf == q.vf && !(s.stove k).ended then s.killStove k else s
      .next ((s.counterAdd q.ctx q.vf cnt 1 (s.nearBy q.op)).gatherPart q.op)
    | _ => .next s

/-! ## The channel frame (R339, R366, R367) -/

/-- The ordinary rows of a stack are precharged, each once tRAS has passed (R367). -/
def State.closeOrdinary (s : State) (stack start : Nat) : State :=
  let ours (ix : Nat) : Bool := ix / 8192 == stack
  let rows := s.openRows.filter fun r => ours r.1 && !r.2.stove
  { s with
    openRows := s.openRows.filter fun r => !(ours r.1 && !r.2.stove)
    prechargeAt := rows.foldl (fun (t : Tab Nat) r => t.put r.1 (max start (r.2.at_ + 80))) s.prechargeAt }

/-- Start or resume a stove in a compute interval: the recorded rows reopen, each checked (R322, R339). -/
def State.resumeStove (s : State) (k : Nat) : State :=
  let x := { s.stove k with ordBursts := 0 }
  match x.st with
  | .loaded => s.setStove k { x with st := .running }
  | .running => s.setStove k x
  | .suspended =>
    match List.find? (fun (r : Nat × Nat) => !s.rowOk x.vf (stovePa k r.1 r.2 0) false true) x.rows with
    | some r => s.stoveFault k x.apc causeRowDenied (some (stovePa k r.1 r.2 0))
    | none => (s.each x.rows fun s (r : Nat × Nat) => s.holdRow k r.1 r.2 (s.activateAt k r.1)).setStove k { x with st := .running }
  | _ => s

/-- `FRAME_START`: the frame control in force is applied; a compute interval begins unless COMPUTELEN is 0. -/
def execFrameStart (stack : Nat) (s : State) : Host.Outcome State Fault Refusal :=
  let h := s.hearth stack
  if 8 ≤ stack || s.bootStep < 6 || s.dclk < h.frameAt then .next s
  else
    let start := h.frameAt
    let v := ((h.next.filter fun y => decide (y.1 < start)).getLast?.map fun y => y.2).getD (h.framelen, h.computelen)
    let s := s.modHearth stack fun h => { h with
      framelen := v.1, computelen := v.2, next := h.next.filter fun y => decide (start ≤ y.1), frameAt := start + v.1, compute := decide (v.2 ≠ 0), ordAt := start + v.2
      lastNear := [] }
    if v.2 = 0 then .next s
    else .next ((s.closeOrdinary stack start).each ((List.range 32).map fun c => 32 * stack + c) State.resumeStove)

/-- `ORDINARY_INTERVAL_START` (R367): ordinary traffic resumes, with what waits for DRAM at the engines. -/
def execOrdinaryIntervalStart (stack : Nat) (s : State) : Host.Outcome State Fault Refusal :=
  let h := s.hearth stack
  .next (if h.compute && h.ordAt ≤ s.dclk then (s.modHearth stack fun h => { h with compute := false }).drainEngine else s)

/-- `STOVE_DEADLINE`: at clock 98 of the ordinary interval an address thread that runs suspends where it stands. -/
def execStoveDeadline (stack ch : Nat) (s : State) : Host.Outcome State Fault Refusal :=
  let h := s.hearth stack
  let k := 32 * stack + ch
  let x := s.stove k
  .next (if !h.compute && h.ordAt + 98 ≤ s.dclk && x.st == .running && !x.aend then s.suspendStove k else s)

end Sys2Proof.Machine
end

