-- ==== Sys2Proof/Machine/Mailbox.lean ====
section
/-! DEFINITION. The command mailbox (19 R388 to R391), and its commands on contexts, queues, pages, claims, keys and
firmware (R392, R393, R398 to R409; 17 R366; 18 R369, R379 to R381). The row of a command happens when that command is
the one the management core takes next. -/

namespace Sys2Proof.Machine

/-! ## Taking and finishing a command (R388, R389) -/

/-- PF 1, the function of link 1 without Sorica rights (Table 19.1). -/
def pf1 : Nat := 65

/-- Operations of Table 19.4. -/
def listedOp (op : Nat) : Bool :=
  (1 ≤ op && op ≤ 8) || (0x10 ≤ op && op ≤ 0x18) || op == 0x20 || op == 0x21 || op == 0x30 || op == 0x31 || op == 0x100

/-- The function whose command is taken next (R389): that of a command which has begun, else one that has waited behind four
consecutive function 0 commands, else function 0, else the earliest doorbell. -/
def State.mboxNext (s : State) : Option Nat :=
  match s.mboxCur with
  | some f => some f
  | none => match s.mboxOrder.find? fun f => f != 0 && decide (4 ≤ s.f0Run.get 0 f) with
    | some f => some f
    | none => if s.mboxOrder.contains 0 then some 0 else s.mboxOrder.head?

/-- End a command: results, STATUS, and MSI-X vector 0 of the function. -/
def State.finishCommand (s : State) (fn : Nat) (st : Status) (results : List (Nat × DWord)) : State :=
  let rest := s.mboxOrder.erase fn
  let run := rest.foldl (fun (t : Tab Nat) f =>
    let n := s.f0Run.get 0 f
    t.set 0 f (if fn = 0 then min 4 (n + 1) else if 4 ≤ n then n else 0)) []
  let s := { s with mboxOrder := rest, f0Run := run, mboxCur := s.mboxCur.filter (· ≠ fn) }
  (s.modMailbox fn fun m => { m with status := st, args := results.foldl (fun (l : List DWord) r => l.set r.1 r.2) m.args }).signal fn 0

/-- What a command comes to. -/
inductive Answer where
  | fail (s : State) (st : Status)
  | ok (s : State) (results : List (Nat × DWord))
  /-- a condition it waits for does not hold yet -/
  | pending (s : State)

/-- Run the command `op` of function `fn` if it is the next one and `sel` picks its row. The full set is open from step
6 of Table 19.10; BOOT alone before (R405). A command with an unlisted OP ends at the next command event. -/
def command (op fn : Nat) (s : State) (sel : (Nat → DWord) → Bool) (f : (Nat → DWord) → Mailbox → State → Answer) :
    Host.Outcome State Fault Refusal :=
  match s.mboxNext with
  | none => .next s
  | some g =>
    let m := s.mailbox g
    let arg (i : Nat) : DWord := m.args.getD i 0
    if !listedOp m.op.toNat then .next (s.finishCommand g .badarg [])
    else if g != fn || m.op.toNat != op || !sel arg then .next s
    else if fn = pf1 || (s.bootStep < 6 && op != 0x100) then .next (s.finishCommand fn .denied [])
    else match f arg m s with
      | .fail s st => .next (s.finishCommand fn st [])
      | .ok s r => .next (s.finishCommand fn .ok r)
      | .pending s => .next { s with mboxCur := some fn }

/-- Any argument selects a row. -/
def anyArg (_ : Nat → DWord) : Bool := true

/-- The bits above a width are zero (R391). -/
def narrow (n : Nat) (a : DWord) : Bool := decide (a.toNat < 2 ^ n)

/-- Bytes at a physical address as the function's rows let it read them: BADARG beyond the address space, DENIED where
the read fails, which a row that refuses it has logged (R389, R115). -/
def State.argBytes (s : State) (fn : Nat) (pa : DWord) (n : Nat) : Except Status (List Byte) × State :=
  if 2 ^ 39 < pa.toNat + n then (.error .badarg, s)
  else
    let t := s.touchRun fn pa.toNat n
    match s.readPhys fn pa.toNat n with
    | .ok b => (.ok b, t)
    | .error c => (.error .denied, if c = causeRowDenied then t.logPhys fn c pa.toNat none 7 s.mgmtCore 0 else t)

/-- The bytes of an argument that the management core reads would wait: their words must come from DRAM in a compute interval
(R367), or the host or a flip holds them (R351, R387). -/
def State.argWaits (s : State) (pa : DWord) (n : Nat) : Bool :=
  decide (pa.toNat + n ≤ 2 ^ 39) &&
    (s.dramHeld pa.toNat n || (wordsOf pa.toNat n).any fun w => s.hostBusy (4 * w.1) || s.flipWaits (4 * w.1) s.nextId)

/-- The context that a command names: a VF gives the id, function 0 VF × 64 + id (R390). -/
def State.ctxArg (s : State) (fn : Nat) (a : DWord) : Option (Nat × Context) :=
  let k := if fn = 0 then a.toNat else if a.toNat < 64 then fn * 64 + a.toNat else 0
  (s.ctx? k).map fun c => (k, c)

/-- A context command of its owner. -/
def ctxCommand (op fn : Nat) (s : State) (f : Nat → Context → (Nat → DWord) → State → Answer) : Host.Outcome State Fault Refusal :=
  command op fn s anyArg fun arg _ s =>
    match s.ctxArg fn (arg 0) with
    | none => .fail s .badarg
    | some (k, c) => f k c arg s

/-- A command of function 0. -/
def hvCommand (op fn : Nat) (s : State) (sel : (Nat → DWord) → Bool) (f : (Nat → DWord) → Mailbox → State → Answer) :
    Host.Outcome State Fault Refusal :=
  command op fn s sel fun arg m s => if fn ≠ 0 then .fail s .denied else f arg m s

/-! ## The Sorica table (R120, R398) -/

/-- Entries of each kind (Table 1.1, Table 5.7): the distributors are one of each die and one of the package, and the six
die-to-die links have the indices 0 to 5, a numbering that the spec does not give (assumption 91). -/
def soricaCount (kind : Nat) : Nat :=
  [0, 96, 18432, 384, 8, 256, 256, 256, 6, 256, 64, 16, 96, 2, 4, 384, 96, 4, 4, 5, 8, 2, 1].getD kind 0

/-- Rows below `n` that lie on a stack: one of every eight. -/
def rowsBelow (stack n : Nat) : Nat :=
  n / 8 + if (List.range (n % 8)).any fun i => stackOfPa (2048 * (n / 8 * 8 + i)) == stack then 1 else 0

/-- Rows of a stack awaiting zero fill (R396). -/
def State.unfilledOf (s : State) (stack : Nat) : Nat :=
  (s.unfilled.map fun r => rowsBelow stack (r.1 + r.2) - rowsBelow stack r.1).sum

/-- Nominal frequency of an island (R18, R22). -/
def nominalMhz (i : Nat) : Nat := if i < 240 then 1200 else 2400

/-- The frequency of an island in MHz, within its fused limit (R20). -/
def State.mhzOf (s : State) (island : Nat) : Nat := min ((s.islands.find? island).getD (nominalMhz island)) (Config.fusedMhz island)

/-- DETAIL of an entry (Table 5.7, R396). -/
def State.soricaDetail (s : State) (kind ix : Nat) : Nat :=
  match kind with
  | 1 => (s.present 2 ((List.range 192).map fun c => 192 * ix + c)).length
  | 3 => 1572864
  | 4 => s.unfilledOf ix
  | 7 => s.mhzOf ix
  | _ => 0

/-- An entry as listed, or present and free. -/
def State.soricaEntry (s : State) (kind ix : Nat) : Sorica := (s.sorica.find? (kind * 65536 + ix)).getD ⟨0, 0xFF, 0⟩

/-- Begin the three steps in which the change of an entry is written: its GEN rises by two (R120). -/
def State.soricaWrite (s : State) (kind ix st owner oldDetail : Nat) : State :=
  let k := kind * 65536 + ix
  let old := s.soricaEntry kind ix
  let new : Sorica := ⟨st, owner, old.gen + 2⟩
  let s : State := { s with sorica := s.sorica.put k new }
  { s with soricaW := s.soricaW ++ [⟨k, old, oldDetail, new, s.soricaDetail kind ix, 0⟩] }

/-- Write an entry anew where its DETAIL has changed since an earlier state. -/
def State.soricaTouch (s before : State) (kind ix : Nat) : State :=
  let d := before.soricaDetail kind ix
  if d = s.soricaDetail kind ix then s
  else let e := s.soricaEntry kind ix; s.soricaWrite kind ix e.st e.owner d

/-- Change an entry; the entry of a cell's hive changes with the cells present. -/
def State.setSorica (s : State) (kind ix st owner : Nat) : State :=
  let t := s.soricaWrite kind ix st owner (s.soricaDetail kind ix)
  if kind = 2 then t.soricaTouch s 1 (ix / 192) else t

/-- One step of every entry that is being written, its oldest change first (R120). -/
def stepWrites (seen : List Nat) : List SoricaWrite → List SoricaWrite
  | [] => []
  | w :: l =>
    if seen.contains w.key then w :: stepWrites seen l
    else if w.done < 2 then { w with done := w.done + 1 } :: stepWrites (w.key :: seen) l
    else stepWrites (w.key :: seen) l

/-- An entry as a reader finds it, with its DETAIL: while a change is being written GEN is odd, and STATE and OWNER are new after the
second step (R120). -/
def State.soricaView (s : State) (kind ix : Nat) : Sorica × Nat :=
  match s.soricaW.find? fun w => w.key == kind * 65536 + ix with
  | none => (s.soricaEntry kind ix, s.soricaDetail kind ix)
  | some w =>
    if w.done = 0 then (w.old, w.oldDetail)
    else ({ (if w.done = 1 then w.old else w.new) with gen := w.old.gen + 1 }, w.oldDetail)

/-- The 16 bytes of an entry (Table 5.7). -/
def soricaLine (kind ix : Nat) (e : Sorica) (detail : Nat) : List Byte :=
  toBytes 1 kind ++ toBytes 1 e.st ++ toBytes 2 ix ++ toBytes 1 e.owner ++ toBytes 3 0 ++ toBytes 4 e.gen.toNat ++ toBytes 4 detail

/-- The 16 bytes of an entry with its GEN taken as 0 (Table 5.7, Table 19.11). -/
def State.soricaBytes (s : State) (kind ix : Nat) (e : Sorica) : List Byte := soricaLine kind ix { e with gen := 0 } (s.soricaDetail kind ix)

/-! ## Simple operations -/

/-- `LOGSET` (R390). -/
def execLogset (fn : Nat) (s : State) : Host.Outcome State Fault Refusal :=
  hvCommand 0x04 fn s anyArg fun arg _ s =>
    let n := (arg 1).toNat
    if n < 6 || 16 < n || 2 ^ 39 < (arg 0).toNat + 32 * 2 ^ n then .fail s .badarg
    else .ok { s with hvLog := some ⟨(arg 0).toNat, n, 0, 0, false⟩ } []

/-- The buckets that a point and index name (R399). -/
def Partition.bucketsAt (p : Partition) (vf point ix : Nat) : List Nat :=
  match point with
  | 0 => p.hives.map fun h => bucketIx vf 0 h
  | _ => [bucketIx vf point ix]

/-- A bucket at creation: RATE 0, BURST and level at the largest BURST. -/
def Bucket.initial : Bucket := ⟨0, 2 ^ 24, 2 ^ 24, none⟩

/-- `SETRATE` (R399). -/
def execSetrate (fn : Nat) (s : State) : Host.Outcome State Fault Refusal :=
  hvCommand 0x05 fn s anyArg fun arg _ s =>
    let vf := (arg 0).toNat
    let point := (arg 1).toNat
    let rate := (arg 3).toNat
    let burst := (arg 4).toNat
    match s.part? vf with
    | none => .fail s .badarg
    | some p =>
      if 2 < point || (arg 2).toNat ≥ [96, 12, 8].getD point 0 || 65535 < rate || burst = 0 || 2 ^ 24 < burst then .fail s .badarg
      else .ok (s.each (p.bucketsAt vf point (arg 2).toNat) fun s k =>
        { s with buckets := s.buckets.put k { (s.buckets.find? k).getD Bucket.initial with next := some (rate, burst) } }) []

/-- `SETFRAME` (R366, Table 17.4): a refused write is BADARG. -/
def execSetframe (fn : Nat) (s : State) : Host.Outcome State Fault Refusal :=
  hvCommand 0x06 fn s anyArg fun arg _ s =>
    let k := (arg 0).toNat
    let v := (arg 1).toNat
    let fl := bitsOf v 16 0
    let cl := bitsOf v 48 32
    if 8 ≤ k || bitsOf v 63 49 ≠ 0 || bitsOf v 31 17 ≠ 0 || fl < 256 || 65536 < fl || fl % 32 ≠ 0 || cl % 32 ≠ 0 || fl < cl + 128 then .fail s .badarg
    else .ok (s.modHearth k fun h => { h with next := h.next ++ [(s.dclk, fl, cl)] }) []

/-- Words of whole frames leave the engines and the slices by eviction and write-back, and their write-backs reach DRAM
(R91, R94): the management cores drain the queues of what the command concerns (assumption 115). -/
def State.drainWords (s : State) (p : Nat → Bool) : State :=
  let s := s.each ((s.sync.filter fun x => p x.1).map (·.1)) fun s w => s.syncOut w
  let s := s.each (((s.l2.filter fun x => p x.1).map fun x => x.1 / 64).dedup) fun s f => s.l2Evict f
  let s := s.serveWrites p
  { s with overflow := s.overflow.filter fun w => !p w }

/-- Those of a page. -/
def State.drainPage (s : State) (page : Nat) : State := s.drainWords fun w => w / 1024 == page

/-- `ELIDE` (R97, R117): both rows of the page read as the constant. Its words have left the caches of its home, and what an L1 still
holds of it is older than the page. -/
def execElide (fn : Nat) (s : State) : Host.Outcome State Fault Refusal :=
  hvCommand 0x07 fn s anyArg fun arg _ s =>
    let pa := (arg 0).toNat
    let rows := [pa / 2048, pa / 2048 + 1]
    let full (r : Nat) : Bool :=
      (s.elision.find? r).isNone && decide (32768 ≤ (s.elision.filter fun e => stackOfPa (2048 * e.1) == stackOfPa (2048 * r)).length)
    if pa % 4096 ≠ 0 || 2 ^ 39 ≤ pa || reservedPa pa || !narrow 32 (arg 1) then .fail s .badarg
    else if rows.any full then .fail s .nores
    else
      let s := s.drainPage (pa / 4096)
      .ok { s with
        elision := rows.foldl (fun (t : Tab Word) r => t.put r ((arg 1).setWidth 32)) s.elision
        rel := s.rel.filter fun x => x.1 / 4096 != pa / 4096
        homeClk := s.homeClk + 1
        rowTime := rows.foldl (fun (t : Tab Nat) r => t.put r (s.homeClk + 1)) s.rowTime } []

/-! ## Fuses (R403, R407) -/

/-- `FUSE` 0; an operation that R407 does not list is BADARG. -/
def execFuseRaiseSvn (fn : Nat) (s : State) : Host.Outcome State Fault Refusal :=
  hvCommand 0x08 fn s (fun arg => (arg 0).toNat != 1 && (arg 0).toNat != 2) fun arg _ s =>
    if arg 0 ≠ 0 then .fail s .badarg
    else .ok { s with fuses := { s.fuses with svn := min 64 (s.fuses.svn + 1) } } []

/-- The wipe of R403: every row zero-filled, every SRAM that the flue reaches (R25) cleared, every key slot cleared. -/
def State.wipe (s : State) : State :=
  { s with
    mem := [], synd := [], poisoned := [], rel := [], perms := [], hostBias := [], elision := [], openRows := []
    wordQ := [], l2 := [], sync := [], overflow := [], cores := [], hives := [], warps := [], teams := [], l2tlb := [], walkCache := []
    stalls := [], heldReq := [], engineQ := [], spillQ := [], loads := [], l2marks := [], orphans := [], screens := []
    stores := [], atomics := [], pend := [], slabs := [], posted := [], gathers := [], coll := [], stoves := []
    hearths := s.hearths.mapVals fun h => { h with queue := [], nred := none, launches := [] }
    mgmtLog := []
    -- what save areas held is zeros now: no team, no checkpoint, no undo entry
    contexts := s.contexts.mapVals fun c => { c with saved := [] }
    parts := s.parts.mapVals fun p => { p with keys := [], ckpt := p.ckpt.map fun _ => Checkpoint.empty, undo := [], undoDone := 0, startVals := [] } }

/-- `FUSE` 1: the wipe, then TESTMODE. -/
def execFuseSetTestmode (fn : Nat) (s : State) : Host.Outcome State Fault Refusal :=
  hvCommand 0x08 fn s (fun arg => (arg 0).toNat == 1) fun _ _ s => .ok { s.wipe with fuses := { s.fuses with testmode := true } } []

/-- `FUSE` 2: a free resource gets STATE 2. -/
def execFuseRetireResource (fn : Nat) (s : State) : Host.Outcome State Fault Refusal :=
  hvCommand 0x08 fn s (fun arg => (arg 0).toNat == 2) fun arg _ s =>
    let kind := (arg 1).toNat
    let ix := (arg 2).toNat
    if soricaCount kind ≤ ix then .fail s .badarg
    else match s.soricaSt kind ix with
      | 0 =>
        let t := { s with fuses := { s.fuses with retired := (kind, ix) :: s.fuses.retired } }.soricaWrite kind ix 2 0xFF (s.soricaDetail kind ix)
        .ok (if kind = 2 then t.soricaTouch s 1 (ix / 192) else t) []
      | 1 => .fail s .busy
      | _ => .fail s .nores

/-! ## Contexts and queues (R390, R392) -/

/-- Bytes lie wholly in rows that a partition owns. -/
def State.inRows (s : State) (vf pa n : Nat) : Bool :=
  decide (pa + n ≤ 2 ^ 39) && (List.range ((pa + n + 2047) / 2048 - pa / 2048)).all fun i =>
    (s.perms.get Perm.reset (pa / 2048 + i)).owner == vf

/-- A context descriptor as it is read (Table 19.5). -/
def contextOf (vf : Nat) (b : List Byte) : Context where
  vf := vf
  ptroot := BitVec.ofNat 64 (fieldOf b 0 8)
  pbase := BitVec.ofNat 64 (fieldOf b 8 8)
  psize := fieldOf b 0x10 4
  schk := (fieldOf b 0x14 4).testBit 0
  eager := (fieldOf b 0x14 4).testBit 1
  savebase := BitVec.ofNat 64 (fieldOf b 0x18 8)
  savesize := fieldOf b 0x20 8
  diag := BitVec.ofNat 64 (fieldOf b 0x28 8)
  vector := fieldOf b 0x30 2
  st := .live
  cause := 0
  saved := []
  saveCounter := none

/-- The limits of Table 19.5. -/
def State.contextOk (s : State) (vf : Nat) (b : List Byte) : Bool :=
  let c := contextOf vf b
  c.ptroot.toNat % 4096 == 0 && s.inRows vf c.ptroot.toNat 4096 && c.pbase.toNat % 256 == 0 && decide (16 ≤ c.psize) &&
    decide (c.psize ≤ 65536) && c.psize % 16 == 0 && fieldOf b 0x14 4 / 4 == 0 && c.savebase.toNat % 4096 == 0 &&
    s.inRows vf c.savebase.toNat (max 1 c.savesize) && c.savesize % 4096 == 0 && c.diag.toNat % 64 == 0 && decide (1 ≤ c.vector) &&
    decide (c.vector ≤ 63) && (b.drop 0x32).all fun x => x == 0

/-- `CTXCREATE` (R392). -/
def execCtxcreate (fn : Nat) (s : State) : Host.Outcome State Fault Refusal :=
  command 0x10 fn s anyArg fun arg _ s =>
    let vf := (arg 0).toNat
    if !narrow 8 (arg 0) then .fail s .badarg
    else if fn ≠ 0 && vf ≠ fn then .fail s .denied
    else if (s.part? vf).isNone || (arg 1).toNat % 64 ≠ 0 then .fail s .badarg
    else if s.argWaits (arg 1) 64 then .pending s
    else match s.argBytes fn (arg 1) 64 with
      | (.error e, s) => .fail s e
      | (.ok b, s) =>
        if !s.contextOk vf b then .fail s .badarg
        else match (List.range 64).find? fun i => (s.ctx? (vf * 64 + i)).isNone with
          | none => .fail s .nores
          | some i =>
            .ok { s with contexts := s.contexts.put (vf * 64 + i) (contextOf vf b) }
              [(0, BitVec.ofNat 64 (if fn = 0 then vf * 64 + i else i))]

/-- End a context that has not ended, as R370 does with ABANDONED, and clear it so that it accepts records (CTXRESET). -/
def State.resetContext (s : State) (k : Nat) : State :=
  let ended := ((s.ctx? k).map fun c => c.st == CtxState.faulted || c.st == CtxState.gone).getD true
  let vf := ((s.ctx? k).map (·.vf)).getD 0
  let s := if ended then s else (s.log vf causeAbandoned 0 false 7 s.mgmtCore 0).endContext k causeAbandoned .faulted
  s.modCtx k fun c => { c with st := .live, cause := 0, saved := [], saveCounter := none }

/-- `CTXRESET`. -/
def execCtxreset (fn : Nat) (s : State) : Host.Outcome State Fault Refusal :=
  ctxCommand 0x11 fn s fun k _ _ s => .ok (s.resetContext k) []

/-- `QCREATE` (R104). -/
def execQcreate (fn : Nat) (s : State) : Host.Outcome State Fault Refusal :=
  ctxCommand 0x12 fn s fun k c arg s =>
    let q := (arg 1).toNat
    let n := (arg 3).toNat
    match s.part? c.vf with
    | none => .fail s .badarg
    | some p =>
      if 16 ≤ q || (arg 2).toNat % 8 ≠ 0 || !narrow 39 (arg 2) || n < 4 || 12 < n then .fail s .badarg
      else if ((p.queues.find? q).map fun y => y.head != y.tail).getD false then .fail s .busy
      else .ok (s.modPart c.vf fun p => { p with queues := p.queues.put q ⟨k, (arg 2).toNat, n, 0, 0⟩ }) []

/-- `PREEMPT` (R379): the halt; the saves follow as events and end with the add to the counter (R380), whose address is a device
physical one, read and written under the rows of the caller (R389). -/
def execPreempt (fn : Nat) (s : State) : Host.Outcome State Fault Refusal :=
  ctxCommand 0x13 fn s fun k c arg s =>
    if c.st != .live then .fail s .busy
    else .ok ((s.haltContext k).modCtx k fun c => { c with saveCounter := some (fn, arg 1) }) []

/-- A core can run restored teams of the partition (R381). -/
def State.coreThere (s : State) (p : Partition) (core : Nat) : Bool :=
  p.hives.contains (hiveOfCore core) && s.soricaSt 15 core != 3 && s.soricaSt 1 (hiveOfCore core) != 3

/-- `RESUME` (R381): teams return as events; a context whose cores are gone ends with ABANDONED. -/
def execResume (fn : Nat) (s : State) : Host.Outcome State Fault Refusal :=
  ctxCommand 0x14 fn s fun k c _ s =>
    if c.st == .halting && c.saveCounter.isSome then .fail s .busy
    else if c.st != .saved && c.st != .halting then .fail s .badarg
    else match s.part? c.vf with
      | none => .fail s .badarg
      | some p =>
        if c.saved.any fun t => !s.coreThere p t.core then .ok (s.resetContext k) []
        else .ok (s.modCtx k fun c => { c with st := .live }) []

/-- The entry of a warp that a System hold stands on, with its cause. -/
def Warp.holdEntry (w : Warp) : Option (Nat × Nat) :=
  w.entries.findSome? fun e => match e.2.wait with
    | .hold c => some (e.1, c)
    | _ => none

/-- `REPLY` (R369, Table 18.2). -/
def execReply (fn : Nat) (s : State) : Host.Outcome State Fault Refusal :=
  ctxCommand 0x15 fn s fun k _ arg s =>
    let core := (arg 1).toNat
    let slot := (arg 2).toNat
    if 384 ≤ core || 32 ≤ slot || !narrow 8 (arg 3) then .fail s .badarg
    else match (s.warp? core slot).bind fun w => (w.holdEntry).map fun e => (w, e) with
      | none => .ok s []
      | some (w, e, cause) =>
        if s.ctxIdOfTeam w.team ≠ k then .ok s []
        else match (arg 3).toNat with
          | 0 => .ok ((s.modWarp core slot fun w => w.modEntry e fun y => { y with wait := .none, seqd := false, paired := none }).nextHeldTrap core slot) []
          | 1 => .ok (s.enterHandler core slot e w.trap) []
          | _ => .ok (s.endContext k cause .faulted) []

/-! ## Translations, instruction lines and bias (R393, R387) -/

/-- `TLBINV`. -/
def execTlbinv (fn : Nat) (s : State) : Host.Outcome State Fault Refusal :=
  ctxCommand 0x16 fn s fun k _ arg s =>
    let keep (t : Trans) : Bool := !(t.ctx == k && decide (t.va < (arg 1).toNat + (arg 2).toNat) && decide ((arg 1).toNat < t.va + t.size))
    .ok { s with
      cores := s.cores.mapVals fun c => { c with tlb := c.tlb.filter keep }
      l2tlb := s.l2tlb.mapVals fun l => l.filter keep
      walkCache := s.walkCache.mapVals fun l => l.filter fun w =>
        keep ⟨w.ctx, w.pre * 2 ^ (57 - 9 * w.level), 2 ^ (57 - 9 * w.level), 0⟩ } []

/-- `ICINV`. -/
def execIcinv (fn : Nat) (s : State) : Host.Outcome State Fault Refusal :=
  command 0x17 fn s anyArg fun arg _ s =>
    let vf := (arg 0).toNat
    if !narrow 8 (arg 0) then .fail s .badarg
    else if fn ≠ 0 && vf ≠ fn then .fail s .denied
    else match s.part? vf with
      | none => .fail s .badarg
      | some p =>
        let drop (x : Nat × Core) : Nat × Core := if p.hives.contains (hiveOfCore x.1) then (x.1, { x.2 with icache := [] }) else x
        .ok { s with cores := s.cores.map drop } []

/-- The page's words leave every cache of the package, their values in DRAM (R387). -/
def State.flushPage (s : State) (page : Nat) : State :=
  let s := s.drainPage page
  { s with cores := s.cores.mapVals fun c => { c with l1 := c.l1.filter fun x => x.1 / 1024 != page } }

/-- Device accesses to a page that were issued before number `id` and have still to take effect, stores until they are
acknowledged (R387). -/
def State.pageBusy (s : State) (page id : Nat) : Bool :=
  let on (a : Nat) : Bool := decide (a < hostTag) && a / 4096 == page
  let tx (t : Tx) : Bool := (t.commit.any fun k => decide (k < id)) && (t.reads ++ t.writes).any fun r => r.addr / 1024 == page
  (s.stores.any fun x => decide (x.1 < id) && (x.2.pa :: x.2.copies).any on) ||
    (s.atomics.any fun x => decide (x.1 < id) && on x.2.pa && x.2.old.isNone) ||
    (s.loads.any fun x => decide (x.1 < id) && x.2.lanes.any fun y => y.fixed.isNone && y.parts.any fun p => on p.1) ||
    (s.warps.any fun w => w.2.tx.any fun t => tx t.2) || (s.orphans.any fun o => tx o.tx) ||
    s.engineQ.any fun q => decide (q.id < id) && match q.op with
      | .write _ => on q.counter.toNat
      | _ => match s.counterPlace q with
        | .ok x => on x.pa
        | .error _ => false

/-- `FLIP` (R98, R350, R351, R387): new accesses to the page wait from the start; to host-bias it waits for those issued before, to
device-bias for host requests in flight; then what waited goes on under the new bias. -/
def execFlip (fn : Nat) (s : State) : Host.Outcome State Fault Refusal :=
  command 0x18 fn s anyArg fun arg _ s =>
    let pa := (arg 0).toNat
    let page := pa / 4096
    let owned (r : Nat) : Bool := fn == 0 || (s.perms.get Perm.reset r).owner == fn
    if pa % 4096 ≠ 0 || 2 ^ 39 ≤ pa || reservedPa pa || !narrow 1 (arg 1) then .fail s .badarg
    else if !(owned (pa / 2048) && owned (pa / 2048 + 1)) then .fail s .denied
    else if s.isHostBias pa == (arg 1 == 1) then .ok s []
    else
      let begun := s.flips.find? fun f => f.1 == page
      let id := (begun.map (·.2)).getD s.nextId
      let s : State := if begun.isSome then s else { s with flips := s.flips ++ [(page, id)] }
      if s.pageBusy page id || s.hostInFlight.any fun h => h.1 / 4096 == page then .pending s
      else
        let s := if arg 1 = 1 then { s.flushPage page with hostBias := page :: s.hostBias } else { s with hostBias := s.hostBias.filter (· ≠ page) }
        .ok ({ s with flips := s.flips.filter fun f => f.1 != page } : State).drainEngine []

/-! ## Claims (R400, R133) -/

/-- Event selectors a bank can count (Table 6.4). -/
def countedEvent (c : Nat) : Bool := (1 ≤ c && c ≤ 0x0B) || (0x20 ≤ c && c ≤ 0x3F)

/-- A function may claim a unit: function 0 any, a VF those assigned to its partition. -/
def State.mayClaim (s : State) (fn kind ix : Nat) : Bool :=
  fn == 0 || ((s.part? fn).map fun p => (if kind = 10 then p.perfMask else p.traceMask).testBit ix).getD false

/-- The partition a trace unit is assigned to, if any. -/
def State.unitVf (s : State) (u : Nat) : Option Nat := (List.find? (fun (p : Nat × Partition) => p.2.traceMask.testBit u) s.parts).map (·.1)

/-- What a claim meets: the holder, and the functions whose claims were revoked. -/
def State.holding (s : State) (kind ix : Nat) : Option Nat × List Nat :=
  if kind = 10 then
    match s.banks.find? ix with
    | some b => (b.holder, b.revoked.map (·.1))
    | none => (none, [])
  else ((s.unit ix).holder, (s.unit ix).revoked)

/-- Take a bank for a function: its counters read 0. -/
def State.takeBank (s : State) (ix fn : Nat) (sel : List Nat) (old : Option Nat) : State :=
  let b := (s.banks.find? ix).getD ⟨none, [], [], []⟩
  let gone := match old with
    | some h => b.revoked ++ [(h, b.cnt, b.sel)]
    | none => b.revoked
  { s with banks := s.banks.put ix ⟨some fn, sel, List.replicate 8 0, gone⟩ }

/-- Take a trace unit for a function. One that samples loads the down-counters of the schedulers on its partition's hives (R131). -/
def State.takeUnit (s : State) (ix fn base n period : Nat) (old : Option Nat) : State :=
  let s := s.modUnit ix fun u =>
    let gone := match old with
      | some h => u.revoked ++ [h]
      | none => u.revoked
    { TraceUnit.reset with holder := some fn, base := base, n := n, period := period, revoked := gone }
  if period = 0 then s
  else
    let hives := (((s.unitVf ix).bind s.part?).map (·.hives)).getD []
    s.each (hives.flatMap fun h => (List.range 4).map (4 * h + ·)) fun s k => s.modCore k fun c => { c with
      down := (List.range 4).foldl (fun (t : Tab Nat) q => t.put q (2 ^ period)) []
      phase := 0
      due := [] }

/-- `CLAIM`. -/
def execClaim (fn : Nat) (s : State) : Host.Outcome State Fault Refusal :=
  command 0x20 fn s anyArg fun arg m s =>
    let kind := (arg 0).toNat
    let ix := (arg 1).toNat
    let sel := (List.range 8).map fun i => bitsOf (arg 2).toNat (8 * i + 7) (8 * i)
    let n := bitsOf (arg 3).toNat 7 0
    let lg := bitsOf (arg 3).toNat 15 8
    let vf := if fn = 0 then (s.unitVf ix).getD 0 else fn
    if (kind ≠ 10 && kind ≠ 11) || soricaCount kind ≤ ix then .fail s .badarg
    else if !s.mayClaim fn kind ix then .fail s .denied
    else if kind = 10 && sel.any fun c => !countedEvent c then .fail s .badarg
    else if kind = 11 && ((arg 2).toNat % 16 ≠ 0 || bitsOf (arg 3).toNat 63 16 ≠ 0 || n < 8 || 20 < n || (lg ≠ 0 && (lg < 8 || 20 < lg)) ||
        2 ^ 39 < (arg 2).toNat + 16 * 2 ^ n || (vf ≠ 0 && !s.inRows vf (arg 2).toNat (16 * 2 ^ n))) then .fail s .badarg
    else
      let h := s.holding kind ix
      let take (old : Option Nat) : Answer :=
        .ok (if kind = 10 then s.takeBank ix fn sel old else s.takeUnit ix fn (arg 2).toNat n lg old) []
      if h.2.contains fn then .fail s .revoked
      else match h.1 with
        | none => take none
        | some g => if g ≠ fn && fn = 0 && m.force then take (some g) else .fail s .busy

/-- Release what a function holds or has had revoked of a bank or a trace unit. -/
def State.unclaim (s : State) (fn kind ix : Nat) : State :=
  let free (b : Bank) : Bank := { b with holder := b.holder.filter (· ≠ fn), revoked := b.revoked.filter fun y => y.1 != fn }
  if kind = 10 then { s with banks := s.banks.modify ix free }
  else s.modUnit ix fun u => if u.holder = some fn then { TraceUnit.reset with revoked := u.revoked }
    else { u with revoked := u.revoked.filter (· ≠ fn) }

/-- `UNCLAIM`. -/
def execUnclaim (fn : Nat) (s : State) : Host.Outcome State Fault Refusal :=
  command 0x21 fn s anyArg fun arg _ s =>
    let kind := (arg 0).toNat
    let ix := (arg 1).toNat
    let h := s.holding kind ix
    if (kind ≠ 10 && kind ≠ 11) || soricaCount kind ≤ ix then .fail s .badarg
    else if h.1 ≠ some fn && !h.2.contains fn then .fail s .denied
    else .ok (s.unclaim fn kind ix) []

/-- Release every claim of a function. -/
def State.unclaimAll (s : State) (fn : Nat) : State :=
  (s.each (List.range 64) fun s i => s.unclaim fn 10 i).each (List.range 16) fun s i => s.unclaim fn 11 i

/-! ## Keys, quotes and boot (R404, R405, R408, R409) -/

/-- `KEYLOAD`. -/
def execKeyload (fn : Nat) (s : State) : Host.Outcome State Fault Refusal :=
  command 0x30 fn s anyArg fun arg _ s =>
    let slot := (arg 0).toNat
    if (s.part? fn).isNone then .fail s .denied
    else if 8 ≤ slot then .fail s .badarg
    else if s.argWaits (arg 1) 185 then .pending s
    else match s.argBytes fn (arg 1) 137 with
      | (.error e, s) => .fail s e
      | (.ok h, s) =>
        if fieldOf h 133 4 ≠ 48 then .fail s .badarg
        else match s.argBytes fn (arg 1 + 137) 48 with
          | (.error e, s) => .fail s e
          | (.ok ct, s) =>
            match Config.hpkeOpen s.boots (toBytes 1 fn ++ toBytes 1 slot) (h.take 133) ct with
            | none => .fail s .badarg
            | some key => .ok (s.modPart fn fun p => { p with
                keys := Tab.put p.keys slot key, dumpSeq := p.dumpSeq.erase slot }) []

/-- The caller's partition entries of the Sorica table, in table order. -/
def State.soricaOf (s : State) (fn : Nat) : List Byte :=
  (s.sorica.filter fun e => e.2.owner == fn && e.2.st != 2).flatMap fun e => s.soricaBytes (e.1 / 65536) (e.1 % 65536) e.2

/-- `n` bytes of a list, zeros after its end. -/
def padTo (n : Nat) (l : List Byte) : List Byte := (l ++ List.replicate n 0).take n

/-- The quote (Table 19.11). -/
def State.quote (s : State) (fn : Nat) (nonce : List Byte) : List Byte :=
  let body := toBytes 4 1 ++ toBytes 1 fn ++ toBytes 1 (if s.fuses.testmode then 1 else 0) ++ toBytes 2 s.fuses.svn ++ nonce ++
    s.measure ++ sha512 (s.soricaOf fn) ++ padTo 133 (Config.hpkePublic s.boots) ++ List.replicate 175 0
  body ++ padTo 132 (Config.identitySign body) ++ List.replicate 384 0

/-- `ATTEST`. -/
def execAttest (fn : Nat) (s : State) : Host.Outcome State Fault Refusal :=
  command 0x31 fn s anyArg fun arg _ s =>
    if s.argWaits (arg 0) 64 || ((wordsOf (arg 1).toNat 1024).any fun w => s.recordWaits (4 * w.1) s.nextId) then .pending s
    else match s.argBytes fn (arg 0) 64 with
    | (.error e, s) => .fail s e
    | (.ok nonce, s) =>
      if 2 ^ 39 < (arg 1).toNat + 1024 then .fail s .badarg
      else match s.writePhys fn (arg 1).toNat (s.quote fn nonce) [] ⟨7, s.mgmtCore, none, 0⟩ with
        | .error _ => .fail (s.logPhys fn causeRowDenied (arg 1).toNat none 7 s.mgmtCore 0) .denied
        | .ok s => .ok s []

/-- The firmware image in the boot window passes the ROM's checks (R404, Table 19.14). -/
def State.imageOk (s : State) (img : List Byte) : Bool :=
  fieldOf img 0 4 == 1 && decide (fieldOf img 4 4 ≤ 64) && decide (s.fuses.svn ≤ fieldOf img 4 4) && img.length == 512 + fieldOf img 8 4 &&
    decide (fieldOf img 0x0C 4 < fieldOf img 8 4) && ((img.drop 0x95).take 103).all (fun b => b == 0) && ((img.drop 0x180).take 128).all (fun b => b == 0) &&
    sha512 ((img.drop 0x10).take 133) == Config.fusedKeyHash &&
    Config.ecdsaVerify ((img.drop 0x10).take 133) (img.take 0xFC ++ img.drop 512) ((img.drop 0xFC).take 132)

/-- `BOOT`: steps 4 to 6 of Table 19.10. -/
def execBoot (fn : Nat) (s : State) : Host.Outcome State Fault Refusal :=
  command 0x100 fn s anyArg fun arg _ s =>
    let n := (arg 0).toNat
    if fn ≠ 0 || s.bootStep ≠ 3 then .fail s .denied
    else if n < 1024 || 2 ^ 24 < n then .fail s .badarg
    else
      let img := (List.range n).map fun i => s.bootWindow.get 0 i
      if !s.imageOk img then .fail s .badarg
      else .ok { s with
        measure := sha512 (s.measure ++ sha512 img)
        boots := s.boots + 1
        bootStep := 6
        unfilled := [(0, 2 ^ 28)]
        hearths := (List.range 8).foldl (fun (t : Tab Hearth) k => t.put k { Hearth.reset with frameAt := s.dclk }) []
        heartbeat := s.vclock } []

end Sys2Proof.Machine
end

