-- ==== Sys2Proof/Machine/Partitions.lean ====
section
/-! DEFINITION. Partitions (19 R394 to R397): resource lists, creation, resizing and destruction; function-level reset
(R402). -/

namespace Sys2Proof.Machine

/-! ## Resource lists (Table 19.6) -/

/-- A resource list. -/
structure ResList where
  hives : List Nat
  cells : List Nat
  stks : List Nat
  channels : List Nat
  l2ways : List Nat
  traceMask : Nat
  perfMask : Nat
  compMask : Nat
  link : Nat
  ranges : List (Nat × Nat)
  reservedOk : Bool

/-- Set bits of a bitmap of `n` bits at a byte offset. -/
def bitmapOf (b : List Byte) (off n : Nat) : List Nat :=
  ((b.drop off).take (n / 8)).zip (List.range (n / 8)) |>.flatMap fun x => ((List.range 8).filter x.1.getLsbD).map fun j => 8 * x.2 + j

/-- Parse a list from its first 0x970 bytes and its ranges. -/
def resList (b r : List Byte) : ResList where
  hives := bitmapOf b 0 96
  cells := bitmapOf b 12 18432
  stks := bitmapOf b 2316 8
  channels := bitmapOf b 2317 256
  l2ways := (List.range 4).map fun d => fieldOf b (0x930 + d) 1
  traceMask := fieldOf b 0x934 2
  perfMask := fieldOf b 0x938 8
  compMask := fieldOf b 0x940 32
  link := fieldOf b 0x964 4
  ranges := (List.range (r.length / 16)).map fun i => (fieldOf r (16 * i) 8, fieldOf r (16 * i + 8) 8)
  reservedOk := fieldOf b 0x936 2 == 0 && fieldOf b 0x968 8 == 0

/-- Read a list under the rows of function 0. -/
def State.readList (s : State) (pa : DWord) : Except Status ResList × State :=
  match s.argBytes 0 pa 0x970 with
  | (.error e, s) => (.error e, s)
  | (.ok b, s) =>
    if 1024 < fieldOf b 0x960 4 then (.error .badarg, s)
    else match s.argBytes 0 (pa + 0x970) (16 * fieldOf b 0x960 4) with
      | (.error e, s) => (.error e, s)
      | (.ok r, s) => (.ok (resList b r), s)

/-- The list's bytes cannot be read yet. -/
def State.listWaits (s : State) (pa : DWord) : Bool :=
  s.argWaits pa 0x970 || match s.argBytes 0 pa 0x970 with
    | (.ok b, _) => s.argWaits (pa + 0x970) (16 * min 1024 (fieldOf b 0x960 4))
    | _ => false

/-- The list is consistent in itself (R394). Sixteen consecutive rows reach every stack, so the first sixteen of a range
show the stacks it needs. -/
def ResList.consistent (l : ResList) : Bool :=
  l.reservedOk && decide (l.link ≤ 1) && (l.cells.all fun c => l.hives.contains (c / 192)) &&
    (l.channels.all fun c => l.stks.contains (c / 32)) && (l.l2ways.all fun w => decide (w ≤ 15)) &&
    l.ranges.all fun r => decide (r.1 + r.2 ≤ Config.reservedRow * 4096) &&
      (List.range (min r.2 16)).all fun i => l.stks.contains (stackOfPa (2048 * (r.1 + i)))

/-- The numbers of a mask's set bits. -/
def maskBits (n m : Nat) : List Nat := (List.range n).filter m.testBit

/-- The Sorica entries a list names. -/
def ResList.entries (l : ResList) : List (Nat × Nat) :=
  l.hives.map (fun i => (1, i)) ++ l.cells.map (fun i => (2, i)) ++ l.stks.map (fun i => (4, i)) ++ l.channels.map (fun i => (5, i)) ++
    (maskBits 256 l.compMask).map (fun i => (9, i)) ++ (maskBits 64 l.perfMask).map (fun i => (10, i)) ++ (maskBits 16 l.traceMask).map fun i => (11, i)

/-- A row lies in a range. -/
def inRange (r : Nat × Nat) (row : Nat) : Bool := decide (r.1 ≤ row) && decide (row < r.1 + r.2)

/-- Rows of a range that belong to no function and have been filled, or belong already to `vf`. -/
def State.rowsFree (s : State) (vf : Nat) (r : Nat × Nat) : Bool :=
  !(s.perms.any fun p => inRange r p.1 && p.2.owner != 0x7F && p.2.owner != vf) &&
    !(s.unfilled.any fun u => decide (u.1 < r.1 + r.2) && decide (r.1 < u.1 + u.2) && decide (0 < u.2) && decide (0 < r.2))

/-- The resources that a list names beyond `had` are free, and the L2 ways suffice (R394, R397). -/
def State.available (s : State) (vf : Nat) (had : List (Nat × Nat)) (l : ResList) : Bool :=
  (l.entries.all fun e => had.contains e || s.soricaSt e.1 e.2 == 0) && (l.ranges.all (s.rowsFree vf)) &&
    (List.range 4).all fun d =>
      let others := ((s.parts.filter fun p => p.1 != vf).map fun p => p.2.l2ways.getD d 0).sum
      decide (others + l.l2ways.getD d 0 ≤ 15)

/-- The list of a partition. -/
def Partition.toList (p : Partition) : ResList :=
  ⟨p.hives, p.cells, p.stks, p.channels, p.l2ways, p.traceMask, p.perfMask, p.compMask, p.link, p.ranges, true⟩

/-- The rows of ranges. -/
def rowsOf (l : List (Nat × Nat)) : List Nat := l.flatMap fun r => (List.range r.2).map (r.1 + ·)

/-- The row number PA ÷ 2,048 of a row that is open in a slice-bank. -/
def openRowOf (ix row : Nat) : Nat := paOf (ix / 8192) (ix / 256 % 32) (ix % 16) row 0 / 2048

/-- Before the entries of rows change, accesses under the old ones end: their words leave the caches, their queued words are served
or given up, and those of the rows that are open close (R115). -/
def State.quietRows (s : State) (rows : List Nat) : State :=
  if rows.isEmpty then s
  else
    let mine (w : Nat) : Bool := rows.contains (w / 512)
    let s := s.drainWords mine
    let shut := s.openRows.filter fun o => rows.contains (openRowOf o.1 o.2.row)
    { s with
      wordQ := s.wordQ.mapVals fun q => q.filter fun r => !mine r.word
      openRows := s.openRows.filter fun o => !rows.contains (openRowOf o.1 o.2.row)
      prechargeAt := shut.foldl (fun (t : Tab Nat) o => t.put o.1 (max s.dclk (o.2.at_ + 80))) s.prechargeAt }

/-- Give rows to a partition with all rights (R115). -/
def State.giveRows (s : State) (vf : Nat) (rows : List Nat) : State :=
  let s := s.quietRows rows
  { s with perms := rows.foldl (fun (t : Tab Perm) r => t.put r ⟨vf, true, true, true⟩) s.perms }

/-- The stacks' entries show how many of their rows await zero fill (R396). -/
def State.showUnfilled (s before : State) : State := s.each (List.range 8) fun s k => s.soricaTouch before 4 k

/-- Take rows away: no owner, and zero fill to come (R396). -/
def State.takeRows (s : State) (rows : List Nat) : State :=
  if rows.isEmpty then s
  else
    let s := s.quietRows rows
    ({ s with
      perms := rows.foldl (fun (t : Tab Perm) r => t.erase r) s.perms
      unfilled := s.unfilled ++ rows.map fun r => (r, 1) } : State).showUnfilled s

/-- Every frame fits the ways that its function has now (R395, R397). -/
def State.trimWays (s : State) : State := s.each ((s.l2.map fun x => x.1 / 64).dedup) fun s f => s.l2Trim f 34

/-- `PCREATE` (R394). -/
def execPcreate (fn : Nat) (s : State) : Host.Outcome State Fault Refusal :=
  hvCommand 0x01 fn s anyArg fun arg _ s =>
    let vf := (arg 0).toNat
    let n := (arg 3).toNat
    if vf = 0 || 64 < vf || n < 6 || 16 < n || 2 ^ 39 < (arg 2).toNat + 32 * 2 ^ n || !narrow 1 (arg 4) then .fail s .badarg
    else if (s.part? vf).isSome then .fail s .busy
    else if s.listWaits (arg 1) then .pending s
    else match s.readList (arg 1) with
      | (.error e, s) => .fail s e
      | (.ok l, s) =>
        if !l.consistent then .fail s .badarg
        else if !s.available vf [] l then .fail s .nores
        else
          let p : Partition := {
            hives := l.hives, cells := l.cells, stks := l.stks, channels := l.channels, l2ways := l.l2ways, traceMask := l.traceMask
            perfMask := l.perfMask, compMask := l.compMask, ranges := l.ranges, link := l.link, replay := (arg 4).getLsbD 0
            log := ⟨(arg 2).toNat, n, 0, 0, false⟩, queues := [], queueRot := 0, pool := [], pkgRot := 0, dieRot := [], keys := []
            dumpSeq := [], interval := 0, boundary := 0, undo := [], undoDone := 0, gone := [], startVals := []
            ckpt := if (arg 4).getLsbD 0 then some Checkpoint.empty else none
            reexec := false, hostHeld := [], hostLog := [], rehost := [], replayTo := 0, trail := [], retrail := []
            soloHolder := none, soloSince := 0, soloWait := [], returned := [] }
          let s := (s.giveRows vf (rowsOf l.ranges)).each l.entries fun s e => s.setSorica e.1 e.2 1 vf
          let s := if p.replay then s.each l.hives fun s h => s.modHive h fun y => { y with start := some y.comb } else s
          .ok ({ s with parts := s.parts.put vf p } : State).trimWays []

/-- Mark resources free. -/
def State.freeEntries (s : State) (l : List (Nat × Nat)) : State :=
  s.each l fun s e => if s.soricaSt e.1 e.2 = 1 then s.setSorica e.1 e.2 0 0xFF else s

/-- End the contexts of a partition as CTXRESET does. -/
def State.resetContexts (s : State) (p : Nat → Context → Bool) : State :=
  s.each ((s.contexts.filter fun c => p c.1 c.2).map (·.1)) State.resetContext

/-- Stoves of a channel forget their last launch. -/
def State.clearStoves (s : State) (chans : List Nat) : State := { s with stoves := s.stoves.filter fun x => !chans.contains x.1 }

/-- Updates of a partition's counters that its ended contexts still owe (R45, R370). -/
def State.owesUpdates (s : State) (vf : Nat) : Bool :=
  s.engineQ.any fun q => q.vf == vf && match q.op with
    | .write _ => false
    | _ => true

/-- `PDESTROY` (R396). Its contexts end first; what they still owe their counters is added before their translations go. -/
def execPdestroy (fn : Nat) (s : State) : Host.Outcome State Fault Refusal :=
  hvCommand 0x03 fn s anyArg fun arg _ s =>
    let vf := (arg 0).toNat
    match s.part? vf with
    | none => .fail s .badarg
    | some p =>
      let s := if s.mboxCur = some fn then s
        else (s.resetContexts fun _ c => c.vf == vf).modPart vf fun p => { p with queues := [] }
      if s.owesUpdates vf then .pending s else
      let s := s.unclaimAll vf
      let s := (((s.takeRows (rowsOf p.ranges)).freeEntries p.toList.entries).clearStoves p.channels)
      .ok { s with
        parts := s.parts.erase vf
        hives := s.hives.map fun h => if p.hives.contains h.1 then (h.1, { h.2 with start := none }) else h
        contexts := s.contexts.filterVals fun c => c.vf != vf
        buckets := s.buckets.filter fun b => b.1 / 768 != vf
        heldReq := s.heldReq.filter fun b => b.1 / 768 != vf
        pkgQ := s.pkgQ.filter fun q => q.1 / 4 != vf } []

/-! ## Resizing (R395) -/

/-- Contexts with a team on one of these hives, or saved for one of their cores. -/
def State.contextsOn (s : State) (hives : List Nat) : List Nat :=
  (s.contexts.filter fun c =>
    (s.teams.any fun t => hives.contains (t.1 / 32) && s.ctxIdOfTeam t.1 == c.1) || c.2.saved.any fun t => hives.contains (hiveOfCore t.core)).map (·.1)

/-- Contexts with a running stove on one of these channels. -/
def State.contextsUsing (s : State) (chans : List Nat) : List Nat :=
  ((s.stoves.filter fun x => chans.contains x.1 && x.2.busy).map fun x => x.2.ctx).dedup

/-- Teams of a grid that have still to be placed. -/
def Grid.unplaced (g : Grid) : Nat := g.lr.teams - g.placed - g.dropped

/-- Discard the unplaced teams of a grid: its error word receives LAUNCH_INVALID, and the log a record (R395, R368). -/
def State.dropUnplaced (s : State) (k : Nat) : State :=
  match s.grid? k with
  | none => s
  | some g =>
    let keep (l : List Range) : List Range := l.filter fun r => r.grid != k
    let s : State := { s with
      pkgQ := s.pkgQ.mapVals keep, dieQ := s.dieQ.mapVals keep
      parts := s.parts.mapVals fun p => { p with returned := keep p.returned, pool := p.pool.filter (· ≠ k) } }
    ((s.modGrid k fun g => { g with handed := g.lr.teams, dropped := g.dropped + g.unplaced, st := .ready }).ewErrorOn g.ctx g.vf (namedCounter g.lr.counter) causeInvalid
      (seenBit causeInvalid)).logVirt 0 g.ctx g.vf causeInvalid g.lrec 8 4 0

/-- Ranges queued at removed hives, and at dies that lose their last hive, go back to the package distributor (R362); the stopped
grids' ranges are gone. -/
def State.returnRanges (s : State) (vf : Nat) (hives left : List Nat) : State :=
  let gone (q : Nat) : Bool := q / 4 == vf && !left.any fun h => dieOfHive h == q % 4
  let back := ((s.pkgQ.filter fun q => gone q.1) ++ s.dieQ.filter fun q => hives.contains q.1).flatMap fun q => q.2.filter fun r => decide (r.lo ≤ r.hi)
  ({ s with
      pkgQ := s.pkgQ.filter fun q => !gone q.1
      dieQ := s.dieQ.filter fun q => !hives.contains q.1 } : State).modPart vf fun p => { p with returned := p.returned ++ back }

/-- Replace the resources; the link stays that of the creation (R385). -/
def State.applyList (s : State) (vf : Nat) (p : Partition) (l : ResList) : State :=
  let old := p.toList
  let goneHives := old.hives.filter fun h => !l.hives.contains h
  let goneRows := (rowsOf old.ranges).filter fun r => !l.ranges.any fun x => inRange x r
  let newRows := (rowsOf l.ranges).filter fun r => !old.ranges.any fun x => inRange x r
  let s := s.returnRanges vf goneHives l.hives
  let s := (s.takeRows goneRows).giveRows vf newRows
  let s := s.freeEntries (old.entries.filter fun e => !l.entries.contains e)
  let s := s.each (l.entries.filter fun e => !old.entries.contains e) fun s e => s.setSorica e.1 e.2 1 vf
  let s := s.each (old.entries.filter fun e => (e.1 == 10 || e.1 == 11) && !l.entries.contains e) fun s e => s.unclaim vf e.1 e.2
  let s := s.clearStoves (old.channels.filter fun c => !l.channels.contains c)
  -- a hive egress setting holds for every hive of the partition, a new hive's own bucket being full (R399, Table 6.1)
  let s := match p.hives.findSome? fun h => s.buckets.find? (bucketIx vf 0 h) with
    | some b => s.each (l.hives.filter fun h => !old.hives.contains h) fun s h => { s with buckets := s.buckets.put (bucketIx vf 0 h) { b with level := b.burst } }
    | none => s
  -- the hives of a replay partition keep what their combs held as the quantum began (R414)
  let s := if !p.replay then s else
    (s.each (l.hives.filter fun h => !old.hives.contains h) fun s h => s.modHive h fun y => { y with start := some y.comb }).each goneHives fun s h =>
      s.modHive h fun y => { y with start := none }
  -- L2 ways that are taken away are cleared: dirty words are written back and frames dropped (R395)
  (s.modPart vf fun p => { p with
    hives := l.hives, cells := l.cells, stks := l.stks, channels := l.channels, l2ways := l.l2ways, traceMask := l.traceMask
    perfMask := l.perfMask, compMask := l.compMask, ranges := l.ranges }).trimWays

/-- `PRESIZE` (R395). -/
def execPresize (fn : Nat) (s : State) : Host.Outcome State Fault Refusal :=
  hvCommand 0x02 fn s anyArg fun arg m s =>
    let vf := (arg 0).toNat
    match s.part? vf with
    | none => .fail s .badarg
    | some p =>
      if s.listWaits (arg 1) then .pending s else
      match s.readList (arg 1) with
      | (.error e, s) => .fail s e
      | (.ok l, s) =>
        if !l.consistent then .fail s .badarg
        else if !s.available vf p.toList.entries l then .fail s .nores
        else
          let goneHives := p.hives.filter fun h => !l.hives.contains h
          let goneChans := p.channels.filter fun c => !l.channels.contains c
          let ends := ((s.contextsOn goneHives) ++ s.contextsUsing goneChans).dedup
          let q := { p with hives := l.hives, cells := l.cells }
          let stuck := (s.grids.filter fun g => g.2.vf == vf && !ends.contains g.2.ctx && decide (0 < g.2.unplaced) && !s.hasRoom q g.2.lr).map (·.1)
          if !m.force && (!ends.isEmpty || !stuck.isEmpty) then .fail s .busy
          else
            let s := s.each ends State.resetContext
            let s := s.each stuck State.dropUnplaced
            .ok (s.applyList vf p l) []

/-! ## Function-level reset (R402) -/

/-- `FUNCTION_LEVEL_RESET` of a VF: its contexts end, its claims and keys go, and its mailbox is as after reset. -/
def execFunctionLevelReset (vf : Nat) (s : State) : Host.Outcome State Fault Refusal :=
  if vf = 0 || 64 < vf then .next s
  else
    -- a command of the function that executes ends with its mailbox, a flip without effect
    let s : State := if s.mboxCur = some vf then { s with flips := [], mboxCur := none } else s
    let s := (s.resetContexts fun _ c => c.vf == vf).unclaimAll vf
    let s := s.modPart vf fun p => { p with keys := [], dumpSeq := [] }
    let s := s.drainEngine
    .next { s with mailboxes := s.mailboxes.erase vf, mboxOrder := s.mboxOrder.filter (· ≠ vf), f0Run := s.f0Run.erase vf }

end Sys2Proof.Machine
end

