-- ==== Sys2Proof/Machine/Preempt.lean ====
section
/-! DEFINITION. Pre-emption's save and restore of teams (18 R380 to R384; 03 R67; 14 R308, R318; 05 R106). -/

namespace Sys2Proof.Machine

/-! ## Renaming -/

/-- Rename the tiles of an operation, and the cell of a pass. -/
def MatOp.rename (m : MatOp) (tile cell : Nat → Nat) : MatOp :=
  match m with
  | .pass p => .pass { p with tile0 := tile p.tile0, tile1 := p.tile1.map tile, cell := cell p.cell }
  | .mget x => .mget { x with tile := tile x.tile }
  | .mput x => .mput { x with tile := tile x.tile }
  | .mzero t => .mzero (tile t)

/-- It is a posted pass. -/
def MatOp.isPass : MatOp → Bool
  | .pass _ => true
  | _ => false

/-- Entries of a table indexed by cell × size + offset that lie in some cells, with the cells renamed; in order when the
new names rise with the old. -/
def renameCells {α : Type} (size : Nat) (f : Nat → Option Nat) (t : Tab α) : Tab α :=
  t.filterMap fun y => (f (y.1 / size)).map fun c => (c * size + y.1 % size, y.2)

/-- The same for a list of indices. -/
def renameIxs (size : Nat) (f : Nat → Option Nat) (l : List Nat) : List Nat :=
  l.filterMap fun i => (f (i / size)).map fun c => c * size + i % size

/-- Put the entries of one table into another. -/
def putAll {α : Type} (t u : Tab α) : Tab α := u.foldl (fun t y => t.put y.1 y.2) t

/-- Rename a team's warps in what a release of theirs carries: by number while the team is saved, by slot again once restored. -/
def RelInfo.rename (r : RelInfo) (old new : Nat) (slot : Nat → Nat) : RelInfo :=
  if r.team = old && r.core < 384 then { r with team := new, slot := slot r.slot } else r

/-- Rename them wherever something carries a release (R344, R345). -/
def State.renameRels (s : State) (f : RelInfo → RelInfo) : State :=
  let ren (l : List RelInfo) : List RelInfo := l.map f
  let warp (w : Warp) : Warp := { w with relT := w.relT.mapVals ren, got := ren w.got }
  { s with
    rel := s.rel.mapVals ren
    cores := s.cores.mapVals fun c => { c with l1 := c.l1.mapVals fun x => { x with rel := x.rel.mapVals ren } }
    warps := s.warps.mapVals warp
    engineQ := s.engineQ.map fun q => { q with by_ := f q.by_ }
    contexts := s.contexts.mapVals fun c => { c with saved := c.saved.map fun v => { v with warps := v.warps.map warp } } }

/-- Rename a team in what its engine operations and screens leave outside it: team, and core and slot of its warps. -/
def State.renameTeam (s : State) (old new core : Nat) (slot : Nat → Nat) : State :=
  let scr (t : Team) : Team := { t with screen := t.screen.map fun x => { x with other := x.other.map fun o => if o = old then new else o } }
  { s with
    gathers := s.gathers.mapVals fun g => if g.team = old then { g with team := new, core := core, slot := slot g.slot } else g
    coll := s.coll.mapVals fun l => l.map fun o => if o.team = old then { o with team := new, core := core, slot := slot o.slot } else o
    teams := s.teams.mapVals scr
    contexts := s.contexts.mapVals fun c => { c with saved := c.saved.map fun v => { v with team := scr v.team } } }

/-! ## Save (R380, R382) -/

/-- Nothing that must end before the save is open: loads, stores, atomics, commits, special functions, slab reads, granted
passes, conversions (R287, R308, R380); but a conversion that waits for copies, which stop where they are (R318), is saved so. -/
def State.saveReady (s : State) (ctx : Nat) : Bool :=
  let ts := s.teamsOf ctx
  let mine (ix : Nat) : Bool := ts.any fun t => t.1 == ix
  let ours (core slot : Nat) : Bool := ts.any fun t => t.1 / 8 == core && t.2.slots.contains slot
  !((s.loads.any fun l => l.2.ctx == ctx) || (s.stores.any fun x => mine x.2.team) || (s.atomics.any fun x => mine x.2.team) ||
    (s.pend.any fun p => p.2.sysc.isNone && ours p.2.core p.2.slot) || (s.slabs.any fun x => mine x.2.team && x.2.data.isNone) ||
    (s.posted.any fun p => mine p.2.team && match p.2.op with
      | .pass q => q.granted
      | _ => false) ||
    (s.warps.any fun w => mine w.2.team && w.2.tx.any fun y => y.2.commit.isSome) ||
    ts.any fun t => (s.hive (t.1 / 32)).regions.any fun r =>
      r.2.st == 1 && r.2.owner == hiveTeamSlot t.1 && r.2.gen == t.2.gen && !s.copyOpen r.2.before)

/-- The name of a cell in a team's record: its place in the team's allocation, or the sibling and the place in the sibling's (R296). -/
def State.cellName (s : State) (hive : Nat) (t : Team) (k : Nat) : Nat :=
  if awayCell k then k
  else match t.cells.idxOf? k with
    | some i => i
    | none => (s.teams.findSome? fun y => if y.1 / 32 = hive then (y.2.cells.idxOf? k).map (siblingCell y.2.born) else none).getD 0

/-- Where the cells of a name lie now: those of a team that is not there keep it. -/
def State.cellNamed (s : State) (hive : Nat) (cells : List Nat) (n : Nat) : Nat :=
  if !awayCell n then cells.getD n 0
  else (s.teams.findSome? fun y => if y.1 / 32 = hive && siblingCell y.2.born 0 = n / 4096 * 4096 then y.2.cells[n % 4096]? else none).getD n

/-- The number of a tile that is gone while passes for it have still to run: nothing will read it (R382). -/
def goneTile (k : Nat) : Nat := if 128 ≤ k then k else 128 + k

/-- Where a team's record goes in its context's save area: behind those that are there; first byte and words (Table 18.5). -/
def Context.savePlace (c : Context) (size : Nat) : Nat × Nat :=
  let used := c.saved.foldl (fun m v => max m (v.place.1 + 4 * v.place.2 - c.savebase.toNat)) 0
  (c.savebase.toNat + used, (min size (c.savesize - used)) / 4)

/-- The save record of a team. Names whose FOREIGN tile is not yet theirs hold +0, or what they have to reload. -/
def State.record (s : State) (eager : Bool) (ix : Nat) (t : Team) : SavedTeam :=
  let core := ix / 8
  let c := s.core core
  let h := s.hive (ix / 32)
  let pos (k : Nat) : Option Nat := t.cells.idxOf? k
  let name (k : Nat) : Nat := (t.rename.idxOf? (some k)).getD (if eager then goneTile k else if 128 ≤ k then k else 64 + k)
  let num (slot : Nat) : Nat := (t.slots.idxOf? slot).getD 0
  let live := (t.seq.map (·.live)).getD 255
  let kept (n : Nat) : Option Nat := (t.rename.getD n none).filter fun k => (c.tile k).st == .bound && !eager
  let tiles : Tab Tile := (List.range 8).filterMap fun n => match t.rename.getD n none with
    | none => none
    | some k =>
      if (c.tile k).st != .bound then some (n, if eager && !live.getLsbD n then Tile.zero else (t.reload.find? k).getD Tile.zero)
      else if eager then some (n, if live.getLsbD n then c.tile k else Tile.zero) else none
  { core := core
    team := { t with
      rename := (List.range 8).map kept
      reload := []
      seq := t.seq.map fun q => { q with spill := none } }
    warps := t.slots.filterMap fun w => (s.warp? core w).map fun v =>
      { v with
        entries := v.entries.mapVals fun e => if e.wait = .solo then { e with wait := .none } else e
        owed := [] }
    comb := renameCells 8192 pos h.comb
    undef := h.undef.filterMap pos
    combPoison := renameIxs 8192 pos h.poison
    combErr := renameCells 8192 pos h.err
    exps := renameCells 2048 pos h.exps
    regions := (h.regions.filter fun r => r.2.owner == hiveTeamSlot ix && r.2.gen == t.gen).map fun r =>
      (min r.1 16, { r.2 with cells := r.2.cells.filterMap pos })
    posted := (s.posted.filter fun p => p.2.team == ix).map fun p => (p.1, { p.2 with op := p.2.op.rename name (s.cellName (ix / 32) t) })
    slabs := s.slabs.filter fun x => x.2.team == ix
    copies := h.copy.flatMap fun q => (q.2.filter fun o => o.team == ix).map fun o => (q.1, { o with slot := num o.slot })
    tiles := tiles
    pend := (s.pend.filter fun p => p.2.core == core && t.slots.contains p.2.slot).map fun p => (p.1, { p.2 with slot := num p.2.slot })
    place := (0, 0) }

/-- Save a team: its record joins the context's save area, whose bytes are open (assumption 62), and all but its tiles leaves the core
(R380, R382). -/
def State.saveTeam (s : State) (ctx : Nat) (eager : Bool) (ix : Nat) (t : Team) : State :=
  let size := ((s.grid? t.grid).map fun g => s.recordSize eager ix t g.lr).getD 0
  let v := { s.record eager ix t with place := ((s.ctx? ctx).map fun c => c.savePlace size).getD (0, 0) }
  let core := ix / 8
  let me := savedName t.born
  let s := s.releaseComb ix t
  let s := s.modHive (ix / 32) fun h => { h with copy := h.copy.mapVals fun q => q.filter fun o => o.team != ix }
  let tag (k : Nat) (x : Tile) : Tile :=
    if x.ctx = ctx && x.team = ix && x.st != .free then
      if v.team.rename.contains (some k) then { x with st := .foreign, team := me }
      else if x.st = .draining && !eager then { x with team := me } else Tile.zero
    else x
  let s := s.each (List.range 24) fun s k => s.modTile core k (tag k)
  -- siblings' passes for its cells name them by its allocation (R296)
  let away (p : Posted) : Posted :=
    { p with op := p.op.rename id fun k => if p.team / 32 = ix / 32 then ((t.cells.idxOf? k).map (siblingCell t.born)).getD k else k }
  let s : State := { s with
    warps := s.warps.filter fun w => !(w.1 / 32 == core && t.slots.contains (w.1 % 32))
    teams := s.teams.erase ix
    stalls := s.stalls.filter fun y => !(y.core == core && if y.entry = 16 then teamIx core y.slot == ix else t.slots.contains y.slot)
    posted := Tab.mapVals away (s.posted.filter fun p => p.2.team != ix)
    slabs := s.slabs.filter fun x => x.2.team != ix
    pend := s.pend.filter fun p => !(p.2.core == core && t.slots.contains p.2.slot) }
  let s := s.renameTeam ix me (512 + core) fun w => (t.slots.idxOf? w).getD 0
  let vf := ((s.ctx? ctx).map (·.vf)).getD 0
  let s := if s.mayWrite vf v.place.1 (4 * v.place.2) then s.openFill v.place.1 v.place.2 else s
  let s := s.modPart vf fun p => { p with soloWait := p.soloWait.filter fun h => !(h.1 == core && t.slots.contains h.2.1) }
  (s.modCtx ctx fun c => { c with saved := c.saved ++ [v] }).renameRels fun r =>
    r.rename ix me fun w => 32 * (t.born + 1) + (t.slots.idxOf? w).getD 0

/-- Unstarted ranges of a context go back to the package distributor (R106). -/
def State.returnOfCtx (s : State) (ctx vf : Nat) : State :=
  let ours (r : Range) : Bool := ((s.grid? r.grid).map (·.ctx)) == some ctx
  let back := (s.pkgQ.flatMap (·.2) ++ s.dieQ.flatMap (·.2)).filter ours
  ({ s with
    pkgQ := s.pkgQ.mapVals fun l => l.filter fun r => !ours r
    dieQ := s.dieQ.mapVals fun l => l.filter fun r => !ours r } : State).modPart vf fun p => { p with returned := p.returned ++ back }

/-- The limit of a grid's barriers (Table 2.5). -/
def LaunchRec.limit (r : LaunchRec) : Nat := if r.watchdog = 0 then 2 ^ 32 else r.watchdog.toNat

/-- Barriers of a context at their limit: team and barrier, ascending. Their wait counters rise while it is live; where it is halted in
the clock in which one reaches its limit, the context ends all the same (R375). -/
def State.expiredBars (s : State) (ctx : Nat) : List (Nat × Nat) :=
  if !((s.ctx? ctx).map fun c => c.st == .live || c.st == .halting).getD false then []
  else (s.teamsOf ctx).flatMap fun kt =>
    let lim := ((s.grid? kt.2.grid).map (·.lr.limit)).getD (2 ^ 32)
    (kt.2.bars.filter fun b => b.2.arrived != 0 && !b.2.abandon && decide (lim ≤ b.2.waitCnt)).map fun b => (kt.1, b.1)

/-- `CONTEXT_SAVE`: the teams' records, then the add to the counter of the request. -/
def execContextSave (ctx : Nat) (s : State) : Host.Outcome State Fault Refusal :=
  match s.ctx? ctx with
  | none => .next s
  | some c =>
    if c.st != .halting || !s.saveReady ctx || !(s.expiredBars ctx).isEmpty then .next s
    else
      let s := s.each (s.teamsOf ctx) fun s kt => match s.team? kt.1 with
        | some t => s.saveTeam ctx c.eager kt.1 t
        | none => s
      let s := (s.returnOfCtx ctx c.vf).modCtx ctx fun c => { c with st := .saved, saveCounter := none }
      .next (match c.saveCounter with
        | some (fn, a) => s.counterUpdate ⟨ctx, fn, a, true, false, s.nextId, .add 1, noParty⟩
        | none => s)

/-! ## Restore (R381, R383, R384) -/

/-- The queues have room for the operations of a saved team: channels, reservation table, collective and command queues (R106). -/
def State.queueFit (s : State) (v : SavedTeam) : Bool :=
  let hive := hiveOfCore v.core
  let me := savedName v.team.born
  let live (k : Nat) (q : List NearCmd) : Nat := (q.filter fun c => ((s.gathers.find? c.op).map (·.team)) == some me).length + (s.nearQueue k).length
  ((List.range 16).all fun ch =>
    let n := (v.copies.filter fun y => y.1 == ch).length
    n == 0 || decide (((s.hive hive).channel ch).length + n ≤ 5)) &&
  (let n := (v.posted.filter fun p => p.2.op.isPass).length
   n == 0 || decide ((s.passes hive).length + n ≤ 64)) &&
  (s.coll.all fun q =>
    let n := (q.2.filter fun o => o.team == me).length
    n == 0 || decide ((s.collQueued q.1).length + n ≤ 64)) &&
  s.hearths.all fun h => decide (live h.1 h.2.queue ≤ 256)

/-- Where a saved team would return to: team slot, warp slots, cells. A spill of one of its tiles that was asked for comes
first (R384). -/
def State.restoreFit (s : State) (c : Context) (p : Partition) (g : Grid) (v : SavedTeam) : Option (Nat × List Nat × List Nat) :=
  let hive := hiveOfCore v.core
  let names := (List.range g.lr.accs).filter fun n => (v.team.rename.getD n none).isNone
  if c.st != .live || (v.team.rename.filterMap id).any (s.tileClaimed v.core) || !s.coreThere p v.core || 2 ≤ s.soricaSt 15 v.core || (s.freeSlots v.core).length < v.warps.length ||
      3072 < s.warpRegs v.core + v.warps.length * g.lr.vregs || (s.takeable v.core g.ctx).length < names.length || !s.queueFit v ||
      v.regions.any fun r => r.1 < 16 && ((s.hive hive).regions.find? r.1).isSome then none
  else match s.freeTeam v.core, s.cellRun p hive v.team.cells.length with
    | some t, some cells => some (t, (s.freeSlots v.core).take v.warps.length, cells)
    | _, _ => none

/-- Operations outstanding somewhere: others of a restored warp have completed meanwhile (R134). -/
def State.outstanding (s : State) (id : Nat) : Bool :=
  (s.gathers.find? id).isSome || (s.posted.find? id).isSome || ((s.slabs.find? id).map fun x => x.data.isNone).getD false ||
    (s.hives.any fun h => h.2.copy.any fun q => q.2.any fun o => o.id == id) || s.coll.any fun q => q.2.any fun o => o.id == id

/-- Retire the operations of a warp that have completed. -/
def State.retireDone (s : State) (core slot : Nat) : State :=
  s.modWarp core slot fun w =>
    let ops := w.ops.map fun y => if s.outstanding y.2.1 then y else (y.1, y.2.1, true)
    { w with ops := (List.range 4).foldl (fun l c => retireOps c false l) ops }

/-- The comb allocation of a restored team, sealed cells in cell form. -/
def Hive.restore (h : Hive) (v : SavedTeam) (ix : Nat) (cells : List Nat) : Hive :=
  let new (p : Nat) : Option Nat := cells[p]?
  let h : Hive := h.undefine cells
  { h with
    undef := (h.undef.filter fun c => !cells.contains c) ++ v.undef.filterMap new
    comb := putAll h.comb (renameCells 8192 new v.comb)
    poison := h.poison ++ renameIxs 8192 new v.combPoison
    err := putAll h.err (renameCells 8192 new v.combErr)
    exps := putAll (h.exps.filter fun e => !cells.contains (e.1 / 2048)) (renameCells 2048 new v.exps)
    regions := putAll h.regions (v.regions.map fun r =>
      (if r.1 = 16 then 16 + hiveTeamSlot ix else r.1, { r.2 with owner := hiveTeamSlot ix, cells := r.2.cells.filterMap new })) }

/-- Bind a name of a restored team: its FOREIGN tile, or the saved content in the lowest takeable tile, which may have to be spilled
first (R383, R384). -/
def State.rebindName (s : State) (v : SavedTeam) (g : Grid) (ix n : Nat) : State :=
  let set (s : State) (k : Nat) : State := s.modTeam ix fun t => { t with rename := t.rename.set n (some k) }
  match v.team.rename.getD n none with
  | some k => s.modTile v.core k fun x => { x with st := .bound, team := ix }
  | none => match s.takeable v.core g.ctx with
    | [] => s
    | k :: _ =>
      let x := (v.tiles.find? n).getD Tile.zero
      if ((s.core v.core).tile k).st = .foreign then
        (set (s.modTeam ix fun t => { t with reload := t.reload.put k x }) k).askSpill v.core k
      else set (s.modTile v.core k fun _ => { x with st := .bound, team := ix, ctx := g.ctx }) k

/-- An operation returns to its place in a channel: by age, behind one that has begun (R106). -/
def insertOp (op : CopyOp) : List CopyOp → List CopyOp
  | [] => [op]
  | o :: l => if o.begun || decide (o.id < op.id) then o :: insertOp op l else op :: o :: l

/-- Put a saved team back. -/
def State.restoreTeam (s : State) (v : SavedTeam) (g : Grid) (slot : Nat) (slots cells : List Nat) : State :=
  let core := v.core
  let ix := teamIx core slot
  let me := savedName v.team.born
  let s : State := { s with teams := s.teams.put ix { v.team with slots := slots, cells := cells, reload := [] } }
  let s := s.each (slots.zip v.warps) fun s w => s.setWarp core w.1 { w.2 with team := ix, wrote := w.2.wrote.filter fun y => !s.inDram y.1 }
  let s := s.modHive (hiveOfCore core) fun h => h.restore v ix cells
  let s := s.each (List.range g.lr.accs) fun s n => s.rebindName v g ix n
  let s := s.each (List.range 24) fun s k => s.modTile core k fun x => if x.team = me && x.st = .draining then { x with team := ix } else x
  let names := ((s.team? ix).map (·.rename)).getD []
  let tile (n : Nat) : Nat := if 128 ≤ n then n else if 64 ≤ n then n - 64 else (names.getD n none).getD 0
  let s := s.each ((v.posted.flatMap fun p => p.2.op.tiles).filter fun n => decide (128 ≤ n)) fun s n => s.modTile core n fun _ =>
    { Tile.zero with st := .draining, team := ix, ctx := g.ctx }
  let here := s
  let back (p : Posted) : Posted :=
    if p.team / 32 = ix / 32 then { p with op := p.op.rename id fun k => if awayCell k then here.cellNamed (ix / 32) [] k else k } else p
  let s : State := { s with
    posted := Tab.mapVals back (putAll s.posted (v.posted.map fun p => (p.1, ⟨ix, p.2.op.rename tile (here.cellNamed (hiveOfCore core) cells)⟩)))
    slabs := putAll s.slabs (v.slabs.map fun x => (x.1, { x.2 with team := ix }))
    pend := putAll s.pend (v.pend.map fun p => (p.1, { p.2 with slot := slots.getD p.2.slot 32 })) }
  let s := s.modHive (hiveOfCore core) fun h => v.copies.foldl (fun (h : Hive) o =>
    { h with copy := h.copy.put o.1 (insertOp { o.2 with team := ix, slot := slots.getD o.2.slot 32 } (h.channel o.1)) }) h
  let s := (s.renameTeam me ix core fun n => slots.getD n 32).renameRels fun r => r.rename me ix fun n => slots.getD (n % 32) 32
  s.each slots fun s w => s.retireDone core w

/-- `TEAM_RESTORE`. -/
def execTeamRestore (ctx index : Nat) (s : State) : Host.Outcome State Fault Refusal :=
  match (s.ctx? ctx).bind fun c => (c.saved[index]?).map fun v => (c, v) with
  | none => .next s
  | some (c, v) =>
    match s.part? c.vf, s.grid? v.team.grid with
    | some p, some g =>
      match s.restoreFit c p g v with
      | none => .next s
      | some (slot, slots, cells) =>
        .next ((s.restoreTeam v g slot slots cells).modCtx ctx fun c => { c with saved := c.saved.filter fun y => y.team.born != v.team.born })
    | _, _ => .next s

end Sys2Proof.Machine
end

