-- ==== Sys2Proof/Machine/Ready.lean ====
section
/-! DEFINITION. Which fragments may issue (02 R36 to R38; 09 R200; 06 R123; 16 R346; 17 R363; 20 R414, R416): the waits of
Table 18.3, interlocks, order among a thread's accesses, and the order of selection. -/

namespace Sys2Proof.Machine

/-! ## Interlocks (R200) -/

/-- The interlocked results an instruction of a fragment waits for, as codes of Table 20.4. -/
def State.interlocks (s : State) (core slot : Nat) (w : Warp) (mask : DWord) (i : Instr) : List Nat :=
  let p := s.pendingElems core slot w
  if p.isEmpty then []
  else
    let f := form i
    let need := (f.reads mask).map (·.1) ++ f.writes mask
    (p.filter fun x => need.contains x.2).map (·.1)

/-! ## Order among the accesses of a thread (R346; Table 10.7) -/

/-- A load in flight of threads of a mask. -/
def State.loadsOf (s : State) (core slot : Nat) (mask : DWord) : List Load :=
  (s.loads.filter fun l => l.2.core == core && l.2.slot == slot && l.2.lanes.any fun y => mask.getLsbD y.thread).map (·.2)

/-- Instructions that order a thread's earlier loads before what follows: releases, fences, arrivals, and the engine
operations that must see what those loads saw. -/
def waitsForLoads (i : Instr) : Bool :=
  match i with
  | .fence _ _ => true
  | .barArrive _ _ => true
  | .barSync _ _ => true
  | .drain _ _ => true
  | .glaunch _ _ => true
  | .txend _ _ => true
  | .st _ b => ctlKind b == 2
  | .atom _ b => decide (2 ≤ ctlKind b)
  | .ared _ b => decide (2 ≤ ctlKind b)
  | .cas16 _ b => decide (2 ≤ ctlKind b)
  | _ => (form i).cls == 12 || (form i).cls == 14

/-- Instructions that may not pass an acquire that has yet to return. -/
def waitsForAcquire (i : Instr) : Bool :=
  match i with
  | .sysc _ _ => true
  | _ => [1, 10, 11, 12, 14].contains (form i).cls

/-- The instruction must wait for accesses of the fragment's threads in flight. -/
def State.ordered (s : State) (core slot : Nat) (w : Warp) (mask : DWord) (i : Instr) : Bool :=
  let l := s.loadsOf core slot mask
  (waitsForLoads i && !l.isEmpty) ||
    (waitsForAcquire i && (l.any (fun y => y.acq != 0) || s.atomics.any fun a =>
      a.2.core == core && a.2.slot == slot && mask.getLsbD a.2.thread && (a.2.kind == 1 || a.2.kind == 3))) ||
    (match i with
      | .glaunch _ _ => w.cntStore != 0
      | _ => false)

/-- The outstanding counter the instruction would raise is at its limit (R123, R124). -/
def counterFull (w : Warp) (i : Instr) : Bool :=
  match i with
  | .brel _ _ => false
  | .kcoll _ _ => decide (63 ≤ w.counter 3)
  | .st _ _ => decide (1023 ≤ w.cntStore)
  | .stp _ _ => decide (1023 ≤ w.cntStore)
  | .stl _ _ => decide (1023 ≤ w.cntStore)
  | .atom _ _ => decide (1023 ≤ w.cntStore)
  | .ared _ _ => decide (1023 ≤ w.cntStore)
  | .cas16 _ _ => decide (1023 ≤ w.cntStore)
  | _ => if (form i).cls = 12 then decide (63 ≤ w.counter 0) else if (form i).cls = 14 then decide (63 ≤ w.counter 2) else false

/-! ## Waits (R36, R228) -/

/-- The instruction a waiting fragment stopped at. -/
def Warp.stopInstr (w : Warp) (entry : Nat) : Option Instr := (w.stopWord.find? entry).bind decodeStream

/-- A queue at which producers stall has room (R103, R105); the reservation table's producers are sequencers. -/
def State.queueRoom (s : State) (queue : Nat) : Bool :=
  if queue < 100000 then decide (((s.hive (queue / 16)).channel (queue % 16)).length < 5)
  else if queue < 200000 then s.nearRoom (queue - 100000) 1
  else if queue < 300000 then decide ((s.collQueued (queue - 200000)).length < 64)
  else if queue < 400000 then true
  else s.poolFree (queue - 400000) != 0

/-- No queue keeps the fragment stalled at its instruction: each at which it stalls has room, and no other producer has stalled
there for longer (R105). -/
def State.roomFor (s : State) (core slot entry : Nat) (e : Entry) : Bool :=
  (s.stalls.filter fun y => y.core == core && y.slot == slot && y.entry == entry && y.pc == e.pc).all fun y =>
    s.queueRoom y.queue && s.firstAt y

/-- A `wbr` of a fragment may return. -/
def State.wbrDone (s : State) (core slot entry : Nat) (w : Warp) (e : Entry) (h : Hdr) (b : MBody) : Bool :=
  let x : Ctx := ⟨core, slot, 0, e.pc, 0, .alone, 0, w, e, form (.wbr h b), w.team, s.ctxIdOfTeam w.team, s.vfOfTeam w.team,
    ((s.gridOfTeam w.team).map (·.lr)).getD (launchRec []), 0⟩
  let r := x.range b
  s.wbrReady core (s.ctxIdOfTeam w.team) r.1 r.2 (w.owed.find? entry)

/-- The condition that a fragment waits for holds, so that it may issue its instruction again. `cwait` and `cyield` are
completed by a reread of their counter, a held fragment by the party that holds it, a `yield` period by its end. The instruction
sees the scalars that it read when it issued (R200). -/
def State.waitOver (s : State) (core slot entry : Nat) (v : Warp) (e : Entry) : Bool :=
  let w := v.asRead entry
  let i := w.stopInstr entry
  match e.wait with
  | .none => true
  | .bar b => match i, s.team? w.team with
    | some j, some t => (t.bar b).ready (w.linear (activeOf w e (form j).hdr))
    | _, _ => true
  | .owait => match i with
    | some (.owait _ b) => decide (w.counter (b.mod.toNat % 4) ≤ b.imm.toNat)
    | _ => true
  | .gwait => ((s.team? w.team).map (·.children)).getD 0 == 0
  | .drain => w.cntStore == 0
  | .fence => match i with
    | some (.fence _ b) => w.fenceReady entry (b.mod.toNat % 4) (b.mod.toNat / 4 % 8)
    | _ => w.cntStore == 0
  | .wbr => match i with
    | some (.wbr h b) => s.wbrDone core slot entry w e h b
    | _ => true
  | .launch _ => s.roomFor core slot entry e
  | .solo => match (s.part? (s.vfOfTeam w.team)).bind (·.soloHolder) with
    | some h => h.1 == core && h.2.1 == slot && e.mask.getLsbD h.2.2
    | none => false
  | .txend => !(w.tx.any fun y => e.mask.getLsbD y.1 && y.2.commit.isSome)
  | .stopped => true
  | .yield _ => true
  | _ => false

/-! ## The next instruction -/

/-- The instruction a fragment would issue next, when its line is held and its slot decodes. -/
def State.nextInstr (s : State) (core ctx : Nat) (pc : DWord) : Option Instr :=
  (s.cachedLine core ctx pc).bind fun l => if slotParityOk l (slotOf pc) then decodeStream (slotWord l (slotOf pc)) else none

/-- The fragment issues a pair: its slot is the lower of one and it was reached by sequential execution (R184). Reached otherwise, by a
transfer, a fusion, a start or a resumed record, the slot issues alone (assumption 56). -/
def State.issuesPair (s : State) (core ctx : Nat) (e : Entry) : Bool :=
  e.seqd && e.paired.isNone && match s.cachedLine core ctx e.pc with
    | some l => pairLower (bitsOf (lineWord l).toNat 26 24) (slotOf e.pc)
    | none => false

/-- The instructions of the fragment's next issue. -/
def State.nextIssue (s : State) (core ctx : Nat) (e : Entry) : List Instr :=
  (s.nextInstr core ctx e.pc).toList ++
    if s.issuesPair core ctx e then (s.nextInstr core ctx (e.pc + 1)).toList else []

/-- What holds the instructions of the next issue back. -/
def State.heldBack (s : State) (core slot : Nat) (w : Warp) (e : Entry) (l : List Instr) : Bool :=
  l.any fun i => !(s.interlocks core slot w e.mask i).isEmpty || s.ordered core slot w e.mask i || counterFull w i

/-! ## Stops and quanta -/

/-- The armed count stop that holds a warp before its next instruction (R416). -/
def State.stopUnit (s : State) (core slot : Nat) (w : Warp) : Option Nat :=
  let vf := s.vfOfTeam w.team
  (s.unitsOf vf).find? fun u =>
    let x := s.unit u
    x.arm && x.core == core && x.wslot == slot && x.ctx == s.ctxIdOfTeam w.team % 64 && x.stopivl == (((s.part? vf).map (·.interval)).getD 0) &&
      decide (x.stopcnt.toNat ≤ w.workcnt.toNat)

/-- The warp has ended its quantum (R414). -/
def State.quantumOver (s : State) (w : Warp) : Bool := s.replays (s.vfOfTeam w.team) && (w.quantumDone || decide (4096 ≤ w.quantum))

/-- Instructions that end a quantum (R414). -/
def endsQuantum (i : Instr) : Bool :=
  match i with
  | .ld _ b => ctlKind b != 0
  | .st _ b => ctlKind b != 0
  | .sysc _ _ => true
  | .wbr _ _ => true
  | .invr _ _ => true
  | .mbwait _ _ => true
  | .mbarr _ _ => true
  | _ => [1, 11, 12, 14].contains (form i).cls

/-! ## Eligibility -/

/-- A rename entry of the team names a FOREIGN tile whose spill has not completed: the team has not started (R384). -/
def State.teamStarting (s : State) (ix : Nat) : Bool :=
  ((s.team? ix).map fun t => t.rename.any fun r => match r with
    | some k => ((s.core (ix / 8)).tile k).st == .foreign
    | none => false).getD false

/-- A fragment in this wait issues within a replay quantum; the other waits end at a boundary (R414). -/
def Wait.within : Wait → Bool
  | .none => true
  | .yield _ => true
  | .stopped => true
  | _ => false

/-- R36 but for the STALL count and busy units, which the turn names, and but for a `yield` period. -/
def State.couldIssue (s : State) (core slot entry : Nat) : Bool :=
  match s.warp? core slot with
  | none => false
  | some w =>
    let e := w.entry entry
    let ctx := s.ctxIdOfTeam w.team
    e.st == .run && e.mask != 0 && s.ctxLive ctx && !s.teamStarting w.team && s.waitOver core slot entry w e &&
      (s.stopUnit core slot w).isNone && !s.quantumOver w && (e.wait.within || !s.replays (s.vfOfTeam w.team)) &&
      s.roomFor core slot entry e && !s.heldBack core slot w e (s.nextIssue core ctx e)

/-- The fragment is in a `yield` period (R208). -/
def State.yielding (s : State) (core slot entry : Nat) : Bool :=
  match ((s.warp? core slot).map fun w => (w.entry entry).wait).getD Wait.none with
  | .yield n => n != 0
  | _ => false

/-- In replay an entry waits for the lower ones of its warp that run (R414). -/
def State.replayTurn (s : State) (core slot entry : Nat) : Bool :=
  match s.warp? core slot with
  | none => false
  | some w => !s.replays (s.vfOfTeam w.team) ||
      (List.range entry).all fun i => !((w.entry i).st == .run && (w.entry i).mask != 0 && (w.entry i).wait == .none)

/-- Fragments of scheduler `q`: warp slot and entry (R363). -/
def State.fragmentsOf (s : State) (core q : Nat) : List (Nat × Nat) :=
  (s.warps.filter fun w => w.1 / 32 == core && w.1 % 4 == q).flatMap fun w => w.2.entries.map fun e => (w.1 % 32, e.1)

/-- The eligible fragments of a scheduler. Those in a `yield` period count only when there is no other. -/
def State.eligible (s : State) (core q : Nat) (notReady : List Nat) : List (Nat × Nat) :=
  let l := (s.fragmentsOf core q).filter fun f =>
    !notReady.contains (f.1 * 16 + f.2) && s.couldIssue core f.1 f.2 && s.replayTurn core f.1 f.2
  let awake := l.filter fun f => !s.yielding core f.1 f.2
  if awake.isEmpty then l else awake

/-! ## Selection (R37, R188, R363) -/

/-- What selection compares, greater first: effective priority, the order of saturation, AGE, residence, entry. -/
def State.rank (s : State) (core : Nat) (f : Nat × Nat) : List Int :=
  match s.warp? core f.1 with
  | none => []
  | some w =>
    let e := w.entry f.2
    let prio := if 4096 ≤ e.age then 3 else ((s.gridOfTeam w.team).map (·.lr.priority)).getD 0
    [prio, match e.satAt with
      | some n => (2 : Int) ^ 64 - (n : Int)
      | none => -1, e.age, -(w.born : Int), -(f.1 : Int), -(f.2 : Int)]

/-- One rank comes before another. -/
def rankBefore : List Int → List Int → Bool
  | a :: l, b :: m => if a = b then rankBefore l m else decide (b < a)
  | _, _ => false

/-- The best of a list. -/
def State.best (s : State) (core : Nat) (l : List (Nat × Nat)) : Option (Nat × Nat) :=
  l.foldl (fun b f => match b with
    | none => some f
    | some g => if rankBefore (s.rank core f) (s.rank core g) then some f else some g) none

/-- YLD of the last instruction of a fragment. -/
def State.yldOf (s : State) (core : Nat) (f : Nat × Nat) : Bool := ((s.warp? core f.1).map fun w => (w.entry f.2).yld).getD false

/-- The fragment a scheduler selects (R363); after an instruction with YLD any other fragment of the same priority goes
first, unless the fragment is saturated (R188). -/
def State.select (s : State) (core q : Nat) (notReady : List Nat) : Option (Nat × Nat) :=
  let l := s.eligible core q notReady
  match s.best core l with
  | none => none
  | some f =>
    if !s.yldOf core f || ((s.rank core f)[1]?).getD (-1) ≠ -1 then some f
    else
      let same := l.filter fun g => g != f && (s.rank core g)[0]? == (s.rank core f)[0]?
      match s.best core same with
      | some g => some g
      | none => some f

/-! ## Ages -/

/-- Change an entry of a scheduler's fragment. -/
def State.modFrag (s : State) (core : Nat) (f : Nat × Nat) (g : Entry → Entry) : State := s.modWarp core f.1 fun w => w.modEntry f.2 g

/-- The AGE of a fragment that is not eligible is 0, as it is when it becomes eligible again (R37); that of a halted context is
kept (R35). -/
def State.restAges (s : State) : State :=
  let rest (core slot : Nat) (w : Warp) (e : Nat × Entry) : Nat × Entry :=
    if (e.2.age != 0 || e.2.satAt.isSome) && s.ctxLive (s.ctxIdOfTeam w.team) && !s.couldIssue core slot e.1
    then (e.1, { e.2 with age := 0, satAt := none }) else e
  { s with warps := s.warps.map fun w => (w.1, { w.2 with entries := w.2.entries.map (rest (w.1 / 32) (w.1 % 32) w.2) }) }

/-- An entry after one more opportunity of its scheduler: its `yield` period is shorter by one, or, when no fragment out of such a
period is eligible, over (R208). -/
def Entry.yieldOn (e : Entry) (over_ : Bool) : Entry :=
  { e with wait := match e.wait with
    | .yield n => .yield (if over_ then 0 else n - 1)
    | x => x }

/-- An entry passed over at an opportunity, where `n` numbers the opportunity among those at which fragments saturate (R37). -/
def Entry.ageOn (e : Entry) (n : Nat) : Entry :=
  if 4096 ≤ e.age then e else { e with age := e.age + 1, satAt := if e.age = 4095 then some n else e.satAt }

/-- After a selection the other eligible fragments age (R37); `yield` periods of the scheduler run down, and end where none but
fragments in one was eligible (R208); the selected fragment's AGE is 0 and its YLD preference is spent. -/
def State.ageOthers (s : State) (core q : Nat) (l : List (Nat × Nat)) (sel : Nat × Nat) : State :=
  let over_ := s.yielding core sel.1 sel.2
  let s := s.each ((s.fragmentsOf core q).filter fun f => f != sel) fun s f => s.modFrag core f fun e => e.yieldOn over_
  let n := s.fresh
  let s := n.2.each (l.filter fun f => f != sel) fun s f => s.modFrag core f fun e => e.ageOn n.1
  s.modWarp core sel.1 fun w => w.modEntry sel.2 fun e => { e with age := 0, satAt := none, yld := false }

end Sys2Proof.Machine
end

