-- ==== Sys2Proof/Machine/FetchEvents.lean ====
section
/-! DEFINITION. Lines on their way to a core (09 R182, R183, R436), the end of a `yield` period (10 R208), samples (06 R131; 20
R413), and the barrier watchdog (06 R127; 18 R375, R376; 26 R434). -/

namespace Sys2Proof.Machine

/-! ## Instruction fetch -/

/-- A line's words cannot be read from its home yet: DRAM must supply them in a compute interval (R367), or the host or a flip
holds them, or the link is not up (R351, R385, R387). -/
def State.lineWaits (s : State) (core ctx : Nat) (line : DWord) : Bool :=
  match (s.resolve core ctx line .fetch).1 with
  | .error _ => false
  | .ok x => if x.host then !s.hostUp (((s.ctx? ctx).map (·.vf)).getD 0) else (s.dramHeld x.pa 64 || s.hostBusy x.pa || s.flipWaits x.pa s.nextId)

/-- A line read from its home for a fetch: translation and row check, then the words as L2 holds them. -/
def State.fetchLine (s : State) (core ctx vf : Nat) (line : DWord) : Except FaultInfo (BitVec 512) × State :=
  match s.resolve core ctx line .fetch with
  | (.error c, s) => (.error ⟨c, 0, line, none⟩, s)
  | (.ok x, t) =>
    if x.host then (.ok (BitVec.ofNat 512 (ofBytes (Memory.readN t.hostMem x.pa 64))), t)
    else
      let s := t.touchRun vf x.pa 64
      match t.readPhys vf x.pa 64 with
      | .error c => (.error ⟨c, 0, line, some x.pa⟩, s)
      | .ok b => (.ok (BitVec.ofNat 512 (ofBytes b)), s)

/-- Keep a line in the core's instruction cache of 128 KiB, 2,048 lines (Table 1.4); which line it replaces is open. -/
def State.keepLine (s : State) (core ctx : Nat) (line : DWord) (l : BitVec 512) : State :=
  let others := (s.core core).icache.filter fun y => !(y.1 == ctx && y.2.1 == line.toNat)
  let put (s : State) (k : List (Nat × Nat × BitVec 512)) : State := s.modCore core fun c => { c with icache := (ctx, line.toNat, l) :: k }
  if others.length < 2048 then put s others
  else let n := s.pick others.length; put n.2 (others.eraseIdx n.1)

/-- What a line costs that comes to a hive: its egress, the port of its die, its stack (R16, R399). -/
def State.fetchCost (s : State) (core ctx vf : Nat) (line : DWord) : List (Nat × Nat × Nat) :=
  match (s.resolve core ctx line .fetch).1 with
  | .error _ => []
  | .ok x =>
    let l := bytesAt (if x.host then hostTag + x.pa else x.pa) 64
    s.traffic vf core false l ++ s.dramTraffic l

/-- `INSTRUCTION_FETCH`: a line the core does not hold is read from L2, once the buckets let it pass (R399); a failure traps at the PC (R436). -/
def execInstructionFetch (who : FetchUnit) (s : State) : Host.Outcome State Fault Refusal :=
  match who with
  | .frag core slot entry =>
    match s.fetcher core slot entry with
    | none => .next s
    | some (pc, mask, ctx, vf) =>
      if (s.cachedLine core ctx pc).isSome || s.lineWaits core ctx (lineOf pc) then .next s
      else match s.through vf (fetchReq who) (s.fetchCost core ctx vf (lineOf pc)) with
        | .error s => .next s
        | .ok s => match s.fetchLine core ctx vf (lineOf pc) with
        | (.ok l, s) => .next (s.keepLine core ctx (lineOf pc) l)
        | (.error f, s) => .next (s.takeTrap core slot entry pc 0 true false { f with mask := mask })
  | .seq core team =>
    match s.seqFetcher core team with
    | none => .next s
    | some (pc, ctx, vf) =>
      if (s.cachedLine core ctx pc).isSome || s.lineWaits core ctx (lineOf pc) then .next s
      else match s.through vf (fetchReq who) (s.fetchCost core ctx vf (lineOf pc)) with
        | .error s => .next s
        | .ok s => match s.fetchLine core ctx vf (lineOf pc) with
        | (.ok l, s) => .next (s.keepLine core ctx (lineOf pc) l)
        | (.error f, s) => .next (s.seqTrap core team pc f)

/-- `FETCH_PARITY_REFETCH`: a slot that fails its parity is read once more from L2; a second mismatch traps
FETCH_PARITY (R182). -/
def execFetchParityRefetch (who : FetchUnit) (s : State) : Host.Outcome State Fault Refusal :=
  match who with
  | .frag core slot entry =>
    match s.fetcher core slot entry with
    | none => .next s
    | some (pc, mask, ctx, vf) =>
      match s.cachedLine core ctx pc with
      | none => .next s
      | some l =>
        if slotParityOk l (slotOf pc) || s.lineWaits core ctx (lineOf pc) then .next s
        else match s.through vf (fetchReq who) (s.fetchCost core ctx vf (lineOf pc)) with
        | .error s => .next s
        | .ok s => match s.fetchLine core ctx vf (lineOf pc) with
          | (.error f, s) => .next (s.takeTrap core slot entry pc 0 true false { f with mask := mask })
          | (.ok l, s) =>
            let s := s.keepLine core ctx (lineOf pc) l
            .next (if slotParityOk l (slotOf pc) then s
              else s.takeTrap core slot entry pc (slotWord l (slotOf pc)) false false (plain causeParity mask))
  | .seq core team =>
    match s.seqFetcher core team with
    | none => .next s
    | some (pc, ctx, vf) =>
      match s.cachedLine core ctx pc with
      | none => .next s
      | some l =>
        if slotParityOk l (slotOf pc) || s.lineWaits core ctx (lineOf pc) then .next s
        else match s.through vf (fetchReq who) (s.fetchCost core ctx vf (lineOf pc)) with
        | .error s => .next s
        | .ok s => match s.fetchLine core ctx vf (lineOf pc) with
          | (.error f, s) => .next (s.seqTrap core team pc f)
          | (.ok l, s) =>
            let s := s.keepLine core ctx (lineOf pc) l
            .next (if slotParityOk l (slotOf pc) then s else s.seqTrap core team pc (plain causeParity 0))

/-- `YIELD_EXPIRY`: the period ends after 64 opportunities, or when no other fragment of the scheduler is eligible. -/
def execYieldExpiry (core slot entry : Nat) (s : State) : Host.Outcome State Fault Refusal :=
  match ((s.warp? core slot).map fun w => (w.entry entry).wait).getD Wait.none with
  | .yield n =>
    let others := (s.eligible core (slot % 4) []).filter fun f => f != (slot, entry) && !s.yielding core f.1 f.2
    .next (if n = 0 || others.isEmpty then s.modWarp core slot fun w => w.modEntry entry fun e => { e with wait := .none } else s)
  | _ => .next s

/-! ## Samples (R131, R413) -/

/-- The partition of a core with its claims that sample, ascending (R413). -/
def State.samplingOf (s : State) (core : Nat) : Option (Nat × List Nat) :=
  (List.find? (fun (p : Nat × Partition) => p.2.hives.contains (hiveOfCore core)) s.parts).bind fun p =>
    match (s.unitsOf p.1).filter fun u => (s.unit u).period != 0 with
    | [] => none
    | l => some (p.1, l)

/-- The units that take the samples of a core: of each holder of a claim that samples, the one that R411 chooses. -/
def State.samplersOf (s : State) (vf core : Nat) (us : List Nat) : List Nat :=
  (s.unitsFor vf core).filter fun u => us.any fun v => (s.unit v).holder == (s.unit u).holder

/-- The next warp slot of a scheduler, after where its pointer stands, that holds a warp of the partition. -/
def State.nextSampled (s : State) (vf core q at_ : Nat) : Option Nat :=
  ((List.range 8).map fun i => (at_ + 1 + i) % 8).find? fun r =>
    ((s.warp? core (4 * r + q)).map fun w => s.vfOfTeam w.team == vf).getD false

/-- The entry sampled: the one that issued at this clock, else the lowest that runs, else 0. -/
def Warp.sampledEntry (w : Warp) (issued : Option Nat) : Nat :=
  (issued.or ((List.range 16).find? fun i => (w.entry i).st == .run && (w.entry i).mask != 0)).getD 0

/-- A bandwidth bucket holds a request of some threads of a warp, or the fetch of their fragment. -/
def State.bucketHolds (s : State) (core slot entry : Nat) (mask : DWord) : Bool :=
  s.heldReq.any fun h => h.2.any fun id => id == fetchReq (.frag core slot entry) ||
    ((s.loads.find? id).map fun l => l.core == core && l.slot == slot && l.lanes.any fun y => mask.getLsbD y.thread).getD false ||
    ((s.stores.find? id).map fun x => x.core == core && x.slot == slot && mask.getLsbD x.thread && x.st == .pending).getD false ||
    ((s.atomics.find? id).map fun a => a.core == core && a.slot == slot && mask.getLsbD a.thread && a.old.isNone).getD false

/-- Codes of Table 20.4 that the state shows to hold for an entry. -/
def State.stallCodes (s : State) (core slot entry : Nat) (w : Warp) : List Nat :=
  let e := w.entry entry
  let ctx := s.ctxIdOfTeam w.team
  let next := s.nextIssue core ctx e
  (next.flatMap fun i => s.interlocks core slot w e.mask i) ++
  (match s.cachedLine core ctx e.pc with
    | none => [11]
    | some l => if slotParityOk l (slotOf e.pc) then [] else [12]) ++
  (if s.stalls.any fun y => y.core == core && y.slot == slot && y.entry == entry && y.pc == e.pc && decide (y.queue < 400000) then [20] else []) ++
  (if s.bucketHolds core slot entry e.mask then [28] else []) ++
  (match e.wait with
    | .bar _ => [13] | .drain => [14] | .fence => [15] | .wbr => [15] | .owait => [16] | .cwait => [17] | .cyield => [18]
    | .gwait => [19] | .yield n => if n = 0 then [] else [22] | .solo => [23] | .hold _ => [24] | .held => [25] | .launch _ => [27] | .txend => [6]
    | .stopped => [30] | .none => []) ++
  (if next.any fun i => s.ordered core slot w e.mask i then [3] else []) ++
  (if next.any (counterFull w) then [21] else []) ++
  (if e.st == .run && e.mask != 0 then [] else [26]) ++
  (if (s.stopUnit core slot w).isSome then [30] else []) ++ [31]

/-- Codes that depend on durations the model does not keep: STALL counts, busy pipes and coalescers, walks (assumption 49). -/
def openCodes : List Nat := [2, 7, 8, 9, 10]

/-- REASON of a sample (R413). Where a code that the model does not keep could hold and would be lower, the choice is open. -/
def State.sampleReason (s : State) (core slot entry : Nat) (w : Warp) (last : Option (Nat × Nat)) : Nat × State :=
  if (last.map (·.1)) = some slot then (0, s)
  else
    let lost := (w.entries.map (·.1)).filter fun i => s.couldIssue core slot i && !s.yielding core slot i
    let prio (f : Nat × Nat) : Int := ((s.rank core f)[0]?).getD 0
    match last with
    | some f =>
      if lost.any fun i => decide (prio (slot, i) < prio f) then (29, s)
      else if !lost.isEmpty then (1, s)
      else
        let c := (s.stallCodes core slot entry w).foldl min 31
        let all := c :: openCodes.filter (· < c)
        let r := s.pick all.length
        (all.getD r.1 c, r.2)
    | none =>
      let c := (s.stallCodes core slot entry w).foldl min 31
      let all := c :: openCodes.filter (· < c)
      let r := s.pick all.length
      (all.getD r.1 c, r.2)

/-- `SAMPLE`: for a scheduler whose down-counter has come to 0 the next warp of the partition in rotation is sampled, for each holder
whose claim samples. -/
def execSample (core sched : Nat) (s : State) : Host.Outcome State Fault Refusal :=
  match s.samplingOf core with
  | none => .next s
  | some (vf, us) =>
    let c := s.core core
    if 4 ≤ sched || !c.due.contains sched then .next s
    else
      let s := s.modCore core fun c => { c with due := c.due.filter (· ≠ sched) }
      match s.nextSampled vf core sched ((c.rot.find? sched).getD 0) with
      | none => .next s
      | some r =>
        let slot := 4 * r + sched
        let s := s.modCore core fun c => { c with rot := c.rot.put sched r }
        match s.warp? core slot with
        | none => .next s
        | some w =>
          let last := c.lastIssue.find? sched
          let issued := last.filter fun f => f.1 == slot
          let entry := w.sampledEntry (issued.map (·.2))
          let re := ((s.part? vf).map (·.reexec)).getD false
          if !s.ctxLive (s.ctxIdOfTeam w.team) || re then .next s
          else
            let x := s.sampleReason core slot entry w last
            let ivl := ((x.2.part? vf).map fun p => p.interval.toNat % 16).getD 0
            let word := core * 2 ^ 23 + slot * 2 ^ 18 + 2 ^ 17 + ivl * 2 ^ 12 + x.1 * 2 ^ 7 + (if issued.isSome then 2 ^ 6 else 0) + entry
            .next (x.2.each (x.2.samplersOf vf core us) fun s u =>
              (s.unitRecord u (w.entry entry).pc word (w.workcnt.setWidth 32)).countPerf vf (0x20 + x.1))

/-- A down-counter of period `n` at `d` after `k` clocks: its value, reloaded where it came to 0, and whether it did. -/
def countDown (n k d : Nat) : Nat × Bool := if k < d then (d - k, false) else (n - (k - d) % n, true)

/-- The island of a core's hive (Table 1.5). -/
def coreIsland (core : Nat) : Nat := 60 * dieOfCore core + 2 * (hiveOfCore core % 24)

/-- The down-counters of a core over a VCLOCK tick, in which its island at `mhz` has `mhz` / 1,200 clocks (R20, R22). -/
def Core.countDowns (c : Core) (n mhz : Nat) : Core :=
  let k := (c.phase + mhz) / 1200
  let next (q : Nat) : Nat × Bool := countDown n k ((c.down.find? q).getD n)
  { c with
    phase := (c.phase + mhz) % 1200
    lastIssue := []
    down := (List.range 4).foldl (fun d q => d.put q (next q).1) c.down
    due := (List.range 4).filter fun q => (next q).2 || c.due.contains q }

/-- The down-counters of the sampled partitions' cores fall with the clocks of their islands. -/
def State.tickSamples (s : State) : State :=
  if (List.range 16).any fun u => (s.unit u).holder.isSome && (s.unit u).period != 0 then
    s.each (List.range 384) fun s core => match s.samplingOf core with
      | none => s
      | some (_, us) => s.modCore core fun c =>
          c.countDowns (2 ^ (s.unit (us.headD 0)).period) (s.mhzOf (coreIsland core))
  else s

/-! ## The barrier watchdog -/

/-- WAIT and WBAR of an entry (Table 18.3). -/
def Entry.waitCode (e : Entry) : Nat × Nat :=
  match e.wait with
  | .bar b => (1, b) | .owait => (2, 0) | .cwait => (3, 0) | .gwait => (4, 0) | .drain => (5, 0) | .cyield => (6, 0)
  | .fence => (7, 0) | .wbr => (7, 0) | .hold _ => (8, 0) | _ => (0, 0)

/-- STATE of an entry (Table 2.2). -/
def EntryState.code : EntryState → Nat
  | .free => 0
  | .run => 1
  | .parked => 2
  | .join => 3

/-- Record of a warp in the capture (Table 18.3): 400 bytes. A fragment whose condition holds waits no more. -/
def State.captureWarp (s : State) (core slot : Nat) (w : Warp) : List Byte :=
  let ended := w.done
  toBytes 8 (if ended then 0 else w.live.toNat) ++ toBytes 1 (if w.killed then 2 else if ended then 1 else 0) ++ toBytes 7 0 ++
    (List.range 16).flatMap fun j =>
      let e := w.entry j
      if ended || e.st == .free then toBytes 24 0
      else
        let k := if s.waitOver core slot j w e then (0, 0) else e.waitCode
        toBytes 8 e.mask.toNat ++ toBytes 8 e.pc.toNat ++ toBytes 1 e.st.code ++ toBytes 1 k.1 ++ toBytes 1 k.2 ++ toBytes 5 0

/-- The sequencer waits in `mbwait` on a barrier. -/
def State.seqWaits (s : State) (ix : Nat) (t : Team) (bar : Nat) : Bool :=
  match t.seq with
  | none => false
  | some q => !q.ended && (match s.nextInstr (ix / 8) (s.ctxIdOfTeam ix) q.pc with
    | some (.mbwait _ b) => b.cmod.toNat % 16 == bar && (t.bar bar).gen == (t.bar bar).sgen
    | _ => false)

/-- The capture block (Table 18.3). -/
def State.capture (s : State) (ix : Nat) (t : Team) (g : Grid) (bar : Nat) : List Byte :=
  let b := t.bar bar
  toBytes 8 s.vclock.toNat ++ toBytes 8 g.lrec.toNat ++ toBytes 4 t.num ++ toBytes 1 bar ++ toBytes 1 g.lr.warps ++ toBytes 2 b.gen.toNat ++
    toBytes 2 b.arrived ++ toBytes 2 b.expected ++ toBytes 1 ((if b.mism then 1 else 0) + if s.seqWaits ix t bar then 2 else 0) ++ toBytes 3 0 ++
    toBytes 8 g.lr.limit ++ toBytes 8 ((t.seq.map fun q => if q.ended then 0 else q.pc.toNat).getD 0) ++ toBytes 16 0 ++
    toBytes 128 ((List.range 1024).foldl (fun acc l => if b.pend.find? l = some b.gen then acc + 2 ^ l else acc) 0) ++
    t.slots.flatMap fun k => ((s.warp? (ix / 8) k).map (s.captureWarp (ix / 8) k)).getD []

/-- Every page of a context's 8 KiB diagnostic area can be written (R434). -/
def State.diagWritable (s : State) (die ctx vf : Nat) (diag : DWord) : Bool :=
  (List.range 128).all fun i => match s.resolveDie die ctx (diag + BitVec.ofNat 64 (64 * i)) .write with
    | .error _ => false
    | .ok x => x.host || (if x.copies = [] then [x.pa] else x.copies).all fun pa => s.rowOk vf pa true false

/-- Fire the watchdog for a context whose barriers stand at their limit (R375): the lowest is captured, each other is
logged alone, and the context fault follows. -/
def State.fireWatchdog (s : State) (ctx : Nat) : State :=
  match s.expiredBars ctx, s.ctx? ctx with
  | (ix, bar) :: rest, some c =>
    match s.team? ix, s.gridOfTeam ix with
    | some t, some g =>
      let core := ix / 8
      let die := dieOfCore core
      let wr : Option State := if s.diagWritable die ctx c.vf c.diag then
          match s.writeVirt die ctx c.vf c.diag (s.capture ix t g bar) [] ⟨0, core, some c.diag, 0⟩ with
          | (none, s) => some s
          | (some _, _) => none
        else none
      let s := (wr.getD s).log c.vf causeTimeout (if wr.isSome then c.diag else 0) true 0 core 0
      let s := s.each rest fun s y => s.log c.vf causeTimeout 0 false 0 (y.1 / 8) 0
      s.endContext ctx causeTimeout .faulted
    | _, _ => s
  | _, _ => s

/-- `BARRIER_TIMEOUT`. -/
def execBarrierTimeout (core team bar : Nat) (s : State) : Host.Outcome State Fault Refusal :=
  let ctx := s.ctxIdOfTeam (teamIx core team)
  .next (if (s.expiredBars ctx).contains (teamIx core team, bar) then s.fireWatchdog ctx else s)

/-- Wait counters of the live contexts rise by one (R127). A barrier left at its limit fires before the clock goes on. -/
def State.tickBarriers (s : State) : State :=
  let s := s.each (s.contexts.map (·.1)) fun s k => if (s.expiredBars k).isEmpty then s else s.fireWatchdog k
  { s with teams := s.teams.map fun kt =>
      if kt.2.bars.isEmpty || !s.ctxLive (s.ctxIdOfTeam kt.1) then kt
      else (kt.1, { kt.2 with bars := kt.2.bars.mapVals fun b =>
        if b.arrived != 0 && !b.abandon then { b with waitCnt := b.waitCnt + 1 } else b }) }

end Sys2Proof.Machine
end

