-- ==== Sys2Proof/Machine/Replay.lean ====
section
/-! DEFINITION. Replay mode (20 R414, R415) and count stops (20 R416): the end of a quantum, its boundary, checkpoints and
rollback. A boundary applies the quantum's stores and then names the parties whose ending instructions it performs, in
order, as the next turns. -/

namespace Sys2Proof.Machine

/-! ## The end of a quantum -/

/-- No fragment of the warp can retire a further instruction of the quantum. -/
def State.warpEnded (s : State) (core slot : Nat) (w : Warp) : Bool :=
  w.done || s.quantumOver w || !s.ctxLive (s.ctxIdOfTeam w.team) || w.entries.all fun e =>
    e.2.st != .run || e.2.mask == 0 || !e.2.wait.within ||
      (s.nextIssue core (s.ctxIdOfTeam w.team) e.2).any fun i => !(s.interlocks core slot w e.2.mask i).isEmpty

/-- The sequencer can retire no further instruction of the quantum; one without a tile for `mstart` counts as ended. -/
def State.seqEnded (s : State) (ix : Nat) (q : Sequencer) : Bool :=
  q.ended || q.quantumDone || decide (4096 ≤ q.quantum) || !s.ctxLive (s.ctxIdOfTeam ix) ||
    (match s.nextInstr (ix / 8) (s.ctxIdOfTeam ix) q.pc with
      | some (.mstart _ _) => (s.takeable (ix / 8) (s.ctxIdOfTeam ix)).isEmpty
      | _ => false)

/-- Something accepted in the quantum is still at work (R414), a commit of an ended context among it; an atomic that a solo attempt locks out waits for that attempt (R286). -/
def State.workOpen (s : State) (vf : Nat) : Bool :=
  let mine (ix : Nat) : Bool := s.vfOfTeam ix == vf
  (s.loads.any fun l => l.2.vf == vf) ||
    (s.atomics.any fun a => a.2.vf == vf && !(a.2.old.isNone && s.lockedRun vf (a.2.core, a.2.slot, a.2.thread) a.2.pa (2 ^ a.2.size))) ||
    (s.pend.any fun p => p.2.sysc.isNone && ((s.warp? p.2.core p.2.slot).map fun w => mine w.team).getD false) ||
    (s.warps.any fun w => mine w.2.team && w.2.tx.any fun y => y.2.commit.isSome) || (s.orphans.any fun o => o.vf == vf) ||
    (s.hives.any fun h => h.2.copy.any fun q => q.2.any fun o => o.vf == vf && s.ctxLive o.ctx) ||
    (s.coll.any fun q => (s.collQueued q.1).any fun o => o.vf == vf) || (s.posted.any fun p => mine p.2.team) ||
    (s.slabs.any fun x => mine x.2.team && x.2.data.isNone) ||
    (s.hearths.any fun h => ((s.nearQueue h.1).any fun q => q.vf == vf) || (h.2.nred.any fun n => n.cmd.vf == vf) ||
      h.2.launches.any fun l => l.2.vf == vf) ||
    s.stoves.any fun x => x.2.vf == vf && x.2.busy

/-- A count stop of the partition waits to be taken: no boundary passes it. -/
def State.stopDue (s : State) (vf : Nat) : Bool :=
  s.warps.any fun w => s.vfOfTeam w.2.team == vf && (s.stopUnit (w.1 / 32) (w.1 % 32) w.2).isSome

/-- Every party of the partition has ended its quantum, but for one warp. -/
def State.partiesEnded (s : State) (vf : Nat) (but : Option (Nat × Nat)) : Bool :=
  (s.warps.all fun w => s.vfOfTeam w.2.team != vf || but == some (w.1 / 32, w.1 % 32) || s.warpEnded (w.1 / 32) (w.1 % 32) w.2) &&
    s.teams.all fun t => s.vfOfTeam t.1 != vf || (t.2.seq.all fun q => s.seqEnded t.1 q)

/-! ## The stores of a quantum -/

/-- Insert a store in the order of R414: core, warp slot, thread, program order. -/
def insertStore (k : Nat) (id : Nat) : List (Nat × Nat) → List (Nat × Nat)
  | [] => [(k, id)]
  | y :: l => if k < y.1 then (k, id) :: y :: l else y :: insertStore k id l

/-- Numbers of the held stores of a partition in the order of R414. -/
def State.heldStores (s : State) (p : Store → Bool) : List Nat :=
  ((s.stores.filter fun x => x.2.replay && p x.2).foldl (fun l x =>
    insertStore ((x.2.core * 64 + x.2.slot) * 64 + x.2.thread) x.1 l) []).map (·.2)

/-- A held store goes to no home at this boundary: a solo attempt locks its words, the host's link is not up, the host has a request on
its line, or a flip that began before it holds its page (R286, R351, R385, R387). -/
def State.heldOver (s : State) (id : Nat) (x : Store) : Bool :=
  (decide (hostTag ≤ x.pa) && decide (x.pa < combTag) && !s.hostUp x.vf) || decide (x.pa < hostTag) && (s.lockedRun x.vf (x.core, x.slot, x.thread) x.pa x.bytes.length ||
    x.places.any fun pa => s.hostBusy pa || s.flipWaits pa id)

/-- Apply the bytes that one `sts` of a thread holds for a comb word (R272, R414); those of a team that has gone go with its comb. -/
def State.applyComb (s : State) (x : Store) : State :=
  let same (y : Store) : Bool := decide (combTag ≤ y.pa) && y.pa / 4 == x.pa / 4 && y.op == x.op && y.core == x.core && y.slot == x.slot && y.thread == x.thread
  let l := (s.stores.filter fun y => same y.2).map (·.2)
  let wi := (x.pa - combTag) / 4 % 2 ^ 21
  let mask := BitVec.ofNat 4 ((l.map fun y => 2 ^ (y.pa % 4)).sum)
  let d := BitVec.ofNat 32 ((l.map fun y => 2 ^ (8 * (y.pa % 4)) * (y.bytes.headD 0).toNat).sum)
  let s : State := { s with stores := s.stores.filter fun y => !same y.2 }
  if ((s.team? x.team).map fun t => t.cells.contains (wi / 8192)).getD false then
    s.combWrite x.vf (hiveOfCore x.core) wi d mask ⟨0, x.core, none, x.pc⟩
  else s

/-- Apply a held store at its home, in every copy, and acknowledge it. -/
def State.applyHeld (s : State) (id : Nat) : State :=
  match s.stores.find? id with
  | none => s
  | some x =>
    let ack (s : State) : State :=
      let s : State := { s with stores := s.stores.erase id }
      if x.slot < 32 then s.ackWarp x.core x.slot s.vclock else s
    if s.heldOver id x then s
    else if combTag ≤ x.pa then s.applyComb x
    else if hostTag ≤ x.pa then ack (s.hostStore x)
    else
      let r := x.places.foldl (fun (acc : State × Option Nat) pa => match acc.1.applyStore x pa with
        | some s => (s, acc.2)
        | none => (acc.1, acc.2.or (some pa))) (s, none)
      match r.2 with
      | some pa => r.1.denyStore id x pa
      | none => ack r.1

/-- A host write changes DRAM (Table 4.7), and what the home slices and the engines hold of its words. -/
def State.hostWrite (s : State) (pa : Nat) (bytes : List Byte) : State :=
  let ws := wordsOf pa bytes.length
  let s := s.each ws fun s y => (s.homeWriteLogged 0 y.1 (wordFrom pa y.1 bytes) y.2 [] false ⟨4, stackOfPa pa, none, 0⟩).writeThrough y.1
  (s.flushBias pa bytes.length).serveWrites fun w => ws.any fun y => y.1 == w

/-- Host writes at a boundary, before its stores or after them: those held since the quantum began (R414), or, while a re-execution
has not caught up, those of the same boundary of the recorded run (R352). -/
def State.applyHostHeld (s : State) (vf : Nat) (before_ : Bool) : State :=
  match s.part? vf with
  | none => s
  | some p =>
    let again := decide (p.boundary < p.replayTo)
    let now (y : Nat × Bool × Nat × List Byte) : Bool := y.1 == p.boundary && y.2.1 == before_
    let l := if again then p.rehost.filter now else p.hostHeld.map fun w => (p.boundary, before_, w.1, w.2)
    (s.each l fun s y => s.hostWrite y.2.2.1 y.2.2.2).modPart vf fun p => { p with
      hostHeld := if again then p.hostHeld else []
      rehost := if again then p.rehost.filter fun y => !now y else p.rehost
      hostLog := p.hostLog ++ l }

/-! ## The boundary -/

/-- Put an entry among others in the order of their lowest threads. -/
def insertEntry (w : Warp) (e : Nat) : List Nat → List Nat
  | [] => [e]
  | f :: l => if (lowestOf (w.entry e).mask).getD 64 < (lowestOf (w.entry f).mask).getD 64 then e :: f :: l else f :: insertEntry w e l

/-- Entries of a warp that the boundary serves, in the order of their threads: the ending instruction, and waits that an earlier boundary
began. -/
def Warp.atBoundary (w : Warp) : List Nat :=
  ((w.entries.filter fun e => w.ending == some e.1 || (e.2.st == .run && e.2.mask != 0 && !e.2.wait.within && e.2.wait != .held && (match e.2.wait with
    | .hold _ => false
    | _ => true))).map (·.1)).foldl (fun l e => insertEntry w e l) []

/-- The turns of a boundary: warps ascending, each sequencer after its team's last warp (R414). -/
def State.boundaryTurns (s : State) (vf : Nat) : List Turn :=
  (s.warps.filter fun w => s.vfOfTeam w.2.team == vf).flatMap (fun w =>
    let t := s.team? w.2.team
    (w.2.atBoundary.map fun e => Turn.boundary (w.1 / 32) (w.1 % 32) e) ++
      match t with
      | some t => if t.seq.isSome && t.slots.getLast? == some (w.1 % 32) then [Turn.boundarySeq (w.2.team / 8) (w.2.team % 8)] else []
      | none => []) ++ [Turn.boundaryEnd vf]

/-- A stack of the partition is in a compute interval, which holds what a boundary must read from DRAM (R367). -/
def State.stacksClosed (s : State) (vf : Nat) : Bool :=
  ((s.part? vf).map fun p => p.stks.any fun k => (s.hearth k).compute).getD false

/-- A re-execution of the partition has still to catch up with the recorded run (R352). -/
def State.catchesUp (s : State) (vf : Nat) : Bool := ((s.part? vf).map fun p => decide (p.boundary < p.replayTo)).getD false

/-- `QUANTUM_BOUNDARY`. Whether the held host writes come before or after the stores is open; a re-execution repeats both. -/
def execQuantumBoundary (vf : Nat) (s : State) : Host.Outcome State Fault Refusal :=
  if !s.replays vf || !s.partiesEnded vf none || s.workOpen vf || s.stopDue vf || s.stacksClosed vf then .next s
  else
    let c := s.pick 2
    let both := s.catchesUp vf
    let s := if c.1 = 0 || both then c.2.applyHostHeld vf true else c.2
    let s := s.each (s.heldStores fun x => x.vf == vf) State.applyHeld
    let s := if c.1 = 0 && !both then s else s.applyHostHeld vf false
    .next { s with agenda := s.boundaryTurns vf ++ s.agenda }

/-! ## Performing an ending instruction -/

/-- Bring a word from DRAM into its L2 slice at once. -/
def State.fillNow (s : State) (vf wa : Nat) : State := if s.needsDram wa then s.serveReq false ⟨wa, vf, false, false, 0, false, 0, s.nextId, 0, []⟩ else s

/-- The state after a meaning that cannot stop. -/
def nextOr (s : State) : Host.Outcome State Fault Refusal → State
  | .next t => t
  | _ => s

/-- Complete, at the boundary, what an ending instruction of a warp sent to its homes: stores, atomics, loads, commits. -/
def State.settleOps (s : State) (core slot : Nat) : State :=
  let s := s.each (s.heldStores fun x => x.core == core && x.slot == slot) State.applyHeld
  let s := s.each ((s.atomics.filter fun a => a.2.core == core && a.2.slot == slot).map (·.1)) fun s id =>
    match s.atomics.find? id with
    | none => s
    | some a =>
      let s := s.each (wordsOf a.pa (2 ^ a.size)) fun s w => if s.rowOk a.vf (4 * w.1) false false then s.fillNow a.vf w.1 else s
      let s := nextOr s (execAtomicExecute id s)
      nextOr s (execAtomicReply id s)
  let s := s.each ((s.loads.filter fun l => l.2.core == core && l.2.slot == slot && l.2.acq != 0).map (·.1)) fun s id =>
    match s.loads.find? id with
    | none => s
    | some l =>
      let s := s.each ((l.lanes.flatMap (s.dramWords l)).dedup) fun s w => if s.rowOk l.vf (4 * w) false false then s.fillNow l.vf w else s
      nextOr s (execLoadReply id [] s)
  s.each (((s.warp? core slot).map fun w => (w.tx.filter fun y => y.2.commit.isSome).map (·.1)).getD []) fun s t => nextOr s (execTxValidate core slot t s)

/-- The solo grant of a replay partition goes to the first thread that waits, at the boundary (R286, R414). -/
def State.grantSolo (s : State) (vf : Nat) : State :=
  s.modPart vf fun p => match p.soloHolder, p.soloWait with
    | none, h :: l => { p with soloHolder := some h, soloSince := s.vclock.toNat, soloWait := l }
    | _, _ => p

/-! ## Checkpoints (R415, R129) -/

/-- The end, from its first byte, of what the records of a context's teams take of its save area at a checkpoint, tiles included: those
saved, then those resident. -/
def State.recordsEnd (s : State) (k : Nat) (c : Context) : Nat :=
  let saved := c.saved.foldl (fun m v => max m (v.place.1 + 4 * v.place.2 - c.savebase.toNat)) 0
  let size (t : Nat × Team) : Nat := ((s.grid? t.2.grid).map fun g => (s.recordSize true t.1 t.2 g.lr + 15) / 16 * 16).getD 0
  min c.savesize (saved + ((s.teamsOf k).map size).sum)

/-- Everything of a partition inside the package. -/
def State.checkpoint (s : State) (vf : Nat) (p : Partition) : Checkpoint where
  teams := s.teams.filter fun t => s.vfOfTeam t.1 == vf
  warps := s.warps.filter fun w => s.vfOfTeam w.2.team == vf
  tiles := (List.range 384).filterMap fun c => if p.hives.contains (hiveOfCore c) then some (c, (s.core c).tiles) else none
  hives := s.hives.filter fun h => p.hives.contains h.1
  grids := s.grids.filter fun g => g.2.vf == vf
  posted := s.posted.filter fun x => s.vfOfTeam x.2.team == vf
  slabs := s.slabs.filter fun x => s.vfOfTeam x.2.team == vf
  pkgQ := s.pkgQ.filter fun q => q.1 / 4 == vf
  dieQ := s.dieQ.filter fun q => p.hives.contains q.1
  pool := p.pool
  returned := p.returned
  heads := p.queues.map fun q => (q.1, q.2.head)
  saved := (s.contexts.filter fun c => c.2.vf == vf).map fun c => (c.1, c.2.saved)
  pend := s.pend.filter fun x => ((s.warp? x.2.core x.2.slot).map fun w => s.vfOfTeam w.team == vf).getD false
  soloHolder := p.soloHolder
  soloWait := p.soloWait
  boundary := p.boundary
  queueRot := p.queueRot
  pkgRot := p.pkgRot
  dieRot := p.dieRot
  fitWait := s.fitWait.filter fun y => p.hives.contains y.1
  rest := (s.contexts.filter fun c => c.2.vf == vf).map fun c =>
    let used := s.recordsEnd c.1 c.2
    (c.2.savebase.toNat + used, (c.2.savesize - used) / 16)

/-- Bytes of the save areas of a partition that neither records nor undo entries take. -/
def Partition.undoRoom (p : Partition) : Nat :=
  16 * (((p.ckpt.map (·.rest)).getD []).map (·.2)).sum - 16 * p.undo.length

/-- Where the n-th entry of the undo log stands. -/
def undoPlace : List (Nat × Nat) → Nat → Option Nat
  | [], _ => none
  | (a, k) :: l, n => if n < k then some (a + 16 * n) else undoPlace l (n - k)

/-- The undo entries of the quantum join those in the save areas, 16 bytes each: address, old word, zeros (R415). -/
def State.writeUndo (s : State) (vf : Nat) : State :=
  match s.part? vf with
  | none => s
  | some p =>
    let rest := (p.ckpt.map (·.rest)).getD []
    let new := (p.undo.reverse.drop p.undoDone).zip (List.range (p.undo.length - p.undoDone))
    let s := s.each new fun s y => match undoPlace rest (p.undoDone + y.2) with
      | some a => if s.mayWrite vf a 16 then s.recordWrite vf a (toBytes 8 (4 * y.1.1) ++ toBytes 4 y.1.2.toNat ++ toBytes 4 0) else s
      | none => s
    s.modPart vf fun p => { p with undoDone := p.undo.length }

/-- The dirty words of a partition's rows reach DRAM, but for those of stacks in a compute interval and those of SYNC pages: what near
memory then reads does not depend on when write-backs come (R352, assumption 47). -/
def State.flushOwn (s : State) (vf : Nat) : State :=
  let mine (w : Nat) : Bool := (s.perms.get Perm.reset (rowOfPa (4 * w))).owner == vf && !(s.hearth (stackOfPa (4 * w))).compute
  let s := s.each ((s.sync.filter fun x => mine x.1 && !x.2.page && !s.atomicWaits x.1).map (·.1)) State.syncOut
  (s.each ((s.l2.filter fun x => x.2.dirty != 0 && mine x.1).map (·.1)) State.writeThrough).serveWrites mine

/-- Take a checkpoint: a new interval begins, WORKCNT is 0, the undo log is empty, and the records stand in the save areas, their bytes
open (assumption 62). A count stop of the interval that ends can no longer be reached. -/
def State.takeCheckpoint (s : State) (vf : Nat) : State :=
  match s.part? vf with
  | none => s
  | some p =>
    let s := s.each (s.unitsOf vf) fun s u => s.modUnit u fun x => if x.arm && x.stopivl == p.interval then { x with arm := false, badstop := true } else x
    let own (w : Nat × Warp) : Nat × Warp := if s.vfOfTeam w.2.team = vf then (w.1, { w.2 with workcnt := 0 }) else w
    let s : State := { s with warps := s.warps.map own }
    let s := s.modPart vf fun p => { p with
      interval := p.interval + 1, undo := [], undoDone := 0, gone := [], hostLog := [], rehost := [], replayTo := 0, trail := [], retrail := [] }
    let c := s.checkpoint vf ((s.part? vf).getD p)
    let s := s.modPart vf fun p => { p with ckpt := some c }
    s.each (s.contexts.filter fun y => y.2.vf == vf) fun s y =>
      let n := s.recordsEnd y.1 y.2 / 4
      if s.mayWrite vf y.2.savebase.toNat (4 * n) then s.openFill y.2.savebase.toNat n else s

/-- The boundary ends: a new quantum begins from what the homes now hold. A re-execution ends once it has passed the quantum in which the
recorded run was undone. -/
def State.endBoundary (s : State) (vf : Nat) : State :=
  let newW (w : Nat × Warp) : Nat × Warp :=
    if s.vfOfTeam w.2.team = vf then (w.1, { w.2 with quantum := 0, quantumDone := false, ending := none }) else w
  let newT (t : Nat × Team) : Nat × Team :=
    if s.vfOfTeam t.1 = vf then (t.1, { t.2 with seq := t.2.seq.map fun q => { q with quantum := 0, quantumDone := false } }) else t
  let ours := ((s.part? vf).map (·.hives)).getD []
  let newH (h : Nat × Hive) : Nat × Hive := if ours.contains h.1 then (h.1, { h.2 with start := some h.2.comb }) else h
  let s : State := { s with warps := s.warps.map newW, teams := s.teams.map newT, hives := s.hives.map newH }
  let s := s.modPart vf fun p => { p with startVals := [], boundary := p.boundary + 1, reexec := p.reexec && decide (p.boundary < p.replayTo) }
  let s := (s.writeUndo vf).flushOwn vf
  match s.part? vf with
  | none => s
  | some p => if p.boundary % 4096 = 0 || p.undoRoom < 2 ^ 20 then s.takeCheckpoint vf else s

/-! ## Rollback (R416) -/

/-- Undo the log, newest first, and restore the checkpoint; the partition executes again without trace records, and repeats the
host writes and the order of engine events of the recorded run (R352). Its warps read anew what the log has undone. -/
def State.rollback (s : State) (vf : Nat) : State :=
  match (s.part? vf).bind fun p => p.ckpt.map fun c => (p, c) with
  | none => s
  | some (p, c) =>
    let s := s.each p.undo fun s y => { (s.dropWrites [y.1]).setDram y.1 y.2 false with
      sync := s.sync.modify y.1 fun w => { w with data := y.2 }
      l2 := s.l2.erase y.1 }
    let s : State := { s with homeClk := s.homeClk + 1 }
    let mine (ix : Nat) : Bool := s.vfOfTeam ix == vf
    let ours (core slot : Nat) : Bool := ((s.warp? core slot).map fun w => mine w.team).getD false
    let inHives (core : Nat) : Bool := p.hives.contains (hiveOfCore core)
    let s : State := { s with
      loads := s.loads.filter fun l => l.2.vf != vf
      stores := s.stores.filter fun x => x.2.vf != vf
      atomics := s.atomics.filter fun a => a.2.vf != vf
      pend := putAll (s.pend.filter fun x => !ours x.2.core x.2.slot) c.pend
      gathers := s.gathers.filter fun g => !mine g.2.team
      coll := s.coll.mapVals fun l => l.filter fun o => o.vf != vf
      posted := putAll (s.posted.filter fun x => !mine x.2.team) c.posted
      slabs := putAll (s.slabs.filter fun x => !mine x.2.team) c.slabs
      hearths := s.hearths.mapVals fun h => { h with
        queue := h.queue.filter fun q => q.vf != vf, nred := h.nred.filter fun n => n.cmd.vf != vf, launches := h.launches.filter fun l => l.2.vf != vf }
      stoves := s.stoves.filter fun x => !(x.2.vf == vf && x.2.busy)
      teams := putAll (s.teams.filter fun t => !mine t.1) c.teams
      warps := putAll (s.warps.filter fun w => !mine w.2.team) (c.warps.mapVals fun w => { w with floor := s.homeClk })
      engineQ := s.engineQ.filter fun q => q.vf != vf
      heldReq := s.heldReq.filter fun b => b.1 / 768 != vf
      stalls := s.stalls.filter fun y => !inHives y.core
      hives := putAll (s.hives.filter fun h => !p.hives.contains h.1) c.hives
      fitWait := putAll (s.fitWait.filter fun y => !p.hives.contains y.1) c.fitWait
      orphans := s.orphans.filter fun o => o.vf != vf
      screens := s.screens.filter fun y => ((s.grid? y.grid).map (·.vf)) != some vf
      spillQ := s.spillQ.filter fun y => !inHives y.1
      pkgQ := putAll (s.pkgQ.filter fun q => q.1 / 4 != vf) c.pkgQ
      dieQ := putAll (s.dieQ.filter fun q => !p.hives.contains q.1) c.dieQ }
    let s : State := { s with grids := putAll (s.grids.filter fun g => g.2.vf != vf) c.grids }
    let s := s.each ((List.range 384).filter inHives) fun s k => s.modCore k fun x =>
      { x with tiles := ((List.find? (fun (y : Nat × Tab Tile) => y.1 == k) c.tiles).map (·.2)).getD [] }
    let s : State := { s with contexts := s.contexts.map fun x => if x.2.vf = vf then (x.1, { x.2 with saved := (c.saved.find? x.1).getD [] }) else x }
    s.modPart vf fun p => { p with
      pool := c.pool, returned := c.returned, queueRot := c.queueRot, pkgRot := c.pkgRot, dieRot := c.dieRot, undo := [], undoDone := 0, gone := [], startVals := [], reexec := true, soloHolder := c.soloHolder, soloWait := c.soloWait,
      boundary := c.boundary, hostLog := [], rehost := p.hostLog ++ p.rehost, replayTo := max p.replayTo p.boundary,
      trail := [], retrail := p.trail ++ p.retrail, queues := p.queues.map fun q => (q.1, { q.2 with head := (c.heads.find? q.1).getD 0 }) }

/-! ## Count stops (R416) -/

/-- The warp that a unit names, in the context that it names. -/
def State.namedWarp (s : State) (vf u : Nat) : Option Warp :=
  let x := s.unit u
  (s.warp? x.core x.wslot).filter fun w => s.vfOfTeam w.team == vf && s.ctxIdOfTeam w.team % 64 == x.ctx

/-- Set BADSTOP and clear ARM. -/
def State.badStop (s : State) (u : Nat) : State := s.modUnit u fun x => { x with badstop := true, arm := false }

/-- What arming a count stop comes to: an unreachable one sets BADSTOP, and in replay a count that the named warp has passed, resident or
ended in the interval, rolls back. -/
def State.armStop (s : State) (vf u : Nat) : State :=
  let x := s.unit u
  match s.part? vf with
  | none => s.badStop u
  | some p =>
    let over_ (n : DWord) : Bool := decide (x.stopcnt.toNat < n.toNat)
    let passed := ((s.namedWarp vf u).map fun w => over_ w.workcnt).getD false ||
      p.gone.any fun y => y.1 == x.core && y.2.1 == x.wslot && y.2.2.1 % 64 == x.ctx && over_ y.2.2.2
    if x.stopivl.toNat < p.interval.toNat then s.badStop u
    else if !passed || x.stopivl != p.interval then s
    else if !p.replay then s.badStop u
    else s.rollback vf

/-- `COUNT_STOP`: the named warp has reached STOPCNT; in replay every other party has ended its quantum. -/
def execCountStop (unit : Nat) (s : State) : Host.Outcome State Fault Refusal :=
  match s.unitVf unit with
  | none => .next s
  | some vf =>
    let x := s.unit unit
    match s.namedWarp vf unit with
    | none => .next s
    | some w =>
      let ctx := s.ctxIdOfTeam w.team
      if s.stopUnit x.core x.wslot w != some unit || !s.ctxLive ctx || (s.replays vf && !s.partiesEnded vf (some (x.core, x.wslot))) then .next s
      else
        let s := (s.modUnit unit fun x => { x with arm := false }).modPart vf fun p => { p with reexec := false }
        .next (s.stopAt unit vf x.core ctx w.workcnt)

end Sys2Proof.Machine
end

