-- ==== Sys2Proof/Machine/HostEvents.lean ====
section
/-! DEFINITION. What the host does to the device beside its commands: doorbells (05 R104), register writes (19 R386, R388; 20
R410, R416, R417), link training (R385, Table 19.10), and CXL.mem accesses (R386, R351, R387; 20 R414). -/

namespace Sys2Proof.Machine

/-! ## Which functions are reached (R385, R404) -/

/-- The registers of a function answer: PF 0 from step 3 of Table 19.10, the others from step 6 over a link in flit mode. -/
def State.fnUp (s : State) (fn : Nat) : Bool :=
  if fn = 0 then decide (3 ≤ s.bootStep)
  else decide (6 ≤ s.bootStep) && (if fn = pf1 then s.flit 1
    else match s.part? fn with
      | some p => s.flit p.link
      | none => s.flit 0 || s.flit 1)

/-! ## Launch doorbells (R104) -/

/-- `LAUNCH_DOORBELL`: a new tail is taken unless it overruns the ring or lowers the tail. -/
def execLaunchDoorbell (vf queue : Nat) (tail : Word) (s : State) : Host.Outcome State Fault Refusal :=
  match s.part? vf with
  | none => .next s
  | some p =>
    if !s.fnUp vf || 16 ≤ queue then .next s
    else
      let bad : State := s.log vf 0xF3 0 false 8 4 (BitVec.ofNat 64 queue)
      match p.queues.find? queue with
      | none => .next bad
      | some q =>
        let d := (tail - q.head).toNat
        if 2 ^ q.n < d || d < (q.tail - q.head).toNat then .next bad
        else .next (s.modPart vf fun p => { p with queues := p.queues.put queue { q with tail := tail } })

/-! ## Trace unit windows (Table 20.1) -/

/-- A function reaches the fields of a unit's window: it holds the unit. -/
def State.holdsUnit (s : State) (fn u : Nat) : Bool := s.fnUp fn && decide (u < 16) && (s.unit u).holder == some fn

/-- A write of the control field at 0x18: reserved bits make it ignored; STOPPED and BADSTOP are cleared by 1; a rising ARM
arms the stop. -/
def State.writeControl (s : State) (u : Nat) (v : DWord) : State :=
  let n := v.toNat
  if bitsOf n 63 55 ≠ 0 || bitsOf n 50 20 ≠ 0 then s
  else
    let s := s.modUnit u fun x => { x with
      stopped := x.stopped && !v.getLsbD 54, badstop := x.badstop && !v.getLsbD 53, arm := v.getLsbD 52, brk := v.getLsbD 51,
      ctx := bitsOf n 19 14, core := bitsOf n 13 5, wslot := bitsOf n 4 0 }
    if v.getLsbD 52 then
      match s.unitVf u with
      | some vf => s.armStop vf u
      | none => s.badStop u
    else s

/-- Dump the context that a unit names, halted first (R417). -/
def State.dumpNow (s : State) (u : Nat) : State :=
  match s.unitVf u with
  | none => s
  | some vf =>
    let ctx := vf * 64 + (s.unit u).ctx
    if (s.ctx? ctx).isNone then s else (s.haltContext ctx).dump u vf ctx 0

/-- A write of the dump control field at 0x38. -/
def State.writeDumpCtl (s : State) (u : Nat) (v : DWord) : State :=
  let n := v.toNat
  if bitsOf n 31 8 ≠ 0 || bitsOf n 5 3 ≠ 0 then s
  else
    let s := s.modUnit u fun x => { x with dumpsize := v.extractLsb' 32 32, onfault := v.getLsbD 6, key := bitsOf n 2 0 }
    if v.getLsbD 7 then s.dumpNow u else s

/-- The control field as it reads, without its write-one-to-clear bits. -/
def TraceUnit.control (x : TraceUnit) : Nat :=
  (if x.arm then 2 ^ 52 else 0) + (if x.brk then 2 ^ 51 else 0) + x.ctx * 2 ^ 14 + x.core * 2 ^ 5 + x.wslot

/-- The dump control field as it reads. -/
def TraceUnit.dumpCtl (x : TraceUnit) : Nat := x.dumpsize.toNat * 2 ^ 32 + (if x.onfault then 2 ^ 6 else 0) + x.key

/-- `DUMP_NOW`: NOW is written with the rest of its field unchanged. -/
def execDumpNow (fn unit : Nat) (s : State) : Host.Outcome State Fault Refusal :=
  .next (if s.holdsUnit fn unit then s.writeDumpCtl unit (BitVec.ofNat 64 ((s.unit unit).dumpCtl + 2 ^ 7)) else s)

/-- `COUNT_STOP_ARM`: ARM is written with the rest of its field unchanged. -/
def execCountStopArm (fn unit : Nat) (s : State) : Host.Outcome State Fault Refusal :=
  .next (if s.holdsUnit fn unit then s.writeControl unit (BitVec.ofNat 64 ({ s.unit unit with arm := true } : TraceUnit).control) else s)

/-- `TRACE_RCOUNT_WRITE`: a value above WCOUNT is ignored. -/
def execTraceRcountWrite (fn unit : Nat) (value : DWord) (s : State) : Host.Outcome State Fault Refusal :=
  .next (if s.holdsUnit fn unit && decide (value.toNat ≤ (s.unit unit).wcount.toNat) then
      s.modUnit unit fun x => { x with rcount := value }
    else s)

/-! ## Other register writes -/

/-- A doorbell of the mailbox: ignored while STATUS is PENDING (R388). -/
def State.ringMailbox (s : State) (fn : Nat) : State :=
  if (s.mailbox fn).status = .pending then s
  else { s.modMailbox fn (fun m => { m with status := .pending }) with mboxOrder := s.mboxOrder ++ [fn] }

/-- The register that a write at an offset of BAR0 reaches (19 R386, Tables 19.2, 20.1): fields that the device only reports, reserved
bytes and what lies between the windows take no write. RCOUNT has an event of its own. -/
def regAt (off : Nat) : HostReg :=
  if off = 0x1000 then .mailboxOp
  else if off = 0x1002 then .mailboxForce
  else if 0x1008 ≤ off && off < 0x1038 && off % 8 = 0 then .mailboxArg ((off - 0x1008) / 8)
  else if off = 0x1038 then .doorbell
  else if 0x3000 ≤ off && off < 0x3800 then
    let u := (off - 0x3000) / 128
    match off % 128 with
    | 0x18 => .traceControl u
    | 0x20 => .traceStopCnt u
    | 0x28 => .traceStopIvl u
    | 0x30 => .traceDumpBase u
    | 0x38 => .traceDumpCtl u
    | _ => .reserved
  else if 0x2000000 ≤ off && off < 0x3000000 then .bootWindow (off - 0x2000000)
  else .reserved

/-- `REGISTER_WRITE`: a write that sets a reserved bit, or by a function that does not hold the unit, is ignored. -/
def execRegisterWrite (fn : Nat) (reg : HostReg) (value : DWord) (s : State) : Host.Outcome State Fault Refusal :=
  if !s.fnUp fn then .next s
  else
    let unit (u : Nat) (f : TraceUnit → TraceUnit) : State := if s.holdsUnit fn u then s.modUnit u f else s
    match reg with
    | .mailboxOp => .next (s.modMailbox fn fun m => { m with op := value.setWidth 16 })
    | .mailboxForce => .next (if value.toNat < 2 then s.modMailbox fn fun m => { m with force := value == 1 } else s)
    | .mailboxArg i => .next (s.modMailbox fn fun m => { m with args := m.args.set i value })
    | .doorbell => .next (s.ringMailbox fn)
    | .traceControl u => .next (if s.holdsUnit fn u then s.writeControl u value else s)
    | .traceStopCnt u => .next (unit u fun x => { x with stopcnt := value })
    | .traceStopIvl u => .next (if value.toNat < 2 ^ 32 then unit u fun x => { x with stopivl := value.setWidth 32 } else s)
    | .traceDumpBase u => .next (unit u fun x => { x with dumpbase := value })
    | .traceDumpCtl u => .next (if s.holdsUnit fn u then s.writeDumpCtl u value else s)
    | .bootWindow o =>
      .next (if fn = 0 && o % 8 = 0 && decide (o < 2 ^ 24) then
          { s with bootWindow := ((toBytes 8 value.toNat).zip (List.range 8)).foldl (fun (t : Tab Byte) y => t.set 0 (o + y.2) y.1) s.bootWindow }
        else s)
    | .reserved => .next s

/-! ## Links -/

/-- Widths and rates (GT/s) a link can train to. -/
def linkWidths : List Nat := [1, 2, 4, 8, 16]
def linkRates : List Nat := [2, 5, 8, 16, 32, 64, 128]

/-- `LINK_TRAINING`: a first training, or a fall back in width or rate. With both links trained the boot ROM exposes PF 0
(steps 2 and 3 of Table 19.10). -/
def execLinkTraining (link width rate : Nat) (s : State) : Host.Outcome State Fault Refusal :=
  let old := s.links.getD link (0, 0)
  if 2 ≤ link || !linkWidths.contains width || !linkRates.contains rate || (old.1 ≠ 0 && (old.1 < width || old.2 < rate)) then .next s
  else
    let s := { s with links := s.links.set link (width, rate) }
    .next (if s.bootStep = 1 && s.links.all fun l => l.1 != 0 then { s with bootStep := 3 } else s)

/-! ## CXL.mem (R386, R387, R351) -/

/-- A row belongs to a replay partition: that partition. -/
def State.replayOwner (s : State) (row : Nat) : Option Nat :=
  let o := (s.perms.get Perm.reset row).owner
  if s.replays o then some o else none

/-- A host write of bytes within one 64-byte line: to a replay partition it is held, to a host-bias page it is a request in
flight, otherwise it is performed at its home. -/
def State.hostWriteLine (s : State) (pa : Nat) (bytes : List Byte) : State :=
  match s.replayOwner (rowOfPa pa) with
  | some vf => s.modPart vf fun p => { p with hostHeld := p.hostHeld ++ [(pa, bytes)] }
  | none =>
    if s.isHostBias pa then { s with hostInFlight := s.hostInFlight ++ [(pa, bytes)] }
    else s.hostWrite pa bytes

/-- A byte as the host reads it: its own newest request in flight for it, else the home (R351). -/
def State.hostByte (s : State) (a : Nat) : Byte :=
  (s.hostInFlight.findRev? fun h => decide (h.1 ≤ a) && decide (a < h.1 + h.2.length)).elim
    ((s.homeWord (a / 4)).1.extractLsb' (8 * (a % 4)) 8) fun h => h.2.getD (a - h.1) 0

/-- Pieces of a run of bytes, none across a line. -/
def linePieces (pa : Nat) (bytes : List Byte) : List (Nat × List Byte) :=
  (List.range ((pa + bytes.length + 63) / 64 - pa / 64)).map fun i =>
    let lo := max pa ((pa / 64 + i) * 64)
    let hi := min (pa + bytes.length) ((pa / 64 + i + 1) * 64)
    (lo, (bytes.drop (lo - pa)).take (hi - lo))

/-- The rows of an access that the physical function may not pass (R116): the first. -/
def hostDenied (pa n : Nat) : Option Nat :=
  (List.range ((pa + n + 2047) / 2048 - pa / 2048)).findSome? fun i =>
    let a := max pa ((pa / 2048 + i) * 2048)
    if reservedPa a then some a else none

/-- A refused host access, logged (R116). -/
def State.refuseHost (s : State) (pa : Nat) : State :=
  { s.logPhys 0 causeRowDenied pa none 4 (stackOfPa pa) 0 with hostRead := some ([], causeRowDenied) }

/-- `HOST_CXL_MEM_ACCESS`: as function 0. A read of a poisoned word answers UNCORR_DATA; one that DRAM must supply waits out a compute
interval, and so does a write, which changes DRAM (R367, Table 4.7). -/
def execHostCxlMemAccess (access : HostAccess) (s : State) : Host.Outcome State Fault Refusal :=
  let up := decide (6 ≤ s.bootStep) && (s.flit 0 || s.flit 1)
  match access with
  | .read pa n =>
    if !up || 2 ^ 39 < pa + n || s.dramHeld pa n then .next s
    else match hostDenied pa n with
      | some a => .next (s.refuseHost a)
      | none =>
        let bad := (wordsOf pa n).any fun w => (s.homeWord w.1).2
        .next { s.touchRun 0 pa n with hostRead := some (if bad then ([], causeUncorr)
          else ((List.range n).map fun i => s.hostByte (pa + i), 0)) }
  | .write pa bytes =>
    let closed := (wordsOf pa bytes.length).any fun w => (s.hearth (stackOfPa (4 * w.1))).compute
    if !up || 2 ^ 39 < pa + bytes.length || closed then .next s
    else match hostDenied pa bytes.length with
      | some a => .next (s.refuseHost a)
      | none => .next (s.each (linePieces pa bytes) fun s y => s.hostWriteLine y.1 y.2)

/-- `BACK_INVALIDATE_REISSUE`: the host's requests on the line complete first, each byte that they write in DRAM; the device access
that waited for the line is then performed by its own event (R351). It waits out a compute interval (R367). -/
def execBackInvalidateReissue (line : Nat) (s : State) : Host.Outcome State Fault Refusal :=
  let on (h : Nat × List Byte) : Bool := h.1 / 64 == line
  if (s.hearth (stackOfPa (64 * line))).compute then .next s else .next { s.each (s.hostInFlight.filter on) (fun s h => s.hostWrite h.1 h.2) with
    hostInFlight := s.hostInFlight.filter fun h => !on h }

/-- The host refuses, or accepts again, device requests to one of its 4 KiB pages (R99). -/
def State.hostProtect (s : State) (page : Nat) (deny : Bool) : State :=
  { s with hostDeny := if deny then page :: s.hostDeny.filter (· ≠ page) else s.hostDeny.filter (· ≠ page) }

end Sys2Proof.Machine
end

