-- ==== Sys2Proof/Machine/Device.lean ====
section
/-! DEFINITION. The device as a whole: supplies and resets (01 R24; 19 R402, R404), clocks (01 R22; 06 R127, R130 to R132), power
(01 R20, R23), takeover (19 R406), scrub and zero fill (04 R82; 19 R396), the I3C report (R24), and parts lost to faults
(05 R120). -/

namespace Sys2Proof.Machine

/-! ## Resets -/

/-- What outlasts the loss of all device state: fuses; host memory, which is not the device's; and the model's own fields. -/
def State.afterReset (s : State) (powered : Bool) : State :=
  { State.reset with
    agenda := s.agenda, freeCtr := s.freeCtr, nextId := s.nextId, boots := s.boots, fuses := s.fuses, hostMem := s.hostMem, powered := powered }

/-- `DEVICE_RESET`: supplies are applied and reset is released (Table 19.10 step 1). -/
def execDeviceReset (s : State) : Host.Outcome State Fault Refusal := .next (s.afterReset true)

/-- `SUPPLY_REMOVED` (R24). -/
def execSupplyRemoved (s : State) : Host.Outcome State Fault Refusal := .next (s.afterReset false)

/-- `HOT_RESET` (R402). -/
def execHotReset (s : State) : Host.Outcome State Fault Refusal := .next (if s.powered then s.afterReset true else s)

/-! ## Clocks -/

/-- A bucket at a tick: a new setting is in force, then the level rises (R132, R399). -/
def Bucket.tick (b : Bucket) : Bucket :=
  let b := match b.next with
    | some (r, n) => { b with rate := r, burst := n, next := none }
    | none => b
  { b with level := min (b.level + b.rate) b.burst }

/-- `VCLOCK_TICK` (R130): the DRAM banks take their turns, then VCLOCK by one, the DRAM command clock by two (R22), buckets, barrier wait counters, sample
down-counters, and the Sorica entries that are being written (R120). -/
def execVclockTick (s : State) : Host.Outcome State Fault Refusal :=
  if !s.powered then .next s
  else
    let s := s.tickBarriers.tickSamples.bankTurns
    .next { s with
      vclock := s.vclock + 1
      dclk := s.dclk + 2
      buckets := s.buckets.mapVals Bucket.tick
      soricaW := stepWrites [] s.soricaW }

/-! ## Power -/

/-- The clock of an island is the DRAM command clock (R20). -/
def dramIsland (i : Nat) : Bool := decide (240 ≤ i) && i % 2 == 1

/-- Change an island's frequency; its Sorica entry shows it (Table 5.7). -/
def State.setIsland (s : State) (island mhz : Nat) : State :=
  ({ s with islands := s.islands.put island mhz } : State).soricaTouch s 7 island

/-- The management core sets an island's frequency and supply voltage; the controllers clamp every setting to the fuses (R20, R403,
assumption 86). Of an island on the DRAM command clock it sets the voltage alone. -/
def State.governIsland (s : State) (island mhz mv : Nat) : State :=
  if s.bootStep < 6 || 256 ≤ island || mhz = 0 then s
  else
    let s : State := { s with volts := s.volts.put island (min mv (Config.fusedMv island)) }
    if dramIsland island then s else s.setIsland island (min mhz (Config.fusedMhz island))

/-- `THROTTLE` (R23): a lower frequency, and a throttle event in the management log. R23 names compute, cache, link and hearth-logic
islands; island 60·d + 59, of a die's engines and distributors, counts among them (assumption 90). -/
def execThrottle (island mhz : Nat) (s : State) : Host.Outcome State Fault Refusal :=
  if s.bootStep < 6 || 256 ≤ island || dramIsland island || mhz = 0 || s.mhzOf island ≤ mhz then .next s
  else .next ((s.setIsland island mhz).logMgmt ⟨s.vclock, 0, 0xF0, 7, s.mgmtCore, 0xFF, 0, 0⟩)

/-! ## The management cores (R406) -/

/-- `MGMT_HEARTBEAT`. -/
def execMgmtHeartbeat (s : State) : Host.Outcome State Fault Refusal :=
  .next (if s.shadow || s.bootStep < 6 then s else { s with heartbeat := s.vclock })

/-- `TAKEOVER`: after 10 ms without a heartbeat. A command that was executing and had not committed is ABORTED, a flip without effect;
whether the one that is next had begun is open, but for one that has shown it by what waits for it. -/
def execTakeover (s : State) : Host.Outcome State Fault Refusal :=
  if s.shadow || s.bootStep < 6 || (s.vclock - s.heartbeat).toNat < 12000000 then .next s
  else
    let s := match s.mboxCur.or s.mboxNext with
      | none => s
      | some f =>
        let c := s.pick 2
        if s.mboxCur.isSome || c.1 = 0 then (({ c.2 with flips := if s.mboxCur.isSome then [] else s.flips } : State).finishCommand f .aborted []).drainEngine else c.2
    .next ({ s with shadow := true }.logMgmt ⟨s.vclock, 0, 0, 7, 1, 0xFF, 0, 0⟩)

/-! ## Hearth maintenance -/

/-- `PATROL_SCRUB` (R82): a row is read and corrected in an ordinary interval; corrections and uncorrectable words are
counted and logged, without an owning function (R107). Words with a clean syndrome are read without effect. -/
def execPatrolScrub (row : Nat) (s : State) : Host.Outcome State Fault Refusal :=
  let stack := stackOfPa (2048 * row)
  if s.bootStep < 6 || 2 ^ 28 ≤ row || (s.hearth stack).compute then .next s
  else
    let ws := (List.range 512).map fun i => row * 512 + i
    .next (s.each (ws.filter fun w => s.synd.get 0 w != 0 || s.poisoned.contains w) fun s w =>
      let fixed := !s.poisoned.contains w && (eccResolve (s.dramData w) (s.synd.get 0 w)).2.2 && (s.elision.find? row).isNone
      let r := (s.hearthRead 0xFF w).2.2
      if fixed then r.logPhys 0xFF 0xF1 (4 * w) none 4 stack 0 else r)

/-- Take one row out of the ranges awaiting zero fill. -/
def takeRow (row : Nat) : List (Nat × Nat) → List (Nat × Nat)
  | [] => []
  | (a, n) :: l =>
    if a ≤ row && row < a + n then
      ((if row = a then [] else [(a, row - a)]) ++ (if row + 1 = a + n then [] else [(row + 1, a + n - row - 1)])) ++ l
    else (a, n) :: takeRow row l

/-- `ZERO_FILL` (R396): a released row is filled in an ordinary interval and becomes assignable. What caches and queues still hold of it
leaves them first; an L1 copy is older than the row. -/
def execZeroFill (row : Nat) (s : State) : Host.Outcome State Fault Refusal :=
  if s.bootStep < 6 || (s.hearth (stackOfPa (2048 * row))).compute || !(s.unfilled.any fun u => decide (u.1 ≤ row) && decide (row < u.1 + u.2)) then .next s
  else
    let inRow (w : Nat) : Bool := w / 512 == row
    let t := s.quietRows [row]
    .next (({ t with
      unfilled := takeRow row t.unfilled
      mem := t.mem.filter fun c => c.1 / 2048 != row
      synd := t.synd.filter fun x => !inRow x.1
      poisoned := t.poisoned.filter fun w => !inRow w
      rel := t.rel.filter fun x => x.1 / 2048 != row
      elision := t.elision.erase row
      homeClk := t.homeClk + 1
      rowTime := t.rowTime.put row (t.homeClk + 1) } : State).showUnfilled s)

/-! ## Upsets (R81, R85, R371) -/

/-- Stored bits in error once an upset has struck: one bit, or two with one in error before. -/
def moreBits (err : Nat) (double : Bool) : Nat := if double || 0 < err then 2 else 1

/-- An upset. Bits 0 to 31 of a DRAM word are its data, bits 32 to 39 its check bits (R80). Of a sequencer's instruction, two computations that
disagree once are repaired and counted, twice they end the context (assumption 103). A word that an atomic instruction with a lane done
already still has to change is good until then (R287). -/
def State.upset (s : State) (u : Upset) : State :=
  match u with
  | .dram wa bit =>
    if s.poisoned.contains wa || 40 ≤ bit then s
    else
      let syn := s.synd.get 0 wa ^^^ BitVec.ofNat 8 (if bit < 32 then eccCol bit else 2 ^ (bit - 32))
      { s with
        mem := if bit < 32 then Memory.writeN s.mem (4 * wa) (toBytes 4 (s.dramData wa ^^^ BitVec.ofNat 32 (2 ^ bit)).toNat) else s.mem
        synd := s.synd.set 0 wa syn }
  | .l1 core wa double => s.modCore core fun c => { c with l1 := c.l1.modify wa fun x => { x with err := moreBits x.err double } }
  | .l2 wa double => { s with l2 := s.l2.modify wa fun x => { x with err := moreBits x.err double } }
  | .sync wa double => if s.atomics.any (fun a => a.2.begun && a.2.old.isNone && (wordsOf a.2.pa (2 ^ a.2.size)).any fun w => w.1 == wa) then s else { s with sync := s.sync.modify wa fun x => { x with err := moreBits x.err double } }
  | .comb hive wi double => s.modHive hive fun h => { h with err := h.err.put wi (moreBits (h.err.get 0 wi) double) }
  | .seq core team double =>
    let ix := teamIx core team
    match ((s.team? ix).bind (·.seq)).filter fun q => !q.ended with
    | none => s
    | some q =>
      let s := s.countRes (s.vfOfTeam ix) 15 core 5
      if double then s.seqTrap core team q.pc (plain causeMismatch 0) else s

/-! ## Reports and lost parts -/

/-- `I3C_TEMPERATURE_REPORT` (R24): the temperatures are not state of the device. -/
def execI3cTemperatureReport (s : State) : Host.Outcome State Fault Refusal :=
  .next (if s.powered then { s with i3cReports := s.i3cReports ++ [s.vclock] } else s)

/-- `RETIRED_BY_FAULT` (R120, Table 5.7): the resource's entry gets STATE 3. -/
def execRetiredByFault (kind index : Nat) (s : State) : Host.Outcome State Fault Refusal :=
  .next (if soricaCount kind ≤ index || 2 ≤ s.soricaSt kind index then s else s.setSorica kind index 3 0xFF)

end Sys2Proof.Machine
end

