-- ==== Sys2Proof/Machine/Packed.lean ====
section
/-! DEFINITION. The packed 16-bit class (12 R260, R261): each half of a word in FP16 or BF16, inputs flushed. -/

namespace Sys2Proof.Machine

/-- Both halves of a result with their flags ORed. -/
def halves (f : Nat → Nat × BitVec 5) : Word × BitVec 5 :=
  let lo := f 0
  let hi := f 1
  (BitVec.ofNat 32 (lo.1 + 65536 * hi.1), lo.2 ||| hi.2)

/-- A flushed half and its code. -/
def Ctx.half (x : Ctx) (b : VBody) (code : BitVec 8) (t h : Nat) : Fv := elemFlushed (fmtOf (modDt b.mod)) (x.op32 code t) h
def Ctx.halfCode (x : Ctx) (b : VBody) (code : BitVec 8) (t h : Nat) : Nat :=
  let f := fmtOf (modDt b.mod)
  let c := elemCode f (x.op32 code t) h
  match f.value c with
  | .fin n m _ => if m < 2 ^ f.mb then (if n then f.signBit else 0) else c
  | _ => c

/-- Two-operand packed arithmetic: one rounding, then the flush of R140. -/
def packed2 (x : Ctx) (s : State) (b : VBody) (op : Fv → Fv → Option Fv) : Eff :=
  perThreadF x s b.d false fun t => halves fun h =>
    let p := x.half b b.a t h
    let q := x.half b b.b t h
    arith (fmtOf (modDt b.mod)) (narrowMode (modRm b.mod)) [p, q] (op p q)

def execHadd2 (h : Hdr) (b : VBody) (s : State) : Host.Outcome State Fault Refusal :=
  issue (.hadd2 h b) s fun x s => packed2 x s b (fvAdd (modRm b.mod))
def execHsub2 (h : Hdr) (b : VBody) (s : State) : Host.Outcome State Fault Refusal :=
  issue (.hsub2 h b) s fun x s => packed2 x s b fun p q => fvAdd (modRm b.mod) p q.negate
def execHmul2 (h : Hdr) (b : VBody) (s : State) : Host.Outcome State Fault Refusal :=
  issue (.hmul2 h b) s fun x s => packed2 x s b fvMul
def execHfma2 (h : Hdr) (b : VBody) (s : State) : Host.Outcome State Fault Refusal :=
  issue (.hfma2 h b) s fun x s => perThreadF x s b.d false fun t => halves fun k =>
    fmaOf (fmtOf (modDt b.mod)) (narrowMode (modRm b.mod)) (x.half b b.a t k) (x.half b b.b t k) (x.half b b.c t k)

/-- `hmin2` and `hmax2`: selection of R257 after flushing. -/
def packedSelect (x : Ctx) (s : State) (b : VBody) (big : Bool) : Eff :=
  perThreadF x s b.d false fun t => halves fun k =>
    minMax (fmtOf (modDt b.mod)) big (x.halfCode b b.a t k) (x.halfCode b b.b t k) (x.half b b.a t k) (x.half b b.b t k)
def execHmin2 (h : Hdr) (b : VBody) (s : State) : Host.Outcome State Fault Refusal :=
  issue (.hmin2 h b) s fun x s => packedSelect x s b false
def execHmax2 (h : Hdr) (b : VBody) (s : State) : Host.Outcome State Fault Refusal :=
  issue (.hmax2 h b) s fun x s => packedSelect x s b true
def execHcmp2 (h : Hdr) (b : VBody) (s : State) : Host.Outcome State Fault Refusal :=
  issue (.hcmp2 h b) s fun x s => perThreadF x s b.d false fun t => halves fun k =>
    let r := cmpCC (modCc b.mod) (x.half b b.a t k) (x.half b b.b t k)
    (if r.1 then 0xFFFF else 0, r.2)

/-- `e8dot4`: four products of FP8 elements, kinds DT and ST, and an FP32 addend. -/
def execE8dot4 (h : Hdr) (b : VBody) (s : State) : Host.Outcome State Fault Refusal :=
  issue (.e8dot4 h b) s fun x s => perThreadF x s b.d false fun t =>
    word (dotOf (modRm b.mod) ((List.range 4).map (elemFlushed (fmtOf (modDt b.mod)) (x.op32 b.a t)))
      ((List.range 4).map (elemFlushed (fmtOf (modSt b.mod)) (x.op32 b.b t))) (x.fl b.c t))

end Sys2Proof.Machine
end

