-- ==== Sys2Proof/Machine/Predicate.lean ====
section
/-! DEFINITION. The predicate class (11 R248 to R251). -/

namespace Sys2Proof.Machine

/-- A predicate operand: index in bits 2–0, negate in bit 3 (R248). -/
def Ctx.pOperand (x : Ctx) (code : BitVec 8) (t : Nat) (zeroOffset : Bool) : Bool :=
  (x.w.read (.p (code.toNat % 8) t) (x.now + if zeroOffset then 0 else x.off t) != 0) ^^ code.getLsbD 3

/-- `plop`: three predicates of each thread through an eight-entry table; under U in every thread of MASK. -/
def execPlop (h : Hdr) (b : VBody) (s : State) : Host.Outcome State Fault Refusal :=
  issue (.plop h b) s fun x s =>
    results x s ((threadsOf x.act).map fun t =>
      let k := (if x.pOperand b.a t x.u then 4 else 0) + (if x.pOperand b.b t x.u then 2 else 0) + if x.pOperand b.c t x.u then 1 else 0
      putP b.d t (b.mod.getLsbD k)) 0

/-- `pmask`: a predicate of every thread of MASK as a mask, read at offset 0. -/
def execPmask (h : Hdr) (b : VBody) (s : State) : Host.Outcome State Fault Refusal :=
  issue (.pmask h b) s fun x s =>
    results x s (if x.act = 0 then [] else [putS b.d (maskWhere fun t => x.mask.getLsbD t && x.pOperand b.a t true)]) 0

/-- `psetm`: bit t of a wide operand into the predicate of thread t. -/
def execPsetm (h : Hdr) (b : VBody) (s : State) : Host.Outcome State Fault Refusal :=
  issue (.psetm h b) s fun x s => results x s ((threadsOf x.act).map fun t => putP b.d t ((x.op64 b.a t).getLsbD t)) 0

/-- `pact`: Active, MASK, or the live threads of the warp. -/
def execPact (h : Hdr) (b : VBody) (s : State) : Host.Outcome State Fault Refusal :=
  issue (.pact h b) s fun x s =>
    let m := match b.mod.toNat % 4 with
      | 0 => x.act
      | 1 => x.mask
      | _ => x.w.live
    results x s (if x.act = 0 then [] else [putS b.d m]) 0

end Sys2Proof.Machine
end

