-- ==== Sys2Proof/Machine/SfuMath.lean ====
section
/-! DEFINITION. Special functions (12 R262, R263, Table 12.6): the correctly rounded ones exactly; for the others the free value of
`Config.specialValue` where it lies within the bound of Table 12.6, else the rounded true value. The true values are
fixed-point numbers at 2^-256 with a known error, and where one lies closer than that to a number that a bound may meet (0, 1 or -1)
a number on the same side stands for it; so the values admitted are those within the bound (assumption 4). -/

namespace Sys2Proof.Machine

/-- One at the scale 2^-256. -/
def fxOne : Int := 2 ^ 256
def fxPi : Int := 0x3243f6a8885a308d313198a2e03707344a4093822299f31d0082efa98ec4e6c89
def fxLn2 : Int := 0xb17217f7d1cf79abc9e3b39803f2f6af40f343267298b62d8a0d175b8baafa2b
def fxSqrtPi : Int := 0x1c5bf891b4ef6aa79c3b0520d5db9383fe3921546f63b252dca100bd3ea14746e

/-- Product of fixed-point numbers. -/
def fxMul (a b : Int) : Int := a * b / fxOne
/-- Quotient of fixed-point numbers. -/
def fxDiv (a b : Int) : Int := a * fxOne / b

/-- A finite value at the scale 2^-256, truncated below it. -/
def fxOf (n : Bool) (m : Nat) (e : Int) : Int :=
  let k := e + 256
  let x : Int := if 0 ≤ k then (m <<< k.toNat : Nat) else if k < -600 then 0 else (m >>> (-k).toNat : Nat)
  if n then -x else x

/-- Sum of a series whose term n + 1 is term n × num ÷ (`den` n), over `fuel` terms. -/
def fxSeries (num : Int) (den : Nat → Int) (weight : Nat → Int) : Nat → Nat → Int → Int → Int
  | 0, _, _, acc => acc
  | fuel + 1, k, term, acc =>
    fxSeries num den weight fuel (k + 1) (fxMul term num / den k) (acc + term / weight k)

/-- exp of a fixed-point number of magnitude below 1. -/
def fxExpSmall (x : Int) : Int := fxSeries x (fun k => k + 1) (fun _ => 1) 64 0 fxOne 0
/-- 2^x for a fixed-point x above −300: the fraction's exponential shifted by the integer part. -/
def fxExp2 (x : Int) : Int :=
  let n := x / fxOne
  let r := fxExpSmall (fxMul (x - n * fxOne) fxLn2)
  if 0 ≤ n then r * 2 ^ n.toNat else r / 2 ^ (-n).toNat
/-- exp x for |x| below 120. -/
def fxExp (x : Int) : Int := fxExp2 (fxDiv x fxLn2)
/-- Binary digits of log2 of m in [1, 2) by repeated squaring. -/
def fxLogFrac : Nat → Int → Int → Int
  | 0, _, _ => 0
  | fuel + 1, w, x =>
    let y := fxMul x x
    if 2 * fxOne ≤ y then w + fxLogFrac fuel (w / 2) (y / 2) else fxLogFrac fuel (w / 2) y
/-- sin of a fixed-point angle in radians. -/
def fxSin (x : Int) : Int :=
  let tau := 2 * fxPi
  let r := x - (x + fxPi) / tau * tau
  fxSeries (-(fxMul r r)) (fun k => (2 * k + 2) * (2 * k + 3)) (fun _ => 1) 48 0 r 0
/-- cos x = sin (x + π/2). -/
def fxCos (x : Int) : Int := fxSin (x + fxPi / 2)
/-- erf of a fixed-point number of magnitude below 6. -/
def fxErf (x : Int) : Int :=
  fxDiv (2 * fxSeries (-(fxMul x x)) (fun k => k + 1) (fun k => 2 * k + 1) 280 0 x 0) fxSqrtPi

/-- Floor of the square root, by bits from 2^`fuel`. -/
def isqrtFrom : Nat → Nat → Nat → Nat
  | 0, _, r => r
  | fuel + 1, n, r =>
    let c := r + 2 ^ fuel
    isqrtFrom fuel n (if c * c ≤ n then c else r)
/-- Floor of the square root. -/
def isqrt (n : Nat) : Nat := isqrtFrom (Nat.log2 n / 2 + 1) n 0

/-- One unit in the last place of FP32 at a fixed-point magnitude. -/
def fxUlp (c : Int) : Int :=
  let e : Int := (Nat.log2 c.natAbs : Int) - 256
  let q := (if e < -126 then -126 else e) - 23 + 256
  2 ^ q.toNat

/-- What a computed root, logarithm or error function may be off by: 2^-190, and 2^-180 of itself. -/
def fxErr (c : Int) : Int := 2 ^ 66 + c.natAbs / 2 ^ 180
/-- The same for exponentials and what is computed from them, and for sines: 2^-240, and 2^-236 of itself. -/
def fxFine (c : Int) : Int := 2 ^ 16 + c.natAbs / 2 ^ 236

/-- A true value that is positive and smaller than any of the bounds can tell from 2^-185. -/
def fxTiny : Int := 2 ^ 71

/-- cos x of an angle that is not 0: below 1 also where it is closer to it than the scale tells. -/
def fxCosOf (x : Int) : Int := if x.natAbs < 2 ^ 176 then fxOne - fxTiny else fxCos x

/-- The free word where it lies within `bound` of the true value, whatever the error of the computed one, and between `lo` and
`hi`, else the true value rounded. -/
def allow (free : Word) (centre bound err lo hi : Int) : Word :=
  let ok : Bool := match f32.value free.toNat with
    | .fin n m e => let x := fxOf n m e
                    decide (((x - centre).natAbs : Int) + err ≤ bound) && decide (lo ≤ x) && decide (x ≤ hi)
    | _ => false
  if ok then free else BitVec.ofNat 32 (f32.round (ieee 0) (decide (centre < 0)) centre.natAbs (-256)).1

/-- No limits beside the bound. -/
def fxMax : Int := 2 ^ 600

/-- 1/a, correctly rounded; UF is not raised (R262). -/
def sfuRcp (x : Fv) : Word × BitVec 5 :=
  match x with
  | .fin n m e =>
    if m = 0 then (BitVec.ofNat 32 (f32.infCode + if n then f32.signBit else 0), flagDZ)
    else
      let k := Nat.log2 m + 40
      let q := 2 ^ k / m
      let q' := 2 * q + (if 2 ^ k % m = 0 then 0 else 1)
      let r := f32.round (ieee 0) n q' (-(k : Int) - 1 - e)
      (BitVec.ofNat 32 r.1, r.2 &&& (flagOF ||| flagNX))
  | .inf n => (BitVec.ofNat 32 (if n then f32.signBit else 0), 0)
  | .nan _ => (BitVec.ofNat 32 f32.nanCode, 0)

/-- √a, correctly rounded. -/
def sfuSqrt (x : Fv) : Word × BitVec 5 :=
  match x with
  | .fin n m e =>
    if m = 0 then (BitVec.ofNat 32 (if n then f32.signBit else 0), 0)
    else if n then (BitVec.ofNat 32 f32.nanCode, flagNV)
    else
      let e' : Int := if e % 2 = 0 then e else e - 1
      let m' := (if e % 2 = 0 then m else 2 * m) * 2 ^ 80
      let q := isqrt m'
      let r := f32.round (ieee 0) false (2 * q + if q * q = m' then 0 else 1) (e' / 2 - 41)
      (BitVec.ofNat 32 r.1, r.2 &&& flagNX)
  | .inf n => if n then (BitVec.ofNat 32 f32.nanCode, flagNV) else (BitVec.ofNat 32 f32.infCode, 0)
  | .nan _ => (BitVec.ofNat 32 f32.nanCode, 0)

/-- 1/√a. -/
def sfuRsq (free : Word) (x : Fv) : Word × BitVec 5 :=
  match x with
  | .fin n m e =>
    if m = 0 then (BitVec.ofNat 32 (f32.infCode + if n then f32.signBit else 0), flagDZ)
    else if n then (BitVec.ofNat 32 f32.nanCode, flagNV)
    else
      let c : Int := isqrt (2 ^ (512 - e).toNat / m)
      let k := floorLog2 m e
      let exact : Bool := m = 2 ^ Nat.log2 m && k % 2 == 0
      (allow free c (fxUlp c) (if exact then 0 else fxErr c) (-fxMax) fxMax, 0)
  | .inf n => if n then (BitVec.ofNat 32 f32.nanCode, flagNV) else (0, 0)
  | .nan _ => (BitVec.ofNat 32 f32.nanCode, 0)

/-- 2^a. At 128 exactly, where Table 12.6 gives +∞ only above it, it is +∞ too (assumption 113). -/
def sfuEx2 (free : Word) (x : Fv) : Word × BitVec 5 :=
  match x with
  | .fin n m e =>
    let v := fxOf n m e
    if m ≠ 0 && 40 < floorLog2 m e then
      (if n then (allow free fxTiny (2 * fxUlp 1) (fxFine 0) (-fxMax) fxMax, flagUF ||| flagNX) else (BitVec.ofNat 32 f32.infCode, flagOF ||| flagNX))
    else if 128 * fxOne ≤ v then (BitVec.ofNat 32 f32.infCode, flagOF ||| flagNX)
    else
      let whole := m = 0 || (roundMag 1 n m (-e)).2 == false
      let i := v / fxOne
      if whole && decide (-149 ≤ i) then (BitVec.ofNat 32 (f32.round (ieee 0) false 1 i).1, 0)
      else
        let c := if v < -180 * fxOne then fxTiny else fxExp2 v
        let r := allow free c (2 * fxUlp c) (fxFine c) (-fxMax) fxMax
        (r, if r.getLsbD 31 || decide (r.toNat < 0x800000) then flagUF ||| flagNX else 0)
  | .inf n => (if n then 0 else BitVec.ofNat 32 f32.infCode, 0)
  | .nan _ => (BitVec.ofNat 32 f32.nanCode, 0)

/-- log2 a. -/
def sfuLg2 (free : Word) (x : Fv) : Word × BitVec 5 :=
  match x with
  | .fin n m e =>
    if m = 0 then (BitVec.ofNat 32 (f32.infCode + f32.signBit), flagDZ)
    else if n then (BitVec.ofNat 32 f32.nanCode, flagNV)
    else
      let ex := floorLog2 m e
      if m = 2 ^ Nat.log2 m then (BitVec.ofNat 32 (f32.round (ieee 0) (decide (ex < 0)) ex.natAbs 0).1, 0)
      else
        let frac := fxLogFrac 200 (fxOne / 2) ((m <<< (256 - Nat.log2 m) : Nat) : Int)
        let c := ex * fxOne + frac
        let b := if ex = 0 || ex = -1 then fxOne / 2 ^ 22 else 2 * fxUlp c
        (allow free c b (fxErr c) (-fxMax) fxMax, 0)
  | .inf n => if n then (BitVec.ofNat 32 f32.nanCode, flagNV) else (BitVec.ofNat 32 f32.infCode, 0)
  | .nan _ => (BitVec.ofNat 32 f32.nanCode, 0)

/-- sin a or cos a in radians. -/
def sfuTrig (cosine : Bool) (free : Word) (a : Word) (x : Fv) : Word × BitVec 5 :=
  match x with
  | .fin n m e =>
    if m = 0 then (if cosine then 0x3F800000#32 else a, 0)
    else if magLt 1 17 m e then (allow free 0 fxOne 0 (-fxOne) fxOne, 0)
    else
      let v := fxOf n m e
      (allow free (if cosine then fxCosOf v else fxSin v) (fxOne / 2 ^ 21) (fxFine fxOne) (-fxMax) fxMax, 0)
  | .inf _ => (BitVec.ofNat 32 f32.nanCode, flagNV)
  | .nan _ => (BitVec.ofNat 32 f32.nanCode, 0)

/-- f = a − RoundNE(a) of R263 as an exact value. -/
def turnFrac (n : Bool) (m : Nat) (e : Int) : Fv :=
  if 0 ≤ e then .fin false 0 0
  else
    let r := roundMag 0 n m (-e)
    if (-e) > Nat.log2 m + 2 then .fin n m e
    else match addFin 0 n m e (!n) r.1 0 with
      | .fin n' m' e' => .fin (if m' = 0 then false else n') m' e'
      | y => y

/-- sin 2πa and cos 2πa; the free functions take f (R263). -/
def sfuScs (freeSin freeCos : Word → Word) (a : Word) (x : Fv) : (Word × Word) × BitVec 5 :=
  match x with
  | .fin n m e =>
    match turnFrac n m e with
    | .fin fn fm fe =>
      let f4 := roundMag 1 fn fm (-(fe + 2))
      if fm = 0 || !f4.2 then
        let q : Int := if fn then -(f4.1 : Int) else f4.1
        let one : Word := 0x3F800000
        let mone : Word := 0xBF800000
        ((if m = 0 then a else if fm = 0 then 0 else if q = 1 then one else if q = -1 then mone else 0,
          if fm = 0 then one else if q = 2 || q = -2 then mone else 0), 0)
      else
        let fw := BitVec.ofNat 32 (f32.round (ieee 0) fn fm fe).1
        let v := fxMul (2 * fxPi) (fxOf fn fm fe)
        ((allow (freeSin fw) (fxSin v) (fxOne / 2 ^ 22) (fxFine fxOne) (-fxMax) fxMax,
          allow (freeCos fw) (fxCosOf v) (fxOne / 2 ^ 22) (fxFine fxOne) (-fxMax) fxMax), 0)
    | _ => ((0, 0), 0)
  | .inf _ => ((BitVec.ofNat 32 f32.nanCode, BitVec.ofNat 32 f32.nanCode), flagNV)
  | .nan _ => ((BitVec.ofNat 32 f32.nanCode, BitVec.ofNat 32 f32.nanCode), 0)

/-- tanh a. -/
def sfuTanh (free a : Word) (x : Fv) : Word × BitVec 5 :=
  match x with
  | .fin n m e =>
    if m = 0 then (a, 0)
    else
      let big := magLt 1 6 m e
      let v := fxOf n m e
      let c := if big then (if n then fxTiny - fxOne else fxOne - fxTiny)
               else let y := fxExp (2 * v); fxDiv (y - fxOne) (y + fxOne)
      (allow free c (fxOne / 2 ^ 22) (fxFine c) (-fxOne) fxOne, 0)
  | .inf n => (if n then 0xBF800000#32 else 0x3F800000#32, 0)
  | .nan _ => (BitVec.ofNat 32 f32.nanCode, 0)

/-- 1/(1 + e^−a). -/
def sfuSig (free : Word) (x : Fv) : Word × BitVec 5 :=
  match x with
  | .fin n m e =>
    if m = 0 then (0x3F000000#32, 0)
    else
      let big := magLt 1 7 m e
      let v := fxOf n m e
      let c := if big then (if n then fxTiny else fxOne - fxTiny) else fxDiv fxOne (fxOne + fxExp (-v))
      (allow free c (fxOne / 2 ^ 22) (fxFine c) 0 fxOne, 0)
  | .inf n => (if n then 0 else 0x3F800000#32, 0)
  | .nan _ => (BitVec.ofNat 32 f32.nanCode, 0)

/-- erf a. -/
def sfuErf (free a : Word) (x : Fv) : Word × BitVec 5 :=
  match x with
  | .fin n m e =>
    if m = 0 then (a, 0)
    else
      let big := magLt 6 0 m e
      let c := if big then (if n then fxTiny - fxOne else fxOne - fxTiny) else fxErf (fxOf n m e)
      (allow free c (fxOne / 2 ^ 22) (if big then fxFine c else fxErr c) (-fxOne) fxOne, 0)
  | .inf n => (if n then 0xBF800000#32 else 0x3F800000#32, 0)
  | .nan _ => (BitVec.ofNat 32 f32.nanCode, 0)

/-- Special function number `op` of class 0x8 on one operand: results (the second for `fscs`) and flags. A
signalling NaN raises NV. -/
def sfuValue (op : Nat) (a : Word) : (Word × Word) × BitVec 5 :=
  let x := f32.value a.toNat
  let free := Config.specialValue op a
  let one (r : Word × BitVec 5) : (Word × Word) × BitVec 5 := ((r.1, 0), r.2)
  let r := match op with
    | 0 => one (sfuRcp x)
    | 1 => one (sfuRsq free x)
    | 2 => one (sfuSqrt x)
    | 3 => one (sfuEx2 free x)
    | 4 => one (sfuLg2 free x)
    | 5 => one (sfuTrig false free a x)
    | 6 => one (sfuTrig true free a x)
    | 7 => sfuScs (Config.specialValue 7) Config.specialCos a x
    | 8 => one (sfuTanh free a x)
    | 9 => one (sfuSig free x)
    | _ => one (sfuErf free a x)
  (r.1, if x.isSig then flagNV else r.2)

end Sys2Proof.Machine
end

