-- ==== Sys2Proof/Machine/Special.lean ====
section
/-! DEFINITION. The special-function class (12 R262, R263): interlocked results written back by `SFU_WRITEBACK` (R200). -/

namespace Sys2Proof.Machine

/-- Issue special function `op` for the threads of Active: flags now, results when the unit writes them back. -/
def sfuOp (x : Ctx) (s : State) (b : VBody) (op : Nat) : Eff :=
  if x.act = 0 then .done s
  else
    let rs := x.threads.map fun t => (t, sfuValue op (x.op32 b.a t))
    let ws := rs.flatMap fun r => put32 b.d r.1 r.2.1.1 false :: if op = 7 then [put32 (b.d + 1) r.1 r.2.1.2 false] else []
    let f := s.fresh
    let p : Pending := ⟨x.core, x.slot, ws, none⟩
    .done (({ f.2 with pend := f.2.pend.put f.1 p } : State).orFlags x (rs.foldl (fun a r => a ||| r.2.2) 0))

def execFrcp (h : Hdr) (b : VBody) (s : State) : Host.Outcome State Fault Refusal :=
  issue (.frcp h b) s fun x s => sfuOp x s b 0
def execFrsq (h : Hdr) (b : VBody) (s : State) : Host.Outcome State Fault Refusal :=
  issue (.frsq h b) s fun x s => sfuOp x s b 1
def execFsqrt (h : Hdr) (b : VBody) (s : State) : Host.Outcome State Fault Refusal :=
  issue (.fsqrt h b) s fun x s => sfuOp x s b 2
def execFex2 (h : Hdr) (b : VBody) (s : State) : Host.Outcome State Fault Refusal :=
  issue (.fex2 h b) s fun x s => sfuOp x s b 3
def execFlg2 (h : Hdr) (b : VBody) (s : State) : Host.Outcome State Fault Refusal :=
  issue (.flg2 h b) s fun x s => sfuOp x s b 4
def execFsin (h : Hdr) (b : VBody) (s : State) : Host.Outcome State Fault Refusal :=
  issue (.fsin h b) s fun x s => sfuOp x s b 5
def execFcos (h : Hdr) (b : VBody) (s : State) : Host.Outcome State Fault Refusal :=
  issue (.fcos h b) s fun x s => sfuOp x s b 6
def execFscs (h : Hdr) (b : VBody) (s : State) : Host.Outcome State Fault Refusal :=
  issue (.fscs h b) s fun x s => sfuOp x s b 7
def execFtanh (h : Hdr) (b : VBody) (s : State) : Host.Outcome State Fault Refusal :=
  issue (.ftanh h b) s fun x s => sfuOp x s b 8
def execFsig (h : Hdr) (b : VBody) (s : State) : Host.Outcome State Fault Refusal :=
  issue (.fsig h b) s fun x s => sfuOp x s b 9
def execFerf (h : Hdr) (b : VBody) (s : State) : Host.Outcome State Fault Refusal :=
  issue (.ferf h b) s fun x s => sfuOp x s b 10

end Sys2Proof.Machine
end

