-- ==== Sys2Proof/Machine/System.lean ====
section
/-! DEFINITION. The system class (10 R225 to R227; 03 R62, R63, Table 3.3). -/

namespace Sys2Proof.Machine

/-- The value of a special register for a thread (Tables 2.1 and 3.3). -/
def specialReg (s : State) (x : Ctx) (sel t : Nat) : DWord :=
  let g := s.gridOfTeam x.team
  let num := ((s.team? x.team).map (·.num)).getD 0
  let lin := 64 * x.w.warpid + t
  let n (k : Nat) : DWord := BitVec.ofNat 64 k
  match sel with
  | 0x000 => n 64
  | 0x001 => n 16
  | 0x002 => n 4
  | 0x010 => n t
  | 0x011 => n x.w.warpid
  | 0x012 => n (lin % x.lr.tx)
  | 0x013 => n (lin / x.lr.tx % x.lr.ty)
  | 0x014 => n (lin / (x.lr.tx * x.lr.ty))
  | 0x018 => n (num % x.lr.gx)
  | 0x019 => n (num / x.lr.gx % x.lr.gy)
  | 0x01A => n (num / (x.lr.gx * x.lr.gy))
  | 0x020 => n ((g.map (·.depth)).getD 0)
  | 0x021 => (g.map (·.lrec)).getD 0
  | 0x022 => x.lr.params
  | 0x023 => (g.map (·.varsig)).getD 0
  | 0x024 => (((g.map fun (y : Grid) => y.varidx).getD 0 : Word)).setWidth 64
  | 0x030 => n (hiveOfCore x.core)
  | 0x031 => n x.core
  | 0x100 => x.w.fpflags.setWidth 64
  | 0x101 => (x.w.txstat.get 0 t).setWidth 64
  | 0x102 => if ((s.ctx? x.gctx).map (·.schk)).getD false then 1 else 0
  | 0x200 => x.w.trap.cause.setWidth 64
  | 0x201 => x.w.trap.pc
  | 0x202 => x.w.trap.opc.setWidth 64
  | 0x203 => x.w.trap.d.setWidth 64
  | 0x204 => x.w.trap.a.setWidth 64
  | 0x205 => x.w.trap.b.setWidth 64
  | 0x206 => x.w.trap.c.setWidth 64
  | 0x207 => x.w.trap.e.setWidth 64
  | 0x208 => x.w.trap.mod
  | 0x209 => x.w.trap.imm
  | 0x20A => x.w.trap.mask
  | 0x300 => s.vclock
  | 0x301 => x.w.workcnt
  | _ => 0

/-- `srd` (R225): a scalar takes all 64 bits once, a vector 32 of them per thread. -/
def execSrd (h : Hdr) (b : SBody) (s : State) : Host.Outcome State Fault Refusal :=
  issue (.srd h b) s fun x s =>
    if x.act = 0 then .done s
    else if 0xC0 ≤ b.d.toNat then
      let t := (lowestOf (if x.u then x.mask else x.act)).getD 0
      results x s [putS b.d (specialReg s x b.sel.toNat t)] 0
    else
      results x s ((threadsOf x.act).map fun t =>
        let v := specialReg s x b.sel.toNat t
        ⟨.v b.d.toNat t, (if b.mod.getLsbD 0 then v >>> 32 else v) &&& 0xFFFFFFFF⟩) 0

/-- `swr` (R226): only FPFLAGS is writable; a reserved bit traps. -/
def execSwr (h : Hdr) (b : SBody) (s : State) : Host.Outcome State Fault Refusal :=
  issue (.swr h b) s fun x s =>
    if x.act = 0 then .done s
    else
      let v := x.scal b.d
      if v >>> 5 != 0 then .trap (plain causeReserved x.mask)
      else .done (s.modWarp x.core x.slot fun w => { w with fpflags := v.setWidth 5 })

/-- `sysc` (R227): one request; s[D] stays interlocked until the reply. -/
def execSysc (h : Hdr) (b : SBody) (s : State) : Host.Outcome State Fault Refusal :=
  issue (.sysc h b) s fun x s =>
    if x.act = 0 then .done s
    else
      let f := s.fresh
      let vec := ((s.ctx? x.gctx).map (·.vector)).getD 0
      let s1 : State := { f.2 with pend := f.2.pend.put f.1 (⟨x.core, x.slot, [putS b.d 0], some (b.sel.toNat, x.scal b.d)⟩ : Pending) }
      .done (s1.signal x.vf vec)

/-- The system handler's reply is written to s[D] (R227). -/
def execSyscReply (id : Nat) (value : DWord) (s : State) : Host.Outcome State Fault Refusal :=
  match s.pend.find? id with
  | none => .next s
  | some p =>
    if p.sysc.isNone then .next s
    else .next (({ s with pend := s.pend.erase id } : State).writeBack p.core p.slot (p.writes.map fun r => { r with val := value }))

/-- A special function's result is written back (R200). -/
def execSfuWriteback (id : Nat) (s : State) : Host.Outcome State Fault Refusal :=
  match s.pend.find? id with
  | none => .next s
  | some p => if p.sysc.isSome then .next s else .next (({ s with pend := s.pend.erase id } : State).writeBack p.core p.slot p.writes)

end Sys2Proof.Machine
end

