-- ==== Sys2Proof/Machine/Dispatch.lean ====
section
/-! DEFINITION. The meaning of every instruction and event: one arm per constructor of `Instr`. -/

namespace Sys2Proof.Machine

def exec (i : Instr) (s : State) : Host.Outcome State Fault Refusal :=
  match i with
  | .nop h b => Sys2Proof.Machine.execNop h b s
  | .bra h b => Sys2Proof.Machine.execBra h b s
  | .brx h b => Sys2Proof.Machine.execBrx h b s
  | .call h b => Sys2Proof.Machine.execCall h b s
  | .callx h b => Sys2Proof.Machine.execCallx h b s
  | .ret h b => Sys2Proof.Machine.execRet h b s
  | .exit h b => Sys2Proof.Machine.execExit h b s
  | .join h b => Sys2Proof.Machine.execJoin h b s
  | .yield h b => Sys2Proof.Machine.execYield h b s
  | .trap h b => Sys2Proof.Machine.execTrap h b s
  | .tret h b => Sys2Proof.Machine.execTret h b s
  | .brk h b => Sys2Proof.Machine.execBrk h b s
  | .barArrive h b => Sys2Proof.Machine.execBarArrive h b s
  | .barWait h b => Sys2Proof.Machine.execBarWait h b s
  | .barSync h b => Sys2Proof.Machine.execBarSync h b s
  | .barQuery h b => Sys2Proof.Machine.execBarQuery h b s
  | .drain h b => Sys2Proof.Machine.execDrain h b s
  | .fence h b => Sys2Proof.Machine.execFence h b s
  | .owait h b => Sys2Proof.Machine.execOwait h b s
  | .cwait h b => Sys2Proof.Machine.execCwait h b s
  | .cyield h b => Sys2Proof.Machine.execCyield h b s
  | .glaunch h b => Sys2Proof.Machine.execGlaunch h b s
  | .gwait h b => Sys2Proof.Machine.execGwait h b s
  | .add h b => Sys2Proof.Machine.execAdd h b s
  | .sub h b => Sys2Proof.Machine.execSub h b s
  | .mul h b => Sys2Proof.Machine.execMul h b s
  | .mulh h b => Sys2Proof.Machine.execMulh h b s
  | .mad h b => Sys2Proof.Machine.execMad h b s
  | .min h b => Sys2Proof.Machine.execMin h b s
  | .max h b => Sys2Proof.Machine.execMax h b s
  | .abs h b => Sys2Proof.Machine.execAbs h b s
  | .neg h b => Sys2Proof.Machine.execNeg h b s
  | .and h b => Sys2Proof.Machine.execAnd h b s
  | .or h b => Sys2Proof.Machine.execOr h b s
  | .xor h b => Sys2Proof.Machine.execXor h b s
  | .not h b => Sys2Proof.Machine.execNot h b s
  | .andn h b => Sys2Proof.Machine.execAndn h b s
  | .shl h b => Sys2Proof.Machine.execShl h b s
  | .shr h b => Sys2Proof.Machine.execShr h b s
  | .sar h b => Sys2Proof.Machine.execSar h b s
  | .rot h b => Sys2Proof.Machine.execRot h b s
  | .sel h b => Sys2Proof.Machine.execSel h b s
  | .mov h b => Sys2Proof.Machine.execMov h b s
  | .cmp h b => Sys2Proof.Machine.execCmp h b s
  | .addi h b => Sys2Proof.Machine.execAddi h b s
  | .andi h b => Sys2Proof.Machine.execAndi h b s
  | .ori h b => Sys2Proof.Machine.execOri h b s
  | .movi h b => Sys2Proof.Machine.execMovi h b s
  | .cmpi h b => Sys2Proof.Machine.execCmpi h b s
  | .lea h b => Sys2Proof.Machine.execLea h b s
  | .add64 h b => Sys2Proof.Machine.execAdd64 h b s
  | .mad64 h b => Sys2Proof.Machine.execMad64 h b s
  | .popc h b => Sys2Proof.Machine.execPopc h b s
  | .clz h b => Sys2Proof.Machine.execClz h b s
  | .ctz h b => Sys2Proof.Machine.execCtz h b s
  | .brev h b => Sys2Proof.Machine.execBrev h b s
  | .bfe h b => Sys2Proof.Machine.execBfe h b s
  | .bfi h b => Sys2Proof.Machine.execBfi h b s
  | .prmt h b => Sys2Proof.Machine.execPrmt h b s
  | .shfn h b => Sys2Proof.Machine.execShfn h b s
  | .lop3 h b => Sys2Proof.Machine.execLop3 h b s
  | .shfl h b => Sys2Proof.Machine.execShfl h b s
  | .lred h b => Sys2Proof.Machine.execLred h b s
  | .lscan h b => Sys2Proof.Machine.execLscan h b s
  | .vote h b => Sys2Proof.Machine.execVote h b s
  | .ballot h b => Sys2Proof.Machine.execBallot h b s
  | .bcast h b => Sys2Proof.Machine.execBcast h b s
  | .matchLanes h b => Sys2Proof.Machine.execMatchLanes h b s
  | .prank h b => Sys2Proof.Machine.execPrank h b s
  | .plop h b => Sys2Proof.Machine.execPlop h b s
  | .pmask h b => Sys2Proof.Machine.execPmask h b s
  | .psetm h b => Sys2Proof.Machine.execPsetm h b s
  | .pact h b => Sys2Proof.Machine.execPact h b s
  | .fadd h b => Sys2Proof.Machine.execFadd h b s
  | .fsub h b => Sys2Proof.Machine.execFsub h b s
  | .fmul h b => Sys2Proof.Machine.execFmul h b s
  | .ffma h b => Sys2Proof.Machine.execFfma h b s
  | .fmin h b => Sys2Proof.Machine.execFmin h b s
  | .fmax h b => Sys2Proof.Machine.execFmax h b s
  | .fcmp h b => Sys2Proof.Machine.execFcmp h b s
  | .frnd h b => Sys2Proof.Machine.execFrnd h b s
  | .fclass h b => Sys2Proof.Machine.execFclass h b s
  | .fscale h b => Sys2Proof.Machine.execFscale h b s
  | .fexpt h b => Sys2Proof.Machine.execFexpt h b s
  | .fdot2 h b => Sys2Proof.Machine.execFdot2 h b s
  | .hadd2 h b => Sys2Proof.Machine.execHadd2 h b s
  | .hsub2 h b => Sys2Proof.Machine.execHsub2 h b s
  | .hmul2 h b => Sys2Proof.Machine.execHmul2 h b s
  | .hfma2 h b => Sys2Proof.Machine.execHfma2 h b s
  | .hmin2 h b => Sys2Proof.Machine.execHmin2 h b s
  | .hmax2 h b => Sys2Proof.Machine.execHmax2 h b s
  | .hcmp2 h b => Sys2Proof.Machine.execHcmp2 h b s
  | .e8dot4 h b => Sys2Proof.Machine.execE8dot4 h b s
  | .frcp h b => Sys2Proof.Machine.execFrcp h b s
  | .frsq h b => Sys2Proof.Machine.execFrsq h b s
  | .fsqrt h b => Sys2Proof.Machine.execFsqrt h b s
  | .fex2 h b => Sys2Proof.Machine.execFex2 h b s
  | .flg2 h b => Sys2Proof.Machine.execFlg2 h b s
  | .fsin h b => Sys2Proof.Machine.execFsin h b s
  | .fcos h b => Sys2Proof.Machine.execFcos h b s
  | .fscs h b => Sys2Proof.Machine.execFscs h b s
  | .ftanh h b => Sys2Proof.Machine.execFtanh h b s
  | .fsig h b => Sys2Proof.Machine.execFsig h b s
  | .ferf h b => Sys2Proof.Machine.execFerf h b s
  | .cvt h b => Sys2Proof.Machine.execCvt h b s
  | .cvtq h b => Sys2Proof.Machine.execCvtq h b s
  | .cvtdq h b => Sys2Proof.Machine.execCvtdq h b s
  | .cvsc h b => Sys2Proof.Machine.execCvsc h b s
  | .pack h b => Sys2Proof.Machine.execPack h b s
  | .unpack h b => Sys2Proof.Machine.execUnpack h b s
  | .ld h b => Sys2Proof.Machine.execLd h b s
  | .st h b => Sys2Proof.Machine.execSt h b s
  | .ldp h b => Sys2Proof.Machine.execLdp h b s
  | .stp h b => Sys2Proof.Machine.execStp h b s
  | .ldc h b => Sys2Proof.Machine.execLdc h b s
  | .lds h b => Sys2Proof.Machine.execLds h b s
  | .sts h b => Sys2Proof.Machine.execSts h b s
  | .ldl h b => Sys2Proof.Machine.execLdl h b s
  | .stl h b => Sys2Proof.Machine.execStl h b s
  | .pf h b => Sys2Proof.Machine.execPf h b s
  | .wbr h b => Sys2Proof.Machine.execWbr h b s
  | .invr h b => Sys2Proof.Machine.execInvr h b s
  | .atom h b => Sys2Proof.Machine.execAtom h b s
  | .ared h b => Sys2Proof.Machine.execAred h b s
  | .cas16 h b => Sys2Proof.Machine.execCas16 h b s
  | .txbeg h b => Sys2Proof.Machine.execTxbeg h b s
  | .txend h b => Sys2Proof.Machine.execTxend h b s
  | .txabt h b => Sys2Proof.Machine.execTxabt h b s
  | .bcopy h b => Sys2Proof.Machine.execBcopy h b s
  | .bloop h b => Sys2Proof.Machine.execBloop h b s
  | .brel h b => Sys2Proof.Machine.execBrel h b s
  | .bmcast h b => Sys2Proof.Machine.execBmcast h b s
  | .kcoll h b => Sys2Proof.Machine.execKcoll h b s
  | .mseal h b => Sys2Proof.Machine.execMseal h b s
  | .munseal h b => Sys2Proof.Machine.execMunseal h b s
  | .mmac h b => Sys2Proof.Machine.execMmac h b s
  | .mstart h b => Sys2Proof.Machine.execMstart h b s
  | .mzero h b => Sys2Proof.Machine.execMzero h b s
  | .mget h b => Sys2Proof.Machine.execMget h b s
  | .mput h b => Sys2Proof.Machine.execMput h b s
  | .mbwait h b => Sys2Proof.Machine.execMbwait h b s
  | .mbarr h b => Sys2Proof.Machine.execMbarr h b s
  | .mbra h b => Sys2Proof.Machine.execMbra h b s
  | .mloop h b => Sys2Proof.Machine.execMloop h b s
  | .mset h b => Sys2Proof.Machine.execMset h b s
  | .mpoint h b => Sys2Proof.Machine.execMpoint h b s
  | .mend h b => Sys2Proof.Machine.execMend h b s
  | .mfence h b => Sys2Proof.Machine.execMfence h b s
  | .gred h b => Sys2Proof.Machine.execGred h b s
  | .nred h b => Sys2Proof.Machine.execNred h b s
  | .nlaunch h b => Sys2Proof.Machine.execNlaunch h b s
  | .nstat h b => Sys2Proof.Machine.execNstat h b s
  | .nkill h b => Sys2Proof.Machine.execNkill h b s
  | .srd h b => Sys2Proof.Machine.execSrd h b s
  | .swr h b => Sys2Proof.Machine.execSwr h b s
  | .sysc h b => Sys2Proof.Machine.execSysc h b s
  | .aopen a b => Sys2Proof.Machine.execAopen a b s
  | .acol a b imm => Sys2Proof.Machine.execAcol a b imm s
  | .awr => Sys2Proof.Machine.execAwr s
  | .anext => Sys2Proof.Machine.execAnext s
  | .aset d a imm => Sys2Proof.Machine.execAset d a imm s
  | .aadd d a b imm => Sys2Proof.Machine.execAadd d a b imm s
  | .aloop d imm => Sys2Proof.Machine.execAloop d imm s
  | .abr d a b imm => Sys2Proof.Machine.execAbr d a b imm s
  | .awq d => Sys2Proof.Machine.execAwq d s
  | .aend => Sys2Proof.Machine.execAend s
  | .xpop d => Sys2Proof.Machine.execXpop d s
  | .xpush a b => Sys2Proof.Machine.execXpush a b s
  | .xadd d a b => Sys2Proof.Machine.execXadd d a b s
  | .xmul d a b => Sys2Proof.Machine.execXmul d a b s
  | .xfma d a b => Sys2Proof.Machine.execXfma d a b s
  | .xmax d a b => Sys2Proof.Machine.execXmax d a b s
  | .xscale d a b => Sys2Proof.Machine.execXscale d a b s
  | .xcvt d a imm => Sys2Proof.Machine.execXcvt d a imm s
  | .xset d a imm => Sys2Proof.Machine.execXset d a imm s
  | .xsetAdd d a imm => Sys2Proof.Machine.execXsetAdd d a imm s
  | .xsetB d a => Sys2Proof.Machine.execXsetB d a s
  | .xloop d imm => Sys2Proof.Machine.execXloop d imm s
  | .xbr d a b imm => Sys2Proof.Machine.execXbr d a b imm s
  | .xend => Sys2Proof.Machine.execXend s
  | .pcreate fn => Sys2Proof.Machine.execPcreate fn s
  | .presize fn => Sys2Proof.Machine.execPresize fn s
  | .pdestroy fn => Sys2Proof.Machine.execPdestroy fn s
  | .logset fn => Sys2Proof.Machine.execLogset fn s
  | .setrate fn => Sys2Proof.Machine.execSetrate fn s
  | .setframe fn => Sys2Proof.Machine.execSetframe fn s
  | .elide fn => Sys2Proof.Machine.execElide fn s
  | .fuseRaiseSvn fn => Sys2Proof.Machine.execFuseRaiseSvn fn s
  | .fuseSetTestmode fn => Sys2Proof.Machine.execFuseSetTestmode fn s
  | .fuseRetireResource fn => Sys2Proof.Machine.execFuseRetireResource fn s
  | .ctxcreate fn => Sys2Proof.Machine.execCtxcreate fn s
  | .ctxreset fn => Sys2Proof.Machine.execCtxreset fn s
  | .qcreate fn => Sys2Proof.Machine.execQcreate fn s
  | .preempt fn => Sys2Proof.Machine.execPreempt fn s
  | .resume fn => Sys2Proof.Machine.execResume fn s
  | .reply fn => Sys2Proof.Machine.execReply fn s
  | .tlbinv fn => Sys2Proof.Machine.execTlbinv fn s
  | .icinv fn => Sys2Proof.Machine.execIcinv fn s
  | .flip fn => Sys2Proof.Machine.execFlip fn s
  | .claim fn => Sys2Proof.Machine.execClaim fn s
  | .unclaim fn => Sys2Proof.Machine.execUnclaim fn s
  | .keyload fn => Sys2Proof.Machine.execKeyload fn s
  | .attest fn => Sys2Proof.Machine.execAttest fn s
  | .boot fn => Sys2Proof.Machine.execBoot fn s
  | .launchDoorbell vf queue tail => Sys2Proof.Machine.execLaunchDoorbell vf queue tail s
  | .dumpNow fn unit => Sys2Proof.Machine.execDumpNow fn unit s
  | .countStopArm fn unit => Sys2Proof.Machine.execCountStopArm fn unit s
  | .traceRcountWrite fn unit value => Sys2Proof.Machine.execTraceRcountWrite fn unit value s
  | .registerWrite fn reg value => Sys2Proof.Machine.execRegisterWrite fn reg value s
  | .deviceReset => Sys2Proof.Machine.execDeviceReset s
  | .supplyRemoved => Sys2Proof.Machine.execSupplyRemoved s
  | .hotReset => Sys2Proof.Machine.execHotReset s
  | .functionLevelReset vf => Sys2Proof.Machine.execFunctionLevelReset vf s
  | .linkTraining link width rate => Sys2Proof.Machine.execLinkTraining link width rate s
  | .hostCxlMemAccess access => Sys2Proof.Machine.execHostCxlMemAccess access s
  | .backInvalidateReissue line => Sys2Proof.Machine.execBackInvalidateReissue line s
  | .throttle island mhz => Sys2Proof.Machine.execThrottle island mhz s
  | .vclockTick => Sys2Proof.Machine.execVclockTick s
  | .mgmtHeartbeat => Sys2Proof.Machine.execMgmtHeartbeat s
  | .takeover => Sys2Proof.Machine.execTakeover s
  | .patrolScrub row => Sys2Proof.Machine.execPatrolScrub row s
  | .zeroFill row => Sys2Proof.Machine.execZeroFill row s
  | .launchAccept vf => Sys2Proof.Machine.execLaunchAccept vf s
  | .dependencyReread grid => Sys2Proof.Machine.execDependencyReread grid s
  | .priorityPromotion grid => Sys2Proof.Machine.execPriorityPromotion grid s
  | .packageRangeHandout vf => Sys2Proof.Machine.execPackageRangeHandout vf s
  | .dieRangeHandout die vf => Sys2Proof.Machine.execDieRangeHandout die vf s
  | .hiveSteal hive vf => Sys2Proof.Machine.execHiveSteal hive vf s
  | .dieSteal die vf => Sys2Proof.Machine.execDieSteal die vf s
  | .teamPlace hive => Sys2Proof.Machine.execTeamPlace hive s
  | .fitWaitExpiry hive => Sys2Proof.Machine.execFitWaitExpiry hive s
  | .teamRetire core team => Sys2Proof.Machine.execTeamRetire core team s
  | .gridRetire grid => Sys2Proof.Machine.execGridRetire grid s
  | .instructionFetch who => Sys2Proof.Machine.execInstructionFetch who s
  | .fetchParityRefetch who => Sys2Proof.Machine.execFetchParityRefetch who s
  | .yieldExpiry core slot entry => Sys2Proof.Machine.execYieldExpiry core slot entry s
  | .sample core sched => Sys2Proof.Machine.execSample core sched s
  | .storeSend id => Sys2Proof.Machine.execStoreSend id s
  | .homeStore id copy => Sys2Proof.Machine.execHomeStore id copy s
  | .storeAck id => Sys2Proof.Machine.execStoreAck id s
  | .loadReply id evict => Sys2Proof.Machine.execLoadReply id evict s
  | .sfuWriteback id => Sys2Proof.Machine.execSfuWriteback id s
  | .tlbWalk core ctx va => Sys2Proof.Machine.execTlbWalk core ctx va s
  | .dramActivate stack ch slice bank => Sys2Proof.Machine.execDramActivate stack ch slice bank s
  | .dramPrecharge stack ch slice bank => Sys2Proof.Machine.execDramPrecharge stack ch slice bank s
  | .burst stack ch retry => Sys2Proof.Machine.execBurst stack ch retry s
  | .l2Writeback frame => Sys2Proof.Machine.execL2Writeback frame s
  | .syncEvict word => Sys2Proof.Machine.execSyncEvict word s
  | .atomicExecute id => Sys2Proof.Machine.execAtomicExecute id s
  | .atomicReply id => Sys2Proof.Machine.execAtomicReply id s
  | .txValidate core slot thread => Sys2Proof.Machine.execTxValidate core slot thread s
  | .soloGrant vf => Sys2Proof.Machine.execSoloGrant vf s
  | .soloTimeout vf => Sys2Proof.Machine.execSoloTimeout vf s
  | .cwaitReread core slot entry => Sys2Proof.Machine.execCwaitReread core slot entry s
  | .syscReply id value => Sys2Proof.Machine.execSyscReply id value s
  | .barrierTimeout core team bar => Sys2Proof.Machine.execBarrierTimeout core team bar s
  | .copyAccept hive ch => Sys2Proof.Machine.execCopyAccept hive ch s
  | .copyPart hive ch => Sys2Proof.Machine.execCopyPart hive ch s
  | .copyComplete hive ch => Sys2Proof.Machine.execCopyComplete hive ch s
  | .bloopIteration hive ch => Sys2Proof.Machine.execBloopIteration hive ch s
  | .mcastDelivery hive ch index => Sys2Proof.Machine.execMcastDelivery hive ch index s
  | .kcollSequence die => Sys2Proof.Machine.execKcollSequence die s
  | .gredReply id => Sys2Proof.Machine.execGredReply id s
  | .nredAccept stack => Sys2Proof.Machine.execNredAccept stack s
  | .nredBag stack => Sys2Proof.Machine.execNredBag stack s
  | .nredComplete stack => Sys2Proof.Machine.execNredComplete stack s
  | .stoveLaunch stack => Sys2Proof.Machine.execStoveLaunch stack s
  | .stoveEnd stack ch => Sys2Proof.Machine.execStoveEnd stack ch s
  | .nstatService stack => Sys2Proof.Machine.execNstatService stack s
  | .nkillService stack => Sys2Proof.Machine.execNkillService stack s
  | .frameStart stack => Sys2Proof.Machine.execFrameStart stack s
  | .ordinaryIntervalStart stack => Sys2Proof.Machine.execOrdinaryIntervalStart stack s
  | .stoveDeadline stack ch => Sys2Proof.Machine.execStoveDeadline stack ch s
  | .sealComplete hive region => Sys2Proof.Machine.execSealComplete hive region s
  | .slabReadDone id => Sys2Proof.Machine.execSlabReadDone id s
  | .passGrant hive cell => Sys2Proof.Machine.execPassGrant hive cell s
  | .passComplete id => Sys2Proof.Machine.execPassComplete id s
  | .mgetWriteback id => Sys2Proof.Machine.execMgetWriteback id s
  | .mputDone id => Sys2Proof.Machine.execMputDone id s
  | .mzeroDone id => Sys2Proof.Machine.execMzeroDone id s
  | .accForeignSpill core tile => Sys2Proof.Machine.execAccForeignSpill core tile s
  | .contextSave ctx => Sys2Proof.Machine.execContextSave ctx s
  | .teamRestore ctx index => Sys2Proof.Machine.execTeamRestore ctx index s
  | .quantumBoundary vf => Sys2Proof.Machine.execQuantumBoundary vf s
  | .countStop unit => Sys2Proof.Machine.execCountStop unit s
  | .i3cTemperatureReport => Sys2Proof.Machine.execI3cTemperatureReport s
  | .retiredByFault kind index => Sys2Proof.Machine.execRetiredByFault kind index s
  | .teamNotScreened core team => Sys2Proof.Machine.execTeamNotScreened core team s

end Sys2Proof.Machine
end

