-- ==== Sys2Proof/Machine/Fetch.lean ====
section
/-! DEFINITION. Turns: what an issue opportunity of a scheduler, a sequencer, a stove thread or a replay boundary fetches and
runs (02 R36; 09 R180 to R184, R195 steps 0 to 3; 14 R290; 15 R335, R336; 20 R414), and which turn comes next. -/

namespace Sys2Proof.Machine

/-! ## A fragment's fetched instruction -/

/-- What the fetch of a slot comes to. -/
inductive Fetched where
  /-- the core does not hold the line -/
  | miss
  /-- the line's address is not one that the context may fetch from (R436) -/
  | denied (cause : Nat)
  /-- the slot fails its parity -/
  | parity
  /-- a trap of steps 2 and 3 of R195, with the word -/
  | bad (cause : Nat) (word : BitVec 96)
  | instr (word : BitVec 96) (i : Instr)

/-- The slot of a line, checked by steps 1 to 3 of R195; a line that a sequencer runs has PAIR 0 (R185). -/
def slotOfLine (l : BitVec 512) (slot : Nat) (seq : Bool) : Fetched :=
  let word := slotWord l slot
  let lw := (lineWord l).toNat
  if !slotParityOk l slot then .parity
  else if bitsOf lw 26 24 = 7 || (seq && bitsOf lw 26 24 != 0) || bitsOf lw 18 0 ≠ 0 then .bad causeReserved word
  else match decodeStream word with
    | some i => .instr word i
    | none => .bad causeIllegal word

/-- The slot at a PC in the line that the core holds; every fetch translates the line's address (R436). -/
def State.fetched (s : State) (core ctx : Nat) (pc : DWord) (seq : Bool) : Fetched × State :=
  match s.cachedLine core ctx pc with
  | none => (.miss, s)
  | some l => match s.resolve core ctx (lineOf pc) .fetch with
    | (.error c, s) => (.denied c, s)
    | (.ok _, s) => (slotOfLine l (slotOf pc) seq, s)

/-! ## Targets -/

/-- PCs whose BT bits an instruction of a fragment reads (R181). -/
def Ctx.targets (x : Ctx) (i : Instr) : List DWord :=
  let by_ (f : Nat → DWord) : List DWord := ((threadsOf x.act).map f).filter (· ≠ x.next)
  match i with
  | .bra _ b => by_ fun _ => jTarget x.pc b
  | .call _ b => by_ fun _ => jTarget x.pc b
  | .brx _ b => by_ (x.xTarget b.a b.b)
  | .callx _ b => by_ (x.xTarget b.a b.b)
  | .ret _ b => by_ (x.op64 b.a)
  | .txbeg _ b => if x.act = 0 then [] else [jTarget x.pc b]
  | .cyield _ b => if x.act = 0 || x.e.wait = .cyield then [] else [cyieldTarget x.pc b.mod]
  | _ => []

/-- Those of a sequencer's. -/
def Sequencer.targets (pc : DWord) (i : Instr) : List DWord :=
  match i with
  | .mbra _ b => [jTarget pc b]
  | .mloop _ b => [jTarget pc b]
  | _ => []

/-- The lines of some PCs that a core does not hold. -/
def State.farLines (s : State) (core ctx : Nat) (l : List DWord) : List DWord :=
  ((l.filter fun p => pcShapeOk p && (s.cachedLine core ctx p).isNone).map lineOf).dedup

/-- Read the target lines that a core does not hold; none while one has to wait (R82, R367), or a bucket does not let it pass (R399). -/
def State.readTargets (s : State) (core ctx vf : Nat) (l : List DWord) : Option State :=
  if (s.farLines core ctx l).any fun a => s.lineWaits core ctx a then none
  else (s.farLines core ctx l).foldlM (fun s a => match s.through vf 0 (s.fetchCost core ctx vf a) with
    | .error _ => none
    | .ok s => some (match s.resolve core ctx a .fetch with
      | (.ok x, s) => if x.host then s else s.touchRun vf x.pa 64
      | (.error _, s) => s)) s

/-- The partition that a core's hive belongs to, if any. -/
def State.partOfCore (s : State) (core : Nat) : Option Nat :=
  (List.find? (fun (p : Nat × Partition) => p.2.hives.contains (hiveOfCore core)) s.parts).map (·.1)

/-- An issue opportunity without an issue (event 0x09 of Table 6.4). -/
def State.noIssue (s : State) (core : Nat) : State :=
  match s.partOfCore core with
  | some vf => s.countPerf vf 9
  | none => s

/-- The fragment's instruction is left to the quantum's boundary (R414). -/
def State.leaveToBoundary (s : State) (core slot entry : Nat) : State :=
  s.modWarp core slot fun w => { w with quantumDone := true, ending := some entry }

/-- Run the fetched instruction of a fragment, or take what its fetch came to; `hold`: an ending instruction of a replay
quantum waits for the boundary. -/
def State.runFragment (s : State) (core slot entry upset : Nat) (w : Warp) (hold : Bool) : Host.Outcome State Fault Refusal :=
  let e := w.entry entry
  let ctx := s.ctxIdOfTeam w.team
  match s.fetched core ctx e.pc false with
  | (.miss, s) => exec (.instructionFetch (.frag core slot entry)) (s.noIssue core)
  | (.denied c, s) => .next (s.takeTrap core slot entry e.pc 0 true false ⟨c, e.mask, lineOf e.pc, none⟩)
  | (.parity, s) => exec (.fetchParityRefetch (.frag core slot entry)) (s.noIssue core)
  | (.bad c word, s) => .next (s.takeTrap core slot entry e.pc word false false (plain c e.mask))
  | (.instr word i, s) =>
    if hold && endsQuantum i then .next (s.leaveToBoundary core slot entry)
    else
      let role : PairRole := match e.paired with
        | some n => .second n
        | none => if s.issuesPair core ctx e then .first 0 else .alone
      let t : State := { s with cur := .frag core slot entry e.pc word role upset }
      match s.readTargets core ctx (s.vfOfTeam w.team) (((t.issuer i).map fun x => x.targets i).getD []) with
      | none => .next (s.noIssue core)
      | some s => exec i { s with cur := .frag core slot entry e.pc word role upset }

/-- A start PC is checked at the first fetch, once its line is there (R47, R181). -/
def State.startCheck (s : State) (core ctx vf : Nat) (pc : DWord) (start : Bool) : Option Nat :=
  if start && (!pcShapeOk pc || (s.cachedLine core ctx pc).isSome) then s.targetCause core ctx vf pc else none

/-- The issue of the selected fragment. -/
def State.issueSelected (s : State) (core slot entry upset : Nat) (w : Warp) : Host.Outcome State Fault Refusal :=
  let e := w.entry entry
  let started (s : State) : State := if e.start then s.modWarp core slot fun w => w.modEntry entry fun e => { e with start := false } else s
  match s.startCheck core (s.ctxIdOfTeam w.team) (s.vfOfTeam w.team) e.pc e.start with
  | some c =>
    if c = causeBadTarget then .next ((started s).takeTrap core slot entry e.pc 0 true false (plain c e.mask))
    else .next (s.takeTrap core slot entry e.pc 0 true false ⟨c, e.mask, lineOf e.pc, none⟩)
  | none =>
    let s := if (s.cachedLine core (s.ctxIdOfTeam w.team) e.pc).isSome then started s else s
    s.runFragment core slot entry upset w (s.replays (s.vfOfTeam w.team))

/-- An issue opportunity of a scheduler (R36, R363). The fragment that issues is remembered for a sample at this clock. -/
def State.issueTurn (s : State) (core sched upset : Nat) (notReady : List Nat) : Host.Outcome State Fault Refusal :=
  match s.select core sched notReady with
  | none => .next (s.noIssue core)
  | some f =>
    let s := s.ageOthers core sched (s.eligible core sched notReady) f
    let s := if (s.samplingOf core).isSome then s.modCore core fun c => { c with lastIssue := c.lastIssue.put sched f } else s
    match s.warp? core f.1 with
    | none => .next s
    | some w => s.issueSelected core f.1 f.2 upset w

/-- A pair whose second instruction is left behind: the entry went elsewhere after the first (R184). -/
def State.unpair (s : State) (core slot entry : Nat) : State :=
  s.modWarp core slot fun w => w.modEntry entry fun e => { e with nclk := e.clockDue, paired := none }

/-- The second instruction of a pair; a slot that fails its parity is refetched first (R182). One that is held back issues at a later
opportunity (R200). -/
def State.secondTurn (s : State) (core slot entry upset : Nat) : Host.Outcome State Fault Refusal :=
  match s.warp? core slot with
  | none => .next s
  | some w =>
    let e := w.entry entry
    if e.paired.isNone then .next s
    else if e.st != .run || e.mask == 0 || !e.seqd || e.wait != .none then .next (s.unpair core slot entry)
    else
      let s := match s.fetched core (s.ctxIdOfTeam w.team) e.pc false with
        | (.parity, s) => nextOr s (exec (.fetchParityRefetch (.frag core slot entry)) s)
        | _ => s
      match s.warp? core slot with
      | none => .next s
      | some w =>
        let e := w.entry entry
        if e.paired.isNone || e.wait != .none || s.heldBack core slot w e (s.nextIssue core (s.ctxIdOfTeam w.team) e) then .next s
        else s.runFragment core slot entry upset w (s.replays (s.vfOfTeam w.team))

/-! ## Sequencers -/

/-- Run the fetched instruction of a sequencer. -/
def State.runSequencer (s : State) (core team : Nat) (q : Sequencer) (hold : Bool) : Host.Outcome State Fault Refusal :=
  let ix := teamIx core team
  match s.fetched core (s.ctxIdOfTeam ix) q.pc true with
  | (.miss, s) => exec (.instructionFetch (.seq core team)) s
  | (.denied c, s) => .next (s.seqTrap core team q.pc ⟨c, 0, lineOf q.pc, none⟩)
  | (.parity, s) => exec (.fetchParityRefetch (.seq core team)) s
  | (.bad c _, s) => .next (s.seqTrap core team q.pc (plain c 0))
  | (.instr word i, s) =>
    if hold && endsQuantum i then .next (s.modSeq ix fun q => { q with quantumDone := true })
    else match s.readTargets core (s.ctxIdOfTeam ix) (s.vfOfTeam ix) (Sequencer.targets q.pc i) with
      | none => .next s
      | some s => exec i { s with cur := .seq core team q.pc word }

/-- An issue opportunity of a team's matrix sequencer (R290). -/
def State.sequencerTurn (s : State) (core team : Nat) : Host.Outcome State Fault Refusal :=
  let ix := teamIx core team
  match (s.team? ix).bind (·.seq) with
  | none => .next s
  | some q =>
    let ctx := s.ctxIdOfTeam ix
    let vf := s.vfOfTeam ix
    let spent := s.replays vf && (q.quantumDone || decide (4096 ≤ q.quantum))
    if q.ended || !s.ctxLive ctx || s.teamStarting ix || spent then .next s
    else match s.startCheck core ctx vf q.pc q.start with
      | some c => .next (s.seqTrap core team q.pc ⟨c, 0, if c = causeBadTarget then 0 else lineOf q.pc, none⟩)
      | none =>
        let s := if q.start && (s.cachedLine core ctx q.pc).isSome then s.modSeq ix fun q => { q with start := false } else s
        s.runSequencer core team q (s.replays vf)

/-! ## Stoves -/

/-- An issue opportunity of a stove's thread, which pre-emption of its context does not stop (R341). -/
def State.stoveTurn (s : State) (stack ch : Nat) (arith : Bool) : Host.Outcome State Fault Refusal :=
  let k := stack * 32 + ch
  let x := s.stove k
  if !x.ready arith then .next s
  else match (x.code arith)[x.pc arith]? with
    | none => .next (s.stoveFault k (x.pc arith) causeBadTarget none)
    | some w => match decodeStove w with
      | .error .illegal => .next (s.stoveFault k (x.pc arith) causeIllegal none)
      | .error .reserved => .next (s.stoveFault k (x.pc arith) causeReserved none)
      | .ok i => exec i { s with cur := .stove stack ch arith }

/-! ## Replay boundaries (R414) -/

/-- Perform the ending instruction of an entry, or try a wait that an earlier boundary began; then complete what it sent
to its homes. -/
def State.boundaryIssue (s : State) (core slot entry : Nat) : State :=
  match s.warp? core slot with
  | none => s
  | some w =>
    let vf := s.vfOfTeam w.team
    let s := if (w.entry entry).wait == .solo then s.grantSolo vf else s
    match s.warp? core slot with
    | none => s
    | some w =>
      let e := w.entry entry
      let again := match e.wait with
        | .cwait => true
        | .cyield => true
        | _ => s.waitOver core slot entry w e
      if !s.ctxLive (s.ctxIdOfTeam w.team) || e.st != .run || e.mask == 0 || !again then s
      else (nextOr s (s.runFragment core slot entry 0 w false)).settleOps core slot

/-- The turn of a warp at a boundary: an instruction that its homes have let end goes on at once. -/
def State.boundaryTurn (s : State) (core slot entry : Nat) : State :=
  let s := s.boundaryIssue core slot entry
  match ((s.warp? core slot).map fun w => (w.entry entry).wait).getD Wait.none with
  | .txend => s.boundaryIssue core slot entry
  | .fence => s.boundaryIssue core slot entry
  | _ => s

/-- The turn of a sequencer at a boundary. -/
def State.boundarySeqTurn (s : State) (core team : Nat) : State :=
  let ix := teamIx core team
  match (s.team? ix).bind (·.seq) with
  | none => s
  | some q =>
    if q.ended || !q.quantumDone || !s.ctxLive (s.ctxIdOfTeam ix) then s else nextOr s (s.runSequencer core team q false)

/-! ## Turns -/

/-- The rows of the opcode table that no agent issues. -/
def isEvent (i : Instr) : Bool :=
  match encode i with
  | some _ => false
  | none => true

/-- Carry out a turn. Without supply only a reset acts; an instruction is no event, and acts only when its agent issues it. -/
def State.act (s : State) (t : Turn) : Host.Outcome State Fault Refusal :=
  match t with
  | .event i => if isEvent i && (s.powered || i == .deviceReset) then exec i s else .next s
  | .issue core sched upset notReady => if s.powered then s.issueTurn core sched upset notReady else .next s
  | .second core slot entry upset => if s.powered then s.secondTurn core slot entry upset else .next s
  | .sequencer core team => if s.powered then s.sequencerTurn core team else .next s
  | .stove stack ch arith => if s.powered then s.stoveTurn stack ch arith else .next s
  | .boundary core slot entry => .next (if s.powered then s.boundaryTurn core slot entry else s)
  | .boundarySeq core team => .next (if s.powered then s.boundarySeqTurn core team else s)
  | .boundaryEnd vf => .next (if s.powered then s.endBoundary vf else s)
  | .acceptCopy hive ch => if s.powered then execCopyAccept hive ch s else .next s
  | .upset u => .next (if s.powered then s.upset u else s)
  | .hostProtect page deny => .next (s.hostProtect page deny)
  | .setIsland island mhz mv => .next (if s.powered then s.governIsland island mhz mv else s)

/-! ## The order of engines in replay (R352, R414) -/

/-- The place of a grid among those of its partition, oldest first. -/
def State.gridPlace (s : State) (grid : Nat) : Nat :=
  match s.grid? grid with
  | none => 0
  | some g => (s.grids.filter fun y => y.2.vf == g.vf && decide (y.1 < grid)).length

/-- A turn in which a distributor or an engine of a partition acts, or may: the partition, and the kind and place of the turn. -/
def State.engineTurn (s : State) (t : Turn) : Option (Nat × Nat × Nat) :=
  let atCore (core kind place : Nat) : Option (Nat × Nat × Nat) := (s.partOfCore core).map fun vf => (vf, kind, place)
  let atHive (hive kind place : Nat) : Option (Nat × Nat × Nat) := atCore (4 * hive) kind place
  let atStove (stack ch kind place : Nat) : Option (Nat × Nat × Nat) := some ((s.stove (stack * 32 + ch)).vf, kind, place)
  let atQueue (stack kind : Nat) : Option (Nat × Nat × Nat) := (s.nearQueue stack).head?.map fun q => (q.vf, kind, stack)
  let atNred (stack kind : Nat) : Option (Nat × Nat × Nat) := (s.hearth stack).nred.map fun n => (n.cmd.vf, kind, stack)
  let atGrid (grid kind : Nat) : Option (Nat × Nat × Nat) := (s.grid? grid).map fun g => (g.vf, kind, s.gridPlace grid)
  match t with
  | .stove stack ch arith => atStove stack ch 1 (stack * 64 + ch * 2 + if arith then 1 else 0)
  | .event i => match i with
    | .copyPart hive ch => atHive hive 2 (hive * 16 + ch)
    | .copyComplete hive ch => atHive hive 3 (hive * 16 + ch)
    | .bloopIteration hive ch => atHive hive 4 (hive * 16 + ch)
    | .mcastDelivery hive ch index => atHive hive 5 ((hive * 16 + ch) * 16 + index)
    | .kcollSequence die => (s.collQueued die).head?.map fun c => (c.vf, 6, die)
    | .nredAccept stack => atQueue stack 7
    | .nredBag stack => atNred stack 8
    | .nredComplete stack => atNred stack 9
    | .stoveLaunch stack => atQueue stack 10
    | .nstatService stack => atQueue stack 11
    | .nkillService stack => atQueue stack 12
    | .stoveEnd stack ch => atStove stack ch 13 (stack * 32 + ch)
    | .launchAccept vf => some (vf, 14, 0)
    | .dependencyReread grid => atGrid grid 15
    | .priorityPromotion grid => atGrid grid 16
    | .gridRetire grid => atGrid grid 17
    | .packageRangeHandout vf => some (vf, 18, 0)
    | .dieRangeHandout die vf => some (vf, 19, die)
    | .hiveSteal hive vf => some (vf, 20, hive)
    | .dieSteal die vf => some (vf, 21, die)
    | .teamPlace hive => atHive hive 22 hive
    | .teamRetire core team => atCore core 23 (teamIx core team)
    | .passGrant hive cell => atHive hive 24 (hive * 192 + cell)
    | .sealComplete hive region => atHive hive 25 (hive * 64 + region)
    | _ => none
  | _ => none

/-- The partition that records the turn, and what it records: one that replays. -/
def State.recorded (s : State) (t : Turn) : Option (Nat × Nat × Nat) := (s.engineTurn t).filter fun y => s.replays y.1

/-- A recorded turn: in a re-execution it acts only in its place in the recorded order. -/
def State.recordedTurn (s : State) (t : Turn) (vf : Nat) (key : Nat × Nat) : Host.Outcome State Fault Refusal :=
  let left := ((s.part? vf).map (·.retrail)).getD []
  if left.any fun _ => left.head? != some key then .next s
  else match s.act t with
    | .next u => .next (if u = s then u
      else (u.modPart vf fun p => { p with trail := p.trail ++ [key], retrail := p.retrail.drop 1 }).flushOwn vf)
    | o => o

/-- Carry out a turn; a replay partition keeps the order in which its engines act. -/
def State.turn (s : State) (t : Turn) : Host.Outcome State Fault Refusal :=
  match s.recorded t with
  | none => s.act t
  | some (vf, key) => s.recordedTurn t vf key

/-- The next turn, the AGE of the fragments that are not eligible being at rest (R37); with none listed, VCLOCK ticks. -/
def State.nextTurn (s : State) : Host.Outcome State Fault Refusal :=
  match s.agenda with
  | [] => exec .vclockTick s.restAges
  | t :: l => ({ s with agenda := l } : State).restAges.turn t

end Sys2Proof.Machine
end

