-- ==== Sys2Proof/Machine/Step.lean ====
section
/-! DEFINITION. The step: the head of the agenda acts, or VCLOCK ticks (assumption 1); and the placing of one instruction as the
next to run (assumption 6). -/

namespace Sys2Proof.Machine

/-- One step. -/
def step (s : State) : Host.Outcome State Fault Refusal := s.nextTurn

/-- A stove instruction: the stove of stack 0, channel 0 runs with the word at its PC in a compute interval, and its thread,
address or arithmetic by the word's bit 31, acts next. -/
def State.placeStove (s : State) (w : Nat) : State :=
  let arith := w.testBit 31
  let x := s.stove 0
  let code : List Word := [BitVec.ofNat 32 w]
  let y : Stove := { x with
    st := .running, acode := if arith then x.acode else code, xcode := if arith then code else x.xcode, apc := 0, xpc := 0,
    aend := false, xend := false }
  let s := (s.setStove 0 y).modHearth 0 fun h => { h with compute := true, ordAt := s.dclk + h.computelen }
  { s with powered := true, agenda := [.stove 0 0 arith] }

/-- The fetch line with a word in slot 0, which is a permitted target (Tables 9.1, 9.2). -/
def lineWith (w : BitVec 96) : BitVec 512 :=
  (w.setWidth 512) ||| (BitVec.ofNat 512 (2 ^ 27 + if parityBits w.toNat 96 then 2 ^ 19 else 0) <<< 480)

/-- The launch record of the team that runs a placed stream word: one thread, the whole register files, entry 0x1000. -/
def placedRec (seq : Bool) : LaunchRec :=
  { launchRec [] with entry := 0x1000, mstream := if seq then 0x1000 else 0, gx := 1, gy := 1, gz := 1, tx := 1, ty := 1, tz := 1,
                      warps := 1, vregs := 192, sregs := 63, accs := 8 }

/-- A stream instruction: a team of one thread starts on core 0, whose instruction cache holds the line and whose TLB holds a
translation of its page, readable and at physical address 0; its warp, or its sequencer for an opcode of class 0xD, acts next. -/
def State.placeStream (s : State) (w : BitVec 96) : State :=
  let seq := (opcOf w).toNat / 64 == 13
  let n := s.fresh
  let g : Grid := {
    ctx := 64, vf := 1, lr := placedRec seq, lrec := 0, depth := 0, varidx := 0, varsig := 0, parent := none, kids := 0, st := .ready,
    readyAt := none, promoted := false, handed := 1, placed := 1, retired := 0, dropped := 0, seed := none, left := [], floor := 0, on := [] }
  let c : Context := ⟨1, 0, 0, 0, false, false, 0, 0, 0, 0, .live, 0, [], none⟩
  let s : State := { n.2 with grids := n.2.grids.put n.1 g, contexts := n.2.contexts.put 64 c }
  let s := (s.startTeam 0 [] n.1 g 0 none).keepLine 0 64 0x1000 (lineWith w)
  let s := s.modCore 0 fun c => { c with tlb := [⟨64, 0x1000, 4096, 3⟩] }
  { s with powered := true, agenda := [if seq then .sequencer 0 0 else .issue 0 0 0 []] }

/-- `s` with an instruction of `nbits` bits stored where the next step fetches: 32 a stove word, 96 a stream word. -/
def State.withFetchWord (s : State) (nbits w : Nat) : State :=
  if nbits ≤ 32 then s.placeStove w else s.placeStream (BitVec.ofNat 96 w)

end Sys2Proof.Machine
end

