-- ==== Sys2Proof/Safety.lean ====
section
/-! DEFINITION. The terms claims use: outcomes that go on, the invariants of a state, an instruction that passes every check
before its effect (09 R195 steps 0 to 9; 13 R282; 18 R371, R372), and the state in which results have been written. -/

namespace Sys2Proof.Machine

/-- A step goes on. -/
def goesOn (o : Host.Outcome State Fault Refusal) : Bool :=
  match o with
  | .next _ => true
  | _ => false

/-- Device and host memory, the syndromes and the elision table are in canonical form. -/
def State.memOk (s : State) : Bool := Memory.wf s.mem && Memory.wf s.hostMem && Tab.sortedFrom 0 s.synd && Tab.sortedFrom 0 s.elision

/-- The state as an effect sees it: the issuing agent has been taken up. -/
def State.taken (s : State) : State := { s with cur := .none }

/-- Fragment `x` issues `i` and every check before step 10 of R195 passes; the two passes of its unit agree, it ends no
redundancy screen and aborts no transaction. -/
structure Ready (i : Instr) (s : State) (x : Ctx) : Prop where
  issuer : s.issuer i = some x
  checks : x.checkIssue i s.taken = none
  agree : x.upset = 0
  screen : endsScreen i = false ∨ (s.team? x.team).bind (·.screen) = none
  tx : abortsTx i = false ∨ x.w.inTx x.act = 0

/-- Completion at the next slot, in a state that holds the effect. -/
def State.completed (s : State) (x : Ctx) : State := (s.fallThrough x).settleWarp x.core x.slot

/-- Fixed-latency results written, flags raised, the instruction complete. -/
def State.wrote (s : State) (x : Ctx) (ws : List RegWrite) (f : BitVec 5) : State := ((s.commit x ws).orFlags x f).completed x

/-- The results an instruction writes and the flags it raises, for every fragment that is ready to issue it. -/
def Gives (i : Instr) (s : State) (ws : Ctx → List RegWrite) (f : Ctx → BitVec 5) : Prop :=
  ∀ x, Ready i s x → Machine.exec i s = .next (s.taken.wrote x (ws x) (f x))

/-- The matrix sequencer of a team issues an instruction at its PC. -/
def State.seqAt (s : State) (x : SeqCtx) : Prop :=
  ∃ word, s.cur = .seq x.core x.slot x.pc word ∧ s.sequencerAt x.core x.slot x.pc = some x

/-- A thread of a stove issues an instruction, at one of the two DRAM clocks of this clock of the VCLOCK (R430). -/
def State.stoveAt (s : State) (k : Nat) (arith : Bool) (x : Stove) : Prop :=
  ∃ stack ch, k = stack * 32 + ch ∧ s.cur = .stove stack ch arith ∧ s.stove k = x ∧ x.ready arith = true ∧ x.last arith ≤ s.dclk + 1

/-- The state in which a stove instruction has its effect: at the DRAM clock of its issue, the next at which its thread is free. -/
def State.stoveClk (s : State) (arith : Bool) (x : Stove) : State := { s.taken with dclk := max s.dclk (x.last arith) }

/-- The clock of another state. -/
def State.clockOf (t s : State) : State := { t with dclk := s.dclk }

end Sys2Proof.Machine
end

