-- ==== Sys2Proof/WellFormed.lean ====
section
/-! DEFINITION. Well-formed instructions: what the word of an instruction must hold whatever the machine's state (09 R189 to
R192, R195 steps 4 to 6; 14 R288, Table 14.6; 15 R336 to R338), and the numbers that name the agents of an event (01 R14;
Tables 1.2, 5.1). -/

namespace Sys2Proof

/-- Core, warp slot, entry and scheduler numbers. -/
def coreOk (core : Nat) : Bool := decide (core < 384)
def entryOk (core slot entry : Nat) : Bool := coreOk core && decide (slot < 32) && decide (entry < 16)
def teamOk (core team : Nat) : Bool := coreOk core && decide (team < 8)
def hiveOk (hive : Nat) : Bool := decide (hive < 96)
def stackOk (stack : Nat) : Bool := decide (stack < 8)
def channelOk (stack ch : Nat) : Bool := stackOk stack && decide (ch < 32)
def bankOk (stack ch slice bank : Nat) : Bool := channelOk stack ch && decide (slice < 16) && decide (bank < 16)
def vfOk (vf : Nat) : Bool := decide (1 ≤ vf) && decide (vf ≤ 64)
/-- Function numbers: PF 0, the VFs, and 65 for PF 1. -/
def fnOk (fn : Nat) : Bool := decide (fn ≤ 65)

/-- An event names agents that exist. -/
def eventOk (i : Instr) : Bool :=
  match i with
  | .launchDoorbell vf queue _ => vfOk vf && decide (queue < 64)
  | .dumpNow fn unit => fnOk fn && decide (unit < 16)
  | .countStopArm fn unit => fnOk fn && decide (unit < 16)
  | .traceRcountWrite fn unit _ => fnOk fn && decide (unit < 16)
  | .registerWrite fn _ _ => fnOk fn
  | .functionLevelReset vf => vfOk vf
  | .linkTraining link _ _ => decide (link < 2)
  | .throttle island _ => decide (island < 256)
  | .patrolScrub row => decide (row < 2 ^ 28)
  | .zeroFill row => decide (row < 2 ^ 28)
  | .launchAccept vf => vfOk vf
  | .packageRangeHandout vf => vfOk vf
  | .dieRangeHandout die vf => decide (die < 4) && vfOk vf
  | .hiveSteal hive vf => hiveOk hive && vfOk vf
  | .dieSteal die vf => decide (die < 4) && vfOk vf
  | .teamPlace hive => hiveOk hive
  | .fitWaitExpiry hive => hiveOk hive
  | .teamRetire core team => teamOk core team
  | .instructionFetch (.frag core slot entry) => entryOk core slot entry
  | .instructionFetch (.seq core team) => teamOk core team
  | .fetchParityRefetch (.frag core slot entry) => entryOk core slot entry
  | .fetchParityRefetch (.seq core team) => teamOk core team
  | .yieldExpiry core slot entry => entryOk core slot entry
  | .sample core sched => coreOk core && decide (sched < 4)
  | .tlbWalk core _ _ => coreOk core
  | .dramActivate stack ch slice bank => bankOk stack ch slice bank
  | .dramPrecharge stack ch slice bank => bankOk stack ch slice bank
  | .burst stack ch _ => channelOk stack ch
  | .txValidate core slot thread => coreOk core && decide (slot < 32) && decide (thread < 64)
  | .soloGrant vf => vfOk vf
  | .soloTimeout vf => vfOk vf
  | .cwaitReread core slot entry => entryOk core slot entry
  | .barrierTimeout core team bar => teamOk core team && decide (bar < 16)
  | .copyAccept hive _ => hiveOk hive
  | .copyPart hive _ => hiveOk hive
  | .copyComplete hive _ => hiveOk hive
  | .bloopIteration hive _ => hiveOk hive
  | .mcastDelivery hive _ _ => hiveOk hive
  | .kcollSequence die => decide (die < 4)
  | .nredAccept stack => stackOk stack
  | .nredBag stack => stackOk stack
  | .nredComplete stack => stackOk stack
  | .stoveLaunch stack => stackOk stack
  | .stoveEnd stack ch => channelOk stack ch
  | .nstatService stack => stackOk stack
  | .nkillService stack => stackOk stack
  | .frameStart stack => stackOk stack
  | .ordinaryIntervalStart stack => stackOk stack
  | .stoveDeadline stack ch => channelOk stack ch
  | .sealComplete hive region => hiveOk hive && decide (region < 16)
  | .passGrant hive cell => hiveOk hive && decide (cell < 32)
  | .accForeignSpill core tile => coreOk core && decide (tile < 24)
  | .quantumBoundary vf => vfOk vf
  | .countStop unit => decide (unit < 16)
  | .teamNotScreened core team => teamOk core team
  | _ => true

/-- The word of an instruction passes every check that needs no state. -/
def Instr.wellFormed (i : Instr) : Bool :=
  match i with
  | .mseal h b => Machine.seqHdr h true false && b.zeroBut true false true false true 0xFFFFFF && decide (b.region.toNat < 16) &&
      decide (b.acc.toNat < 2) && decide (b.vreg.toNat < 8)
  | .munseal h b => Machine.seqHdr h false false && b.zeroBut false false false false true 0 && decide (b.region.toNat < 16)
  | .mmac h b => Machine.seqHdr h true true && b.zeroBut true true true true true 0xFFFFF && decide (b.region.toNat < 16) &&
      decide (1 ≤ b.count.toNat)
  | .mstart h b => Machine.seqHdr h false false && b.zeroBut true false false false false 0
  | .mzero h b => Machine.seqHdr h false false && b.zeroBut true false false false false 0
  | .mget h b => Machine.seqHdr h true false && b.zeroBut true true true true false 0xF77F
  | .mput h b => Machine.seqHdr h true false && b.zeroBut true true true true false 0xF07F
  | .mbwait h b => Machine.seqHdr h false false && b.zeroBut false false false false false 0xF
  | .mbarr h b => Machine.seqHdr h false false && b.zeroBut false false false false false 0x7FFF && decide (b.cmod.toNat / 16 ≤ 1025)
  | .mbra h b => Machine.seqHdr h true false && b.rdelta == 0 && b.rslot == 0
  | .mloop h b => Machine.seqHdr h true false && b.rdelta == 0 && b.rslot == 0
  | .mset h b => Machine.seqHdr h false false && decide (b.d.toNat < 8) && b.a == 0 && decide (b.mod.toNat < 2)
  | .mpoint h b => Machine.seqHdr h false false && b.zeroBut false false false false false 0xFF
  | .mend h b => Machine.seqHdr h false false && b.zeroBut false false false false false 0
  | .mfence h b => Machine.seqHdr h false false && b.zeroBut false false false false (b.cmod == 1) 1 && decide (b.region.toNat < 16)
  | .aset _ a _ => decide (a.toNat ≤ 7)
  | .abr d _ _ _ => decide (d.toNat ≤ 4)
  | .xpop d => decide (d.toNat < 4)
  | .xpush a _ => decide (a.toNat < 4)
  | .xadd d a b => decide (d.toNat < 4) && decide (a.toNat < 4) && decide (b.toNat < 4)
  | .xmul d a b => decide (d.toNat < 4) && decide (a.toNat < 4) && decide (b.toNat < 4)
  | .xfma d a _ => decide (d.toNat < 4) && decide (a.toNat < 4)
  | .xmax d a b => decide (d.toNat < 4) && decide (a.toNat < 4) && decide (b.toNat < 4)
  | .xscale d a _ => decide (d.toNat < 4) && decide (a.toNat < 4)
  | .xcvt d a imm => decide (d.toNat < 4) && decide (a.toNat < 4) && decide (imm.toNat ≤ 5)
  | .xset _ a _ => decide (a.toNat ≤ 7)
  | .xsetB d _ => decide (d.toNat < 4)
  | .xbr d _ _ _ => decide (d.toNat ≤ 4)
  | _ =>
    match encodeStream i with
    | some _ => (Machine.form i).static
    | none => eventOk i

end Sys2Proof
end

