-- ==== Sys2Proof/Certificates/Slice0/Obligations.lean ====
section
/-! DEFINITION. The statements for the provers. -/

open Sys2Proof Sys2Proof.Machine

/-! ## Register results -/

/-- Integer results of a type: saturated under SAT, one write per computing thread (R235, R56). -/
def Sys2Proof.Claims.ints (x : Ctx) (t : Nat) (sat : Bool) (d : BitVec 8) (f : Nat → Int) : List RegWrite :=
  x.threads.map fun th => putTy t d th (if sat then saturate t (f th) else f th)

/-- 64-bit results (R238). -/
def Sys2Proof.Claims.wides (x : Ctx) (d : BitVec 8) (f : Nat → Int) : List RegWrite :=
  x.threads.flatMap fun th => put64 d th (BitVec.ofInt 64 (f th))

/-- Predicate results: per thread, or under U in every thread of MASK (R57). -/
def Sys2Proof.Claims.preds (x : Ctx) (d : BitVec 8) (f : Nat → Bool) : List RegWrite :=
  x.threads.flatMap fun t => if x.u then (threadsOf x.mask).map fun u => putP d u (f t) else [putP d t (f t)]

open Sys2Proof.Claims

/-- R235, R236, R238: sums, differences, products and extremes of the exact operand values complete, write the W-bit result of
every computing thread and raise no flag. -/
def Sys2Proof.Claims.IntegerArithmetic : Prop :=
  ∀ (s : State) (h : Hdr) (b : VBody) (c : IBody),
    let t := ty b.mod
    let sat := b.mod.getLsbD 2
    let ti := c.mod.toNat % 4
    let two (f : Int → Int → Int) (x : Ctx) : List RegWrite := ints x t sat b.d fun th => f (x.int t b.a th) (x.int t b.b th)
    Gives (.add h b) s (two fun p q => p + q) (fun _ => 0) ∧
    Gives (.sub h b) s (two fun p q => p - q) (fun _ => 0) ∧
    Gives (.mul h b) s (two fun p q => p * q) (fun _ => 0) ∧
    Gives (.mulh h b) s (two fun p q => (p * q) / (2 ^ tyBits t : Nat)) (fun _ => 0) ∧
    Gives (.mad h b) s (fun x => ints x t sat b.d fun th => x.int t b.a th * x.int t b.b th + x.int t b.c th) (fun _ => 0) ∧
    Gives (.min h b) s (two fun p q => Min.min p q) (fun _ => 0) ∧
    Gives (.max h b) s (two fun p q => Max.max p q) (fun _ => 0) ∧
    Gives (.abs h b) s (fun x => ints x t sat b.d fun th => |x.int t b.a th|) (fun _ => 0) ∧
    Gives (.neg h b) s (fun x => ints x t sat b.d fun th => -x.int t b.a th) (fun _ => 0) ∧
    Gives (.addi h c) s (fun x => ints x ti (c.mod.getLsbD 2) c.d fun th => x.int ti c.a th + immInt ti c.imm) (fun _ => 0) ∧
    Gives (.movi h c) s (fun x => ints x ti (c.mod.getLsbD 2) c.d fun _ => immInt ti c.imm) (fun _ => 0) ∧
    Gives (.lea h b) s (fun x => wides x b.d fun th => (x.op64 b.a th).toNat + x.ext t b.b th * (2 ^ (b.mod.toNat / 16 % 8) : Nat)) (fun _ => 0) ∧
    Gives (.add64 h b) s (fun x => wides x b.d fun th =>
      (x.op64 b.a th).toNat + if 2 ≤ t then ((x.op64 b.b th).toNat : Int) else x.ext t b.b th) (fun _ => 0) ∧
    Gives (.mad64 h b) s (fun x => wides x b.d fun th => x.ext t b.a th * x.ext t b.b th + (x.op64 b.c th).toNat) (fun _ => 0)

/-- R229, R233, R235 to R239: bitwise operations, moves, selection, shifts and comparisons complete with the result the patterns
give. -/
def Sys2Proof.Claims.IntegerBitwise : Prop :=
  ∀ (s : State) (h : Hdr) (b : VBody) (c : IBody),
    let t := ty b.mod
    let w := tyBits t
    let ti := c.mod.toNat % 4
    let two (f : Nat → Nat → Nat) (x : Ctx) : List RegWrite := ints x t false b.d fun th => f (x.pat t b.a th) (x.pat t b.b th)
    let shift (f : Nat → Nat → Nat) (x : Ctx) : List RegWrite := ints x t false b.d fun th => f (x.pat t b.a th) (x.orConst t b.mod 11 b.b th)
    Gives (.and h b) s (two fun p q => p &&& q) (fun _ => 0) ∧
    Gives (.or h b) s (two fun p q => p ||| q) (fun _ => 0) ∧
    Gives (.xor h b) s (two fun p q => p ^^^ q) (fun _ => 0) ∧
    Gives (.not h b) s (two fun p _ => 2 ^ w - 1 - p) (fun _ => 0) ∧
    Gives (.andn h b) s (two fun p q => p &&& (2 ^ w - 1 - q)) (fun _ => 0) ∧
    Gives (.mov h b) s (two fun p _ => p) (fun _ => 0) ∧
    Gives (.sel h b) s (fun x => ints x t false b.d fun th =>
      x.pat t (if x.p (b.mod.toNat / 16 % 8) th ^^ b.mod.getLsbD 7 then b.a else b.b) th) (fun _ => 0) ∧
    Gives (.shl h b) s (shift fun p n => if w ≤ n then 0 else p * 2 ^ n % 2 ^ w) (fun _ => 0) ∧
    Gives (.shr h b) s (shift fun p n => if w ≤ n then 0 else p / 2 ^ n) (fun _ => 0) ∧
    Gives (.sar h b) s (shift (shiftArith w)) (fun _ => 0) ∧
    Gives (.rot h b) s (shift (rotateLeft w)) (fun _ => 0) ∧
    Gives (.andi h c) s (fun x => ints x ti false c.d fun th => (x.pat ti c.a th &&& immPat ti c.imm : Nat)) (fun _ => 0) ∧
    Gives (.ori h c) s (fun x => ints x ti false c.d fun th => (x.pat ti c.a th ||| immPat ti c.imm : Nat)) (fun _ => 0) ∧
    Gives (.cmp h b) s (fun x => preds x b.d fun th => intCC (b.mod.toNat / 16 % 8) (x.int t b.a th) (x.int t b.b th)) (fun _ => 0) ∧
    Gives (.cmpi h c) s (fun x => preds x c.d fun th => intCC (c.mod.toNat / 16 % 8) (x.int ti c.a th) (immInt ti c.imm)) (fun _ => 0)

/-- R235 for 32-bit types without SAT: a thread's sum, difference, product, negation and bitwise results are those of 32-bit
modular arithmetic on its operands. -/
def Obligations.WrapArithmetic : Prop :=
  ∀ (s : State) (h : Hdr) (b : VBody), ty b.mod < 2 → b.mod.getLsbD 2 = false →
    let out (f : Word → Word → Word) (x : Ctx) : List RegWrite :=
      x.threads.map fun th => put32 b.d th (f (x.op32 b.a th) (x.op32 b.b th)) (tySigned (ty b.mod))
    Gives (.add h b) s (out fun p q => p + q) (fun _ => 0) ∧
    Gives (.sub h b) s (out fun p q => p - q) (fun _ => 0) ∧
    Gives (.mul h b) s (out fun p q => p * q) (fun _ => 0) ∧
    Gives (.neg h b) s (out fun p _ => -p) (fun _ => 0) ∧
    Gives (.and h b) s (out fun p q => p &&& q) (fun _ => 0) ∧
    Gives (.or h b) s (out fun p q => p ||| q) (fun _ => 0) ∧
    Gives (.xor h b) s (out fun p q => p ^^^ q) (fun _ => 0) ∧
    Gives (.not h b) s (out fun p _ => ~~~p) (fun _ => 0) ∧
    Gives (.andn h b) s (out fun p q => p &&& ~~~q) (fun _ => 0) ∧
    Gives (.mov h b) s (out fun p _ => p) (fun _ => 0)

/-- R240: counts, reversals, fields, permutations, funnel shifts and three-input functions of W-bit patterns complete. -/
def Sys2Proof.Claims.BitMembers : Prop :=
  ∀ (s : State) (h : Hdr) (b : VBody),
    let t := ty b.mod
    let w := tyBits t
    let one (f : Nat → Nat) (x : Ctx) : List RegWrite := ints x t false b.d fun th => f (x.pat t b.a th)
    Gives (.popc h b) s (one fun p => ((List.range w).filter p.testBit).length) (fun _ => 0) ∧
    Gives (.clz h b) s (one fun p => if p = 0 then w else w - 1 - Nat.log2 p) (fun _ => 0) ∧
    Gives (.ctz h b) s (one fun p => ((List.range w).find? p.testBit).getD w) (fun _ => 0) ∧
    Gives (.brev h b) s (one (reverseBits w)) (fun _ => 0) ∧
    Gives (.bfe h b) s (fun x => ints x t false b.d fun th =>
      extractField w (tySigned t) (x.pat t b.a th) (x.orConst t b.mod 11 b.b th) (x.orConst t b.mod 10 b.c th)) (fun _ => 0) ∧
    Gives (.bfi h b) s (fun x => ints x t false b.d fun th =>
      insertField w (x.pat t b.a th) (x.pat t b.b th) (x.orConst t b.mod 10 b.c th) (x.orConst t b.mod 9 b.e th)) (fun _ => 0) ∧
    Gives (.prmt h b) s (fun x => ints x t false b.d fun th =>
      permuteBytes (x.pat t b.a th) (x.pat t b.b th) (if b.mod.getLsbD 10 then (b.e ++ b.c).toNat else x.pat t b.c th % 65536)) (fun _ => 0) ∧
    Gives (.shfn h b) s (fun x => ints x t false b.d fun th =>
      funnelShift w (b.mod.getLsbD 8) (x.pat t b.a th) (x.pat t b.b th) (x.orConst t b.mod 10 b.c th)) (fun _ => 0) ∧
    Gives (.lop3 h b) s (fun x => ints x t false b.d fun th =>
      lookupBits w (b.mod.toNat / 65536 % 256) (x.pat t b.a th) (x.pat t b.b th) (x.pat t b.c th)) (fun _ => 0)

/-- R229, R233, R235 to R240: the integer and bit classes complete with the results their rules give. -/
def Obligations.IntegerResults : Prop := Sys2Proof.Claims.IntegerArithmetic ∧ Sys2Proof.Claims.IntegerBitwise ∧ Sys2Proof.Claims.BitMembers

/-- R243 to R247: the cross-lane members complete, and write what the Active threads of the fragment hold; with Active empty they
write nothing. -/
def Sys2Proof.Claims.CrossLaneMembers : Prop :=
  ∀ (s : State) (h : Hdr) (b : VBody),
    let ps := BitVec.ofNat 8 (b.mod.toNat / 4096 % 8)
    let g := subSize b.mod
    let f := combine (ty b.mod) (b.mod.toNat / 4 % 8) (b.mod.toNat / 32 % 4)
    let toScalar := decide (0xC0 ≤ b.d.toNat)
    let total (x : Ctx) (i : Nat) : Word := (treeReduce f (Nat.log2 g) (subValues x b.a g i)).getD 0
    let scans (x : Ctx) : List (List (Option Word)) := (List.range (64 / g)).map fun i => scanFrom f (Nat.log2 g) 1 (subValues x b.a g (i * g))
    let scan (x : Ctx) (t : Nat) : Word := (((scans x).getD (t / g) []).getD (t % g) none).getD 0
    let before (x : Ctx) (t : Nat) : Option Nat := ((List.range (t % g)).filter fun i => x.act.getLsbD (t - t % g + i)).getLast?
    let qs (x : Ctx) : List Bool := (threadsOf x.act).map (x.q b.mod)
    let verdict (x : Ctx) : Bool := match b.mod.toNat / 4 % 8 with | 0 => (qs x).any id | 1 => (qs x).all id | _ => (qs x).all id || !(qs x).any id
    let ballot (x : Ctx) : DWord := maskWhere fun t => x.act.getLsbD t && x.q b.mod t
    let lowest (x : Ctx) : Nat := (lowestOf x.act).getD 0
    let want (x : Ctx) : Nat := if b.mod.getLsbD 20 then lowest x else if b.mod.getLsbD 11 then b.b.toNat else ((x.scal b.b).setWidth 32).toNat
    let from_ (x : Ctx) : Nat := if want x < 64 && x.act.getLsbD (want x) then want x else lowest x
    let same (x : Ctx) (t : Nat) : DWord := maskOf ((threadsOf x.act).filter fun u => x.op32 b.a u == x.op32 b.a t)
    let none_ (x : Ctx) (l : List RegWrite) : List RegWrite := if x.act = 0 then [] else l
    Gives (.shfl h b) s (fun x => (threadsOf x.act).flatMap fun t =>
      [put32 b.d t (x.op32 b.a ((shflSource x b t).getD t)) false] ++ if b.mod.getLsbD 15 then [putP ps t (shflSource x b t).isSome] else [])
      (fun _ => 0) ∧
    Gives (.lred h b) s (fun x => if toScalar then none_ x [putS b.d ((total x 0).setWidth 64)] else (threadsOf x.act).map fun t =>
      put32 b.d t (((List.range (64 / g)).map fun i => total x (i * g)).getD (t / g) 0) false) (fun _ => 0) ∧
    Gives (.lscan h b) s (fun x => (threadsOf x.act).map fun t => put32 b.d t
      (if b.mod.getLsbD 7 then (match before x t with | some i => scan x (t - t % g + i) | none => x.op32 b.c t) else scan x t) false) (fun _ => 0) ∧
    Gives (.vote h b) s (fun x => none_ x (if b.mod.getLsbD 20 then (threadsOf x.act).map fun t => putP b.d t (verdict x)
      else [putS b.d (if verdict x then 1 else 0)])) (fun _ => 0) ∧
    Gives (.ballot h b) s (fun x => none_ x (if toScalar then [putS b.d (ballot x)] else (threadsOf x.act).flatMap fun t => put64 b.d t (ballot x)))
      (fun _ => 0) ∧
    Gives (.bcast h b) s (fun x => none_ x (if toScalar then [put32 b.d 0 (x.op32 b.a (from_ x)) (ty b.mod == 0)]
      else (threadsOf x.act).map fun t => put32 b.d t (x.op32 b.a (from_ x)) false)) (fun _ => 0) ∧
    Gives (.matchLanes h b) s (fun x => (threadsOf x.act).flatMap fun t => put64 b.d t (same x t) ++
      if b.mod.getLsbD 15 then [putP ps t (decide (∀ u ∈ threadsOf x.act, x.op32 b.a u = x.op32 b.a ((threadsOf x.act).headD 0)))] else [])
      (fun _ => 0) ∧
    Gives (.prank h b) s (fun x => (threadsOf x.act).map fun t =>
      put32 b.d t (BitVec.ofNat 32 ((threadsOf x.act).filter fun u => t - t % g ≤ u && u < t && x.q b.mod u).length) false) (fun _ => 0)

/-- R248 to R251: the predicate members complete. `pmask` reads every thread of MASK, whatever Active is. -/
def Sys2Proof.Claims.PredicateMembers : Prop :=
  ∀ (s : State) (h : Hdr) (b : VBody),
    let ix (x : Ctx) (t : Nat) : Nat :=
      (if x.pOperand b.a t x.u then 4 else 0) + (if x.pOperand b.b t x.u then 2 else 0) + if x.pOperand b.c t x.u then 1 else 0
    Gives (.plop h b) s (fun x => (threadsOf x.act).map fun t => putP b.d t (b.mod.getLsbD (ix x t))) (fun _ => 0) ∧
    Gives (.pmask h b) s (fun x => if x.act = 0 then [] else [putS b.d (maskWhere fun t => x.mask.getLsbD t && x.pOperand b.a t true)]) (fun _ => 0) ∧
    Gives (.psetm h b) s (fun x => (threadsOf x.act).map fun t => putP b.d t ((x.op64 b.a t).getLsbD t)) (fun _ => 0) ∧
    Gives (.pact h b) s (fun x => if x.act = 0 then [] else
      [putS b.d (if b.mod.toNat % 4 = 0 then x.act else if b.mod.toNat % 4 = 1 then x.mask else x.w.live)]) (fun _ => 0)

/-- R243 to R251: the cross-lane and predicate classes complete with the results their rules give. -/
def Obligations.LaneResults : Prop := Sys2Proof.Claims.CrossLaneMembers ∧ Sys2Proof.Claims.PredicateMembers

/-- One 32-bit result per computing thread, with the flags of all of them ORed (R63). -/
def Sys2Proof.Claims.flagged (x : Ctx) (d : BitVec 8) (sg : Bool) (f : Nat → Word × BitVec 5) : List RegWrite :=
  x.threads.map fun t => put32 d t (f t).1 sg
def Sys2Proof.Claims.flagsOf (x : Ctx) (f : Nat → Word × BitVec 5) : BitVec 5 := x.threads.foldl (fun a t => a ||| (f t).2) 0

/-- R256 to R260: the FP32 members complete; each writes the exact result rounded once in its mode and ORs its flags. -/
def Sys2Proof.Claims.Fp32Members : Prop :=
  ∀ (s : State) (h : Hdr) (b : VBody),
    let rm := b.mod.toNat % 4
    let G (i : Instr) (sg : Bool) (f : Ctx → Nat → Word × BitVec 5) : Prop := Gives i s (fun x => flagged x b.d sg (f x)) (fun x => flagsOf x (f x))
    let two (op : Fv → Fv → Option Fv) (x : Ctx) (t : Nat) : Word × BitVec 5 :=
      word (arith f32 (ieee rm) [x.fl b.a t, x.fl b.b t] (op (x.fl b.a t) (x.fl b.b t)))
    G (.fadd h b) false (two (fvAdd rm)) ∧
    G (.fsub h b) false (two fun p q => fvAdd rm p q.negate) ∧
    G (.fmul h b) false (two fvMul) ∧
    G (.ffma h b) false (fun x t => word (fmaOf f32 (ieee rm) (x.fl b.a t) (x.fl b.b t) (x.fl b.c t))) ∧
    G (.fmin h b) false (fun x t => word (minMax f32 false (x.op32 b.a t).toNat (x.op32 b.b t).toNat (x.fl b.a t) (x.fl b.b t))) ∧
    G (.fmax h b) false (fun x t => word (minMax f32 true (x.op32 b.a t).toNat (x.op32 b.b t).toNat (x.fl b.a t) (x.fl b.b t))) ∧
    G (.frnd h b) false (fun x t => word (arith f32 (ieee 0) [x.fl b.a t] (some (integral rm (x.fl b.a t))))) ∧
    G (.fclass h b) false (fun x t => (BitVec.ofNat 32 (2 ^ classBit (x.fl b.a t)), 0)) ∧
    G (.fscale h b) false (fun x t => word (arith f32 (ieee rm) [x.fl b.a t] (some (scaleBy (x.op32 b.b t).toInt (x.fl b.a t))))) ∧
    G (.fexpt h b) true (fun x t => exponentOf (x.fl b.a t)) ∧
    G (.fdot2 h b) false (fun x t => word (dotOf rm ((List.range 2).map (elemFlushed (fmtOf (modDt b.mod)) (x.op32 b.a t)))
      ((List.range 2).map (elemFlushed (fmtOf (modDt b.mod)) (x.op32 b.b t))) (x.fl b.c t))) ∧
    Gives (.fcmp h b) s (fun x => preds x b.d fun t => (cmpCC (modCc b.mod) (x.fl b.a t) (x.fl b.b t)).1)
      (fun x => x.threads.foldl (fun a t => a ||| (cmpCC (modCc b.mod) (x.fl b.a t) (x.fl b.b t)).2) 0)

/-- R260, R261: the packed members complete; each half is the exact result of its flushed inputs rounded once. -/
def Sys2Proof.Claims.PackedMembers : Prop :=
  ∀ (s : State) (h : Hdr) (b : VBody),
    let rm := b.mod.toNat % 4
    let fm := fmtOf (modDt b.mod)
    let G (i : Instr) (f : Ctx → Nat → Word × BitVec 5) : Prop := Gives i s (fun x => flagged x b.d false (f x)) (fun x => flagsOf x (f x))
    let two (op : Fv → Fv → Option Fv) (x : Ctx) (t : Nat) : Word × BitVec 5 := halves fun k =>
      arith fm (narrowMode rm) [x.half b b.a t k, x.half b b.b t k] (op (x.half b b.a t k) (x.half b b.b t k))
    let pick (big : Bool) (x : Ctx) (t : Nat) : Word × BitVec 5 := halves fun k =>
      minMax fm big (x.halfCode b b.a t k) (x.halfCode b b.b t k) (x.half b b.a t k) (x.half b b.b t k)
    G (.hadd2 h b) (two (fvAdd rm)) ∧
    G (.hsub2 h b) (two fun p q => fvAdd rm p q.negate) ∧
    G (.hmul2 h b) (two fvMul) ∧
    G (.hfma2 h b) (fun x t => halves fun k => fmaOf fm (narrowMode rm) (x.half b b.a t k) (x.half b b.b t k) (x.half b b.c t k)) ∧
    G (.hmin2 h b) (pick false) ∧
    G (.hmax2 h b) (pick true) ∧
    G (.hcmp2 h b) (fun x t => halves fun k =>
      (if (cmpCC (modCc b.mod) (x.half b b.a t k) (x.half b b.b t k)).1 then 0xFFFF else 0, (cmpCC (modCc b.mod) (x.half b b.a t k) (x.half b b.b t k)).2)) ∧
    G (.e8dot4 h b) (fun x t => word (dotOf rm ((List.range 4).map (elemFlushed fm (x.op32 b.a t)))
      ((List.range 4).map (elemFlushed (fmtOf (modSt b.mod)) (x.op32 b.b t))) (x.fl b.c t)))

/-- R264 to R266: the convert members complete. A Q4 group takes +0 for the threads outside Active. -/
def Sys2Proof.Claims.ConvertMembers : Prop :=
  ∀ (s : State) (h : Hdr) (b : VBody),
    let G (i : Instr) (sg : Bool) (f : Ctx → Nat → Word × BitVec 5) : Prop := Gives i s (fun x => flagged x b.d sg (f x)) (fun x => flagsOf x (f x))
    let fm := fmtOf (modDt b.mod)
    let n := fm.eb + fm.mb + 1
    let packed (x : Ctx) (t : Nat) : List (Nat × BitVec 5) :=
      (if n = 16 then [b.a, b.b] else [b.a, b.b, b.c, b.e]).map fun c => convert fm (modRm b.mod) (b.mod.getLsbD 7) (x.fl c t)
    let lanes (x : Ctx) (v : Nat → Nat → Word) : List RegWrite :=
      (q4Groups x).flatMap fun g => (groupThreads x g).map fun t => put32 b.d t (v g (t % 32)) false
    G (.cvt h b) (5 ≤ modDt b.mod && intTypeSigned (modDt b.mod)) (fun x t =>
      cvtValue (modSt b.mod) (modDt b.mod) (modRm b.mod) (modEl b.mod) (b.mod.getLsbD 7) (x.op32 b.a t)) ∧
    G (.unpack h b) false (fun x t => cvtValue (modSt b.mod) 0 0 (modEl b.mod) false (x.op32 b.a t)) ∧
    G (.pack h b) false (fun x t => (BitVec.ofNat 32 ((packed x t).foldr (fun r acc => r.1 + 2 ^ n * acc) 0), (packed x t).foldl (fun fl r => fl ||| r.2) 0)) ∧
    Gives (.cvtq h b) s (fun x => lanes x fun g i => BitVec.ofNat 32 (
        if i ≤ 3 then (List.range 8).foldl (fun acc k => acc + ((q4Group x b g).2.1.getD (8 * i + k) 0) * 16 ^ k) 0
        else if i = 4 then (q4Group x b g).1 else 0))
      (fun x => (q4Groups x).foldl (fun f g => f ||| (q4Group x b g).2.2) 0) ∧
    Gives (.cvsc h b) s (fun x => lanes x fun g _ => BitVec.ofNat 32 (q4Group x b g).1)
      (fun x => (q4Groups x).foldl (fun f g => f ||| ((q4Group x b g).2.2 &&& flagNV)) 0) ∧
    Gives (.cvtdq h b) s (fun x => lanes x fun g i =>
        let w (j : Nat) : Nat := if x.act.getLsbD (g + j) then (x.op32 b.a (g + j)).toNat else 0
        q4Decode (w 4 % 256) (w (i / 8) / 16 ^ (i % 8) % 16)) (fun _ => 0)
/-! ## Special functions and the system class -/

/-- R256 to R261, R264 to R266: the FP32, packed and convert classes complete with the results and flags their rules give. -/
def Obligations.FloatResults : Prop := Sys2Proof.Claims.Fp32Members ∧ Sys2Proof.Claims.PackedMembers ∧ Sys2Proof.Claims.ConvertMembers

/-- R262, R200: a special function of a non-empty Active raises its flags at issue and leaves its results to be written back; with
Active empty it only completes. -/
def Sys2Proof.Claims.SpecialFunctions : Prop :=
  ∀ (s : State) (h : Hdr) (b : VBody) (x : Ctx),
    let vals (k t : Nat) : (Word × Word) × BitVec 5 := sfuValue k (x.op32 b.a t)
    let writes (k : Nat) : List RegWrite := x.threads.flatMap fun t =>
      put32 b.d t (vals k t).1.1 false :: if k = 7 then [put32 (b.d + 1) t (vals k t).1.2 false] else []
    let pending (k : Nat) : State := { s.taken.fresh.2 with pend := s.pend.put s.nextId (⟨x.core, x.slot, writes k, none⟩ : Pending) }
    let S (i : Instr) (k : Nat) : Prop := Ready i s x → Machine.exec i s = .next (if x.act = 0 then s.taken.completed x
      else ((pending k).orFlags x (x.threads.foldl (fun a t => a ||| (vals k t).2) 0)).completed x)
    S (.frcp h b) 0 ∧ S (.frsq h b) 1 ∧ S (.fsqrt h b) 2 ∧ S (.fex2 h b) 3 ∧ S (.flg2 h b) 4 ∧ S (.fsin h b) 5 ∧ S (.fcos h b) 6 ∧
    S (.fscs h b) 7 ∧ S (.ftanh h b) 8 ∧ S (.fsig h b) 9 ∧ S (.ferf h b) 10

/-- R200, R227: pending results and replies are written to the registers that wait for them, and wait no longer. -/
def Sys2Proof.Claims.PendingResults : Prop :=
  ∀ (s : State) (id : Nat) (p : Pending) (v : DWord), s.pend.find? id = some p →
    (p.sysc = none → Machine.exec (.sfuWriteback id) s = .next (({ s with pend := s.pend.erase id } : State).writeBack p.core p.slot p.writes)) ∧
    (p.sysc ≠ none → Machine.exec (.syscReply id v) s = .next (({ s with pend := s.pend.erase id } : State).writeBack p.core p.slot
      (p.writes.map fun r => { r with val := v })))

/-- R262, R200, R227: special functions issue, and pending results are written back. -/
def Obligations.SpecialResults : Prop := Sys2Proof.Claims.SpecialFunctions ∧ Sys2Proof.Claims.PendingResults

/-- R225: `srd` gives a scalar all 64 bits once and a vector 32 of them, the upper half with MOD bit 0, per thread. -/
def Sys2Proof.Claims.SrdReads : Prop :=
  ∀ (s : State) (h : Hdr) (b : SBody) (x : Ctx), Ready (.srd h b) s x →
    Machine.exec (.srd h b) s = .next (if x.act = 0 then s.taken.completed x else s.taken.wrote x
      (if 0xC0 ≤ b.d.toNat then [putS b.d (specialReg s.taken x b.sel.toNat ((lowestOf (if x.u then x.mask else x.act)).getD 0))]
       else (threadsOf x.act).map fun t =>
         ⟨.v b.d.toNat t, (if b.mod.getLsbD 0 then specialReg s.taken x b.sel.toNat t >>> 32 else specialReg s.taken x b.sel.toNat t) &&& 0xFFFFFFFF⟩) 0)

/-- R226, R227: `swr` writes FPFLAGS from a value without reserved bits and traps RESERVED_FIELD otherwise; `sysc` leaves one request
and signals the function's vector. -/
def Sys2Proof.Claims.SystemWrites : Prop :=
  ∀ (s : State) (h : Hdr) (b : SBody) (x : Ctx),
    (Ready (.swr h b) s x → x.act ≠ 0 → x.scal b.d >>> 5 = 0 → Machine.exec (.swr h b) s =
      .next ((s.taken.modWarp x.core x.slot fun w => { w with fpflags := (x.scal b.d).setWidth 5 }).completed x)) ∧
    (Ready (.swr h b) s x → x.act ≠ 0 → x.scal b.d >>> 5 ≠ 0 → Machine.exec (.swr h b) s = .next (s.taken.trapAt x (plain causeReserved x.mask))) ∧
    (Ready (.swr h b) s x → x.act = 0 → Machine.exec (.swr h b) s = .next (s.taken.completed x)) ∧
    (Ready (.sysc h b) s x → Machine.exec (.sysc h b) s = .next (if x.act = 0 then s.taken.completed x else
      (({ s.taken.fresh.2 with pend := s.pend.put s.nextId (⟨x.core, x.slot, [putS b.d 0], some (b.sel.toNat, x.scal b.d)⟩ : Pending) } : State).signal x.vf
        (((s.ctx? x.gctx).map (·.vector)).getD 0)).completed x))

/-- R225 to R227: the system class. -/
def Obligations.SystemRegisters : Prop := Sys2Proof.Claims.SrdReads ∧ Sys2Proof.Claims.SystemWrites

/-! ## Control -/

/-- A transfer of control that its checks let go: the targets pass R181, and the reconvergence PC is a slot whatever Active is (R203, R206). -/
def Sys2Proof.Claims.canGo (s : State) (x : Ctx) (target : Nat → DWord) (recon : Option DWord) : Prop :=
  (∀ t ∈ threadsOf x.act, target t ≠ x.next → s.targetCause x.core x.gctx x.vf (target t) = none) ∧
    ∀ r, recon = some r → pcShapeOk r = true

/-- The next PCs of a fragment: threads of Active go to their targets, the others to the next slot. -/
def Sys2Proof.Claims.nextPcs (x : Ctx) (target : Nat → DWord) (t : Nat) : DWord := if x.act.getLsbD t then target t else x.next

/-- The split table has room for the transfer: it splits nothing, entries are free for every group, or a deferral record is free (R32, R34;
assumption 92). -/
def Sys2Proof.Claims.hasRoom (x : Ctx) (target : Nat → DWord) (takenFirst : Bool) : Prop :=
  let groups := groupsOf (x.w.entry x.entry).mask (if takenFirst then x.act else 0) (nextPcs x target)
  (x.w.entry x.entry).reexec = true ∨ groups.length ≤ 1 ∨ groups.length ≤ x.w.freeEntries ∨ x.w.deferrals.length < 32

/-- The state after the transfer of R32: threads of Active at their targets, the others at the next slot. -/
def Sys2Proof.Claims.went (s : State) (x : Ctx) (target : Nat → DWord) (takenFirst : Bool) (recon : Option DWord) (link : List RegWrite) : Option State :=
  ((if x.act = 0 then s.taken else s.taken.writeBack x.core x.slot link).jump x
    (nextPcs x target) (if takenFirst then x.act else 0) recon false).map fun s => s.settleWarp x.core x.slot

/-- R32, R34, R203 to R206: a transfer whose targets pass their checks completes where the split table has room: it writes its link, and its
threads continue, split or are deferred under R32. Where a split finds too few free entries and no free record it traps SPLIT_DEPTH (assumption 92),
and has had no effect. `join` goes to the reconvergence PC of its entry unchecked. -/
def Obligations.Transfers : Prop :=
  ∀ (s : State) (h : Hdr) (j : JBody) (b : VBody) (x : Ctx),
    let T (i : Instr) (target : Nat → DWord) (first : Bool) (recon : Option DWord) (link : List RegWrite) : Prop :=
      Ready i s x → canGo s.taken x target recon →
        (hasRoom x target first → ∃ t, went s x target first recon link = some t ∧ Machine.exec i s = .next t) ∧
        (¬hasRoom x target first → Machine.exec i s = .next (s.taken.trapAt x (plain causeSplitDepth x.mask)))
    T (.bra h j) (fun _ => jTarget x.pc j) true (some (jRecon x.pc j)) [] ∧
    T (.call h j) (fun _ => jTarget x.pc j) true (some (jRecon x.pc j)) [⟨.s 62, x.next⟩] ∧
    T (.brx h b) (x.xTarget b.a b.b) false (x.xRecon b.c) [] ∧
    T (.callx h b) (x.xTarget b.a b.b) false (x.xRecon b.c) ((threadsOf x.act).flatMap fun t => put64 b.d t x.next) ∧
    T (.ret h b) (x.op64 b.a) false none [] ∧
    (Ready (.join h b) s x →
      (hasRoom x (fun _ => x.e.rpc.getD x.next) false →
        ∃ t, went s x (fun _ => x.e.rpc.getD x.next) false none [] = some t ∧ Machine.exec (.join h b) s = .next t) ∧
      (¬hasRoom x (fun _ => x.e.rpc.getD x.next) false → Machine.exec (.join h b) s = .next (s.taken.trapAt x (plain causeSplitDepth x.mask))))

/-- R32: when every thread of a fragment has one next PC, no split occurs: the entry keeps its MASK and holds that PC. -/
def Obligations.UniformTransfer : Prop :=
  ∀ (w : Warp) (e : Nat) (pc : DWord) (np : Nat → DWord) (taken : DWord) (recon : Option DWord) (p : DWord),
    (w.entry e).mask ≠ 0 → (w.entry e).reexec = false → (∀ t ∈ threadsOf (w.entry e).mask, np t = p) →
    ∃ w', w.transfer e pc np taken recon false = some (w', []) ∧ (w'.entry e).pc = p ∧ (w'.entry e).mask = (w.entry e).mask ∧
      ∀ i, i ≠ e → w'.entry i = w.entry i

/-- R32: a split keeps every thread. The groups of a transfer are disjoint, together they are the MASK, and each thread is in the group
of its next PC. -/
def Obligations.GroupsPartition : Prop :=
  ∀ (m taken : DWord) (np : Nat → DWord),
    (∀ t, t < 64 → m.getLsbD t = true → ∃ g ∈ groupsOf m taken np, g.1 = np t ∧ g.2.getLsbD t = true) ∧
    (∀ g ∈ groupsOf m taken np, g.2 ≠ 0 ∧ ∀ t, g.2.getLsbD t = true → m.getLsbD t = true ∧ np t = g.1) ∧
    ((groupsOf m taken np).map (·.1)).Nodup

/-- R207, R208, R209: `nop` only advances; `exit` ends the threads of Active; `yield`, where its fragment still runs after the
checks of R33, stands aside for 64 opportunities; `brk` with no
unit armed for its context only advances. -/
def Sys2Proof.Claims.ControlMembers : Prop :=
  ∀ (s : State) (h : Hdr) (b : VBody) (x : Ctx),
    (Ready (.nop h b) s x → Machine.exec (.nop h b) s = .next (s.taken.completed x)) ∧
    (Ready (.exit h b) s x → Machine.exec (.exit h b) s =
      .next ((if x.act = 0 then s.taken else (s.taken.endThreads x x.act).exitHandler x).completed x)) ∧
    (Ready (.yield h b) s x → x.act = 0 → Machine.exec (.yield h b) s = .next (s.taken.completed x)) ∧
    (Ready (.yield h b) s x → x.act ≠ 0 → Machine.exec (.yield h b) s = .next ((s.taken.completed x).modWarp x.core x.slot fun w =>
      w.modEntry x.entry fun e => if e.st == EntryState.run && e.mask != 0 then { e with wait := .yield 64 } else e)) ∧
    (Ready (.brk h b) s x → s.brkUnit x.vf x.gctx = none → Machine.exec (.brk h b) s = .next (s.taken.completed x))

/-! ## Traps -/

/-- R210, Table 3.7: entering the user trap handler writes the trap registers, sets the entry's PC to the handler, clears its AGE, keeps
its MASK and RPC and every register, and closes the stall windows. -/
def Obligations.HandlerEntry : Prop :=
  ∀ (s : State) (core slot entry : Nat) (regs : TrapRegs) (w : Warp) (g : Grid),
    s.warp? core slot = some w → s.gridOfTeam w.team = some g → g.lr.handler ≠ 0 → s.targetCause core g.ctx g.vf g.lr.handler = none →
    (w.entry entry).mask ≠ 0 →
    ∃ w', (s.enterHandler core slot entry regs).warp? core slot = some w' ∧ w'.trap = regs ∧ w'.handler = some (entry, (w.entry entry).mask) ∧
      w'.windows = [] ∧ (w'.entry entry).pc = g.lr.handler ∧ (w'.entry entry).age = 0 ∧ (w'.entry entry).mask = (w.entry entry).mask ∧
      (w'.entry entry).rpc = (w.entry entry).rpc ∧ (w'.entry entry).handler = true ∧ (∀ i, i ≠ entry → w'.entry i = w.entry i) ∧
      w'.vregs = w.vregs ∧ w'.sregs = w.sregs ∧ w'.preds = w.preds ∧ w'.fpflags = w.fpflags ∧ w'.workcnt = w.workcnt ∧
      (s.enterHandler core slot entry regs).mem = s.mem

/-- R368, R66: a trap of the User route at a free warp logs its cause and enters the handler with the trap registers of Table 3.7; one
behind a running handler or a System hold waits for the trap registers; one raised in the handler faults the context instead, with its own cause
(assumption 58). -/
def Sys2Proof.Claims.UserTrap : Prop :=
  ∀ (s : State) (core slot entry : Nat) (pc : DWord) (word : BitVec 96) (noWord gred : Bool) (f : FaultInfo) (w : Warp), s.warp? core slot = some w →
    let logged := s.logFault (s.vfOfTeam w.team) core (s.withDenied core (s.ctxIdOfTeam w.team) f) pc
    (routeOf f.cause gred = 0 → (w.entry entry).handler = false → w.trapBusy = false → s.takeTrap core slot entry pc word noWord gred f =
      logged.enterHandler core slot entry (trapRegs f.cause pc word f.mask noWord)) ∧
    (routeOf f.cause gred ≤ 1 → (w.entry entry).handler = false → w.trapBusy = true → s.takeTrap core slot entry pc word noWord gred f =
      logged.setWarp core slot (({ w with heldTraps := w.heldTraps ++ [⟨entry, pc, f.cause, f.mask, word, noWord⟩] } : Warp).setEntry entry
        { w.entry entry with wait := .held })) ∧
    (routeOf f.cause gred ≤ 1 → (w.entry entry).handler = true → s.takeTrap core slot entry pc word noWord gred f =
      logged.endContext (s.ctxIdOfTeam w.team) f.cause .faulted)

/-- Table 18.1: the route of each cause that a party of a warp raises. What a hearth finds traps `gred` precisely, as R324 says; that R324 governs
there and not the table is the model's reading (assumption 103). -/
def Sys2Proof.Claims.TrapRoutes : Prop :=
  (∀ c ∈ [causeIllegal, causeReserved, causeSoftTrap, causeBadTarget, causeSplitDepth, causeAlign, causeCombBounds, causeCombSealed, causeDepth,
      causeParity, causeStallShort], ∀ g, routeOf c g = 0) ∧
    (∀ c ∈ [causePageFault, causePagePerm], ∀ g, routeOf c g = 1) ∧ (∀ g, routeOf causeMismatch g = 2) ∧
    routeOf causeUncorr false = 2 ∧ routeOf causeRowDenied false = 3 ∧ routeOf causeUncorr true = 0 ∧ routeOf causeRowDenied true = 0

/-- R369, R66: a trap of the System route at a free warp is logged and holds its fragment at its PC, with the trap registers written, and the
function's vector is signalled. -/
def Sys2Proof.Claims.SystemHold : Prop :=
  ∀ (s : State) (core slot entry : Nat) (pc : DWord) (word : BitVec 96) (noWord gred : Bool) (f : FaultInfo) (w : Warp), s.warp? core slot = some w →
    routeOf f.cause gred = 1 → (w.entry entry).handler = false → w.trapBusy = false →
    let regs := trapRegs f.cause pc word f.mask noWord
    let logged := s.logFault (s.vfOfTeam w.team) core f pc
    s.takeTrap core slot entry pc word noWord gred f = logged.systemHold core slot entry regs ∧
      ∀ v, logged.warp? core slot = some v → logged.systemHold core slot entry regs =
        (logged.setWarp core slot (({ v with trap := regs } : Warp).setEntry entry { v.entry entry with wait := .hold regs.cause.toNat })).signal
          (logged.vfOfTeam v.team) (((logged.ctx? (logged.ctxIdOfTeam v.team)).map (·.vector)).getD 0)

/-- R66, R368, R369, Table 18.1: where a trap of a warp goes. -/
def Obligations.TrapRouting : Prop := Sys2Proof.Claims.TrapRoutes ∧ Sys2Proof.Claims.UserTrap ∧ Sys2Proof.Claims.SystemHold

/-- R211: `trap` with a non-empty Active traps SOFT_TRAP with the fragment's MASK; `tret` of mode 0 resumes after the trapping
instruction, of mode 1 at it, ends the handler and lets the next held trap in; any other `tret` traps RESERVED_FIELD. Where a branch under
re-execution trapped (R33), mode 1 executes it as such again, and mode 0 leaves its threads pending no more. -/
def Sys2Proof.Claims.TrapAndReturn : Prop :=
  ∀ (s : State) (h : Hdr) (b : IBody) (x : Ctx),
    (Ready (.trap h b) s x → x.act = 0 → Machine.exec (.trap h b) s = .next (s.taken.completed x)) ∧
    (Ready (.trap h b) s x → x.act ≠ 0 → Machine.exec (.trap h b) s =
      .next (s.taken.trapAt x (plain causeSoftTrap x.mask))) ∧
    (Ready (.tret h b) s x → x.tretOk h b = true → Machine.exec (.tret h b) s = .next ((((s.taken.fallThrough x).modWarp x.core x.slot fun w =>
      (if w.handlerRe = true ∧ b.imm = 0 then w.changeNewest x.entry fun r => some { r with p := r.p &&& ~~~(w.entry x.entry).mask } else w).modEntry
        x.entry fun e => { e with pc := if b.imm = 0 then nextPc w.trap.pc else w.trap.pc, seqd := false, reexec := w.handlerRe && b.imm != 0 }).endHandler
          x.core x.slot).settleWarp x.core x.slot)) ∧
    (Ready (.tret h b) s x → x.tretOk h b = false → Machine.exec (.tret h b) s = .next (s.taken.trapAt x (plain causeReserved x.mask)))

/-- R207 to R211: the control class but for its transfers. -/
def Obligations.ControlFlow : Prop := Sys2Proof.Claims.ControlMembers ∧ Sys2Proof.Claims.TrapAndReturn

/-- R190, R195: an instruction whose fields break a check of steps 4 to 9 traps with that step's cause and has had no effect. -/
def Sys2Proof.Claims.FieldChecks : Prop :=
  ∀ (s : State) (i : Instr) (x : Ctx) (eff : Ctx → State → Eff) (c : Nat), s.issuer i = some x → x.checkIssue i s.taken = some c →
    (c = causeReserved ∨ c = causeStallShort) ∧ issue i s eff = .next (s.taken.trapAt x (plain c x.mask))

/-- R194: a matrix-stream instruction issued by a warp traps ILLEGAL_OPC. -/
def Sys2Proof.Claims.WrongStream : Prop :=
  ∀ (s : State) (i : Instr) (x : Ctx) (ok : SeqCtx → Bool) (eff : SeqCtx → State → SeqEff), s.issuer i = some x →
    seqIssue i s ok eff = .next (s.taken.trapAt x (plain causeIllegal x.mask))

/-! ## Synchronisation -/

/-- R213 to R217: `bar.arrive` arrives with Active; `bar.query` reads the status without waiting; `bar.wait` returns the status once
every thread that waits has seen its generation released, and waits otherwise; `bar.sync` arrives first. -/
def Obligations.BarrierMembers : Prop :=
  ∀ (s : State) (h : Hdr) (b : IBody) (x : Ctx),
    let n := b.imm.toNat % 16
    let lin := x.w.linear x.act
    let back (s : State) : State := (((s.modTeam x.team fun t => t.setBar n ((s.barOf x n).finishWait lin).2).raiseFloor x.core x.slot
      (s.barOf x n).floor).writeBack x.core x.slot [putS b.d ((s.barOf x n).finishWait lin).1]).closeWin x
    (Ready (.barArrive h b) s x → Machine.exec (.barArrive h b) s = .next ((if x.act = 0 then s.taken else s.taken.arriveActive x b.imm.toNat).completed x)) ∧
    (Ready (.barQuery h b) s x → x.act ≠ 0 → Machine.exec (.barQuery h b) s = .next ((s.taken.writeBack x.core x.slot
      [putS b.d ((s.taken.barOf x n).current ||| if ((s.taken.barOf x n).waiting lin).isEmpty then 0x80000000000 else 0)]).completed x)) ∧
    (Ready (.barWait h b) s x → x.act ≠ 0 → (s.taken.barOf x n).ready lin = true → Machine.exec (.barWait h b) s = .next ((back s.taken).completed x)) ∧
    (Ready (.barWait h b) s x → x.act ≠ 0 → (s.taken.barOf x n).ready lin = false →
      Machine.exec (.barWait h b) s = .next (s.taken.waitIn x x.entry (.bar n))) ∧
    (Ready (.barSync h b) s x → x.act ≠ 0 → x.e.wait ≠ .bar n → ((s.taken.arriveActive x b.imm.toNat).barOf x n).ready lin = true →
      Machine.exec (.barSync h b) s = .next ((back (s.taken.arriveActive x b.imm.toNat)).completed x)) ∧
    (Ready (.barSync h b) s x → x.act ≠ 0 → x.e.wait ≠ .bar n → ((s.taken.arriveActive x b.imm.toNat).barOf x n).ready lin = false →
      Machine.exec (.barSync h b) s = .next ((s.taken.arriveActive x b.imm.toNat).waitIn x x.entry (.bar n)))

/-- R214: an arrival. The first of a generation sets its expected count; a later one with another count sets MISM. The arrivals count up to 2,047.
Where they stay below the expected count the threads only have arrived; where they reach it the generation is released: its status is kept, the
generation advances, and the counts and MISM return to 0. -/
def Obligations.BarrierArrival : Prop :=
  ∀ (b : Barrier) (launched count size : Nat) (lin : List Nat),
    let want := if count = 0 then launched else count
    let first := b.arrived = 0 ∧ b.expected = 0
    let expected := if first then want else b.expected
    let mism := if ¬first ∧ want ≠ b.expected then true else b.mism
    let n := min (b.arrived + size) 2047
    let r := b.arrive launched count size lin
    (∀ t ∈ lin, r.1.pend.find? t = some b.gen) ∧
    (n < expected → r.2 = false ∧ r.1.arrived = n ∧ r.1.expected = expected ∧ r.1.mism = mism ∧ r.1.gen = b.gen ∧ r.1.done = b.done) ∧
    (expected ≤ n → r.2 = true ∧ r.1.gen = b.gen + 1 ∧ r.1.arrived = 0 ∧ r.1.expected = 0 ∧ r.1.mism = false ∧ r.1.waitCnt = 0 ∧
      r.1.done.head? = some (b.gen, barStatus b.gen n expected false mism (decide (expected < n)) false))

/-- R218 to R220, R224: `drain`, `fence`, `owait` and `gwait` complete once what they wait for holds, and wait otherwise. -/
def Sys2Proof.Claims.WaitMembers : Prop :=
  ∀ (s : State) (h : Hdr) (b : IBody) (v : VBody) (x : Ctx), x.act ≠ 0 →
    let kind := b.mod.toNat % 4
    let scope := b.mod.toNat / 4 % 8
    let wide := if scope = 7 then 5 else scope
    let rel : State := if kind = 1 then s.taken else s.taken.fenceRel x wide
    let acq : State := if kind = 0 then rel else rel.fenceAcq x wide
    (Ready (.drain h b) s x → x.w.cntStore = 0 → Machine.exec (.drain h b) s =
      .next (((if b.imm.getLsbD 15 then s.taken else s.taken.arriveActive x b.imm.toNat).closeWin x).completed x)) ∧
    (Ready (.drain h b) s x → x.w.cntStore ≠ 0 → Machine.exec (.drain h b) s = .next (s.taken.waitIn x x.entry .drain)) ∧
    (Ready (.fence h b) s x → x.w.fenceReady x.entry kind scope = true → (scope = 7 → x.w.owed.find? x.entry ≠ none ∨ x.w.wrote = []) →
      Machine.exec (.fence h b) s = .next ((acq.modWarp x.core x.slot fun w => { w with owed := w.owed.erase x.entry }).completed x)) ∧
    (Ready (.fence h b) s x → x.w.fenceReady x.entry kind scope = true → scope = 7 → x.w.owed.find? x.entry = none → x.w.wrote ≠ [] →
      Machine.exec (.fence h b) s = .next ((s.taken.modWarp x.core x.slot fun w => { w with owed := w.owed.put x.entry w.wrote }).waitIn x x.entry .fence)) ∧
    (Ready (.fence h b) s x → x.w.fenceReady x.entry kind scope = false → Machine.exec (.fence h b) s = .next (s.taken.waitIn x x.entry .fence)) ∧
    (Ready (.owait h b) s x → x.w.counter kind ≤ b.imm.toNat → Machine.exec (.owait h b) s =
      .next ((((s.taken.raiseFloor x.core x.slot s.homeClk).acquireL1 x.core s.vclock).closeWin x).completed x)) ∧
    (Ready (.owait h b) s x → b.imm.toNat < x.w.counter kind → Machine.exec (.owait h b) s = .next (s.taken.waitIn x x.entry .owait)) ∧
    (Ready (.gwait h v) s x → ((s.team? x.team).map (·.children)).getD 0 = 0 → Machine.exec (.gwait h v) s =
      .next ((((s.taken.raiseFloor x.core x.slot s.homeClk).acquireL1 x.core s.vclock).closeWin x).completed x)) ∧
    (Ready (.gwait h v) s x → ((s.team? x.team).map (·.children)).getD 0 ≠ 0 → Machine.exec (.gwait h v) s = .next (s.taken.waitIn x x.entry .gwait))

/-- R221, R222: `cwait` and `cyield` that read a counter at or above their target write its error word, as an acquire, and go on: at the
next slot, or at the continuation PC. One that reads less waits, and a reread evaluates it again; so does one whose home read something holds back. -/
def Sys2Proof.Claims.CounterWaits : Prop :=
  ∀ (s s1 : State) (h : Hdr) (b : VBody) (x : Ctx) (p : Phys), x.act ≠ 0 →
    let r := s1.counterBytes p
    let s2 : State := if p.host ∨ s1.isHostBias p.pa = true then s1 else if p.sync = true then s1.bringSync x.vf p.pa 16 else s1.migrateRun p.pa 16
    let got := (wordsOf p.named 16).foldl (fun l w => joinRel l (s1.relOf w.1 w.2)) []
    let s3 : State := ((s2.acquire x.core x.slot h.fs.toNat got).writeBack x.core x.slot [putS b.d r.2]).closeWin x
    (Ready (.cwait h b) s x → x.counterRead s.taken (x.scal b.a) none = (.ok p, s1) →
      Machine.exec (.cwait h b) s = .next (if s1.counterBusy x.core x.vf p then s1.waitIn x x.entry .cwait
        else if r.1 < (x.scal b.b).toNat then s2.waitIn x x.entry .cwait else s3.completed x)) ∧
    (Ready (.cyield h b) s x → x.counterRead s.taken (x.scal b.a) (some (cyieldTarget x.pc b.mod)) = (.ok p, s1) →
      Machine.exec (.cyield h b) s = .next (if s1.counterBusy x.core x.vf p then s1.waitIn x x.entry .cyield
        else if r.1 < (x.scal b.b).toNat then s2.waitIn x x.entry .cyield
        else ((s3.fallThrough x).modWarp x.core x.slot fun w => w.modEntry x.entry fun e =>
          { e with pc := cyieldTarget x.pc b.mod, seqd := false }).settleWarp x.core x.slot))

/-- R223: a `glaunch` with room in the pool for every launch completes with the launches of its threads made in order; one whose core has
writes still on their way, or whose record something holds back, stalls. -/
def Sys2Proof.Claims.ChildLaunch : Prop :=
  ∀ (s s1 : State) (h : Hdr) (b : VBody) (x : Ctx) (l : List (Nat × Parts)), Ready (.glaunch h b) s x → x.act ≠ 0 → (∀ n, x.e.wait ≠ .launch n) →
    ((s.gridOfTeam x.team).map (·.depth)).getD 0 < 10 →
    checkLanes s.taken x.threads (fun _ s => if (x.scal b.a).toNat % 64 ≠ 0 then (.error causeAlign, s)
      else s.resolveParts x.core x.gctx (partsOf (x.scal b.a).toNat 256 257) .read) (fun _ => x.scal b.a) = (.ok l, s1) →
    let r := s1.launchAll x (x.threads.map fun _ => x.scal b.a)
    let held := s1.coreOwes x.core || s1.engineWaits 0 x.gctx (x.scal b.a) 256 .read || s1.engineWaits 0 x.gctx (x.scal b.a + 0x1C) 1 .write
    (held = true → Machine.exec (.glaunch h b) s = .next s1) ∧
    (held = false → r.2 = [] → Machine.exec (.glaunch h b) s = .next (r.1.completed x)) ∧
    (held = false → r.2 ≠ [] → Machine.exec (.glaunch h b) s = .next (r.1.waitIn x x.entry (.launch (x.threads.length - r.2.length))))
/-! ## Memory instructions -/

/-- R271 to R274, R192: loads whose lanes all pass are issued and complete, their destination interlocked until the reply. A lane that
fails traps the lowest cause with the lanes that have it, before any effect. -/
def Obligations.LoadsIssue : Prop :=
  ∀ (s s1 : State) (h : Hdr) (b : MBody) (x : Ctx) (l : List (Nat × Parts)) (f : FaultInfo), x.act ≠ 0 →
    let n := memBytes b
    let issued (acq : Nat) (vaOf : Nat → DWord) : State := ((s1.bringLanes x.vf l).issueLoad x b.d (memSize b) (x.f.hdr.fs.getLsbD 0) acq
      (lanesAtomic l) (l.map memLane) (l.map fun y => (vaOf y.1).toNat)).completed x
    let G (va : Nat → DWord) (al : Bool) : Except FaultInfo (List (Nat × Parts)) × State :=
      checkLanes s.taken x.threads (fun t s => x.globalLane (va t) n .read al s) va
    let P : Except FaultInfo (List (Nat × Parts)) × State := checkLanes s.taken x.threads (fun t s => x.privateLane (x.ea b t) n t .read s) fun _ => 0
    (Ready (.ld h b) s x → x.w.inTx x.act = 0 → G (x.ea b) false = (.ok l, s1) →
      Machine.exec (.ld h b) s = .next (issued (if ctlKind b = 1 then ctlScope b else 0) (x.ea b))) ∧
    (Ready (.ldp h b) s x → G (x.patternEa b) false = (.ok l, s1) → Machine.exec (.ldp h b) s = .next (issued 0 (x.patternEa b))) ∧
    (Ready (.ldc h b) s x → G (x.ea b) false = (.ok l, s1) → Machine.exec (.ldc h b) s = .next (issued 0 (x.ea b))) ∧
    (Ready (.ldl h b) s x → P = (.ok l, s1) → Machine.exec (.ldl h b) s = .next (issued 0 fun _ => 0)) ∧
    (Ready (.ld h b) s x → x.w.inTx x.act = 0 → G (x.ea b) false = (.error f, s1) → Machine.exec (.ld h b) s = .next (s.taken.trapAt x f)) ∧
    (Ready (.ldp h b) s x → G (x.patternEa b) false = (.error f, s1) → Machine.exec (.ldp h b) s = .next (s.taken.trapAt x f)) ∧
    (Ready (.ldc h b) s x → G (x.ea b) false = (.error f, s1) → Machine.exec (.ldc h b) s = .next (s.taken.trapAt x f)) ∧
    (Ready (.ldl h b) s x → P = (.error f, s1) → Machine.exec (.ldl h b) s = .next (s.taken.trapAt x f))

/-- R272: stores whose lanes all pass and whose counter has room are issued and complete; the highest-numbered thread keeps a byte that
several write, and one request leaves for each run of bytes that a lane keeps (assumption 102). A release past the core first waits for the store
counter. Stores for which L1 has no room stall, and so do those to bytes that a load of the core has still to take; with no load and no store of the
core in flight they never do (assumption 87). -/
def Obligations.StoresIssue : Prop :=
  ∀ (s s1 s2 : State) (h : Hdr) (b : MBody) (x : Ctx) (l : List (Nat × Parts)) (c : Context), x.act ≠ 0 → l ≠ [] →
    let n := memBytes b
    let runs (va : Nat → DWord) : List StoreRun := storeRuns va (x.groupBytes b.d n) l
    let issued (va : Nat → DWord) (scope : Nat) : Option State := (s1.bringLanes x.vf l).issueStores x (memSpace b == 0)
      ⟨h.hint.toNat, memSpace b == 3⟩ (runs va) fun t => s1.releaseInfo x.core x.slot t scope
    let G (va : Nat → DWord) (al : Bool) : Except FaultInfo (List (Nat × Parts)) × State :=
      checkLanes s.taken x.threads (fun t s => x.globalLane (va t) n .write al s) va
    let room (va : Nat → DWord) : Prop := x.w.cntStore + (runs va).length ≤ 1023
    let scope := if ctlKind b = 2 then ctlScope b else 0
    let pva (t : Nat) : DWord := BitVec.ofNat 64 (x.privateVa c t (x.ea b t).toNat)
    let S (i : Instr) (va : Nat → DWord) (scope : Nat) : Prop :=
      (room va → issued va scope = some s2 → Machine.exec i s = .next ((s2.noteRelease x.core x.slot scope).completed x)) ∧
      (¬room va → Machine.exec i s = .next s.taken) ∧ (issued va scope = none → Machine.exec i s = .next s.taken)
    (Ready (.st h b) s x → x.w.inTx x.act = 0 → G (x.ea b) false = (.ok l, s1) → (3 ≤ scope → x.w.cntStore = 0) → S (.st h b) (x.ea b) scope) ∧
    (Ready (.st h b) s x → x.w.inTx x.act = 0 → G (x.ea b) false = (.ok l, s1) → 3 ≤ scope → x.w.cntStore ≠ 0 →
      Machine.exec (.st h b) s = .next (s.taken.waitIn x x.entry .fence)) ∧
    (Ready (.stp h b) s x → G (x.patternEa b) false = (.ok l, s1) → S (.stp h b) (x.patternEa b) 0) ∧
    (Ready (.stl h b) s x → s.ctx? x.gctx = some c → checkLanes s.taken x.threads (fun t s => x.privateLane (x.ea b t) n t .write s) (fun _ => 0) = (.ok l, s1) →
      S (.stl h b) pva 0) ∧
    ((∀ y ∈ s1.stores, y.2.core ≠ x.core) → (∀ y ∈ s1.loads, y.2.core ≠ x.core) → ∀ va scope, (issued va scope).isSome = true)

/-- R282: inside a transaction a plain `ld` or `st` of a thread reads and writes its own sets; a lane that cannot aborts its thread alone. While
writes of the core to its words are on their way the instruction stalls. -/
def Sys2Proof.Claims.TransactionalAccess : Prop :=
  ∀ (s s1 : State) (h : Hdr) (b : MBody) (x : Ctx) (l : List (Nat × Parts)),
    let n := memBytes b
    let ts := x.txSplit
    let reads := x.txLanes s1 (x.ea b) n ts.2 fun _ => none
    let writes := x.txLanes s1 (x.ea b) n ts.2 fun t => some (x.groupBytes b.d n t)
    let own : List LoadLane := reads.1.filterMap fun y => match y.2 with
      | .ok _ bytes => some ⟨y.1, [], some bytes⟩
      | _ => none
    let all := l.map memLane ++ own
    (Ready (.ld h b) s x → checkLanes s.taken ts.1 (fun t s => x.globalLane (x.ea b t) n .read false s) (x.ea b) = (.ok l, s1) →
      (x.txBusy s1 (x.ea b) n ts.2 = true → Machine.exec (.ld h b) s = .next s1) ∧
      (x.txBusy s1 (x.ea b) n ts.2 = false → txFault reads.1 (x.ea b) = none → Machine.exec (.ld h b) s = .next (finish x s.taken (txFinish x
        ((reads.2.bringLanes x.vf l).issueLoad x b.d (memSize b) (h.fs.getLsbD 0) (if ctlKind b = 1 then ctlScope b else 0) (lanesAtomic l) all
          (all.map fun y => (x.ea b y.thread).toNat)) reads.1)))) ∧
    (∀ s2, Ready (.st h b) s x → checkLanes s.taken ts.1 (fun t s => x.globalLane (x.ea b t) n .write false s) (x.ea b) = (.ok l, s1) → ctlKind b ≠ 2 →
      (x.txBusy s1 (x.ea b) n ts.2 = true → Machine.exec (.st h b) s = .next s1) ∧
      (x.txBusy s1 (x.ea b) n ts.2 = false → storeLanes x writes.2 b l (x.ea b) 0 = some s2 →
        Machine.exec (.st h b) s = .next (finish x s.taken (txFinish x s2 writes.1))))

/-- R272, R274, R93: comb loads and stores inside the allocation, and stores outside sealed cells, complete at once in the hive's comb; the
highest-numbered thread keeps a byte that several store. In a replay quantum the stores are held for its boundary and a thread reads its own held
ones and otherwise what the quantum began with (R414). -/
def Sys2Proof.Claims.CombAccess : Prop :=
  ∀ (s s1 : State) (h : Hdr) (b : MBody) (x : Ctx) (l : List (Nat × Parts)) (t : Team), s.team? x.team = some t →
    let n := memBytes b
    let off (k : Nat) : Nat := (x.ea b k).toNat
    let C (w : Bool) : Except FaultInfo (List (Nat × Parts)) × State := checkLanes s.taken x.threads (fun k s => x.combLane t (x.ea b k) n w s) fun _ => 0
    let r : List LoadLane × Bool × State := l.foldl (fun (acc : List LoadLane × Bool × State) y =>
      let v := x.ldsBytes acc.2.2 t.cells (off y.1) n y.1
      (acc.1 ++ [⟨y.1, [], some v.1⟩], acc.2.1 || v.2.1, v.2.2)) ([], false, s1)
    (Ready (.lds h b) s x → C false = (.ok l, s1) → r.2.1 = false → Machine.exec (.lds h b) s =
      .next ((r.2.2.issueLoad x b.d (memSize b) (h.fs.getLsbD 0) 0 false r.1 (r.1.map fun _ => 0)).completed x)) ∧
    (Ready (.sts h b) s x → C true = (.ok l, s1) → Machine.exec (.sts h b) s = .next ((s1.each l fun s y =>
      s.each (wordsOf (off y.1) n) fun s w => match combIndex t.cells (4 * w.1) with
        | some wi => x.combStore s s1.nextId y.1 wi (wordFrom (off y.1) w.1 (x.groupBytes b.d n y.1)) (combKept off n (l.map (·.1)) y.1 w)
        | none => s).completed x)) ∧
    (∀ (u : State) (o k : Nat), u.replays x.vf = false → x.ldsBytes u t.cells o n k = u.combRead x.vf (hiveOfCore x.core) t.cells o n) ∧
    (∀ (u : State) (op k wi : Nat) (d : Word) (m : BitVec 4), u.replays x.vf = false → m ≠ 0 →
      x.combStore u op k wi d m = u.combWrite x.vf (hiveOfCore x.core) wi d m ⟨0, x.core, none, x.pc⟩) ∧
    ∀ (ts : List Nat) (k j : Nat) (w : Nat × BitVec 4), j < 4 → (combKept off n ts k w).getLsbD j =
      (w.2.getLsbD j && !ts.any fun z => decide (k < z) && decide (off z ≤ 4 * w.1 + j) && decide (4 * w.1 + j < off z + n))

/-- R276, R277: a prefetch never traps, and no warp's registers change; it completes unless a page is being flipped, for which it may wait (R98). `wbr` waits for its core's stores and then for the words it
finds not to be in DRAM, migrated ones among them (assumption 81), and returns at once where there is nothing of either; `invr` drops the clean words of its range from the core's L1. -/
def Sys2Proof.Claims.CacheMembers : Prop :=
  ∀ (s : State) (h : Hdr) (b : MBody) (x : Ctx),
    let r := x.range b
    let owed := if x.e.wait = .wbr then x.w.owed.find? x.entry else none
    let l := s.taken.owedInRange x.core x.gctx r.1 r.2
    let ready := s.taken.wbrReady x.core x.gctx r.1 r.2 owed
    let note (f : Tab (List (Nat × Nat)) → Tab (List (Nat × Nat))) : State := s.taken.modWarp x.core x.slot fun w => { w with owed := f w.owed }
    let again := match owed with
      | some o => note fun y => y.put x.entry o
      | none => note fun y => y.erase x.entry
    let bare (t : Tab Warp) : Tab Warp := t.mapVals fun w => { w with wrote := [], owed := [] }
    let prefetched : Prop := ∃ t : State, Machine.exec (.pf h b) s = .next (t.completed x) ∧ (s.memOk = true → t.memOk = true) ∧ bare t.warps = bare s.warps
    (Ready (.pf h b) s x → s.flips = [] → prefetched) ∧ (Ready (.pf h b) s x → prefetched ∨ Machine.exec (.pf h b) s = .next s.taken) ∧
    (Ready (.wbr h b) s x → x.act ≠ 0 →
      (ready = true → owed ≠ none ∨ l = [] → Machine.exec (.wbr h b) s = .next ((note fun y => y.erase x.entry).completed x)) ∧
      (ready = true → owed = none → l ≠ [] → Machine.exec (.wbr h b) s = .next ((note fun y => y.put x.entry l).waitIn x x.entry .wbr)) ∧
      (ready = false → Machine.exec (.wbr h b) s = .next (again.waitIn x x.entry .wbr))) ∧
    (Ready (.invr h b) s x → x.act ≠ 0 → Machine.exec (.invr h b) s = .next ((s.taken.modCore x.core fun c => c.dropClean fun wa =>
      (s.taken.wordsInRange x.core x.gctx r.1 r.2 ((s.core x.core).l1.map (·.1))).contains wa).completed x)) ∧
    (Ready (.wbr h b) s x → x.act = 0 → Machine.exec (.wbr h b) s = .next (s.taken.completed x)) ∧
    (Ready (.invr h b) s x → x.act = 0 → Machine.exec (.invr h b) s = .next (s.taken.completed x))

/-- R93, R274, R276, R277: comb accesses and cache maintenance. -/
def Obligations.CombAndCaches : Prop := Sys2Proof.Claims.CombAccess ∧ Sys2Proof.Claims.CacheMembers

/-- R278 to R280: atomics whose lanes pass and whose counter has room leave for their engine and complete; one that releases first waits
for the store counter, and one without room, or whose bytes a load of the core has still to take, stalls. -/
def Sys2Proof.Claims.AtomicsIssue : Prop :=
  ∀ (s s1 : State) (h : Hdr) (b : MBody) (x : Ctx) (l : List (Nat × Parts)), x.act ≠ 0 →
    checkLanes s.taken x.threads (fun t s => x.globalLane (x.ea b t) (memBytes b) .atomic true s) (x.ea b) = (.ok l, s1) →
    let rel := decide (2 ≤ ctlKind b) && decide (3 ≤ ctlScope b)
    let room : Prop := x.w.cntStore + l.length ≤ 1023 ∧ ∀ y ∈ l, ∀ p ∈ y.2, s.taken.loadsMeet x.core p.1.pa (memBytes b) = false
    let group (d : BitVec 8) (t : Nat) : BitVec 128 := BitVec.ofNat 128 (ofBytes (x.groupBytes d (memBytes b) t))
    let lanes (second : Nat) : List AtomLane := l.filterMap fun y => (y.2.head?).map fun p =>
      if second = 0 then ⟨y.1, p.1, x.ea b y.1, group b.d y.1, 0⟩
      else ⟨y.1, p.1, x.ea b y.1, group (b.d + BitVec.ofNat 8 second) y.1, group b.d y.1⟩
    let A (i : Instr) (op : Nat) (c16 : Bool) (dst : Option Nat) (second : Nat) : Prop := Ready i s x →
      ((rel = true → x.w.cntStore = 0) → room → Machine.exec i s = .next (((s1.bringLanes x.vf l).issueAtomics x b op c16 dst (lanes second)).completed x)) ∧
      ((rel = true → x.w.cntStore = 0) → ¬room → Machine.exec i s = .next s.taken) ∧
      (rel = true → x.w.cntStore ≠ 0 → Machine.exec i s = .next (s.taken.waitIn x x.entry .fence))
    A (.atom h b) h.fs.toNat false (some b.d.toNat) (if h.fs = 7 then (if 0xC0 ≤ b.d.toNat then 1 else atomW b) else 0) ∧
    A (.ared h b) h.fs.toNat false none 0 ∧
    A (.cas16 h b) 7 true (some b.d.toNat) (if 0xC0 ≤ b.d.toNat then 2 else 4)

/-- R281, R283, R284, R286: `txbeg` of threads without an open transaction and with fewer than 8 aborts opens one for each and clears its
predicate; with a thread at 8 aborts it asks for the solo grant and waits, or, holding it, opens its solo attempt; where Active threads have a
transaction open it aborts theirs and runs for the others. `txend` first waits for the store counter; then each survivor of rule 1 leaves for its
homes under one number and counts in the store counter, the others have lost with REASON 1, and it waits; the lost leave for their handlers.
`txabt` aborts the open ones with REASON 5. -/
def Sys2Proof.Claims.TransactionMembers : Prop :=
  ∀ (s : State) (h : Hdr) (j : JBody) (b : VBody) (x : Ctx),
    let checks : Prop := x.act ≠ 0 ∧ s.taken.targetCause x.core x.gctx x.vf (jTarget x.pc j) = none ∧ pcShapeOk (jRecon x.pc j) = true
    let opened (solo : Option Nat) : State := (s.taken.openTx x (jTarget x.pc j) (jRecon x.pc j) solo).writeBack x.core x.slot
      ((threadsOf x.act).map fun t => putP (h.fs.setWidth 8) t (solo == some t))
    let at8 := (threadsOf x.act).find? fun t => decide (8 ≤ x.w.aborts t)
    let live := x.txCommitting.filter fun y => y.2.lost == 0
    (Ready (.txbeg h j) s x → checks → x.w.inTx x.act = 0 → (∀ t ∈ threadsOf x.act, x.w.aborts t < 8) →
      Machine.exec (.txbeg h j) s = .next ((opened none).completed x)) ∧
    (∀ t, Ready (.txbeg h j) s x → checks → x.w.inTx x.act = 0 → at8 = some t → s.holdsSolo x t = false →
      Machine.exec (.txbeg h j) s = .next ((s.taken.askSolo x t).waitIn x x.entry .solo)) ∧
    (∀ t, Ready (.txbeg h j) s x → checks → x.w.inTx x.act = 0 → at8 = some t → s.holdsSolo x t = true →
      Machine.exec (.txbeg h j) s = .next (((opened (some t)).log x.vf causeSolo 0 false 0 x.core x.pc).completed x)) ∧
    (Ready (.txbeg h j) s x → checks → x.w.inTx x.act ≠ 0 →
      Machine.exec (.txbeg h j) s = .next (runAborting x s.taken (x.w.inTx x.act) (txOpenEff h j))) ∧
    (Ready (.txend h b) s x → x.txCommitting = [] → Machine.exec (.txend h b) s = .next (s.taken.completed x)) ∧
    (Ready (.txend h b) s x → live ≠ [] → x.e.wait ≠ .txend → x.w.cntStore ≠ 0 →
      Machine.exec (.txend h b) s = .next (s.taken.waitIn x x.entry .fence)) ∧
    (Ready (.txend h b) s x → live ≠ [] → x.e.wait ≠ .txend → x.w.cntStore = 0 → Machine.exec (.txend h b) s =
      .next ((s.taken.fresh.2.modWarp x.core x.slot fun w => live.foldl (fun (w : Warp) y =>
        if ((txSurvivors live).map (·.1)).contains y.1 then
          { w with tx := w.tx.modify y.1 fun z => { z with commit := some s.nextId }, cntStore := w.cntStore + 1 }
        else w.loseTx y.1 1) w).waitIn x x.entry .txend)) ∧
    (Ready (.txend h b) s x → x.txCommitting ≠ [] → x.e.wait = .txend ∨ live = [] →
      let m := maskOf (x.txCommitting.map (·.1))
      Machine.exec (.txend h b) s = .next (finish x s.taken (.jump (s.taken.modWarp x.core x.slot fun w => { w with tx := w.tx.filter fun t => !m.getLsbD t.1 })
        (fun t => if m.getLsbD t then x.w.abortPc t x.next else x.next) 0 (x.w.abortRecon m) true))) ∧
    (Ready (.txabt h b) s x → x.w.inTx x.act = 0 → Machine.exec (.txabt h b) s = .next (s.taken.completed x)) ∧
    (Ready (.txabt h b) s x → x.w.inTx x.act ≠ 0 →
      let m := x.w.inTx x.act
      Machine.exec (.txabt h b) s = .next (finish x s.taken (.jump (s.taken.abortTx x.core x.slot m 5)
        (fun t => if m.getLsbD t then x.w.abortPc t x.next else x.next) 0 (x.w.abortRecon m) true)))

/-! ## Events of the memory system -/

/-- R87, R91, R124: a store leaves its L1 with the pending stores of its warp to its sector, is applied at its home with its byte mask, and its
acknowledgement clears L1's dirty bits, lowers the warp's store counter and ends it. -/
def Sys2Proof.Claims.StoreJourney : Prop :=
  ∀ (s s1 : State) (id copy : Nat) (y : Store), s.stores.find? id = some y →
    let l := s.merged id y
    let as := (l.flatMap fun z => z.2.places.flatMap fun a => bytesAt a z.2.bytes.length).dedup
    (y.st = .pending → y.replay = false → s.through y.vf id (s.traffic y.vf y.core true as) = .ok s1 →
      Machine.exec (.storeSend id) s = .next { s1 with
        stores := s1.stores.map fun z => if (l.find? z.1).isSome then (z.1, { z.2 with st := .sent }) else z }) ∧
    (y.st = .sent → y.pa < hostTag → y.copies = [] → s.storeWaits id y = false → s.applyStore y y.pa = some s1 →
      Machine.exec (.homeStore id copy) s = .next (s1.storeDone id y) ∧
        (s1.storeDone id y).stores.find? id = some { y with st := .homed s1.vclock, copies := [] }) ∧
    (y.st = .sent → hostTag ≤ y.pa → s.storeWaits id y = false → Machine.exec (.homeStore id copy) s = .next ((s.hostStore y).storeDone id y)) ∧
    (y.st = .sent → s.storeWaits id y = true → Machine.exec (.homeStore id copy) s = .next s) ∧
    (∀ stamp, y.st = .homed stamp → y.pa < hostTag → y.slot < 32 →
      Machine.exec (.storeAck id) s = .next ((({ s with stores := s.stores.erase id } : State).ackL1 y stamp).ackWarp y.core y.slot stamp))

/-- R271: a load that is served is written back, every lane's bytes to its thread's group, and is no longer in flight; one that still waits
stays. -/
def Sys2Proof.Claims.LoadReplies : Prop :=
  ∀ (s s1 : State) (id : Nat) (l : Load) (out : List (Nat × List Byte)) (ev : List Nat), s.loads.find? id = some l → l.gred = none →
    (s.serveLoad id l = .data s1 out →
      Machine.exec (.loadReply id ev) s = .next ((({ s1 with loads := s1.loads.erase id } : State).writeBack l.core l.slot
        (out.flatMap fun y => groupWrites l.dst l.size l.sgn y.1 y.2)).modCore l.core fun c => c.replace ev)) ∧
    (s.serveLoad id l = .wait s1 → Machine.exec (.loadReply id ev) s = .next s1)

/-- R87, R91, R124, R271: how stores and loads end. -/
def Obligations.AccessesComplete : Prop := Sys2Proof.Claims.StoreJourney ∧ Sys2Proof.Claims.LoadReplies

/-- R278, R280, R287: an atomic that nothing holds back, the words of its instruction's lanes all there (assumption 104), which stay in their
engines until each lane has executed, reads its word, writes the operation's result
in one step, and keeps the old value for its reply; the reply writes the old value and lowers the store counter. A `cas16` that does not match
writes nothing. -/
def Sys2Proof.Claims.AtomicStep : Prop :=
  ∀ (s s1 : State) (id : Nat) (a : Atomic), s.atomics.find? id = some a → a.slot < 32 →
    let n := 2 ^ a.size
    let ws := wordsOf a.pa n
    let s0 := if a.begun = true then s else s.each (s.groupLanes a) fun s y => s.each y.words fun s w => if s.needsDram w then s else s.touch y.vf w
    let s2 := ((s1.each (s.groupLanes a) fun s y => s.migrateRun y.pa (2 ^ y.size)).beginGroup a).migrateRun a.pa n
    let m : BitVec 128 := BitVec.ofNat 128 (ofBytes ((List.range n).map fun i => (s2.homeWord ((a.pa + i) / 4)).1.extractLsb' (8 * ((a.pa + i) % 4)) 8))
    let v := if a.cas16 then a.x else atomOp a.op a.ty m a.x a.cmp
    let s3 := if a.cas16 = true ∧ m ≠ a.cmp then s2 else ((s2.each ws fun s w => s.homeWriteLogged a.vf w.1 (wordFrom a.pa w.1 (toBytes n v.toNat)) w.2
      (s2.relNow a.core ws.length a.rel) true ⟨6, homeDie a.pa, some a.va, 0⟩).pastL1 a.core (ws.map (·.1))).wroteWords a.core a.slot (ws.map (·.1))
    (a.old = none → s.atomicBlocked id a = false → s0.groupReady (s.groupLanes a) = .ready → s0.through a.vf id (s0.atomicTraffic a) = .ok s1 →
      Machine.exec (.atomicExecute id) s = .next { s3 with atomics := s3.atomics.put id { a with
        old := some m, stamp := s3.vclock, got := ws.foldl (fun l w => joinRel l (s2.relOf w.1 w.2)) [] } }) ∧
    (a.old = none → s.atomicBlocked id a = true → Machine.exec (.atomicExecute id) s = .next s) ∧
    (∀ old, a.old = some old →
      let t := ((({ s with atomics := s.atomics.erase id } : State).ackWarp a.core a.slot a.stamp).writeBack a.core a.slot (a.writes old)).gotInfo
        a.core a.slot a.got
      Machine.exec (.atomicReply id) s = .next (if a.kind = 1 ∨ a.kind = 3 then t.acquire a.core a.slot a.scope a.got else t))

/-- R278 to R280: atomics at issue and at their engine. -/
def Obligations.Atomics : Prop := Sys2Proof.Claims.AtomicsIssue ∧ Sys2Proof.Claims.AtomicStep

/-- R283, R286: a commit whose homes answer is validated as one event; the solo grant passes to the first that waits, whose `txbeg` then
runs and opens its solo attempt; a solo attempt that holds the grant for 2^20 ticks aborts with REASON 8. -/
def Sys2Proof.Claims.TransactionEvents : Prop :=
  ∀ (s s0 s1 : State) (core slot th vf id : Nat) (w : Warp) (t : Tx) (p : Partition),
    (s.warp? core slot = some w → w.tx.find? th = some t → t.commit = some id → s.commitBlocked core id t = false →
      s.through (s.vfOfTeam w.team) id (s.traffic (s.vfOfTeam w.team) core true (t.writes.flatMap fun r => bytesAt (4 * r.addr) 4)) = .ok s0 →
      s0.commitTx core slot th = some s1 → Machine.exec (.txValidate core slot th) s = .next s1) ∧
    (∀ e word h j, s.part? vf = some p → p.soloHolder = none → p.replay = false → p.soloWait.head? = some (core, slot, th) →
      s.warp? core slot = some w → w.entryOf th = some e → (w.entry e).st = .run → s.warpLive core slot = true → w.stopWord.find? e = some word →
      decodeStream word = some (.txbeg h j) →
      let g : State := { (s.modPart vf fun p => { p with
        soloHolder := some (core, slot, th), soloSince := s.vclock.toNat, soloWait := p.soloWait.drop 1 }) with
          cur := .frag core slot e (w.entry e).pc word (match (w.entry e).paired with | some n => .second n | none => .alone) 0 }
      Machine.exec (.soloGrant vf) s = Machine.exec (.txbeg h j) g ∧
      ∀ x, Ready (.txbeg h j) g x → x.vf = vf → x.act ≠ 0 → x.w.inTx x.act = 0 → g.taken.targetCause x.core x.gctx x.vf (jTarget x.pc j) = none →
        pcShapeOk (jRecon x.pc j) = true → (threadsOf x.act).find? (fun t => decide (8 ≤ x.w.aborts t)) = some th → Machine.exec (.soloGrant vf) s =
          .next ((((g.taken.openTx x (jTarget x.pc j) (jRecon x.pc j) (some th)).writeBack x.core x.slot
            ((threadsOf x.act).map fun t => putP (h.fs.setWidth 8) t (some th == some t))).log x.vf causeSolo 0 false 0 x.core x.pc).completed x)) ∧
    (s.part? vf = some p → p.soloHolder = some (core, slot, th) → p.soloSince + 2 ^ 20 ≤ s.vclock.toNat → s.warp? core slot = some w →
      w.tx.find? th = some t → t.commit = none → t.lost = 0 → Machine.exec (.soloTimeout vf) s = .next (s.abortInPlace core slot (maskOf [th]) 8))

/-- R281 to R286: transactions. -/
def Obligations.Transactions : Prop := Sys2Proof.Claims.TransactionMembers ∧ Sys2Proof.Claims.TransactionalAccess ∧ Sys2Proof.Claims.TransactionEvents

/-- R77, R78, R115, R431, Table 4.3: an activate in an ordinary interval, tRP after the bank's precharge, opens the oldest request's row if the
row check passes and answers the request with an error otherwise, which its access reports or else the hearth logs; an ordinary row closes where its
oldest request needs another row or none needs it, no sooner than tRAS after its activate. -/
def Sys2Proof.Claims.DramRows : Prop :=
  ∀ (s : State) (stack ch sl bank : Nat) (r : WordReq) (rest : List WordReq) (o : OpenRow),
    let ix := sliceBank stack ch sl bank
    let wanted : Prop := (s.bankReqs stack ch sl bank).head?.map (fun r => rowFieldOf (4 * r.word)) = some o.row
    (s.bankReqs stack ch sl bank = r :: rest → s.openRows.find? ix = none → (s.hearth stack).compute = false →
      (s.prechargeAt.find? ix).getD 0 + 34 ≤ s.dclk →
      (s.rowOk r.vf (4 * r.word) r.write r.near = true → Machine.exec (.dramActivate stack ch sl bank) s =
        .next { s with openRows := s.openRows.put ix ⟨rowFieldOf (4 * r.word), s.dclk, false⟩ }) ∧
      (s.rowOk r.vf (4 * r.word) r.write r.near = false → Machine.exec (.dramActivate stack ch sl bank) s =
        let u : State := { s with wordQ := s.wordQ.modify (stack * 32 + ch) fun q => q.erase r }
        .next (if r.write = false ∧ s.reportsRead r.word = true then u else u.logPhys r.vf causeRowDenied (4 * r.word) none 4 stack 0))) ∧
    (s.openRows.find? ix = some o → o.stove = false → o.at_ + 80 ≤ s.dclk → ¬wanted → Machine.exec (.dramPrecharge stack ch sl bank) s =
      .next { s with openRows := s.openRows.erase ix, prechargeAt := s.prechargeAt.put ix s.dclk }) ∧
    (s.openRows.find? ix = some o → s.dclk < o.at_ + 80 ∨ wanted ∨ o.stove = true → Machine.exec (.dramPrecharge stack ch sl bank) s = .next s)

/-- R77, R84, R91, R94, R100: a burst takes the ready requests of its channel that their buckets let pass; a dirty frame is queued for
write-back, for function 0 (assumption 33), and a clean one leaves its slice; an engine's migrated word returns to its slice, dirty, and one of a SYNC
page to the overflow area, which is the word's own place in DRAM (assumption 88); a page walk fills the TLBs. -/
def Sys2Proof.Claims.MemoryEngines : Prop :=
  ∀ (s : State) (stack ch frame word core ctx : Nat) (va : DWord) (z : SyncWord) (t : Trans),
    let k := stack * 32 + ch
    let q := s.queueOf stack ch
    let pick := s.burstPick k q
    let s0 := s.holdReady q
    let r := pick.foldl (fun (acc : State × List WordReq) r => match acc.1.through r.vf r.id [(2, stack, 4)] with
      | .error s => (s, acc.2)
      | .ok s => (s, acc.2 ++ [r])) (s0, [])
    let s1 : State := { r.1 with
      wordQ := r.1.wordQ.modify k fun q => q.filter fun y => !r.2.any fun p => p.id == y.id
      burstAt := s0.burstAt.put k s0.dclk
      burstRun := s0.burstRunAfter k (r.2.any (·.write)) }
    let dirty := (s.l2.filter fun x => x.1 / 64 == frame && x.2.dirty != 0).map (·.1)
    let queued (s : State) (w : Nat) (d : Word) (p : Bool) : State := { s.fresh.2 with
      wordQ := s.wordQ.put (queueIx w) ((s.wordQ.find? (queueIx w)).getD [] ++ [⟨w, 0, true, false, d, p, s.homeClk, s.nextId, 0, []⟩]) }
    (pick ≠ [] → (s.hearth stack).compute = false → (s.burstAt.find? k).getD 0 + 2 ≤ s.dclk → s.stoveFirst k = false →
      Machine.exec (.burst stack ch 0) s =
        .next ((((r.2.map (·.vf)).dedup).foldl (fun (s : State) vf => s.countPerf vf 10) s1).each r.2 fun s r => s.serveReq false r)) ∧
    (s.stoveFirst k = true → Machine.exec (.burst stack ch 0) s = .next s) ∧
    (dirty = [] → Machine.exec (.l2Writeback frame) s =
      .next { s with l2 := s.l2.filter fun x => x.1 / 64 != frame, l2marks := s.l2marks.erase frame }) ∧
    (dirty ≠ [] → Machine.exec (.l2Writeback frame) s = .next (s.each dirty fun s w =>
      let h := s.homeWord w
      let u := queued s w h.1 h.2
      { u with l2 := u.l2.modify w fun x => { x with data := h.1, valid := allBytes, dirty := 0, poison := h.2, err := 0 } })) ∧
    (s.sync.find? word = some z → s.atomicWaits word = false →
      let u : State := { s with sync := s.sync.erase word }
      let bad := z.poison || decide (2 ≤ z.err)
      (z.page = false → Machine.exec (.syncEvict word) s = .next (u.l2Put word ⟨z.data, allBytes, allBytes, bad, 0⟩)) ∧
      (z.page = true → Machine.exec (.syncEvict word) s = .next { queued u word z.data bad with overflow := word :: u.overflow.filter (· ≠ word) })) ∧
    (s.atomicWaits word = true → Machine.exec (.syncEvict word) s = .next s) ∧
    (vaOk va = true → s.walk (dieOfCore core) ctx va = .ok t → Machine.exec (.tlbWalk core ctx va) s =
      .next ((s.walked (dieOfCore core) ctx va).fillTlb core t))

/-- R77, R78, R84, R91, R94, R100, R115: DRAM, L2, the synchronisation engines and page walks. -/
def Obligations.MemoryHomes : Prop := Sys2Proof.Claims.DramRows ∧ Sys2Proof.Claims.MemoryEngines

/-! ## The copy class -/

/-- R105, R309 to R311, R315, R316: a copy-class operation with a record aligned to 64 bytes, a counter aligned to 16, room in the COPY
counter and a channel that takes it in its turn is queued at the channel of its hive, which accepts it in the same opportunity; without room in
the counter it stalls; a misaligned address traps ADDR_ALIGN, the record first. -/
def Sys2Proof.Claims.CopyIssue : Prop :=
  ∀ (s : State) (h : Hdr) (b : VBody) (x : Ctx), x.act ≠ 0 →
    let hv := hiveOfCore x.core
    let ch := b.mod.toNat % 16
    let me := x.producer (copyQueue hv ch)
    let q := (s.hive hv).channel ch
    let e := b.e.toNat - 0xC0
    let v := (x.s e).toNat
    let st := (x.s (e + 1)).toNat
    let new (kind : CopyKind) (n stages pitch : Nat) (step : List Int) (first teams : Nat) : CopyOp := {
      id := s.nextId, kind := kind, core := x.core, slot := x.slot, team := x.team, vf := x.vf, ctx := x.gctx, layrec := x.scal b.a,
      delta := (x.scal b.d).toNat % 2 ^ 32, coord := x.coords b, counter := x.counterIn b.c, loopN := n, stages := stages, pitch := pitch, step := step,
      first := first, nteams := teams, dest := [], layout := none, iter := 0, part := 0, started := false, released := [], delivered := [],
      after := x.w.fenced, data := [], moved := [], stopped := false }
    let queued (op : CopyOp) : State := ((s.taken.unstall me).fresh.2.modHive hv fun y => { y with copy := y.copy.put ch (q ++ [op]) }).modWarp
      x.core x.slot fun w => w.pushOp 0 s.nextId
    let C (i : Instr) (op : CopyOp) : Prop := Ready i s x →
      ((x.scal b.a).toNat % 64 = 0 → (x.scal b.c).toNat % 16 = 0 → x.w.counter 0 < 63 → s.taken.channelTakes x ch (x.scal b.a) = true →
        s.taken.firstAt me = true → Machine.exec i s =
          .next (({ queued op with agenda := .acceptCopy hv ch :: s.taken.agenda } : State).completed x)) ∧
      ((x.scal b.a).toNat % 64 = 0 → (x.scal b.c).toNat % 16 = 0 → 63 ≤ x.w.counter 0 → Machine.exec i s = .next s.taken) ∧
      ((x.scal b.a).toNat % 64 ≠ 0 → Machine.exec i s = .next (s.taken.trapAt x ⟨causeAlign, x.mask, x.scal b.a, none⟩)) ∧
      ((x.scal b.a).toNat % 64 = 0 → (x.scal b.c).toNat % 16 ≠ 0 → Machine.exec i s = .next (s.taken.trapAt x ⟨causeAlign, x.mask, x.scal b.c, none⟩))
    C (.bcopy h b) (new (.bcopy (b.mod.getLsbD 4)) 1 1 0 [0, 0, 0, 0, 0] 0 0) ∧
    C (.bmcast h b) (new .bmcast 1 1 0 [0, 0, 0, 0, 0] ((x.scal b.e).toNat % 2 ^ 32) (bitsOf b.mod.toNat 11 8 + 1)) ∧
    C (.bloop h b) (new .bloop (if st / 2 ^ 60 ≠ 0 then 0 else v % 2 ^ 32) (bitsOf v 35 32) (bitsOf v 63 36)
      ((List.range 5).map fun d => sextNat (st / 2 ^ (12 * d)) 12) 0 0)

/-- R315, R317: `brel` releases a stage of the `bloop` at the head of its channel; `kcoll` leaves its team's next contribution to the group at
its die. -/
def Sys2Proof.Claims.StagesAndGroups : Prop :=
  ∀ (s : State) (h : Hdr) (b : VBody) (x : Ctx) (op : CopyOp) (l : List CopyOp) (t : Team), x.act ≠ 0 →
    let hv := hiveOfCore x.core
    let ch := b.mod.toNat % 16
    let st := bitsOf b.mod.toNat 6 4
    let first := (x.scal b.e).toNat % 2 ^ 32
    let n := (x.scal b.e).toNat / 2 ^ 32
    let die := dieOfCore x.core
    let me := x.producer (collQueue die)
    let q := (s.coll.find? die).getD []
    let seq := ((t.colls.find? fun y => y.1 == first && y.2.1 == n).map (·.2.2)).getD 0
    let c : Contribution := {
      core := x.core, slot := x.slot, team := x.team, vf := x.vf, ctx := x.gctx, grid := t.grid, num := t.num, first := first, n := n, seq := seq,
      op := b.mod.toNat % 4, fn := b.mod.toNat / 4 % 8, count := (x.scal b.d).toNat, src := x.scal b.a, dst := x.scal b.b, counter := x.counterIn b.c,
      after := x.w.fenced, id := s.nextId, pos := 0 }
    (Ready (.brel h b) s x → (s.hive hv).copy.find? ch = some (op :: l) → op.kind = .bloop → op.layout.isSome = true → st < op.stages →
      op.released.contains st = false → Machine.exec (.brel h b) s = .next ((s.taken.modHive hv fun y =>
        { y with copy := y.copy.put ch ({ op with released := st :: op.released } :: l) }).completed x)) ∧
    (Ready (.kcoll h b) s x → s.team? x.team = some t → first ≤ t.num → t.num < first + n → n ≤ 65536 → (x.scal b.a).toNat % 4 = 0 →
      (x.scal b.b).toNat % 4 = 0 → (x.scal b.c).toNat % 16 = 0 → x.w.counter 3 < 63 → (s.taken.collQueued die).length < 64 →
      s.taken.firstAt me = true → Machine.exec (.kcoll h b) s =
        .next (((({ (s.taken.unstall me).fresh.2 with coll := s.coll.put die (q ++ [c]) } : State).modTeam x.team fun t =>
        { t with colls := (first, n, seq + 1) :: t.colls.filter fun y => !(y.1 == first && y.2.1 == n) }).modWarp x.core x.slot fun w =>
          w.pushOp 3 s.nextId).completed x)) ∧
    (Ready (.kcoll h b) s x → s.team? x.team = some t → (t.num < first ∨ first + n ≤ t.num ∨ 65536 < n) →
      Machine.exec (.kcoll h b) s = .next (s.taken.trapAt x (plain causeReserved x.mask)))

/-- R309, R311, R315 to R317: the copy class at issue. -/
def Obligations.CopyClass : Prop := Sys2Proof.Claims.CopyIssue ∧ Sys2Proof.Claims.StagesAndGroups

/-- R121, R310, R312 to R316, R365: the oldest operation of a channel that is not accepted is accepted when its record is read and within its
limits, and stops with an error otherwise; a part of a `bcopy` or a `bloop` moves its elements up to the first error, and one of a `bmcast` is read, in
the turn of its channel; an iteration starts once its stage is released; a finished iteration or operation adds 1 to the counter, once what holds the
counter's update back is over; a multicast writes a team whose allocation still stands, part by part in its channel's turn. -/
def Sys2Proof.Claims.CopyEvents : Prop :=
  ∀ (s s1 : State) (hive ch index : Nat) (op : CopyOp) (rest : List CopyOp) (l : Layout),
    (∀ b, (((s.hive hive).channel ch).find? fun op => op.layout.isNone && !op.stopped) = some op → s.ctxLive op.ctx = true →
      s.owesBefore op.core op.after = false → s.engineWaits (dieOfHive hive) op.ctx op.layrec 128 .read = false →
      s.readVirt (dieOfHive hive) op.ctx op.vf op.layrec 128 .read = (.ok b, s1) →
      (parseLayout b = none → Machine.exec (.copyAccept hive ch) s = .next (s1.stopCopy hive ch op causeReserved op.layrec)) ∧
      (parseLayout b = some l → (op.kind = .bloop → 1 ≤ op.loopN ∧ 1 ≤ op.stages ∧ op.stages ≤ 8) → Machine.exec (.copyAccept hive ch) s =
        .next (s1.setOp hive ch { op with
          layout := some l, started := true, dest := if op.kind == .bmcast then s1.resolveTeams (((s1.team? op.team).map (·.grid)).getD 0) op.first op.nteams else [] }))) ∧
    (s.partReady hive ch = some (op, l) → op.kind ≠ .bmcast → s.nextChannel hive = some ch →
      s.through op.vf op.id (s.partTraffic hive op l) = .ok s1 →
      let r := (s1.modHive hive fun h => { h with copyRot := (ch + 1) % 16 }).movePart hive op l
      Machine.exec (.copyPart hive ch) s = .next (match r.2 with
        | some c => r.1.stopCopy hive ch op c.1 c.2
        | none => r.1.setOp hive ch { op with part := op.part + 1 })) ∧
    (s.partReady hive ch = some (op, l) → op.kind = .bmcast → s.nextChannel hive = some ch →
      s.through op.vf op.id (s.partTraffic hive op l) = .ok s1 →
      let r := (s1.modHive hive fun h => { h with copyRot := (ch + 1) % 16 }).readPart hive op l
      Machine.exec (.copyPart hive ch) s = .next (match r.1 with
        | .error c => r.2.stopCopy hive ch op c.1 c.2
        | .ok vs => (r.2.setOp hive ch { op with part := op.part + 1, data := op.data.put op.part vs }).mcastSent op
            (if op.part + 1 = l.parts then op.remote hive else 0))) ∧
    (s.headOp hive ch = some op → (s.hive hive).channel ch = op :: rest → op.layout = some l → op.started = true → l.parts ≤ op.part →
      op.stopped = false → op.kind ≠ .bmcast → s.counterWaitsOn op.ctx op.vf op.counter = false →
      let s1 := s.counterAddOn op.ctx op.vf op.counter 1 (releaseBy op.core op.slot op.team 5)
      Machine.exec (.copyComplete hive ch) s = .next (if op.kind ≠ .bloop ∨ op.loopN ≤ op.iter + 1
        then (s1.modHive hive fun h => { h with copy := h.copy.put ch rest }).opDone op.core op.slot 0 op.id
        else s1.setOp hive ch { op with started := false, iter := op.iter + 1, part := 0 })) ∧
    (s.headOp hive ch = some op → s.counterWaitsOn op.ctx op.vf op.counter = true → Machine.exec (.copyComplete hive ch) s = .next s) ∧
    (s.headOp hive ch = some op → op.kind = .bloop → op.layout = some l → op.started = false → op.stopped = false → s.ctxLive op.ctx = true →
      (op.iter < op.stages → Machine.exec (.bloopIteration hive ch) s = .next (s.setOp hive ch { op with started := true })) ∧
      (op.stages ≤ op.iter → op.released.contains (op.iter % max 1 op.stages) = true → Machine.exec (.bloopIteration hive ch) s =
        .next (s.setOp hive ch { op with started := true, released := op.released.filter (· ≠ op.iter % max 1 op.stages) }))) ∧
    (∀ h gen t, s.headOp hive ch = some op → op.layout = some l → op.dest[index]? = some (some (h, gen)) → op.delivers l index = true →
      s.ctxLive op.ctx = true → s.holderOf h gen = some t → s.nextChannel hive = some ch →
      s.through op.vf op.id (op.deliveryTraffic l hive h index) = .ok s1 →
      let p := op.nextMove index
      let r := (s1.modHive hive fun h => { h with copyRot := (ch + 1) % 16 }).deliver hive op l h t p
      Machine.exec (.mcastDelivery hive ch index) s = .next (match r.2 with
        | some c => (r.1.stopCopy hive ch op c.1 c.2).mcastAcked op (op.remote hive)
        | none => if p + 1 < l.parts then r.1.setOp hive ch { op with moved := op.moved.put index (p + 1) }
            else (r.1.setOp hive ch { op with delivered := index :: op.delivered }).mcastAcked op (if h = hive then 0 else 1)))

/-- R317, R318: a sequence with a contribution of every member and equal operations within their limits is carried out element by element, up to
an error, and ends for all of them after the last; one whose members disagree, or that has lost a member, ends with an error. What holds the update
of one of its counters back holds it. -/
def Sys2Proof.Claims.CollectiveSequence : Prop :=
  ∀ (s s1 : State) (die : Nat) (c : Contribution) (l : List Contribution), s.collQueued die = c :: l →
    let cs := s.sequence c
    let agree : Prop := 1 ≤ c.count ∧ c.count ≤ 2 ^ 24 ∧ ∀ o ∈ cs, o.count = c.count ∧ o.op = c.op ∧ o.fn = c.fn
    let free : Prop := ∀ o ∈ cs, s.counterWaitsOn o.ctx o.vf o.counter = false
    (¬free → Machine.exec (.kcollSequence die) s = .next s) ∧
    (free → s.abandoned c = true → Machine.exec (.kcollSequence die) s = .next (s.collEnd die cs (some (causeAbandoned, 0)))) ∧
    (free → s.abandoned c = false → cs.length < c.n → Machine.exec (.kcollSequence die) s = .next s) ∧
    (free → s.abandoned c = false → c.n ≤ cs.length → agree →
      (c.count ≤ c.pos → Machine.exec (.kcollSequence die) s = .next (s.collEnd die cs none)) ∧
      (c.pos < c.count → s.collHeld die cs c = true → Machine.exec (.kcollSequence die) s = .next s) ∧
      (c.pos < c.count → s.collHeld die cs c = false → s.through c.vf c.id (s.collTraffic die cs c) = .ok s1 →
        let r := s1.collElem die cs c c.pos
        Machine.exec (.kcollSequence die) s = .next (match r.2 with
          | some e => r.1.collEnd die cs (some e)
          | none => r.1.collStep cs))) ∧
    (free → s.abandoned c = false → c.n ≤ cs.length → ¬agree →
      Machine.exec (.kcollSequence die) s = .next (s.collEnd die cs (some (causeReserved, 0))))

/-- R312 to R318: the copy channels and the collective engines. -/
def Obligations.CopyEngines : Prop := Sys2Proof.Claims.CopyEvents ∧ Sys2Proof.Claims.CollectiveSequence

/-! ## Near memory -/

/-- R105, R320, R323, R325, R331, R333, R334: a near-memory instruction that passes its checks, with room in the GATHER counter and, in its turn,
in its hearths' queues, opens one GATHER operation and queues its requests. -/
def Obligations.NearIssue : Prop :=
  ∀ (s s1 : State) (h : Hdr) (b : VBody) (m : MBody) (x : Ctx) (bytes : List Byte) (l : List (Nat × Parts)), x.act ≠ 0 → x.w.counter 2 < 63 →
    let n := (x.scal b.b).toNat
    let va := x.scal b.a
    let cmds := (List.range n).map fun i => (bytes.drop (32 * i)).take 32
    let k := va.toNat % 8
    let turn (s : State) (ks : List Nat) : Prop := ∀ k ∈ ks, s.firstAt (x.producer (nearKey k)) = true
    let opened (s : State) (ks : List Nat) (parts : Nat) : State :=
      let u := s.each (ks.map nearKey) fun s q => s.unstall (x.producer q)
      ({ u.fresh.2 with gathers := u.gathers.put u.nextId ⟨x.core, x.slot, x.team, parts⟩ } : State).modWarp x.core x.slot fun w => w.pushOp 2 u.nextId
    let sel := bitsOf va.toNat 31 3 = 0 ∧ bitsOf va.toNat 63 32 ≠ 0 ∧ s.taken.nearRoom k 1 = true ∧ turn s.taken [k]
    (Ready (.nred h b) s x → 1 ≤ n → n ≤ 64 → va.toNat % 32 = 0 → x.coreRead s.taken va (32 * n) = (some (.ok bytes), s1) →
      (∀ c ∈ cmds, s1.stackOf x.vf (fieldOf c 0x1D 1) = true) →
      let ks := (cmds.map fun c => fieldOf c 0x1D 1).dedup
      (∀ j ∈ ks, s1.nearRoom j (cmds.filter fun c => fieldOf c 0x1D 1 == j).length = true) → turn s1 ks → Machine.exec (.nred h b) s =
        .next (((opened s1 ks n).each cmds fun s c => s.pushNear x (s1.each (ks.map nearKey) fun s q => s.unstall (x.producer q)).nextId
          (fieldOf c 0x1D 1) (.nred c (x.scal b.c))).completed x)) ∧
    (Ready (.nlaunch h b) s x → va.toNat % 64 = 0 → x.coreRead s.taken va 64 = (some (.ok bytes), s1) →
      s1.stackOf x.vf (fieldOf bytes 0x14 1) = true → s1.nearRoom (fieldOf bytes 0x14 1) 1 = true → turn s1 [fieldOf bytes 0x14 1] →
      Machine.exec (.nlaunch h b) s = .next (((opened s1 [fieldOf bytes 0x14 1] 1).pushNear x s1.nextId (fieldOf bytes 0x14 1) (.nlaunch bytes)).completed x)) ∧
    (Ready (.nstat h b) s x → sel → (x.scal b.b).toNat % 16 = 0 → Machine.exec (.nstat h b) s =
      .next (((opened s.taken [k] 1).pushNear x s.nextId k (.nstat ((va >>> 32).setWidth 32) (x.scal b.b) (x.scal b.c))).completed x)) ∧
    (Ready (.nkill h b) s x → sel → Machine.exec (.nkill h b) s =
      .next (((opened s.taken [k] 1).pushNear x s.nextId k (.nkill ((va >>> 32).setWidth 32) (x.scal b.c))).completed x)) ∧
    (Ready (.gred h m) s x → checkLanes s.taken x.threads (fun t s => x.globalLane (x.ea m t) 4 .nearRead true s) (x.ea m) = (.ok l, s1) →
      Machine.exec (.gred h m) s = .next ((({ s1.fresh.2 with loads := s1.loads.put s1.nextId {
        core := x.core, slot := x.slot, entry := x.entry, vf := x.vf, ctx := x.gctx, pc := x.pc, lanes := l.map memLane, dst := m.d.toNat, size := 2,
        sgn := false, uni := false, hint := 2, acq := 0, gred := some (h.fs.toNat, m.c.toNat, x.word),
        vas := l.map fun y => (x.ea m y.1).toNat, floor := x.w.floor, got := [], far := [] } } : State).modWarp x.core x.slot fun w =>
          w.pushOp 2 s1.nextId).completed x))

/-- R121, R325 to R330, R339, R367: a hearth takes the `nred` at the head of its queue and reads its layout, once the words of the layout may be
read; the command's next burst reads or writes words of one line, each translated and checked as it is read or written, or the command stops with an
error; its end adds 1 to its counter and
completes a part of the GATHER operation. -/
def Sys2Proof.Claims.IndexedReduce : Prop :=
  ∀ (s s1 : State) (stack : Nat) (q : NearCmd) (n : Nred) (bytes r : List Byte) (base : DWord), q.req = .nred bytes base → n.cmd = q →
    let c := nredCmd bytes base
    let new : Nred := ⟨q, [], 0, false, [], none, none⟩
    let was := s.nearWords (stack / 2) q.ctx c.lrec 128
    (∀ s2, s.nearHead stack = some q → c.badCnt = false → c.ok = true → s.nearMay was = true → s.through q.vf q.op (nearTraffic (stack / 2) false was) = .ok s1 →
      (s1.takeNear stack q).nearBytes (stack / 2) q.ctx q.vf c.lrec 128 = (.ok r, s2) →
      (layoutOk r = true → Machine.exec (.nredAccept stack) s = .next (s2.setNred stack { new with layout := r } c)) ∧
      (layoutOk r = false → Machine.exec (.nredAccept stack) s = .next (s2.nredError stack new c causeReserved c.lrec))) ∧
    (s.nearHead stack = some q → c.badCnt = false → c.ok = false →
      Machine.exec (.nredAccept stack) s = .next ((s.takeNear stack q).nredError stack new c causeReserved c.lrec)) ∧
    ((s.hearth stack).nred = some n → n.stopped = false → n.bag < c.nbags →
      (∀ cause va, s.nredNext stack n c = .bad cause va → Machine.exec (.nredBag stack) s = .next (s.nredError stack n c cause va)) ∧
      (∀ l, s.nredNext stack n c = .read l →
        (∀ u, s.nearBurst (stack / 2) q.vf q.op false l = .error u → Machine.exec (.nredBag stack) s = .next (u.setNred stack n c)) ∧
        (∀ u, s.nearBurst (stack / 2) q.vf q.op false l = .ok u → Machine.exec (.nredBag stack) s =
          .next ((u.nearTake q.vf n.words l).2.setNred stack { n with words := (u.nearTake q.vf n.words l).1 } c))) ∧
      (∀ l, s.nredNext stack n c = .write l →
        let out := c.outOf n.layout n.bag
        let line := s.nredLine (stack / 2) q.ctx q.vf out l
        let rest := l.drop line.length
        (∀ e, line = [] → s.nredOut (stack / 2) q.ctx q.vf out (l.headD (0, 0)).1 = .error e →
          Machine.exec (.nredBag stack) s = .next (s.nredError stack n c e.1 e.2)) ∧
        (∀ u, line ≠ [] → s.nearBurst (stack / 2) q.vf q.op true (line.map (·.1)) = .error u →
          Machine.exec (.nredBag stack) s = .next (u.setNred stack { n with out := some l } c)) ∧
        (∀ u, line ≠ [] → s.nearBurst (stack / 2) q.vf q.op true (line.map (·.1)) = .ok u →
          Machine.exec (.nredBag stack) s = .next ((u.each line fun s y => s.nearWrite y.1 y.2).setNred stack
            (if rest.isEmpty then { n with bag := n.bag + 1, words := [], out := none } else { n with out := some rest }) c)))) ∧
    ((s.hearth stack).nred = some n → (n.stopped = true ∨ c.nbags ≤ n.bag) → s.counterWaitsOn q.ctx q.vf c.cnt = false →
      Machine.exec (.nredComplete stack) s = .next (((s.counterAddOn q.ctx q.vf c.cnt 1 (s.nearBy q.op)).gatherPart q.op).modHearth stack
        fun h => { h with nred := none }))

/-- R323, R324, R133: a gather-reduce whose words are all read writes one partial per group, in ascending group order, to the lowest threads that
have not exited, and the number of groups; its GATHER operation is complete. Equal words are compared as physical ones (assumption 109). One that
has read a poisoned word traps UNCORR_DATA with the lanes that read it, as R324 says and not Table 18.1 (assumption 103). -/
def Sys2Proof.Claims.GatherReduce : Prop :=
  ∀ (s s1 : State) (id : Nat) (l0 : Load) (fs c : Nat) (word : BitVec 96) (w : Warp), s.loads.find? id = some l0 → l0.gred = some (fs, c, word) →
    let l := (s.gredRead id l0).1
    let u := (s.gredRead id l0).2
    let now := ((l.lanes.zip l0.lanes).filter fun y => y.1.fixed.isSome && y.2.fixed.isNone).map fun y => y.1.wa
    let u1 : State := { u.each (List.range (burstsOf (firsts now))) (fun s _ => s.countPerf l.vf 10) with loads := u.loads.put id l }
    let ended (s : State) : State := ({ s with loads := s.loads.erase id } : State).opDone l.core l.slot 2 id
    let bad := l.lanes.filter fun y => y.fixed == some []
    u1.warp? l.core l.slot = some w → l.lanes ≠ [] → (∀ y ∈ l.lanes, y.fixed.isSome = true) →
    let ls := l.lanes.map LoadLane.word
    let ps := gredPartials (fs == 1) ls
    let ps := if fs = 1 then ps else ps.map canonF32
    let from_ := ((ls.map (·.1)).dedup.filterMap fun k => (ls.find? fun y => y.1 == k).map (·.2.1)).flatMap fun w => bytesAt (4 * w) 4
    (bad = [] → u1.through l.vf id (u1.traffic l.vf l.core false from_) = .ok s1 →
      Machine.exec (.gredReply id) s = .next ((ended s1).writeBack l.core l.slot
        (((ps.zip (l.lanes.map (·.thread))).filter fun y => !w.exited.getLsbD y.2).map (fun y => (⟨.v l.dst y.2, y.1.setWidth 64⟩ : RegWrite)) ++
          [⟨.s (c - 0xC0), BitVec.ofNat 64 ps.length⟩]))) ∧
    (∀ y e, bad.head? = some y → (lowestOf (maskOf (bad.map (·.thread)) &&& w.live)).bind w.entryOf = some e →
      Machine.exec (.gredReply id) s = .next ((ended u1).takeTrap l.core l.slot e l.pc word false true
        ⟨causeUncorr, maskOf (bad.map (·.thread)), l.vaOf y, some ((y.parts.headD (0, 0)).1)⟩))

/-- R323 to R330: reductions in the hearths. -/
def Obligations.NearEngines : Prop := Sys2Proof.Claims.IndexedReduce ∧ Sys2Proof.Claims.GatherReduce

/-- R331 to R334: a launch within its limits, on idle channels, with its code read, loads its stoves; one outside its limits is refused, and its
record in the log holds no address, or that of a misaligned counter (assumption 65); a stove whose threads have ended leaves its launch, the last with 1 added to the counter; an inspection writes one record per selected channel; a kill
stops the selected stoves of its function. A counter that waits for the host holds each of them. -/
def Sys2Proof.Claims.StoveLaunches : Prop :=
  ∀ (s s1 s2 s3 : State) (stack ch : Nat) (q : NearCmd) (d a x : List Byte),
    let cnt := BitVec.ofNat 64 (fieldOf d 0x20 8)
    let chans := (List.range 32).filter fun c => (fieldOf d 0x18 4).testBit c
    let av := BitVec.ofNat 64 (fieldOf d 0 8)
    let xv := BitVec.ofNat 64 (fieldOf d 8 8)
    let was := s.nearWords (stack / 2) q.ctx av (4 * fieldOf d 0x10 2) ++ s.nearWords (stack / 2) q.ctx xv (4 * fieldOf d 0x12 2)
    let free (c : Option DWord) : Prop := s.counterWaitsOn q.ctx q.vf c = false
    (s.nearHead stack = some q → q.req = .nlaunch d → free (namedCounter cnt) → s.launchOk q.vf stack d = true →
      (∀ c ∈ chans, (s.stove (32 * stack + c)).busy = false ∧ ∀ l ∈ (s.hearth stack).launches, l.2.chans.contains c = false) →
      (∀ w ∈ was, s.wordQueued w = false ∧ s.flipWaits (4 * w) s.nextId = false) → s.through q.vf q.op (nearTraffic (stack / 2) false was) = .ok s1 →
      s1.nearCode stack q av (fieldOf d 0x10 2) = (.ok a, s2) → s2.nearCode stack q xv (fieldOf d 0x12 2) = (.ok x, s3) →
      Machine.exec (.stoveLaunch stack) s =
        .next (((s3.takeNear stack q).each chans fun s c => s.setStove (32 * stack + c) (launchedStove q d c (codeWords a) (codeWords x))).modHearth stack
          fun h => { h with launches := h.launches.put q.op ⟨q.vf, q.ctx, chans, cnt⟩ })) ∧
    (s.nearHead stack = some q → q.req = .nlaunch d → free (namedCounter cnt) → s.launchOk q.vf stack d = false → Machine.exec (.stoveLaunch stack) s =
      .next (s.refuseLaunch stack q cnt causeReserved (if cnt.toNat % 16 = 0 then 0 else cnt))) ∧
    (∀ l, (s.hearth stack).launches.find? (s.stove (32 * stack + ch)).launch = some l → l.chans.contains ch = true →
      (s.stove (32 * stack + ch)).ended = true → s.counterWaitsOn l.ctx l.vf (namedCounter l.counter) = false →
      let y := s.stove (32 * stack + ch)
      let s1 := s.setStove (32 * stack + ch) (if y.st = .faulted ∨ y.st = .killed then y else { y.discard with st := .idle })
      let rest := l.chans.filter fun c => c != ch
      Machine.exec (.stoveEnd stack ch) s = .next (if rest ≠ [] then s1.modHearth stack fun h => { h with launches := h.launches.put y.launch { l with chans := rest } }
        else ((s1.counterAddOn l.ctx l.vf (namedCounter l.counter) 1 (s1.nearBy y.launch)).gatherPart y.launch).modHearth stack fun h =>
          { h with launches := h.launches.erase y.launch })) ∧
    (∀ mask buf c p, s.nearHead stack = some q → q.req = .nstat mask buf c → (List.range 32).filter mask.getLsbD = [ch] →
      s.counterWaits q.ctx q.vf c = false → s.engineWaits (stack / 2) q.ctx buf 16 .write = false →
      s.through q.vf q.op ((nearTraffic (stack / 2) true (s.nearWords (stack / 2) q.ctx buf 16)).filter fun y => y.1 == 1) = .ok s1 →
      s1.part? q.vf = some p → p.channels.contains (32 * stack + ch) = true →
      let y := s1.stove (32 * stack + ch)
      y.st ≠ .loaded →
      (s1.takeNear stack q).writeVirt (stack / 2) q.ctx q.vf buf (statusRecord y (y.code6 0)) [] ⟨4, stack, some buf, 0⟩ = (none, s2) →
      Machine.exec (.nstatService stack) s = .next ((s2.counterAdd q.ctx q.vf c 1 (s2.nearBy q.op)).gatherPart q.op)) ∧
    (∀ mask c, s.nearHead stack = some q → q.req = .nkill mask c → s.counterWaits q.ctx q.vf c = false →
      let t := (s.takeNear stack q).each ((List.range 32).filter mask.getLsbD) fun s c =>
        if (((s.part? q.vf).map fun p => p.channels.contains (32 * stack + c)).getD false) = true ∧ (s.stove (32 * stack + c)).busy = true ∧
          (s.stove (32 * stack + c)).vf = q.vf ∧ (s.stove (32 * stack + c)).ended = false then s.killStove (32 * stack + c) else s
      Machine.exec (.nkillService stack) s = .next ((t.counterAdd q.ctx q.vf c 1 (t.nearBy q.op)).gatherPart q.op))

/-- R339, R366, R367: at its frame's start a channel takes the frame control in force; with COMPUTELEN not 0 the ordinary rows close and the
stoves start or resume; the interval ends with COMPUTELEN; at clock 98 of the ordinary interval a stove that still runs suspends. -/
def Sys2Proof.Claims.ChannelFrame : Prop :=
  ∀ (s : State) (stack ch : Nat),
    let h := s.hearth stack
    let v := ((h.next.filter fun y => decide (y.1 < h.frameAt)).getLast?.map fun y => y.2).getD (h.framelen, h.computelen)
    let s1 := s.modHearth stack fun h => { h with
      framelen := v.1, computelen := v.2, next := h.next.filter fun y => decide (h.frameAt ≤ y.1), frameAt := h.frameAt + v.1, compute := decide (v.2 ≠ 0), ordAt := h.frameAt + v.2,
      lastNear := [] }
    (stack < 8 → 6 ≤ s.bootStep → h.frameAt ≤ s.dclk → v.2 = 0 → Machine.exec (.frameStart stack) s = .next s1) ∧
    (stack < 8 → 6 ≤ s.bootStep → h.frameAt ≤ s.dclk → v.2 ≠ 0 → Machine.exec (.frameStart stack) s =
      .next ((s1.closeOrdinary stack h.frameAt).each ((List.range 32).map fun c => 32 * stack + c) State.resumeStove)) ∧
    (h.compute = true → h.ordAt ≤ s.dclk → Machine.exec (.ordinaryIntervalStart stack) s = .next (s.modHearth stack fun h => { h with compute := false }).drainEngine) ∧
    (h.compute = false → h.ordAt + 98 ≤ s.dclk → (s.stove (32 * stack + ch)).st = .running → (s.stove (32 * stack + ch)).aend = false →
      Machine.exec (.stoveDeadline stack ch) s = .next (s.suspendStove (32 * stack + ch)))

/-- R331 to R334, R339, R366, R367: stoves as launches and frames run them. -/
def Obligations.StoveEngines : Prop := Sys2Proof.Claims.StoveLaunches ∧ Sys2Proof.Claims.ChannelFrame

/-! ## The matrix stream -/

/-- A matrix-stream instruction is complete: the sequencer stands at a PC, the instruction counts. -/
def Sys2Proof.Claims.seqGoes (s : State) (x : SeqCtx) (pc : DWord) : State := (s.modSeq x.ix fun q => { q with pc := pc }).seqCount x

/-- R291, R305 to R307: the counter, branch, barrier, point and end instructions of the matrix stream. -/
def Obligations.SequencerControl : Prop :=
  ∀ (s : State) (h : Hdr) (b : IBody) (j : JBody) (c : CBody) (x : SeqCtx), s.seqAt x →
    let n := h.fs.toNat
    let t := jTarget x.pc j
    let set (s : State) (n : Nat) (v : Word) : State := s.modSeq x.ix fun q => { q with k := q.k.set 0 n v }
    let y := x.t.bar (c.cmod.toNat % 16)
    let ended (s : State) : State := (s.modSeq x.ix fun q => { q with ended := true }).seqCount x
    let br (i : Instr) (v : Word) : Prop := i.wellFormed = true →
      (v = 0 → Machine.exec i s = .next (seqGoes (set s.taken n v) x (nextPc x.pc))) ∧
      (v ≠ 0 → s.taken.targetCause x.core x.g.ctx x.g.vf t = none → Machine.exec i s = .next (seqGoes (set s.taken n v) x t)) ∧
      (v ≠ 0 → s.taken.targetCause x.core x.g.ctx x.g.vf t = some causeBadTarget →
        Machine.exec i s = .next (s.taken.seqTrap x.core x.slot x.pc ⟨causeBadTarget, 0, 0, none⟩))
    ((Instr.mset h b).wellFormed = true → Machine.exec (.mset h b) s = .next (seqGoes (set s.taken b.d.toNat
      (if b.mod = 1 then x.k b.d.toNat + b.imm else b.imm)) x (nextPc x.pc))) ∧
    br (.mbra h j) (x.k n) ∧ br (.mloop h j) (x.k n - 1) ∧
    ((Instr.mbwait h c).wellFormed = true →
      (y.abandon = true → Machine.exec (.mbwait h c) s = .next (ended s.taken)) ∧
      (y.abandon = false → y.gen = y.sgen → Machine.exec (.mbwait h c) s = .next s.taken) ∧
      (y.abandon = false → y.gen ≠ y.sgen → Machine.exec (.mbwait h c) s = .next (seqGoes ((s.taken.modTeam x.ix fun t =>
        t.setBar (c.cmod.toNat % 16) { t.bar (c.cmod.toNat % 16) with sgen := (t.bar (c.cmod.toNat % 16)).sgen + 1 }).modSeq x.ix fun q =>
          { q with floor := max q.floor y.floor }) x (nextPc x.pc)))) ∧
    ((Instr.mbarr h c).wellFormed = true →
      (s.postedNone x.ix = true → Machine.exec (.mbarr h c) s = .next (seqGoes (s.taken.arrive x.ix (c.cmod.toNat % 16) (c.cmod.toNat / 16) 1 [] 0 0 0
        (((s.warp? x.core (x.t.slots.headD 0)).map fun w => w.workcnt + 1).getD 1) true x.q.floor) x (nextPc x.pc))) ∧
      (s.postedNone x.ix = false → Machine.exec (.mbarr h c) s = .next s.taken)) ∧
    ((Instr.mpoint h c).wellFormed = true → Machine.exec (.mpoint h c) s =
      .next (seqGoes (s.taken.modSeq x.ix fun q => { q with live := c.cmod.setWidth 8 }) x (nextPc x.pc))) ∧
    ((Instr.mend h c).wellFormed = true → Machine.exec (.mend h c) s = .next (ended s.taken))

/-- R290, R195: a matrix-stream instruction whose fields fail their checks traps RESERVED_FIELD and has had no effect. -/
def Sys2Proof.Claims.SequencerChecks : Prop :=
  ∀ (s : State) (i : Instr) (x : SeqCtx) (ok : SeqCtx → Bool) (eff : SeqCtx → State → SeqEff), s.seqAt x → ok x = false →
    seqIssue i s ok eff = .next (s.taken.seqTrap x.core x.slot x.pc ⟨causeReserved, 0, 0, none⟩)

/-- R60, R288, R302 to R304, R384: `mstart` binds its name to the lowest FREE tile, or takes a FOREIGN one, asks for its spill and waits for it, or waits; `mzero`,
`mget` and `mput` post their operations, the moves once the MATRIX counter of their warp has room and no result is pending on their registers
(R200). -/
def Obligations.TileMembers : Prop :=
  ∀ (s : State) (h : Hdr) (c : CBody) (x : SeqCtx), s.seqAt x →
    let name := c.acc.toNat
    let post (op : MatOp) : State := { s.taken.fresh.2 with posted := s.posted.put s.nextId ⟨x.ix, op⟩ }
    let m := x.move h c
    let open_ (s1 : State) : State := s1.modWarp x.core (x.slotOf c.warp) fun w => w.pushOp 1 s.nextId
    let clear := s.taken.regsPending x.core (x.slotOf c.warp) m.vreg m.count = false
    ((Instr.mstart h c).wellFormed = true → name < x.g.lr.accs → x.q.spill = none →
      (∀ k l, s.takeable x.core x.g.ctx = k :: l →
        (((s.core x.core).tile k).st = .free → Machine.exec (.mstart h c) s = .next (seqGoes (s.taken.rebind x name k) x (nextPc x.pc))) ∧
        (((s.core x.core).tile k).st ≠ .free → Machine.exec (.mstart h c) s =
          .next ((s.taken.modSeq x.ix fun q => { q with spill := some k }).askSpill x.core k))) ∧
      (s.takeable x.core x.g.ctx = [] → Machine.exec (.mstart h c) s = .next s.taken)) ∧
    (∀ k, (Instr.mstart h c).wellFormed = true → name < x.g.lr.accs → x.q.spill = some k →
      (((s.core x.core).tile k).st = .foreign → Machine.exec (.mstart h c) s = .next s.taken) ∧
      (((s.core x.core).tile k).st ≠ .foreign → Machine.exec (.mstart h c) s = .next (seqGoes (s.taken.rebind x name k) x (nextPc x.pc)))) ∧
    ((Instr.mzero h c).wellFormed = true → name < x.g.lr.accs → Machine.exec (.mzero h c) s =
      .next (seqGoes (post (.mzero (x.tile name))) x (nextPc x.pc))) ∧
    (x.moveOk h c [1, 2, 3, 4, 5, 6] 0xF77F = true →
      (x.room s.taken c.warp = true → clear → Machine.exec (.mget h c) s = .next (seqGoes (open_ (post (.mget m))) x (nextPc x.pc))) ∧
      (¬clear → Machine.exec (.mget h c) s = .next s.taken) ∧
      (x.room s.taken c.warp = false → Machine.exec (.mget h c) s = .next s.taken)) ∧
    (x.moveOk h c [1, 2, 3] 0xF07F = true → x.room s.taken c.warp = true → clear → Machine.exec (.mput h c) s =
      .next (seqGoes (open_ { post (.mput m) with
        slabs := s.slabs.put s.nextId (⟨x.ix, m.warp, m.vreg, m.count, s.taken.regWords x.core (x.slotOf c.warp) m.vreg m.count, none⟩ : Slab) }) x (nextPc x.pc)))

/-- R293, R295: a `mseal` of cells that its checks let seal makes the region's entry and waits for the conversion; issued again once the region
is sealed it completes. `munseal` of the team's sealed region frees its entry and, with no pass outstanding on its cells, completes; it waits while
one of them is posted, here or in a save record. -/
def Sys2Proof.Claims.Seals : Prop :=
  ∀ (s : State) (h : Hdr) (c : CBody) (x : SeqCtx), s.seqAt x →
    let id := c.region.toNat
    let m := c.cmod.toNat
    let depth := bitsOf m 15 8
    let width := bitsOf m 23 16
    let ok := (Instr.mseal h c).wellFormed = true ∧ 1 ≤ depth ∧ depth ≤ 192 ∧ 1 ≤ width ∧ width ≤ 192 ∧ slotOk (x.fmt h) [4, 5, 6, 8, 9, 10, 11] = true
    let r : Region := {
      st := 1, owner := hiveTeamSlot x.ix, gen := x.t.gen, first := m % 256, depth := depth, width := width, slot := h.fs.toNat,
      refill := c.acc.getLsbD 0, scale := (x.k c.vreg.toNat).toNat,
      before := (s.copyOps.filter fun o => o.intoTeam s.taken x.ix x.t).map (·.id), cells := (x.t.cells.drop (m % 256)).take (depth * width) }
    (ok → x.q.waiting = false → x.sealCause s.taken h c = none → Machine.exec (.mseal h c) s =
      .next ((s.taken.modHive x.hive fun hv => { hv with regions := hv.regions.put id r }).modSeq x.ix fun q => { q with waiting := true })) ∧
    (∀ cause, ok → x.q.waiting = false → x.sealCause s.taken h c = some cause → Machine.exec (.mseal h c) s =
      .next (s.taken.seqTrap x.core x.slot x.pc ⟨cause, 0, 0, none⟩)) ∧
    (ok → x.q.waiting = true → (((s.hive x.hive).regions.find? id).map (·.st)) ≠ some 1 →
      Machine.exec (.mseal h c) s = .next (seqGoes s.taken x (nextPc x.pc))) ∧
    (∀ y, (Instr.munseal h c).wellFormed = true → x.q.waiting = false → (s.hive x.hive).regions.find? id = some y → y.st = 2 →
      y.ownedBy x.ix x.t = true → (∀ p ∈ s.passes x.hive, y.cells.contains p.2.cell = false) →
      let key := 16 + hiveTeamSlot x.ix
      let s1 := (s.taken.modHive x.hive fun hv => { hv with regions := (hv.regions.erase id).put key y }).modSeq x.ix fun q =>
        { q with waiting := true, waitOps := [] }
      (s1.hive x.hive).regions.find? key = some y → Machine.exec (.munseal h c) s = .next (seqGoes (s1.modHive x.hive fun hv =>
        ({ hv with regions := hv.regions.erase key, exps := hv.exps.filter fun e => !y.cells.contains (e.1 / 2048) } : Hive).undefine y.cells) x (nextPc x.pc))) ∧
    ((Instr.munseal h c).wellFormed = true → x.q.waiting = false → (s.hive x.hive).regions.find? id = none →
      Machine.exec (.munseal h c) s = .next (s.taken.seqTrap x.core x.slot x.pc ⟨causeCombSealed, 0, 0, none⟩)) ∧
    (∀ i ∈ x.q.waitOps, (Instr.munseal h c).wellFormed = true → x.q.waiting = true → s.taken.postedOpen i = true →
      Machine.exec (.munseal h c) s = .next s.taken)

/-- R296 to R298: an `mfence` with nothing outstanding completes, and one of its own operations waits while any of them is posted; under RGN, where no
operation on the region and no copy of its owner's is open, it completes too, and a region that is free has neither copies nor a trap (log 114); an `mmac` of
a sealed region within its limits, with its registers' results in (or taken before, in the latch) and room in the reservation table in its turn, posts one pass per cell,
ascending, after its slab is taken. -/
def Sys2Proof.Claims.FencesAndPasses : Prop :=
  ∀ (s : State) (h : Hdr) (c : CBody) (x : SeqCtx), s.seqAt x →
    let v := x.vreg c.vreg (c.cmod.getLsbD 19) (bitsOf c.cmod.toNat 18 16)
    let akind := x.kind h
    let per := regsPerCell akind
    let n := c.count.toNat / per
    let ncol := c.cmod.toNat % 256
    let kcell := bitsOf c.cmod.toNat 15 8
    ((Instr.mfence h c).wellFormed = true → c.cmod = 0 → x.q.waiting = false → s.postedNone x.ix = true → Machine.exec (.mfence h c) s =
      .next (seqGoes (s.taken.modSeq x.ix fun q => { q with waiting := true, waitOps := [] }) x (nextPc x.pc))) ∧
    ((Instr.mfence h c).wellFormed = true → c.cmod = 0 → x.q.waiting = false → (∃ p ∈ s.posted, p.2.team = x.ix) →
      Machine.exec (.mfence h c) s = .next (s.taken.modSeq x.ix fun q =>
        { q with waiting := true, waitOps := (s.posted.filter fun p => p.2.team == x.ix).map (·.1) })) ∧
    ((Instr.mfence h c).wellFormed = true → c.cmod = 1 → c.region.toNat < 16 → x.q.waiting = false → (s.hive x.hive).regions.find? c.region.toNat = none →
      s.passes x.hive = [] → Machine.exec (.mfence h c) s =
      .next (seqGoes (s.taken.modSeq x.ix fun q => { q with waiting := true, waitOps := [] }) x (nextPc x.pc))) ∧
    (∀ r, (Instr.mmac h c).wellFormed = true → slotOk (x.fmt h) [3, 4, 5, 6] = true → c.count.toNat % per = 0 → c.acc.toNat < x.g.lr.accs →
      x.regsOk c.warp v c.count.toNat = true → x.region s.taken c.region.toNat = some (r, x.ix) → kcell + n ≤ r.depth → ncol < r.width →
      let wkind := (x.g.lr.fmt.getD r.slot 0).toNat % 256
      (8 ≤ wkind → c.acc.toNat + 1 < x.g.lr.accs) → x.room s.taken c.warp = true → (s.passes x.hive).length + n ≤ 64 → (s.team? x.ix).isSome = true →
      ((x.latched c.warp v c.count.toNat).isSome = true ∨ s.taken.regsPending x.core (x.slotOf c.warp) v c.count.toNat = false) → s.taken.firstAt x.producer = true →
      let sl := x.slab (s.taken.unstall x.producer) c.warp v c.count.toNat
      Machine.exec (.mmac h c) s = .next (seqGoes (((sl.2.modTeam x.ix fun t =>
        { t with latch := if h.reu then some ⟨c.warp.toNat, v, c.count.toNat, sl.1⟩ else none }).each (List.range n) fun s j =>
          (s.post x.ix (.pass {
            hive := x.hive, cell := r.cells.getD (ncol * r.depth + kcell + j) 0, tile0 := x.tile c.acc.toNat,
            tile1 := if 8 ≤ wkind then some (x.tile (c.acc.toNat + 1)) else none, akind := akind, wkind := wkind, slab := sl.1, part := j * per,
            granted := false, age := 0, prio := x.g.lr.priority, old := none })).2).pruneSlabs) x (nextPc x.pc))) ∧
    ((Instr.mmac h c).wellFormed = true → slotOk (x.fmt h) [3, 4, 5, 6] = true → c.count.toNat % per = 0 → c.acc.toNat < x.g.lr.accs →
      x.regsOk c.warp v c.count.toNat = true → x.region s.taken c.region.toNat = none →
      Machine.exec (.mmac h c) s = .next (s.taken.seqTrap x.core x.slot x.pc ⟨causeCombSealed, 0, 0, none⟩))

/-- R293 to R298: regions, fences and multiply-accumulate. -/
def Obligations.RegionsAndPasses : Prop := Sys2Proof.Claims.Seals ∧ Sys2Proof.Claims.FencesAndPasses

/-- R293, R299 to R304, R364, R384: the matrix path's events. A seal of 8-bit integers leaves its cells as they are, their exponents 0, and those of other cells as they were; a seal
waits for the copies before it; a slab that no write has
changed is taken as it was; the one pass ready for a cell is granted; a granted pass is added into its tile; a move or a zero that no earlier
operation on its tile precedes is carried out; a FOREIGN tile that a team has taken is spilled,
in the order of the requests. -/
def Obligations.MatrixEvents : Prop :=
  ∀ (s : State) (hive region id core tile team : Nat),
    (∀ r t g, (s.hive hive).regions.find? region = some r → r.st = 1 → s.team? (hive * 32 + r.owner) = some t → s.grid? t.grid = some g →
      (g.lr.fmt.getD r.slot 0).toNat % 256 = 6 → s.copyOpen r.before = false →
      (∀ k ∈ r.cells, (s.hive hive).undef.contains k = false) → (∀ e ∈ (s.hive hive).err, r.cells.contains (e.1 / 8192) = false) →
      Machine.exec (.sealComplete hive region) s = .next (s.modHive hive fun h => { h with
        regions := h.regions.put region { r with st := 2 }, exps := h.exps.filter fun e => !r.cells.contains (e.1 / 2048) })) ∧
    (∀ r t g, (s.hive hive).regions.find? region = some r → r.st = 1 → s.team? (hive * 32 + r.owner) = some t → s.grid? t.grid = some g →
      s.copyOpen r.before = true → Machine.exec (.sealComplete hive region) s = .next s) ∧
    (∀ y t w, s.slabs.find? id = some y → y.data = none → s.team? y.team = some t → s.warp? (y.team / 8) (t.slots.getD y.warp 0) = some w →
      w.killed = false → (((s.part? (s.vfOfTeam y.team)).map (·.replay)).getD false) = true → Machine.exec (.slabReadDone id) s =
        .next ((({ s with slabs := s.slabs.put id { y with data := some y.old } } : State).opDone (y.team / 8) (t.slots.getD y.warp 0) 1 id).pruneSlabs)) ∧
    (∀ p, (s.passes hive).filter (fun q => q.2.cell == tile) = [(id, p)] → p.granted = false → s.posted.find? id = some ⟨team, .pass p⟩ →
      s.grantable id team p = true → ((s.hive hive).regions.any fun r => r.2.refill && r.2.cells.contains tile) = false →
      Machine.exec (.passGrant hive tile) s = .next (s.setPass id { p with granted := true, old := none })) ∧
    (∀ p, s.posted.find? id = some ⟨team, .pass p⟩ → p.granted = true → p.old = none → p.tile1 = none →
      (∀ e ∈ (s.hive p.hive).err, e.1 / 8192 ≠ p.cell) →
      let h := s.hive p.hive
      Machine.exec (.passComplete id) s = .next ((s.modTile (team / 8) p.tile0 fun t => passTile t (((s.slabs.find? p.slab).bind (·.data)).getD [])
        (h.cellWords p.cell) h.exps p 0 (h.poison.any fun w => w / 8192 == p.cell)).unpost id ⟨team, .pass p⟩)) ∧
    (∀ m t w, s.posted.find? id = some ⟨team, .mget m⟩ → s.tileBefore id ⟨team, .mget m⟩ = false → s.team? team = some t →
      let slot := t.slots.getD m.warp 0
      let tl := (s.core (team / 8)).tile m.tile
      (m.elems.any tl.poison.contains) = false → s.warp? (team / 8) slot = some w → w.killed = false → Machine.exec (.mgetWriteback id) s =
        .next (((s.writeBack (team / 8) slot ((threadsOf (w.launched &&& ~~~m.skip)).flatMap fun t =>
          (List.range m.count).map fun r => ⟨.v (m.vreg + r) t, (m.word tl t r).setWidth 64⟩)).opDone (team / 8) slot 1 id).unpost id ⟨team, .mget m⟩)) ∧
    (∀ m data, s.posted.find? id = some ⟨team, .mput m⟩ → (s.slabs.find? id).bind (·.data) = some data → s.tileBefore id ⟨team, .mput m⟩ = false →
      let e := perReg m.kind
      Machine.exec (.mputDone id) s = .next ((s.modTile (team / 8) m.tile fun tl => { tl with
        data := (List.range 64).foldl (fun d t => (List.range (m.count * e)).foldl (fun (d : Tab Word) i => d.set 0 (128 * t + m.col + i)
          (moveIn m.kind ((data.get 0 (64 * (i / e) + t)).toNat / 2 ^ (32 / e * (i % e)) % 2 ^ (32 / e)))) d) tl.data
        poison := tl.poison.filter fun x => !m.elems.contains x }).unpost id ⟨team, .mput m⟩)) ∧
    (s.posted.find? id = some ⟨team, .mzero tile⟩ → s.tileBefore id ⟨team, .mzero tile⟩ = false → Machine.exec (.mzeroDone id) s =
      .next ((s.modTile (team / 8) tile fun y => { y with data := [], poison := [] }).unpost id ⟨team, .mzero tile⟩)) ∧
    (∀ ix, s.taker core tile = some ix → s.nextSpill (dieOfCore core) = some (core, tile) → Machine.exec (.accForeignSpill core tile) s =
      .next (s.spillTile core tile ix (s.ctxIdOfTeam ix) (s.vfOfTeam ix))) ∧
    (s.nextSpill (dieOfCore core) ≠ some (core, tile) → Machine.exec (.accForeignSpill core tile) s = .next s)

/-! ## Stoves -/

/-- A thread of a stove is complete at a DRAM clock, in a state at that clock; its next instruction is at `pc`. -/
def Sys2Proof.Claims.stoveGoes (s t : State) (k : Nat) (arith : Bool) (v : Stove) (pc : Nat) : Host.Outcome State Fault Refusal :=
  .next ((t.setStove k ((v.issuedAt arith t.dclk).setPc arith pc)).clockOf s)

/-- R336, R337: the address thread's register, loop, branch, queue and end operations. `awq` takes an entry at a later clock than its `xpush`
(R430). -/
def Sys2Proof.Claims.AddressOps : Prop :=
  ∀ (s : State) (k : Nat) (d a b : BitVec 4) (imm : BitVec 15) (x : Stove), s.stoveAt k false x →
    let u := s.stoveClk false x
    let goes (t : State) (v : Stove) (pc : Nat) : Host.Outcome State Fault Refusal := stoveGoes s t k false v pc
    let faults (cause : Nat) : Host.Outcome State Fault Refusal := .next ((u.stoveFault k x.apc cause none).clockOf s)
    let t : Int := x.apc + imm.toInt
    let inCode : Prop := 0 ≤ t ∧ t < x.acode.length
    let set (r : BitVec 4) (v : Word) : Stove := { x with ag := x.ag.set 0 r.toNat v }
    let g (r : BitVec 4) : Word := x.ag.get 0 r.toNat
    let cond := match d.toNat with | 0 => g a == g b | 1 => g a != g b | 2 => decide ((g a).toNat < (g b).toNat) | 3 => decide ((g b).toNat ≤ (g a).toNat) | _ => true
    (a.toNat ≤ 7 → Machine.exec (.aset d a imm) s = goes u (set d (imm.signExtend 32 <<< (4 * a.toNat))) (x.apc + 1)) ∧
    (7 < a.toNat → Machine.exec (.aset d a imm) s = faults causeReserved) ∧
    Machine.exec (.aadd d a b imm) s = goes u (set d (g a + g b + imm.signExtend 32)) (x.apc + 1) ∧
    (inCode → Machine.exec (.aloop d imm) s = goes u (set d (g d - 1)) (if g d - 1 ≠ 0 then t.toNat else x.apc + 1)) ∧
    (¬inCode → Machine.exec (.aloop d imm) s = faults causeBadTarget) ∧
    (d.toNat ≤ 4 → inCode → Machine.exec (.abr d a b imm) s = goes u x (if cond then t.toNat else x.apc + 1)) ∧
    (4 < d.toNat → Machine.exec (.abr d a b imm) s = faults causeReserved) ∧
    (∀ n tag w l, x.buffer = none → x.writeQ = (n, tag, w) :: l → n < u.dclk → Machine.exec (.awq d) s =
      goes u { x with writeQ := l, buffer := some (tag, w), ag := x.ag.set 0 d.toNat tag } (x.apc + 1)) ∧
    (∀ n y l, x.buffer = none → x.writeQ = (n, y) :: l → u.dclk ≤ n → Machine.exec (.awq d) s = .next s.taken) ∧
    (x.buffer = none → x.writeQ = [] → Machine.exec (.awq d) s = .next s.taken) ∧
    (x.buffer.isSome = true → Machine.exec (.awq d) s = faults causeReserved) ∧
    Machine.exec .aend s = goes (u.closeRows k (x.rows.map (·.1))) { x with rows := [], aend := true } (x.apc + 1)

/-- R322, R337, R339, R430: the address thread's row operations. A row that its check lets open is opened, unless it would open too late; `acol` reads
a line of an open row into the data queue, there tCL after its burst, where no limit of the ordinary interval stops the stove and the channel is free for
it; `awr` writes the buffered burst; neither may reach a host-bias page (R321, Table 4.7); `anext` closes the rows once each has stood tRAS. -/
def Sys2Proof.Claims.StoveRows : Prop :=
  ∀ (s : State) (k : Nat) (a b : BitVec 4) (imm : BitVec 15) (x : Stove), s.stoveAt k false x →
    let u := s.stoveClk false x
    let bank := (x.agr a).toNat % 16
    let row := (x.agr b).toNat % 2 ^ 16
    let goes (t : State) (v : Stove) : Host.Outcome State Fault Refusal := stoveGoes s t k false v (x.apc + 1)
    let faults (cause : Nat) (pa : Option Nat) : Host.Outcome State Fault Refusal := .next ((u.stoveFault k x.apc cause pa).clockOf s)
    let opens := u.activateAt k bank
    let young : Prop := ∃ y ∈ x.rows, ∃ o, s.openRows.find? (sliceBank (k / 32) (k % 32) 0 y.1) = some o ∧ u.dclk < o.at_ + 80
    (s.rowOk x.vf (stovePa k bank row 0) false true = true → x.rows.find? bank ≠ some row →
      (((s.hearth (k / 32)).ordinary opens).any fun o => decide (18 < o)) = false → Machine.exec (.aopen a b) s =
        goes (u.holdRow k bank row opens) { x with rows := x.rows.put bank row }) ∧
    (s.rowOk x.vf (stovePa k bank row 0) false true = true → x.rows.find? bank ≠ some row →
      (((s.hearth (k / 32)).ordinary opens).any fun o => decide (18 < o)) = true → Machine.exec (.aopen a b) s = .next ((u.suspendStove k).clockOf s)) ∧
    (s.rowOk x.vf (stovePa k bank row 0) false true = true → x.rows.find? bank = some row → Machine.exec (.aopen a b) s = goes u x) ∧
    (s.rowOk x.vf (stovePa k bank row 0) false true = false → Machine.exec (.aopen a b) s = faults causeRowDenied (some (stovePa k bank row 0))) ∧
    (∀ r, x.rows.find? bank = some r → x.dataQ.length < 16 → u.burstLimit k x bank = false →
      let pa := stovePa k bank r ((x.agr b + imm.signExtend 32).toNat % 32)
      let y := takeBurst k u x bank
      (s.isHostBias pa = false → s.rowOk x.vf pa false true = true → u.stoveHeld k x pa = none → Machine.exec (.acol a b imm) s =
        goes (y.1.readLine x.vf pa).2 { y.2 with dataQ := y.2.dataQ ++ [(u.beatAt k bank + 34, (y.1.readLine x.vf pa).1)] }) ∧
      (∀ h, s.isHostBias pa = false → s.rowOk x.vf pa false true = true → u.stoveHeld k x pa = some h →
        Machine.exec (.acol a b imm) s = .next (h.clockOf s)) ∧
      (s.isHostBias pa = true → Machine.exec (.acol a b imm) s = faults causePagePerm (some pa))) ∧
    (∀ r, x.rows.find? bank = some r → 16 ≤ x.dataQ.length → Machine.exec (.acol a b imm) s = .next s.taken) ∧
    (∀ r, x.rows.find? bank = some r → x.dataQ.length < 16 → u.burstLimit k x bank = true → Machine.exec (.acol a b imm) s =
      .next ((u.suspendStove k).clockOf s)) ∧
    (x.rows.find? bank = none → Machine.exec (.acol a b imm) s = faults causeReserved none) ∧
    (∀ tag w, x.buffer = some (tag, w) → bitsOf tag.toNat 31 25 = 0 → w.poison.any id = false →
      x.rows.find? (tagBank tag) = some (tagRow tag) → u.burstLimit k x (tagBank tag) = false →
      let pa := stovePa k (tagBank tag) (tagRow tag) (tagColumn tag)
      let y := takeBurst k u x (tagBank tag)
      (s.isHostBias pa = false → s.nearWriteCause x.vf (pa / 4) = none → u.stoveHeld k x pa = none → Machine.exec .awr s =
        goes (y.1.each (w.words.zip (List.range 16)) fun s z => s.nearWrite (pa / 4 + z.2) z.1) { y.2 with buffer := none }) ∧
      (∀ cause, s.isHostBias pa = false → s.nearWriteCause x.vf (pa / 4) = some cause → Machine.exec .awr s = faults cause (some pa)) ∧
      (s.isHostBias pa = true → Machine.exec .awr s = faults causePagePerm (some pa))) ∧
    (∀ tag w, x.buffer = some (tag, w) → bitsOf tag.toNat 31 25 = 0 → w.poison.any id = true → Machine.exec .awr s = faults causeUncorr
      (some (stovePa k (tagBank tag) (tagRow tag) (tagColumn tag)))) ∧
    (x.buffer = none → Machine.exec .awr s = faults causeReserved none) ∧
    (¬young → (s.hearth (k / 32)).compute = true → Machine.exec .anext s = goes (u.closeRows k (x.rows.map (·.1))) { x with rows := [] }) ∧
    (¬young → (s.hearth (k / 32)).compute = false →
      let t := u.closeRows k (x.rows.map (·.1))
      Machine.exec .anext s = .next (((t.setStove k (({ x with rows := [] }.issuedAt false t.dclk).setPc false (x.apc + 1))).suspendStove k).clockOf s)) ∧
    (young → Machine.exec .anext s = .next s.taken)

/-- R336, R337, R339: the address thread. -/
def Obligations.AddressThread : Prop := Sys2Proof.Claims.AddressOps ∧ Sys2Proof.Claims.StoveRows

/-- R338: the arithmetic thread's operations. A burst operation works word by word on registers bt0 to bt3 and faults on poison; `xpop` waits for
data to be there and `xpush` for room. -/
def Obligations.ArithmeticThread : Prop :=
  ∀ (s : State) (k : Nat) (d a b : BitVec 4) (imm : BitVec 15) (x : Stove), s.stoveAt k true x →
    let u := s.stoveClk true x
    let goes (v : Stove) (pc : Nat) : Host.Outcome State Fault Refusal := stoveGoes s u k true v pc
    let faults (cause : Nat) : Host.Outcome State Fault Refusal := .next ((u.stoveFault k x.xpc cause none).clockOf s)
    let next (v : Stove) : Host.Outcome State Fault Refusal := goes v (x.xpc + 1)
    let t : Int := x.xpc + imm.toInt
    let inCode : Prop := 0 ≤ t ∧ t < x.xcode.length
    let g (r : BitVec 4) : Word := x.xg.get 0 r.toNat
    let set (r : BitVec 4) (v : Word) : Stove := { x with xg := x.xg.set 0 r.toNat v }
    let cond := match d.toNat with | 0 => g a == g b | 1 => g a != g b | 2 => decide ((g a).toNat < (g b).toNat) | 3 => decide ((g b).toNat ≤ (g a).toNat) | _ => true
    let burst (v : BurstWords) : Stove := { x with bt := x.bt.set BurstWords.zero d.toNat v }
    let word (r : BitVec 4) (j : Nat) : Word := (x.bt.get BurstWords.zero r.toNat).words.getD j 0
    let clean (r : BitVec 4) : Prop := r.toNat < 4 ∧ (x.bt.get BurstWords.zero r.toNat).poison.any id = false
    let B (i : Instr) (pre : Prop) (f : Nat → Word) : Prop := d.toNat < 4 → pre →
      Machine.exec i s = next (burst ⟨(List.range 16).map f, List.replicate 16 false⟩)
    (∀ n y l, d.toNat < 4 → x.dataQ = (n, y) :: l → n ≤ u.dclk →
      Machine.exec (.xpop d) s = next { x with dataQ := l, bt := x.bt.set BurstWords.zero d.toNat y }) ∧
    (∀ n y l, d.toNat < 4 → x.dataQ = (n, y) :: l → u.dclk < n → Machine.exec (.xpop d) s = .next s.taken) ∧
    (d.toNat < 4 → x.dataQ = [] → Machine.exec (.xpop d) s = .next s.taken) ∧
    (a.toNat < 4 → x.writeQ.length < 16 → Machine.exec (.xpush a b) s =
      next { x with writeQ := x.writeQ ++ [(u.dclk, g b, x.bt.get BurstWords.zero a.toNat)] }) ∧
    (a.toNat < 4 → 16 ≤ x.writeQ.length → Machine.exec (.xpush a b) s = .next s.taken) ∧
    B (.xadd d a b) (clean a ∧ clean b) (fun j => (addF32 0 (word a j) (word b j)).1) ∧
    B (.xmul d a b) (clean a ∧ clean b) (fun j => mulF32 (word a j) (word b j)) ∧
    B (.xfma d a b) (clean a ∧ clean d) (fun j => fmaF32 (word a j) (g b) (word d j)) ∧
    B (.xmax d a b) (clean a ∧ clean b) (fun j => maxF32 (word a j) (word b j)) ∧
    B (.xscale d a b) (clean a) (fun j => mulF32 (word a j) (g b)) ∧
    B (.xcvt d a imm) (clean a ∧ imm.toNat ≤ 5) (fun j => stoveCvt imm.toNat (word a j)) ∧
    B (.xsetB d a) True (fun _ => g a) ∧
    (d.toNat < 4 → a.toNat < 4 → (x.bt.get BurstWords.zero a.toNat).poison.any id = true → Machine.exec (.xscale d a b) s = faults causeUncorr) ∧
    (4 ≤ d.toNat → Machine.exec (.xpop d) s = faults causeReserved ∧ Machine.exec (.xsetB d a) s = faults causeReserved ∧
      Machine.exec (.xadd d a b) s = faults causeReserved ∧ Machine.exec (.xscale d a b) s = faults causeReserved) ∧
    (a.toNat ≤ 7 → Machine.exec (.xset d a imm) s = next (set d (imm.signExtend 32 <<< (4 * a.toNat)))) ∧
    Machine.exec (.xsetAdd d a imm) s = next (set d (g a + imm.signExtend 32)) ∧
    (inCode → Machine.exec (.xloop d imm) s = goes (set d (g d - 1)) (if g d - 1 ≠ 0 then t.toNat else x.xpc + 1)) ∧
    (d.toNat ≤ 4 → inCode → Machine.exec (.xbr d a b imm) s = goes x (if cond then t.toNat else x.xpc + 1)) ∧
    (¬inCode → Machine.exec (.xloop d imm) s = faults causeBadTarget) ∧
    Machine.exec .xend s = next { x with xend := true }

/-- R336, R430: an operation of the other thread is ILLEGAL_OPC; a thread that has issued at both DRAM clocks of this one waits. -/
def Sys2Proof.Claims.WrongThread : Prop :=
  ∀ (s : State) (k : Nat) (arith isArith : Bool) (x : Stove) (eff : Nat → State → Stove → StoveEff),
    (s.stoveAt k arith x → arith ≠ isArith →
      stoveIssue isArith s eff = .next (s.taken.stoveFault k (if arith then x.xpc else x.apc) causeIllegal none)) ∧
    (∀ stack ch, s.cur = .stove stack ch arith → s.stove (stack * 32 + ch) = x → x.ready arith = true → s.dclk + 1 < x.last arith →
      stoveIssue isArith s eff = .next s.taken)

/-- R190, R194, R195, R290, R336: what fails a check of its issue traps and has had no effect. -/
def Obligations.IssueChecks : Prop := Sys2Proof.Claims.FieldChecks ∧ Sys2Proof.Claims.WrongStream ∧ Sys2Proof.Claims.SequencerChecks ∧ Sys2Proof.Claims.WrongThread

/-! ## Launch, placement and retirement -/

/-- R104, R353, R354, R356: a queue's next record is accepted while the pool has room and nothing holds its words, and a queue entry that is no
record address, or that the function may not read, is refused; a pending grid whose counter has reached its target becomes ready; a grid that has stood ready for 2^24 clocks without a team is promoted. -/
def Sys2Proof.Claims.LaunchQueues : Prop :=
  ∀ (s s1 : State) (vf n grid clk : Nat) (p : Partition) (q : LQueue) (b : List Byte) (g : Grid),
    let pa := q.base + 8 * (q.head.toNat % 2 ^ q.n)
    let lrec := BitVec.ofNat 64 (fieldOf b 0 8)
    let take (s : State) : State := s.modPart vf fun p => { p with queueRot := (n + 1) % 16, queues := p.queues.put n { q with head := q.head + 1 } }
    (s.part? vf = some p → p.pool.length ≤ 48 → p.nextQueue = some (n, q) → s.hostBusy pa = false → s.flipWaits pa s.nextId = false →
      s.readPhys vf pa 8 = .ok b → s.engineWaits 0 q.ctx lrec 256 .read = false → s.engineWaits 0 q.ctx (lrec + 0x1C) 1 .write = false →
      let t := (s.touchRun vf pa 8).flushBias pa 8
      (lrec.toNat % 64 = 0 → Machine.exec (.launchAccept vf) s = .next (take (t.accept q.ctx vf lrec 0 none n 0).1)) ∧
      (lrec.toNat % 64 ≠ 0 → Machine.exec (.launchAccept vf) s = .next ((take t).log vf causeInvalid lrec true 8 4 (BitVec.ofNat 64 n)))) ∧
    (∀ c, s.part? vf = some p → p.pool.length ≤ 48 → p.nextQueue = some (n, q) → s.hostBusy pa = false → s.flipWaits pa s.nextId = false →
      s.readPhys vf pa 8 = .error c → Machine.exec (.launchAccept vf) s =
        .next ((take (s.touchRun vf pa 8)).logPhys vf c pa none 8 4 (BitVec.ofNat 64 n))) ∧
    (s.part? vf = some p → 48 < p.pool.length → p.pool.length ≤ 64 → Machine.exec (.launchAccept vf) s = .next s) ∧
    (s.grid? grid = some g → g.st = .pending →
      (s.depMet g.ctx g.vf g.lr = (.ok (some clk), s1) → Machine.exec (.dependencyReread grid) s =
        .next (s1.modGrid grid fun g => { g with st := .ready, readyAt := some s1.vclock.toNat, floor := max g.floor clk })) ∧
      (s.depMet g.ctx g.vf g.lr = (.ok none, s1) → Machine.exec (.dependencyReread grid) s = .next s1)) ∧
    (∀ t, s.grid? grid = some g → g.readyAt = some t → g.placed = 0 → t + 2 ^ 24 ≤ s.vclock.toNat →
      ∃ u : State, Machine.exec (.priorityPromotion grid) s = .next u ∧ u.grid? grid = some { g with promoted := true } ∧ u.mem = s.mem)

/-- R104, R223, R353, R354, R356: child and host launches. -/
def Obligations.Launches : Prop := Sys2Proof.Claims.ChildLaunch ∧ Sys2Proof.Claims.LaunchQueues

/-- R357, R359: the package distributor hands the next range of the first ready grid of the highest priority to the die in rotation; the die
distributor cuts a range for the hive in rotation; an idle hive or die takes the upper half of the youngest range of the fullest queue. -/
def Sys2Proof.Claims.RangeHandouts : Prop :=
  ∀ (s : State) (vf die hive d h v : Nat) (p : Partition) (r : Range) (l : List Range),
    s.part? vf = some p →
    (∀ k g, rotate (p.dies.filter fun d => ((s.pkgQ.find? (pkgIx vf d)).getD []).length < 8) p.pkgRot = some d → p.returned = [] →
      s.nextGrid p = some (k, g) →
      let t := g.lr.teams
      let rp := if g.lr.inOrder then 1 else min (2 ^ 20) (max 1 (ceilDiv t (8 * p.hives.length)))
      let hi := min (g.handed + rp) t
      Machine.exec (.packageRangeHandout vf) s = .next (((s.pushPkg p vf d ⟨k, g.handed, hi - 1, 1⟩).modGrid k fun g => { g with handed := hi }).modPart vf
        fun p => { p with pkgRot := (d + 1) % 4, pool := if hi = t then p.pool.filter (· ≠ k) else p.pool })) ∧
    (s.pkgQ.find? (pkgIx vf die) = some (r :: l) →
      rotate ((p.hivesOn die).filter fun h => ((s.dieQ.find? h).getD []).length < 4) ((p.dieRot.find? die).getD 0) = some h →
      let last := min (r.lo + r.cut - 1) r.hi
      Machine.exec (.dieRangeHandout die vf) s = .next (({ s with
        dieQ := s.dieQ.put h (((s.dieQ.find? h).getD []) ++ [{ r with hi := last }])
        pkgQ := s.pkgQ.put (pkgIx vf die) (if last = r.hi then l else { r with lo := last + 1 } :: l) } : State).modPart vf fun p =>
          { p with dieRot := p.dieRot.put die (h + 1) })) ∧
    (p.hives.contains hive = true → s.dieQ.find? hive = none → s.victim s.dieQ ((p.hivesOn (hive / 24)).filter (· ≠ hive)) = some (v, r) →
      ((s.grid? r.grid).bind fun g => s.fitHive hive g none).isSome = true →
      let c := cutUpper ((s.dieQ.find? v).getD []) r
      Machine.exec (.hiveSteal hive vf) s = .next { s with dieQ := (s.dieQ.put v c.1).put hive [c.2] }) ∧
    (s.pkgQ.find? (pkgIx vf die) = none → (∃ h ∈ p.hivesOn die, ((s.dieQ.find? h).getD []).length < 4) →
      s.victim s.pkgQ ((p.dies.filter (· ≠ die)).map (pkgIx vf)) = some (v, r) →
      let c := cutUpper ((s.pkgQ.find? v).getD []) r
      Machine.exec (.dieSteal die vf) s = .next (({ s with pkgQ := s.pkgQ.put v c.1 } : State).pushPkg p vf die c.2))

/-- R360, R361, R372: the oldest range's first team is placed on the lowest core of the hive that fits it, once it has its turn; one that does not fit begins a wait,
whether it has its turn or not,
which expires after 65,536 clocks; a team whose shadow finds no place in that time is not screened. -/
def Sys2Proof.Claims.TeamPlacement : Prop :=
  ∀ (s : State) (hive core team t : Nat) (r : Range) (l : List Range) (g : Grid),
    (s.shadowFor hive = none → s.leftShadow hive = none → s.dieQ.find? hive = some (r :: l) → s.grid? r.grid = some g →
      (∀ c, g.turnOf r.lo = true → s.fitHive hive g none = some c → Machine.exec (.teamPlace hive) s = .next (({ s with fitWait := s.fitWait.erase hive } : State).startFrom hive r g c)) ∧
      (s.fitHive hive g none = none → s.fitWait.find? hive = none → l = [] →
        Machine.exec (.teamPlace hive) s = .next { s with fitWait := s.fitWait.put hive (r.grid, r.lo, s.vclock.toNat, false) })) ∧
    (∀ k n e, s.fitWait.find? hive = some (k, n, t, e) → t + 65536 ≤ s.vclock.toNat →
      Machine.exec (.fitWaitExpiry hive) s = .next { s with fitWait := s.fitWait.put hive (k, n, t, true) }) ∧
    (∀ tm x, s.team? (teamIx core team) = some tm → tm.screen = some x → x.other = none → x.shadow = false → x.since + 65536 ≤ s.vclock.toNat →
      ∃ u : State, Machine.exec (.teamNotScreened core team) s = .next u ∧ u.team? (teamIx core team) = some { tm with screen := none })

/-- R357 to R361, R372: how teams come to their cores. -/
def Obligations.Placement : Prop := Sys2Proof.Claims.RangeHandouts ∧ Sys2Proof.Claims.TeamPlacement

/-- R42, R43, R45: a team whose warps have ended, whose sequencer has ended and with no work open retires, its resources free; a grid all of whose
teams have retired adds its INCREMENT to its counter and is gone. -/
def Obligations.Retirement : Prop :=
  ∀ (s : State) (core team grid : Nat) (t : Team) (g : Grid),
    (s.team? (teamIx core team) = some t → t.screen = none →
      (s.canRetire (teamIx core team) t = true → Machine.exec (.teamRetire core team) s = .next ((s.removeTeam (teamIx core team) t).modGrid t.grid fun g =>
        { g with retired := g.retired + 1, left := g.left ++ [(t.num, t.colls)] })) ∧
      (s.canRetire (teamIx core team) t = false → Machine.exec (.teamRetire core team) s = .next s)) ∧
    (s.grid? grid = some g → g.st = .ready → g.lr.teams ≤ g.retired + g.dropped → g.kids = 0 → (∀ t ∈ s.teams, t.2.grid ≠ grid) → g.seed = none →
      Machine.exec (.gridRetire grid) s = .next (((s.counterAddOn g.ctx g.vf (namedCounter g.lr.counter) g.lr.increment.toNat g.release).childGone g).dropGrids (· == grid)))

/-! ## Fetch, samples, the watchdog -/

/-- R182, R183, R208, R399, R436: a line that a core does not hold, whose words nothing holds and that its buckets let pass, is read and kept, or its failure traps at the PC; a slot that fails its parity is read
again and traps FETCH_PARITY if it fails again; a `yield` period ends after its 64 opportunities. -/
def Sys2Proof.Claims.FetchEvents : Prop :=
  ∀ (s u s1 : State) (core slot entry : Nat) (pc mask : DWord) (ctx vf : Nat) (l : BitVec 512) (f : FaultInfo) (w : Warp),
    let pass (who : FetchUnit) : Prop := s.lineWaits core ctx (lineOf pc) = false ∧
      s.through vf (fetchReq who) (s.fetchCost core ctx vf (lineOf pc)) = .ok u
    (s.fetcher core slot entry = some (pc, mask, ctx, vf) → s.cachedLine core ctx pc = none → pass (.frag core slot entry) →
      (u.fetchLine core ctx vf (lineOf pc) = (.ok l, s1) →
        Machine.exec (.instructionFetch (.frag core slot entry)) s = .next (s1.keepLine core ctx (lineOf pc) l)) ∧
      (u.fetchLine core ctx vf (lineOf pc) = (.error f, s1) →
        Machine.exec (.instructionFetch (.frag core slot entry)) s = .next (s1.takeTrap core slot entry pc 0 true false { f with mask := mask }))) ∧
    (s.seqFetcher core slot = some (pc, ctx, vf) → s.cachedLine core ctx pc = none → pass (.seq core slot) → u.fetchLine core ctx vf (lineOf pc) = (.ok l, s1) →
      Machine.exec (.instructionFetch (.seq core slot)) s = .next (s1.keepLine core ctx (lineOf pc) l)) ∧
    (∀ old, s.fetcher core slot entry = some (pc, mask, ctx, vf) → s.cachedLine core ctx pc = some old → slotParityOk old (slotOf pc) = false →
      pass (.frag core slot entry) → u.fetchLine core ctx vf (lineOf pc) = (.ok l, s1) → Machine.exec (.fetchParityRefetch (.frag core slot entry)) s =
        .next (if slotParityOk l (slotOf pc) = true then s1.keepLine core ctx (lineOf pc) l
          else (s1.keepLine core ctx (lineOf pc) l).takeTrap core slot entry pc (slotWord l (slotOf pc)) false false (plain causeParity mask))) ∧
    (∀ v, s.fetcher core slot entry = some (pc, mask, ctx, vf) → s.cachedLine core ctx pc = none → s.lineWaits core ctx (lineOf pc) = false →
      s.through vf (fetchReq (.frag core slot entry)) (s.fetchCost core ctx vf (lineOf pc)) = .error v →
      Machine.exec (.instructionFetch (.frag core slot entry)) s = .next v) ∧
    (s.warp? core slot = some w → (w.entry entry).wait = .yield 0 → Machine.exec (.yieldExpiry core slot entry) s =
      .next (s.modWarp core slot fun w => w.modEntry entry fun e => { e with wait := .none }))

/-- R131, R411, R413: for a scheduler whose down-counter has come to 0 the next warp in rotation is sampled: one record of its PC, its core, slot and
reason, and its WORKCNT, in the unit of each holder whose claim samples. A warp that issued at this clock is sampled with reason 0. -/
def Sys2Proof.Claims.Samples : Prop :=
  ∀ (s : State) (core sched vf r e : Nat) (us : List Nat) (w : Warp) (p : Partition), s.samplingOf core = some (vf, us) → sched < 4 →
    (s.core core).due.contains sched = true →
    let s0 := s.modCore core fun c => { c with due := c.due.filter (· ≠ sched) }
    let s1 := s0.modCore core fun c => { c with rot := c.rot.put sched r }
    (s0.nextSampled vf core sched (((s.core core).rot.find? sched).getD 0) = none → Machine.exec (.sample core sched) s = .next s0) ∧
    (s0.nextSampled vf core sched (((s.core core).rot.find? sched).getD 0) = some r → s1.warp? core (4 * r + sched) = some w →
      (s.core core).lastIssue.find? sched = some (4 * r + sched, e) → s1.ctxLive (s1.ctxIdOfTeam w.team) = true → s1.part? vf = some p → p.reexec = false →
      Machine.exec (.sample core sched) s = .next (s1.each (s1.samplersOf vf core us) fun s u => (s.unitRecord u (w.entry e).pc
        (core * 2 ^ 23 + (4 * r + sched) * 2 ^ 18 + 2 ^ 17 + p.interval.toNat % 16 * 2 ^ 12 + 0 * 2 ^ 7 + 2 ^ 6 + e) (w.workcnt.setWidth 32)).countPerf vf (0x20 + 0)))

/-- R131, R182, R183, R208, R413, R436: fetches, the end of a `yield` period and samples. -/
def Obligations.FetchAndSamples : Prop := Sys2Proof.Claims.FetchEvents ∧ Sys2Proof.Claims.Samples

/-- R375, R434: a barrier of a live context at its limit fires: the lowest of the context is captured in the diagnostic area where every page of it
can be written, every one is logged, and the context faults with BARRIER_TIMEOUT. -/
def Obligations.Watchdog : Prop :=
  ∀ (s s1 : State) (core team bar : Nat) (t : Team) (g : Grid) (c : Context),
    let ix := teamIx core team
    let ctx := s.ctxIdOfTeam ix
    (s.expiredBars ctx = [(ix, bar)] → s.ctx? ctx = some c → s.team? ix = some t → s.gridOfTeam ix = some g →
      s.diagWritable (dieOfCore (ix / 8)) ctx c.vf c.diag = true →
      s.writeVirt (dieOfCore (ix / 8)) ctx c.vf c.diag (s.capture ix t g bar) [] ⟨0, ix / 8, some c.diag, 0⟩ = (none, s1) → Machine.exec (.barrierTimeout core team bar) s =
        .next ((s1.log c.vf causeTimeout c.diag true 0 (ix / 8) 0).endContext ctx causeTimeout .faulted)) ∧
    (s.expiredBars ctx = [] → Machine.exec (.barrierTimeout core team bar) s = .next s)

/-- R221, R222: a reread of a waiting `cwait` or `cyield` evaluates the instruction again at its PC; a `cwait` whose counter has reached its
target completes then, with the error word in D. A reread of anything else has no effect. -/
def Sys2Proof.Claims.CounterReread : Prop :=
  ∀ (s : State) (core slot entry : Nat) (w : Warp) (word : BitVec 96) (h : Hdr) (b : VBody), s.warp? core slot = some w →
    let at_ : State := { s with cur := .frag core slot entry (w.entry entry).pc word (match (w.entry entry).paired with | some n => .second n | none => .alone) 0 }
    (∀ (x : Ctx) (p : Phys) (s1 : State), (w.entry entry).wait = .cwait → (w.entry entry).st = .run → s.warpLive core slot = true →
      s.replays (s.vfOfTeam w.team) = false → w.stopWord.find? entry = some word → decodeStream word = some (.cwait h b) →
      Ready (.cwait h b) at_ x → x.act ≠ 0 → x.counterRead at_.taken (x.scal b.a) none = (.ok p, s1) → s1.counterBusy x.core x.vf p = false →
      (x.scal b.b).toNat ≤ (s1.counterBytes p).1 →
      let s2 : State := if p.host ∨ s1.isHostBias p.pa = true then s1 else if p.sync then s1.bringSync x.vf p.pa 16 else s1.migrateRun p.pa 16
      let got := (wordsOf p.named 16).foldl (fun l w => joinRel l (s1.relOf w.1 w.2)) []
      Machine.exec (.cwaitReread core slot entry) s = .next ((((s2.acquire x.core x.slot h.fs.toNat got).writeBack x.core x.slot
        [putS b.d (s1.counterBytes p).2]).closeWin x).completed x)) ∧
    ((w.entry entry).wait = .cyield → (w.entry entry).st = .run → s.warpLive core slot = true → s.replays (s.vfOfTeam w.team) = false →
      w.stopWord.find? entry = some word → decodeStream word = some (.cyield h b) →
      Machine.exec (.cwaitReread core slot entry) s = Machine.exec (.cyield h b) at_) ∧
    ((w.entry entry).wait = .cwait → (w.entry entry).st = .run → s.warpLive core slot = true → s.replays (s.vfOfTeam w.team) = false → w.stopWord.find? entry = some word →
      decodeStream word = some (.cwait h b) → Machine.exec (.cwaitReread core slot entry) s = Machine.exec (.cwait h b) at_) ∧
    ((w.entry entry).wait = .none → Machine.exec (.cwaitReread core slot entry) s = .next s)

/-- R218 to R222, R224: the waiting instructions. -/
def Obligations.Waits : Prop := Sys2Proof.Claims.WaitMembers ∧ Sys2Proof.Claims.CounterWaits ∧ Sys2Proof.Claims.CounterReread

/-! ## Pre-emption and replay -/

/-- R375, R380, R381, R389: a halting context whose outstanding work has ended is saved team by team, its ranges return, and the counter of the request,
at its physical address, gains 1; one with a barrier at its limit is saved not at all;
a saved team of a live context returns where it fits. -/
def Sys2Proof.Claims.SaveAndRestore : Prop :=
  ∀ (s : State) (ctx index slot : Nat) (c : Context) (p : Partition) (g : Grid) (v : SavedTeam) (slots cells : List Nat), s.ctx? ctx = some c →
    let t := ((s.each (s.teamsOf ctx) fun s kt =>
      match s.team? kt.1 with
      | some t => s.saveTeam ctx c.eager kt.1 t
      | none => s).returnOfCtx ctx c.vf).modCtx ctx fun c => { c with st := .saved, saveCounter := none }
    (c.st = .halting → s.saveReady ctx = true → s.expiredBars ctx = [] →
      (c.saveCounter = none → Machine.exec (.contextSave ctx) s = .next t) ∧
      (∀ fn a, c.saveCounter = some (fn, a) → Machine.exec (.contextSave ctx) s =
        .next (t.counterUpdate ⟨ctx, fn, a, true, false, t.nextId, .add 1, noParty⟩))) ∧
    (s.expiredBars ctx ≠ [] → Machine.exec (.contextSave ctx) s = .next s) ∧
    (c.st ≠ .halting → Machine.exec (.contextSave ctx) s = .next s) ∧
    (c.saved[index]? = some v → s.part? c.vf = some p → s.grid? v.team.grid = some g →
      (s.restoreFit c p g v = some (slot, slots, cells) → Machine.exec (.teamRestore ctx index) s =
        .next ((s.restoreTeam v g slot slots cells).modCtx ctx fun c => { c with saved := c.saved.filter fun y => y.team.born != v.team.born })) ∧
      (s.restoreFit c p g v = none → Machine.exec (.teamRestore ctx index) s = .next s))

/-- R414, R416: a boundary comes when every party of a replay partition has ended its quantum and nothing accepted in it is at work; it applies the
quantum's stores in order, with the host's writes before or after them, as the recorded run did where it is executed again, and names the
parties' turns. A count stop halts its context at the named
count once every other party has ended its quantum. -/
def Sys2Proof.Claims.ReplayEvents : Prop :=
  ∀ (s : State) (vf unit : Nat) (w : Warp),
    let hs := s.heldStores fun x => x.vf == vf
    let s0 := (s.pick 2).2
    let first := (s0.applyHostHeld vf true).each ((s0.applyHostHeld vf true).heldStores fun x => x.vf == vf) State.applyHeld
    (s.replays vf = true → s.partiesEnded vf none = true → s.workOpen vf = false → s.stopDue vf = false → s.stacksClosed vf = false → ∃ u : State,
      (s.catchesUp vf = true → u = first.applyHostHeld vf false) ∧
      (s.catchesUp vf = false → u = first ∨ u = (s0.each hs State.applyHeld).applyHostHeld vf false) ∧
      Machine.exec (.quantumBoundary vf) s = .next { u with agenda := u.boundaryTurns vf ++ u.agenda }) ∧
    (s.replays vf = false → Machine.exec (.quantumBoundary vf) s = .next s) ∧
    (let x := s.unit unit
     s.unitVf unit = some vf → s.namedWarp vf unit = some w → s.stopUnit x.core x.wslot w = some unit → s.ctxLive (s.ctxIdOfTeam w.team) = true →
      (s.replays vf = true → s.partiesEnded vf (some (x.core, x.wslot)) = true) → Machine.exec (.countStop unit) s =
        .next (((s.modUnit unit fun x => { x with arm := false }).modPart vf fun p => { p with reexec := false }).stopAt unit vf x.core
          (s.ctxIdOfTeam w.team) w.workcnt))

/-- R380, R381, R414, R416: pre-emption and replay. -/
def Obligations.SaveAndReplay : Prop := Sys2Proof.Claims.SaveAndRestore ∧ Sys2Proof.Claims.ReplayEvents

/-! ## The mailbox -/

/-- The management core takes operation `op` of function `fn` next, and the command set is open (R388, R389, R405). -/
def Sys2Proof.Claims.takes (s : State) (fn op : Nat) : Prop :=
  s.mboxNext = some fn ∧ (s.mailbox fn).op.toNat = op ∧ fn ≠ 65 ∧ 6 ≤ s.bootStep

/-- Argument `i` of a function's mailbox. -/
def Sys2Proof.Claims.argOf (s : State) (fn i : Nat) : DWord := (s.mailbox fn).args.getD i 0

/-- R366, R390, R397, R399, R407: function 0's commands on the log, rates, frames, elided pages and fuses; by another function they are DENIED. -/
def Obligations.HypervisorCommands : Prop :=
  ∀ (s : State) (p : Partition),
    let a (i : Nat) : Nat := (argOf s 0 i).toNat
    let ok (s : State) : Host.Outcome State Fault Refusal := .next (s.finishCommand 0 .ok [])
    (takes s 0 4 → 6 ≤ a 1 → a 1 ≤ 16 → a 0 + 32 * 2 ^ a 1 ≤ 2 ^ 39 → Machine.exec (.logset 0) s = ok { s with hvLog := some ⟨a 0, a 1, 0, 0, false⟩ }) ∧
    (∀ q, takes s 0 5 → s.part? (a 0) = some p → a 1 ≤ 2 → a 2 < [96, 12, 8].getD (a 1) 0 → a 3 ≤ 65535 → 1 ≤ a 4 → a 4 ≤ 2 ^ 24 →
      p.bucketsAt (a 0) (a 1) (a 2) = [q] →
      Machine.exec (.setrate 0) s = ok { s with buckets := s.buckets.put q { (s.buckets.find? q).getD Bucket.initial with next := some (a 3, a 4) } }) ∧
    (let fl := bitsOf (a 1) 16 0
     let cl := bitsOf (a 1) 48 32
     takes s 0 6 → a 0 < 8 → bitsOf (a 1) 63 49 = 0 → bitsOf (a 1) 31 17 = 0 → 256 ≤ fl → fl ≤ 65536 → fl % 32 = 0 → cl % 32 = 0 → cl + 128 ≤ fl →
      Machine.exec (.setframe 0) s = ok (s.modHearth (a 0) fun h => { h with next := h.next ++ [(s.dclk, fl, cl)] })) ∧
    (takes s 0 7 → a 0 % 4096 = 0 → a 0 < 2 ^ 39 → reservedPa (a 0) = false → a 1 < 2 ^ 32 → s.elision = [] → ∃ u : State,
      Machine.exec (.elide 0) s = .next u ∧ u.elision.find? (a 0 / 2048) = some ((argOf s 0 1).setWidth 32) ∧
        u.elision.find? (a 0 / 2048 + 1) = some ((argOf s 0 1).setWidth 32) ∧ (s.l2 = [] → s.sync = [] → s.wordQ = [] → u.mem = s.mem)) ∧
    (takes s 0 8 → a 0 = 0 → Machine.exec (.fuseRaiseSvn 0) s = ok { s with fuses := { s.fuses with svn := min 64 (s.fuses.svn + 1) } }) ∧
    (takes s 0 8 → a 0 = 1 → ∃ u : State, Machine.exec (.fuseSetTestmode 0) s = .next u ∧ u.fuses.testmode = true ∧ u.mem = [] ∧ u.perms = [] ∧ u.warps = []) ∧
    (takes s 0 8 → a 0 = 2 → a 2 < soricaCount (a 1) → s.soricaSt (a 1) (a 2) = 0 → Machine.exec (.fuseRetireResource 0) s =
      let t := ({ s with fuses := { s.fuses with retired := (a 1, a 2) :: s.fuses.retired } } : State).soricaWrite (a 1) (a 2) 2 0xFF
        (s.soricaDetail (a 1) (a 2))
      ok (if a 1 = 2 then t.soricaTouch s 1 (a 2 / 192) else t)) ∧
    (∀ fn, fn ≠ 0 → (takes s fn 4 → Machine.exec (.logset fn) s = .next (s.finishCommand fn .denied [])) ∧
      (takes s fn 5 → Machine.exec (.setrate fn) s = .next (s.finishCommand fn .denied [])) ∧
      (takes s fn 6 → Machine.exec (.setframe fn) s = .next (s.finishCommand fn .denied [])) ∧
      (takes s fn 7 → Machine.exec (.elide fn) s = .next (s.finishCommand fn .denied [])))

/-- R369, R379 to R381, R387, R390, R392, R393: the commands on contexts, queues, pages and instruction lines. -/
def Obligations.ContextCommands : Prop :=
  ∀ (s s1 : State) (fn k : Nat) (c : Context) (p : Partition) (b : List Byte),
    let a (i : Nat) : Nat := (argOf s fn i).toNat
    let ok (s : State) (r : List (Nat × DWord)) : Host.Outcome State Fault Refusal := .next (s.finishCommand fn .ok r)
    let fail (st : Status) : Host.Outcome State Fault Refusal := .next (s.finishCommand fn st [])
    let named := s.ctxArg fn (argOf s fn 0) = some (k, c)
    (∀ i, takes s fn 0x10 → fn ≠ 0 → a 0 = fn → a 0 < 256 → (s.part? fn).isSome = true → a 1 % 64 = 0 → s.argWaits (argOf s fn 1) 64 = false →
      s.argBytes fn (argOf s fn 1) 64 = (.ok b, s1) → s1.contextOk fn b = true → ((List.range 64).find? fun i => (s1.ctx? (fn * 64 + i)).isNone) = some i →
      Machine.exec (.ctxcreate fn) s = ok { s1 with contexts := s1.contexts.put (fn * 64 + i) (contextOf fn b) } [(0, BitVec.ofNat 64 i)]) ∧
    (takes s fn 0x10 → fn ≠ 0 → a 0 ≠ fn → a 0 < 256 → Machine.exec (.ctxcreate fn) s = fail .denied) ∧
    (takes s fn 0x10 → 256 ≤ a 0 → Machine.exec (.ctxcreate fn) s = fail .badarg) ∧
    (takes s fn 0x11 → named → Machine.exec (.ctxreset fn) s = ok (s.resetContext k) []) ∧
    (takes s fn 0x11 → s.ctxArg fn (argOf s fn 0) = none → Machine.exec (.ctxreset fn) s = fail .badarg) ∧
    (takes s fn 0x12 → named → s.part? c.vf = some p → a 1 < 16 → a 2 % 8 = 0 → a 2 < 2 ^ 39 → 4 ≤ a 3 → a 3 ≤ 12 → p.queues.find? (a 1) = none →
      Machine.exec (.qcreate fn) s = ok (s.modPart c.vf fun p => { p with queues := p.queues.put (a 1) ⟨k, a 2, a 3, 0, 0⟩ }) []) ∧
    (takes s fn 0x13 → named → c.st = .live → Machine.exec (.preempt fn) s =
      ok ((s.haltContext k).modCtx k fun c => { c with saveCounter := some (fn, argOf s fn 1) }) []) ∧
    (takes s fn 0x14 → named → c.st = .saved → s.part? c.vf = some p → (∀ t ∈ c.saved, s.coreThere p t.core = true) →
      Machine.exec (.resume fn) s = ok (s.modCtx k fun c => { c with st := .live }) []) ∧
    (∀ w e cause, takes s fn 0x15 → named → a 1 < 384 → a 2 < 32 → s.warp? (a 1) (a 2) = some w → w.holdEntry = some (e, cause) →
      s.ctxIdOfTeam w.team = k →
      (a 3 = 0 → Machine.exec (.reply fn) s = ok ((s.modWarp (a 1) (a 2) fun w => w.modEntry e fun y => { y with wait := .none, seqd := false, paired := none }).nextHeldTrap (a 1) (a 2)) []) ∧
      (a 3 = 1 → Machine.exec (.reply fn) s = ok (s.enterHandler (a 1) (a 2) e w.trap) []) ∧
      (2 ≤ a 3 → a 3 < 256 → Machine.exec (.reply fn) s = ok (s.endContext k cause .faulted) [])) ∧
    (takes s fn 0x16 → named →
      let keep (t : Trans) : Bool := !(t.ctx == k && decide (t.va < a 1 + a 2) && decide (a 1 < t.va + t.size))
      Machine.exec (.tlbinv fn) s = ok { s with
        cores := s.cores.mapVals fun c => { c with tlb := c.tlb.filter keep }
        l2tlb := s.l2tlb.mapVals fun l => l.filter keep
        walkCache := s.walkCache.mapVals fun l => l.filter fun w =>
          keep ⟨w.ctx, w.pre * 2 ^ (57 - 9 * w.level), 2 ^ (57 - 9 * w.level), 0⟩ } []) ∧
    (takes s fn 0x17 → (fn = 0 ∨ a 0 = fn) → a 0 < 256 → s.part? (a 0) = some p → Machine.exec (.icinv fn) s = ok { s with
      cores := s.cores.map fun x => if p.hives.contains (hiveOfCore x.1) then (x.1, { x.2 with icache := [] }) else x } []) ∧
    (takes s fn 0x18 → a 0 % 4096 = 0 → a 0 < 2 ^ 39 → reservedPa (a 0) = false → a 1 < 2 → fn = 0 → s.isHostBias (a 0) ≠ (a 1 == 1) →
      let page := a 0 / 4096
      let begun := s.flips.find? fun f => f.1 == page
      let id := (begun.map (·.2)).getD s.nextId
      let t : State := if begun.isSome then s else { s with flips := s.flips ++ [(page, id)] }
      let wait := t.pageBusy page id || t.hostInFlight.any fun h => h.1 / 4096 == page
      let done (t : State) : State := ({ t with flips := t.flips.filter fun f => f.1 != page } : State).drainEngine
      (wait = true → Machine.exec (.flip fn) s = .next { t with mboxCur := some fn }) ∧
      (wait = false → a 1 = 1 → Machine.exec (.flip fn) s = ok (done { t.flushPage page with hostBias := page :: t.hostBias }) []) ∧
      (wait = false → a 1 = 0 → Machine.exec (.flip fn) s = ok (done { t with hostBias := t.hostBias.filter (· ≠ page) }) []))

/-- R394 to R397: a partition is created of resources that its list names and that are free, resized, and destroyed: its contexts end, and once
no update of one of its counters waits its claims go and its rows await zero fill. -/
def Obligations.PartitionCommands : Prop :=
  ∀ (s s1 : State) (p : Partition) (l : ResList),
    let a (i : Nat) : Nat := (argOf s 0 i).toNat
    let vf := a 0
    let fail (st : Status) : Host.Outcome State Fault Refusal := .next (s.finishCommand 0 st [])
    (takes s 0 1 → 1 ≤ vf → vf ≤ 64 → 6 ≤ a 3 → a 3 ≤ 16 → a 2 + 32 * 2 ^ a 3 ≤ 2 ^ 39 → a 4 < 2 →
      (s.part? vf = none → s.listWaits (argOf s 0 1) = false → s.readList (argOf s 0 1) = (.ok l, s1) → l.consistent = true →
        (s1.available vf [] l = false → Machine.exec (.pcreate 0) s = .next (s1.finishCommand 0 .nores [])) ∧
        (s1.available vf [] l = true → ∃ (u : State) (q : Partition), Machine.exec (.pcreate 0) s = .next (u.finishCommand 0 .ok []) ∧
          u.part? vf = some q ∧ q.hives = l.hives ∧ q.cells = l.cells ∧ q.stks = l.stks ∧ q.channels = l.channels ∧ q.ranges = l.ranges ∧
          q.replay = (argOf s 0 4).getLsbD 0 ∧ ∀ row ∈ rowsOf l.ranges, u.perms.get Perm.reset row = ⟨vf, true, true, true⟩))) ∧
    (takes s 0 2 → s.part? vf = some p → s.listWaits (argOf s 0 1) = false → s.readList (argOf s 0 1) = (.ok l, s1) → l.consistent = true →
      s1.available vf p.toList.entries l = true →
      s1.contextsOn (p.hives.filter fun h => !l.hives.contains h) = [] → s1.contextsUsing (p.channels.filter fun c => !l.channels.contains c) = [] →
      (∀ g ∈ s1.grids, g.2.vf ≠ vf) → Machine.exec (.presize 0) s = .next ((s1.applyList vf p l).finishCommand 0 .ok [])) ∧
    (takes s 0 2 → s.part? vf = none → Machine.exec (.presize 0) s = fail .badarg) ∧
    (takes s 0 3 → s.part? vf = some p →
      let q := if s.mboxCur = some 0 then s else (s.resetContexts fun _ c => c.vf == vf).modPart vf fun p => { p with queues := [] }
      let t := (((q.unclaimAll vf).takeRows (rowsOf p.ranges)).freeEntries p.toList.entries).clearStoves p.channels
      (q.owesUpdates vf = true → Machine.exec (.pdestroy 0) s = .next { q with mboxCur := some 0 }) ∧
      (q.owesUpdates vf = false → Machine.exec (.pdestroy 0) s = .next (({ t with
        parts := t.parts.erase vf, hives := t.hives.map fun h => if p.hives.contains h.1 then (h.1, { h.2 with start := none }) else h,
        contexts := t.contexts.filterVals fun c => c.vf != vf, buckets := t.buckets.filter fun b => b.1 / 768 != vf,
        heldReq := t.heldReq.filter fun b => b.1 / 768 != vf,
        pkgQ := t.pkgQ.filter fun q => q.1 / 4 != vf } : State).finishCommand 0 .ok []))) ∧
    (takes s 0 3 → s.part? vf = none → Machine.exec (.pdestroy 0) s = fail .badarg)

/-- R133, R400, R404, R405, R408: a free bank or trace unit is claimed by a function that may, a holder releases it; a key that opens is loaded in its
slot; a quote is written; an image that passes the ROM's checks boots. -/
def Obligations.ClaimsAndKeys : Prop :=
  ∀ (s s1 s2 : State) (fn : Nat) (h ct key nonce : List Byte),
    let a (i : Nat) : Nat := (argOf s fn i).toNat
    let ok (s : State) : Host.Outcome State Fault Refusal := .next (s.finishCommand fn .ok [])
    let fail (st : Status) : Host.Outcome State Fault Refusal := .next (s.finishCommand fn st [])
    let sel := (List.range 8).map fun i => bitsOf (a 2) (8 * i + 7) (8 * i)
    (takes s fn 0x20 → a 0 = 10 → a 1 < 64 → s.mayClaim fn 10 (a 1) = true → (∀ c ∈ sel, countedEvent c = true) →
      (s.banks.find? (a 1) = none → Machine.exec (.claim fn) s = ok (s.takeBank (a 1) fn sel none)) ∧
      (∀ b, s.banks.find? (a 1) = some b → b.holder = some fn → (∀ y ∈ b.revoked, y.1 ≠ fn) → Machine.exec (.claim fn) s = fail .busy)) ∧
    (takes s fn 0x21 → (a 0 = 10 ∨ a 0 = 11) → a 1 < soricaCount (a 0) → (s.holding (a 0) (a 1)).1 = some fn →
      Machine.exec (.unclaim fn) s = ok (s.unclaim fn (a 0) (a 1))) ∧
    (takes s fn 0x30 → (s.part? fn).isSome = true → a 0 < 8 → s.argWaits (argOf s fn 1) 185 = false → s.argBytes fn (argOf s fn 1) 137 = (.ok h, s1) →
      fieldOf h 133 4 = 48 → s1.argBytes fn (argOf s fn 1 + 137) 48 = (.ok ct, s2) → Config.hpkeOpen s2.boots (toBytes 1 fn ++ toBytes 1 (a 0)) (h.take 133) ct = some key →
      Machine.exec (.keyload fn) s = ok (s2.modPart fn fun p => { p with keys := Tab.put p.keys (a 0) key, dumpSeq := p.dumpSeq.erase (a 0) })) ∧
    (takes s fn 0x30 → s.part? fn = none → Machine.exec (.keyload fn) s = fail .denied) ∧
    (takes s fn 0x31 → s.argWaits (argOf s fn 0) 64 = false → (∀ w ∈ wordsOf (a 1) 1024, s.recordWaits (4 * w.1) s.nextId = false) → s.argBytes fn (argOf s fn 0) 64 = (.ok nonce, s1) →
      a 1 + 1024 ≤ 2 ^ 39 → s1.writePhys fn (a 1) (s1.quote fn nonce) [] ⟨7, s1.mgmtCore, none, 0⟩ = .ok s2 →
      Machine.exec (.attest fn) s = ok s2) ∧
    (s.mboxNext = some 0 → (s.mailbox 0).op = 0x100 → s.bootStep = 3 → 1024 ≤ (argOf s 0 0).toNat → (argOf s 0 0).toNat ≤ 2 ^ 24 →
      let img := (List.range (argOf s 0 0).toNat).map fun i => s.bootWindow.get 0 i
      (s.imageOk img = false → Machine.exec (.boot 0) s = .next (s.finishCommand 0 .badarg [])) ∧
      (s.imageOk img = true → ∃ u : State, Machine.exec (.boot 0) s = .next (u.finishCommand 0 .ok []) ∧ u.bootStep = 6 ∧ u.boots = s.boots + 1 ∧
        u.measure = sha512 (s.measure ++ sha512 img) ∧ u.mem = s.mem ∧ u.heartbeat = s.vclock))

/-! ## The host and the device -/

/-- R104, R388, R402, R410, R416, R417: what the host writes. A doorbell within its ring moves the tail; a trace unit answers its holder alone; a
mailbox doorbell leaves the function pending; a function-level reset ends the command of the function that executes, resets every context of the function,
releases its claims and clears its keys and its mailbox. -/
def Sys2Proof.Claims.HostWrites : Prop :=
  ∀ (s : State) (fn vf queue u : Nat) (tail : Word) (v : DWord) (p : Partition) (q : LQueue),
    (s.part? vf = some p → s.fnUp vf = true → queue < 16 → p.queues.find? queue = some q →
      ((q.tail - q.head).toNat ≤ (tail - q.head).toNat → (tail - q.head).toNat ≤ 2 ^ q.n → Machine.exec (.launchDoorbell vf queue tail) s =
        .next (s.modPart vf fun p => { p with queues := p.queues.put queue { q with tail := tail } })) ∧
      (2 ^ q.n < (tail - q.head).toNat → Machine.exec (.launchDoorbell vf queue tail) s = .next (s.log vf 0xF3 0 false 8 4 (BitVec.ofNat 64 queue)))) ∧
    (s.holdsUnit fn u = true → Machine.exec (.dumpNow fn u) s = .next (s.writeDumpCtl u (BitVec.ofNat 64 ((s.unit u).dumpCtl + 2 ^ 7))) ∧
      Machine.exec (.countStopArm fn u) s = .next (s.writeControl u (BitVec.ofNat 64 ({ s.unit u with arm := true } : TraceUnit).control)) ∧
      (v.toNat ≤ (s.unit u).wcount.toNat → Machine.exec (.traceRcountWrite fn u v) s = .next (s.modUnit u fun x => { x with rcount := v })) ∧
      ((s.unit u).wcount.toNat < v.toNat → Machine.exec (.traceRcountWrite fn u v) s = .next s)) ∧
    (s.holdsUnit fn u = false → Machine.exec (.dumpNow fn u) s = .next s ∧ Machine.exec (.countStopArm fn u) s = .next s ∧
      Machine.exec (.traceRcountWrite fn u v) s = .next s) ∧
    (s.fnUp fn = true → (s.mailbox fn).status ≠ .pending → Machine.exec (.registerWrite fn .doorbell v) s =
      .next { s.modMailbox fn (fun m => { m with status := .pending }) with mboxOrder := s.mboxOrder ++ [fn] }) ∧
    (s.fnUp fn = true → (s.mailbox fn).status = .pending → Machine.exec (.registerWrite fn .doorbell v) s = .next s) ∧
    (s.fnUp fn = true → Machine.exec (.registerWrite fn .mailboxOp v) s = .next (s.modMailbox fn fun m => { m with op := v.setWidth 16 })) ∧
    (s.fnUp fn = false → ∀ r, Machine.exec (.registerWrite fn r v) s = .next s) ∧
    (s.fnUp fn = true → ∀ i, Machine.exec (.registerWrite fn (.mailboxArg i) v) s = .next (s.modMailbox fn fun m => { m with args := m.args.set i v })) ∧
    (s.holdsUnit fn u = true → s.fnUp fn = true →
      Machine.exec (.registerWrite fn (.traceStopCnt u) v) s = .next (s.modUnit u fun x => { x with stopcnt := v }) ∧
      Machine.exec (.registerWrite fn (.traceDumpBase u) v) s = .next (s.modUnit u fun x => { x with dumpbase := v })) ∧
    (1 ≤ vf → vf ≤ 64 →
      let at_ : State := if s.mboxCur = some vf then { s with flips := [], mboxCur := none } else s
      let t := (((at_.resetContexts fun _ c => c.vf == vf).unclaimAll vf).modPart vf fun p => { p with keys := [], dumpSeq := [] }).drainEngine
      Machine.exec (.functionLevelReset vf) s = .next { t with
        mailboxes := t.mailboxes.erase vf, mboxOrder := t.mboxOrder.filter (· ≠ vf), f0Run := t.f0Run.erase vf })

/-- R351, R367, R385 to R387, R414, Table 4.7: a first training of a link, the second of the two, which exposes PF 0, and a fall back; a host read that
DRAM can supply answers the bytes of device memory, or is refused in the reserved rows; a host write within a line is held for a replay partition's
boundary, is in flight on a host-bias page, and otherwise is performed at its home and in DRAM; the host's request in flight on a line completes in
memory before the device's access. -/
def Sys2Proof.Claims.LinksAndHostMemory : Prop :=
  ∀ (s : State) (link width rate pa n line : Nat) (bytes : List Byte),
    let up : Prop := 6 ≤ s.bootStep ∧ (s.flit 0 = true ∨ s.flit 1 = true)
    let old := s.links.getD link (0, 0)
    (link < 2 → linkWidths.contains width = true → linkRates.contains rate = true → old.1 = 0 →
      let t := { s with links := s.links.set link (width, rate) }
      Machine.exec (.linkTraining link width rate) s = .next (if s.bootStep = 1 ∧ (∀ l ∈ t.links, l.1 ≠ 0) then { t with bootStep := 3 } else t)) ∧
    (link < 2 → linkWidths.contains width = true → linkRates.contains rate = true → old.1 ≠ 0 → width ≤ old.1 → rate ≤ old.2 → s.bootStep ≠ 1 →
      Machine.exec (.linkTraining link width rate) s = .next { s with links := s.links.set link (width, rate) }) ∧
    (old.1 ≠ 0 → (old.1 < width ∨ old.2 < rate) → Machine.exec (.linkTraining link width rate) s = .next s) ∧
    (up → pa + n ≤ 2 ^ 39 → s.dramHeld pa n = false → hostDenied pa n = none →
      (∀ w ∈ wordsOf pa n, (s.homeWord w.1).2 = false) → Machine.exec (.hostCxlMemAccess (.read pa n)) s = .next { s.touchRun 0 pa n with
        hostRead := some ((List.range n).map fun i => s.hostByte (pa + i), 0) } ∧
      (s.hostInFlight = [] → ∀ i, s.hostByte (pa + i) = (s.homeWord ((pa + i) / 4)).1.extractLsb' (8 * ((pa + i) % 4)) 8)) ∧
    (∀ a, up → pa + n ≤ 2 ^ 39 → s.dramHeld pa n = false → hostDenied pa n = some a →
      Machine.exec (.hostCxlMemAccess (.read pa n)) s = .next (s.refuseHost a)) ∧
    (up → pa + bytes.length ≤ 2 ^ 39 → (∀ w ∈ wordsOf pa bytes.length, (s.hearth (stackOfPa (4 * w.1))).compute = false) →
      (∀ a, hostDenied pa bytes.length = some a → Machine.exec (.hostCxlMemAccess (.write pa bytes)) s = .next (s.refuseHost a)) ∧
      (hostDenied pa bytes.length = none → bytes ≠ [] → pa % 64 + bytes.length ≤ 64 → Machine.exec (.hostCxlMemAccess (.write pa bytes)) s =
        .next (match s.replayOwner (rowOfPa pa) with
          | some vf => s.modPart vf fun p => { p with hostHeld := p.hostHeld ++ [(pa, bytes)] }
          | none => if s.isHostBias pa then { s with hostInFlight := s.hostInFlight ++ [(pa, bytes)] } else s.hostWrite pa bytes))) ∧
    ((s.hearth (stackOfPa (64 * line))).compute = false →
      (∀ h, (s.hostInFlight.filter fun h => h.1 / 64 == line) = [h] → Machine.exec (.backInvalidateReissue line) s =
        .next { s.hostWrite h.1 h.2 with hostInFlight := s.hostInFlight.filter fun y => y.1 / 64 != line })) ∧
    ((s.hearth (stackOfPa (64 * line))).compute = true → Machine.exec (.backInvalidateReissue line) s = .next s)

/-- R104, R351, R385, R386, R388, R402, R410, R416, R417: what the host does. -/
def Obligations.HostActions : Prop := Sys2Proof.Claims.HostWrites ∧ Sys2Proof.Claims.LinksAndHostMemory

/-- R24, R402, R404: the loss of supply, a device reset and a hot reset leave the state of reset, with fuses kept. Host memory and the model's own
fields (assumptions 1 to 3) are not the device's. -/
def Obligations.Resets : Prop :=
  ∀ (s : State) (r : Bool),
    let t (powered : Bool) : State := { State.reset with
      agenda := s.agenda, freeCtr := s.freeCtr, nextId := s.nextId, boots := s.boots, fuses := s.fuses, hostMem := s.hostMem, powered := powered }
    Machine.exec .deviceReset s = .next (t true) ∧ Machine.exec .supplyRemoved s = .next (t false) ∧
    (s.powered = r → Machine.exec .hotReset s = .next (if r then t true else s))

/-- R18, R23, R82, R120, R130, R396, R406: a tick of VCLOCK advances it by one and the DRAM command clock by two, and fills the buckets; throttling, the
heartbeat and the takeover, which aborts the command that executes; scrub of a row, without an owning function, word by word where bits are in error, and zero fill of a released one; the I3C report; a part lost to
a fault. -/
def Obligations.DeviceEvents : Prop :=
  ∀ (s : State) (island mhz row kind index : Nat),
    (s.powered = true → s.teams = [] → s.contexts = [] → s.traceUnits = [] → s.openRows = [] → s.wordQ = [] → Machine.exec .vclockTick s = .next { s with
      vclock := s.vclock + 1, dclk := s.dclk + 2, buckets := s.buckets.mapVals Bucket.tick, soricaW := stepWrites [] s.soricaW }) ∧
    (s.powered = false → Machine.exec .vclockTick s = .next s) ∧
    (6 ≤ s.bootStep → island < 256 → dramIsland island = false → 1 ≤ mhz → mhz < s.mhzOf island →
      Machine.exec (.throttle island mhz) s = .next ((s.setIsland island mhz).logMgmt ⟨s.vclock, 0, 0xF0, 7, s.mgmtCore, 0xFF, 0, 0⟩)) ∧
    (s.shadow = false → 6 ≤ s.bootStep → Machine.exec .mgmtHeartbeat s = .next { s with heartbeat := s.vclock }) ∧
    (s.shadow = false → 6 ≤ s.bootStep → 12000000 ≤ (s.vclock - s.heartbeat).toNat →
      (s.mboxCur = none → s.mboxNext = none →
        Machine.exec .takeover s = .next ({ s with shadow := true }.logMgmt ⟨s.vclock, 0, 0, 7, 1, 0xFF, 0, 0⟩)) ∧
      (∀ f, s.mboxCur = some f →
        let t := (({ (s.pick 2).2 with flips := [] } : State).finishCommand f .aborted []).drainEngine
        Machine.exec .takeover s = .next ({ t with shadow := true }.logMgmt ⟨t.vclock, 0, 0, 7, 1, 0xFF, 0, 0⟩))) ∧
    (6 ≤ s.bootStep → row < 2 ^ 28 → (s.hearth (stackOfPa (2048 * row))).compute = false → s.synd = [] → s.poisoned = [] →
      Machine.exec (.patrolScrub row) s = .next s) ∧
    (6 ≤ s.bootStep → row < 2 ^ 28 → (s.hearth (stackOfPa (2048 * row))).compute = false →
      let bad := ((List.range 512).map fun i => row * 512 + i).filter fun w => s.synd.get 0 w != 0 || s.poisoned.contains w
      Machine.exec (.patrolScrub row) s = .next (s.each bad fun s w =>
        if s.poisoned.contains w = false ∧ (eccResolve (s.dramData w) (s.synd.get 0 w)).2.2 = true ∧ s.elision.find? row = none
        then ((s.hearthRead 0xFF w).2.2).logPhys 0xFF 0xF1 (4 * w) none 4 (stackOfPa (2048 * row)) 0 else (s.hearthRead 0xFF w).2.2)) ∧
    (6 ≤ s.bootStep → (s.hearth (stackOfPa (2048 * row))).compute = false → (∃ u ∈ s.unfilled, u.1 ≤ row ∧ row < u.1 + u.2) →
      ∃ t : State, Machine.exec (.zeroFill row) s = .next t ∧ t.unfilled = takeRow row s.unfilled ∧ (∀ c ∈ t.mem, c.1 / 2048 ≠ row) ∧
        (s.l2 = [] → s.sync = [] → s.wordQ = [] → t.mem = s.mem.filter fun c => c.1 / 2048 != row)) ∧
    (s.powered = true → Machine.exec .i3cTemperatureReport s = .next { s with i3cReports := s.i3cReports ++ [s.vclock] }) ∧
    (index < soricaCount kind → s.soricaSt kind index < 2 → Machine.exec (.retiredByFault kind index) s = .next (s.setSorica kind index 3 0xFF))

/-! ## Empty Active -/

/-- R28, R187, R223 and the classes' own rules: with an empty Active the instructions of the synchronisation, memory, copy, near-memory and system
classes that are listed, and `trap`, `brk` and `yield`, have no effect but their completion. -/
def Obligations.EmptyActive : Prop :=
  ∀ (s : State) (h : Hdr) (v : VBody) (b : IBody) (m : MBody) (y : SBody) (j : JBody) (x : Ctx), x.act = 0 →
    ∀ i ∈ [Instr.barArrive h b, .barWait h b, .barSync h b, .barQuery h b, .drain h b, .fence h b, .owait h b, .cwait h v, .glaunch h v,
      .gwait h v, .ld h m, .ldp h m, .ldc h m, .ldl h m, .st h m, .stp h m, .stl h m, .atom h m, .ared h m, .cas16 h m, .bcopy h v, .bloop h v,
      .bmcast h v, .brel h v, .nred h v, .nlaunch h v, .nstat h v, .nkill h v, .srd h y, .swr h y, .sysc h y, .txend h v, .txabt h v, .trap h b,
      .cyield h v, .txbeg h j, .kcoll h v, .gred h m, .lds h m, .sts h m, .pf h m, .wbr h m, .invr h m, .brk h v, .yield h v],
      Ready i s x → Machine.exec i s = .next (s.taken.completed x)

/-! ## Frames -/

/-- The byte a device address holds at its home. -/
def Sys2Proof.Claims.homeByte (s : State) (a : Nat) : Byte := (s.homeWord (a / 4)).1.extractLsb' (8 * (a % 4)) 8

/-- An instruction that gives its results in registers leaves everything else as it was: of its own warp every register it does not write, the
trap registers and every thread's state, FPFLAGS but for the flags it raises; every other warp, all memory and every other part of the machine.
Only the split table, WORKCNT, the performance counters and the turn of a pair's second instruction go on. The grid is not traced: a reconvergence
of a traced one writes its record (R411). -/
def Obligations.ResultFrame : Prop :=
  ∀ (i : Instr) (s t : State) (x : Ctx) (ws : Ctx → List RegWrite) (f : Ctx → BitVec 5), Gives i s ws f → Ready i s x → x.lr.flags % 2 = 0 →
    Machine.exec i s = .next t →
    t = { s with cur := .none, agenda := t.agenda, banks := t.banks, warps := t.warps } ∧
    (∀ k, k ≠ warpIx x.core x.slot → t.warps.find? k = s.warps.find? k) ∧
    ∃ w w0, t.warp? x.core x.slot = some w ∧ s.warp? x.core x.slot = some w0 ∧
      w = { w0 with
        entries := w.entries, deferrals := w.deferrals, vregs := w.vregs, sregs := w.sregs, preds := w.preds, windows := w.windows,
        fpflags := w0.fpflags ||| f x, workcnt := w0.workcnt + 1, quantum := w.quantum } ∧
      ∀ el, (∀ r ∈ ws x, r.elem ≠ el) → w.file el = w0.file el

/-- R228, R271, R272, R278: loads, stores and atomics whose lanes pass leave every byte of memory, every register, the flags and every other warp as
they are at their issue; what they store reaches memory at its home. Before that only the translation of their lanes and the bringing in of words of
SYNC pages act (R94, R100): `s1` is the state after the former. Where a queue or a counter has no room they stall, and nothing has happened. Where the TLBs hold the translations and no lane lies in a SYNC page, both change
nothing of it. The warps of a screened team may be ended with its screen (R372). -/
def Obligations.AccessFrame : Prop :=
  (∀ (s s1 t : State) (h : Hdr) (b : MBody) (x : Ctx) (l : List (Nat × Parts)), x.lr.flags % 2 = 0 → x.w.inTx x.act = 0 →
    let n := memBytes b
    let glob (va : Nat → DWord) (k : AccessKind) (al : Bool) : Except FaultInfo (List (Nat × Parts)) × State :=
      checkLanes s.taken x.threads (fun t s => x.globalLane (va t) n k al s) va
    let priv (k : AccessKind) : Except FaultInfo (List (Nat × Parts)) × State :=
      checkLanes s.taken x.threads (fun t s => x.privateLane (x.ea b t) n t k s) fun _ => 0
    let keeps (u : State) : Prop := (∀ a, homeByte t a = homeByte u a) ∧ (∀ a, Memory.read t.hostMem a = Memory.read u.hostMem a) ∧
      ((s.team? x.team).bind (·.screen) = none → (∀ k, k ≠ warpIx x.core x.slot → t.warps.find? k = u.warps.find? k) ∧
        ∃ w w0, t.warp? x.core x.slot = some w ∧ s.warp? x.core x.slot = some w0 ∧ w.vregs = w0.vregs ∧ w.sregs = w0.sregs ∧ w.preds = w0.preds ∧
          w.fpflags = w0.fpflags ∧ w.trap = w0.trap ∧ w.exited = w0.exited ∧ w.tx = w0.tx)
    ∀ y ∈ [(Instr.ld h b, glob (x.ea b) .read false), (.ldp h b, glob (x.patternEa b) .read false), (.ldc h b, glob (x.ea b) .read false), (.ldl h b, priv .read),
      (.st h b, glob (x.ea b) .write false), (.stp h b, glob (x.patternEa b) .write false), (.stl h b, priv .write), (.atom h b, glob (x.ea b) .atomic true),
      (.ared h b, glob (x.ea b) .atomic true), (.cas16 h b, glob (x.ea b) .atomic true)],
      y.2 = (.ok l, s1) → Ready y.1 s x → Machine.exec y.1 s = .next t →
        (keeps s ∨ keeps (s1.bringLanes x.vf l)) ∧
        (s1 = { s.taken with cores := s1.cores } → (∀ z ∈ l, ∀ p ∈ z.2, p.1.sync = false) → keeps s)) ∧
  ∀ (s : State) (core ctx : Nat) (va : DWord) (k : AccessKind) (tr : Trans), (findTrans (s.core core).tlb ctx va.toNat = some tr ∨
    findTrans ((s.l2tlb.find? (hiveOfCore core)).getD []) ctx va.toNat = some tr) →
      (s.resolve core ctx va k).2 = { s with cores := (s.resolve core ctx va k).2.cores }

/-- R83, R91, R274: a store applied at its home changes the bytes it stores, which begin at its address, and no other byte of memory: one of a frame
whose set has room for it, of words that take it and lie in no overflow area. A frame whose clean bytes are those that DRAM holds, or will once its queue is served,
leaves its slice with every byte as it was. A comb store to words that are not poisoned changes only the words of its lanes in the
hive's comb. -/
def Obligations.StoreFrame : Prop :=
  ∀ (s t : State),
    (∀ id copy y, s.stores.find? id = some y → y.copies = [] → s.isHostBias y.pa = false → y.pa % 256 + y.bytes.length ≤ 256 →
      ((s.l2Frames (y.pa / 256)).filter (· ≠ y.pa / 256)).length < s.waysOf (s.frameOwner (y.pa / 256)) (homeDie (256 * (y.pa / 256))) →
      (∀ w ∈ wordsOf y.pa y.bytes.length, s.rowOk y.vf (4 * w.1) true false = true ∧ (s.homeWord w.1).2 = false ∧ s.overflow.contains w.1 = false) →
      Machine.exec (.homeStore id copy) s = .next t → ∀ a, (a < y.pa ∨ y.pa + y.bytes.length ≤ a) → homeByte t a = homeByte s a) ∧
    (∀ frame, (∀ w z, w / 64 = frame → s.l2.find? w = some z → z.dirty = 0 → mergeBytes (s.memWord w).1 z.data z.valid = (s.memWord w).1) →
      ∀ a, homeByte (s.l2Evict frame) a = homeByte s a) ∧
    (∀ h b x l s1 tm, Ready (.sts h b) s x → x.lr.flags % 2 = 0 → s.team? x.team = some tm →
      checkLanes s.taken x.threads (fun k s => x.combLane tm (x.ea b k) (memBytes b) true s) (fun _ => 0) = (.ok l, s1) →
      let mine (wi : Nat) : Prop := ∃ y ∈ l, ∃ w ∈ wordsOf (x.ea b y.1).toNat (memBytes b), combIndex tm.cells (4 * w.1) = some wi
      (∀ wi, mine wi → (s.hive (hiveOfCore x.core)).poison.contains wi = false ∧ Tab.get (s.hive (hiveOfCore x.core)).err 0 wi < 2) →
      Machine.exec (.sts h b) s = .next t → t.mem = s.mem ∧ t.hostMem = s.hostMem ∧
        ∀ wi, ¬mine wi → (t.hive (hiveOfCore x.core)).comb.get 0 wi = (s.hive (hiveOfCore x.core)).comb.get 0 wi)

/-- R291, R305 to R307, R338: the counter and branch instructions of a sequencer change that team, WORKCNT of its first warp and the performance
counters, and the arithmetic thread of a stove its stove, and nothing else. -/
def Obligations.SequencerAndStoveFrame : Prop :=
  ∀ (s t : State) (h : Hdr) (b : IBody) (c : CBody) (d a e : BitVec 4) (imm : BitVec 15) (x : SeqCtx) (k : Nat) (y : Stove),
    (s.seqAt x → ∀ i ∈ [Instr.mset h b, .mpoint h c], i.wellFormed = true → Machine.exec i s = .next t →
      t = { s with cur := .none, teams := t.teams, warps := t.warps, banks := t.banks } ∧ (∀ n, n ≠ x.ix → t.teams.find? n = s.teams.find? n) ∧
      ∀ n w, t.warps.find? n = some w → ∃ w0, s.warps.find? n = some w0 ∧ w = { w0 with workcnt := w.workcnt }) ∧
    (s.stoveAt k true y → (∀ r, r < 4 → (y.bt.get BurstWords.zero r).poison.any id = false) →
      ∀ i ∈ [Instr.xpop d, .xpush d a, .xadd d a e, .xmul d a e, .xfma d a e, .xmax d a e, .xscale d a e, .xcvt d a imm, .xset d a imm, .xsetAdd d a imm,
        .xsetB d a, .xend], i.wellFormed = true → Machine.exec i s = .next t →
      t = { s with cur := .none, stoves := t.stoves } ∧ ∀ n, n ≠ k → t.stoves.find? n = s.stoves.find? n)

/-! ## Encodings -/

/-- R180, R186, R190, R193, R336: the decoder reads every stream and stove word that the encoder writes as the instruction it stands for, with every
operand at every value, and each stream word that decodes is the word of its instruction. -/
def Obligations.DecodeEncode : Prop :=
  (∀ i w, encodeStream i = some w → decodeStream w = some i) ∧ (∀ w i, decodeStream w = some i → encodeStream i = some w) ∧
    (∀ i w, encodeStove i = some w → decodeStove w = .ok i) ∧ ∀ w i, decodeStove w = .ok i → encodeStove i = some w

/-- R194, Tables 9.7 and 15.7: the classes' opcodes are assigned from 0 on, the others are no instruction; a stove's operations are 0 to 9 and 16
to 27. -/
def Obligations.AssignedOpcodes : Prop :=
  (∀ w, (decodeStream w).isSome = true ↔ (opcOf w).toNat % 64 < ([12, 11, 29, 9, 8, 4, 12, 8, 11, 6, 12, 6, 5, 15, 5, 3] : List Nat).getD ((opcOf w).toNat / 64) 0) ∧
    ∀ w : Word, decodeStove w = .error .illegal ↔ (10 ≤ (w.extractLsb' 27 5).toNat ∧ (w.extractLsb' 27 5).toNat < 16) ∨ 28 ≤ (w.extractLsb' 27 5).toNat

/-- Words written out from Tables 9.4 to 9.7 and 15.7 decode to the instructions they stand for. -/
def Obligations.DecodedWords : Prop :=
  let hdr : Hdr := ⟨7, 7, false, 0, false, false, 0, false, 0⟩
  decodeStream 0x001DC0000000000000000000 = some (.nop hdr ⟨0, 0, 0, 0, 0, 0⟩) ∧
  decodeStream 0x201DC0000301020000000001 = some (.add hdr ⟨3, 1, 2, 0, 0, 1⟩) ∧
  decodeStream 0xD2DDC0000500000012340001 = some (.mset hdr ⟨5, 0, 0x1234, 1⟩) ∧
  decodeStove 0x2A8B0005 = .ok (.aadd 5 1 6 5) ∧
  decodeStove 0xD8000000 = .ok .xend

/-! ## Steps, reset and the memory invariant -/

/-- A step carries out the head of the agenda, the AGE of fragments that are not eligible being 0 first (R37). A scheduler's opportunity that selects a fragment whose slot decodes runs that instruction, with
its fragment as the issuer, after the other fragments have aged, the line's address has been translated and the lines of its targets have been read;
so do the second of a pair, a sequencer's turn and a stove's turn (R36, R184, R290, R336, R436). An instruction without a target outside the cache
reads no line. -/
def Obligations.StepRunsInstruction : Prop :=
  ∀ (s u v : State) (l : List Turn) (i : Instr) (word : BitVec 96) (line : BitVec 512), s.powered = true →
    let held (seq : Bool) (core ctx : Nat) (pc : DWord) (s u : State) : Prop :=
      s.cachedLine core ctx pc = some line ∧ slotWord line (slotOf pc) = word ∧ slotParityOk line (slotOf pc) = true ∧
      bitsOf (lineWord line).toNat 26 24 ≠ 7 ∧ (seq = true → bitsOf (lineWord line).toNat 26 24 = 0) ∧ bitsOf (lineWord line).toNat 18 0 = 0 ∧
      decodeStream word = some i ∧ ∃ p, s.resolve core ctx (lineOf pc) .fetch = (.ok p, u)
    let targets (cur : Cur) : List DWord := ((({ u with cur := cur } : State).issuer i).map fun x => x.targets i).getD []
    (∀ core sched upset skip f w, s.agenda = .issue core sched upset skip :: l →
      let s0 : State := ({ s with agenda := l } : State).restAges
      let s1 := s0.ageOthers core sched (s0.eligible core sched skip) f
      let s2 := if (s1.samplingOf core).isSome then s1.modCore core fun c => { c with lastIssue := c.lastIssue.put sched f } else s1
      let e := w.entry f.2
      let cur : Cur := .frag core f.1 f.2 e.pc word (if u.issuesPair core (s2.ctxIdOfTeam w.team) e then .first 0 else .alone) upset
      s0.select core sched skip = some f → s2.warp? core f.1 = some w → e.start = false → s2.replays (s2.vfOfTeam w.team) = false → e.paired = none →
      held false core (s2.ctxIdOfTeam w.team) e.pc s2 u → u.readTargets core (s2.ctxIdOfTeam w.team) (u.vfOfTeam w.team) (targets cur) = some v →
      step s = Machine.exec i { v with cur := cur }) ∧
    (∀ core slot entry upset w n, s.agenda = .second core slot entry upset :: l →
      let s0 : State := ({ s with agenda := l } : State).restAges
      let e := w.entry entry
      let cur : Cur := .frag core slot entry e.pc word (.second n) upset
      s0.warp? core slot = some w → e.paired = some n → e.st = .run → e.mask ≠ 0 → e.seqd = true → e.wait = .none →
      s0.heldBack core slot w e (s0.nextIssue core (s0.ctxIdOfTeam w.team) e) = false → s.replays (s.vfOfTeam w.team) = false →
      held false core (s.ctxIdOfTeam w.team) e.pc s0 u → u.readTargets core (s.ctxIdOfTeam w.team) (u.vfOfTeam w.team) (targets cur) = some v →
      step s = Machine.exec i { v with cur := cur }) ∧
    (∀ core team t q, s.agenda = .sequencer core team :: l →
      let ix := teamIx core team
      s.team? ix = some t → t.seq = some q → q.ended = false → q.start = false → s.ctxLive (s.ctxIdOfTeam ix) = true → s.teamStarting ix = false →
      s.replays (s.vfOfTeam ix) = false → held true core (s.ctxIdOfTeam ix) q.pc ({ s with agenda := l } : State).restAges u →
      u.readTargets core (u.ctxIdOfTeam ix) (u.vfOfTeam ix) (Sequencer.targets q.pc i) = some v →
      step s = Machine.exec i { v with cur := .seq core team q.pc word }) ∧
    (∀ stack ch arith w, s.agenda = .stove stack ch arith :: l → s.replays (s.stove (stack * 32 + ch)).vf = false →
      (s.stove (stack * 32 + ch)).ready arith = true → ((s.stove (stack * 32 + ch)).code arith)[(s.stove (stack * 32 + ch)).pc arith]? = some w →
      decodeStove w = .ok i → step s = Machine.exec i { ({ s with agenda := l } : State).restAges with cur := .stove stack ch arith }) ∧
    ∀ core ctx vf pcs, s.farLines core ctx pcs = [] → s.readTargets core ctx vf pcs = some s

/-- An event of the agenda happens as its row says; with no turn listed VCLOCK ticks; an instruction that its agent does not issue does nothing, and
without supply only the device's reset acts. A replay partition records the turns of its engines, and its dirty words are in DRAM
after each (assumption 47); in a re-execution one acts only in its place in the recorded order (R352). -/
def Obligations.StepRunsEvent : Prop :=
  ∀ (s : State) (l : List Turn) (i : Instr),
    let s0 : State := ({ s with agenda := l } : State).restAges
    (s.agenda = [] → step s = Machine.exec .vclockTick s.restAges) ∧
    (s.agenda = .event i :: l → encode i = none → s.powered = true → s0.recorded (.event i) = none → step s = Machine.exec i s0) ∧
    (∀ vf key u, s.agenda = .event i :: l → encode i = none → s.powered = true → s0.recorded (.event i) = some (vf, key) →
      let left := ((s0.part? vf).map (·.retrail)).getD []
      (left = [] ∨ left.head? = some key → Machine.exec i s0 = .next u →
        step s = .next (if u = s0 then s0 else (u.modPart vf fun p => { p with trail := p.trail ++ [key], retrail := p.retrail.drop 1 }).flushOwn vf)) ∧
      (left ≠ [] → left.head? ≠ some key → step s = .next s0)) ∧
    (s.agenda = .event i :: l → encode i ≠ none → step s = .next s0) ∧
    (s.agenda = .event i :: l → i ≠ .deviceReset → s.powered = false → step s = .next s0) ∧
    (s.agenda = .event .deviceReset :: l → step s = Machine.exec .deviceReset s0)

/-- R130: a tick of a powered device advances VCLOCK by 1 and the DRAM command clock by 2. -/
def Obligations.ClockTick : Prop :=
  ∀ (s : State), s.powered = true → ∃ t : State, Machine.exec .vclockTick s = .next t ∧ t.vclock = s.vclock + 1 ∧ t.dclk = s.dclk + 2

/-- Table 19.10 step 1, Tables 3.1, 5.1: after reset no partition, context, warp or team exists, every queue is empty, VCLOCK is 0, every row awaits
zero fill (step 6 marks them; the model's reset has them so from step 1) and belongs to no function, the links are untrained (assumption 12) and the
mailboxes hold OK. Its memory is in canonical form. -/
def Obligations.ResetState : Prop :=
  State.reset.memOk = true ∧ State.reset.bootStep = 1 ∧ State.reset.vclock = 0 ∧ State.reset.parts = [] ∧ State.reset.contexts = [] ∧
    State.reset.warps = [] ∧ State.reset.teams = [] ∧ State.reset.grids = [] ∧ State.reset.unfilled = [(0, 2 ^ 28)] ∧
    (∀ row, (State.reset.perms.get Perm.reset row).owner = 0x7F) ∧ State.reset.links = [(0, 0), (0, 0)] ∧
    (∀ fn, (State.reset.mailbox fn).status = .ok) ∧ State.reset.fuses.testmode = false

/-- Every step keeps device and host memory in canonical form: addresses rise and no listed byte is the default. -/
def Obligations.StepKeepsMemory : Prop := ∀ s t : State, s.memOk = true → step s = .next t → t.memOk = true
end

