-- ==== Sys2Proof/Laws/Exec.lean ====
section
/-! SUPPORT. Each arm of `exec`: the meaning of its instruction. -/

namespace Sys2Proof.Machine

theorem exec_nop (h : _) (b : _) (s : State) : exec (.nop h b) s = execNop h b s := rfl
theorem exec_bra (h : _) (b : _) (s : State) : exec (.bra h b) s = execBra h b s := rfl
theorem exec_brx (h : _) (b : _) (s : State) : exec (.brx h b) s = execBrx h b s := rfl
theorem exec_call (h : _) (b : _) (s : State) : exec (.call h b) s = execCall h b s := rfl
theorem exec_callx (h : _) (b : _) (s : State) : exec (.callx h b) s = execCallx h b s := rfl
theorem exec_ret (h : _) (b : _) (s : State) : exec (.ret h b) s = execRet h b s := rfl
theorem exec_exit (h : _) (b : _) (s : State) : exec (.exit h b) s = execExit h b s := rfl
theorem exec_join (h : _) (b : _) (s : State) : exec (.join h b) s = execJoin h b s := rfl
theorem exec_yield (h : _) (b : _) (s : State) : exec (.yield h b) s = execYield h b s := rfl
theorem exec_trap (h : _) (b : _) (s : State) : exec (.trap h b) s = execTrap h b s := rfl
theorem exec_tret (h : _) (b : _) (s : State) : exec (.tret h b) s = execTret h b s := rfl
theorem exec_brk (h : _) (b : _) (s : State) : exec (.brk h b) s = execBrk h b s := rfl
theorem exec_barArrive (h : _) (b : _) (s : State) : exec (.barArrive h b) s = execBarArrive h b s := rfl
theorem exec_barWait (h : _) (b : _) (s : State) : exec (.barWait h b) s = execBarWait h b s := rfl
theorem exec_barSync (h : _) (b : _) (s : State) : exec (.barSync h b) s = execBarSync h b s := rfl
theorem exec_barQuery (h : _) (b : _) (s : State) : exec (.barQuery h b) s = execBarQuery h b s := rfl
theorem exec_drain (h : _) (b : _) (s : State) : exec (.drain h b) s = execDrain h b s := rfl
theorem exec_fence (h : _) (b : _) (s : State) : exec (.fence h b) s = execFence h b s := rfl
theorem exec_owait (h : _) (b : _) (s : State) : exec (.owait h b) s = execOwait h b s := rfl
theorem exec_cwait (h : _) (b : _) (s : State) : exec (.cwait h b) s = execCwait h b s := rfl
theorem exec_cyield (h : _) (b : _) (s : State) : exec (.cyield h b) s = execCyield h b s := rfl
theorem exec_glaunch (h : _) (b : _) (s : State) : exec (.glaunch h b) s = execGlaunch h b s := rfl
theorem exec_gwait (h : _) (b : _) (s : State) : exec (.gwait h b) s = execGwait h b s := rfl
theorem exec_add (h : _) (b : _) (s : State) : exec (.add h b) s = execAdd h b s := rfl
theorem exec_sub (h : _) (b : _) (s : State) : exec (.sub h b) s = execSub h b s := rfl
theorem exec_mul (h : _) (b : _) (s : State) : exec (.mul h b) s = execMul h b s := rfl
theorem exec_mulh (h : _) (b : _) (s : State) : exec (.mulh h b) s = execMulh h b s := rfl
theorem exec_mad (h : _) (b : _) (s : State) : exec (.mad h b) s = execMad h b s := rfl
theorem exec_min (h : _) (b : _) (s : State) : exec (.min h b) s = execMin h b s := rfl
theorem exec_max (h : _) (b : _) (s : State) : exec (.max h b) s = execMax h b s := rfl
theorem exec_abs (h : _) (b : _) (s : State) : exec (.abs h b) s = execAbs h b s := rfl
theorem exec_neg (h : _) (b : _) (s : State) : exec (.neg h b) s = execNeg h b s := rfl
theorem exec_and (h : _) (b : _) (s : State) : exec (.and h b) s = execAnd h b s := rfl
theorem exec_or (h : _) (b : _) (s : State) : exec (.or h b) s = execOr h b s := rfl
theorem exec_xor (h : _) (b : _) (s : State) : exec (.xor h b) s = execXor h b s := rfl
theorem exec_not (h : _) (b : _) (s : State) : exec (.not h b) s = execNot h b s := rfl
theorem exec_andn (h : _) (b : _) (s : State) : exec (.andn h b) s = execAndn h b s := rfl
theorem exec_shl (h : _) (b : _) (s : State) : exec (.shl h b) s = execShl h b s := rfl
theorem exec_shr (h : _) (b : _) (s : State) : exec (.shr h b) s = execShr h b s := rfl
theorem exec_sar (h : _) (b : _) (s : State) : exec (.sar h b) s = execSar h b s := rfl
theorem exec_rot (h : _) (b : _) (s : State) : exec (.rot h b) s = execRot h b s := rfl
theorem exec_sel (h : _) (b : _) (s : State) : exec (.sel h b) s = execSel h b s := rfl
theorem exec_mov (h : _) (b : _) (s : State) : exec (.mov h b) s = execMov h b s := rfl
theorem exec_cmp (h : _) (b : _) (s : State) : exec (.cmp h b) s = execCmp h b s := rfl
theorem exec_addi (h : _) (b : _) (s : State) : exec (.addi h b) s = execAddi h b s := rfl
theorem exec_andi (h : _) (b : _) (s : State) : exec (.andi h b) s = execAndi h b s := rfl
theorem exec_ori (h : _) (b : _) (s : State) : exec (.ori h b) s = execOri h b s := rfl
theorem exec_movi (h : _) (b : _) (s : State) : exec (.movi h b) s = execMovi h b s := rfl
theorem exec_cmpi (h : _) (b : _) (s : State) : exec (.cmpi h b) s = execCmpi h b s := rfl
theorem exec_lea (h : _) (b : _) (s : State) : exec (.lea h b) s = execLea h b s := rfl
theorem exec_add64 (h : _) (b : _) (s : State) : exec (.add64 h b) s = execAdd64 h b s := rfl
theorem exec_mad64 (h : _) (b : _) (s : State) : exec (.mad64 h b) s = execMad64 h b s := rfl
theorem exec_popc (h : _) (b : _) (s : State) : exec (.popc h b) s = execPopc h b s := rfl
theorem exec_clz (h : _) (b : _) (s : State) : exec (.clz h b) s = execClz h b s := rfl
theorem exec_ctz (h : _) (b : _) (s : State) : exec (.ctz h b) s = execCtz h b s := rfl
theorem exec_brev (h : _) (b : _) (s : State) : exec (.brev h b) s = execBrev h b s := rfl
theorem exec_bfe (h : _) (b : _) (s : State) : exec (.bfe h b) s = execBfe h b s := rfl
theorem exec_bfi (h : _) (b : _) (s : State) : exec (.bfi h b) s = execBfi h b s := rfl
theorem exec_prmt (h : _) (b : _) (s : State) : exec (.prmt h b) s = execPrmt h b s := rfl
theorem exec_shfn (h : _) (b : _) (s : State) : exec (.shfn h b) s = execShfn h b s := rfl
theorem exec_lop3 (h : _) (b : _) (s : State) : exec (.lop3 h b) s = execLop3 h b s := rfl
theorem exec_shfl (h : _) (b : _) (s : State) : exec (.shfl h b) s = execShfl h b s := rfl
theorem exec_lred (h : _) (b : _) (s : State) : exec (.lred h b) s = execLred h b s := rfl
theorem exec_lscan (h : _) (b : _) (s : State) : exec (.lscan h b) s = execLscan h b s := rfl
theorem exec_vote (h : _) (b : _) (s : State) : exec (.vote h b) s = execVote h b s := rfl
theorem exec_ballot (h : _) (b : _) (s : State) : exec (.ballot h b) s = execBallot h b s := rfl
theorem exec_bcast (h : _) (b : _) (s : State) : exec (.bcast h b) s = execBcast h b s := rfl
theorem exec_matchLanes (h : _) (b : _) (s : State) : exec (.matchLanes h b) s = execMatchLanes h b s := rfl
theorem exec_prank (h : _) (b : _) (s : State) : exec (.prank h b) s = execPrank h b s := rfl
theorem exec_plop (h : _) (b : _) (s : State) : exec (.plop h b) s = execPlop h b s := rfl
theorem exec_pmask (h : _) (b : _) (s : State) : exec (.pmask h b) s = execPmask h b s := rfl
theorem exec_psetm (h : _) (b : _) (s : State) : exec (.psetm h b) s = execPsetm h b s := rfl
theorem exec_pact (h : _) (b : _) (s : State) : exec (.pact h b) s = execPact h b s := rfl
theorem exec_fadd (h : _) (b : _) (s : State) : exec (.fadd h b) s = execFadd h b s := rfl
theorem exec_fsub (h : _) (b : _) (s : State) : exec (.fsub h b) s = execFsub h b s := rfl
theorem exec_fmul (h : _) (b : _) (s : State) : exec (.fmul h b) s = execFmul h b s := rfl
theorem exec_ffma (h : _) (b : _) (s : State) : exec (.ffma h b) s = execFfma h b s := rfl
theorem exec_fmin (h : _) (b : _) (s : State) : exec (.fmin h b) s = execFmin h b s := rfl
theorem exec_fmax (h : _) (b : _) (s : State) : exec (.fmax h b) s = execFmax h b s := rfl
theorem exec_fcmp (h : _) (b : _) (s : State) : exec (.fcmp h b) s = execFcmp h b s := rfl
theorem exec_frnd (h : _) (b : _) (s : State) : exec (.frnd h b) s = execFrnd h b s := rfl
theorem exec_fclass (h : _) (b : _) (s : State) : exec (.fclass h b) s = execFclass h b s := rfl
theorem exec_fscale (h : _) (b : _) (s : State) : exec (.fscale h b) s = execFscale h b s := rfl
theorem exec_fexpt (h : _) (b : _) (s : State) : exec (.fexpt h b) s = execFexpt h b s := rfl
theorem exec_fdot2 (h : _) (b : _) (s : State) : exec (.fdot2 h b) s = execFdot2 h b s := rfl
theorem exec_hadd2 (h : _) (b : _) (s : State) : exec (.hadd2 h b) s = execHadd2 h b s := rfl
theorem exec_hsub2 (h : _) (b : _) (s : State) : exec (.hsub2 h b) s = execHsub2 h b s := rfl
theorem exec_hmul2 (h : _) (b : _) (s : State) : exec (.hmul2 h b) s = execHmul2 h b s := rfl
theorem exec_hfma2 (h : _) (b : _) (s : State) : exec (.hfma2 h b) s = execHfma2 h b s := rfl
theorem exec_hmin2 (h : _) (b : _) (s : State) : exec (.hmin2 h b) s = execHmin2 h b s := rfl
theorem exec_hmax2 (h : _) (b : _) (s : State) : exec (.hmax2 h b) s = execHmax2 h b s := rfl
theorem exec_hcmp2 (h : _) (b : _) (s : State) : exec (.hcmp2 h b) s = execHcmp2 h b s := rfl
theorem exec_e8dot4 (h : _) (b : _) (s : State) : exec (.e8dot4 h b) s = execE8dot4 h b s := rfl
theorem exec_frcp (h : _) (b : _) (s : State) : exec (.frcp h b) s = execFrcp h b s := rfl
theorem exec_frsq (h : _) (b : _) (s : State) : exec (.frsq h b) s = execFrsq h b s := rfl
theorem exec_fsqrt (h : _) (b : _) (s : State) : exec (.fsqrt h b) s = execFsqrt h b s := rfl
theorem exec_fex2 (h : _) (b : _) (s : State) : exec (.fex2 h b) s = execFex2 h b s := rfl
theorem exec_flg2 (h : _) (b : _) (s : State) : exec (.flg2 h b) s = execFlg2 h b s := rfl
theorem exec_fsin (h : _) (b : _) (s : State) : exec (.fsin h b) s = execFsin h b s := rfl
theorem exec_fcos (h : _) (b : _) (s : State) : exec (.fcos h b) s = execFcos h b s := rfl
theorem exec_fscs (h : _) (b : _) (s : State) : exec (.fscs h b) s = execFscs h b s := rfl
theorem exec_ftanh (h : _) (b : _) (s : State) : exec (.ftanh h b) s = execFtanh h b s := rfl
theorem exec_fsig (h : _) (b : _) (s : State) : exec (.fsig h b) s = execFsig h b s := rfl
theorem exec_ferf (h : _) (b : _) (s : State) : exec (.ferf h b) s = execFerf h b s := rfl
theorem exec_cvt (h : _) (b : _) (s : State) : exec (.cvt h b) s = execCvt h b s := rfl
theorem exec_cvtq (h : _) (b : _) (s : State) : exec (.cvtq h b) s = execCvtq h b s := rfl
theorem exec_cvtdq (h : _) (b : _) (s : State) : exec (.cvtdq h b) s = execCvtdq h b s := rfl
theorem exec_cvsc (h : _) (b : _) (s : State) : exec (.cvsc h b) s = execCvsc h b s := rfl
theorem exec_pack (h : _) (b : _) (s : State) : exec (.pack h b) s = execPack h b s := rfl
theorem exec_unpack (h : _) (b : _) (s : State) : exec (.unpack h b) s = execUnpack h b s := rfl
theorem exec_ld (h : _) (b : _) (s : State) : exec (.ld h b) s = execLd h b s := rfl
theorem exec_st (h : _) (b : _) (s : State) : exec (.st h b) s = execSt h b s := rfl
theorem exec_ldp (h : _) (b : _) (s : State) : exec (.ldp h b) s = execLdp h b s := rfl
theorem exec_stp (h : _) (b : _) (s : State) : exec (.stp h b) s = execStp h b s := rfl
theorem exec_ldc (h : _) (b : _) (s : State) : exec (.ldc h b) s = execLdc h b s := rfl
theorem exec_lds (h : _) (b : _) (s : State) : exec (.lds h b) s = execLds h b s := rfl
theorem exec_sts (h : _) (b : _) (s : State) : exec (.sts h b) s = execSts h b s := rfl
theorem exec_ldl (h : _) (b : _) (s : State) : exec (.ldl h b) s = execLdl h b s := rfl
theorem exec_stl (h : _) (b : _) (s : State) : exec (.stl h b) s = execStl h b s := rfl
theorem exec_pf (h : _) (b : _) (s : State) : exec (.pf h b) s = execPf h b s := rfl
theorem exec_wbr (h : _) (b : _) (s : State) : exec (.wbr h b) s = execWbr h b s := rfl
theorem exec_invr (h : _) (b : _) (s : State) : exec (.invr h b) s = execInvr h b s := rfl
theorem exec_atom (h : _) (b : _) (s : State) : exec (.atom h b) s = execAtom h b s := rfl
theorem exec_ared (h : _) (b : _) (s : State) : exec (.ared h b) s = execAred h b s := rfl
theorem exec_cas16 (h : _) (b : _) (s : State) : exec (.cas16 h b) s = execCas16 h b s := rfl
theorem exec_txbeg (h : _) (b : _) (s : State) : exec (.txbeg h b) s = execTxbeg h b s := rfl
theorem exec_txend (h : _) (b : _) (s : State) : exec (.txend h b) s = execTxend h b s := rfl
theorem exec_txabt (h : _) (b : _) (s : State) : exec (.txabt h b) s = execTxabt h b s := rfl
theorem exec_bcopy (h : _) (b : _) (s : State) : exec (.bcopy h b) s = execBcopy h b s := rfl
theorem exec_bloop (h : _) (b : _) (s : State) : exec (.bloop h b) s = execBloop h b s := rfl
theorem exec_brel (h : _) (b : _) (s : State) : exec (.brel h b) s = execBrel h b s := rfl
theorem exec_bmcast (h : _) (b : _) (s : State) : exec (.bmcast h b) s = execBmcast h b s := rfl
theorem exec_kcoll (h : _) (b : _) (s : State) : exec (.kcoll h b) s = execKcoll h b s := rfl
theorem exec_mseal (h : _) (b : _) (s : State) : exec (.mseal h b) s = execMseal h b s := rfl
theorem exec_munseal (h : _) (b : _) (s : State) : exec (.munseal h b) s = execMunseal h b s := rfl
theorem exec_mmac (h : _) (b : _) (s : State) : exec (.mmac h b) s = execMmac h b s := rfl
theorem exec_mstart (h : _) (b : _) (s : State) : exec (.mstart h b) s = execMstart h b s := rfl
theorem exec_mzero (h : _) (b : _) (s : State) : exec (.mzero h b) s = execMzero h b s := rfl
theorem exec_mget (h : _) (b : _) (s : State) : exec (.mget h b) s = execMget h b s := rfl
theorem exec_mput (h : _) (b : _) (s : State) : exec (.mput h b) s = execMput h b s := rfl
theorem exec_mbwait (h : _) (b : _) (s : State) : exec (.mbwait h b) s = execMbwait h b s := rfl
theorem exec_mbarr (h : _) (b : _) (s : State) : exec (.mbarr h b) s = execMbarr h b s := rfl
theorem exec_mbra (h : _) (b : _) (s : State) : exec (.mbra h b) s = execMbra h b s := rfl
theorem exec_mloop (h : _) (b : _) (s : State) : exec (.mloop h b) s = execMloop h b s := rfl
theorem exec_mset (h : _) (b : _) (s : State) : exec (.mset h b) s = execMset h b s := rfl
theorem exec_mpoint (h : _) (b : _) (s : State) : exec (.mpoint h b) s = execMpoint h b s := rfl
theorem exec_mend (h : _) (b : _) (s : State) : exec (.mend h b) s = execMend h b s := rfl
theorem exec_mfence (h : _) (b : _) (s : State) : exec (.mfence h b) s = execMfence h b s := rfl
theorem exec_gred (h : _) (b : _) (s : State) : exec (.gred h b) s = execGred h b s := rfl
theorem exec_nred (h : _) (b : _) (s : State) : exec (.nred h b) s = execNred h b s := rfl
theorem exec_nlaunch (h : _) (b : _) (s : State) : exec (.nlaunch h b) s = execNlaunch h b s := rfl
theorem exec_nstat (h : _) (b : _) (s : State) : exec (.nstat h b) s = execNstat h b s := rfl
theorem exec_nkill (h : _) (b : _) (s : State) : exec (.nkill h b) s = execNkill h b s := rfl
theorem exec_srd (h : _) (b : _) (s : State) : exec (.srd h b) s = execSrd h b s := rfl
theorem exec_swr (h : _) (b : _) (s : State) : exec (.swr h b) s = execSwr h b s := rfl
theorem exec_sysc (h : _) (b : _) (s : State) : exec (.sysc h b) s = execSysc h b s := rfl
theorem exec_aopen (a : _) (b : _) (s : State) : exec (.aopen a b) s = execAopen a b s := rfl
theorem exec_acol (a : _) (b : _) (imm : _) (s : State) : exec (.acol a b imm) s = execAcol a b imm s := rfl
theorem exec_awr (s : State) : exec (.awr) s = execAwr s := rfl
theorem exec_anext (s : State) : exec (.anext) s = execAnext s := rfl
theorem exec_aset (d : _) (a : _) (imm : _) (s : State) : exec (.aset d a imm) s = execAset d a imm s := rfl
theorem exec_aadd (d : _) (a : _) (b : _) (imm : _) (s : State) : exec (.aadd d a b imm) s = execAadd d a b imm s := rfl
theorem exec_aloop (d : _) (imm : _) (s : State) : exec (.aloop d imm) s = execAloop d imm s := rfl
theorem exec_abr (d : _) (a : _) (b : _) (imm : _) (s : State) : exec (.abr d a b imm) s = execAbr d a b imm s := rfl
theorem exec_awq (d : _) (s : State) : exec (.awq d) s = execAwq d s := rfl
theorem exec_aend (s : State) : exec (.aend) s = execAend s := rfl
theorem exec_xpop (d : _) (s : State) : exec (.xpop d) s = execXpop d s := rfl
theorem exec_xpush (a : _) (b : _) (s : State) : exec (.xpush a b) s = execXpush a b s := rfl
theorem exec_xadd (d : _) (a : _) (b : _) (s : State) : exec (.xadd d a b) s = execXadd d a b s := rfl
theorem exec_xmul (d : _) (a : _) (b : _) (s : State) : exec (.xmul d a b) s = execXmul d a b s := rfl
theorem exec_xfma (d : _) (a : _) (b : _) (s : State) : exec (.xfma d a b) s = execXfma d a b s := rfl
theorem exec_xmax (d : _) (a : _) (b : _) (s : State) : exec (.xmax d a b) s = execXmax d a b s := rfl
theorem exec_xscale (d : _) (a : _) (b : _) (s : State) : exec (.xscale d a b) s = execXscale d a b s := rfl
theorem exec_xcvt (d : _) (a : _) (imm : _) (s : State) : exec (.xcvt d a imm) s = execXcvt d a imm s := rfl
theorem exec_xset (d : _) (a : _) (imm : _) (s : State) : exec (.xset d a imm) s = execXset d a imm s := rfl
theorem exec_xsetAdd (d : _) (a : _) (imm : _) (s : State) : exec (.xsetAdd d a imm) s = execXsetAdd d a imm s := rfl
theorem exec_xsetB (d : _) (a : _) (s : State) : exec (.xsetB d a) s = execXsetB d a s := rfl
theorem exec_xloop (d : _) (imm : _) (s : State) : exec (.xloop d imm) s = execXloop d imm s := rfl
theorem exec_xbr (d : _) (a : _) (b : _) (imm : _) (s : State) : exec (.xbr d a b imm) s = execXbr d a b imm s := rfl
theorem exec_xend (s : State) : exec (.xend) s = execXend s := rfl
theorem exec_pcreate (fn : _) (s : State) : exec (.pcreate fn) s = execPcreate fn s := rfl
theorem exec_presize (fn : _) (s : State) : exec (.presize fn) s = execPresize fn s := rfl
theorem exec_pdestroy (fn : _) (s : State) : exec (.pdestroy fn) s = execPdestroy fn s := rfl
theorem exec_logset (fn : _) (s : State) : exec (.logset fn) s = execLogset fn s := rfl
theorem exec_setrate (fn : _) (s : State) : exec (.setrate fn) s = execSetrate fn s := rfl
theorem exec_setframe (fn : _) (s : State) : exec (.setframe fn) s = execSetframe fn s := rfl
theorem exec_elide (fn : _) (s : State) : exec (.elide fn) s = execElide fn s := rfl
theorem exec_fuseRaiseSvn (fn : _) (s : State) : exec (.fuseRaiseSvn fn) s = execFuseRaiseSvn fn s := rfl
theorem exec_fuseSetTestmode (fn : _) (s : State) : exec (.fuseSetTestmode fn) s = execFuseSetTestmode fn s := rfl
theorem exec_fuseRetireResource (fn : _) (s : State) : exec (.fuseRetireResource fn) s = execFuseRetireResource fn s := rfl
theorem exec_ctxcreate (fn : _) (s : State) : exec (.ctxcreate fn) s = execCtxcreate fn s := rfl
theorem exec_ctxreset (fn : _) (s : State) : exec (.ctxreset fn) s = execCtxreset fn s := rfl
theorem exec_qcreate (fn : _) (s : State) : exec (.qcreate fn) s = execQcreate fn s := rfl
theorem exec_preempt (fn : _) (s : State) : exec (.preempt fn) s = execPreempt fn s := rfl
theorem exec_resume (fn : _) (s : State) : exec (.resume fn) s = execResume fn s := rfl
theorem exec_reply (fn : _) (s : State) : exec (.reply fn) s = execReply fn s := rfl
theorem exec_tlbinv (fn : _) (s : State) : exec (.tlbinv fn) s = execTlbinv fn s := rfl
theorem exec_icinv (fn : _) (s : State) : exec (.icinv fn) s = execIcinv fn s := rfl
theorem exec_flip (fn : _) (s : State) : exec (.flip fn) s = execFlip fn s := rfl
theorem exec_claim (fn : _) (s : State) : exec (.claim fn) s = execClaim fn s := rfl
theorem exec_unclaim (fn : _) (s : State) : exec (.unclaim fn) s = execUnclaim fn s := rfl
theorem exec_keyload (fn : _) (s : State) : exec (.keyload fn) s = execKeyload fn s := rfl
theorem exec_attest (fn : _) (s : State) : exec (.attest fn) s = execAttest fn s := rfl
theorem exec_boot (fn : _) (s : State) : exec (.boot fn) s = execBoot fn s := rfl
theorem exec_launchDoorbell (vf : _) (queue : _) (tail : _) (s : State) : exec (.launchDoorbell vf queue tail) s = execLaunchDoorbell vf queue tail s := rfl
theorem exec_dumpNow (fn : _) (unit : _) (s : State) : exec (.dumpNow fn unit) s = execDumpNow fn unit s := rfl
theorem exec_countStopArm (fn : _) (unit : _) (s : State) : exec (.countStopArm fn unit) s = execCountStopArm fn unit s := rfl
theorem exec_traceRcountWrite (fn : _) (unit : _) (value : _) (s : State) : exec (.traceRcountWrite fn unit value) s = execTraceRcountWrite fn unit value s := rfl
theorem exec_registerWrite (fn : _) (reg : _) (value : _) (s : State) : exec (.registerWrite fn reg value) s = execRegisterWrite fn reg value s := rfl
theorem exec_deviceReset (s : State) : exec (.deviceReset) s = execDeviceReset s := rfl
theorem exec_supplyRemoved (s : State) : exec (.supplyRemoved) s = execSupplyRemoved s := rfl
theorem exec_hotReset (s : State) : exec (.hotReset) s = execHotReset s := rfl
theorem exec_functionLevelReset (vf : _) (s : State) : exec (.functionLevelReset vf) s = execFunctionLevelReset vf s := rfl
theorem exec_linkTraining (link : _) (width : _) (rate : _) (s : State) : exec (.linkTraining link width rate) s = execLinkTraining link width rate s := rfl
theorem exec_hostCxlMemAccess (access : _) (s : State) : exec (.hostCxlMemAccess access) s = execHostCxlMemAccess access s := rfl
theorem exec_backInvalidateReissue (line : _) (s : State) : exec (.backInvalidateReissue line) s = execBackInvalidateReissue line s := rfl
theorem exec_throttle (island : _) (mhz : _) (s : State) : exec (.throttle island mhz) s = execThrottle island mhz s := rfl
theorem exec_vclockTick (s : State) : exec (.vclockTick) s = execVclockTick s := rfl
theorem exec_mgmtHeartbeat (s : State) : exec (.mgmtHeartbeat) s = execMgmtHeartbeat s := rfl
theorem exec_takeover (s : State) : exec (.takeover) s = execTakeover s := rfl
theorem exec_patrolScrub (row : _) (s : State) : exec (.patrolScrub row) s = execPatrolScrub row s := rfl
theorem exec_zeroFill (row : _) (s : State) : exec (.zeroFill row) s = execZeroFill row s := rfl
theorem exec_launchAccept (vf : _) (s : State) : exec (.launchAccept vf) s = execLaunchAccept vf s := rfl
theorem exec_dependencyReread (grid : _) (s : State) : exec (.dependencyReread grid) s = execDependencyReread grid s := rfl
theorem exec_priorityPromotion (grid : _) (s : State) : exec (.priorityPromotion grid) s = execPriorityPromotion grid s := rfl
theorem exec_packageRangeHandout (vf : _) (s : State) : exec (.packageRangeHandout vf) s = execPackageRangeHandout vf s := rfl
theorem exec_dieRangeHandout (die : _) (vf : _) (s : State) : exec (.dieRangeHandout die vf) s = execDieRangeHandout die vf s := rfl
theorem exec_hiveSteal (hive : _) (vf : _) (s : State) : exec (.hiveSteal hive vf) s = execHiveSteal hive vf s := rfl
theorem exec_dieSteal (die : _) (vf : _) (s : State) : exec (.dieSteal die vf) s = execDieSteal die vf s := rfl
theorem exec_teamPlace (hive : _) (s : State) : exec (.teamPlace hive) s = execTeamPlace hive s := rfl
theorem exec_fitWaitExpiry (hive : _) (s : State) : exec (.fitWaitExpiry hive) s = execFitWaitExpiry hive s := rfl
theorem exec_teamRetire (core : _) (team : _) (s : State) : exec (.teamRetire core team) s = execTeamRetire core team s := rfl
theorem exec_gridRetire (grid : _) (s : State) : exec (.gridRetire grid) s = execGridRetire grid s := rfl
theorem exec_instructionFetch (who : _) (s : State) : exec (.instructionFetch who) s = execInstructionFetch who s := rfl
theorem exec_fetchParityRefetch (who : _) (s : State) : exec (.fetchParityRefetch who) s = execFetchParityRefetch who s := rfl
theorem exec_yieldExpiry (core : _) (slot : _) (entry : _) (s : State) : exec (.yieldExpiry core slot entry) s = execYieldExpiry core slot entry s := rfl
theorem exec_sample (core : _) (sched : _) (s : State) : exec (.sample core sched) s = execSample core sched s := rfl
theorem exec_storeSend (id : _) (s : State) : exec (.storeSend id) s = execStoreSend id s := rfl
theorem exec_homeStore (id : _) (copy : _) (s : State) : exec (.homeStore id copy) s = execHomeStore id copy s := rfl
theorem exec_storeAck (id : _) (s : State) : exec (.storeAck id) s = execStoreAck id s := rfl
theorem exec_loadReply (id : _) (evict : _) (s : State) : exec (.loadReply id evict) s = execLoadReply id evict s := rfl
theorem exec_sfuWriteback (id : _) (s : State) : exec (.sfuWriteback id) s = execSfuWriteback id s := rfl
theorem exec_tlbWalk (core : _) (ctx : _) (va : _) (s : State) : exec (.tlbWalk core ctx va) s = execTlbWalk core ctx va s := rfl
theorem exec_dramActivate (stack : _) (ch : _) (slice : _) (bank : _) (s : State) : exec (.dramActivate stack ch slice bank) s = execDramActivate stack ch slice bank s := rfl
theorem exec_dramPrecharge (stack : _) (ch : _) (slice : _) (bank : _) (s : State) : exec (.dramPrecharge stack ch slice bank) s = execDramPrecharge stack ch slice bank s := rfl
theorem exec_burst (stack : _) (ch : _) (retry : _) (s : State) : exec (.burst stack ch retry) s = execBurst stack ch retry s := rfl
theorem exec_l2Writeback (frame : _) (s : State) : exec (.l2Writeback frame) s = execL2Writeback frame s := rfl
theorem exec_syncEvict (word : _) (s : State) : exec (.syncEvict word) s = execSyncEvict word s := rfl
theorem exec_atomicExecute (id : _) (s : State) : exec (.atomicExecute id) s = execAtomicExecute id s := rfl
theorem exec_atomicReply (id : _) (s : State) : exec (.atomicReply id) s = execAtomicReply id s := rfl
theorem exec_txValidate (core : _) (slot : _) (thread : _) (s : State) : exec (.txValidate core slot thread) s = execTxValidate core slot thread s := rfl
theorem exec_soloGrant (vf : _) (s : State) : exec (.soloGrant vf) s = execSoloGrant vf s := rfl
theorem exec_soloTimeout (vf : _) (s : State) : exec (.soloTimeout vf) s = execSoloTimeout vf s := rfl
theorem exec_cwaitReread (core : _) (slot : _) (entry : _) (s : State) : exec (.cwaitReread core slot entry) s = execCwaitReread core slot entry s := rfl
theorem exec_syscReply (id : _) (value : _) (s : State) : exec (.syscReply id value) s = execSyscReply id value s := rfl
theorem exec_barrierTimeout (core : _) (team : _) (bar : _) (s : State) : exec (.barrierTimeout core team bar) s = execBarrierTimeout core team bar s := rfl
theorem exec_copyAccept (hive : _) (ch : _) (s : State) : exec (.copyAccept hive ch) s = execCopyAccept hive ch s := rfl
theorem exec_copyPart (hive : _) (ch : _) (s : State) : exec (.copyPart hive ch) s = execCopyPart hive ch s := rfl
theorem exec_copyComplete (hive : _) (ch : _) (s : State) : exec (.copyComplete hive ch) s = execCopyComplete hive ch s := rfl
theorem exec_bloopIteration (hive : _) (ch : _) (s : State) : exec (.bloopIteration hive ch) s = execBloopIteration hive ch s := rfl
theorem exec_mcastDelivery (hive : _) (ch : _) (index : _) (s : State) : exec (.mcastDelivery hive ch index) s = execMcastDelivery hive ch index s := rfl
theorem exec_kcollSequence (die : _) (s : State) : exec (.kcollSequence die) s = execKcollSequence die s := rfl
theorem exec_gredReply (id : _) (s : State) : exec (.gredReply id) s = execGredReply id s := rfl
theorem exec_nredAccept (stack : _) (s : State) : exec (.nredAccept stack) s = execNredAccept stack s := rfl
theorem exec_nredBag (stack : _) (s : State) : exec (.nredBag stack) s = execNredBag stack s := rfl
theorem exec_nredComplete (stack : _) (s : State) : exec (.nredComplete stack) s = execNredComplete stack s := rfl
theorem exec_stoveLaunch (stack : _) (s : State) : exec (.stoveLaunch stack) s = execStoveLaunch stack s := rfl
theorem exec_stoveEnd (stack : _) (ch : _) (s : State) : exec (.stoveEnd stack ch) s = execStoveEnd stack ch s := rfl
theorem exec_nstatService (stack : _) (s : State) : exec (.nstatService stack) s = execNstatService stack s := rfl
theorem exec_nkillService (stack : _) (s : State) : exec (.nkillService stack) s = execNkillService stack s := rfl
theorem exec_frameStart (stack : _) (s : State) : exec (.frameStart stack) s = execFrameStart stack s := rfl
theorem exec_ordinaryIntervalStart (stack : _) (s : State) : exec (.ordinaryIntervalStart stack) s = execOrdinaryIntervalStart stack s := rfl
theorem exec_stoveDeadline (stack : _) (ch : _) (s : State) : exec (.stoveDeadline stack ch) s = execStoveDeadline stack ch s := rfl
theorem exec_sealComplete (hive : _) (region : _) (s : State) : exec (.sealComplete hive region) s = execSealComplete hive region s := rfl
theorem exec_slabReadDone (id : _) (s : State) : exec (.slabReadDone id) s = execSlabReadDone id s := rfl
theorem exec_passGrant (hive : _) (cell : _) (s : State) : exec (.passGrant hive cell) s = execPassGrant hive cell s := rfl
theorem exec_passComplete (id : _) (s : State) : exec (.passComplete id) s = execPassComplete id s := rfl
theorem exec_mgetWriteback (id : _) (s : State) : exec (.mgetWriteback id) s = execMgetWriteback id s := rfl
theorem exec_mputDone (id : _) (s : State) : exec (.mputDone id) s = execMputDone id s := rfl
theorem exec_mzeroDone (id : _) (s : State) : exec (.mzeroDone id) s = execMzeroDone id s := rfl
theorem exec_accForeignSpill (core : _) (tile : _) (s : State) : exec (.accForeignSpill core tile) s = execAccForeignSpill core tile s := rfl
theorem exec_contextSave (ctx : _) (s : State) : exec (.contextSave ctx) s = execContextSave ctx s := rfl
theorem exec_teamRestore (ctx : _) (index : _) (s : State) : exec (.teamRestore ctx index) s = execTeamRestore ctx index s := rfl
theorem exec_quantumBoundary (vf : _) (s : State) : exec (.quantumBoundary vf) s = execQuantumBoundary vf s := rfl
theorem exec_countStop (unit : _) (s : State) : exec (.countStop unit) s = execCountStop unit s := rfl
theorem exec_i3cTemperatureReport (s : State) : exec (.i3cTemperatureReport) s = execI3cTemperatureReport s := rfl
theorem exec_retiredByFault (kind : _) (index : _) (s : State) : exec (.retiredByFault kind index) s = execRetiredByFault kind index s := rfl
theorem exec_teamNotScreened (core : _) (team : _) (s : State) : exec (.teamNotScreened core team) s = execTeamNotScreened core team s := rfl

end Sys2Proof.Machine
end

