-- ==== Sys2Proof/Laws/Tab.lean ====
section
/-! SUPPORT. Sparse tables: what each operation lists afterwards, and that each keeps the indices rising. -/

namespace Sys2Proof.Tab

variable {α : Type}

theorem find?_put_self (t : Tab α) (k : Nat) (x : α) : find? (put t k x) k = some x := by
  induction t with
  | nil => simp [put, find?]
  | cons y l ih =>
    obtain ⟨j, v⟩ := y
    unfold put
    split
    · simp [find?]
    · split
      · simp [find?]
      · rw [find?, if_neg (by assumption)]; exact ih

theorem find?_put_ne (t : Tab α) {k j : Nat} (x : α) (h : j ≠ k) : find? (put t k x) j = find? t j := by
  induction t with
  | nil => simp [put, find?, Ne.symm h]
  | cons y l ih =>
    obtain ⟨i, v⟩ := y
    unfold put
    split
    · simp [find?, Ne.symm h]
    · split
      · next e => subst e; simp [find?, Ne.symm h]
      · simp only [find?]; split
        · rfl
        · exact ih

/-- A put is read back at its index and leaves every other index alone. -/
theorem find?_put (t : Tab α) (k j : Nat) (x : α) : find? (put t k x) j = if j = k then some x else find? t j := by
  split
  · next h => subst h; exact find?_put_self t j x
  · next h => exact find?_put_ne t x h

theorem find?_modify (t : Tab α) (k j : Nat) (f : α → α) :
    find? (modify t k f) j = if j = k then (find? t j).map f else find? t j := by
  induction t with
  | nil => simp [modify, find?]
  | cons y l ih =>
    obtain ⟨i, v⟩ := y
    unfold modify
    by_cases hik : i = k
    · subst hik
      by_cases hj : j = i
      · subst hj; simp [find?]
      · simp [find?, Ne.symm hj, hj]
    · rw [if_neg hik]
      by_cases hij : i = j
      · subst hij; simp [find?, hik]
      · simp only [find?, if_neg hij, ih]

theorem find?_mapVals (t : Tab α) (f : α → α) (j : Nat) : find? (mapVals f t) j = (find? t j).map f := by
  induction t with
  | nil => rfl
  | cons y l ih =>
    obtain ⟨i, v⟩ := y
    simp only [mapVals, List.map_cons, find?] at ih ⊢
    split
    · rfl
    · exact ih

theorem find?_erase_ne (t : Tab α) {k j : Nat} (h : j ≠ k) : find? (erase t k) j = find? t j := by
  induction t with
  | nil => rfl
  | cons y l ih =>
    obtain ⟨i, v⟩ := y
    unfold erase
    split
    · next e => subst e; simp [find?, Ne.symm h]
    · simp only [find?]; split
      · rfl
      · exact ih

/-- Indices from a bound on are indices from every lower bound on. -/
theorem sortedFrom_le {t : Tab α} {lo hi : Nat} (h : lo ≤ hi) (ht : sortedFrom hi t = true) : sortedFrom lo t = true := by
  cases t with
  | nil => rfl
  | cons y l =>
    obtain ⟨j, v⟩ := y
    simp only [sortedFrom, Bool.and_eq_true, decide_eq_true_eq] at ht ⊢
    exact ⟨by omega, ht.2⟩

theorem find?_lt {t : Tab α} {lo k : Nat} (ht : sortedFrom lo t = true) (h : k < lo) : find? t k = none := by
  induction t generalizing lo with
  | nil => rfl
  | cons y l ih =>
    obtain ⟨j, v⟩ := y
    simp only [sortedFrom, Bool.and_eq_true, decide_eq_true_eq] at ht
    rw [find?, if_neg (by omega)]
    exact ih ht.2 (by omega)

theorem find?_erase_self {t : Tab α} {lo : Nat} (k : Nat) (ht : sortedFrom lo t = true) : find? (erase t k) k = none := by
  induction t generalizing lo with
  | nil => rfl
  | cons y l ih =>
    obtain ⟨j, v⟩ := y
    simp only [sortedFrom, Bool.and_eq_true, decide_eq_true_eq] at ht
    unfold erase
    split
    · next e => subst e; exact find?_lt ht.2 (by omega)
    · rw [find?, if_neg (by assumption)]; exact ih ht.2

theorem sortedFrom_put {t : Tab α} {lo : Nat} (k : Nat) (x : α) (ht : sortedFrom lo t = true) (h : lo ≤ k) : sortedFrom lo (put t k x) = true := by
  induction t generalizing lo with
  | nil => simp [put, sortedFrom, h]
  | cons y l ih =>
    obtain ⟨j, v⟩ := y
    simp only [sortedFrom, Bool.and_eq_true, decide_eq_true_eq] at ht
    unfold put
    split
    · next e => simp only [sortedFrom, Bool.and_eq_true, decide_eq_true_eq]; exact ⟨h, by omega, ht.2⟩
    · split
      · next e => subst e; simp only [sortedFrom, Bool.and_eq_true, decide_eq_true_eq]; exact ⟨h, ht.2⟩
      · simp only [sortedFrom, Bool.and_eq_true, decide_eq_true_eq]; exact ⟨ht.1, ih ht.2 (by omega)⟩

theorem sortedFrom_erase {t : Tab α} {lo : Nat} (k : Nat) (ht : sortedFrom lo t = true) : sortedFrom lo (erase t k) = true := by
  induction t generalizing lo with
  | nil => rfl
  | cons y l ih =>
    obtain ⟨j, v⟩ := y
    simp only [sortedFrom, Bool.and_eq_true, decide_eq_true_eq] at ht
    unfold erase
    split
    · exact sortedFrom_le (by omega) ht.2
    · simp only [sortedFrom, Bool.and_eq_true, decide_eq_true_eq]; exact ⟨ht.1, ih ht.2⟩

theorem sortedFrom_filter {t : Tab α} {lo : Nat} (p : Nat × α → Bool) (ht : sortedFrom lo t = true) : sortedFrom lo (t.filter p) = true := by
  induction t generalizing lo with
  | nil => rfl
  | cons y l ih =>
    obtain ⟨j, v⟩ := y
    simp only [sortedFrom, Bool.and_eq_true, decide_eq_true_eq] at ht
    rw [List.filter_cons]
    split
    · simp only [sortedFrom, Bool.and_eq_true, decide_eq_true_eq]; exact ⟨ht.1, ih ht.2⟩
    · exact sortedFrom_le (by omega) (ih ht.2)

theorem sortedFrom_set [DecidableEq α] {t : Tab α} {lo : Nat} (d : α) (k : Nat) (x : α) (ht : sortedFrom lo t = true) (h : lo ≤ k) :
    sortedFrom lo (set t d k x) = true := by
  unfold set
  split
  · exact sortedFrom_erase k ht
  · exact sortedFrom_put k x ht h

/-- A write is read back, in a table whose indices rise. -/
theorem get_set_self [DecidableEq α] {t : Tab α} {lo : Nat} (d : α) (k : Nat) (x : α) (ht : sortedFrom lo t = true) : get (set t d k x) d k = x := by
  unfold get set
  split
  · next e => rw [find?_erase_self k ht, e]; rfl
  · rw [find?_put_self]; rfl

/-- A write leaves every other index as it was. -/
theorem get_set_ne [DecidableEq α] (t : Tab α) (d : α) {k j : Nat} (x : α) (h : j ≠ k) : get (set t d k x) d j = get t d j := by
  unfold get set
  split
  · rw [find?_erase_ne t h]
  · rw [find?_put_ne t x h]

theorem modify_id (t : Tab α) (k : Nat) : modify t k (fun x => x) = t := by
  induction t with
  | nil => rfl
  | cons y l ih => obtain ⟨j, v⟩ := y; simp only [modify, ih, ite_self]

/-- The listed values of a put are the new one and old ones. -/
theorem mem_put {t : Tab α} {k : Nat} {x : α} {y : Nat × α} (h : y ∈ put t k x) : y = (k, x) ∨ y ∈ t := by
  induction t with
  | nil => simpa [put] using h
  | cons z l ih =>
    obtain ⟨j, v⟩ := z
    unfold put at h
    split at h
    · simpa using h
    · split at h
      · rcases List.mem_cons.mp h with h | h
        · exact .inl h
        · exact .inr (List.mem_cons_of_mem _ h)
      · rcases List.mem_cons.mp h with h | h
        · exact .inr (h ▸ List.mem_cons_self)
        · exact (ih h).imp_right (List.mem_cons_of_mem _)

theorem mem_erase {t : Tab α} {k : Nat} {y : Nat × α} (h : y ∈ erase t k) : y ∈ t := by
  induction t with
  | nil => simp [erase] at h
  | cons z l ih =>
    obtain ⟨j, v⟩ := z
    unfold erase at h
    split at h
    · exact List.mem_cons_of_mem _ h
    · rcases List.mem_cons.mp h with h | h
      · exact h ▸ List.mem_cons_self
      · exact List.mem_cons_of_mem _ (ih h)

end Sys2Proof.Tab
end

