-- ==== Sys2Proof/Laws/Issue.lean ====
section
/-! SUPPORT. What the shared issue operations answer once their checks pass. -/

namespace Sys2Proof.Machine

theorem Ready.cur {i : Instr} {s : State} {x : Ctx} (h : Ready i s x) :
    s.cur = .frag x.core x.slot x.entry x.pc x.word x.role x.upset ∧
      ∃ w, s.warp? x.core x.slot = some w ∧ x.w = w.asRead x.entry := by
  have hi := h.issuer
  unfold State.issuer at hi
  split at hi
  · split at hi
    · cases hi
    · split at hi
      · cases hi
      · dsimp only at hi
        split at hi
        · cases hi
          rename_i hw _ _ _ _
          obtain ⟨w, h1, h2⟩ := Option.map_eq_some_iff.mp hw
          exact ⟨by assumption, w, h1, h2.symm⟩
        · cases hi
  · cases hi

/-- The issue of an instruction whose checks pass is its effect, finished. -/
theorem issue_ready {i : Instr} {s : State} {x : Ctx} (h : Ready i s x) (eff : Ctx → State → Eff) :
    issue i s eff = .next (finish x s.taken (eff x s.taken)) := by
  have hc := h.cur
  have hk := h.checks
  have hs : (endsScreen i && ((s.taken.team? x.team).bind (·.screen)).isSome) = false := by
    rcases h.screen with h1 | h1
    · simp [h1]
    · have : (s.taken.team? x.team).bind (·.screen) = none := h1
      simp [this]
  have ht : (if abortsTx i then x.w.inTx x.act else 0) = 0 := by
    rcases h.tx with h1 | h1
    · simp [h1]
    · simp [h1]
  have hu : s.taken.countUpset x i = s.taken := by simp [State.countUpset, h.agree]
  obtain ⟨w, hw, hx⟩ : ∃ w, s.taken.warp? x.core x.slot = some w ∧ x.w = w.asRead x.entry := hc.2
  have hm : x.mismatch i = false := by simp [Ctx.mismatch, h.agree]
  unfold issue
  rw [hc.1]
  simp only [h.issuer]
  congr 1
  change issueAt i s.taken eff x = _
  unfold issueAt
  simp only [hk, hu, hs, ht, hm]
  simp [hw]

/-- A fragment's results. -/
theorem issue_results {i : Instr} {s : State} {x : Ctx} (h : Ready i s x) {eff : Ctx → State → Eff} {ws : List RegWrite} {f : BitVec 5}
    (he : eff x s.taken = results x s.taken ws f) : issue i s eff = .next (s.taken.wrote x ws f) := by
  rw [issue_ready h, he]
  rfl

/-- No results and no flags: the instruction only completes. -/
theorem wrote_nil (s : State) (x : Ctx) : s.wrote x [] 0 = s.completed x := by
  have h1 : s.commit x [] = s := by
    show ({ s with warps := s.warps.modify (warpIx x.core x.slot) fun w => w } : State) = s
    rw [Tab.modify_id]
  have h2 : s.orFlags x 0 = s := by
    have : (fun w : Warp => ({ w with fpflags := w.fpflags ||| 0 } : Warp)) = fun w => w := by funext w; simp
    show ({ s with warps := s.warps.modify (warpIx x.core x.slot) fun w => ({ w with fpflags := w.fpflags ||| 0 } : Warp) } : State) = s
    rw [this, Tab.modify_id]
  simp only [State.wrote, h1, h2]

/-- The issue of a matrix-stream instruction by its sequencer. -/
theorem seqIssue_at {i : Instr} {s : State} {x : SeqCtx} (h : s.seqAt x) (ok : SeqCtx → Bool) (eff : SeqCtx → State → SeqEff)
    (hok : ok x = true) : seqIssue i s ok eff = .next (seqFinish x s.taken (eff x s.taken)) := by
  obtain ⟨w, hc, hs⟩ := h
  unfold seqIssue
  rw [hc]
  simp only [hs, hok]
  rfl

/-- The issue of a stove instruction by the thread it belongs to. -/
theorem stoveIssue_at {s : State} {k : Nat} {arith : Bool} {x : Stove} (h : s.stoveAt k arith x) (eff : Nat → State → Stove → StoveEff) :
    stoveIssue arith s eff = .next ((stoveFinish k arith (s.stoveClk arith x) x (eff k (s.stoveClk arith x) x)).clockOf s) := by
  obtain ⟨stack, ch, rfl, hc, rfl, hr, hl⟩ := h
  unfold stoveIssue
  rw [hc]
  have h1 : (!(s.stove (stack * 32 + ch)).ready arith) = false := by rw [hr]; rfl
  have h2 : ¬ s.dclk + 1 < max s.dclk ((s.stove (stack * 32 + ch)).last arith) := by omega
  have h3 : (arith != arith) = false := bne_self_eq_false arith
  dsimp only
  rw [if_neg (by rw [h1]; decide), if_neg h2, if_neg (by rw [h3]; decide)]
  rfl

/-! ## What an effect comes to -/

theorem issue_done {i : Instr} {s t : State} {x : Ctx} {eff : Ctx → State → Eff} (h : Ready i s x) (he : eff x s.taken = .done t) :
    issue i s eff = .next (t.completed x) := by rw [issue_ready h, he]; rfl

theorem issue_trap {i : Instr} {s : State} {x : Ctx} {f : FaultInfo} {eff : Ctx → State → Eff} (h : Ready i s x) (he : eff x s.taken = .trap f) :
    issue i s eff = .next (s.taken.trapAt x f) := by rw [issue_ready h, he]; rfl

theorem issue_wait {i : Instr} {s t : State} {x : Ctx} {k : Wait} {eff : Ctx → State → Eff} (h : Ready i s x) (he : eff x s.taken = .wait t k) :
    issue i s eff = .next (t.waitIn x x.entry k) := by rw [issue_ready h, he]; rfl

theorem issue_stop {i : Instr} {s t : State} {x : Ctx} {eff : Ctx → State → Eff} (h : Ready i s x) (he : eff x s.taken = .stop t) :
    issue i s eff = .next t := by rw [issue_ready h, he]; rfl

theorem stove_done {s t : State} {k : Nat} {arith : Bool} {x v : Stove} {eff : Nat → State → Stove → StoveEff} (h : s.stoveAt k arith x)
    (he : eff k (s.stoveClk arith x) x = .done t v) : stoveIssue arith s eff =
      .next ((t.setStove k ((v.issuedAt arith t.dclk).setPc arith (x.pc arith + 1))).clockOf s) := by
  rw [stoveIssue_at h, he]; rfl

theorem stove_fault {s : State} {k c : Nat} {pa : Option Nat} {arith : Bool} {x : Stove} {eff : Nat → State → Stove → StoveEff} (h : s.stoveAt k arith x)
    (he : eff k (s.stoveClk arith x) x = .fault c pa) :
    stoveIssue arith s eff = .next (((s.stoveClk arith x).stoveFault k (x.pc arith) c pa).clockOf s) := by
  rw [stoveIssue_at h, he]; rfl

theorem stove_stall {s : State} {k : Nat} {arith : Bool} {x : Stove} {eff : Nat → State → Stove → StoveEff} (h : s.stoveAt k arith x)
    (he : eff k (s.stoveClk arith x) x = .stall) : stoveIssue arith s eff = .next s.taken := by rw [stoveIssue_at h, he]; rfl

/-- A command that the management core takes next, with the command set open. -/
theorem command_taken {op fn : Nat} {s : State} {sel : (Nat → DWord) → Bool} {f : (Nat → DWord) → Mailbox → State → Answer} (hn : s.mboxNext = some fn)
    (ho : (s.mailbox fn).op.toNat = op) (hl : listedOp op = true) (hp : fn ≠ pf1) (hb : 6 ≤ s.bootStep)
    (hs : sel (fun i => (s.mailbox fn).args.getD i 0) = true) :
    command op fn s sel f = match f (fun i => (s.mailbox fn).args.getD i 0) (s.mailbox fn) s with
      | .fail s st => .next (s.finishCommand fn st [])
      | .ok s r => .next (s.finishCommand fn .ok r)
      | .pending s => .next { s with mboxCur := some fn } := by
  have hb' : ¬ s.bootStep < 6 := by omega
  unfold command
  simp only [hn, ho, hl, hs, hp, hb', Bool.not_true, Bool.false_eq_true, bne_self_eq_false, Bool.or_self, decide_false, Bool.false_and, if_false] <;> rfl

end Sys2Proof.Machine
end

