-- ==== Sys2Proof/Laws/Memory.lean ====
section
/-! SUPPORT. Memory lists: a byte written is read back, every other byte stays, and each operation of Machine/Memory.lean keeps
the canonical forms that `State.memOk` names. -/

namespace Sys2Proof.Machine

/-! ## Lists of bytes -/

theorem Memory.wf_iff {m : List Host.Cell} : Memory.wf m = true ↔ Tab.sortedFrom 0 m = true ∧ ∀ c ∈ m, c.2 ≠ memDefault := by
  simp [Memory.wf]

theorem Memory.wf_nil : Memory.wf [] = true := rfl

theorem Memory.wf_write {m : List Host.Cell} (a : Nat) (b : Byte) (h : Memory.wf m = true) : Memory.wf (Memory.write m a b) = true := by
  rw [Memory.wf_iff] at h ⊢
  refine ⟨Tab.sortedFrom_set _ a b h.1 (Nat.zero_le a), fun c hc => ?_⟩
  unfold Memory.write Tab.set at hc
  split at hc
  · exact h.2 c (Tab.mem_erase hc)
  · rcases Tab.mem_put hc with e | e
    · rw [e]; assumption
    · exact h.2 c e

theorem Memory.wf_writeN {m : List Host.Cell} (a : Nat) (l : List Byte) (h : Memory.wf m = true) : Memory.wf (Memory.writeN m a l) = true := by
  induction l generalizing m a with
  | nil => exact h
  | cons b t ih => exact ih (a + 1) (Memory.wf_write a b h)

theorem Memory.wf_filter {m : List Host.Cell} (p : Host.Cell → Bool) (h : Memory.wf m = true) : Memory.wf (m.filter p) = true := by
  rw [Memory.wf_iff] at h ⊢
  exact ⟨Tab.sortedFrom_filter p h.1, fun c hc => h.2 c (List.mem_of_mem_filter hc)⟩

/-- A byte written is read back. -/
theorem Memory.read_write_same {m : List Host.Cell} (a : Nat) (b : Byte) (h : Memory.wf m = true) : Memory.read (Memory.write m a b) a = b :=
  Tab.get_set_self memDefault a b (Memory.wf_iff.mp h).1

/-- A write of one byte leaves every other as it was. -/
theorem Memory.read_write_other (m : List Host.Cell) {a c : Nat} (b : Byte) (h : c ≠ a) : Memory.read (Memory.write m a b) c = Memory.read m c :=
  Tab.get_set_ne m memDefault b h

/-- A run of bytes written leaves every byte outside it as it was. -/
theorem Memory.read_writeN_outside (m : List Host.Cell) (a : Nat) (l : List Byte) {c : Nat} (h : c < a ∨ a + l.length ≤ c) :
    Memory.read (Memory.writeN m a l) c = Memory.read m c := by
  induction l generalizing m a with
  | nil => rfl
  | cons b t ih =>
    simp only [List.length_cons] at h
    rw [Memory.writeN, ih (Memory.write m a b) (a + 1) (by omega), Memory.read_write_other m b (by omega)]

/-- A run of bytes written is read back. -/
theorem Memory.read_writeN_inside {m : List Host.Cell} (a : Nat) (l : List Byte) (hm : Memory.wf m = true) (i : Nat) (h : i < l.length) :
    Memory.read (Memory.writeN m a l) (a + i) = l[i] := by
  induction l generalizing m a i with
  | nil => simp at h
  | cons b t ih =>
    cases i with
    | zero =>
      rw [Memory.writeN, Memory.read_writeN_outside _ _ _ (by omega), Nat.add_zero, Memory.read_write_same a b hm]
      rfl
    | succ n =>
      have := ih (a + 1) (Memory.wf_write a b hm) n (by simpa using h)
      rw [Memory.writeN, show a + (n + 1) = a + 1 + n by omega, this]
      rfl

/-! ## States -/

/-- The parts of the state that `State.memOk` reads are the same. -/
def State.SameMem (s t : State) : Prop := t.mem = s.mem ∧ t.hostMem = s.hostMem ∧ t.synd = s.synd ∧ t.elision = s.elision

theorem State.SameMem.rfl' {s : State} : s.SameMem s := ⟨rfl, rfl, rfl, rfl⟩

theorem State.SameMem.trans {s t u : State} (h : s.SameMem t) (g : t.SameMem u) : s.SameMem u :=
  ⟨g.1.trans h.1, g.2.1.trans h.2.1, g.2.2.1.trans h.2.2.1, g.2.2.2.trans h.2.2.2⟩

theorem State.SameMem.memOk {s t : State} (h : s.SameMem t) (hs : s.memOk = true) : t.memOk = true := by
  unfold State.memOk at hs ⊢
  rw [h.1, h.2.1, h.2.2.1, h.2.2.2]
  exact hs

theorem State.memOk_iff {s : State} : s.memOk = true ↔
    Memory.wf s.mem = true ∧ Memory.wf s.hostMem = true ∧ Tab.sortedFrom 0 s.synd = true ∧ Tab.sortedFrom 0 s.elision = true := by
  simp [State.memOk, and_assoc]

/-- A change made for each member of a list keeps the memory's form if each single change does. -/
theorem State.memOk_each {α : Type} {s : State} {l : List α} {f : State → α → State} (hf : ∀ (s : State) (a : α), s.memOk = true → (f s a).memOk = true)
    (h : s.memOk = true) : (s.each l f).memOk = true := by
  unfold State.each
  induction l generalizing s with
  | nil => exact h
  | cons a t ih => exact ih (hf s a h)

theorem State.sameMem_each {α : Type} {s : State} {l : List α} {f : State → α → State} (hf : ∀ (s : State) (a : α), s.SameMem (f s a)) :
    s.SameMem (s.each l f) := by
  unfold State.each
  induction l generalizing s with
  | nil => exact .rfl'
  | cons a t ih => exact (hf s a).trans ih

theorem State.memOk_setDram {s : State} (wa : Nat) (d : Word) (p : Bool) (h : s.memOk = true) : (s.setDram wa d p).memOk = true := by
  rw [State.memOk_iff] at h ⊢
  exact ⟨Memory.wf_writeN _ _ h.1, h.2.1, Tab.sortedFrom_erase _ h.2.2.1, h.2.2.2⟩

theorem State.memOk_eraseElision {s u : State} (row : Nat) (hu : u.memOk = true) (h : s.memOk = true) :
    ({ u with elision := s.elision.erase row } : State).memOk = true := by
  rw [State.memOk_iff] at h hu ⊢
  exact ⟨hu.1, hu.2.1, hu.2.2.1, Tab.sortedFrom_erase _ h.2.2.2⟩

theorem State.memOk_materialise {s : State} (row : Nat) (h : s.memOk = true) : (s.materialise row).memOk = true := by
  unfold State.materialise
  split
  · exact h
  · exact State.memOk_eraseElision row (State.memOk_each (fun s i hs => State.memOk_setDram _ _ false hs) h) h

theorem State.sameMem_noteUndo (s : State) (wa : Nat) : s.SameMem (s.noteUndo wa) := by
  unfold State.noteUndo
  split
  · exact .rfl'
  · split
    · exact .rfl'
    · exact ⟨rfl, rfl, rfl, rfl⟩

theorem State.sameMem_pick (s : State) (n : Nat) : s.SameMem (s.pick n).2 := ⟨rfl, rfl, rfl, rfl⟩

theorem State.sameMem_countPerf (s : State) (vf code : Nat) : s.SameMem (s.countPerf vf code) := ⟨rfl, rfl, rfl, rfl⟩

theorem State.sameMem_countRes (s : State) (vf kind index code : Nat) : s.SameMem (s.countRes vf kind index code) :=
  (show s.SameMem (s.countEvent kind index code) from ⟨rfl, rfl, rfl, rfl⟩).trans (State.sameMem_countPerf _ _ _)

theorem State.sameMem_reachDram (s : State) (wa clk : Nat) : s.SameMem (s.reachDram wa clk) := ⟨rfl, rfl, rfl, rfl⟩

theorem State.sameMem_dropWrites (s : State) (was : List Nat) : s.SameMem (s.dropWrites was) := by
  unfold State.dropWrites
  split <;> exact ⟨rfl, rfl, rfl, rfl⟩

theorem State.sameMem_putRel (s : State) (wa : Nat) (mask : BitVec 4) (rel : List RelInfo) (atomic : Bool) : s.SameMem (s.putRel wa mask rel atomic) :=
  ⟨rfl, rfl, rfl, rfl⟩

/-- A write-back that is queued leaves memory as it is. -/
theorem State.sameMem_pushWrite (s : State) (wa : Nat) (d : Word) (p : Bool) : s.SameMem (s.pushWrite wa d p) := ⟨rfl, rfl, rfl, rfl⟩

/-- So does a frame that leaves its slice. -/
theorem State.sameMem_l2Evict (s : State) (frame : Nat) : s.SameMem (s.l2Evict frame) :=
  (State.sameMem_each fun s w => State.sameMem_pushWrite s w _ _).trans ⟨rfl, rfl, rfl, rfl⟩

theorem State.sameMem_writeThrough (s : State) (wa : Nat) : s.SameMem (s.writeThrough wa) := by
  unfold State.writeThrough
  split
  · exact .rfl'
  · split
    · exact .rfl'
    · exact ⟨rfl, rfl, rfl, rfl⟩

theorem State.sameMem_l2Trim (s : State) (frame n : Nat) : s.SameMem (s.l2Trim frame n) := by
  induction n generalizing s with
  | zero => exact .rfl'
  | succ n ih =>
    unfold State.l2Trim
    split
    · exact .rfl'
    · split
      · exact State.sameMem_l2Evict _ _
      · exact ((State.sameMem_pick s _).trans (State.sameMem_l2Evict _ _)).trans (ih _)

theorem State.sameMem_l2Put (s : State) (wa : Nat) (x : L2Word) : s.SameMem (s.l2Put wa x) :=
  (show State.SameMem s _ from ⟨rfl, rfl, rfl, rfl⟩).trans (State.sameMem_l2Trim _ _ _)

theorem State.sameMem_syncOut (s : State) (wa : Nat) : s.SameMem (s.syncOut wa) := by
  unfold State.syncOut
  split
  · exact .rfl'
  · have h1 : s.SameMem { s with sync := s.sync.erase wa } := ⟨rfl, rfl, rfl, rfl⟩
    dsimp only
    split
    · exact ⟨rfl, rfl, rfl, rfl⟩
    · exact h1.trans (State.sameMem_l2Put _ _ _)

/-- A change of the engine's words, and of nothing else, keeps the memory. -/
theorem State.SameMem.withSync {s t : State} (h : s.SameMem t) (y : Tab SyncWord) : s.SameMem { t with sync := y } :=
  h.trans ⟨rfl, rfl, rfl, rfl⟩

theorem State.sameMem_syncPut (s : State) (wa : Nat) (x : SyncWord) : s.SameMem (s.syncPut wa x) := by
  unfold State.syncPut
  dsimp only
  refine State.SameMem.withSync ?_ _
  split
  · exact .rfl'
  · split
    · exact .rfl'
    · exact (State.sameMem_pick s _).trans (State.sameMem_syncOut _ _)

theorem State.sameMem_bringIn (s : State) (wa : Nat) : s.SameMem (s.bringIn wa) := by
  unfold State.bringIn
  split
  · exact .rfl'
  · exact (show State.SameMem s _ from ⟨rfl, rfl, rfl, rfl⟩).trans (State.sameMem_syncPut _ _ _)

/-- Queued writes that reach DRAM keep the memory's form. -/
theorem State.memOk_serveWrites {s : State} (p : Nat → Bool) (h : s.memOk = true) : (s.serveWrites p).memOk = true :=
  (show State.SameMem _ _ from ⟨rfl, rfl, rfl, rfl⟩).memOk
    (State.memOk_each (fun _ _ hs => (State.sameMem_reachDram _ _ _).memOk (State.memOk_setDram _ _ _ hs)) h)

theorem State.memOk_bringIn {s : State} (wa : Nat) (h : s.memOk = true) : (s.bringIn wa).memOk = true := (State.sameMem_bringIn s wa).memOk h

theorem State.memOk_migrate {s : State} (wa : Nat) (h : s.memOk = true) : (s.migrate wa).memOk = true := by
  have h1 := State.memOk_bringIn wa (State.memOk_materialise (rowOfPa (4 * wa)) h)
  unfold State.migrate
  dsimp only
  split
  · exact h1
  · exact ((show State.SameMem _ _ from ⟨rfl, rfl, rfl, rfl⟩).trans (State.sameMem_syncPut _ _ _)).memOk h1

theorem State.memOk_bringSync {s : State} (vf pa n : Nat) (h : s.memOk = true) : (s.bringSync vf pa n).memOk = true := by
  refine State.memOk_each (fun s w hs => ?_) h
  split
  · exact (show State.SameMem _ _ from ⟨rfl, rfl, rfl, rfl⟩).memOk (State.memOk_migrate _ hs)
  · exact hs

/-- A write at a word's home keeps the memory's form. -/
theorem State.memOk_homeWrite {s : State} (wa : Nat) (d : Word) (mask : BitVec 4) (rel : List RelInfo) (atomic : Bool) (h : s.memOk = true) :
    (s.homeWrite wa d mask rel atomic).1.memOk = true := by
  have h1 := State.memOk_bringIn wa (State.memOk_materialise (rowOfPa (4 * wa)) ((State.sameMem_noteUndo s wa).memOk h))
  unfold State.homeWrite
  dsimp only
  split
  · exact h1
  · have h2 := (show State.SameMem _ _ from ⟨rfl, rfl, rfl, rfl⟩).memOk
      (t := { (((s.noteUndo wa).materialise (rowOfPa (4 * wa))).bringIn wa).putRel wa mask rel atomic with
        homeClk := (((s.noteUndo wa).materialise (rowOfPa (4 * wa))).bringIn wa).homeClk + 1 }) h1
    split
    · exact (show State.SameMem _ _ from ⟨rfl, rfl, rfl, rfl⟩).memOk h2
    · exact (State.sameMem_l2Put _ _ _).memOk h2

theorem State.memOk_flushBias {s : State} (pa n : Nat) (h : s.memOk = true) : (s.flushBias pa n).memOk = true := by
  refine State.memOk_each (fun s w hs => ?_) h
  dsimp only
  split
  · exact hs
  · split
    · exact (show State.SameMem s _ from ⟨rfl, rfl, rfl, rfl⟩).memOk hs
    · exact (show State.SameMem s _ from ⟨rfl, rfl, rfl, rfl⟩).memOk hs

/-- A record that the device writes keeps the memory's form. -/
theorem State.memOk_putRecord {s : State} (pa : Nat) (bytes : List Byte) (h : s.memOk = true) : (s.putRecord pa bytes).memOk = true :=
  State.memOk_flushBias _ _ (State.memOk_each (fun _ _ hs => State.memOk_homeWrite _ _ _ _ _ hs) h)

theorem State.memOk_recordWrite {s : State} (vf pa : Nat) (bytes : List Byte) (h : s.memOk = true) : (s.recordWrite vf pa bytes).memOk = true := by
  refine State.memOk_each (fun s i hs => ?_) h
  dsimp only
  split
  · exact (show State.SameMem s _ from ⟨rfl, rfl, rfl, rfl⟩).memOk hs
  · exact State.memOk_putRecord _ _ hs

theorem State.sameMem_logMgmt (s : State) (r : LogRec) : s.SameMem (s.logMgmt r) := by
  unfold State.logMgmt
  split
  · exact ⟨rfl, rfl, rfl, rfl⟩
  · exact (State.sameMem_countRes s 0 23 0xFF 7).trans ⟨rfl, rfl, rfl, rfl⟩

theorem State.memOk_ringAppend {s : State} (vf : Nat) (g : LogRing) (r : LogRec) (h : s.memOk = true) : (s.ringAppend vf g r).1.memOk = true := by
  unfold State.ringAppend
  dsimp only
  split
  · exact (State.sameMem_countRes _ _ _ _ _).memOk h
  · split
    · exact ((State.sameMem_countRes _ _ _ _ _).trans (State.sameMem_logMgmt _ _)).memOk h
    · exact State.memOk_recordWrite _ _ _ h

theorem State.memOk_logHv {s : State} (r : LogRec) (h : s.memOk = true) : (s.logHv r).memOk = true := by
  unfold State.logHv
  split
  · exact h
  · exact (show State.SameMem _ _ from ⟨rfl, rfl, rfl, rfl⟩).memOk (State.memOk_ringAppend 0 _ r h)

theorem State.memOk_logPart {s : State} (vf : Nat) (r : LogRec) (h : s.memOk = true) : (s.logPart vf r).memOk = true := by
  unfold State.logPart
  split
  · exact h
  · exact (show State.SameMem _ _ from ⟨rfl, rfl, rfl, rfl⟩).memOk (State.memOk_ringAppend vf _ r h)

/-- A record in the logs keeps the memory's form. -/
theorem State.memOk_log {s : State} (vf cause : Nat) (addr : DWord) (virt : Bool) (kind idx : Nat) (detail : DWord) (h : s.memOk = true) :
    (s.log vf cause addr virt kind idx detail).memOk = true := by
  unfold State.log
  dsimp only
  split
  · exact State.memOk_logHv _ (State.memOk_logPart _ _ h)
  · exact (State.sameMem_logMgmt s _).memOk h

theorem State.memOk_logPhys {s : State} (vf cause pa : Nat) (va : Option DWord) (kind idx : Nat) (detail : DWord) (h : s.memOk = true) :
    (s.logPhys vf cause pa va kind idx detail).memOk = true := by
  unfold State.logPhys
  dsimp only
  split
  · exact (State.sameMem_logMgmt _ _).memOk (State.memOk_logHv _ (State.memOk_logPart _ _ h))
  · exact (State.sameMem_logMgmt s _).memOk h

theorem State.memOk_homeWriteLogged {s : State} (vf wa : Nat) (d : Word) (mask : BitVec 4) (rel : List RelInfo) (atomic : Bool) (src : LogSrc)
    (h : s.memOk = true) : (s.homeWriteLogged vf wa d mask rel atomic src).memOk = true := by
  unfold State.homeWriteLogged
  dsimp only
  split
  · exact State.memOk_logPhys _ _ _ _ _ _ _ (State.memOk_homeWrite _ _ _ _ _ h)
  · exact State.memOk_homeWrite _ _ _ _ _ h

/-- A read of DRAM at the hearth, which may write the word back corrected, keeps the memory's form. -/
theorem State.memOk_hearthRead {s : State} (vf wa : Nat) (h : s.memOk = true) : (s.hearthRead vf wa).2.2.memOk = true := by
  unfold State.hearthRead
  dsimp only
  split
  · exact h
  · split
    · exact State.memOk_logPhys _ _ _ _ _ _ _ ((State.sameMem_countRes _ _ _ _ _).memOk h)
    · split
      · exact (State.sameMem_countRes _ _ _ _ _).memOk (State.memOk_setDram _ _ _ h)
      · exact h

theorem State.memOk_putSync {s : State} (tab : Tab SyncWord) (h : s.memOk = true) : ({ s with sync := tab } : State).memOk = true :=
  State.SameMem.memOk (s := s) ⟨rfl, rfl, rfl, rfl⟩ h

theorem State.memOk_putL2 {s : State} (tab : Tab L2Word) (h : s.memOk = true) : ({ s with l2 := tab } : State).memOk = true :=
  State.SameMem.memOk (s := s) ⟨rfl, rfl, rfl, rfl⟩ h

/-- What a read of a word at its home does beside returning it keeps the memory's form. -/
theorem State.memOk_touch {s : State} (vf wa : Nat) (h : s.memOk = true) : (s.touch vf wa).memOk = true := by
  have h1 : (if s.overflow.contains wa then (s.hearthRead vf wa).2.2.bringIn wa else s).memOk = true := by
    split
    · exact State.memOk_bringIn _ (State.memOk_hearthRead _ _ h)
    · exact h
  unfold State.touch
  dsimp only
  generalize (if s.overflow.contains wa then (s.hearthRead vf wa).2.2.bringIn wa else s) = u at h1 ⊢
  split
  · split
    · exact h1
    · apply State.memOk_putSync
      split
      · exact (State.sameMem_countRes _ _ _ _ _).memOk h1
      · exact h1
  · have h2 : ∀ v : State, v.memOk = true →
        (if v.needsDram wa && v.rowOk vf (4 * wa) false false && (v.queuedWrite wa).isNone then (v.hearthRead vf wa).2.2 else v).memOk = true := by
      intro v hv
      split
      · exact State.memOk_hearthRead _ _ hv
      · exact hv
    apply h2
    split
    · split
      · exact h1
      · apply State.memOk_putL2
        split
        · exact (State.sameMem_countRes _ _ _ _ _).memOk h1
        · exact h1
    · exact h1

theorem State.sameMem_countReads (s : State) (vf : Nat) (was : List Nat) : s.SameMem (s.countReads vf was) :=
  (State.sameMem_each fun s _ => State.sameMem_countPerf s vf 11).trans (State.sameMem_each fun s _ => State.sameMem_countPerf s vf 10)

theorem State.memOk_touchRun {s : State} (vf pa n : Nat) (h : s.memOk = true) : (s.touchRun vf pa n).memOk = true :=
  State.memOk_each (fun _ _ hs => State.memOk_touch _ _ hs) ((State.sameMem_countReads s vf _).memOk h)

theorem State.memOk_writePhys {s t : State} {vf pa : Nat} {bytes : List Byte} {rel : List RelInfo} {src : LogSrc} (h : s.memOk = true)
    (ht : s.writePhys vf pa bytes rel src = .ok t) : t.memOk = true := by
  unfold State.writePhys at ht
  dsimp only at ht
  split at ht
  · cases ht
  · cases ht
    exact State.memOk_flushBias _ _ (State.memOk_each (fun s w hs => State.memOk_homeWriteLogged _ _ _ _ _ _ _ hs) h)

theorem State.memOk_walked {s : State} (die ctx : Nat) (va : DWord) (h : s.memOk = true) : (s.walked die ctx va).memOk = true := by
  have h1 := State.memOk_each (l := (s.lookup die ctx va).2) (f := fun s p =>
    s.touchRun (((s.ctx? ctx).map (·.vf)).getD 0) (p.2 + 8 * (va.toNat / 2 ^ (48 - 9 * p.1) % 512)) 8)
    (fun _ _ hs => State.memOk_touchRun _ _ _ hs) h
  unfold State.walked
  dsimp only
  split
  · exact State.memOk_each (fun _ _ hs => State.memOk_touchRun _ _ _ hs) h
  · exact (show State.SameMem _ _ from ⟨rfl, rfl, rfl, rfl⟩).memOk
      (State.memOk_each (f := fun s (p : Nat × Nat) =>
        s.touchRun _ (p.2 + 8 * (va.toNat / 2 ^ (48 - 9 * p.1) % 512)) 8) (fun _ _ hs => State.memOk_touchRun _ _ _ hs) h)

/-- A fold whose steps keep the memory's form beside a result keeps it. -/
theorem State.memOk_fold {α β : Type} (f : β × State → α → β × State) (hf : ∀ (acc : β × State) (a : α), acc.2.memOk = true → (f acc a).2.memOk = true)
    (l : List α) (acc : β × State) (h : acc.2.memOk = true) : (l.foldl f acc).2.memOk = true := by
  induction l generalizing acc with
  | nil => exact h
  | cons a l ih => exact ih _ (hf acc a h)

theorem State.memOk_hostWrite {s : State} (a : Nat) (l : List Byte) (h : s.memOk = true) :
    ({ s with hostMem := Memory.writeN s.hostMem a l } : State).memOk = true := by
  rw [State.memOk_iff] at h ⊢
  exact ⟨h.1, Memory.wf_writeN _ _ h.2.1, h.2.2.1, h.2.2.2⟩

/-- An engine's write through a context keeps the memory's form. -/
theorem State.memOk_writeVirt {s : State} (die ctx vf : Nat) (va : DWord) (bytes : List Byte) (rel : List RelInfo) (src : LogSrc) (h : s.memOk = true) :
    (s.writeVirt die ctx vf va bytes rel src).2.memOk = true := by
  unfold State.writeVirt
  refine State.memOk_fold _ (fun acc p ha => ?_) _ _ h
  dsimp only
  split
  · exact ha
  · split
    · exact State.memOk_walked _ _ _ ha
    · split
      · exact State.memOk_hostWrite _ _ (State.memOk_walked _ _ _ ha)
      · refine State.memOk_fold _ (fun acc pa hb => ?_) _ _ ?_
        rotate_left
        · dsimp only
          split
          · exact State.memOk_bringSync _ _ _ (State.memOk_walked _ _ _ ha)
          · exact State.memOk_walked _ _ _ ha
        split
        · exact hb
        · rename_i hw
          exact State.memOk_writePhys hb hw

theorem reset_memOk : State.reset.memOk = true := by decide

end Sys2Proof.Machine
end

