-- ==== Sys2Proof/Laws/PerInstr.lean ====
section
/-! SUPPORT. Packed bodies and headers read back, and, per instruction, the opcode that its class's table reads as it
(09 R186, R193, R194, Tables 9.4 to 9.7). -/

open Sys2Proof

namespace Sys2Proof.Laws

theorem extract_append_high {m n k : Nat} (a : BitVec m) (b : BitVec n) (h : k ≥ n) (l : Nat) :
    (a ++ b).extractLsb' k l = a.extractLsb' (k - n) l := by
  ext i hi
  simp only [BitVec.getElem_extractLsb', BitVec.getLsbD_append]
  have : ¬ (k + i < n) := by omega
  simp [this, show k + i - n = k - n + i by omega]

theorem extract_append_low {m n k l : Nat} (a : BitVec m) (b : BitVec n) (h : k + l ≤ n) :
    (a ++ b).extractLsb' k l = b.extractLsb' k l := by
  ext i hi
  simp only [BitVec.getElem_extractLsb', BitVec.getLsbD_append]
  have : k + i < n := by omega
  simp [this]

theorem extract_all {n : Nat} (a : BitVec n) : a.extractLsb' 0 n = a := by
  ext i hi
  simp

theorem getLsbD_append_high {m n k : Nat} (a : BitVec m) (b : BitVec n) (h : n ≤ k) : (a ++ b).getLsbD k = a.getLsbD (k - n) := by
  simp [BitVec.getLsbD_append, show ¬ (k < n) by omega]

theorem getLsbD_append_low {m n k : Nat} (a : BitVec m) (b : BitVec n) (h : k < n) : (a ++ b).getLsbD k = b.getLsbD k := by
  simp [BitVec.getLsbD_append, h]

theorem fieldsV (d : BitVec 8) (a : BitVec 8) (b : BitVec 8) (c : BitVec 8) (e : BitVec 8) (m : BitVec 24) :
    (d ++ a ++ b ++ c ++ e ++ m).extractLsb' 56 8 = d ∧
    (d ++ a ++ b ++ c ++ e ++ m).extractLsb' 48 8 = a ∧
    (d ++ a ++ b ++ c ++ e ++ m).extractLsb' 40 8 = b ∧
    (d ++ a ++ b ++ c ++ e ++ m).extractLsb' 32 8 = c ∧
    (d ++ a ++ b ++ c ++ e ++ m).extractLsb' 24 8 = e ∧
    (d ++ a ++ b ++ c ++ e ++ m).extractLsb' 0 24 = m :=
  ⟨((extract_append_high _ _ (by decide) _).trans ((extract_append_high _ _ (by decide) _).trans ((extract_append_high _ _ (by decide) _).trans ((extract_append_high _ _ (by decide) _).trans ((extract_append_high _ _ (by decide) _).trans (extract_all d)))))),
   ((extract_append_high _ _ (by decide) _).trans ((extract_append_high _ _ (by decide) _).trans ((extract_append_high _ _ (by decide) _).trans ((extract_append_high _ _ (by decide) _).trans ((extract_append_low _ _ (by decide)).trans (extract_all a)))))),
   ((extract_append_high _ _ (by decide) _).trans ((extract_append_high _ _ (by decide) _).trans ((extract_append_high _ _ (by decide) _).trans ((extract_append_low _ _ (by decide)).trans (extract_all b))))),
   ((extract_append_high _ _ (by decide) _).trans ((extract_append_high _ _ (by decide) _).trans ((extract_append_low _ _ (by decide)).trans (extract_all c)))),
   ((extract_append_high _ _ (by decide) _).trans ((extract_append_low _ _ (by decide)).trans (extract_all e))),
   ((extract_append_low _ _ (by decide)).trans (extract_all m))⟩

theorem vBodyOf_packV (b : VBody) : vBodyOf (packV b) = b := by
  obtain ⟨d, a, b, c, e, m⟩ := b
  simp only [vBodyOf, packV, VBody.mk.injEq]
  exact fieldsV d a b c e m

theorem fieldsI (d : BitVec 8) (a : BitVec 8) (i : BitVec 32) (m : BitVec 16) :
    (d ++ a ++ i ++ m).extractLsb' 56 8 = d ∧
    (d ++ a ++ i ++ m).extractLsb' 48 8 = a ∧
    (d ++ a ++ i ++ m).extractLsb' 16 32 = i ∧
    (d ++ a ++ i ++ m).extractLsb' 0 16 = m :=
  ⟨((extract_append_high _ _ (by decide) _).trans ((extract_append_high _ _ (by decide) _).trans ((extract_append_high _ _ (by decide) _).trans (extract_all d)))),
   ((extract_append_high _ _ (by decide) _).trans ((extract_append_high _ _ (by decide) _).trans ((extract_append_low _ _ (by decide)).trans (extract_all a)))),
   ((extract_append_high _ _ (by decide) _).trans ((extract_append_low _ _ (by decide)).trans (extract_all i))),
   ((extract_append_low _ _ (by decide)).trans (extract_all m))⟩

theorem iBodyOf_packI (b : IBody) : iBodyOf (packI b) = b := by
  obtain ⟨d, a, i, m⟩ := b
  simp only [iBodyOf, packI, IBody.mk.injEq]
  exact fieldsI d a i m

theorem fieldsM (d : BitVec 8) (a : BitVec 8) (b : BitVec 8) (c : BitVec 8) (o : BitVec 24) (m : BitVec 8) :
    (d ++ a ++ b ++ c ++ o ++ m).extractLsb' 56 8 = d ∧
    (d ++ a ++ b ++ c ++ o ++ m).extractLsb' 48 8 = a ∧
    (d ++ a ++ b ++ c ++ o ++ m).extractLsb' 40 8 = b ∧
    (d ++ a ++ b ++ c ++ o ++ m).extractLsb' 32 8 = c ∧
    (d ++ a ++ b ++ c ++ o ++ m).extractLsb' 8 24 = o ∧
    (d ++ a ++ b ++ c ++ o ++ m).extractLsb' 0 8 = m :=
  ⟨((extract_append_high _ _ (by decide) _).trans ((extract_append_high _ _ (by decide) _).trans ((extract_append_high _ _ (by decide) _).trans ((extract_append_high _ _ (by decide) _).trans ((extract_append_high _ _ (by decide) _).trans (extract_all d)))))),
   ((extract_append_high _ _ (by decide) _).trans ((extract_append_high _ _ (by decide) _).trans ((extract_append_high _ _ (by decide) _).trans ((extract_append_high _ _ (by decide) _).trans ((extract_append_low _ _ (by decide)).trans (extract_all a)))))),
   ((extract_append_high _ _ (by decide) _).trans ((extract_append_high _ _ (by decide) _).trans ((extract_append_high _ _ (by decide) _).trans ((extract_append_low _ _ (by decide)).trans (extract_all b))))),
   ((extract_append_high _ _ (by decide) _).trans ((extract_append_high _ _ (by decide) _).trans ((extract_append_low _ _ (by decide)).trans (extract_all c)))),
   ((extract_append_high _ _ (by decide) _).trans ((extract_append_low _ _ (by decide)).trans (extract_all o))),
   ((extract_append_low _ _ (by decide)).trans (extract_all m))⟩

theorem mBodyOf_packM (b : MBody) : mBodyOf (packM b) = b := by
  obtain ⟨d, a, b, c, o, m⟩ := b
  simp only [mBodyOf, packM, MBody.mk.injEq]
  exact fieldsM d a b c o m

theorem fieldsJ (d : BitVec 29) (a : BitVec 3) (r : BitVec 29) (s : BitVec 3) :
    (d ++ a ++ r ++ s).extractLsb' 35 29 = d ∧
    (d ++ a ++ r ++ s).extractLsb' 32 3 = a ∧
    (d ++ a ++ r ++ s).extractLsb' 3 29 = r ∧
    (d ++ a ++ r ++ s).extractLsb' 0 3 = s :=
  ⟨((extract_append_high _ _ (by decide) _).trans ((extract_append_high _ _ (by decide) _).trans ((extract_append_high _ _ (by decide) _).trans (extract_all d)))),
   ((extract_append_high _ _ (by decide) _).trans ((extract_append_high _ _ (by decide) _).trans ((extract_append_low _ _ (by decide)).trans (extract_all a)))),
   ((extract_append_high _ _ (by decide) _).trans ((extract_append_low _ _ (by decide)).trans (extract_all r))),
   ((extract_append_low _ _ (by decide)).trans (extract_all s))⟩

theorem jBodyOf_packJ (b : JBody) : jBodyOf (packJ b) = b := by
  obtain ⟨d, a, r, s⟩ := b
  simp only [jBodyOf, packJ, JBody.mk.injEq]
  exact fieldsJ d a r s

theorem fieldsC (a : BitVec 8) (w : BitVec 8) (v : BitVec 8) (n : BitVec 8) (r : BitVec 8) (m : BitVec 24) :
    (a ++ w ++ v ++ n ++ r ++ m).extractLsb' 56 8 = a ∧
    (a ++ w ++ v ++ n ++ r ++ m).extractLsb' 48 8 = w ∧
    (a ++ w ++ v ++ n ++ r ++ m).extractLsb' 40 8 = v ∧
    (a ++ w ++ v ++ n ++ r ++ m).extractLsb' 32 8 = n ∧
    (a ++ w ++ v ++ n ++ r ++ m).extractLsb' 24 8 = r ∧
    (a ++ w ++ v ++ n ++ r ++ m).extractLsb' 0 24 = m :=
  ⟨((extract_append_high _ _ (by decide) _).trans ((extract_append_high _ _ (by decide) _).trans ((extract_append_high _ _ (by decide) _).trans ((extract_append_high _ _ (by decide) _).trans ((extract_append_high _ _ (by decide) _).trans (extract_all a)))))),
   ((extract_append_high _ _ (by decide) _).trans ((extract_append_high _ _ (by decide) _).trans ((extract_append_high _ _ (by decide) _).trans ((extract_append_high _ _ (by decide) _).trans ((extract_append_low _ _ (by decide)).trans (extract_all w)))))),
   ((extract_append_high _ _ (by decide) _).trans ((extract_append_high _ _ (by decide) _).trans ((extract_append_high _ _ (by decide) _).trans ((extract_append_low _ _ (by decide)).trans (extract_all v))))),
   ((extract_append_high _ _ (by decide) _).trans ((extract_append_high _ _ (by decide) _).trans ((extract_append_low _ _ (by decide)).trans (extract_all n)))),
   ((extract_append_high _ _ (by decide) _).trans ((extract_append_low _ _ (by decide)).trans (extract_all r))),
   ((extract_append_low _ _ (by decide)).trans (extract_all m))⟩

theorem cBodyOf_packC (b : CBody) : cBodyOf (packC b) = b := by
  obtain ⟨a, w, v, n, r, m⟩ := b
  simp only [cBodyOf, packC, CBody.mk.injEq]
  exact fieldsC a w v n r m

theorem fieldsS (d : BitVec 8) (e : BitVec 16) (m : BitVec 40) :
    (d ++ e ++ m).extractLsb' 56 8 = d ∧
    (d ++ e ++ m).extractLsb' 40 16 = e ∧
    (d ++ e ++ m).extractLsb' 0 40 = m :=
  ⟨((extract_append_high _ _ (by decide) _).trans ((extract_append_high _ _ (by decide) _).trans (extract_all d))),
   ((extract_append_high _ _ (by decide) _).trans ((extract_append_low _ _ (by decide)).trans (extract_all e))),
   ((extract_append_low _ _ (by decide)).trans (extract_all m))⟩

theorem sBodyOf_packS (b : SBody) : sBodyOf (packS b) = b := by
  obtain ⟨d, e, m⟩ := b
  simp only [sBodyOf, packS, SBody.mk.injEq]
  exact fieldsS d e m

/-- The opcode and body of a stream instruction are those that the table of its class reads as it. -/
def ClassRead.Statement (i : Instr) : Prop :=
  ∀ opc h x, streamParts i = some (opc, h, x) → opc < 1024 ∧ decodeOpc (opc / 64) (opc % 64) h x = some i

theorem ClassRead.of {i : Instr} {opc : Nat} {h : Hdr} {x : DWord} (hp : streamParts i = some (opc, h, x)) (hl : opc < 1024)
    (hd : decodeOpc (opc / 64) (opc % 64) h x = some i) : ClassRead.Statement i := by
  intro o g y hy
  rw [hp] at hy
  cases hy
  exact ⟨hl, hd⟩

theorem ClassRead.no {i : Instr} (hp : streamParts i = none) : ClassRead.Statement i := by
  intro o g y hy
  rw [hp] at hy
  cases hy

end Sys2Proof.Laws

open Sys2Proof.Laws

theorem Sys2Proof.Laws.ClassRead.nop (h : Hdr) (b : VBody) : ClassRead.Statement (.nop h b) :=
  ClassRead.of rfl (by decide) (congrArg (fun b => some (Instr.nop h b)) (vBodyOf_packV b))
theorem Sys2Proof.Laws.ClassRead.bra (h : Hdr) (b : JBody) : ClassRead.Statement (.bra h b) :=
  ClassRead.of rfl (by decide) (congrArg (fun b => some (Instr.bra h b)) (jBodyOf_packJ b))
theorem Sys2Proof.Laws.ClassRead.brx (h : Hdr) (b : VBody) : ClassRead.Statement (.brx h b) :=
  ClassRead.of rfl (by decide) (congrArg (fun b => some (Instr.brx h b)) (vBodyOf_packV b))
theorem Sys2Proof.Laws.ClassRead.call (h : Hdr) (b : JBody) : ClassRead.Statement (.call h b) :=
  ClassRead.of rfl (by decide) (congrArg (fun b => some (Instr.call h b)) (jBodyOf_packJ b))
theorem Sys2Proof.Laws.ClassRead.callx (h : Hdr) (b : VBody) : ClassRead.Statement (.callx h b) :=
  ClassRead.of rfl (by decide) (congrArg (fun b => some (Instr.callx h b)) (vBodyOf_packV b))
theorem Sys2Proof.Laws.ClassRead.ret (h : Hdr) (b : VBody) : ClassRead.Statement (.ret h b) :=
  ClassRead.of rfl (by decide) (congrArg (fun b => some (Instr.ret h b)) (vBodyOf_packV b))
theorem Sys2Proof.Laws.ClassRead.exit (h : Hdr) (b : VBody) : ClassRead.Statement (.exit h b) :=
  ClassRead.of rfl (by decide) (congrArg (fun b => some (Instr.exit h b)) (vBodyOf_packV b))
theorem Sys2Proof.Laws.ClassRead.join (h : Hdr) (b : VBody) : ClassRead.Statement (.join h b) :=
  ClassRead.of rfl (by decide) (congrArg (fun b => some (Instr.join h b)) (vBodyOf_packV b))
theorem Sys2Proof.Laws.ClassRead.yield (h : Hdr) (b : VBody) : ClassRead.Statement (.yield h b) :=
  ClassRead.of rfl (by decide) (congrArg (fun b => some (Instr.yield h b)) (vBodyOf_packV b))
theorem Sys2Proof.Laws.ClassRead.trap (h : Hdr) (b : IBody) : ClassRead.Statement (.trap h b) :=
  ClassRead.of rfl (by decide) (congrArg (fun b => some (Instr.trap h b)) (iBodyOf_packI b))
theorem Sys2Proof.Laws.ClassRead.tret (h : Hdr) (b : IBody) : ClassRead.Statement (.tret h b) :=
  ClassRead.of rfl (by decide) (congrArg (fun b => some (Instr.tret h b)) (iBodyOf_packI b))
theorem Sys2Proof.Laws.ClassRead.brk (h : Hdr) (b : VBody) : ClassRead.Statement (.brk h b) :=
  ClassRead.of rfl (by decide) (congrArg (fun b => some (Instr.brk h b)) (vBodyOf_packV b))
theorem Sys2Proof.Laws.ClassRead.barArrive (h : Hdr) (b : IBody) : ClassRead.Statement (.barArrive h b) :=
  ClassRead.of rfl (by decide) (congrArg (fun b => some (Instr.barArrive h b)) (iBodyOf_packI b))
theorem Sys2Proof.Laws.ClassRead.barWait (h : Hdr) (b : IBody) : ClassRead.Statement (.barWait h b) :=
  ClassRead.of rfl (by decide) (congrArg (fun b => some (Instr.barWait h b)) (iBodyOf_packI b))
theorem Sys2Proof.Laws.ClassRead.barSync (h : Hdr) (b : IBody) : ClassRead.Statement (.barSync h b) :=
  ClassRead.of rfl (by decide) (congrArg (fun b => some (Instr.barSync h b)) (iBodyOf_packI b))
theorem Sys2Proof.Laws.ClassRead.barQuery (h : Hdr) (b : IBody) : ClassRead.Statement (.barQuery h b) :=
  ClassRead.of rfl (by decide) (congrArg (fun b => some (Instr.barQuery h b)) (iBodyOf_packI b))
theorem Sys2Proof.Laws.ClassRead.drain (h : Hdr) (b : IBody) : ClassRead.Statement (.drain h b) :=
  ClassRead.of rfl (by decide) (congrArg (fun b => some (Instr.drain h b)) (iBodyOf_packI b))
theorem Sys2Proof.Laws.ClassRead.fence (h : Hdr) (b : IBody) : ClassRead.Statement (.fence h b) :=
  ClassRead.of rfl (by decide) (congrArg (fun b => some (Instr.fence h b)) (iBodyOf_packI b))
theorem Sys2Proof.Laws.ClassRead.owait (h : Hdr) (b : IBody) : ClassRead.Statement (.owait h b) :=
  ClassRead.of rfl (by decide) (congrArg (fun b => some (Instr.owait h b)) (iBodyOf_packI b))
theorem Sys2Proof.Laws.ClassRead.cwait (h : Hdr) (b : VBody) : ClassRead.Statement (.cwait h b) :=
  ClassRead.of rfl (by decide) (congrArg (fun b => some (Instr.cwait h b)) (vBodyOf_packV b))
theorem Sys2Proof.Laws.ClassRead.cyield (h : Hdr) (b : VBody) : ClassRead.Statement (.cyield h b) :=
  ClassRead.of rfl (by decide) (congrArg (fun b => some (Instr.cyield h b)) (vBodyOf_packV b))
theorem Sys2Proof.Laws.ClassRead.glaunch (h : Hdr) (b : VBody) : ClassRead.Statement (.glaunch h b) :=
  ClassRead.of rfl (by decide) (congrArg (fun b => some (Instr.glaunch h b)) (vBodyOf_packV b))
theorem Sys2Proof.Laws.ClassRead.gwait (h : Hdr) (b : VBody) : ClassRead.Statement (.gwait h b) :=
  ClassRead.of rfl (by decide) (congrArg (fun b => some (Instr.gwait h b)) (vBodyOf_packV b))
theorem Sys2Proof.Laws.ClassRead.add (h : Hdr) (b : VBody) : ClassRead.Statement (.add h b) :=
  ClassRead.of rfl (by decide) (congrArg (fun b => some (Instr.add h b)) (vBodyOf_packV b))
theorem Sys2Proof.Laws.ClassRead.sub (h : Hdr) (b : VBody) : ClassRead.Statement (.sub h b) :=
  ClassRead.of rfl (by decide) (congrArg (fun b => some (Instr.sub h b)) (vBodyOf_packV b))
theorem Sys2Proof.Laws.ClassRead.mul (h : Hdr) (b : VBody) : ClassRead.Statement (.mul h b) :=
  ClassRead.of rfl (by decide) (congrArg (fun b => some (Instr.mul h b)) (vBodyOf_packV b))
theorem Sys2Proof.Laws.ClassRead.mulh (h : Hdr) (b : VBody) : ClassRead.Statement (.mulh h b) :=
  ClassRead.of rfl (by decide) (congrArg (fun b => some (Instr.mulh h b)) (vBodyOf_packV b))
theorem Sys2Proof.Laws.ClassRead.mad (h : Hdr) (b : VBody) : ClassRead.Statement (.mad h b) :=
  ClassRead.of rfl (by decide) (congrArg (fun b => some (Instr.mad h b)) (vBodyOf_packV b))
theorem Sys2Proof.Laws.ClassRead.min (h : Hdr) (b : VBody) : ClassRead.Statement (.min h b) :=
  ClassRead.of rfl (by decide) (congrArg (fun b => some (Instr.min h b)) (vBodyOf_packV b))
theorem Sys2Proof.Laws.ClassRead.max (h : Hdr) (b : VBody) : ClassRead.Statement (.max h b) :=
  ClassRead.of rfl (by decide) (congrArg (fun b => some (Instr.max h b)) (vBodyOf_packV b))
theorem Sys2Proof.Laws.ClassRead.abs (h : Hdr) (b : VBody) : ClassRead.Statement (.abs h b) :=
  ClassRead.of rfl (by decide) (congrArg (fun b => some (Instr.abs h b)) (vBodyOf_packV b))
theorem Sys2Proof.Laws.ClassRead.neg (h : Hdr) (b : VBody) : ClassRead.Statement (.neg h b) :=
  ClassRead.of rfl (by decide) (congrArg (fun b => some (Instr.neg h b)) (vBodyOf_packV b))
theorem Sys2Proof.Laws.ClassRead.and (h : Hdr) (b : VBody) : ClassRead.Statement (.and h b) :=
  ClassRead.of rfl (by decide) (congrArg (fun b => some (Instr.and h b)) (vBodyOf_packV b))
theorem Sys2Proof.Laws.ClassRead.or (h : Hdr) (b : VBody) : ClassRead.Statement (.or h b) :=
  ClassRead.of rfl (by decide) (congrArg (fun b => some (Instr.or h b)) (vBodyOf_packV b))
theorem Sys2Proof.Laws.ClassRead.xor (h : Hdr) (b : VBody) : ClassRead.Statement (.xor h b) :=
  ClassRead.of rfl (by decide) (congrArg (fun b => some (Instr.xor h b)) (vBodyOf_packV b))
theorem Sys2Proof.Laws.ClassRead.not (h : Hdr) (b : VBody) : ClassRead.Statement (.not h b) :=
  ClassRead.of rfl (by decide) (congrArg (fun b => some (Instr.not h b)) (vBodyOf_packV b))
theorem Sys2Proof.Laws.ClassRead.andn (h : Hdr) (b : VBody) : ClassRead.Statement (.andn h b) :=
  ClassRead.of rfl (by decide) (congrArg (fun b => some (Instr.andn h b)) (vBodyOf_packV b))
theorem Sys2Proof.Laws.ClassRead.shl (h : Hdr) (b : VBody) : ClassRead.Statement (.shl h b) :=
  ClassRead.of rfl (by decide) (congrArg (fun b => some (Instr.shl h b)) (vBodyOf_packV b))
theorem Sys2Proof.Laws.ClassRead.shr (h : Hdr) (b : VBody) : ClassRead.Statement (.shr h b) :=
  ClassRead.of rfl (by decide) (congrArg (fun b => some (Instr.shr h b)) (vBodyOf_packV b))
theorem Sys2Proof.Laws.ClassRead.sar (h : Hdr) (b : VBody) : ClassRead.Statement (.sar h b) :=
  ClassRead.of rfl (by decide) (congrArg (fun b => some (Instr.sar h b)) (vBodyOf_packV b))
theorem Sys2Proof.Laws.ClassRead.rot (h : Hdr) (b : VBody) : ClassRead.Statement (.rot h b) :=
  ClassRead.of rfl (by decide) (congrArg (fun b => some (Instr.rot h b)) (vBodyOf_packV b))
theorem Sys2Proof.Laws.ClassRead.sel (h : Hdr) (b : VBody) : ClassRead.Statement (.sel h b) :=
  ClassRead.of rfl (by decide) (congrArg (fun b => some (Instr.sel h b)) (vBodyOf_packV b))
theorem Sys2Proof.Laws.ClassRead.mov (h : Hdr) (b : VBody) : ClassRead.Statement (.mov h b) :=
  ClassRead.of rfl (by decide) (congrArg (fun b => some (Instr.mov h b)) (vBodyOf_packV b))
theorem Sys2Proof.Laws.ClassRead.cmp (h : Hdr) (b : VBody) : ClassRead.Statement (.cmp h b) :=
  ClassRead.of rfl (by decide) (congrArg (fun b => some (Instr.cmp h b)) (vBodyOf_packV b))
theorem Sys2Proof.Laws.ClassRead.addi (h : Hdr) (b : IBody) : ClassRead.Statement (.addi h b) :=
  ClassRead.of rfl (by decide) (congrArg (fun b => some (Instr.addi h b)) (iBodyOf_packI b))
theorem Sys2Proof.Laws.ClassRead.andi (h : Hdr) (b : IBody) : ClassRead.Statement (.andi h b) :=
  ClassRead.of rfl (by decide) (congrArg (fun b => some (Instr.andi h b)) (iBodyOf_packI b))
theorem Sys2Proof.Laws.ClassRead.ori (h : Hdr) (b : IBody) : ClassRead.Statement (.ori h b) :=
  ClassRead.of rfl (by decide) (congrArg (fun b => some (Instr.ori h b)) (iBodyOf_packI b))
theorem Sys2Proof.Laws.ClassRead.movi (h : Hdr) (b : IBody) : ClassRead.Statement (.movi h b) :=
  ClassRead.of rfl (by decide) (congrArg (fun b => some (Instr.movi h b)) (iBodyOf_packI b))
theorem Sys2Proof.Laws.ClassRead.cmpi (h : Hdr) (b : IBody) : ClassRead.Statement (.cmpi h b) :=
  ClassRead.of rfl (by decide) (congrArg (fun b => some (Instr.cmpi h b)) (iBodyOf_packI b))
theorem Sys2Proof.Laws.ClassRead.lea (h : Hdr) (b : VBody) : ClassRead.Statement (.lea h b) :=
  ClassRead.of rfl (by decide) (congrArg (fun b => some (Instr.lea h b)) (vBodyOf_packV b))
theorem Sys2Proof.Laws.ClassRead.add64 (h : Hdr) (b : VBody) : ClassRead.Statement (.add64 h b) :=
  ClassRead.of rfl (by decide) (congrArg (fun b => some (Instr.add64 h b)) (vBodyOf_packV b))
theorem Sys2Proof.Laws.ClassRead.mad64 (h : Hdr) (b : VBody) : ClassRead.Statement (.mad64 h b) :=
  ClassRead.of rfl (by decide) (congrArg (fun b => some (Instr.mad64 h b)) (vBodyOf_packV b))
theorem Sys2Proof.Laws.ClassRead.popc (h : Hdr) (b : VBody) : ClassRead.Statement (.popc h b) :=
  ClassRead.of rfl (by decide) (congrArg (fun b => some (Instr.popc h b)) (vBodyOf_packV b))
theorem Sys2Proof.Laws.ClassRead.clz (h : Hdr) (b : VBody) : ClassRead.Statement (.clz h b) :=
  ClassRead.of rfl (by decide) (congrArg (fun b => some (Instr.clz h b)) (vBodyOf_packV b))
theorem Sys2Proof.Laws.ClassRead.ctz (h : Hdr) (b : VBody) : ClassRead.Statement (.ctz h b) :=
  ClassRead.of rfl (by decide) (congrArg (fun b => some (Instr.ctz h b)) (vBodyOf_packV b))
theorem Sys2Proof.Laws.ClassRead.brev (h : Hdr) (b : VBody) : ClassRead.Statement (.brev h b) :=
  ClassRead.of rfl (by decide) (congrArg (fun b => some (Instr.brev h b)) (vBodyOf_packV b))
theorem Sys2Proof.Laws.ClassRead.bfe (h : Hdr) (b : VBody) : ClassRead.Statement (.bfe h b) :=
  ClassRead.of rfl (by decide) (congrArg (fun b => some (Instr.bfe h b)) (vBodyOf_packV b))
theorem Sys2Proof.Laws.ClassRead.bfi (h : Hdr) (b : VBody) : ClassRead.Statement (.bfi h b) :=
  ClassRead.of rfl (by decide) (congrArg (fun b => some (Instr.bfi h b)) (vBodyOf_packV b))
theorem Sys2Proof.Laws.ClassRead.prmt (h : Hdr) (b : VBody) : ClassRead.Statement (.prmt h b) :=
  ClassRead.of rfl (by decide) (congrArg (fun b => some (Instr.prmt h b)) (vBodyOf_packV b))
theorem Sys2Proof.Laws.ClassRead.shfn (h : Hdr) (b : VBody) : ClassRead.Statement (.shfn h b) :=
  ClassRead.of rfl (by decide) (congrArg (fun b => some (Instr.shfn h b)) (vBodyOf_packV b))
theorem Sys2Proof.Laws.ClassRead.lop3 (h : Hdr) (b : VBody) : ClassRead.Statement (.lop3 h b) :=
  ClassRead.of rfl (by decide) (congrArg (fun b => some (Instr.lop3 h b)) (vBodyOf_packV b))
theorem Sys2Proof.Laws.ClassRead.shfl (h : Hdr) (b : VBody) : ClassRead.Statement (.shfl h b) :=
  ClassRead.of rfl (by decide) (congrArg (fun b => some (Instr.shfl h b)) (vBodyOf_packV b))
theorem Sys2Proof.Laws.ClassRead.lred (h : Hdr) (b : VBody) : ClassRead.Statement (.lred h b) :=
  ClassRead.of rfl (by decide) (congrArg (fun b => some (Instr.lred h b)) (vBodyOf_packV b))
theorem Sys2Proof.Laws.ClassRead.lscan (h : Hdr) (b : VBody) : ClassRead.Statement (.lscan h b) :=
  ClassRead.of rfl (by decide) (congrArg (fun b => some (Instr.lscan h b)) (vBodyOf_packV b))
theorem Sys2Proof.Laws.ClassRead.vote (h : Hdr) (b : VBody) : ClassRead.Statement (.vote h b) :=
  ClassRead.of rfl (by decide) (congrArg (fun b => some (Instr.vote h b)) (vBodyOf_packV b))
theorem Sys2Proof.Laws.ClassRead.ballot (h : Hdr) (b : VBody) : ClassRead.Statement (.ballot h b) :=
  ClassRead.of rfl (by decide) (congrArg (fun b => some (Instr.ballot h b)) (vBodyOf_packV b))
theorem Sys2Proof.Laws.ClassRead.bcast (h : Hdr) (b : VBody) : ClassRead.Statement (.bcast h b) :=
  ClassRead.of rfl (by decide) (congrArg (fun b => some (Instr.bcast h b)) (vBodyOf_packV b))
theorem Sys2Proof.Laws.ClassRead.matchLanes (h : Hdr) (b : VBody) : ClassRead.Statement (.matchLanes h b) :=
  ClassRead.of rfl (by decide) (congrArg (fun b => some (Instr.matchLanes h b)) (vBodyOf_packV b))
theorem Sys2Proof.Laws.ClassRead.prank (h : Hdr) (b : VBody) : ClassRead.Statement (.prank h b) :=
  ClassRead.of rfl (by decide) (congrArg (fun b => some (Instr.prank h b)) (vBodyOf_packV b))
theorem Sys2Proof.Laws.ClassRead.plop (h : Hdr) (b : VBody) : ClassRead.Statement (.plop h b) :=
  ClassRead.of rfl (by decide) (congrArg (fun b => some (Instr.plop h b)) (vBodyOf_packV b))
theorem Sys2Proof.Laws.ClassRead.pmask (h : Hdr) (b : VBody) : ClassRead.Statement (.pmask h b) :=
  ClassRead.of rfl (by decide) (congrArg (fun b => some (Instr.pmask h b)) (vBodyOf_packV b))
theorem Sys2Proof.Laws.ClassRead.psetm (h : Hdr) (b : VBody) : ClassRead.Statement (.psetm h b) :=
  ClassRead.of rfl (by decide) (congrArg (fun b => some (Instr.psetm h b)) (vBodyOf_packV b))
theorem Sys2Proof.Laws.ClassRead.pact (h : Hdr) (b : VBody) : ClassRead.Statement (.pact h b) :=
  ClassRead.of rfl (by decide) (congrArg (fun b => some (Instr.pact h b)) (vBodyOf_packV b))
theorem Sys2Proof.Laws.ClassRead.fadd (h : Hdr) (b : VBody) : ClassRead.Statement (.fadd h b) :=
  ClassRead.of rfl (by decide) (congrArg (fun b => some (Instr.fadd h b)) (vBodyOf_packV b))
theorem Sys2Proof.Laws.ClassRead.fsub (h : Hdr) (b : VBody) : ClassRead.Statement (.fsub h b) :=
  ClassRead.of rfl (by decide) (congrArg (fun b => some (Instr.fsub h b)) (vBodyOf_packV b))
theorem Sys2Proof.Laws.ClassRead.fmul (h : Hdr) (b : VBody) : ClassRead.Statement (.fmul h b) :=
  ClassRead.of rfl (by decide) (congrArg (fun b => some (Instr.fmul h b)) (vBodyOf_packV b))
theorem Sys2Proof.Laws.ClassRead.ffma (h : Hdr) (b : VBody) : ClassRead.Statement (.ffma h b) :=
  ClassRead.of rfl (by decide) (congrArg (fun b => some (Instr.ffma h b)) (vBodyOf_packV b))
theorem Sys2Proof.Laws.ClassRead.fmin (h : Hdr) (b : VBody) : ClassRead.Statement (.fmin h b) :=
  ClassRead.of rfl (by decide) (congrArg (fun b => some (Instr.fmin h b)) (vBodyOf_packV b))
theorem Sys2Proof.Laws.ClassRead.fmax (h : Hdr) (b : VBody) : ClassRead.Statement (.fmax h b) :=
  ClassRead.of rfl (by decide) (congrArg (fun b => some (Instr.fmax h b)) (vBodyOf_packV b))
theorem Sys2Proof.Laws.ClassRead.fcmp (h : Hdr) (b : VBody) : ClassRead.Statement (.fcmp h b) :=
  ClassRead.of rfl (by decide) (congrArg (fun b => some (Instr.fcmp h b)) (vBodyOf_packV b))
theorem Sys2Proof.Laws.ClassRead.frnd (h : Hdr) (b : VBody) : ClassRead.Statement (.frnd h b) :=
  ClassRead.of rfl (by decide) (congrArg (fun b => some (Instr.frnd h b)) (vBodyOf_packV b))
theorem Sys2Proof.Laws.ClassRead.fclass (h : Hdr) (b : VBody) : ClassRead.Statement (.fclass h b) :=
  ClassRead.of rfl (by decide) (congrArg (fun b => some (Instr.fclass h b)) (vBodyOf_packV b))
theorem Sys2Proof.Laws.ClassRead.fscale (h : Hdr) (b : VBody) : ClassRead.Statement (.fscale h b) :=
  ClassRead.of rfl (by decide) (congrArg (fun b => some (Instr.fscale h b)) (vBodyOf_packV b))
theorem Sys2Proof.Laws.ClassRead.fexpt (h : Hdr) (b : VBody) : ClassRead.Statement (.fexpt h b) :=
  ClassRead.of rfl (by decide) (congrArg (fun b => some (Instr.fexpt h b)) (vBodyOf_packV b))
theorem Sys2Proof.Laws.ClassRead.fdot2 (h : Hdr) (b : VBody) : ClassRead.Statement (.fdot2 h b) :=
  ClassRead.of rfl (by decide) (congrArg (fun b => some (Instr.fdot2 h b)) (vBodyOf_packV b))
theorem Sys2Proof.Laws.ClassRead.hadd2 (h : Hdr) (b : VBody) : ClassRead.Statement (.hadd2 h b) :=
  ClassRead.of rfl (by decide) (congrArg (fun b => some (Instr.hadd2 h b)) (vBodyOf_packV b))
theorem Sys2Proof.Laws.ClassRead.hsub2 (h : Hdr) (b : VBody) : ClassRead.Statement (.hsub2 h b) :=
  ClassRead.of rfl (by decide) (congrArg (fun b => some (Instr.hsub2 h b)) (vBodyOf_packV b))
theorem Sys2Proof.Laws.ClassRead.hmul2 (h : Hdr) (b : VBody) : ClassRead.Statement (.hmul2 h b) :=
  ClassRead.of rfl (by decide) (congrArg (fun b => some (Instr.hmul2 h b)) (vBodyOf_packV b))
theorem Sys2Proof.Laws.ClassRead.hfma2 (h : Hdr) (b : VBody) : ClassRead.Statement (.hfma2 h b) :=
  ClassRead.of rfl (by decide) (congrArg (fun b => some (Instr.hfma2 h b)) (vBodyOf_packV b))
theorem Sys2Proof.Laws.ClassRead.hmin2 (h : Hdr) (b : VBody) : ClassRead.Statement (.hmin2 h b) :=
  ClassRead.of rfl (by decide) (congrArg (fun b => some (Instr.hmin2 h b)) (vBodyOf_packV b))
theorem Sys2Proof.Laws.ClassRead.hmax2 (h : Hdr) (b : VBody) : ClassRead.Statement (.hmax2 h b) :=
  ClassRead.of rfl (by decide) (congrArg (fun b => some (Instr.hmax2 h b)) (vBodyOf_packV b))
theorem Sys2Proof.Laws.ClassRead.hcmp2 (h : Hdr) (b : VBody) : ClassRead.Statement (.hcmp2 h b) :=
  ClassRead.of rfl (by decide) (congrArg (fun b => some (Instr.hcmp2 h b)) (vBodyOf_packV b))
theorem Sys2Proof.Laws.ClassRead.e8dot4 (h : Hdr) (b : VBody) : ClassRead.Statement (.e8dot4 h b) :=
  ClassRead.of rfl (by decide) (congrArg (fun b => some (Instr.e8dot4 h b)) (vBodyOf_packV b))
theorem Sys2Proof.Laws.ClassRead.frcp (h : Hdr) (b : VBody) : ClassRead.Statement (.frcp h b) :=
  ClassRead.of rfl (by decide) (congrArg (fun b => some (Instr.frcp h b)) (vBodyOf_packV b))
theorem Sys2Proof.Laws.ClassRead.frsq (h : Hdr) (b : VBody) : ClassRead.Statement (.frsq h b) :=
  ClassRead.of rfl (by decide) (congrArg (fun b => some (Instr.frsq h b)) (vBodyOf_packV b))
theorem Sys2Proof.Laws.ClassRead.fsqrt (h : Hdr) (b : VBody) : ClassRead.Statement (.fsqrt h b) :=
  ClassRead.of rfl (by decide) (congrArg (fun b => some (Instr.fsqrt h b)) (vBodyOf_packV b))
theorem Sys2Proof.Laws.ClassRead.fex2 (h : Hdr) (b : VBody) : ClassRead.Statement (.fex2 h b) :=
  ClassRead.of rfl (by decide) (congrArg (fun b => some (Instr.fex2 h b)) (vBodyOf_packV b))
theorem Sys2Proof.Laws.ClassRead.flg2 (h : Hdr) (b : VBody) : ClassRead.Statement (.flg2 h b) :=
  ClassRead.of rfl (by decide) (congrArg (fun b => some (Instr.flg2 h b)) (vBodyOf_packV b))
theorem Sys2Proof.Laws.ClassRead.fsin (h : Hdr) (b : VBody) : ClassRead.Statement (.fsin h b) :=
  ClassRead.of rfl (by decide) (congrArg (fun b => some (Instr.fsin h b)) (vBodyOf_packV b))
theorem Sys2Proof.Laws.ClassRead.fcos (h : Hdr) (b : VBody) : ClassRead.Statement (.fcos h b) :=
  ClassRead.of rfl (by decide) (congrArg (fun b => some (Instr.fcos h b)) (vBodyOf_packV b))
theorem Sys2Proof.Laws.ClassRead.fscs (h : Hdr) (b : VBody) : ClassRead.Statement (.fscs h b) :=
  ClassRead.of rfl (by decide) (congrArg (fun b => some (Instr.fscs h b)) (vBodyOf_packV b))
theorem Sys2Proof.Laws.ClassRead.ftanh (h : Hdr) (b : VBody) : ClassRead.Statement (.ftanh h b) :=
  ClassRead.of rfl (by decide) (congrArg (fun b => some (Instr.ftanh h b)) (vBodyOf_packV b))
theorem Sys2Proof.Laws.ClassRead.fsig (h : Hdr) (b : VBody) : ClassRead.Statement (.fsig h b) :=
  ClassRead.of rfl (by decide) (congrArg (fun b => some (Instr.fsig h b)) (vBodyOf_packV b))
theorem Sys2Proof.Laws.ClassRead.ferf (h : Hdr) (b : VBody) : ClassRead.Statement (.ferf h b) :=
  ClassRead.of rfl (by decide) (congrArg (fun b => some (Instr.ferf h b)) (vBodyOf_packV b))
theorem Sys2Proof.Laws.ClassRead.cvt (h : Hdr) (b : VBody) : ClassRead.Statement (.cvt h b) :=
  ClassRead.of rfl (by decide) (congrArg (fun b => some (Instr.cvt h b)) (vBodyOf_packV b))
theorem Sys2Proof.Laws.ClassRead.cvtq (h : Hdr) (b : VBody) : ClassRead.Statement (.cvtq h b) :=
  ClassRead.of rfl (by decide) (congrArg (fun b => some (Instr.cvtq h b)) (vBodyOf_packV b))
theorem Sys2Proof.Laws.ClassRead.cvtdq (h : Hdr) (b : VBody) : ClassRead.Statement (.cvtdq h b) :=
  ClassRead.of rfl (by decide) (congrArg (fun b => some (Instr.cvtdq h b)) (vBodyOf_packV b))
theorem Sys2Proof.Laws.ClassRead.cvsc (h : Hdr) (b : VBody) : ClassRead.Statement (.cvsc h b) :=
  ClassRead.of rfl (by decide) (congrArg (fun b => some (Instr.cvsc h b)) (vBodyOf_packV b))
theorem Sys2Proof.Laws.ClassRead.pack (h : Hdr) (b : VBody) : ClassRead.Statement (.pack h b) :=
  ClassRead.of rfl (by decide) (congrArg (fun b => some (Instr.pack h b)) (vBodyOf_packV b))
theorem Sys2Proof.Laws.ClassRead.unpack (h : Hdr) (b : VBody) : ClassRead.Statement (.unpack h b) :=
  ClassRead.of rfl (by decide) (congrArg (fun b => some (Instr.unpack h b)) (vBodyOf_packV b))
theorem Sys2Proof.Laws.ClassRead.ld (h : Hdr) (b : MBody) : ClassRead.Statement (.ld h b) :=
  ClassRead.of rfl (by decide) (congrArg (fun b => some (Instr.ld h b)) (mBodyOf_packM b))
theorem Sys2Proof.Laws.ClassRead.st (h : Hdr) (b : MBody) : ClassRead.Statement (.st h b) :=
  ClassRead.of rfl (by decide) (congrArg (fun b => some (Instr.st h b)) (mBodyOf_packM b))
theorem Sys2Proof.Laws.ClassRead.ldp (h : Hdr) (b : MBody) : ClassRead.Statement (.ldp h b) :=
  ClassRead.of rfl (by decide) (congrArg (fun b => some (Instr.ldp h b)) (mBodyOf_packM b))
theorem Sys2Proof.Laws.ClassRead.stp (h : Hdr) (b : MBody) : ClassRead.Statement (.stp h b) :=
  ClassRead.of rfl (by decide) (congrArg (fun b => some (Instr.stp h b)) (mBodyOf_packM b))
theorem Sys2Proof.Laws.ClassRead.ldc (h : Hdr) (b : MBody) : ClassRead.Statement (.ldc h b) :=
  ClassRead.of rfl (by decide) (congrArg (fun b => some (Instr.ldc h b)) (mBodyOf_packM b))
theorem Sys2Proof.Laws.ClassRead.lds (h : Hdr) (b : MBody) : ClassRead.Statement (.lds h b) :=
  ClassRead.of rfl (by decide) (congrArg (fun b => some (Instr.lds h b)) (mBodyOf_packM b))
theorem Sys2Proof.Laws.ClassRead.sts (h : Hdr) (b : MBody) : ClassRead.Statement (.sts h b) :=
  ClassRead.of rfl (by decide) (congrArg (fun b => some (Instr.sts h b)) (mBodyOf_packM b))
theorem Sys2Proof.Laws.ClassRead.ldl (h : Hdr) (b : MBody) : ClassRead.Statement (.ldl h b) :=
  ClassRead.of rfl (by decide) (congrArg (fun b => some (Instr.ldl h b)) (mBodyOf_packM b))
theorem Sys2Proof.Laws.ClassRead.stl (h : Hdr) (b : MBody) : ClassRead.Statement (.stl h b) :=
  ClassRead.of rfl (by decide) (congrArg (fun b => some (Instr.stl h b)) (mBodyOf_packM b))
theorem Sys2Proof.Laws.ClassRead.pf (h : Hdr) (b : MBody) : ClassRead.Statement (.pf h b) :=
  ClassRead.of rfl (by decide) (congrArg (fun b => some (Instr.pf h b)) (mBodyOf_packM b))
theorem Sys2Proof.Laws.ClassRead.wbr (h : Hdr) (b : MBody) : ClassRead.Statement (.wbr h b) :=
  ClassRead.of rfl (by decide) (congrArg (fun b => some (Instr.wbr h b)) (mBodyOf_packM b))
theorem Sys2Proof.Laws.ClassRead.invr (h : Hdr) (b : MBody) : ClassRead.Statement (.invr h b) :=
  ClassRead.of rfl (by decide) (congrArg (fun b => some (Instr.invr h b)) (mBodyOf_packM b))
theorem Sys2Proof.Laws.ClassRead.atom (h : Hdr) (b : MBody) : ClassRead.Statement (.atom h b) :=
  ClassRead.of rfl (by decide) (congrArg (fun b => some (Instr.atom h b)) (mBodyOf_packM b))
theorem Sys2Proof.Laws.ClassRead.ared (h : Hdr) (b : MBody) : ClassRead.Statement (.ared h b) :=
  ClassRead.of rfl (by decide) (congrArg (fun b => some (Instr.ared h b)) (mBodyOf_packM b))
theorem Sys2Proof.Laws.ClassRead.cas16 (h : Hdr) (b : MBody) : ClassRead.Statement (.cas16 h b) :=
  ClassRead.of rfl (by decide) (congrArg (fun b => some (Instr.cas16 h b)) (mBodyOf_packM b))
theorem Sys2Proof.Laws.ClassRead.txbeg (h : Hdr) (b : JBody) : ClassRead.Statement (.txbeg h b) :=
  ClassRead.of rfl (by decide) (congrArg (fun b => some (Instr.txbeg h b)) (jBodyOf_packJ b))
theorem Sys2Proof.Laws.ClassRead.txend (h : Hdr) (b : VBody) : ClassRead.Statement (.txend h b) :=
  ClassRead.of rfl (by decide) (congrArg (fun b => some (Instr.txend h b)) (vBodyOf_packV b))
theorem Sys2Proof.Laws.ClassRead.txabt (h : Hdr) (b : VBody) : ClassRead.Statement (.txabt h b) :=
  ClassRead.of rfl (by decide) (congrArg (fun b => some (Instr.txabt h b)) (vBodyOf_packV b))
theorem Sys2Proof.Laws.ClassRead.bcopy (h : Hdr) (b : VBody) : ClassRead.Statement (.bcopy h b) :=
  ClassRead.of rfl (by decide) (congrArg (fun b => some (Instr.bcopy h b)) (vBodyOf_packV b))
theorem Sys2Proof.Laws.ClassRead.bloop (h : Hdr) (b : VBody) : ClassRead.Statement (.bloop h b) :=
  ClassRead.of rfl (by decide) (congrArg (fun b => some (Instr.bloop h b)) (vBodyOf_packV b))
theorem Sys2Proof.Laws.ClassRead.brel (h : Hdr) (b : VBody) : ClassRead.Statement (.brel h b) :=
  ClassRead.of rfl (by decide) (congrArg (fun b => some (Instr.brel h b)) (vBodyOf_packV b))
theorem Sys2Proof.Laws.ClassRead.bmcast (h : Hdr) (b : VBody) : ClassRead.Statement (.bmcast h b) :=
  ClassRead.of rfl (by decide) (congrArg (fun b => some (Instr.bmcast h b)) (vBodyOf_packV b))
theorem Sys2Proof.Laws.ClassRead.kcoll (h : Hdr) (b : VBody) : ClassRead.Statement (.kcoll h b) :=
  ClassRead.of rfl (by decide) (congrArg (fun b => some (Instr.kcoll h b)) (vBodyOf_packV b))
theorem Sys2Proof.Laws.ClassRead.mseal (h : Hdr) (b : CBody) : ClassRead.Statement (.mseal h b) :=
  ClassRead.of rfl (by decide) (congrArg (fun b => some (Instr.mseal h b)) (cBodyOf_packC b))
theorem Sys2Proof.Laws.ClassRead.munseal (h : Hdr) (b : CBody) : ClassRead.Statement (.munseal h b) :=
  ClassRead.of rfl (by decide) (congrArg (fun b => some (Instr.munseal h b)) (cBodyOf_packC b))
theorem Sys2Proof.Laws.ClassRead.mmac (h : Hdr) (b : CBody) : ClassRead.Statement (.mmac h b) :=
  ClassRead.of rfl (by decide) (congrArg (fun b => some (Instr.mmac h b)) (cBodyOf_packC b))
theorem Sys2Proof.Laws.ClassRead.mstart (h : Hdr) (b : CBody) : ClassRead.Statement (.mstart h b) :=
  ClassRead.of rfl (by decide) (congrArg (fun b => some (Instr.mstart h b)) (cBodyOf_packC b))
theorem Sys2Proof.Laws.ClassRead.mzero (h : Hdr) (b : CBody) : ClassRead.Statement (.mzero h b) :=
  ClassRead.of rfl (by decide) (congrArg (fun b => some (Instr.mzero h b)) (cBodyOf_packC b))
theorem Sys2Proof.Laws.ClassRead.mget (h : Hdr) (b : CBody) : ClassRead.Statement (.mget h b) :=
  ClassRead.of rfl (by decide) (congrArg (fun b => some (Instr.mget h b)) (cBodyOf_packC b))
theorem Sys2Proof.Laws.ClassRead.mput (h : Hdr) (b : CBody) : ClassRead.Statement (.mput h b) :=
  ClassRead.of rfl (by decide) (congrArg (fun b => some (Instr.mput h b)) (cBodyOf_packC b))
theorem Sys2Proof.Laws.ClassRead.mbwait (h : Hdr) (b : CBody) : ClassRead.Statement (.mbwait h b) :=
  ClassRead.of rfl (by decide) (congrArg (fun b => some (Instr.mbwait h b)) (cBodyOf_packC b))
theorem Sys2Proof.Laws.ClassRead.mbarr (h : Hdr) (b : CBody) : ClassRead.Statement (.mbarr h b) :=
  ClassRead.of rfl (by decide) (congrArg (fun b => some (Instr.mbarr h b)) (cBodyOf_packC b))
theorem Sys2Proof.Laws.ClassRead.mbra (h : Hdr) (b : JBody) : ClassRead.Statement (.mbra h b) :=
  ClassRead.of rfl (by decide) (congrArg (fun b => some (Instr.mbra h b)) (jBodyOf_packJ b))
theorem Sys2Proof.Laws.ClassRead.mloop (h : Hdr) (b : JBody) : ClassRead.Statement (.mloop h b) :=
  ClassRead.of rfl (by decide) (congrArg (fun b => some (Instr.mloop h b)) (jBodyOf_packJ b))
theorem Sys2Proof.Laws.ClassRead.mset (h : Hdr) (b : IBody) : ClassRead.Statement (.mset h b) :=
  ClassRead.of rfl (by decide) (congrArg (fun b => some (Instr.mset h b)) (iBodyOf_packI b))
theorem Sys2Proof.Laws.ClassRead.mpoint (h : Hdr) (b : CBody) : ClassRead.Statement (.mpoint h b) :=
  ClassRead.of rfl (by decide) (congrArg (fun b => some (Instr.mpoint h b)) (cBodyOf_packC b))
theorem Sys2Proof.Laws.ClassRead.mend (h : Hdr) (b : CBody) : ClassRead.Statement (.mend h b) :=
  ClassRead.of rfl (by decide) (congrArg (fun b => some (Instr.mend h b)) (cBodyOf_packC b))
theorem Sys2Proof.Laws.ClassRead.mfence (h : Hdr) (b : CBody) : ClassRead.Statement (.mfence h b) :=
  ClassRead.of rfl (by decide) (congrArg (fun b => some (Instr.mfence h b)) (cBodyOf_packC b))
theorem Sys2Proof.Laws.ClassRead.gred (h : Hdr) (b : MBody) : ClassRead.Statement (.gred h b) :=
  ClassRead.of rfl (by decide) (congrArg (fun b => some (Instr.gred h b)) (mBodyOf_packM b))
theorem Sys2Proof.Laws.ClassRead.nred (h : Hdr) (b : VBody) : ClassRead.Statement (.nred h b) :=
  ClassRead.of rfl (by decide) (congrArg (fun b => some (Instr.nred h b)) (vBodyOf_packV b))
theorem Sys2Proof.Laws.ClassRead.nlaunch (h : Hdr) (b : VBody) : ClassRead.Statement (.nlaunch h b) :=
  ClassRead.of rfl (by decide) (congrArg (fun b => some (Instr.nlaunch h b)) (vBodyOf_packV b))
theorem Sys2Proof.Laws.ClassRead.nstat (h : Hdr) (b : VBody) : ClassRead.Statement (.nstat h b) :=
  ClassRead.of rfl (by decide) (congrArg (fun b => some (Instr.nstat h b)) (vBodyOf_packV b))
theorem Sys2Proof.Laws.ClassRead.nkill (h : Hdr) (b : VBody) : ClassRead.Statement (.nkill h b) :=
  ClassRead.of rfl (by decide) (congrArg (fun b => some (Instr.nkill h b)) (vBodyOf_packV b))
theorem Sys2Proof.Laws.ClassRead.srd (h : Hdr) (b : SBody) : ClassRead.Statement (.srd h b) :=
  ClassRead.of rfl (by decide) (congrArg (fun b => some (Instr.srd h b)) (sBodyOf_packS b))
theorem Sys2Proof.Laws.ClassRead.swr (h : Hdr) (b : SBody) : ClassRead.Statement (.swr h b) :=
  ClassRead.of rfl (by decide) (congrArg (fun b => some (Instr.swr h b)) (sBodyOf_packS b))
theorem Sys2Proof.Laws.ClassRead.sysc (h : Hdr) (b : SBody) : ClassRead.Statement (.sysc h b) :=
  ClassRead.of rfl (by decide) (congrArg (fun b => some (Instr.sysc h b)) (sBodyOf_packS b))
theorem Sys2Proof.Laws.ClassRead.aopen (a : BitVec 4) (b : BitVec 4) : ClassRead.Statement (.aopen a b) := ClassRead.no rfl
theorem Sys2Proof.Laws.ClassRead.acol (a : BitVec 4) (b : BitVec 4) (imm : BitVec 15) : ClassRead.Statement (.acol a b imm) := ClassRead.no rfl
theorem Sys2Proof.Laws.ClassRead.awr : ClassRead.Statement .awr := ClassRead.no rfl
theorem Sys2Proof.Laws.ClassRead.anext : ClassRead.Statement .anext := ClassRead.no rfl
theorem Sys2Proof.Laws.ClassRead.aset (d : BitVec 4) (a : BitVec 4) (imm : BitVec 15) : ClassRead.Statement (.aset d a imm) := ClassRead.no rfl
theorem Sys2Proof.Laws.ClassRead.aadd (d : BitVec 4) (a : BitVec 4) (b : BitVec 4) (imm : BitVec 15) : ClassRead.Statement (.aadd d a b imm) := ClassRead.no rfl
theorem Sys2Proof.Laws.ClassRead.aloop (d : BitVec 4) (imm : BitVec 15) : ClassRead.Statement (.aloop d imm) := ClassRead.no rfl
theorem Sys2Proof.Laws.ClassRead.abr (d : BitVec 4) (a : BitVec 4) (b : BitVec 4) (imm : BitVec 15) : ClassRead.Statement (.abr d a b imm) := ClassRead.no rfl
theorem Sys2Proof.Laws.ClassRead.awq (d : BitVec 4) : ClassRead.Statement (.awq d) := ClassRead.no rfl
theorem Sys2Proof.Laws.ClassRead.aend : ClassRead.Statement .aend := ClassRead.no rfl
theorem Sys2Proof.Laws.ClassRead.xpop (d : BitVec 4) : ClassRead.Statement (.xpop d) := ClassRead.no rfl
theorem Sys2Proof.Laws.ClassRead.xpush (a : BitVec 4) (b : BitVec 4) : ClassRead.Statement (.xpush a b) := ClassRead.no rfl
theorem Sys2Proof.Laws.ClassRead.xadd (d : BitVec 4) (a : BitVec 4) (b : BitVec 4) : ClassRead.Statement (.xadd d a b) := ClassRead.no rfl
theorem Sys2Proof.Laws.ClassRead.xmul (d : BitVec 4) (a : BitVec 4) (b : BitVec 4) : ClassRead.Statement (.xmul d a b) := ClassRead.no rfl
theorem Sys2Proof.Laws.ClassRead.xfma (d : BitVec 4) (a : BitVec 4) (b : BitVec 4) : ClassRead.Statement (.xfma d a b) := ClassRead.no rfl
theorem Sys2Proof.Laws.ClassRead.xmax (d : BitVec 4) (a : BitVec 4) (b : BitVec 4) : ClassRead.Statement (.xmax d a b) := ClassRead.no rfl
theorem Sys2Proof.Laws.ClassRead.xscale (d : BitVec 4) (a : BitVec 4) (b : BitVec 4) : ClassRead.Statement (.xscale d a b) := ClassRead.no rfl
theorem Sys2Proof.Laws.ClassRead.xcvt (d : BitVec 4) (a : BitVec 4) (imm : BitVec 15) : ClassRead.Statement (.xcvt d a imm) := ClassRead.no rfl
theorem Sys2Proof.Laws.ClassRead.xset (d : BitVec 4) (a : BitVec 4) (imm : BitVec 15) : ClassRead.Statement (.xset d a imm) := ClassRead.no rfl
theorem Sys2Proof.Laws.ClassRead.xsetAdd (d : BitVec 4) (a : BitVec 4) (imm : BitVec 15) : ClassRead.Statement (.xsetAdd d a imm) := ClassRead.no rfl
theorem Sys2Proof.Laws.ClassRead.xsetB (d : BitVec 4) (a : BitVec 4) : ClassRead.Statement (.xsetB d a) := ClassRead.no rfl
theorem Sys2Proof.Laws.ClassRead.xloop (d : BitVec 4) (imm : BitVec 15) : ClassRead.Statement (.xloop d imm) := ClassRead.no rfl
theorem Sys2Proof.Laws.ClassRead.xbr (d : BitVec 4) (a : BitVec 4) (b : BitVec 4) (imm : BitVec 15) : ClassRead.Statement (.xbr d a b imm) := ClassRead.no rfl
theorem Sys2Proof.Laws.ClassRead.xend : ClassRead.Statement .xend := ClassRead.no rfl
theorem Sys2Proof.Laws.ClassRead.pcreate (fn : Nat) : ClassRead.Statement (.pcreate fn) := ClassRead.no rfl
theorem Sys2Proof.Laws.ClassRead.presize (fn : Nat) : ClassRead.Statement (.presize fn) := ClassRead.no rfl
theorem Sys2Proof.Laws.ClassRead.pdestroy (fn : Nat) : ClassRead.Statement (.pdestroy fn) := ClassRead.no rfl
theorem Sys2Proof.Laws.ClassRead.logset (fn : Nat) : ClassRead.Statement (.logset fn) := ClassRead.no rfl
theorem Sys2Proof.Laws.ClassRead.setrate (fn : Nat) : ClassRead.Statement (.setrate fn) := ClassRead.no rfl
theorem Sys2Proof.Laws.ClassRead.setframe (fn : Nat) : ClassRead.Statement (.setframe fn) := ClassRead.no rfl
theorem Sys2Proof.Laws.ClassRead.elide (fn : Nat) : ClassRead.Statement (.elide fn) := ClassRead.no rfl
theorem Sys2Proof.Laws.ClassRead.fuseRaiseSvn (fn : Nat) : ClassRead.Statement (.fuseRaiseSvn fn) := ClassRead.no rfl
theorem Sys2Proof.Laws.ClassRead.fuseSetTestmode (fn : Nat) : ClassRead.Statement (.fuseSetTestmode fn) := ClassRead.no rfl
theorem Sys2Proof.Laws.ClassRead.fuseRetireResource (fn : Nat) : ClassRead.Statement (.fuseRetireResource fn) := ClassRead.no rfl
theorem Sys2Proof.Laws.ClassRead.ctxcreate (fn : Nat) : ClassRead.Statement (.ctxcreate fn) := ClassRead.no rfl
theorem Sys2Proof.Laws.ClassRead.ctxreset (fn : Nat) : ClassRead.Statement (.ctxreset fn) := ClassRead.no rfl
theorem Sys2Proof.Laws.ClassRead.qcreate (fn : Nat) : ClassRead.Statement (.qcreate fn) := ClassRead.no rfl
theorem Sys2Proof.Laws.ClassRead.preempt (fn : Nat) : ClassRead.Statement (.preempt fn) := ClassRead.no rfl
theorem Sys2Proof.Laws.ClassRead.resume (fn : Nat) : ClassRead.Statement (.resume fn) := ClassRead.no rfl
theorem Sys2Proof.Laws.ClassRead.reply (fn : Nat) : ClassRead.Statement (.reply fn) := ClassRead.no rfl
theorem Sys2Proof.Laws.ClassRead.tlbinv (fn : Nat) : ClassRead.Statement (.tlbinv fn) := ClassRead.no rfl
theorem Sys2Proof.Laws.ClassRead.icinv (fn : Nat) : ClassRead.Statement (.icinv fn) := ClassRead.no rfl
theorem Sys2Proof.Laws.ClassRead.flip (fn : Nat) : ClassRead.Statement (.flip fn) := ClassRead.no rfl
theorem Sys2Proof.Laws.ClassRead.claim (fn : Nat) : ClassRead.Statement (.claim fn) := ClassRead.no rfl
theorem Sys2Proof.Laws.ClassRead.unclaim (fn : Nat) : ClassRead.Statement (.unclaim fn) := ClassRead.no rfl
theorem Sys2Proof.Laws.ClassRead.keyload (fn : Nat) : ClassRead.Statement (.keyload fn) := ClassRead.no rfl
theorem Sys2Proof.Laws.ClassRead.attest (fn : Nat) : ClassRead.Statement (.attest fn) := ClassRead.no rfl
theorem Sys2Proof.Laws.ClassRead.boot (fn : Nat) : ClassRead.Statement (.boot fn) := ClassRead.no rfl
theorem Sys2Proof.Laws.ClassRead.launchDoorbell (vf queue : Nat) (tail : Word) : ClassRead.Statement (.launchDoorbell vf queue tail) := ClassRead.no rfl
theorem Sys2Proof.Laws.ClassRead.dumpNow (fn unit : Nat) : ClassRead.Statement (.dumpNow fn unit) := ClassRead.no rfl
theorem Sys2Proof.Laws.ClassRead.countStopArm (fn unit : Nat) : ClassRead.Statement (.countStopArm fn unit) := ClassRead.no rfl
theorem Sys2Proof.Laws.ClassRead.traceRcountWrite (fn unit : Nat) (value : DWord) : ClassRead.Statement (.traceRcountWrite fn unit value) := ClassRead.no rfl
theorem Sys2Proof.Laws.ClassRead.registerWrite (fn : Nat) (reg : HostReg) (value : DWord) : ClassRead.Statement (.registerWrite fn reg value) := ClassRead.no rfl
theorem Sys2Proof.Laws.ClassRead.deviceReset : ClassRead.Statement .deviceReset := ClassRead.no rfl
theorem Sys2Proof.Laws.ClassRead.supplyRemoved : ClassRead.Statement .supplyRemoved := ClassRead.no rfl
theorem Sys2Proof.Laws.ClassRead.hotReset : ClassRead.Statement .hotReset := ClassRead.no rfl
theorem Sys2Proof.Laws.ClassRead.functionLevelReset (vf : Nat) : ClassRead.Statement (.functionLevelReset vf) := ClassRead.no rfl
theorem Sys2Proof.Laws.ClassRead.linkTraining (link width rate : Nat) : ClassRead.Statement (.linkTraining link width rate) := ClassRead.no rfl
theorem Sys2Proof.Laws.ClassRead.hostCxlMemAccess (access : HostAccess) : ClassRead.Statement (.hostCxlMemAccess access) := ClassRead.no rfl
theorem Sys2Proof.Laws.ClassRead.backInvalidateReissue (line : Nat) : ClassRead.Statement (.backInvalidateReissue line) := ClassRead.no rfl
theorem Sys2Proof.Laws.ClassRead.throttle (island mhz : Nat) : ClassRead.Statement (.throttle island mhz) := ClassRead.no rfl
theorem Sys2Proof.Laws.ClassRead.vclockTick : ClassRead.Statement .vclockTick := ClassRead.no rfl
theorem Sys2Proof.Laws.ClassRead.mgmtHeartbeat : ClassRead.Statement .mgmtHeartbeat := ClassRead.no rfl
theorem Sys2Proof.Laws.ClassRead.takeover : ClassRead.Statement .takeover := ClassRead.no rfl
theorem Sys2Proof.Laws.ClassRead.patrolScrub (row : Nat) : ClassRead.Statement (.patrolScrub row) := ClassRead.no rfl
theorem Sys2Proof.Laws.ClassRead.zeroFill (row : Nat) : ClassRead.Statement (.zeroFill row) := ClassRead.no rfl
theorem Sys2Proof.Laws.ClassRead.launchAccept (vf : Nat) : ClassRead.Statement (.launchAccept vf) := ClassRead.no rfl
theorem Sys2Proof.Laws.ClassRead.dependencyReread (grid : Nat) : ClassRead.Statement (.dependencyReread grid) := ClassRead.no rfl
theorem Sys2Proof.Laws.ClassRead.priorityPromotion (grid : Nat) : ClassRead.Statement (.priorityPromotion grid) := ClassRead.no rfl
theorem Sys2Proof.Laws.ClassRead.packageRangeHandout (vf : Nat) : ClassRead.Statement (.packageRangeHandout vf) := ClassRead.no rfl
theorem Sys2Proof.Laws.ClassRead.dieRangeHandout (die vf : Nat) : ClassRead.Statement (.dieRangeHandout die vf) := ClassRead.no rfl
theorem Sys2Proof.Laws.ClassRead.hiveSteal (hive vf : Nat) : ClassRead.Statement (.hiveSteal hive vf) := ClassRead.no rfl
theorem Sys2Proof.Laws.ClassRead.dieSteal (die vf : Nat) : ClassRead.Statement (.dieSteal die vf) := ClassRead.no rfl
theorem Sys2Proof.Laws.ClassRead.teamPlace (hive : Nat) : ClassRead.Statement (.teamPlace hive) := ClassRead.no rfl
theorem Sys2Proof.Laws.ClassRead.fitWaitExpiry (hive : Nat) : ClassRead.Statement (.fitWaitExpiry hive) := ClassRead.no rfl
theorem Sys2Proof.Laws.ClassRead.teamRetire (core team : Nat) : ClassRead.Statement (.teamRetire core team) := ClassRead.no rfl
theorem Sys2Proof.Laws.ClassRead.gridRetire (grid : Nat) : ClassRead.Statement (.gridRetire grid) := ClassRead.no rfl
theorem Sys2Proof.Laws.ClassRead.instructionFetch (who : FetchUnit) : ClassRead.Statement (.instructionFetch who) := ClassRead.no rfl
theorem Sys2Proof.Laws.ClassRead.fetchParityRefetch (who : FetchUnit) : ClassRead.Statement (.fetchParityRefetch who) := ClassRead.no rfl
theorem Sys2Proof.Laws.ClassRead.yieldExpiry (core slot entry : Nat) : ClassRead.Statement (.yieldExpiry core slot entry) := ClassRead.no rfl
theorem Sys2Proof.Laws.ClassRead.sample (core sched : Nat) : ClassRead.Statement (.sample core sched) := ClassRead.no rfl
theorem Sys2Proof.Laws.ClassRead.storeSend (id : Nat) : ClassRead.Statement (.storeSend id) := ClassRead.no rfl
theorem Sys2Proof.Laws.ClassRead.homeStore (id copy : Nat) : ClassRead.Statement (.homeStore id copy) := ClassRead.no rfl
theorem Sys2Proof.Laws.ClassRead.storeAck (id : Nat) : ClassRead.Statement (.storeAck id) := ClassRead.no rfl
theorem Sys2Proof.Laws.ClassRead.loadReply (id : Nat) (evict : List Nat) : ClassRead.Statement (.loadReply id evict) := ClassRead.no rfl
theorem Sys2Proof.Laws.ClassRead.sfuWriteback (id : Nat) : ClassRead.Statement (.sfuWriteback id) := ClassRead.no rfl
theorem Sys2Proof.Laws.ClassRead.tlbWalk (core ctx : Nat) (va : DWord) : ClassRead.Statement (.tlbWalk core ctx va) := ClassRead.no rfl
theorem Sys2Proof.Laws.ClassRead.dramActivate (stack ch slice bank : Nat) : ClassRead.Statement (.dramActivate stack ch slice bank) := ClassRead.no rfl
theorem Sys2Proof.Laws.ClassRead.dramPrecharge (stack ch slice bank : Nat) : ClassRead.Statement (.dramPrecharge stack ch slice bank) := ClassRead.no rfl
theorem Sys2Proof.Laws.ClassRead.burst (stack ch : Nat) (retry : Nat) : ClassRead.Statement (.burst stack ch retry) := ClassRead.no rfl
theorem Sys2Proof.Laws.ClassRead.l2Writeback (frame : Nat) : ClassRead.Statement (.l2Writeback frame) := ClassRead.no rfl
theorem Sys2Proof.Laws.ClassRead.syncEvict (word : Nat) : ClassRead.Statement (.syncEvict word) := ClassRead.no rfl
theorem Sys2Proof.Laws.ClassRead.atomicExecute (id : Nat) : ClassRead.Statement (.atomicExecute id) := ClassRead.no rfl
theorem Sys2Proof.Laws.ClassRead.atomicReply (id : Nat) : ClassRead.Statement (.atomicReply id) := ClassRead.no rfl
theorem Sys2Proof.Laws.ClassRead.txValidate (core slot thread : Nat) : ClassRead.Statement (.txValidate core slot thread) := ClassRead.no rfl
theorem Sys2Proof.Laws.ClassRead.soloGrant (vf : Nat) : ClassRead.Statement (.soloGrant vf) := ClassRead.no rfl
theorem Sys2Proof.Laws.ClassRead.soloTimeout (vf : Nat) : ClassRead.Statement (.soloTimeout vf) := ClassRead.no rfl
theorem Sys2Proof.Laws.ClassRead.cwaitReread (core slot entry : Nat) : ClassRead.Statement (.cwaitReread core slot entry) := ClassRead.no rfl
theorem Sys2Proof.Laws.ClassRead.syscReply (id : Nat) (value : DWord) : ClassRead.Statement (.syscReply id value) := ClassRead.no rfl
theorem Sys2Proof.Laws.ClassRead.barrierTimeout (core team bar : Nat) : ClassRead.Statement (.barrierTimeout core team bar) := ClassRead.no rfl
theorem Sys2Proof.Laws.ClassRead.copyAccept (hive ch : Nat) : ClassRead.Statement (.copyAccept hive ch) := ClassRead.no rfl
theorem Sys2Proof.Laws.ClassRead.copyPart (hive ch : Nat) : ClassRead.Statement (.copyPart hive ch) := ClassRead.no rfl
theorem Sys2Proof.Laws.ClassRead.copyComplete (hive ch : Nat) : ClassRead.Statement (.copyComplete hive ch) := ClassRead.no rfl
theorem Sys2Proof.Laws.ClassRead.bloopIteration (hive ch : Nat) : ClassRead.Statement (.bloopIteration hive ch) := ClassRead.no rfl
theorem Sys2Proof.Laws.ClassRead.mcastDelivery (hive ch index : Nat) : ClassRead.Statement (.mcastDelivery hive ch index) := ClassRead.no rfl
theorem Sys2Proof.Laws.ClassRead.kcollSequence (die : Nat) : ClassRead.Statement (.kcollSequence die) := ClassRead.no rfl
theorem Sys2Proof.Laws.ClassRead.gredReply (id : Nat) : ClassRead.Statement (.gredReply id) := ClassRead.no rfl
theorem Sys2Proof.Laws.ClassRead.nredAccept (stack : Nat) : ClassRead.Statement (.nredAccept stack) := ClassRead.no rfl
theorem Sys2Proof.Laws.ClassRead.nredBag (stack : Nat) : ClassRead.Statement (.nredBag stack) := ClassRead.no rfl
theorem Sys2Proof.Laws.ClassRead.nredComplete (stack : Nat) : ClassRead.Statement (.nredComplete stack) := ClassRead.no rfl
theorem Sys2Proof.Laws.ClassRead.stoveLaunch (stack : Nat) : ClassRead.Statement (.stoveLaunch stack) := ClassRead.no rfl
theorem Sys2Proof.Laws.ClassRead.stoveEnd (stack ch : Nat) : ClassRead.Statement (.stoveEnd stack ch) := ClassRead.no rfl
theorem Sys2Proof.Laws.ClassRead.nstatService (stack : Nat) : ClassRead.Statement (.nstatService stack) := ClassRead.no rfl
theorem Sys2Proof.Laws.ClassRead.nkillService (stack : Nat) : ClassRead.Statement (.nkillService stack) := ClassRead.no rfl
theorem Sys2Proof.Laws.ClassRead.frameStart (stack : Nat) : ClassRead.Statement (.frameStart stack) := ClassRead.no rfl
theorem Sys2Proof.Laws.ClassRead.ordinaryIntervalStart (stack : Nat) : ClassRead.Statement (.ordinaryIntervalStart stack) := ClassRead.no rfl
theorem Sys2Proof.Laws.ClassRead.stoveDeadline (stack ch : Nat) : ClassRead.Statement (.stoveDeadline stack ch) := ClassRead.no rfl
theorem Sys2Proof.Laws.ClassRead.sealComplete (hive region : Nat) : ClassRead.Statement (.sealComplete hive region) := ClassRead.no rfl
theorem Sys2Proof.Laws.ClassRead.slabReadDone (id : Nat) : ClassRead.Statement (.slabReadDone id) := ClassRead.no rfl
theorem Sys2Proof.Laws.ClassRead.passGrant (hive cell : Nat) : ClassRead.Statement (.passGrant hive cell) := ClassRead.no rfl
theorem Sys2Proof.Laws.ClassRead.passComplete (id : Nat) : ClassRead.Statement (.passComplete id) := ClassRead.no rfl
theorem Sys2Proof.Laws.ClassRead.mgetWriteback (id : Nat) : ClassRead.Statement (.mgetWriteback id) := ClassRead.no rfl
theorem Sys2Proof.Laws.ClassRead.mputDone (id : Nat) : ClassRead.Statement (.mputDone id) := ClassRead.no rfl
theorem Sys2Proof.Laws.ClassRead.mzeroDone (id : Nat) : ClassRead.Statement (.mzeroDone id) := ClassRead.no rfl
theorem Sys2Proof.Laws.ClassRead.accForeignSpill (core tile : Nat) : ClassRead.Statement (.accForeignSpill core tile) := ClassRead.no rfl
theorem Sys2Proof.Laws.ClassRead.contextSave (ctx : Nat) : ClassRead.Statement (.contextSave ctx) := ClassRead.no rfl
theorem Sys2Proof.Laws.ClassRead.teamRestore (ctx index : Nat) : ClassRead.Statement (.teamRestore ctx index) := ClassRead.no rfl
theorem Sys2Proof.Laws.ClassRead.quantumBoundary (vf : Nat) : ClassRead.Statement (.quantumBoundary vf) := ClassRead.no rfl
theorem Sys2Proof.Laws.ClassRead.countStop (unit : Nat) : ClassRead.Statement (.countStop unit) := ClassRead.no rfl
theorem Sys2Proof.Laws.ClassRead.i3cTemperatureReport : ClassRead.Statement .i3cTemperatureReport := ClassRead.no rfl
theorem Sys2Proof.Laws.ClassRead.retiredByFault (kind index : Nat) : ClassRead.Statement (.retiredByFault kind index) := ClassRead.no rfl
theorem Sys2Proof.Laws.ClassRead.teamNotScreened (core team : Nat) : ClassRead.Statement (.teamNotScreened core team) := ClassRead.no rfl
end

