-- ==== Sys2Proof/Laws/State.lean ====
section
/-! SUPPORT. Reading a field or a part of the state after one update: every field that the update does not name is as it was. -/

namespace Sys2Proof.Machine

/-! ## Parts after a change of that part -/

@[simp] theorem State.setWarp_warp? (s : State) (c k : Nat) (w : Warp) (a b : Nat) :
    (s.setWarp c k w).warp? a b = if warpIx a b = warpIx c k then some w else s.warp? a b := Tab.find?_put _ _ _ _
@[simp] theorem State.modWarp_warp? (s : State) (c k : Nat) (f : Warp → Warp) (a b : Nat) :
    (s.modWarp c k f).warp? a b = if warpIx a b = warpIx c k then (s.warp? a b).map f else s.warp? a b := Tab.find?_modify _ _ _ _
@[simp] theorem State.modTeam_team? (s : State) (i : Nat) (f : Team → Team) (a : Nat) :
    (s.modTeam i f).team? a = if a = i then (s.team? a).map f else s.team? a := Tab.find?_modify _ _ _ _
@[simp] theorem State.modGrid_grid? (s : State) (i : Nat) (f : Grid → Grid) (a : Nat) :
    (s.modGrid i f).grid? a = if a = i then (s.grid? a).map f else s.grid? a := Tab.find?_modify _ _ _ _
@[simp] theorem State.modCtx_ctx? (s : State) (i : Nat) (f : Context → Context) (a : Nat) :
    (s.modCtx i f).ctx? a = if a = i then (s.ctx? a).map f else s.ctx? a := Tab.find?_modify _ _ _ _
@[simp] theorem State.modPart_part? (s : State) (i : Nat) (f : Partition → Partition) (a : Nat) :
    (s.modPart i f).part? a = if a = i then (s.part? a).map f else s.part? a := Tab.find?_modify _ _ _ _
theorem State.setCore_core_ne (s : State) {c a : Nat} (x : Core) (h : a ≠ c) : (s.setCore c x).core a = s.core a := Tab.get_set_ne _ _ _ h
theorem State.modCore_core_ne (s : State) {c a : Nat} (f : Core → Core) (h : a ≠ c) : (s.modCore c f).core a = s.core a := Tab.get_set_ne _ _ _ h
theorem State.setHive_hive_ne (s : State) {c a : Nat} (x : Hive) (h : a ≠ c) : (s.setHive c x).hive a = s.hive a := Tab.get_set_ne _ _ _ h
theorem State.modHive_hive_ne (s : State) {c a : Nat} (f : Hive → Hive) (h : a ≠ c) : (s.modHive c f).hive a = s.hive a := Tab.get_set_ne _ _ _ h
theorem State.modHearth_hearth_ne (s : State) {c a : Nat} (f : Hearth → Hearth) (h : a ≠ c) : (s.modHearth c f).hearth a = s.hearth a :=
  Tab.get_set_ne _ _ _ h
theorem State.setStove_stove_ne (s : State) {c a : Nat} (x : Stove) (h : a ≠ c) : (s.setStove c x).stove a = s.stove a := Tab.get_set_ne _ _ _ h

theorem State.warp?_ix {a b c k : Nat} (hb : b < 32) (hk : k < 32) : warpIx a b = warpIx c k ↔ a = c ∧ b = k := by
  unfold warpIx; omega

/-! ## After `setCore` -/

@[simp] theorem State.setCore_agenda (s : State) (c : Nat) (x : Core) : (s.setCore c x).agenda = s.agenda := rfl
@[simp] theorem State.setCore_cur (s : State) (c : Nat) (x : Core) : (s.setCore c x).cur = s.cur := rfl
@[simp] theorem State.setCore_freeCtr (s : State) (c : Nat) (x : Core) : (s.setCore c x).freeCtr = s.freeCtr := rfl
@[simp] theorem State.setCore_nextId (s : State) (c : Nat) (x : Core) : (s.setCore c x).nextId = s.nextId := rfl
@[simp] theorem State.setCore_powered (s : State) (c : Nat) (x : Core) : (s.setCore c x).powered = s.powered := rfl
@[simp] theorem State.setCore_bootStep (s : State) (c : Nat) (x : Core) : (s.setCore c x).bootStep = s.bootStep := rfl
@[simp] theorem State.setCore_boots (s : State) (c : Nat) (x : Core) : (s.setCore c x).boots = s.boots := rfl
@[simp] theorem State.setCore_measure (s : State) (c : Nat) (x : Core) : (s.setCore c x).measure = s.measure := rfl
@[simp] theorem State.setCore_bootWindow (s : State) (c : Nat) (x : Core) : (s.setCore c x).bootWindow = s.bootWindow := rfl
@[simp] theorem State.setCore_fuses (s : State) (c : Nat) (x : Core) : (s.setCore c x).fuses = s.fuses := rfl
@[simp] theorem State.setCore_vclock (s : State) (c : Nat) (x : Core) : (s.setCore c x).vclock = s.vclock := rfl
@[simp] theorem State.setCore_dclk (s : State) (c : Nat) (x : Core) : (s.setCore c x).dclk = s.dclk := rfl
@[simp] theorem State.setCore_mem (s : State) (c : Nat) (x : Core) : (s.setCore c x).mem = s.mem := rfl
@[simp] theorem State.setCore_synd (s : State) (c : Nat) (x : Core) : (s.setCore c x).synd = s.synd := rfl
@[simp] theorem State.setCore_poisoned (s : State) (c : Nat) (x : Core) : (s.setCore c x).poisoned = s.poisoned := rfl
@[simp] theorem State.setCore_homeClk (s : State) (c : Nat) (x : Core) : (s.setCore c x).homeClk = s.homeClk := rfl
@[simp] theorem State.setCore_rel (s : State) (c : Nat) (x : Core) : (s.setCore c x).rel = s.rel := rfl
@[simp] theorem State.setCore_rowTime (s : State) (c : Nat) (x : Core) : (s.setCore c x).rowTime = s.rowTime := rfl
@[simp] theorem State.setCore_perms (s : State) (c : Nat) (x : Core) : (s.setCore c x).perms = s.perms := rfl
@[simp] theorem State.setCore_hostBias (s : State) (c : Nat) (x : Core) : (s.setCore c x).hostBias = s.hostBias := rfl
@[simp] theorem State.setCore_elision (s : State) (c : Nat) (x : Core) : (s.setCore c x).elision = s.elision := rfl
@[simp] theorem State.setCore_unfilled (s : State) (c : Nat) (x : Core) : (s.setCore c x).unfilled = s.unfilled := rfl
@[simp] theorem State.setCore_openRows (s : State) (c : Nat) (x : Core) : (s.setCore c x).openRows = s.openRows := rfl
@[simp] theorem State.setCore_prechargeAt (s : State) (c : Nat) (x : Core) : (s.setCore c x).prechargeAt = s.prechargeAt := rfl
@[simp] theorem State.setCore_wordQ (s : State) (c : Nat) (x : Core) : (s.setCore c x).wordQ = s.wordQ := rfl
@[simp] theorem State.setCore_burstAt (s : State) (c : Nat) (x : Core) : (s.setCore c x).burstAt = s.burstAt := rfl
@[simp] theorem State.setCore_burstRun (s : State) (c : Nat) (x : Core) : (s.setCore c x).burstRun = s.burstRun := rfl
@[simp] theorem State.setCore_l2 (s : State) (c : Nat) (x : Core) : (s.setCore c x).l2 = s.l2 := rfl
@[simp] theorem State.setCore_l2marks (s : State) (c : Nat) (x : Core) : (s.setCore c x).l2marks = s.l2marks := rfl
@[simp] theorem State.setCore_sync (s : State) (c : Nat) (x : Core) : (s.setCore c x).sync = s.sync := rfl
@[simp] theorem State.setCore_overflow (s : State) (c : Nat) (x : Core) : (s.setCore c x).overflow = s.overflow := rfl
@[simp] theorem State.setCore_hostMem (s : State) (c : Nat) (x : Core) : (s.setCore c x).hostMem = s.hostMem := rfl
@[simp] theorem State.setCore_hostInFlight (s : State) (c : Nat) (x : Core) : (s.setCore c x).hostInFlight = s.hostInFlight := rfl
@[simp] theorem State.setCore_hostDeny (s : State) (c : Nat) (x : Core) : (s.setCore c x).hostDeny = s.hostDeny := rfl
@[simp] theorem State.setCore_flips (s : State) (c : Nat) (x : Core) : (s.setCore c x).flips = s.flips := rfl
@[simp] theorem State.setCore_hives (s : State) (c : Nat) (x : Core) : (s.setCore c x).hives = s.hives := rfl
@[simp] theorem State.setCore_warps (s : State) (c : Nat) (x : Core) : (s.setCore c x).warps = s.warps := rfl
@[simp] theorem State.setCore_teams (s : State) (c : Nat) (x : Core) : (s.setCore c x).teams = s.teams := rfl
@[simp] theorem State.setCore_l2tlb (s : State) (c : Nat) (x : Core) : (s.setCore c x).l2tlb = s.l2tlb := rfl
@[simp] theorem State.setCore_walkCache (s : State) (c : Nat) (x : Core) : (s.setCore c x).walkCache = s.walkCache := rfl
@[simp] theorem State.setCore_stalls (s : State) (c : Nat) (x : Core) : (s.setCore c x).stalls = s.stalls := rfl
@[simp] theorem State.setCore_heldReq (s : State) (c : Nat) (x : Core) : (s.setCore c x).heldReq = s.heldReq := rfl
@[simp] theorem State.setCore_spillQ (s : State) (c : Nat) (x : Core) : (s.setCore c x).spillQ = s.spillQ := rfl
@[simp] theorem State.setCore_engineQ (s : State) (c : Nat) (x : Core) : (s.setCore c x).engineQ = s.engineQ := rfl
@[simp] theorem State.setCore_loads (s : State) (c : Nat) (x : Core) : (s.setCore c x).loads = s.loads := rfl
@[simp] theorem State.setCore_stores (s : State) (c : Nat) (x : Core) : (s.setCore c x).stores = s.stores := rfl
@[simp] theorem State.setCore_atomics (s : State) (c : Nat) (x : Core) : (s.setCore c x).atomics = s.atomics := rfl
@[simp] theorem State.setCore_orphans (s : State) (c : Nat) (x : Core) : (s.setCore c x).orphans = s.orphans := rfl
@[simp] theorem State.setCore_screens (s : State) (c : Nat) (x : Core) : (s.setCore c x).screens = s.screens := rfl
@[simp] theorem State.setCore_pend (s : State) (c : Nat) (x : Core) : (s.setCore c x).pend = s.pend := rfl
@[simp] theorem State.setCore_slabs (s : State) (c : Nat) (x : Core) : (s.setCore c x).slabs = s.slabs := rfl
@[simp] theorem State.setCore_posted (s : State) (c : Nat) (x : Core) : (s.setCore c x).posted = s.posted := rfl
@[simp] theorem State.setCore_gathers (s : State) (c : Nat) (x : Core) : (s.setCore c x).gathers = s.gathers := rfl
@[simp] theorem State.setCore_coll (s : State) (c : Nat) (x : Core) : (s.setCore c x).coll = s.coll := rfl
@[simp] theorem State.setCore_grids (s : State) (c : Nat) (x : Core) : (s.setCore c x).grids = s.grids := rfl
@[simp] theorem State.setCore_contexts (s : State) (c : Nat) (x : Core) : (s.setCore c x).contexts = s.contexts := rfl
@[simp] theorem State.setCore_parts (s : State) (c : Nat) (x : Core) : (s.setCore c x).parts = s.parts := rfl
@[simp] theorem State.setCore_pkgQ (s : State) (c : Nat) (x : Core) : (s.setCore c x).pkgQ = s.pkgQ := rfl
@[simp] theorem State.setCore_dieQ (s : State) (c : Nat) (x : Core) : (s.setCore c x).dieQ = s.dieQ := rfl
@[simp] theorem State.setCore_fitWait (s : State) (c : Nat) (x : Core) : (s.setCore c x).fitWait = s.fitWait := rfl
@[simp] theorem State.setCore_buckets (s : State) (c : Nat) (x : Core) : (s.setCore c x).buckets = s.buckets := rfl
@[simp] theorem State.setCore_hearths (s : State) (c : Nat) (x : Core) : (s.setCore c x).hearths = s.hearths := rfl
@[simp] theorem State.setCore_stoves (s : State) (c : Nat) (x : Core) : (s.setCore c x).stoves = s.stoves := rfl
@[simp] theorem State.setCore_mailboxes (s : State) (c : Nat) (x : Core) : (s.setCore c x).mailboxes = s.mailboxes := rfl
@[simp] theorem State.setCore_mboxOrder (s : State) (c : Nat) (x : Core) : (s.setCore c x).mboxOrder = s.mboxOrder := rfl
@[simp] theorem State.setCore_f0Run (s : State) (c : Nat) (x : Core) : (s.setCore c x).f0Run = s.f0Run := rfl
@[simp] theorem State.setCore_mboxCur (s : State) (c : Nat) (x : Core) : (s.setCore c x).mboxCur = s.mboxCur := rfl
@[simp] theorem State.setCore_hvLog (s : State) (c : Nat) (x : Core) : (s.setCore c x).hvLog = s.hvLog := rfl
@[simp] theorem State.setCore_mgmtLog (s : State) (c : Nat) (x : Core) : (s.setCore c x).mgmtLog = s.mgmtLog := rfl
@[simp] theorem State.setCore_mgmtWraps (s : State) (c : Nat) (x : Core) : (s.setCore c x).mgmtWraps = s.mgmtWraps := rfl
@[simp] theorem State.setCore_banks (s : State) (c : Nat) (x : Core) : (s.setCore c x).banks = s.banks := rfl
@[simp] theorem State.setCore_traceUnits (s : State) (c : Nat) (x : Core) : (s.setCore c x).traceUnits = s.traceUnits := rfl
@[simp] theorem State.setCore_sorica (s : State) (c : Nat) (x : Core) : (s.setCore c x).sorica = s.sorica := rfl
@[simp] theorem State.setCore_soricaW (s : State) (c : Nat) (x : Core) : (s.setCore c x).soricaW = s.soricaW := rfl
@[simp] theorem State.setCore_events (s : State) (c : Nat) (x : Core) : (s.setCore c x).events = s.events := rfl
@[simp] theorem State.setCore_islands (s : State) (c : Nat) (x : Core) : (s.setCore c x).islands = s.islands := rfl
@[simp] theorem State.setCore_volts (s : State) (c : Nat) (x : Core) : (s.setCore c x).volts = s.volts := rfl
@[simp] theorem State.setCore_links (s : State) (c : Nat) (x : Core) : (s.setCore c x).links = s.links := rfl
@[simp] theorem State.setCore_shadow (s : State) (c : Nat) (x : Core) : (s.setCore c x).shadow = s.shadow := rfl
@[simp] theorem State.setCore_heartbeat (s : State) (c : Nat) (x : Core) : (s.setCore c x).heartbeat = s.heartbeat := rfl
@[simp] theorem State.setCore_i3cReports (s : State) (c : Nat) (x : Core) : (s.setCore c x).i3cReports = s.i3cReports := rfl
@[simp] theorem State.setCore_hostRead (s : State) (c : Nat) (x : Core) : (s.setCore c x).hostRead = s.hostRead := rfl
@[simp] theorem State.setCore_hive (s : State) (c : Nat) (x : Core) (y : Nat) : (s.setCore c x).hive y = s.hive y := rfl
@[simp] theorem State.setCore_warp? (s : State) (c : Nat) (x : Core) (y z : Nat) : (s.setCore c x).warp? y z = s.warp? y z := rfl
@[simp] theorem State.setCore_team? (s : State) (c : Nat) (x : Core) (y : Nat) : (s.setCore c x).team? y = s.team? y := rfl
@[simp] theorem State.setCore_grid? (s : State) (c : Nat) (x : Core) (y : Nat) : (s.setCore c x).grid? y = s.grid? y := rfl
@[simp] theorem State.setCore_ctx? (s : State) (c : Nat) (x : Core) (y : Nat) : (s.setCore c x).ctx? y = s.ctx? y := rfl
@[simp] theorem State.setCore_part? (s : State) (c : Nat) (x : Core) (y : Nat) : (s.setCore c x).part? y = s.part? y := rfl
@[simp] theorem State.setCore_hearth (s : State) (c : Nat) (x : Core) (y : Nat) : (s.setCore c x).hearth y = s.hearth y := rfl
@[simp] theorem State.setCore_stove (s : State) (c : Nat) (x : Core) (y : Nat) : (s.setCore c x).stove y = s.stove y := rfl
@[simp] theorem State.setCore_mailbox (s : State) (c : Nat) (x : Core) (y : Nat) : (s.setCore c x).mailbox y = s.mailbox y := rfl
@[simp] theorem State.setCore_unit (s : State) (c : Nat) (x : Core) (y : Nat) : (s.setCore c x).unit y = s.unit y := rfl

/-! ## After `modCore` -/

@[simp] theorem State.modCore_agenda (s : State) (c : Nat) (f : Core → Core) : (s.modCore c f).agenda = s.agenda := rfl
@[simp] theorem State.modCore_cur (s : State) (c : Nat) (f : Core → Core) : (s.modCore c f).cur = s.cur := rfl
@[simp] theorem State.modCore_freeCtr (s : State) (c : Nat) (f : Core → Core) : (s.modCore c f).freeCtr = s.freeCtr := rfl
@[simp] theorem State.modCore_nextId (s : State) (c : Nat) (f : Core → Core) : (s.modCore c f).nextId = s.nextId := rfl
@[simp] theorem State.modCore_powered (s : State) (c : Nat) (f : Core → Core) : (s.modCore c f).powered = s.powered := rfl
@[simp] theorem State.modCore_bootStep (s : State) (c : Nat) (f : Core → Core) : (s.modCore c f).bootStep = s.bootStep := rfl
@[simp] theorem State.modCore_boots (s : State) (c : Nat) (f : Core → Core) : (s.modCore c f).boots = s.boots := rfl
@[simp] theorem State.modCore_measure (s : State) (c : Nat) (f : Core → Core) : (s.modCore c f).measure = s.measure := rfl
@[simp] theorem State.modCore_bootWindow (s : State) (c : Nat) (f : Core → Core) : (s.modCore c f).bootWindow = s.bootWindow := rfl
@[simp] theorem State.modCore_fuses (s : State) (c : Nat) (f : Core → Core) : (s.modCore c f).fuses = s.fuses := rfl
@[simp] theorem State.modCore_vclock (s : State) (c : Nat) (f : Core → Core) : (s.modCore c f).vclock = s.vclock := rfl
@[simp] theorem State.modCore_dclk (s : State) (c : Nat) (f : Core → Core) : (s.modCore c f).dclk = s.dclk := rfl
@[simp] theorem State.modCore_mem (s : State) (c : Nat) (f : Core → Core) : (s.modCore c f).mem = s.mem := rfl
@[simp] theorem State.modCore_synd (s : State) (c : Nat) (f : Core → Core) : (s.modCore c f).synd = s.synd := rfl
@[simp] theorem State.modCore_poisoned (s : State) (c : Nat) (f : Core → Core) : (s.modCore c f).poisoned = s.poisoned := rfl
@[simp] theorem State.modCore_homeClk (s : State) (c : Nat) (f : Core → Core) : (s.modCore c f).homeClk = s.homeClk := rfl
@[simp] theorem State.modCore_rel (s : State) (c : Nat) (f : Core → Core) : (s.modCore c f).rel = s.rel := rfl
@[simp] theorem State.modCore_rowTime (s : State) (c : Nat) (f : Core → Core) : (s.modCore c f).rowTime = s.rowTime := rfl
@[simp] theorem State.modCore_perms (s : State) (c : Nat) (f : Core → Core) : (s.modCore c f).perms = s.perms := rfl
@[simp] theorem State.modCore_hostBias (s : State) (c : Nat) (f : Core → Core) : (s.modCore c f).hostBias = s.hostBias := rfl
@[simp] theorem State.modCore_elision (s : State) (c : Nat) (f : Core → Core) : (s.modCore c f).elision = s.elision := rfl
@[simp] theorem State.modCore_unfilled (s : State) (c : Nat) (f : Core → Core) : (s.modCore c f).unfilled = s.unfilled := rfl
@[simp] theorem State.modCore_openRows (s : State) (c : Nat) (f : Core → Core) : (s.modCore c f).openRows = s.openRows := rfl
@[simp] theorem State.modCore_prechargeAt (s : State) (c : Nat) (f : Core → Core) : (s.modCore c f).prechargeAt = s.prechargeAt := rfl
@[simp] theorem State.modCore_wordQ (s : State) (c : Nat) (f : Core → Core) : (s.modCore c f).wordQ = s.wordQ := rfl
@[simp] theorem State.modCore_burstAt (s : State) (c : Nat) (f : Core → Core) : (s.modCore c f).burstAt = s.burstAt := rfl
@[simp] theorem State.modCore_burstRun (s : State) (c : Nat) (f : Core → Core) : (s.modCore c f).burstRun = s.burstRun := rfl
@[simp] theorem State.modCore_l2 (s : State) (c : Nat) (f : Core → Core) : (s.modCore c f).l2 = s.l2 := rfl
@[simp] theorem State.modCore_l2marks (s : State) (c : Nat) (f : Core → Core) : (s.modCore c f).l2marks = s.l2marks := rfl
@[simp] theorem State.modCore_sync (s : State) (c : Nat) (f : Core → Core) : (s.modCore c f).sync = s.sync := rfl
@[simp] theorem State.modCore_overflow (s : State) (c : Nat) (f : Core → Core) : (s.modCore c f).overflow = s.overflow := rfl
@[simp] theorem State.modCore_hostMem (s : State) (c : Nat) (f : Core → Core) : (s.modCore c f).hostMem = s.hostMem := rfl
@[simp] theorem State.modCore_hostInFlight (s : State) (c : Nat) (f : Core → Core) : (s.modCore c f).hostInFlight = s.hostInFlight := rfl
@[simp] theorem State.modCore_hostDeny (s : State) (c : Nat) (f : Core → Core) : (s.modCore c f).hostDeny = s.hostDeny := rfl
@[simp] theorem State.modCore_flips (s : State) (c : Nat) (f : Core → Core) : (s.modCore c f).flips = s.flips := rfl
@[simp] theorem State.modCore_hives (s : State) (c : Nat) (f : Core → Core) : (s.modCore c f).hives = s.hives := rfl
@[simp] theorem State.modCore_warps (s : State) (c : Nat) (f : Core → Core) : (s.modCore c f).warps = s.warps := rfl
@[simp] theorem State.modCore_teams (s : State) (c : Nat) (f : Core → Core) : (s.modCore c f).teams = s.teams := rfl
@[simp] theorem State.modCore_l2tlb (s : State) (c : Nat) (f : Core → Core) : (s.modCore c f).l2tlb = s.l2tlb := rfl
@[simp] theorem State.modCore_walkCache (s : State) (c : Nat) (f : Core → Core) : (s.modCore c f).walkCache = s.walkCache := rfl
@[simp] theorem State.modCore_stalls (s : State) (c : Nat) (f : Core → Core) : (s.modCore c f).stalls = s.stalls := rfl
@[simp] theorem State.modCore_heldReq (s : State) (c : Nat) (f : Core → Core) : (s.modCore c f).heldReq = s.heldReq := rfl
@[simp] theorem State.modCore_spillQ (s : State) (c : Nat) (f : Core → Core) : (s.modCore c f).spillQ = s.spillQ := rfl
@[simp] theorem State.modCore_engineQ (s : State) (c : Nat) (f : Core → Core) : (s.modCore c f).engineQ = s.engineQ := rfl
@[simp] theorem State.modCore_loads (s : State) (c : Nat) (f : Core → Core) : (s.modCore c f).loads = s.loads := rfl
@[simp] theorem State.modCore_stores (s : State) (c : Nat) (f : Core → Core) : (s.modCore c f).stores = s.stores := rfl
@[simp] theorem State.modCore_atomics (s : State) (c : Nat) (f : Core → Core) : (s.modCore c f).atomics = s.atomics := rfl
@[simp] theorem State.modCore_orphans (s : State) (c : Nat) (f : Core → Core) : (s.modCore c f).orphans = s.orphans := rfl
@[simp] theorem State.modCore_screens (s : State) (c : Nat) (f : Core → Core) : (s.modCore c f).screens = s.screens := rfl
@[simp] theorem State.modCore_pend (s : State) (c : Nat) (f : Core → Core) : (s.modCore c f).pend = s.pend := rfl
@[simp] theorem State.modCore_slabs (s : State) (c : Nat) (f : Core → Core) : (s.modCore c f).slabs = s.slabs := rfl
@[simp] theorem State.modCore_posted (s : State) (c : Nat) (f : Core → Core) : (s.modCore c f).posted = s.posted := rfl
@[simp] theorem State.modCore_gathers (s : State) (c : Nat) (f : Core → Core) : (s.modCore c f).gathers = s.gathers := rfl
@[simp] theorem State.modCore_coll (s : State) (c : Nat) (f : Core → Core) : (s.modCore c f).coll = s.coll := rfl
@[simp] theorem State.modCore_grids (s : State) (c : Nat) (f : Core → Core) : (s.modCore c f).grids = s.grids := rfl
@[simp] theorem State.modCore_contexts (s : State) (c : Nat) (f : Core → Core) : (s.modCore c f).contexts = s.contexts := rfl
@[simp] theorem State.modCore_parts (s : State) (c : Nat) (f : Core → Core) : (s.modCore c f).parts = s.parts := rfl
@[simp] theorem State.modCore_pkgQ (s : State) (c : Nat) (f : Core → Core) : (s.modCore c f).pkgQ = s.pkgQ := rfl
@[simp] theorem State.modCore_dieQ (s : State) (c : Nat) (f : Core → Core) : (s.modCore c f).dieQ = s.dieQ := rfl
@[simp] theorem State.modCore_fitWait (s : State) (c : Nat) (f : Core → Core) : (s.modCore c f).fitWait = s.fitWait := rfl
@[simp] theorem State.modCore_buckets (s : State) (c : Nat) (f : Core → Core) : (s.modCore c f).buckets = s.buckets := rfl
@[simp] theorem State.modCore_hearths (s : State) (c : Nat) (f : Core → Core) : (s.modCore c f).hearths = s.hearths := rfl
@[simp] theorem State.modCore_stoves (s : State) (c : Nat) (f : Core → Core) : (s.modCore c f).stoves = s.stoves := rfl
@[simp] theorem State.modCore_mailboxes (s : State) (c : Nat) (f : Core → Core) : (s.modCore c f).mailboxes = s.mailboxes := rfl
@[simp] theorem State.modCore_mboxOrder (s : State) (c : Nat) (f : Core → Core) : (s.modCore c f).mboxOrder = s.mboxOrder := rfl
@[simp] theorem State.modCore_f0Run (s : State) (c : Nat) (f : Core → Core) : (s.modCore c f).f0Run = s.f0Run := rfl
@[simp] theorem State.modCore_mboxCur (s : State) (c : Nat) (f : Core → Core) : (s.modCore c f).mboxCur = s.mboxCur := rfl
@[simp] theorem State.modCore_hvLog (s : State) (c : Nat) (f : Core → Core) : (s.modCore c f).hvLog = s.hvLog := rfl
@[simp] theorem State.modCore_mgmtLog (s : State) (c : Nat) (f : Core → Core) : (s.modCore c f).mgmtLog = s.mgmtLog := rfl
@[simp] theorem State.modCore_mgmtWraps (s : State) (c : Nat) (f : Core → Core) : (s.modCore c f).mgmtWraps = s.mgmtWraps := rfl
@[simp] theorem State.modCore_banks (s : State) (c : Nat) (f : Core → Core) : (s.modCore c f).banks = s.banks := rfl
@[simp] theorem State.modCore_traceUnits (s : State) (c : Nat) (f : Core → Core) : (s.modCore c f).traceUnits = s.traceUnits := rfl
@[simp] theorem State.modCore_sorica (s : State) (c : Nat) (f : Core → Core) : (s.modCore c f).sorica = s.sorica := rfl
@[simp] theorem State.modCore_soricaW (s : State) (c : Nat) (f : Core → Core) : (s.modCore c f).soricaW = s.soricaW := rfl
@[simp] theorem State.modCore_events (s : State) (c : Nat) (f : Core → Core) : (s.modCore c f).events = s.events := rfl
@[simp] theorem State.modCore_islands (s : State) (c : Nat) (f : Core → Core) : (s.modCore c f).islands = s.islands := rfl
@[simp] theorem State.modCore_volts (s : State) (c : Nat) (f : Core → Core) : (s.modCore c f).volts = s.volts := rfl
@[simp] theorem State.modCore_links (s : State) (c : Nat) (f : Core → Core) : (s.modCore c f).links = s.links := rfl
@[simp] theorem State.modCore_shadow (s : State) (c : Nat) (f : Core → Core) : (s.modCore c f).shadow = s.shadow := rfl
@[simp] theorem State.modCore_heartbeat (s : State) (c : Nat) (f : Core → Core) : (s.modCore c f).heartbeat = s.heartbeat := rfl
@[simp] theorem State.modCore_i3cReports (s : State) (c : Nat) (f : Core → Core) : (s.modCore c f).i3cReports = s.i3cReports := rfl
@[simp] theorem State.modCore_hostRead (s : State) (c : Nat) (f : Core → Core) : (s.modCore c f).hostRead = s.hostRead := rfl
@[simp] theorem State.modCore_hive (s : State) (c : Nat) (f : Core → Core) (y : Nat) : (s.modCore c f).hive y = s.hive y := rfl
@[simp] theorem State.modCore_warp? (s : State) (c : Nat) (f : Core → Core) (y z : Nat) : (s.modCore c f).warp? y z = s.warp? y z := rfl
@[simp] theorem State.modCore_team? (s : State) (c : Nat) (f : Core → Core) (y : Nat) : (s.modCore c f).team? y = s.team? y := rfl
@[simp] theorem State.modCore_grid? (s : State) (c : Nat) (f : Core → Core) (y : Nat) : (s.modCore c f).grid? y = s.grid? y := rfl
@[simp] theorem State.modCore_ctx? (s : State) (c : Nat) (f : Core → Core) (y : Nat) : (s.modCore c f).ctx? y = s.ctx? y := rfl
@[simp] theorem State.modCore_part? (s : State) (c : Nat) (f : Core → Core) (y : Nat) : (s.modCore c f).part? y = s.part? y := rfl
@[simp] theorem State.modCore_hearth (s : State) (c : Nat) (f : Core → Core) (y : Nat) : (s.modCore c f).hearth y = s.hearth y := rfl
@[simp] theorem State.modCore_stove (s : State) (c : Nat) (f : Core → Core) (y : Nat) : (s.modCore c f).stove y = s.stove y := rfl
@[simp] theorem State.modCore_mailbox (s : State) (c : Nat) (f : Core → Core) (y : Nat) : (s.modCore c f).mailbox y = s.mailbox y := rfl
@[simp] theorem State.modCore_unit (s : State) (c : Nat) (f : Core → Core) (y : Nat) : (s.modCore c f).unit y = s.unit y := rfl

/-! ## After `setHive` -/

@[simp] theorem State.setHive_agenda (s : State) (h : Nat) (x : Hive) : (s.setHive h x).agenda = s.agenda := rfl
@[simp] theorem State.setHive_cur (s : State) (h : Nat) (x : Hive) : (s.setHive h x).cur = s.cur := rfl
@[simp] theorem State.setHive_freeCtr (s : State) (h : Nat) (x : Hive) : (s.setHive h x).freeCtr = s.freeCtr := rfl
@[simp] theorem State.setHive_nextId (s : State) (h : Nat) (x : Hive) : (s.setHive h x).nextId = s.nextId := rfl
@[simp] theorem State.setHive_powered (s : State) (h : Nat) (x : Hive) : (s.setHive h x).powered = s.powered := rfl
@[simp] theorem State.setHive_bootStep (s : State) (h : Nat) (x : Hive) : (s.setHive h x).bootStep = s.bootStep := rfl
@[simp] theorem State.setHive_boots (s : State) (h : Nat) (x : Hive) : (s.setHive h x).boots = s.boots := rfl
@[simp] theorem State.setHive_measure (s : State) (h : Nat) (x : Hive) : (s.setHive h x).measure = s.measure := rfl
@[simp] theorem State.setHive_bootWindow (s : State) (h : Nat) (x : Hive) : (s.setHive h x).bootWindow = s.bootWindow := rfl
@[simp] theorem State.setHive_fuses (s : State) (h : Nat) (x : Hive) : (s.setHive h x).fuses = s.fuses := rfl
@[simp] theorem State.setHive_vclock (s : State) (h : Nat) (x : Hive) : (s.setHive h x).vclock = s.vclock := rfl
@[simp] theorem State.setHive_dclk (s : State) (h : Nat) (x : Hive) : (s.setHive h x).dclk = s.dclk := rfl
@[simp] theorem State.setHive_mem (s : State) (h : Nat) (x : Hive) : (s.setHive h x).mem = s.mem := rfl
@[simp] theorem State.setHive_synd (s : State) (h : Nat) (x : Hive) : (s.setHive h x).synd = s.synd := rfl
@[simp] theorem State.setHive_poisoned (s : State) (h : Nat) (x : Hive) : (s.setHive h x).poisoned = s.poisoned := rfl
@[simp] theorem State.setHive_homeClk (s : State) (h : Nat) (x : Hive) : (s.setHive h x).homeClk = s.homeClk := rfl
@[simp] theorem State.setHive_rel (s : State) (h : Nat) (x : Hive) : (s.setHive h x).rel = s.rel := rfl
@[simp] theorem State.setHive_rowTime (s : State) (h : Nat) (x : Hive) : (s.setHive h x).rowTime = s.rowTime := rfl
@[simp] theorem State.setHive_perms (s : State) (h : Nat) (x : Hive) : (s.setHive h x).perms = s.perms := rfl
@[simp] theorem State.setHive_hostBias (s : State) (h : Nat) (x : Hive) : (s.setHive h x).hostBias = s.hostBias := rfl
@[simp] theorem State.setHive_elision (s : State) (h : Nat) (x : Hive) : (s.setHive h x).elision = s.elision := rfl
@[simp] theorem State.setHive_unfilled (s : State) (h : Nat) (x : Hive) : (s.setHive h x).unfilled = s.unfilled := rfl
@[simp] theorem State.setHive_openRows (s : State) (h : Nat) (x : Hive) : (s.setHive h x).openRows = s.openRows := rfl
@[simp] theorem State.setHive_prechargeAt (s : State) (h : Nat) (x : Hive) : (s.setHive h x).prechargeAt = s.prechargeAt := rfl
@[simp] theorem State.setHive_wordQ (s : State) (h : Nat) (x : Hive) : (s.setHive h x).wordQ = s.wordQ := rfl
@[simp] theorem State.setHive_burstAt (s : State) (h : Nat) (x : Hive) : (s.setHive h x).burstAt = s.burstAt := rfl
@[simp] theorem State.setHive_burstRun (s : State) (h : Nat) (x : Hive) : (s.setHive h x).burstRun = s.burstRun := rfl
@[simp] theorem State.setHive_l2 (s : State) (h : Nat) (x : Hive) : (s.setHive h x).l2 = s.l2 := rfl
@[simp] theorem State.setHive_l2marks (s : State) (h : Nat) (x : Hive) : (s.setHive h x).l2marks = s.l2marks := rfl
@[simp] theorem State.setHive_sync (s : State) (h : Nat) (x : Hive) : (s.setHive h x).sync = s.sync := rfl
@[simp] theorem State.setHive_overflow (s : State) (h : Nat) (x : Hive) : (s.setHive h x).overflow = s.overflow := rfl
@[simp] theorem State.setHive_hostMem (s : State) (h : Nat) (x : Hive) : (s.setHive h x).hostMem = s.hostMem := rfl
@[simp] theorem State.setHive_hostInFlight (s : State) (h : Nat) (x : Hive) : (s.setHive h x).hostInFlight = s.hostInFlight := rfl
@[simp] theorem State.setHive_hostDeny (s : State) (h : Nat) (x : Hive) : (s.setHive h x).hostDeny = s.hostDeny := rfl
@[simp] theorem State.setHive_flips (s : State) (h : Nat) (x : Hive) : (s.setHive h x).flips = s.flips := rfl
@[simp] theorem State.setHive_cores (s : State) (h : Nat) (x : Hive) : (s.setHive h x).cores = s.cores := rfl
@[simp] theorem State.setHive_warps (s : State) (h : Nat) (x : Hive) : (s.setHive h x).warps = s.warps := rfl
@[simp] theorem State.setHive_teams (s : State) (h : Nat) (x : Hive) : (s.setHive h x).teams = s.teams := rfl
@[simp] theorem State.setHive_l2tlb (s : State) (h : Nat) (x : Hive) : (s.setHive h x).l2tlb = s.l2tlb := rfl
@[simp] theorem State.setHive_walkCache (s : State) (h : Nat) (x : Hive) : (s.setHive h x).walkCache = s.walkCache := rfl
@[simp] theorem State.setHive_stalls (s : State) (h : Nat) (x : Hive) : (s.setHive h x).stalls = s.stalls := rfl
@[simp] theorem State.setHive_heldReq (s : State) (h : Nat) (x : Hive) : (s.setHive h x).heldReq = s.heldReq := rfl
@[simp] theorem State.setHive_spillQ (s : State) (h : Nat) (x : Hive) : (s.setHive h x).spillQ = s.spillQ := rfl
@[simp] theorem State.setHive_engineQ (s : State) (h : Nat) (x : Hive) : (s.setHive h x).engineQ = s.engineQ := rfl
@[simp] theorem State.setHive_loads (s : State) (h : Nat) (x : Hive) : (s.setHive h x).loads = s.loads := rfl
@[simp] theorem State.setHive_stores (s : State) (h : Nat) (x : Hive) : (s.setHive h x).stores = s.stores := rfl
@[simp] theorem State.setHive_atomics (s : State) (h : Nat) (x : Hive) : (s.setHive h x).atomics = s.atomics := rfl
@[simp] theorem State.setHive_orphans (s : State) (h : Nat) (x : Hive) : (s.setHive h x).orphans = s.orphans := rfl
@[simp] theorem State.setHive_screens (s : State) (h : Nat) (x : Hive) : (s.setHive h x).screens = s.screens := rfl
@[simp] theorem State.setHive_pend (s : State) (h : Nat) (x : Hive) : (s.setHive h x).pend = s.pend := rfl
@[simp] theorem State.setHive_slabs (s : State) (h : Nat) (x : Hive) : (s.setHive h x).slabs = s.slabs := rfl
@[simp] theorem State.setHive_posted (s : State) (h : Nat) (x : Hive) : (s.setHive h x).posted = s.posted := rfl
@[simp] theorem State.setHive_gathers (s : State) (h : Nat) (x : Hive) : (s.setHive h x).gathers = s.gathers := rfl
@[simp] theorem State.setHive_coll (s : State) (h : Nat) (x : Hive) : (s.setHive h x).coll = s.coll := rfl
@[simp] theorem State.setHive_grids (s : State) (h : Nat) (x : Hive) : (s.setHive h x).grids = s.grids := rfl
@[simp] theorem State.setHive_contexts (s : State) (h : Nat) (x : Hive) : (s.setHive h x).contexts = s.contexts := rfl
@[simp] theorem State.setHive_parts (s : State) (h : Nat) (x : Hive) : (s.setHive h x).parts = s.parts := rfl
@[simp] theorem State.setHive_pkgQ (s : State) (h : Nat) (x : Hive) : (s.setHive h x).pkgQ = s.pkgQ := rfl
@[simp] theorem State.setHive_dieQ (s : State) (h : Nat) (x : Hive) : (s.setHive h x).dieQ = s.dieQ := rfl
@[simp] theorem State.setHive_fitWait (s : State) (h : Nat) (x : Hive) : (s.setHive h x).fitWait = s.fitWait := rfl
@[simp] theorem State.setHive_buckets (s : State) (h : Nat) (x : Hive) : (s.setHive h x).buckets = s.buckets := rfl
@[simp] theorem State.setHive_hearths (s : State) (h : Nat) (x : Hive) : (s.setHive h x).hearths = s.hearths := rfl
@[simp] theorem State.setHive_stoves (s : State) (h : Nat) (x : Hive) : (s.setHive h x).stoves = s.stoves := rfl
@[simp] theorem State.setHive_mailboxes (s : State) (h : Nat) (x : Hive) : (s.setHive h x).mailboxes = s.mailboxes := rfl
@[simp] theorem State.setHive_mboxOrder (s : State) (h : Nat) (x : Hive) : (s.setHive h x).mboxOrder = s.mboxOrder := rfl
@[simp] theorem State.setHive_f0Run (s : State) (h : Nat) (x : Hive) : (s.setHive h x).f0Run = s.f0Run := rfl
@[simp] theorem State.setHive_mboxCur (s : State) (h : Nat) (x : Hive) : (s.setHive h x).mboxCur = s.mboxCur := rfl
@[simp] theorem State.setHive_hvLog (s : State) (h : Nat) (x : Hive) : (s.setHive h x).hvLog = s.hvLog := rfl
@[simp] theorem State.setHive_mgmtLog (s : State) (h : Nat) (x : Hive) : (s.setHive h x).mgmtLog = s.mgmtLog := rfl
@[simp] theorem State.setHive_mgmtWraps (s : State) (h : Nat) (x : Hive) : (s.setHive h x).mgmtWraps = s.mgmtWraps := rfl
@[simp] theorem State.setHive_banks (s : State) (h : Nat) (x : Hive) : (s.setHive h x).banks = s.banks := rfl
@[simp] theorem State.setHive_traceUnits (s : State) (h : Nat) (x : Hive) : (s.setHive h x).traceUnits = s.traceUnits := rfl
@[simp] theorem State.setHive_sorica (s : State) (h : Nat) (x : Hive) : (s.setHive h x).sorica = s.sorica := rfl
@[simp] theorem State.setHive_soricaW (s : State) (h : Nat) (x : Hive) : (s.setHive h x).soricaW = s.soricaW := rfl
@[simp] theorem State.setHive_events (s : State) (h : Nat) (x : Hive) : (s.setHive h x).events = s.events := rfl
@[simp] theorem State.setHive_islands (s : State) (h : Nat) (x : Hive) : (s.setHive h x).islands = s.islands := rfl
@[simp] theorem State.setHive_volts (s : State) (h : Nat) (x : Hive) : (s.setHive h x).volts = s.volts := rfl
@[simp] theorem State.setHive_links (s : State) (h : Nat) (x : Hive) : (s.setHive h x).links = s.links := rfl
@[simp] theorem State.setHive_shadow (s : State) (h : Nat) (x : Hive) : (s.setHive h x).shadow = s.shadow := rfl
@[simp] theorem State.setHive_heartbeat (s : State) (h : Nat) (x : Hive) : (s.setHive h x).heartbeat = s.heartbeat := rfl
@[simp] theorem State.setHive_i3cReports (s : State) (h : Nat) (x : Hive) : (s.setHive h x).i3cReports = s.i3cReports := rfl
@[simp] theorem State.setHive_hostRead (s : State) (h : Nat) (x : Hive) : (s.setHive h x).hostRead = s.hostRead := rfl
@[simp] theorem State.setHive_core (s : State) (h : Nat) (x : Hive) (y : Nat) : (s.setHive h x).core y = s.core y := rfl
@[simp] theorem State.setHive_warp? (s : State) (h : Nat) (x : Hive) (y z : Nat) : (s.setHive h x).warp? y z = s.warp? y z := rfl
@[simp] theorem State.setHive_team? (s : State) (h : Nat) (x : Hive) (y : Nat) : (s.setHive h x).team? y = s.team? y := rfl
@[simp] theorem State.setHive_grid? (s : State) (h : Nat) (x : Hive) (y : Nat) : (s.setHive h x).grid? y = s.grid? y := rfl
@[simp] theorem State.setHive_ctx? (s : State) (h : Nat) (x : Hive) (y : Nat) : (s.setHive h x).ctx? y = s.ctx? y := rfl
@[simp] theorem State.setHive_part? (s : State) (h : Nat) (x : Hive) (y : Nat) : (s.setHive h x).part? y = s.part? y := rfl
@[simp] theorem State.setHive_hearth (s : State) (h : Nat) (x : Hive) (y : Nat) : (s.setHive h x).hearth y = s.hearth y := rfl
@[simp] theorem State.setHive_stove (s : State) (h : Nat) (x : Hive) (y : Nat) : (s.setHive h x).stove y = s.stove y := rfl
@[simp] theorem State.setHive_mailbox (s : State) (h : Nat) (x : Hive) (y : Nat) : (s.setHive h x).mailbox y = s.mailbox y := rfl
@[simp] theorem State.setHive_unit (s : State) (h : Nat) (x : Hive) (y : Nat) : (s.setHive h x).unit y = s.unit y := rfl

/-! ## After `modHive` -/

@[simp] theorem State.modHive_agenda (s : State) (h : Nat) (f : Hive → Hive) : (s.modHive h f).agenda = s.agenda := rfl
@[simp] theorem State.modHive_cur (s : State) (h : Nat) (f : Hive → Hive) : (s.modHive h f).cur = s.cur := rfl
@[simp] theorem State.modHive_freeCtr (s : State) (h : Nat) (f : Hive → Hive) : (s.modHive h f).freeCtr = s.freeCtr := rfl
@[simp] theorem State.modHive_nextId (s : State) (h : Nat) (f : Hive → Hive) : (s.modHive h f).nextId = s.nextId := rfl
@[simp] theorem State.modHive_powered (s : State) (h : Nat) (f : Hive → Hive) : (s.modHive h f).powered = s.powered := rfl
@[simp] theorem State.modHive_bootStep (s : State) (h : Nat) (f : Hive → Hive) : (s.modHive h f).bootStep = s.bootStep := rfl
@[simp] theorem State.modHive_boots (s : State) (h : Nat) (f : Hive → Hive) : (s.modHive h f).boots = s.boots := rfl
@[simp] theorem State.modHive_measure (s : State) (h : Nat) (f : Hive → Hive) : (s.modHive h f).measure = s.measure := rfl
@[simp] theorem State.modHive_bootWindow (s : State) (h : Nat) (f : Hive → Hive) : (s.modHive h f).bootWindow = s.bootWindow := rfl
@[simp] theorem State.modHive_fuses (s : State) (h : Nat) (f : Hive → Hive) : (s.modHive h f).fuses = s.fuses := rfl
@[simp] theorem State.modHive_vclock (s : State) (h : Nat) (f : Hive → Hive) : (s.modHive h f).vclock = s.vclock := rfl
@[simp] theorem State.modHive_dclk (s : State) (h : Nat) (f : Hive → Hive) : (s.modHive h f).dclk = s.dclk := rfl
@[simp] theorem State.modHive_mem (s : State) (h : Nat) (f : Hive → Hive) : (s.modHive h f).mem = s.mem := rfl
@[simp] theorem State.modHive_synd (s : State) (h : Nat) (f : Hive → Hive) : (s.modHive h f).synd = s.synd := rfl
@[simp] theorem State.modHive_poisoned (s : State) (h : Nat) (f : Hive → Hive) : (s.modHive h f).poisoned = s.poisoned := rfl
@[simp] theorem State.modHive_homeClk (s : State) (h : Nat) (f : Hive → Hive) : (s.modHive h f).homeClk = s.homeClk := rfl
@[simp] theorem State.modHive_rel (s : State) (h : Nat) (f : Hive → Hive) : (s.modHive h f).rel = s.rel := rfl
@[simp] theorem State.modHive_rowTime (s : State) (h : Nat) (f : Hive → Hive) : (s.modHive h f).rowTime = s.rowTime := rfl
@[simp] theorem State.modHive_perms (s : State) (h : Nat) (f : Hive → Hive) : (s.modHive h f).perms = s.perms := rfl
@[simp] theorem State.modHive_hostBias (s : State) (h : Nat) (f : Hive → Hive) : (s.modHive h f).hostBias = s.hostBias := rfl
@[simp] theorem State.modHive_elision (s : State) (h : Nat) (f : Hive → Hive) : (s.modHive h f).elision = s.elision := rfl
@[simp] theorem State.modHive_unfilled (s : State) (h : Nat) (f : Hive → Hive) : (s.modHive h f).unfilled = s.unfilled := rfl
@[simp] theorem State.modHive_openRows (s : State) (h : Nat) (f : Hive → Hive) : (s.modHive h f).openRows = s.openRows := rfl
@[simp] theorem State.modHive_prechargeAt (s : State) (h : Nat) (f : Hive → Hive) : (s.modHive h f).prechargeAt = s.prechargeAt := rfl
@[simp] theorem State.modHive_wordQ (s : State) (h : Nat) (f : Hive → Hive) : (s.modHive h f).wordQ = s.wordQ := rfl
@[simp] theorem State.modHive_burstAt (s : State) (h : Nat) (f : Hive → Hive) : (s.modHive h f).burstAt = s.burstAt := rfl
@[simp] theorem State.modHive_burstRun (s : State) (h : Nat) (f : Hive → Hive) : (s.modHive h f).burstRun = s.burstRun := rfl
@[simp] theorem State.modHive_l2 (s : State) (h : Nat) (f : Hive → Hive) : (s.modHive h f).l2 = s.l2 := rfl
@[simp] theorem State.modHive_l2marks (s : State) (h : Nat) (f : Hive → Hive) : (s.modHive h f).l2marks = s.l2marks := rfl
@[simp] theorem State.modHive_sync (s : State) (h : Nat) (f : Hive → Hive) : (s.modHive h f).sync = s.sync := rfl
@[simp] theorem State.modHive_overflow (s : State) (h : Nat) (f : Hive → Hive) : (s.modHive h f).overflow = s.overflow := rfl
@[simp] theorem State.modHive_hostMem (s : State) (h : Nat) (f : Hive → Hive) : (s.modHive h f).hostMem = s.hostMem := rfl
@[simp] theorem State.modHive_hostInFlight (s : State) (h : Nat) (f : Hive → Hive) : (s.modHive h f).hostInFlight = s.hostInFlight := rfl
@[simp] theorem State.modHive_hostDeny (s : State) (h : Nat) (f : Hive → Hive) : (s.modHive h f).hostDeny = s.hostDeny := rfl
@[simp] theorem State.modHive_flips (s : State) (h : Nat) (f : Hive → Hive) : (s.modHive h f).flips = s.flips := rfl
@[simp] theorem State.modHive_cores (s : State) (h : Nat) (f : Hive → Hive) : (s.modHive h f).cores = s.cores := rfl
@[simp] theorem State.modHive_warps (s : State) (h : Nat) (f : Hive → Hive) : (s.modHive h f).warps = s.warps := rfl
@[simp] theorem State.modHive_teams (s : State) (h : Nat) (f : Hive → Hive) : (s.modHive h f).teams = s.teams := rfl
@[simp] theorem State.modHive_l2tlb (s : State) (h : Nat) (f : Hive → Hive) : (s.modHive h f).l2tlb = s.l2tlb := rfl
@[simp] theorem State.modHive_walkCache (s : State) (h : Nat) (f : Hive → Hive) : (s.modHive h f).walkCache = s.walkCache := rfl
@[simp] theorem State.modHive_stalls (s : State) (h : Nat) (f : Hive → Hive) : (s.modHive h f).stalls = s.stalls := rfl
@[simp] theorem State.modHive_heldReq (s : State) (h : Nat) (f : Hive → Hive) : (s.modHive h f).heldReq = s.heldReq := rfl
@[simp] theorem State.modHive_spillQ (s : State) (h : Nat) (f : Hive → Hive) : (s.modHive h f).spillQ = s.spillQ := rfl
@[simp] theorem State.modHive_engineQ (s : State) (h : Nat) (f : Hive → Hive) : (s.modHive h f).engineQ = s.engineQ := rfl
@[simp] theorem State.modHive_loads (s : State) (h : Nat) (f : Hive → Hive) : (s.modHive h f).loads = s.loads := rfl
@[simp] theorem State.modHive_stores (s : State) (h : Nat) (f : Hive → Hive) : (s.modHive h f).stores = s.stores := rfl
@[simp] theorem State.modHive_atomics (s : State) (h : Nat) (f : Hive → Hive) : (s.modHive h f).atomics = s.atomics := rfl
@[simp] theorem State.modHive_orphans (s : State) (h : Nat) (f : Hive → Hive) : (s.modHive h f).orphans = s.orphans := rfl
@[simp] theorem State.modHive_screens (s : State) (h : Nat) (f : Hive → Hive) : (s.modHive h f).screens = s.screens := rfl
@[simp] theorem State.modHive_pend (s : State) (h : Nat) (f : Hive → Hive) : (s.modHive h f).pend = s.pend := rfl
@[simp] theorem State.modHive_slabs (s : State) (h : Nat) (f : Hive → Hive) : (s.modHive h f).slabs = s.slabs := rfl
@[simp] theorem State.modHive_posted (s : State) (h : Nat) (f : Hive → Hive) : (s.modHive h f).posted = s.posted := rfl
@[simp] theorem State.modHive_gathers (s : State) (h : Nat) (f : Hive → Hive) : (s.modHive h f).gathers = s.gathers := rfl
@[simp] theorem State.modHive_coll (s : State) (h : Nat) (f : Hive → Hive) : (s.modHive h f).coll = s.coll := rfl
@[simp] theorem State.modHive_grids (s : State) (h : Nat) (f : Hive → Hive) : (s.modHive h f).grids = s.grids := rfl
@[simp] theorem State.modHive_contexts (s : State) (h : Nat) (f : Hive → Hive) : (s.modHive h f).contexts = s.contexts := rfl
@[simp] theorem State.modHive_parts (s : State) (h : Nat) (f : Hive → Hive) : (s.modHive h f).parts = s.parts := rfl
@[simp] theorem State.modHive_pkgQ (s : State) (h : Nat) (f : Hive → Hive) : (s.modHive h f).pkgQ = s.pkgQ := rfl
@[simp] theorem State.modHive_dieQ (s : State) (h : Nat) (f : Hive → Hive) : (s.modHive h f).dieQ = s.dieQ := rfl
@[simp] theorem State.modHive_fitWait (s : State) (h : Nat) (f : Hive → Hive) : (s.modHive h f).fitWait = s.fitWait := rfl
@[simp] theorem State.modHive_buckets (s : State) (h : Nat) (f : Hive → Hive) : (s.modHive h f).buckets = s.buckets := rfl
@[simp] theorem State.modHive_hearths (s : State) (h : Nat) (f : Hive → Hive) : (s.modHive h f).hearths = s.hearths := rfl
@[simp] theorem State.modHive_stoves (s : State) (h : Nat) (f : Hive → Hive) : (s.modHive h f).stoves = s.stoves := rfl
@[simp] theorem State.modHive_mailboxes (s : State) (h : Nat) (f : Hive → Hive) : (s.modHive h f).mailboxes = s.mailboxes := rfl
@[simp] theorem State.modHive_mboxOrder (s : State) (h : Nat) (f : Hive → Hive) : (s.modHive h f).mboxOrder = s.mboxOrder := rfl
@[simp] theorem State.modHive_f0Run (s : State) (h : Nat) (f : Hive → Hive) : (s.modHive h f).f0Run = s.f0Run := rfl
@[simp] theorem State.modHive_mboxCur (s : State) (h : Nat) (f : Hive → Hive) : (s.modHive h f).mboxCur = s.mboxCur := rfl
@[simp] theorem State.modHive_hvLog (s : State) (h : Nat) (f : Hive → Hive) : (s.modHive h f).hvLog = s.hvLog := rfl
@[simp] theorem State.modHive_mgmtLog (s : State) (h : Nat) (f : Hive → Hive) : (s.modHive h f).mgmtLog = s.mgmtLog := rfl
@[simp] theorem State.modHive_mgmtWraps (s : State) (h : Nat) (f : Hive → Hive) : (s.modHive h f).mgmtWraps = s.mgmtWraps := rfl
@[simp] theorem State.modHive_banks (s : State) (h : Nat) (f : Hive → Hive) : (s.modHive h f).banks = s.banks := rfl
@[simp] theorem State.modHive_traceUnits (s : State) (h : Nat) (f : Hive → Hive) : (s.modHive h f).traceUnits = s.traceUnits := rfl
@[simp] theorem State.modHive_sorica (s : State) (h : Nat) (f : Hive → Hive) : (s.modHive h f).sorica = s.sorica := rfl
@[simp] theorem State.modHive_soricaW (s : State) (h : Nat) (f : Hive → Hive) : (s.modHive h f).soricaW = s.soricaW := rfl
@[simp] theorem State.modHive_events (s : State) (h : Nat) (f : Hive → Hive) : (s.modHive h f).events = s.events := rfl
@[simp] theorem State.modHive_islands (s : State) (h : Nat) (f : Hive → Hive) : (s.modHive h f).islands = s.islands := rfl
@[simp] theorem State.modHive_volts (s : State) (h : Nat) (f : Hive → Hive) : (s.modHive h f).volts = s.volts := rfl
@[simp] theorem State.modHive_links (s : State) (h : Nat) (f : Hive → Hive) : (s.modHive h f).links = s.links := rfl
@[simp] theorem State.modHive_shadow (s : State) (h : Nat) (f : Hive → Hive) : (s.modHive h f).shadow = s.shadow := rfl
@[simp] theorem State.modHive_heartbeat (s : State) (h : Nat) (f : Hive → Hive) : (s.modHive h f).heartbeat = s.heartbeat := rfl
@[simp] theorem State.modHive_i3cReports (s : State) (h : Nat) (f : Hive → Hive) : (s.modHive h f).i3cReports = s.i3cReports := rfl
@[simp] theorem State.modHive_hostRead (s : State) (h : Nat) (f : Hive → Hive) : (s.modHive h f).hostRead = s.hostRead := rfl
@[simp] theorem State.modHive_core (s : State) (h : Nat) (f : Hive → Hive) (y : Nat) : (s.modHive h f).core y = s.core y := rfl
@[simp] theorem State.modHive_warp? (s : State) (h : Nat) (f : Hive → Hive) (y z : Nat) : (s.modHive h f).warp? y z = s.warp? y z := rfl
@[simp] theorem State.modHive_team? (s : State) (h : Nat) (f : Hive → Hive) (y : Nat) : (s.modHive h f).team? y = s.team? y := rfl
@[simp] theorem State.modHive_grid? (s : State) (h : Nat) (f : Hive → Hive) (y : Nat) : (s.modHive h f).grid? y = s.grid? y := rfl
@[simp] theorem State.modHive_ctx? (s : State) (h : Nat) (f : Hive → Hive) (y : Nat) : (s.modHive h f).ctx? y = s.ctx? y := rfl
@[simp] theorem State.modHive_part? (s : State) (h : Nat) (f : Hive → Hive) (y : Nat) : (s.modHive h f).part? y = s.part? y := rfl
@[simp] theorem State.modHive_hearth (s : State) (h : Nat) (f : Hive → Hive) (y : Nat) : (s.modHive h f).hearth y = s.hearth y := rfl
@[simp] theorem State.modHive_stove (s : State) (h : Nat) (f : Hive → Hive) (y : Nat) : (s.modHive h f).stove y = s.stove y := rfl
@[simp] theorem State.modHive_mailbox (s : State) (h : Nat) (f : Hive → Hive) (y : Nat) : (s.modHive h f).mailbox y = s.mailbox y := rfl
@[simp] theorem State.modHive_unit (s : State) (h : Nat) (f : Hive → Hive) (y : Nat) : (s.modHive h f).unit y = s.unit y := rfl

/-! ## After `setWarp` -/

@[simp] theorem State.setWarp_agenda (s : State) (c k : Nat) (w : Warp) : (s.setWarp c k w).agenda = s.agenda := rfl
@[simp] theorem State.setWarp_cur (s : State) (c k : Nat) (w : Warp) : (s.setWarp c k w).cur = s.cur := rfl
@[simp] theorem State.setWarp_freeCtr (s : State) (c k : Nat) (w : Warp) : (s.setWarp c k w).freeCtr = s.freeCtr := rfl
@[simp] theorem State.setWarp_nextId (s : State) (c k : Nat) (w : Warp) : (s.setWarp c k w).nextId = s.nextId := rfl
@[simp] theorem State.setWarp_powered (s : State) (c k : Nat) (w : Warp) : (s.setWarp c k w).powered = s.powered := rfl
@[simp] theorem State.setWarp_bootStep (s : State) (c k : Nat) (w : Warp) : (s.setWarp c k w).bootStep = s.bootStep := rfl
@[simp] theorem State.setWarp_boots (s : State) (c k : Nat) (w : Warp) : (s.setWarp c k w).boots = s.boots := rfl
@[simp] theorem State.setWarp_measure (s : State) (c k : Nat) (w : Warp) : (s.setWarp c k w).measure = s.measure := rfl
@[simp] theorem State.setWarp_bootWindow (s : State) (c k : Nat) (w : Warp) : (s.setWarp c k w).bootWindow = s.bootWindow := rfl
@[simp] theorem State.setWarp_fuses (s : State) (c k : Nat) (w : Warp) : (s.setWarp c k w).fuses = s.fuses := rfl
@[simp] theorem State.setWarp_vclock (s : State) (c k : Nat) (w : Warp) : (s.setWarp c k w).vclock = s.vclock := rfl
@[simp] theorem State.setWarp_dclk (s : State) (c k : Nat) (w : Warp) : (s.setWarp c k w).dclk = s.dclk := rfl
@[simp] theorem State.setWarp_mem (s : State) (c k : Nat) (w : Warp) : (s.setWarp c k w).mem = s.mem := rfl
@[simp] theorem State.setWarp_synd (s : State) (c k : Nat) (w : Warp) : (s.setWarp c k w).synd = s.synd := rfl
@[simp] theorem State.setWarp_poisoned (s : State) (c k : Nat) (w : Warp) : (s.setWarp c k w).poisoned = s.poisoned := rfl
@[simp] theorem State.setWarp_homeClk (s : State) (c k : Nat) (w : Warp) : (s.setWarp c k w).homeClk = s.homeClk := rfl
@[simp] theorem State.setWarp_rel (s : State) (c k : Nat) (w : Warp) : (s.setWarp c k w).rel = s.rel := rfl
@[simp] theorem State.setWarp_rowTime (s : State) (c k : Nat) (w : Warp) : (s.setWarp c k w).rowTime = s.rowTime := rfl
@[simp] theorem State.setWarp_perms (s : State) (c k : Nat) (w : Warp) : (s.setWarp c k w).perms = s.perms := rfl
@[simp] theorem State.setWarp_hostBias (s : State) (c k : Nat) (w : Warp) : (s.setWarp c k w).hostBias = s.hostBias := rfl
@[simp] theorem State.setWarp_elision (s : State) (c k : Nat) (w : Warp) : (s.setWarp c k w).elision = s.elision := rfl
@[simp] theorem State.setWarp_unfilled (s : State) (c k : Nat) (w : Warp) : (s.setWarp c k w).unfilled = s.unfilled := rfl
@[simp] theorem State.setWarp_openRows (s : State) (c k : Nat) (w : Warp) : (s.setWarp c k w).openRows = s.openRows := rfl
@[simp] theorem State.setWarp_prechargeAt (s : State) (c k : Nat) (w : Warp) : (s.setWarp c k w).prechargeAt = s.prechargeAt := rfl
@[simp] theorem State.setWarp_wordQ (s : State) (c k : Nat) (w : Warp) : (s.setWarp c k w).wordQ = s.wordQ := rfl
@[simp] theorem State.setWarp_burstAt (s : State) (c k : Nat) (w : Warp) : (s.setWarp c k w).burstAt = s.burstAt := rfl
@[simp] theorem State.setWarp_burstRun (s : State) (c k : Nat) (w : Warp) : (s.setWarp c k w).burstRun = s.burstRun := rfl
@[simp] theorem State.setWarp_l2 (s : State) (c k : Nat) (w : Warp) : (s.setWarp c k w).l2 = s.l2 := rfl
@[simp] theorem State.setWarp_l2marks (s : State) (c k : Nat) (w : Warp) : (s.setWarp c k w).l2marks = s.l2marks := rfl
@[simp] theorem State.setWarp_sync (s : State) (c k : Nat) (w : Warp) : (s.setWarp c k w).sync = s.sync := rfl
@[simp] theorem State.setWarp_overflow (s : State) (c k : Nat) (w : Warp) : (s.setWarp c k w).overflow = s.overflow := rfl
@[simp] theorem State.setWarp_hostMem (s : State) (c k : Nat) (w : Warp) : (s.setWarp c k w).hostMem = s.hostMem := rfl
@[simp] theorem State.setWarp_hostInFlight (s : State) (c k : Nat) (w : Warp) : (s.setWarp c k w).hostInFlight = s.hostInFlight := rfl
@[simp] theorem State.setWarp_hostDeny (s : State) (c k : Nat) (w : Warp) : (s.setWarp c k w).hostDeny = s.hostDeny := rfl
@[simp] theorem State.setWarp_flips (s : State) (c k : Nat) (w : Warp) : (s.setWarp c k w).flips = s.flips := rfl
@[simp] theorem State.setWarp_cores (s : State) (c k : Nat) (w : Warp) : (s.setWarp c k w).cores = s.cores := rfl
@[simp] theorem State.setWarp_hives (s : State) (c k : Nat) (w : Warp) : (s.setWarp c k w).hives = s.hives := rfl
@[simp] theorem State.setWarp_teams (s : State) (c k : Nat) (w : Warp) : (s.setWarp c k w).teams = s.teams := rfl
@[simp] theorem State.setWarp_l2tlb (s : State) (c k : Nat) (w : Warp) : (s.setWarp c k w).l2tlb = s.l2tlb := rfl
@[simp] theorem State.setWarp_walkCache (s : State) (c k : Nat) (w : Warp) : (s.setWarp c k w).walkCache = s.walkCache := rfl
@[simp] theorem State.setWarp_stalls (s : State) (c k : Nat) (w : Warp) : (s.setWarp c k w).stalls = s.stalls := rfl
@[simp] theorem State.setWarp_heldReq (s : State) (c k : Nat) (w : Warp) : (s.setWarp c k w).heldReq = s.heldReq := rfl
@[simp] theorem State.setWarp_spillQ (s : State) (c k : Nat) (w : Warp) : (s.setWarp c k w).spillQ = s.spillQ := rfl
@[simp] theorem State.setWarp_engineQ (s : State) (c k : Nat) (w : Warp) : (s.setWarp c k w).engineQ = s.engineQ := rfl
@[simp] theorem State.setWarp_loads (s : State) (c k : Nat) (w : Warp) : (s.setWarp c k w).loads = s.loads := rfl
@[simp] theorem State.setWarp_stores (s : State) (c k : Nat) (w : Warp) : (s.setWarp c k w).stores = s.stores := rfl
@[simp] theorem State.setWarp_atomics (s : State) (c k : Nat) (w : Warp) : (s.setWarp c k w).atomics = s.atomics := rfl
@[simp] theorem State.setWarp_orphans (s : State) (c k : Nat) (w : Warp) : (s.setWarp c k w).orphans = s.orphans := rfl
@[simp] theorem State.setWarp_screens (s : State) (c k : Nat) (w : Warp) : (s.setWarp c k w).screens = s.screens := rfl
@[simp] theorem State.setWarp_pend (s : State) (c k : Nat) (w : Warp) : (s.setWarp c k w).pend = s.pend := rfl
@[simp] theorem State.setWarp_slabs (s : State) (c k : Nat) (w : Warp) : (s.setWarp c k w).slabs = s.slabs := rfl
@[simp] theorem State.setWarp_posted (s : State) (c k : Nat) (w : Warp) : (s.setWarp c k w).posted = s.posted := rfl
@[simp] theorem State.setWarp_gathers (s : State) (c k : Nat) (w : Warp) : (s.setWarp c k w).gathers = s.gathers := rfl
@[simp] theorem State.setWarp_coll (s : State) (c k : Nat) (w : Warp) : (s.setWarp c k w).coll = s.coll := rfl
@[simp] theorem State.setWarp_grids (s : State) (c k : Nat) (w : Warp) : (s.setWarp c k w).grids = s.grids := rfl
@[simp] theorem State.setWarp_contexts (s : State) (c k : Nat) (w : Warp) : (s.setWarp c k w).contexts = s.contexts := rfl
@[simp] theorem State.setWarp_parts (s : State) (c k : Nat) (w : Warp) : (s.setWarp c k w).parts = s.parts := rfl
@[simp] theorem State.setWarp_pkgQ (s : State) (c k : Nat) (w : Warp) : (s.setWarp c k w).pkgQ = s.pkgQ := rfl
@[simp] theorem State.setWarp_dieQ (s : State) (c k : Nat) (w : Warp) : (s.setWarp c k w).dieQ = s.dieQ := rfl
@[simp] theorem State.setWarp_fitWait (s : State) (c k : Nat) (w : Warp) : (s.setWarp c k w).fitWait = s.fitWait := rfl
@[simp] theorem State.setWarp_buckets (s : State) (c k : Nat) (w : Warp) : (s.setWarp c k w).buckets = s.buckets := rfl
@[simp] theorem State.setWarp_hearths (s : State) (c k : Nat) (w : Warp) : (s.setWarp c k w).hearths = s.hearths := rfl
@[simp] theorem State.setWarp_stoves (s : State) (c k : Nat) (w : Warp) : (s.setWarp c k w).stoves = s.stoves := rfl
@[simp] theorem State.setWarp_mailboxes (s : State) (c k : Nat) (w : Warp) : (s.setWarp c k w).mailboxes = s.mailboxes := rfl
@[simp] theorem State.setWarp_mboxOrder (s : State) (c k : Nat) (w : Warp) : (s.setWarp c k w).mboxOrder = s.mboxOrder := rfl
@[simp] theorem State.setWarp_f0Run (s : State) (c k : Nat) (w : Warp) : (s.setWarp c k w).f0Run = s.f0Run := rfl
@[simp] theorem State.setWarp_mboxCur (s : State) (c k : Nat) (w : Warp) : (s.setWarp c k w).mboxCur = s.mboxCur := rfl
@[simp] theorem State.setWarp_hvLog (s : State) (c k : Nat) (w : Warp) : (s.setWarp c k w).hvLog = s.hvLog := rfl
@[simp] theorem State.setWarp_mgmtLog (s : State) (c k : Nat) (w : Warp) : (s.setWarp c k w).mgmtLog = s.mgmtLog := rfl
@[simp] theorem State.setWarp_mgmtWraps (s : State) (c k : Nat) (w : Warp) : (s.setWarp c k w).mgmtWraps = s.mgmtWraps := rfl
@[simp] theorem State.setWarp_banks (s : State) (c k : Nat) (w : Warp) : (s.setWarp c k w).banks = s.banks := rfl
@[simp] theorem State.setWarp_traceUnits (s : State) (c k : Nat) (w : Warp) : (s.setWarp c k w).traceUnits = s.traceUnits := rfl
@[simp] theorem State.setWarp_sorica (s : State) (c k : Nat) (w : Warp) : (s.setWarp c k w).sorica = s.sorica := rfl
@[simp] theorem State.setWarp_soricaW (s : State) (c k : Nat) (w : Warp) : (s.setWarp c k w).soricaW = s.soricaW := rfl
@[simp] theorem State.setWarp_events (s : State) (c k : Nat) (w : Warp) : (s.setWarp c k w).events = s.events := rfl
@[simp] theorem State.setWarp_islands (s : State) (c k : Nat) (w : Warp) : (s.setWarp c k w).islands = s.islands := rfl
@[simp] theorem State.setWarp_volts (s : State) (c k : Nat) (w : Warp) : (s.setWarp c k w).volts = s.volts := rfl
@[simp] theorem State.setWarp_links (s : State) (c k : Nat) (w : Warp) : (s.setWarp c k w).links = s.links := rfl
@[simp] theorem State.setWarp_shadow (s : State) (c k : Nat) (w : Warp) : (s.setWarp c k w).shadow = s.shadow := rfl
@[simp] theorem State.setWarp_heartbeat (s : State) (c k : Nat) (w : Warp) : (s.setWarp c k w).heartbeat = s.heartbeat := rfl
@[simp] theorem State.setWarp_i3cReports (s : State) (c k : Nat) (w : Warp) : (s.setWarp c k w).i3cReports = s.i3cReports := rfl
@[simp] theorem State.setWarp_hostRead (s : State) (c k : Nat) (w : Warp) : (s.setWarp c k w).hostRead = s.hostRead := rfl
@[simp] theorem State.setWarp_core (s : State) (c k : Nat) (w : Warp) (y : Nat) : (s.setWarp c k w).core y = s.core y := rfl
@[simp] theorem State.setWarp_hive (s : State) (c k : Nat) (w : Warp) (y : Nat) : (s.setWarp c k w).hive y = s.hive y := rfl
@[simp] theorem State.setWarp_team? (s : State) (c k : Nat) (w : Warp) (y : Nat) : (s.setWarp c k w).team? y = s.team? y := rfl
@[simp] theorem State.setWarp_grid? (s : State) (c k : Nat) (w : Warp) (y : Nat) : (s.setWarp c k w).grid? y = s.grid? y := rfl
@[simp] theorem State.setWarp_ctx? (s : State) (c k : Nat) (w : Warp) (y : Nat) : (s.setWarp c k w).ctx? y = s.ctx? y := rfl
@[simp] theorem State.setWarp_part? (s : State) (c k : Nat) (w : Warp) (y : Nat) : (s.setWarp c k w).part? y = s.part? y := rfl
@[simp] theorem State.setWarp_hearth (s : State) (c k : Nat) (w : Warp) (y : Nat) : (s.setWarp c k w).hearth y = s.hearth y := rfl
@[simp] theorem State.setWarp_stove (s : State) (c k : Nat) (w : Warp) (y : Nat) : (s.setWarp c k w).stove y = s.stove y := rfl
@[simp] theorem State.setWarp_mailbox (s : State) (c k : Nat) (w : Warp) (y : Nat) : (s.setWarp c k w).mailbox y = s.mailbox y := rfl
@[simp] theorem State.setWarp_unit (s : State) (c k : Nat) (w : Warp) (y : Nat) : (s.setWarp c k w).unit y = s.unit y := rfl

/-! ## After `modWarp` -/

@[simp] theorem State.modWarp_agenda (s : State) (c k : Nat) (f : Warp → Warp) : (s.modWarp c k f).agenda = s.agenda := rfl
@[simp] theorem State.modWarp_cur (s : State) (c k : Nat) (f : Warp → Warp) : (s.modWarp c k f).cur = s.cur := rfl
@[simp] theorem State.modWarp_freeCtr (s : State) (c k : Nat) (f : Warp → Warp) : (s.modWarp c k f).freeCtr = s.freeCtr := rfl
@[simp] theorem State.modWarp_nextId (s : State) (c k : Nat) (f : Warp → Warp) : (s.modWarp c k f).nextId = s.nextId := rfl
@[simp] theorem State.modWarp_powered (s : State) (c k : Nat) (f : Warp → Warp) : (s.modWarp c k f).powered = s.powered := rfl
@[simp] theorem State.modWarp_bootStep (s : State) (c k : Nat) (f : Warp → Warp) : (s.modWarp c k f).bootStep = s.bootStep := rfl
@[simp] theorem State.modWarp_boots (s : State) (c k : Nat) (f : Warp → Warp) : (s.modWarp c k f).boots = s.boots := rfl
@[simp] theorem State.modWarp_measure (s : State) (c k : Nat) (f : Warp → Warp) : (s.modWarp c k f).measure = s.measure := rfl
@[simp] theorem State.modWarp_bootWindow (s : State) (c k : Nat) (f : Warp → Warp) : (s.modWarp c k f).bootWindow = s.bootWindow := rfl
@[simp] theorem State.modWarp_fuses (s : State) (c k : Nat) (f : Warp → Warp) : (s.modWarp c k f).fuses = s.fuses := rfl
@[simp] theorem State.modWarp_vclock (s : State) (c k : Nat) (f : Warp → Warp) : (s.modWarp c k f).vclock = s.vclock := rfl
@[simp] theorem State.modWarp_dclk (s : State) (c k : Nat) (f : Warp → Warp) : (s.modWarp c k f).dclk = s.dclk := rfl
@[simp] theorem State.modWarp_mem (s : State) (c k : Nat) (f : Warp → Warp) : (s.modWarp c k f).mem = s.mem := rfl
@[simp] theorem State.modWarp_synd (s : State) (c k : Nat) (f : Warp → Warp) : (s.modWarp c k f).synd = s.synd := rfl
@[simp] theorem State.modWarp_poisoned (s : State) (c k : Nat) (f : Warp → Warp) : (s.modWarp c k f).poisoned = s.poisoned := rfl
@[simp] theorem State.modWarp_homeClk (s : State) (c k : Nat) (f : Warp → Warp) : (s.modWarp c k f).homeClk = s.homeClk := rfl
@[simp] theorem State.modWarp_rel (s : State) (c k : Nat) (f : Warp → Warp) : (s.modWarp c k f).rel = s.rel := rfl
@[simp] theorem State.modWarp_rowTime (s : State) (c k : Nat) (f : Warp → Warp) : (s.modWarp c k f).rowTime = s.rowTime := rfl
@[simp] theorem State.modWarp_perms (s : State) (c k : Nat) (f : Warp → Warp) : (s.modWarp c k f).perms = s.perms := rfl
@[simp] theorem State.modWarp_hostBias (s : State) (c k : Nat) (f : Warp → Warp) : (s.modWarp c k f).hostBias = s.hostBias := rfl
@[simp] theorem State.modWarp_elision (s : State) (c k : Nat) (f : Warp → Warp) : (s.modWarp c k f).elision = s.elision := rfl
@[simp] theorem State.modWarp_unfilled (s : State) (c k : Nat) (f : Warp → Warp) : (s.modWarp c k f).unfilled = s.unfilled := rfl
@[simp] theorem State.modWarp_openRows (s : State) (c k : Nat) (f : Warp → Warp) : (s.modWarp c k f).openRows = s.openRows := rfl
@[simp] theorem State.modWarp_prechargeAt (s : State) (c k : Nat) (f : Warp → Warp) : (s.modWarp c k f).prechargeAt = s.prechargeAt := rfl
@[simp] theorem State.modWarp_wordQ (s : State) (c k : Nat) (f : Warp → Warp) : (s.modWarp c k f).wordQ = s.wordQ := rfl
@[simp] theorem State.modWarp_burstAt (s : State) (c k : Nat) (f : Warp → Warp) : (s.modWarp c k f).burstAt = s.burstAt := rfl
@[simp] theorem State.modWarp_burstRun (s : State) (c k : Nat) (f : Warp → Warp) : (s.modWarp c k f).burstRun = s.burstRun := rfl
@[simp] theorem State.modWarp_l2 (s : State) (c k : Nat) (f : Warp → Warp) : (s.modWarp c k f).l2 = s.l2 := rfl
@[simp] theorem State.modWarp_l2marks (s : State) (c k : Nat) (f : Warp → Warp) : (s.modWarp c k f).l2marks = s.l2marks := rfl
@[simp] theorem State.modWarp_sync (s : State) (c k : Nat) (f : Warp → Warp) : (s.modWarp c k f).sync = s.sync := rfl
@[simp] theorem State.modWarp_overflow (s : State) (c k : Nat) (f : Warp → Warp) : (s.modWarp c k f).overflow = s.overflow := rfl
@[simp] theorem State.modWarp_hostMem (s : State) (c k : Nat) (f : Warp → Warp) : (s.modWarp c k f).hostMem = s.hostMem := rfl
@[simp] theorem State.modWarp_hostInFlight (s : State) (c k : Nat) (f : Warp → Warp) : (s.modWarp c k f).hostInFlight = s.hostInFlight := rfl
@[simp] theorem State.modWarp_hostDeny (s : State) (c k : Nat) (f : Warp → Warp) : (s.modWarp c k f).hostDeny = s.hostDeny := rfl
@[simp] theorem State.modWarp_flips (s : State) (c k : Nat) (f : Warp → Warp) : (s.modWarp c k f).flips = s.flips := rfl
@[simp] theorem State.modWarp_cores (s : State) (c k : Nat) (f : Warp → Warp) : (s.modWarp c k f).cores = s.cores := rfl
@[simp] theorem State.modWarp_hives (s : State) (c k : Nat) (f : Warp → Warp) : (s.modWarp c k f).hives = s.hives := rfl
@[simp] theorem State.modWarp_teams (s : State) (c k : Nat) (f : Warp → Warp) : (s.modWarp c k f).teams = s.teams := rfl
@[simp] theorem State.modWarp_l2tlb (s : State) (c k : Nat) (f : Warp → Warp) : (s.modWarp c k f).l2tlb = s.l2tlb := rfl
@[simp] theorem State.modWarp_walkCache (s : State) (c k : Nat) (f : Warp → Warp) : (s.modWarp c k f).walkCache = s.walkCache := rfl
@[simp] theorem State.modWarp_stalls (s : State) (c k : Nat) (f : Warp → Warp) : (s.modWarp c k f).stalls = s.stalls := rfl
@[simp] theorem State.modWarp_heldReq (s : State) (c k : Nat) (f : Warp → Warp) : (s.modWarp c k f).heldReq = s.heldReq := rfl
@[simp] theorem State.modWarp_spillQ (s : State) (c k : Nat) (f : Warp → Warp) : (s.modWarp c k f).spillQ = s.spillQ := rfl
@[simp] theorem State.modWarp_engineQ (s : State) (c k : Nat) (f : Warp → Warp) : (s.modWarp c k f).engineQ = s.engineQ := rfl
@[simp] theorem State.modWarp_loads (s : State) (c k : Nat) (f : Warp → Warp) : (s.modWarp c k f).loads = s.loads := rfl
@[simp] theorem State.modWarp_stores (s : State) (c k : Nat) (f : Warp → Warp) : (s.modWarp c k f).stores = s.stores := rfl
@[simp] theorem State.modWarp_atomics (s : State) (c k : Nat) (f : Warp → Warp) : (s.modWarp c k f).atomics = s.atomics := rfl
@[simp] theorem State.modWarp_orphans (s : State) (c k : Nat) (f : Warp → Warp) : (s.modWarp c k f).orphans = s.orphans := rfl
@[simp] theorem State.modWarp_screens (s : State) (c k : Nat) (f : Warp → Warp) : (s.modWarp c k f).screens = s.screens := rfl
@[simp] theorem State.modWarp_pend (s : State) (c k : Nat) (f : Warp → Warp) : (s.modWarp c k f).pend = s.pend := rfl
@[simp] theorem State.modWarp_slabs (s : State) (c k : Nat) (f : Warp → Warp) : (s.modWarp c k f).slabs = s.slabs := rfl
@[simp] theorem State.modWarp_posted (s : State) (c k : Nat) (f : Warp → Warp) : (s.modWarp c k f).posted = s.posted := rfl
@[simp] theorem State.modWarp_gathers (s : State) (c k : Nat) (f : Warp → Warp) : (s.modWarp c k f).gathers = s.gathers := rfl
@[simp] theorem State.modWarp_coll (s : State) (c k : Nat) (f : Warp → Warp) : (s.modWarp c k f).coll = s.coll := rfl
@[simp] theorem State.modWarp_grids (s : State) (c k : Nat) (f : Warp → Warp) : (s.modWarp c k f).grids = s.grids := rfl
@[simp] theorem State.modWarp_contexts (s : State) (c k : Nat) (f : Warp → Warp) : (s.modWarp c k f).contexts = s.contexts := rfl
@[simp] theorem State.modWarp_parts (s : State) (c k : Nat) (f : Warp → Warp) : (s.modWarp c k f).parts = s.parts := rfl
@[simp] theorem State.modWarp_pkgQ (s : State) (c k : Nat) (f : Warp → Warp) : (s.modWarp c k f).pkgQ = s.pkgQ := rfl
@[simp] theorem State.modWarp_dieQ (s : State) (c k : Nat) (f : Warp → Warp) : (s.modWarp c k f).dieQ = s.dieQ := rfl
@[simp] theorem State.modWarp_fitWait (s : State) (c k : Nat) (f : Warp → Warp) : (s.modWarp c k f).fitWait = s.fitWait := rfl
@[simp] theorem State.modWarp_buckets (s : State) (c k : Nat) (f : Warp → Warp) : (s.modWarp c k f).buckets = s.buckets := rfl
@[simp] theorem State.modWarp_hearths (s : State) (c k : Nat) (f : Warp → Warp) : (s.modWarp c k f).hearths = s.hearths := rfl
@[simp] theorem State.modWarp_stoves (s : State) (c k : Nat) (f : Warp → Warp) : (s.modWarp c k f).stoves = s.stoves := rfl
@[simp] theorem State.modWarp_mailboxes (s : State) (c k : Nat) (f : Warp → Warp) : (s.modWarp c k f).mailboxes = s.mailboxes := rfl
@[simp] theorem State.modWarp_mboxOrder (s : State) (c k : Nat) (f : Warp → Warp) : (s.modWarp c k f).mboxOrder = s.mboxOrder := rfl
@[simp] theorem State.modWarp_f0Run (s : State) (c k : Nat) (f : Warp → Warp) : (s.modWarp c k f).f0Run = s.f0Run := rfl
@[simp] theorem State.modWarp_mboxCur (s : State) (c k : Nat) (f : Warp → Warp) : (s.modWarp c k f).mboxCur = s.mboxCur := rfl
@[simp] theorem State.modWarp_hvLog (s : State) (c k : Nat) (f : Warp → Warp) : (s.modWarp c k f).hvLog = s.hvLog := rfl
@[simp] theorem State.modWarp_mgmtLog (s : State) (c k : Nat) (f : Warp → Warp) : (s.modWarp c k f).mgmtLog = s.mgmtLog := rfl
@[simp] theorem State.modWarp_mgmtWraps (s : State) (c k : Nat) (f : Warp → Warp) : (s.modWarp c k f).mgmtWraps = s.mgmtWraps := rfl
@[simp] theorem State.modWarp_banks (s : State) (c k : Nat) (f : Warp → Warp) : (s.modWarp c k f).banks = s.banks := rfl
@[simp] theorem State.modWarp_traceUnits (s : State) (c k : Nat) (f : Warp → Warp) : (s.modWarp c k f).traceUnits = s.traceUnits := rfl
@[simp] theorem State.modWarp_sorica (s : State) (c k : Nat) (f : Warp → Warp) : (s.modWarp c k f).sorica = s.sorica := rfl
@[simp] theorem State.modWarp_soricaW (s : State) (c k : Nat) (f : Warp → Warp) : (s.modWarp c k f).soricaW = s.soricaW := rfl
@[simp] theorem State.modWarp_events (s : State) (c k : Nat) (f : Warp → Warp) : (s.modWarp c k f).events = s.events := rfl
@[simp] theorem State.modWarp_islands (s : State) (c k : Nat) (f : Warp → Warp) : (s.modWarp c k f).islands = s.islands := rfl
@[simp] theorem State.modWarp_volts (s : State) (c k : Nat) (f : Warp → Warp) : (s.modWarp c k f).volts = s.volts := rfl
@[simp] theorem State.modWarp_links (s : State) (c k : Nat) (f : Warp → Warp) : (s.modWarp c k f).links = s.links := rfl
@[simp] theorem State.modWarp_shadow (s : State) (c k : Nat) (f : Warp → Warp) : (s.modWarp c k f).shadow = s.shadow := rfl
@[simp] theorem State.modWarp_heartbeat (s : State) (c k : Nat) (f : Warp → Warp) : (s.modWarp c k f).heartbeat = s.heartbeat := rfl
@[simp] theorem State.modWarp_i3cReports (s : State) (c k : Nat) (f : Warp → Warp) : (s.modWarp c k f).i3cReports = s.i3cReports := rfl
@[simp] theorem State.modWarp_hostRead (s : State) (c k : Nat) (f : Warp → Warp) : (s.modWarp c k f).hostRead = s.hostRead := rfl
@[simp] theorem State.modWarp_core (s : State) (c k : Nat) (f : Warp → Warp) (y : Nat) : (s.modWarp c k f).core y = s.core y := rfl
@[simp] theorem State.modWarp_hive (s : State) (c k : Nat) (f : Warp → Warp) (y : Nat) : (s.modWarp c k f).hive y = s.hive y := rfl
@[simp] theorem State.modWarp_team? (s : State) (c k : Nat) (f : Warp → Warp) (y : Nat) : (s.modWarp c k f).team? y = s.team? y := rfl
@[simp] theorem State.modWarp_grid? (s : State) (c k : Nat) (f : Warp → Warp) (y : Nat) : (s.modWarp c k f).grid? y = s.grid? y := rfl
@[simp] theorem State.modWarp_ctx? (s : State) (c k : Nat) (f : Warp → Warp) (y : Nat) : (s.modWarp c k f).ctx? y = s.ctx? y := rfl
@[simp] theorem State.modWarp_part? (s : State) (c k : Nat) (f : Warp → Warp) (y : Nat) : (s.modWarp c k f).part? y = s.part? y := rfl
@[simp] theorem State.modWarp_hearth (s : State) (c k : Nat) (f : Warp → Warp) (y : Nat) : (s.modWarp c k f).hearth y = s.hearth y := rfl
@[simp] theorem State.modWarp_stove (s : State) (c k : Nat) (f : Warp → Warp) (y : Nat) : (s.modWarp c k f).stove y = s.stove y := rfl
@[simp] theorem State.modWarp_mailbox (s : State) (c k : Nat) (f : Warp → Warp) (y : Nat) : (s.modWarp c k f).mailbox y = s.mailbox y := rfl
@[simp] theorem State.modWarp_unit (s : State) (c k : Nat) (f : Warp → Warp) (y : Nat) : (s.modWarp c k f).unit y = s.unit y := rfl

/-! ## After `modTeam` -/

@[simp] theorem State.modTeam_agenda (s : State) (i : Nat) (f : Team → Team) : (s.modTeam i f).agenda = s.agenda := rfl
@[simp] theorem State.modTeam_cur (s : State) (i : Nat) (f : Team → Team) : (s.modTeam i f).cur = s.cur := rfl
@[simp] theorem State.modTeam_freeCtr (s : State) (i : Nat) (f : Team → Team) : (s.modTeam i f).freeCtr = s.freeCtr := rfl
@[simp] theorem State.modTeam_nextId (s : State) (i : Nat) (f : Team → Team) : (s.modTeam i f).nextId = s.nextId := rfl
@[simp] theorem State.modTeam_powered (s : State) (i : Nat) (f : Team → Team) : (s.modTeam i f).powered = s.powered := rfl
@[simp] theorem State.modTeam_bootStep (s : State) (i : Nat) (f : Team → Team) : (s.modTeam i f).bootStep = s.bootStep := rfl
@[simp] theorem State.modTeam_boots (s : State) (i : Nat) (f : Team → Team) : (s.modTeam i f).boots = s.boots := rfl
@[simp] theorem State.modTeam_measure (s : State) (i : Nat) (f : Team → Team) : (s.modTeam i f).measure = s.measure := rfl
@[simp] theorem State.modTeam_bootWindow (s : State) (i : Nat) (f : Team → Team) : (s.modTeam i f).bootWindow = s.bootWindow := rfl
@[simp] theorem State.modTeam_fuses (s : State) (i : Nat) (f : Team → Team) : (s.modTeam i f).fuses = s.fuses := rfl
@[simp] theorem State.modTeam_vclock (s : State) (i : Nat) (f : Team → Team) : (s.modTeam i f).vclock = s.vclock := rfl
@[simp] theorem State.modTeam_dclk (s : State) (i : Nat) (f : Team → Team) : (s.modTeam i f).dclk = s.dclk := rfl
@[simp] theorem State.modTeam_mem (s : State) (i : Nat) (f : Team → Team) : (s.modTeam i f).mem = s.mem := rfl
@[simp] theorem State.modTeam_synd (s : State) (i : Nat) (f : Team → Team) : (s.modTeam i f).synd = s.synd := rfl
@[simp] theorem State.modTeam_poisoned (s : State) (i : Nat) (f : Team → Team) : (s.modTeam i f).poisoned = s.poisoned := rfl
@[simp] theorem State.modTeam_homeClk (s : State) (i : Nat) (f : Team → Team) : (s.modTeam i f).homeClk = s.homeClk := rfl
@[simp] theorem State.modTeam_rel (s : State) (i : Nat) (f : Team → Team) : (s.modTeam i f).rel = s.rel := rfl
@[simp] theorem State.modTeam_rowTime (s : State) (i : Nat) (f : Team → Team) : (s.modTeam i f).rowTime = s.rowTime := rfl
@[simp] theorem State.modTeam_perms (s : State) (i : Nat) (f : Team → Team) : (s.modTeam i f).perms = s.perms := rfl
@[simp] theorem State.modTeam_hostBias (s : State) (i : Nat) (f : Team → Team) : (s.modTeam i f).hostBias = s.hostBias := rfl
@[simp] theorem State.modTeam_elision (s : State) (i : Nat) (f : Team → Team) : (s.modTeam i f).elision = s.elision := rfl
@[simp] theorem State.modTeam_unfilled (s : State) (i : Nat) (f : Team → Team) : (s.modTeam i f).unfilled = s.unfilled := rfl
@[simp] theorem State.modTeam_openRows (s : State) (i : Nat) (f : Team → Team) : (s.modTeam i f).openRows = s.openRows := rfl
@[simp] theorem State.modTeam_prechargeAt (s : State) (i : Nat) (f : Team → Team) : (s.modTeam i f).prechargeAt = s.prechargeAt := rfl
@[simp] theorem State.modTeam_wordQ (s : State) (i : Nat) (f : Team → Team) : (s.modTeam i f).wordQ = s.wordQ := rfl
@[simp] theorem State.modTeam_burstAt (s : State) (i : Nat) (f : Team → Team) : (s.modTeam i f).burstAt = s.burstAt := rfl
@[simp] theorem State.modTeam_burstRun (s : State) (i : Nat) (f : Team → Team) : (s.modTeam i f).burstRun = s.burstRun := rfl
@[simp] theorem State.modTeam_l2 (s : State) (i : Nat) (f : Team → Team) : (s.modTeam i f).l2 = s.l2 := rfl
@[simp] theorem State.modTeam_l2marks (s : State) (i : Nat) (f : Team → Team) : (s.modTeam i f).l2marks = s.l2marks := rfl
@[simp] theorem State.modTeam_sync (s : State) (i : Nat) (f : Team → Team) : (s.modTeam i f).sync = s.sync := rfl
@[simp] theorem State.modTeam_overflow (s : State) (i : Nat) (f : Team → Team) : (s.modTeam i f).overflow = s.overflow := rfl
@[simp] theorem State.modTeam_hostMem (s : State) (i : Nat) (f : Team → Team) : (s.modTeam i f).hostMem = s.hostMem := rfl
@[simp] theorem State.modTeam_hostInFlight (s : State) (i : Nat) (f : Team → Team) : (s.modTeam i f).hostInFlight = s.hostInFlight := rfl
@[simp] theorem State.modTeam_hostDeny (s : State) (i : Nat) (f : Team → Team) : (s.modTeam i f).hostDeny = s.hostDeny := rfl
@[simp] theorem State.modTeam_flips (s : State) (i : Nat) (f : Team → Team) : (s.modTeam i f).flips = s.flips := rfl
@[simp] theorem State.modTeam_cores (s : State) (i : Nat) (f : Team → Team) : (s.modTeam i f).cores = s.cores := rfl
@[simp] theorem State.modTeam_hives (s : State) (i : Nat) (f : Team → Team) : (s.modTeam i f).hives = s.hives := rfl
@[simp] theorem State.modTeam_warps (s : State) (i : Nat) (f : Team → Team) : (s.modTeam i f).warps = s.warps := rfl
@[simp] theorem State.modTeam_l2tlb (s : State) (i : Nat) (f : Team → Team) : (s.modTeam i f).l2tlb = s.l2tlb := rfl
@[simp] theorem State.modTeam_walkCache (s : State) (i : Nat) (f : Team → Team) : (s.modTeam i f).walkCache = s.walkCache := rfl
@[simp] theorem State.modTeam_stalls (s : State) (i : Nat) (f : Team → Team) : (s.modTeam i f).stalls = s.stalls := rfl
@[simp] theorem State.modTeam_heldReq (s : State) (i : Nat) (f : Team → Team) : (s.modTeam i f).heldReq = s.heldReq := rfl
@[simp] theorem State.modTeam_spillQ (s : State) (i : Nat) (f : Team → Team) : (s.modTeam i f).spillQ = s.spillQ := rfl
@[simp] theorem State.modTeam_engineQ (s : State) (i : Nat) (f : Team → Team) : (s.modTeam i f).engineQ = s.engineQ := rfl
@[simp] theorem State.modTeam_loads (s : State) (i : Nat) (f : Team → Team) : (s.modTeam i f).loads = s.loads := rfl
@[simp] theorem State.modTeam_stores (s : State) (i : Nat) (f : Team → Team) : (s.modTeam i f).stores = s.stores := rfl
@[simp] theorem State.modTeam_atomics (s : State) (i : Nat) (f : Team → Team) : (s.modTeam i f).atomics = s.atomics := rfl
@[simp] theorem State.modTeam_orphans (s : State) (i : Nat) (f : Team → Team) : (s.modTeam i f).orphans = s.orphans := rfl
@[simp] theorem State.modTeam_screens (s : State) (i : Nat) (f : Team → Team) : (s.modTeam i f).screens = s.screens := rfl
@[simp] theorem State.modTeam_pend (s : State) (i : Nat) (f : Team → Team) : (s.modTeam i f).pend = s.pend := rfl
@[simp] theorem State.modTeam_slabs (s : State) (i : Nat) (f : Team → Team) : (s.modTeam i f).slabs = s.slabs := rfl
@[simp] theorem State.modTeam_posted (s : State) (i : Nat) (f : Team → Team) : (s.modTeam i f).posted = s.posted := rfl
@[simp] theorem State.modTeam_gathers (s : State) (i : Nat) (f : Team → Team) : (s.modTeam i f).gathers = s.gathers := rfl
@[simp] theorem State.modTeam_coll (s : State) (i : Nat) (f : Team → Team) : (s.modTeam i f).coll = s.coll := rfl
@[simp] theorem State.modTeam_grids (s : State) (i : Nat) (f : Team → Team) : (s.modTeam i f).grids = s.grids := rfl
@[simp] theorem State.modTeam_contexts (s : State) (i : Nat) (f : Team → Team) : (s.modTeam i f).contexts = s.contexts := rfl
@[simp] theorem State.modTeam_parts (s : State) (i : Nat) (f : Team → Team) : (s.modTeam i f).parts = s.parts := rfl
@[simp] theorem State.modTeam_pkgQ (s : State) (i : Nat) (f : Team → Team) : (s.modTeam i f).pkgQ = s.pkgQ := rfl
@[simp] theorem State.modTeam_dieQ (s : State) (i : Nat) (f : Team → Team) : (s.modTeam i f).dieQ = s.dieQ := rfl
@[simp] theorem State.modTeam_fitWait (s : State) (i : Nat) (f : Team → Team) : (s.modTeam i f).fitWait = s.fitWait := rfl
@[simp] theorem State.modTeam_buckets (s : State) (i : Nat) (f : Team → Team) : (s.modTeam i f).buckets = s.buckets := rfl
@[simp] theorem State.modTeam_hearths (s : State) (i : Nat) (f : Team → Team) : (s.modTeam i f).hearths = s.hearths := rfl
@[simp] theorem State.modTeam_stoves (s : State) (i : Nat) (f : Team → Team) : (s.modTeam i f).stoves = s.stoves := rfl
@[simp] theorem State.modTeam_mailboxes (s : State) (i : Nat) (f : Team → Team) : (s.modTeam i f).mailboxes = s.mailboxes := rfl
@[simp] theorem State.modTeam_mboxOrder (s : State) (i : Nat) (f : Team → Team) : (s.modTeam i f).mboxOrder = s.mboxOrder := rfl
@[simp] theorem State.modTeam_f0Run (s : State) (i : Nat) (f : Team → Team) : (s.modTeam i f).f0Run = s.f0Run := rfl
@[simp] theorem State.modTeam_mboxCur (s : State) (i : Nat) (f : Team → Team) : (s.modTeam i f).mboxCur = s.mboxCur := rfl
@[simp] theorem State.modTeam_hvLog (s : State) (i : Nat) (f : Team → Team) : (s.modTeam i f).hvLog = s.hvLog := rfl
@[simp] theorem State.modTeam_mgmtLog (s : State) (i : Nat) (f : Team → Team) : (s.modTeam i f).mgmtLog = s.mgmtLog := rfl
@[simp] theorem State.modTeam_mgmtWraps (s : State) (i : Nat) (f : Team → Team) : (s.modTeam i f).mgmtWraps = s.mgmtWraps := rfl
@[simp] theorem State.modTeam_banks (s : State) (i : Nat) (f : Team → Team) : (s.modTeam i f).banks = s.banks := rfl
@[simp] theorem State.modTeam_traceUnits (s : State) (i : Nat) (f : Team → Team) : (s.modTeam i f).traceUnits = s.traceUnits := rfl
@[simp] theorem State.modTeam_sorica (s : State) (i : Nat) (f : Team → Team) : (s.modTeam i f).sorica = s.sorica := rfl
@[simp] theorem State.modTeam_soricaW (s : State) (i : Nat) (f : Team → Team) : (s.modTeam i f).soricaW = s.soricaW := rfl
@[simp] theorem State.modTeam_events (s : State) (i : Nat) (f : Team → Team) : (s.modTeam i f).events = s.events := rfl
@[simp] theorem State.modTeam_islands (s : State) (i : Nat) (f : Team → Team) : (s.modTeam i f).islands = s.islands := rfl
@[simp] theorem State.modTeam_volts (s : State) (i : Nat) (f : Team → Team) : (s.modTeam i f).volts = s.volts := rfl
@[simp] theorem State.modTeam_links (s : State) (i : Nat) (f : Team → Team) : (s.modTeam i f).links = s.links := rfl
@[simp] theorem State.modTeam_shadow (s : State) (i : Nat) (f : Team → Team) : (s.modTeam i f).shadow = s.shadow := rfl
@[simp] theorem State.modTeam_heartbeat (s : State) (i : Nat) (f : Team → Team) : (s.modTeam i f).heartbeat = s.heartbeat := rfl
@[simp] theorem State.modTeam_i3cReports (s : State) (i : Nat) (f : Team → Team) : (s.modTeam i f).i3cReports = s.i3cReports := rfl
@[simp] theorem State.modTeam_hostRead (s : State) (i : Nat) (f : Team → Team) : (s.modTeam i f).hostRead = s.hostRead := rfl
@[simp] theorem State.modTeam_core (s : State) (i : Nat) (f : Team → Team) (y : Nat) : (s.modTeam i f).core y = s.core y := rfl
@[simp] theorem State.modTeam_hive (s : State) (i : Nat) (f : Team → Team) (y : Nat) : (s.modTeam i f).hive y = s.hive y := rfl
@[simp] theorem State.modTeam_warp? (s : State) (i : Nat) (f : Team → Team) (y z : Nat) : (s.modTeam i f).warp? y z = s.warp? y z := rfl
@[simp] theorem State.modTeam_grid? (s : State) (i : Nat) (f : Team → Team) (y : Nat) : (s.modTeam i f).grid? y = s.grid? y := rfl
@[simp] theorem State.modTeam_ctx? (s : State) (i : Nat) (f : Team → Team) (y : Nat) : (s.modTeam i f).ctx? y = s.ctx? y := rfl
@[simp] theorem State.modTeam_part? (s : State) (i : Nat) (f : Team → Team) (y : Nat) : (s.modTeam i f).part? y = s.part? y := rfl
@[simp] theorem State.modTeam_hearth (s : State) (i : Nat) (f : Team → Team) (y : Nat) : (s.modTeam i f).hearth y = s.hearth y := rfl
@[simp] theorem State.modTeam_stove (s : State) (i : Nat) (f : Team → Team) (y : Nat) : (s.modTeam i f).stove y = s.stove y := rfl
@[simp] theorem State.modTeam_mailbox (s : State) (i : Nat) (f : Team → Team) (y : Nat) : (s.modTeam i f).mailbox y = s.mailbox y := rfl
@[simp] theorem State.modTeam_unit (s : State) (i : Nat) (f : Team → Team) (y : Nat) : (s.modTeam i f).unit y = s.unit y := rfl

/-! ## After `modGrid` -/

@[simp] theorem State.modGrid_agenda (s : State) (g : Nat) (f : Grid → Grid) : (s.modGrid g f).agenda = s.agenda := rfl
@[simp] theorem State.modGrid_cur (s : State) (g : Nat) (f : Grid → Grid) : (s.modGrid g f).cur = s.cur := rfl
@[simp] theorem State.modGrid_freeCtr (s : State) (g : Nat) (f : Grid → Grid) : (s.modGrid g f).freeCtr = s.freeCtr := rfl
@[simp] theorem State.modGrid_nextId (s : State) (g : Nat) (f : Grid → Grid) : (s.modGrid g f).nextId = s.nextId := rfl
@[simp] theorem State.modGrid_powered (s : State) (g : Nat) (f : Grid → Grid) : (s.modGrid g f).powered = s.powered := rfl
@[simp] theorem State.modGrid_bootStep (s : State) (g : Nat) (f : Grid → Grid) : (s.modGrid g f).bootStep = s.bootStep := rfl
@[simp] theorem State.modGrid_boots (s : State) (g : Nat) (f : Grid → Grid) : (s.modGrid g f).boots = s.boots := rfl
@[simp] theorem State.modGrid_measure (s : State) (g : Nat) (f : Grid → Grid) : (s.modGrid g f).measure = s.measure := rfl
@[simp] theorem State.modGrid_bootWindow (s : State) (g : Nat) (f : Grid → Grid) : (s.modGrid g f).bootWindow = s.bootWindow := rfl
@[simp] theorem State.modGrid_fuses (s : State) (g : Nat) (f : Grid → Grid) : (s.modGrid g f).fuses = s.fuses := rfl
@[simp] theorem State.modGrid_vclock (s : State) (g : Nat) (f : Grid → Grid) : (s.modGrid g f).vclock = s.vclock := rfl
@[simp] theorem State.modGrid_dclk (s : State) (g : Nat) (f : Grid → Grid) : (s.modGrid g f).dclk = s.dclk := rfl
@[simp] theorem State.modGrid_mem (s : State) (g : Nat) (f : Grid → Grid) : (s.modGrid g f).mem = s.mem := rfl
@[simp] theorem State.modGrid_synd (s : State) (g : Nat) (f : Grid → Grid) : (s.modGrid g f).synd = s.synd := rfl
@[simp] theorem State.modGrid_poisoned (s : State) (g : Nat) (f : Grid → Grid) : (s.modGrid g f).poisoned = s.poisoned := rfl
@[simp] theorem State.modGrid_homeClk (s : State) (g : Nat) (f : Grid → Grid) : (s.modGrid g f).homeClk = s.homeClk := rfl
@[simp] theorem State.modGrid_rel (s : State) (g : Nat) (f : Grid → Grid) : (s.modGrid g f).rel = s.rel := rfl
@[simp] theorem State.modGrid_rowTime (s : State) (g : Nat) (f : Grid → Grid) : (s.modGrid g f).rowTime = s.rowTime := rfl
@[simp] theorem State.modGrid_perms (s : State) (g : Nat) (f : Grid → Grid) : (s.modGrid g f).perms = s.perms := rfl
@[simp] theorem State.modGrid_hostBias (s : State) (g : Nat) (f : Grid → Grid) : (s.modGrid g f).hostBias = s.hostBias := rfl
@[simp] theorem State.modGrid_elision (s : State) (g : Nat) (f : Grid → Grid) : (s.modGrid g f).elision = s.elision := rfl
@[simp] theorem State.modGrid_unfilled (s : State) (g : Nat) (f : Grid → Grid) : (s.modGrid g f).unfilled = s.unfilled := rfl
@[simp] theorem State.modGrid_openRows (s : State) (g : Nat) (f : Grid → Grid) : (s.modGrid g f).openRows = s.openRows := rfl
@[simp] theorem State.modGrid_prechargeAt (s : State) (g : Nat) (f : Grid → Grid) : (s.modGrid g f).prechargeAt = s.prechargeAt := rfl
@[simp] theorem State.modGrid_wordQ (s : State) (g : Nat) (f : Grid → Grid) : (s.modGrid g f).wordQ = s.wordQ := rfl
@[simp] theorem State.modGrid_burstAt (s : State) (g : Nat) (f : Grid → Grid) : (s.modGrid g f).burstAt = s.burstAt := rfl
@[simp] theorem State.modGrid_burstRun (s : State) (g : Nat) (f : Grid → Grid) : (s.modGrid g f).burstRun = s.burstRun := rfl
@[simp] theorem State.modGrid_l2 (s : State) (g : Nat) (f : Grid → Grid) : (s.modGrid g f).l2 = s.l2 := rfl
@[simp] theorem State.modGrid_l2marks (s : State) (g : Nat) (f : Grid → Grid) : (s.modGrid g f).l2marks = s.l2marks := rfl
@[simp] theorem State.modGrid_sync (s : State) (g : Nat) (f : Grid → Grid) : (s.modGrid g f).sync = s.sync := rfl
@[simp] theorem State.modGrid_overflow (s : State) (g : Nat) (f : Grid → Grid) : (s.modGrid g f).overflow = s.overflow := rfl
@[simp] theorem State.modGrid_hostMem (s : State) (g : Nat) (f : Grid → Grid) : (s.modGrid g f).hostMem = s.hostMem := rfl
@[simp] theorem State.modGrid_hostInFlight (s : State) (g : Nat) (f : Grid → Grid) : (s.modGrid g f).hostInFlight = s.hostInFlight := rfl
@[simp] theorem State.modGrid_hostDeny (s : State) (g : Nat) (f : Grid → Grid) : (s.modGrid g f).hostDeny = s.hostDeny := rfl
@[simp] theorem State.modGrid_flips (s : State) (g : Nat) (f : Grid → Grid) : (s.modGrid g f).flips = s.flips := rfl
@[simp] theorem State.modGrid_cores (s : State) (g : Nat) (f : Grid → Grid) : (s.modGrid g f).cores = s.cores := rfl
@[simp] theorem State.modGrid_hives (s : State) (g : Nat) (f : Grid → Grid) : (s.modGrid g f).hives = s.hives := rfl
@[simp] theorem State.modGrid_warps (s : State) (g : Nat) (f : Grid → Grid) : (s.modGrid g f).warps = s.warps := rfl
@[simp] theorem State.modGrid_teams (s : State) (g : Nat) (f : Grid → Grid) : (s.modGrid g f).teams = s.teams := rfl
@[simp] theorem State.modGrid_l2tlb (s : State) (g : Nat) (f : Grid → Grid) : (s.modGrid g f).l2tlb = s.l2tlb := rfl
@[simp] theorem State.modGrid_walkCache (s : State) (g : Nat) (f : Grid → Grid) : (s.modGrid g f).walkCache = s.walkCache := rfl
@[simp] theorem State.modGrid_stalls (s : State) (g : Nat) (f : Grid → Grid) : (s.modGrid g f).stalls = s.stalls := rfl
@[simp] theorem State.modGrid_heldReq (s : State) (g : Nat) (f : Grid → Grid) : (s.modGrid g f).heldReq = s.heldReq := rfl
@[simp] theorem State.modGrid_spillQ (s : State) (g : Nat) (f : Grid → Grid) : (s.modGrid g f).spillQ = s.spillQ := rfl
@[simp] theorem State.modGrid_engineQ (s : State) (g : Nat) (f : Grid → Grid) : (s.modGrid g f).engineQ = s.engineQ := rfl
@[simp] theorem State.modGrid_loads (s : State) (g : Nat) (f : Grid → Grid) : (s.modGrid g f).loads = s.loads := rfl
@[simp] theorem State.modGrid_stores (s : State) (g : Nat) (f : Grid → Grid) : (s.modGrid g f).stores = s.stores := rfl
@[simp] theorem State.modGrid_atomics (s : State) (g : Nat) (f : Grid → Grid) : (s.modGrid g f).atomics = s.atomics := rfl
@[simp] theorem State.modGrid_orphans (s : State) (g : Nat) (f : Grid → Grid) : (s.modGrid g f).orphans = s.orphans := rfl
@[simp] theorem State.modGrid_screens (s : State) (g : Nat) (f : Grid → Grid) : (s.modGrid g f).screens = s.screens := rfl
@[simp] theorem State.modGrid_pend (s : State) (g : Nat) (f : Grid → Grid) : (s.modGrid g f).pend = s.pend := rfl
@[simp] theorem State.modGrid_slabs (s : State) (g : Nat) (f : Grid → Grid) : (s.modGrid g f).slabs = s.slabs := rfl
@[simp] theorem State.modGrid_posted (s : State) (g : Nat) (f : Grid → Grid) : (s.modGrid g f).posted = s.posted := rfl
@[simp] theorem State.modGrid_gathers (s : State) (g : Nat) (f : Grid → Grid) : (s.modGrid g f).gathers = s.gathers := rfl
@[simp] theorem State.modGrid_coll (s : State) (g : Nat) (f : Grid → Grid) : (s.modGrid g f).coll = s.coll := rfl
@[simp] theorem State.modGrid_contexts (s : State) (g : Nat) (f : Grid → Grid) : (s.modGrid g f).contexts = s.contexts := rfl
@[simp] theorem State.modGrid_parts (s : State) (g : Nat) (f : Grid → Grid) : (s.modGrid g f).parts = s.parts := rfl
@[simp] theorem State.modGrid_pkgQ (s : State) (g : Nat) (f : Grid → Grid) : (s.modGrid g f).pkgQ = s.pkgQ := rfl
@[simp] theorem State.modGrid_dieQ (s : State) (g : Nat) (f : Grid → Grid) : (s.modGrid g f).dieQ = s.dieQ := rfl
@[simp] theorem State.modGrid_fitWait (s : State) (g : Nat) (f : Grid → Grid) : (s.modGrid g f).fitWait = s.fitWait := rfl
@[simp] theorem State.modGrid_buckets (s : State) (g : Nat) (f : Grid → Grid) : (s.modGrid g f).buckets = s.buckets := rfl
@[simp] theorem State.modGrid_hearths (s : State) (g : Nat) (f : Grid → Grid) : (s.modGrid g f).hearths = s.hearths := rfl
@[simp] theorem State.modGrid_stoves (s : State) (g : Nat) (f : Grid → Grid) : (s.modGrid g f).stoves = s.stoves := rfl
@[simp] theorem State.modGrid_mailboxes (s : State) (g : Nat) (f : Grid → Grid) : (s.modGrid g f).mailboxes = s.mailboxes := rfl
@[simp] theorem State.modGrid_mboxOrder (s : State) (g : Nat) (f : Grid → Grid) : (s.modGrid g f).mboxOrder = s.mboxOrder := rfl
@[simp] theorem State.modGrid_f0Run (s : State) (g : Nat) (f : Grid → Grid) : (s.modGrid g f).f0Run = s.f0Run := rfl
@[simp] theorem State.modGrid_mboxCur (s : State) (g : Nat) (f : Grid → Grid) : (s.modGrid g f).mboxCur = s.mboxCur := rfl
@[simp] theorem State.modGrid_hvLog (s : State) (g : Nat) (f : Grid → Grid) : (s.modGrid g f).hvLog = s.hvLog := rfl
@[simp] theorem State.modGrid_mgmtLog (s : State) (g : Nat) (f : Grid → Grid) : (s.modGrid g f).mgmtLog = s.mgmtLog := rfl
@[simp] theorem State.modGrid_mgmtWraps (s : State) (g : Nat) (f : Grid → Grid) : (s.modGrid g f).mgmtWraps = s.mgmtWraps := rfl
@[simp] theorem State.modGrid_banks (s : State) (g : Nat) (f : Grid → Grid) : (s.modGrid g f).banks = s.banks := rfl
@[simp] theorem State.modGrid_traceUnits (s : State) (g : Nat) (f : Grid → Grid) : (s.modGrid g f).traceUnits = s.traceUnits := rfl
@[simp] theorem State.modGrid_sorica (s : State) (g : Nat) (f : Grid → Grid) : (s.modGrid g f).sorica = s.sorica := rfl
@[simp] theorem State.modGrid_soricaW (s : State) (g : Nat) (f : Grid → Grid) : (s.modGrid g f).soricaW = s.soricaW := rfl
@[simp] theorem State.modGrid_events (s : State) (g : Nat) (f : Grid → Grid) : (s.modGrid g f).events = s.events := rfl
@[simp] theorem State.modGrid_islands (s : State) (g : Nat) (f : Grid → Grid) : (s.modGrid g f).islands = s.islands := rfl
@[simp] theorem State.modGrid_volts (s : State) (g : Nat) (f : Grid → Grid) : (s.modGrid g f).volts = s.volts := rfl
@[simp] theorem State.modGrid_links (s : State) (g : Nat) (f : Grid → Grid) : (s.modGrid g f).links = s.links := rfl
@[simp] theorem State.modGrid_shadow (s : State) (g : Nat) (f : Grid → Grid) : (s.modGrid g f).shadow = s.shadow := rfl
@[simp] theorem State.modGrid_heartbeat (s : State) (g : Nat) (f : Grid → Grid) : (s.modGrid g f).heartbeat = s.heartbeat := rfl
@[simp] theorem State.modGrid_i3cReports (s : State) (g : Nat) (f : Grid → Grid) : (s.modGrid g f).i3cReports = s.i3cReports := rfl
@[simp] theorem State.modGrid_hostRead (s : State) (g : Nat) (f : Grid → Grid) : (s.modGrid g f).hostRead = s.hostRead := rfl
@[simp] theorem State.modGrid_core (s : State) (g : Nat) (f : Grid → Grid) (y : Nat) : (s.modGrid g f).core y = s.core y := rfl
@[simp] theorem State.modGrid_hive (s : State) (g : Nat) (f : Grid → Grid) (y : Nat) : (s.modGrid g f).hive y = s.hive y := rfl
@[simp] theorem State.modGrid_warp? (s : State) (g : Nat) (f : Grid → Grid) (y z : Nat) : (s.modGrid g f).warp? y z = s.warp? y z := rfl
@[simp] theorem State.modGrid_team? (s : State) (g : Nat) (f : Grid → Grid) (y : Nat) : (s.modGrid g f).team? y = s.team? y := rfl
@[simp] theorem State.modGrid_ctx? (s : State) (g : Nat) (f : Grid → Grid) (y : Nat) : (s.modGrid g f).ctx? y = s.ctx? y := rfl
@[simp] theorem State.modGrid_part? (s : State) (g : Nat) (f : Grid → Grid) (y : Nat) : (s.modGrid g f).part? y = s.part? y := rfl
@[simp] theorem State.modGrid_hearth (s : State) (g : Nat) (f : Grid → Grid) (y : Nat) : (s.modGrid g f).hearth y = s.hearth y := rfl
@[simp] theorem State.modGrid_stove (s : State) (g : Nat) (f : Grid → Grid) (y : Nat) : (s.modGrid g f).stove y = s.stove y := rfl
@[simp] theorem State.modGrid_mailbox (s : State) (g : Nat) (f : Grid → Grid) (y : Nat) : (s.modGrid g f).mailbox y = s.mailbox y := rfl
@[simp] theorem State.modGrid_unit (s : State) (g : Nat) (f : Grid → Grid) (y : Nat) : (s.modGrid g f).unit y = s.unit y := rfl

/-! ## After `modCtx` -/

@[simp] theorem State.modCtx_agenda (s : State) (c : Nat) (f : Context → Context) : (s.modCtx c f).agenda = s.agenda := rfl
@[simp] theorem State.modCtx_cur (s : State) (c : Nat) (f : Context → Context) : (s.modCtx c f).cur = s.cur := rfl
@[simp] theorem State.modCtx_freeCtr (s : State) (c : Nat) (f : Context → Context) : (s.modCtx c f).freeCtr = s.freeCtr := rfl
@[simp] theorem State.modCtx_nextId (s : State) (c : Nat) (f : Context → Context) : (s.modCtx c f).nextId = s.nextId := rfl
@[simp] theorem State.modCtx_powered (s : State) (c : Nat) (f : Context → Context) : (s.modCtx c f).powered = s.powered := rfl
@[simp] theorem State.modCtx_bootStep (s : State) (c : Nat) (f : Context → Context) : (s.modCtx c f).bootStep = s.bootStep := rfl
@[simp] theorem State.modCtx_boots (s : State) (c : Nat) (f : Context → Context) : (s.modCtx c f).boots = s.boots := rfl
@[simp] theorem State.modCtx_measure (s : State) (c : Nat) (f : Context → Context) : (s.modCtx c f).measure = s.measure := rfl
@[simp] theorem State.modCtx_bootWindow (s : State) (c : Nat) (f : Context → Context) : (s.modCtx c f).bootWindow = s.bootWindow := rfl
@[simp] theorem State.modCtx_fuses (s : State) (c : Nat) (f : Context → Context) : (s.modCtx c f).fuses = s.fuses := rfl
@[simp] theorem State.modCtx_vclock (s : State) (c : Nat) (f : Context → Context) : (s.modCtx c f).vclock = s.vclock := rfl
@[simp] theorem State.modCtx_dclk (s : State) (c : Nat) (f : Context → Context) : (s.modCtx c f).dclk = s.dclk := rfl
@[simp] theorem State.modCtx_mem (s : State) (c : Nat) (f : Context → Context) : (s.modCtx c f).mem = s.mem := rfl
@[simp] theorem State.modCtx_synd (s : State) (c : Nat) (f : Context → Context) : (s.modCtx c f).synd = s.synd := rfl
@[simp] theorem State.modCtx_poisoned (s : State) (c : Nat) (f : Context → Context) : (s.modCtx c f).poisoned = s.poisoned := rfl
@[simp] theorem State.modCtx_homeClk (s : State) (c : Nat) (f : Context → Context) : (s.modCtx c f).homeClk = s.homeClk := rfl
@[simp] theorem State.modCtx_rel (s : State) (c : Nat) (f : Context → Context) : (s.modCtx c f).rel = s.rel := rfl
@[simp] theorem State.modCtx_rowTime (s : State) (c : Nat) (f : Context → Context) : (s.modCtx c f).rowTime = s.rowTime := rfl
@[simp] theorem State.modCtx_perms (s : State) (c : Nat) (f : Context → Context) : (s.modCtx c f).perms = s.perms := rfl
@[simp] theorem State.modCtx_hostBias (s : State) (c : Nat) (f : Context → Context) : (s.modCtx c f).hostBias = s.hostBias := rfl
@[simp] theorem State.modCtx_elision (s : State) (c : Nat) (f : Context → Context) : (s.modCtx c f).elision = s.elision := rfl
@[simp] theorem State.modCtx_unfilled (s : State) (c : Nat) (f : Context → Context) : (s.modCtx c f).unfilled = s.unfilled := rfl
@[simp] theorem State.modCtx_openRows (s : State) (c : Nat) (f : Context → Context) : (s.modCtx c f).openRows = s.openRows := rfl
@[simp] theorem State.modCtx_prechargeAt (s : State) (c : Nat) (f : Context → Context) : (s.modCtx c f).prechargeAt = s.prechargeAt := rfl
@[simp] theorem State.modCtx_wordQ (s : State) (c : Nat) (f : Context → Context) : (s.modCtx c f).wordQ = s.wordQ := rfl
@[simp] theorem State.modCtx_burstAt (s : State) (c : Nat) (f : Context → Context) : (s.modCtx c f).burstAt = s.burstAt := rfl
@[simp] theorem State.modCtx_burstRun (s : State) (c : Nat) (f : Context → Context) : (s.modCtx c f).burstRun = s.burstRun := rfl
@[simp] theorem State.modCtx_l2 (s : State) (c : Nat) (f : Context → Context) : (s.modCtx c f).l2 = s.l2 := rfl
@[simp] theorem State.modCtx_l2marks (s : State) (c : Nat) (f : Context → Context) : (s.modCtx c f).l2marks = s.l2marks := rfl
@[simp] theorem State.modCtx_sync (s : State) (c : Nat) (f : Context → Context) : (s.modCtx c f).sync = s.sync := rfl
@[simp] theorem State.modCtx_overflow (s : State) (c : Nat) (f : Context → Context) : (s.modCtx c f).overflow = s.overflow := rfl
@[simp] theorem State.modCtx_hostMem (s : State) (c : Nat) (f : Context → Context) : (s.modCtx c f).hostMem = s.hostMem := rfl
@[simp] theorem State.modCtx_hostInFlight (s : State) (c : Nat) (f : Context → Context) : (s.modCtx c f).hostInFlight = s.hostInFlight := rfl
@[simp] theorem State.modCtx_hostDeny (s : State) (c : Nat) (f : Context → Context) : (s.modCtx c f).hostDeny = s.hostDeny := rfl
@[simp] theorem State.modCtx_flips (s : State) (c : Nat) (f : Context → Context) : (s.modCtx c f).flips = s.flips := rfl
@[simp] theorem State.modCtx_cores (s : State) (c : Nat) (f : Context → Context) : (s.modCtx c f).cores = s.cores := rfl
@[simp] theorem State.modCtx_hives (s : State) (c : Nat) (f : Context → Context) : (s.modCtx c f).hives = s.hives := rfl
@[simp] theorem State.modCtx_warps (s : State) (c : Nat) (f : Context → Context) : (s.modCtx c f).warps = s.warps := rfl
@[simp] theorem State.modCtx_teams (s : State) (c : Nat) (f : Context → Context) : (s.modCtx c f).teams = s.teams := rfl
@[simp] theorem State.modCtx_l2tlb (s : State) (c : Nat) (f : Context → Context) : (s.modCtx c f).l2tlb = s.l2tlb := rfl
@[simp] theorem State.modCtx_walkCache (s : State) (c : Nat) (f : Context → Context) : (s.modCtx c f).walkCache = s.walkCache := rfl
@[simp] theorem State.modCtx_stalls (s : State) (c : Nat) (f : Context → Context) : (s.modCtx c f).stalls = s.stalls := rfl
@[simp] theorem State.modCtx_heldReq (s : State) (c : Nat) (f : Context → Context) : (s.modCtx c f).heldReq = s.heldReq := rfl
@[simp] theorem State.modCtx_spillQ (s : State) (c : Nat) (f : Context → Context) : (s.modCtx c f).spillQ = s.spillQ := rfl
@[simp] theorem State.modCtx_engineQ (s : State) (c : Nat) (f : Context → Context) : (s.modCtx c f).engineQ = s.engineQ := rfl
@[simp] theorem State.modCtx_loads (s : State) (c : Nat) (f : Context → Context) : (s.modCtx c f).loads = s.loads := rfl
@[simp] theorem State.modCtx_stores (s : State) (c : Nat) (f : Context → Context) : (s.modCtx c f).stores = s.stores := rfl
@[simp] theorem State.modCtx_atomics (s : State) (c : Nat) (f : Context → Context) : (s.modCtx c f).atomics = s.atomics := rfl
@[simp] theorem State.modCtx_orphans (s : State) (c : Nat) (f : Context → Context) : (s.modCtx c f).orphans = s.orphans := rfl
@[simp] theorem State.modCtx_screens (s : State) (c : Nat) (f : Context → Context) : (s.modCtx c f).screens = s.screens := rfl
@[simp] theorem State.modCtx_pend (s : State) (c : Nat) (f : Context → Context) : (s.modCtx c f).pend = s.pend := rfl
@[simp] theorem State.modCtx_slabs (s : State) (c : Nat) (f : Context → Context) : (s.modCtx c f).slabs = s.slabs := rfl
@[simp] theorem State.modCtx_posted (s : State) (c : Nat) (f : Context → Context) : (s.modCtx c f).posted = s.posted := rfl
@[simp] theorem State.modCtx_gathers (s : State) (c : Nat) (f : Context → Context) : (s.modCtx c f).gathers = s.gathers := rfl
@[simp] theorem State.modCtx_coll (s : State) (c : Nat) (f : Context → Context) : (s.modCtx c f).coll = s.coll := rfl
@[simp] theorem State.modCtx_grids (s : State) (c : Nat) (f : Context → Context) : (s.modCtx c f).grids = s.grids := rfl
@[simp] theorem State.modCtx_parts (s : State) (c : Nat) (f : Context → Context) : (s.modCtx c f).parts = s.parts := rfl
@[simp] theorem State.modCtx_pkgQ (s : State) (c : Nat) (f : Context → Context) : (s.modCtx c f).pkgQ = s.pkgQ := rfl
@[simp] theorem State.modCtx_dieQ (s : State) (c : Nat) (f : Context → Context) : (s.modCtx c f).dieQ = s.dieQ := rfl
@[simp] theorem State.modCtx_fitWait (s : State) (c : Nat) (f : Context → Context) : (s.modCtx c f).fitWait = s.fitWait := rfl
@[simp] theorem State.modCtx_buckets (s : State) (c : Nat) (f : Context → Context) : (s.modCtx c f).buckets = s.buckets := rfl
@[simp] theorem State.modCtx_hearths (s : State) (c : Nat) (f : Context → Context) : (s.modCtx c f).hearths = s.hearths := rfl
@[simp] theorem State.modCtx_stoves (s : State) (c : Nat) (f : Context → Context) : (s.modCtx c f).stoves = s.stoves := rfl
@[simp] theorem State.modCtx_mailboxes (s : State) (c : Nat) (f : Context → Context) : (s.modCtx c f).mailboxes = s.mailboxes := rfl
@[simp] theorem State.modCtx_mboxOrder (s : State) (c : Nat) (f : Context → Context) : (s.modCtx c f).mboxOrder = s.mboxOrder := rfl
@[simp] theorem State.modCtx_f0Run (s : State) (c : Nat) (f : Context → Context) : (s.modCtx c f).f0Run = s.f0Run := rfl
@[simp] theorem State.modCtx_mboxCur (s : State) (c : Nat) (f : Context → Context) : (s.modCtx c f).mboxCur = s.mboxCur := rfl
@[simp] theorem State.modCtx_hvLog (s : State) (c : Nat) (f : Context → Context) : (s.modCtx c f).hvLog = s.hvLog := rfl
@[simp] theorem State.modCtx_mgmtLog (s : State) (c : Nat) (f : Context → Context) : (s.modCtx c f).mgmtLog = s.mgmtLog := rfl
@[simp] theorem State.modCtx_mgmtWraps (s : State) (c : Nat) (f : Context → Context) : (s.modCtx c f).mgmtWraps = s.mgmtWraps := rfl
@[simp] theorem State.modCtx_banks (s : State) (c : Nat) (f : Context → Context) : (s.modCtx c f).banks = s.banks := rfl
@[simp] theorem State.modCtx_traceUnits (s : State) (c : Nat) (f : Context → Context) : (s.modCtx c f).traceUnits = s.traceUnits := rfl
@[simp] theorem State.modCtx_sorica (s : State) (c : Nat) (f : Context → Context) : (s.modCtx c f).sorica = s.sorica := rfl
@[simp] theorem State.modCtx_soricaW (s : State) (c : Nat) (f : Context → Context) : (s.modCtx c f).soricaW = s.soricaW := rfl
@[simp] theorem State.modCtx_events (s : State) (c : Nat) (f : Context → Context) : (s.modCtx c f).events = s.events := rfl
@[simp] theorem State.modCtx_islands (s : State) (c : Nat) (f : Context → Context) : (s.modCtx c f).islands = s.islands := rfl
@[simp] theorem State.modCtx_volts (s : State) (c : Nat) (f : Context → Context) : (s.modCtx c f).volts = s.volts := rfl
@[simp] theorem State.modCtx_links (s : State) (c : Nat) (f : Context → Context) : (s.modCtx c f).links = s.links := rfl
@[simp] theorem State.modCtx_shadow (s : State) (c : Nat) (f : Context → Context) : (s.modCtx c f).shadow = s.shadow := rfl
@[simp] theorem State.modCtx_heartbeat (s : State) (c : Nat) (f : Context → Context) : (s.modCtx c f).heartbeat = s.heartbeat := rfl
@[simp] theorem State.modCtx_i3cReports (s : State) (c : Nat) (f : Context → Context) : (s.modCtx c f).i3cReports = s.i3cReports := rfl
@[simp] theorem State.modCtx_hostRead (s : State) (c : Nat) (f : Context → Context) : (s.modCtx c f).hostRead = s.hostRead := rfl
@[simp] theorem State.modCtx_core (s : State) (c : Nat) (f : Context → Context) (y : Nat) : (s.modCtx c f).core y = s.core y := rfl
@[simp] theorem State.modCtx_hive (s : State) (c : Nat) (f : Context → Context) (y : Nat) : (s.modCtx c f).hive y = s.hive y := rfl
@[simp] theorem State.modCtx_warp? (s : State) (c : Nat) (f : Context → Context) (y z : Nat) : (s.modCtx c f).warp? y z = s.warp? y z := rfl
@[simp] theorem State.modCtx_team? (s : State) (c : Nat) (f : Context → Context) (y : Nat) : (s.modCtx c f).team? y = s.team? y := rfl
@[simp] theorem State.modCtx_grid? (s : State) (c : Nat) (f : Context → Context) (y : Nat) : (s.modCtx c f).grid? y = s.grid? y := rfl
@[simp] theorem State.modCtx_part? (s : State) (c : Nat) (f : Context → Context) (y : Nat) : (s.modCtx c f).part? y = s.part? y := rfl
@[simp] theorem State.modCtx_hearth (s : State) (c : Nat) (f : Context → Context) (y : Nat) : (s.modCtx c f).hearth y = s.hearth y := rfl
@[simp] theorem State.modCtx_stove (s : State) (c : Nat) (f : Context → Context) (y : Nat) : (s.modCtx c f).stove y = s.stove y := rfl
@[simp] theorem State.modCtx_mailbox (s : State) (c : Nat) (f : Context → Context) (y : Nat) : (s.modCtx c f).mailbox y = s.mailbox y := rfl
@[simp] theorem State.modCtx_unit (s : State) (c : Nat) (f : Context → Context) (y : Nat) : (s.modCtx c f).unit y = s.unit y := rfl

/-! ## After `modPart` -/

@[simp] theorem State.modPart_agenda (s : State) (v : Nat) (f : Partition → Partition) : (s.modPart v f).agenda = s.agenda := rfl
@[simp] theorem State.modPart_cur (s : State) (v : Nat) (f : Partition → Partition) : (s.modPart v f).cur = s.cur := rfl
@[simp] theorem State.modPart_freeCtr (s : State) (v : Nat) (f : Partition → Partition) : (s.modPart v f).freeCtr = s.freeCtr := rfl
@[simp] theorem State.modPart_nextId (s : State) (v : Nat) (f : Partition → Partition) : (s.modPart v f).nextId = s.nextId := rfl
@[simp] theorem State.modPart_powered (s : State) (v : Nat) (f : Partition → Partition) : (s.modPart v f).powered = s.powered := rfl
@[simp] theorem State.modPart_bootStep (s : State) (v : Nat) (f : Partition → Partition) : (s.modPart v f).bootStep = s.bootStep := rfl
@[simp] theorem State.modPart_boots (s : State) (v : Nat) (f : Partition → Partition) : (s.modPart v f).boots = s.boots := rfl
@[simp] theorem State.modPart_measure (s : State) (v : Nat) (f : Partition → Partition) : (s.modPart v f).measure = s.measure := rfl
@[simp] theorem State.modPart_bootWindow (s : State) (v : Nat) (f : Partition → Partition) : (s.modPart v f).bootWindow = s.bootWindow := rfl
@[simp] theorem State.modPart_fuses (s : State) (v : Nat) (f : Partition → Partition) : (s.modPart v f).fuses = s.fuses := rfl
@[simp] theorem State.modPart_vclock (s : State) (v : Nat) (f : Partition → Partition) : (s.modPart v f).vclock = s.vclock := rfl
@[simp] theorem State.modPart_dclk (s : State) (v : Nat) (f : Partition → Partition) : (s.modPart v f).dclk = s.dclk := rfl
@[simp] theorem State.modPart_mem (s : State) (v : Nat) (f : Partition → Partition) : (s.modPart v f).mem = s.mem := rfl
@[simp] theorem State.modPart_synd (s : State) (v : Nat) (f : Partition → Partition) : (s.modPart v f).synd = s.synd := rfl
@[simp] theorem State.modPart_poisoned (s : State) (v : Nat) (f : Partition → Partition) : (s.modPart v f).poisoned = s.poisoned := rfl
@[simp] theorem State.modPart_homeClk (s : State) (v : Nat) (f : Partition → Partition) : (s.modPart v f).homeClk = s.homeClk := rfl
@[simp] theorem State.modPart_rel (s : State) (v : Nat) (f : Partition → Partition) : (s.modPart v f).rel = s.rel := rfl
@[simp] theorem State.modPart_rowTime (s : State) (v : Nat) (f : Partition → Partition) : (s.modPart v f).rowTime = s.rowTime := rfl
@[simp] theorem State.modPart_perms (s : State) (v : Nat) (f : Partition → Partition) : (s.modPart v f).perms = s.perms := rfl
@[simp] theorem State.modPart_hostBias (s : State) (v : Nat) (f : Partition → Partition) : (s.modPart v f).hostBias = s.hostBias := rfl
@[simp] theorem State.modPart_elision (s : State) (v : Nat) (f : Partition → Partition) : (s.modPart v f).elision = s.elision := rfl
@[simp] theorem State.modPart_unfilled (s : State) (v : Nat) (f : Partition → Partition) : (s.modPart v f).unfilled = s.unfilled := rfl
@[simp] theorem State.modPart_openRows (s : State) (v : Nat) (f : Partition → Partition) : (s.modPart v f).openRows = s.openRows := rfl
@[simp] theorem State.modPart_prechargeAt (s : State) (v : Nat) (f : Partition → Partition) : (s.modPart v f).prechargeAt = s.prechargeAt := rfl
@[simp] theorem State.modPart_wordQ (s : State) (v : Nat) (f : Partition → Partition) : (s.modPart v f).wordQ = s.wordQ := rfl
@[simp] theorem State.modPart_burstAt (s : State) (v : Nat) (f : Partition → Partition) : (s.modPart v f).burstAt = s.burstAt := rfl
@[simp] theorem State.modPart_burstRun (s : State) (v : Nat) (f : Partition → Partition) : (s.modPart v f).burstRun = s.burstRun := rfl
@[simp] theorem State.modPart_l2 (s : State) (v : Nat) (f : Partition → Partition) : (s.modPart v f).l2 = s.l2 := rfl
@[simp] theorem State.modPart_l2marks (s : State) (v : Nat) (f : Partition → Partition) : (s.modPart v f).l2marks = s.l2marks := rfl
@[simp] theorem State.modPart_sync (s : State) (v : Nat) (f : Partition → Partition) : (s.modPart v f).sync = s.sync := rfl
@[simp] theorem State.modPart_overflow (s : State) (v : Nat) (f : Partition → Partition) : (s.modPart v f).overflow = s.overflow := rfl
@[simp] theorem State.modPart_hostMem (s : State) (v : Nat) (f : Partition → Partition) : (s.modPart v f).hostMem = s.hostMem := rfl
@[simp] theorem State.modPart_hostInFlight (s : State) (v : Nat) (f : Partition → Partition) : (s.modPart v f).hostInFlight = s.hostInFlight := rfl
@[simp] theorem State.modPart_hostDeny (s : State) (v : Nat) (f : Partition → Partition) : (s.modPart v f).hostDeny = s.hostDeny := rfl
@[simp] theorem State.modPart_flips (s : State) (v : Nat) (f : Partition → Partition) : (s.modPart v f).flips = s.flips := rfl
@[simp] theorem State.modPart_cores (s : State) (v : Nat) (f : Partition → Partition) : (s.modPart v f).cores = s.cores := rfl
@[simp] theorem State.modPart_hives (s : State) (v : Nat) (f : Partition → Partition) : (s.modPart v f).hives = s.hives := rfl
@[simp] theorem State.modPart_warps (s : State) (v : Nat) (f : Partition → Partition) : (s.modPart v f).warps = s.warps := rfl
@[simp] theorem State.modPart_teams (s : State) (v : Nat) (f : Partition → Partition) : (s.modPart v f).teams = s.teams := rfl
@[simp] theorem State.modPart_l2tlb (s : State) (v : Nat) (f : Partition → Partition) : (s.modPart v f).l2tlb = s.l2tlb := rfl
@[simp] theorem State.modPart_walkCache (s : State) (v : Nat) (f : Partition → Partition) : (s.modPart v f).walkCache = s.walkCache := rfl
@[simp] theorem State.modPart_stalls (s : State) (v : Nat) (f : Partition → Partition) : (s.modPart v f).stalls = s.stalls := rfl
@[simp] theorem State.modPart_heldReq (s : State) (v : Nat) (f : Partition → Partition) : (s.modPart v f).heldReq = s.heldReq := rfl
@[simp] theorem State.modPart_spillQ (s : State) (v : Nat) (f : Partition → Partition) : (s.modPart v f).spillQ = s.spillQ := rfl
@[simp] theorem State.modPart_engineQ (s : State) (v : Nat) (f : Partition → Partition) : (s.modPart v f).engineQ = s.engineQ := rfl
@[simp] theorem State.modPart_loads (s : State) (v : Nat) (f : Partition → Partition) : (s.modPart v f).loads = s.loads := rfl
@[simp] theorem State.modPart_stores (s : State) (v : Nat) (f : Partition → Partition) : (s.modPart v f).stores = s.stores := rfl
@[simp] theorem State.modPart_atomics (s : State) (v : Nat) (f : Partition → Partition) : (s.modPart v f).atomics = s.atomics := rfl
@[simp] theorem State.modPart_orphans (s : State) (v : Nat) (f : Partition → Partition) : (s.modPart v f).orphans = s.orphans := rfl
@[simp] theorem State.modPart_screens (s : State) (v : Nat) (f : Partition → Partition) : (s.modPart v f).screens = s.screens := rfl
@[simp] theorem State.modPart_pend (s : State) (v : Nat) (f : Partition → Partition) : (s.modPart v f).pend = s.pend := rfl
@[simp] theorem State.modPart_slabs (s : State) (v : Nat) (f : Partition → Partition) : (s.modPart v f).slabs = s.slabs := rfl
@[simp] theorem State.modPart_posted (s : State) (v : Nat) (f : Partition → Partition) : (s.modPart v f).posted = s.posted := rfl
@[simp] theorem State.modPart_gathers (s : State) (v : Nat) (f : Partition → Partition) : (s.modPart v f).gathers = s.gathers := rfl
@[simp] theorem State.modPart_coll (s : State) (v : Nat) (f : Partition → Partition) : (s.modPart v f).coll = s.coll := rfl
@[simp] theorem State.modPart_grids (s : State) (v : Nat) (f : Partition → Partition) : (s.modPart v f).grids = s.grids := rfl
@[simp] theorem State.modPart_contexts (s : State) (v : Nat) (f : Partition → Partition) : (s.modPart v f).contexts = s.contexts := rfl
@[simp] theorem State.modPart_pkgQ (s : State) (v : Nat) (f : Partition → Partition) : (s.modPart v f).pkgQ = s.pkgQ := rfl
@[simp] theorem State.modPart_dieQ (s : State) (v : Nat) (f : Partition → Partition) : (s.modPart v f).dieQ = s.dieQ := rfl
@[simp] theorem State.modPart_fitWait (s : State) (v : Nat) (f : Partition → Partition) : (s.modPart v f).fitWait = s.fitWait := rfl
@[simp] theorem State.modPart_buckets (s : State) (v : Nat) (f : Partition → Partition) : (s.modPart v f).buckets = s.buckets := rfl
@[simp] theorem State.modPart_hearths (s : State) (v : Nat) (f : Partition → Partition) : (s.modPart v f).hearths = s.hearths := rfl
@[simp] theorem State.modPart_stoves (s : State) (v : Nat) (f : Partition → Partition) : (s.modPart v f).stoves = s.stoves := rfl
@[simp] theorem State.modPart_mailboxes (s : State) (v : Nat) (f : Partition → Partition) : (s.modPart v f).mailboxes = s.mailboxes := rfl
@[simp] theorem State.modPart_mboxOrder (s : State) (v : Nat) (f : Partition → Partition) : (s.modPart v f).mboxOrder = s.mboxOrder := rfl
@[simp] theorem State.modPart_f0Run (s : State) (v : Nat) (f : Partition → Partition) : (s.modPart v f).f0Run = s.f0Run := rfl
@[simp] theorem State.modPart_mboxCur (s : State) (v : Nat) (f : Partition → Partition) : (s.modPart v f).mboxCur = s.mboxCur := rfl
@[simp] theorem State.modPart_hvLog (s : State) (v : Nat) (f : Partition → Partition) : (s.modPart v f).hvLog = s.hvLog := rfl
@[simp] theorem State.modPart_mgmtLog (s : State) (v : Nat) (f : Partition → Partition) : (s.modPart v f).mgmtLog = s.mgmtLog := rfl
@[simp] theorem State.modPart_mgmtWraps (s : State) (v : Nat) (f : Partition → Partition) : (s.modPart v f).mgmtWraps = s.mgmtWraps := rfl
@[simp] theorem State.modPart_banks (s : State) (v : Nat) (f : Partition → Partition) : (s.modPart v f).banks = s.banks := rfl
@[simp] theorem State.modPart_traceUnits (s : State) (v : Nat) (f : Partition → Partition) : (s.modPart v f).traceUnits = s.traceUnits := rfl
@[simp] theorem State.modPart_sorica (s : State) (v : Nat) (f : Partition → Partition) : (s.modPart v f).sorica = s.sorica := rfl
@[simp] theorem State.modPart_soricaW (s : State) (v : Nat) (f : Partition → Partition) : (s.modPart v f).soricaW = s.soricaW := rfl
@[simp] theorem State.modPart_events (s : State) (v : Nat) (f : Partition → Partition) : (s.modPart v f).events = s.events := rfl
@[simp] theorem State.modPart_islands (s : State) (v : Nat) (f : Partition → Partition) : (s.modPart v f).islands = s.islands := rfl
@[simp] theorem State.modPart_volts (s : State) (v : Nat) (f : Partition → Partition) : (s.modPart v f).volts = s.volts := rfl
@[simp] theorem State.modPart_links (s : State) (v : Nat) (f : Partition → Partition) : (s.modPart v f).links = s.links := rfl
@[simp] theorem State.modPart_shadow (s : State) (v : Nat) (f : Partition → Partition) : (s.modPart v f).shadow = s.shadow := rfl
@[simp] theorem State.modPart_heartbeat (s : State) (v : Nat) (f : Partition → Partition) : (s.modPart v f).heartbeat = s.heartbeat := rfl
@[simp] theorem State.modPart_i3cReports (s : State) (v : Nat) (f : Partition → Partition) : (s.modPart v f).i3cReports = s.i3cReports := rfl
@[simp] theorem State.modPart_hostRead (s : State) (v : Nat) (f : Partition → Partition) : (s.modPart v f).hostRead = s.hostRead := rfl
@[simp] theorem State.modPart_core (s : State) (v : Nat) (f : Partition → Partition) (y : Nat) : (s.modPart v f).core y = s.core y := rfl
@[simp] theorem State.modPart_hive (s : State) (v : Nat) (f : Partition → Partition) (y : Nat) : (s.modPart v f).hive y = s.hive y := rfl
@[simp] theorem State.modPart_warp? (s : State) (v : Nat) (f : Partition → Partition) (y z : Nat) : (s.modPart v f).warp? y z = s.warp? y z := rfl
@[simp] theorem State.modPart_team? (s : State) (v : Nat) (f : Partition → Partition) (y : Nat) : (s.modPart v f).team? y = s.team? y := rfl
@[simp] theorem State.modPart_grid? (s : State) (v : Nat) (f : Partition → Partition) (y : Nat) : (s.modPart v f).grid? y = s.grid? y := rfl
@[simp] theorem State.modPart_ctx? (s : State) (v : Nat) (f : Partition → Partition) (y : Nat) : (s.modPart v f).ctx? y = s.ctx? y := rfl
@[simp] theorem State.modPart_hearth (s : State) (v : Nat) (f : Partition → Partition) (y : Nat) : (s.modPart v f).hearth y = s.hearth y := rfl
@[simp] theorem State.modPart_stove (s : State) (v : Nat) (f : Partition → Partition) (y : Nat) : (s.modPart v f).stove y = s.stove y := rfl
@[simp] theorem State.modPart_mailbox (s : State) (v : Nat) (f : Partition → Partition) (y : Nat) : (s.modPart v f).mailbox y = s.mailbox y := rfl
@[simp] theorem State.modPart_unit (s : State) (v : Nat) (f : Partition → Partition) (y : Nat) : (s.modPart v f).unit y = s.unit y := rfl

/-! ## After `modHearth` -/

@[simp] theorem State.modHearth_agenda (s : State) (k : Nat) (f : Hearth → Hearth) : (s.modHearth k f).agenda = s.agenda := rfl
@[simp] theorem State.modHearth_cur (s : State) (k : Nat) (f : Hearth → Hearth) : (s.modHearth k f).cur = s.cur := rfl
@[simp] theorem State.modHearth_freeCtr (s : State) (k : Nat) (f : Hearth → Hearth) : (s.modHearth k f).freeCtr = s.freeCtr := rfl
@[simp] theorem State.modHearth_nextId (s : State) (k : Nat) (f : Hearth → Hearth) : (s.modHearth k f).nextId = s.nextId := rfl
@[simp] theorem State.modHearth_powered (s : State) (k : Nat) (f : Hearth → Hearth) : (s.modHearth k f).powered = s.powered := rfl
@[simp] theorem State.modHearth_bootStep (s : State) (k : Nat) (f : Hearth → Hearth) : (s.modHearth k f).bootStep = s.bootStep := rfl
@[simp] theorem State.modHearth_boots (s : State) (k : Nat) (f : Hearth → Hearth) : (s.modHearth k f).boots = s.boots := rfl
@[simp] theorem State.modHearth_measure (s : State) (k : Nat) (f : Hearth → Hearth) : (s.modHearth k f).measure = s.measure := rfl
@[simp] theorem State.modHearth_bootWindow (s : State) (k : Nat) (f : Hearth → Hearth) : (s.modHearth k f).bootWindow = s.bootWindow := rfl
@[simp] theorem State.modHearth_fuses (s : State) (k : Nat) (f : Hearth → Hearth) : (s.modHearth k f).fuses = s.fuses := rfl
@[simp] theorem State.modHearth_vclock (s : State) (k : Nat) (f : Hearth → Hearth) : (s.modHearth k f).vclock = s.vclock := rfl
@[simp] theorem State.modHearth_dclk (s : State) (k : Nat) (f : Hearth → Hearth) : (s.modHearth k f).dclk = s.dclk := rfl
@[simp] theorem State.modHearth_mem (s : State) (k : Nat) (f : Hearth → Hearth) : (s.modHearth k f).mem = s.mem := rfl
@[simp] theorem State.modHearth_synd (s : State) (k : Nat) (f : Hearth → Hearth) : (s.modHearth k f).synd = s.synd := rfl
@[simp] theorem State.modHearth_poisoned (s : State) (k : Nat) (f : Hearth → Hearth) : (s.modHearth k f).poisoned = s.poisoned := rfl
@[simp] theorem State.modHearth_homeClk (s : State) (k : Nat) (f : Hearth → Hearth) : (s.modHearth k f).homeClk = s.homeClk := rfl
@[simp] theorem State.modHearth_rel (s : State) (k : Nat) (f : Hearth → Hearth) : (s.modHearth k f).rel = s.rel := rfl
@[simp] theorem State.modHearth_rowTime (s : State) (k : Nat) (f : Hearth → Hearth) : (s.modHearth k f).rowTime = s.rowTime := rfl
@[simp] theorem State.modHearth_perms (s : State) (k : Nat) (f : Hearth → Hearth) : (s.modHearth k f).perms = s.perms := rfl
@[simp] theorem State.modHearth_hostBias (s : State) (k : Nat) (f : Hearth → Hearth) : (s.modHearth k f).hostBias = s.hostBias := rfl
@[simp] theorem State.modHearth_elision (s : State) (k : Nat) (f : Hearth → Hearth) : (s.modHearth k f).elision = s.elision := rfl
@[simp] theorem State.modHearth_unfilled (s : State) (k : Nat) (f : Hearth → Hearth) : (s.modHearth k f).unfilled = s.unfilled := rfl
@[simp] theorem State.modHearth_openRows (s : State) (k : Nat) (f : Hearth → Hearth) : (s.modHearth k f).openRows = s.openRows := rfl
@[simp] theorem State.modHearth_prechargeAt (s : State) (k : Nat) (f : Hearth → Hearth) : (s.modHearth k f).prechargeAt = s.prechargeAt := rfl
@[simp] theorem State.modHearth_wordQ (s : State) (k : Nat) (f : Hearth → Hearth) : (s.modHearth k f).wordQ = s.wordQ := rfl
@[simp] theorem State.modHearth_burstAt (s : State) (k : Nat) (f : Hearth → Hearth) : (s.modHearth k f).burstAt = s.burstAt := rfl
@[simp] theorem State.modHearth_burstRun (s : State) (k : Nat) (f : Hearth → Hearth) : (s.modHearth k f).burstRun = s.burstRun := rfl
@[simp] theorem State.modHearth_l2 (s : State) (k : Nat) (f : Hearth → Hearth) : (s.modHearth k f).l2 = s.l2 := rfl
@[simp] theorem State.modHearth_l2marks (s : State) (k : Nat) (f : Hearth → Hearth) : (s.modHearth k f).l2marks = s.l2marks := rfl
@[simp] theorem State.modHearth_sync (s : State) (k : Nat) (f : Hearth → Hearth) : (s.modHearth k f).sync = s.sync := rfl
@[simp] theorem State.modHearth_overflow (s : State) (k : Nat) (f : Hearth → Hearth) : (s.modHearth k f).overflow = s.overflow := rfl
@[simp] theorem State.modHearth_hostMem (s : State) (k : Nat) (f : Hearth → Hearth) : (s.modHearth k f).hostMem = s.hostMem := rfl
@[simp] theorem State.modHearth_hostInFlight (s : State) (k : Nat) (f : Hearth → Hearth) : (s.modHearth k f).hostInFlight = s.hostInFlight := rfl
@[simp] theorem State.modHearth_hostDeny (s : State) (k : Nat) (f : Hearth → Hearth) : (s.modHearth k f).hostDeny = s.hostDeny := rfl
@[simp] theorem State.modHearth_flips (s : State) (k : Nat) (f : Hearth → Hearth) : (s.modHearth k f).flips = s.flips := rfl
@[simp] theorem State.modHearth_cores (s : State) (k : Nat) (f : Hearth → Hearth) : (s.modHearth k f).cores = s.cores := rfl
@[simp] theorem State.modHearth_hives (s : State) (k : Nat) (f : Hearth → Hearth) : (s.modHearth k f).hives = s.hives := rfl
@[simp] theorem State.modHearth_warps (s : State) (k : Nat) (f : Hearth → Hearth) : (s.modHearth k f).warps = s.warps := rfl
@[simp] theorem State.modHearth_teams (s : State) (k : Nat) (f : Hearth → Hearth) : (s.modHearth k f).teams = s.teams := rfl
@[simp] theorem State.modHearth_l2tlb (s : State) (k : Nat) (f : Hearth → Hearth) : (s.modHearth k f).l2tlb = s.l2tlb := rfl
@[simp] theorem State.modHearth_walkCache (s : State) (k : Nat) (f : Hearth → Hearth) : (s.modHearth k f).walkCache = s.walkCache := rfl
@[simp] theorem State.modHearth_stalls (s : State) (k : Nat) (f : Hearth → Hearth) : (s.modHearth k f).stalls = s.stalls := rfl
@[simp] theorem State.modHearth_heldReq (s : State) (k : Nat) (f : Hearth → Hearth) : (s.modHearth k f).heldReq = s.heldReq := rfl
@[simp] theorem State.modHearth_spillQ (s : State) (k : Nat) (f : Hearth → Hearth) : (s.modHearth k f).spillQ = s.spillQ := rfl
@[simp] theorem State.modHearth_engineQ (s : State) (k : Nat) (f : Hearth → Hearth) : (s.modHearth k f).engineQ = s.engineQ := rfl
@[simp] theorem State.modHearth_loads (s : State) (k : Nat) (f : Hearth → Hearth) : (s.modHearth k f).loads = s.loads := rfl
@[simp] theorem State.modHearth_stores (s : State) (k : Nat) (f : Hearth → Hearth) : (s.modHearth k f).stores = s.stores := rfl
@[simp] theorem State.modHearth_atomics (s : State) (k : Nat) (f : Hearth → Hearth) : (s.modHearth k f).atomics = s.atomics := rfl
@[simp] theorem State.modHearth_orphans (s : State) (k : Nat) (f : Hearth → Hearth) : (s.modHearth k f).orphans = s.orphans := rfl
@[simp] theorem State.modHearth_screens (s : State) (k : Nat) (f : Hearth → Hearth) : (s.modHearth k f).screens = s.screens := rfl
@[simp] theorem State.modHearth_pend (s : State) (k : Nat) (f : Hearth → Hearth) : (s.modHearth k f).pend = s.pend := rfl
@[simp] theorem State.modHearth_slabs (s : State) (k : Nat) (f : Hearth → Hearth) : (s.modHearth k f).slabs = s.slabs := rfl
@[simp] theorem State.modHearth_posted (s : State) (k : Nat) (f : Hearth → Hearth) : (s.modHearth k f).posted = s.posted := rfl
@[simp] theorem State.modHearth_gathers (s : State) (k : Nat) (f : Hearth → Hearth) : (s.modHearth k f).gathers = s.gathers := rfl
@[simp] theorem State.modHearth_coll (s : State) (k : Nat) (f : Hearth → Hearth) : (s.modHearth k f).coll = s.coll := rfl
@[simp] theorem State.modHearth_grids (s : State) (k : Nat) (f : Hearth → Hearth) : (s.modHearth k f).grids = s.grids := rfl
@[simp] theorem State.modHearth_contexts (s : State) (k : Nat) (f : Hearth → Hearth) : (s.modHearth k f).contexts = s.contexts := rfl
@[simp] theorem State.modHearth_parts (s : State) (k : Nat) (f : Hearth → Hearth) : (s.modHearth k f).parts = s.parts := rfl
@[simp] theorem State.modHearth_pkgQ (s : State) (k : Nat) (f : Hearth → Hearth) : (s.modHearth k f).pkgQ = s.pkgQ := rfl
@[simp] theorem State.modHearth_dieQ (s : State) (k : Nat) (f : Hearth → Hearth) : (s.modHearth k f).dieQ = s.dieQ := rfl
@[simp] theorem State.modHearth_fitWait (s : State) (k : Nat) (f : Hearth → Hearth) : (s.modHearth k f).fitWait = s.fitWait := rfl
@[simp] theorem State.modHearth_buckets (s : State) (k : Nat) (f : Hearth → Hearth) : (s.modHearth k f).buckets = s.buckets := rfl
@[simp] theorem State.modHearth_stoves (s : State) (k : Nat) (f : Hearth → Hearth) : (s.modHearth k f).stoves = s.stoves := rfl
@[simp] theorem State.modHearth_mailboxes (s : State) (k : Nat) (f : Hearth → Hearth) : (s.modHearth k f).mailboxes = s.mailboxes := rfl
@[simp] theorem State.modHearth_mboxOrder (s : State) (k : Nat) (f : Hearth → Hearth) : (s.modHearth k f).mboxOrder = s.mboxOrder := rfl
@[simp] theorem State.modHearth_f0Run (s : State) (k : Nat) (f : Hearth → Hearth) : (s.modHearth k f).f0Run = s.f0Run := rfl
@[simp] theorem State.modHearth_mboxCur (s : State) (k : Nat) (f : Hearth → Hearth) : (s.modHearth k f).mboxCur = s.mboxCur := rfl
@[simp] theorem State.modHearth_hvLog (s : State) (k : Nat) (f : Hearth → Hearth) : (s.modHearth k f).hvLog = s.hvLog := rfl
@[simp] theorem State.modHearth_mgmtLog (s : State) (k : Nat) (f : Hearth → Hearth) : (s.modHearth k f).mgmtLog = s.mgmtLog := rfl
@[simp] theorem State.modHearth_mgmtWraps (s : State) (k : Nat) (f : Hearth → Hearth) : (s.modHearth k f).mgmtWraps = s.mgmtWraps := rfl
@[simp] theorem State.modHearth_banks (s : State) (k : Nat) (f : Hearth → Hearth) : (s.modHearth k f).banks = s.banks := rfl
@[simp] theorem State.modHearth_traceUnits (s : State) (k : Nat) (f : Hearth → Hearth) : (s.modHearth k f).traceUnits = s.traceUnits := rfl
@[simp] theorem State.modHearth_sorica (s : State) (k : Nat) (f : Hearth → Hearth) : (s.modHearth k f).sorica = s.sorica := rfl
@[simp] theorem State.modHearth_soricaW (s : State) (k : Nat) (f : Hearth → Hearth) : (s.modHearth k f).soricaW = s.soricaW := rfl
@[simp] theorem State.modHearth_events (s : State) (k : Nat) (f : Hearth → Hearth) : (s.modHearth k f).events = s.events := rfl
@[simp] theorem State.modHearth_islands (s : State) (k : Nat) (f : Hearth → Hearth) : (s.modHearth k f).islands = s.islands := rfl
@[simp] theorem State.modHearth_volts (s : State) (k : Nat) (f : Hearth → Hearth) : (s.modHearth k f).volts = s.volts := rfl
@[simp] theorem State.modHearth_links (s : State) (k : Nat) (f : Hearth → Hearth) : (s.modHearth k f).links = s.links := rfl
@[simp] theorem State.modHearth_shadow (s : State) (k : Nat) (f : Hearth → Hearth) : (s.modHearth k f).shadow = s.shadow := rfl
@[simp] theorem State.modHearth_heartbeat (s : State) (k : Nat) (f : Hearth → Hearth) : (s.modHearth k f).heartbeat = s.heartbeat := rfl
@[simp] theorem State.modHearth_i3cReports (s : State) (k : Nat) (f : Hearth → Hearth) : (s.modHearth k f).i3cReports = s.i3cReports := rfl
@[simp] theorem State.modHearth_hostRead (s : State) (k : Nat) (f : Hearth → Hearth) : (s.modHearth k f).hostRead = s.hostRead := rfl
@[simp] theorem State.modHearth_core (s : State) (k : Nat) (f : Hearth → Hearth) (y : Nat) : (s.modHearth k f).core y = s.core y := rfl
@[simp] theorem State.modHearth_hive (s : State) (k : Nat) (f : Hearth → Hearth) (y : Nat) : (s.modHearth k f).hive y = s.hive y := rfl
@[simp] theorem State.modHearth_warp? (s : State) (k : Nat) (f : Hearth → Hearth) (y z : Nat) : (s.modHearth k f).warp? y z = s.warp? y z := rfl
@[simp] theorem State.modHearth_team? (s : State) (k : Nat) (f : Hearth → Hearth) (y : Nat) : (s.modHearth k f).team? y = s.team? y := rfl
@[simp] theorem State.modHearth_grid? (s : State) (k : Nat) (f : Hearth → Hearth) (y : Nat) : (s.modHearth k f).grid? y = s.grid? y := rfl
@[simp] theorem State.modHearth_ctx? (s : State) (k : Nat) (f : Hearth → Hearth) (y : Nat) : (s.modHearth k f).ctx? y = s.ctx? y := rfl
@[simp] theorem State.modHearth_part? (s : State) (k : Nat) (f : Hearth → Hearth) (y : Nat) : (s.modHearth k f).part? y = s.part? y := rfl
@[simp] theorem State.modHearth_stove (s : State) (k : Nat) (f : Hearth → Hearth) (y : Nat) : (s.modHearth k f).stove y = s.stove y := rfl
@[simp] theorem State.modHearth_mailbox (s : State) (k : Nat) (f : Hearth → Hearth) (y : Nat) : (s.modHearth k f).mailbox y = s.mailbox y := rfl
@[simp] theorem State.modHearth_unit (s : State) (k : Nat) (f : Hearth → Hearth) (y : Nat) : (s.modHearth k f).unit y = s.unit y := rfl

/-! ## After `setStove` -/

@[simp] theorem State.setStove_agenda (s : State) (k : Nat) (x : Stove) : (s.setStove k x).agenda = s.agenda := rfl
@[simp] theorem State.setStove_cur (s : State) (k : Nat) (x : Stove) : (s.setStove k x).cur = s.cur := rfl
@[simp] theorem State.setStove_freeCtr (s : State) (k : Nat) (x : Stove) : (s.setStove k x).freeCtr = s.freeCtr := rfl
@[simp] theorem State.setStove_nextId (s : State) (k : Nat) (x : Stove) : (s.setStove k x).nextId = s.nextId := rfl
@[simp] theorem State.setStove_powered (s : State) (k : Nat) (x : Stove) : (s.setStove k x).powered = s.powered := rfl
@[simp] theorem State.setStove_bootStep (s : State) (k : Nat) (x : Stove) : (s.setStove k x).bootStep = s.bootStep := rfl
@[simp] theorem State.setStove_boots (s : State) (k : Nat) (x : Stove) : (s.setStove k x).boots = s.boots := rfl
@[simp] theorem State.setStove_measure (s : State) (k : Nat) (x : Stove) : (s.setStove k x).measure = s.measure := rfl
@[simp] theorem State.setStove_bootWindow (s : State) (k : Nat) (x : Stove) : (s.setStove k x).bootWindow = s.bootWindow := rfl
@[simp] theorem State.setStove_fuses (s : State) (k : Nat) (x : Stove) : (s.setStove k x).fuses = s.fuses := rfl
@[simp] theorem State.setStove_vclock (s : State) (k : Nat) (x : Stove) : (s.setStove k x).vclock = s.vclock := rfl
@[simp] theorem State.setStove_dclk (s : State) (k : Nat) (x : Stove) : (s.setStove k x).dclk = s.dclk := rfl
@[simp] theorem State.setStove_mem (s : State) (k : Nat) (x : Stove) : (s.setStove k x).mem = s.mem := rfl
@[simp] theorem State.setStove_synd (s : State) (k : Nat) (x : Stove) : (s.setStove k x).synd = s.synd := rfl
@[simp] theorem State.setStove_poisoned (s : State) (k : Nat) (x : Stove) : (s.setStove k x).poisoned = s.poisoned := rfl
@[simp] theorem State.setStove_homeClk (s : State) (k : Nat) (x : Stove) : (s.setStove k x).homeClk = s.homeClk := rfl
@[simp] theorem State.setStove_rel (s : State) (k : Nat) (x : Stove) : (s.setStove k x).rel = s.rel := rfl
@[simp] theorem State.setStove_rowTime (s : State) (k : Nat) (x : Stove) : (s.setStove k x).rowTime = s.rowTime := rfl
@[simp] theorem State.setStove_perms (s : State) (k : Nat) (x : Stove) : (s.setStove k x).perms = s.perms := rfl
@[simp] theorem State.setStove_hostBias (s : State) (k : Nat) (x : Stove) : (s.setStove k x).hostBias = s.hostBias := rfl
@[simp] theorem State.setStove_elision (s : State) (k : Nat) (x : Stove) : (s.setStove k x).elision = s.elision := rfl
@[simp] theorem State.setStove_unfilled (s : State) (k : Nat) (x : Stove) : (s.setStove k x).unfilled = s.unfilled := rfl
@[simp] theorem State.setStove_openRows (s : State) (k : Nat) (x : Stove) : (s.setStove k x).openRows = s.openRows := rfl
@[simp] theorem State.setStove_prechargeAt (s : State) (k : Nat) (x : Stove) : (s.setStove k x).prechargeAt = s.prechargeAt := rfl
@[simp] theorem State.setStove_wordQ (s : State) (k : Nat) (x : Stove) : (s.setStove k x).wordQ = s.wordQ := rfl
@[simp] theorem State.setStove_burstAt (s : State) (k : Nat) (x : Stove) : (s.setStove k x).burstAt = s.burstAt := rfl
@[simp] theorem State.setStove_burstRun (s : State) (k : Nat) (x : Stove) : (s.setStove k x).burstRun = s.burstRun := rfl
@[simp] theorem State.setStove_l2 (s : State) (k : Nat) (x : Stove) : (s.setStove k x).l2 = s.l2 := rfl
@[simp] theorem State.setStove_l2marks (s : State) (k : Nat) (x : Stove) : (s.setStove k x).l2marks = s.l2marks := rfl
@[simp] theorem State.setStove_sync (s : State) (k : Nat) (x : Stove) : (s.setStove k x).sync = s.sync := rfl
@[simp] theorem State.setStove_overflow (s : State) (k : Nat) (x : Stove) : (s.setStove k x).overflow = s.overflow := rfl
@[simp] theorem State.setStove_hostMem (s : State) (k : Nat) (x : Stove) : (s.setStove k x).hostMem = s.hostMem := rfl
@[simp] theorem State.setStove_hostInFlight (s : State) (k : Nat) (x : Stove) : (s.setStove k x).hostInFlight = s.hostInFlight := rfl
@[simp] theorem State.setStove_hostDeny (s : State) (k : Nat) (x : Stove) : (s.setStove k x).hostDeny = s.hostDeny := rfl
@[simp] theorem State.setStove_flips (s : State) (k : Nat) (x : Stove) : (s.setStove k x).flips = s.flips := rfl
@[simp] theorem State.setStove_cores (s : State) (k : Nat) (x : Stove) : (s.setStove k x).cores = s.cores := rfl
@[simp] theorem State.setStove_hives (s : State) (k : Nat) (x : Stove) : (s.setStove k x).hives = s.hives := rfl
@[simp] theorem State.setStove_warps (s : State) (k : Nat) (x : Stove) : (s.setStove k x).warps = s.warps := rfl
@[simp] theorem State.setStove_teams (s : State) (k : Nat) (x : Stove) : (s.setStove k x).teams = s.teams := rfl
@[simp] theorem State.setStove_l2tlb (s : State) (k : Nat) (x : Stove) : (s.setStove k x).l2tlb = s.l2tlb := rfl
@[simp] theorem State.setStove_walkCache (s : State) (k : Nat) (x : Stove) : (s.setStove k x).walkCache = s.walkCache := rfl
@[simp] theorem State.setStove_stalls (s : State) (k : Nat) (x : Stove) : (s.setStove k x).stalls = s.stalls := rfl
@[simp] theorem State.setStove_heldReq (s : State) (k : Nat) (x : Stove) : (s.setStove k x).heldReq = s.heldReq := rfl
@[simp] theorem State.setStove_spillQ (s : State) (k : Nat) (x : Stove) : (s.setStove k x).spillQ = s.spillQ := rfl
@[simp] theorem State.setStove_engineQ (s : State) (k : Nat) (x : Stove) : (s.setStove k x).engineQ = s.engineQ := rfl
@[simp] theorem State.setStove_loads (s : State) (k : Nat) (x : Stove) : (s.setStove k x).loads = s.loads := rfl
@[simp] theorem State.setStove_stores (s : State) (k : Nat) (x : Stove) : (s.setStove k x).stores = s.stores := rfl
@[simp] theorem State.setStove_atomics (s : State) (k : Nat) (x : Stove) : (s.setStove k x).atomics = s.atomics := rfl
@[simp] theorem State.setStove_orphans (s : State) (k : Nat) (x : Stove) : (s.setStove k x).orphans = s.orphans := rfl
@[simp] theorem State.setStove_screens (s : State) (k : Nat) (x : Stove) : (s.setStove k x).screens = s.screens := rfl
@[simp] theorem State.setStove_pend (s : State) (k : Nat) (x : Stove) : (s.setStove k x).pend = s.pend := rfl
@[simp] theorem State.setStove_slabs (s : State) (k : Nat) (x : Stove) : (s.setStove k x).slabs = s.slabs := rfl
@[simp] theorem State.setStove_posted (s : State) (k : Nat) (x : Stove) : (s.setStove k x).posted = s.posted := rfl
@[simp] theorem State.setStove_gathers (s : State) (k : Nat) (x : Stove) : (s.setStove k x).gathers = s.gathers := rfl
@[simp] theorem State.setStove_coll (s : State) (k : Nat) (x : Stove) : (s.setStove k x).coll = s.coll := rfl
@[simp] theorem State.setStove_grids (s : State) (k : Nat) (x : Stove) : (s.setStove k x).grids = s.grids := rfl
@[simp] theorem State.setStove_contexts (s : State) (k : Nat) (x : Stove) : (s.setStove k x).contexts = s.contexts := rfl
@[simp] theorem State.setStove_parts (s : State) (k : Nat) (x : Stove) : (s.setStove k x).parts = s.parts := rfl
@[simp] theorem State.setStove_pkgQ (s : State) (k : Nat) (x : Stove) : (s.setStove k x).pkgQ = s.pkgQ := rfl
@[simp] theorem State.setStove_dieQ (s : State) (k : Nat) (x : Stove) : (s.setStove k x).dieQ = s.dieQ := rfl
@[simp] theorem State.setStove_fitWait (s : State) (k : Nat) (x : Stove) : (s.setStove k x).fitWait = s.fitWait := rfl
@[simp] theorem State.setStove_buckets (s : State) (k : Nat) (x : Stove) : (s.setStove k x).buckets = s.buckets := rfl
@[simp] theorem State.setStove_hearths (s : State) (k : Nat) (x : Stove) : (s.setStove k x).hearths = s.hearths := rfl
@[simp] theorem State.setStove_mailboxes (s : State) (k : Nat) (x : Stove) : (s.setStove k x).mailboxes = s.mailboxes := rfl
@[simp] theorem State.setStove_mboxOrder (s : State) (k : Nat) (x : Stove) : (s.setStove k x).mboxOrder = s.mboxOrder := rfl
@[simp] theorem State.setStove_f0Run (s : State) (k : Nat) (x : Stove) : (s.setStove k x).f0Run = s.f0Run := rfl
@[simp] theorem State.setStove_mboxCur (s : State) (k : Nat) (x : Stove) : (s.setStove k x).mboxCur = s.mboxCur := rfl
@[simp] theorem State.setStove_hvLog (s : State) (k : Nat) (x : Stove) : (s.setStove k x).hvLog = s.hvLog := rfl
@[simp] theorem State.setStove_mgmtLog (s : State) (k : Nat) (x : Stove) : (s.setStove k x).mgmtLog = s.mgmtLog := rfl
@[simp] theorem State.setStove_mgmtWraps (s : State) (k : Nat) (x : Stove) : (s.setStove k x).mgmtWraps = s.mgmtWraps := rfl
@[simp] theorem State.setStove_banks (s : State) (k : Nat) (x : Stove) : (s.setStove k x).banks = s.banks := rfl
@[simp] theorem State.setStove_traceUnits (s : State) (k : Nat) (x : Stove) : (s.setStove k x).traceUnits = s.traceUnits := rfl
@[simp] theorem State.setStove_sorica (s : State) (k : Nat) (x : Stove) : (s.setStove k x).sorica = s.sorica := rfl
@[simp] theorem State.setStove_soricaW (s : State) (k : Nat) (x : Stove) : (s.setStove k x).soricaW = s.soricaW := rfl
@[simp] theorem State.setStove_events (s : State) (k : Nat) (x : Stove) : (s.setStove k x).events = s.events := rfl
@[simp] theorem State.setStove_islands (s : State) (k : Nat) (x : Stove) : (s.setStove k x).islands = s.islands := rfl
@[simp] theorem State.setStove_volts (s : State) (k : Nat) (x : Stove) : (s.setStove k x).volts = s.volts := rfl
@[simp] theorem State.setStove_links (s : State) (k : Nat) (x : Stove) : (s.setStove k x).links = s.links := rfl
@[simp] theorem State.setStove_shadow (s : State) (k : Nat) (x : Stove) : (s.setStove k x).shadow = s.shadow := rfl
@[simp] theorem State.setStove_heartbeat (s : State) (k : Nat) (x : Stove) : (s.setStove k x).heartbeat = s.heartbeat := rfl
@[simp] theorem State.setStove_i3cReports (s : State) (k : Nat) (x : Stove) : (s.setStove k x).i3cReports = s.i3cReports := rfl
@[simp] theorem State.setStove_hostRead (s : State) (k : Nat) (x : Stove) : (s.setStove k x).hostRead = s.hostRead := rfl
@[simp] theorem State.setStove_core (s : State) (k : Nat) (x : Stove) (y : Nat) : (s.setStove k x).core y = s.core y := rfl
@[simp] theorem State.setStove_hive (s : State) (k : Nat) (x : Stove) (y : Nat) : (s.setStove k x).hive y = s.hive y := rfl
@[simp] theorem State.setStove_warp? (s : State) (k : Nat) (x : Stove) (y z : Nat) : (s.setStove k x).warp? y z = s.warp? y z := rfl
@[simp] theorem State.setStove_team? (s : State) (k : Nat) (x : Stove) (y : Nat) : (s.setStove k x).team? y = s.team? y := rfl
@[simp] theorem State.setStove_grid? (s : State) (k : Nat) (x : Stove) (y : Nat) : (s.setStove k x).grid? y = s.grid? y := rfl
@[simp] theorem State.setStove_ctx? (s : State) (k : Nat) (x : Stove) (y : Nat) : (s.setStove k x).ctx? y = s.ctx? y := rfl
@[simp] theorem State.setStove_part? (s : State) (k : Nat) (x : Stove) (y : Nat) : (s.setStove k x).part? y = s.part? y := rfl
@[simp] theorem State.setStove_hearth (s : State) (k : Nat) (x : Stove) (y : Nat) : (s.setStove k x).hearth y = s.hearth y := rfl
@[simp] theorem State.setStove_mailbox (s : State) (k : Nat) (x : Stove) (y : Nat) : (s.setStove k x).mailbox y = s.mailbox y := rfl
@[simp] theorem State.setStove_unit (s : State) (k : Nat) (x : Stove) (y : Nat) : (s.setStove k x).unit y = s.unit y := rfl

/-! ## After `modMailbox` -/

@[simp] theorem State.modMailbox_agenda (s : State) (n : Nat) (f : Mailbox → Mailbox) : (s.modMailbox n f).agenda = s.agenda := rfl
@[simp] theorem State.modMailbox_cur (s : State) (n : Nat) (f : Mailbox → Mailbox) : (s.modMailbox n f).cur = s.cur := rfl
@[simp] theorem State.modMailbox_freeCtr (s : State) (n : Nat) (f : Mailbox → Mailbox) : (s.modMailbox n f).freeCtr = s.freeCtr := rfl
@[simp] theorem State.modMailbox_nextId (s : State) (n : Nat) (f : Mailbox → Mailbox) : (s.modMailbox n f).nextId = s.nextId := rfl
@[simp] theorem State.modMailbox_powered (s : State) (n : Nat) (f : Mailbox → Mailbox) : (s.modMailbox n f).powered = s.powered := rfl
@[simp] theorem State.modMailbox_bootStep (s : State) (n : Nat) (f : Mailbox → Mailbox) : (s.modMailbox n f).bootStep = s.bootStep := rfl
@[simp] theorem State.modMailbox_boots (s : State) (n : Nat) (f : Mailbox → Mailbox) : (s.modMailbox n f).boots = s.boots := rfl
@[simp] theorem State.modMailbox_measure (s : State) (n : Nat) (f : Mailbox → Mailbox) : (s.modMailbox n f).measure = s.measure := rfl
@[simp] theorem State.modMailbox_bootWindow (s : State) (n : Nat) (f : Mailbox → Mailbox) : (s.modMailbox n f).bootWindow = s.bootWindow := rfl
@[simp] theorem State.modMailbox_fuses (s : State) (n : Nat) (f : Mailbox → Mailbox) : (s.modMailbox n f).fuses = s.fuses := rfl
@[simp] theorem State.modMailbox_vclock (s : State) (n : Nat) (f : Mailbox → Mailbox) : (s.modMailbox n f).vclock = s.vclock := rfl
@[simp] theorem State.modMailbox_dclk (s : State) (n : Nat) (f : Mailbox → Mailbox) : (s.modMailbox n f).dclk = s.dclk := rfl
@[simp] theorem State.modMailbox_mem (s : State) (n : Nat) (f : Mailbox → Mailbox) : (s.modMailbox n f).mem = s.mem := rfl
@[simp] theorem State.modMailbox_synd (s : State) (n : Nat) (f : Mailbox → Mailbox) : (s.modMailbox n f).synd = s.synd := rfl
@[simp] theorem State.modMailbox_poisoned (s : State) (n : Nat) (f : Mailbox → Mailbox) : (s.modMailbox n f).poisoned = s.poisoned := rfl
@[simp] theorem State.modMailbox_homeClk (s : State) (n : Nat) (f : Mailbox → Mailbox) : (s.modMailbox n f).homeClk = s.homeClk := rfl
@[simp] theorem State.modMailbox_rel (s : State) (n : Nat) (f : Mailbox → Mailbox) : (s.modMailbox n f).rel = s.rel := rfl
@[simp] theorem State.modMailbox_rowTime (s : State) (n : Nat) (f : Mailbox → Mailbox) : (s.modMailbox n f).rowTime = s.rowTime := rfl
@[simp] theorem State.modMailbox_perms (s : State) (n : Nat) (f : Mailbox → Mailbox) : (s.modMailbox n f).perms = s.perms := rfl
@[simp] theorem State.modMailbox_hostBias (s : State) (n : Nat) (f : Mailbox → Mailbox) : (s.modMailbox n f).hostBias = s.hostBias := rfl
@[simp] theorem State.modMailbox_elision (s : State) (n : Nat) (f : Mailbox → Mailbox) : (s.modMailbox n f).elision = s.elision := rfl
@[simp] theorem State.modMailbox_unfilled (s : State) (n : Nat) (f : Mailbox → Mailbox) : (s.modMailbox n f).unfilled = s.unfilled := rfl
@[simp] theorem State.modMailbox_openRows (s : State) (n : Nat) (f : Mailbox → Mailbox) : (s.modMailbox n f).openRows = s.openRows := rfl
@[simp] theorem State.modMailbox_prechargeAt (s : State) (n : Nat) (f : Mailbox → Mailbox) : (s.modMailbox n f).prechargeAt = s.prechargeAt := rfl
@[simp] theorem State.modMailbox_wordQ (s : State) (n : Nat) (f : Mailbox → Mailbox) : (s.modMailbox n f).wordQ = s.wordQ := rfl
@[simp] theorem State.modMailbox_burstAt (s : State) (n : Nat) (f : Mailbox → Mailbox) : (s.modMailbox n f).burstAt = s.burstAt := rfl
@[simp] theorem State.modMailbox_burstRun (s : State) (n : Nat) (f : Mailbox → Mailbox) : (s.modMailbox n f).burstRun = s.burstRun := rfl
@[simp] theorem State.modMailbox_l2 (s : State) (n : Nat) (f : Mailbox → Mailbox) : (s.modMailbox n f).l2 = s.l2 := rfl
@[simp] theorem State.modMailbox_l2marks (s : State) (n : Nat) (f : Mailbox → Mailbox) : (s.modMailbox n f).l2marks = s.l2marks := rfl
@[simp] theorem State.modMailbox_sync (s : State) (n : Nat) (f : Mailbox → Mailbox) : (s.modMailbox n f).sync = s.sync := rfl
@[simp] theorem State.modMailbox_overflow (s : State) (n : Nat) (f : Mailbox → Mailbox) : (s.modMailbox n f).overflow = s.overflow := rfl
@[simp] theorem State.modMailbox_hostMem (s : State) (n : Nat) (f : Mailbox → Mailbox) : (s.modMailbox n f).hostMem = s.hostMem := rfl
@[simp] theorem State.modMailbox_hostInFlight (s : State) (n : Nat) (f : Mailbox → Mailbox) : (s.modMailbox n f).hostInFlight = s.hostInFlight := rfl
@[simp] theorem State.modMailbox_hostDeny (s : State) (n : Nat) (f : Mailbox → Mailbox) : (s.modMailbox n f).hostDeny = s.hostDeny := rfl
@[simp] theorem State.modMailbox_flips (s : State) (n : Nat) (f : Mailbox → Mailbox) : (s.modMailbox n f).flips = s.flips := rfl
@[simp] theorem State.modMailbox_cores (s : State) (n : Nat) (f : Mailbox → Mailbox) : (s.modMailbox n f).cores = s.cores := rfl
@[simp] theorem State.modMailbox_hives (s : State) (n : Nat) (f : Mailbox → Mailbox) : (s.modMailbox n f).hives = s.hives := rfl
@[simp] theorem State.modMailbox_warps (s : State) (n : Nat) (f : Mailbox → Mailbox) : (s.modMailbox n f).warps = s.warps := rfl
@[simp] theorem State.modMailbox_teams (s : State) (n : Nat) (f : Mailbox → Mailbox) : (s.modMailbox n f).teams = s.teams := rfl
@[simp] theorem State.modMailbox_l2tlb (s : State) (n : Nat) (f : Mailbox → Mailbox) : (s.modMailbox n f).l2tlb = s.l2tlb := rfl
@[simp] theorem State.modMailbox_walkCache (s : State) (n : Nat) (f : Mailbox → Mailbox) : (s.modMailbox n f).walkCache = s.walkCache := rfl
@[simp] theorem State.modMailbox_stalls (s : State) (n : Nat) (f : Mailbox → Mailbox) : (s.modMailbox n f).stalls = s.stalls := rfl
@[simp] theorem State.modMailbox_heldReq (s : State) (n : Nat) (f : Mailbox → Mailbox) : (s.modMailbox n f).heldReq = s.heldReq := rfl
@[simp] theorem State.modMailbox_spillQ (s : State) (n : Nat) (f : Mailbox → Mailbox) : (s.modMailbox n f).spillQ = s.spillQ := rfl
@[simp] theorem State.modMailbox_engineQ (s : State) (n : Nat) (f : Mailbox → Mailbox) : (s.modMailbox n f).engineQ = s.engineQ := rfl
@[simp] theorem State.modMailbox_loads (s : State) (n : Nat) (f : Mailbox → Mailbox) : (s.modMailbox n f).loads = s.loads := rfl
@[simp] theorem State.modMailbox_stores (s : State) (n : Nat) (f : Mailbox → Mailbox) : (s.modMailbox n f).stores = s.stores := rfl
@[simp] theorem State.modMailbox_atomics (s : State) (n : Nat) (f : Mailbox → Mailbox) : (s.modMailbox n f).atomics = s.atomics := rfl
@[simp] theorem State.modMailbox_orphans (s : State) (n : Nat) (f : Mailbox → Mailbox) : (s.modMailbox n f).orphans = s.orphans := rfl
@[simp] theorem State.modMailbox_screens (s : State) (n : Nat) (f : Mailbox → Mailbox) : (s.modMailbox n f).screens = s.screens := rfl
@[simp] theorem State.modMailbox_pend (s : State) (n : Nat) (f : Mailbox → Mailbox) : (s.modMailbox n f).pend = s.pend := rfl
@[simp] theorem State.modMailbox_slabs (s : State) (n : Nat) (f : Mailbox → Mailbox) : (s.modMailbox n f).slabs = s.slabs := rfl
@[simp] theorem State.modMailbox_posted (s : State) (n : Nat) (f : Mailbox → Mailbox) : (s.modMailbox n f).posted = s.posted := rfl
@[simp] theorem State.modMailbox_gathers (s : State) (n : Nat) (f : Mailbox → Mailbox) : (s.modMailbox n f).gathers = s.gathers := rfl
@[simp] theorem State.modMailbox_coll (s : State) (n : Nat) (f : Mailbox → Mailbox) : (s.modMailbox n f).coll = s.coll := rfl
@[simp] theorem State.modMailbox_grids (s : State) (n : Nat) (f : Mailbox → Mailbox) : (s.modMailbox n f).grids = s.grids := rfl
@[simp] theorem State.modMailbox_contexts (s : State) (n : Nat) (f : Mailbox → Mailbox) : (s.modMailbox n f).contexts = s.contexts := rfl
@[simp] theorem State.modMailbox_parts (s : State) (n : Nat) (f : Mailbox → Mailbox) : (s.modMailbox n f).parts = s.parts := rfl
@[simp] theorem State.modMailbox_pkgQ (s : State) (n : Nat) (f : Mailbox → Mailbox) : (s.modMailbox n f).pkgQ = s.pkgQ := rfl
@[simp] theorem State.modMailbox_dieQ (s : State) (n : Nat) (f : Mailbox → Mailbox) : (s.modMailbox n f).dieQ = s.dieQ := rfl
@[simp] theorem State.modMailbox_fitWait (s : State) (n : Nat) (f : Mailbox → Mailbox) : (s.modMailbox n f).fitWait = s.fitWait := rfl
@[simp] theorem State.modMailbox_buckets (s : State) (n : Nat) (f : Mailbox → Mailbox) : (s.modMailbox n f).buckets = s.buckets := rfl
@[simp] theorem State.modMailbox_hearths (s : State) (n : Nat) (f : Mailbox → Mailbox) : (s.modMailbox n f).hearths = s.hearths := rfl
@[simp] theorem State.modMailbox_stoves (s : State) (n : Nat) (f : Mailbox → Mailbox) : (s.modMailbox n f).stoves = s.stoves := rfl
@[simp] theorem State.modMailbox_mboxOrder (s : State) (n : Nat) (f : Mailbox → Mailbox) : (s.modMailbox n f).mboxOrder = s.mboxOrder := rfl
@[simp] theorem State.modMailbox_f0Run (s : State) (n : Nat) (f : Mailbox → Mailbox) : (s.modMailbox n f).f0Run = s.f0Run := rfl
@[simp] theorem State.modMailbox_mboxCur (s : State) (n : Nat) (f : Mailbox → Mailbox) : (s.modMailbox n f).mboxCur = s.mboxCur := rfl
@[simp] theorem State.modMailbox_hvLog (s : State) (n : Nat) (f : Mailbox → Mailbox) : (s.modMailbox n f).hvLog = s.hvLog := rfl
@[simp] theorem State.modMailbox_mgmtLog (s : State) (n : Nat) (f : Mailbox → Mailbox) : (s.modMailbox n f).mgmtLog = s.mgmtLog := rfl
@[simp] theorem State.modMailbox_mgmtWraps (s : State) (n : Nat) (f : Mailbox → Mailbox) : (s.modMailbox n f).mgmtWraps = s.mgmtWraps := rfl
@[simp] theorem State.modMailbox_banks (s : State) (n : Nat) (f : Mailbox → Mailbox) : (s.modMailbox n f).banks = s.banks := rfl
@[simp] theorem State.modMailbox_traceUnits (s : State) (n : Nat) (f : Mailbox → Mailbox) : (s.modMailbox n f).traceUnits = s.traceUnits := rfl
@[simp] theorem State.modMailbox_sorica (s : State) (n : Nat) (f : Mailbox → Mailbox) : (s.modMailbox n f).sorica = s.sorica := rfl
@[simp] theorem State.modMailbox_soricaW (s : State) (n : Nat) (f : Mailbox → Mailbox) : (s.modMailbox n f).soricaW = s.soricaW := rfl
@[simp] theorem State.modMailbox_events (s : State) (n : Nat) (f : Mailbox → Mailbox) : (s.modMailbox n f).events = s.events := rfl
@[simp] theorem State.modMailbox_islands (s : State) (n : Nat) (f : Mailbox → Mailbox) : (s.modMailbox n f).islands = s.islands := rfl
@[simp] theorem State.modMailbox_volts (s : State) (n : Nat) (f : Mailbox → Mailbox) : (s.modMailbox n f).volts = s.volts := rfl
@[simp] theorem State.modMailbox_links (s : State) (n : Nat) (f : Mailbox → Mailbox) : (s.modMailbox n f).links = s.links := rfl
@[simp] theorem State.modMailbox_shadow (s : State) (n : Nat) (f : Mailbox → Mailbox) : (s.modMailbox n f).shadow = s.shadow := rfl
@[simp] theorem State.modMailbox_heartbeat (s : State) (n : Nat) (f : Mailbox → Mailbox) : (s.modMailbox n f).heartbeat = s.heartbeat := rfl
@[simp] theorem State.modMailbox_i3cReports (s : State) (n : Nat) (f : Mailbox → Mailbox) : (s.modMailbox n f).i3cReports = s.i3cReports := rfl
@[simp] theorem State.modMailbox_hostRead (s : State) (n : Nat) (f : Mailbox → Mailbox) : (s.modMailbox n f).hostRead = s.hostRead := rfl
@[simp] theorem State.modMailbox_core (s : State) (n : Nat) (f : Mailbox → Mailbox) (y : Nat) : (s.modMailbox n f).core y = s.core y := rfl
@[simp] theorem State.modMailbox_hive (s : State) (n : Nat) (f : Mailbox → Mailbox) (y : Nat) : (s.modMailbox n f).hive y = s.hive y := rfl
@[simp] theorem State.modMailbox_warp? (s : State) (n : Nat) (f : Mailbox → Mailbox) (y z : Nat) : (s.modMailbox n f).warp? y z = s.warp? y z := rfl
@[simp] theorem State.modMailbox_team? (s : State) (n : Nat) (f : Mailbox → Mailbox) (y : Nat) : (s.modMailbox n f).team? y = s.team? y := rfl
@[simp] theorem State.modMailbox_grid? (s : State) (n : Nat) (f : Mailbox → Mailbox) (y : Nat) : (s.modMailbox n f).grid? y = s.grid? y := rfl
@[simp] theorem State.modMailbox_ctx? (s : State) (n : Nat) (f : Mailbox → Mailbox) (y : Nat) : (s.modMailbox n f).ctx? y = s.ctx? y := rfl
@[simp] theorem State.modMailbox_part? (s : State) (n : Nat) (f : Mailbox → Mailbox) (y : Nat) : (s.modMailbox n f).part? y = s.part? y := rfl
@[simp] theorem State.modMailbox_hearth (s : State) (n : Nat) (f : Mailbox → Mailbox) (y : Nat) : (s.modMailbox n f).hearth y = s.hearth y := rfl
@[simp] theorem State.modMailbox_stove (s : State) (n : Nat) (f : Mailbox → Mailbox) (y : Nat) : (s.modMailbox n f).stove y = s.stove y := rfl
@[simp] theorem State.modMailbox_unit (s : State) (n : Nat) (f : Mailbox → Mailbox) (y : Nat) : (s.modMailbox n f).unit y = s.unit y := rfl

/-! ## After `modUnit` -/

@[simp] theorem State.modUnit_agenda (s : State) (u : Nat) (f : TraceUnit → TraceUnit) : (s.modUnit u f).agenda = s.agenda := rfl
@[simp] theorem State.modUnit_cur (s : State) (u : Nat) (f : TraceUnit → TraceUnit) : (s.modUnit u f).cur = s.cur := rfl
@[simp] theorem State.modUnit_freeCtr (s : State) (u : Nat) (f : TraceUnit → TraceUnit) : (s.modUnit u f).freeCtr = s.freeCtr := rfl
@[simp] theorem State.modUnit_nextId (s : State) (u : Nat) (f : TraceUnit → TraceUnit) : (s.modUnit u f).nextId = s.nextId := rfl
@[simp] theorem State.modUnit_powered (s : State) (u : Nat) (f : TraceUnit → TraceUnit) : (s.modUnit u f).powered = s.powered := rfl
@[simp] theorem State.modUnit_bootStep (s : State) (u : Nat) (f : TraceUnit → TraceUnit) : (s.modUnit u f).bootStep = s.bootStep := rfl
@[simp] theorem State.modUnit_boots (s : State) (u : Nat) (f : TraceUnit → TraceUnit) : (s.modUnit u f).boots = s.boots := rfl
@[simp] theorem State.modUnit_measure (s : State) (u : Nat) (f : TraceUnit → TraceUnit) : (s.modUnit u f).measure = s.measure := rfl
@[simp] theorem State.modUnit_bootWindow (s : State) (u : Nat) (f : TraceUnit → TraceUnit) : (s.modUnit u f).bootWindow = s.bootWindow := rfl
@[simp] theorem State.modUnit_fuses (s : State) (u : Nat) (f : TraceUnit → TraceUnit) : (s.modUnit u f).fuses = s.fuses := rfl
@[simp] theorem State.modUnit_vclock (s : State) (u : Nat) (f : TraceUnit → TraceUnit) : (s.modUnit u f).vclock = s.vclock := rfl
@[simp] theorem State.modUnit_dclk (s : State) (u : Nat) (f : TraceUnit → TraceUnit) : (s.modUnit u f).dclk = s.dclk := rfl
@[simp] theorem State.modUnit_mem (s : State) (u : Nat) (f : TraceUnit → TraceUnit) : (s.modUnit u f).mem = s.mem := rfl
@[simp] theorem State.modUnit_synd (s : State) (u : Nat) (f : TraceUnit → TraceUnit) : (s.modUnit u f).synd = s.synd := rfl
@[simp] theorem State.modUnit_poisoned (s : State) (u : Nat) (f : TraceUnit → TraceUnit) : (s.modUnit u f).poisoned = s.poisoned := rfl
@[simp] theorem State.modUnit_homeClk (s : State) (u : Nat) (f : TraceUnit → TraceUnit) : (s.modUnit u f).homeClk = s.homeClk := rfl
@[simp] theorem State.modUnit_rel (s : State) (u : Nat) (f : TraceUnit → TraceUnit) : (s.modUnit u f).rel = s.rel := rfl
@[simp] theorem State.modUnit_rowTime (s : State) (u : Nat) (f : TraceUnit → TraceUnit) : (s.modUnit u f).rowTime = s.rowTime := rfl
@[simp] theorem State.modUnit_perms (s : State) (u : Nat) (f : TraceUnit → TraceUnit) : (s.modUnit u f).perms = s.perms := rfl
@[simp] theorem State.modUnit_hostBias (s : State) (u : Nat) (f : TraceUnit → TraceUnit) : (s.modUnit u f).hostBias = s.hostBias := rfl
@[simp] theorem State.modUnit_elision (s : State) (u : Nat) (f : TraceUnit → TraceUnit) : (s.modUnit u f).elision = s.elision := rfl
@[simp] theorem State.modUnit_unfilled (s : State) (u : Nat) (f : TraceUnit → TraceUnit) : (s.modUnit u f).unfilled = s.unfilled := rfl
@[simp] theorem State.modUnit_openRows (s : State) (u : Nat) (f : TraceUnit → TraceUnit) : (s.modUnit u f).openRows = s.openRows := rfl
@[simp] theorem State.modUnit_prechargeAt (s : State) (u : Nat) (f : TraceUnit → TraceUnit) : (s.modUnit u f).prechargeAt = s.prechargeAt := rfl
@[simp] theorem State.modUnit_wordQ (s : State) (u : Nat) (f : TraceUnit → TraceUnit) : (s.modUnit u f).wordQ = s.wordQ := rfl
@[simp] theorem State.modUnit_burstAt (s : State) (u : Nat) (f : TraceUnit → TraceUnit) : (s.modUnit u f).burstAt = s.burstAt := rfl
@[simp] theorem State.modUnit_burstRun (s : State) (u : Nat) (f : TraceUnit → TraceUnit) : (s.modUnit u f).burstRun = s.burstRun := rfl
@[simp] theorem State.modUnit_l2 (s : State) (u : Nat) (f : TraceUnit → TraceUnit) : (s.modUnit u f).l2 = s.l2 := rfl
@[simp] theorem State.modUnit_l2marks (s : State) (u : Nat) (f : TraceUnit → TraceUnit) : (s.modUnit u f).l2marks = s.l2marks := rfl
@[simp] theorem State.modUnit_sync (s : State) (u : Nat) (f : TraceUnit → TraceUnit) : (s.modUnit u f).sync = s.sync := rfl
@[simp] theorem State.modUnit_overflow (s : State) (u : Nat) (f : TraceUnit → TraceUnit) : (s.modUnit u f).overflow = s.overflow := rfl
@[simp] theorem State.modUnit_hostMem (s : State) (u : Nat) (f : TraceUnit → TraceUnit) : (s.modUnit u f).hostMem = s.hostMem := rfl
@[simp] theorem State.modUnit_hostInFlight (s : State) (u : Nat) (f : TraceUnit → TraceUnit) : (s.modUnit u f).hostInFlight = s.hostInFlight := rfl
@[simp] theorem State.modUnit_hostDeny (s : State) (u : Nat) (f : TraceUnit → TraceUnit) : (s.modUnit u f).hostDeny = s.hostDeny := rfl
@[simp] theorem State.modUnit_flips (s : State) (u : Nat) (f : TraceUnit → TraceUnit) : (s.modUnit u f).flips = s.flips := rfl
@[simp] theorem State.modUnit_cores (s : State) (u : Nat) (f : TraceUnit → TraceUnit) : (s.modUnit u f).cores = s.cores := rfl
@[simp] theorem State.modUnit_hives (s : State) (u : Nat) (f : TraceUnit → TraceUnit) : (s.modUnit u f).hives = s.hives := rfl
@[simp] theorem State.modUnit_warps (s : State) (u : Nat) (f : TraceUnit → TraceUnit) : (s.modUnit u f).warps = s.warps := rfl
@[simp] theorem State.modUnit_teams (s : State) (u : Nat) (f : TraceUnit → TraceUnit) : (s.modUnit u f).teams = s.teams := rfl
@[simp] theorem State.modUnit_l2tlb (s : State) (u : Nat) (f : TraceUnit → TraceUnit) : (s.modUnit u f).l2tlb = s.l2tlb := rfl
@[simp] theorem State.modUnit_walkCache (s : State) (u : Nat) (f : TraceUnit → TraceUnit) : (s.modUnit u f).walkCache = s.walkCache := rfl
@[simp] theorem State.modUnit_stalls (s : State) (u : Nat) (f : TraceUnit → TraceUnit) : (s.modUnit u f).stalls = s.stalls := rfl
@[simp] theorem State.modUnit_heldReq (s : State) (u : Nat) (f : TraceUnit → TraceUnit) : (s.modUnit u f).heldReq = s.heldReq := rfl
@[simp] theorem State.modUnit_spillQ (s : State) (u : Nat) (f : TraceUnit → TraceUnit) : (s.modUnit u f).spillQ = s.spillQ := rfl
@[simp] theorem State.modUnit_engineQ (s : State) (u : Nat) (f : TraceUnit → TraceUnit) : (s.modUnit u f).engineQ = s.engineQ := rfl
@[simp] theorem State.modUnit_loads (s : State) (u : Nat) (f : TraceUnit → TraceUnit) : (s.modUnit u f).loads = s.loads := rfl
@[simp] theorem State.modUnit_stores (s : State) (u : Nat) (f : TraceUnit → TraceUnit) : (s.modUnit u f).stores = s.stores := rfl
@[simp] theorem State.modUnit_atomics (s : State) (u : Nat) (f : TraceUnit → TraceUnit) : (s.modUnit u f).atomics = s.atomics := rfl
@[simp] theorem State.modUnit_orphans (s : State) (u : Nat) (f : TraceUnit → TraceUnit) : (s.modUnit u f).orphans = s.orphans := rfl
@[simp] theorem State.modUnit_screens (s : State) (u : Nat) (f : TraceUnit → TraceUnit) : (s.modUnit u f).screens = s.screens := rfl
@[simp] theorem State.modUnit_pend (s : State) (u : Nat) (f : TraceUnit → TraceUnit) : (s.modUnit u f).pend = s.pend := rfl
@[simp] theorem State.modUnit_slabs (s : State) (u : Nat) (f : TraceUnit → TraceUnit) : (s.modUnit u f).slabs = s.slabs := rfl
@[simp] theorem State.modUnit_posted (s : State) (u : Nat) (f : TraceUnit → TraceUnit) : (s.modUnit u f).posted = s.posted := rfl
@[simp] theorem State.modUnit_gathers (s : State) (u : Nat) (f : TraceUnit → TraceUnit) : (s.modUnit u f).gathers = s.gathers := rfl
@[simp] theorem State.modUnit_coll (s : State) (u : Nat) (f : TraceUnit → TraceUnit) : (s.modUnit u f).coll = s.coll := rfl
@[simp] theorem State.modUnit_grids (s : State) (u : Nat) (f : TraceUnit → TraceUnit) : (s.modUnit u f).grids = s.grids := rfl
@[simp] theorem State.modUnit_contexts (s : State) (u : Nat) (f : TraceUnit → TraceUnit) : (s.modUnit u f).contexts = s.contexts := rfl
@[simp] theorem State.modUnit_parts (s : State) (u : Nat) (f : TraceUnit → TraceUnit) : (s.modUnit u f).parts = s.parts := rfl
@[simp] theorem State.modUnit_pkgQ (s : State) (u : Nat) (f : TraceUnit → TraceUnit) : (s.modUnit u f).pkgQ = s.pkgQ := rfl
@[simp] theorem State.modUnit_dieQ (s : State) (u : Nat) (f : TraceUnit → TraceUnit) : (s.modUnit u f).dieQ = s.dieQ := rfl
@[simp] theorem State.modUnit_fitWait (s : State) (u : Nat) (f : TraceUnit → TraceUnit) : (s.modUnit u f).fitWait = s.fitWait := rfl
@[simp] theorem State.modUnit_buckets (s : State) (u : Nat) (f : TraceUnit → TraceUnit) : (s.modUnit u f).buckets = s.buckets := rfl
@[simp] theorem State.modUnit_hearths (s : State) (u : Nat) (f : TraceUnit → TraceUnit) : (s.modUnit u f).hearths = s.hearths := rfl
@[simp] theorem State.modUnit_stoves (s : State) (u : Nat) (f : TraceUnit → TraceUnit) : (s.modUnit u f).stoves = s.stoves := rfl
@[simp] theorem State.modUnit_mailboxes (s : State) (u : Nat) (f : TraceUnit → TraceUnit) : (s.modUnit u f).mailboxes = s.mailboxes := rfl
@[simp] theorem State.modUnit_mboxOrder (s : State) (u : Nat) (f : TraceUnit → TraceUnit) : (s.modUnit u f).mboxOrder = s.mboxOrder := rfl
@[simp] theorem State.modUnit_f0Run (s : State) (u : Nat) (f : TraceUnit → TraceUnit) : (s.modUnit u f).f0Run = s.f0Run := rfl
@[simp] theorem State.modUnit_mboxCur (s : State) (u : Nat) (f : TraceUnit → TraceUnit) : (s.modUnit u f).mboxCur = s.mboxCur := rfl
@[simp] theorem State.modUnit_hvLog (s : State) (u : Nat) (f : TraceUnit → TraceUnit) : (s.modUnit u f).hvLog = s.hvLog := rfl
@[simp] theorem State.modUnit_mgmtLog (s : State) (u : Nat) (f : TraceUnit → TraceUnit) : (s.modUnit u f).mgmtLog = s.mgmtLog := rfl
@[simp] theorem State.modUnit_mgmtWraps (s : State) (u : Nat) (f : TraceUnit → TraceUnit) : (s.modUnit u f).mgmtWraps = s.mgmtWraps := rfl
@[simp] theorem State.modUnit_banks (s : State) (u : Nat) (f : TraceUnit → TraceUnit) : (s.modUnit u f).banks = s.banks := rfl
@[simp] theorem State.modUnit_sorica (s : State) (u : Nat) (f : TraceUnit → TraceUnit) : (s.modUnit u f).sorica = s.sorica := rfl
@[simp] theorem State.modUnit_soricaW (s : State) (u : Nat) (f : TraceUnit → TraceUnit) : (s.modUnit u f).soricaW = s.soricaW := rfl
@[simp] theorem State.modUnit_events (s : State) (u : Nat) (f : TraceUnit → TraceUnit) : (s.modUnit u f).events = s.events := rfl
@[simp] theorem State.modUnit_islands (s : State) (u : Nat) (f : TraceUnit → TraceUnit) : (s.modUnit u f).islands = s.islands := rfl
@[simp] theorem State.modUnit_volts (s : State) (u : Nat) (f : TraceUnit → TraceUnit) : (s.modUnit u f).volts = s.volts := rfl
@[simp] theorem State.modUnit_links (s : State) (u : Nat) (f : TraceUnit → TraceUnit) : (s.modUnit u f).links = s.links := rfl
@[simp] theorem State.modUnit_shadow (s : State) (u : Nat) (f : TraceUnit → TraceUnit) : (s.modUnit u f).shadow = s.shadow := rfl
@[simp] theorem State.modUnit_heartbeat (s : State) (u : Nat) (f : TraceUnit → TraceUnit) : (s.modUnit u f).heartbeat = s.heartbeat := rfl
@[simp] theorem State.modUnit_i3cReports (s : State) (u : Nat) (f : TraceUnit → TraceUnit) : (s.modUnit u f).i3cReports = s.i3cReports := rfl
@[simp] theorem State.modUnit_hostRead (s : State) (u : Nat) (f : TraceUnit → TraceUnit) : (s.modUnit u f).hostRead = s.hostRead := rfl
@[simp] theorem State.modUnit_core (s : State) (u : Nat) (f : TraceUnit → TraceUnit) (y : Nat) : (s.modUnit u f).core y = s.core y := rfl
@[simp] theorem State.modUnit_hive (s : State) (u : Nat) (f : TraceUnit → TraceUnit) (y : Nat) : (s.modUnit u f).hive y = s.hive y := rfl
@[simp] theorem State.modUnit_warp? (s : State) (u : Nat) (f : TraceUnit → TraceUnit) (y z : Nat) : (s.modUnit u f).warp? y z = s.warp? y z := rfl
@[simp] theorem State.modUnit_team? (s : State) (u : Nat) (f : TraceUnit → TraceUnit) (y : Nat) : (s.modUnit u f).team? y = s.team? y := rfl
@[simp] theorem State.modUnit_grid? (s : State) (u : Nat) (f : TraceUnit → TraceUnit) (y : Nat) : (s.modUnit u f).grid? y = s.grid? y := rfl
@[simp] theorem State.modUnit_ctx? (s : State) (u : Nat) (f : TraceUnit → TraceUnit) (y : Nat) : (s.modUnit u f).ctx? y = s.ctx? y := rfl
@[simp] theorem State.modUnit_part? (s : State) (u : Nat) (f : TraceUnit → TraceUnit) (y : Nat) : (s.modUnit u f).part? y = s.part? y := rfl
@[simp] theorem State.modUnit_hearth (s : State) (u : Nat) (f : TraceUnit → TraceUnit) (y : Nat) : (s.modUnit u f).hearth y = s.hearth y := rfl
@[simp] theorem State.modUnit_stove (s : State) (u : Nat) (f : TraceUnit → TraceUnit) (y : Nat) : (s.modUnit u f).stove y = s.stove y := rfl
@[simp] theorem State.modUnit_mailbox (s : State) (u : Nat) (f : TraceUnit → TraceUnit) (y : Nat) : (s.modUnit u f).mailbox y = s.mailbox y := rfl

/-! ## After `modTile` -/

@[simp] theorem State.modTile_agenda (s : State) (c k : Nat) (f : Tile → Tile) : (s.modTile c k f).agenda = s.agenda := rfl
@[simp] theorem State.modTile_cur (s : State) (c k : Nat) (f : Tile → Tile) : (s.modTile c k f).cur = s.cur := rfl
@[simp] theorem State.modTile_freeCtr (s : State) (c k : Nat) (f : Tile → Tile) : (s.modTile c k f).freeCtr = s.freeCtr := rfl
@[simp] theorem State.modTile_nextId (s : State) (c k : Nat) (f : Tile → Tile) : (s.modTile c k f).nextId = s.nextId := rfl
@[simp] theorem State.modTile_powered (s : State) (c k : Nat) (f : Tile → Tile) : (s.modTile c k f).powered = s.powered := rfl
@[simp] theorem State.modTile_bootStep (s : State) (c k : Nat) (f : Tile → Tile) : (s.modTile c k f).bootStep = s.bootStep := rfl
@[simp] theorem State.modTile_boots (s : State) (c k : Nat) (f : Tile → Tile) : (s.modTile c k f).boots = s.boots := rfl
@[simp] theorem State.modTile_measure (s : State) (c k : Nat) (f : Tile → Tile) : (s.modTile c k f).measure = s.measure := rfl
@[simp] theorem State.modTile_bootWindow (s : State) (c k : Nat) (f : Tile → Tile) : (s.modTile c k f).bootWindow = s.bootWindow := rfl
@[simp] theorem State.modTile_fuses (s : State) (c k : Nat) (f : Tile → Tile) : (s.modTile c k f).fuses = s.fuses := rfl
@[simp] theorem State.modTile_vclock (s : State) (c k : Nat) (f : Tile → Tile) : (s.modTile c k f).vclock = s.vclock := rfl
@[simp] theorem State.modTile_dclk (s : State) (c k : Nat) (f : Tile → Tile) : (s.modTile c k f).dclk = s.dclk := rfl
@[simp] theorem State.modTile_mem (s : State) (c k : Nat) (f : Tile → Tile) : (s.modTile c k f).mem = s.mem := rfl
@[simp] theorem State.modTile_synd (s : State) (c k : Nat) (f : Tile → Tile) : (s.modTile c k f).synd = s.synd := rfl
@[simp] theorem State.modTile_poisoned (s : State) (c k : Nat) (f : Tile → Tile) : (s.modTile c k f).poisoned = s.poisoned := rfl
@[simp] theorem State.modTile_homeClk (s : State) (c k : Nat) (f : Tile → Tile) : (s.modTile c k f).homeClk = s.homeClk := rfl
@[simp] theorem State.modTile_rel (s : State) (c k : Nat) (f : Tile → Tile) : (s.modTile c k f).rel = s.rel := rfl
@[simp] theorem State.modTile_rowTime (s : State) (c k : Nat) (f : Tile → Tile) : (s.modTile c k f).rowTime = s.rowTime := rfl
@[simp] theorem State.modTile_perms (s : State) (c k : Nat) (f : Tile → Tile) : (s.modTile c k f).perms = s.perms := rfl
@[simp] theorem State.modTile_hostBias (s : State) (c k : Nat) (f : Tile → Tile) : (s.modTile c k f).hostBias = s.hostBias := rfl
@[simp] theorem State.modTile_elision (s : State) (c k : Nat) (f : Tile → Tile) : (s.modTile c k f).elision = s.elision := rfl
@[simp] theorem State.modTile_unfilled (s : State) (c k : Nat) (f : Tile → Tile) : (s.modTile c k f).unfilled = s.unfilled := rfl
@[simp] theorem State.modTile_openRows (s : State) (c k : Nat) (f : Tile → Tile) : (s.modTile c k f).openRows = s.openRows := rfl
@[simp] theorem State.modTile_prechargeAt (s : State) (c k : Nat) (f : Tile → Tile) : (s.modTile c k f).prechargeAt = s.prechargeAt := rfl
@[simp] theorem State.modTile_wordQ (s : State) (c k : Nat) (f : Tile → Tile) : (s.modTile c k f).wordQ = s.wordQ := rfl
@[simp] theorem State.modTile_burstAt (s : State) (c k : Nat) (f : Tile → Tile) : (s.modTile c k f).burstAt = s.burstAt := rfl
@[simp] theorem State.modTile_burstRun (s : State) (c k : Nat) (f : Tile → Tile) : (s.modTile c k f).burstRun = s.burstRun := rfl
@[simp] theorem State.modTile_l2 (s : State) (c k : Nat) (f : Tile → Tile) : (s.modTile c k f).l2 = s.l2 := rfl
@[simp] theorem State.modTile_l2marks (s : State) (c k : Nat) (f : Tile → Tile) : (s.modTile c k f).l2marks = s.l2marks := rfl
@[simp] theorem State.modTile_sync (s : State) (c k : Nat) (f : Tile → Tile) : (s.modTile c k f).sync = s.sync := rfl
@[simp] theorem State.modTile_overflow (s : State) (c k : Nat) (f : Tile → Tile) : (s.modTile c k f).overflow = s.overflow := rfl
@[simp] theorem State.modTile_hostMem (s : State) (c k : Nat) (f : Tile → Tile) : (s.modTile c k f).hostMem = s.hostMem := rfl
@[simp] theorem State.modTile_hostInFlight (s : State) (c k : Nat) (f : Tile → Tile) : (s.modTile c k f).hostInFlight = s.hostInFlight := rfl
@[simp] theorem State.modTile_hostDeny (s : State) (c k : Nat) (f : Tile → Tile) : (s.modTile c k f).hostDeny = s.hostDeny := rfl
@[simp] theorem State.modTile_flips (s : State) (c k : Nat) (f : Tile → Tile) : (s.modTile c k f).flips = s.flips := rfl
@[simp] theorem State.modTile_hives (s : State) (c k : Nat) (f : Tile → Tile) : (s.modTile c k f).hives = s.hives := rfl
@[simp] theorem State.modTile_warps (s : State) (c k : Nat) (f : Tile → Tile) : (s.modTile c k f).warps = s.warps := rfl
@[simp] theorem State.modTile_teams (s : State) (c k : Nat) (f : Tile → Tile) : (s.modTile c k f).teams = s.teams := rfl
@[simp] theorem State.modTile_l2tlb (s : State) (c k : Nat) (f : Tile → Tile) : (s.modTile c k f).l2tlb = s.l2tlb := rfl
@[simp] theorem State.modTile_walkCache (s : State) (c k : Nat) (f : Tile → Tile) : (s.modTile c k f).walkCache = s.walkCache := rfl
@[simp] theorem State.modTile_stalls (s : State) (c k : Nat) (f : Tile → Tile) : (s.modTile c k f).stalls = s.stalls := rfl
@[simp] theorem State.modTile_heldReq (s : State) (c k : Nat) (f : Tile → Tile) : (s.modTile c k f).heldReq = s.heldReq := rfl
@[simp] theorem State.modTile_spillQ (s : State) (c k : Nat) (f : Tile → Tile) : (s.modTile c k f).spillQ = s.spillQ := rfl
@[simp] theorem State.modTile_engineQ (s : State) (c k : Nat) (f : Tile → Tile) : (s.modTile c k f).engineQ = s.engineQ := rfl
@[simp] theorem State.modTile_loads (s : State) (c k : Nat) (f : Tile → Tile) : (s.modTile c k f).loads = s.loads := rfl
@[simp] theorem State.modTile_stores (s : State) (c k : Nat) (f : Tile → Tile) : (s.modTile c k f).stores = s.stores := rfl
@[simp] theorem State.modTile_atomics (s : State) (c k : Nat) (f : Tile → Tile) : (s.modTile c k f).atomics = s.atomics := rfl
@[simp] theorem State.modTile_orphans (s : State) (c k : Nat) (f : Tile → Tile) : (s.modTile c k f).orphans = s.orphans := rfl
@[simp] theorem State.modTile_screens (s : State) (c k : Nat) (f : Tile → Tile) : (s.modTile c k f).screens = s.screens := rfl
@[simp] theorem State.modTile_pend (s : State) (c k : Nat) (f : Tile → Tile) : (s.modTile c k f).pend = s.pend := rfl
@[simp] theorem State.modTile_slabs (s : State) (c k : Nat) (f : Tile → Tile) : (s.modTile c k f).slabs = s.slabs := rfl
@[simp] theorem State.modTile_posted (s : State) (c k : Nat) (f : Tile → Tile) : (s.modTile c k f).posted = s.posted := rfl
@[simp] theorem State.modTile_gathers (s : State) (c k : Nat) (f : Tile → Tile) : (s.modTile c k f).gathers = s.gathers := rfl
@[simp] theorem State.modTile_coll (s : State) (c k : Nat) (f : Tile → Tile) : (s.modTile c k f).coll = s.coll := rfl
@[simp] theorem State.modTile_grids (s : State) (c k : Nat) (f : Tile → Tile) : (s.modTile c k f).grids = s.grids := rfl
@[simp] theorem State.modTile_contexts (s : State) (c k : Nat) (f : Tile → Tile) : (s.modTile c k f).contexts = s.contexts := rfl
@[simp] theorem State.modTile_parts (s : State) (c k : Nat) (f : Tile → Tile) : (s.modTile c k f).parts = s.parts := rfl
@[simp] theorem State.modTile_pkgQ (s : State) (c k : Nat) (f : Tile → Tile) : (s.modTile c k f).pkgQ = s.pkgQ := rfl
@[simp] theorem State.modTile_dieQ (s : State) (c k : Nat) (f : Tile → Tile) : (s.modTile c k f).dieQ = s.dieQ := rfl
@[simp] theorem State.modTile_fitWait (s : State) (c k : Nat) (f : Tile → Tile) : (s.modTile c k f).fitWait = s.fitWait := rfl
@[simp] theorem State.modTile_buckets (s : State) (c k : Nat) (f : Tile → Tile) : (s.modTile c k f).buckets = s.buckets := rfl
@[simp] theorem State.modTile_hearths (s : State) (c k : Nat) (f : Tile → Tile) : (s.modTile c k f).hearths = s.hearths := rfl
@[simp] theorem State.modTile_stoves (s : State) (c k : Nat) (f : Tile → Tile) : (s.modTile c k f).stoves = s.stoves := rfl
@[simp] theorem State.modTile_mailboxes (s : State) (c k : Nat) (f : Tile → Tile) : (s.modTile c k f).mailboxes = s.mailboxes := rfl
@[simp] theorem State.modTile_mboxOrder (s : State) (c k : Nat) (f : Tile → Tile) : (s.modTile c k f).mboxOrder = s.mboxOrder := rfl
@[simp] theorem State.modTile_f0Run (s : State) (c k : Nat) (f : Tile → Tile) : (s.modTile c k f).f0Run = s.f0Run := rfl
@[simp] theorem State.modTile_mboxCur (s : State) (c k : Nat) (f : Tile → Tile) : (s.modTile c k f).mboxCur = s.mboxCur := rfl
@[simp] theorem State.modTile_hvLog (s : State) (c k : Nat) (f : Tile → Tile) : (s.modTile c k f).hvLog = s.hvLog := rfl
@[simp] theorem State.modTile_mgmtLog (s : State) (c k : Nat) (f : Tile → Tile) : (s.modTile c k f).mgmtLog = s.mgmtLog := rfl
@[simp] theorem State.modTile_mgmtWraps (s : State) (c k : Nat) (f : Tile → Tile) : (s.modTile c k f).mgmtWraps = s.mgmtWraps := rfl
@[simp] theorem State.modTile_banks (s : State) (c k : Nat) (f : Tile → Tile) : (s.modTile c k f).banks = s.banks := rfl
@[simp] theorem State.modTile_traceUnits (s : State) (c k : Nat) (f : Tile → Tile) : (s.modTile c k f).traceUnits = s.traceUnits := rfl
@[simp] theorem State.modTile_sorica (s : State) (c k : Nat) (f : Tile → Tile) : (s.modTile c k f).sorica = s.sorica := rfl
@[simp] theorem State.modTile_soricaW (s : State) (c k : Nat) (f : Tile → Tile) : (s.modTile c k f).soricaW = s.soricaW := rfl
@[simp] theorem State.modTile_events (s : State) (c k : Nat) (f : Tile → Tile) : (s.modTile c k f).events = s.events := rfl
@[simp] theorem State.modTile_islands (s : State) (c k : Nat) (f : Tile → Tile) : (s.modTile c k f).islands = s.islands := rfl
@[simp] theorem State.modTile_volts (s : State) (c k : Nat) (f : Tile → Tile) : (s.modTile c k f).volts = s.volts := rfl
@[simp] theorem State.modTile_links (s : State) (c k : Nat) (f : Tile → Tile) : (s.modTile c k f).links = s.links := rfl
@[simp] theorem State.modTile_shadow (s : State) (c k : Nat) (f : Tile → Tile) : (s.modTile c k f).shadow = s.shadow := rfl
@[simp] theorem State.modTile_heartbeat (s : State) (c k : Nat) (f : Tile → Tile) : (s.modTile c k f).heartbeat = s.heartbeat := rfl
@[simp] theorem State.modTile_i3cReports (s : State) (c k : Nat) (f : Tile → Tile) : (s.modTile c k f).i3cReports = s.i3cReports := rfl
@[simp] theorem State.modTile_hostRead (s : State) (c k : Nat) (f : Tile → Tile) : (s.modTile c k f).hostRead = s.hostRead := rfl
@[simp] theorem State.modTile_hive (s : State) (c k : Nat) (f : Tile → Tile) (y : Nat) : (s.modTile c k f).hive y = s.hive y := rfl
@[simp] theorem State.modTile_warp? (s : State) (c k : Nat) (f : Tile → Tile) (y z : Nat) : (s.modTile c k f).warp? y z = s.warp? y z := rfl
@[simp] theorem State.modTile_team? (s : State) (c k : Nat) (f : Tile → Tile) (y : Nat) : (s.modTile c k f).team? y = s.team? y := rfl
@[simp] theorem State.modTile_grid? (s : State) (c k : Nat) (f : Tile → Tile) (y : Nat) : (s.modTile c k f).grid? y = s.grid? y := rfl
@[simp] theorem State.modTile_ctx? (s : State) (c k : Nat) (f : Tile → Tile) (y : Nat) : (s.modTile c k f).ctx? y = s.ctx? y := rfl
@[simp] theorem State.modTile_part? (s : State) (c k : Nat) (f : Tile → Tile) (y : Nat) : (s.modTile c k f).part? y = s.part? y := rfl
@[simp] theorem State.modTile_hearth (s : State) (c k : Nat) (f : Tile → Tile) (y : Nat) : (s.modTile c k f).hearth y = s.hearth y := rfl
@[simp] theorem State.modTile_stove (s : State) (c k : Nat) (f : Tile → Tile) (y : Nat) : (s.modTile c k f).stove y = s.stove y := rfl
@[simp] theorem State.modTile_mailbox (s : State) (c k : Nat) (f : Tile → Tile) (y : Nat) : (s.modTile c k f).mailbox y = s.mailbox y := rfl
@[simp] theorem State.modTile_unit (s : State) (c k : Nat) (f : Tile → Tile) (y : Nat) : (s.modTile c k f).unit y = s.unit y := rfl

/-! ## After `taken` -/

@[simp] theorem State.taken_agenda (s : State) : s.taken.agenda = s.agenda := rfl
@[simp] theorem State.taken_freeCtr (s : State) : s.taken.freeCtr = s.freeCtr := rfl
@[simp] theorem State.taken_nextId (s : State) : s.taken.nextId = s.nextId := rfl
@[simp] theorem State.taken_powered (s : State) : s.taken.powered = s.powered := rfl
@[simp] theorem State.taken_bootStep (s : State) : s.taken.bootStep = s.bootStep := rfl
@[simp] theorem State.taken_boots (s : State) : s.taken.boots = s.boots := rfl
@[simp] theorem State.taken_measure (s : State) : s.taken.measure = s.measure := rfl
@[simp] theorem State.taken_bootWindow (s : State) : s.taken.bootWindow = s.bootWindow := rfl
@[simp] theorem State.taken_fuses (s : State) : s.taken.fuses = s.fuses := rfl
@[simp] theorem State.taken_vclock (s : State) : s.taken.vclock = s.vclock := rfl
@[simp] theorem State.taken_dclk (s : State) : s.taken.dclk = s.dclk := rfl
@[simp] theorem State.taken_mem (s : State) : s.taken.mem = s.mem := rfl
@[simp] theorem State.taken_synd (s : State) : s.taken.synd = s.synd := rfl
@[simp] theorem State.taken_poisoned (s : State) : s.taken.poisoned = s.poisoned := rfl
@[simp] theorem State.taken_homeClk (s : State) : s.taken.homeClk = s.homeClk := rfl
@[simp] theorem State.taken_rel (s : State) : s.taken.rel = s.rel := rfl
@[simp] theorem State.taken_rowTime (s : State) : s.taken.rowTime = s.rowTime := rfl
@[simp] theorem State.taken_perms (s : State) : s.taken.perms = s.perms := rfl
@[simp] theorem State.taken_hostBias (s : State) : s.taken.hostBias = s.hostBias := rfl
@[simp] theorem State.taken_elision (s : State) : s.taken.elision = s.elision := rfl
@[simp] theorem State.taken_unfilled (s : State) : s.taken.unfilled = s.unfilled := rfl
@[simp] theorem State.taken_openRows (s : State) : s.taken.openRows = s.openRows := rfl
@[simp] theorem State.taken_prechargeAt (s : State) : s.taken.prechargeAt = s.prechargeAt := rfl
@[simp] theorem State.taken_wordQ (s : State) : s.taken.wordQ = s.wordQ := rfl
@[simp] theorem State.taken_burstAt (s : State) : s.taken.burstAt = s.burstAt := rfl
@[simp] theorem State.taken_burstRun (s : State) : s.taken.burstRun = s.burstRun := rfl
@[simp] theorem State.taken_l2 (s : State) : s.taken.l2 = s.l2 := rfl
@[simp] theorem State.taken_l2marks (s : State) : s.taken.l2marks = s.l2marks := rfl
@[simp] theorem State.taken_sync (s : State) : s.taken.sync = s.sync := rfl
@[simp] theorem State.taken_overflow (s : State) : s.taken.overflow = s.overflow := rfl
@[simp] theorem State.taken_hostMem (s : State) : s.taken.hostMem = s.hostMem := rfl
@[simp] theorem State.taken_hostInFlight (s : State) : s.taken.hostInFlight = s.hostInFlight := rfl
@[simp] theorem State.taken_hostDeny (s : State) : s.taken.hostDeny = s.hostDeny := rfl
@[simp] theorem State.taken_flips (s : State) : s.taken.flips = s.flips := rfl
@[simp] theorem State.taken_cores (s : State) : s.taken.cores = s.cores := rfl
@[simp] theorem State.taken_hives (s : State) : s.taken.hives = s.hives := rfl
@[simp] theorem State.taken_warps (s : State) : s.taken.warps = s.warps := rfl
@[simp] theorem State.taken_teams (s : State) : s.taken.teams = s.teams := rfl
@[simp] theorem State.taken_l2tlb (s : State) : s.taken.l2tlb = s.l2tlb := rfl
@[simp] theorem State.taken_walkCache (s : State) : s.taken.walkCache = s.walkCache := rfl
@[simp] theorem State.taken_stalls (s : State) : s.taken.stalls = s.stalls := rfl
@[simp] theorem State.taken_heldReq (s : State) : s.taken.heldReq = s.heldReq := rfl
@[simp] theorem State.taken_spillQ (s : State) : s.taken.spillQ = s.spillQ := rfl
@[simp] theorem State.taken_engineQ (s : State) : s.taken.engineQ = s.engineQ := rfl
@[simp] theorem State.taken_loads (s : State) : s.taken.loads = s.loads := rfl
@[simp] theorem State.taken_stores (s : State) : s.taken.stores = s.stores := rfl
@[simp] theorem State.taken_atomics (s : State) : s.taken.atomics = s.atomics := rfl
@[simp] theorem State.taken_orphans (s : State) : s.taken.orphans = s.orphans := rfl
@[simp] theorem State.taken_screens (s : State) : s.taken.screens = s.screens := rfl
@[simp] theorem State.taken_pend (s : State) : s.taken.pend = s.pend := rfl
@[simp] theorem State.taken_slabs (s : State) : s.taken.slabs = s.slabs := rfl
@[simp] theorem State.taken_posted (s : State) : s.taken.posted = s.posted := rfl
@[simp] theorem State.taken_gathers (s : State) : s.taken.gathers = s.gathers := rfl
@[simp] theorem State.taken_coll (s : State) : s.taken.coll = s.coll := rfl
@[simp] theorem State.taken_grids (s : State) : s.taken.grids = s.grids := rfl
@[simp] theorem State.taken_contexts (s : State) : s.taken.contexts = s.contexts := rfl
@[simp] theorem State.taken_parts (s : State) : s.taken.parts = s.parts := rfl
@[simp] theorem State.taken_pkgQ (s : State) : s.taken.pkgQ = s.pkgQ := rfl
@[simp] theorem State.taken_dieQ (s : State) : s.taken.dieQ = s.dieQ := rfl
@[simp] theorem State.taken_fitWait (s : State) : s.taken.fitWait = s.fitWait := rfl
@[simp] theorem State.taken_buckets (s : State) : s.taken.buckets = s.buckets := rfl
@[simp] theorem State.taken_hearths (s : State) : s.taken.hearths = s.hearths := rfl
@[simp] theorem State.taken_stoves (s : State) : s.taken.stoves = s.stoves := rfl
@[simp] theorem State.taken_mailboxes (s : State) : s.taken.mailboxes = s.mailboxes := rfl
@[simp] theorem State.taken_mboxOrder (s : State) : s.taken.mboxOrder = s.mboxOrder := rfl
@[simp] theorem State.taken_f0Run (s : State) : s.taken.f0Run = s.f0Run := rfl
@[simp] theorem State.taken_mboxCur (s : State) : s.taken.mboxCur = s.mboxCur := rfl
@[simp] theorem State.taken_hvLog (s : State) : s.taken.hvLog = s.hvLog := rfl
@[simp] theorem State.taken_mgmtLog (s : State) : s.taken.mgmtLog = s.mgmtLog := rfl
@[simp] theorem State.taken_mgmtWraps (s : State) : s.taken.mgmtWraps = s.mgmtWraps := rfl
@[simp] theorem State.taken_banks (s : State) : s.taken.banks = s.banks := rfl
@[simp] theorem State.taken_traceUnits (s : State) : s.taken.traceUnits = s.traceUnits := rfl
@[simp] theorem State.taken_sorica (s : State) : s.taken.sorica = s.sorica := rfl
@[simp] theorem State.taken_soricaW (s : State) : s.taken.soricaW = s.soricaW := rfl
@[simp] theorem State.taken_events (s : State) : s.taken.events = s.events := rfl
@[simp] theorem State.taken_islands (s : State) : s.taken.islands = s.islands := rfl
@[simp] theorem State.taken_volts (s : State) : s.taken.volts = s.volts := rfl
@[simp] theorem State.taken_links (s : State) : s.taken.links = s.links := rfl
@[simp] theorem State.taken_shadow (s : State) : s.taken.shadow = s.shadow := rfl
@[simp] theorem State.taken_heartbeat (s : State) : s.taken.heartbeat = s.heartbeat := rfl
@[simp] theorem State.taken_i3cReports (s : State) : s.taken.i3cReports = s.i3cReports := rfl
@[simp] theorem State.taken_hostRead (s : State) : s.taken.hostRead = s.hostRead := rfl
@[simp] theorem State.taken_core (s : State) (y : Nat) : s.taken.core y = s.core y := rfl
@[simp] theorem State.taken_hive (s : State) (y : Nat) : s.taken.hive y = s.hive y := rfl
@[simp] theorem State.taken_warp? (s : State) (y z : Nat) : s.taken.warp? y z = s.warp? y z := rfl
@[simp] theorem State.taken_team? (s : State) (y : Nat) : s.taken.team? y = s.team? y := rfl
@[simp] theorem State.taken_grid? (s : State) (y : Nat) : s.taken.grid? y = s.grid? y := rfl
@[simp] theorem State.taken_ctx? (s : State) (y : Nat) : s.taken.ctx? y = s.ctx? y := rfl
@[simp] theorem State.taken_part? (s : State) (y : Nat) : s.taken.part? y = s.part? y := rfl
@[simp] theorem State.taken_hearth (s : State) (y : Nat) : s.taken.hearth y = s.hearth y := rfl
@[simp] theorem State.taken_stove (s : State) (y : Nat) : s.taken.stove y = s.stove y := rfl
@[simp] theorem State.taken_mailbox (s : State) (y : Nat) : s.taken.mailbox y = s.mailbox y := rfl
@[simp] theorem State.taken_unit (s : State) (y : Nat) : s.taken.unit y = s.unit y := rfl

/-! ## After `fresh` -/

@[simp] theorem State.fresh_agenda (s : State) : s.fresh.2.agenda = s.agenda := rfl
@[simp] theorem State.fresh_cur (s : State) : s.fresh.2.cur = s.cur := rfl
@[simp] theorem State.fresh_freeCtr (s : State) : s.fresh.2.freeCtr = s.freeCtr := rfl
@[simp] theorem State.fresh_powered (s : State) : s.fresh.2.powered = s.powered := rfl
@[simp] theorem State.fresh_bootStep (s : State) : s.fresh.2.bootStep = s.bootStep := rfl
@[simp] theorem State.fresh_boots (s : State) : s.fresh.2.boots = s.boots := rfl
@[simp] theorem State.fresh_measure (s : State) : s.fresh.2.measure = s.measure := rfl
@[simp] theorem State.fresh_bootWindow (s : State) : s.fresh.2.bootWindow = s.bootWindow := rfl
@[simp] theorem State.fresh_fuses (s : State) : s.fresh.2.fuses = s.fuses := rfl
@[simp] theorem State.fresh_vclock (s : State) : s.fresh.2.vclock = s.vclock := rfl
@[simp] theorem State.fresh_dclk (s : State) : s.fresh.2.dclk = s.dclk := rfl
@[simp] theorem State.fresh_mem (s : State) : s.fresh.2.mem = s.mem := rfl
@[simp] theorem State.fresh_synd (s : State) : s.fresh.2.synd = s.synd := rfl
@[simp] theorem State.fresh_poisoned (s : State) : s.fresh.2.poisoned = s.poisoned := rfl
@[simp] theorem State.fresh_homeClk (s : State) : s.fresh.2.homeClk = s.homeClk := rfl
@[simp] theorem State.fresh_rel (s : State) : s.fresh.2.rel = s.rel := rfl
@[simp] theorem State.fresh_rowTime (s : State) : s.fresh.2.rowTime = s.rowTime := rfl
@[simp] theorem State.fresh_perms (s : State) : s.fresh.2.perms = s.perms := rfl
@[simp] theorem State.fresh_hostBias (s : State) : s.fresh.2.hostBias = s.hostBias := rfl
@[simp] theorem State.fresh_elision (s : State) : s.fresh.2.elision = s.elision := rfl
@[simp] theorem State.fresh_unfilled (s : State) : s.fresh.2.unfilled = s.unfilled := rfl
@[simp] theorem State.fresh_openRows (s : State) : s.fresh.2.openRows = s.openRows := rfl
@[simp] theorem State.fresh_prechargeAt (s : State) : s.fresh.2.prechargeAt = s.prechargeAt := rfl
@[simp] theorem State.fresh_wordQ (s : State) : s.fresh.2.wordQ = s.wordQ := rfl
@[simp] theorem State.fresh_burstAt (s : State) : s.fresh.2.burstAt = s.burstAt := rfl
@[simp] theorem State.fresh_burstRun (s : State) : s.fresh.2.burstRun = s.burstRun := rfl
@[simp] theorem State.fresh_l2 (s : State) : s.fresh.2.l2 = s.l2 := rfl
@[simp] theorem State.fresh_l2marks (s : State) : s.fresh.2.l2marks = s.l2marks := rfl
@[simp] theorem State.fresh_sync (s : State) : s.fresh.2.sync = s.sync := rfl
@[simp] theorem State.fresh_overflow (s : State) : s.fresh.2.overflow = s.overflow := rfl
@[simp] theorem State.fresh_hostMem (s : State) : s.fresh.2.hostMem = s.hostMem := rfl
@[simp] theorem State.fresh_hostInFlight (s : State) : s.fresh.2.hostInFlight = s.hostInFlight := rfl
@[simp] theorem State.fresh_hostDeny (s : State) : s.fresh.2.hostDeny = s.hostDeny := rfl
@[simp] theorem State.fresh_flips (s : State) : s.fresh.2.flips = s.flips := rfl
@[simp] theorem State.fresh_cores (s : State) : s.fresh.2.cores = s.cores := rfl
@[simp] theorem State.fresh_hives (s : State) : s.fresh.2.hives = s.hives := rfl
@[simp] theorem State.fresh_warps (s : State) : s.fresh.2.warps = s.warps := rfl
@[simp] theorem State.fresh_teams (s : State) : s.fresh.2.teams = s.teams := rfl
@[simp] theorem State.fresh_l2tlb (s : State) : s.fresh.2.l2tlb = s.l2tlb := rfl
@[simp] theorem State.fresh_walkCache (s : State) : s.fresh.2.walkCache = s.walkCache := rfl
@[simp] theorem State.fresh_stalls (s : State) : s.fresh.2.stalls = s.stalls := rfl
@[simp] theorem State.fresh_heldReq (s : State) : s.fresh.2.heldReq = s.heldReq := rfl
@[simp] theorem State.fresh_spillQ (s : State) : s.fresh.2.spillQ = s.spillQ := rfl
@[simp] theorem State.fresh_engineQ (s : State) : s.fresh.2.engineQ = s.engineQ := rfl
@[simp] theorem State.fresh_loads (s : State) : s.fresh.2.loads = s.loads := rfl
@[simp] theorem State.fresh_stores (s : State) : s.fresh.2.stores = s.stores := rfl
@[simp] theorem State.fresh_atomics (s : State) : s.fresh.2.atomics = s.atomics := rfl
@[simp] theorem State.fresh_orphans (s : State) : s.fresh.2.orphans = s.orphans := rfl
@[simp] theorem State.fresh_screens (s : State) : s.fresh.2.screens = s.screens := rfl
@[simp] theorem State.fresh_pend (s : State) : s.fresh.2.pend = s.pend := rfl
@[simp] theorem State.fresh_slabs (s : State) : s.fresh.2.slabs = s.slabs := rfl
@[simp] theorem State.fresh_posted (s : State) : s.fresh.2.posted = s.posted := rfl
@[simp] theorem State.fresh_gathers (s : State) : s.fresh.2.gathers = s.gathers := rfl
@[simp] theorem State.fresh_coll (s : State) : s.fresh.2.coll = s.coll := rfl
@[simp] theorem State.fresh_grids (s : State) : s.fresh.2.grids = s.grids := rfl
@[simp] theorem State.fresh_contexts (s : State) : s.fresh.2.contexts = s.contexts := rfl
@[simp] theorem State.fresh_parts (s : State) : s.fresh.2.parts = s.parts := rfl
@[simp] theorem State.fresh_pkgQ (s : State) : s.fresh.2.pkgQ = s.pkgQ := rfl
@[simp] theorem State.fresh_dieQ (s : State) : s.fresh.2.dieQ = s.dieQ := rfl
@[simp] theorem State.fresh_fitWait (s : State) : s.fresh.2.fitWait = s.fitWait := rfl
@[simp] theorem State.fresh_buckets (s : State) : s.fresh.2.buckets = s.buckets := rfl
@[simp] theorem State.fresh_hearths (s : State) : s.fresh.2.hearths = s.hearths := rfl
@[simp] theorem State.fresh_stoves (s : State) : s.fresh.2.stoves = s.stoves := rfl
@[simp] theorem State.fresh_mailboxes (s : State) : s.fresh.2.mailboxes = s.mailboxes := rfl
@[simp] theorem State.fresh_mboxOrder (s : State) : s.fresh.2.mboxOrder = s.mboxOrder := rfl
@[simp] theorem State.fresh_f0Run (s : State) : s.fresh.2.f0Run = s.f0Run := rfl
@[simp] theorem State.fresh_mboxCur (s : State) : s.fresh.2.mboxCur = s.mboxCur := rfl
@[simp] theorem State.fresh_hvLog (s : State) : s.fresh.2.hvLog = s.hvLog := rfl
@[simp] theorem State.fresh_mgmtLog (s : State) : s.fresh.2.mgmtLog = s.mgmtLog := rfl
@[simp] theorem State.fresh_mgmtWraps (s : State) : s.fresh.2.mgmtWraps = s.mgmtWraps := rfl
@[simp] theorem State.fresh_banks (s : State) : s.fresh.2.banks = s.banks := rfl
@[simp] theorem State.fresh_traceUnits (s : State) : s.fresh.2.traceUnits = s.traceUnits := rfl
@[simp] theorem State.fresh_sorica (s : State) : s.fresh.2.sorica = s.sorica := rfl
@[simp] theorem State.fresh_soricaW (s : State) : s.fresh.2.soricaW = s.soricaW := rfl
@[simp] theorem State.fresh_events (s : State) : s.fresh.2.events = s.events := rfl
@[simp] theorem State.fresh_islands (s : State) : s.fresh.2.islands = s.islands := rfl
@[simp] theorem State.fresh_volts (s : State) : s.fresh.2.volts = s.volts := rfl
@[simp] theorem State.fresh_links (s : State) : s.fresh.2.links = s.links := rfl
@[simp] theorem State.fresh_shadow (s : State) : s.fresh.2.shadow = s.shadow := rfl
@[simp] theorem State.fresh_heartbeat (s : State) : s.fresh.2.heartbeat = s.heartbeat := rfl
@[simp] theorem State.fresh_i3cReports (s : State) : s.fresh.2.i3cReports = s.i3cReports := rfl
@[simp] theorem State.fresh_hostRead (s : State) : s.fresh.2.hostRead = s.hostRead := rfl
@[simp] theorem State.fresh_core (s : State) (y : Nat) : s.fresh.2.core y = s.core y := rfl
@[simp] theorem State.fresh_hive (s : State) (y : Nat) : s.fresh.2.hive y = s.hive y := rfl
@[simp] theorem State.fresh_warp? (s : State) (y z : Nat) : s.fresh.2.warp? y z = s.warp? y z := rfl
@[simp] theorem State.fresh_team? (s : State) (y : Nat) : s.fresh.2.team? y = s.team? y := rfl
@[simp] theorem State.fresh_grid? (s : State) (y : Nat) : s.fresh.2.grid? y = s.grid? y := rfl
@[simp] theorem State.fresh_ctx? (s : State) (y : Nat) : s.fresh.2.ctx? y = s.ctx? y := rfl
@[simp] theorem State.fresh_part? (s : State) (y : Nat) : s.fresh.2.part? y = s.part? y := rfl
@[simp] theorem State.fresh_hearth (s : State) (y : Nat) : s.fresh.2.hearth y = s.hearth y := rfl
@[simp] theorem State.fresh_stove (s : State) (y : Nat) : s.fresh.2.stove y = s.stove y := rfl
@[simp] theorem State.fresh_mailbox (s : State) (y : Nat) : s.fresh.2.mailbox y = s.mailbox y := rfl
@[simp] theorem State.fresh_unit (s : State) (y : Nat) : s.fresh.2.unit y = s.unit y := rfl

/-! ## After `pick` -/

@[simp] theorem State.pick_agenda (s : State) (n : Nat) : (s.pick n).2.agenda = s.agenda := rfl
@[simp] theorem State.pick_cur (s : State) (n : Nat) : (s.pick n).2.cur = s.cur := rfl
@[simp] theorem State.pick_nextId (s : State) (n : Nat) : (s.pick n).2.nextId = s.nextId := rfl
@[simp] theorem State.pick_powered (s : State) (n : Nat) : (s.pick n).2.powered = s.powered := rfl
@[simp] theorem State.pick_bootStep (s : State) (n : Nat) : (s.pick n).2.bootStep = s.bootStep := rfl
@[simp] theorem State.pick_boots (s : State) (n : Nat) : (s.pick n).2.boots = s.boots := rfl
@[simp] theorem State.pick_measure (s : State) (n : Nat) : (s.pick n).2.measure = s.measure := rfl
@[simp] theorem State.pick_bootWindow (s : State) (n : Nat) : (s.pick n).2.bootWindow = s.bootWindow := rfl
@[simp] theorem State.pick_fuses (s : State) (n : Nat) : (s.pick n).2.fuses = s.fuses := rfl
@[simp] theorem State.pick_vclock (s : State) (n : Nat) : (s.pick n).2.vclock = s.vclock := rfl
@[simp] theorem State.pick_dclk (s : State) (n : Nat) : (s.pick n).2.dclk = s.dclk := rfl
@[simp] theorem State.pick_mem (s : State) (n : Nat) : (s.pick n).2.mem = s.mem := rfl
@[simp] theorem State.pick_synd (s : State) (n : Nat) : (s.pick n).2.synd = s.synd := rfl
@[simp] theorem State.pick_poisoned (s : State) (n : Nat) : (s.pick n).2.poisoned = s.poisoned := rfl
@[simp] theorem State.pick_homeClk (s : State) (n : Nat) : (s.pick n).2.homeClk = s.homeClk := rfl
@[simp] theorem State.pick_rel (s : State) (n : Nat) : (s.pick n).2.rel = s.rel := rfl
@[simp] theorem State.pick_rowTime (s : State) (n : Nat) : (s.pick n).2.rowTime = s.rowTime := rfl
@[simp] theorem State.pick_perms (s : State) (n : Nat) : (s.pick n).2.perms = s.perms := rfl
@[simp] theorem State.pick_hostBias (s : State) (n : Nat) : (s.pick n).2.hostBias = s.hostBias := rfl
@[simp] theorem State.pick_elision (s : State) (n : Nat) : (s.pick n).2.elision = s.elision := rfl
@[simp] theorem State.pick_unfilled (s : State) (n : Nat) : (s.pick n).2.unfilled = s.unfilled := rfl
@[simp] theorem State.pick_openRows (s : State) (n : Nat) : (s.pick n).2.openRows = s.openRows := rfl
@[simp] theorem State.pick_prechargeAt (s : State) (n : Nat) : (s.pick n).2.prechargeAt = s.prechargeAt := rfl
@[simp] theorem State.pick_wordQ (s : State) (n : Nat) : (s.pick n).2.wordQ = s.wordQ := rfl
@[simp] theorem State.pick_burstAt (s : State) (n : Nat) : (s.pick n).2.burstAt = s.burstAt := rfl
@[simp] theorem State.pick_burstRun (s : State) (n : Nat) : (s.pick n).2.burstRun = s.burstRun := rfl
@[simp] theorem State.pick_l2 (s : State) (n : Nat) : (s.pick n).2.l2 = s.l2 := rfl
@[simp] theorem State.pick_l2marks (s : State) (n : Nat) : (s.pick n).2.l2marks = s.l2marks := rfl
@[simp] theorem State.pick_sync (s : State) (n : Nat) : (s.pick n).2.sync = s.sync := rfl
@[simp] theorem State.pick_overflow (s : State) (n : Nat) : (s.pick n).2.overflow = s.overflow := rfl
@[simp] theorem State.pick_hostMem (s : State) (n : Nat) : (s.pick n).2.hostMem = s.hostMem := rfl
@[simp] theorem State.pick_hostInFlight (s : State) (n : Nat) : (s.pick n).2.hostInFlight = s.hostInFlight := rfl
@[simp] theorem State.pick_hostDeny (s : State) (n : Nat) : (s.pick n).2.hostDeny = s.hostDeny := rfl
@[simp] theorem State.pick_flips (s : State) (n : Nat) : (s.pick n).2.flips = s.flips := rfl
@[simp] theorem State.pick_cores (s : State) (n : Nat) : (s.pick n).2.cores = s.cores := rfl
@[simp] theorem State.pick_hives (s : State) (n : Nat) : (s.pick n).2.hives = s.hives := rfl
@[simp] theorem State.pick_warps (s : State) (n : Nat) : (s.pick n).2.warps = s.warps := rfl
@[simp] theorem State.pick_teams (s : State) (n : Nat) : (s.pick n).2.teams = s.teams := rfl
@[simp] theorem State.pick_l2tlb (s : State) (n : Nat) : (s.pick n).2.l2tlb = s.l2tlb := rfl
@[simp] theorem State.pick_walkCache (s : State) (n : Nat) : (s.pick n).2.walkCache = s.walkCache := rfl
@[simp] theorem State.pick_stalls (s : State) (n : Nat) : (s.pick n).2.stalls = s.stalls := rfl
@[simp] theorem State.pick_heldReq (s : State) (n : Nat) : (s.pick n).2.heldReq = s.heldReq := rfl
@[simp] theorem State.pick_spillQ (s : State) (n : Nat) : (s.pick n).2.spillQ = s.spillQ := rfl
@[simp] theorem State.pick_engineQ (s : State) (n : Nat) : (s.pick n).2.engineQ = s.engineQ := rfl
@[simp] theorem State.pick_loads (s : State) (n : Nat) : (s.pick n).2.loads = s.loads := rfl
@[simp] theorem State.pick_stores (s : State) (n : Nat) : (s.pick n).2.stores = s.stores := rfl
@[simp] theorem State.pick_atomics (s : State) (n : Nat) : (s.pick n).2.atomics = s.atomics := rfl
@[simp] theorem State.pick_orphans (s : State) (n : Nat) : (s.pick n).2.orphans = s.orphans := rfl
@[simp] theorem State.pick_screens (s : State) (n : Nat) : (s.pick n).2.screens = s.screens := rfl
@[simp] theorem State.pick_pend (s : State) (n : Nat) : (s.pick n).2.pend = s.pend := rfl
@[simp] theorem State.pick_slabs (s : State) (n : Nat) : (s.pick n).2.slabs = s.slabs := rfl
@[simp] theorem State.pick_posted (s : State) (n : Nat) : (s.pick n).2.posted = s.posted := rfl
@[simp] theorem State.pick_gathers (s : State) (n : Nat) : (s.pick n).2.gathers = s.gathers := rfl
@[simp] theorem State.pick_coll (s : State) (n : Nat) : (s.pick n).2.coll = s.coll := rfl
@[simp] theorem State.pick_grids (s : State) (n : Nat) : (s.pick n).2.grids = s.grids := rfl
@[simp] theorem State.pick_contexts (s : State) (n : Nat) : (s.pick n).2.contexts = s.contexts := rfl
@[simp] theorem State.pick_parts (s : State) (n : Nat) : (s.pick n).2.parts = s.parts := rfl
@[simp] theorem State.pick_pkgQ (s : State) (n : Nat) : (s.pick n).2.pkgQ = s.pkgQ := rfl
@[simp] theorem State.pick_dieQ (s : State) (n : Nat) : (s.pick n).2.dieQ = s.dieQ := rfl
@[simp] theorem State.pick_fitWait (s : State) (n : Nat) : (s.pick n).2.fitWait = s.fitWait := rfl
@[simp] theorem State.pick_buckets (s : State) (n : Nat) : (s.pick n).2.buckets = s.buckets := rfl
@[simp] theorem State.pick_hearths (s : State) (n : Nat) : (s.pick n).2.hearths = s.hearths := rfl
@[simp] theorem State.pick_stoves (s : State) (n : Nat) : (s.pick n).2.stoves = s.stoves := rfl
@[simp] theorem State.pick_mailboxes (s : State) (n : Nat) : (s.pick n).2.mailboxes = s.mailboxes := rfl
@[simp] theorem State.pick_mboxOrder (s : State) (n : Nat) : (s.pick n).2.mboxOrder = s.mboxOrder := rfl
@[simp] theorem State.pick_f0Run (s : State) (n : Nat) : (s.pick n).2.f0Run = s.f0Run := rfl
@[simp] theorem State.pick_mboxCur (s : State) (n : Nat) : (s.pick n).2.mboxCur = s.mboxCur := rfl
@[simp] theorem State.pick_hvLog (s : State) (n : Nat) : (s.pick n).2.hvLog = s.hvLog := rfl
@[simp] theorem State.pick_mgmtLog (s : State) (n : Nat) : (s.pick n).2.mgmtLog = s.mgmtLog := rfl
@[simp] theorem State.pick_mgmtWraps (s : State) (n : Nat) : (s.pick n).2.mgmtWraps = s.mgmtWraps := rfl
@[simp] theorem State.pick_banks (s : State) (n : Nat) : (s.pick n).2.banks = s.banks := rfl
@[simp] theorem State.pick_traceUnits (s : State) (n : Nat) : (s.pick n).2.traceUnits = s.traceUnits := rfl
@[simp] theorem State.pick_sorica (s : State) (n : Nat) : (s.pick n).2.sorica = s.sorica := rfl
@[simp] theorem State.pick_soricaW (s : State) (n : Nat) : (s.pick n).2.soricaW = s.soricaW := rfl
@[simp] theorem State.pick_events (s : State) (n : Nat) : (s.pick n).2.events = s.events := rfl
@[simp] theorem State.pick_islands (s : State) (n : Nat) : (s.pick n).2.islands = s.islands := rfl
@[simp] theorem State.pick_volts (s : State) (n : Nat) : (s.pick n).2.volts = s.volts := rfl
@[simp] theorem State.pick_links (s : State) (n : Nat) : (s.pick n).2.links = s.links := rfl
@[simp] theorem State.pick_shadow (s : State) (n : Nat) : (s.pick n).2.shadow = s.shadow := rfl
@[simp] theorem State.pick_heartbeat (s : State) (n : Nat) : (s.pick n).2.heartbeat = s.heartbeat := rfl
@[simp] theorem State.pick_i3cReports (s : State) (n : Nat) : (s.pick n).2.i3cReports = s.i3cReports := rfl
@[simp] theorem State.pick_hostRead (s : State) (n : Nat) : (s.pick n).2.hostRead = s.hostRead := rfl
@[simp] theorem State.pick_core (s : State) (n : Nat) (y : Nat) : (s.pick n).2.core y = s.core y := rfl
@[simp] theorem State.pick_hive (s : State) (n : Nat) (y : Nat) : (s.pick n).2.hive y = s.hive y := rfl
@[simp] theorem State.pick_warp? (s : State) (n : Nat) (y z : Nat) : (s.pick n).2.warp? y z = s.warp? y z := rfl
@[simp] theorem State.pick_team? (s : State) (n : Nat) (y : Nat) : (s.pick n).2.team? y = s.team? y := rfl
@[simp] theorem State.pick_grid? (s : State) (n : Nat) (y : Nat) : (s.pick n).2.grid? y = s.grid? y := rfl
@[simp] theorem State.pick_ctx? (s : State) (n : Nat) (y : Nat) : (s.pick n).2.ctx? y = s.ctx? y := rfl
@[simp] theorem State.pick_part? (s : State) (n : Nat) (y : Nat) : (s.pick n).2.part? y = s.part? y := rfl
@[simp] theorem State.pick_hearth (s : State) (n : Nat) (y : Nat) : (s.pick n).2.hearth y = s.hearth y := rfl
@[simp] theorem State.pick_stove (s : State) (n : Nat) (y : Nat) : (s.pick n).2.stove y = s.stove y := rfl
@[simp] theorem State.pick_mailbox (s : State) (n : Nat) (y : Nat) : (s.pick n).2.mailbox y = s.mailbox y := rfl
@[simp] theorem State.pick_unit (s : State) (n : Nat) (y : Nat) : (s.pick n).2.unit y = s.unit y := rfl

/-! ## After `openWord` -/

@[simp] theorem State.openWord_agenda (s : State) : s.openWord.2.agenda = s.agenda := rfl
@[simp] theorem State.openWord_cur (s : State) : s.openWord.2.cur = s.cur := rfl
@[simp] theorem State.openWord_nextId (s : State) : s.openWord.2.nextId = s.nextId := rfl
@[simp] theorem State.openWord_powered (s : State) : s.openWord.2.powered = s.powered := rfl
@[simp] theorem State.openWord_bootStep (s : State) : s.openWord.2.bootStep = s.bootStep := rfl
@[simp] theorem State.openWord_boots (s : State) : s.openWord.2.boots = s.boots := rfl
@[simp] theorem State.openWord_measure (s : State) : s.openWord.2.measure = s.measure := rfl
@[simp] theorem State.openWord_bootWindow (s : State) : s.openWord.2.bootWindow = s.bootWindow := rfl
@[simp] theorem State.openWord_fuses (s : State) : s.openWord.2.fuses = s.fuses := rfl
@[simp] theorem State.openWord_vclock (s : State) : s.openWord.2.vclock = s.vclock := rfl
@[simp] theorem State.openWord_dclk (s : State) : s.openWord.2.dclk = s.dclk := rfl
@[simp] theorem State.openWord_mem (s : State) : s.openWord.2.mem = s.mem := rfl
@[simp] theorem State.openWord_synd (s : State) : s.openWord.2.synd = s.synd := rfl
@[simp] theorem State.openWord_poisoned (s : State) : s.openWord.2.poisoned = s.poisoned := rfl
@[simp] theorem State.openWord_homeClk (s : State) : s.openWord.2.homeClk = s.homeClk := rfl
@[simp] theorem State.openWord_rel (s : State) : s.openWord.2.rel = s.rel := rfl
@[simp] theorem State.openWord_rowTime (s : State) : s.openWord.2.rowTime = s.rowTime := rfl
@[simp] theorem State.openWord_perms (s : State) : s.openWord.2.perms = s.perms := rfl
@[simp] theorem State.openWord_hostBias (s : State) : s.openWord.2.hostBias = s.hostBias := rfl
@[simp] theorem State.openWord_elision (s : State) : s.openWord.2.elision = s.elision := rfl
@[simp] theorem State.openWord_unfilled (s : State) : s.openWord.2.unfilled = s.unfilled := rfl
@[simp] theorem State.openWord_openRows (s : State) : s.openWord.2.openRows = s.openRows := rfl
@[simp] theorem State.openWord_prechargeAt (s : State) : s.openWord.2.prechargeAt = s.prechargeAt := rfl
@[simp] theorem State.openWord_wordQ (s : State) : s.openWord.2.wordQ = s.wordQ := rfl
@[simp] theorem State.openWord_burstAt (s : State) : s.openWord.2.burstAt = s.burstAt := rfl
@[simp] theorem State.openWord_burstRun (s : State) : s.openWord.2.burstRun = s.burstRun := rfl
@[simp] theorem State.openWord_l2 (s : State) : s.openWord.2.l2 = s.l2 := rfl
@[simp] theorem State.openWord_l2marks (s : State) : s.openWord.2.l2marks = s.l2marks := rfl
@[simp] theorem State.openWord_sync (s : State) : s.openWord.2.sync = s.sync := rfl
@[simp] theorem State.openWord_overflow (s : State) : s.openWord.2.overflow = s.overflow := rfl
@[simp] theorem State.openWord_hostMem (s : State) : s.openWord.2.hostMem = s.hostMem := rfl
@[simp] theorem State.openWord_hostInFlight (s : State) : s.openWord.2.hostInFlight = s.hostInFlight := rfl
@[simp] theorem State.openWord_hostDeny (s : State) : s.openWord.2.hostDeny = s.hostDeny := rfl
@[simp] theorem State.openWord_flips (s : State) : s.openWord.2.flips = s.flips := rfl
@[simp] theorem State.openWord_cores (s : State) : s.openWord.2.cores = s.cores := rfl
@[simp] theorem State.openWord_hives (s : State) : s.openWord.2.hives = s.hives := rfl
@[simp] theorem State.openWord_warps (s : State) : s.openWord.2.warps = s.warps := rfl
@[simp] theorem State.openWord_teams (s : State) : s.openWord.2.teams = s.teams := rfl
@[simp] theorem State.openWord_l2tlb (s : State) : s.openWord.2.l2tlb = s.l2tlb := rfl
@[simp] theorem State.openWord_walkCache (s : State) : s.openWord.2.walkCache = s.walkCache := rfl
@[simp] theorem State.openWord_stalls (s : State) : s.openWord.2.stalls = s.stalls := rfl
@[simp] theorem State.openWord_heldReq (s : State) : s.openWord.2.heldReq = s.heldReq := rfl
@[simp] theorem State.openWord_spillQ (s : State) : s.openWord.2.spillQ = s.spillQ := rfl
@[simp] theorem State.openWord_engineQ (s : State) : s.openWord.2.engineQ = s.engineQ := rfl
@[simp] theorem State.openWord_loads (s : State) : s.openWord.2.loads = s.loads := rfl
@[simp] theorem State.openWord_stores (s : State) : s.openWord.2.stores = s.stores := rfl
@[simp] theorem State.openWord_atomics (s : State) : s.openWord.2.atomics = s.atomics := rfl
@[simp] theorem State.openWord_orphans (s : State) : s.openWord.2.orphans = s.orphans := rfl
@[simp] theorem State.openWord_screens (s : State) : s.openWord.2.screens = s.screens := rfl
@[simp] theorem State.openWord_pend (s : State) : s.openWord.2.pend = s.pend := rfl
@[simp] theorem State.openWord_slabs (s : State) : s.openWord.2.slabs = s.slabs := rfl
@[simp] theorem State.openWord_posted (s : State) : s.openWord.2.posted = s.posted := rfl
@[simp] theorem State.openWord_gathers (s : State) : s.openWord.2.gathers = s.gathers := rfl
@[simp] theorem State.openWord_coll (s : State) : s.openWord.2.coll = s.coll := rfl
@[simp] theorem State.openWord_grids (s : State) : s.openWord.2.grids = s.grids := rfl
@[simp] theorem State.openWord_contexts (s : State) : s.openWord.2.contexts = s.contexts := rfl
@[simp] theorem State.openWord_parts (s : State) : s.openWord.2.parts = s.parts := rfl
@[simp] theorem State.openWord_pkgQ (s : State) : s.openWord.2.pkgQ = s.pkgQ := rfl
@[simp] theorem State.openWord_dieQ (s : State) : s.openWord.2.dieQ = s.dieQ := rfl
@[simp] theorem State.openWord_fitWait (s : State) : s.openWord.2.fitWait = s.fitWait := rfl
@[simp] theorem State.openWord_buckets (s : State) : s.openWord.2.buckets = s.buckets := rfl
@[simp] theorem State.openWord_hearths (s : State) : s.openWord.2.hearths = s.hearths := rfl
@[simp] theorem State.openWord_stoves (s : State) : s.openWord.2.stoves = s.stoves := rfl
@[simp] theorem State.openWord_mailboxes (s : State) : s.openWord.2.mailboxes = s.mailboxes := rfl
@[simp] theorem State.openWord_mboxOrder (s : State) : s.openWord.2.mboxOrder = s.mboxOrder := rfl
@[simp] theorem State.openWord_f0Run (s : State) : s.openWord.2.f0Run = s.f0Run := rfl
@[simp] theorem State.openWord_mboxCur (s : State) : s.openWord.2.mboxCur = s.mboxCur := rfl
@[simp] theorem State.openWord_hvLog (s : State) : s.openWord.2.hvLog = s.hvLog := rfl
@[simp] theorem State.openWord_mgmtLog (s : State) : s.openWord.2.mgmtLog = s.mgmtLog := rfl
@[simp] theorem State.openWord_mgmtWraps (s : State) : s.openWord.2.mgmtWraps = s.mgmtWraps := rfl
@[simp] theorem State.openWord_banks (s : State) : s.openWord.2.banks = s.banks := rfl
@[simp] theorem State.openWord_traceUnits (s : State) : s.openWord.2.traceUnits = s.traceUnits := rfl
@[simp] theorem State.openWord_sorica (s : State) : s.openWord.2.sorica = s.sorica := rfl
@[simp] theorem State.openWord_soricaW (s : State) : s.openWord.2.soricaW = s.soricaW := rfl
@[simp] theorem State.openWord_events (s : State) : s.openWord.2.events = s.events := rfl
@[simp] theorem State.openWord_islands (s : State) : s.openWord.2.islands = s.islands := rfl
@[simp] theorem State.openWord_volts (s : State) : s.openWord.2.volts = s.volts := rfl
@[simp] theorem State.openWord_links (s : State) : s.openWord.2.links = s.links := rfl
@[simp] theorem State.openWord_shadow (s : State) : s.openWord.2.shadow = s.shadow := rfl
@[simp] theorem State.openWord_heartbeat (s : State) : s.openWord.2.heartbeat = s.heartbeat := rfl
@[simp] theorem State.openWord_i3cReports (s : State) : s.openWord.2.i3cReports = s.i3cReports := rfl
@[simp] theorem State.openWord_hostRead (s : State) : s.openWord.2.hostRead = s.hostRead := rfl
@[simp] theorem State.openWord_core (s : State) (y : Nat) : s.openWord.2.core y = s.core y := rfl
@[simp] theorem State.openWord_hive (s : State) (y : Nat) : s.openWord.2.hive y = s.hive y := rfl
@[simp] theorem State.openWord_warp? (s : State) (y z : Nat) : s.openWord.2.warp? y z = s.warp? y z := rfl
@[simp] theorem State.openWord_team? (s : State) (y : Nat) : s.openWord.2.team? y = s.team? y := rfl
@[simp] theorem State.openWord_grid? (s : State) (y : Nat) : s.openWord.2.grid? y = s.grid? y := rfl
@[simp] theorem State.openWord_ctx? (s : State) (y : Nat) : s.openWord.2.ctx? y = s.ctx? y := rfl
@[simp] theorem State.openWord_part? (s : State) (y : Nat) : s.openWord.2.part? y = s.part? y := rfl
@[simp] theorem State.openWord_hearth (s : State) (y : Nat) : s.openWord.2.hearth y = s.hearth y := rfl
@[simp] theorem State.openWord_stove (s : State) (y : Nat) : s.openWord.2.stove y = s.stove y := rfl
@[simp] theorem State.openWord_mailbox (s : State) (y : Nat) : s.openWord.2.mailbox y = s.mailbox y := rfl
@[simp] theorem State.openWord_unit (s : State) (y : Nat) : s.openWord.2.unit y = s.unit y := rfl

/-! ## After `countEvent` -/

@[simp] theorem State.countEvent_agenda (s : State) (k i c : Nat) : (s.countEvent k i c).agenda = s.agenda := rfl
@[simp] theorem State.countEvent_cur (s : State) (k i c : Nat) : (s.countEvent k i c).cur = s.cur := rfl
@[simp] theorem State.countEvent_freeCtr (s : State) (k i c : Nat) : (s.countEvent k i c).freeCtr = s.freeCtr := rfl
@[simp] theorem State.countEvent_nextId (s : State) (k i c : Nat) : (s.countEvent k i c).nextId = s.nextId := rfl
@[simp] theorem State.countEvent_powered (s : State) (k i c : Nat) : (s.countEvent k i c).powered = s.powered := rfl
@[simp] theorem State.countEvent_bootStep (s : State) (k i c : Nat) : (s.countEvent k i c).bootStep = s.bootStep := rfl
@[simp] theorem State.countEvent_boots (s : State) (k i c : Nat) : (s.countEvent k i c).boots = s.boots := rfl
@[simp] theorem State.countEvent_measure (s : State) (k i c : Nat) : (s.countEvent k i c).measure = s.measure := rfl
@[simp] theorem State.countEvent_bootWindow (s : State) (k i c : Nat) : (s.countEvent k i c).bootWindow = s.bootWindow := rfl
@[simp] theorem State.countEvent_fuses (s : State) (k i c : Nat) : (s.countEvent k i c).fuses = s.fuses := rfl
@[simp] theorem State.countEvent_vclock (s : State) (k i c : Nat) : (s.countEvent k i c).vclock = s.vclock := rfl
@[simp] theorem State.countEvent_dclk (s : State) (k i c : Nat) : (s.countEvent k i c).dclk = s.dclk := rfl
@[simp] theorem State.countEvent_mem (s : State) (k i c : Nat) : (s.countEvent k i c).mem = s.mem := rfl
@[simp] theorem State.countEvent_synd (s : State) (k i c : Nat) : (s.countEvent k i c).synd = s.synd := rfl
@[simp] theorem State.countEvent_poisoned (s : State) (k i c : Nat) : (s.countEvent k i c).poisoned = s.poisoned := rfl
@[simp] theorem State.countEvent_homeClk (s : State) (k i c : Nat) : (s.countEvent k i c).homeClk = s.homeClk := rfl
@[simp] theorem State.countEvent_rel (s : State) (k i c : Nat) : (s.countEvent k i c).rel = s.rel := rfl
@[simp] theorem State.countEvent_rowTime (s : State) (k i c : Nat) : (s.countEvent k i c).rowTime = s.rowTime := rfl
@[simp] theorem State.countEvent_perms (s : State) (k i c : Nat) : (s.countEvent k i c).perms = s.perms := rfl
@[simp] theorem State.countEvent_hostBias (s : State) (k i c : Nat) : (s.countEvent k i c).hostBias = s.hostBias := rfl
@[simp] theorem State.countEvent_elision (s : State) (k i c : Nat) : (s.countEvent k i c).elision = s.elision := rfl
@[simp] theorem State.countEvent_unfilled (s : State) (k i c : Nat) : (s.countEvent k i c).unfilled = s.unfilled := rfl
@[simp] theorem State.countEvent_openRows (s : State) (k i c : Nat) : (s.countEvent k i c).openRows = s.openRows := rfl
@[simp] theorem State.countEvent_prechargeAt (s : State) (k i c : Nat) : (s.countEvent k i c).prechargeAt = s.prechargeAt := rfl
@[simp] theorem State.countEvent_wordQ (s : State) (k i c : Nat) : (s.countEvent k i c).wordQ = s.wordQ := rfl
@[simp] theorem State.countEvent_burstAt (s : State) (k i c : Nat) : (s.countEvent k i c).burstAt = s.burstAt := rfl
@[simp] theorem State.countEvent_burstRun (s : State) (k i c : Nat) : (s.countEvent k i c).burstRun = s.burstRun := rfl
@[simp] theorem State.countEvent_l2 (s : State) (k i c : Nat) : (s.countEvent k i c).l2 = s.l2 := rfl
@[simp] theorem State.countEvent_l2marks (s : State) (k i c : Nat) : (s.countEvent k i c).l2marks = s.l2marks := rfl
@[simp] theorem State.countEvent_sync (s : State) (k i c : Nat) : (s.countEvent k i c).sync = s.sync := rfl
@[simp] theorem State.countEvent_overflow (s : State) (k i c : Nat) : (s.countEvent k i c).overflow = s.overflow := rfl
@[simp] theorem State.countEvent_hostMem (s : State) (k i c : Nat) : (s.countEvent k i c).hostMem = s.hostMem := rfl
@[simp] theorem State.countEvent_hostInFlight (s : State) (k i c : Nat) : (s.countEvent k i c).hostInFlight = s.hostInFlight := rfl
@[simp] theorem State.countEvent_hostDeny (s : State) (k i c : Nat) : (s.countEvent k i c).hostDeny = s.hostDeny := rfl
@[simp] theorem State.countEvent_flips (s : State) (k i c : Nat) : (s.countEvent k i c).flips = s.flips := rfl
@[simp] theorem State.countEvent_cores (s : State) (k i c : Nat) : (s.countEvent k i c).cores = s.cores := rfl
@[simp] theorem State.countEvent_hives (s : State) (k i c : Nat) : (s.countEvent k i c).hives = s.hives := rfl
@[simp] theorem State.countEvent_warps (s : State) (k i c : Nat) : (s.countEvent k i c).warps = s.warps := rfl
@[simp] theorem State.countEvent_teams (s : State) (k i c : Nat) : (s.countEvent k i c).teams = s.teams := rfl
@[simp] theorem State.countEvent_l2tlb (s : State) (k i c : Nat) : (s.countEvent k i c).l2tlb = s.l2tlb := rfl
@[simp] theorem State.countEvent_walkCache (s : State) (k i c : Nat) : (s.countEvent k i c).walkCache = s.walkCache := rfl
@[simp] theorem State.countEvent_stalls (s : State) (k i c : Nat) : (s.countEvent k i c).stalls = s.stalls := rfl
@[simp] theorem State.countEvent_heldReq (s : State) (k i c : Nat) : (s.countEvent k i c).heldReq = s.heldReq := rfl
@[simp] theorem State.countEvent_spillQ (s : State) (k i c : Nat) : (s.countEvent k i c).spillQ = s.spillQ := rfl
@[simp] theorem State.countEvent_engineQ (s : State) (k i c : Nat) : (s.countEvent k i c).engineQ = s.engineQ := rfl
@[simp] theorem State.countEvent_loads (s : State) (k i c : Nat) : (s.countEvent k i c).loads = s.loads := rfl
@[simp] theorem State.countEvent_stores (s : State) (k i c : Nat) : (s.countEvent k i c).stores = s.stores := rfl
@[simp] theorem State.countEvent_atomics (s : State) (k i c : Nat) : (s.countEvent k i c).atomics = s.atomics := rfl
@[simp] theorem State.countEvent_orphans (s : State) (k i c : Nat) : (s.countEvent k i c).orphans = s.orphans := rfl
@[simp] theorem State.countEvent_screens (s : State) (k i c : Nat) : (s.countEvent k i c).screens = s.screens := rfl
@[simp] theorem State.countEvent_pend (s : State) (k i c : Nat) : (s.countEvent k i c).pend = s.pend := rfl
@[simp] theorem State.countEvent_slabs (s : State) (k i c : Nat) : (s.countEvent k i c).slabs = s.slabs := rfl
@[simp] theorem State.countEvent_posted (s : State) (k i c : Nat) : (s.countEvent k i c).posted = s.posted := rfl
@[simp] theorem State.countEvent_gathers (s : State) (k i c : Nat) : (s.countEvent k i c).gathers = s.gathers := rfl
@[simp] theorem State.countEvent_coll (s : State) (k i c : Nat) : (s.countEvent k i c).coll = s.coll := rfl
@[simp] theorem State.countEvent_grids (s : State) (k i c : Nat) : (s.countEvent k i c).grids = s.grids := rfl
@[simp] theorem State.countEvent_contexts (s : State) (k i c : Nat) : (s.countEvent k i c).contexts = s.contexts := rfl
@[simp] theorem State.countEvent_parts (s : State) (k i c : Nat) : (s.countEvent k i c).parts = s.parts := rfl
@[simp] theorem State.countEvent_pkgQ (s : State) (k i c : Nat) : (s.countEvent k i c).pkgQ = s.pkgQ := rfl
@[simp] theorem State.countEvent_dieQ (s : State) (k i c : Nat) : (s.countEvent k i c).dieQ = s.dieQ := rfl
@[simp] theorem State.countEvent_fitWait (s : State) (k i c : Nat) : (s.countEvent k i c).fitWait = s.fitWait := rfl
@[simp] theorem State.countEvent_buckets (s : State) (k i c : Nat) : (s.countEvent k i c).buckets = s.buckets := rfl
@[simp] theorem State.countEvent_hearths (s : State) (k i c : Nat) : (s.countEvent k i c).hearths = s.hearths := rfl
@[simp] theorem State.countEvent_stoves (s : State) (k i c : Nat) : (s.countEvent k i c).stoves = s.stoves := rfl
@[simp] theorem State.countEvent_mailboxes (s : State) (k i c : Nat) : (s.countEvent k i c).mailboxes = s.mailboxes := rfl
@[simp] theorem State.countEvent_mboxOrder (s : State) (k i c : Nat) : (s.countEvent k i c).mboxOrder = s.mboxOrder := rfl
@[simp] theorem State.countEvent_f0Run (s : State) (k i c : Nat) : (s.countEvent k i c).f0Run = s.f0Run := rfl
@[simp] theorem State.countEvent_mboxCur (s : State) (k i c : Nat) : (s.countEvent k i c).mboxCur = s.mboxCur := rfl
@[simp] theorem State.countEvent_hvLog (s : State) (k i c : Nat) : (s.countEvent k i c).hvLog = s.hvLog := rfl
@[simp] theorem State.countEvent_mgmtLog (s : State) (k i c : Nat) : (s.countEvent k i c).mgmtLog = s.mgmtLog := rfl
@[simp] theorem State.countEvent_mgmtWraps (s : State) (k i c : Nat) : (s.countEvent k i c).mgmtWraps = s.mgmtWraps := rfl
@[simp] theorem State.countEvent_banks (s : State) (k i c : Nat) : (s.countEvent k i c).banks = s.banks := rfl
@[simp] theorem State.countEvent_traceUnits (s : State) (k i c : Nat) : (s.countEvent k i c).traceUnits = s.traceUnits := rfl
@[simp] theorem State.countEvent_sorica (s : State) (k i c : Nat) : (s.countEvent k i c).sorica = s.sorica := rfl
@[simp] theorem State.countEvent_soricaW (s : State) (k i c : Nat) : (s.countEvent k i c).soricaW = s.soricaW := rfl
@[simp] theorem State.countEvent_islands (s : State) (k i c : Nat) : (s.countEvent k i c).islands = s.islands := rfl
@[simp] theorem State.countEvent_volts (s : State) (k i c : Nat) : (s.countEvent k i c).volts = s.volts := rfl
@[simp] theorem State.countEvent_links (s : State) (k i c : Nat) : (s.countEvent k i c).links = s.links := rfl
@[simp] theorem State.countEvent_shadow (s : State) (k i c : Nat) : (s.countEvent k i c).shadow = s.shadow := rfl
@[simp] theorem State.countEvent_heartbeat (s : State) (k i c : Nat) : (s.countEvent k i c).heartbeat = s.heartbeat := rfl
@[simp] theorem State.countEvent_i3cReports (s : State) (k i c : Nat) : (s.countEvent k i c).i3cReports = s.i3cReports := rfl
@[simp] theorem State.countEvent_hostRead (s : State) (k i c : Nat) : (s.countEvent k i c).hostRead = s.hostRead := rfl
@[simp] theorem State.countEvent_core (s : State) (k i c : Nat) (y : Nat) : (s.countEvent k i c).core y = s.core y := rfl
@[simp] theorem State.countEvent_hive (s : State) (k i c : Nat) (y : Nat) : (s.countEvent k i c).hive y = s.hive y := rfl
@[simp] theorem State.countEvent_warp? (s : State) (k i c : Nat) (y z : Nat) : (s.countEvent k i c).warp? y z = s.warp? y z := rfl
@[simp] theorem State.countEvent_team? (s : State) (k i c : Nat) (y : Nat) : (s.countEvent k i c).team? y = s.team? y := rfl
@[simp] theorem State.countEvent_grid? (s : State) (k i c : Nat) (y : Nat) : (s.countEvent k i c).grid? y = s.grid? y := rfl
@[simp] theorem State.countEvent_ctx? (s : State) (k i c : Nat) (y : Nat) : (s.countEvent k i c).ctx? y = s.ctx? y := rfl
@[simp] theorem State.countEvent_part? (s : State) (k i c : Nat) (y : Nat) : (s.countEvent k i c).part? y = s.part? y := rfl
@[simp] theorem State.countEvent_hearth (s : State) (k i c : Nat) (y : Nat) : (s.countEvent k i c).hearth y = s.hearth y := rfl
@[simp] theorem State.countEvent_stove (s : State) (k i c : Nat) (y : Nat) : (s.countEvent k i c).stove y = s.stove y := rfl
@[simp] theorem State.countEvent_mailbox (s : State) (k i c : Nat) (y : Nat) : (s.countEvent k i c).mailbox y = s.mailbox y := rfl
@[simp] theorem State.countEvent_unit (s : State) (k i c : Nat) (y : Nat) : (s.countEvent k i c).unit y = s.unit y := rfl

/-! ## After `countPerf` -/

@[simp] theorem State.countPerf_agenda (s : State) (v c : Nat) : (s.countPerf v c).agenda = s.agenda := rfl
@[simp] theorem State.countPerf_cur (s : State) (v c : Nat) : (s.countPerf v c).cur = s.cur := rfl
@[simp] theorem State.countPerf_freeCtr (s : State) (v c : Nat) : (s.countPerf v c).freeCtr = s.freeCtr := rfl
@[simp] theorem State.countPerf_nextId (s : State) (v c : Nat) : (s.countPerf v c).nextId = s.nextId := rfl
@[simp] theorem State.countPerf_powered (s : State) (v c : Nat) : (s.countPerf v c).powered = s.powered := rfl
@[simp] theorem State.countPerf_bootStep (s : State) (v c : Nat) : (s.countPerf v c).bootStep = s.bootStep := rfl
@[simp] theorem State.countPerf_boots (s : State) (v c : Nat) : (s.countPerf v c).boots = s.boots := rfl
@[simp] theorem State.countPerf_measure (s : State) (v c : Nat) : (s.countPerf v c).measure = s.measure := rfl
@[simp] theorem State.countPerf_bootWindow (s : State) (v c : Nat) : (s.countPerf v c).bootWindow = s.bootWindow := rfl
@[simp] theorem State.countPerf_fuses (s : State) (v c : Nat) : (s.countPerf v c).fuses = s.fuses := rfl
@[simp] theorem State.countPerf_vclock (s : State) (v c : Nat) : (s.countPerf v c).vclock = s.vclock := rfl
@[simp] theorem State.countPerf_dclk (s : State) (v c : Nat) : (s.countPerf v c).dclk = s.dclk := rfl
@[simp] theorem State.countPerf_mem (s : State) (v c : Nat) : (s.countPerf v c).mem = s.mem := rfl
@[simp] theorem State.countPerf_synd (s : State) (v c : Nat) : (s.countPerf v c).synd = s.synd := rfl
@[simp] theorem State.countPerf_poisoned (s : State) (v c : Nat) : (s.countPerf v c).poisoned = s.poisoned := rfl
@[simp] theorem State.countPerf_homeClk (s : State) (v c : Nat) : (s.countPerf v c).homeClk = s.homeClk := rfl
@[simp] theorem State.countPerf_rel (s : State) (v c : Nat) : (s.countPerf v c).rel = s.rel := rfl
@[simp] theorem State.countPerf_rowTime (s : State) (v c : Nat) : (s.countPerf v c).rowTime = s.rowTime := rfl
@[simp] theorem State.countPerf_perms (s : State) (v c : Nat) : (s.countPerf v c).perms = s.perms := rfl
@[simp] theorem State.countPerf_hostBias (s : State) (v c : Nat) : (s.countPerf v c).hostBias = s.hostBias := rfl
@[simp] theorem State.countPerf_elision (s : State) (v c : Nat) : (s.countPerf v c).elision = s.elision := rfl
@[simp] theorem State.countPerf_unfilled (s : State) (v c : Nat) : (s.countPerf v c).unfilled = s.unfilled := rfl
@[simp] theorem State.countPerf_openRows (s : State) (v c : Nat) : (s.countPerf v c).openRows = s.openRows := rfl
@[simp] theorem State.countPerf_prechargeAt (s : State) (v c : Nat) : (s.countPerf v c).prechargeAt = s.prechargeAt := rfl
@[simp] theorem State.countPerf_wordQ (s : State) (v c : Nat) : (s.countPerf v c).wordQ = s.wordQ := rfl
@[simp] theorem State.countPerf_burstAt (s : State) (v c : Nat) : (s.countPerf v c).burstAt = s.burstAt := rfl
@[simp] theorem State.countPerf_burstRun (s : State) (v c : Nat) : (s.countPerf v c).burstRun = s.burstRun := rfl
@[simp] theorem State.countPerf_l2 (s : State) (v c : Nat) : (s.countPerf v c).l2 = s.l2 := rfl
@[simp] theorem State.countPerf_l2marks (s : State) (v c : Nat) : (s.countPerf v c).l2marks = s.l2marks := rfl
@[simp] theorem State.countPerf_sync (s : State) (v c : Nat) : (s.countPerf v c).sync = s.sync := rfl
@[simp] theorem State.countPerf_overflow (s : State) (v c : Nat) : (s.countPerf v c).overflow = s.overflow := rfl
@[simp] theorem State.countPerf_hostMem (s : State) (v c : Nat) : (s.countPerf v c).hostMem = s.hostMem := rfl
@[simp] theorem State.countPerf_hostInFlight (s : State) (v c : Nat) : (s.countPerf v c).hostInFlight = s.hostInFlight := rfl
@[simp] theorem State.countPerf_hostDeny (s : State) (v c : Nat) : (s.countPerf v c).hostDeny = s.hostDeny := rfl
@[simp] theorem State.countPerf_flips (s : State) (v c : Nat) : (s.countPerf v c).flips = s.flips := rfl
@[simp] theorem State.countPerf_cores (s : State) (v c : Nat) : (s.countPerf v c).cores = s.cores := rfl
@[simp] theorem State.countPerf_hives (s : State) (v c : Nat) : (s.countPerf v c).hives = s.hives := rfl
@[simp] theorem State.countPerf_warps (s : State) (v c : Nat) : (s.countPerf v c).warps = s.warps := rfl
@[simp] theorem State.countPerf_teams (s : State) (v c : Nat) : (s.countPerf v c).teams = s.teams := rfl
@[simp] theorem State.countPerf_l2tlb (s : State) (v c : Nat) : (s.countPerf v c).l2tlb = s.l2tlb := rfl
@[simp] theorem State.countPerf_walkCache (s : State) (v c : Nat) : (s.countPerf v c).walkCache = s.walkCache := rfl
@[simp] theorem State.countPerf_stalls (s : State) (v c : Nat) : (s.countPerf v c).stalls = s.stalls := rfl
@[simp] theorem State.countPerf_heldReq (s : State) (v c : Nat) : (s.countPerf v c).heldReq = s.heldReq := rfl
@[simp] theorem State.countPerf_spillQ (s : State) (v c : Nat) : (s.countPerf v c).spillQ = s.spillQ := rfl
@[simp] theorem State.countPerf_engineQ (s : State) (v c : Nat) : (s.countPerf v c).engineQ = s.engineQ := rfl
@[simp] theorem State.countPerf_loads (s : State) (v c : Nat) : (s.countPerf v c).loads = s.loads := rfl
@[simp] theorem State.countPerf_stores (s : State) (v c : Nat) : (s.countPerf v c).stores = s.stores := rfl
@[simp] theorem State.countPerf_atomics (s : State) (v c : Nat) : (s.countPerf v c).atomics = s.atomics := rfl
@[simp] theorem State.countPerf_orphans (s : State) (v c : Nat) : (s.countPerf v c).orphans = s.orphans := rfl
@[simp] theorem State.countPerf_screens (s : State) (v c : Nat) : (s.countPerf v c).screens = s.screens := rfl
@[simp] theorem State.countPerf_pend (s : State) (v c : Nat) : (s.countPerf v c).pend = s.pend := rfl
@[simp] theorem State.countPerf_slabs (s : State) (v c : Nat) : (s.countPerf v c).slabs = s.slabs := rfl
@[simp] theorem State.countPerf_posted (s : State) (v c : Nat) : (s.countPerf v c).posted = s.posted := rfl
@[simp] theorem State.countPerf_gathers (s : State) (v c : Nat) : (s.countPerf v c).gathers = s.gathers := rfl
@[simp] theorem State.countPerf_coll (s : State) (v c : Nat) : (s.countPerf v c).coll = s.coll := rfl
@[simp] theorem State.countPerf_grids (s : State) (v c : Nat) : (s.countPerf v c).grids = s.grids := rfl
@[simp] theorem State.countPerf_contexts (s : State) (v c : Nat) : (s.countPerf v c).contexts = s.contexts := rfl
@[simp] theorem State.countPerf_parts (s : State) (v c : Nat) : (s.countPerf v c).parts = s.parts := rfl
@[simp] theorem State.countPerf_pkgQ (s : State) (v c : Nat) : (s.countPerf v c).pkgQ = s.pkgQ := rfl
@[simp] theorem State.countPerf_dieQ (s : State) (v c : Nat) : (s.countPerf v c).dieQ = s.dieQ := rfl
@[simp] theorem State.countPerf_fitWait (s : State) (v c : Nat) : (s.countPerf v c).fitWait = s.fitWait := rfl
@[simp] theorem State.countPerf_buckets (s : State) (v c : Nat) : (s.countPerf v c).buckets = s.buckets := rfl
@[simp] theorem State.countPerf_hearths (s : State) (v c : Nat) : (s.countPerf v c).hearths = s.hearths := rfl
@[simp] theorem State.countPerf_stoves (s : State) (v c : Nat) : (s.countPerf v c).stoves = s.stoves := rfl
@[simp] theorem State.countPerf_mailboxes (s : State) (v c : Nat) : (s.countPerf v c).mailboxes = s.mailboxes := rfl
@[simp] theorem State.countPerf_mboxOrder (s : State) (v c : Nat) : (s.countPerf v c).mboxOrder = s.mboxOrder := rfl
@[simp] theorem State.countPerf_f0Run (s : State) (v c : Nat) : (s.countPerf v c).f0Run = s.f0Run := rfl
@[simp] theorem State.countPerf_mboxCur (s : State) (v c : Nat) : (s.countPerf v c).mboxCur = s.mboxCur := rfl
@[simp] theorem State.countPerf_hvLog (s : State) (v c : Nat) : (s.countPerf v c).hvLog = s.hvLog := rfl
@[simp] theorem State.countPerf_mgmtLog (s : State) (v c : Nat) : (s.countPerf v c).mgmtLog = s.mgmtLog := rfl
@[simp] theorem State.countPerf_mgmtWraps (s : State) (v c : Nat) : (s.countPerf v c).mgmtWraps = s.mgmtWraps := rfl
@[simp] theorem State.countPerf_traceUnits (s : State) (v c : Nat) : (s.countPerf v c).traceUnits = s.traceUnits := rfl
@[simp] theorem State.countPerf_sorica (s : State) (v c : Nat) : (s.countPerf v c).sorica = s.sorica := rfl
@[simp] theorem State.countPerf_soricaW (s : State) (v c : Nat) : (s.countPerf v c).soricaW = s.soricaW := rfl
@[simp] theorem State.countPerf_events (s : State) (v c : Nat) : (s.countPerf v c).events = s.events := rfl
@[simp] theorem State.countPerf_islands (s : State) (v c : Nat) : (s.countPerf v c).islands = s.islands := rfl
@[simp] theorem State.countPerf_volts (s : State) (v c : Nat) : (s.countPerf v c).volts = s.volts := rfl
@[simp] theorem State.countPerf_links (s : State) (v c : Nat) : (s.countPerf v c).links = s.links := rfl
@[simp] theorem State.countPerf_shadow (s : State) (v c : Nat) : (s.countPerf v c).shadow = s.shadow := rfl
@[simp] theorem State.countPerf_heartbeat (s : State) (v c : Nat) : (s.countPerf v c).heartbeat = s.heartbeat := rfl
@[simp] theorem State.countPerf_i3cReports (s : State) (v c : Nat) : (s.countPerf v c).i3cReports = s.i3cReports := rfl
@[simp] theorem State.countPerf_hostRead (s : State) (v c : Nat) : (s.countPerf v c).hostRead = s.hostRead := rfl
@[simp] theorem State.countPerf_core (s : State) (v c : Nat) (y : Nat) : (s.countPerf v c).core y = s.core y := rfl
@[simp] theorem State.countPerf_hive (s : State) (v c : Nat) (y : Nat) : (s.countPerf v c).hive y = s.hive y := rfl
@[simp] theorem State.countPerf_warp? (s : State) (v c : Nat) (y z : Nat) : (s.countPerf v c).warp? y z = s.warp? y z := rfl
@[simp] theorem State.countPerf_team? (s : State) (v c : Nat) (y : Nat) : (s.countPerf v c).team? y = s.team? y := rfl
@[simp] theorem State.countPerf_grid? (s : State) (v c : Nat) (y : Nat) : (s.countPerf v c).grid? y = s.grid? y := rfl
@[simp] theorem State.countPerf_ctx? (s : State) (v c : Nat) (y : Nat) : (s.countPerf v c).ctx? y = s.ctx? y := rfl
@[simp] theorem State.countPerf_part? (s : State) (v c : Nat) (y : Nat) : (s.countPerf v c).part? y = s.part? y := rfl
@[simp] theorem State.countPerf_hearth (s : State) (v c : Nat) (y : Nat) : (s.countPerf v c).hearth y = s.hearth y := rfl
@[simp] theorem State.countPerf_stove (s : State) (v c : Nat) (y : Nat) : (s.countPerf v c).stove y = s.stove y := rfl
@[simp] theorem State.countPerf_mailbox (s : State) (v c : Nat) (y : Nat) : (s.countPerf v c).mailbox y = s.mailbox y := rfl
@[simp] theorem State.countPerf_unit (s : State) (v c : Nat) (y : Nat) : (s.countPerf v c).unit y = s.unit y := rfl

end Sys2Proof.Machine
end

