-- ==== Sys2Proof/Machine/Registers.lean ====
section
/-! DEFINITION. What a function reads in its BAR0 (19 R386): the command mailbox (R388), trace unit windows (20 R410), counter bank
windows (R401) and the Sorica table with its counter blocks (R398; 05 R120; 06 R133). A read changes nothing. -/

namespace Sys2Proof.Machine

/-! ## The command mailbox (Tables 19.2, 19.3) -/

/-- STATUS codes. -/
def Status.code : Status → Nat
  | .ok => 0
  | .busy => 1
  | .revoked => 2
  | .denied => 3
  | .nores => 4
  | .badarg => 5
  | .aborted => 6
  | .pending => 0xFFFF

/-- The 64 bytes of a mailbox; DOORBELL, which is only written, reads 0. -/
def Mailbox.bytes (m : Mailbox) : List Byte :=
  toBytes 2 m.op.toNat ++ toBytes 2 (if m.force then 1 else 0) ++ toBytes 4 m.status.code ++
    ((List.range 6).flatMap fun i => toBytes 8 (m.args.getD i 0).toNat) ++ toBytes 8 0

/-! ## Trace units (Table 20.1) -/

/-- A unit or bank appears in a function's windows: every one in those of a physical function, in a VF's those of its partition. -/
def State.shows (s : State) (fn : Nat) (mask : Partition → Nat) (ix : Nat) : Bool :=
  fn == 0 || fn == pf1 || ((s.part? fn).map fun p => (mask p).testBit ix).getD false

/-- Dumps written under a unit's key slot since it was last loaded. -/
def State.dumpSeqOf (s : State) (u : Nat) : Nat :=
  (((s.unitVf u).bind s.part?).map fun p => Tab.get p.dumpSeq 0 (s.unit u).key).getD 0

/-- The 128 bytes of a unit's window for a function: a unit that it does not hold reads 0 but for STATE. -/
def State.unitWindow (s : State) (fn u : Nat) : List Byte :=
  let x := s.unit u
  if !s.shows fn (·.traceMask) u then toBytes 128 0
  else if x.holder = some fn then
    toBytes 8 x.wcount.toNat ++ toBytes 8 x.rcount.toNat ++ toBytes 4 x.drops.toNat ++ toBytes 4 1 ++
      toBytes 8 (x.control + (if x.stopped then 2 ^ 54 else 0) + if x.badstop then 2 ^ 53 else 0) ++ toBytes 8 x.stopcnt.toNat ++
      toBytes 8 x.stopivl.toNat ++ toBytes 8 x.dumpbase.toNat ++ toBytes 8 x.dumpCtl ++ toBytes 8 (s.dumpSeqOf u) ++ toBytes 8 x.dumplen.toNat ++ toBytes 48 0
  else toBytes 20 0 ++ toBytes 4 (if x.revoked.contains fn then 2 else 0) ++ toBytes 104 0

/-! ## Counter banks (Table 19.13) -/

/-- The 128 bytes of a bank's window: counts, selectors and STATE of a holder, the snapshot of one whose claim was revoked, else 0. -/
def State.bankWindow (s : State) (fn b : Nat) : List Byte :=
  let win (cnt : List DWord) (sel : List Nat) (st : Nat) : List Byte :=
    ((List.range 8).flatMap fun i => toBytes 8 (cnt.getD i 0).toNat) ++ ((List.range 8).flatMap fun i => toBytes 1 (sel.getD i 0)) ++
      toBytes 8 st ++ toBytes 48 0
  match if s.shows fn (·.perfMask) b then s.banks.find? b else none with
  | none => toBytes 128 0
  | some x => match x.revoked.find? fun y => y.1 == fn with
    | some y => win y.2.1 y.2.2 2
    | none => if x.holder = some fn then win x.cnt x.sel 1 else toBytes 128 0

/-! ## The Sorica table (R398) -/

/-- Entries of a kind that a function sees: a VF those that its partition owns (assumption 105). -/
def State.entriesOf (s : State) (fn kind : Nat) : List Nat :=
  (List.range (soricaCount kind)).filter fun i => fn == 0 || (s.soricaEntry kind i).owner == fn

/-- Event codes that a resource of a kind counts (Table 6.4). -/
def countedBy (kind : Nat) : List Nat :=
  match kind with
  | 3 => [4]
  | 11 => [7]
  | 14 => [6]
  | 15 => [4, 5]
  | 16 => [4]
  | 17 => [4]
  | 20 => [1, 2, 3]
  | _ => []

/-- Every entry that a function sees, in table order. -/
def State.soricaKeys (s : State) (fn : Nat) : List (Nat × Nat) :=
  (List.range 32).flatMap fun k => (s.entriesOf fn k).map fun i => (k, i)

/-- The counter blocks that follow the entries. -/
def State.counterBlocks (s : State) (keys : List (Nat × Nat)) : List Byte :=
  keys.flatMap fun e => (countedBy e.1).flatMap fun c => toBytes 8 (s.events.get 0 ((e.1 * 65536 + e.2) * 256 + c)).toNat

/-- The table as a function reads it: header, entries as they stand in their three-step writes (R120), counter blocks, certificate. -/
def State.soricaTable (s : State) (fn : Nat) : List Byte :=
  let keys := s.soricaKeys fn
  let blocks := s.counterBlocks keys
  let header := toBytes 4 1 ++ ((List.range 32).flatMap fun k => toBytes 2 (s.entriesOf fn k).length) ++ toBytes 4 128 ++
    toBytes 4 (128 + 16 * keys.length + blocks.length) ++ toBytes 4 Config.certificate.length ++ toBytes 48 0
  header ++ (keys.flatMap fun e => let v := s.soricaView e.1 e.2; soricaLine e.1 e.2 v.1 v.2) ++ blocks ++ Config.certificate

/-! ## BAR0 -/

/-- The byte at an offset of a function's BAR0; none where the function does not answer or no register stands there. Before step 6 PF 0
shows the mailbox and the boot window only (R404). -/
def State.bar0 (s : State) (fn off : Nat) : Option Byte :=
  if !s.fnUp fn then none
  else if 0x1000 ≤ off && off < 0x1040 then (s.mailbox fn).bytes[off - 0x1000]?
  else if 0x2000000 ≤ off && off < 0x3000000 && fn = 0 then some (s.bootWindow.get 0 (off - 0x2000000))
  else if s.bootStep < 6 then none
  else if 0x3000 ≤ off && off < 0x3800 then (s.unitWindow fn ((off - 0x3000) / 128))[off % 128]?
  else if 0x8000 ≤ off && off < 0xA000 then (s.bankWindow fn ((off - 0x8000) / 128))[off % 128]?
  else if 0x100000 ≤ off && off < 0x2000000 && fn != pf1 then (s.soricaTable fn)[off - 0x100000]?
  else none

end Sys2Proof.Machine
end

