-- ==== Sys2Proof/Tests/Slice0.lean ====
section
/-! SUPPORT. The model's own tests: ill-formed terms that the checks refuse, words written out from the spec, and for every
statement a state and operands that meet its hypotheses. -/

-- The tests are checked one after another: side by side their kernel evaluations would need more memory than check.sh grants.
set_option Elab.async false

namespace Sys2Proof.Tests

open Sys2Proof Sys2Proof.Machine Sys2Proof.Claims

/-! ## Ill-formed terms -/

/-- A header with both guards p7, as the spec's examples have it. -/
def hd : Hdr := ⟨7, 7, false, 0, false, false, 0, false, 0⟩
/-- A header whose guard p0 is clear: Active is empty. -/
def hd0 : Hdr := { hd with g1 := 0 }
def vb (d a b c e : BitVec 8) (m : BitVec 24) : VBody := ⟨d, a, b, c, e, m⟩
def zb : VBody := ⟨0, 0, 0, 0, 0, 0⟩
def zc : CBody := ⟨0, 0, 0, 0, 0, 0⟩

/-- A field that must be zero is not (R190): an unused body field, FS, HINT, a reserved MOD bit. -/
theorem test_illformed_zero_fields : [Instr.nop hd { zb with d := 1 }, .exit { hd with fs := 1 } zb, .join { hd with hint := 1 } zb,
    .add hd (vb 3 1 2 4 0 0), .add hd (vb 3 1 2 0 0 8), .brk hd { zb with mod := 256 }, .srd hd ⟨3, 0x100, 2⟩].all (fun i => !i.wellFormed) = true := by decide
/-- A register code that no register has, a vector code where a scalar is asked, a group past v191 (R191). -/
theorem test_illformed_codes : [Instr.add hd (vb 0xBF 1 2 0 0 2), .lea hd (vb 0xBF 1 2 0 0 0), .bcopy hd (vb 3 0xC0 0xC1 0xC4 0 0),
    .barWait hd ⟨3, 0, 0, 0⟩, .cmp hd (vb 8 1 2 0 0 0), .cas16 hd ⟨185, 0xC0, 0xFF, 0, 0, 0x80⟩].all (fun i => !i.wellFormed) = true := by decide
/-- A value outside a field's table: COUNT above 1,025, NB away from `drain`, `fence.mem` of another kind, n above 63, condition 6, a type set, a
selector, an RO register, a size, a scope. -/
theorem test_illformed_values : [Instr.barArrive hd ⟨0, 0, 1026 * 16, 0⟩, .barArrive hd ⟨0, 0, 0x8000, 0⟩, .fence hd ⟨0, 0, 0, 28⟩, .owait hd ⟨0, 0, 64, 0⟩,
    .cmp hd (vb 3 1 2 0 0 0x60), .lred hd (vb 3 1 0 0 0 3), .srd hd ⟨3, 3, 0⟩, .swr hd ⟨0xC4, 0x101, 0⟩, .ld hd ⟨3, 0xC2, 0xFF, 0, 0, 0xA0⟩,
    .ld hd ⟨3, 0xC2, 0xFF, 0x1D, 0, 0x40⟩, .trap { hd with u := true } ⟨0, 0, 1, 0⟩].all (fun i => !i.wellFormed) = true := by decide
/-- The matrix stream: guards, U, FS, COUNT, region, unused fields, rounds of `mbarr`, registers of `mset`. -/
theorem test_illformed_matrix : [Instr.mend hd0 zc, .mend { hd with u := true } zc, .mstart { hd with fs := 1 } zc, .mmac hd zc, .mseal hd { zc with region := 16 },
    .munseal hd { zc with acc := 1 }, .mzero hd { zc with warp := 1 }, .mget hd { zc with region := 1 }, .mput hd { zc with cmod := 0x80 },
    .mbwait hd { zc with cmod := 16 }, .mbarr hd { zc with cmod := 1026 * 16 }, .mset hd ⟨8, 0, 0, 0⟩, .mpoint hd { zc with cmod := 256 },
    .mfence hd { zc with region := 16, cmod := 1 }, .mbra hd ⟨0, 0, 1, 0⟩, .mloop hd ⟨0, 0, 0, 1⟩].all (fun i => !i.wellFormed) = true := by decide
/-- Stoves (Table 15.7): a shift above 7, a condition above 4, a burst register above 3, a mode above 5. -/
theorem test_illformed_stove : [Instr.aset 0 8 0, .abr 5 0 0 0, .xpop 4, .xpush 4 0, .xadd 4 0 0, .xmul 0 4 0, .xfma 4 0 15, .xmax 0 0 4, .xscale 4 0 0,
    .xcvt 0 0 6, .xset 0 8 0, .xsetB 4 0, .xbr 5 0 0 0].all (fun i => !i.wellFormed) = true := by decide
/-- Events name parties that exist. -/
theorem test_illformed_events : [Instr.launchAccept 0, .teamPlace 96, .teamRetire 384 0, .sample 0 4, .dramActivate 8 0 0 0, .stoveEnd 0 32,
    .passGrant 0 32, .countStop 16, .linkTraining 2 16 6, .registerWrite 66 .doorbell 0, .barrierTimeout 0 0 16].all (fun i => !i.wellFormed) = true := by decide

/-! ## Words written out from the spec -/

/-- Words of the obligation. -/
theorem test_decoded_words : Obligations.DecodedWords := by unfold Obligations.DecodedWords; decide
/-- The example words of chapters 02, 10, 11, 13, 14 and 15 (R206, R217, R247, R323, R290). -/
theorem test_words_of_the_examples :
    decodeStream 0x00C9C0000000001000000004 = some (.call { hd with g1 := 2 } ⟨2, 0, 0, 4⟩) ∧
    decodeStream 0x109DC000C400000000020000 = some (.barSync hd ⟨0xC4, 0, 2, 0⟩) ∧
    decodeStream 0x401DC000040201000000BA04 = some (.shfl hd (vb 4 2 1 0 0 0xBA04)) ∧
    decodeStream 0x405DC0000602000000000200 = some (.lred hd (vb 6 2 0 0 0 0x200)) ∧
    decodeStream 0xE01DC00008C201C400000042 = some (.gred hd ⟨8, 0xC2, 1, 0xC4, 0, 0x42⟩) := by decide
/-- Unassigned points are no instruction (Table 9.7; R66's example 0x144; Table 15.8 ends at 9). -/
theorem test_unassigned : decodeStream 0x511DC2000506070000000000 = none ∧ decodeStream 0x031DC0000000000000000000 = none ∧
    (decodeStove 0x50000000).toOption = none ∧ (decodeStove 0xE0000000).toOption = none := by decide
/-- One word of each class, opcode in bits 95 to 86 (Table 9.4): 64 × class + operation. -/
theorem test_word_of_each_class :
    (decodeStream 0x201DC0000301020000000000 = some (.add hd (vb 3 1 2 0 0 0))) ∧
    (decodeStream 0x301DC0000301000000000000 = some (.popc hd (vb 3 1 0 0 0 0))) ∧
    (decodeStream 0x505DC000C401000000000000 = some (.pmask hd (vb 0xC4 1 0 0 0 0))) ∧
    (decodeStream 0x60DDC0000301020400000000 = some (.ffma hd (vb 3 1 2 4 0 0))) ∧
    (decodeStream 0x701DC0000301020000010000 = some (.hadd2 hd (vb 3 1 2 0 0 0x10000))) ∧
    (decodeStream 0x805DC0000301000000000000 = some (.frsq hd (vb 3 1 0 0 0 0))) ∧
    (decodeStream 0x901DC0000301000000100000 = some (.cvt hd (vb 3 1 0 0 0 0x100000))) ∧
    (decodeStream 0xA05DC00003C2020000000440 = some (.st hd ⟨3, 0xC2, 2, 0, 4, 0x40⟩)) ∧
    (decodeStream 0xB01DC00003C2FF0000000040 = some (.atom hd ⟨3, 0xC2, 0xFF, 0, 0, 0x40⟩)) ∧
    (decodeStream 0xC01DC000C4C2C6C800000001 = some (.bcopy hd (vb 0xC4 0xC2 0xC6 0xC8 0 1))) ∧
    (decodeStream 0xD09DC0000102030405000006 = some (.mmac hd ⟨1, 2, 3, 4, 5, 6⟩)) ∧
    (decodeStream 0xF01DC0000300110000000000 = some (.srd hd ⟨3, 0x11, 0⟩)) := by decide
/-- Stove words: T, OP, D, A, B and IMM15 of Table 15.7. -/
theorem test_stove_words : (decodeStove 0x00188000).toOption = some (.aopen 3 1) ∧ (decodeStove 0x20807FFF).toOption = some (.aset 1 0 0x7FFF) ∧
    (decodeStove 0xA0898000).toOption = some (.xfma 1 1 3) ∧ (decodeStove 0x48000000).toOption = some .aend := by decide

/-! ## Witnesses: instructions of fragments -/

/-- Fragment `x` of `State.cur` meets `Ready` of `Safety.lean` (and `p`). -/
def readyAnd (i : Instr) (s : State) (p : Ctx → Bool) : Bool :=
  match s.issuer i with
  | some x => x.checkIssue i s.taken == none && x.upset == 0 && (!endsScreen i || ((s.team? x.team).bind (·.screen)).isNone) &&
      (!abortsTx i || x.w.inTx x.act == 0) && p x
  | none => false

theorem ready_of {i : Instr} {s : State} {p : Ctx → Bool} (h : readyAnd i s p = true) : ∃ x, Ready i s x ∧ p x = true := by
  unfold readyAnd at h
  split at h
  · rename_i x hx
    simp only [Bool.and_eq_true, Bool.or_eq_true, beq_iff_eq, Bool.not_eq_true', Option.isNone_iff_eq_none] at h
    exact ⟨x, ⟨hx, h.1.1.1.1, h.1.1.1.2, h.1.1.2, h.1.2⟩, h.2⟩
  · cases h

/-- The team that `withFetchWord` places, its fragment about to issue; format slots of kinds 8 (blocks of 32), 6 and 3, and one page mapped at 0. -/
def stI (i : Instr) : State :=
  let w := (encodeStream i).getD 0
  let s := State.reset.placeStream w
  let s := s.modGrid 0 fun g => { g with lr := { g.lr with fmt := [0x508, 6, 3, 0, 0, 0, 0, 0] } }
  let s := s.modCore 0 fun c => { c with tlb := ⟨64, 0, 4096, 3⟩ :: c.tlb }
  { s with cur := .frag 0 0 0 0x1000 w .alone 0, fuses := ⟨0, false, []⟩ }
def ready (i : Instr) : Bool := readyAnd i (stI i) fun _ => true
def idle : List Instr → Bool := fun l => l.all fun i => readyAnd i (stI i) fun x => x.act == 0

theorem witness_WrapArithmetic : ([Instr.add hd (vb 3 1 2 0 0 0), .sub hd (vb 3 1 2 0 0 1), .mul hd (vb 3 1 2 0 0 0), .neg hd (vb 3 1 0 0 0 0),
    .and hd (vb 3 1 2 0 0 0), .or hd (vb 3 1 2 0 0 0), .xor hd (vb 3 1 2 0 0 0), .not hd (vb 3 1 0 0 0 1), .andn hd (vb 3 1 2 0 0 0),
    .mov hd (vb 191 0 0 0 0 1)].all ready) = true := by decide +kernel
theorem witness_IntegerResults : ([Instr.mulh hd (vb 3 1 2 0 0 0), .mad hd (vb 3 1 2 4 0 0), .min hd (vb 3 1 2 0 0 0), .max hd (vb 3 1 2 0 0 0),
    .abs hd (vb 3 1 0 0 0 4), .neg hd (vb 3 1 0 0 0 4), .addi hd ⟨3, 1, 0xFFFFFFFF, 4⟩, .movi hd ⟨3, 0, 5, 0⟩, .lea hd (vb 3 1 2 0 0 0x70),
    .add64 hd (vb 3 1 2 0 0 3), .mad64 hd (vb 3 1 2 4 0 0), .shl hd (vb 3 1 32 0 0 0x800), .shr hd (vb 3 1 2 0 0 0), .sar hd (vb 3 1 2 0 0 0),
    .rot hd (vb 3 1 2 0 0 0), .sel hd (vb 3 1 2 0 0 0xF0), .andi hd ⟨3, 1, 9, 0⟩, .ori hd ⟨3, 1, 9, 0⟩, .cmp hd (vb 7 1 2 0 0 0x50),
    .cmpi hd ⟨0, 1, 9, 0x10⟩, .popc hd (vb 3 1 0 0 0 0), .clz hd (vb 3 1 0 0 0 0), .ctz hd (vb 3 1 0 0 0 0), .brev hd (vb 3 1 0 0 0 0),
    .bfe hd (vb 3 1 4 8 0 0xC00), .bfi hd (vb 3 1 2 4 8 0x600), .prmt hd (vb 3 1 2 4 8 0x400), .shfn hd (vb 3 1 2 4 0 0x100),
    .lop3 hd (vb 3 1 2 4 0 0xE80000), .add { hd with u := true } (vb 0xC3 0xC1 0xC2 0 0 6), .cmp { hd with u := true } (vb 1 0xC1 0xC2 0 0 2)].all ready) = true := by
  decide +kernel
theorem witness_LaneResults : ([Instr.shfl hd (vb 4 2 1 0 0 0xBA04), .lred hd (vb 6 2 0 0 0 0x200), .lred hd (vb 0xC4 2 0 0 0 0), .lscan hd (vb 7 2 0 0xFF 0 0x280),
    .vote hd (vb 0xC4 0 0 0 0 0), .vote hd (vb 1 0 0 0 0 0x100004), .ballot hd (vb 0xC4 0 0 0 0 0), .ballot hd (vb 3 0 0 0 0 0x70000),
    .bcast hd (vb 3 1 0xC6 0 0 0), .bcast hd (vb 0xC3 1 0 0 0 0x100000), .matchLanes hd (vb 3 1 0 0 0 0x8000), .prank hd (vb 3 0 0 0 0 0),
    .plop hd (vb 3 1 2 4 0 0x80), .pmask hd (vb 0xC4 8 0 0 0 0), .psetm hd (vb 3 1 0 0 0 0), .pact hd (vb 0xC4 0 0 0 0 2)].all ready) = true ∧
    idle [.ballot hd0 (vb 0xC4 0 0 0 0 0), .pmask hd0 (vb 0xC4 1 0 0 0 0)] = true := by decide +kernel
theorem witness_FloatResults : ([Instr.fadd hd (vb 3 1 2 0 0 3), .fsub hd (vb 3 1 2 0 0 0), .fmul hd (vb 3 1 2 0 0 0), .ffma hd (vb 3 1 2 4 0 0),
    .fmin hd (vb 3 1 2 0 0 0), .fmax hd (vb 3 1 2 0 0 0), .frnd hd (vb 3 1 0 0 0 2), .fclass hd (vb 3 1 0 0 0 0), .fscale hd (vb 3 1 2 0 0 0),
    .fexpt hd (vb 3 1 0 0 0 0), .fdot2 hd (vb 3 1 2 4 0 0x10000), .fcmp hd (vb 3 1 2 0 0 0x600), .hadd2 hd (vb 3 1 2 0 0 0x10000),
    .hsub2 hd (vb 3 1 2 0 0 0x20000), .hmul2 hd (vb 3 1 2 0 0 0x10000), .hfma2 hd (vb 3 1 2 4 0 0x20003), .hmin2 hd (vb 3 1 2 0 0 0x10000),
    .hmax2 hd (vb 3 1 2 0 0 0x10000), .hcmp2 hd (vb 3 1 2 0 0 0x10600), .e8dot4 hd (vb 3 1 2 4 0 0x340000), .cvt hd (vb 3 1 0 0 0 0x100000),
    .cvtq hd (vb 3 1 0 0 0 0), .cvtdq hd (vb 3 1 0 0 0 0), .cvsc hd (vb 3 1 0 0 0 0), .pack hd (vb 3 1 2 0 0 0x10000), .pack hd (vb 3 1 2 4 8 0x30000),
    .unpack hd (vb 3 1 0 0 0 0x401000)].all ready) = true := by decide +kernel
theorem witness_SpecialResults : ([Instr.frcp hd (vb 3 1 0 0 0 0), .frsq hd (vb 3 1 0 0 0 0), .fsqrt hd (vb 3 1 0 0 0 0), .fex2 hd (vb 3 1 0 0 0 0),
    .flg2 hd (vb 3 1 0 0 0 0), .fsin hd (vb 3 1 0 0 0 0), .fcos hd (vb 3 1 0 0 0 0), .fscs hd (vb 190 1 0 0 0 0), .ftanh hd (vb 3 1 0 0 0 0),
    .fsig hd (vb 3 1 0 0 0 0), .ferf hd (vb 3 1 0 0 0 0)].all ready) = true ∧ idle [.frcp hd0 (vb 3 1 0 0 0 0)] = true ∧
    ([(7, ⟨0, 0, [⟨.v 3 0, 1⟩], none⟩), (8, ⟨0, 0, [putS 0xC4 0], some (1, 2)⟩)] : Tab Pending).map (fun p => p.2.sysc.isNone) = [true, false] := by
  decide +kernel
theorem witness_SystemRegisters : ([Instr.srd hd ⟨3, 0x300, 1⟩, .srd hd ⟨0xC4, 0x10, 0⟩, .sysc hd ⟨0xC4, 7, 0⟩].all ready) = true ∧
    readyAnd (.swr hd ⟨0xC4, 0x100, 0⟩) (stI (.swr hd ⟨0xC4, 0x100, 0⟩)) (fun x => x.act != 0 && x.scal 0xC4 >>> 5 == 0) = true ∧
    (let s := (stI (.swr hd ⟨0xC4, 0x100, 0⟩)).modWarp 0 0 fun w => { w with sregs := w.sregs.put 4 32 }
     readyAnd (.swr hd ⟨0xC4, 0x100, 0⟩) s (fun x => x.act != 0 && x.scal 0xC4 >>> 5 != 0) = true) ∧ idle [.swr hd0 ⟨0xC4, 0x100, 0⟩] = true := by
  decide +kernel

/-- `canGo` of the statement on transfers. -/
def goes (s : State) (x : Ctx) (target : Nat → DWord) (recon : Option DWord) : Bool :=
  ((threadsOf x.act).all fun t => target t == x.next || (s.targetCause x.core x.gctx x.vf (target t)).isNone) &&
    (recon.map pcShapeOk).getD true
/-- `hasRoom` of the same statement. -/
def roomy (x : Ctx) (target : Nat → DWord) (first : Bool) : Bool :=
  let groups := groupsOf (x.w.entry x.entry).mask (if first then x.act else 0) (nextPcs x target)
  (x.w.entry x.entry).reexec || decide (groups.length ≤ 1) || decide (groups.length ≤ x.w.freeEntries) || decide (x.w.deferrals.length < 32)
/-- No free entry, no free record, and half the threads active. -/
def stFull (i : Instr) : State := (stI i).modWarp 0 0 fun w =>
  { w with entries := w.entry 0 |> fun e => (List.range 16).map fun k => (k, if k = 0 then { e with mask := 3 } else { e with mask := 0, st := .join }),
           deferrals := List.replicate 32 ⟨1, 0, 0, 0, 0, []⟩, launched := 3, preds := [(1, 1)] }
theorem witness_Transfers :
    (let j : JBody := ⟨0, 0, 0, 4⟩
     (readyAnd (.bra hd j) (stI (.bra hd j)) fun x => goes (stI (.bra hd j)).taken x (fun _ => jTarget x.pc j) (some (jRecon x.pc j))) = true ∧
     (readyAnd (.call hd j) (stI (.call hd j)) fun x => goes (stI (.call hd j)).taken x (fun _ => jTarget x.pc j) (some (jRecon x.pc j))) = true) ∧
    (let b := vb 0 0xC1 0xC2 0xFF 0 0
     let s (i : Instr) : State := (stI i).modWarp 0 0 fun w => { w with sregs := (w.sregs.put 1 0x1000).put 2 0 }
     (readyAnd (.brx hd b) (s (.brx hd b)) fun x => goes (s (.brx hd b)).taken x (x.xTarget b.a b.b) (x.xRecon b.c)) = true ∧
     (let b := vb 190 0xC1 0xC2 0xFF 0 0
      readyAnd (.callx hd b) (s (.callx hd b)) fun x => goes (s (.callx hd b)).taken x (x.xTarget b.a b.b) (x.xRecon b.c)) = true ∧
     (readyAnd (.ret hd (vb 0 0xC1 0 0 0 0)) (s (.ret hd (vb 0 0xC1 0 0 0 0))) fun x =>
        goes (s (.ret hd (vb 0 0xC1 0 0 0 0))).taken x (x.op64 0xC1) none) = true) ∧
    (readyAnd (.join hd zb) (stI (.join hd zb)) fun x => roomy x (fun _ => x.e.rpc.getD x.next) false) = true ∧
    (let h := { hd with g1 := 1 }
     let j : JBody := ⟨0, 0, 0, 4⟩
     (readyAnd (.bra hd j) (stI (.bra hd j)) fun x => roomy x (fun _ => jTarget x.pc j) true) = true ∧
     (readyAnd (.bra h j) (stFull (.bra h j)) fun x =>
       goes (stFull (.bra h j)).taken x (fun _ => jTarget x.pc j) (some (jRecon x.pc j)) && !roomy x (fun _ => jTarget x.pc j) true) = true) := by decide +kernel

theorem witness_UniformTransfer :
    let w := ((stI (.nop hd zb)).warp? 0 0).getD default
    (w.entry 0).mask ≠ 0 ∧ (w.entry 0).reexec = false ∧ ∀ t ∈ threadsOf (w.entry 0).mask, (fun _ => 0x1001#64) t = 0x1001 := by decide +kernel
/-- The last three clauses of the statement need a thread of the MASK and a group: thread 63 goes elsewhere. -/
theorem witness_GroupsPartition : (groupsOf 0x8000000000000001 0x8000000000000000 fun t => if t = 63 then 0x1080 else 0x1001) =
    [(0x1080, 0x8000000000000000), (0x1001, 1)] ∧ (0x8000000000000001#64).getLsbD 63 = true := by decide +kernel

/-- A state whose grid has the placed line's first slot as its handler PC. -/
def stH (i : Instr) : State := (stI i).modGrid 0 fun g => { g with lr := { g.lr with handler := 0x1000 } }
theorem witness_HandlerEntry :
    let s := stH (.nop hd zb)
    let w := (s.warp? 0 0).getD default
    let g := (s.gridOfTeam w.team).getD ⟨0, 0, placedRec false, 0, 0, 0, 0, none, 0, .ready, none, false, 0, 0, 0, 0, none, [], 0, []⟩
    s.warp? 0 0 = some w ∧ s.gridOfTeam w.team = some g ∧ g.lr.handler ≠ 0 ∧ s.targetCause 0 g.ctx g.vf g.lr.handler = none ∧ (w.entry 0).mask ≠ 0 := by
  decide +kernel
theorem witness_UserTrap :
    (let w := ((stH (.nop hd zb)).warp? 0 0).getD default
     (stH (.nop hd zb)).warp? 0 0 = some w ∧ routeOf causeSoftTrap false = 0 ∧ (w.entry 0).handler = false ∧ w.trapBusy = false) ∧
    (let s := (stH (.nop hd zb)).modWarp 0 0 fun w => { w with handler := some (1, 1) }
     let w := (s.warp? 0 0).getD default
     s.warp? 0 0 = some w ∧ routeOf causePageFault false ≤ 1 ∧ (w.entry 0).handler = false ∧ w.trapBusy = true) ∧
    (let s := (stH (.nop hd zb)).modWarp 0 0 fun w => w.modEntry 0 fun e => { e with handler := true }
     s.warp? 0 0 = some ((s.warp? 0 0).getD default) ∧ routeOf causeSoftTrap false ≤ 1 ∧ (((s.warp? 0 0).getD default).entry 0).handler = true) := by
  decide +kernel
theorem witness_SystemHold :
    let s := stH (.nop hd zb)
    let w := (s.warp? 0 0).getD default
    s.warp? 0 0 = some w ∧ routeOf causePageFault false = 1 ∧ (w.entry 0).handler = false ∧ w.trapBusy = false ∧
      ((s.logFault (s.vfOfTeam w.team) 0 (plain causePageFault 1) 0x1000).warp? 0 0).isSome = true := by decide +kernel
theorem witness_ControlFlow : ([Instr.nop hd zb, .exit hd zb].all ready) = true ∧ idle [.yield hd0 zb, .trap hd0 ⟨0, 0, 1, 0⟩] = true ∧
    readyAnd (.yield hd zb) (stI (.yield hd zb)) (fun x => x.act != 0) = true ∧
    readyAnd (.brk hd zb) (stI (.brk hd zb)) (fun x => ((stI (.brk hd zb)).brkUnit x.vf x.gctx).isNone) = true ∧
    readyAnd (.trap hd ⟨0, 0, 1, 0⟩) (stI (.trap hd ⟨0, 0, 1, 0⟩)) (fun x => x.act != 0) = true ∧
    (let i := Instr.tret hd ⟨0, 0, 1, 0⟩
     let s := (stI i).modWarp 0 0 fun w => { w.modEntry 0 fun e => { e with handler := true } with handler := some (0, (w.entry 0).mask) }
     readyAnd i s (fun x => x.tretOk hd ⟨0, 0, 1, 0⟩) = true ∧ readyAnd i (stI i) (fun x => !x.tretOk hd ⟨0, 0, 1, 0⟩) = true) := by decide +kernel

/-- Barrier 15 of the placed team has one thread waiting for its current generation, and `expected` 2. -/
def stBar (i : Instr) : State := (stI i).modTeam 0 fun t => t.setBar 15 { Barrier.start with arrived := 1, expected := 2, pend := [(0, 0)] }
theorem witness_BarrierMembers : ([Instr.barArrive hd ⟨0, 0, 2, 0⟩].all ready) = true ∧
    readyAnd (.barQuery hd ⟨0xC4, 0, 0, 0⟩) (stI (.barQuery hd ⟨0xC4, 0, 0, 0⟩)) (fun x => x.act != 0) = true ∧
    (let i := Instr.barWait hd ⟨0xC4, 0, 15, 0⟩
     readyAnd i (stI i) (fun x => x.act != 0 && (((stI i).taken.barOf x 15).ready (x.w.linear x.act))) = true ∧
     readyAnd i (stBar i) (fun x => x.act != 0 && !(((stBar i).taken.barOf x 15).ready (x.w.linear x.act))) = true) ∧
    (let i := Instr.barSync hd ⟨0xC4, 0, 15, 0⟩
     readyAnd i (stI i) (fun x => x.act != 0 && x.e.wait != .bar 15 && (((stI i).taken.arriveActive x 15).barOf x 15).ready (x.w.linear x.act)) = true) ∧
    (let i := Instr.barSync hd ⟨0xC4, 0, 15 + 2 * 16, 0⟩
     readyAnd i (stI i) (fun x => x.act != 0 && x.e.wait != .bar 15 &&
       !((((stI i).taken.arriveActive x (15 + 2 * 16)).barOf x 15).ready (x.w.linear x.act))) = true) := by decide +kernel
/-- The first arrival of a generation, one that stays below, one that reaches and passes the expected count, one of another count. -/
theorem witness_BarrierArrival :
    (let b : Barrier := { Barrier.start with expected := 2, arrived := 1 }
     ¬(b.arrived = 0 ∧ b.expected = 0) ∧ min (b.arrived + 0) 2047 < b.expected ∧ b.expected ≤ min (b.arrived + 3000) 2047 ∧ 5 ≠ b.expected) ∧
    (Barrier.start.arrived = 0 ∧ Barrier.start.expected = 0 ∧ min (Barrier.start.arrived + 1) 2047 < 64 ∧ 1 ≤ min (Barrier.start.arrived + 1) 2047) := by
  decide

/-! ## Witnesses: memory -/

def okLanes (r : Except FaultInfo (List (Nat × Parts)) × State) (p : List (Nat × Parts) → Bool) : Bool :=
  match r.1 with
  | .ok l => p l
  | .error _ => false
def badLanes (r : Except FaultInfo (List (Nat × Parts)) × State) : Bool :=
  match r.1 with
  | .ok _ => false
  | .error _ => true
/-- The lanes of a global access. -/
def glob (x : Ctx) (s : State) (va : Nat → DWord) (n : Nat) (k : AccessKind) (al : Bool) : Except FaultInfo (List (Nat × Parts)) × State :=
  checkLanes s x.threads (fun t s => x.globalLane (va t) n k al s) va
def priv (x : Ctx) (s : State) (b : MBody) (k : AccessKind) : Except FaultInfo (List (Nat × Parts)) × State :=
  checkLanes s x.threads (fun t s => x.privateLane (x.ea b t) (memBytes b) t k s) fun _ => 0
/-- 4 bytes at s2 (0 in the placed warp); at s2 + 8,192, where no page is mapped. -/
def mb (mm : BitVec 8) : MBody := ⟨3, 0xC2, 0xFF, 0, 0, mm⟩
def mfar (mm : BitVec 8) : MBody := ⟨3, 0xC2, 0xFF, 0, 8192, mm⟩
/-- The private area is one page long. -/
def stP (i : Instr) : State := (stI i).modCtx 64 fun c => { c with psize := 64 }
def noTx (x : Ctx) : Bool := x.act != 0 && x.w.inTx x.act == 0

theorem witness_LoadsIssue :
    (readyAnd (.ld hd (mb 0x40)) (stI (.ld hd (mb 0x40))) fun x => noTx x && okLanes (glob x (stI (.ld hd (mb 0x40))).taken (x.ea (mb 0x40)) 4 .read false) fun _ => true) = true ∧
    (readyAnd (.ldp hd (mb 0x40)) (stI (.ldp hd (mb 0x40))) fun x => okLanes (glob x (stI (.ldp hd (mb 0x40))).taken (x.patternEa (mb 0x40)) 4 .read false) fun _ => true) = true ∧
    (readyAnd (.ldc hd (mb 0x44)) (stI (.ldc hd (mb 0x44))) fun x => okLanes (glob x (stI (.ldc hd (mb 0x44))).taken (x.ea (mb 0x44)) 4 .read false) fun _ => true) = true ∧
    (readyAnd (.ldl hd (mb 0x4C)) (stP (.ldl hd (mb 0x4C))) fun x => okLanes (priv x (stP (.ldl hd (mb 0x4C))).taken (mb 0x4C) .read) fun _ => true) = true ∧
    (readyAnd (.ld hd (mfar 0x40)) (stI (.ld hd (mfar 0x40))) fun x => noTx x && badLanes (glob x (stI (.ld hd (mfar 0x40))).taken (x.ea (mfar 0x40)) 4 .read false)) = true ∧
    (readyAnd (.ldp hd (mfar 0x40)) (stI (.ldp hd (mfar 0x40))) fun x => badLanes (glob x (stI (.ldp hd (mfar 0x40))).taken (x.patternEa (mfar 0x40)) 4 .read false)) = true ∧
    (readyAnd (.ldc hd (mfar 0x44)) (stI (.ldc hd (mfar 0x44))) fun x => badLanes (glob x (stI (.ldc hd (mfar 0x44))).taken (x.ea (mfar 0x44)) 4 .read false)) = true ∧
    (readyAnd (.ldl hd (mfar 0x4C)) (stP (.ldl hd (mfar 0x4C))) fun x => badLanes (priv x (stP (.ldl hd (mfar 0x4C))).taken (mfar 0x4C) .read)) = true := by
  decide +kernel

/-- `st.rel.dev`: KIND 2, SCOPE 5. -/
def mrel : MBody := { mb 0x40 with c := 0x16 }
/-- The checked lanes of a store, with room in the store counter or without, and the state in which they are issued. -/
def storeOk (x : Ctx) (b : MBody) (room : Bool) (r : Except FaultInfo (List (Nat × Parts)) × State) (va : Nat → DWord) (scope : Nat)
    (p : Option State → Bool) : Bool :=
  match r with
  | (.ok l, s1) =>
    let runs := storeRuns va (x.groupBytes b.d (memBytes b)) l
    l != [] && decide (x.w.cntStore + runs.length ≤ 1023) == room && p ((s1.bringLanes x.vf l).issueStores x (memSpace b == 0)
      ⟨x.f.hdr.hint.toNat, memSpace b == 3⟩ runs fun t => s1.releaseInfo x.core x.slot t scope)
  | _ => false
/-- A store of one byte in flight. -/
def store1 (st : StoreState) : Store := { (default : Store) with vf := 1, pa := 3, bytes := [9], st := st, va := 3, op := 1 }
/-- L1 set 0 of core 0 is full of other frames with dirty words. -/
def fullSet (s : State) : State := s.modCore 0 fun c => { c with l1 := (List.range 16).map fun k => ((k + 1) * 4096, { (default : L1Word) with dirty := 1 }) }
theorem witness_StoresIssue :
    (let i := Instr.st hd (mb 0x40)
     (readyAnd i (stI i) fun x => noTx x && storeOk x (mb 0x40) true (glob x (stI i).taken (x.ea (mb 0x40)) 4 .write false) (x.ea (mb 0x40)) 0 Option.isSome) = true ∧
     (let s := (stI i).modWarp 0 0 fun w => { w with cntStore := 1023 }
      readyAnd i s fun x => noTx x && storeOk x (mb 0x40) false (glob x s.taken (x.ea (mb 0x40)) 4 .write false) (x.ea (mb 0x40)) 0 fun _ => true) = true ∧
     (let s := { fullSet (stI i) with stores := [(1, store1 .sent)] }
      readyAnd i s fun x => noTx x && storeOk x (mb 0x40) true (glob x s.taken (x.ea (mb 0x40)) 4 .write false) (x.ea (mb 0x40)) 0 Option.isNone) = true) ∧
    (let i := Instr.st hd mrel
     (readyAnd i (stI i) fun x => noTx x && x.w.cntStore == 0 && storeOk x mrel true (glob x (stI i).taken (x.ea mrel) 4 .write false) (x.ea mrel) 5 Option.isSome) = true ∧
     (let s := (stI i).modWarp 0 0 fun w => { w with cntStore := 1 }
      readyAnd i s fun x => noTx x && x.w.cntStore == 1 && okLanes (glob x s.taken (x.ea mrel) 4 .write false) fun l => l != []) = true) ∧
    (let i := Instr.stp hd (mb 0x40)
     readyAnd i (stI i) fun x => storeOk x (mb 0x40) true (glob x (stI i).taken (x.patternEa (mb 0x40)) 4 .write false) (x.patternEa (mb 0x40)) 0 Option.isSome) = true ∧
    (let i := Instr.stl hd (mb 0x4C)
     readyAnd i (stP i) fun x => ((stP i).ctx? x.gctx).isSome && storeOk x (mb 0x4C) true (priv x (stP i).taken (mb 0x4C) .write) (fun _ => 0) 0 Option.isSome) = true := by
  decide +kernel

/-- The placed team has one comb cell. -/
def stC (i : Instr) : State := (stI i).modTeam 0 fun t => { t with cells := [191], bytes := 32768 }
def comb (x : Ctx) (s : State) (b : MBody) (w : Bool) : Except FaultInfo (List (Nat × Parts)) × State :=
  match s.team? x.team with
  | some t => checkLanes s x.threads (fun k s => x.combLane t (x.ea b k) (memBytes b) w s) fun _ => 0
  | none => (.error ⟨0, 0, 0, none⟩, s)
theorem witness_CombAndCaches :
    (readyAnd (.lds hd (mb 0x48)) (stC (.lds hd (mb 0x48))) fun x => okLanes (comb x (stC (.lds hd (mb 0x48))).taken (mb 0x48) false) fun _ => true) = true ∧
    (readyAnd (.sts hd (mb 0x48)) (stC (.sts hd (mb 0x48))) fun x => okLanes (comb x (stC (.sts hd (mb 0x48))).taken (mb 0x48) true) fun _ => true) = true ∧
    (([Instr.pf hd { mb 0x40 with d := 0 }, .wbr hd { mb 0 with d := 0 }, .invr hd { mb 0 with d := 0 }]).all ready) = true ∧
    idle [.wbr hd0 { mb 0 with d := 0 }, .invr hd0 { mb 0 with d := 0 }] = true ∧
    (let b := { mb 0 with d := 0 }
     let i := Instr.wbr hd b
     let owed (x : Ctx) (s : State) : List (Nat × Nat) := let r := x.range b; s.owedInRange x.core x.gctx r.1 r.2
     let open_ (x : Ctx) (s : State) (o : Option (List (Nat × Nat))) : Bool := let r := x.range b; s.wbrReady x.core x.gctx r.1 r.2 o
     let s1 : State := { stI i with l2 := [(0, { (default : L2Word) with valid := 15, dirty := 1 })] }
     let s2 : State := { stI i with stores := [(1, store1 .sent)] }
     let s3 : State := (stI i).modWarp 0 0 fun w => { w.modEntry 0 fun e => { e with wait := .wbr } with owed := [(0, [])] }
     (readyAnd i (stI i) fun x => x.act != 0 && open_ x (stI i).taken none && (owed x (stI i).taken).isEmpty) = true ∧
     (readyAnd i s1 fun x => x.act != 0 && open_ x s1.taken none && !(owed x s1.taken).isEmpty) = true ∧
     (readyAnd i s2 fun x => x.act != 0 && !open_ x s2.taken none) = true ∧
     (readyAnd i s3 fun x => x.act != 0 && x.e.wait == .wbr && x.w.owed.find? 0 == some [] && open_ x s3.taken (some [])) = true) := by decide +kernel
theorem witness_Atomics :
    ([(Instr.atom hd (mb 0x40), mb 0x40), (.atom { hd with fs := 7 } (mb 0x40), mb 0x40), (.ared hd (mb 0x40), mb 0x40), (.cas16 hd (mb 0x80), mb 0x80)].all fun y =>
      readyAnd y.1 (stI y.1) fun x => x.act != 0 && okLanes (glob x (stI y.1).taken (x.ea y.2) (memBytes y.2) .atomic true) fun _ => true) = true ∧
    (let s := (stI (.ared hd mrel)).modWarp 0 0 fun w => { w with cntStore := 1 }
     readyAnd (.ared hd mrel) s fun x => x.act != 0 && x.w.cntStore != 0 && okLanes (glob x s.taken (x.ea mrel) 4 .atomic true) fun _ => true) = true ∧
    (let s := (stI (.ared hd (mb 0x40))).modWarp 0 0 fun w => { w with cntStore := 1023 }
     readyAnd (.ared hd (mb 0x40)) s fun x => x.act != 0 && okLanes (glob x s.taken (x.ea (mb 0x40)) 4 .atomic true) fun l => decide (1023 < x.w.cntStore + l.length)) = true := by
  decide +kernel

/-- One atomic on word 0 at its engine, its word in the synchronisation engine. -/
def atomic1 : Atomic := { (default : Atomic) with vf := 1, size := 2, x := 5, dst := some 3 }
/-- VF 1 owns row 0. -/
def row1 (s : State) : State := { s with perms := [(0, ⟨1, true, true, true⟩)] }
def stA (a : Atomic) : State := row1 { State.reset with atomics := [(1, a)], sync := [(0, ⟨7, false, false, 0⟩)] }
def isOk {α β : Type} (x : Except α β) : Bool :=
  match x with
  | .ok _ => true
  | .error _ => false
theorem witness_Atomics_engine :
    (let s := stA atomic1
     let s0 := s.each (s.groupLanes atomic1) fun s y => s.each y.words fun s w => if s.needsDram w then s else s.touch y.vf w
     s.atomics.find? 1 = some atomic1 ∧ atomic1.slot < 32 ∧ s.atomicBlocked 1 atomic1 = false ∧ s0.groupReady (s.groupLanes atomic1) = .ready ∧
     isOk (s0.through atomic1.vf 1 (s0.atomicTraffic atomic1)) = true) ∧
    (let s := { stA atomic1 with flips := [(0, 0)] }
     s.atomics.find? 1 = some atomic1 ∧ s.atomicBlocked 1 atomic1 = true) ∧
    (stA { atomic1 with old := some 7 }).atomics.find? 1 = some { atomic1 with old := some 7 } := by decide +kernel

/-- Thread 0 of the placed warp has an open transaction. -/
def tx1 : Tx := ⟨0x1000, 0x1001, [], [], false, none, 0⟩
def stX (i : Instr) : State := (row1 (stI i)).modWarp 0 0 fun w => { w with tx := [(0, tx1)] }
theorem witness_Transactions :
    (let j : JBody := ⟨0, 0, 0, 1⟩
     let i := Instr.txbeg hd j
     readyAnd i (stI i) fun x => noTx x && ((stI i).taken.targetCause x.core x.gctx x.vf (jTarget x.pc j)).isNone && pcShapeOk (jRecon x.pc j) &&
       (threadsOf x.act).all fun t => decide (x.w.aborts t < 8)) = true ∧
    (let j : JBody := ⟨0, 0, 0, 1⟩
     let i := Instr.txbeg hd j
     let s8 : State := (stI i).modWarp 0 0 fun w => { w with txstat := [(0, 0x800)] }
     let got : State := { s8 with parts := [(1, { (default : Partition) with soloHolder := some (0, 0, 0) })] }
     let ok (s : State) (x : Ctx) : Bool := x.act != 0 && (s.taken.targetCause x.core x.gctx x.vf (jTarget x.pc j)).isNone && pcShapeOk (jRecon x.pc j)
     let at8 (x : Ctx) : Option Nat := (threadsOf x.act).find? fun t => decide (8 ≤ x.w.aborts t)
     (readyAnd i s8 fun x => noTx x && ok s8 x && at8 x == some 0 && !s8.holdsSolo x 0) = true ∧
     (readyAnd i got fun x => noTx x && ok got x && at8 x == some 0 && got.holdsSolo x 0) = true ∧
     (match (stX i).issuer i with
      | some x => x.checkIssue i (stX i).taken == none && x.upset == 0 && ok (stX i) x && x.w.inTx x.act != 0
      | none => false) = true) ∧
    (let i := Instr.txend hd zb
     let live (x : Ctx) : List (Nat × Tx) := x.txCommitting.filter fun y => y.2.lost == 0
     let s1 := (stX i).modWarp 0 0 fun w => { w with cntStore := 1 }
     (readyAnd i (stX i) fun x => live x != [] && x.e.wait != .txend && x.w.cntStore == 0) = true ∧
     (readyAnd i s1 fun x => live x != [] && x.e.wait != .txend && x.w.cntStore != 0) = true ∧
     (readyAnd i ((stX i).modWarp 0 0 fun w => { w with tx := [(0, { tx1 with lost := 1 })] }) fun x => !x.txCommitting.isEmpty && (live x).isEmpty) = true) ∧
    (readyAnd (.txend hd zb) (stI (.txend hd zb)) fun x => x.txCommitting.isEmpty) = true ∧
    (readyAnd (.txend hd zb) ((stX (.txend hd zb)).modWarp 0 0 fun w => w.modEntry 0 fun e => { e with wait := .txend }) fun x =>
      !x.txCommitting.isEmpty && x.e.wait == .txend) = true ∧
    (readyAnd (.txabt hd zb) (stI (.txabt hd zb)) noTx) = true ∧ (readyAnd (.txabt hd zb) (stX (.txabt hd zb)) fun x => x.w.inTx x.act != 0) = true ∧
    (let b := mb 0x40
     let i := Instr.ld hd b
     readyAnd i (stX i) fun x => x.txSplit.2 == [0] &&
       !x.txBusy (stX i).taken (x.ea b) 4 x.txSplit.2 && (txFault (x.txLanes (stX i).taken (x.ea b) 4 x.txSplit.2 fun _ => none).1 (x.ea b)).isNone &&
       okLanes (checkLanes (stX i).taken x.txSplit.1 (fun t s => x.globalLane (x.ea b t) 4 .read false s) (x.ea b)) fun _ => true) = true ∧
    (let b := mb 0x40
     let i := Instr.st hd b
     readyAnd i (stX i) fun x => x.txSplit.2 == [0] && !x.txBusy (stX i).taken (x.ea b) 4 x.txSplit.2 && (storeLanes x (stX i).taken b [] (x.ea b) 0).isSome &&
       okLanes (checkLanes (stX i).taken x.txSplit.1 (fun t s => x.globalLane (x.ea b t) 4 .write false s) (x.ea b)) fun l => l.isEmpty) = true ∧
    (let busy (i : Instr) : State := { stX i with stores := [(1, store1 .sent)] }
     (readyAnd (.ld hd (mb 0x40)) (busy (.ld hd (mb 0x40))) fun x => x.txBusy (busy (.ld hd (mb 0x40))).taken (x.ea (mb 0x40)) 4 x.txSplit.2) = true ∧
     (readyAnd (.st hd (mb 0x40)) (busy (.st hd (mb 0x40))) fun x => x.txBusy (busy (.st hd (mb 0x40))).taken (x.ea (mb 0x40)) 4 x.txSplit.2) = true) := by
  decide +kernel

/-! ## Witnesses: events of memory and of the engines -/

def stS (st : StoreState) : State := row1 { State.reset with stores := [(1, store1 st)], l2 := [(0, ⟨5, allBytes, 0, false, 0⟩)] }
def load1 : Load := { (default : Load) with lanes := [⟨0, [], some [1, 2, 3, 4]⟩], dst := 3, size := 2 }
theorem witness_AccessesComplete :
    (let s := stS .pending
     let l := s.merged 1 (store1 .pending)
     let as := (l.flatMap fun z => z.2.places.flatMap fun a => bytesAt a z.2.bytes.length).dedup
     s.stores.find? 1 = some (store1 .pending) ∧ (store1 .pending).replay = false ∧ isOk (s.through 1 1 (s.traffic 1 0 true as)) = true) ∧
    (let s := stS .sent
     s.stores.find? 1 = some (store1 .sent) ∧ (store1 .sent).pa < hostTag ∧ (store1 .sent).copies = [] ∧ s.storeWaits 1 (store1 .sent) = false ∧
     (s.applyStore (store1 .sent) 3).isSome = true) ∧
    (let s := { stS .sent with flips := [(0, 0)] }
     s.stores.find? 1 = some (store1 .sent) ∧ s.storeWaits 1 (store1 .sent) = true) ∧
    ((stS (.homed 4)).stores.find? 1 = some (store1 (.homed 4)) ∧ (store1 (.homed 4)).slot < 32) ∧
    (let s := { State.reset with loads := [(2, load1)] }
     s.loads.find? 2 = some load1 ∧ load1.gred = none ∧ (match s.serveLoad 2 load1 with | .data _ _ => true | _ => false) = true) ∧
    (let l := { load1 with lanes := [⟨0, [(0, 4)], none⟩] }
     let s := { State.reset with loads := [(2, l)] }
     s.loads.find? 2 = some l ∧ (match s.serveLoad 2 l with | .wait _ => true | _ => false) = true) := by decide +kernel

/-- VF 1 with its queues, nothing else set. -/
def part1 : Partition := { (default : Partition) with hives := [0], cells := List.range 192, stks := [0], channels := [0, 31], ranges := [(0, 1)], log := ⟨0, 6, 0, 0, false⟩ }
def txc : Tx := { tx1 with commit := some 5 }
/-- The placed team in partition 1, its fragment at a `txbeg` that waits for the solo grant: thread 0 has 8 aborts (Table 3.4). -/
def stSolo : State :=
  let i := Instr.txbeg hd ⟨0, 0, 0, 1⟩
  let s := (stI i).modWarp 0 0 fun w => { w with stopWord := [(0, (encodeStream i).getD 0)], txstat := [(0, 0x800)] }
  { s with parts := [(1, { part1 with soloWait := [(0, 0, 0)] })] }
/-- The state in which the grant runs the `txbeg`. -/
def stGrant : State :=
  let i := Instr.txbeg hd ⟨0, 0, 0, 1⟩
  { stSolo.modPart 1 fun p => { p with soloHolder := some (0, 0, 0), soloSince := stSolo.vclock.toNat, soloWait := p.soloWait.drop 1 } with
    cur := .frag 0 0 0 0x1000 ((encodeStream i).getD 0) .alone 0 }
theorem witness_Transactions_events :
    (let s := (stX (.nop hd zb)).modWarp 0 0 fun w => { w with tx := [(0, txc)] }
     (s.warp? 0 0).isSome = true ∧ ((s.warp? 0 0).map fun w => w.tx.find? 0) = some (some txc) ∧ s.commitBlocked 0 5 txc = false ∧
     (match s.through 1 5 (s.traffic 1 0 true (txc.writes.flatMap fun r => bytesAt (4 * r.addr) 4)) with
      | .ok s0 => (s0.commitTx 0 0 0).isSome
      | .error _ => false) = true) ∧
    (let s := stSolo
     let p := { part1 with soloWait := [(0, 0, 0)] }
     let w := (s.warp? 0 0).getD default
     s.part? 1 = some p ∧ p.soloHolder = none ∧ p.replay = false ∧ p.soloWait.head? = some (0, 0, 0) ∧ s.warp? 0 0 = some w ∧ w.entryOf 0 = some 0 ∧
     (w.entry 0).st = .run ∧ s.warpLive 0 0 = true ∧ w.stopWord.find? 0 = some ((encodeStream (.txbeg hd ⟨0, 0, 0, 1⟩)).getD 0) ∧
     (w.entry 0).pc = 0x1000 ∧ (w.entry 0).paired = none ∧
     decodeStream ((encodeStream (.txbeg hd ⟨0, 0, 0, 1⟩)).getD 0) = some (.txbeg hd ⟨0, 0, 0, 1⟩)) ∧
    (let j : JBody := ⟨0, 0, 0, 1⟩
     readyAnd (.txbeg hd j) stGrant fun x => x.vf == 1 && noTx x && (stGrant.taken.targetCause x.core x.gctx x.vf (jTarget x.pc j)).isNone &&
       pcShapeOk (jRecon x.pc j) && (threadsOf x.act).find? (fun t => decide (8 ≤ x.w.aborts t)) == some 0) = true ∧
    (let p := { part1 with soloHolder := some (0, 0, 0) }
     let s := { stX (.nop hd zb) with parts := [(1, p)], vclock := 2 ^ 20 }
     s.part? 1 = some p ∧ p.soloHolder = some (0, 0, 0) ∧ p.soloSince + 2 ^ 20 ≤ s.vclock.toNat ∧ ((s.warp? 0 0).map fun w => w.tx.find? 0) = some (some tx1) ∧
     tx1.commit = none ∧ tx1.lost = 0) := by decide +kernel

def req1 : WordReq := { (default : WordReq) with vf := 1 }
/-- VF 1 owns the first 7 pages; context 64 has its page table in pages 1 to 5 and page 6 mapped at VA 0, which begins with a record of one 4-byte
element, copied to the start of the comb (Table 14.7). -/
def mapped (s : State) : State := { s with
  fuses := ⟨0, false, []⟩
  perms := (List.range 14).map fun r => (r, ⟨1, true, true, true⟩)
  contexts := [(64, { (default : Context) with vf := 1, ptroot := 0x1000, st := .live })]
  mem := [(0x1000, 1), (0x1001, 0x20), (0x2000, 1), (0x2001, 0x30), (0x3000, 1), (0x3001, 0x40), (0x4000, 1), (0x4001, 0x50), (0x5000, 3), (0x5001, 0x60),
    (0x6000, 2), (0x6001, 1), (0x6010, 1), (0x6014, 1), (0x6018, 1), (0x601C, 1), (0x6020, 1), (0x6050, 1), (0x6052, 1), (0x6054, 1), (0x6056, 1), (0x6058, 1)] }
theorem witness_MemoryHomes :
    (let s := { State.reset with wordQ := [(0, [req1])], dclk := 34 }
     s.bankReqs 0 0 0 0 = [req1] ∧ s.openRows.find? (sliceBank 0 0 0 0) = none ∧ (s.hearth 0).compute = false ∧ (s.prechargeAt.find? (sliceBank 0 0 0 0)).getD 0 + 34 ≤ s.dclk ∧
     (row1 s).rowOk 1 0 false false = true ∧ s.rowOk 1 0 false false = false ∧ s.reportsRead 0 = false) ∧
    (let s := { State.reset with openRows := [(0, ⟨0, 0, false⟩)], dclk := 80 }
     s.openRows.find? (sliceBank 0 0 0 0) = some ⟨0, 0, false⟩ ∧ 0 + 80 ≤ s.dclk ∧ (s.bankReqs 0 0 0 0).head? = none ∧
     (let s := { s with wordQ := [(0, [req1])] }
      ((s.bankReqs 0 0 0 0).head?.map fun r => rowFieldOf (4 * r.word)) = some 0)) ∧
    (let s := { row1 State.reset with wordQ := [(0, [{ req1 with word := 0x200, write := true }])], dclk := 34 }
     s.bankReqs 0 0 0 0 ≠ [] ∧ s.rowOk 1 0x800 true false = false) ∧
    (let x : Stove := { Stove.idle with st := .running, acode := [(encodeStove (.acol 0 0 0)).getD 0], rows := [(0, 0)] }
     let s := { State.reset with stoves := [(0, x)], openRows := [(0, ⟨0, 0, true⟩)], dclk := 34 }
     s.stoveFirst 0 = true ∧ s.openRows.find? (sliceBank 0 0 0 0) = some ⟨0, 0, true⟩) ∧
    (let s := { State.reset with openRows := [(0, ⟨0, 0, false⟩)], dclk := 79 }
     s.openRows.find? (sliceBank 0 0 0 0) = some ⟨0, 0, false⟩ ∧ s.dclk < 0 + 80) ∧
    (let s := { State.reset with wordQ := [(0, [req1])], openRows := [(0, ⟨0, 0, false⟩)], dclk := 34 }
     s.burstPick 0 (s.queueOf 0 0) ≠ [] ∧ (s.hearth 0).compute = false ∧ (s.burstAt.find? 0).getD 0 + 2 ≤ s.dclk ∧ s.stoveFirst 0 = false) ∧
    (let dirty (s : State) : List Nat := (s.l2.filter fun x => x.1 / 64 == 0 && x.2.dirty != 0).map (·.1)
     dirty { State.reset with l2 := [(0, ⟨5, 15, 15, false, 0⟩)] } ≠ [] ∧ dirty { State.reset with l2 := [(0, ⟨5, 15, 0, false, 0⟩)] } = []) ∧
    (let s (page : Bool) : State := { State.reset with sync := [(0, ⟨5, false, page, 0⟩)] }
     (s false).sync.find? 0 = some ⟨5, false, false, 0⟩ ∧ (s true).sync.find? 0 = some ⟨5, false, true, 0⟩ ∧ (s false).atomicWaits 0 = false ∧
     (stA atomic1).atomicWaits 0 = true) ∧
    (vaOk 0 = true ∧ isOk ((mapped State.reset).walk (dieOfCore 0) 64 0) = true) := by decide +kernel

/-- R78: an older read and a younger write wait in one open row; after seven bursts of writes the write goes first, after eight the
read (worked out from the rule). -/
theorem test_burst_turns :
    let q : List WordReq := [{ (default : WordReq) with id := 1 }, { (default : WordReq) with word := 1, write := true, id := 2 }]
    let st (n : Nat) : State := { State.reset with wordQ := [(0, q)], openRows := [(0, ⟨0, 0, false⟩), (sliceBankOf 4, ⟨0, 0, false⟩)], dclk := 34, burstRun := [(0, (true, n))] }
    ((st 7).burstPick 0 q).map (·.write) = [true] ∧ ((st 8).burstPick 0 q).map (·.write) = [false] := by decide +kernel

/-! ## Witnesses: copies and collectives -/

theorem witness_CopyClass :
    ([(Instr.bcopy hd (vb 0xC4 0xC2 0xC6 0xC8 0 1), 1), (.bmcast hd (vb 0xC4 0xC2 0xC6 0xC8 0xCA 1), 1), (.bloop hd (vb 0xC4 0xC2 0xC6 0xC8 0xCA 15), 15)].all
      fun y => let i := y.1; let ch := y.2
      (readyAnd i (stI i) fun x => x.act != 0 && (x.scal 0xC2).toNat % 64 == 0 && (x.scal 0xC8).toNat % 16 == 0 && decide (x.w.counter 0 < 63) &&
        (stI i).taken.channelTakes x ch (x.scal 0xC2) &&
        (stI i).taken.firstAt (x.producer (copyQueue 0 ch))) &&
      (let s := (stI i).modWarp 0 0 fun w => { w with ops := (List.range 63).map fun k => (0, k, false) }
       readyAnd i s fun x => x.act != 0 && (x.scal 0xC2).toNat % 64 == 0 && (x.scal 0xC8).toNat % 16 == 0 && decide (63 ≤ x.w.counter 0)) &&
      (readyAnd i ((stI i).modWarp 0 0 fun w => { w with sregs := [(2, 32)] }) fun x => x.act != 0 && (x.scal 0xC2).toNat % 64 != 0) &&
      readyAnd i ((stI i).modWarp 0 0 fun w => { w with sregs := [(8, 8)] }) fun x => x.act != 0 && (x.scal 0xC2).toNat % 64 == 0 && (x.scal 0xC8).toNat % 16 != 0)
      = true ∧
    (let i := Instr.brel hd { zb with mod := 0x71 }
     let op : CopyOp := { (default : CopyOp) with kind := .bloop, layout := some default, stages := 8 }
     let s := (stI i).modHive 0 fun h => { h with copy := [(1, [op])] }
     readyAnd i s (fun x => x.act != 0) = true ∧ (s.hive 0).copy.find? 1 = some [op] ∧ op.layout.isSome = true ∧ bitsOf 0x71 6 4 < op.stages ∧ op.released.contains 7 = false) ∧
    (let i := Instr.kcoll hd (vb 0xC0 0xC1 0xC2 0xC3 0xC4 0)
     let s := (stI i).modWarp 0 0 fun w => { w with sregs := [(4, 0x100000000)] }
     readyAnd i s (fun x => x.act != 0 && (x.scal 0xC4).toNat / 2 ^ 32 == 1 && decide (x.w.counter 3 < 63) && decide ((s.taken.collQueued 0).length < 64) &&
       s.taken.firstAt (x.producer (collQueue 0)) && dieOfCore x.core == 0 && (x.scal 0xC0).toNat % 4 == 0 && (x.scal 0xC1).toNat % 4 == 0 &&
       (x.scal 0xC2).toNat % 16 == 0) = true ∧ ((s.team? 0).map fun t => t.num) = some 0 ∧
     readyAnd i (stI i) (fun x => x.act != 0 && (x.scal 0xC4).toNat / 2 ^ 32 == 0) = true) := by decide +kernel

def copy1 (k : CopyKind) : CopyOp := { (default : CopyOp) with id := 9, kind := k, ctx := 64, vf := 1, coord := [0, 0, 0, 0, 0], nteams := 1, counter := some 0x80 }
/-- Channel 0 of hive 0 has one operation of the placed team, whose allocation is one cell. -/
def stCopy (op : CopyOp) : State :=
  let s := (mapped (stI (.nop hd zb))).modHive 0 fun h => { h with copy := [(0, [op])] }
  s.modTeam 0 fun t => { t with cells := [0], bytes := 32768 }
def lay1 : Layout := ((parseLayout (match ((mapped State.reset).readVirt 0 64 1 0 128 .read).1 with | .ok b => b | .error _ => [])).getD default)
def isLayout (s : State) (va : DWord) (p : Option Layout → Bool) : Bool :=
  match (s.readVirt 0 64 1 va 128 .read).1 with
  | .ok b => p (parseLayout b)
  | .error _ => false
def begun (op : CopyOp) : CopyOp := { op with layout := some lay1, started := true }
def done1 (op : CopyOp) : CopyOp := { begun op with part := lay1.parts }
/-- A contribution of a group of n teams. -/
def contrib (n count : Nat) : Contribution := { (default : Contribution) with vf := 1, ctx := 64, n := n, count := count, id := n }
def stColl (l : List Contribution) : State := { mapped (stI (.nop hd zb)) with coll := [(0, l)] }
theorem witness_CopyEngines :
    (let op := copy1 (.bcopy false)
     let s := stCopy op
     ((s.hive 0).channel 0).find? (fun op => op.layout.isNone && !op.stopped) = some op ∧ s.ctxLive 64 = true ∧ s.owesBefore op.core op.after = false ∧
     s.engineWaits 0 64 0 128 .read = false ∧ s.engineWaits 0 64 128 128 .read = false ∧ isLayout s 0 Option.isSome = true ∧ isLayout s 128 Option.isNone = true) ∧
    ((copy1 .bloop).kind = .bloop → 1 ≤ ({ copy1 .bloop with loopN := 1, stages := 8 } : CopyOp).loopN) ∧
    (let op := begun (copy1 (.bcopy false))
     let s := stCopy op
     s.partReady 0 0 = some (op, lay1) ∧ s.nextChannel 0 = some 0 ∧ isOk (s.through 1 9 (s.partTraffic 0 op lay1)) = true) ∧
    (let op := begun (copy1 .bmcast)
     let s := stCopy op
     s.partReady 0 0 = some (op, lay1) ∧ s.nextChannel 0 = some 0 ∧ isOk (s.through 1 9 (s.partTraffic 0 op lay1)) = true) ∧
    (let op := done1 (copy1 (.bcopy false))
     let s := stCopy op
     s.headOp 0 0 = some op ∧ (s.hive 0).channel 0 = [op] ∧ op.layout = some lay1 ∧ op.started = true ∧ lay1.parts ≤ op.part ∧ op.stopped = false ∧
     s.counterWaitsOn op.ctx op.vf op.counter = false ∧
     (let s := { s with flips := [(6, 0)] }
      s.headOp 0 0 = some op ∧ s.counterWaitsOn op.ctx op.vf op.counter = true)) ∧
    (let op := { copy1 .bloop with layout := some lay1, stages := 2, iter := 2, released := [0] }
     (stCopy op).headOp 0 0 = some op ∧ (stCopy op).ctxLive 64 = true ∧ op.started = false ∧ op.stages ≤ op.iter ∧
     op.released.contains (op.iter % max 1 op.stages) = true ∧ 0 < op.stages ∧
     (stCopy { op with iter := 0 }).headOp 0 0 = some { op with iter := 0 }) ∧
    (let op := { done1 (copy1 .bmcast) with dest := [some (0, 0)] }
     let s := stCopy op
     (op.dest[0]? == some (some (0, 0)) && s.headOp 0 0 == some op && op.delivers lay1 0 && s.nextChannel 0 == some 0 && s.ctxLive 64 && match s.holderOf 0 0 with
      | some t => (match s.through 1 9 (op.deliveryTraffic lay1 0 0 0) with | .ok s1 => (s1.deliver 0 op lay1 0 t (op.nextMove 0)).2.isNone | .error _ => false)
      | none => false) = true) := by decide +kernel
theorem witness_CollectiveSequence :
    (let c := contrib 1 1
     let s := stColl [c]
     s.collQueued 0 = [c] ∧ s.abandoned c = false ∧ 1 ≤ (s.sequence c).length ∧ s.collHeld 0 (s.sequence c) c = false ∧
     isOk (s.through 1 1 (s.collTraffic 0 (s.sequence c) c)) = true ∧ (∀ o ∈ s.sequence c, o.count = c.count ∧ o.op = c.op ∧ o.fn = c.fn)) ∧
    (let c := contrib 1 1
     let s := (stColl [c]).modHearth (stackOfPa 0x6000) fun h => { h with compute := true }
     s.collQueued 0 = [c] ∧ s.abandoned c = false ∧ 1 ≤ (s.sequence c).length ∧ s.collHeld 0 (s.sequence c) c = true) ∧
    (let c := { contrib 1 1 with counter := some 0x80 }
     let s := { stColl [c] with flips := [(6, 0)] }
     s.collQueued 0 = [c] ∧ ∃ o ∈ s.sequence c, s.counterWaitsOn o.ctx o.vf o.counter = true) ∧
    (let c := { contrib 1 1 with pos := 1 }
     (stColl [c]).collQueued 0 = [c] ∧ (stColl [c]).abandoned c = false ∧ 1 ≤ ((stColl [c]).sequence c).length ∧ c.count ≤ c.pos) ∧
    ((stColl [contrib 2 1]).abandoned (contrib 2 1) = false ∧ ((stColl [contrib 2 1]).sequence (contrib 2 1)).length < 2) ∧
    ((stColl [contrib 2 1]).modGrid 0 fun g => { g with left := [(1, [])] }).abandoned (contrib 2 1) = true ∧
    (let s := stColl [contrib 2 1, { contrib 2 2 with num := 1 }]
     s.abandoned (contrib 2 1) = false ∧ 2 ≤ (s.sequence (contrib 2 1)).length ∧ ∃ o ∈ s.sequence (contrib 2 1), o.count ≠ 1) := by decide +kernel

/-! ## Witnesses: near memory -/

/-- The placed team with partition 1 and the mapped pages, the first 16 words in their slice; s2 selects, s4 is 1. -/
def stN (i : Instr) (s2 : DWord) : State :=
  { mapped ((stI i).modWarp 0 0 fun w => { w with sregs := [(2, s2), (4, 1)] }) with
    parts := [(1, part1)], l2 := (List.range 16).map fun k => (k, ⟨0, 15, 0, false, 0⟩) }
def coreReads (x : Ctx) (s : State) (va : DWord) (n : Nat) (p : List Byte → State → Bool) : Bool :=
  let r := x.coreRead s va n
  match r.1 with
  | some (.ok b) => p b r.2
  | _ => false
theorem witness_NearIssue :
    (let i := Instr.nred hd (vb 0 0xC2 0xC4 0xFF 0 0)
     readyAnd i (stN i 0) fun x => x.act != 0 && decide (x.w.counter 2 < 63) && (x.scal 0xC4).toNat == 1 &&
       coreReads x (stN i 0).taken (x.scal 0xC2) 32 fun b s1 => s1.stackOf x.vf (fieldOf b 0x1D 1) && s1.nearRoom (fieldOf b 0x1D 1) 1 &&
         s1.firstAt (x.producer (nearKey (fieldOf b 0x1D 1)))) = true ∧
    (let i := Instr.nlaunch hd (vb 0 0xC2 0 0 0 0)
     readyAnd i (stN i 0) fun x => x.act != 0 && decide (x.w.counter 2 < 63) &&
       coreReads x (stN i 0).taken (x.scal 0xC2) 64 fun b s1 => s1.stackOf x.vf (fieldOf b 0x14 1) && s1.nearRoom (fieldOf b 0x14 1) 1 &&
         s1.firstAt (x.producer (nearKey (fieldOf b 0x14 1)))) = true ∧
    (let i := Instr.nstat hd (vb 0 0xC2 0xC6 0xFF 0 0)
     readyAnd i (stN i 0x8000000100000007) fun x => x.act != 0 && bitsOf (x.scal 0xC2).toNat 31 3 == 0 && bitsOf (x.scal 0xC2).toNat 63 32 != 0 &&
       (stN i 0x8000000100000007).taken.nearRoom 7 1 && (stN i 0x8000000100000007).taken.firstAt (x.producer (nearKey 7)) && (x.scal 0xC6).toNat % 16 == 0) = true ∧
    (let i := Instr.nkill hd (vb 0 0xC2 0 0xFF 0 0)
     readyAnd i (stN i 0x100000000) fun x => x.act != 0 && bitsOf (x.scal 0xC2).toNat 31 3 == 0 && bitsOf (x.scal 0xC2).toNat 63 32 != 0 &&
       (stN i 0x100000000).taken.nearRoom 0 1 && (stN i 0x100000000).taken.firstAt (x.producer (nearKey 0))) = true ∧
    (let i := Instr.gred hd ⟨8, 0xC3, 0xFF, 0xC4, 0, 0x40⟩
     readyAnd i (stN i 0) fun x => x.act != 0 && decide (x.w.counter 2 < 63) &&
       okLanes (glob x (stN i 0).taken (x.ea ⟨8, 0xC3, 0xFF, 0xC4, 0, 0x40⟩) 4 .nearRead true) fun _ => true) = true := by
  decide +kernel

/-- A command of one bag, op 0, without a counter: layout at 0x80, indexes at 0x200, bags at 0x210, output at 0x300 (Table 15.3). -/
def nredBytes (nbags : Byte) : List Byte := [0x80, 0, 0, 0, 0, 0, 2, 0, 0, 0, 0x10, 2, 0, 0, 0, 0, 3, 0, 0, 0, 0xFF, 0xFF, 0xFF, 0xFF, 0xFF, nbags, 0, 0, 0, 0, 0, 0]
def nearCmd (r : NearReq) : NearCmd := ⟨5, 0, 0, 1, 64, r⟩
/-- The hearth of stack 0 has one request, and every stack is in its compute interval; a layout of one row of one FP32 element stands at VA 0x80 (Table 15.4). -/
def stNear (r : NearReq) (n : Option Nred) : State :=
  let s := mapped State.reset
  let s := { s with mem := s.mem ++ [(0x6080, 1), (0x6084, 1), (0x60B8, 4), (0x60BC, 4), (0x60C0, 4), (0x60C4, 4), (0x6214, 1)], parts := [(1, part1)], dclk := 2 }
  (s.each (List.range 8) fun s k => s.modHearth k fun h => { h with compute := true }).modHearth 0 fun h => { h with queue := [nearCmd r], nred := n }
def nrec : List Byte := match ((stNear (.nred [] 0) none).nearBytes 0 64 1 0x80 128).1 with | .ok b => b | .error _ => []
/-- The command in progress, with some of its words. -/
def nredOf (words : Tab (Word × Bool)) : Nred := ⟨nearCmd (.nred (nredBytes 1) 0), nrec, 0, false, words, none, none⟩
/-- What it does next, and the burst for it. -/
def nredStep (n : Nred) (s : State) (p : NredNext → Bool) : Bool := p (s.nredNext 0 n (nredCmd (nredBytes 1) 0))
def near (va : DWord) (n : Nat) (s : State) (p : List Byte → Bool) : Bool := match (s.nearBytes 0 64 1 va n).1 with | .ok b => p b | .error _ => false
theorem witness_NearEngines :
    (let c := nredCmd (nredBytes 1) 0
     let q := nearCmd (.nred (nredBytes 1) 0)
     let s := stNear (.nred (nredBytes 1) 0) none
     let was := s.nearWords 0 64 c.lrec 128
     s.nearHead 0 = some q ∧ c.badCnt = false ∧ c.ok = true ∧ s.nearMay was = true ∧
     (match s.through 1 5 (nearTraffic 0 false was) with
      | .ok s1 => near c.lrec 128 (s1.takeNear 0 q) layoutOk && near 0x200 128 (s1.takeNear 0 q) fun r => !layoutOk r
      | .error _ => false) = true ∧ (nredCmd (nredBytes 0) 0).ok = false ∧ (nredCmd (nredBytes 0) 0).badCnt = false) ∧
    (let s (n : Nred) : State := stNear (.nred (nredBytes 1) 0) (some n)
     let n0 := nredOf []
     let n1 := nredOf [(0x1800, (5, false)), (0x1880, (0, false)), (0x1884, (0, false)), (0x1885, (1, false))]
     let n2 := nredOf [(0x1884, (1, false)), (0x1885, (0, false))]
     ((s n0).hearth 0).nred = some n0 ∧ n0.stopped = false ∧ n0.bag < (nredCmd (nredBytes 1) 0).nbags ∧
     (nredStep n0 (s n0) fun r => match r with
      | .read l => isOk ((s n0).nearBurst 0 1 5 false l) && !isOk (({ s n0 with dclk := 0, burstAt := [(queueIx (l.headD 0), 0)] } : State).nearBurst 0 1 5 false l)
      | _ => false) = true ∧
     (nredStep n1 (s n1) fun r => match r with
      | .write l => l == [(0, 5)] && (s n1).nredLine 0 64 1 0x300 l == [(0x18C0, 5)] && isOk ((s n1).nearBurst 0 1 5 true [0x18C0]) &&
          ((s n1).nredLine 0 64 1 0x5000 l).isEmpty && !isOk ((s n1).nredOut 0 64 1 0x5000 0)
      | _ => false) = true ∧
     (nredStep n2 (s n2) fun r => match r with | .bad _ _ => true | _ => false) = true ∧
     (let n3 : Nred := { n0 with bag := 1 }
      ((s n3).hearth 0).nred = some n3 ∧ (nredCmd (nredBytes 1) 0).nbags ≤ n3.bag ∧ (s n3).counterWaitsOn 64 1 (nredCmd (nredBytes 1) 0).cnt = false)) ∧
    (let l : Load := { (default : Load) with gred := some (0, 0xC4, 0), lanes := [⟨0, [(0x6000, 4)], none⟩], vf := 1, dst := 8, size := 2 }
     let s := { mapped (stI (.nop hd zb)) with loads := [(3, l)] }
     let r := s.gredRead 3 l
     s.loads.find? 3 = some l ∧ (r.2.warp? 0 0).isSome = true ∧ r.1.lanes ≠ [] ∧ (∀ y ∈ r.1.lanes, y.fixed.isSome = true ∧ y.fixed ≠ some []) ∧
     isOk (r.2.through 1 3 (r.2.traffic 1 0 false ((List.range 4).map fun i => 0x6000 + i))) = true) ∧
    (let l : Load := { (default : Load) with gred := some (0, 0xC4, 0), lanes := [⟨0, [(0x6000, 4)], some []⟩], vf := 1, dst := 8, size := 2 }
     let s := { mapped (stI (.nop hd zb)) with loads := [(3, l)] }
     let r := s.gredRead 3 l
     s.loads.find? 3 = some l ∧ r.1.lanes = l.lanes ∧ ((r.2.warp? 0 0).bind fun w => (lowestOf (1 &&& w.live)).bind w.entryOf) = some 0) := by
  decide +kernel

/-- A launch of one word of each thread on channels 0 and 31 (Table 15.5). -/
def desc (mask : Byte) : List Byte := [0, 0, 0, 0, 0, 0, 0, 0, 0, 0, 0, 0, 0, 0, 0, 0, 1, 0, 1, 0, 0, 0, 0, 0, mask, 0, 0, 0x80] ++ List.replicate 36 0
/-- The same between the compute intervals. -/
def calm (r : NearReq) : State := (stNear r none).each (List.range 8) fun s k => s.modHearth k fun h => { h with compute := false }
theorem witness_StoveEngines :
    (let s := calm (.nlaunch (desc 1))
     let q := nearCmd (.nlaunch (desc 1))
     let was := s.nearWords 0 64 0 4 ++ s.nearWords 0 64 0 4
     s.nearHead 0 = some q ∧ s.counterWaitsOn 64 1 (namedCounter 0) = false ∧ s.launchOk 1 0 (desc 1) = true ∧ (s.stove 0).busy = false ∧ (s.stove 31).busy = false ∧
     (s.hearth 0).launches = [] ∧ (∀ w ∈ was, s.wordQueued w = false ∧ s.flipWaits (4 * w) s.nextId = false) ∧
     (match s.through 1 5 (nearTraffic 0 false was) with
      | .ok s1 => (match s1.nearCode 0 q 0 1 with
        | (.ok _, s2) => isOk (s2.nearCode 0 q 0 1).1
        | _ => false)
      | .error _ => false) = true ∧ s.launchOk 1 0 (desc 2) = false ∧
     (calm (.nlaunch (desc 2))).nearHead 0 = some (nearCmd (.nlaunch (desc 2)))) ∧
    (let s := (State.reset.setStove 31 { Stove.idle with st := .faulted, launch := 5 }).modHearth 0 fun h => { h with launches := [(5, ⟨1, 64, [31], 0x80⟩)] }
     (s.hearth 0).launches.find? (s.stove 31).launch = some ⟨1, 64, [31], 0x80⟩ ∧ (s.stove 31).ended = true ∧ s.counterWaitsOn 64 1 (namedCounter 0x80) = false) ∧
    (let s := calm (.nstat 0x80000000 0x100 0)
     s.nearHead 0 = some (nearCmd (.nstat 0x80000000 0x100 0)) ∧ (List.range 32).filter (0x80000000#32).getLsbD = [31] ∧ s.counterWaits 64 1 0 = false ∧
     s.engineWaits 0 64 0x100 16 .write = false ∧
     isOk (s.through 1 5 ((nearTraffic 0 true (s.nearWords 0 64 0x100 16)).filter fun y => y.1 == 1)) = true ∧ s.part? 1 = some part1 ∧ part1.channels.contains 31 = true ∧ (s.stove 31).st ≠ .loaded ∧
     ((s.takeNear 0 (nearCmd (.nstat 0x80000000 0x100 0))).writeVirt 0 64 1 0x100 (statusRecord (s.stove 31) ((s.stove 31).code6 0)) [] ⟨4, 0, some 0x100, 0⟩).1 = none) ∧
    ((calm (.nkill 1 0)).nearHead 0 = some (nearCmd (.nkill 1 0)) ∧ (calm (.nkill 1 0)).counterWaits 64 1 0 = false) ∧
    (let s := { State.reset with bootStep := 6 }
     (s.hearth 0).frameAt ≤ s.dclk ∧ (s.hearth 0).computelen ≠ 0) ∧
    (let s := { State.reset.modHearth 0 (fun h => { h with frameAt := 1, next := [(0, 4096, 0)] }) with bootStep := 6, dclk := 1 }
     ((((s.hearth 0).next.filter fun y => decide (y.1 < (s.hearth 0).frameAt)).getLast?.map fun y => y.2).getD (4096, 1024)).2 = 0 ∧ (s.hearth 0).frameAt ≤ s.dclk) ∧
    (let s := { State.reset.modHearth 0 (fun h => { h with compute := true }) with dclk := 98 }
     (s.hearth 0).compute = true ∧ (s.hearth 0).ordAt ≤ s.dclk) ∧
    (let s := { State.reset.setStove 0 { Stove.idle with st := .running } with dclk := 98 }
     (s.hearth 0).compute = false ∧ (s.hearth 0).ordAt + 98 ≤ s.dclk ∧ (s.stove 0).st = .running ∧ (s.stove 0).aend = false) := by decide +kernel

/-! ## Witnesses: the matrix stream -/

/-- The sequencer of `State.cur` meets `seqAt` (and `p`). -/
def seqAnd (s : State) (p : SeqCtx → Bool) : Bool :=
  match s.cur with
  | .seq core slot pc _ => ((s.sequencerAt core slot pc).map fun x => x.core == core && x.slot == slot && x.pc == pc && p x).getD false
  | _ => false
theorem seqAt_of {s : State} {p : SeqCtx → Bool} (h : seqAnd s p = true) : ∃ x, s.seqAt x ∧ p x = true := by
  unfold seqAnd at h
  split at h
  · rename_i core slot pc w hc
    cases hx : s.sequencerAt core slot pc with
    | none => simp [hx] at h
    | some x =>
      simp only [hx, Option.map_some, Option.getD_some, Bool.and_eq_true, beq_iff_eq] at h
      obtain ⟨⟨⟨hcore, hslot⟩, hpc⟩, hp⟩ := h
      subst hcore hslot hpc
      exact ⟨x, ⟨w, hc, hx⟩, hp⟩
  · cases h
/-- The placed team's sequencer about to issue; formats as in `stI`, four cells. -/
def stQ (i : Instr) : State :=
  let w := (encodeStream i).getD 0
  let s := State.reset.placeStream w
  let s := s.modGrid 0 fun g => { g with lr := { g.lr with fmt := [0x508, 6, 3, 0, 0, 0, 0, 0] } }
  let s := s.modTeam 0 fun t => { t with cells := [0, 1, 2, 3], bytes := 4 * 32768 }
  { s with cur := .seq 0 0 0x1000 w }
def seqs (l : List Instr) : Bool := l.all fun i => seqAnd (stQ i) fun _ => i.wellFormed
theorem witness_SequencerControl :
    seqs [.mset hd ⟨7, 0, 5, 1⟩, .mbra { hd with fs := 7 } ⟨0, 0, 0, 0⟩, .mloop hd ⟨0, 0, 0, 0⟩, .mbwait hd { zc with cmod := 15 }, .mbarr hd { zc with cmod := 1025 * 16 },
      .mpoint hd { zc with cmod := 255 }, .mend hd zc] = true ∧
    (let i := Instr.mbra hd ⟨0, 0, 0, 0⟩
     let s := (stQ i).modSeq 0 fun q => { q with k := [(0, 1)] }
     seqAnd s fun x => x.k 0 != 0 && (s.taken.targetCause x.core x.g.ctx x.g.vf (jTarget x.pc ⟨0, 0, 0, 0⟩)).isNone &&
       s.taken.targetCause x.core x.g.ctx x.g.vf (jTarget x.pc ⟨0, 1, 0, 0⟩) == some causeBadTarget) = true ∧
    (let s := (stQ (.mbwait hd zc)).modTeam 0 fun t => t.setBar 0 { Barrier.start with abandon := true }
     seqAnd s fun x => (x.t.bar 0).abandon) = true ∧
    (let s := (stQ (.mbwait hd zc)).modTeam 0 fun t => t.setBar 0 { Barrier.start with gen := 1 }
     seqAnd s fun x => (x.t.bar 0).gen != (x.t.bar 0).sgen) = true ∧
    (seqAnd (stQ (.mbarr hd zc)) fun x => (stQ (.mbarr hd zc)).postedNone x.ix) = true ∧
    (let s := { stQ (.mbarr hd zc) with posted := [(4, ⟨0, .mzero 0⟩)] }
     seqAnd s fun x => !s.postedNone x.ix) = true := by decide +kernel
theorem witness_TileMembers :
    (let i := Instr.mstart hd { zc with acc := 7 }
     seqAnd (stQ i) fun x => i.wellFormed && decide (7 < x.g.lr.accs) && x.q.spill.isNone && ((stQ i).takeable x.core x.g.ctx).head? == some 8 &&
       ((stQ i).core 0 |>.tile 8).st == .free) = true ∧
    (let i := Instr.mstart hd zc
     let all (st : TileState) (ctx : Nat) (s : State) : State := s.modCore 0 fun c => { c with tiles := (List.range 24).map fun k => (k, { Tile.zero with st := st, ctx := ctx }) }
     seqAnd (all .foreign 65 (stQ i)) (fun x => i.wellFormed && ((all .foreign 65 (stQ i)).takeable x.core x.g.ctx).head? == some 8 &&
       ((all .foreign 65 (stQ i)).core 0 |>.tile 8).st != .free) = true ∧
     seqAnd (all .draining 64 (stQ i)) (fun x => ((all .draining 64 (stQ i)).takeable x.core x.g.ctx).isEmpty) = true ∧
     seqAnd ((all .foreign 65 (stQ i)).modSeq 0 fun q => { q with spill := some 23 }) (fun x => x.q.spill == some 23) = true ∧
     ((all .foreign 65 (stQ i)).core 0 |>.tile 23).st = .foreign ∧ ((stQ i).core 0 |>.tile 23).st ≠ .foreign) ∧
    seqs [.mzero hd zc] = true ∧
    (let b : CBody := { zc with count := 64, cmod := 0 }
     let h := { hd with fs := 2 }
     (seqAnd (stQ (.mget h b)) fun x => x.moveOk h b [1, 2, 3, 4, 5, 6] 0xF77F && x.room (stQ (.mget h b)).taken 0 &&
        !(stQ (.mget h b)).taken.regsPending x.core (x.slotOf 0) 0 64) = true ∧
     (let s := { stQ (.mget h b) with loads := [(3, { (default : Load) with dst := 63, size := 2, lanes := [⟨0, [(0x6000, 4)], none⟩] })] }
      seqAnd s fun x => x.moveOk h b [1, 2, 3, 4, 5, 6] 0xF77F && s.taken.regsPending x.core (x.slotOf 0) (x.move h b).vreg 64) = true ∧
     (let s := (stQ (.mget h b)).modWarp 0 0 fun w => { w with ops := List.replicate 63 (1, 0, false) }
      seqAnd s fun x => x.moveOk h b [1, 2, 3, 4, 5, 6] 0xF77F && !x.room s.taken 0) = true ∧
     (seqAnd (stQ (.mget h b)) fun x => !x.moveOk h { b with region := 1 } [1, 2, 3, 4, 5, 6] 0xF77F) = true ∧
     (seqAnd (stQ (.mput h b)) fun x => x.moveOk h b [1, 2, 3] 0xF07F && x.room (stQ (.mput h b)).taken 0 &&
        !(stQ (.mput h b)).taken.regsPending x.core (x.slotOf 0) (x.move h b).vreg 64) = true) := by
  decide +kernel
/-- Region 15: the first two cells, sealed for the placed team. -/
def reg1 (st : Nat) : Region := ⟨st, hiveTeamSlot 0, 0, 0, 2, 1, 1, false, 0, [], [0, 1]⟩
def stR (i : Instr) (r : Region) : State := (stQ i).modHive 0 fun h => { h with regions := [(15, r)] }
theorem witness_RegionsAndPasses :
    (let h := { hd with fs := 1 }
     let b : CBody := { zc with region := 15, cmod := 0x010200 }
     let i := Instr.mseal h b
     (seqAnd (stQ i) fun x => i.wellFormed && slotOk (x.fmt h) [4, 5, 6, 8, 9, 10, 11] && !x.q.waiting && (x.sealCause (stQ i).taken h b).isNone) = true ∧
     (seqAnd (stR i (reg1 2)) fun x => !x.q.waiting && x.sealCause (stR i (reg1 2)).taken h b == some causeCombSealed) = true ∧
     (seqAnd ((stR i (reg1 2)).modSeq 0 fun q => { q with waiting := true }) fun x => x.q.waiting) = true) ∧
    (let i := Instr.munseal hd { zc with region := 15 }
     (seqAnd (stR i (reg1 2)) fun x => i.wellFormed && !x.q.waiting && (reg1 2).ownedBy x.ix x.t && ((stR i (reg1 2)).passes x.hive).isEmpty) = true ∧
     (seqAnd (stQ i) fun x => !x.q.waiting && (((stQ i).hive x.hive).regions.find? 15).isNone) = true ∧
     (let s := { (stQ i).modSeq 0 fun q => { q with waiting := true, waitOps := [4] } with posted := [(4, ⟨0, .mzero 0⟩)] }
      seqAnd s fun x => x.q.waiting && x.q.waitOps == [4] && s.taken.postedOpen 4) = true) ∧
    (let i := Instr.mfence hd zc
     (seqAnd (stQ i) fun x => i.wellFormed && !x.q.waiting && (stQ i).postedNone x.ix) = true ∧
     (let s := { stQ i with posted := [(4, ⟨0, .mzero 0⟩)] }
      seqAnd s fun x => i.wellFormed && !x.q.waiting && s.posted.any fun p => p.2.team == x.ix && (s.posted.find? p.1).isSome) = true ∧
     (let i := Instr.mfence hd { zc with cmod := 1 }
      seqAnd (stQ i) fun x => i.wellFormed && !x.q.waiting && ((stQ i).hive x.hive).regions.isEmpty && ((stQ i).passes x.hive).isEmpty) = true) ∧
    (let h := { hd with fs := 1 }
     let b : CBody := { zc with count := 64, region := 15 }
     let i := Instr.mmac h b
     (seqAnd (stR i (reg1 2)) fun x => i.wellFormed && slotOk (x.fmt h) [3, 4, 5, 6] && b.count.toNat % regsPerCell (x.kind h) == 0 && decide (0 < x.g.lr.accs) &&
       x.regsOk 0 (x.vreg 0 false 0) 64 && ((x.region (stR i (reg1 2)).taken 15).map fun r => r.2 == x.ix && decide (64 / regsPerCell (x.kind h) ≤ r.1.depth)) == some true &&
       x.room (stR i (reg1 2)).taken 0 && decide (((stR i (reg1 2)).passes x.hive).length + 64 / regsPerCell (x.kind h) ≤ 64) && ((stR i (reg1 2)).team? x.ix).isSome &&
       !(stR i (reg1 2)).taken.regsPending x.core (x.slotOf 0) (x.vreg 0 false 0) 64 && (stR i (reg1 2)).taken.firstAt x.producer) = true ∧
     (seqAnd (stQ i) fun x => (x.region (stQ i).taken 15).isNone) = true) := by decide +kernel
/-- A pass of the first cell into tile 0, and moves of one register, of the placed team. -/
def pass1 : Pass := ⟨0, 0, 0, none, 3, 6, 3, 0, false, 0, 0, none⟩
def slab1 : Slab := ⟨0, 0, 0, 1, [(0, 7)], none⟩
def move1 : TileMove := (((stQ (.nop hd zb)).sequencerAt 0 0 0x1000).map fun x => x.move { hd with fs := 2 } { zc with count := 1 }).getD default
def stM (l : Tab Posted) : State := { stQ (.mend hd zc) with posted := l, slabs := [(3, { slab1 with data := some [] }), (4, slab1)] }
theorem witness_MatrixEvents :
    (let s := stR (.mend hd zc) (reg1 1)
     (s.hive 0).regions.find? 15 = some (reg1 1) ∧ (s.team? (hiveTeamSlot 0)).isSome = true ∧
     ((s.gridOfTeam 0).map fun g => (g.lr.fmt.getD 1 0).toNat % 256) = some 6 ∧ s.copyOps = [] ∧ [0, 1].any (s.hive 0).undef.contains = false ∧ (s.hive 0).err = []) ∧
    (let s := { stM [] with parts := [(1, { part1 with replay := true })] }
     s.slabs.find? 4 = some slab1 ∧ (((s.part? (s.vfOfTeam 0)).map (·.replay)).getD false) = true ∧
     ((s.team? 0).map fun t => (s.warp? 0 (t.slots.getD 0 0)).map (·.killed)) = some (some false)) ∧
    (let s := stM [(5, ⟨0, .pass pass1⟩)]
     (s.passes 0).filter (fun q => q.2.cell == 0) = [(5, pass1)] ∧ s.posted.find? 5 = some ⟨0, .pass pass1⟩ ∧ s.grantable 5 0 pass1 = true ∧ (s.hive 0).regions = []) ∧
    (let p := { pass1 with granted := true }
     (stM [(5, ⟨0, .pass p⟩)]).posted.find? 5 = some ⟨0, .pass p⟩ ∧ ((stM []).hive 0).err = [] ∧ p.granted = true ∧ p.old = none ∧ p.tile1 = none) ∧
    (let s := stM [(5, ⟨0, .mget move1⟩)]
     s.posted.find? 5 = some ⟨0, .mget move1⟩ ∧ s.tileBefore 5 ⟨0, .mget move1⟩ = false ∧ (s.team? 0).isSome = true ∧
     (move1.elems.any ((s.core 0).tile move1.tile).poison.contains) = false ∧ ((s.team? 0).map fun t => (s.warp? 0 (t.slots.getD move1.warp 0)).map (·.killed)) = some (some false)) ∧
    (let s := stM [(3, ⟨0, .mput move1⟩)]
     s.posted.find? 3 = some ⟨0, .mput move1⟩ ∧ (s.slabs.find? 3).bind (·.data) = some [] ∧ s.tileBefore 3 ⟨0, .mput move1⟩ = false) ∧
    (let s := stM [(5, ⟨0, .mzero 23⟩)]
     s.posted.find? 5 = some ⟨0, .mzero 23⟩ ∧ s.tileBefore 5 ⟨0, .mzero 23⟩ = false) ∧
    (let s := ((stQ (.mend hd zc)).modSeq 0 fun q => { q with spill := some 23 }).modCore 0 fun c => { c with tiles := [(23, { Tile.zero with st := .foreign, ctx := 65 })] }
     s.taker 0 23 = some 0 ∧ ({ s with spillQ := [(0, 23)] } : State).nextSpill 0 = some (0, 23) ∧ s.nextSpill 0 ≠ some (0, 23)) ∧
    (let s := (stR (.mend hd zc) { reg1 1 with before := [9] }).modHive 0 fun h => { h with copy := [(0, [copy1 (.bcopy false)])] }
     s.copyOpen [9] = true) := by decide +kernel

/-! ## Witnesses: stoves -/

/-- Stove 31 of stack 0 runs two operations of each thread with `f` of its registers. -/
def stove1 (f : Stove → Stove) : Stove := f { Stove.idle with st := .running, acode := [0, 0], xcode := [0, 0] }
def stSt (arith : Bool) (f : Stove → Stove) : State := { State.reset.setStove 31 (stove1 f) with cur := .stove 0 31 arith, bootStep := 6 }
def stoveAnd (s : State) (k : Nat) (arith : Bool) (p : Stove → Bool) : Bool :=
  s.cur == .stove (k / 32) (k % 32) arith && (s.stove k).ready arith && decide ((s.stove k).last arith ≤ s.dclk + 1) && p (s.stove k)
theorem stoveAt_of {s : State} {k : Nat} {arith : Bool} {p : Stove → Bool} (h : stoveAnd s k arith p = true) : s.stoveAt k arith (s.stove k) ∧ p (s.stove k) = true := by
  simp only [stoveAnd, Bool.and_eq_true, beq_iff_eq, decide_eq_true_eq] at h
  exact ⟨⟨k / 32, k % 32, by omega, h.1.1.1, rfl, h.1.1.2, h.1.2⟩, h.2⟩
def burst1 (p : Bool) : BurstWords := ⟨List.replicate 16 1, p :: List.replicate 15 false⟩
theorem witness_AddressThread :
    stoveAnd (stSt false id) 31 false (fun x => decide (0 ≤ (x.apc : Int) + (0#15).toInt) && decide ((x.apc : Int) + (1#15).toInt < x.acode.length)) = true ∧
    ¬0 ≤ (((stSt false id).stove 31).apc : Int) + (0x7FFF#15).toInt ∧
    (let s := stSt false fun x => { x with writeQ := [(0, 7, burst1 false)] }
     stoveAnd { s with dclk := 1 } 31 false (fun x => x.buffer.isNone && x.writeQ == [(0, 7, burst1 false)]) = true ∧
     stoveAnd s 31 false (fun x => x.buffer.isNone && (s.stoveClk false x).dclk == 0) = true) ∧
    stoveAnd (stSt false id) 31 false (fun x => x.buffer.isNone && x.writeQ.isEmpty) = true ∧
    (let s := stSt false id
     stoveAnd s 31 false (fun x => s.rowOk x.vf (stovePa 31 0 0 0) false true && (x.rows.find? 0).isNone &&
       !(((s.hearth 0).ordinary (s.taken.activateAt 31 0)).any fun o => decide (18 < o))) = true) ∧
    (let s := stSt false fun x => { x with vf := 1 }
     stoveAnd s 31 false (fun x => !s.rowOk x.vf (stovePa 31 0 0 0) false true) = true) ∧
    (let s := stSt false fun x => { x with rows := [(0, 0)] }
     stoveAnd s 31 false (fun x => x.rows.find? 0 == some 0 && decide (x.dataQ.length < 16) && !s.taken.burstLimit 31 x 0 && (s.taken.stoveHeld 31 x (stovePa 31 0 0 31)).isNone &&
       s.rowOk x.vf (stovePa 31 0 0 31) false true) = true) ∧
    (let s := stSt false fun x => { x with rows := [(0, 0)], buffer := some (0, burst1 false) }
     stoveAnd s 31 false (fun x => bitsOf (0 : Word).toNat 31 25 == 0 && !s.taken.burstLimit 31 x (tagBank 0) && (s.taken.stoveHeld 31 x (stovePa 31 0 0 (tagColumn 0))).isNone && !(burst1 false).poison.any id && x.rows.find? (tagBank 0) == some (tagRow 0) &&
       (s.taken.nearWriteCause x.vf (stovePa 31 0 0 (tagColumn 0) / 4)).isNone) = true) ∧
    (let s := { (stSt false fun x => { x with rows := [(0, 0)], ordBursts := 32 }) with dclk := 4 }
     stoveAnd s 31 false (fun x => x.rows.find? 0 == some 0 && decide (x.dataQ.length < 16) && s.taken.burstLimit 31 x 0) = true) ∧
    (let s := { stSt false fun x => { x with rows := [(0, 0)] } with flips := [(stovePa 31 0 0 31 / 4096, 0)] }
     stoveAnd s 31 false (fun x => (s.stoveHeld 31 x (stovePa 31 0 0 31)).isSome && s.rowOk x.vf (stovePa 31 0 0 31) false true) = true) ∧
    (let s := { (stSt false fun x => { x with rows := [(0, 0)], buffer := some (0, burst1 false) }) with hostBias := [stovePa 31 0 0 31 / 4096] }
     stoveAnd s 31 false (fun x => s.isHostBias (stovePa 31 0 0 31) && s.isHostBias (stovePa 31 0 0 (tagColumn 0)) && !s.taken.burstLimit 31 x 0) = true) ∧
    (let s := stSt false fun x => { x with vf := 1, rows := [(0, 0)], buffer := some (0, burst1 false) }
     stoveAnd s 31 false (fun x => s.nearWriteCause x.vf (stovePa 31 0 0 (tagColumn 0) / 4) == some causeRowDenied) = true) ∧
    (let s := { stSt false fun x => { x with rows := [(0, 0)] } with openRows := [(sliceBank 0 31 0 0, ⟨0, 0, true⟩)] }
     stoveAnd s 31 false (fun x => x.rows.any fun y => match s.openRows.find? (sliceBank 0 31 0 y.1) with
       | some o => decide ((s.stoveClk false x).dclk < o.at_ + 80)
       | none => false) = true) ∧
    (let s := { stSt false id with dclk := 19 }
     stoveAnd s 31 false (fun x => s.rowOk x.vf (stovePa 31 0 0 0) false true && ((s.hearth 0).ordinary (s.taken.activateAt 31 0)).any fun o => decide (18 < o)) = true) ∧
    (let s := (stSt false id).modHearth 0 fun h => { h with compute := true }
     stoveAnd s 31 false (fun x => x.rows.isEmpty && (s.hearth 0).compute) = true ∧ ((stSt false id).hearth 0).compute = false) := by decide +kernel
theorem witness_WrongThread :
    (stSt true id).stoveAt 31 true ((stSt true id).stove 31) ∧
    (let s := stSt true fun x => { x with lastX := 2 }
     s.cur = .stove 0 31 true ∧ (s.stove 31).ready true = true ∧ s.dclk + 1 < (s.stove 31).last true) :=
  ⟨(stoveAt_of (p := fun _ => true) (by decide +kernel)).1, by decide +kernel⟩
theorem witness_ArithmeticThread :
    stoveAnd (stSt true fun x => { x with dataQ := [(0, burst1 true)] }) 31 true (fun x => x.dataQ == [(0, burst1 true)]) = true ∧
    (let s := stSt true fun x => { x with dataQ := [(1, burst1 true)] }
     stoveAnd s 31 true (fun x => x.dataQ == [(1, burst1 true)] && (s.stoveClk true x).dclk == 0) = true) ∧
    stoveAnd (stSt true id) 31 true (fun x => x.dataQ.isEmpty && decide (x.writeQ.length < 16)) = true ∧
    stoveAnd (stSt true fun x => { x with writeQ := List.replicate 16 (0, 0, burst1 false) }) 31 true (fun x => decide (16 ≤ x.writeQ.length)) = true ∧
    stoveAnd (stSt true fun x => { x with bt := [(3, burst1 false)] }) 31 true
      (fun x => [0, 1, 2, 3].all fun r => !(x.bt.get BurstWords.zero r).poison.any id) = true ∧
    stoveAnd (stSt true fun x => { x with bt := [(3, burst1 true)] }) 31 true (fun x => (x.bt.get BurstWords.zero 3).poison.any id) = true ∧
    stoveAnd (stSt true id) 31 true (fun x => decide (0 ≤ (x.xpc : Int) + (0#15).toInt) && decide ((x.xpc : Int) + (1#15).toInt < x.xcode.length)) = true ∧
    ¬0 ≤ (((stSt true id).stove 31).xpc : Int) + (0x7FFF#15).toInt ∧
    [Instr.xpop 3, .xpush 3 15, .xadd 3 0 1, .xmul 3 0 1, .xfma 3 0 15, .xmax 3 0 1, .xscale 3 0 15, .xcvt 3 0 5, .xset 15 7 0, .xsetB 3 15, .xbr 4 0 0 1,
      .aset 15 7 0, .abr 4 0 0 1].all (·.wellFormed) = true := by decide +kernel
/-! ## Witnesses: checks and launches -/

theorem witness_IssueChecks :
    (let i := Instr.add hd (vb 3 1 2 4 0 0)
     ((stI i).issuer i).map (fun x => x.checkIssue i (stI i).taken) = some (some causeReserved)) ∧
    (let i := Instr.mov hd (vb 3 1 0 0 0 0)
     let s := ((stI i).modCtx 64 fun c => { c with schk := true }).modWarp 0 0 fun w => { w with windows := [⟨.v 1 0, 7, 0, 4096⟩] }
     (s.issuer i).map (fun x => x.checkIssue i s.taken) = some (some causeStallShort)) ∧
    ((stI (.nop hd zb)).issuer (.mend hd zc)).isSome = true ∧
    seqAnd (stQ (.mend hd zc)) (fun _ => !(Instr.mend { hd with u := true } zc).wellFormed) = true ∧
    stoveAnd (stSt true id) 31 true (fun _ => true) = true ∧ stoveAnd (stSt false id) 31 false (fun _ => true) = true := by decide +kernel

/-- `f` of partition 1, the pages mapped, one grid of 8 teams, its dependency a word of VA `dep` at 1. -/
def grid1 (dep : DWord) : Grid :=
  { (default : Grid) with ctx := 64, vf := 1, lr := { placedRec false with gx := 8, depAddr := dep, depTarget := 1 }, st := .ready, lrec := 0x80 }
def stL (f : Partition → Partition) (g : Grid) : State := { mapped State.reset with parts := [(1, f part1)], grids := [(9, g)] }
def queue1 (base : Nat) : LQueue := ⟨64, base, 4, 0xFFFFFFFF, 0⟩
theorem witness_Launches :
    (let i := Instr.glaunch hd (vb 0 0xC2 0 0 0 0)
     let free (s1 : State) (x : Ctx) : Bool := (match x.e.wait with | .launch _ => false | _ => true) && !(s1.coreOwes x.core || s1.engineWaits 0 x.gctx (x.scal 0xC2) 256 .read)
     (readyAnd i (stN i 0) fun x => x.act != 0 && decide ((((stN i 0).gridOfTeam x.team).map (·.depth)).getD 0 < 10) &&
        match checkLanes (stN i 0).taken x.threads (fun _ s => if (x.scal 0xC2).toNat % 64 ≠ 0 then (.error causeAlign, s)
          else s.resolveParts x.core x.gctx (partsOf (x.scal 0xC2).toNat 256 257) .read) (fun _ => x.scal 0xC2) with
        | (.ok _, s1) => free s1 x && (s1.launchAll x (x.threads.map fun _ => x.scal 0xC2)).2.isEmpty
        | _ => false) = true ∧
     (let s : State := { stN i 0 with parts := [(1, { part1 with pool := List.range 64 })] }
      readyAnd i s fun x => match checkLanes s.taken x.threads (fun _ s => if (x.scal 0xC2).toNat % 64 ≠ 0 then (.error causeAlign, s)
          else s.resolveParts x.core x.gctx (partsOf (x.scal 0xC2).toNat 256 257) .read) (fun _ => x.scal 0xC2) with
        | (.ok _, s1) => free s1 x && !(s1.launchAll x (x.threads.map fun _ => x.scal 0xC2)).2.isEmpty
        | _ => false) = true ∧
     (let s : State := { stN i 0 with stores := [(3, (default : Store))] }
      readyAnd i s fun x => match checkLanes s.taken x.threads (fun _ s => if (x.scal 0xC2).toNat % 64 ≠ 0 then (.error causeAlign, s)
          else s.resolveParts x.core x.gctx (partsOf (x.scal 0xC2).toNat 256 257) .read) (fun _ => x.scal 0xC2) with
        | (.ok _, s1) => s1.coreOwes x.core
        | _ => false) = true) ∧
    (let q := queue1 0x6080
     let p (n : Nat) (q : LQueue) : Partition := { part1 with queues := [(15, q)], pool := List.range n }
     let entry (s : State) (q : LQueue) : Option Nat := match s.readPhys 1 (q.base + 8 * (q.head.toNat % 2 ^ q.n)) 8 with | .ok b => some (fieldOf b 0 8 % 64) | .error _ => none
     let s := stL (fun _ => p 48 q) (grid1 0)
     let pa := q.base + 8 * (q.head.toNat % 2 ^ q.n)
     (s.hostBusy pa = false ∧ s.flipWaits pa s.nextId = false ∧ s.engineWaits 0 q.ctx 0 256 .read = false ∧ s.engineWaits 0 q.ctx 1 256 .read = false ∧ s.engineWaits 0 q.ctx 0x1C 1 .write = false ∧
       s.engineWaits 0 q.ctx (1 + 0x1C) 1 .write = false ∧ ({ s with perms := [] } : State).hostBusy pa = false ∧ isOk (({ s with perms := [] } : State).readPhys 1 pa 8) = false) ∧
     (p 48 q).nextQueue = some (15, q) ∧ entry (stL (fun _ => p 48 q) (grid1 0)) q = some 0 ∧
     (entry { stL (fun _ => p 48 q) (grid1 0) with mem := [(0x60F8, 1)] } q) = some 1 ∧ (p 49 q).pool.length = 49) ∧
    (let met (g : Grid) (m : List Host.Cell) : Option Bool := match ({ stL id g with mem := (stL id g).mem ++ m } : State).depMet 64 1 g.lr with | (.ok b, _) => some b.isSome | (.error _, _) => none
     let g := { grid1 0x80 with st := .pending }
     met g [(0x6080, 1)] = some true ∧ met g [] = some false ∧ (stL id g).grid? 9 = some g) ∧
    (let g := { grid1 0 with readyAt := some 5 }
     ({ stL id g with vclock := 5 + 2 ^ 24 } : State).grid? 9 = some g ∧ g.placed = 0) := by decide +kernel

def saveRoom (s : State) : State := s.modCtx 64 fun c => { c with savesize := 2 ^ 20 }
theorem witness_Placement :
    (let p := { part1 with pool := [9] }
     let s := stL (fun _ => p) (grid1 0)
     rotate (p.dies.filter fun d => ((s.pkgQ.find? (pkgIx 1 d)).getD []).length < 8) p.pkgRot = some 0 ∧ p.returned = [] ∧ s.nextGrid p = some (9, grid1 0)) ∧
    (let r : Range := ⟨9, 0, 7, 4⟩
     let s := { stL id (grid1 0) with pkgQ := [(4, [r])] }
     s.pkgQ.find? (pkgIx 1 0) = some [r] ∧
     rotate ((part1.hivesOn 0).filter fun h => ((s.dieQ.find? h).getD []).length < 4) ((part1.dieRot.find? 0).getD 0) = some 0) ∧
    (let r : Range := ⟨9, 0, 7, 8⟩
     let p := { part1 with hives := [0, 1, 24] }
     let s := { saveRoom (stL (fun _ => p) (grid1 0)) with dieQ := [(1, [r])] }
     s.victim s.dieQ ((p.hivesOn 0).filter (· ≠ 0)) = some (1, r) ∧ s.dieQ.find? 0 = none ∧ ((s.grid? r.grid).bind fun g => s.fitHive 0 g none).isSome = true ∧
     (let s := { s with pkgQ := [(5, [r])], dieQ := [] }
      s.pkgQ.find? (pkgIx 1 0) = none ∧ s.victim s.pkgQ ((p.dies.filter (· ≠ 0)).map (pkgIx 1)) = some (5, r) ∧
      ∃ h ∈ p.hivesOn 0, ((s.dieQ.find? h).getD []).length < 4)) ∧
    (let r : Range := ⟨9, 0, 7, 8⟩
     let s (g : Grid) : State := { saveRoom (stL id g) with dieQ := [(0, [r])] }
     (s (grid1 0)).shadowFor 0 = none ∧ (s (grid1 0)).leftShadow 0 = none ∧ (grid1 0).turnOf r.lo = true ∧ ((s (grid1 0)).fitHive 0 (grid1 0) none).isSome = true ∧
     (let g := { grid1 0 with lr := { placedRec false with gx := 8, comb := 193 * 32768 } }
      (s g).fitHive 0 g none = none ∧ (s g).fitWait.find? 0 = none)) ∧
    (({ State.reset with fitWait := [(0, (9, 0, 0, false))], vclock := 65536 } : State).fitWait.find? 0 = some (9, 0, 0, false)) ∧
    (let s := (stI (.nop hd zb)).modTeam 0 fun t => { t with screen := some ⟨none, false, none, false, [], 0⟩ }
     ((s.team? 0).map fun t => t.screen) = some (some ⟨none, false, none, false, [], 0⟩) ∧ 0 + 65536 ≤ ({ s with vclock := 65536 } : State).vclock.toNat) := by
  decide +kernel
theorem witness_Retirement :
    (let s := (stI (.nop hd zb)).modWarp 0 0 fun w => { w with exited := w.launched, entries := [] }
     ((s.team? (teamIx 0 0)).map fun t => t.screen.isNone && s.canRetire 0 t) = some true) ∧
    (((stI (.nop hd zb)).team? 0).map fun t => t.screen.isNone && !(stI (.nop hd zb)).canRetire 0 t) = some true ∧
    (let g := { grid1 0 with retired := 7, dropped := 1 }
     (stL id g).grid? 9 = some g ∧ g.lr.teams ≤ g.retired + g.dropped ∧ g.kids = 0 ∧ (stL id g).teams = [] ∧ g.seed = none) := by decide +kernel

/-! ## Witnesses: fetches, samples, waits -/

/-- The placed fragment and sequencer with no line held; the line is fetched for context 64 from the mapped page. -/
def stF (i : Instr) : State :=
  let s := { mapped (stI i) with parts := [(1, part1)] }
  (s.modCore 0 fun c => { c with icache := [] }).modWarp 0 0 fun w => w.modEntry 0 fun e => { e with pc := 1 }
def lineOk (s : State) (pc : DWord) : Bool := match (s.fetchLine 0 64 1 (lineOf pc)).1 with | .ok _ => true | .error _ => false
/-- The fetch passes its buckets and the line is read. -/
def fetchOk (s : State) (who : FetchUnit) (pc : DWord) : Bool :=
  match s.through 1 (fetchReq who) (s.fetchCost 0 64 1 (lineOf pc)) with
  | .ok u => lineOk u pc
  | .error _ => false
def drained (s : State) : State := { s with buckets := (List.range 3).flatMap fun p => (List.range 12).map fun i => (bucketIx 1 p i, ⟨1, 1, -1, none⟩) }
theorem witness_FetchAndSamples :
    ((stF (.nop hd zb)).fetcher 0 0 0 = some (1, 1, 64, 1) ∧ (stF (.nop hd zb)).cachedLine 0 64 1 = none ∧ lineOk (stF (.nop hd zb)) 1 = true ∧
     (stF (.nop hd zb)).lineWaits 0 64 (lineOf 1) = false ∧
     fetchOk (stF (.nop hd zb)) (.frag 0 0 0) 1 = true ∧ isOk ((drained (stF (.nop hd zb))).through 1 (fetchReq (.frag 0 0 0))
       ((drained (stF (.nop hd zb))).fetchCost 0 64 1 (lineOf 1))) = false ∧ (drained (stF (.nop hd zb))).lineWaits 0 64 (lineOf 1) = false ∧
     isOk (({ stF (.nop hd zb) with perms := [] } : State).through 1 (fetchReq (.frag 0 0 0)) (({ stF (.nop hd zb) with perms := [] } : State).fetchCost 0 64 1 (lineOf 1))) = true ∧
     lineOk { stF (.nop hd zb) with perms := [] } 1 = false ∧ ({ stF (.nop hd zb) with perms := [] } : State).lineWaits 0 64 (lineOf 1) = false) ∧
    (let s := (stF (.mend hd zc)).modSeq 0 fun q => { q with pc := 1 }
     s.seqFetcher 0 0 = some (1, 64, 1) ∧ s.lineWaits 0 64 (lineOf 1) = false ∧ s.cachedLine 0 64 1 = none ∧ fetchOk s (.seq 0 0) 1 = true) ∧
    (let s := (stF (.nop hd zb)).keepLine 0 64 0 ((1 : BitVec 512) <<< 96)
     (s.cachedLine 0 64 1).map (fun l => slotParityOk l (slotOf 1)) = some false ∧ s.lineWaits 0 64 (lineOf 1) = false ∧ fetchOk s (.frag 0 0 0) 1 = true) ∧
    (let s := (stF (.nop hd zb)).modWarp 0 0 fun w => w.modEntry 0 fun e => { e with wait := .yield 0 }
     ((s.warp? 0 0).map fun w => (w.entry 0).wait) = some (.yield 0)) ∧
    (let s (w : Nat) : State := { (stI (.nop hd zb)).modCore 0 (fun c => { c with due := [w], lastIssue := [(0, (0, 0))] }) with
        parts := [(1, { part1 with traceMask := 1 })], traceUnits := [(0, { TraceUnit.reset with holder := some 1, period := 6 })] }
     let next (w : Nat) : State := (s w).modCore 0 fun c => { c with due := c.due.filter (· ≠ w) }
     (s 0).samplingOf 0 = some (1, [0]) ∧ ((s 0).core 0).due.contains 0 = true ∧ ((s 3).core 0).due.contains 3 = true ∧ (next 0).nextSampled 1 0 0 (((s 0).core 0).rot.find? 0 |>.getD 0) = some 0 ∧
     ((s 0).core 0).lastIssue.find? 0 = some (0, 0) ∧ (s 0).ctxLive 64 = true ∧ part1.reexec = false ∧ ((s 0).warp? 0 0).isSome = true ∧
     (next 3).nextSampled 1 0 3 0 = none) := by decide +kernel
/-- Barrier 15 of the placed team at its limit; a page of 1 GiB of host memory mapped at 0 (Table 5.3). -/
def stW : State :=
  ({ mapped (stI (.nop hd zb)) with
      parts := [(1, part1)], mem := [(0x1000, 1), (0x1001, 0x20), (0x2000, 1), (0x2001, 0x30), (0x3000, 3), (0x3001, 1), (0x3005, 0x80)] } : State).modTeam 0
    fun t => t.setBar 15 { Barrier.start with arrived := 1, waitCnt := 2 ^ 32 }
def captureOk (s : State) : Bool := match s.team? 0, s.gridOfTeam 0 with
  | some t, some g => (s.writeVirt 0 64 1 0 (s.capture 0 t g 15) [] ⟨0, 0, some 0, 0⟩).1.isNone
  | _, _ => false
theorem witness_Watchdog : stW.expiredBars (stW.ctxIdOfTeam (teamIx 0 0)) = [(0, 15)] ∧ ((stW.ctx? 64).map fun c => (c.vf, c.diag)) = some (1, 0) ∧
    stW.diagWritable 0 64 1 0 = true ∧ captureOk stW = true ∧ (stI (.nop hd zb)).expiredBars 64 = [] := by decide +kernel
theorem witness_Waits :
    (let i := Instr.drain hd ⟨0, 0, 0x8000, 0⟩
     readyAnd i (stI i) (fun x => x.act != 0 && x.w.cntStore == 0) = true ∧
     readyAnd i ((stI i).modWarp 0 0 fun w => { w with cntStore := 1 }) (fun x => x.w.cntStore != 0) = true) ∧
    (let i (sc : Nat) := Instr.fence hd ⟨0, 0, 0, BitVec.ofNat 16 (4 * sc + (if sc = 7 then 2 else 0))⟩
     readyAnd (i 2) (stI (i 2)) (fun x => x.w.fenceReady x.entry 0 2) = true ∧ readyAnd (i 3) (stI (i 3)) (fun x => x.w.fenceReady x.entry 0 3) = true ∧
     (let s (wrote : List (Nat × Nat)) (owed : Tab (List (Nat × Nat))) : State := (stI (i 7)).modWarp 0 0 fun w => { w with wrote := wrote, owed := owed }
      readyAnd (i 7) (s [] []) (fun x => x.w.fenceReady x.entry 2 7 && x.w.wrote.isEmpty) = true ∧
      readyAnd (i 7) (s [(0x1800, 5)] [(0, [])]) (fun x => x.w.fenceReady x.entry 2 7 && (x.w.owed.find? x.entry).isSome) = true ∧
      readyAnd (i 7) (s [(0x1800, 5)] []) (fun x => x.w.fenceReady x.entry 2 7 && (x.w.owed.find? x.entry).isNone && !x.w.wrote.isEmpty) = true ∧
      readyAnd (i 7) (s [] [(0, [(0x1800, 5)])]) (fun x => !x.w.fenceReady x.entry 2 7) = true)) ∧
    (let i := Instr.fence hd ⟨0, 0, 0, 12⟩
     let s := (stI i).modWarp 0 0 fun w => { w with cntStore := 1 }
     readyAnd i s (fun x => !x.w.fenceReady x.entry 0 3) = true) ∧
    (let i := Instr.owait hd ⟨0, 0, 0, 0⟩
     readyAnd i (stI i) (fun x => decide (x.w.counter 0 ≤ 0)) = true ∧
     readyAnd i ((stI i).modWarp 0 0 fun w => { w with ops := [(0, 7, false)] }) (fun x => decide (0 < x.w.counter 0)) = true) ∧
    (let i := Instr.gwait hd zb
     readyAnd i (stI i) (fun x => (((stI i).team? x.team).map (·.children)).getD 0 == 0) = true ∧
     (let s := (stI i).modTeam 0 fun t => { t with children := 1 }
      readyAnd i s (fun x => ((s.team? x.team).map (·.children)).getD 0 != 0) = true)) ∧
    (let i := Instr.cwait { hd with fs := 4 } (vb 0xC6 0xC2 0xC4 0 0 0)
     let ok (s : State) (p : State → Phys → Ctx → Bool) : Bool := readyAnd i s fun x => x.act != 0 && match x.counterRead s.taken (x.scal 0xC2) none with | (.ok q, s1) => p s1 q x | _ => false
     ok { stN i 0x10 with l2 := [], mem := [(0x10, 1)] } (fun s1 q x => !s1.counterBusy x.core x.vf q && decide ((s1.counterBytes q).1 < (x.scal 0xC4).toNat) == false) = true ∧
     ok { stN i 0x10 with stores := [(3, { (default : Store) with pa := 0x10, bytes := [1] })] } (fun s1 q x => s1.counterBusy x.core x.vf q) = true ∧
     ok (stN i 0x80) (fun s1 q x => !s1.counterBusy x.core x.vf q && decide ((s1.counterBytes q).1 < (x.scal 0xC4).toNat)) = true) ∧
    (let i := Instr.cyield { hd with fs := 6 } (vb 0xC6 0xC2 0xC4 0 0 0)
     readyAnd i (stN i 0x10) (fun x => x.act != 0 && match x.counterRead (stN i 0x10).taken (x.scal 0xC2) (some (cyieldTarget x.pc 0)) with | (.ok _, _) => true | _ => false) = true) ∧
    (let i := Instr.cwait { hd with fs := 4 } (vb 0xC6 0xC2 0xC4 0 0 0)
     let w := (encodeStream i).getD 0
     let s := ({ stN i 0x10 with agenda := [], l2 := [], mem := [(0x10, 1)] } : State).modWarp 0 0 fun w' => { (w'.modEntry 0 fun e => { e with wait := .cwait }) with stopWord := [(0, w)] }
     ((s.warp? 0 0).map fun w => (w.entry 0).wait) = some .cwait ∧ s.warpLive 0 0 = true ∧ s.replays 1 = false ∧
     ((s.warp? 0 0).bind fun v => v.stopWord.find? 0) = some w ∧ decodeStream w = some i ∧
     (let at_ : State := { s with cur := .frag 0 0 0 (((s.warp? 0 0).map fun (v : Warp) => (v.entry 0).pc).getD 0) w .alone 0 }
      readyAnd i at_ (fun x => x.act != 0 && match x.counterRead at_.taken (x.scal 0xC2) none with
        | (.ok q, s1) => !s1.counterBusy x.core x.vf q && decide ((x.scal 0xC4).toNat ≤ (s1.counterBytes q).1)
        | _ => false) = true) ∧ (((stI i).warp? 0 0).map fun w => (w.entry 0).wait) = some .none) := by
  decide +kernel

/-! ## Witnesses: pre-emption and replay -/

/-- Context 64 with `f` of it. -/
def withCtx (f : Context → Context) (s : State) : State := s.modCtx 64 f
/-- A saved team of one warp whose 8 accumulator names wait in its save record. -/
def saved1 : SavedTeam := { (default : SavedTeam) with team := { (default : Team) with rename := List.replicate 8 none }, warps := [default] }
/-- Partition 1 replays; its one warp has ended its quantum. -/
def stRep (done : Bool) (p : Partition → Partition) : State :=
  { (mapped (stI (.nop hd zb))).modWarp 0 0 (fun w => { w with quantumDone := done }) with parts := [(1, p { part1 with replay := true })] }
theorem witness_SaveAndReplay :
    (let s := withCtx (fun c => { c with st := .halting }) (stI (.nop hd zb))
     ((s.ctx? 64).map fun c => c.st == .halting && c.saveCounter.isNone) = some true ∧ s.saveReady 64 = true ∧ s.expiredBars 64 = [] ∧
     stW.expiredBars 64 ≠ [] ∧ (stW.ctx? 64).isSome = true ∧
     (((withCtx (fun c => { c with saveCounter := some (1, 0x80) }) s).ctx? 64).bind (·.saveCounter)) = some (1, 0x80) ∧
     (withCtx (fun c => { c with saveCounter := some (1, 0x80) }) s).saveReady 64 = true ∧
     ((stI (.nop hd zb)).ctx? 64).map (·.st) = some .live) ∧
    (let s := { withCtx (fun c => { c with saved := [saved1] }) (stI (.nop hd zb)) with parts := [(1, part1)] }
     let fit (s : State) : Bool := match s.ctx? 64, s.grid? saved1.team.grid with
       | some c, some g => c.saved[0]? == some saved1 && (s.restoreFit c part1 g saved1).isSome
       | _, _ => false
     fit s = true ∧ fit (withCtx (fun c => { c with st := .saved }) s) = false ∧ (s.grid? saved1.team.grid).isSome = true) ∧
    (let s := stRep true id
     s.replays 1 = true ∧ s.partiesEnded 1 none = true ∧ s.workOpen 1 = false ∧ s.stopDue 1 = false ∧ s.stacksClosed 1 = false ∧ s.catchesUp 1 = false ∧
     (stRep true fun p => { p with replayTo := 9 }).catchesUp 1 = true ∧ (stRep true fun p => { p with replayTo := 9 }).workOpen 1 = false ∧ (stI (.nop hd zb)).replays 1 = false) ∧
    (let s := { stRep false (fun p => { p with traceMask := 1 }) with traceUnits := [(0, { TraceUnit.reset with holder := some 1, arm := true, ctx := 0 })] }
     s.unitVf 0 = some 1 ∧ ((s.namedWarp 1 0).bind fun w => s.stopUnit 0 0 w) = some 0 ∧ s.ctxLive 64 = true ∧ s.partiesEnded 1 (some (0, 0)) = true ∧
     s.replays 1 = true) := by decide +kernel
/-! ## Witnesses: the mailbox -/

/-- Function `fn` has command `op` pending; the pages are mapped, partition 1 exists. -/
def stB (fn op : Nat) (args : List DWord) : State :=
  { mapped State.reset with
    bootStep := 6, parts := [(1, part1)], mboxOrder := [fn], mailboxes := [(fn, { Mailbox.reset with op := BitVec.ofNat 16 op, status := .pending, args := args })] }
def taken (s : State) (fn op : Nat) : Bool := s.mboxNext == some fn && (s.mailbox fn).op.toNat == op && fn != 65 && decide (6 ≤ s.bootStep)
theorem takes_of {s : State} {fn op : Nat} (h : taken s fn op = true) : takes s fn op := by
  simpa [taken, takes, and_assoc] using h
def arg (s : State) (fn i : Nat) : Nat := (argOf s fn i).toNat

theorem witness_HypervisorCommands :
    (let s := stB 0 4 [2 ^ 39 - 32 * 2 ^ 16, 16]
     taken s 0 4 = true ∧ arg s 0 1 = 16 ∧ arg s 0 0 + 32 * 2 ^ 16 = 2 ^ 39) ∧
    (let s := stB 0 5 [1, 1, 11, 65535, 0x1000000]
     taken s 0 5 = true ∧ s.part? (arg s 0 0) = some part1 ∧ arg s 0 2 < [96, 12, 8].getD (arg s 0 1) 0 ∧ 1 ≤ arg s 0 4 ∧ arg s 0 4 ≤ 2 ^ 24 ∧
     part1.bucketsAt 1 1 11 = [bucketIx 1 1 11]) ∧
    (let s := stB 0 6 [7, 256 + 128 * 2 ^ 32]
     taken s 0 6 = true ∧ arg s 0 0 < 8 ∧ bitsOf (arg s 0 1) 16 0 = 256 ∧ bitsOf (arg s 0 1) 48 32 + 128 = 256 ∧ bitsOf (arg s 0 1) 48 32 % 32 = 0 ∧
     bitsOf (arg s 0 1) 63 49 = 0 ∧ bitsOf (arg s 0 1) 31 17 = 0) ∧
    (let s := stB 0 7 [0x7000, 5]
     taken s 0 7 = true ∧ arg s 0 0 % 4096 = 0 ∧ reservedPa (arg s 0 0) = false ∧ s.elision = []) ∧
    (taken (stB 0 8 [0]) 0 8 = true ∧ arg (stB 0 8 [1]) 0 0 = 1 ∧ arg (stB 0 8 [2, 2, 18431]) 0 2 < soricaCount 2 ∧ (stB 0 8 [2, 2, 18431]).soricaSt 2 18431 = 0) ∧
    [4, 5, 6, 7].all (fun op => taken (stB 1 op []) 1 op) = true := by decide +kernel

/-- A context descriptor (Table 19.5): root at 0x1000, 16 pages of 256 bytes, vector 63. -/
def descriptor : List Host.Cell := [(0x41, 0x10), (0x51, 1), (0x70, 63)]
def withMem (l : List Host.Cell) (s : State) : State := { s with mem := l ++ s.mem }
theorem witness_ContextCommands :
    (let s := withMem descriptor (stB 1 0x10 [1, 0x40])
     taken s 1 0x10 = true ∧ arg s 1 0 = 1 ∧ (s.part? 1).isSome = true ∧
     s.argWaits (argOf s 1 1) 64 = false ∧ (match s.argBytes 1 (argOf s 1 1) 64 with
       | (.ok b, s1) => s1.contextOk 1 b && ((List.range 64).find? fun i => (s1.ctx? (1 * 64 + i)).isNone) == some 1
       | _ => false) = true ∧
     arg (stB 1 0x10 [2, 0]) 1 0 ≠ 1 ∧ arg (stB 1 0x10 [2, 0]) 1 0 < 256 ∧ 256 ≤ arg (stB 1 0x10 [0x101, 0]) 1 0) ∧
    (let c := ((stB 1 0x11 [0]).ctxArg 1 0)
     taken (stB 1 0x11 [0]) 1 0x11 = true ∧ (c.map fun k => k.1) = some 64 ∧ (stB 1 0x11 [1]).ctxArg 1 1 = none ∧ ((stB 0 0x11 [64]).ctxArg 0 64).isSome = true) ∧
    (let s := stB 1 0x12 [0, 15, 8, 12]
     taken s 1 0x12 = true ∧ (s.ctxArg 1 0).isSome = true ∧ arg s 1 1 < 16 ∧ arg s 1 2 % 8 = 0 ∧ arg s 1 3 = 12 ∧ part1.queues.find? 15 = none) ∧
    (let s := stB 1 0x13 [0, 0]
     taken s 1 0x13 = true ∧ (s.ctxArg 1 0).map (fun k => k.2.st) = some .live) ∧
    (let s := withCtx (fun c => { c with st := .saved, saved := [saved1] }) (stB 1 0x14 [0])
     taken s 1 0x14 = true ∧ (s.ctxArg 1 0).map (fun k => k.2.st) = some .saved ∧ s.coreThere part1 saved1.core = true) ∧
    (let s (n : DWord) : State := { (stI (.nop hd zb)).modWarp 0 0 (fun w => w.modEntry 0 fun e => { e with wait := .hold 1 }) with
       bootStep := 6, parts := [(1, part1)], mboxOrder := [1], mailboxes := [(1, { Mailbox.reset with op := 0x15, status := .pending, args := [0, 0, 0, n] })] }
     taken (s 0) 1 0x15 = true ∧ (((s 0).ctxArg 1 0).map fun k => k.1) = some 64 ∧ (((s 0).warp? 0 0).map fun w => (w.holdEntry, (s 0).ctxIdOfTeam w.team)) = some (some (0, 1), 64) ∧
     arg (s 1) 1 3 = 1 ∧ arg (s 255) 1 3 = 255) ∧
    (taken (stB 1 0x16 [0, 0, 0]) 1 0x16 = true ∧ ((stB 1 0x16 [0]).ctxArg 1 0).isSome = true) ∧
    (taken (stB 1 0x17 [1]) 1 0x17 = true ∧ taken (stB 0 0x17 [1]) 0 0x17 = true ∧ arg (stB 1 0x17 [1]) 1 0 = 1) ∧
    (let s := stB 0 0x18 [0x7000, 1]
     let b := { stB 0 0x18 [0x7000, 0] with hostBias := [7] }
     let busy (s : State) : Bool := s.pageBusy 7 s.nextId || s.hostInFlight.any fun h => h.1 / 4096 == 7
     taken s 0 0x18 = true ∧ arg s 0 0 % 4096 = 0 ∧ reservedPa (arg s 0 0) = false ∧ arg s 0 1 = 1 ∧ s.isHostBias 0x7000 = false ∧ s.flips.find? (fun f => f.1 == 7) = none ∧
     busy s = false ∧ taken b 0 0x18 = true ∧ arg b 0 1 = 0 ∧ b.isHostBias 0x7000 = true ∧ busy b = false ∧
     busy { s with hostInFlight := [(0x7FC0, [])] } = true ∧ busy { s with nextId := 9, stores := [(8, { (default : Store) with pa := 0x7FFF })] } = true) := by decide +kernel

/-- A resource list at 0x10000: hive 95, stack 7, a range of no rows. -/
def listBytes : List Host.Cell := [(0x1000B, 0x80), (0x1090C, 0x80)]
def withList (s : State) : State := { s with mem := listBytes }
/-- The bytes of that list. -/
def lbytes : List Byte := List.replicate 11 0 ++ [0x80] ++ List.replicate 0x900 0 ++ [0x80] ++ List.replicate 0x63 0
def readsList (s : State) : Bool := match s.argBytes 0 (argOf s 0 1) 0x970 with
  | (.ok b, s1) => b == lbytes && (match (s1.argBytes 0 (argOf s 0 1 + 0x970) 0).1 with | .ok r => r.isEmpty | .error _ => false)
  | _ => false
def stCreate : State := withList (stB 0 1 [64, 0x10000, 0, 6, 1])
def stResize : State :=
  { stCreate with mailboxes := [(0, { Mailbox.reset with op := 2, status := .pending, args := [1, 0x10000, 0, 6, 0] })], contexts := [] }
theorem witness_list_create : readsList stCreate = true := by decide +kernel
theorem witness_list_create_waits : stCreate.listWaits (argOf stCreate 0 1) = false := by decide +kernel
theorem witness_list_resize : readsList stResize = true := by decide +kernel
theorem witness_list_resize_waits : stResize.listWaits (argOf stResize 0 1) = false := by decide +kernel
theorem witness_list : (resList lbytes []).hives = [95] ∧ (resList lbytes []).consistent = true ∧ fieldOf lbytes 0x960 4 = 0 ∧
    stCreate.available 64 [] (resList lbytes []) = true ∧ stResize.available 1 part1.toList.entries (resList lbytes []) = true ∧
    ({ stCreate with sorica := [(65536 + 95, ⟨1, 2, 2⟩)] } : State).available 64 [] (resList lbytes []) = false := by decide +kernel
theorem witness_PartitionCommands : taken stCreate 0 1 = true ∧ (stCreate.part? 64).isNone = true ∧ taken stResize 0 2 = true ∧ stResize.part? 1 = some part1 ∧
    stResize.teams = [] ∧ stResize.stoves = [] ∧ stResize.grids = [] ∧ taken (stB 0 2 [2, 0, 0, 6, 0]) 0 2 = true ∧ (stB 0 2 [2, 0, 0, 6, 0]).part? 2 = none ∧
    taken (stB 0 3 [1]) 0 3 = true ∧ (stB 0 3 [1]).part? 1 = some part1 ∧ (stB 0 3 [1]).mboxCur = none ∧ (stB 0 3 [1]).owesUpdates 1 = false ∧
    ({ stB 0 3 [1] with engineQ := [⟨64, 1, 0x80, false, false, 0, .add 1, noParty⟩] } : State).owesUpdates 1 = true ∧ (stB 0 3 [2]).part? 2 = none := by decide +kernel

/-- What a key's blob says of itself (Table 19.7): 48 bytes of ciphertext. Whether it opens is the opaque HPKE (assumption 7). -/
theorem witness_ClaimsAndKeys :
    (let p := { part1 with perfMask := 2 ^ 63 }
     let s := { stB 1 0x20 [10, 63, 0x2020202020202020] with parts := [(1, p)] }
     taken s 1 0x20 = true ∧ arg s 1 0 = 10 ∧ s.mayClaim 1 10 63 = true ∧
     ((List.range 8).map fun i => bitsOf (arg s 1 2) (8 * i + 7) (8 * i)).all countedEvent = true ∧ s.banks.find? 63 = none ∧
     (let b : Bank := ⟨some 1, [], [], []⟩
      ({ s with banks := [(63, b)] } : State).banks.find? 63 = some b ∧ b.holder = some 1 ∧ b.revoked.all (fun y => y.1 != 1) = true)) ∧
    (let s := { stB 1 0x21 [11, 15] with traceUnits := [(15, { TraceUnit.reset with holder := some 1 })] }
     taken s 1 0x21 = true ∧ 15 < soricaCount 11 ∧ (s.holding 11 15).1 = some 1 ∧ 63 < soricaCount 10) ∧
    (let s := withMem [(0x85 + 0x40, 48)] (stB 1 0x30 [7, 0x40])
     taken s 1 0x30 = true ∧ (s.part? 1).isSome = true ∧ s.argWaits (argOf s 1 1) 185 = false ∧ (match s.argBytes 1 (argOf s 1 1) 137 with
       | (.ok h, s1) => fieldOf h 133 4 == 48 && (match (s1.argBytes 1 (argOf s 1 1 + 137) 48).1 with | .ok c => c.length == 48 | .error _ => false)
       | _ => false) = true ∧ (stB 2 0x30 []).part? 2 = none ∧ taken (stB 2 0x30 []) 2 0x30 = true) ∧
    (let s := stB 1 0x31 [0, 0x800]
     taken s 1 0x31 = true ∧ s.argWaits (argOf s 1 0) 64 = false ∧ (∀ w ∈ wordsOf (arg s 1 1) 1024, s.recordWaits (4 * w.1) s.nextId = false) ∧ arg s 1 1 + 1024 ≤ 2 ^ 39 ∧ (match s.argBytes 1 0 64 with
       | (.ok n, s1) => n.length == 64 && isOk (s1.writePhys 1 (arg s 1 1) (List.replicate 1024 0) [] ⟨7, s1.mgmtCore, none, 0⟩)
       | _ => false) = true) ∧
    (let s := { stB 0 0x100 [1024] with bootStep := 3 }
     s.mboxNext = some 0 ∧ (s.mailbox 0).op = 0x100 ∧ arg s 0 0 = 1024 ∧ s.imageOk ((List.range 1024).map fun i => s.bootWindow.get 0 i) = false) := by decide +kernel

/-- An image of version 1, SVN 0 and 512 bytes of payload passes the checks that are not the opaque verification's (assumption 7). -/
def image1 : List Byte := toBytes 4 1 ++ toBytes 4 0 ++ toBytes 4 512 ++ toBytes 4 0 ++ List.replicate 1008 0
theorem witness_image (h : sha512 ((image1.drop 0x10).take 133) = Config.fusedKeyHash)
    (v : Config.ecdsaVerify ((image1.drop 0x10).take 133) (image1.take 0xFC ++ image1.drop 512) ((image1.drop 0xFC).take 132) = true) :
    State.reset.imageOk image1 = true := by
  unfold State.imageOk
  rw [h, v]
  simp only [beq_self_eq_true, Bool.and_true]
  decide +kernel

/-! ## Witnesses: the host and the device -/

/-- Link 0 in flit mode at 64 GT/s. -/
def flit (s : State) : State := { s with links := [(16, 64), (16, 64)] }
theorem witness_HostActions :
    (let q : LQueue := ⟨64, 0x6000, 4, 0xFFFFFFFF, 0⟩
     let p := { part1 with queues := [(15, q)] }
     let s := { flit (stB 1 0 []) with parts := [(1, p)] }
     s.part? 1 = some p ∧ s.fnUp 1 = true ∧ p.queues.find? 15 = some q ∧ (q.tail - q.head).toNat ≤ ((15 : Word) - q.head).toNat ∧
     ((15 : Word) - q.head).toNat ≤ 2 ^ q.n ∧ 2 ^ q.n < ((16 : Word) - q.head).toNat) ∧
    (let s := { flit (stB 1 0 []) with traceUnits := [(15, { TraceUnit.reset with holder := some 1, wcount := 5 })] }
     s.holdsUnit 1 15 = true ∧ s.holdsUnit 1 14 = false ∧ (5 : DWord).toNat ≤ (s.unit 15).wcount.toNat ∧ (s.unit 15).wcount.toNat < (6 : DWord).toNat) ∧
    (let s := flit (stB 1 0 [])
     s.fnUp 1 = true ∧ (s.mailbox 1).status = .pending ∧ s.fnUp 0 = true ∧ (s.mailbox 0).status ≠ .pending ∧ State.reset.fnUp 0 = false) ∧
    (linkWidths.contains 16 = true ∧ linkRates.contains 128 = true ∧ (State.reset.links.getD 1 (0, 0)).1 = 0 ∧
     (let s := { State.reset with links := [(16, 64), (0, 0)] }
      s.bootStep = 1 ∧ ∀ l ∈ s.links.set 1 (16, 64), l.1 ≠ 0) ∧
     (let s := flit (stB 1 0 [])
      linkWidths.contains 8 = true ∧ linkRates.contains 32 = true ∧ 8 ≤ (s.links.getD 1 (0, 0)).1 ∧ 32 ≤ (s.links.getD 1 (0, 0)).2 ∧ s.bootStep ≠ 1)) ∧
    (let s := flit (stB 1 0 [])
     let r := { s with parts := [(1, { part1 with replay := true })] }
     (wordsOf 0 64).all (fun w => !(s.hearth (stackOfPa (4 * w.1))).compute) = true ∧ s.replayOwner (rowOfPa 0) = none ∧ s.isHostBias 0 = false ∧
     ({ s with hostBias := [0] } : State).isHostBias 0 = true ∧ r.replayOwner (rowOfPa 0) = some 1 ∧
     (hostDenied (2 ^ 39 - 64) 64).isSome = true ∧ (wordsOf (2 ^ 39 - 64) 64).all (fun w => !(s.hearth (stackOfPa (4 * w.1))).compute) = true) ∧
    ((State.reset.modHearth (stackOfPa 0) fun h => { h with compute := true }).hearth (stackOfPa (64 * 0))).compute = true ∧
    (let s := flit (stB 1 0 [])
     s.flit 0 = true ∧ 6 ≤ s.bootStep ∧ s.dramHeld 0 64 = false ∧ s.dramHeld (2 ^ 39 - 64) 64 = false ∧ hostDenied 0 64 = none ∧ (wordsOf 0 64).all (fun w => !(s.homeWord w.1).2) = true ∧ (hostDenied (2 ^ 39 - 64) 64).isSome = true) ∧
    (({ State.reset with hostInFlight := [(3, List.replicate 64 1)] } : State).hostInFlight.filter (fun h => h.1 / 64 == 0) = [(3, List.replicate 64 1)]) := by decide +kernel
theorem witness_Resets : State.reset.powered = true ∧ ({ State.reset with powered := false } : State).powered = false := by decide +kernel
/-- An island below its fused limit can be throttled; the limit is the part's own (assumption 86). -/
theorem witness_throttle (h : 1200 ≤ Config.fusedMhz 0) : 1199 < ({ State.reset with bootStep := 6 } : State).mhzOf 0 := by
  have : 1200 ≤ nominalMhz 0 := by decide
  show 1199 < min (nominalMhz 0) (Config.fusedMhz 0)
  omega
theorem witness_DeviceEvents :
    (State.reset.powered = true ∧ State.reset.teams = [] ∧ State.reset.contexts = [] ∧ State.reset.traceUnits = [] ∧ State.reset.openRows = [] ∧ State.reset.wordQ = []) ∧
    (let s := { State.reset with bootStep := 6 }
     dramIsland 255 = true ∧ dramIsland 254 = false ∧ s.shadow = false ∧ s.mboxNext = none ∧ s.mboxCur = none ∧
     ({ stB 1 0x18 [0x7000, 1] with mboxCur := some 1 } : State).mboxCur = some 1 ∧
     12000000 ≤ (({ s with vclock := 12000000 } : State).vclock - s.heartbeat).toNat) ∧
    ((State.reset.hearth (stackOfPa (2048 * (2 ^ 28 - 1)))).compute = false ∧ State.reset.synd = [] ∧ State.reset.poisoned = [] ∧
     (let s := { State.reset with synd := [(512 * 7 + 3, 1), (512 * 7 + 4, 3)] }
      (s.hearth (stackOfPa (2048 * 7))).compute = false ∧ s.poisoned.contains (512 * 7 + 3) = false ∧
      (eccResolve (s.dramData (512 * 7 + 4)) (s.synd.get 0 (512 * 7 + 4))).2.2 = false ∧ s.elision.find? 7 = none ∧
      (eccResolve (s.dramData (512 * 7 + 3)) (s.synd.get 0 (512 * 7 + 3))).2.2 = true)) ∧
    (∃ u ∈ State.reset.unfilled, u.1 ≤ 2 ^ 28 - 1 ∧ 2 ^ 28 - 1 < u.1 + u.2) ∧
    (let s := { State.reset with fuses := ⟨0, false, []⟩ }
     0 < soricaCount 22 ∧ s.soricaSt 22 0 < 2) := by decide +kernel
theorem witness_ClockTick : State.reset.powered = true := by decide

/-! ## Witnesses: frames, encodings and steps -/

theorem witness_EmptyActive : idle [.barArrive hd0 ⟨0, 0, 16, 0⟩, .barWait hd0 ⟨0xC4, 0, 15, 0⟩, .barSync hd0 ⟨0xC4, 0, 0, 0⟩, .barQuery hd0 ⟨0xC4, 0, 0, 0⟩,
    .drain hd0 ⟨0, 0, 0x8000, 0⟩, .fence hd0 ⟨0, 0, 0, 30⟩, .owait hd0 ⟨0, 0, 63, 2⟩, .cwait { hd0 with fs := 4 } (vb 0xC6 0xC2 0xC4 0 0 0), .glaunch hd0 (vb 0 0xC2 0 0 0 0),
    .gwait hd0 zb, .ld hd0 (mb 0x40), .ldp hd0 (mb 0x40), .ldc hd0 (mb 0x44), .ldl hd0 (mb 0x4C), .st hd0 (mb 0x40), .stp hd0 (mb 0x40), .stl hd0 (mb 0x4C),
    .atom hd0 (mb 0x40), .ared hd0 (mb 0x40), .cas16 hd0 (mb 0x80)] = true ∧
    idle [.bcopy hd0 (vb 0xC4 0xC2 0xC6 0xC8 0 1), .bmcast hd0 (vb 0xC4 0xC2 0xC6 0xC8 0xCA 1), .bloop hd0 (vb 0xC4 0xC2 0xC6 0xC8 0xCA 15),
      .brel hd0 { zb with mod := 0x71 }, .nred hd0 (vb 0 0xC2 0xC4 0xFF 0 0), .nlaunch hd0 (vb 0 0xC2 0 0 0 0), .nstat hd0 (vb 0 0xC2 0xC6 0xFF 0 0),
      .nkill hd0 (vb 0 0xC2 0 0xFF 0 0), .srd hd0 ⟨0xC4, 0x10, 0⟩, .swr hd0 ⟨0xC4, 0x100, 0⟩, .sysc hd0 ⟨0xC4, 7, 0⟩, .txend hd0 zb, .txabt hd0 zb,
      .trap hd0 ⟨0, 0, 1, 0⟩] = true ∧
    idle [.cyield { hd0 with fs := 6 } (vb 0xC6 0xC2 0xC4 0 0 0), .txbeg hd0 ⟨0, 0, 0, 1⟩, .kcoll hd0 (vb 0xC0 0xC1 0xC2 0xC3 0xC4 0),
      .gred hd0 ⟨8, 0xC3, 0xFF, 0xC4, 0, 0x40⟩, .lds hd0 (mb 0x48), .sts hd0 (mb 0x48), .pf hd0 { mb 0x40 with d := 0 }, .wbr hd0 { mb 0 with d := 0 },
      .invr hd0 { mb 0 with d := 0 }, .brk hd0 zb, .yield hd0 zb] = true := by decide +kernel

/-- `add` and `nop` of the placed fragment; `nop` writes nothing. -/
theorem witness_ResultFrame : (∀ s, Gives (.nop hd zb) s (fun _ => []) (fun _ => 0)) ∧
    (∀ s, Gives (.add hd (vb 3 1 2 0 0 0)) s (fun x => x.threads.map fun th => putTy 0 3 th (x.int 0 1 th + x.int 0 2 th)) (fun _ => 0)) ∧
    [Instr.nop hd zb, .add hd (vb 3 1 2 0 0 0)].all (fun i => readyAnd i (stI i) fun x => x.lr.flags % 2 == 0) = true := by
  refine ⟨fun s x h => ?_, fun s x h => ?_, by decide +kernel⟩
  · rw [wrote_nil]
    exact issue_ready h _
  · exact issue_results h rfl

theorem witness_AccessFrame : ([(Instr.ld hd (mb 0x40), AccessKind.read, false), (.ldp hd (mb 0x40), .read, false), (.ldc hd (mb 0x44), .read, false),
    (.st hd (mb 0x40), .write, false), (.stp hd (mb 0x40), .write, false), (.atom hd (mb 0x40), .atomic, true), (.ared hd (mb 0x40), .atomic, true)].all fun y =>
      (stI y.1).memOk && readyAnd y.1 (stI y.1) fun x => x.lr.flags % 2 == 0 && noTx x && (match glob x (stI y.1).taken (x.ea (mb 0x40)) 4 y.2.1 y.2.2 with
          | (.ok l, s1) => s1 == { (stI y.1).taken with cores := s1.cores } && l.all fun z => z.2.all fun p => !p.1.sync
          | _ => false)) = true ∧
    ([(Instr.ldl hd (mb 0x4C), AccessKind.read), (.stl hd (mb 0x4C), .write)].all fun y =>
      (stP y.1).memOk && readyAnd y.1 (stP y.1) fun x => x.lr.flags % 2 == 0 && noTx x && okLanes (priv x (stP y.1).taken (mb 0x4C) y.2) fun _ => true) = true ∧
    (let i := Instr.cas16 hd (mb 0x80)
     readyAnd i (stI i) fun x => noTx x && okLanes (glob x (stI i).taken (x.ea (mb 0x80)) 16 .atomic true) fun _ => true) = true := by decide +kernel
theorem witness_StoreFrame :
    (let y := { (default : Store) with vf := 1, pa := 0x6010, bytes := [1, 2, 3, 4] }
     let s := { mapped State.reset with stores := [(7, y)] }
     s.memOk = true ∧ s.stores.find? 7 = some y ∧ y.copies = [] ∧ s.isHostBias y.pa = false ∧
     y.pa % 256 + y.bytes.length ≤ 256 ∧
     ((s.l2Frames (y.pa / 256)).filter (· ≠ y.pa / 256)).length < s.waysOf (s.frameOwner (y.pa / 256)) (homeDie (256 * (y.pa / 256))) ∧
     (wordsOf y.pa y.bytes.length).all (fun w => s.rowOk y.vf (4 * w.1) true false && !(s.homeWord w.1).2 && !s.overflow.contains w.1) = true ∧
     (∃ t, Machine.exec (.homeStore 7 0) s = .next t)) ∧
    (let s := stN (.nop hd zb) 0
     (s.l2.find? 5).isSome = true ∧ s.l2.all (fun z => z.1 / 64 == 0 && z.2.dirty == 0 && mergeBytes (s.memWord z.1).1 z.2.data z.2.valid == (s.memWord z.1).1) = true) ∧
    (let i := Instr.sts hd (mb 0x48)
     readyAnd i (stC i) fun x => x.lr.flags % 2 == 0 && okLanes (comb x (stC i).taken (mb 0x48) true) (fun _ => true) && ((stC i).team? x.team).isSome &&
       ((stC i).hive (hiveOfCore x.core)).poison.isEmpty && ((stC i).hive (hiveOfCore x.core)).err.isEmpty) = true := by
  refine ⟨⟨by decide +kernel, by decide +kernel, by decide +kernel, by decide +kernel, by decide +kernel, by decide +kernel, by decide +kernel, ?_⟩,
    by decide +kernel, by decide +kernel⟩
  exact ⟨_, rfl⟩
theorem witness_SequencerAndStoveFrame : seqs [.mset hd ⟨7, 0, 5, 1⟩, .mpoint hd { zc with cmod := 255 }] = true ∧
    stoveAnd (stSt true fun x => { x with bt := [(3, burst1 false)] }) 31 true (fun y => [0, 1, 2, 3].all fun r => !(y.bt.get BurstWords.zero r).poison.any id) = true ∧
    [Instr.xpop 3, .xpush 3 15, .xadd 3 0 1, .xmul 3 0 1, .xfma 3 0 15, .xmax 3 0 1, .xscale 3 0 15, .xcvt 3 0 5, .xset 15 7 0, .xsetAdd 15 0 1, .xsetB 3 15,
      .xend].all (·.wellFormed) = true := by decide +kernel

/-- Words that encode and decode; a word that does not is in `test_unassigned`. -/
theorem witness_DecodeEncode : encodeStream (.add hd (vb 3 1 2 0 0 1)) = some 0x201DC0000301020000000001 ∧
    decodeStream 0x201DC0000301020000000001 = some (.add hd (vb 3 1 2 0 0 1)) ∧ encodeStove (.aadd 5 1 6 5) = some 0x2A8B0005 ∧
    decodeStove 0x2A8B0005 = .ok (.aadd 5 1 6 5) := by decide
theorem witness_AssignedOpcodes : (decodeStream 0x001DC0000000000000000000).isSome = true ∧ (decodeStream 0x031DC0000000000000000000).isSome = false ∧
    decodeStove 0x50000000 = .error .illegal ∧ decodeStove 0xE0000000 = .error .illegal := by decide

/-- The line that the placed core holds meets the fetch's conditions for instruction `i`. -/
def holds (s : State) (i : Instr) (ctx : Nat) (pc : DWord) : Bool := isOk (s.resolve 0 ctx (lineOf pc) .fetch).1 && (s.readTargets 0 ctx 0 []).isSome && match s.cachedLine 0 ctx pc with
  | some l => slotParityOk l (slotOf pc) && bitsOf (lineWord l).toNat 26 24 == 0 && bitsOf (lineWord l).toNat 18 0 == 0 &&
      decodeStream (slotWord l (slotOf pc)) == some i
  | none => false
/-- The placed instruction, its warp's start checks made. -/
def stStep (i : Instr) (f : Entry → Entry) : State :=
  (State.reset.placeStream ((encodeStream i).getD 0)).modWarp 0 0 fun w => w.modEntry 0 fun e => f { e with start := false }
theorem witness_StepRunsInstruction :
    (let i := Instr.add hd (vb 3 1 2 0 0 0)
     let s := ({ stStep i id with agenda := [] } : State).restAges
     (stStep i id).agenda = [.issue 0 0 0 []] ∧ s.powered = true ∧ s.select 0 0 [] = some (0, 0) ∧
((s.warp? 0 0).map fun w => !(w.entry 0).start && (w.entry 0).paired.isNone && (w.entry 0).pc == 0x1000 && s.ctxIdOfTeam w.team == 64 &&
       !s.replays (s.vfOfTeam w.team)) = some true ∧ holds s i 64 0x1000 = true ∧ (s.samplingOf 0).isSome = false ∧
     ((s.ageOthers 0 0 (s.eligible 0 0 []) (0, 0)).warp? 0 0).isSome = true) ∧
    (let i := Instr.add hd (vb 3 1 2 0 0 0)
     let s := ({ stStep i (fun e => { e with paired := some 0, seqd := true }) with agenda := [] } : State).restAges
     ((s.warp? 0 0).map fun w => (w.entry 0).paired == some 0 && (w.entry 0).st == .run && (w.entry 0).mask != 0 && (w.entry 0).seqd &&
       (w.entry 0).wait == .none && !s.replays (s.vfOfTeam w.team) && !s.heldBack 0 0 w (w.entry 0) (s.nextIssue 0 (s.ctxIdOfTeam w.team) (w.entry 0))) = some true ∧ holds s i 64 0x1000 = true) ∧
    (let i := Instr.mpoint hd zc
     let s := (State.reset.placeStream ((encodeStream i).getD 0)).modSeq 0 fun q => { q with start := false }
     s.agenda = [.sequencer 0 0] ∧ ((s.team? (teamIx 0 0)).bind fun t => t.seq.map fun q => (q.ended, q.start, q.pc)) = some (false, false, 0x1000) ∧
     s.ctxLive (s.ctxIdOfTeam 0) = true ∧ s.teamStarting 0 = false ∧ s.replays (s.vfOfTeam 0) = false ∧ holds s i (s.ctxIdOfTeam 0) 0x1000 = true) ∧
    (let s := State.reset.placeStove 0x2A8B0005
     s.agenda = [.stove 0 0 false] ∧ s.replays (s.stove 0).vf = false ∧ (s.stove 0).ready false = true ∧ ((s.stove 0).code false)[(s.stove 0).pc false]? = some 0x2A8B0005) := by decide +kernel
theorem witness_StepRunsEvent : State.reset.agenda = [] ∧ (encode .mgmtHeartbeat).isNone = true ∧ (encode (.nop hd zb)).isSome = true ∧
    ({ State.reset with agenda := [.event .mgmtHeartbeat] } : State).powered = true ∧ ({ State.reset with powered := false } : State).powered = false ∧
    State.reset.recorded (.event .mgmtHeartbeat) = none := by decide +kernel
/-- The memory of reset is canonical, and steps of it go on. -/
theorem witness_StepKeepsMemory : State.reset.memOk = true ∧ ∃ t, step State.reset = .next t := ⟨by decide +kernel, _, rfl⟩

/-! ## Steps -/

/-- The fields that show an outcome, of one step of a placed instruction. -/
def after (nbits w : Nat) (p : State → Bool) : Bool := match step (State.reset.withFetchWord nbits w) with
  | .next t => p t
  | _ => false
/-- R235: `movi v3, 5` writes 5 and goes to the next slot. -/
theorem test_step_movi : after 96 0x261DC0000300000000050000 (fun t => ((t.warp? 0 0).map fun w => (w.file (.v 3 0), (w.entry 0).pc)) == some (5, 0x1001)) = true := by
  decide +kernel
/-- R337: `aset ag1, 7` of a stove. -/
theorem test_step_aset : after 32 0x20800007 (fun t => (t.stove 0).ag.get 0 1 == 7 && (t.stove 0).apc == 1) = true := by decide +kernel
/-- R291: `mset k5, k0, 0x1234` of a sequencer, which goes to the next slot. -/
theorem test_step_mset : after 96 0xD2DDC0000500000012340000 (fun t => ((t.team? 0).bind fun t => t.seq.map fun q => q.pc) == some 0x1001) = true := by decide +kernel

end Sys2Proof.Tests
end

section
/-! SUPPORT. What the turn at the head of the agenda comes to, recorded or not (02 R37; 16 R352), and the resets. -/

namespace Sys2Proof.Machine

/-! ## Changes made in a row -/

/-- A reading of the state that every single change leaves alone is left alone by all of them. -/
theorem State.each_keeps {α β : Type} (p : State → β) {f : State → α → State} (hf : ∀ s a, p (f s a) = p s) (s : State) (l : List α) :
    p (s.each l f) = p s := by
  unfold State.each
  induction l generalizing s with
  | nil => rfl
  | cons a l ih => exact (ih (f s a)).trans (hf s a)

@[simp] theorem State.each_nil {α : Type} (s : State) (f : State → α → State) : s.each [] f = s := rfl

/-! ## Turns of the agenda (R37, R352) -/

@[simp] theorem State.restAges_powered (s : State) : s.restAges.powered = s.powered := rfl

theorem isEvent_iff (i : Instr) : isEvent i = true ↔ encode i = none := by
  unfold isEvent
  cases encode i <;> simp

theorem step_of_agenda_nil {s : State} (h : s.agenda = []) : step s = exec .vclockTick s.restAges := by
  unfold step State.nextTurn
  rw [h]

theorem step_of_agenda_cons {s : State} {t : Turn} {l : List Turn} (h : s.agenda = t :: l) :
    step s = ({ s with agenda := l } : State).restAges.turn t := by
  unfold step State.nextTurn
  rw [h]

theorem State.turn_of_unrecorded {s : State} {t : Turn} (h : s.recorded t = none) : s.turn t = s.act t := by
  unfold State.turn
  rw [h]

theorem State.turn_of_recorded {s : State} {t : Turn} {vf : Nat} {key : Nat × Nat} (h : s.recorded t = some (vf, key)) :
    s.turn t = s.recordedTurn t vf key := by
  unfold State.turn
  rw [h]

/-- A recorded turn that is not the next of the recorded order does nothing. -/
theorem State.recordedTurn_outOfPlace {s : State} {t : Turn} {vf : Nat} {key : Nat × Nat}
    (hl : ((s.part? vf).map (·.retrail)).getD [] ≠ []) (hk : (((s.part? vf).map (·.retrail)).getD []).head? ≠ some key) :
    s.recordedTurn t vf key = .next s := by
  unfold State.recordedTurn
  refine if_pos ?_
  obtain ⟨y, hy⟩ := List.exists_mem_of_ne_nil _ hl
  exact List.any_eq_true.mpr ⟨y, hy, bne_iff_ne.mpr hk⟩

/-- A recorded turn in its place acts and is recorded, unless it changes nothing. -/
theorem State.recordedTurn_inPlace {s u : State} {t : Turn} {vf : Nat} {key : Nat × Nat}
    (hl : ((s.part? vf).map (·.retrail)).getD [] = [] ∨ (((s.part? vf).map (·.retrail)).getD []).head? = some key) (ha : s.act t = .next u) :
    s.recordedTurn t vf key = .next (if u = s then s
      else (u.modPart vf fun p => { p with trail := p.trail ++ [key], retrail := p.retrail.drop 1 }).flushOwn vf) := by
  have hplace : ((((s.part? vf).map (·.retrail)).getD []).any fun _ => (((s.part? vf).map (·.retrail)).getD []).head? != some key) = false := by
    rcases hl with h | h
    · rw [h]; rfl
    · simp [h]
  unfold State.recordedTurn
  simp only [hplace, ha, Bool.false_eq_true, if_false]
  split
  · next h => rw [h]
  · rfl

/-- A turn that would leave the state as it is leaves it so, recorded or not. -/
theorem State.turn_of_act_self {s : State} {t : Turn} (h : s.act t = .next s) : s.turn t = .next s := by
  unfold State.turn
  split
  · exact h
  · unfold State.recordedTurn
    rw [h]
    dsimp only
    split
    · rfl
    · rw [if_pos rfl]

/-- An event acts under supply; without it the reset does. -/
theorem State.act_event {s : State} {i : Instr} (hi : encode i = none) (hs : s.powered = true ∨ i = .deviceReset) :
    s.act (.event i) = exec i s := by
  refine if_pos ?_
  rw [(isEvent_iff i).mpr hi, Bool.true_and, Bool.or_eq_true, beq_iff_eq]
  exact hs

/-- A word's instruction is no event. -/
theorem State.act_event_of_encoded {s : State} {i : Instr} (hi : encode i ≠ none) : s.act (.event i) = .next s := by
  refine if_neg ?_
  rw [Bool.and_eq_true, isEvent_iff]
  exact fun h => hi h.1

theorem State.act_event_unpowered {s : State} {i : Instr} (hi : i ≠ .deviceReset) (hs : s.powered = false) : s.act (.event i) = .next s := by
  refine if_neg ?_
  rw [hs, Bool.false_or, Bool.and_eq_true, beq_iff_eq]
  exact fun h => hi h.2

/-- Settles O57: the turn is the event's `act`, which the record of a replay partition only holds back or notes. -/
theorem stepRunsEvent : Obligations.StepRunsEvent := by
  unfold Obligations.StepRunsEvent
  intro s l i s0
  have hpow : s0.powered = s.powered := rfl
  refine ⟨step_of_agenda_nil, fun ha hi hp hr => ?unrecorded, fun vf key u ha hi hp hr => ?recorded, fun ha hi => ?encoded,
    fun ha hi hp => ?unpowered, fun ha => ?reset⟩
  case unrecorded =>
    exact (step_of_agenda_cons ha).trans ((State.turn_of_unrecorded hr).trans (State.act_event hi (.inl (hpow.trans hp))))
  case recorded =>
    have hact : s0.act (.event i) = exec i s0 := State.act_event hi (.inl (hpow.trans hp))
    rw [(step_of_agenda_cons ha).trans (State.turn_of_recorded hr)]
    exact ⟨fun hl hu => State.recordedTurn_inPlace hl (hact.trans hu), State.recordedTurn_outOfPlace⟩
  case encoded => exact (step_of_agenda_cons ha).trans (State.turn_of_act_self (State.act_event_of_encoded hi))
  case unpowered => exact (step_of_agenda_cons ha).trans (State.turn_of_act_self (State.act_event_unpowered hi (hpow.trans hp)))
  case reset => exact (step_of_agenda_cons ha).trans ((State.turn_of_unrecorded rfl).trans (State.act_event rfl (.inr rfl)))

/-! ## Resets (R24, R402, R404) -/

/-- Settles O46: each of the three events leaves `State.afterReset`, a hot reset only under supply. -/
theorem resets : Obligations.Resets := by
  unfold Obligations.Resets
  intro s r t
  refine ⟨exec_deviceReset s, exec_supplyRemoved s, ?_⟩
  rintro rfl
  exact exec_hotReset s

end Sys2Proof.Machine
end

section
/-! SUPPORT. What each event of the device as a whole does where its row's conditions hold (01 R22 to R24; 04 R82; 05 R120; 19 R396, R406). -/

namespace Sys2Proof.Machine

/-! ## Clocks (R22, R130, R132) -/

theorem State.tickBarriers_of_noTeams {s : State} (ht : s.teams = []) (hc : s.contexts = []) : s.tickBarriers = s := by
  cases s
  dsimp only at ht hc
  subst ht hc
  rfl

theorem State.tickSamples_of_noUnits {s : State} (h : s.traceUnits = []) : s.tickSamples = s := by
  have hunit (u : Nat) : s.unit u = TraceUnit.reset := by unfold State.unit; rw [h]; rfl
  unfold State.tickSamples
  simp only [hunit]
  rfl

theorem State.bankTurns_of_idle {s : State} (ho : s.openRows = []) (hq : s.wordQ = []) : s.bankTurns = s := by
  simp [State.bankTurns, ho, hq]

theorem execVclockTick_of_idle {s : State} (hp : s.powered = true) (ht : s.teams = []) (hc : s.contexts = []) (hu : s.traceUnits = [])
    (ho : s.openRows = []) (hq : s.wordQ = []) :
    execVclockTick s = .next { s with
      vclock := s.vclock + 1, dclk := s.dclk + 2, buckets := s.buckets.mapVals Bucket.tick, soricaW := stepWrites [] s.soricaW } := by
  refine (if_neg (by simp [hp])).trans ?_
  rw [State.tickBarriers_of_noTeams ht hc, State.tickSamples_of_noUnits hu, State.bankTurns_of_idle ho hq]

theorem execVclockTick_of_unpowered {s : State} (hp : s.powered = false) : execVclockTick s = .next s := by
  unfold execVclockTick
  rw [hp]
  rfl

/-! ## Power and the management cores (R23, R406) -/

theorem execThrottle_lower {s : State} {island mhz : Nat} (hb : 6 ≤ s.bootStep) (hi : island < 256) (hd : dramIsland island = false)
    (h1 : 1 ≤ mhz) (hm : mhz < s.mhzOf island) :
    execThrottle island mhz s = .next ((s.setIsland island mhz).logMgmt ⟨s.vclock, 0, 0xF0, 7, s.mgmtCore, 0xFF, 0, 0⟩) := by
  refine if_neg ?_
  simp only [hd, Bool.or_eq_true, decide_eq_true_eq, Bool.false_eq_true, or_false]
  omega

theorem execMgmtHeartbeat_next {s : State} (hs : s.shadow = false) (hb : 6 ≤ s.bootStep) :
    execMgmtHeartbeat s = .next { s with heartbeat := s.vclock } := by
  refine congrArg _ (if_neg ?_)
  simp only [hs, Bool.or_eq_true, decide_eq_true_eq, Bool.false_eq_true, false_or]
  omega

/-- What a takeover that is due makes of the command that executes or comes next. -/
def State.commandLost (s : State) : State :=
  match s.mboxCur.or s.mboxNext with
  | none => s
  | some f =>
    let c := s.pick 2
    if s.mboxCur.isSome || c.1 = 0 then (({ c.2 with flips := if s.mboxCur.isSome then [] else s.flips } : State).finishCommand f .aborted []).drainEngine
    else c.2

theorem State.commandLost_of_none {s : State} (hc : s.mboxCur = none) (hn : s.mboxNext = none) : s.commandLost = s := by
  unfold State.commandLost
  rw [hc, hn]
  rfl

theorem State.commandLost_of_executing {s : State} {f : Nat} (hc : s.mboxCur = some f) :
    s.commandLost = (({ (s.pick 2).2 with flips := [] } : State).finishCommand f .aborted []).drainEngine := by
  simp [State.commandLost, hc]

theorem execTakeover_due {s : State} (hs : s.shadow = false) (hb : 6 ≤ s.bootStep) (hh : 12000000 ≤ (s.vclock - s.heartbeat).toNat) :
    execTakeover s = .next ({ s.commandLost with shadow := true }.logMgmt ⟨s.commandLost.vclock, 0, 0, 7, 1, 0xFF, 0, 0⟩) := by
  refine if_neg ?_
  simp only [hs, Bool.or_eq_true, decide_eq_true_eq, Bool.false_eq_true, false_or]
  omega

/-! ## Scrub (R82, R107) -/

/-- The words of a row whose stored bits are in error: those that a scrub rereads with effect. -/
def State.badWords (s : State) (row : Nat) : List Nat :=
  ((List.range 512).map fun i => row * 512 + i).filter fun w => s.synd.get 0 w != 0 || s.poisoned.contains w

theorem State.badWords_of_clean {s : State} (hs : s.synd = []) (hp : s.poisoned = []) (row : Nat) : s.badWords row = [] := by
  simp [State.badWords, hs, hp, Tab.get, Tab.find?]

theorem execPatrolScrub_reads {s : State} {row : Nat} (hb : 6 ≤ s.bootStep) (hr : row < 2 ^ 28) (hc : (s.hearth (stackOfPa (2048 * row))).compute = false) :
    execPatrolScrub row s = .next (s.each (s.badWords row) fun s w =>
      if s.poisoned.contains w = false ∧ (eccResolve (s.dramData w) (s.synd.get 0 w)).2.2 = true ∧ s.elision.find? row = none
      then ((s.hearthRead 0xFF w).2.2).logPhys 0xFF 0xF1 (4 * w) none 4 (stackOfPa (2048 * row)) 0 else (s.hearthRead 0xFF w).2.2) := by
  have hgo : ¬ (decide (s.bootStep < 6) || decide (2 ^ 28 ≤ row) || (s.hearth (stackOfPa (2048 * row))).compute) = true := by
    simp only [hc, Bool.or_eq_true, decide_eq_true_eq, Bool.false_eq_true, or_false]
    omega
  refine (if_neg hgo).trans (congrArg (fun f => Host.Outcome.next (s.each (s.badWords row) f)) ?_)
  funext s w
  simp only [Bool.and_eq_true, Bool.not_eq_true', Option.isNone_iff_eq_none, and_assoc]

/-! ## Zero fill (R396) -/

@[simp] theorem State.pushWrite_unfilled (s : State) (wa : Nat) (d : Word) (p : Bool) : (s.pushWrite wa d p).unfilled = s.unfilled := rfl

@[simp] theorem State.l2Evict_unfilled (s : State) (frame : Nat) : (s.l2Evict frame).unfilled = s.unfilled :=
  State.each_keeps State.unfilled (by intros; rfl) s _

@[simp] theorem State.l2Trim_unfilled (s : State) (frame n : Nat) : (s.l2Trim frame n).unfilled = s.unfilled := by
  induction n generalizing s with
  | zero => rfl
  | succ n ih =>
    unfold State.l2Trim
    split
    · rfl
    · split
      · exact State.l2Evict_unfilled s frame
      · exact (ih _).trans (State.l2Evict_unfilled _ _)

@[simp] theorem State.syncOut_unfilled (s : State) (wa : Nat) : (s.syncOut wa).unfilled = s.unfilled := by
  unfold State.syncOut
  split
  · rfl
  · dsimp only
    split
    · rfl
    · exact State.l2Trim_unfilled _ _ _

@[simp] theorem State.serveWrites_unfilled (s : State) (p : Nat → Bool) : (s.serveWrites p).unfilled = s.unfilled :=
  State.each_keeps State.unfilled (by intros; rfl) s _

@[simp] theorem State.drainWords_unfilled (s : State) (p : Nat → Bool) : (s.drainWords p).unfilled = s.unfilled := by
  unfold State.drainWords
  simp only [State.serveWrites_unfilled, State.each_keeps State.unfilled State.l2Evict_unfilled, State.each_keeps State.unfilled State.syncOut_unfilled]

@[simp] theorem State.quietRows_unfilled (s : State) (rows : List Nat) : (s.quietRows rows).unfilled = s.unfilled := by
  unfold State.quietRows
  split
  · rfl
  · simp only [State.drainWords_unfilled]

/-- With nothing in engines, slices and queues there is nothing to drain. -/
theorem State.drainWords_mem_of_empty {s : State} (hl : s.l2 = []) (hs : s.sync = []) (hq : s.wordQ = []) (p : Nat → Bool) :
    (s.drainWords p).mem = s.mem := by
  simp [State.drainWords, State.serveWrites, hl, hs, hq]

theorem State.quietRows_mem_of_empty {s : State} (hl : s.l2 = []) (hs : s.sync = []) (hq : s.wordQ = []) (rows : List Nat) :
    (s.quietRows rows).mem = s.mem := by
  unfold State.quietRows
  split
  · rfl
  · simp only [State.drainWords_mem_of_empty hl hs hq]

theorem State.soricaTouch_keeps {β : Type} (p : State → β) (hp : ∀ s kind ix st owner d, p (State.soricaWrite s kind ix st owner d) = p s)
    (s before : State) (kind ix : Nat) : p (s.soricaTouch before kind ix) = p s := by
  unfold State.soricaTouch
  dsimp only
  split
  · rfl
  · exact hp _ _ _ _ _ _

@[simp] theorem State.showUnfilled_mem (s before : State) : (s.showUnfilled before).mem = s.mem :=
  State.each_keeps State.mem (fun s k => State.soricaTouch_keeps State.mem (fun _ _ _ _ _ _ => rfl) s before 4 k) s _

@[simp] theorem State.showUnfilled_unfilled (s before : State) : (s.showUnfilled before).unfilled = s.unfilled :=
  State.each_keeps State.unfilled (fun s k => State.soricaTouch_keeps State.unfilled (fun _ _ _ _ _ _ => rfl) s before 4 k) s _

/-- A row that awaits zero fill leaves the list and loses its bytes once its words are drained. -/
theorem execZeroFill_fills {s : State} {row : Nat} (hb : 6 ≤ s.bootStep) (hc : (s.hearth (stackOfPa (2048 * row))).compute = false)
    (hu : ∃ u ∈ s.unfilled, u.1 ≤ row ∧ row < u.1 + u.2) :
    ∃ t : State, execZeroFill row s = .next t ∧ t.unfilled = takeRow row s.unfilled ∧
      t.mem = (s.quietRows [row]).mem.filter fun c => c.1 / 2048 != row := by
  have hany : (s.unfilled.any fun u => decide (u.1 ≤ row) && decide (row < u.1 + u.2)) = true := by simpa using hu
  have hgo : ¬ (decide (s.bootStep < 6) || (s.hearth (stackOfPa (2048 * row))).compute ||
      !(s.unfilled.any fun u => decide (u.1 ≤ row) && decide (row < u.1 + u.2))) = true := by
    simp only [hc, hany, Bool.or_eq_true, decide_eq_true_eq, Bool.false_eq_true, Bool.not_true, or_false]
    omega
  refine ⟨_, if_neg hgo, ?_, State.showUnfilled_mem _ _⟩
  exact (State.showUnfilled_unfilled _ _).trans (congrArg (takeRow row) (State.quietRows_unfilled s [row]))

/-! ## Reports and lost parts (R24, R120) -/

theorem execI3cTemperatureReport_next {s : State} (hp : s.powered = true) :
    execI3cTemperatureReport s = .next { s with i3cReports := s.i3cReports ++ [s.vclock] } :=
  congrArg _ (if_pos hp)

theorem execRetiredByFault_next {s : State} {kind index : Nat} (hi : index < soricaCount kind) (hs : s.soricaSt kind index < 2) :
    execRetiredByFault kind index s = .next (s.setSorica kind index 3 0xFF) := by
  refine congrArg _ (if_neg ?_)
  simp only [Bool.or_eq_true, decide_eq_true_eq]
  omega

/-- Settles O47, event by event. -/
theorem deviceEvents : Obligations.DeviceEvents := by
  unfold Obligations.DeviceEvents
  intro s island mhz row kind index
  refine ⟨execVclockTick_of_idle, execVclockTick_of_unpowered, execThrottle_lower, execMgmtHeartbeat_next, fun hs hb hh => ?takeover,
    fun hb hr hc hsy hp => ?clean, execPatrolScrub_reads, fun hb hc hu => ?fill, execI3cTemperatureReport_next, execRetiredByFault_next⟩
  case takeover =>
    have hdue := (exec_takeover s).trans (execTakeover_due hs hb hh)
    exact ⟨fun hc hn => by rw [hdue, State.commandLost_of_none hc hn], fun f hf => by rw [hdue, State.commandLost_of_executing hf]⟩
  case clean =>
    refine (execPatrolScrub_reads hb hr hc).trans ?_
    rw [State.badWords_of_clean hsy hp, State.each_nil]
  case fill =>
    obtain ⟨t, ht, hunf, hmem⟩ := execZeroFill_fills hb hc hu
    refine ⟨t, ht, hunf, fun c h => ?_, fun hl hs hq => by rw [hmem, State.quietRows_mem_of_empty hl hs hq]⟩
    rw [hmem] at h
    exact bne_iff_ne.mp (List.mem_filter.mp h).2

end Sys2Proof.Machine
end

section
/-! SUPPORT. The groups of a split are a partition of its threads by next PC, and a transfer with one next PC makes no split (02 R32). -/

namespace Sys2Proof.Machine

/-! ## The groups of a transfer (R32) -/

theorem mem_threadsOf {m : DWord} {t : Nat} : t ∈ threadsOf m ↔ t < 64 ∧ m.getLsbD t = true := by
  simp [threadsOf]

theorem getLsbD_threadBit {t u : Nat} (ht : t < 64) : (BitVec.ofNat 64 (2 ^ t)).getLsbD u = decide (u = t) := by
  rw [BitVec.getLsbD_ofNat, Nat.testBit_two_pow]
  by_cases h : t = u
  · simp [← h, ht]
  · simp [h, Ne.symm h]

/-- Thread `u` stands in a group of PC `p`. -/
def Grouped (l : List (DWord × DWord)) (p : DWord) (u : Nat) : Prop := ∃ g ∈ l, g.1 = p ∧ g.2.getLsbD u = true

theorem grouped_cons {g : DWord × DWord} {l : List (DWord × DWord)} {p : DWord} {u : Nat} :
    Grouped (g :: l) p u ↔ (g.1 = p ∧ g.2.getLsbD u = true) ∨ Grouped l p u := by
  simp [Grouped]

theorem grouped_addToGroup {pc p : DWord} {t u : Nat} (ht : t < 64) (l : List (DWord × DWord)) :
    Grouped (addToGroup pc t l) p u ↔ Grouped l p u ∨ (pc = p ∧ u = t) := by
  induction l with
  | nil => rw [addToGroup, grouped_cons, getLsbD_threadBit ht, decide_eq_true_eq, or_comm]
  | cons g l ih =>
    unfold addToGroup
    split
    · next h =>
      subst h
      rw [grouped_cons, grouped_cons, BitVec.getLsbD_or, getLsbD_threadBit ht, Bool.or_eq_true, decide_eq_true_eq]
      tauto
    · rw [grouped_cons, grouped_cons, ih, or_assoc]

/-- A PC that has a group gets no second one. -/
theorem map_fst_addToGroup (pc : DWord) (t : Nat) (l : List (DWord × DWord)) :
    (addToGroup pc t l).map (·.1) = if pc ∈ l.map (·.1) then l.map (·.1) else l.map (·.1) ++ [pc] := by
  induction l with
  | nil => rfl
  | cons g l ih =>
    unfold addToGroup
    split
    · next h => simp [h]
    · next h =>
      simp only [List.map_cons, ih, List.mem_cons, Ne.symm h, false_or]
      split <;> rfl

theorem nodup_addToGroup {l : List (DWord × DWord)} (pc : DWord) (t : Nat) (h : (l.map (·.1)).Nodup) :
    ((addToGroup pc t l).map (·.1)).Nodup := by
  rw [map_fst_addToGroup]
  split
  · exact h
  · next hpc => exact List.nodup_append.mpr ⟨h, List.nodup_singleton pc, fun a ha b hb e => hpc (List.mem_singleton.mp hb ▸ e ▸ ha)⟩

theorem addToGroup_inhabited {pc : DWord} {t : Nat} (ht : t < 64) {l : List (DWord × DWord)} (h : ∀ g ∈ l, ∃ u, g.2.getLsbD u = true) :
    ∀ g ∈ addToGroup pc t l, ∃ u, g.2.getLsbD u = true := by
  induction l with
  | nil =>
    intro g hg
    rw [List.mem_singleton.mp hg]
    exact ⟨t, by rw [getLsbD_threadBit ht, decide_eq_true rfl]⟩
  | cons y l ih =>
    obtain ⟨u, hu⟩ := h y List.mem_cons_self
    have hl := ih fun g hg => h g (List.mem_cons_of_mem _ hg)
    unfold addToGroup
    split
    · refine List.forall_mem_cons.mpr ⟨⟨u, ?_⟩, fun g hg => h g (List.mem_cons_of_mem _ hg)⟩
      rw [BitVec.getLsbD_or, hu, Bool.true_or]
    · exact List.forall_mem_cons.mpr ⟨⟨u, hu⟩, hl⟩

/-- The groups of a list of threads, each joined in turn. -/
def joinGroups (np : Nat → DWord) (ts : List Nat) (l : List (DWord × DWord)) : List (DWord × DWord) :=
  ts.foldl (fun l t => addToGroup (np t) t l) l

theorem groupsOf_eq (m taken : DWord) (np : Nat → DWord) :
    groupsOf m taken np = joinGroups np (threadsOf (m &&& taken) ++ threadsOf (m &&& ~~~taken)) [] := rfl

theorem grouped_joinGroups {np : Nat → DWord} {ts : List Nat} (ht : ∀ t ∈ ts, t < 64) (l : List (DWord × DWord)) (p : DWord) (u : Nat) :
    Grouped (joinGroups np ts l) p u ↔ Grouped l p u ∨ (u ∈ ts ∧ np u = p) := by
  induction ts generalizing l with
  | nil => simp [joinGroups]
  | cons t ts ih =>
    obtain ⟨h0, hts⟩ := List.forall_mem_cons.mp ht
    refine (ih hts (addToGroup (np t) t l)).trans ?_
    rw [grouped_addToGroup h0, List.mem_cons, or_assoc, or_and_right]
    refine or_congr_right (or_congr_left ⟨fun h => ⟨h.2, h.2 ▸ h.1⟩, fun h => ⟨h.1 ▸ h.2, h.1⟩⟩)

theorem nodup_joinGroups (np : Nat → DWord) (ts : List Nat) {l : List (DWord × DWord)} (h : (l.map (·.1)).Nodup) :
    ((joinGroups np ts l).map (·.1)).Nodup := by
  induction ts generalizing l with
  | nil => exact h
  | cons t ts ih => exact ih (nodup_addToGroup (np t) t h)

theorem joinGroups_inhabited {np : Nat → DWord} {ts : List Nat} (ht : ∀ t ∈ ts, t < 64) {l : List (DWord × DWord)}
    (h : ∀ g ∈ l, ∃ u, g.2.getLsbD u = true) : ∀ g ∈ joinGroups np ts l, ∃ u, g.2.getLsbD u = true := by
  induction ts generalizing l with
  | nil => exact h
  | cons t ts ih =>
    obtain ⟨h0, hts⟩ := List.forall_mem_cons.mp ht
    exact ih hts (addToGroup_inhabited h0 h)

/-- Taken or not, every thread of the mask is listed once its halves are. -/
theorem mem_takenFirst {m taken : DWord} {t : Nat} :
    t ∈ threadsOf (m &&& taken) ++ threadsOf (m &&& ~~~taken) ↔ t < 64 ∧ m.getLsbD t = true := by
  rw [List.mem_append, mem_threadsOf, mem_threadsOf, BitVec.getLsbD_and, BitVec.getLsbD_and, BitVec.getLsbD_not]
  by_cases h : t < 64 <;> cases taken.getLsbD t <;> simp [h]

/-- A thread stands in the group of a PC just when it is a thread of the mask and that is its next PC. -/
theorem grouped_groupsOf (m taken : DWord) (np : Nat → DWord) (p : DWord) (u : Nat) :
    Grouped (groupsOf m taken np) p u ↔ (u < 64 ∧ m.getLsbD u = true) ∧ np u = p := by
  rw [groupsOf_eq, grouped_joinGroups (fun t ht => (mem_takenFirst.mp ht).1), mem_takenFirst]
  simp [Grouped]

theorem groupsOf_inhabited (m taken : DWord) (np : Nat → DWord) : ∀ g ∈ groupsOf m taken np, ∃ u, g.2.getLsbD u = true := by
  rw [groupsOf_eq]
  exact joinGroups_inhabited (fun t ht => (mem_takenFirst.mp ht).1) fun g hg => absurd hg List.not_mem_nil

/-- Settles O9: a thread joins the group of its next PC, and no other. -/
theorem groupsPartition : Obligations.GroupsPartition := by
  unfold Obligations.GroupsPartition
  intro m taken np
  refine ⟨fun t ht hm => ?covered, fun g hg => ⟨fun h0 => ?nonempty, fun t ht => ?own⟩, ?distinct⟩
  case covered =>
    obtain ⟨g, hg, hp, hb⟩ := (grouped_groupsOf m taken np (np t) t).mpr ⟨⟨ht, hm⟩, rfl⟩
    exact ⟨g, hg, hp, hb⟩
  case nonempty =>
    obtain ⟨u, hu⟩ := groupsOf_inhabited m taken np g hg
    simp [h0] at hu
  case own =>
    obtain ⟨⟨_, hm⟩, hp⟩ := (grouped_groupsOf m taken np g.1 t).mp ⟨g, hg, rfl, ht⟩
    exact ⟨hm, hp⟩
  case distinct => exact nodup_joinGroups np _ List.nodup_nil

/-! ## One next PC (R32) -/

/-- Threads that all go to one PC are one group. -/
theorem groupsOf_uniform {m : DWord} (taken : DWord) {np : Nat → DWord} {p : DWord} (hm : m ≠ 0) (h : ∀ t ∈ threadsOf m, np t = p) :
    groupsOf m taken np = [(p, m)] := by
  obtain ⟨hcov, hown, hnd⟩ := groupsPartition m taken np
  have hpc : ∀ g ∈ groupsOf m taken np, g.1 = p := fun g hg => by
    obtain ⟨u, hu⟩ := groupsOf_inhabited m taken np g hg
    obtain ⟨hmu, hnu⟩ := (hown g hg).2 u hu
    exact hnu.symm.trans (h u (mem_threadsOf.mpr ⟨BitVec.lt_of_getLsbD hmu, hmu⟩))
  match hl : groupsOf m taken np with
  | [] =>
    refine absurd (BitVec.eq_of_getLsbD_eq fun t ht => ?_) hm
    refine Bool.eq_iff_iff.mpr ⟨fun hmt => ?_, fun h0 => by simp at h0⟩
    obtain ⟨g, hg, _⟩ := hcov t ht hmt
    rw [hl] at hg
    exact absurd hg List.not_mem_nil
  | [g] =>
    rw [hl] at hcov hown hpc
    have hmask : g.2 = m := BitVec.eq_of_getLsbD_eq fun t ht => Bool.eq_iff_iff.mpr ⟨fun hg => ((hown g List.mem_cons_self).2 t hg).1, fun hmt => by
      obtain ⟨g', hg', _, hb⟩ := hcov t ht hmt
      exact List.mem_singleton.mp hg' ▸ hb⟩
    rw [← hmask, ← hpc g List.mem_cons_self]
  | g1 :: g2 :: l =>
    rw [hl] at hpc hnd
    have h12 : g1.1 = g2.1 := (hpc g1 List.mem_cons_self).trans (hpc g2 (List.mem_cons_of_mem _ List.mem_cons_self)).symm
    simp [h12] at hnd

/-- A written entry that is not FREE is read back, whatever the order of the table. -/
theorem Warp.entry_setEntry_self (w : Warp) (e : Nat) {x : Entry} (hx : x ≠ Entry.empty) : (w.setEntry e x).entry e = x := by
  unfold Warp.entry Warp.setEntry Tab.get Tab.set
  rw [if_neg hx, Tab.find?_put_self, Option.getD_some]

theorem Warp.entry_setEntry_ne (w : Warp) {e i : Nat} (x : Entry) (h : i ≠ e) : (w.setEntry e x).entry i = w.entry i :=
  Tab.get_set_ne _ _ _ h

theorem Entry.ne_empty_of_mask {x : Entry} (h : x.mask ≠ 0) : x ≠ Entry.empty := by
  rintro rfl
  exact h rfl

/-- A transfer whose threads form one group moves the entry's PC. -/
theorem Warp.transfer_of_one_group {w : Warp} {e : Nat} {np : Nat → DWord} {taken p m : DWord} (b : DWord) (recon : Option DWord) (keep : Bool)
    (hr : (w.entry e).reexec = false) (hg : groupsOf (w.entry e).mask taken np = [(p, m)]) :
    w.transfer e b np taken recon keep = some (w.setEntry e { w.entry e with pc := p, seqd := p == nextPc b }, []) := by
  simp [Warp.transfer, hg, hr]

/-- Settles O8: one next PC is one group, so only the entry's PC moves. -/
theorem uniformTransfer : Obligations.UniformTransfer := by
  unfold Obligations.UniformTransfer
  intro w e pc np taken recon p hm hr hnp
  have hself := w.entry_setEntry_self e (x := { w.entry e with pc := p, seqd := p == nextPc pc }) (Entry.ne_empty_of_mask hm)
  exact ⟨_, Warp.transfer_of_one_group pc recon false hr (groupsOf_uniform taken hm hnp), by rw [hself], by rw [hself],
    fun i hi => w.entry_setEntry_ne _ hi⟩

end Sys2Proof.Machine
end

section
/-! SUPPORT. What a turn runs once the core holds its line and the slot decodes (02 R36; 09 R184, R195; 14 R290; 15 R336). -/

namespace Sys2Proof.Machine

/-! ## Fetch and targets (R181, R195, R436) -/

/-- A slot with good parity, whose line word and opcode pass their checks, is its instruction. -/
theorem slotOfLine_decodes {line : BitVec 512} {slot : Nat} {seq : Bool} {i : Instr} (hpar : slotParityOk line slot = true)
    (hpair : bitsOf (lineWord line).toNat 26 24 ≠ 7) (hseq : seq = true → bitsOf (lineWord line).toNat 26 24 = 0)
    (hres : bitsOf (lineWord line).toNat 18 0 = 0) (hdec : decodeStream (slotWord line slot) = some i) :
    slotOfLine line slot seq = .instr (slotWord line slot) i := by
  have hbits : ¬ (decide (bitsOf (lineWord line).toNat 26 24 = 7) || (seq && bitsOf (lineWord line).toNat 26 24 != 0) ||
      decide (bitsOf (lineWord line).toNat 18 0 ≠ 0)) = true := by
    simp only [Bool.or_eq_true, Bool.and_eq_true, decide_eq_true_eq, bne_iff_ne, hpair, hres, ne_eq, not_true_eq_false, false_or, or_false]
    exact fun h => h.2 (hseq h.1)
  unfold slotOfLine
  simp only [hpar, Bool.not_true, Bool.false_eq_true, if_false, if_neg hbits, hdec]

theorem State.fetched_decodes {s u : State} {core ctx : Nat} {pc : DWord} {seq : Bool} {line : BitVec 512} {word : BitVec 96} {i : Instr} {p : Phys}
    (hc : s.cachedLine core ctx pc = some line) (hr : s.resolve core ctx (lineOf pc) .fetch = (.ok p, u))
    (hs : slotOfLine line (slotOf pc) seq = .instr word i) : s.fetched core ctx pc seq = (.instr word i, u) := by
  unfold State.fetched
  simp only [hc, hr, hs]

theorem State.readTargets_near {s : State} {core ctx : Nat} (vf : Nat) {pcs : List DWord} (h : s.farLines core ctx pcs = []) :
    s.readTargets core ctx vf pcs = some s := by
  unfold State.readTargets
  rw [h]
  rfl

/-! ## Fragments (R36, R184) -/

/-- The place of the next instruction of an entry in a pair, where the core's cache is that of `u`. -/
def Entry.roleIn (e : Entry) (u : State) (core ctx : Nat) : PairRole :=
  match e.paired with
  | some n => .second n
  | none => if u.issuesPair core ctx e then .first 0 else .alone

/-- A fragment that its quantum's boundary does not hold runs the instruction that its fetch came to. -/
theorem State.runFragment_decodes {s u v : State} {core slot entry upset : Nat} {w : Warp} {word : BitVec 96} {i : Instr}
    (hf : s.fetched core (s.ctxIdOfTeam w.team) (w.entry entry).pc false = (.instr word i, u)) {cur : Cur}
    (hcur : .frag core slot entry (w.entry entry).pc word ((w.entry entry).roleIn u core (s.ctxIdOfTeam w.team)) upset = cur)
    (ht : u.readTargets core (s.ctxIdOfTeam w.team) (u.vfOfTeam w.team) (((({ u with cur := cur } : State).issuer i).map fun x => x.targets i).getD []) =
      some v) : s.runFragment core slot entry upset w false = exec i { v with cur := cur } := by
  subst hcur
  unfold Entry.roleIn at ht ⊢
  unfold State.runFragment
  cases hp : (w.entry entry).paired with
  | none => simp only [hp] at ht; simp only [hf, hp, ht, Bool.false_and, Bool.false_eq_true, if_false]
  | some n => simp only [hp] at ht; simp only [hf, hp, ht, Bool.false_and, Bool.false_eq_true, if_false]

/-- A start PC that has been checked is not checked again. -/
theorem State.startCheck_started (s : State) (core ctx vf : Nat) (pc : DWord) : s.startCheck core ctx vf pc false = none := rfl

theorem State.issueSelected_started {s : State} {core slot entry upset : Nat} {w : Warp} (h : (w.entry entry).start = false) :
    s.issueSelected core slot entry upset w = s.runFragment core slot entry upset w (s.replays (s.vfOfTeam w.team)) := by
  unfold State.issueSelected
  simp only [h, State.startCheck_started, Bool.false_eq_true, if_false, ite_self]

/-- The state in which the fragment that a scheduler selects issues: the others have aged, and a sampled core remembers it (R37, R413). -/
def State.selected (s : State) (core sched : Nat) (skip : List Nat) (f : Nat × Nat) : State :=
  let s1 := s.ageOthers core sched (s.eligible core sched skip) f
  if (s1.samplingOf core).isSome then s1.modCore core fun c => { c with lastIssue := c.lastIssue.put sched f } else s1

theorem State.issueTurn_selected {s : State} {core sched upset : Nat} {skip : List Nat} {f : Nat × Nat} {w : Warp} (hf : s.select core sched skip = some f)
    (hw : (s.selected core sched skip f).warp? core f.1 = some w) :
    s.issueTurn core sched upset skip = (s.selected core sched skip f).issueSelected core f.1 f.2 upset w := by
  unfold State.selected at hw ⊢
  unfold State.issueTurn
  simp only [hf, hw]

/-- The second of a pair whose fragment runs on in sequence and is not held back runs, once its slot has good parity. -/
theorem State.secondTurn_runs {s u : State} {core slot entry upset : Nat} {w : Warp} {word : BitVec 96} {i : Instr} (hw : s.warp? core slot = some w)
    (hp : (w.entry entry).paired.isNone = false) (hst : (w.entry entry).st = .run) (hm : (w.entry entry).mask ≠ 0) (hq : (w.entry entry).seqd = true)
    (hwt : (w.entry entry).wait = .none) (hf : s.fetched core (s.ctxIdOfTeam w.team) (w.entry entry).pc false = (.instr word i, u))
    (hb : s.heldBack core slot w (w.entry entry) (s.nextIssue core (s.ctxIdOfTeam w.team) (w.entry entry)) = false) :
    s.secondTurn core slot entry upset = s.runFragment core slot entry upset w (s.replays (s.vfOfTeam w.team)) := by
  have hmb : ((w.entry entry).mask == 0) = false := beq_eq_false_iff_ne.mpr hm
  have hrun : ((w.entry entry).st != .run) = false := by
    rw [hst]
    rfl
  have hwaits : ((w.entry entry).wait != .none) = false := by
    rw [hwt]
    rfl
  unfold State.secondTurn
  simp only [hw, hp, hrun, hmb, hq, hf, hwaits, hb, Bool.not_true, Bool.or_self, Bool.false_eq_true, if_false]

/-! ## Sequencers and stoves (R290, R336) -/

theorem State.runSequencer_decodes {s u v : State} {core team : Nat} {q : Sequencer} {word : BitVec 96} {i : Instr}
    (hf : s.fetched core (s.ctxIdOfTeam (teamIx core team)) q.pc true = (.instr word i, u))
    (ht : u.readTargets core (u.ctxIdOfTeam (teamIx core team)) (u.vfOfTeam (teamIx core team)) (Sequencer.targets q.pc i) = some v) :
    s.runSequencer core team q false = exec i { v with cur := .seq core team q.pc word } := by
  unfold State.runSequencer
  simp only [hf, Bool.false_and, Bool.false_eq_true, if_false, ht]

/-- A sequencer of a started team of a live context outside replay runs on. -/
theorem State.sequencerTurn_runs {s : State} {core team : Nat} {t : Team} {q : Sequencer} (ht : s.team? (teamIx core team) = some t) (hq : t.seq = some q)
    (he : q.ended = false) (hst : q.start = false) (hl : s.ctxLive (s.ctxIdOfTeam (teamIx core team)) = true)
    (hs : s.teamStarting (teamIx core team) = false) (hr : s.replays (s.vfOfTeam (teamIx core team)) = false) :
    s.sequencerTurn core team = s.runSequencer core team q false := by
  unfold State.sequencerTurn
  simp only [ht, hq, Option.bind_some, he, hst, hl, hs, hr, State.startCheck_started, Bool.not_true, Bool.false_and, Bool.or_self, Bool.false_eq_true, if_false]

theorem State.stoveTurn_decodes {s : State} {stack ch : Nat} {arith : Bool} {w : Word} {i : Instr} (hr : (s.stove (stack * 32 + ch)).ready arith = true)
    (hw : ((s.stove (stack * 32 + ch)).code arith)[(s.stove (stack * 32 + ch)).pc arith]? = some w) (hd : decodeStove w = .ok i) :
    s.stoveTurn stack ch arith = exec i { s with cur := .stove stack ch arith } := by
  unfold State.stoveTurn
  simp only [hr, hw, hd, Bool.not_true, Bool.false_eq_true, if_false]

/-- The turn of a stove of a partition that does not replay is not recorded. -/
theorem State.recorded_stove {s : State} {stack ch : Nat} {arith : Bool} (h : s.replays (s.stove (stack * 32 + ch)).vf = false) :
    s.recorded (.stove stack ch arith) = none := by
  simp [State.recorded, State.engineTurn, h]

/-- A turn that is not recorded acts. -/
theorem step_acts {s : State} {t : Turn} {l : List Turn} (ha : s.agenda = t :: l)
    (hr : ({ s with agenda := l } : State).restAges.recorded t = none) : step s = ({ s with agenda := l } : State).restAges.act t :=
  (step_of_agenda_cons ha).trans (State.turn_of_unrecorded hr)

/-- Settles O56: each turn, once it is known what its fetch came to. -/
theorem stepRunsInstruction : Obligations.StepRunsInstruction := by
  unfold Obligations.StepRunsInstruction
  intro s u v l i word line hp held targets
  have hpow : ({ s with agenda := l } : State).restAges.powered = true := hp
  have hfetch : ∀ {seq core ctx pc s}, held seq core ctx pc s u → s.fetched core ctx pc seq = (.instr word i, u) := by
    rintro seq core ctx pc s ⟨hc, rfl, hpar, hpair, hseq, hres, hdec, p, hr⟩
    exact State.fetched_decodes hc hr (slotOfLine_decodes hpar hpair hseq hres hdec)
  refine ⟨?issue, ?second, ?sequencer, ?stove, fun core ctx vf pcs h => State.readTargets_near vf h⟩
  case issue =>
    intro core sched upset skip f w ha s0 s1 s2 e cur hsel hw hst hrep hpair hheld ht
    have hact : s0.act (.issue core sched upset skip) = s0.issueTurn core sched upset skip := if_pos hpow
    rw [step_acts ha rfl, hact, State.issueTurn_selected hsel hw, State.issueSelected_started hst]
    refine (congrArg _ hrep).trans (State.runFragment_decodes (hfetch hheld) ?_ ht)
    unfold Entry.roleIn
    rw [hpair]
  case second =>
    intro core slot entry upset w n ha s0 e cur hw hpair hrun hm hq hwt hb hrep hheld ht
    have hact : s0.act (.second core slot entry upset) = s0.secondTurn core slot entry upset := if_pos hpow
    rw [step_acts ha rfl, hact, State.secondTurn_runs hw (by rw [hpair]; rfl) hrun hm hq hwt (hfetch hheld) hb]
    refine (congrArg _ hrep).trans (State.runFragment_decodes (hfetch hheld) ?_ ht)
    unfold Entry.roleIn
    rw [hpair]
  case sequencer =>
    intro core team t q ha ix hteam hseq he hst hl hts hrep hheld ht
    have hact : ({ s with agenda := l } : State).restAges.act (.sequencer core team) = ({ s with agenda := l } : State).restAges.sequencerTurn core team :=
      if_pos hpow
    have hruns := State.sequencerTurn_runs (s := ({ s with agenda := l } : State).restAges) hteam hseq he hst hl hts hrep
    exact (step_acts ha rfl).trans (hact.trans (hruns.trans (State.runSequencer_decodes (hfetch hheld) ht)))
  case stove =>
    intro stack ch arith w ha hrep hr hw hd
    have hact : ({ s with agenda := l } : State).restAges.act (.stove stack ch arith) = ({ s with agenda := l } : State).restAges.stoveTurn stack ch arith :=
      if_pos hpow
    rw [step_acts ha (State.recorded_stove hrep), hact]
    exact State.stoveTurn_decodes hr hw hd

end Sys2Proof.Machine
end

section
/-! SUPPORT. Child and host launches (05 R104; 10 R223; 17 R353 to R356), and the retirement of teams and grids (02 R42, R45). -/

namespace Sys2Proof.Machine

open Sys2Proof.Claims

/-! ## Child launches (R223) -/

/-- `glaunch` of a fragment whose lanes pass: it stalls while its core owes writes or its record is held, and otherwise launches what
the pool has room for. -/
theorem execGlaunch_checked {s s1 : State} {h : Hdr} {b : VBody} {x : Ctx} {l : List (Nat × Parts)} (hr : Ready (.glaunch h b) s x) (ha : x.act ≠ 0)
    (hw : ∀ n, x.e.wait ≠ .launch n) (hd : ((s.gridOfTeam x.team).map (·.depth)).getD 0 < 10)
    (hl : checkLanes s.taken x.threads (fun _ s => if (x.scal b.a).toNat % 64 ≠ 0 then (.error causeAlign, s)
      else s.resolveParts x.core x.gctx (partsOf (x.scal b.a).toNat 256 257) .read) (fun _ => x.scal b.a) = (.ok l, s1)) :
    execGlaunch h b s = .next (finish x s.taken
      (if s1.coreOwes x.core || s1.engineWaits 0 x.gctx (x.scal b.a) 256 .read || s1.engineWaits 0 x.gctx (x.scal b.a + 0x1C) 1 .write then .stall s1
      else if (s1.launchAll x (x.threads.map fun _ => x.scal b.a)).2.isEmpty then .done (s1.launchAll x (x.threads.map fun _ => x.scal b.a)).1
      else .wait (s1.launchAll x (x.threads.map fun _ => x.scal b.a)).1
        (.launch (x.threads.length - (s1.launchAll x (x.threads.map fun _ => x.scal b.a)).2.length)))) := by
  have hdepth : ¬ 10 ≤ ((s.taken.gridOfTeam x.team).map (·.depth)).getD 0 := Nat.not_le.mpr hd
  refine (issue_ready hr _).trans (congrArg (fun e => Host.Outcome.next (finish x s.taken e)) ?_)
  cases hk : x.e.wait with
  | launch n => exact absurd hk (hw n)
  | _ => simp only [if_neg ha, hdepth, decide_false, Bool.and_false, Bool.false_eq_true, if_false, if_true, hl, List.drop_zero]

theorem childLaunch : ChildLaunch := by
  unfold ChildLaunch
  intro s s1 h b x l hr ha hw hd hl r held
  have hexec := execGlaunch_checked hr ha hw hd hl
  refine ⟨fun hh => ?stalls, fun hh hn => ?launched, fun hh hn => ?waits⟩
  case stalls => exact hexec.trans (by rw [if_pos hh]; rfl)
  case launched => exact hexec.trans (by rw [if_neg (Bool.eq_false_iff.mp hh), if_pos (List.isEmpty_iff.mpr hn)]; rfl)
  case waits => exact hexec.trans (by rw [if_neg (Bool.eq_false_iff.mp hh), if_neg (fun e => hn (List.isEmpty_iff.mp e))]; rfl)

/-! ## Launch queues (R104, R353) -/

theorem State.poolFree_of_part {s : State} {vf : Nat} {p : Partition} (hp : s.part? vf = some p) : s.poolFree vf = 64 - p.pool.length := by
  unfold State.poolFree
  rw [hp]
  rfl

/-- With fewer than 16 entries free the pool accepts nothing. -/
theorem execLaunchAccept_paused {s : State} {vf : Nat} {p : Partition} (hp : s.part? vf = some p) (hfull : 48 < p.pool.length) :
    execLaunchAccept vf s = .next s := by
  have hfree : s.poolFree vf < 16 := by rw [State.poolFree_of_part hp]; omega
  unfold execLaunchAccept
  simp only [hp, if_pos hfree]

/-- The partition once entry `q` of queue `n` has been taken. -/
def State.takeEntry (s : State) (vf n : Nat) (q : LQueue) : State :=
  s.modPart vf fun p => { p with queueRot := (n + 1) % 16, queues := p.queues.put n { q with head := q.head + 1 } }

/-- The queue in turn, with room in the pool and nothing that holds the words of its entry. -/
structure QueueReady (s : State) (vf n : Nat) (p : Partition) (q : LQueue) : Prop where
  part : s.part? vf = some p
  room : p.pool.length ≤ 48
  next : p.nextQueue = some (n, q)
  quiet : s.hostBusy (q.base + 8 * (q.head.toNat % 2 ^ q.n)) = false
  still : s.flipWaits (q.base + 8 * (q.head.toNat % 2 ^ q.n)) s.nextId = false

theorem QueueReady.free {s : State} {vf n : Nat} {p : Partition} {q : LQueue} (h : QueueReady s vf n p q) : ¬ s.poolFree vf < 16 := by
  have := h.room
  rw [State.poolFree_of_part h.part]
  omega

/-- An entry that the function may not read is refused. -/
theorem execLaunchAccept_unreadable {s : State} {vf n c : Nat} {p : Partition} {q : LQueue} (h : QueueReady s vf n p q)
    (hb : s.readPhys vf (q.base + 8 * (q.head.toNat % 2 ^ q.n)) 8 = .error c) :
    execLaunchAccept vf s = .next (((s.touchRun vf (q.base + 8 * (q.head.toNat % 2 ^ q.n)) 8).takeEntry vf n q).logPhys vf c
      (q.base + 8 * (q.head.toNat % 2 ^ q.n)) none 8 4 (BitVec.ofNat 64 n)) := by
  unfold execLaunchAccept
  simp only [h.part, if_neg h.free, h.next, h.quiet, h.still, hb, Bool.or_self, Bool.false_eq_true, if_false]
  rfl

/-- An entry that names a record is accepted; one that is no record address is refused. -/
theorem execLaunchAccept_entry {s : State} {vf n : Nat} {p : Partition} {q : LQueue} {b : List Byte} (h : QueueReady s vf n p q)
    (hb : s.readPhys vf (q.base + 8 * (q.head.toNat % 2 ^ q.n)) 8 = .ok b)
    (hr : s.engineWaits 0 q.ctx (BitVec.ofNat 64 (fieldOf b 0 8)) 256 .read = false)
    (hw : s.engineWaits 0 q.ctx (BitVec.ofNat 64 (fieldOf b 0 8) + 0x1C) 1 .write = false) :
    let t := (s.touchRun vf (q.base + 8 * (q.head.toNat % 2 ^ q.n)) 8).flushBias (q.base + 8 * (q.head.toNat % 2 ^ q.n)) 8
    let lrec := BitVec.ofNat 64 (fieldOf b 0 8)
    execLaunchAccept vf s = if lrec.toNat % 64 ≠ 0 then .next ((t.takeEntry vf n q).log vf causeInvalid lrec true 8 4 (BitVec.ofNat 64 n))
      else .next ((t.accept q.ctx vf lrec 0 none n 0).1.takeEntry vf n q) := by
  unfold execLaunchAccept
  simp only [h.part, if_neg h.free, h.next, h.quiet, h.still, hb, hr, hw, Bool.or_self, Bool.false_eq_true, if_false]
  rfl

/-! ## Pending and waiting grids (R354, R356) -/

/-- A pending grid whose counter has reached its target becomes ready. -/
theorem execDependencyReread_met {s s1 : State} {grid clk : Nat} {g : Grid} (hg : s.grid? grid = some g) (hp : g.st = .pending)
    (hd : s.depMet g.ctx g.vf g.lr = (.ok (some clk), s1)) : execDependencyReread grid s =
      .next (s1.modGrid grid fun g => { g with st := .ready, readyAt := some s1.vclock.toNat, floor := max g.floor clk }) := by
  have hready : ¬ g.st = .ready := by rw [hp]; decide
  unfold execDependencyReread
  simp only [hg, if_neg hready, hd]

theorem execDependencyReread_unmet {s s1 : State} {grid : Nat} {g : Grid} (hg : s.grid? grid = some g) (hp : g.st = .pending)
    (hd : s.depMet g.ctx g.vf g.lr = (.ok none, s1)) : execDependencyReread grid s = .next s1 := by
  have hready : ¬ g.st = .ready := by rw [hp]; decide
  unfold execDependencyReread
  simp only [hg, if_neg hready, hd]

/-- A grid that has stood ready for 2^24 clocks without a team is promoted. -/
theorem execPriorityPromotion_waited {s : State} {grid t : Nat} {g : Grid} (hg : s.grid? grid = some g) (hr : g.readyAt = some t) (hn : g.placed = 0)
    (ht : t + 2 ^ 24 ≤ s.vclock.toNat) :
    ∃ u : State, execPriorityPromotion grid s = .next u ∧ u.grid? grid = some { g with promoted := true } ∧ u.mem = s.mem := by
  refine ⟨_, rfl, ?_, rfl⟩
  have hdue : (decide (g.placed = 0) && decide (t + 2 ^ 24 ≤ s.vclock.toNat)) = true := by rw [hn, decide_eq_true ht]; rfl
  rw [State.modGrid_grid?, if_pos rfl, hg, Option.map_some]
  simp only [hr, if_pos hdue]

theorem launchQueues : LaunchQueues := by
  unfold LaunchQueues
  intro s s1 vf n grid clk p q b g pa lrec take
  refine ⟨fun hp hl hq hh hf hb hr hw => ?_, fun c hp hl hq hh hf hb => execLaunchAccept_unreadable ⟨hp, hl, hq, hh, hf⟩ hb,
    fun hp hl _ => execLaunchAccept_paused hp hl, fun hg hst => ⟨execDependencyReread_met hg hst, execDependencyReread_unmet hg hst⟩, fun t hg hr hn ht => execPriorityPromotion_waited hg hr hn ht⟩
  have hexec := execLaunchAccept_entry ⟨hp, hl, hq, hh, hf⟩ hb hr hw
  exact ⟨fun h0 => hexec.trans (if_neg (not_not_intro h0)), fun h0 => hexec.trans (if_pos h0)⟩

/-- Settles O34, from the two claims it joins. -/
theorem launches : Obligations.Launches := ⟨childLaunch, launchQueues⟩

/-! ## Retirement (R42, R45) -/

/-- A team without a screen leaves nothing for a comparison. -/
theorem State.screenRetire_unscreened {s : State} {ix : Nat} {t : Team} (h : t.screen = none) : s.screenRetire ix t = s := by
  unfold State.screenRetire
  rw [h]

theorem execTeamRetire_kept {s : State} {core team : Nat} {t : Team} (ht : s.team? (teamIx core team) = some t)
    (hr : s.canRetire (teamIx core team) t = false) : execTeamRetire core team s = .next s := by
  unfold execTeamRetire
  simp only [ht, hr, Bool.not_false, if_true]

theorem execTeamRetire_unscreened {s : State} {core team : Nat} {t : Team} (ht : s.team? (teamIx core team) = some t) (hs : t.screen = none)
    (hr : s.canRetire (teamIx core team) t = true) :
    execTeamRetire core team s = .next ((s.removeTeam (teamIx core team) t).modGrid t.grid fun g =>
      { g with retired := g.retired + 1, left := g.left ++ [(t.num, t.colls)] }) := by
  unfold execTeamRetire
  simp only [ht, hr, State.screenRetire_unscreened hs, hs, Option.map_none, Option.getD_none, Bool.not_true, Bool.false_eq_true, if_false]

/-- A grid that is not pending, whose teams have retired or been dropped, and with neither a child nor a team left, adds its increment and is gone. -/
theorem execGridRetire_finished {s : State} {grid : Nat} {g : Grid} (hg : s.grid? grid = some g) (hst : g.st = .ready)
    (ht : g.lr.teams ≤ g.retired + g.dropped) (hk : g.kids = 0) (hn : ∀ t ∈ s.teams, t.2.grid ≠ grid) (hs : g.seed = none) :
    execGridRetire grid s =
      .next (((s.counterAddOn g.ctx g.vf (namedCounter g.lr.counter) g.lr.increment.toNat g.release).childGone g).dropGrids (· == grid)) := by
  have hgo : ¬ (decide (g.st = .pending) || decide (g.retired + g.dropped < g.lr.teams) || g.kids != 0 || s.teams.any fun t => t.2.grid == grid) = true := by
    have hteams : (s.teams.any fun t => t.2.grid == grid) = false := List.any_eq_false.mpr fun t h => by simpa using hn t h
    rw [hst, hk, hteams, decide_eq_false (Nat.not_lt.mpr ht)]
    decide
  unfold execGridRetire
  simp only [hg, if_neg hgo, hs]

/-- Settles O36, for a team and for a grid. -/
theorem retirement : Obligations.Retirement := by
  unfold Obligations.Retirement
  intro s core team grid t g
  exact ⟨fun ht hs => ⟨execTeamRetire_unscreened ht hs, execTeamRetire_kept ht⟩, execGridRetire_finished⟩

end Sys2Proof.Machine
end

section
/-! SUPPORT. The tile instructions of a matrix sequencer: `mstart`, `mzero`, `mget` and `mput` (03 R60; 14 R302 to R304). -/

namespace Sys2Proof.Machine

open Sys2Proof.Claims

/-! ## What an effect of a sequencer comes to (R290) -/

theorem seqIssue_done {i : Instr} {s t : State} {x : SeqCtx} {ok : SeqCtx → Bool} {eff : SeqCtx → State → SeqEff} (h : s.seqAt x) (hok : ok x = true)
    (he : eff x s.taken = .done t) : seqIssue i s ok eff = .next (seqGoes t x (nextPc x.pc)) := by
  rw [seqIssue_at h ok eff hok, he]
  rfl

theorem seqIssue_wait {i : Instr} {s t : State} {x : SeqCtx} {ok : SeqCtx → Bool} {eff : SeqCtx → State → SeqEff} (h : s.seqAt x) (hok : ok x = true)
    (he : eff x s.taken = .wait t) : seqIssue i s ok eff = .next t := by
  rw [seqIssue_at h ok eff hok, he]
  rfl

/-! ## Binding (R60, R384) -/

/-- A well-formed word whose accumulator name is in use passes the checks of `mstart`. -/
theorem mstart_checked {h : Hdr} {c : CBody} {x : SeqCtx} (hw : (Instr.mstart h c).wellFormed = true) (ha : c.acc.toNat < x.g.lr.accs) :
    (seqHdr h false false && c.zeroBut true false false false false 0 && x.accOk c.acc) = true :=
  Bool.and_eq_true_iff.mpr ⟨hw, decide_eq_true ha⟩

theorem execMstart_free {s : State} {h : Hdr} {c : CBody} {x : SeqCtx} {k : Nat} {l : List Nat} (hx : s.seqAt x) (hw : (Instr.mstart h c).wellFormed = true)
    (ha : c.acc.toNat < x.g.lr.accs) (hs : x.q.spill = none) (hl : s.takeable x.core x.g.ctx = k :: l) (hf : ((s.core x.core).tile k).st = .free) :
    execMstart h c s = .next (seqGoes (s.taken.rebind x c.acc.toNat k) x (nextPc x.pc)) := by
  have hl' : s.taken.takeable x.core x.g.ctx = k :: l := hl
  have hf' : ((s.taken.core x.core).tile k).st = .free := hf
  exact seqIssue_done hx (mstart_checked hw ha) (by simp only [hs, hl', List.head?_cons, if_pos hf'])

/-- With no FREE tile the lowest FOREIGN one is asked for. -/
theorem execMstart_foreign {s : State} {h : Hdr} {c : CBody} {x : SeqCtx} {k : Nat} {l : List Nat} (hx : s.seqAt x)
    (hw : (Instr.mstart h c).wellFormed = true) (ha : c.acc.toNat < x.g.lr.accs) (hs : x.q.spill = none)
    (hl : s.takeable x.core x.g.ctx = k :: l) (hf : ((s.core x.core).tile k).st ≠ .free) :
    execMstart h c s = .next ((s.taken.modSeq x.ix fun q => { q with spill := some k }).askSpill x.core k) := by
  have hl' : s.taken.takeable x.core x.g.ctx = k :: l := hl
  have hf' : ¬ ((s.taken.core x.core).tile k).st = .free := hf
  exact seqIssue_wait hx (mstart_checked hw ha) (by simp only [hs, hl', List.head?_cons, if_neg hf'])

theorem execMstart_noTile {s : State} {h : Hdr} {c : CBody} {x : SeqCtx} (hx : s.seqAt x) (hw : (Instr.mstart h c).wellFormed = true)
    (ha : c.acc.toNat < x.g.lr.accs) (hs : x.q.spill = none) (hl : s.takeable x.core x.g.ctx = []) : execMstart h c s = .next s.taken := by
  have hl' : s.taken.takeable x.core x.g.ctx = [] := hl
  exact seqIssue_wait hx (mstart_checked hw ha) (by simp only [hs, hl', List.head?_nil])

/-- The tile whose spill it has asked for is taken once it is FOREIGN no more. -/
theorem execMstart_spilling {s : State} {h : Hdr} {c : CBody} {x : SeqCtx} {k : Nat} (hx : s.seqAt x) (hw : (Instr.mstart h c).wellFormed = true)
    (ha : c.acc.toNat < x.g.lr.accs) (hs : x.q.spill = some k) :
    (((s.core x.core).tile k).st = .foreign → execMstart h c s = .next s.taken) ∧
      (((s.core x.core).tile k).st ≠ .foreign → execMstart h c s = .next (seqGoes (s.taken.rebind x c.acc.toNat k) x (nextPc x.pc))) := by
  refine ⟨fun hf => seqIssue_wait hx (mstart_checked hw ha) ?_, fun hf => seqIssue_done hx (mstart_checked hw ha) ?_⟩
  · have hf' : ((s.taken.core x.core).tile k).st = .foreign := hf
    simp only [hs, if_pos hf']
  · have hf' : ¬ ((s.taken.core x.core).tile k).st = .foreign := hf
    simp only [hs, if_neg hf']

theorem execMzero_posts {s : State} {h : Hdr} {c : CBody} {x : SeqCtx} (hx : s.seqAt x) (hw : (Instr.mzero h c).wellFormed = true)
    (ha : c.acc.toNat < x.g.lr.accs) :
    execMzero h c s = .next (seqGoes (s.taken.post x.ix (.mzero (x.tile c.acc.toNat))).2 x (nextPc x.pc)) :=
  seqIssue_done hx (Bool.and_eq_true_iff.mpr ⟨hw, decide_eq_true ha⟩) rfl

/-! ## Moves (R200, R303, R304) -/

/-- A move waits for room in the MATRIX counter of its warp and for the results pending on its registers. -/
def SeqCtx.moveHeld (x : SeqCtx) (h : Hdr) (c : CBody) (s : State) : Bool :=
  !x.room s c.warp || s.regsPending x.core (x.slotOf c.warp) (x.move h c).vreg (x.move h c).count

theorem SeqCtx.moveHeld_of_pending {x : SeqCtx} {h : Hdr} {c : CBody} {s : State}
    (hp : ¬ s.regsPending x.core (x.slotOf c.warp) (x.move h c).vreg (x.move h c).count = false) : x.moveHeld h c s = true := by
  rw [SeqCtx.moveHeld, Bool.eq_true_of_not_eq_false hp, Bool.or_true]

theorem SeqCtx.moveHeld_of_full {x : SeqCtx} {h : Hdr} {c : CBody} {s : State} (hr : x.room s c.warp = false) : x.moveHeld h c s = true := by
  rw [SeqCtx.moveHeld, hr, Bool.not_false, Bool.true_or]

theorem SeqCtx.moveHeld_of_clear {x : SeqCtx} {h : Hdr} {c : CBody} {s : State} (hr : x.room s c.warp = true)
    (hp : s.regsPending x.core (x.slotOf c.warp) (x.move h c).vreg (x.move h c).count = false) : x.moveHeld h c s = false := by
  rw [SeqCtx.moveHeld, hr, hp, Bool.not_true, Bool.or_self]

theorem execMget_held {s : State} {h : Hdr} {c : CBody} {x : SeqCtx} (hx : s.seqAt x) (hm : x.moveOk h c [1, 2, 3, 4, 5, 6] 0xF77F = true)
    (hh : x.moveHeld h c s.taken = true) : execMget h c s = .next s.taken := seqIssue_wait hx hm (if_pos hh)

theorem execMget_posts {s : State} {h : Hdr} {c : CBody} {x : SeqCtx} (hx : s.seqAt x) (hm : x.moveOk h c [1, 2, 3, 4, 5, 6] 0xF77F = true)
    (hh : x.moveHeld h c s.taken = false) : execMget h c s = .next (seqGoes ((s.taken.post x.ix (.mget (x.move h c))).2.modWarp x.core (x.slotOf c.warp)
      fun w => w.pushOp 1 s.nextId) x (nextPc x.pc)) := seqIssue_done hx hm (if_neg (Bool.eq_false_iff.mp hh))

theorem execMput_posts {s : State} {h : Hdr} {c : CBody} {x : SeqCtx} (hx : s.seqAt x) (hm : x.moveOk h c [1, 2, 3] 0xF07F = true)
    (hh : x.moveHeld h c s.taken = false) : execMput h c s = .next (seqGoes (({ (s.taken.post x.ix (.mput (x.move h c))).2 with
      slabs := s.slabs.put s.nextId ⟨x.ix, (x.move h c).warp, (x.move h c).vreg, (x.move h c).count,
        s.taken.regWords x.core (x.slotOf c.warp) (x.move h c).vreg (x.move h c).count, none⟩ } : State).modWarp x.core (x.slotOf c.warp)
      fun w => w.pushOp 1 s.nextId) x (nextPc x.pc)) := seqIssue_done hx hm (if_neg (Bool.eq_false_iff.mp hh))

/-- Settles O28, instruction by instruction. -/
theorem tileMembers : Obligations.TileMembers := by
  unfold Obligations.TileMembers
  intro s h c x hx name post m open_ clear
  refine ⟨fun hw ha hs => ⟨fun k l hl => ⟨execMstart_free hx hw ha hs hl, execMstart_foreign hx hw ha hs hl⟩, execMstart_noTile hx hw ha hs⟩,
    fun k hw ha hs => execMstart_spilling hx hw ha hs, execMzero_posts hx, fun hm => ⟨fun hr hc => ?get, fun hc => ?pending, fun hr => ?full⟩,
    fun hm hr hc => ?put⟩
  case get => exact execMget_posts hx hm (SeqCtx.moveHeld_of_clear hr hc)
  case pending => exact execMget_held hx hm (SeqCtx.moveHeld_of_pending hc)
  case full => exact execMget_held hx hm (SeqCtx.moveHeld_of_full hr)
  case put => exact execMput_posts hx hm (SeqCtx.moveHeld_of_clear hr hc)

end Sys2Proof.Machine
end

section
/-! SUPPORT. An empty Active (02 R28; 09 R187): no thread computes, no lane is checked, and the effect leaves the state as it is. -/

namespace Sys2Proof.Machine

/-! ## No threads -/

theorem threadsOf_zero : threadsOf 0 = [] := by decide

theorem Warp.inTx_zero (w : Warp) : w.inTx 0 = 0 := by
  have h : (fun t => (0 : DWord).getLsbD t && (w.tx.find? t).isSome) = fun _ => false := by funext t; simp
  unfold Warp.inTx
  rw [h]
  decide

section
variable {x : Ctx} (ha : x.act = 0)
include ha

theorem Ctx.threads_of_idle : x.threads = [] := by
  unfold Ctx.threads
  rw [ha, threadsOf_zero, if_pos rfl, ite_self]

theorem Ctx.txSplit_of_idle : x.txSplit = ([], []) := by
  unfold Ctx.txSplit
  simp only [Ctx.threads_of_idle ha, ha, Warp.inTx_zero, threadsOf_zero, List.filter_nil, ite_self]

theorem Ctx.txCommitting_of_idle : x.txCommitting = [] := by
  unfold Ctx.txCommitting
  rw [ha, threadsOf_zero]
  rfl

/-! ## Shapes of effects without a thread -/

theorem loadEff_idle (s : State) (b : MBody) (acq : Nat) (f : Nat → State → Except Nat Parts × State) (va vaOf : Nat → DWord) :
    loadEff x s b acq (checkLanes s x.threads f va) vaOf = .done s := by
  rw [Ctx.threads_of_idle ha]
  exact if_pos ha

theorem storeEff_idle (s : State) (b : MBody) (f : Nat → State → Except Nat Parts × State) (va vaOf : Nat → DWord) :
    storeEff x s b (checkLanes s x.threads f va) vaOf = .done s := by
  rw [Ctx.threads_of_idle ha]
  rfl

theorem atomEff_idle (s : State) (b : MBody) (op : Nat) (c16 : Bool) (dst : Option Nat) (second : Nat) : atomEff x s b op c16 dst second = .done s := by
  unfold atomEff
  rw [Ctx.threads_of_idle ha]
  exact if_pos ha

theorem copyIssue_idle (s : State) (b : VBody) (kind : CopyKind) (loopN stages pitch : Nat) (step : List Int) (first nteams : Nat) :
    copyIssue x s b kind loopN stages pitch step first nteams = .done s := if_pos ha

theorem nearSelect_idle (s : State) (sel : DWord) (bad : Option FaultInfo) (req : Word → NearReq) : nearSelect x s sel bad req = .done s := if_pos ha

omit ha in
/-- No transactional lane: nothing is installed and nobody leaves. -/
theorem txFinish_nil (s : State) : txFinish x s [] = .done s := by
  have h : s.modWarp x.core x.slot (fun w => w) = s := by
    unfold State.modWarp
    rw [Tab.modify_id]
  exact congrArg Eff.done h

end

/-! ## Instructions whose effect looks at Active lane by lane -/

section
variable {s : State} {x : Ctx} (ha : x.act = 0)
include ha

theorem execLd_idle {h : Hdr} {b : MBody} (hr : Ready (.ld h b) s x) : execLd h b s = .next (s.taken.completed x) := by
  refine issue_done hr ?_
  simp only [Ctx.txSplit_of_idle ha]
  exact txFinish_nil s.taken

theorem execSt_idle {h : Hdr} {b : MBody} (hr : Ready (.st h b) s x) : execSt h b s = .next (s.taken.completed x) := by
  refine issue_done hr ?_
  simp only [Ctx.txSplit_of_idle ha, ha, bne_self_eq_false, Bool.and_false, Bool.false_and, Bool.false_eq_true, if_false]
  exact txFinish_nil s.taken

theorem execLds_idle {h : Hdr} {b : MBody} (hr : Ready (.lds h b) s x) : execLds h b s = .next (s.taken.completed x) := by
  refine issue_done hr ?_
  simp only [Ctx.threads_of_idle ha]
  cases s.taken.team? x.team <;> rfl

theorem execSts_idle {h : Hdr} {b : MBody} (hr : Ready (.sts h b) s x) : execSts h b s = .next (s.taken.completed x) := by
  refine issue_done hr ?_
  simp only [Ctx.threads_of_idle ha]
  cases s.taken.team? x.team <;> rfl

theorem execPf_idle {h : Hdr} {b : MBody} (hr : Ready (.pf h b) s x) : execPf h b s = .next (s.taken.completed x) := by
  refine issue_done hr ?_
  simp only [Ctx.threads_of_idle ha]
  exact ite_self _

theorem execGred_idle {h : Hdr} {b : MBody} (hr : Ready (.gred h b) s x) : execGred h b s = .next (s.taken.completed x) := by
  refine issue_done hr ?_
  simp only [Ctx.threads_of_idle ha]
  exact if_pos ha

theorem execKcoll_idle {h : Hdr} {b : VBody} (hr : Ready (.kcoll h b) s x) : execKcoll h b s = .next (s.taken.completed x) := by
  refine issue_done hr ?_
  cases ht : s.taken.team? x.team with
  | none => rfl
  | some t => exact if_pos ha

theorem execTxend_idle {h : Hdr} {b : VBody} (hr : Ready (.txend h b) s x) : execTxend h b s = .next (s.taken.completed x) := by
  refine issue_done hr ?_
  simp only [Ctx.txCommitting_of_idle ha]
  exact if_pos rfl

theorem execTxabt_idle {h : Hdr} {b : VBody} (hr : Ready (.txabt h b) s x) : execTxabt h b s = .next (s.taken.completed x) := by
  refine issue_done hr ?_
  simp only [ha, Warp.inTx_zero, if_true]

/-- Whether a unit is armed or not, a `brk` of no thread stops nothing. -/
theorem execBrk_idle {h : Hdr} {b : VBody} (hr : Ready (.brk h b) s x) : execBrk h b s = .next (s.taken.completed x) := by
  refine issue_done hr ?_
  simp only [ha, bne_self_eq_false, Bool.false_and, Bool.false_eq_true, if_false]
  cases s.taken.brkUnit x.vf x.gctx <;> rfl

end

/-- Settles O48: the listed instructions test Active first, or work lane by lane on lanes that are not there. -/
theorem emptyActive : Obligations.EmptyActive := by
  unfold Obligations.EmptyActive
  intro s h v b m y j x ha
  simp only [List.forall_mem_cons]
  refine ⟨
    fun hr => (exec_barArrive h b s).trans (issue_done hr (congrArg Eff.done (if_pos ha))),
    fun hr => (exec_barWait h b s).trans (issue_done hr (if_pos ha)),
    fun hr => (exec_barSync h b s).trans (issue_done hr (if_pos ha)),
    fun hr => (exec_barQuery h b s).trans (issue_done hr (if_pos ha)),
    fun hr => (exec_drain h b s).trans (issue_done hr (if_pos ha)),
    fun hr => (exec_fence h b s).trans (issue_done hr (if_pos ha)),
    fun hr => (exec_owait h b s).trans (issue_done hr (if_pos ha)),
    fun hr => (exec_cwait h v s).trans (issue_done hr (if_pos ha)),
    fun hr => (exec_glaunch h v s).trans (issue_done hr (if_pos ha)),
    fun hr => (exec_gwait h v s).trans (issue_done hr (if_pos ha)),
    fun hr => (exec_ld h m s).trans (execLd_idle ha hr),
    fun hr => (exec_ldp h m s).trans (issue_done hr (loadEff_idle ha _ _ _ _ _ _)),
    fun hr => (exec_ldc h m s).trans (issue_done hr (loadEff_idle ha _ _ _ _ _ _)),
    fun hr => (exec_ldl h m s).trans (issue_done hr (loadEff_idle ha _ _ _ _ _ _)),
    fun hr => (exec_st h m s).trans (execSt_idle ha hr),
    fun hr => (exec_stp h m s).trans (issue_done hr (storeEff_idle ha _ _ _ _ _)),
    fun hr => (exec_stl h m s).trans (issue_done hr (storeEff_idle ha _ _ _ _ _)),
    fun hr => (exec_atom h m s).trans (issue_done hr (atomEff_idle ha _ _ _ _ _ _)),
    fun hr => (exec_ared h m s).trans (issue_done hr (atomEff_idle ha _ _ _ _ _ _)),
    fun hr => (exec_cas16 h m s).trans (issue_done hr (atomEff_idle ha _ _ _ _ _ _)),
    fun hr => (exec_bcopy h v s).trans (issue_done hr (copyIssue_idle ha _ _ _ _ _ _ _ _ _)),
    fun hr => (exec_bloop h v s).trans (issue_done hr (copyIssue_idle ha _ _ _ _ _ _ _ _ _)),
    fun hr => (exec_bmcast h v s).trans (issue_done hr (copyIssue_idle ha _ _ _ _ _ _ _ _ _)),
    fun hr => (exec_brel h v s).trans (issue_done hr (if_pos ha)),
    fun hr => (exec_nred h v s).trans (issue_done hr (if_pos ha)),
    fun hr => (exec_nlaunch h v s).trans (issue_done hr (if_pos ha)),
    fun hr => (exec_nstat h v s).trans (issue_done hr (nearSelect_idle ha _ _ _ _)),
    fun hr => (exec_nkill h v s).trans (issue_done hr (nearSelect_idle ha _ _ _ _)),
    fun hr => (exec_srd h y s).trans (issue_done hr (if_pos ha)),
    fun hr => (exec_swr h y s).trans (issue_done hr (if_pos ha)),
    fun hr => (exec_sysc h y s).trans (issue_done hr (if_pos ha)),
    fun hr => (exec_txend h v s).trans (execTxend_idle ha hr),
    fun hr => (exec_txabt h v s).trans (execTxabt_idle ha hr),
    fun hr => (exec_trap h b s).trans (issue_done hr (if_pos ha)),
    fun hr => (exec_cyield h v s).trans (issue_done hr (if_pos ha)),
    fun hr => (exec_txbeg h j s).trans (issue_done hr (if_pos ha)),
    fun hr => (exec_kcoll h v s).trans (execKcoll_idle ha hr),
    fun hr => (exec_gred h m s).trans (execGred_idle ha hr),
    fun hr => (exec_lds h m s).trans (execLds_idle ha hr),
    fun hr => (exec_sts h m s).trans (execSts_idle ha hr),
    fun hr => (exec_pf h m s).trans (execPf_idle ha hr),
    fun hr => (exec_wbr h m s).trans (issue_done hr (if_pos ha)),
    fun hr => (exec_invr h m s).trans (issue_done hr (if_pos ha)),
    fun hr => (exec_brk h v s).trans (execBrk_idle ha hr),
    fun hr => (exec_yield h v s).trans (issue_done hr (if_pos ha)),
    fun i hi => absurd hi List.not_mem_nil⟩

end Sys2Proof.Machine
end

section
/-! SUPPORT. The frame of register results fails as stated: `Elem.v r 64` is no element of the machine, but the register file keeps it where
thread 0 of the next register is (02 R28; 11 R235). -/

namespace Sys2Proof.Machine

/-- Thread 64 of a register stands where thread 0 of the next one does. -/
theorem Warp.file_thread64 (w : Warp) (r : Nat) : w.file (.v r 64) = w.file (.v (r + 1) 0) :=
  congrArg (fun k => (w.vregs.get 0 k).setWidth 64) (show r * 64 + 64 = (r + 1) * 64 + 0 by omega)

/-! ## A fragment that writes v3 -/

/-- `movi v3, 5` (R235). -/
def moviWord : BitVec 96 := 0x261DC0000300000000050000
def movi5 : Instr := .movi ⟨7, 7, false, 0, false, false, 0, false, 0⟩ ⟨3, 0, 5, 0⟩
def movi5Results (x : Ctx) : List RegWrite := x.threads.map fun th => putTy 0 3 th 5

theorem moviWord_decodes : decodeStream moviWord = some movi5 := by decide

/-- A team of one thread whose fragment issues it. -/
def movi5State : State := { State.reset.placeStream moviWord with cur := .frag 0 0 0 0x1000 moviWord .alone 0 }

theorem gives_movi5 (s : State) : Gives movi5 s movi5Results fun _ => 0 := fun _ hr => issue_results hr rfl

/-- It writes elements of v3 only. -/
theorem movi5Results_elem_ne (x : Ctx) (t : Nat) : ∀ r ∈ movi5Results x, r.elem ≠ .v 2 t := by
  intro r hr h
  obtain ⟨th, _, rfl⟩ := List.mem_map.mp hr
  cases h

theorem movi5_checks : ((movi5State.issuer movi5).map fun x => x.checkIssue movi5 movi5State.taken == none && x.upset == 0 && x.lr.flags % 2 == 0) =
    some true := by
  decide +kernel

theorem exists_ready_movi5 : ∃ x, Ready movi5 movi5State x ∧ x.lr.flags % 2 = 0 := by
  obtain ⟨x, hx, hp⟩ := Option.map_eq_some_iff.mp movi5_checks
  simp only [Bool.and_eq_true, beq_iff_eq] at hp
  obtain ⟨⟨hc, hu⟩, hf⟩ := hp
  exact ⟨x, ⟨hx, hc, hu, .inl rfl, .inl rfl⟩, hf⟩

/-- What v3 of thread 0 holds after the instruction, and before it. -/
theorem movi5_writes : (match exec movi5 movi5State with
    | .next t => (t.warp? 0 0).map fun w => w.file (.v 3 0)
    | _ => none) = some 5 := by
  decide +kernel

theorem movi5State_file : ((movi5State.warp? 0 0).map fun w => w.file (.v 3 0)) = some 0 := by decide +kernel

/-- Refutes O49: `movi v3, 5` writes no element of v2, yet `.v 2 64`, which stands where thread 0 of v3 does, goes from 0 to 5. -/
theorem not_resultFrame : ¬ Obligations.ResultFrame := by
  unfold Obligations.ResultFrame
  intro h
  obtain ⟨x, hr, hf⟩ := exists_ready_movi5
  have hexec := gives_movi5 movi5State x hr
  obtain ⟨_, _, w, w0, hw, hw0, _, hfile⟩ := h movi5 movi5State _ x movi5Results (fun _ => 0) (gives_movi5 movi5State) hr hf hexec
  have hplace : Cur.frag 0 0 0 0x1000 moviWord .alone 0 = .frag x.core x.slot x.entry x.pc x.word x.role x.upset := hr.cur.1
  injection hplace with hcore hslot
  rw [← hcore, ← hslot] at hw hw0
  have hnew : w.file (.v 3 0) = 5 := by
    have hafter := movi5_writes
    rw [hexec] at hafter
    dsimp only at hafter
    rw [hw] at hafter
    exact Option.some.inj hafter
  have hold : w0.file (.v 3 0) = 0 := by
    have hbefore := movi5State_file
    rw [hw0] at hbefore
    exact Option.some.inj hbefore
  have hsame := hfile (.v 2 64) (movi5Results_elem_ne x 64)
  rw [Warp.file_thread64, Warp.file_thread64, hnew, hold] at hsame
  exact absurd hsame (by decide)

end Sys2Proof.Machine
end

section
/-! SUPPORT. Taking a trap, by the route of its cause (03 R66; 10 R210; 18 R368, R369). -/

namespace Sys2Proof.Machine

open Sys2Proof.Claims

/-! ## Routes (Table 18.1) -/

/-- A refused activate does not go to the system handler. -/
theorem cause_ne_rowDenied_of_system {cause : Nat} {gred : Bool} (h : routeOf cause gred = 1) : cause ≠ causeRowDenied := by
  rintro rfl
  cases gred <;> exact absurd h (by decide)

theorem trapRoutes : TrapRoutes := by
  unfold TrapRoutes
  decide

/-! ## What is logged (R107, R368) -/

/-- Only a refused activate has its physical address filled in. -/
theorem State.withDenied_of_cause_ne (s : State) (core ctx : Nat) {f : FaultInfo} (h : f.cause ≠ causeRowDenied) : s.withDenied core ctx f = f := by
  unfold State.withDenied
  simp [h]

/-! ## Where a trap goes (R66) -/

section
variable {s : State} {core slot entry : Nat} {pc : DWord} {word : BitVec 96} {noWord gred : Bool} {f : FaultInfo} {w : Warp}

/-- A trap of the User or the System route, logged: in a handler it ends the context, behind taken trap registers it waits, and otherwise it
takes them. -/
theorem State.takeTrap_of_route (hw : s.warp? core slot = some w) (hr : routeOf f.cause gred ≤ 1) :
    s.takeTrap core slot entry pc word noWord gred f =
      (let logged := s.logFault (s.vfOfTeam w.team) core (s.withDenied core (s.ctxIdOfTeam w.team) f) pc
       let regs := trapRegs f.cause pc word f.mask noWord
       if (w.entry entry).handler then logged.endContext (s.ctxIdOfTeam w.team) f.cause .faulted
       else if w.trapBusy then
         logged.setWarp core slot (({ w with heldTraps := w.heldTraps ++ [⟨entry, pc, f.cause, f.mask, word, noWord⟩] } : Warp).setEntry entry
           { w.entry entry with wait := .held })
       else if routeOf f.cause gred = 1 then logged.systemHold core slot entry regs else logged.enterHandler core slot entry regs) := by
  have h2 : ¬ routeOf f.cause gred = 2 := by omega
  have h3 : ¬ routeOf f.cause gred = 3 := by omega
  unfold State.takeTrap
  simp only [hw, h2, h3, if_false, decide_false, Bool.false_or]

end

theorem userTrap : UserTrap := by
  unfold UserTrap
  intro s core slot entry pc word noWord gred f w hw logged
  refine ⟨fun hr hh hb => ?enters, fun hr hh hb => ?waits, fun hr hh => ?ends⟩
  case enters =>
    rw [State.takeTrap_of_route hw (by omega)]
    simp [hh, hb, hr, logged]
  case waits =>
    rw [State.takeTrap_of_route hw hr]
    simp [hh, hb, logged]
  case ends =>
    rw [State.takeTrap_of_route hw hr]
    simp [hh, logged]

/-- The held fragment stays at its PC, and the vector of its context is signalled. -/
theorem State.systemHold_of_warp {s : State} {core slot : Nat} {v : Warp} (entry : Nat) (regs : TrapRegs) (hv : s.warp? core slot = some v) :
    s.systemHold core slot entry regs =
      (s.setWarp core slot (({ v with trap := regs } : Warp).setEntry entry { v.entry entry with wait := .hold regs.cause.toNat })).signal
        (s.vfOfTeam v.team) (((s.ctx? (s.ctxIdOfTeam v.team)).map (·.vector)).getD 0) := by
  unfold State.systemHold
  rw [hv]
  rfl

theorem systemHold : SystemHold := by
  unfold SystemHold
  intro s core slot entry pc word noWord gred f w hw hr hh hb regs logged
  refine ⟨?_, fun v hv => State.systemHold_of_warp entry regs hv⟩
  rw [State.takeTrap_of_route hw hr.le, State.withDenied_of_cause_ne s core _ (cause_ne_rowDenied_of_system hr)]
  simp [hh, hb, hr, logged, regs]

/-- Settles O11, from the routes and from the two ways a trap takes the trap registers. -/
theorem trapRouting : Obligations.TrapRouting := ⟨trapRoutes, userTrap, systemHold⟩

end Sys2Proof.Machine
end

section
/-! SUPPORT. Regions, fences and multiply-accumulate of a matrix sequencer: `mseal`, `munseal`, `mfence` and `mmac` (14 R293 to R298). -/

namespace Sys2Proof.Tab

/-- Every listed index is found, whether the table is in order or not. -/
theorem find?_isSome_of_mem {α : Type} {t : Tab α} {y : Nat × α} (h : y ∈ t) : (find? t y.1).isSome = true := by
  induction t with
  | nil => cases h
  | cons z l ih =>
    unfold find?
    split
    case isTrue => rfl
    case isFalse hne =>
      rcases List.mem_cons.mp h with rfl | hl
      · exact absurd rfl hne
      · exact ih hl

end Sys2Proof.Tab

namespace Sys2Proof.Machine

open Sys2Proof.Claims

theorem seqIssue_trap {i : Instr} {s : State} {x : SeqCtx} {ok : SeqCtx → Bool} {eff : SeqCtx → State → SeqEff} {cause : Nat} {va : DWord}
    (h : s.seqAt x) (hok : ok x = true) (he : eff x s.taken = .trap cause va) :
    seqIssue i s ok eff = .next (s.taken.seqTrap x.core x.slot x.pc ⟨cause, 0, va, none⟩) := by
  rw [seqIssue_at h ok eff hok, he]
  rfl

/-! ## Posted work -/

theorem State.postedOpen_of_mem {s : State} {p : Nat × Posted} (h : p ∈ s.posted) : s.postedOpen p.1 = true := by
  unfold State.postedOpen
  rw [Tab.find?_isSome_of_mem h, Bool.true_or]

/-- A team with nothing posted names no operation to wait for. -/
theorem State.postedBy_of_none {s : State} {ix : Nat} (h : s.postedNone ix = true) : (s.posted.filter fun p => p.2.team == ix) = [] := by
  refine List.filter_eq_nil_iff.mpr fun p hp => ?_
  have hne := List.all_eq_true.mp h p hp
  simpa using hne

section
variable {s : State} {h : Hdr} {c : CBody} {x : SeqCtx}

/-! ## Sealing (R293) -/

/-- A `mseal` whose fields pass their checks: DEPTH and WIDTH are 1 to 192, and its slot holds a kind that cells can have. -/
def SeqCtx.sealOk (x : SeqCtx) (h : Hdr) (c : CBody) : Prop :=
  (Instr.mseal h c).wellFormed = true ∧ 1 ≤ bitsOf c.cmod.toNat 15 8 ∧ bitsOf c.cmod.toNat 15 8 ≤ 192 ∧ 1 ≤ bitsOf c.cmod.toNat 23 16 ∧
    bitsOf c.cmod.toNat 23 16 ≤ 192 ∧ slotOk (x.fmt h) [4, 5, 6, 8, 9, 10, 11] = true

theorem mseal_checked (hok : x.sealOk h c) :
    (seqHdr h true false && c.zeroBut true false true false true 0xFFFFFF && decide (c.region.toNat < 16) && decide (c.acc.toNat < 2) &&
      decide (c.vreg.toNat < 8) && decide (1 ≤ bitsOf c.cmod.toNat 15 8) && decide (bitsOf c.cmod.toNat 15 8 ≤ 192) &&
      decide (1 ≤ bitsOf c.cmod.toNat 23 16) && decide (bitsOf c.cmod.toNat 23 16 ≤ 192) && slotOk (x.fmt h) [4, 5, 6, 8, 9, 10, 11]) = true := by
  obtain ⟨hword, hdepth, hdepth', hwidth, hwidth', hslot⟩ := hok
  simp only [decide_eq_true hdepth, decide_eq_true hdepth', decide_eq_true hwidth, decide_eq_true hwidth', hslot, Bool.and_true]
  exact hword

/-- The entry that a `mseal` makes: sealing, the copies before it still to come. -/
def SeqCtx.sealing (x : SeqCtx) (s : State) (h : Hdr) (c : CBody) : Region where
  st := 1
  owner := hiveTeamSlot x.ix
  gen := x.t.gen
  first := c.cmod.toNat % 256
  depth := bitsOf c.cmod.toNat 15 8
  width := bitsOf c.cmod.toNat 23 16
  slot := h.fs.toNat
  refill := c.acc.getLsbD 0
  scale := (x.k c.vreg.toNat).toNat
  before := (s.copyOps.filter fun o => o.intoTeam s x.ix x.t).map (·.id)
  cells := (x.t.cells.drop (c.cmod.toNat % 256)).take (bitsOf c.cmod.toNat 15 8 * bitsOf c.cmod.toNat 23 16)

theorem execMseal_seals (hx : s.seqAt x) (hok : x.sealOk h c) (hq : x.q.waiting = false) (hc : x.sealCause s.taken h c = none) :
    execMseal h c s = .next ((s.taken.modHive x.hive fun hv => { hv with regions := hv.regions.put c.region.toNat (x.sealing s.taken h c) }).modSeq
      x.ix fun q => { q with waiting := true }) := by
  refine seqIssue_wait hx (mseal_checked hok) ?_
  simp only [hq, hc]
  rfl

theorem execMseal_traps {cause : Nat} (hx : s.seqAt x) (hok : x.sealOk h c) (hq : x.q.waiting = false) (hc : x.sealCause s.taken h c = some cause) :
    execMseal h c s = .next (s.taken.seqTrap x.core x.slot x.pc ⟨cause, 0, 0, none⟩) := by
  refine seqIssue_trap hx (mseal_checked hok) ?_
  simp only [hq, hc]
  rfl

/-- Issued again it completes once the conversion has ended. -/
theorem execMseal_sealed (hx : s.seqAt x) (hok : x.sealOk h c) (hq : x.q.waiting = true)
    (hs : ((s.hive x.hive).regions.find? c.region.toNat).map (·.st) ≠ some 1) : execMseal h c s = .next (seqGoes s.taken x (nextPc x.pc)) := by
  refine seqIssue_done hx (mseal_checked hok) ?_
  rw [if_pos hq]
  exact if_neg (by simpa using hs)

/-! ## Unsealing (R295) -/

/-- The state in which a `munseal` waits for the passes on its cells: the id is free, and the region stands under the team's own key. -/
def SeqCtx.unsealing (x : SeqCtx) (s : State) (id : Nat) (y : Region) (ids : List Nat) : State :=
  (s.modHive x.hive fun hv => { hv with regions := (hv.regions.erase id).put (16 + hiveTeamSlot x.ix) y }).modSeq x.ix fun q =>
    { q with waiting := true, waitOps := ids }

theorem execMunseal_idle {y : Region} (hx : s.seqAt x) (hw : (Instr.munseal h c).wellFormed = true) (hq : x.q.waiting = false)
    (hy : (s.hive x.hive).regions.find? c.region.toNat = some y) (hst : y.st = 2) (hown : y.ownedBy x.ix x.t = true)
    (hp : ∀ p ∈ s.passes x.hive, y.cells.contains p.2.cell = false)
    (hk : ((x.unsealing s.taken c.region.toNat y []).hive x.hive).regions.find? (16 + hiveTeamSlot x.ix) = some y) :
    execMunseal h c s = .next (seqGoes ((x.unsealing s.taken c.region.toNat y []).modHive x.hive fun hv =>
      ({ hv with
        regions := hv.regions.erase (16 + hiveTeamSlot x.ix)
        exps := hv.exps.filter fun e => !y.cells.contains (e.1 / 2048) } : Hive).undefine y.cells) x (nextPc x.pc)) := by
  have hmine : ((s.taken.hive x.hive).regions.find? c.region.toNat).filter (fun r => r.st == 2 && r.ownedBy x.ix x.t) = some y := by
    rw [show (s.taken.hive x.hive).regions.find? c.region.toNat = some y from hy]
    simp [hst, hown]
  have hids : (s.taken.passes x.hive).filter (fun p => y.cells.contains p.2.cell) = [] :=
    List.filter_eq_nil_iff.mpr fun p hp' => Bool.eq_false_iff.mp (hp p hp')
  refine seqIssue_done hx hw ?_
  simp only [hq, hmine, hids, List.map_nil, List.any_nil]
  unfold SeqCtx.unsealing at hk
  simp [hk, SeqCtx.unsealing]

theorem execMunseal_free (hx : s.seqAt x) (hw : (Instr.munseal h c).wellFormed = true) (hq : x.q.waiting = false)
    (hy : (s.hive x.hive).regions.find? c.region.toNat = none) :
    execMunseal h c s = .next (s.taken.seqTrap x.core x.slot x.pc ⟨causeCombSealed, 0, 0, none⟩) := by
  have hy' : (s.taken.hive x.hive).regions.find? c.region.toNat = none := hy
  refine seqIssue_trap hx hw ?_
  simp only [hq, hy', Option.filter_none]
  rfl

theorem execMunseal_waits {i : Nat} (hx : s.seqAt x) (hw : (Instr.munseal h c).wellFormed = true) (hq : x.q.waiting = true) (hi : i ∈ x.q.waitOps)
    (ho : s.taken.postedOpen i = true) : execMunseal h c s = .next s.taken := by
  refine seqIssue_wait hx hw ?_
  rw [if_pos hq]
  exact if_pos (List.any_eq_true.mpr ⟨i, hi, ho⟩)

end

theorem seals : Seals := by
  unfold Seals
  intro s h c x hx id m depth width ok r
  exact ⟨execMseal_seals hx, fun cause => execMseal_traps hx, execMseal_sealed hx,
    fun y hw hq hy hst hown hp => execMunseal_idle hx hw hq hy hst hown hp, execMunseal_free hx,
    fun i hi hw hq ho => execMunseal_waits hx hw hq hi ho⟩

section
variable {s : State} {h : Hdr} {c : CBody} {x : SeqCtx}

/-! ## Fences (R296) -/

/-- A fence that has begun to wait for the operations `ids`. -/
def SeqCtx.fencing (x : SeqCtx) (s : State) (ids : List Nat) : State := s.modSeq x.ix fun q => { q with waiting := true, waitOps := ids }

theorem execMfence_idle (hx : s.seqAt x) (hw : (Instr.mfence h c).wellFormed = true) (hc : c.cmod = 0) (hq : x.q.waiting = false)
    (hn : s.postedNone x.ix = true) : execMfence h c s = .next (seqGoes (x.fencing s.taken []) x (nextPc x.pc)) := by
  have hids : s.taken.posted.filter (fun p => p.2.team == x.ix) = [] := State.postedBy_of_none hn
  refine seqIssue_done hx hw ?_
  simp only [hq, hc, hids]
  rfl

/-- A fence of its own operations waits while any of them is posted. -/
theorem execMfence_waits (hx : s.seqAt x) (hw : (Instr.mfence h c).wellFormed = true) (hc : c.cmod = 0) (hq : x.q.waiting = false)
    (hp : ∃ p ∈ s.posted, p.2.team = x.ix) :
    execMfence h c s = .next (x.fencing s.taken ((s.posted.filter fun p => p.2.team == x.ix).map (·.1))) := by
  obtain ⟨p, hmem, hteam⟩ := hp
  have hopen : s.taken.postedOpen p.1 = true := State.postedOpen_of_mem hmem
  have hwaits : p.1 ∈ (s.posted.filter fun p => p.2.team == x.ix).map (·.1) :=
    List.mem_map_of_mem (List.mem_filter.mpr ⟨hmem, beq_iff_eq.mpr hteam⟩)
  refine seqIssue_wait hx hw ?_
  simp only [hq, hc]
  exact if_pos (List.any_eq_true.mpr ⟨p.1, hwaits, by rw [hopen]; rfl⟩)

/-- Under RGN a free region names no copies, so only passes hold the fence. -/
theorem execMfence_freeRegion (hx : s.seqAt x) (hw : (Instr.mfence h c).wellFormed = true) (hc : c.cmod = 1) (hq : x.q.waiting = false)
    (hr : (s.hive x.hive).regions.find? c.region.toNat = none) (hp : s.passes x.hive = []) :
    execMfence h c s = .next (seqGoes (x.fencing s.taken []) x (nextPc x.pc)) := by
  have hr' : (s.taken.hive x.hive).regions.find? c.region.toNat = none := hr
  have hp' : s.taken.passes x.hive = [] := hp
  refine seqIssue_done hx hw ?_
  simp only [hq, hc, hr', hp']
  rfl

/-! ## Multiply-accumulate (R297, R298) -/

/-- The registers of an `mmac`. -/
def SeqCtx.mmacReg (x : SeqCtx) (c : CBody) : Nat := x.vreg c.vreg (c.cmod.getLsbD 19) (bitsOf c.cmod.toNat 18 16)

/-- An `mmac` whose fields pass their checks: a format that passes take, whole cells of registers, and names in use. -/
def SeqCtx.mmacOk (x : SeqCtx) (h : Hdr) (c : CBody) : Prop :=
  (Instr.mmac h c).wellFormed = true ∧ slotOk (x.fmt h) [3, 4, 5, 6] = true ∧ c.count.toNat % regsPerCell (x.kind h) = 0 ∧ c.acc.toNat < x.g.lr.accs ∧
    x.regsOk c.warp (x.mmacReg c) c.count.toNat = true

theorem mmac_checked (hok : x.mmacOk h c) :
    (seqHdr h true true && c.zeroBut true true true true true 0xFFFFF && decide (c.region.toNat < 16) && decide (1 ≤ c.count.toNat) &&
      slotOk (x.fmt h) [3, 4, 5, 6] && c.count.toNat % regsPerCell (x.kind h) == 0 && x.accOk c.acc && x.regsOk c.warp (x.mmacReg c) c.count.toNat) = true := by
  obtain ⟨hword, hslot, hcells, hacc, hregs⟩ := hok
  have hname : x.accOk c.acc = true := decide_eq_true hacc
  simp only [hslot, hcells, hname, hregs, beq_self_eq_true, Bool.and_true]
  exact hword

theorem execMmac_unsealed (hx : s.seqAt x) (hok : x.mmacOk h c) (hr : x.region s.taken c.region.toNat = none) :
    execMmac h c s = .next (s.taken.seqTrap x.core x.slot x.pc ⟨causeCombSealed, 0, 0, none⟩) := by
  refine seqIssue_trap hx (mmac_checked hok) ?_
  simp only [hr]

/-- An `mmac` waits for room in the MATRIX counter of its warp and, unless its slab is in the latch, for the results pending on its registers. -/
def SeqCtx.mmacHeld (x : SeqCtx) (c : CBody) (s : State) : Bool :=
  !x.room s c.warp || ((x.latched c.warp (x.mmacReg c) c.count.toNat).isNone && s.regsPending x.core (x.slotOf c.warp) (x.mmacReg c) c.count.toNat)

theorem SeqCtx.mmacHeld_of_in (hroom : x.room s c.warp = true)
    (hin : (x.latched c.warp (x.mmacReg c) c.count.toNat).isSome = true ∨
      s.regsPending x.core (x.slotOf c.warp) (x.mmacReg c) c.count.toNat = false) : x.mmacHeld c s = false := by
  unfold SeqCtx.mmacHeld
  rcases hin with hlatched | hdone
  · rw [hroom, ← Option.not_isSome, hlatched]
    rfl
  · rw [hroom, hdone, Bool.and_false]
    rfl

/-- Pass `j` of an `mmac` over region `r`, from slab `slab`. -/
def SeqCtx.mmacPass (x : SeqCtx) (h : Hdr) (c : CBody) (r : Region) (slab j : Nat) : Pass :=
  let wkind := (x.g.lr.fmt.getD r.slot 0).toNat % 256
  { hive := x.hive
    cell := r.cells.getD (c.cmod.toNat % 256 * r.depth + bitsOf c.cmod.toNat 15 8 + j) 0
    tile0 := x.tile c.acc.toNat
    tile1 := if 8 ≤ wkind then some (x.tile (c.acc.toNat + 1)) else none
    akind := x.kind h
    wkind := wkind
    slab := slab
    part := j * regsPerCell (x.kind h)
    granted := false
    age := 0
    prio := x.g.lr.priority
    old := none }

/-- The slab taken, the latch set, and one pass posted per cell. -/
def SeqCtx.mmacPosts (x : SeqCtx) (h : Hdr) (c : CBody) (r : Region) (s : State) : State :=
  let sl := x.slab (s.unstall x.producer) c.warp (x.mmacReg c) c.count.toNat
  ((sl.2.modTeam x.ix fun t =>
    { t with latch := if h.reu then some ⟨c.warp.toNat, x.mmacReg c, c.count.toNat, sl.1⟩ else none }).each
      (List.range (c.count.toNat / regsPerCell (x.kind h))) fun s j => (s.post x.ix (.pass (x.mmacPass h c r sl.1 j))).2).pruneSlabs

/-- An `mmac` of its own team's region within its limits, with its registers in and room for its passes in its turn. -/
theorem execMmac_posts {r : Region} (hx : s.seqAt x) (hok : x.mmacOk h c) (hr : x.region s.taken c.region.toNat = some (r, x.ix))
    (hdepth : bitsOf c.cmod.toNat 15 8 + c.count.toNat / regsPerCell (x.kind h) ≤ r.depth) (hwidth : c.cmod.toNat % 256 < r.width)
    (hpair : 8 ≤ (x.g.lr.fmt.getD r.slot 0).toNat % 256 → c.acc.toNat + 1 < x.g.lr.accs) (hroom : x.room s.taken c.warp = true)
    (hpasses : (s.passes x.hive).length + c.count.toNat / regsPerCell (x.kind h) ≤ 64) (hteam : (s.team? x.ix).isSome = true)
    (hin : (x.latched c.warp (x.mmacReg c) c.count.toNat).isSome = true ∨
      s.taken.regsPending x.core (x.slotOf c.warp) (x.mmacReg c) c.count.toNat = false)
    (hturn : s.taken.firstAt x.producer = true) : execMmac h c s = .next (seqGoes (x.mmacPosts h c r s.taken) x (nextPc x.pc)) := by
  refine seqIssue_done hx (mmac_checked hok) ?_
  have hteam' : ((s.taken.unstall x.producer).team? x.ix).isNone = false := by rw [← Option.not_isSome]; exact congrArg (!·) hteam
  simp only [hr]
  rw [if_neg ?limits, if_neg ?pending, if_neg ?full]
  case limits =>
    simpa only [Bool.or_eq_true, Bool.and_eq_true, decide_eq_true_eq, not_or, not_and, not_lt, not_le] using ⟨⟨hdepth, hwidth⟩, hpair⟩
  case pending => exact Bool.eq_false_iff.mp (SeqCtx.mmacHeld_of_in hroom hin)
  case full =>
    rw [hturn, Bool.not_true, Bool.or_false, decide_eq_true_eq]
    exact Nat.not_lt.mpr hpasses
  simp only [bne_self_eq_false, Bool.false_and, Bool.false_eq_true, if_false, hteam', decide_eq_true_eq]
  rfl

end

theorem fencesAndPasses : FencesAndPasses := by
  unfold FencesAndPasses
  intro s h c x hx v akind per n ncol kcell
  exact ⟨execMfence_idle hx, execMfence_waits hx, fun hw hc _ => execMfence_freeRegion hx hw hc,
    fun r hw hf hn ha hv hr hd hl hpair => execMmac_posts hx ⟨hw, hf, hn, ha, hv⟩ hr hd hl hpair,
    fun hw hf hn ha hv => execMmac_unsealed hx ⟨hw, hf, hn, ha, hv⟩⟩

/-- Settles O29, instruction by instruction. -/
theorem regionsAndPasses : Obligations.RegionsAndPasses := ⟨seals, fencesAndPasses⟩

end Sys2Proof.Machine
end

section
/-! SUPPORT. The events of pre-emption and of replay: the save and the return of teams, the boundary of a quantum, the count stop (18 R380, R381;
20 R414, R416). -/

namespace Sys2Proof.Machine

open Sys2Proof.Claims

/-! ## Save and restore (R380, R381) -/

section
variable {s : State} {ctx : Nat} {c : Context}

/-- A context that is not halting is not saved. -/
theorem execContextSave_notHalting (hc : s.ctx? ctx = some c) (hst : c.st ≠ .halting) : execContextSave ctx s = .next s := by
  unfold execContextSave
  simp only [hc]
  rw [if_pos (by simp [hst])]

/-- A context with a barrier at its limit is not saved: the barrier fires first (R375). -/
theorem execContextSave_expired (hc : s.ctx? ctx = some c) (hb : s.expiredBars ctx ≠ []) : execContextSave ctx s = .next s := by
  unfold execContextSave
  simp only [hc]
  rw [if_pos (by simp [hb])]

/-- The teams of a halting context saved, its ranges returned. -/
def State.savedCtx (s : State) (ctx : Nat) (c : Context) : State :=
  ((s.each (s.teamsOf ctx) fun s kt => match s.team? kt.1 with
    | some t => s.saveTeam ctx c.eager kt.1 t
    | none => s).returnOfCtx ctx c.vf).modCtx ctx fun c => { c with st := .saved, saveCounter := none }

/-- With nothing in flight the teams are saved, and the counter of the request, if it names one, gains 1. -/
theorem execContextSave_ready (hc : s.ctx? ctx = some c) (hst : c.st = .halting) (hr : s.saveReady ctx = true) (hb : s.expiredBars ctx = []) :
    execContextSave ctx s = .next (match c.saveCounter with
      | some (fn, a) => (s.savedCtx ctx c).counterUpdate ⟨ctx, fn, a, true, false, (s.savedCtx ctx c).nextId, .add 1, noParty⟩
      | none => s.savedCtx ctx c) := by
  unfold execContextSave
  simp only [hc]
  rw [if_neg (by simp [hst, hr, hb])]
  rfl

variable {p : Partition} {g : Grid} {v : SavedTeam} {index : Nat}

/-- What `TEAM_RESTORE` comes to is what its place comes to. -/
theorem execTeamRestore_of_saved (hc : s.ctx? ctx = some c) (hv : c.saved[index]? = some v) (hp : s.part? c.vf = some p)
    (hg : s.grid? v.team.grid = some g) : execTeamRestore ctx index s = .next (match s.restoreFit c p g v with
      | none => s
      | some (slot, slots, cells) => (s.restoreTeam v g slot slots cells).modCtx ctx fun c =>
          { c with saved := c.saved.filter fun y => y.team.born != v.team.born }) := by
  unfold execTeamRestore
  simp only [hc, Option.bind_some, hv, Option.map_some, hp, hg]
  cases s.restoreFit c p g v <;> rfl

end

theorem saveAndRestore : SaveAndRestore := by
  unfold SaveAndRestore
  intro s ctx index slot c p g v slots cells hc t
  refine ⟨fun hst hr hb => ⟨fun hn => ?_, fun fn a hn => ?_⟩, execContextSave_expired hc, execContextSave_notHalting hc,
    fun hv hp hg => ⟨fun hf => ?_, fun hf => ?_⟩⟩
  · exact (execContextSave_ready hc hst hr hb).trans (by rw [hn]; rfl)
  · exact (execContextSave_ready hc hst hr hb).trans (by rw [hn]; rfl)
  · exact (execTeamRestore_of_saved hc hv hp hg).trans (by rw [hf])
  · exact (execTeamRestore_of_saved hc hv hp hg).trans (by rw [hf])

/-! ## The boundary of a quantum (R414) -/

/-- The held stores of a partition in order, with the host's writes on both sides of them, or first or last. -/
def State.boundaryWrites (s : State) (vf : Nat) (first both : Bool) : State :=
  let s := if first || both then s.applyHostHeld vf true else s
  let s := s.each (s.heldStores fun x => x.vf == vf) State.applyHeld
  if first && !both then s else s.applyHostHeld vf false

theorem State.boundaryWrites_both (s : State) (vf : Nat) (first : Bool) : s.boundaryWrites vf first true =
    ((s.applyHostHeld vf true).each ((s.applyHostHeld vf true).heldStores fun x => x.vf == vf) State.applyHeld).applyHostHeld vf false := by
  cases first <;> rfl

theorem State.boundaryWrites_one (s : State) (vf : Nat) (first : Bool) :
    s.boundaryWrites vf first false = (s.applyHostHeld vf true).each ((s.applyHostHeld vf true).heldStores fun x => x.vf == vf) State.applyHeld ∨
      s.boundaryWrites vf first false = (s.each (s.heldStores fun x => x.vf == vf) State.applyHeld).applyHostHeld vf false := by
  cases first
  case true => exact .inl rfl
  case false => exact .inr rfl

theorem execQuantumBoundary_unreplayed {s : State} {vf : Nat} (h : s.replays vf = false) : execQuantumBoundary vf s = .next s := by
  unfold execQuantumBoundary
  rw [if_pos (by simp [h])]

/-- A boundary writes first what the open choice names first, and on both sides in a re-execution that has still to catch up (R352). -/
theorem execQuantumBoundary_reached {s : State} {vf : Nat} (hr : s.replays vf = true) (he : s.partiesEnded vf none = true) (hw : s.workOpen vf = false)
    (hs : s.stopDue vf = false) (hk : s.stacksClosed vf = false) :
    let u := (s.pick 2).2.boundaryWrites vf (decide ((s.pick 2).1 = 0)) (s.catchesUp vf)
    execQuantumBoundary vf s = .next { u with agenda := u.boundaryTurns vf ++ u.agenda } :=
  if_neg (by simp [hr, he, hw, hs, hk])

/-! ## The count stop (R416) -/

/-- A warp that has reached its unit's count, with every other party at the end of its quantum where the partition replays, stops its context. -/
theorem execCountStop_reached {s : State} {vf unit : Nat} {w : Warp} (hu : s.unitVf unit = some vf) (hw : s.namedWarp vf unit = some w)
    (hs : s.stopUnit (s.unit unit).core (s.unit unit).wslot w = some unit) (hl : s.ctxLive (s.ctxIdOfTeam w.team) = true)
    (he : s.replays vf = true → s.partiesEnded vf (some ((s.unit unit).core, (s.unit unit).wslot)) = true) : execCountStop unit s =
      .next (((s.modUnit unit fun x => { x with arm := false }).modPart vf fun p => { p with reexec := false }).stopAt unit vf (s.unit unit).core
        (s.ctxIdOfTeam w.team) w.workcnt) := by
  have hended : (s.replays vf && !s.partiesEnded vf (some ((s.unit unit).core, (s.unit unit).wslot))) = false := by
    cases hr : s.replays vf with
    | false => rfl
    | true => rw [he hr]; rfl
  unfold execCountStop
  simp only [hu, hw, hs, hl, hended]
  rw [if_neg (by simp)]

theorem replayEvents : ReplayEvents := by
  unfold ReplayEvents
  intro s vf unit w hs s0 first
  refine ⟨fun hr he hw hd hk => ⟨_, fun hc => ?again, fun hc => ?once, execQuantumBoundary_reached hr he hw hd hk⟩, execQuantumBoundary_unreplayed,
    execCountStop_reached⟩
  case again =>
    rw [hc]
    exact State.boundaryWrites_both s0 vf _
  case once =>
    rw [hc]
    exact State.boundaryWrites_one s0 vf _

/-- Settles O40, event by event. -/
theorem saveAndReplay : Obligations.SaveAndReplay := ⟨saveAndRestore, replayEvents⟩

end Sys2Proof.Machine
end

section
/-! SUPPORT. Canonical memory through effects, answers and outcomes: what `State.memOk` says of every state that such a value holds. -/

namespace Sys2Proof.Machine

/-! ## The states that a value holds -/

/-- What goes on does so with canonical memory. -/
def NextMemOk : Host.Outcome State Fault Refusal → Prop
  | .next s => s.memOk = true
  | _ => True

/-- Every state that an effect of a fragment's instruction holds has canonical memory; what is to follow it keeps that. -/
def Eff.MemOk : Eff → Prop
  | .trap _ => True
  | .done s => s.memOk = true
  | .jump s _ _ _ _ => s.memOk = true
  | .goto s _ => s.memOk = true
  | .stand s _ => s.memOk = true
  | .after s f => s.memOk = true ∧ ∀ u, u.memOk = true → (f u).memOk = true
  | .wait s _ => s.memOk = true
  | .stall s => s.memOk = true
  | .stop s => s.memOk = true

/-- The same of an effect of a sequencer's instruction. -/
def SeqEff.MemOk : SeqEff → Prop
  | .trap _ _ => True
  | .done s => s.memOk = true
  | .goto s _ => s.memOk = true
  | .wait s => s.memOk = true
  | .ended s => s.memOk = true

/-- The same of an effect of a stove thread's operation. -/
def StoveEff.MemOk : StoveEff → Prop
  | .done s _ => s.memOk = true
  | .hold s => s.memOk = true
  | .doneSuspend s _ => s.memOk = true
  | _ => True

/-- The same of an answer to a mailbox command. -/
def Answer.MemOk : Answer → Prop
  | .fail s _ => s.memOk = true
  | .ok s _ => s.memOk = true
  | .pending s => s.memOk = true

/-- The same of the reply to a load. -/
def Reply.MemOk : Reply → Prop
  | .wait s => s.memOk = true
  | .denied _ _ _ => True
  | .poison s _ => s.memOk = true
  | .data s _ => s.memOk = true

/-- The state, if there is one, has canonical memory. -/
def SomeMemOk : Option State → Prop
  | some s => s.memOk = true
  | none => True

/-- Memory is canonical in the state that has passed the buckets, or that a bucket holds. -/
def BothMemOk : Except State State → Prop
  | .ok s => s.memOk = true
  | .error s => s.memOk = true

/-- A state that differs from `s` outside its memories keeps them canonical. -/
theorem State.memOk_with {s t : State} (h : s.memOk = true) (hmem : t.mem = s.mem) (hhost : t.hostMem = s.hostMem) (hsynd : t.synd = s.synd)
    (helide : t.elision = s.elision) : t.memOk = true := by
  rw [State.memOk_iff] at *
  rwa [hmem, hhost, hsynd, helide]

/-! ## Conditionals and sources -/

theorem State.memOk_ite {c : Prop} {_ : Decidable c} {s t : State} (hs : s.memOk = true) (ht : t.memOk = true)
    : (if c then s else t).memOk = true := by
  split <;> assumption

theorem Eff.memOk_ite {c : Prop} {_ : Decidable c} {a b : Eff} (ha : a.MemOk) (hb : b.MemOk) : (if c then a else b).MemOk := by
  split <;> assumption

theorem SeqEff.memOk_ite {c : Prop} {_ : Decidable c} {a b : SeqEff} (ha : a.MemOk) (hb : b.MemOk) : (if c then a else b).MemOk := by
  split <;> assumption

theorem StoveEff.memOk_ite {c : Prop} {_ : Decidable c} {a b : StoveEff} (ha : a.MemOk) (hb : b.MemOk) : (if c then a else b).MemOk := by
  split <;> assumption

theorem Answer.memOk_ite {c : Prop} {_ : Decidable c} {a b : Answer} (ha : a.MemOk) (hb : b.MemOk) : (if c then a else b).MemOk := by
  split <;> assumption

theorem Reply.memOk_ite {c : Prop} {_ : Decidable c} {a b : Reply} (ha : a.MemOk) (hb : b.MemOk) : (if c then a else b).MemOk := by
  split <;> assumption

theorem nextMemOk_ite {c : Prop} {_ : Decidable c} {a b : Host.Outcome State Fault Refusal} (ha : NextMemOk a) (hb : NextMemOk b)
    : NextMemOk (if c then a else b) := by
  split <;> assumption

theorem someMemOk_ite {c : Prop} {_ : Decidable c} {a b : Option State} (ha : SomeMemOk a) (hb : SomeMemOk b)
    : SomeMemOk (if c then a else b) := by
  split <;> assumption

theorem bothMemOk_ite {c : Prop} {_ : Decidable c} {a b : Except State State} (ha : BothMemOk a) (hb : BothMemOk b)
    : BothMemOk (if c then a else b) := by
  split <;> assumption

theorem State.memOk_of_snd {α : Type} {p : α × State} {a : α} {s : State} (h : p.2.memOk = true) (e : p = (a, s)) : s.memOk = true := by
  subst e; exact h

theorem State.memOk_of_fst {α : Type} {p : State × α} {a : α} {s : State} (h : p.1.memOk = true) (e : p = (s, a)) : s.memOk = true := by
  subst e; exact h

theorem State.memOk_of_some {p : Option State} {s : State} (h : SomeMemOk p) (e : p = some s) : s.memOk = true := by
  subst e; exact h

theorem State.memOk_of_ok {p : Except State State} {s : State} (h : BothMemOk p) (e : p = .ok s) : s.memOk = true := by
  subst e; exact h

theorem State.memOk_of_error {p : Except State State} {s : State} (h : BothMemOk p) (e : p = .error s) : s.memOk = true := by
  subst e; exact h

/-! ## Folds -/

theorem State.memOk_foldl {α : Type} {s : State} {l : List α} {f : State → α → State}
    (hf : ∀ (s : State) (a : α), s.memOk = true → (f s a).memOk = true) (h : s.memOk = true) : (l.foldl f s).memOk = true := State.memOk_each hf h

theorem State.memOk_foldFst {α β : Type} (f : State × β → α → State × β)
    (hf : ∀ (acc : State × β) (a : α), acc.1.memOk = true → (f acc a).1.memOk = true)
    (l : List α) (acc : State × β) (h : acc.1.memOk = true) : (l.foldl f acc).1.memOk = true := by
  induction l generalizing acc with
  | nil => exact h
  | cons a l ih => exact ih _ (hf acc a h)

theorem State.memOk_foldThird {α β γ : Type} (f : β × γ × State → α → β × γ × State)
    (hf : ∀ (acc : β × γ × State) (a : α), acc.2.2.memOk = true → (f acc a).2.2.memOk = true)
    (l : List α) (acc : β × γ × State) (h : acc.2.2.memOk = true) : (l.foldl f acc).2.2.memOk = true := by
  induction l generalizing acc with
  | nil => exact h
  | cons a l ih => exact ih _ (hf acc a h)

theorem someMemOk_foldl {α : Type} (f : Option State → α → Option State)
    (hf : ∀ (acc : Option State) (a : α), SomeMemOk acc → SomeMemOk (f acc a)) (l : List α) (acc : Option State) (h : SomeMemOk acc) : SomeMemOk (l.foldl f acc) := by
  induction l generalizing acc with
  | nil => exact h
  | cons a l ih => exact ih _ (hf acc a h)

theorem someMemOk_bind {o : Option State} {f : State → Option State} (hf : ∀ s, s.memOk = true → SomeMemOk (f s)) (h : SomeMemOk o)
    : SomeMemOk (o.bind f) := by
  cases o with
  | none => trivial
  | some s => exact hf s h

theorem someMemOk_map {o : Option State} {f : State → State} (hf : ∀ s, s.memOk = true → (f s).memOk = true) (h : SomeMemOk o)
    : SomeMemOk (o.map f) := by
  cases o with
  | none => trivial
  | some s => exact hf s h

theorem someMemOk_getD {o : Option State} {s : State} (h : SomeMemOk o) (hs : s.memOk = true) : (o.getD s).memOk = true := by
  cases o with
  | none => exact hs
  | some t => exact h

theorem someMemOk_foldlM {α : Type} {f : State → α → Option State} (hf : ∀ (s : State) (a : α), s.memOk = true → SomeMemOk (f s a))
    {l : List α} {s : State} (h : s.memOk = true) : SomeMemOk (l.foldlM f s) := by
  induction l generalizing s with
  | nil => exact h
  | cons a l ih =>
    rw [List.foldlM_cons]
    exact someMemOk_bind (fun _ hs => ih hs) (hf s a h)

theorem Memory.wf_foldl {α : Type} {f : List Host.Cell → α → List Host.Cell} (hf : ∀ m a, Memory.wf m = true → Memory.wf (f m a) = true)
    {l : List α} {m : List Host.Cell} (h : Memory.wf m = true) : Memory.wf (l.foldl f m) = true := by
  induction l generalizing m with
  | nil => exact h
  | cons a l ih => exact ih (hf m a h)

/-- A state that differs from `s` outside its memories and in entries of the elision table. -/
theorem State.memOk_putElisions {s t : State} (rows : List Nat) (x : Word) (hs : s.memOk = true) (hmem : t.mem = s.mem)
    (hhost : t.hostMem = s.hostMem) (hsynd : t.synd = s.synd) (helide : t.elision = rows.foldl (fun (e : Tab Word) r => e.put r x) s.elision) : t.memOk = true := by
  rw [State.memOk_iff] at *
  obtain ⟨h1, h2, h3, h4⟩ := hs
  rw [hmem, hhost, hsynd, helide]
  refine ⟨h1, h2, h3, ?_⟩
  clear helide
  generalize s.elision = e at h4 ⊢
  induction rows generalizing e with
  | nil => exact h4
  | cons r rows ih => exact ih _ (Tab.sortedFrom_put _ _ h4 (Nat.zero_le _))

theorem Answer.MemOk.of_eq {a b : Answer} (h : a.MemOk) (e : a = b) : b.MemOk := e ▸ h

theorem Reply.MemOk.of_eq {a b : Reply} (h : a.MemOk) (e : a = b) : b.MemOk := e ▸ h

theorem NextMemOk.of_eq {a b : Host.Outcome State Fault Refusal} (h : NextMemOk a) (e : a = b) : NextMemOk b := e ▸ h

/-- The host's write to device memory, word by word at its home; `State.memOk_hostWrite` is of host memory. -/
theorem State.memOk_hostWrites {s : State} (hm : s.memOk = true) {pa : Nat} {bytes : List Byte} : (s.hostWrite pa bytes).memOk = true := by
  unfold State.hostWrite
  exact State.memOk_serveWrites _ (State.memOk_flushBias _ _ (State.memOk_each (fun _ _ hu =>
    (State.sameMem_writeThrough _ _).memOk (State.memOk_homeWriteLogged _ _ _ _ _ _ _ hu)) hm))

end Sys2Proof.Machine
end

section
/-! SUPPORT. Every operation of the machine keeps memory canonical (03 R74, R97): one lemma per function of the model, in the order of its files.
Only the words' own writers touch `mem`, `hostMem`, `synd` and `elision`; every other function hands its memories on. -/

namespace Sys2Proof.Machine

variable {s : State} (hm : s.memOk = true)
include hm

/-! ## Numbers, choices and sequencers -/

theorem State.memOk_setCore {c : Nat} {x : Core} : (s.setCore c x).memOk = true := by
  unfold State.setCore
  exact hm

theorem State.memOk_modCore {c : Nat} {f : Core → Core} : (s.modCore c f).memOk = true := by
  unfold State.modCore
  exact State.memOk_setCore hm

theorem State.memOk_setHive {h : Nat} {x : Hive} : (s.setHive h x).memOk = true := by
  unfold State.setHive
  exact hm

theorem State.memOk_modHive {h : Nat} {f : Hive → Hive} : (s.modHive h f).memOk = true := by
  unfold State.modHive
  exact State.memOk_setHive hm

theorem State.memOk_setWarp {core slot : Nat} {w : Warp} : (s.setWarp core slot w).memOk = true := by
  unfold State.setWarp
  exact hm

theorem State.memOk_modWarp {core slot : Nat} {f : Warp → Warp} : (s.modWarp core slot f).memOk = true := by
  unfold State.modWarp
  exact hm

theorem State.memOk_modTeam {ix : Nat} {f : Team → Team} : (s.modTeam ix f).memOk = true := by
  unfold State.modTeam
  exact hm

theorem State.memOk_modGrid {g : Nat} {f : Grid → Grid} : (s.modGrid g f).memOk = true := by
  unfold State.modGrid
  exact hm

theorem State.memOk_modCtx {c : Nat} {f : Context → Context} : (s.modCtx c f).memOk = true := by
  unfold State.modCtx
  exact hm

theorem State.memOk_modPart {vf : Nat} {f : Partition → Partition} : (s.modPart vf f).memOk = true := by
  unfold State.modPart
  exact hm

theorem State.memOk_modHearth {k : Nat} {f : Hearth → Hearth} : (s.modHearth k f).memOk = true := by
  unfold State.modHearth
  exact hm

theorem State.memOk_setStove {k : Nat} {x : Stove} : (s.setStove k x).memOk = true := by
  unfold State.setStove
  exact hm

theorem State.memOk_modMailbox {fn : Nat} {f : Mailbox → Mailbox} : (s.modMailbox fn f).memOk = true := by
  unfold State.modMailbox
  exact hm

theorem State.memOk_modUnit {u : Nat} {f : TraceUnit → TraceUnit} : (s.modUnit u f).memOk = true := by
  unfold State.modUnit
  exact hm

theorem State.memOk_modTile {core k : Nat} {f : Tile → Tile} : (s.modTile core k f).memOk = true := by
  unfold State.modTile
  exact State.memOk_modCore hm

theorem State.memOk_fresh : s.fresh.2.memOk = true := by
  unfold State.fresh
  exact hm

theorem State.memOk_pick {n : Nat} : (s.pick n).2.memOk = true := by
  unfold State.pick
  exact hm

theorem State.memOk_openWord : s.openWord.2.memOk = true := by
  unfold State.openWord
  exact hm

theorem State.memOk_countEvent {kind index code : Nat} : (s.countEvent kind index code).memOk = true := by
  unfold State.countEvent
  extract_lets +onlyGivenNames k
  exact hm

theorem State.memOk_countPerf {vf code : Nat} : (s.countPerf vf code).memOk = true := by
  unfold State.countPerf
  exact hm

/-! ## The memory system -/

theorem State.memOk_markL2 {frame hint : Nat} : (s.markL2 frame hint).memOk = true := by
  unfold State.markL2
  exact hm

theorem State.memOk_migrateRun {pa n : Nat} : (s.migrateRun pa n).memOk = true := by
  unfold State.migrateRun
  exact State.memOk_each (fun _ _ hu => State.memOk_migrate _ hu) hm

theorem State.memOk_openFill {pa n : Nat} : (s.openFill pa n).memOk = true := by
  unfold State.openFill
  extract_lets +onlyGivenNames s1 ours
  have m1 : s1.memOk = true := State.memOk_each (fun _ _ hu => State.memOk_materialise _ hu) hm
  clear_value s1
  obtain ⟨hmem, hhost, hsynd, helide⟩ := State.memOk_iff.1 m1
  exact State.memOk_iff.2 ⟨Memory.wf_foldl (fun _ _ h => Memory.wf_writeN _ _ h) hmem, hhost, Tab.sortedFrom_filter _ hsynd, helide⟩

theorem State.memOk_fillTlb {core : Nat} {t : Trans} : (s.fillTlb core t).memOk = true := by
  unfold State.fillTlb
  extract_lets +onlyGivenNames s1
  have m1 : s1.memOk = true := State.memOk_modCore hm
  exact State.memOk_with m1 rfl rfl rfl rfl

theorem State.memOk_translate {core ctx : Nat} {va : DWord} : (s.translate core ctx va).2.memOk = true := by
  unfold State.translate
  split
  · exact hm
  · split
    · exact hm
    · split
      · exact State.memOk_modCore hm
      · extract_lets +onlyGivenNames s1
        have m1 : s1.memOk = true := State.memOk_walked _ _ _ hm
        split
        · exact State.memOk_fillTlb m1
        · exact m1

theorem State.memOk_resolve {core ctx : Nat} {va : DWord} {kind : AccessKind} : (s.resolve core ctx va kind).2.memOk = true := by
  unfold State.resolve
  split
  · exact State.memOk_of_snd (State.memOk_translate hm) ‹_›
  · exact State.memOk_of_snd (State.memOk_translate hm) ‹_›

theorem State.memOk_resolveParts {core ctx : Nat} {parts : List (Nat × Nat)} {kind : AccessKind}
    : (s.resolveParts core ctx parts kind).2.memOk = true := by
  unfold State.resolveParts
  refine State.memOk_fold _ ?_ _ _ hm
  intro acc1 p1 hu
  extract_lets +onlyGivenNames r
  split <;> exact State.memOk_resolve hu

theorem State.memOk_readVirt {die ctx vf : Nat} {va : DWord} {n : Nat} {kind : AccessKind} : (s.readVirt die ctx vf va n kind).2.memOk = true
    := by
  unfold State.readVirt
  refine State.memOk_fold _ ?_ _ _ hm
  intro acc1 p1 hu
  split
  · exact hu
  · extract_lets +onlyGivenNames s1 s2
    have m2 : s2.memOk = true := State.memOk_walked _ _ _ hu
    split
    · exact m2
    · split
      · exact m2
      · extract_lets +onlyGivenNames s3
        have m3 : s3.memOk = true := State.memOk_touchRun _ _ _ (State.memOk_ite (State.memOk_bringSync _ _ _ m2) m2)
        split <;> exact m3

theorem State.memOk_l1Room {core frame : Nat} : SomeMemOk (s.l1Room core frame) := by
  unfold State.l1Room
  extract_lets +onlyGivenNames c l
  refine someMemOk_ite hm ?_
  split
  · exact trivial
  · exact State.memOk_modCore (State.memOk_pick hm)

theorem State.memOk_markFrame {core frame hint : Nat} : (s.markFrame core frame hint).memOk = true := by
  unfold State.markFrame
  exact State.memOk_modCore hm

theorem State.memOk_l1Fill {core wa hint : Nat} : (s.l1Fill core wa hint).memOk = true := by
  unfold State.l1Fill
  split
  · exact hm
  · rename_i t e
    have mt : t.memOk = true := State.memOk_of_some (State.memOk_l1Room hm) ‹_›
    exact State.memOk_modCore (State.memOk_markFrame mt)

theorem State.memOk_l1Store {core wa : Nat} {d : Word} {mask : BitVec 4} {rel : List RelInfo} : (s.l1Store core wa d mask rel).memOk = true := by
  unfold State.l1Store
  exact State.memOk_modCore hm

theorem State.memOk_acquireL1 {core : Nat} {t : DWord} : (s.acquireL1 core t).memOk = true := by
  unfold State.acquireL1
  exact State.memOk_modCore hm

theorem State.memOk_touchL1 {vf core wa : Nat} : (s.touchL1 vf core wa).memOk = true := by
  unfold State.touchL1
  split
  · exact hm
  · exact State.memOk_ite hm (State.memOk_modCore (State.memOk_ite ((State.sameMem_countRes _ _ _ _ _).memOk hm) hm))

theorem State.memOk_pastL1 {core : Nat} {was : List Nat} : (s.pastL1 core was).memOk = true := by
  unfold State.pastL1
  exact State.memOk_modCore hm

/-! ## Reports, traces, counters and the ends of warps, teams and contexts -/

theorem State.memOk_atomicWrite8 {vf pa x : Nat} {rel : List RelInfo} : (s.atomicWrite8 vf pa x rel).memOk = true := by
  unfold State.atomicWrite8
  extract_lets +onlyGivenNames s1
  have m1 : s1.memOk = true := State.memOk_migrateRun hm
  exact State.memOk_each (fun _ _ hu => State.memOk_homeWriteLogged _ _ _ _ _ _ _ hu) m1

theorem State.memOk_applyCounter {q : CounterReq} : (s.applyCounter q).memOk = true := by
  unfold State.applyCounter
  split
  · exact State.memOk_putRecord _ _ hm
  · extract_lets +onlyGivenNames s1
    have m1 : s1.memOk = true := State.memOk_ite hm (State.memOk_walked _ _ _ hm)
    split
    · exact State.memOk_log _ _ _ _ _ _ _ m1
    · exact State.memOk_logPhys _ _ _ _ _ _ _ (State.memOk_touchRun _ _ _ m1)
    · extract_lets +onlyGivenNames pa s2
      have m2 : s2.memOk = true := State.memOk_touchRun _ _ _ (State.memOk_ite (State.memOk_bringSync _ _ _ m1) m1)
      split
      · exact State.memOk_atomicWrite8 m2
      · exact State.memOk_atomicWrite8 m2
      · exact State.memOk_atomicWrite8 m2
      · exact m2

theorem State.memOk_counterUpdate {q : CounterReq} : (s.counterUpdate q).memOk = true := by
  unfold State.counterUpdate
  refine State.memOk_ite ?_ (State.memOk_applyCounter hm)
  exact hm

theorem State.memOk_drainEngine : s.drainEngine.memOk = true := by
  unfold State.drainEngine
  refine State.memOk_foldl (fun _ _ hu => State.memOk_counterUpdate hu) ?_
  exact hm

theorem State.memOk_updateOf {ctx vf : Nat} {counter : DWord} {op : CounterOp} {by_ : RelInfo} : (s.updateOf ctx vf counter op by_).memOk = true
    := by
  unfold State.updateOf
  exact State.memOk_counterUpdate hm

theorem State.memOk_endUpdate {ctx vf : Nat} {counter : DWord} {op : CounterOp} {by_ : RelInfo} : (s.endUpdate ctx vf counter op by_).memOk = true
    := by
  unfold State.endUpdate
  extract_lets +onlyGivenNames q
  split
  · exact State.memOk_counterUpdate hm
  · exact State.memOk_counterUpdate (State.memOk_ite (State.memOk_bringSync _ _ _ hm) hm)

theorem State.memOk_ewError {ctx vf : Nat} {counter : DWord} {cause : Nat} {bits : List Nat} : (s.ewError ctx vf counter cause bits).memOk = true
    := by
  unfold State.ewError
  exact State.memOk_updateOf hm

theorem State.memOk_counterAdd {ctx vf : Nat} {counter : DWord} {inc : Nat} {by_ : RelInfo} : (s.counterAdd ctx vf counter inc by_).memOk = true
    := by
  unfold State.counterAdd
  exact State.memOk_updateOf hm

theorem State.memOk_ewKilled {ctx vf : Nat} {counter : DWord} : (s.ewKilled ctx vf counter).memOk = true := by
  unfold State.ewKilled
  exact State.memOk_updateOf hm

theorem State.memOk_ewErrorOn {ctx vf : Nat} {counter : Option DWord} {cause : Nat} {bits : List Nat}
    : (s.ewErrorOn ctx vf counter cause bits).memOk = true := by
  unfold State.ewErrorOn
  split
  · exact hm
  · exact State.memOk_ewError hm

theorem State.memOk_counterAddOn {ctx vf : Nat} {counter : Option DWord} {inc : Nat} {by_ : RelInfo}
    : (s.counterAddOn ctx vf counter inc by_).memOk = true := by
  unfold State.counterAddOn
  split
  · exact hm
  · exact State.memOk_counterAdd hm

theorem State.memOk_signal {fn vec : Nat} : (s.signal fn vec).memOk = true := by
  unfold State.signal
  exact State.memOk_modMailbox hm

theorem State.memOk_logFault {vf core : Nat} {f : FaultInfo} {pc : DWord} : (s.logFault vf core f pc).memOk = true := by
  unfold State.logFault
  extract_lets +onlyGivenNames d
  split
  · exact State.memOk_logPhys _ _ _ _ _ _ _ hm
  · exact State.memOk_log _ _ _ _ _ _ _ hm

theorem State.memOk_unitRecord {u : Nat} {q : DWord} {w : Nat} {work : Word} : (s.unitRecord u q w work).memOk = true := by
  unfold State.unitRecord
  extract_lets +onlyGivenNames x at_
  refine State.memOk_ite (State.memOk_logPhys _ _ _ _ _ _ _ ((State.sameMem_countRes _ _ _ _ _).memOk (State.memOk_modUnit hm))) ?_
  refine State.memOk_ite ?_ ?_
  · exact (State.sameMem_countRes _ _ _ _ _).memOk (State.memOk_modUnit hm)
  · exact State.memOk_modUnit (State.memOk_recordWrite _ _ _ hm)

theorem State.memOk_trace {core slot team : Nat} {work : DWord} {seq : Bool} {ev : TraceEv} : (s.trace core slot team work seq ev).memOk = true
    := by
  unfold State.trace
  split
  · exact hm
  · exact State.memOk_ite hm (State.memOk_each (fun _ _ hu => State.memOk_unitRecord hu) hm)

theorem State.memOk_traceAll {core slot : Nat} {l : List TraceEv} : (s.traceAll core slot l).memOk = true := by
  unfold State.traceAll
  split
  · exact hm
  · exact State.memOk_each (fun _ _ hu => State.memOk_trace hu) hm

theorem State.memOk_dump {unit vf ctx cause : Nat} : (s.dump unit vf ctx cause).memOk = true := by
  unfold State.dump
  extract_lets +onlyGivenNames u
  split
  · exact State.memOk_log _ _ _ _ _ _ _ hm
  · extract_lets +onlyGivenNames seq nonce body hdr out
    refine State.memOk_ite hm ?_
    refine State.memOk_ite (State.memOk_logPhys _ _ _ _ _ _ _ hm) ?_
    exact State.memOk_modUnit (State.memOk_modPart (State.memOk_recordWrite _ _ _ hm))

theorem State.memOk_releaseComb {team : Nat} {t : Team} : (s.releaseComb team t).memOk = true := by
  unfold State.releaseComb
  exact State.memOk_modHive hm

theorem State.memOk_releaseSolo {vf : Nat} {p : Nat × Nat × Nat → Bool} : (s.releaseSolo vf p).memOk = true := by
  unfold State.releaseSolo
  exact State.memOk_drainEngine (State.memOk_modPart hm)

theorem State.memOk_acquire {core slot scope : Nat} {got : List RelInfo} : (s.acquire core slot scope got).memOk = true := by
  unfold State.acquire
  split
  · exact hm
  · extract_lets +onlyGivenNames s1
    have m1 : s1.memOk = true := State.memOk_setWarp hm
    split
    · exact State.memOk_ite m1 (State.memOk_acquireL1 m1)
    · exact m1

theorem State.memOk_raiseFloor {core slot clk : Nat} : (s.raiseFloor core slot clk).memOk = true := by
  unfold State.raiseFloor
  exact State.memOk_modWarp hm

theorem State.memOk_wroteWords {core slot : Nat} {was : List Nat} : (s.wroteWords core slot was).memOk = true := by
  unfold State.wroteWords
  exact State.memOk_ite (State.memOk_modCore hm) (State.memOk_modWarp (State.memOk_modCore hm))

theorem State.memOk_txInstall {core slot vf : Nat} {tx : Tx} {rel : List RelInfo} : (s.txInstall core slot vf tx rel).memOk = true := by
  unfold State.txInstall
  extract_lets +onlyGivenNames rel1 s1
  have m1 : s1.memOk = true := State.memOk_each (fun _ _ hu => State.memOk_homeWriteLogged _ _ _ _ _ _ _ hu) hm
  exact State.memOk_wroteWords (State.memOk_pastL1 m1)

theorem State.memOk_commitTx {core slot thread : Nat} : SomeMemOk (s.commitTx core slot thread) := by
  unfold State.commitTx
  split
  · exact hm
  · split
    · exact hm
    · extract_lets +onlyGivenNames vf s1 ack
      have m1 : s1.memOk = true := State.memOk_each (fun _ _ hu => State.memOk_touch _ _ hu) hm
      refine someMemOk_ite (State.memOk_modWarp (State.memOk_modWarp m1)) ?_
      refine someMemOk_ite trivial ?_
      extract_lets +onlyGivenNames got s2 s3 s4
      have m2 : s2.memOk = true := State.memOk_acquire m1
      have m3 : s3.memOk = true := State.memOk_txInstall m2
      have m4 : s4.memOk = true := State.memOk_modWarp m3
      exact State.memOk_modWarp (State.memOk_releaseSolo m4)

theorem State.memOk_commitOrphan {o : Orphan} : (s.commitOrphan o).memOk = true := by
  unfold State.commitOrphan
  extract_lets +onlyGivenNames s1 s2
  have m1 : s1.memOk = true := hm
  have m2 : s2.memOk = true := State.memOk_each (fun _ _ hu => State.memOk_touch _ _ hu) m1
  refine State.memOk_ite (State.memOk_drainEngine m2) ?_
  split
  · exact State.memOk_drainEngine (State.memOk_logFault m2)
  · exact State.memOk_drainEngine (State.memOk_txInstall m2)

theorem State.memOk_askSpill {core tile : Nat} : (s.askSpill core tile).memOk = true := by
  unfold State.askSpill
  exact hm

theorem State.memOk_handTile {core tile team ctx : Nat} : (s.handTile core tile team ctx).memOk = true := by
  unfold State.handTile
  extract_lets +onlyGivenNames x s1 s2
  have m1 : s1.memOk = true := State.memOk_modTile hm
  have m2 : s2.memOk = true := State.memOk_modTeam m1
  exact State.memOk_with m2 rfl rfl rfl rfl

theorem State.memOk_noteGone {core slot : Nat} : (s.noteGone core slot).memOk = true := by
  unfold State.noteGone
  split
  · exact hm
  · exact State.memOk_modPart hm

theorem State.memOk_removeTeam {team : Nat} {t : Team} : (s.removeTeam team t).memOk = true := by
  unfold State.removeTeam
  extract_lets +onlyGivenNames core s1 s2 s3
  have m1 : s1.memOk = true := State.memOk_each (fun _ _ hu => State.memOk_noteGone hu) hm
  have m2 : s2.memOk = true := State.memOk_releaseComb m1
  have m3 : s3.memOk = true := State.memOk_each (fun _ _ hu => State.memOk_modTile hu) m2
  clear_value s3
  exact State.memOk_with m3 rfl rfl rfl rfl

theorem State.memOk_endScreen {team : Nat} : (s.endScreen team).memOk = true := by
  unfold State.endScreen
  split
  · exact hm
  · extract_lets +onlyGivenNames real shadow s1
    clear_value real shadow
    have m1 : s1.memOk = true := by
      unfold s1
      split
      · exact State.memOk_modTeam hm
      · exact hm
    split
    · exact m1
    · extract_lets +onlyGivenNames ours s2
      clear_value ours
      have m2 : s2.memOk = true := State.memOk_with m1 rfl rfl rfl rfl
      exact State.memOk_removeTeam m2

theorem State.memOk_killWarp {core slot : Nat} {f : FaultInfo} {pc : DWord} : (s.killWarp core slot f pc).memOk = true := by
  unfold State.killWarp
  split
  · exact hm
  · extract_lets +onlyGivenNames vf ctx counter s1 s2 s3 s4 s5 s6
    have m1 : s1.memOk = true := State.memOk_releaseSolo (State.memOk_noteGone hm)
    have m2 : s2.memOk = true := State.memOk_setWarp m1
    have m3 : s3.memOk = true := State.memOk_with m2 rfl rfl rfl rfl
    have m4 : s4.memOk = true := State.memOk_modTeam m3
    have m5 : s5.memOk = true := State.memOk_ewErrorOn m4
    have m6 : s6.memOk = true := State.memOk_logFault m5
    exact State.memOk_log _ _ _ _ _ _ _ m6

theorem State.memOk_closeRows {k : Nat} {banks : List Nat} : (s.closeRows k banks).memOk = true := by
  unfold State.closeRows
  refine State.memOk_each ?_ hm
  intro u1 b1 hu
  refine State.memOk_each ?_ hu
  intro u3 sl1 hu1
  extract_lets +onlyGivenNames ix
  split
  · exact hu1
  · refine State.memOk_ite ?_ hu1
    exact hu1

theorem State.memOk_killStove {k : Nat} : (s.killStove k).memOk = true := by
  unfold State.killStove
  extract_lets +onlyGivenNames x s1 src s2
  have m1 : s1.memOk = true := State.memOk_closeRows hm
  have m2 : s2.memOk = true := State.memOk_setStove m1
  split
  · exact m2
  · exact State.memOk_ewKilled m2

theorem State.memOk_dropGrids {p : Nat → Bool} : (s.dropGrids p).memOk = true := by
  unfold State.dropGrids
  extract_lets +onlyGivenNames keep
  exact hm

theorem State.memOk_endContext {ctx cause : Nat} {st : CtxState} : (s.endContext ctx cause st).memOk = true := by
  unfold State.endContext
  split
  · exact hm
  · extract_lets +onlyGivenNames s1 s2 ts gs left ours claims mine s3 s4 s5 s6 s7 s8 s9
    have m1 : s1.memOk = true := State.memOk_modCtx hm
    have m2 : s2.memOk = true := State.memOk_ite m1 (State.memOk_each (fun _ _ hu => State.memOk_ite (State.memOk_dump hu) hu) m1)
    have m3 : s3.memOk = true := State.memOk_with m2 rfl rfl rfl rfl
    have m4 : s4.memOk = true := State.memOk_each (fun _ _ hu => State.memOk_killStove hu) m3
    have m5 : s5.memOk = true := State.memOk_each (fun _ _ hu => State.memOk_removeTeam hu) m4
    have m6 : s6.memOk = true := State.memOk_each (fun _ _ hu => State.memOk_handTile hu) m5
    have m7 : s7.memOk = true := State.memOk_modCtx m6
    have m8 : s8.memOk = true := State.memOk_releaseSolo m7
    have m9 : s9.memOk = true := by
      unfold s9
      refine State.memOk_each ?_ m8
      intro u1 g1 hu
      split
      · exact hu
      · exact State.memOk_endUpdate (State.memOk_endUpdate hu)
    exact State.memOk_dropGrids m9

theorem State.memOk_contextFault {ctx vf core : Nat} {f : FaultInfo} {pc : DWord} : (s.contextFault ctx vf core f pc).memOk = true := by
  unfold State.contextFault
  exact State.memOk_endContext (State.memOk_logFault hm)

/-! ## The frame of an instruction -/

theorem State.memOk_commit {x : Ctx} {ws : List RegWrite} : (s.commit x ws).memOk = true := by
  unfold State.commit
  exact State.memOk_modWarp hm

theorem State.memOk_writeBack {core slot : Nat} {ws : List RegWrite} : (s.writeBack core slot ws).memOk = true := by
  unfold State.writeBack
  exact State.memOk_modWarp hm

theorem State.memOk_orFlags {x : Ctx} {f : BitVec 5} : (s.orFlags x f).memOk = true := by
  unfold State.orFlags
  exact State.memOk_modWarp hm

theorem State.memOk_enterHandler {core slot entry : Nat} {regs : TrapRegs} : (s.enterHandler core slot entry regs).memOk = true := by
  unfold State.enterHandler
  split
  · exact hm
  · split
    · exact hm
    · exact State.memOk_ite (State.memOk_endContext hm) (State.memOk_setWarp hm)

theorem State.memOk_systemHold {core slot entry : Nat} {regs : TrapRegs} : (s.systemHold core slot entry regs).memOk = true := by
  unfold State.systemHold
  split
  · exact hm
  · exact State.memOk_signal (State.memOk_setWarp hm)

theorem State.memOk_takeTrap {core slot entry : Nat} {pc : DWord} {word : BitVec 96} {noWord gred : Bool} {f : FaultInfo}
    : (s.takeTrap core slot entry pc word noWord gred f).memOk = true := by
  unfold State.takeTrap
  split
  · exact hm
  · extract_lets +onlyGivenNames vf ctx route
    refine State.memOk_ite (State.memOk_killWarp hm) ?_
    extract_lets +onlyGivenNames s1
    have m1 : s1.memOk = true := State.memOk_logFault hm
    refine State.memOk_ite (State.memOk_endContext m1) ?_
    exact State.memOk_ite (State.memOk_setWarp m1) (State.memOk_ite (State.memOk_systemHold m1) (State.memOk_enterHandler m1))

theorem State.memOk_nextHeldTrap {core slot : Nat} : (s.nextHeldTrap core slot).memOk = true := by
  unfold State.nextHeldTrap
  split
  · exact hm
  · split
    · exact hm
    · extract_lets +onlyGivenNames s1 regs
      have m1 : s1.memOk = true := State.memOk_setWarp hm
      exact State.memOk_ite (State.memOk_systemHold m1) (State.memOk_enterHandler m1)

theorem State.memOk_endHandler {core slot : Nat} : (s.endHandler core slot).memOk = true := by
  unfold State.endHandler
  exact State.memOk_nextHeldTrap (State.memOk_modWarp hm)

theorem State.memOk_trapAt {x : Ctx} {f : FaultInfo} : (s.trapAt x f).memOk = true := by
  unfold State.trapAt
  exact State.memOk_takeTrap hm

theorem State.memOk_advance {x : Ctx} : (s.advance x).memOk = true := by
  unfold State.advance
  extract_lets +onlyGivenNames stall adv replay s1 s2
  have m1 : s1.memOk = true := State.memOk_modWarp hm
  have m2 : s2.memOk = true := State.memOk_countPerf m1
  split
  · exact State.memOk_with m2 rfl rfl rfl rfl
  · exact m2

theorem State.memOk_settleWarp {core slot : Nat} : (s.settleWarp core slot).memOk = true := by
  unfold State.settleWarp
  split
  · exact hm
  · exact State.memOk_traceAll (State.memOk_setWarp hm)

theorem State.memOk_fallThrough {x : Ctx} : (s.fallThrough x).memOk = true := by
  unfold State.fallThrough
  exact State.memOk_modWarp (State.memOk_advance hm)

theorem State.memOk_jump {x : Ctx} {np : Nat → DWord} {taken : DWord} {recon : Option DWord} {keep : Bool}
    : SomeMemOk (s.jump x np taken recon keep) := by
  unfold State.jump
  extract_lets +onlyGivenNames s1
  have m1 : s1.memOk = true := State.memOk_advance hm
  split
  · exact trivial
  · split
    · exact trivial
    · exact State.memOk_ite (State.memOk_setWarp m1) (State.memOk_traceAll (State.memOk_setWarp m1))

theorem State.memOk_goOn {x : Ctx} {c : DWord} : (s.goOn x c).memOk = true := by
  unfold State.goOn
  exact State.memOk_modWarp hm

theorem State.memOk_standAside {x : Ctx} {k : Wait} : (s.standAside x k).memOk = true := by
  unfold State.standAside
  exact State.memOk_modWarp hm

theorem State.memOk_waitIn {x : Ctx} {entry : Nat} {k : Wait} : (s.waitIn x entry k).memOk = true := by
  unfold State.waitIn
  exact State.memOk_modWarp hm

theorem memOk_finish {x : Ctx} {r : Eff} (hp : r.MemOk) : (finish x s r).memOk = true := by
  unfold finish
  split
  · exact State.memOk_trapAt hm
  · exact State.memOk_settleWarp (State.memOk_fallThrough hp)
  · split
    · exact State.memOk_trapAt hm
    · rename_i t e
      have mt : t.memOk = true := State.memOk_of_some (State.memOk_jump hp) ‹_›
      exact State.memOk_settleWarp mt
  · exact State.memOk_settleWarp (State.memOk_goOn (State.memOk_fallThrough hp))
  · exact State.memOk_standAside (State.memOk_settleWarp (State.memOk_fallThrough hp))
  · obtain ⟨hs, hf⟩ := hp
    exact State.memOk_settleWarp (hf _ (State.memOk_fallThrough hs))
  · exact State.memOk_waitIn hp
  · exact hp
  · exact hp

theorem State.memOk_abortTx {core slot : Nat} {m : DWord} {reason : Nat} : (s.abortTx core slot m reason).memOk = true := by
  unfold State.abortTx
  exact State.memOk_releaseSolo (State.memOk_modWarp hm)

theorem memOk_runAborting {x : Ctx} {ab : DWord} {eff : Ctx → State → Eff} (hf : ∀ (a : Ctx) (u : State), u.memOk = true → (eff a u).MemOk)
    : (runAborting x s ab eff).memOk = true := by
  unfold runAborting
  extract_lets +onlyGivenNames s1 rest recon leave after
  have m1 : s1.memOk = true := State.memOk_abortTx hm
  have hleave : ∀ (u : State) (other : DWord), u.memOk = true → (leave u other).memOk = true := by
    intro u other hu
    unfold leave
    split
    · exact State.memOk_trapAt hm
    · exact State.memOk_of_some (State.memOk_jump hu) ‹_›
  have hafter : ∀ (u : State) (f : State → Nat → State), u.memOk = true → (∀ v e, v.memOk = true → (f v e).memOk = true) →
      (after u f).memOk = true := by
    intro u f hu hf
    unfold after
    extract_lets +onlyGivenNames s3
    have m3 : s3.memOk = true := hleave _ _ hu
    split
    · exact m3
    · exact hf _ _ m3
  clear_value leave after s1
  refine State.memOk_ite (State.memOk_settleWarp (hleave _ _ m1)) ?_
  generalize he : eff _ s1 = r
  have hr : r.MemOk := he ▸ hf _ _ m1
  cases r with
  | trap f => exact hafter _ _ m1 fun _ _ hv => State.memOk_takeTrap hv
  | done u => exact State.memOk_settleWarp (hleave _ _ hr)
  | jump u _ _ _ _ => exact State.memOk_settleWarp (hleave _ _ hr)
  | goto u c => exact State.memOk_settleWarp (hleave _ _ hr)
  | stand u _ => exact State.memOk_settleWarp (hleave _ _ hr)
  | after u _ =>
    obtain ⟨hu, -⟩ := hr
    exact State.memOk_settleWarp (hleave _ _ hu)
  | wait u k => exact hafter _ _ hr fun _ _ hv => State.memOk_waitIn hv
  | stall u => exact hafter _ _ hr fun _ _ hv => hv
  | stop u => exact hr

theorem State.memOk_countUpset {x : Ctx} {i : Instr} : (s.countUpset x i).memOk = true := by
  unfold State.countUpset
  exact State.memOk_ite ((State.sameMem_countRes _ _ _ _ _).memOk hm) hm

theorem memOk_issueAt {i : Instr} {eff : Ctx → State → Eff} {x : Ctx} (hf : ∀ (a : Ctx) (u : State), u.memOk = true → (eff a u).MemOk)
    : (issueAt i s eff x).memOk = true := by
  unfold issueAt
  split
  · exact State.memOk_trapAt hm
  · extract_lets +onlyGivenNames s1 s2
    have m1 : s1.memOk = true := State.memOk_countUpset hm
    have m2 : s2.memOk = true := State.memOk_ite (State.memOk_endScreen m1) m1
    refine State.memOk_ite m2 ?_
    refine State.memOk_ite (State.memOk_killWarp m2) ?_
    extract_lets +onlyGivenNames ab
    exact State.memOk_ite (memOk_finish m2 (hf _ _ m2)) (memOk_runAborting m2 (fun _ _ hu => hf _ _ hu))

theorem State.memOk_modSeq {ix : Nat} {f : Sequencer → Sequencer} : (s.modSeq ix f).memOk = true := by
  unfold State.modSeq
  exact State.memOk_modTeam hm

theorem State.memOk_seqPoison {ix : Nat} {pc : DWord} {f : FaultInfo} : (s.seqPoison ix pc f).memOk = true := by
  unfold State.seqPoison
  extract_lets +onlyGivenNames vf ctx counter s1 s2 s3
  have m1 : s1.memOk = true := State.memOk_modSeq hm
  have m2 : s2.memOk = true := State.memOk_modTeam m1
  have m3 : s3.memOk = true := State.memOk_ewErrorOn m2
  split
  · exact State.memOk_logPhys _ _ _ _ _ _ _ m3
  · exact State.memOk_log _ _ _ _ _ _ _ m3

theorem State.memOk_seqTrap {core team : Nat} {pc : DWord} {f : FaultInfo} : (s.seqTrap core team pc f).memOk = true := by
  unfold State.seqTrap
  extract_lets +onlyGivenNames ix vf
  refine State.memOk_ite (State.memOk_seqPoison hm) ?_
  extract_lets +onlyGivenNames s1
  have m1 : s1.memOk = true := by
    unfold s1
    split
    · exact State.memOk_logPhys _ _ _ _ _ _ _ hm
    · exact State.memOk_log _ _ _ _ _ _ _ hm
  exact State.memOk_endContext m1

theorem memOk_issue {i : Instr} {eff : Ctx → State → Eff} (hf : ∀ (a : Ctx) (u : State), u.memOk = true → (eff a u).MemOk)
    : NextMemOk (issue i s eff) := by
  unfold issue
  split
  · change State.memOk _ = true
    refine State.memOk_seqTrap ?_
    exact hm
  · split
    · exact trivial
    · change State.memOk _ = true
      refine memOk_issueAt ?_ (fun _ _ hu => hf _ _ hu)
      exact hm

theorem State.memOk_stallAt {y : Stall} : (s.stallAt y).memOk = true := by
  unfold State.stallAt
  extract_lets +onlyGivenNames l
  exact hm

theorem State.memOk_unstall {y : Stall} : (s.unstall y).memOk = true := by
  unfold State.unstall
  exact hm

theorem Ctx.memOk_enqueue {x : Ctx} {queues : List Nat} {room : Bool} {k : State → Eff} (hf : ∀ (u : State), u.memOk = true → (k u).MemOk)
    : (x.enqueue s queues room k).MemOk := by
  unfold Ctx.enqueue
  refine Eff.memOk_ite ?_ ?_
  · exact hf _ (State.memOk_each (fun _ _ hu => State.memOk_unstall hu) hm)
  · exact State.memOk_each (fun _ _ hu => State.memOk_stallAt hu) hm

theorem memOk_results {x : Ctx} {ws : List RegWrite} {f : BitVec 5} : (results x s ws f).MemOk := by
  unfold results
  exact State.memOk_orFlags (State.memOk_commit hm)

theorem memOk_perThread {x : Ctx} {d : BitVec 8} {signed : Bool} {f : Nat → Word} : (perThread x s d signed f).MemOk := by
  unfold perThread
  exact memOk_results hm

theorem memOk_perThreadF {x : Ctx} {d : BitVec 8} {signed : Bool} {f : Nat → Word × BitVec 5} : (perThreadF x s d signed f).MemOk := by
  unfold perThreadF
  exact memOk_results hm

theorem memOk_perThreadP {x : Ctx} {d : BitVec 8} {f : Nat → Bool × BitVec 5} : (perThreadP x s d f).MemOk := by
  unfold perThreadP
  exact memOk_results hm

/-! ## Control -/

theorem memOk_xfer {x : Ctx} {target : Nat → DWord} {recon : Option DWord} {checked takenFirst : Bool} {link : List RegWrite}
    : (xfer x s target recon checked takenFirst link).MemOk := by
  unfold xfer
  split
  · exact trivial
  · exact Eff.memOk_ite trivial (State.memOk_ite hm (State.memOk_writeBack hm))

theorem State.memOk_dropPending {core slot : Nat} {m : DWord} : (s.dropPending core slot m).memOk = true := by
  unfold State.dropPending
  exact hm

theorem State.memOk_endThreads {x : Ctx} {m : DWord} : (s.endThreads x m).memOk = true := by
  unfold State.endThreads
  exact State.memOk_modWarp (State.memOk_dropPending (State.memOk_releaseSolo hm))

theorem State.memOk_exitHandler {x : Ctx} : (s.exitHandler x).memOk = true := by
  unfold State.exitHandler
  split
  · exact hm
  · exact State.memOk_ite (State.memOk_endHandler hm) hm

theorem State.memOk_abortEntry {core slot : Nat} {old : Warp} {m : DWord} {e : Nat} : (s.abortEntry core slot old m e).memOk = true := by
  unfold State.abortEntry
  split
  · exact hm
  · extract_lets +onlyGivenNames y k
    refine State.memOk_ite hm ?_
    extract_lets +onlyGivenNames held w s1
    have m1 : s1.memOk = true := by
      unfold s1
      split
      · exact State.memOk_traceAll (State.memOk_setWarp hm)
      · exact State.memOk_takeTrap hm
    exact State.memOk_ite (State.memOk_nextHeldTrap m1) m1

theorem State.memOk_abortInPlace {core slot : Nat} {m : DWord} {reason : Nat} : (s.abortInPlace core slot m reason).memOk = true := by
  unfold State.abortInPlace
  split
  · exact hm
  · extract_lets +onlyGivenNames s1
    have m1 : s1.memOk = true := State.memOk_modWarp (State.memOk_abortTx hm)
    exact State.memOk_settleWarp (State.memOk_each (fun _ _ hu => State.memOk_abortEntry hu) m1)

theorem State.memOk_haltContext {ctx : Nat} : (s.haltContext ctx).memOk = true := by
  unfold State.haltContext
  extract_lets +onlyGivenNames s1
  have m1 : s1.memOk = true := State.memOk_modCtx hm
  refine State.memOk_each ?_ m1
  intro u1 kt1 hu
  refine State.memOk_each ?_ hu
  intro u3 slot1 hu1
  split
  · exact hu1
  · exact State.memOk_ite hu1 (State.memOk_abortInPlace hu1)

theorem State.memOk_stopAt {unit vf core ctx : Nat} {detail : DWord} : (s.stopAt unit vf core ctx detail).memOk = true := by
  unfold State.stopAt
  exact State.memOk_haltContext ((State.sameMem_logMgmt _ _).memOk (State.memOk_modUnit hm))

theorem memOk_execBrk {h : Hdr} {b : VBody} : NextMemOk (execBrk h b s) := by
  unfold execBrk
  refine memOk_issue hm ?_
  intro a u hu
  split
  · exact Eff.memOk_ite (State.memOk_stopAt (State.memOk_waitIn hu)) hu
  · exact hu

/-! ## Barriers, waits and windows -/

theorem State.memOk_arrive {team bar c size : Nat} {lin : List Nat} {slot entry : Nat} {mask work : DWord} {seq : Bool} {clk : Nat}
    : (s.arrive team bar c size lin slot entry mask work seq clk).memOk = true := by
  unfold State.arrive
  split
  · exact hm
  · extract_lets +onlyGivenNames core old r src s1 s2
    have m1 : s1.memOk = true := State.memOk_modTeam hm
    have m2 : s2.memOk = true := State.memOk_trace m1
    exact State.memOk_ite (State.memOk_trace m2) m2

theorem State.memOk_arriveActive {x : Ctx} {operand : Nat} : (s.arriveActive x operand).memOk = true := by
  unfold State.arriveActive
  exact State.memOk_arrive hm

theorem State.memOk_closeWin {x : Ctx} : (s.closeWin x).memOk = true := by
  unfold State.closeWin
  exact State.memOk_modWarp hm

theorem memOk_barWaitEff {x : Ctx} {d : BitVec 8} {bar : Nat} : (barWaitEff x s d bar).MemOk := by
  unfold barWaitEff
  extract_lets +onlyGivenNames b lin
  refine Eff.memOk_ite ?_ hm
  extract_lets +onlyGivenNames r
  exact State.memOk_closeWin (State.memOk_writeBack (State.memOk_raiseFloor (State.memOk_modTeam hm)))

theorem State.memOk_noteRelease {core slot scope : Nat} : (s.noteRelease core slot scope).memOk = true := by
  unfold State.noteRelease
  exact State.memOk_ite hm (State.memOk_modWarp hm)

theorem State.memOk_fenceRel {x : Ctx} {scope : Nat} : (s.fenceRel x scope).memOk = true := by
  unfold State.fenceRel
  exact State.memOk_noteRelease (State.memOk_modWarp hm)

theorem State.memOk_fenceAcq {x : Ctx} {scope : Nat} : (s.fenceAcq x scope).memOk = true := by
  unfold State.fenceAcq
  exact State.memOk_ite (State.memOk_acquire hm) (State.memOk_acquireL1 (State.memOk_acquire hm))

theorem memOk_execFence {h : Hdr} {b : IBody} : NextMemOk (execFence h b s) := by
  unfold execFence
  refine memOk_issue hm ?_
  intro a u hu
  extract_lets +onlyGivenNames kind scope
  refine Eff.memOk_ite hu ?_
  refine Eff.memOk_ite hu ?_
  refine Eff.memOk_ite (State.memOk_modWarp hu) ?_
  extract_lets +onlyGivenNames wide s1 s2
  have m1 : s1.memOk = true := State.memOk_ite hu (State.memOk_fenceRel hu)
  have m2 : s2.memOk = true := State.memOk_ite m1 (State.memOk_fenceAcq m1)
  exact State.memOk_modWarp m2

theorem State.memOk_opDone {core slot cls id : Nat} : (s.opDone core slot cls id).memOk = true := by
  unfold State.opDone
  exact State.memOk_modWarp hm

theorem Ctx.memOk_counterRead {x : Ctx} {va : DWord} {cont : Option DWord} : (x.counterRead s va cont).2.memOk = true := by
  unfold Ctx.counterRead
  split
  · exact hm
  · split
    · exact hm
    · split
      · exact State.memOk_of_snd (State.memOk_resolve hm) ‹_›
      · rename_i t e
        have mt : t.memOk = true := State.memOk_of_snd (State.memOk_resolve hm) ‹_›
        split
        · exact mt
        · extract_lets +onlyGivenNames s1
          have m1 : s1.memOk = true := State.memOk_touchRun _ _ _ mt
          split <;> exact m1

set_option maxRecDepth 1000 in
theorem memOk_cwaitEff {x : Ctx} {d a b : BitVec 8} {cont : Option DWord} {scope : Nat} : (cwaitEff x s d a b cont scope).MemOk := by
  unfold cwaitEff
  split
  · exact trivial
  · rename_i t e
    have mt : t.memOk = true := State.memOk_of_snd (Ctx.memOk_counterRead hm) ‹_›
    extract_lets +onlyGivenNames again
    clear_value again
    refine Eff.memOk_ite mt ?_
    extract_lets +onlyGivenNames r got s1
    have m1 : s1.memOk = true := State.memOk_ite mt (State.memOk_ite (State.memOk_bringSync _ _ _ mt) (State.memOk_migrateRun mt))
    clear_value r s1
    refine Eff.memOk_ite m1 ?_
    extract_lets +onlyGivenNames s2
    have m2 : s2.memOk = true := State.memOk_closeWin (State.memOk_writeBack (State.memOk_acquire m1))
    split <;> exact m2

theorem memOk_execCwait {h : Hdr} {b : VBody} : NextMemOk (execCwait h b s) := by
  unfold execCwait
  exact memOk_issue hm (fun _ _ hu => Eff.memOk_ite hu (memOk_cwaitEff hu))

theorem memOk_execCyield {h : Hdr} {b : VBody} : NextMemOk (execCyield h b s) := by
  unfold execCyield
  exact memOk_issue hm (fun _ _ hu => Eff.memOk_ite hu (memOk_cwaitEff hu))

/-! ## Loads, stores and cache maintenance at issue -/

theorem memOk_checkLanes {ts : List Nat} {f : Nat → State → Except Nat Parts × State} {vaOf : Nat → DWord}
    (hf : ∀ (a : Nat) (u : State), u.memOk = true → (f a u).2.memOk = true) : (checkLanes s ts f vaOf).2.memOk = true := by
  unfold checkLanes
  extract_lets +onlyGivenNames y r
  clear_value r
  have hy : y.2.memOk = true := by
    unfold y
    refine State.memOk_fold _ (fun _ _ hu => ?_) _ _ hm
    exact hf _ _ hu
  split <;> exact hy

theorem Ctx.memOk_globalLane {x : Ctx} {va : DWord} {n : Nat} {kind : AccessKind} {aligned : Bool}
    : (x.globalLane va n kind aligned s).2.memOk = true := by
  unfold Ctx.globalLane
  split
  · exact hm
  · exact State.memOk_resolveParts hm

theorem Ctx.memOk_privateLane {x : Ctx} {o : DWord} {n t : Nat} {kind : AccessKind} : (x.privateLane o n t kind s).2.memOk = true := by
  unfold Ctx.privateLane
  split
  · exact hm
  · split
    · exact hm
    · split
      · exact hm
      · exact State.memOk_resolveParts hm

theorem State.memOk_issueLoad {x : Ctx} {d : BitVec 8} {size : Nat} {sgn : Bool} {acq : Nat} {noL1 : Bool} {lanes : List LoadLane}
    {vas : List Nat} : (s.issueLoad x d size sgn acq noL1 lanes vas).memOk = true := by
  unfold State.issueLoad
  refine State.memOk_ite hm ?_
  extract_lets +onlyGivenNames f s1
  have m1 : s1.memOk = true := State.memOk_fresh hm
  exact State.memOk_with m1 rfl rfl rfl rfl

theorem State.memOk_bringLanes {vf : Nat} {lanes : List (Nat × Parts)} : (s.bringLanes vf lanes).memOk = true := by
  unfold State.bringLanes
  exact State.memOk_each (fun _ _ hu => State.memOk_each (fun _ _ hu1 => State.memOk_ite (State.memOk_bringSync _ _ _ hu1) hu1) hu) hm

theorem memOk_loadEff {x : Ctx} {b : MBody} {acq : Nat} {r : Except FaultInfo (List (Nat × Parts)) × State} {vaOf : Nat → DWord}
    (hp : r.2.memOk = true) : (loadEff x s b acq r vaOf).MemOk := by
  unfold loadEff
  split
  · exact trivial
  · exact Eff.memOk_ite hm (State.memOk_issueLoad (State.memOk_bringLanes hp))

theorem Ctx.memOk_txLane {x : Ctx} {va : DWord} {n t : Nat} {bytes : Option (List Byte)} : (x.txLane s va n t bytes).2.memOk = true := by
  unfold Ctx.txLane
  split
  · exact hm
  · split
    · exact State.memOk_of_snd (Ctx.memOk_globalLane hm) ‹_›
    · rename_i t1 e
      have mt1 : t1.memOk = true := State.memOk_of_snd (Ctx.memOk_globalLane hm) ‹_›
      extract_lets +onlyGivenNames pa ws s1
      have m1 : s1.memOk = true := State.memOk_ite (State.memOk_bringSync _ _ _ mt1) mt1
      split
      · split
        · exact m1
        · extract_lets +onlyGivenNames far s2
          have m2 : s2.memOk = true := State.memOk_each (fun _ _ hu => State.memOk_touchRun _ _ _ hu) m1
          split
          · exact m2
          · exact State.memOk_ite m1 (State.memOk_materialise _ m2)
      · split
        · exact m1
        · exact State.memOk_ite (State.memOk_materialise _ m1) m1

theorem Ctx.memOk_txLanes {x : Ctx} {vaOf : Nat → DWord} {n : Nat} {ts : List Nat} {bytes : Nat → Option (List Byte)}
    : (x.txLanes s vaOf n ts bytes).2.memOk = true := by
  unfold Ctx.txLanes
  refine State.memOk_fold _ (fun _ _ hu => ?_) _ _ hm
  exact Ctx.memOk_txLane hu

theorem memOk_txFinish {x : Ctx} {l : List (Nat × TxStep)} : (txFinish x s l).MemOk := by
  unfold txFinish
  extract_lets +onlyGivenNames s1 ab
  have m1 : s1.memOk = true := State.memOk_modWarp hm
  exact Eff.memOk_ite m1 (State.memOk_each (fun _ _ hu => State.memOk_abortTx hu) m1)

theorem memOk_execLd {h : Hdr} {b : MBody} : NextMemOk (execLd h b s) := by
  unfold execLd
  refine memOk_issue hm ?_
  intro a u hu
  extract_lets +onlyGivenNames n ts
  split
  · exact trivial
  · rename_i t e
    have mt : t.memOk = true := State.memOk_of_snd (memOk_checkLanes hu (fun _ _ hu1 => Ctx.memOk_globalLane hu1)) ‹_›
    refine Eff.memOk_ite mt ?_
    extract_lets +onlyGivenNames r tl s1
    have m1 : s1.memOk = true := Ctx.memOk_txLanes mt
    split
    · exact trivial
    · exact memOk_txFinish (State.memOk_issueLoad (State.memOk_bringLanes m1))

theorem State.memOk_combWord {vf hive wi : Nat} : (s.combWord vf hive wi).2.2.memOk = true := by
  unfold State.combWord
  extract_lets +onlyGivenNames h e bad s1
  have m1 : s1.memOk = true := State.memOk_ite hm (State.memOk_modHive (State.memOk_ite ((State.sameMem_countRes _ _ _ _ _).memOk hm) hm))
  split
  · exact m1
  · split
    · exact State.memOk_modHive (State.memOk_openWord m1)
    · exact m1

theorem State.memOk_combWrite {vf hive wi : Nat} {d : Word} {mask : BitVec 4} {src : LogSrc} : (s.combWrite vf hive wi d mask src).memOk = true
    := by
  unfold State.combWrite
  extract_lets +onlyGivenNames r
  exact State.memOk_ite (State.memOk_log _ _ _ _ _ _ _ (State.memOk_combWord hm)) (State.memOk_modHive (State.memOk_combWord hm))

theorem State.memOk_combView {vf hive wi : Nat} : (s.combView vf hive wi).2.2.memOk = true := by
  unfold State.combView
  extract_lets +onlyGivenNames r
  have hr : r.2.2.memOk = true := State.memOk_combWord hm
  split <;> exact hr

theorem State.memOk_combRead {vf hive : Nat} {cells : List Nat} {o n : Nat} : (s.combRead vf hive cells o n).2.2.memOk = true := by
  unfold State.combRead
  refine State.memOk_foldThird _ ?_ _ _ hm
  intro acc1 w1 hu
  split
  · exact hu
  · exact State.memOk_combView hu

theorem State.memOk_combStart {vf hive wi : Nat} : (s.combStart vf hive wi).2.2.memOk = true := by
  unfold State.combStart
  extract_lets +onlyGivenNames r
  split
  · exact State.memOk_combView hm
  · split
    · exact State.memOk_combView hm
    · split <;> exact State.memOk_combView hm

theorem Ctx.memOk_ldsBytes {x : Ctx} {cells : List Nat} {o n t : Nat} : (x.ldsBytes s cells o n t).2.2.memOk = true := by
  unfold Ctx.ldsBytes
  extract_lets +onlyGivenNames hive
  split
  · exact State.memOk_combRead hm
  · refine State.memOk_foldThird _ ?_ _ _ hm
    intro acc1 w1 hu
    split
    · exact hu
    · exact State.memOk_combStart hu

theorem Ctx.memOk_combLane {x : Ctx} {team : Team} {o : DWord} {n : Nat} {write : Bool} : (x.combLane team o n write s).2.memOk = true := by
  unfold Ctx.combLane
  split
  · exact hm
  · split <;> exact hm

theorem memOk_execLds {h : Hdr} {b : MBody} : NextMemOk (execLds h b s) := by
  unfold execLds
  refine memOk_issue hm ?_
  intro a u hu
  split
  · exact hu
  · extract_lets +onlyGivenNames n
    split
    · exact trivial
    · rename_i t e
      have mt : t.memOk = true := State.memOk_of_snd (memOk_checkLanes hu (fun _ _ hu1 => Ctx.memOk_combLane hu1)) ‹_›
      extract_lets +onlyGivenNames v
      have hv : v.2.2.memOk = true := by
        unfold v
        refine State.memOk_foldThird _ (fun _ _ hu1 => ?_) _ _ mt
        exact Ctx.memOk_ldsBytes hu1
      exact Eff.memOk_ite trivial (State.memOk_issueLoad hv)

theorem State.memOk_keepRun {x : Ctx} {r : StoreRun} {hint : Nat} {rel : List RelInfo} {force : Bool} : SomeMemOk (s.keepRun x r hint rel force)
    := by
  unfold State.keepRun
  extract_lets +onlyGivenNames a
  refine someMemOk_foldl _ ?_ _ _ hm
  intro acc1 w1 hu
  refine someMemOk_bind ?_ hu
  intro u hu1
  split
  · rename_i t e
    have mt : t.memOk = true := State.memOk_of_some (State.memOk_l1Room hu1) ‹_›
    exact State.memOk_l1Store (State.memOk_markFrame mt)
  · exact someMemOk_ite hu1 trivial

theorem State.memOk_sendStores {x : Ctx} {way : StoreWay} {runs : List StoreRun} {rel : Nat → List RelInfo}
    : SomeMemOk (s.sendStores x way runs rel) := by
  unfold State.sendStores
  extract_lets +onlyGivenNames op replay force a
  have ha : SomeMemOk a := by
    unfold a
    refine someMemOk_foldl _ ?_ _ _ hm
    intro acc1 r1 hu
    refine someMemOk_bind ?_ hu
    intro u hu1
    extract_lets +onlyGivenNames a1
    refine someMemOk_ite trivial ?_
    refine someMemOk_map ?_ (someMemOk_ite hu1 (State.memOk_keepRun hu1))
    intro u1 hu2
    extract_lets +onlyGivenNames f s1
    have m1 : s1.memOk = true := State.memOk_fresh hu2
    exact State.memOk_with m1 rfl rfl rfl rfl
  exact someMemOk_map (fun _ hu => State.memOk_modWarp hu) ha

theorem State.memOk_shadowStores {team : Nat} {runs : List StoreRun} : (s.shadowStores team runs).memOk = true := by
  unfold State.shadowStores
  exact State.memOk_ite (State.memOk_endScreen (State.memOk_modTeam hm)) (State.memOk_modTeam hm)

theorem State.memOk_issueStores {x : Ctx} {glob : Bool} {way : StoreWay} {runs : List StoreRun} {rel : Nat → List RelInfo}
    : SomeMemOk (s.issueStores x glob way runs rel) := by
  unfold State.issueStores
  split
  · exact State.memOk_sendStores hm
  · extract_lets +onlyGivenNames s1
    have m1 : s1.memOk = true := State.memOk_modWarp hm
    exact someMemOk_ite (State.memOk_sendStores m1) (someMemOk_ite trivial (State.memOk_shadowStores m1))

theorem memOk_storeLanes {x : Ctx} {b : MBody} {lanes : List (Nat × Parts)} {vaOf : Nat → DWord} {scope : Nat}
    : SomeMemOk (storeLanes x s b lanes vaOf scope) := by
  unfold storeLanes
  extract_lets +onlyGivenNames runs
  refine someMemOk_ite hm ?_
  refine someMemOk_ite trivial ?_
  exact someMemOk_map (fun _ hu => State.memOk_noteRelease hu) (State.memOk_issueStores (State.memOk_bringLanes hm))

theorem memOk_storeEff {x : Ctx} {b : MBody} {r : Except FaultInfo (List (Nat × Parts)) × State} {vaOf : Nat → DWord} (hp : r.2.memOk = true)
    : (storeEff x s b r vaOf).MemOk := by
  unfold storeEff
  split
  · exact trivial
  · split
    · exact hm
    · exact State.memOk_of_some (memOk_storeLanes hp) ‹_›

theorem memOk_execSt {h : Hdr} {b : MBody} : NextMemOk (execSt h b s) := by
  unfold execSt
  refine memOk_issue hm ?_
  intro a u hu
  extract_lets +onlyGivenNames n ts scope
  split
  · exact trivial
  · rename_i t e
    have mt : t.memOk = true := State.memOk_of_snd (memOk_checkLanes hu (fun _ _ hu1 => Ctx.memOk_globalLane hu1)) ‹_›
    refine Eff.memOk_ite hu ?_
    refine Eff.memOk_ite mt ?_
    extract_lets +onlyGivenNames tl
    split
    · exact hu
    · rename_i t1 e1
      have mt1 : t1.memOk = true := State.memOk_of_some (memOk_storeLanes (Ctx.memOk_txLanes mt)) ‹_›
      exact memOk_txFinish mt1

theorem Ctx.memOk_combStore {x : Ctx} {op t wi : Nat} {d : Word} {mask : BitVec 4} : (x.combStore s op t wi d mask).memOk = true := by
  unfold Ctx.combStore
  extract_lets +onlyGivenNames hive
  refine State.memOk_ite hm ?_
  refine State.memOk_ite (State.memOk_combWrite hm) ?_
  refine State.memOk_each ?_ hm
  intro u1 j1 hu
  extract_lets +onlyGivenNames f s1
  have m1 : s1.memOk = true := State.memOk_fresh hu
  exact State.memOk_with m1 rfl rfl rfl rfl

theorem memOk_execSts {h : Hdr} {b : MBody} : NextMemOk (execSts h b s) := by
  unfold execSts
  refine memOk_issue hm ?_
  intro a u hu
  split
  · exact hu
  · extract_lets +onlyGivenNames n
    split
    · exact trivial
    · rename_i t e
      have mt : t.memOk = true := State.memOk_of_snd (memOk_checkLanes hu (fun _ _ hu1 => Ctx.memOk_combLane hu1)) ‹_›
      extract_lets +onlyGivenNames op
      change State.memOk _ = true
      refine State.memOk_each ?_ mt
      intro u2 y1 hu1
      extract_lets +onlyGivenNames o bytes
      refine State.memOk_each ?_ hu1
      intro u4 w1 hu2
      split
      · exact Ctx.memOk_combStore hu2
      · exact hu2

theorem State.memOk_queueRead {vf wa by_ : Nat} {fills : List (Nat × Nat)} : (s.queueRead vf wa by_ fills).memOk = true := by
  unfold State.queueRead
  extract_lets +onlyGivenNames k q same
  refine State.memOk_ite ?_ ?_
  · exact hm
  · extract_lets +onlyGivenNames f s1
    have m1 : s1.memOk = true := State.memOk_fresh (State.memOk_countPerf hm)
    exact State.memOk_with m1 rfl rfl rfl rfl

theorem State.memOk_prefetchWords {core vf hint : Nat} {was : List Nat} : (s.prefetchWords core vf hint was).memOk = true := by
  unfold State.prefetchWords
  refine State.memOk_each ?_ hm
  intro u1 wa1 hu
  refine State.memOk_ite (State.memOk_ite (State.memOk_queueRead hu) hu) ?_
  extract_lets +onlyGivenNames s1
  have m1 : s1.memOk = true := State.memOk_markL2 (State.memOk_touch _ _ hu)
  exact State.memOk_ite m1 (State.memOk_l1Fill m1)

theorem memOk_execPf {h : Hdr} {b : MBody} : NextMemOk (execPf h b s) := by
  unfold execPf
  refine memOk_issue hm ?_
  intro a u hu
  refine Eff.memOk_ite hu ?_
  extract_lets +onlyGivenNames lane
  have hlane : ∀ (t : Nat) (s : State), s.memOk = true → (lane t s).2.memOk = true := by
    intro t u1 hu1
    unfold lane
    split
    · exact State.memOk_of_snd (Ctx.memOk_globalLane hu1) ‹_›
    · exact State.memOk_of_snd (Ctx.memOk_globalLane hu1) ‹_›
  refine Eff.memOk_ite hu ?_
  exact State.memOk_each (fun _ _ hu1 => State.memOk_each (fun _ _ hu2 => State.memOk_prefetchWords hu2) (hlane _ _ hu1)) hu

theorem memOk_execWbr {h : Hdr} {b : MBody} : NextMemOk (execWbr h b s) := by
  unfold execWbr
  refine memOk_issue hm ?_
  intro a u hu
  refine Eff.memOk_ite hu ?_
  extract_lets +onlyGivenNames r note owed
  refine Eff.memOk_ite (State.memOk_modWarp hu) ?_
  exact Eff.memOk_ite (State.memOk_modWarp hu) (Eff.memOk_ite (State.memOk_modWarp hu) (State.memOk_modWarp hu))

/-! ## Atomics and transactions at issue -/

theorem State.memOk_issueAtomics {x : Ctx} {b : MBody} {op : Nat} {c16 : Bool} {dst : Option Nat} {lanes : List AtomLane}
    : (s.issueAtomics x b op c16 dst lanes).memOk = true := by
  unfold State.issueAtomics
  extract_lets +onlyGivenNames group scope s1
  have m1 : s1.memOk = true := by
    unfold s1
    refine State.memOk_each ?_ hm
    intro u1 y1 hu
    extract_lets +onlyGivenNames f s2
    have m2 : s2.memOk = true := State.memOk_fresh hu
    exact State.memOk_with m2 rfl rfl rfl rfl
  exact State.memOk_modWarp m1

theorem memOk_atomEff {x : Ctx} {b : MBody} {op : Nat} {c16 : Bool} {dst : Option Nat} {second : Nat} : (atomEff x s b op c16 dst second).MemOk
    := by
  unfold atomEff
  extract_lets +onlyGivenNames n
  split
  · exact trivial
  · rename_i t e
    have mt : t.memOk = true := State.memOk_of_snd (memOk_checkLanes hm (fun _ _ hu => Ctx.memOk_globalLane hu)) ‹_›
    exact Eff.memOk_ite hm (Eff.memOk_ite hm (Eff.memOk_ite hm (State.memOk_issueAtomics (State.memOk_bringLanes mt))))

theorem State.memOk_openTx {x : Ctx} {handler recon : DWord} {solo : Option Nat} : (s.openTx x handler recon solo).memOk = true := by
  unfold State.openTx
  exact State.memOk_modWarp hm

theorem State.memOk_askSolo {x : Ctx} {t : Nat} : (s.askSolo x t).memOk = true := by
  unfold State.askSolo
  exact State.memOk_modPart hm

theorem memOk_txOpenEff {h : Hdr} {b : JBody} {x : Ctx} : (txOpenEff h b x s).MemOk := by
  unfold txOpenEff
  extract_lets +onlyGivenNames open_
  split
  · exact State.memOk_writeBack (State.memOk_openTx hm)
  · exact Eff.memOk_ite (State.memOk_log _ _ _ _ _ _ _ (State.memOk_writeBack (State.memOk_openTx hm))) (State.memOk_askSolo hm)

theorem memOk_execTxbeg {h : Hdr} {b : JBody} : NextMemOk (execTxbeg h b s) := by
  unfold execTxbeg
  refine memOk_issue hm ?_
  intro a u hu
  extract_lets +onlyGivenNames target
  refine Eff.memOk_ite hu ?_
  split
  · exact trivial
  · refine Eff.memOk_ite trivial ?_
    extract_lets +onlyGivenNames ab
    exact Eff.memOk_ite (memOk_txOpenEff hu) (memOk_runAborting hu (fun _ _ hu1 => memOk_txOpenEff hu1))

theorem memOk_execTxend {h : Hdr} {b : VBody} : NextMemOk (execTxend h b s) := by
  unfold execTxend
  refine memOk_issue hm ?_
  intro a u hu
  extract_lets +onlyGivenNames c live
  exact Eff.memOk_ite hu (Eff.memOk_ite (State.memOk_modWarp hu) (Eff.memOk_ite hu (State.memOk_modWarp (State.memOk_fresh hu))))

/-! ## Integer arithmetic -/

theorem memOk_intOp {x : Ctx} {t : Nat} {sat : Bool} {d : BitVec 8} {f : Nat → ℤ} : (intOp x s t sat d f).MemOk := by
  unfold intOp
  exact memOk_results hm

theorem memOk_int2Op {x : Ctx} {b : VBody} {f : ℤ → ℤ → ℤ} : (int2Op x s b f).MemOk := by
  unfold int2Op
  exact memOk_intOp hm

theorem memOk_int1Op {x : Ctx} {b : VBody} {f : ℤ → ℤ} : (int1Op x s b f).MemOk := by
  unfold int1Op
  exact memOk_intOp hm

theorem memOk_bit2Op {x : Ctx} {b : VBody} {f : Nat → Nat → Nat} : (bit2Op x s b f).MemOk := by
  unfold bit2Op
  exact memOk_intOp hm

theorem memOk_immOp {x : Ctx} {b : IBody} {f : Nat → ℤ → ℤ} : (immOp x s b f).MemOk := by
  unfold immOp
  exact memOk_intOp hm

theorem memOk_shiftOp {x : Ctx} {b : VBody} {f : Nat → Nat → Nat → Nat} : (shiftOp x s b f).MemOk := by
  unfold shiftOp
  exact memOk_intOp hm

theorem memOk_wideOp {x : Ctx} {d : BitVec 8} {f : Nat → ℤ} : (wideOp x s d f).MemOk := by
  unfold wideOp
  exact memOk_results hm

/-! ## Bit operations -/

theorem memOk_bit1Op {x : Ctx} {b : VBody} {f : Nat → Nat → Nat} : (bit1Op x s b f).MemOk := by
  unfold bit1Op
  exact memOk_intOp hm

/-! ## Floating point -/

theorem memOk_fp2Op {x : Ctx} {b : VBody} {op : Fv → Fv → Option Fv} : (fp2Op x s b op).MemOk := by
  unfold fp2Op
  exact memOk_perThreadF hm

theorem memOk_fpSelect {x : Ctx} {b : VBody} {big : Bool} : (fpSelect x s b big).MemOk := by
  unfold fpSelect
  exact memOk_perThreadF hm

/-! ## Launches -/

theorem State.memOk_logVirt {die ctx vf cause : Nat} {va : DWord} {kind idx : Nat} {detail : DWord}
    : (s.logVirt die ctx vf cause va kind idx detail).memOk = true := by
  unfold State.logVirt
  refine State.memOk_ite ?_ (State.memOk_log _ _ _ _ _ _ _ hm)
  split
  · exact State.memOk_logPhys _ _ _ _ _ _ _ hm
  · split
    · exact State.memOk_logPhys _ _ _ _ _ _ _ hm
    · exact State.memOk_log _ _ _ _ _ _ _ hm

theorem State.memOk_refuse {ctx vf : Nat} {r : LaunchRec} {lrec : DWord} {cause : Nat} {extra : List Nat}
    : (s.refuse ctx vf r lrec cause extra).memOk = true := by
  unfold State.refuse
  exact State.memOk_ite (State.memOk_logVirt hm) (State.memOk_counterAdd (State.memOk_logVirt (State.memOk_ewError hm)))

theorem State.memOk_variant {ctx vf : Nat} {r : LaunchRec} {sig : DWord} : (s.variant ctx vf r sig).2.memOk = true := by
  unfold State.variant
  split
  · exact hm
  · split
    · exact State.memOk_of_snd (State.memOk_readVirt hm) ‹_›
    · rename_i t e
      have mt : t.memOk = true := State.memOk_of_snd (State.memOk_readVirt hm) ‹_›
      extract_lets +onlyGivenNames n
      split
      · exact mt
      · split
        · exact State.memOk_of_snd (State.memOk_readVirt mt) ‹_›
        · rename_i t1 e1
          have mt1 : t1.memOk = true := State.memOk_of_snd (State.memOk_readVirt mt) ‹_›
          extract_lets +onlyGivenNames flagsOf
          split
          · exact mt1
          · split <;> exact mt1

theorem State.memOk_depMet {ctx vf : Nat} {r : LaunchRec} : (s.depMet ctx vf r).2.memOk = true := by
  unfold State.depMet
  split
  · exact hm
  · split
    · exact hm
    · split
      · exact State.memOk_of_snd (State.memOk_readVirt hm) ‹_›
      · exact State.memOk_of_snd (State.memOk_readVirt hm) ‹_›

theorem State.memOk_accept {ctx vf : Nat} {lrec : DWord} {depth : Nat} {parent : Option (Nat × Nat × Nat)} {queue floor : Nat}
    : (s.accept ctx vf lrec depth parent queue floor).1.memOk = true := by
  unfold State.accept
  split
  · rename_i t e
    have mt : t.memOk = true := State.memOk_of_snd (State.memOk_readVirt hm) ‹_›
    exact State.memOk_logVirt mt
  · exact State.memOk_of_snd (State.memOk_readVirt hm) ‹_›
  · rename_i t _ e _
    have mt : t.memOk = true := State.memOk_of_snd (State.memOk_readVirt hm) ‹_›
    extract_lets +onlyGivenNames s1 r
    have m1 : s1.memOk = true := State.memOk_writeVirt _ _ _ _ _ _ _ mt
    split
    · exact State.memOk_refuse m1
    · split
      · exact State.memOk_refuse m1
      · extract_lets +onlyGivenNames sig
        split
        · rename_i t1 e1
          have mt1 : t1.memOk = true := State.memOk_of_snd (State.memOk_variant m1) ‹_›
          exact State.memOk_refuse mt1
        · rename_i t1 e1
          have mt1 : t1.memOk = true := State.memOk_of_snd (State.memOk_variant m1) ‹_›
          split
          · rename_i t2 e2
            have mt2 : t2.memOk = true := State.memOk_of_snd (State.memOk_depMet mt1) ‹_›
            exact State.memOk_refuse mt2
          · rename_i t2 e2
            have mt2 : t2.memOk = true := State.memOk_of_snd (State.memOk_depMet mt1) ‹_›
            extract_lets +onlyGivenNames seed s2 f g s3 s4
            have m2 : s2.memOk = true := by
              unfold s2
              refine State.memOk_ite mt2 ?_
              exact mt2
            have m3 : s3.memOk = true := State.memOk_fresh m2
            have m4 : s4.memOk = true := State.memOk_with m3 rfl rfl rfl rfl
            exact State.memOk_modPart m4

theorem State.memOk_launchChild {x : Ctx} {lrec : DWord} : (s.launchChild x lrec).memOk = true := by
  unfold State.launchChild
  split
  · extract_lets +onlyGivenNames r
    split
    · exact State.memOk_accept hm
    · exact State.memOk_modGrid (State.memOk_modTeam (State.memOk_accept hm))
  · exact hm

theorem State.memOk_launchAll {x : Ctx} {l : List DWord} : (s.launchAll x l).1.memOk = true := by
  induction l generalizing s with
  | nil => exact State.memOk_unstall hm
  | cons a l ih =>
    unfold State.launchAll
    split
    · exact State.memOk_stallAt hm
    · exact ih (State.memOk_launchChild hm)

theorem memOk_execGlaunch {h : Hdr} {b : VBody} : NextMemOk (execGlaunch h b s) := by
  unfold execGlaunch
  refine memOk_issue hm ?_
  intro x u hu
  extract_lets +onlyGivenNames rec_ done
  refine Eff.memOk_ite hu (Eff.memOk_ite trivial ?_)
  generalize hp : (if done = 0 then _ else _) = p
  have mp : p.2.memOk = true := by
    subst hp
    split
    · refine memOk_checkLanes hu ?_
      intro _ v hv
      split
      · exact hv
      · exact State.memOk_resolveParts hv
    · exact hu
  split
  · exact trivial
  · refine Eff.memOk_ite mp ?_
    extract_lets +onlyGivenNames r
    have hr : r.1.memOk = true := State.memOk_launchAll mp
    exact Eff.memOk_ite hr hr

theorem memOk_execLaunchAccept {vf : Nat} : NextMemOk (execLaunchAccept vf s) := by
  unfold execLaunchAccept
  split
  · exact hm
  · split
    · exact hm
    · extract_lets +onlyGivenNames pa qn take s1
      have m1 : s1.memOk = true := State.memOk_touchRun _ _ _ hm
      refine nextMemOk_ite hm ?_
      split
      · exact State.memOk_logPhys _ _ _ _ _ _ _ (State.memOk_modPart m1)
      · extract_lets +onlyGivenNames lrec
        refine nextMemOk_ite hm ?_
        extract_lets +onlyGivenNames s2
        have m2 : s2.memOk = true := State.memOk_flushBias _ _ m1
        exact nextMemOk_ite (State.memOk_log _ _ _ _ _ _ _ (State.memOk_modPart m2)) (State.memOk_modPart (State.memOk_accept m2))

theorem State.memOk_childGone {g : Grid} : (s.childGone g).memOk = true := by
  unfold State.childGone
  split
  · exact hm
  · extract_lets +onlyGivenNames lower s1 s2
    have m1 : s1.memOk = true := State.memOk_modGrid hm
    have m2 : s2.memOk = true := State.memOk_with m1 rfl rfl rfl rfl
    exact State.memOk_modCtx m2

theorem memOk_execDependencyReread {grid : Nat} : NextMemOk (execDependencyReread grid s) := by
  unfold execDependencyReread
  split
  · exact hm
  · refine nextMemOk_ite hm ?_
    split
    · rename_i t e
      have mt : t.memOk = true := State.memOk_of_snd (State.memOk_depMet hm) ‹_›
      exact State.memOk_modGrid mt
    · exact State.memOk_of_snd (State.memOk_depMet hm) ‹_›
    · rename_i t e
      have mt : t.memOk = true := State.memOk_of_snd (State.memOk_depMet hm) ‹_›
      exact State.memOk_refuse (State.memOk_dropGrids (State.memOk_childGone mt))

theorem memOk_execPriorityPromotion {grid : Nat} : NextMemOk (execPriorityPromotion grid s) := by
  unfold execPriorityPromotion
  exact State.memOk_modGrid hm

/-! ## Distribution of teams -/

theorem State.memOk_pushPkg {p : Partition} {vf die : Nat} {r : Range} : (s.pushPkg p vf die r).memOk = true := by
  unfold State.pushPkg
  exact hm

theorem memOk_execPackageRangeHandout {vf : Nat} : NextMemOk (execPackageRangeHandout vf s) := by
  unfold execPackageRangeHandout
  split
  · exact hm
  · split
    · exact hm
    · split
      · exact State.memOk_modPart (State.memOk_pushPkg hm)
      · split
        · exact hm
        · exact State.memOk_modPart (State.memOk_modGrid (State.memOk_pushPkg hm))

theorem memOk_execDieRangeHandout {die vf : Nat} : NextMemOk (execDieRangeHandout die vf s) := by
  unfold execDieRangeHandout
  split
  · split
    · exact hm
    · extract_lets +onlyGivenNames last s1
      have m1 : s1.memOk = true := hm
      exact State.memOk_modPart m1
  · exact hm

theorem State.memOk_bindTile {core k team ctx : Nat} : (s.bindTile core k team ctx).memOk = true := by
  unfold State.bindTile
  exact State.memOk_ite (State.memOk_modTile hm) (State.memOk_askSpill hm)

theorem State.memOk_startTeam {core : Nat} {cells : List Nat} {k : Nat} {g : Grid} {num : Nat} {screen : Option Screen}
    : (s.startTeam core cells k g num screen).memOk = true := by
  unfold State.startTeam
  split
  · exact hm
  · extract_lets +onlyGivenNames ix h slots tiles f gen team s1 s2 s3 s4 s5
    have m1 : s1.memOk = true := State.memOk_fresh hm
    have m2 : s2.memOk = true := State.memOk_with m1 rfl rfl rfl rfl
    have m3 : s3.memOk = true := State.memOk_each (fun _ _ hu => State.memOk_setWarp hu) m2
    have m4 : s4.memOk = true := State.memOk_each (fun _ _ hu => State.memOk_bindTile hu) m3
    have m5 : s5.memOk = true := State.memOk_modHive m4
    exact State.memOk_acquireL1 m5

theorem State.memOk_placeTeam {core : Nat} {cells : List Nat} {k : Nat} {g : Grid} {num : Nat} : (s.placeTeam core cells k g num).memOk = true
    := by
  unfold State.placeTeam
  exact State.memOk_modGrid (State.memOk_startTeam hm)

theorem State.memOk_placeShadow {of k : Nat} {g : Grid} {core : Nat} {cells : List Nat} : (s.placeShadow of k g core cells).memOk = true := by
  unfold State.placeShadow
  split
  · exact State.memOk_modTeam (State.memOk_startTeam hm)
  · exact hm

theorem State.memOk_placeLeft {y : LeftScreen} {g : Grid} {core : Nat} {cells : List Nat} : (s.placeLeft y g core cells).memOk = true := by
  unfold State.placeLeft
  refine State.memOk_startTeam ?_
  exact hm

theorem State.memOk_startFrom {hive : Nat} {r : Range} {g : Grid} {c : Nat × List Nat} : (s.startFrom hive r g c).memOk = true := by
  unfold State.startFrom
  extract_lets +onlyGivenNames q
  refine State.memOk_placeTeam ?_
  exact hm

theorem State.memOk_placeHead {hive : Nat} {r : Range} {l : List Range} {g : Grid} : (s.placeHead hive r l g).memOk = true := by
  unfold State.placeHead
  extract_lets +onlyGivenNames later
  have hlater : ∀ u : State, u.memOk = true → (later u).memOk = true := by
    intro u hu
    unfold later
    split
    · exact State.memOk_startFrom hu
    · exact hu
  split
  · refine State.memOk_ite (State.memOk_startFrom ?_) (hlater _ hm)
    exact hm
  · split
    · exact hlater _ (State.memOk_with hm rfl rfl rfl rfl)
    · exact State.memOk_ite hm (hlater _ hm)

theorem memOk_execTeamPlace {hive : Nat} : NextMemOk (execTeamPlace hive s) := by
  unfold execTeamPlace
  split
  · exact State.memOk_placeShadow hm
  · exact State.memOk_placeLeft hm
  · split
    · exact hm
    · split
      · exact hm
      · exact State.memOk_placeHead hm

theorem memOk_execFitWaitExpiry {hive : Nat} : NextMemOk (execFitWaitExpiry hive s) := by
  unfold execFitWaitExpiry
  split
  · change State.memOk _ = true
    refine State.memOk_ite ?_ hm
    exact hm
  · exact hm

theorem memOk_execHiveSteal {hive vf : Nat} : NextMemOk (execHiveSteal hive vf s) := by
  unfold execHiveSteal
  split
  · exact hm
  · refine nextMemOk_ite hm ?_
    split
    · exact hm
    · split
      · exact hm
      · extract_lets +onlyGivenNames c
        exact hm

theorem memOk_execDieSteal {die vf : Nat} : NextMemOk (execDieSteal die vf s) := by
  unfold execDieSteal
  split
  · exact hm
  · refine nextMemOk_ite hm ?_
    split
    · exact hm
    · extract_lets +onlyGivenNames c
      change State.memOk _ = true
      refine State.memOk_pushPkg ?_
      exact hm

theorem memOk_execTeamNotScreened {core team : Nat} : NextMemOk (execTeamNotScreened core team s) := by
  unfold execTeamNotScreened
  extract_lets +onlyGivenNames s1
  have m1 : s1.memOk = true := hm
  exact State.memOk_modTeam m1

theorem State.memOk_screenRetire {ix : Nat} {t : Team} : (s.screenRetire ix t).memOk = true := by
  unfold State.screenRetire
  split
  · exact hm
  · refine State.memOk_ite hm ?_
    extract_lets +onlyGivenNames crc
    split
    · exact State.memOk_ite hm ((State.sameMem_countRes _ _ _ _ _).memOk (State.memOk_log _ _ _ _ _ _ _ hm))
    · split
      · exact State.memOk_modTeam hm
      · refine State.memOk_ite hm ?_
        exact hm

theorem memOk_execTeamRetire {core team : Nat} : NextMemOk (execTeamRetire core team s) := by
  unfold execTeamRetire
  extract_lets +onlyGivenNames ix
  split
  · exact hm
  · refine nextMemOk_ite hm ?_
    extract_lets +onlyGivenNames shadow s1
    have m1 : s1.memOk = true := State.memOk_removeTeam (State.memOk_screenRetire hm)
    exact State.memOk_ite m1 (State.memOk_modGrid m1)

theorem memOk_execGridRetire {grid : Nat} : NextMemOk (execGridRetire grid s) := by
  unfold execGridRetire
  split
  · exact hm
  · refine nextMemOk_ite hm ?_
    extract_lets +onlyGivenNames s1 s2
    have m1 : s1.memOk = true := by
      unfold s1
      split
      · exact State.memOk_log _ _ _ _ _ _ _ hm
      · exact hm
    have m2 : s2.memOk = true := State.memOk_counterAddOn m1
    exact State.memOk_dropGrids (State.memOk_childGone m2)

/-! ## The memory system's events -/

theorem State.memOk_holdReq {k id : Nat} : (s.holdReq k id).memOk = true := by
  unfold State.holdReq
  extract_lets +onlyGivenNames l
  exact hm

theorem State.memOk_through {vf id : Nat} {l : List (Nat × Nat × Nat)} : BothMemOk (s.through vf id l) := by
  unfold State.through
  refine bothMemOk_ite hm ?_
  extract_lets +onlyGivenNames l1
  split
  · exact State.memOk_holdReq hm
  · change State.memOk _ = true
    refine State.memOk_each ?_ hm
    intro u1 y1 hu
    split
    · exact hu
    · refine State.memOk_ite hu ?_
      extract_lets +onlyGivenNames left
      exact hu

theorem memOk_execStoreSend {id : Nat} : NextMemOk (execStoreSend id s) := by
  unfold execStoreSend
  split
  · exact hm
  · refine nextMemOk_ite hm ?_
    extract_lets +onlyGivenNames l as
    split
    · rename_i t e
      have mt : t.memOk = true := State.memOk_of_error (State.memOk_through hm) ‹_›
      exact mt
    · rename_i t e
      have mt : t.memOk = true := State.memOk_of_ok (State.memOk_through hm) ‹_›
      exact mt

theorem State.memOk_homedL1 {core wa : Nat} {mask : BitVec 4} {lost : Bool} : (s.homedL1 core wa mask lost).memOk = true := by
  unfold State.homedL1
  exact State.memOk_modCore hm

theorem State.memOk_applyStore {x : Store} {pa : Nat} : SomeMemOk (s.applyStore x pa) := by
  unfold State.applyStore
  extract_lets +onlyGivenNames ws
  refine someMemOk_ite trivial ?_
  extract_lets +onlyGivenNames lost rel s1 s2 s3 s4
  have m1 : s1.memOk = true := State.memOk_each (fun _ _ hu => State.memOk_homeWriteLogged _ _ _ _ _ _ _ hu) hm
  have m2 : s2.memOk = true := State.memOk_flushBias _ _ m1
  have m3 : s3.memOk = true := State.memOk_wroteWords m2
  have m4 : s4.memOk = true := State.memOk_each (fun _ _ hu => State.memOk_markL2 hu) m3
  exact State.memOk_each (fun _ _ hu => State.memOk_homedL1 hu) m4

theorem State.memOk_denyStore {id : Nat} {x : Store} {pa : Nat} : (s.denyStore id x pa).memOk = true := by
  unfold State.denyStore
  extract_lets +onlyGivenNames f ctx s1
  have m1 : s1.memOk = true := hm
  exact State.memOk_ite (State.memOk_contextFault m1) (State.memOk_drainEngine (State.memOk_logFault m1))

theorem State.memOk_storeDone {id : Nat} {x : Store} : (s.storeDone id x).memOk = true := by
  unfold State.storeDone
  extract_lets +onlyGivenNames s1
  have m1 : s1.memOk = true := hm
  exact State.memOk_each (fun _ _ hu => State.memOk_homedL1 hu) m1

theorem State.memOk_hostStore {x : Store} : (s.hostStore x).memOk = true := by
  unfold State.hostStore
  extract_lets +onlyGivenNames ws rel s1
  have m1 : s1.memOk = true := State.memOk_each (fun _ _ hu => (State.sameMem_putRel _ _ _ _ _).memOk hu) hm
  clear_value s1
  refine State.memOk_wroteWords ?_
  exact State.memOk_hostWrite _ _ m1

theorem memOk_execHomeStore {id copy : Nat} : NextMemOk (execHomeStore id copy s) := by
  unfold execHomeStore
  split
  · exact hm
  · refine nextMemOk_ite hm ?_
    refine nextMemOk_ite (State.memOk_storeDone (State.memOk_hostStore hm)) ?_
    refine nextMemOk_ite ?_ ?_
    · split
      · exact State.memOk_denyStore hm
      · rename_i t e
        have mt : t.memOk = true := State.memOk_of_some (State.memOk_applyStore hm) ‹_›
        exact State.memOk_storeDone mt
    · refine nextMemOk_ite ?_ ?_
      · extract_lets +onlyGivenNames r
        have hr : r.1.memOk = true := by
          unfold r
          refine State.memOk_foldFst _ ?_ _ _ hm
          intro acc1 pa1 hu
          split
          · exact State.memOk_of_some (State.memOk_applyStore hu) ‹_›
          · exact hu
        split
        · exact State.memOk_denyStore hr
        · exact State.memOk_storeDone hr
      · split
        · exact hm
        · split
          · exact State.memOk_denyStore hm
          · rename_i t e
            have mt : t.memOk = true := State.memOk_of_some (State.memOk_applyStore hm) ‹_›
            extract_lets +onlyGivenNames rest
            change State.memOk _ = true
            refine State.memOk_ite (State.memOk_storeDone mt) ?_
            exact mt

theorem State.memOk_ackL1 {x : Store} {stamp : DWord} : (s.ackL1 x stamp).memOk = true := by
  unfold State.ackL1
  exact State.memOk_each (fun _ _ hu => State.memOk_modCore hu) hm

theorem State.memOk_ackWarp {core slot : Nat} {stamp : DWord} : (s.ackWarp core slot stamp).memOk = true := by
  unfold State.ackWarp
  exact State.memOk_modWarp hm

theorem memOk_execStoreAck {id : Nat} : NextMemOk (execStoreAck id s) := by
  unfold execStoreAck
  split
  · exact hm
  · split
    · extract_lets +onlyGivenNames s1 s2
      have m1 : s1.memOk = true := hm
      have m2 : s2.memOk = true := State.memOk_ite m1 (State.memOk_ackL1 m1)
      exact State.memOk_ite (State.memOk_ackWarp m2) (State.memOk_drainEngine m2)
    · exact hm

theorem State.memOk_gotInfo {core slot : Nat} {got : List RelInfo} : (s.gotInfo core slot got).memOk = true := by
  unfold State.gotInfo
  exact State.memOk_modWarp hm

theorem State.memOk_fillFor {l : Load} {was : List Nat} : (s.fillFor l was).memOk = true := by
  unfold State.fillFor
  extract_lets +onlyGivenNames s1
  have m1 : s1.memOk = true := State.memOk_each (fun _ _ hu => State.memOk_markL2 hu) hm
  exact State.memOk_ite m1 (State.memOk_each (fun _ _ hu => State.memOk_l1Fill hu) m1)

theorem State.memOk_fillMore {l : Load} {was : List Nat} : (s.fillMore l was).memOk = true := by
  unfold State.fillMore
  exact State.memOk_ite (State.memOk_prefetchWords hm) hm

theorem State.memOk_takeReady {id : Nat} {l : Load} {p : LoadLane → Bool} : (s.takeReady id l p).memOk = true := by
  unfold State.takeReady
  extract_lets +onlyGivenNames ready
  refine State.memOk_ite hm ?_
  extract_lets +onlyGivenNames sub far s1
  have m1 : s1.memOk = true :=
    State.memOk_each (fun _ _ hu => State.memOk_touchL1 hu) (State.memOk_each (fun _ _ hu => State.memOk_touch _ _ hu) hm)
  refine State.memOk_fillFor ?_
  exact State.memOk_with m1 rfl rfl rfl rfl

theorem State.memOk_serveLoad {id : Nat} {l : Load} : (s.serveLoad id l).MemOk := by
  unfold State.serveLoad
  refine Reply.memOk_ite hm ?_
  extract_lets +onlyGivenNames bad
  clear_value bad
  split
  · exact trivial
  · extract_lets +onlyGivenNames dram
    clear_value dram
    refine Reply.memOk_ite ?_ ?_
    · extract_lets +onlyGivenNames known s1
      clear_value known
      have m1 : s1.memOk = true := State.memOk_each (fun _ _ hu => State.memOk_queueRead hu) hm
      exact State.memOk_ite (State.memOk_takeReady m1) m1
    · extract_lets +onlyGivenNames far s1
      clear_value far
      have m1 : s1.memOk = true :=
        State.memOk_each (fun _ _ hu => State.memOk_touchL1 hu) (State.memOk_each (fun _ _ hu => State.memOk_touch _ _ hu) hm)
      split
      · exact m1
      · extract_lets +onlyGivenNames bytes
        clear_value bytes
        split
        · exact State.memOk_of_error (State.memOk_through m1) ‹_›
        · rename_i t e
          have mt : t.memOk = true := State.memOk_of_ok (State.memOk_through m1) ‹_›
          extract_lets +onlyGivenNames out got s2 s3
          clear_value out got
          have m2 : s2.memOk = true := State.memOk_fillMore (State.memOk_fillFor mt)
          have m3 : s3.memOk = true := State.memOk_each (fun _ _ hu => State.memOk_flushBias _ _ hu) m2
          exact State.memOk_ite (State.memOk_gotInfo m3) (State.memOk_acquire m3)

theorem memOk_execLoadReply {id : Nat} {evict : List Nat} : NextMemOk (execLoadReply id evict s) := by
  unfold execLoadReply
  split
  · exact hm
  · refine nextMemOk_ite hm ?_
    extract_lets +onlyGivenNames drop
    have hdrop : ∀ (s : State), s.memOk = true → (drop s).memOk = true := by
      intro u hu
      unfold drop
      exact hu
    split
    · exact Reply.MemOk.of_eq (b := .wait _) (State.memOk_serveLoad hm) ‹_›
    · exact State.memOk_contextFault (hdrop _ hm)
    · rename_i t _ e
      have mt : t.memOk = true := Reply.MemOk.of_eq (b := .poison _ _) (State.memOk_serveLoad hm) ‹_›
      exact State.memOk_killWarp (hdrop _ mt)
    · rename_i t _ e
      have mt : t.memOk = true := Reply.MemOk.of_eq (b := .data _ _) (State.memOk_serveLoad hm) ‹_›
      exact State.memOk_modCore (State.memOk_writeBack (hdrop _ mt))

theorem State.memOk_beginGroup {a : Atomic} : (s.beginGroup a).memOk = true := by
  unfold State.beginGroup
  exact hm

theorem State.memOk_atomicStep {id : Nat} {a : Atomic} : (s.atomicStep id a).memOk = true := by
  unfold State.atomicStep
  extract_lets +onlyGivenNames n s1 m got v bytes rel s2
  have m1 : s1.memOk = true := State.memOk_migrateRun hm
  have m2 : s2.memOk = true := by
    unfold s2
    refine State.memOk_ite m1 ?_
    exact State.memOk_wroteWords (State.memOk_pastL1 (State.memOk_each (fun _ _ hu => State.memOk_homeWriteLogged _ _ _ _ _ _ _ hu) m1))
  exact State.memOk_with m2 rfl rfl rfl rfl

theorem memOk_execAtomicExecute {id : Nat} : NextMemOk (execAtomicExecute id s) := by
  unfold execAtomicExecute
  split
  · exact hm
  · extract_lets +onlyGivenNames lanes drop
    have hdrop : ∀ (s : State), s.memOk = true → (drop s).memOk = true := by
      intro u hu
      unfold drop
      exact hu
    refine nextMemOk_ite hm ?_
    extract_lets +onlyGivenNames s1
    have m1 : s1.memOk = true := by
      unfold s1
      refine State.memOk_ite hm ?_
      exact State.memOk_each (fun _ _ hu => State.memOk_each (fun _ _ hu1 => State.memOk_ite hu1 (State.memOk_touch _ _ hu1)) hu) hm
    split
    · extract_lets +onlyGivenNames f
      exact State.memOk_ite (State.memOk_contextFault (hdrop _ m1)) (State.memOk_drainEngine (State.memOk_logFault (hdrop _ m1)))
    · extract_lets +onlyGivenNames here
      exact State.memOk_each (fun _ _ hu => State.memOk_queueRead hu) (State.memOk_each (fun _ _ hu => State.memOk_migrate _ hu) m1)
    · extract_lets +onlyGivenNames f s2
      have m2 : s2.memOk = true := State.memOk_with m1 rfl rfl rfl rfl
      exact State.memOk_ite (State.memOk_killWarp m2) (State.memOk_drainEngine (State.memOk_logFault m2))
    · split
      · exact State.memOk_of_error (State.memOk_through m1) ‹_›
      · rename_i t e
        have mt : t.memOk = true := State.memOk_of_ok (State.memOk_through m1) ‹_›
        exact State.memOk_atomicStep (State.memOk_beginGroup (State.memOk_each (fun _ _ hu => State.memOk_migrateRun hu) mt))

theorem memOk_execAtomicReply {id : Nat} : NextMemOk (execAtomicReply id s) := by
  unfold execAtomicReply
  split
  · exact hm
  · split
    · exact hm
    · extract_lets +onlyGivenNames s1
      have m1 : s1.memOk = true := hm
      refine nextMemOk_ite (State.memOk_drainEngine m1) ?_
      extract_lets +onlyGivenNames s2
      have m2 : s2.memOk = true := State.memOk_gotInfo (State.memOk_writeBack (State.memOk_ackWarp m1))
      exact State.memOk_ite (State.memOk_acquire m2) m2

theorem State.memOk_validateOrphan {core slot thread : Nat} : (s.validateOrphan core slot thread).memOk = true := by
  unfold State.validateOrphan
  split
  · exact hm
  · extract_lets +onlyGivenNames id
    refine State.memOk_ite hm ?_
    split
    · exact State.memOk_of_error (State.memOk_through hm) ‹_›
    · rename_i t e
      have mt : t.memOk = true := State.memOk_of_ok (State.memOk_through hm) ‹_›
      exact State.memOk_commitOrphan mt

theorem memOk_execTxValidate {core slot thread : Nat} : NextMemOk (execTxValidate core slot thread s) := by
  unfold execTxValidate
  split
  · exact State.memOk_validateOrphan hm
  · extract_lets +onlyGivenNames vf
    refine nextMemOk_ite hm ?_
    split
    · exact State.memOk_of_error (State.memOk_through hm) ‹_›
    · rename_i t e
      have mt : t.memOk = true := State.memOk_of_ok (State.memOk_through hm) ‹_›
      split
      · exact State.memOk_of_some (State.memOk_commitTx mt) ‹_›
      · exact State.memOk_contextFault (State.memOk_modWarp mt)

theorem State.memOk_again {core slot entry : Nat} {run : Instr → State → Host.Outcome State Fault Refusal}
    (hf : ∀ (i : Instr) (u : State), u.memOk = true → NextMemOk (run i u)) : NextMemOk (s.again core slot entry run) := by
  unfold State.again
  split
  · exact hm
  · extract_lets +onlyGivenNames e
    split
    · exact hm
    · exact nextMemOk_ite (hf _ _ (State.memOk_with hm rfl rfl rfl rfl)) hm

theorem memOk_execSoloGrant {vf : Nat} : NextMemOk (execSoloGrant vf s) := by
  unfold execSoloGrant
  split
  · exact hm
  · split
    · exact hm
    · refine nextMemOk_ite hm ?_
      extract_lets +onlyGivenNames s1
      have m1 : s1.memOk = true := State.memOk_modPart hm
      refine State.memOk_again m1 ?_
      intro a u hu
      split
      · exact memOk_execTxbeg hu
      · exact hu

theorem memOk_execSoloTimeout {vf : Nat} : NextMemOk (execSoloTimeout vf s) := by
  unfold execSoloTimeout
  split
  · exact hm
  · refine nextMemOk_ite hm ?_
    split
    · exact State.memOk_releaseSolo hm
    · exact State.memOk_ite hm (State.memOk_abortInPlace hm)

theorem memOk_execCwaitReread {core slot entry : Nat} : NextMemOk (execCwaitReread core slot entry s) := by
  unfold execCwaitReread
  extract_lets +onlyGivenNames waits
  refine nextMemOk_ite hm ?_
  refine State.memOk_again hm ?_
  intro a u hu
  split
  · exact memOk_execCwait hu
  · exact memOk_execCyield hu
  · exact hu

theorem memOk_execSyncEvict {word : Nat} : NextMemOk (execSyncEvict word s) := by
  unfold execSyncEvict
  exact State.memOk_ite hm ((State.sameMem_syncOut _ _).memOk hm)

theorem memOk_execL2Writeback {frame : Nat} : NextMemOk (execL2Writeback frame s) := by
  unfold execL2Writeback
  extract_lets +onlyGivenNames dirty
  refine nextMemOk_ite ((State.sameMem_l2Evict _ _).memOk hm) ?_
  change State.memOk _ = true
  refine State.memOk_each ?_ hm
  intro u1 w1 hu
  extract_lets +onlyGivenNames h s1
  have m1 : s1.memOk = true := (State.sameMem_pushWrite _ _ _ _).memOk hu
  exact State.memOk_with m1 rfl rfl rfl rfl

theorem memOk_execTlbWalk {core ctx : Nat} {va : DWord} : NextMemOk (execTlbWalk core ctx va s) := by
  unfold execTlbWalk
  refine nextMemOk_ite hm ?_
  extract_lets +onlyGivenNames s1
  have m1 : s1.memOk = true := State.memOk_walked _ _ _ hm
  split
  · exact State.memOk_fillTlb m1
  · exact m1

theorem State.memOk_activateBank {stack ch slice bank : Nat} : (s.activateBank stack ch slice bank).memOk = true := by
  unfold State.activateBank
  extract_lets +onlyGivenNames ix
  split
  · exact hm
  · refine State.memOk_ite hm ?_
    refine State.memOk_ite ?_ ?_
    · exact hm
    · extract_lets +onlyGivenNames s1
      have m1 : s1.memOk = true := hm
      exact State.memOk_ite m1 (State.memOk_logPhys _ _ _ _ _ _ _ m1)

theorem State.memOk_prechargeBank {stack ch slice bank : Nat} : (s.prechargeBank stack ch slice bank).memOk = true := by
  unfold State.prechargeBank
  extract_lets +onlyGivenNames ix
  split
  · exact hm
  · extract_lets +onlyGivenNames wanted
    refine State.memOk_ite hm ?_
    exact hm

theorem memOk_execDramActivate {stack ch slice bank : Nat} : NextMemOk (execDramActivate stack ch slice bank s) := by
  unfold execDramActivate
  exact State.memOk_activateBank hm

theorem memOk_execDramPrecharge {stack ch slice bank : Nat} : NextMemOk (execDramPrecharge stack ch slice bank s) := by
  unfold execDramPrecharge
  exact State.memOk_prechargeBank hm

theorem State.memOk_bankTurns : s.bankTurns.memOk = true := by
  unfold State.bankTurns
  extract_lets +onlyGivenNames s1
  have m1 : s1.memOk = true := State.memOk_each (fun _ _ hu => State.memOk_prechargeBank hu) hm
  exact State.memOk_each (fun _ _ hu => State.memOk_activateBank hu) m1

theorem State.memOk_holdReady {q : List WordReq} : (s.holdReady q).memOk = true := by
  unfold State.holdReady
  exact State.memOk_each (fun _ _ hu => State.memOk_holdReq hu) hm

theorem State.memOk_arrived {wa : Nat} : (s.arrived wa).memOk = true := by
  unfold State.arrived
  extract_lets +onlyGivenNames s1
  have m1 : s1.memOk = true := State.memOk_ite (State.memOk_migrate _ hm) hm
  exact State.memOk_each (fun _ _ hu => State.memOk_ite hu (State.memOk_takeReady hu)) m1

theorem State.memOk_serveReq {fail : Bool} {r : WordReq} : (s.serveReq fail r).memOk = true := by
  unfold State.serveReq
  refine State.memOk_ite ((State.sameMem_reachDram _ _ _).memOk (State.memOk_setDram _ _ _ hm)) ?_
  extract_lets +onlyGivenNames v s1
  have m1 : s1.memOk = true := State.memOk_hearthRead _ _ hm
  refine State.memOk_ite m1 ?_
  extract_lets +onlyGivenNames x y s2 s3
  have m2 : s2.memOk = true := by
    unfold s2
    refine State.memOk_arrived ?_
    exact State.memOk_with m1 rfl rfl rfl rfl
  have m3 : s3.memOk = true := State.memOk_ite m2 (State.memOk_each (fun _ _ hu => State.memOk_l1Fill hu) m2)
  exact (State.sameMem_l2Trim _ _ _).memOk (State.memOk_flushBias _ _ m3)

theorem memOk_execBurst {stack ch retry : Nat} : NextMemOk (execBurst stack ch retry s) := by
  unfold execBurst
  extract_lets +onlyGivenNames k q
  refine nextMemOk_ite hm ?_
  extract_lets +onlyGivenNames pick s1
  have m1 : s1.memOk = true := State.memOk_holdReady hm
  refine nextMemOk_ite m1 ?_
  extract_lets +onlyGivenNames r pick1 s2 s3 vfs s4 s5
  have hr : r.1.memOk = true := by
    unfold r
    refine State.memOk_foldFst _ ?_ _ _ m1
    intro acc1 r11 hu
    split
    · exact State.memOk_of_error (State.memOk_through hu) ‹_›
    · exact State.memOk_of_ok (State.memOk_through hu) ‹_›
  have m3 : s3.memOk = true := State.memOk_with hr rfl rfl rfl rfl
  have m4 : s4.memOk = true := by
    unfold s4
    refine State.memOk_each ?_ m3
    intro u1 x1 hu
    extract_lets +onlyGivenNames s6
    have m6 : s6.memOk = true := State.memOk_foldl (fun _ _ hu1 => State.memOk_countPerf hu1) (State.memOk_countEvent hu)
    exact State.memOk_ite ((State.sameMem_logMgmt _ _).memOk m6) m6
  have m5 : s5.memOk = true := State.memOk_foldl (fun _ _ hu => State.memOk_countPerf hu) m4
  exact State.memOk_each (fun _ _ hu => State.memOk_serveReq hu) m5

/-! ## Copies and collectives -/

theorem memOk_copyIssue {x : Ctx} {b : VBody} {kind : CopyKind} {loopN stages pitch : Nat} {step : List ℤ} {first nteams : Nat}
    : (copyIssue x s b kind loopN stages pitch step first nteams).MemOk := by
  unfold copyIssue
  refine Eff.memOk_ite hm ?_
  split
  · exact trivial
  · extract_lets +onlyGivenNames h ch
    refine Eff.memOk_ite hm ?_
    refine Ctx.memOk_enqueue hm ?_
    intro u hu
    extract_lets +onlyGivenNames f op s1
    have m1 : s1.memOk = true := State.memOk_modWarp (State.memOk_modHive (State.memOk_fresh hu))
    exact State.memOk_with m1 rfl rfl rfl rfl

theorem memOk_execKcoll {h : Hdr} {b : VBody} : NextMemOk (execKcoll h b s) := by
  unfold execKcoll
  refine memOk_issue hm ?_
  intro a u hu
  extract_lets +onlyGivenNames g first n bad
  clear_value g first n bad
  split
  · exact hu
  · refine Eff.memOk_ite hu ?_
    refine Eff.memOk_ite trivial ?_
    split
    · exact trivial
    · extract_lets +onlyGivenNames die q
      clear_value die q
      refine Eff.memOk_ite hu ?_
      refine Ctx.memOk_enqueue hu ?_
      intro u1 hu1
      extract_lets +onlyGivenNames seq f c s1 s2 s3
      clear_value seq c
      have m1 : s1.memOk = true := State.memOk_fresh hu1
      have m2 : s2.memOk = true := State.memOk_with m1 rfl rfl rfl rfl
      have m3 : s3.memOk = true := State.memOk_modTeam m2
      exact State.memOk_modWarp m3

theorem State.memOk_setOp {hive ch : Nat} {op : CopyOp} : (s.setOp hive ch op).memOk = true := by
  unfold State.setOp
  exact State.memOk_modHive hm

theorem State.memOk_engineError {die ctx vf : Nat} {counter : Option DWord} {cause : Nat} {va : DWord} {kind idx : Nat}
    : (s.engineError die ctx vf counter cause va kind idx).memOk = true := by
  unfold State.engineError
  exact State.memOk_logVirt (State.memOk_ewErrorOn hm)

theorem State.memOk_stopCopy {hive ch : Nat} {op : CopyOp} {cause : Nat} {va : DWord} : (s.stopCopy hive ch op cause va).memOk = true := by
  unfold State.stopCopy
  exact State.memOk_engineError (State.memOk_setOp hm)

theorem memOk_execCopyAccept {hive ch : Nat} : NextMemOk (execCopyAccept hive ch s) := by
  unfold execCopyAccept
  split
  · exact hm
  · refine nextMemOk_ite hm ?_
    split
    · rename_i t e
      have mt : t.memOk = true := State.memOk_of_snd (State.memOk_readVirt hm) ‹_›
      exact State.memOk_stopCopy mt
    · rename_i t e
      have mt : t.memOk = true := State.memOk_of_snd (State.memOk_readVirt hm) ‹_›
      split
      · exact State.memOk_stopCopy mt
      · exact nextMemOk_ite (State.memOk_stopCopy mt) (State.memOk_setOp mt)

theorem State.memOk_combPut {vf engine hive : Nat} {cells : List Nat} {ca n : Nat} {v : Word} {poison : Bool}
    : (s.combPut vf engine hive cells ca n v poison).memOk = true := by
  unfold State.combPut
  split
  · exact hm
  · extract_lets +onlyGivenNames s1
    have m1 : s1.memOk = true := State.memOk_each (fun _ _ hu => State.memOk_combWrite hu) hm
    exact State.memOk_ite (State.memOk_modHive m1) m1

theorem State.memOk_globalGet {die ctx vf : Nat} {ga : DWord} {n : Nat} : (s.globalGet die ctx vf ga n).2.memOk = true := by
  unfold State.globalGet
  split
  · exact hm
  · extract_lets +onlyGivenNames s1
    have m1 : s1.memOk = true := State.memOk_walked _ _ _ hm
    split
    · exact m1
    · split
      · exact m1
      · extract_lets +onlyGivenNames s2
        have m2 : s2.memOk = true := State.memOk_touchRun _ _ _ (State.memOk_ite (State.memOk_bringSync _ _ _ m1) m1)
        split
        · exact m2
        · split <;> exact m2

theorem State.memOk_poisonHome {wa : Nat} : (s.poisonHome wa).memOk = true := by
  unfold State.poisonHome
  refine State.memOk_ite ?_ ((State.sameMem_pushWrite _ _ _ _).memOk hm)
  exact hm

theorem State.memOk_globalPut {die ctx vf : Nat} {ga : DWord} {n : Nat} {v : Word} {poison : Bool} {src : LogSrc}
    : (s.globalPut die ctx vf ga n v poison src).2.memOk = true := by
  unfold State.globalPut
  split
  · exact hm
  · extract_lets +onlyGivenNames r
    split
    · split
      · exact State.memOk_writeVirt _ _ _ _ _ _ _ hm
      · exact State.memOk_each (fun _ _ hu => State.memOk_poisonHome hu) (State.memOk_writeVirt _ _ _ _ _ _ _ hm)
    · exact State.memOk_writeVirt _ _ _ _ _ _ _ hm

theorem State.memOk_fetchElem {die : Nat} {op : CopyOp} {l : Layout} {e : CopyElem} : (s.fetchElem die op l e).2.memOk = true := by
  unfold State.fetchElem
  split
  · exact State.memOk_globalGet hm
  · exact hm

theorem State.memOk_moveElem {hive : Nat} {op : CopyOp} {l : Layout} {t : Team} {e : CopyElem} : (s.moveElem hive op l t e).1.memOk = true := by
  unfold State.moveElem
  extract_lets +onlyGivenNames die n
  split
  · exact hm
  · split
    · exact hm
    · split
      · exact State.memOk_globalPut (State.memOk_combRead hm)
      · split
        · exact State.memOk_of_snd (State.memOk_fetchElem hm) ‹_›
        · rename_i t1 e1
          have mt1 : t1.memOk = true := State.memOk_of_snd (State.memOk_fetchElem hm) ‹_›
          exact State.memOk_combPut mt1

theorem State.memOk_movePart {hive : Nat} {op : CopyOp} {l : Layout} : (s.movePart hive op l).1.memOk = true := by
  unfold State.movePart
  split
  · exact hm
  · refine State.memOk_foldFst _ ?_ _ _ hm
    intro acc1 e1 hu
    split
    · exact hu
    · exact State.memOk_moveElem hu

theorem State.memOk_readPart {hive : Nat} {op : CopyOp} {l : Layout} : (s.readPart hive op l).2.memOk = true := by
  unfold State.readPart
  refine State.memOk_fold _ ?_ _ _ hm
  intro acc1 e1 hu
  split
  · exact hu
  · split
    · exact State.memOk_of_snd (State.memOk_fetchElem hu) ‹_›
    · exact State.memOk_of_snd (State.memOk_fetchElem hu) ‹_›

theorem State.memOk_mcastSent {op : CopyOp} {n : Nat} : (s.mcastSent op n).memOk = true := by
  unfold State.mcastSent
  exact State.memOk_modWarp hm

theorem State.memOk_mcastAcked {op : CopyOp} {n : Nat} : (s.mcastAcked op n).memOk = true := by
  unfold State.mcastAcked
  exact State.memOk_modWarp hm

theorem memOk_execCopyPart {hive ch : Nat} : NextMemOk (execCopyPart hive ch s) := by
  unfold execCopyPart
  split
  · exact hm
  · extract_lets +onlyGivenNames cost
    refine nextMemOk_ite hm ?_
    split
    · exact State.memOk_of_error (State.memOk_through hm) ‹_›
    · rename_i t e
      have mt : t.memOk = true := State.memOk_of_ok (State.memOk_through hm) ‹_›
      extract_lets +onlyGivenNames s1
      have m1 : s1.memOk = true := State.memOk_modHive mt
      refine nextMemOk_ite ?_ ?_
      · split
        · rename_i t1 e1
          have mt1 : t1.memOk = true := State.memOk_of_snd (State.memOk_readPart m1) ‹_›
          exact State.memOk_stopCopy mt1
        · rename_i t1 e1
          have mt1 : t1.memOk = true := State.memOk_of_snd (State.memOk_readPart m1) ‹_›
          exact State.memOk_mcastSent (State.memOk_setOp mt1)
      · split
        · rename_i t1 _ e1
          have mt1 : t1.memOk = true := State.memOk_of_fst (State.memOk_movePart m1) ‹_›
          exact State.memOk_stopCopy mt1
        · rename_i t1 e1
          have mt1 : t1.memOk = true := State.memOk_of_fst (State.memOk_movePart m1) ‹_›
          exact State.memOk_setOp mt1

theorem State.memOk_deliver {engine : Nat} {op : CopyOp} {l : Layout} {hive : Nat} {t : Team} {p : Nat}
    : (s.deliver engine op l hive t p).1.memOk = true := by
  unfold State.deliver
  extract_lets +onlyGivenNames n
  refine State.memOk_foldFst _ ?_ _ _ hm
  intro acc1 y1 hu
  split
  · exact hu
  · split
    · exact hu
    · exact State.memOk_combPut hu

theorem memOk_execMcastDelivery {hive ch index : Nat} : NextMemOk (execMcastDelivery hive ch index s) := by
  unfold execMcastDelivery
  split
  · exact hm
  · split
    · refine nextMemOk_ite hm ?_
      extract_lets +onlyGivenNames op' s1
      have m1 : s1.memOk = true := State.memOk_engineError (State.memOk_setOp hm)
      split
      · exact m1
      · extract_lets +onlyGivenNames sent
        split
        · extract_lets +onlyGivenNames cost p
          refine nextMemOk_ite hm ?_
          split
          · exact State.memOk_of_error (State.memOk_through hm) ‹_›
          · rename_i t e
            have mt : t.memOk = true := State.memOk_of_ok (State.memOk_through hm) ‹_›
            split
            · rename_i t1 _ e1
              have mt1 : t1.memOk = true := State.memOk_of_fst (State.memOk_deliver (State.memOk_modHive mt)) ‹_›
              exact State.memOk_mcastAcked (State.memOk_stopCopy mt1)
            · rename_i t1 e1
              have mt1 : t1.memOk = true := State.memOk_of_fst (State.memOk_deliver (State.memOk_modHive mt)) ‹_›
              exact State.memOk_ite (State.memOk_setOp mt1) (State.memOk_mcastAcked (State.memOk_setOp mt1))
        · exact nextMemOk_ite hm (State.memOk_mcastAcked m1)
    · exact hm

theorem memOk_execCopyComplete {hive ch : Nat} : NextMemOk (execCopyComplete hive ch s) := by
  unfold execCopyComplete
  split
  · exact hm
  · extract_lets +onlyGivenNames rest parts whole
    refine nextMemOk_ite hm ?_
    extract_lets +onlyGivenNames s1
    have m1 : s1.memOk = true := State.memOk_counterAddOn hm
    exact nextMemOk_ite (State.memOk_opDone (State.memOk_modHive m1)) (State.memOk_setOp m1)

theorem memOk_execBloopIteration {hive ch : Nat} : NextMemOk (execBloopIteration hive ch s) := by
  unfold execBloopIteration
  split
  · exact hm
  · extract_lets +onlyGivenNames st
    refine nextMemOk_ite hm ?_
    exact nextMemOk_ite (State.memOk_setOp hm) (nextMemOk_ite (State.memOk_setOp hm) (nextMemOk_ite (State.memOk_stopCopy hm) hm))

theorem State.memOk_collElem {die : Nat} {cs : List Contribution} {c : Contribution} {i : Nat} : (s.collElem die cs c i).1.memOk = true := by
  unfold State.collElem
  extract_lets +onlyGivenNames r
  have hr : r.2.memOk = true := by
    unfold r
    refine State.memOk_fold _ ?_ _ _ hm
    intro acc1 o1 hu
    split
    · exact hu
    · split
      · exact State.memOk_of_snd (State.memOk_readVirt hu) ‹_›
      · exact State.memOk_of_snd (State.memOk_readVirt hu) ‹_›
  split
  · exact hr
  · exact hr
  · extract_lets +onlyGivenNames x
    refine State.memOk_foldFst _ ?_ _ _ hr
    intro acc1 o1 hu
    split
    · exact hu
    · exact State.memOk_writeVirt _ _ _ _ _ _ _ hu

theorem State.memOk_collEnd {die : Nat} {cs : List Contribution} {err : Option (Nat × DWord)} : (s.collEnd die cs err).memOk = true := by
  unfold State.collEnd
  extract_lets +onlyGivenNames s1
  have m1 : s1.memOk = true := hm
  refine State.memOk_each ?_ m1
  intro u1 o1 hu
  extract_lets +onlyGivenNames s2
  have m2 : s2.memOk = true := by
    unfold s2
    split
    · exact State.memOk_engineError hu
    · exact hu
  exact State.memOk_opDone (State.memOk_counterAddOn m2)

theorem State.memOk_collStep {cs : List Contribution} : (s.collStep cs).memOk = true := by
  unfold State.collStep
  exact hm

theorem memOk_execKcollSequence {die : Nat} : NextMemOk (execKcollSequence die s) := by
  unfold execKcollSequence
  split
  · exact hm
  · extract_lets +onlyGivenNames cs
    refine nextMemOk_ite hm ?_
    refine nextMemOk_ite (State.memOk_collEnd hm) ?_
    refine nextMemOk_ite hm ?_
    refine nextMemOk_ite (State.memOk_collEnd hm) ?_
    refine nextMemOk_ite (State.memOk_collEnd hm) ?_
    refine nextMemOk_ite hm ?_
    split
    · exact State.memOk_of_error (State.memOk_through hm) ‹_›
    · rename_i t e
      have mt : t.memOk = true := State.memOk_of_ok (State.memOk_through hm) ‹_›
      split
      · rename_i t1 _ e1
        have mt1 : t1.memOk = true := State.memOk_of_fst (State.memOk_collElem mt) ‹_›
        exact State.memOk_collEnd mt1
      · rename_i t1 e1
        have mt1 : t1.memOk = true := State.memOk_of_fst (State.memOk_collElem mt) ‹_›
        exact State.memOk_collStep mt1

/-! ## The matrix class -/

theorem State.memOk_seqCount {x : SeqCtx} : (s.seqCount x).memOk = true := by
  unfold State.seqCount
  exact State.memOk_countPerf (State.memOk_modSeq (State.memOk_modWarp hm))

theorem memOk_seqFinish {x : SeqCtx} {r : SeqEff} (hp : r.MemOk) : (seqFinish x s r).memOk = true := by
  unfold seqFinish
  split
  · exact State.memOk_seqTrap hm
  · exact State.memOk_seqCount (State.memOk_modSeq hp)
  · exact State.memOk_seqCount (State.memOk_modSeq hp)
  · exact hp
  · exact State.memOk_seqCount (State.memOk_modSeq hp)

theorem memOk_seqIssue {i : Instr} {ok : SeqCtx → Bool} {eff : SeqCtx → State → SeqEff}
    (hf : ∀ (a : SeqCtx) (u : State), u.memOk = true → (eff a u).MemOk) : NextMemOk (seqIssue i s ok eff) := by
  unfold seqIssue
  split
  · split
    · exact trivial
    · extract_lets +onlyGivenNames s1
      have m1 : s1.memOk = true := hm
      exact memOk_seqFinish m1 (SeqEff.memOk_ite (hf _ _ m1) trivial)
  · split
    · exact trivial
    · change State.memOk _ = true
      refine State.memOk_trapAt ?_
      exact hm

theorem memOk_execMset {h : Hdr} {b : IBody} : NextMemOk (execMset h b s) := by
  unfold execMset
  exact memOk_seqIssue hm (fun _ _ hu => State.memOk_modSeq hu)

theorem memOk_seqBranch {x : SeqCtx} {n : Nat} {v : Word} {target : DWord} : (seqBranch x s n v target).MemOk := by
  unfold seqBranch
  extract_lets +onlyGivenNames w
  refine SeqEff.memOk_ite (State.memOk_modSeq hm) ?_
  split
  · exact trivial
  · exact State.memOk_modSeq hm

theorem memOk_execMbra {h : Hdr} {b : JBody} : NextMemOk (execMbra h b s) := by
  unfold execMbra
  exact memOk_seqIssue hm (fun _ _ hu => memOk_seqBranch hu)

theorem memOk_execMloop {h : Hdr} {b : JBody} : NextMemOk (execMloop h b s) := by
  unfold execMloop
  exact memOk_seqIssue hm (fun _ _ hu => memOk_seqBranch hu)

theorem memOk_execMbwait {h : Hdr} {b : CBody} : NextMemOk (execMbwait h b s) := by
  unfold execMbwait
  exact memOk_seqIssue hm (fun _ _ hu => SeqEff.memOk_ite hu (SeqEff.memOk_ite hu (State.memOk_modSeq (State.memOk_modTeam hu))))

theorem memOk_execMbarr {h : Hdr} {b : CBody} : NextMemOk (execMbarr h b s) := by
  unfold execMbarr
  exact memOk_seqIssue hm (fun _ _ hu => SeqEff.memOk_ite (State.memOk_arrive hu) hu)

theorem memOk_execMpoint {h : Hdr} {b : CBody} : NextMemOk (execMpoint h b s) := by
  unfold execMpoint
  exact memOk_seqIssue hm (fun _ _ hu => State.memOk_modSeq hu)

theorem memOk_execMend {h : Hdr} {b : CBody} : NextMemOk (execMend h b s) := by
  unfold execMend
  exact memOk_seqIssue hm (fun _ _ hu => hu)

theorem State.memOk_post {ix : Nat} {op : MatOp} : (s.post ix op).2.memOk = true := by
  unfold State.post
  extract_lets +onlyGivenNames f
  exact State.memOk_with (State.memOk_fresh hm) rfl rfl rfl rfl

theorem State.memOk_drainTile {core tile : Nat} : (s.drainTile core tile).memOk = true := by
  unfold State.drainTile
  exact State.memOk_ite (State.memOk_modTile hm) hm

theorem State.memOk_rebind {x : SeqCtx} {name tile : Nat} : (s.rebind x name tile).memOk = true := by
  unfold State.rebind
  extract_lets +onlyGivenNames old src s1 s2 s3
  clear_value old src
  have m1 : s1.memOk = true := State.memOk_modTile hm
  have m2 : s2.memOk = true := State.memOk_modTeam m1
  have m3 : s3.memOk = true := State.memOk_modSeq m2
  split
  · exact m3
  · exact State.memOk_drainTile (State.memOk_modTile m3)

theorem memOk_execMstart {h : Hdr} {b : CBody} : NextMemOk (execMstart h b s) := by
  unfold execMstart
  refine memOk_seqIssue hm ?_
  intro a u hu
  split
  · exact SeqEff.memOk_ite hu (State.memOk_rebind hu)
  · split
    · exact hu
    · exact SeqEff.memOk_ite (State.memOk_rebind hu) (State.memOk_askSpill (State.memOk_modSeq hu))

theorem memOk_execMzero {h : Hdr} {b : CBody} : NextMemOk (execMzero h b s) := by
  unfold execMzero
  exact memOk_seqIssue hm (fun _ _ hu => State.memOk_post hu)

theorem memOk_execMget {h : Hdr} {b : CBody} : NextMemOk (execMget h b s) := by
  unfold execMget
  exact memOk_seqIssue hm (fun _ _ hu => SeqEff.memOk_ite hu (State.memOk_modWarp (State.memOk_post hu)))

theorem memOk_execMput {h : Hdr} {b : CBody} : NextMemOk (execMput h b s) := by
  unfold execMput
  refine memOk_seqIssue hm ?_
  intro a u hu
  extract_lets +onlyGivenNames m
  refine SeqEff.memOk_ite hu ?_
  extract_lets +onlyGivenNames p slab
  have hp : p.2.memOk = true := State.memOk_post hu
  change State.memOk _ = true
  refine State.memOk_modWarp ?_
  exact State.memOk_with hp rfl rfl rfl rfl

theorem memOk_execMseal {h : Hdr} {b : CBody} : NextMemOk (execMseal h b s) := by
  unfold execMseal
  refine memOk_seqIssue hm ?_
  intro a u hu
  extract_lets +onlyGivenNames id
  refine SeqEff.memOk_ite (SeqEff.memOk_ite hu hu) ?_
  split
  · exact trivial
  · exact State.memOk_modSeq (State.memOk_modHive hu)

theorem memOk_execMunseal {h : Hdr} {b : CBody} : NextMemOk (execMunseal h b s) := by
  unfold execMunseal
  refine memOk_seqIssue hm ?_
  intro a u hu
  extract_lets +onlyGivenNames key finishIf
  have hfinishIf : ∀ (s : State) (ids : List Nat), s.memOk = true → (finishIf s ids).MemOk := by
    intro u1 ids hu1
    unfold finishIf
    refine SeqEff.memOk_ite hu1 ?_
    split
    · exact hu1
    · exact State.memOk_modHive hu1
  refine SeqEff.memOk_ite (hfinishIf _ _ hu) ?_
  split
  · exact trivial
  · exact hfinishIf _ _ (State.memOk_modSeq (State.memOk_modHive hu))

theorem memOk_execMfence {h : Hdr} {b : CBody} : NextMemOk (execMfence h b s) := by
  unfold execMfence
  exact memOk_seqIssue hm (fun _ _ hu => SeqEff.memOk_ite (State.memOk_modSeq hu) (State.memOk_modSeq hu))

theorem State.memOk_pruneSlabs : s.pruneSlabs.memOk = true := by
  unfold State.pruneSlabs
  exact hm

theorem SeqCtx.memOk_slab {x : SeqCtx} {warp : BitVec 8} {v n : Nat} : (x.slab s warp v n).2.memOk = true := by
  unfold SeqCtx.slab
  extract_lets +onlyGivenNames slot
  split
  · exact State.memOk_opDone (State.memOk_modWarp (State.memOk_fresh hm))
  · extract_lets +onlyGivenNames f y
    refine State.memOk_modWarp ?_
    exact State.memOk_with (State.memOk_fresh hm) rfl rfl rfl rfl

theorem memOk_execMmac {h : Hdr} {b : CBody} : NextMemOk (execMmac h b s) := by
  unfold execMmac
  refine memOk_seqIssue hm ?_
  intro a u hu
  extract_lets +onlyGivenNames v akind per n ncol kcell
  split
  · exact trivial
  · extract_lets +onlyGivenNames wkind wq
    refine SeqEff.memOk_ite trivial ?_
    refine SeqEff.memOk_ite hu ?_
    refine SeqEff.memOk_ite (State.memOk_stallAt hu) ?_
    extract_lets +onlyGivenNames s1 s2
    have m1 : s1.memOk = true := State.memOk_unstall hu
    have m2 : s2.memOk = true := State.memOk_ite (State.memOk_endScreen m1) m1
    refine SeqEff.memOk_ite m2 ?_
    extract_lets +onlyGivenNames sl s3 s4
    have m3 : s3.memOk = true := State.memOk_modTeam (SeqCtx.memOk_slab m2)
    have m4 : s4.memOk = true := State.memOk_each (fun _ _ hu1 => State.memOk_post hu1) m3
    exact State.memOk_pruneSlabs m4

/-! ## Events of the matrix engines -/

theorem State.memOk_scrubCell {vf hive cell : Nat} : (s.scrubCell vf hive cell).memOk = true := by
  unfold State.scrubCell
  exact State.memOk_each (fun _ _ hu => State.memOk_combWord hu) hm

theorem State.memOk_defineCell {vf hive cell : Nat} : (s.defineCell vf hive cell).memOk = true := by
  unfold State.defineCell
  extract_lets +onlyGivenNames s1
  have m1 : s1.memOk = true := State.memOk_scrubCell hm
  exact State.memOk_ite m1 (State.memOk_modHive (State.memOk_foldl (fun _ _ hu => State.memOk_combWord hu) m1))

theorem State.memOk_sealQ4 {vf hive : Nat} {r : Region} {t : Team} {stride j cell : Nat} : (s.sealQ4 vf hive r t stride j cell).memOk = true := by
  unfold State.sealQ4
  exact State.memOk_foldl (fun _ _ hu => State.memOk_modHive (State.memOk_combRead hu)) hm

theorem memOk_execSealComplete {hive region : Nat} : NextMemOk (execSealComplete hive region s) := by
  unfold execSealComplete
  split
  · exact hm
  · extract_lets +onlyGivenNames ix
    split
    · refine nextMemOk_ite hm ?_
      extract_lets +onlyGivenNames f kind s1 s2
      have m1 : s1.memOk = true := State.memOk_each (fun _ _ hu => State.memOk_defineCell hu) hm
      have m2 : s2.memOk = true := State.memOk_each (fun _ _ hu => State.memOk_ite (State.memOk_sealQ4 hu) (State.memOk_ite (State.memOk_modHive
        hu) (State.memOk_modHive hu))) m1
      exact State.memOk_modHive m2
    · exact hm

theorem State.memOk_mixWords {old new : Tab Word} : (s.mixWords old new).2.memOk = true := by
  unfold State.mixWords
  refine State.memOk_fold _ ?_ _ _ hm
  intro acc k hu
  extract_lets +onlyGivenNames a b
  split <;> exact hu

theorem memOk_execSlabReadDone {id : Nat} : NextMemOk (execSlabReadDone id s) := by
  unfold execSlabReadDone
  split
  · exact hm
  · refine nextMemOk_ite hm ?_
    split
    · exact hm
    · extract_lets +onlyGivenNames core slot killed replay r
      have hr : r.2.memOk = true := by
        unfold r
        split
        · exact hm
        · split
          · exact hm
          · exact State.memOk_mixWords hm
      change State.memOk _ = true
      refine State.memOk_pruneSlabs ?_
      refine State.memOk_opDone ?_
      exact State.memOk_with hr rfl rfl rfl rfl

theorem State.memOk_setPass {id : Nat} {p : Pass} : (s.setPass id p).memOk = true := by
  unfold State.setPass
  exact hm

theorem memOk_execPassGrant {hive cell : Nat} : NextMemOk (execPassGrant hive cell s) := by
  unfold execPassGrant
  extract_lets +onlyGivenNames here ready
  clear_value here ready
  refine nextMemOk_ite hm ?_
  split
  · exact hm
  · extract_lets +onlyGivenNames best refill
    clear_value best refill
    exact State.memOk_each (fun _ _ hu => State.memOk_ite (State.memOk_setPass hu) (State.memOk_setPass hu)) hm

theorem State.memOk_unpost {id : Nat} {p : Posted} : (s.unpost id p).memOk = true := by
  unfold State.unpost
  refine State.memOk_pruneSlabs ?_
  refine State.memOk_each (fun _ _ hu => State.memOk_drainTile hu) ?_
  exact hm

theorem memOk_execPassComplete {id : Nat} : NextMemOk (execPassComplete id s) := by
  unfold execPassComplete
  split
  · refine nextMemOk_ite hm ?_
    extract_lets +onlyGivenNames core s1 h data r poison s2 s3
    have m1 : s1.memOk = true := State.memOk_scrubCell hm
    have hr : r.2.memOk = true := by
      unfold r
      split
      · exact m1
      · exact State.memOk_mixWords m1
    have m2 : s2.memOk = true := State.memOk_modTile hr
    have m3 : s3.memOk = true := by
      unfold s3
      split
      · exact m2
      · exact State.memOk_modTile m2
    exact State.memOk_unpost m3
  · exact hm

theorem memOk_execMgetWriteback {id : Nat} : NextMemOk (execMgetWriteback id s) := by
  unfold execMgetWriteback
  split
  · refine nextMemOk_ite hm ?_
    extract_lets +onlyGivenNames core slot tile s1
    have m1 : s1.memOk = true := by
      unfold s1
      refine State.memOk_ite (State.memOk_seqPoison hm) ?_
      split
      · exact hm
      · exact State.memOk_ite hm (State.memOk_writeBack hm)
    exact State.memOk_unpost (State.memOk_opDone m1)
  · exact hm

theorem memOk_execMputDone {id : Nat} : NextMemOk (execMputDone id s) := by
  unfold execMputDone
  split
  · split
    · exact hm
    · exact nextMemOk_ite hm (State.memOk_unpost (State.memOk_modTile hm))
  · exact hm

theorem memOk_execMzeroDone {id : Nat} : NextMemOk (execMzeroDone id s) := by
  unfold execMzeroDone
  split
  · exact nextMemOk_ite hm (State.memOk_unpost (State.memOk_modTile hm))
  · exact hm

theorem State.memOk_spillTile {core tile taker ctx vf : Nat} : (s.spillTile core tile taker ctx vf).memOk = true := by
  unfold State.spillTile
  extract_lets +onlyGivenNames x owner s1 s2
  have m1 : s1.memOk = true := State.memOk_modCtx hm
  have m2 : s2.memOk = true := State.memOk_each (fun _ _ hu => State.memOk_openFill hu) m1
  exact State.memOk_log _ _ _ _ _ _ _ (State.memOk_handTile m2)

theorem memOk_execAccForeignSpill {core tile : Nat} : NextMemOk (execAccForeignSpill core tile s) := by
  unfold execAccForeignSpill
  split
  · exact hm
  · exact nextMemOk_ite hm (State.memOk_spillTile hm)

/-! ## Near-memory instructions -/

theorem State.memOk_nearWrite {wa : Nat} {d : Word} : (s.nearWrite wa d).memOk = true := by
  unfold State.nearWrite
  extract_lets +onlyGivenNames s1 s2
  have m1 : s1.memOk = true := State.memOk_setDram _ _ _ ((State.sameMem_noteUndo _ _).memOk hm)
  have m2 : s2.memOk = true := State.memOk_with m1 rfl rfl rfl rfl
  exact State.memOk_ite m2 ((State.sameMem_putRel _ _ _ _ _).memOk m2)

theorem State.memOk_nearTake {vf : Nat} {have_ : Tab (Word × Bool)} {was : List Nat} : (s.nearTake vf have_ was).2.memOk = true := by
  unfold State.nearTake
  refine State.memOk_fold _ (fun _ _ hu => ?_) _ _ hm
  exact State.memOk_hearthRead _ _ hu

theorem State.memOk_nearAll {die ctx vf : Nat} {have_ : Tab (Word × Bool)} {va : DWord} {n k : Nat}
    : (s.nearAll die ctx vf have_ va n k).2.memOk = true := by
  induction k generalizing s have_ with
  | zero => exact hm
  | succ k ih =>
    unfold State.nearAll
    split
    · exact hm
    · exact hm
    · exact ih (State.memOk_nearTake (State.memOk_countPerf hm))

theorem State.memOk_walkedRun {die ctx : Nat} {va : DWord} {n : Nat} : (s.walkedRun die ctx va n).memOk = true := by
  unfold State.walkedRun
  exact State.memOk_each (fun _ _ hu => State.memOk_walked _ _ _ hu) hm

theorem State.memOk_nearBytes {die ctx vf : Nat} {va : DWord} {n : Nat} : (s.nearBytes die ctx vf va n).2.memOk = true := by
  unfold State.nearBytes
  exact State.memOk_nearAll (State.memOk_walkedRun hm)

theorem Ctx.memOk_coreRead {x : Ctx} {va : DWord} {n : Nat} : (x.coreRead s va n).2.memOk = true := by
  unfold Ctx.coreRead
  split
  · exact State.memOk_of_snd (State.memOk_resolveParts hm) ‹_›
  · rename_i t e
    have mt : t.memOk = true := State.memOk_of_snd (State.memOk_resolveParts hm) ‹_›
    extract_lets +onlyGivenNames l
    split
    · exact Reply.MemOk.of_eq (b := .wait _) (State.memOk_serveLoad (State.memOk_bringLanes mt)) ‹_›
    · exact mt
    · exact Reply.MemOk.of_eq (b := .poison _ _) (State.memOk_serveLoad (State.memOk_bringLanes mt)) ‹_›
    · exact Reply.MemOk.of_eq (b := .data _ _) (State.memOk_serveLoad (State.memOk_bringLanes mt)) ‹_›

theorem State.memOk_openGather {x : Ctx} {n : Nat} : (s.openGather x n).2.memOk = true := by
  unfold State.openGather
  extract_lets +onlyGivenNames f
  refine State.memOk_modWarp ?_
  exact State.memOk_with (State.memOk_fresh hm) rfl rfl rfl rfl

theorem State.memOk_pushNear {x : Ctx} {op stack : Nat} {r : NearReq} : (s.pushNear x op stack r).memOk = true := by
  unfold State.pushNear
  exact State.memOk_modHearth hm

theorem memOk_execNred {h : Hdr} {b : VBody} : NextMemOk (execNred h b s) := by
  unfold execNred
  refine memOk_issue hm ?_
  intro a u hu
  extract_lets +onlyGivenNames n va
  clear_value n va
  refine Eff.memOk_ite hu ?_
  refine Eff.memOk_ite trivial ?_
  refine Eff.memOk_ite trivial ?_
  split
  · exact State.memOk_of_snd (Ctx.memOk_coreRead hu) ‹_›
  · exact trivial
  · rename_i t e
    have mt : t.memOk = true := State.memOk_of_snd (Ctx.memOk_coreRead hu) ‹_›
    extract_lets +onlyGivenNames cmds stackOf
    clear_value cmds stackOf
    refine Eff.memOk_ite trivial ?_
    refine Eff.memOk_ite mt ?_
    extract_lets +onlyGivenNames ks
    clear_value ks
    exact Ctx.memOk_enqueue mt (fun _ hu1 => State.memOk_each (fun _ _ hu2 => State.memOk_pushNear hu2) (State.memOk_openGather hu1))

theorem memOk_execNlaunch {h : Hdr} {b : VBody} : NextMemOk (execNlaunch h b s) := by
  unfold execNlaunch
  refine memOk_issue hm ?_
  intro a u hu
  extract_lets +onlyGivenNames va
  clear_value va
  refine Eff.memOk_ite hu ?_
  refine Eff.memOk_ite trivial ?_
  split
  · exact State.memOk_of_snd (Ctx.memOk_coreRead hu) ‹_›
  · exact trivial
  · rename_i t e
    have mt : t.memOk = true := State.memOk_of_snd (Ctx.memOk_coreRead hu) ‹_›
    extract_lets +onlyGivenNames k
    clear_value k
    refine Eff.memOk_ite trivial ?_
    exact Eff.memOk_ite mt (Ctx.memOk_enqueue mt (fun _ hu1 => State.memOk_pushNear (State.memOk_openGather hu1)))

theorem memOk_nearSelect {x : Ctx} {sel : DWord} {bad : Option FaultInfo} {req : Word → NearReq} : (nearSelect x s sel bad req).MemOk := by
  unfold nearSelect
  refine Eff.memOk_ite hm ?_
  refine Eff.memOk_ite trivial ?_
  split
  · exact trivial
  · extract_lets +onlyGivenNames k
    exact Eff.memOk_ite hm (Ctx.memOk_enqueue hm (fun _ hu => State.memOk_pushNear (State.memOk_openGather hu)))

theorem memOk_execGred {h : Hdr} {b : MBody} : NextMemOk (execGred h b s) := by
  unfold execGred
  refine memOk_issue hm ?_
  intro a u hu
  split
  · exact trivial
  · rename_i t e
    have mt : t.memOk = true := State.memOk_of_snd (memOk_checkLanes hu (fun _ _ hu1 => Ctx.memOk_globalLane hu1)) ‹_›
    refine Eff.memOk_ite mt ?_
    refine Eff.memOk_ite mt ?_
    extract_lets +onlyGivenNames f l
    change State.memOk _ = true
    refine State.memOk_modWarp ?_
    exact State.memOk_with (State.memOk_fresh mt) rfl rfl rfl rfl

/-! ## Stove threads -/

theorem State.memOk_holdRow {k bank row at_ : Nat} : (s.holdRow k bank row at_).memOk = true := by
  unfold State.holdRow
  refine State.memOk_each ?_ hm
  intro u1 sl1 hu
  extract_lets +onlyGivenNames ix s1
  have m1 : s1.memOk = true := by
    unfold s1
    split <;> exact hu
  exact State.memOk_with m1 rfl rfl rfl rfl

theorem State.memOk_suspendStove {k : Nat} : (s.suspendStove k).memOk = true := by
  unfold State.suspendStove
  exact State.memOk_setStove (State.memOk_closeRows hm)

theorem State.memOk_stoveFault {k pc cause : Nat} {pa : Option Nat} : (s.stoveFault k pc cause pa).memOk = true := by
  unfold State.stoveFault
  extract_lets +onlyGivenNames x s1 src s2 s3
  have m1 : s1.memOk = true := State.memOk_closeRows hm
  have m2 : s2.memOk = true := State.memOk_setStove m1
  have m3 : s3.memOk = true := State.memOk_ewErrorOn m2
  split
  · exact State.memOk_logPhys _ _ _ _ _ _ _ m3
  · exact State.memOk_log _ _ _ _ _ _ _ m3

theorem memOk_stoveFinish {k : Nat} {arith : Bool} {x : Stove} {r : StoveEff} (hp : r.MemOk) : (stoveFinish k arith s x r).memOk = true := by
  unfold stoveFinish
  extract_lets +onlyGivenNames pc
  split
  · exact State.memOk_stoveFault hm
  · exact State.memOk_setStove hp
  · split
    · exact State.memOk_setStove hm
    · exact State.memOk_stoveFault hm
  · exact hm
  · exact hp
  · exact State.memOk_suspendStove hm
  · exact State.memOk_suspendStove (State.memOk_setStove hp)

theorem memOk_stoveIssue {isArith : Bool} {eff : Nat → State → Stove → StoveEff}
    (hf : ∀ (a : Nat) (u : State) (a_2 : Stove), u.memOk = true → (eff a u a_2).MemOk) : NextMemOk (stoveIssue isArith s eff) := by
  unfold stoveIssue
  split
  · extract_lets +onlyGivenNames k x n s1
    have m1 : s1.memOk = true := hm
    refine nextMemOk_ite trivial ?_
    refine nextMemOk_ite m1 ?_
    refine nextMemOk_ite (State.memOk_stoveFault m1) ?_
    extract_lets +onlyGivenNames s2
    have m2 : s2.memOk = true := State.memOk_with m1 rfl rfl rfl rfl
    exact State.memOk_with (memOk_stoveFinish m2 (hf _ _ _ m2)) rfl rfl rfl rfl
  · exact trivial

theorem memOk_stoveBranch {x : Stove} {arith : Bool} {v : Stove} {taken : Bool} {imm : BitVec 15} : (stoveBranch x arith s v taken imm).MemOk
    := by
  unfold stoveBranch
  exact StoveEff.memOk_ite trivial (StoveEff.memOk_ite trivial hm)

theorem memOk_openStoveRow {k : Nat} {x : Stove} {bank row : Nat} {p : State × Stove} (h : openStoveRow k s x bank row = some p) : p.1.memOk =
  true := by
  unfold openStoveRow at h
  extract_lets +onlyGivenNames t at h
  clear_value t
  split at h
  · contradiction
  · obtain rfl := Option.some.inj h
    change (s.holdRow k bank row t).memOk = true
    exact State.memOk_holdRow hm

theorem memOk_execAopen {a b : BitVec 4} : NextMemOk (execAopen a b s) := by
  unfold execAopen
  refine memOk_stoveIssue hm ?_
  intro k u x hu
  extract_lets +onlyGivenNames bank row pa
  refine StoveEff.memOk_ite trivial (StoveEff.memOk_ite hu ?_)
  split
  · exact trivial
  · exact memOk_openStoveRow hu ‹_›

theorem State.memOk_hadBurst {k vf t : Nat} {stove : Bool} : (s.hadBurst k vf t stove).memOk = true := by
  unfold State.hadBurst
  extract_lets +onlyGivenNames s1 s2
  have m1 : s1.memOk = true := hm
  have m2 : s2.memOk = true := State.memOk_ite (State.memOk_modHearth m1) m1
  exact State.memOk_countPerf m2

theorem State.memOk_stoveHeld {k : Nat} {x : Stove} {pa : Nat} : SomeMemOk (s.stoveHeld k x pa) := by
  unfold State.stoveHeld
  exact someMemOk_ite hm (someMemOk_ite (State.memOk_holdReq hm) trivial)

theorem memOk_takeBurst {k : Nat} {x : Stove} {bank : Nat} : (takeBurst k s x bank).1.memOk = true := by
  unfold takeBurst
  extract_lets +onlyGivenNames t s1
  have m1 : s1.memOk = true := by
    unfold s1
    split
    · rename_i t1 e
      have mt1 : t1.memOk = true := State.memOk_of_error (State.memOk_through hm) ‹_›
      exact State.memOk_of_error (State.memOk_through hm) ‹_›
    · rename_i t1 e
      have mt1 : t1.memOk = true := State.memOk_of_ok (State.memOk_through hm) ‹_›
      exact State.memOk_of_ok (State.memOk_through hm) ‹_›
  exact State.memOk_hadBurst m1

theorem State.memOk_readLine {vf pa : Nat} : (s.readLine vf pa).2.memOk = true := by
  unfold State.readLine
  extract_lets +onlyGivenNames r
  have hr : r.2.memOk = true := by
    unfold r
    refine State.memOk_fold _ (fun _ _ hu => ?_) _ _ hm
    exact State.memOk_hearthRead _ _ hu
  clear_value r
  exact hr

theorem memOk_execAcol {a b : BitVec 4} {imm : BitVec 15} : NextMemOk (execAcol a b imm s) := by
  unfold execAcol
  refine memOk_stoveIssue hm ?_
  intro a1 u a2 hu
  extract_lets +onlyGivenNames bank
  split
  · exact trivial
  · extract_lets +onlyGivenNames pa
    refine StoveEff.memOk_ite trivial ?_
    refine StoveEff.memOk_ite trivial ?_
    refine StoveEff.memOk_ite trivial ?_
    refine StoveEff.memOk_ite trivial ?_
    split
    · exact State.memOk_of_some (State.memOk_stoveHeld hu) ‹_›
    · exact State.memOk_readLine (memOk_takeBurst hu)

theorem memOk_execAwr : NextMemOk (execAwr s) := by
  unfold execAwr
  refine memOk_stoveIssue hm ?_
  intro k u x hu
  split
  · exact trivial
  · rename_i tag w _
    extract_lets +onlyGivenNames bank row pa
    refine StoveEff.memOk_ite trivial (StoveEff.memOk_ite trivial ?_)
    extract_lets +onlyGivenNames opened
    have hopened : ∀ o, opened = some o → o.1.memOk = true := by
      intro o ho
      unfold opened at ho
      split at ho
      · obtain rfl := Option.some.inj ho
        exact hu
      · exact memOk_openStoveRow hu ho
    split
    · exact trivial
    · rename_i o ho
      have mo : o.1.memOk = true := hopened o (Option.filter_eq_some_iff.1 ho).1
      split
      · exact trivial
      · exact State.memOk_of_some (State.memOk_stoveHeld hu) ‹_›
      · exact State.memOk_each (fun _ _ hv => State.memOk_nearWrite hv) (memOk_takeBurst mo)

theorem memOk_execAnext : NextMemOk (execAnext s) := by
  unfold execAnext
  refine memOk_stoveIssue hm ?_
  intro a u a1 hu
  extract_lets +onlyGivenNames young
  exact StoveEff.memOk_ite trivial (StoveEff.memOk_ite (State.memOk_closeRows hu) (State.memOk_closeRows hu))

theorem memOk_execAset {d a : BitVec 4} {imm : BitVec 15} : NextMemOk (execAset d a imm s) := by
  unfold execAset
  exact memOk_stoveIssue hm (fun _ _ _ hu => StoveEff.memOk_ite trivial hu)

theorem memOk_execAadd {d a b : BitVec 4} {imm : BitVec 15} : NextMemOk (execAadd d a b imm s) := by
  unfold execAadd
  exact memOk_stoveIssue hm (fun _ _ _ hu => hu)

theorem memOk_execAloop {d : BitVec 4} {imm : BitVec 15} : NextMemOk (execAloop d imm s) := by
  unfold execAloop
  exact memOk_stoveIssue hm (fun _ _ _ hu => memOk_stoveBranch hu)

theorem memOk_execAbr {d a b : BitVec 4} {imm : BitVec 15} : NextMemOk (execAbr d a b imm s) := by
  unfold execAbr
  exact memOk_stoveIssue hm (fun _ _ _ hu => StoveEff.memOk_ite trivial (memOk_stoveBranch hu))

theorem memOk_execAwq {d : BitVec 4} : NextMemOk (execAwq d s) := by
  unfold execAwq
  refine memOk_stoveIssue hm ?_
  intro a u a1 hu
  refine StoveEff.memOk_ite trivial ?_
  split
  · exact trivial
  · exact StoveEff.memOk_ite trivial hu

theorem memOk_execAend : NextMemOk (execAend s) := by
  unfold execAend
  exact memOk_stoveIssue hm (fun _ _ _ hu => State.memOk_closeRows hu)

theorem memOk_execXpop {d : BitVec 4} : NextMemOk (execXpop d s) := by
  unfold execXpop
  refine memOk_stoveIssue hm ?_
  intro a u a1 hu
  refine StoveEff.memOk_ite trivial ?_
  split
  · exact trivial
  · exact StoveEff.memOk_ite trivial hu

theorem memOk_execXpush {a b : BitVec 4} : NextMemOk (execXpush a b s) := by
  unfold execXpush
  exact memOk_stoveIssue hm (fun _ _ _ hu => StoveEff.memOk_ite trivial (StoveEff.memOk_ite trivial hu))

theorem memOk_stoveBurst {x : Stove} {d : BitVec 4} {reads : List (BitVec 4)} {f : Nat → Word} : (stoveBurst x s d reads f).MemOk := by
  unfold stoveBurst
  exact StoveEff.memOk_ite trivial (StoveEff.memOk_ite trivial hm)

theorem memOk_execXadd {d a b : BitVec 4} : NextMemOk (execXadd d a b s) := by
  unfold execXadd
  exact memOk_stoveIssue hm (fun _ _ _ hu => memOk_stoveBurst hu)

theorem memOk_execXmul {d a b : BitVec 4} : NextMemOk (execXmul d a b s) := by
  unfold execXmul
  exact memOk_stoveIssue hm (fun _ _ _ hu => memOk_stoveBurst hu)

theorem memOk_execXfma {d a b : BitVec 4} : NextMemOk (execXfma d a b s) := by
  unfold execXfma
  exact memOk_stoveIssue hm (fun _ _ _ hu => memOk_stoveBurst hu)

theorem memOk_execXmax {d a b : BitVec 4} : NextMemOk (execXmax d a b s) := by
  unfold execXmax
  exact memOk_stoveIssue hm (fun _ _ _ hu => memOk_stoveBurst hu)

theorem memOk_execXscale {d a b : BitVec 4} : NextMemOk (execXscale d a b s) := by
  unfold execXscale
  exact memOk_stoveIssue hm (fun _ _ _ hu => memOk_stoveBurst hu)

theorem memOk_execXcvt {d a : BitVec 4} {imm : BitVec 15} : NextMemOk (execXcvt d a imm s) := by
  unfold execXcvt
  exact memOk_stoveIssue hm (fun _ _ _ hu => StoveEff.memOk_ite trivial (memOk_stoveBurst hu))

theorem memOk_execXset {d a : BitVec 4} {imm : BitVec 15} : NextMemOk (execXset d a imm s) := by
  unfold execXset
  exact memOk_stoveIssue hm (fun _ _ _ hu => StoveEff.memOk_ite trivial hu)

theorem memOk_execXsetAdd {d a : BitVec 4} {imm : BitVec 15} : NextMemOk (execXsetAdd d a imm s) := by
  unfold execXsetAdd
  exact memOk_stoveIssue hm (fun _ _ _ hu => hu)

theorem memOk_execXsetB {d a : BitVec 4} : NextMemOk (execXsetB d a s) := by
  unfold execXsetB
  exact memOk_stoveIssue hm (fun _ _ _ hu => StoveEff.memOk_ite trivial hu)

theorem memOk_execXloop {d : BitVec 4} {imm : BitVec 15} : NextMemOk (execXloop d imm s) := by
  unfold execXloop
  exact memOk_stoveIssue hm (fun _ _ _ hu => memOk_stoveBranch hu)

theorem memOk_execXbr {d a b : BitVec 4} {imm : BitVec 15} : NextMemOk (execXbr d a b imm s) := by
  unfold execXbr
  exact memOk_stoveIssue hm (fun _ _ _ hu => StoveEff.memOk_ite trivial (memOk_stoveBranch hu))

theorem memOk_execXend : NextMemOk (execXend s) := by
  unfold execXend
  exact memOk_stoveIssue hm (fun _ _ _ hu => hu)

/-! ## Events of the hearths -/

theorem State.memOk_gatherPart {op : Nat} : (s.gatherPart op).memOk = true := by
  unfold State.gatherPart
  split
  · exact hm
  · refine State.memOk_ite ?_ ?_
    · exact hm
    · refine State.memOk_opDone ?_
      exact hm

theorem State.memOk_gredRead {id : Nat} {l : Load} : (s.gredRead id l).2.memOk = true := by
  unfold State.gredRead
  refine State.memOk_fold _ ?_ _ _ hm
  intro acc1 w1 hu
  extract_lets +onlyGivenNames s1 l1
  split
  · exact hu
  · split
    · exact State.memOk_of_error (State.memOk_through hu) ‹_›
    · rename_i t e
      have mt : t.memOk = true := State.memOk_of_ok (State.memOk_through hu) ‹_›
      exact State.memOk_hearthRead _ _ mt

theorem memOk_execGredReply {id : Nat} : NextMemOk (execGredReply id s) := by
  unfold execGredReply
  split
  · exact hm
  · split
    · exact hm
    · extract_lets +onlyGivenNames r l now s1 s2
      have m1 : s1.memOk = true := State.memOk_each (fun _ _ hu => State.memOk_countPerf hu) (State.memOk_gredRead hm)
      have m2 : s2.memOk = true := State.memOk_with m1 rfl rfl rfl rfl
      refine nextMemOk_ite m2 ?_
      extract_lets +onlyGivenNames done bad
      have hdone : ∀ (s : State), s.memOk = true → (done s).memOk = true := by
        intro u hu
        unfold done
        refine State.memOk_opDone ?_
        exact hu
      split
      · exact State.memOk_with m2 rfl rfl rfl rfl
      · extract_lets +onlyGivenNames at_ first f s3
        have m3 : s3.memOk = true := hdone _ m2
        change State.memOk _ = true
        split
        · exact State.memOk_takeTrap m3
        · exact State.memOk_logFault m3
      · extract_lets +onlyGivenNames ls ps ps1 ws from_
        split
        · exact State.memOk_of_error (State.memOk_through m2) ‹_›
        · rename_i t e
          have mt : t.memOk = true := State.memOk_of_ok (State.memOk_through m2) ‹_›
          exact State.memOk_writeBack (hdone _ mt)

theorem State.memOk_takeNear {stack : Nat} {c : NearCmd} : (s.takeNear stack c).memOk = true := by
  unfold State.takeNear
  exact State.memOk_modHearth hm

theorem State.memOk_logNear {c : NearCmd} {stack cause : Nat} {va : DWord} : (s.logNear c stack cause va).memOk = true := by
  unfold State.logNear
  refine State.memOk_ite ?_ (State.memOk_log _ _ _ _ _ _ _ hm)
  split
  · exact State.memOk_logPhys _ _ _ _ _ _ _ hm
  · exact State.memOk_log _ _ _ _ _ _ _ hm

theorem State.memOk_nredError {stack : Nat} {n : Nred} {c : NredCmd} {cause : Nat} {va : DWord} : (s.nredError stack n c cause va).memOk = true
    := by
  unfold State.nredError
  exact State.memOk_modHearth (State.memOk_logNear (State.memOk_ewErrorOn hm))

theorem State.memOk_setNred {stack : Nat} {n : Nred} {c : NredCmd} : (s.setNred stack n c).memOk = true := by
  unfold State.setNred
  exact State.memOk_modHearth hm

theorem memOk_execNredAccept {stack : Nat} : NextMemOk (execNredAccept stack s) := by
  unfold execNredAccept
  split
  · exact hm
  · split
    · extract_lets +onlyGivenNames c n was
      refine nextMemOk_ite (State.memOk_nredError (State.memOk_takeNear hm)) ?_
      refine nextMemOk_ite (State.memOk_nredError (State.memOk_takeNear hm)) ?_
      refine nextMemOk_ite hm ?_
      split
      · exact State.memOk_of_error (State.memOk_through hm) ‹_›
      · rename_i t e
        have mt : t.memOk = true := State.memOk_of_ok (State.memOk_through hm) ‹_›
        split
        · rename_i t1 e1
          have mt1 : t1.memOk = true := State.memOk_of_snd (State.memOk_nearBytes (State.memOk_takeNear mt)) ‹_›
          exact State.memOk_nredError mt1
        · rename_i t1 e1
          have mt1 : t1.memOk = true := State.memOk_of_snd (State.memOk_nearBytes (State.memOk_takeNear mt)) ‹_›
          exact nextMemOk_ite (State.memOk_nredError mt1) (State.memOk_setNred mt1)
    · exact hm

theorem State.memOk_nearBurst {die vf id : Nat} {write : Bool} {was : List Nat} : BothMemOk (s.nearBurst die vf id write was) := by
  unfold State.nearBurst
  extract_lets +onlyGivenNames k
  refine bothMemOk_ite hm ?_
  split
  · exact State.memOk_of_error (State.memOk_through hm) ‹_›
  · rename_i t e
    have mt : t.memOk = true := State.memOk_of_ok (State.memOk_through hm) ‹_›
    exact State.memOk_hadBurst mt

theorem memOk_execNredBag {stack : Nat} : NextMemOk (execNredBag stack s) := by
  unfold execNredBag
  split
  · exact hm
  · split
    · extract_lets +onlyGivenNames c q
      refine nextMemOk_ite hm ?_
      split
      · exact State.memOk_nredError hm
      · split
        · rename_i t e
          have mt : t.memOk = true := State.memOk_of_error (State.memOk_nearBurst hm) ‹_›
          exact State.memOk_setNred mt
        · rename_i t e
          have mt : t.memOk = true := State.memOk_of_ok (State.memOk_nearBurst hm) ‹_›
          exact State.memOk_setNred (State.memOk_nearTake mt)
      · extract_lets +onlyGivenNames out line
        split
        · exact State.memOk_nredError hm
        · split
          · rename_i t e
            have mt : t.memOk = true := State.memOk_of_error (State.memOk_nearBurst hm) ‹_›
            exact State.memOk_setNred mt
          · rename_i t e
            have mt : t.memOk = true := State.memOk_of_ok (State.memOk_nearBurst hm) ‹_›
            exact State.memOk_setNred (State.memOk_each (fun _ _ hu => State.memOk_nearWrite hu) mt)
    · exact hm

theorem memOk_execNredComplete {stack : Nat} : NextMemOk (execNredComplete stack s) := by
  unfold execNredComplete
  split
  · exact hm
  · split
    · extract_lets +onlyGivenNames c
      exact nextMemOk_ite hm (State.memOk_modHearth (State.memOk_gatherPart (State.memOk_counterAddOn hm)))
    · exact hm

theorem State.memOk_refuseLaunch {stack : Nat} {q : NearCmd} {cnt : DWord} {cause : Nat} {va : DWord}
    : (s.refuseLaunch stack q cnt cause va).memOk = true := by
  unfold State.refuseLaunch
  extract_lets +onlyGivenNames s1 cnt1 s2
  have m1 : s1.memOk = true := State.memOk_takeNear hm
  have m2 : s2.memOk = true := State.memOk_ewErrorOn m1
  exact State.memOk_gatherPart (State.memOk_counterAddOn (State.memOk_logNear m2))

theorem State.memOk_nearCode {stack : Nat} {q : NearCmd} {va : DWord} {n : Nat} : (s.nearCode stack q va n).2.memOk = true := by
  unfold State.nearCode
  exact State.memOk_nearBytes hm

theorem memOk_execStoveLaunch {stack : Nat} : NextMemOk (execStoveLaunch stack s) := by
  unfold execStoveLaunch
  split
  · exact hm
  · split
    · extract_lets +onlyGivenNames cnt chans
      refine nextMemOk_ite hm ?_
      refine nextMemOk_ite (State.memOk_refuseLaunch hm) ?_
      refine nextMemOk_ite hm ?_
      extract_lets +onlyGivenNames acode xcode was
      refine nextMemOk_ite hm ?_
      split
      · exact State.memOk_of_error (State.memOk_through hm) ‹_›
      · rename_i t e
        have mt : t.memOk = true := State.memOk_of_ok (State.memOk_through hm) ‹_›
        split
        · rename_i t1 e1
          have mt1 : t1.memOk = true := State.memOk_of_snd (State.memOk_nearCode mt) ‹_›
          exact State.memOk_refuseLaunch mt1
        · rename_i t1 e1
          have mt1 : t1.memOk = true := State.memOk_of_snd (State.memOk_nearCode mt) ‹_›
          split
          · rename_i t2 e2
            have mt2 : t2.memOk = true := State.memOk_of_snd (State.memOk_nearCode mt1) ‹_›
            exact State.memOk_refuseLaunch mt2
          · rename_i t2 e2
            have mt2 : t2.memOk = true := State.memOk_of_snd (State.memOk_nearCode mt1) ‹_›
            extract_lets +onlyGivenNames s1
            have m1 : s1.memOk = true := State.memOk_each (fun _ _ hu => State.memOk_setStove hu) (State.memOk_takeNear mt2)
            exact State.memOk_modHearth m1
    · exact hm

theorem memOk_execStoveEnd {stack ch : Nat} : NextMemOk (execStoveEnd stack ch s) := by
  unfold execStoveEnd
  extract_lets +onlyGivenNames k x
  split
  · exact hm
  · refine nextMemOk_ite hm ?_
    extract_lets +onlyGivenNames src s1 rest
    have m1 : s1.memOk = true := State.memOk_setStove hm
    exact nextMemOk_ite (State.memOk_modHearth m1) (State.memOk_modHearth (State.memOk_gatherPart (State.memOk_counterAddOn m1)))

theorem memOk_execNstatService {stack : Nat} : NextMemOk (execNstatService stack s) := by
  unfold execNstatService
  split
  · exact hm
  · split
    · refine nextMemOk_ite hm ?_
      split
      · exact State.memOk_of_error (State.memOk_through hm) ‹_›
      · rename_i t e
        have mt : t.memOk = true := State.memOk_of_ok (State.memOk_through hm) ‹_›
        extract_lets +onlyGivenNames s1 sel s2
        have m1 : s1.memOk = true := State.memOk_takeNear mt
        have m2 : s2.memOk = true := by
          unfold s2
          refine State.memOk_each ?_ m1
          intro u1 y1 hu
          extract_lets +onlyGivenNames mine x p s3 r s4 va
          have m3 : s3.memOk = true := State.memOk_ite (State.memOk_pick hu) hu
          have m4 : s4.memOk = true := State.memOk_ite m3 (State.memOk_logNear (State.memOk_ewError m3))
          split
          · exact State.memOk_of_snd (State.memOk_writeVirt _ _ _ _ _ _ _ m4) ‹_›
          · rename_i t1 e1
            have mt1 : t1.memOk = true := State.memOk_of_snd (State.memOk_writeVirt _ _ _ _ _ _ _ m4) ‹_›
            exact State.memOk_logNear (State.memOk_ewError mt1)
        exact State.memOk_gatherPart (State.memOk_counterAdd m2)
    · exact hm

theorem memOk_execNkillService {stack : Nat} : NextMemOk (execNkillService stack s) := by
  unfold execNkillService
  split
  · exact hm
  · split
    · refine nextMemOk_ite hm ?_
      extract_lets +onlyGivenNames s1 s2
      have m1 : s1.memOk = true := State.memOk_takeNear hm
      have m2 : s2.memOk = true := State.memOk_each (fun _ _ hu => State.memOk_ite (State.memOk_killStove hu) hu) m1
      exact State.memOk_gatherPart (State.memOk_counterAdd m2)
    · exact hm

theorem State.memOk_closeOrdinary {stack start : Nat} : (s.closeOrdinary stack start).memOk = true := by
  unfold State.closeOrdinary
  extract_lets +onlyGivenNames ours rows
  exact hm

theorem State.memOk_resumeStove {k : Nat} : (s.resumeStove k).memOk = true := by
  unfold State.resumeStove
  extract_lets +onlyGivenNames src x
  split
  · exact State.memOk_setStove hm
  · exact State.memOk_setStove hm
  · split
    · exact State.memOk_stoveFault hm
    · exact State.memOk_setStove (State.memOk_each (fun _ _ hu => State.memOk_holdRow hu) hm)
  · exact hm

theorem memOk_execFrameStart {stack : Nat} : NextMemOk (execFrameStart stack s) := by
  unfold execFrameStart
  extract_lets +onlyGivenNames h
  refine nextMemOk_ite hm ?_
  extract_lets +onlyGivenNames start v s1
  have m1 : s1.memOk = true := State.memOk_modHearth hm
  exact nextMemOk_ite m1 (State.memOk_each (fun _ _ hu => State.memOk_resumeStove hu) (State.memOk_closeOrdinary m1))

theorem memOk_execOrdinaryIntervalStart {stack : Nat} : NextMemOk (execOrdinaryIntervalStart stack s) := by
  unfold execOrdinaryIntervalStart
  exact State.memOk_ite (State.memOk_drainEngine (State.memOk_modHearth hm)) hm

theorem memOk_execStoveDeadline {stack ch : Nat} : NextMemOk (execStoveDeadline stack ch s) := by
  unfold execStoveDeadline
  exact State.memOk_ite (State.memOk_suspendStove hm) hm

/-! ## Mailbox commands -/

theorem State.memOk_finishCommand {fn : Nat} {st : Status} {results : List (Nat × DWord)} : (s.finishCommand fn st results).memOk = true := by
  unfold State.finishCommand
  extract_lets +onlyGivenNames rest n s1
  have m1 : s1.memOk = true := hm
  exact State.memOk_signal (State.memOk_modMailbox m1)

theorem memOk_command {op fn : Nat} {sel : (Nat → DWord) → Bool} {f : (Nat → DWord) → Mailbox → State → Answer}
    (hf : ∀ (a : Nat → DWord) (a_1 : Mailbox) (u : State), u.memOk = true → (f a a_1 u).MemOk) : NextMemOk (command op fn s sel f) := by
  unfold command
  split
  · exact hm
  · extract_lets +onlyGivenNames m arg
    refine nextMemOk_ite (State.memOk_finishCommand hm) ?_
    refine nextMemOk_ite hm ?_
    refine nextMemOk_ite (State.memOk_finishCommand hm) ?_
    split
    · rename_i t _ e
      have mt : t.memOk = true := Answer.MemOk.of_eq (b := .fail _ _) (hf _ _ _ hm) ‹_›
      exact State.memOk_finishCommand mt
    · rename_i t _ e
      have mt : t.memOk = true := Answer.MemOk.of_eq (b := .ok _ _) (hf _ _ _ hm) ‹_›
      exact State.memOk_finishCommand mt
    · rename_i t e
      have mt : t.memOk = true := Answer.MemOk.of_eq (b := .pending _) (hf _ _ _ hm) ‹_›
      exact mt

theorem State.memOk_argBytes {fn : Nat} {pa : DWord} {n : Nat} : (s.argBytes fn pa n).2.memOk = true := by
  unfold State.argBytes
  split
  · exact hm
  · extract_lets +onlyGivenNames s1
    have m1 : s1.memOk = true := State.memOk_touchRun _ _ _ hm
    split
    · exact m1
    · exact State.memOk_ite (State.memOk_logPhys _ _ _ _ _ _ _ m1) m1

theorem memOk_ctxCommand {op fn : Nat} {f : Nat → Context → (Nat → DWord) → State → Answer}
    (hf : ∀ (a : Nat) (a_1 : Context) (a_2 : Nat → DWord) (u : State), u.memOk = true → (f a a_1 a_2 u).MemOk) : NextMemOk (ctxCommand op fn s f)
    := by
  unfold ctxCommand
  refine memOk_command hm ?_
  intro a a1 u hu
  split
  · exact hu
  · exact hf _ _ _ _ hu

theorem memOk_hvCommand {op fn : Nat} {sel : (Nat → DWord) → Bool} {f : (Nat → DWord) → Mailbox → State → Answer}
    (hf : ∀ (a : Nat → DWord) (a_1 : Mailbox) (u : State), u.memOk = true → (f a a_1 u).MemOk) : NextMemOk (hvCommand op fn s sel f) := by
  unfold hvCommand
  exact memOk_command hm (fun _ _ _ hu => Answer.memOk_ite hu (hf _ _ _ hu))

theorem State.memOk_soricaWrite {kind ix st owner oldDetail : Nat} : (s.soricaWrite kind ix st owner oldDetail).memOk = true := by
  unfold State.soricaWrite
  extract_lets +onlyGivenNames k old new s1
  have m1 : s1.memOk = true := hm
  exact State.memOk_with m1 rfl rfl rfl rfl

theorem State.memOk_soricaTouch {before : State} {kind ix : Nat} : (s.soricaTouch before kind ix).memOk = true := by
  unfold State.soricaTouch
  exact State.memOk_ite hm (State.memOk_soricaWrite hm)

theorem State.memOk_setSorica {kind ix st owner : Nat} : (s.setSorica kind ix st owner).memOk = true := by
  unfold State.setSorica
  extract_lets +onlyGivenNames s1
  have m1 : s1.memOk = true := State.memOk_soricaWrite hm
  exact State.memOk_ite (State.memOk_soricaTouch m1) m1

theorem memOk_execLogset {fn : Nat} : NextMemOk (execLogset fn s) := by
  unfold execLogset
  refine memOk_hvCommand hm ?_
  intro a a1 u hu
  extract_lets +onlyGivenNames n
  refine Answer.memOk_ite hu ?_
  exact hu

theorem memOk_execSetrate {fn : Nat} : NextMemOk (execSetrate fn s) := by
  unfold execSetrate
  refine memOk_hvCommand hm ?_
  intro a a1 u hu
  extract_lets +onlyGivenNames vf point rate burst
  split
  · exact hu
  · refine Answer.memOk_ite hu ?_
    change State.memOk _ = true
    refine State.memOk_each ?_ hu
    intro u2 k1 hu1
    exact hu1

theorem memOk_execSetframe {fn : Nat} : NextMemOk (execSetframe fn s) := by
  unfold execSetframe
  exact memOk_hvCommand hm (fun _ _ _ hu => Answer.memOk_ite hu (State.memOk_modHearth hu))

theorem State.memOk_drainWords {p : Nat → Bool} : (s.drainWords p).memOk = true := by
  unfold State.drainWords
  extract_lets +onlyGivenNames s1 s2 s3
  have m1 : s1.memOk = true := State.memOk_each (fun _ _ hu => (State.sameMem_syncOut _ _).memOk hu) hm
  have m2 : s2.memOk = true := State.memOk_each (fun _ _ hu => (State.sameMem_l2Evict _ _).memOk hu) m1
  have m3 : s3.memOk = true := State.memOk_serveWrites _ m2
  exact State.memOk_with m3 rfl rfl rfl rfl

theorem State.memOk_drainPage {page : Nat} : (s.drainPage page).memOk = true := by
  unfold State.drainPage
  exact State.memOk_drainWords hm

theorem memOk_execElide {fn : Nat} : NextMemOk (execElide fn s) := by
  unfold execElide
  refine memOk_hvCommand hm ?_
  intro a _ u hu
  extract_lets +onlyGivenNames pa rows full
  refine Answer.memOk_ite hu (Answer.memOk_ite hu ?_)
  extract_lets +onlyGivenNames t
  have mt : t.memOk = true := State.memOk_drainPage hu
  exact State.memOk_putElisions _ _ mt rfl rfl rfl rfl

theorem memOk_execFuseRaiseSvn {fn : Nat} : NextMemOk (execFuseRaiseSvn fn s) := by
  unfold execFuseRaiseSvn
  refine memOk_hvCommand hm ?_
  intro a a1 u hu
  refine Answer.memOk_ite hu ?_
  exact hu

theorem State.memOk_wipe : s.wipe.memOk = true := by
  obtain ⟨-, hhost, -, -⟩ := State.memOk_iff.1 hm
  exact State.memOk_iff.2 ⟨rfl, hhost, rfl, rfl⟩

theorem memOk_execFuseSetTestmode {fn : Nat} : NextMemOk (execFuseSetTestmode fn s) := by
  unfold execFuseSetTestmode
  refine memOk_hvCommand hm ?_
  intro a a1 u hu
  exact State.memOk_with (State.memOk_wipe hu) rfl rfl rfl rfl

theorem memOk_execFuseRetireResource {fn : Nat} : NextMemOk (execFuseRetireResource fn s) := by
  unfold execFuseRetireResource
  refine memOk_hvCommand hm ?_
  intro a a1 u hu
  extract_lets +onlyGivenNames kind ix
  refine Answer.memOk_ite hu ?_
  split
  · extract_lets +onlyGivenNames src s1
    have m1 : s1.memOk = true := by
      unfold s1
      refine State.memOk_soricaWrite ?_
      exact hu
    exact State.memOk_ite (State.memOk_soricaTouch m1) m1
  · exact hu
  · exact hu

theorem memOk_execCtxcreate {fn : Nat} : NextMemOk (execCtxcreate fn s) := by
  unfold execCtxcreate
  refine memOk_command hm ?_
  intro a a1 u hu
  extract_lets +onlyGivenNames vf
  refine Answer.memOk_ite hu ?_
  refine Answer.memOk_ite hu ?_
  refine Answer.memOk_ite hu ?_
  refine Answer.memOk_ite hu ?_
  split
  · exact State.memOk_of_snd (State.memOk_argBytes hu) ‹_›
  · rename_i t e
    have mt : t.memOk = true := State.memOk_of_snd (State.memOk_argBytes hu) ‹_›
    refine Answer.memOk_ite mt ?_
    split <;> exact mt

theorem State.memOk_resetContext {k : Nat} : (s.resetContext k).memOk = true := by
  unfold State.resetContext
  extract_lets +onlyGivenNames ended vf s1
  have m1 : s1.memOk = true := State.memOk_ite hm (State.memOk_endContext (State.memOk_log _ _ _ _ _ _ _ hm))
  exact State.memOk_modCtx m1

theorem memOk_execCtxreset {fn : Nat} : NextMemOk (execCtxreset fn s) := by
  unfold execCtxreset
  exact memOk_ctxCommand hm (fun _ _ _ _ hu => State.memOk_resetContext hu)

theorem memOk_execQcreate {fn : Nat} : NextMemOk (execQcreate fn s) := by
  unfold execQcreate
  refine memOk_ctxCommand hm ?_
  intro a a1 a2 u hu
  extract_lets +onlyGivenNames q n
  split
  · exact hu
  · exact Answer.memOk_ite hu (Answer.memOk_ite hu (State.memOk_modPart hu))

theorem memOk_execPreempt {fn : Nat} : NextMemOk (execPreempt fn s) := by
  unfold execPreempt
  exact memOk_ctxCommand hm (fun _ _ _ _ hu => Answer.memOk_ite hu (State.memOk_modCtx (State.memOk_haltContext hu)))

theorem memOk_execResume {fn : Nat} : NextMemOk (execResume fn s) := by
  unfold execResume
  refine memOk_ctxCommand hm ?_
  intro a a1 a2 u hu
  refine Answer.memOk_ite hu ?_
  refine Answer.memOk_ite hu ?_
  split
  · exact hu
  · exact Answer.memOk_ite (State.memOk_resetContext hu) (State.memOk_modCtx hu)

theorem memOk_execReply {fn : Nat} : NextMemOk (execReply fn s) := by
  unfold execReply
  refine memOk_ctxCommand hm ?_
  intro a a1 a2 u hu
  extract_lets +onlyGivenNames core slot
  refine Answer.memOk_ite hu ?_
  split
  · exact hu
  · refine Answer.memOk_ite hu ?_
    split
    · exact State.memOk_nextHeldTrap (State.memOk_modWarp hu)
    · exact State.memOk_enterHandler hu
    · exact State.memOk_endContext hu

theorem memOk_execTlbinv {fn : Nat} : NextMemOk (execTlbinv fn s) := by
  unfold execTlbinv
  refine memOk_ctxCommand hm ?_
  intro a a1 a2 u hu
  extract_lets +onlyGivenNames keep
  exact hu

theorem memOk_execIcinv {fn : Nat} : NextMemOk (execIcinv fn s) := by
  unfold execIcinv
  refine memOk_command hm ?_
  intro a a1 u hu
  extract_lets +onlyGivenNames vf
  refine Answer.memOk_ite hu ?_
  refine Answer.memOk_ite hu ?_
  split
  · exact hu
  · extract_lets +onlyGivenNames src
    exact hu

theorem State.memOk_flushPage {page : Nat} : (s.flushPage page).memOk = true := by
  unfold State.flushPage
  extract_lets +onlyGivenNames s1
  have m1 : s1.memOk = true := State.memOk_drainPage hm
  exact State.memOk_with m1 rfl rfl rfl rfl

theorem memOk_execFlip {fn : Nat} : NextMemOk (execFlip fn s) := by
  unfold execFlip
  refine memOk_command hm ?_
  intro a a1 u hu
  extract_lets +onlyGivenNames pa page owned
  refine Answer.memOk_ite hu (Answer.memOk_ite hu (Answer.memOk_ite hu ?_))
  extract_lets +onlyGivenNames begun id s1
  have m1 : s1.memOk = true := State.memOk_ite hu hu
  clear_value s1
  refine Answer.memOk_ite m1 ?_
  extract_lets +onlyGivenNames s2 s3
  have m2 : s2.memOk = true := State.memOk_flushPage m1
  clear_value s2
  have m3 : s3.memOk = true := State.memOk_ite m2 m1
  clear_value s3
  exact State.memOk_drainEngine (State.memOk_with m3 rfl rfl rfl rfl)

theorem State.memOk_takeBank {ix fn : Nat} {sel : List Nat} {old : Option Nat} : (s.takeBank ix fn sel old).memOk = true := by
  unfold State.takeBank
  extract_lets +onlyGivenNames b gone
  exact hm

theorem State.memOk_takeUnit {ix fn base n period : Nat} {old : Option Nat} : (s.takeUnit ix fn base n period old).memOk = true := by
  unfold State.takeUnit
  extract_lets +onlyGivenNames gone s1
  have m1 : s1.memOk = true := State.memOk_modUnit hm
  exact State.memOk_ite m1 (State.memOk_each (fun _ _ hu => State.memOk_modCore hu) m1)

theorem memOk_execClaim {fn : Nat} : NextMemOk (execClaim fn s) := by
  unfold execClaim
  refine memOk_command hm ?_
  intro a a1 u hu
  extract_lets +onlyGivenNames kind ix sel n lg vf
  refine Answer.memOk_ite hu ?_
  refine Answer.memOk_ite hu ?_
  refine Answer.memOk_ite hu ?_
  refine Answer.memOk_ite hu ?_
  extract_lets +onlyGivenNames h take
  have htake : ∀ (old : Option Nat), (take old).MemOk := fun _ => State.memOk_ite (State.memOk_takeBank hu) (State.memOk_takeUnit hu)
  refine Answer.memOk_ite hu ?_
  split
  · exact htake _
  · exact Answer.memOk_ite (htake _) hu

theorem State.memOk_unclaim {fn kind ix : Nat} : (s.unclaim fn kind ix).memOk = true := by
  unfold State.unclaim
  extract_lets +onlyGivenNames free
  refine State.memOk_ite ?_ (State.memOk_modUnit hm)
  exact hm

theorem memOk_execUnclaim {fn : Nat} : NextMemOk (execUnclaim fn s) := by
  unfold execUnclaim
  exact memOk_command hm (fun _ _ _ hu => Answer.memOk_ite hu (Answer.memOk_ite hu (State.memOk_unclaim hu)))

theorem State.memOk_unclaimAll {fn : Nat} : (s.unclaimAll fn).memOk = true := by
  unfold State.unclaimAll
  exact State.memOk_each (fun _ _ hu => State.memOk_unclaim hu) (State.memOk_each (fun _ _ hu => State.memOk_unclaim hu) hm)

theorem memOk_execKeyload {fn : Nat} : NextMemOk (execKeyload fn s) := by
  unfold execKeyload
  refine memOk_command hm ?_
  intro a a1 u hu
  extract_lets +onlyGivenNames slot
  refine Answer.memOk_ite hu ?_
  refine Answer.memOk_ite hu ?_
  refine Answer.memOk_ite hu ?_
  split
  · exact State.memOk_of_snd (State.memOk_argBytes hu) ‹_›
  · rename_i t e
    have mt : t.memOk = true := State.memOk_of_snd (State.memOk_argBytes hu) ‹_›
    refine Answer.memOk_ite mt ?_
    split
    · exact State.memOk_of_snd (State.memOk_argBytes mt) ‹_›
    · rename_i t1 e1
      have mt1 : t1.memOk = true := State.memOk_of_snd (State.memOk_argBytes mt) ‹_›
      split
      · exact mt1
      · exact State.memOk_modPart mt1

set_option maxRecDepth 4000 in
theorem memOk_execAttest {fn : Nat} : NextMemOk (execAttest fn s) := by
  unfold execAttest
  refine memOk_command hm ?_
  intro a _ u hu
  refine Answer.memOk_ite hu ?_
  split
  · exact State.memOk_of_snd (State.memOk_argBytes hu) ‹_›
  · rename_i t e
    have mt : t.memOk = true := State.memOk_of_snd (State.memOk_argBytes hu) ‹_›
    split
    · exact mt
    · split
      · exact State.memOk_logPhys _ _ _ _ _ _ _ mt
      · exact State.memOk_writePhys mt ‹_›

theorem memOk_execBoot {fn : Nat} : NextMemOk (execBoot fn s) := by
  unfold execBoot
  refine memOk_command hm ?_
  intro a a1 u hu
  extract_lets +onlyGivenNames n
  refine Answer.memOk_ite hu ?_
  refine Answer.memOk_ite hu ?_
  extract_lets +onlyGivenNames img
  refine Answer.memOk_ite hu ?_
  exact hu

/-! ## Partitions -/

theorem State.memOk_readList {pa : DWord} : (s.readList pa).2.memOk = true := by
  unfold State.readList
  split
  · exact State.memOk_of_snd (State.memOk_argBytes hm) ‹_›
  · rename_i t e
    have mt : t.memOk = true := State.memOk_of_snd (State.memOk_argBytes hm) ‹_›
    split
    · exact mt
    · split
      · exact State.memOk_of_snd (State.memOk_argBytes mt) ‹_›
      · exact State.memOk_of_snd (State.memOk_argBytes mt) ‹_›

theorem State.memOk_quietRows {rows : List Nat} : (s.quietRows rows).memOk = true := by
  unfold State.quietRows
  refine State.memOk_ite hm ?_
  extract_lets +onlyGivenNames mine s1 shut
  have m1 : s1.memOk = true := State.memOk_drainWords hm
  exact State.memOk_with m1 rfl rfl rfl rfl

theorem State.memOk_giveRows {vf : Nat} {rows : List Nat} : (s.giveRows vf rows).memOk = true := by
  unfold State.giveRows
  extract_lets +onlyGivenNames s1
  have m1 : s1.memOk = true := State.memOk_quietRows hm
  exact State.memOk_with m1 rfl rfl rfl rfl

theorem State.memOk_showUnfilled {before : State} : (s.showUnfilled before).memOk = true := by
  unfold State.showUnfilled
  exact State.memOk_each (fun _ _ hu => State.memOk_soricaTouch hu) hm

theorem State.memOk_takeRows {rows : List Nat} : (s.takeRows rows).memOk = true := by
  unfold State.takeRows
  refine State.memOk_ite hm ?_
  extract_lets +onlyGivenNames s1
  have m1 : s1.memOk = true := State.memOk_quietRows hm
  refine State.memOk_showUnfilled ?_
  exact State.memOk_with m1 rfl rfl rfl rfl

theorem State.memOk_trimWays : s.trimWays.memOk = true := by
  unfold State.trimWays
  exact State.memOk_each (fun _ _ hu => (State.sameMem_l2Trim _ _ _).memOk hu) hm

set_option maxRecDepth 4000 in
theorem memOk_execPcreate {fn : Nat} : NextMemOk (execPcreate fn s) := by
  unfold execPcreate
  refine memOk_hvCommand hm ?_
  intro a a1 u hu
  extract_lets +onlyGivenNames vf n
  clear_value vf n
  split
  · exact hu
  · split
    · exact hu
    · split
      · exact hu
      · split
        · exact State.memOk_of_snd (State.memOk_readList hu) ‹_›
        · rename_i t e
          have mt : t.memOk = true := State.memOk_of_snd (State.memOk_readList hu) ‹_›
          refine Answer.memOk_ite mt (Answer.memOk_ite mt ?_)
          extract_lets +onlyGivenNames p s1 s2
          have m1 : s1.memOk = true := State.memOk_each (fun _ _ hu1 => State.memOk_setSorica hu1) (State.memOk_giveRows mt)
          have m2 : s2.memOk = true := State.memOk_ite (State.memOk_each (fun _ _ hu1 => State.memOk_modHive hu1) m1) m1
          exact State.memOk_trimWays (State.memOk_with m2 rfl rfl rfl rfl)

theorem State.memOk_freeEntries {l : List (Nat × Nat)} : (s.freeEntries l).memOk = true := by
  unfold State.freeEntries
  exact State.memOk_each (fun _ _ hu => State.memOk_ite (State.memOk_setSorica hu) hu) hm

theorem State.memOk_resetContexts {p : Nat → Context → Bool} : (s.resetContexts p).memOk = true := by
  unfold State.resetContexts
  exact State.memOk_each (fun _ _ hu => State.memOk_resetContext hu) hm

theorem State.memOk_clearStoves {chans : List Nat} : (s.clearStoves chans).memOk = true := by
  unfold State.clearStoves
  exact hm

theorem memOk_execPdestroy {fn : Nat} : NextMemOk (execPdestroy fn s) := by
  unfold execPdestroy
  refine memOk_hvCommand hm ?_
  intro a a1 u hu
  extract_lets +onlyGivenNames vf
  split
  · exact hu
  · extract_lets +onlyGivenNames s1
    have m1 : s1.memOk = true := State.memOk_ite hu (State.memOk_modPart (State.memOk_resetContexts hu))
    refine Answer.memOk_ite m1 ?_
    extract_lets +onlyGivenNames s2 s3
    have m2 : s2.memOk = true := State.memOk_unclaimAll m1
    have m3 : s3.memOk = true := State.memOk_clearStoves (State.memOk_freeEntries (State.memOk_takeRows m2))
    exact State.memOk_with m3 rfl rfl rfl rfl

theorem State.memOk_dropUnplaced {k : Nat} : (s.dropUnplaced k).memOk = true := by
  unfold State.dropUnplaced
  split
  · exact hm
  · extract_lets +onlyGivenNames keep s1
    have m1 : s1.memOk = true := hm
    exact State.memOk_logVirt (State.memOk_ewErrorOn (State.memOk_modGrid m1))

theorem State.memOk_returnRanges {vf : Nat} {hives left : List Nat} : (s.returnRanges vf hives left).memOk = true := by
  unfold State.returnRanges
  extract_lets +onlyGivenNames gone back
  refine State.memOk_modPart ?_
  exact hm

theorem State.memOk_applyList {vf : Nat} {p : Partition} {l : ResList} : (s.applyList vf p l).memOk = true := by
  unfold State.applyList
  extract_lets +onlyGivenNames old goneHives goneRows newRows s1 s2 s3 s4 s5 s6 s7 s8
  have m1 : s1.memOk = true := State.memOk_returnRanges hm
  have m2 : s2.memOk = true := State.memOk_giveRows (State.memOk_takeRows m1)
  have m3 : s3.memOk = true := State.memOk_freeEntries m2
  have m4 : s4.memOk = true := State.memOk_each (fun _ _ hu => State.memOk_setSorica hu) m3
  have m5 : s5.memOk = true := State.memOk_each (fun _ _ hu => State.memOk_unclaim hu) m4
  have m6 : s6.memOk = true := State.memOk_clearStoves m5
  have m7 : s7.memOk = true := by
    unfold s7
    split
    · refine State.memOk_each ?_ m6
      intro u1 h1 hu
      exact hu
    · exact m6
  have m8 : s8.memOk = true := by
    unfold s8
    refine State.memOk_ite m7 ?_
    exact State.memOk_each (fun _ _ hu => State.memOk_modHive hu) (State.memOk_each (fun _ _ hu => State.memOk_modHive hu) m7)
  exact State.memOk_trimWays (State.memOk_modPart m8)

set_option maxRecDepth 4000 in
theorem memOk_execPresize {fn : Nat} : NextMemOk (execPresize fn s) := by
  unfold execPresize
  refine memOk_hvCommand hm ?_
  intro a a1 u hu
  extract_lets +onlyGivenNames vf
  clear_value vf
  split
  · exact hu
  · split
    · exact hu
    · split
      · exact State.memOk_of_snd (State.memOk_readList hu) ‹_›
      · rename_i t e
        have mt : t.memOk = true := State.memOk_of_snd (State.memOk_readList hu) ‹_›
        refine Answer.memOk_ite mt (Answer.memOk_ite mt ?_)
        extract_lets +onlyGivenNames goneHives goneChans ends q stuck
        refine Answer.memOk_ite mt ?_
        extract_lets +onlyGivenNames s1 s2
        have m1 : s1.memOk = true := State.memOk_each (fun _ _ hu1 => State.memOk_resetContext hu1) mt
        have m2 : s2.memOk = true := State.memOk_each (fun _ _ hu1 => State.memOk_dropUnplaced hu1) m1
        exact State.memOk_applyList m2

theorem memOk_execFunctionLevelReset {vf : Nat} : NextMemOk (execFunctionLevelReset vf s) := by
  unfold execFunctionLevelReset
  refine nextMemOk_ite hm ?_
  extract_lets +onlyGivenNames s1 s2 s3 s4
  have m1 : s1.memOk = true := by
    unfold s1
    refine State.memOk_ite ?_ hm
    exact hm
  have m2 : s2.memOk = true := State.memOk_unclaimAll (State.memOk_resetContexts m1)
  have m3 : s3.memOk = true := State.memOk_modPart m2
  have m4 : s4.memOk = true := State.memOk_drainEngine m3
  exact State.memOk_with m4 rfl rfl rfl rfl

/-! ## Pre-emption -/

theorem State.memOk_renameRels {f : RelInfo → RelInfo} : (s.renameRels f).memOk = true := by
  unfold State.renameRels
  extract_lets +onlyGivenNames ren warp
  exact hm

theorem State.memOk_renameTeam {old new core : Nat} {slot : Nat → Nat} : (s.renameTeam old new core slot).memOk = true := by
  unfold State.renameTeam
  extract_lets +onlyGivenNames scr
  exact hm

theorem State.memOk_saveTeam {ctx : Nat} {eager : Bool} {ix : Nat} {t : Team} : (s.saveTeam ctx eager ix t).memOk = true := by
  unfold State.saveTeam
  extract_lets +onlyGivenNames size src v core me s1 s2 tag s3 away s4 s5 vf s6 s7
  have m1 : s1.memOk = true := State.memOk_releaseComb hm
  have m2 : s2.memOk = true := State.memOk_modHive m1
  have m3 : s3.memOk = true := State.memOk_each (fun _ _ hu => State.memOk_modTile hu) m2
  clear_value s3
  have m4 : s4.memOk = true := State.memOk_with m3 rfl rfl rfl rfl
  clear_value s4
  have m5 : s5.memOk = true := State.memOk_renameTeam m4
  have m6 : s6.memOk = true := State.memOk_ite (State.memOk_openFill m5) m5
  have m7 : s7.memOk = true := State.memOk_modPart m6
  exact State.memOk_renameRels (State.memOk_modCtx m7)

theorem State.memOk_returnOfCtx {ctx vf : Nat} : (s.returnOfCtx ctx vf).memOk = true := by
  unfold State.returnOfCtx
  extract_lets +onlyGivenNames ours back
  refine State.memOk_modPart ?_
  exact hm

theorem memOk_execContextSave {ctx : Nat} : NextMemOk (execContextSave ctx s) := by
  unfold execContextSave
  split
  · exact hm
  · refine nextMemOk_ite hm ?_
    extract_lets +onlyGivenNames s1 s2
    have m1 : s1.memOk = true := by
      unfold s1
      refine State.memOk_each ?_ hm
      intro u1 kt1 hu
      split
      · exact State.memOk_saveTeam hu
      · exact hu
    have m2 : s2.memOk = true := State.memOk_modCtx (State.memOk_returnOfCtx m1)
    change State.memOk _ = true
    split
    · exact State.memOk_counterUpdate m2
    · exact m2

theorem State.memOk_retireDone {core slot : Nat} : (s.retireDone core slot).memOk = true := by
  unfold State.retireDone
  exact State.memOk_modWarp hm

theorem State.memOk_rebindName {v : SavedTeam} {g : Grid} {ix n : Nat} : (s.rebindName v g ix n).memOk = true := by
  unfold State.rebindName
  extract_lets +onlyGivenNames set
  split
  · exact State.memOk_modTile hm
  · split
    · exact hm
    · extract_lets +onlyGivenNames x
      refine State.memOk_ite ?_ ?_
      · exact State.memOk_askSpill (State.memOk_modTeam (State.memOk_modTeam hm))
      · exact State.memOk_modTeam (State.memOk_modTile hm)

theorem State.memOk_restoreTeam {v : SavedTeam} {g : Grid} {slot : Nat} {slots cells : List Nat}
    : (s.restoreTeam v g slot slots cells).memOk = true := by
  unfold State.restoreTeam
  extract_lets +onlyGivenNames core ix me src s1 s2 s3 s4 s5 v1 names tile s6 s7 here s8 s9 s10
  have m1 : s1.memOk = true := hm
  have m2 : s2.memOk = true := State.memOk_each (fun _ _ hu => State.memOk_setWarp hu) m1
  have m3 : s3.memOk = true := State.memOk_modHive m2
  have m4 : s4.memOk = true := State.memOk_each (fun _ _ hu => State.memOk_rebindName hu) m3
  have m5 : s5.memOk = true := State.memOk_each (fun _ _ hu => State.memOk_modTile hu) m4
  have m6 : s6.memOk = true := State.memOk_each (fun _ _ hu => State.memOk_modTile hu) m5
  have m8 : s8.memOk = true := State.memOk_with m6 rfl rfl rfl rfl
  have m9 : s9.memOk = true := State.memOk_modHive m8
  have m10 : s10.memOk = true := State.memOk_renameRels (State.memOk_renameTeam m9)
  exact State.memOk_each (fun _ _ hu => State.memOk_retireDone hu) m10

theorem memOk_execTeamRestore {ctx index : Nat} : NextMemOk (execTeamRestore ctx index s) := by
  unfold execTeamRestore
  split
  · exact hm
  · split
    · split
      · exact hm
      · exact State.memOk_modCtx (State.memOk_restoreTeam hm)
    · exact hm

/-! ## Readiness -/

theorem State.memOk_modFrag {core : Nat} {f : Nat × Nat} {g : Entry → Entry} : (s.modFrag core f g).memOk = true := by
  unfold State.modFrag
  exact State.memOk_modWarp hm

theorem State.memOk_restAges : s.restAges.memOk = true := by
  unfold State.restAges
  extract_lets +onlyGivenNames src
  exact hm

theorem State.memOk_ageOthers {core q : Nat} {l : List (Nat × Nat)} {sel : Nat × Nat} : (s.ageOthers core q l sel).memOk = true := by
  unfold State.ageOthers
  extract_lets +onlyGivenNames over_ s1 n s2
  have m1 : s1.memOk = true := State.memOk_each (fun _ _ hu => State.memOk_modFrag hu) hm
  have m2 : s2.memOk = true := State.memOk_each (fun _ _ hu => State.memOk_modFrag hu) (State.memOk_fresh m1)
  exact State.memOk_modWarp m2

/-! ## Fetch, samplers and watchdogs -/

theorem State.memOk_fetchLine {core ctx vf : Nat} {line : DWord} : (s.fetchLine core ctx vf line).2.memOk = true := by
  unfold State.fetchLine
  split
  · exact State.memOk_of_snd (State.memOk_resolve hm) ‹_›
  · rename_i t e
    have mt : t.memOk = true := State.memOk_of_snd (State.memOk_resolve hm) ‹_›
    split
    · exact mt
    · extract_lets +onlyGivenNames s1
      have m1 : s1.memOk = true := State.memOk_touchRun _ _ _ mt
      split <;> exact m1

theorem State.memOk_keepLine {core ctx : Nat} {line : DWord} {l : BitVec 512} : (s.keepLine core ctx line l).memOk = true := by
  unfold State.keepLine
  exact State.memOk_ite (State.memOk_modCore hm) (State.memOk_modCore (State.memOk_pick hm))

theorem memOk_execInstructionFetch {who : FetchUnit} : NextMemOk (execInstructionFetch who s) := by
  unfold execInstructionFetch
  split
  · split
    · exact hm
    · refine nextMemOk_ite hm ?_
      split
      · exact State.memOk_of_error (State.memOk_through hm) ‹_›
      · rename_i t e
        have mt : t.memOk = true := State.memOk_of_ok (State.memOk_through hm) ‹_›
        split
        · rename_i t1 e1
          have mt1 : t1.memOk = true := State.memOk_of_snd (State.memOk_fetchLine mt) ‹_›
          exact State.memOk_keepLine mt1
        · rename_i t1 e1
          have mt1 : t1.memOk = true := State.memOk_of_snd (State.memOk_fetchLine mt) ‹_›
          exact State.memOk_takeTrap mt1
  · split
    · exact hm
    · refine nextMemOk_ite hm ?_
      split
      · exact State.memOk_of_error (State.memOk_through hm) ‹_›
      · rename_i t e
        have mt : t.memOk = true := State.memOk_of_ok (State.memOk_through hm) ‹_›
        split
        · rename_i t1 e1
          have mt1 : t1.memOk = true := State.memOk_of_snd (State.memOk_fetchLine mt) ‹_›
          exact State.memOk_keepLine mt1
        · rename_i t1 e1
          have mt1 : t1.memOk = true := State.memOk_of_snd (State.memOk_fetchLine mt) ‹_›
          exact State.memOk_seqTrap mt1

theorem memOk_execFetchParityRefetch {who : FetchUnit} : NextMemOk (execFetchParityRefetch who s) := by
  unfold execFetchParityRefetch
  split
  · split
    · exact hm
    · split
      · exact hm
      · refine nextMemOk_ite hm ?_
        split
        · exact State.memOk_of_error (State.memOk_through hm) ‹_›
        · rename_i t e
          have mt : t.memOk = true := State.memOk_of_ok (State.memOk_through hm) ‹_›
          split
          · rename_i t1 e1
            have mt1 : t1.memOk = true := State.memOk_of_snd (State.memOk_fetchLine mt) ‹_›
            exact State.memOk_takeTrap mt1
          · rename_i t1 e1
            have mt1 : t1.memOk = true := State.memOk_of_snd (State.memOk_fetchLine mt) ‹_›
            extract_lets +onlyGivenNames s1
            have m1 : s1.memOk = true := State.memOk_keepLine mt1
            exact State.memOk_ite m1 (State.memOk_takeTrap m1)
  · split
    · exact hm
    · split
      · exact hm
      · refine nextMemOk_ite hm ?_
        split
        · exact State.memOk_of_error (State.memOk_through hm) ‹_›
        · rename_i t e
          have mt : t.memOk = true := State.memOk_of_ok (State.memOk_through hm) ‹_›
          split
          · rename_i t1 e1
            have mt1 : t1.memOk = true := State.memOk_of_snd (State.memOk_fetchLine mt) ‹_›
            exact State.memOk_seqTrap mt1
          · rename_i t1 e1
            have mt1 : t1.memOk = true := State.memOk_of_snd (State.memOk_fetchLine mt) ‹_›
            extract_lets +onlyGivenNames s1
            have m1 : s1.memOk = true := State.memOk_keepLine mt1
            exact State.memOk_ite m1 (State.memOk_seqTrap m1)

theorem memOk_execYieldExpiry {core slot entry : Nat} : NextMemOk (execYieldExpiry core slot entry s) := by
  unfold execYieldExpiry
  split
  · exact State.memOk_ite (State.memOk_modWarp hm) hm
  · exact hm

theorem State.memOk_sampleReason {core slot entry : Nat} {w : Warp} {last : Option (Nat × Nat)}
    : (s.sampleReason core slot entry w last).2.memOk = true := by
  unfold State.sampleReason
  split
  · exact hm
  · extract_lets +onlyGivenNames lost prio
    split
    · split
      · exact hm
      · split <;> exact hm
    · exact hm

theorem memOk_execSample {core sched : Nat} : NextMemOk (execSample core sched s) := by
  unfold execSample
  split
  · exact hm
  · extract_lets +onlyGivenNames c
    refine nextMemOk_ite hm ?_
    extract_lets +onlyGivenNames s1
    have m1 : s1.memOk = true := State.memOk_modCore hm
    split
    · exact m1
    · extract_lets +onlyGivenNames slot s2
      have m2 : s2.memOk = true := State.memOk_modCore m1
      split
      · exact m2
      · extract_lets +onlyGivenNames last issued entry re
        refine nextMemOk_ite m2 ?_
        extract_lets +onlyGivenNames x ivl word
        exact State.memOk_each (fun _ _ hu => State.memOk_countPerf (State.memOk_unitRecord hu)) (State.memOk_sampleReason m2)

theorem State.memOk_tickSamples : s.tickSamples.memOk = true := by
  unfold State.tickSamples
  refine State.memOk_ite ?_ hm
  refine State.memOk_each ?_ hm
  intro u1 core1 hu
  split
  · exact hu
  · exact State.memOk_modCore hu

theorem State.memOk_fireWatchdog {ctx : Nat} : (s.fireWatchdog ctx).memOk = true := by
  unfold State.fireWatchdog
  split
  · split
    · extract_lets +onlyGivenNames core die wr s1 s2
      have hwr : SomeMemOk wr := by
        unfold wr
        split
        · split
          · exact State.memOk_of_snd (State.memOk_writeVirt _ _ _ _ _ _ _ hm) ‹_›
          · exact trivial
        · exact trivial
      have m1 : s1.memOk = true := State.memOk_log _ _ _ _ _ _ _ (someMemOk_getD hwr hm)
      have m2 : s2.memOk = true := State.memOk_each (fun _ _ hu => State.memOk_log _ _ _ _ _ _ _ hu) m1
      exact State.memOk_endContext m2
    · exact hm
  · exact hm

theorem memOk_execBarrierTimeout {core team bar : Nat} : NextMemOk (execBarrierTimeout core team bar s) := by
  unfold execBarrierTimeout
  exact State.memOk_ite (State.memOk_fireWatchdog hm) hm

theorem State.memOk_tickBarriers : s.tickBarriers.memOk = true := by
  unfold State.tickBarriers
  extract_lets +onlyGivenNames s1
  have m1 : s1.memOk = true := State.memOk_each (fun _ _ hu => State.memOk_ite hu (State.memOk_fireWatchdog hu)) hm
  exact State.memOk_with m1 rfl rfl rfl rfl

/-! ## Replay -/

theorem State.memOk_applyComb {x : Store} : (s.applyComb x).memOk = true := by
  unfold State.applyComb
  extract_lets +onlyGivenNames same l wi mask d s1
  have m1 : s1.memOk = true := hm
  exact State.memOk_ite (State.memOk_combWrite m1) m1

theorem State.memOk_applyHeld {id : Nat} : (s.applyHeld id).memOk = true := by
  unfold State.applyHeld
  split
  · exact hm
  · extract_lets +onlyGivenNames v
    have hv : ∀ (s : State), s.memOk = true → (v s).memOk = true := by
      intro u hu
      unfold v
      extract_lets +onlyGivenNames s1
      have m1 : s1.memOk = true := hu
      exact State.memOk_ite (State.memOk_ackWarp m1) m1
    refine State.memOk_ite hm ?_
    refine State.memOk_ite (State.memOk_applyComb hm) ?_
    refine State.memOk_ite (hv _ (State.memOk_hostStore hm)) ?_
    extract_lets +onlyGivenNames r
    have hr : r.1.memOk = true := by
      unfold r
      refine State.memOk_foldFst _ ?_ _ _ hm
      intro acc1 pa1 hu
      split
      · exact State.memOk_of_some (State.memOk_applyStore hu) ‹_›
      · exact hu
    split
    · exact State.memOk_denyStore hr
    · exact hv _ hr

theorem State.memOk_applyHostHeld {vf : Nat} {before_ : Bool} : (s.applyHostHeld vf before_).memOk = true := by
  unfold State.applyHostHeld
  split
  · exact hm
  · exact State.memOk_modPart (State.memOk_each (fun _ _ hu => State.memOk_hostWrites hu) hm)

theorem memOk_execQuantumBoundary {vf : Nat} : NextMemOk (execQuantumBoundary vf s) := by
  unfold execQuantumBoundary
  refine nextMemOk_ite hm ?_
  extract_lets +onlyGivenNames c both s1 s2 s3
  have m1 : s1.memOk = true := State.memOk_ite (State.memOk_applyHostHeld (State.memOk_pick hm)) (State.memOk_pick hm)
  have m2 : s2.memOk = true := State.memOk_each (fun _ _ hu => State.memOk_applyHeld hu) m1
  have m3 : s3.memOk = true := State.memOk_ite m2 (State.memOk_applyHostHeld m2)
  exact State.memOk_with m3 rfl rfl rfl rfl

theorem State.memOk_fillNow {vf wa : Nat} : (s.fillNow vf wa).memOk = true := by
  unfold State.fillNow
  exact State.memOk_ite (State.memOk_serveReq hm) hm

theorem memOk_nextOr {a : Host.Outcome State Fault Refusal} (hp : NextMemOk a) : (nextOr s a).memOk = true := by
  unfold nextOr
  split
  · exact hp
  · exact hm

theorem State.memOk_settleOps {core slot : Nat} : (s.settleOps core slot).memOk = true := by
  unfold State.settleOps
  extract_lets +onlyGivenNames s1 s2 s3
  have m1 : s1.memOk = true := State.memOk_each (fun _ _ hu => State.memOk_applyHeld hu) hm
  have m2 : s2.memOk = true := by
    unfold s2
    refine State.memOk_each ?_ m1
    intro u1 id1 hu
    split
    · exact hu
    · extract_lets +onlyGivenNames s4 s5
      have m4 : s4.memOk = true := State.memOk_each (fun _ _ hu1 => State.memOk_ite (State.memOk_fillNow hu1) hu1) hu
      have m5 : s5.memOk = true := memOk_nextOr m4 (memOk_execAtomicExecute m4)
      exact memOk_nextOr m5 (memOk_execAtomicReply m5)
  have m3 : s3.memOk = true := by
    unfold s3
    refine State.memOk_each ?_ m2
    intro u1 id1 hu
    split
    · exact hu
    · extract_lets +onlyGivenNames s4
      have m4 : s4.memOk = true := State.memOk_each (fun _ _ hu1 => State.memOk_ite (State.memOk_fillNow hu1) hu1) hu
      exact memOk_nextOr m4 (memOk_execLoadReply m4)
  exact State.memOk_each (fun _ _ hu => memOk_nextOr hu (memOk_execTxValidate hu)) m3

theorem State.memOk_grantSolo {vf : Nat} : (s.grantSolo vf).memOk = true := by
  unfold State.grantSolo
  exact State.memOk_modPart hm

theorem State.memOk_writeUndo {vf : Nat} : (s.writeUndo vf).memOk = true := by
  unfold State.writeUndo
  split
  · exact hm
  · extract_lets +onlyGivenNames rest new s1
    have m1 : s1.memOk = true := by
      unfold s1
      refine State.memOk_each ?_ hm
      intro u1 y1 hu
      split
      · exact State.memOk_ite (State.memOk_recordWrite _ _ _ hu) hu
      · exact hu
    exact State.memOk_modPart m1

theorem State.memOk_flushOwn {vf : Nat} : (s.flushOwn vf).memOk = true := by
  unfold State.flushOwn
  extract_lets +onlyGivenNames mine s1
  have m1 : s1.memOk = true := State.memOk_each (fun _ _ hu => (State.sameMem_syncOut _ _).memOk hu) hm
  exact State.memOk_serveWrites _ (State.memOk_each (fun _ _ hu => (State.sameMem_writeThrough _ _).memOk hu) m1)

theorem State.memOk_takeCheckpoint {vf : Nat} : (s.takeCheckpoint vf).memOk = true := by
  unfold State.takeCheckpoint
  split
  · exact hm
  · extract_lets +onlyGivenNames s1 src s2 s3 v s4
    have m1 : s1.memOk = true := State.memOk_each (fun _ _ hu => State.memOk_modUnit hu) hm
    have m2 : s2.memOk = true := State.memOk_with m1 rfl rfl rfl rfl
    have m3 : s3.memOk = true := State.memOk_modPart m2
    have m4 : s4.memOk = true := State.memOk_modPart m3
    exact State.memOk_each (fun _ _ hu => State.memOk_ite (State.memOk_openFill hu) hu) m4

theorem State.memOk_endBoundary {vf : Nat} : (s.endBoundary vf).memOk = true := by
  unfold State.endBoundary
  extract_lets +onlyGivenNames src newW src1 newT s1 s2 s3
  have m1 : s1.memOk = true := hm
  have m2 : s2.memOk = true := State.memOk_modPart m1
  have m3 : s3.memOk = true := State.memOk_flushOwn (State.memOk_writeUndo m2)
  split
  · exact m3
  · exact State.memOk_ite (State.memOk_takeCheckpoint m3) m3

theorem State.memOk_rollback {vf : Nat} : (s.rollback vf).memOk = true := by
  unfold State.rollback
  split
  · exact hm
  · extract_lets +onlyGivenNames s1 s2 v mine ours s3 s4 s5 s6
    have m1 : s1.memOk = true := by
      unfold s1
      refine State.memOk_each ?_ hm
      intro u1 y1 hu
      extract_lets +onlyGivenNames s7
      have m7 : s7.memOk = true := State.memOk_setDram _ _ _ ((State.sameMem_dropWrites _ _).memOk hu)
      exact State.memOk_with m7 rfl rfl rfl rfl
    have m2 : s2.memOk = true := State.memOk_with m1 rfl rfl rfl rfl
    have m3 : s3.memOk = true := State.memOk_with m2 rfl rfl rfl rfl
    have m4 : s4.memOk = true := State.memOk_with m3 rfl rfl rfl rfl
    have m5 : s5.memOk = true := State.memOk_each (fun _ _ hu => State.memOk_modCore hu) m4
    have m6 : s6.memOk = true := State.memOk_with m5 rfl rfl rfl rfl
    exact State.memOk_modPart m6

theorem State.memOk_badStop {u : Nat} : (s.badStop u).memOk = true := by
  unfold State.badStop
  exact State.memOk_modUnit hm

theorem State.memOk_armStop {vf u : Nat} : (s.armStop vf u).memOk = true := by
  unfold State.armStop
  extract_lets +onlyGivenNames x
  split
  · exact State.memOk_badStop hm
  · extract_lets +onlyGivenNames over_ passed
    exact State.memOk_ite (State.memOk_badStop hm) (State.memOk_ite hm (State.memOk_ite (State.memOk_badStop hm) (State.memOk_rollback hm)))

theorem memOk_execCountStop {unit : Nat} : NextMemOk (execCountStop unit s) := by
  unfold execCountStop
  split
  · exact hm
  · extract_lets +onlyGivenNames x
    split
    · exact hm
    · exact nextMemOk_ite hm (State.memOk_stopAt (State.memOk_modPart (State.memOk_modUnit hm)))

/-! ## The host -/

theorem memOk_execLaunchDoorbell {vf queue : Nat} {tail : Word} : NextMemOk (execLaunchDoorbell vf queue tail s) := by
  unfold execLaunchDoorbell
  split
  · exact hm
  · refine nextMemOk_ite hm ?_
    extract_lets +onlyGivenNames s1
    have m1 : s1.memOk = true := State.memOk_log _ _ _ _ _ _ _ hm
    split
    · exact m1
    · exact nextMemOk_ite m1 (State.memOk_modPart hm)

theorem State.memOk_writeControl {u : Nat} {v : DWord} : (s.writeControl u v).memOk = true := by
  unfold State.writeControl
  extract_lets +onlyGivenNames n
  refine State.memOk_ite hm ?_
  extract_lets +onlyGivenNames s1
  have m1 : s1.memOk = true := State.memOk_modUnit hm
  refine State.memOk_ite ?_ m1
  split
  · exact State.memOk_armStop m1
  · exact State.memOk_badStop m1

theorem State.memOk_dumpNow {u : Nat} : (s.dumpNow u).memOk = true := by
  unfold State.dumpNow
  split
  · exact hm
  · exact State.memOk_ite hm (State.memOk_dump (State.memOk_haltContext hm))

theorem State.memOk_writeDumpCtl {u : Nat} {v : DWord} : (s.writeDumpCtl u v).memOk = true := by
  unfold State.writeDumpCtl
  extract_lets +onlyGivenNames n
  exact State.memOk_ite hm (State.memOk_ite (State.memOk_dumpNow (State.memOk_modUnit hm)) (State.memOk_modUnit hm))

theorem memOk_execDumpNow {fn unit : Nat} : NextMemOk (execDumpNow fn unit s) := by
  unfold execDumpNow
  exact State.memOk_ite (State.memOk_writeDumpCtl hm) hm

theorem memOk_execCountStopArm {fn unit : Nat} : NextMemOk (execCountStopArm fn unit s) := by
  unfold execCountStopArm
  exact State.memOk_ite (State.memOk_writeControl hm) hm

theorem memOk_execTraceRcountWrite {fn unit : Nat} {value : DWord} : NextMemOk (execTraceRcountWrite fn unit value s) := by
  unfold execTraceRcountWrite
  exact State.memOk_ite (State.memOk_modUnit hm) hm

theorem State.memOk_ringMailbox {fn : Nat} : (s.ringMailbox fn).memOk = true := by
  unfold State.ringMailbox
  refine State.memOk_ite hm ?_
  extract_lets +onlyGivenNames s1
  have m1 : s1.memOk = true := State.memOk_modMailbox hm
  exact State.memOk_with m1 rfl rfl rfl rfl

theorem memOk_execRegisterWrite {fn : Nat} {reg : HostReg} {value : DWord} : NextMemOk (execRegisterWrite fn reg value s) := by
  unfold execRegisterWrite
  refine nextMemOk_ite hm ?_
  extract_lets +onlyGivenNames unit
  split
  · exact State.memOk_modMailbox hm
  · exact State.memOk_ite (State.memOk_modMailbox hm) hm
  · exact State.memOk_modMailbox hm
  · exact State.memOk_ringMailbox hm
  · exact State.memOk_ite (State.memOk_writeControl hm) hm
  · exact State.memOk_ite (State.memOk_modUnit hm) hm
  · exact State.memOk_ite (State.memOk_ite (State.memOk_modUnit hm) hm) hm
  · exact State.memOk_ite (State.memOk_modUnit hm) hm
  · exact State.memOk_ite (State.memOk_writeDumpCtl hm) hm
  · change State.memOk _ = true
    refine State.memOk_ite ?_ hm
    exact hm
  · exact hm

theorem memOk_execLinkTraining {link width rate : Nat} : NextMemOk (execLinkTraining link width rate s) := by
  unfold execLinkTraining
  extract_lets +onlyGivenNames old
  refine nextMemOk_ite hm ?_
  extract_lets +onlyGivenNames s1
  have m1 : s1.memOk = true := hm
  change State.memOk _ = true
  refine State.memOk_ite ?_ m1
  exact State.memOk_with m1 rfl rfl rfl rfl

theorem State.memOk_hostWriteLine {pa : Nat} {bytes : List Byte} : (s.hostWriteLine pa bytes).memOk = true := by
  unfold State.hostWriteLine
  split
  · exact State.memOk_modPart hm
  · refine State.memOk_ite ?_ (State.memOk_hostWrites hm)
    exact hm

theorem State.memOk_refuseHost {pa : Nat} : (s.refuseHost pa).memOk = true := by
  unfold State.refuseHost
  extract_lets +onlyGivenNames s1
  have m1 : s1.memOk = true := State.memOk_logPhys _ _ _ _ _ _ _ hm
  exact State.memOk_with m1 rfl rfl rfl rfl

theorem memOk_execHostCxlMemAccess {access : HostAccess} : NextMemOk (execHostCxlMemAccess access s) := by
  unfold execHostCxlMemAccess
  extract_lets +onlyGivenNames up
  split
  · refine nextMemOk_ite hm ?_
    split
    · exact State.memOk_refuseHost hm
    · extract_lets +onlyGivenNames bad
      exact State.memOk_with (State.memOk_touchRun _ _ _ hm) rfl rfl rfl rfl
  · extract_lets +onlyGivenNames closed
    refine nextMemOk_ite hm ?_
    split
    · exact State.memOk_refuseHost hm
    · exact State.memOk_each (fun _ _ hu => State.memOk_hostWriteLine hu) hm

theorem memOk_execBackInvalidateReissue {line : Nat} : NextMemOk (execBackInvalidateReissue line s) := by
  unfold execBackInvalidateReissue
  extract_lets +onlyGivenNames on
  refine nextMemOk_ite hm ?_
  exact State.memOk_with (State.memOk_each (fun _ _ hu => State.memOk_hostWrites hu) hm) rfl rfl rfl rfl

theorem State.memOk_hostProtect {page : Nat} {deny : Bool} : (s.hostProtect page deny).memOk = true := by
  unfold State.hostProtect
  exact hm

/-! ## Resets and the device -/

theorem State.memOk_afterReset {powered : Bool} : (s.afterReset powered).memOk = true := by
  obtain ⟨-, hhost, -, -⟩ := State.memOk_iff.1 hm
  exact State.memOk_iff.2 ⟨rfl, hhost, rfl, rfl⟩

theorem memOk_execDeviceReset : NextMemOk (execDeviceReset s) := by
  unfold execDeviceReset
  exact State.memOk_afterReset hm

theorem memOk_execSupplyRemoved : NextMemOk (execSupplyRemoved s) := by
  unfold execSupplyRemoved
  exact State.memOk_afterReset hm

theorem memOk_execHotReset : NextMemOk (execHotReset s) := by
  unfold execHotReset
  exact State.memOk_ite (State.memOk_afterReset hm) hm

theorem memOk_execVclockTick : NextMemOk (execVclockTick s) := by
  unfold execVclockTick
  refine nextMemOk_ite hm ?_
  extract_lets +onlyGivenNames s1
  have m1 : s1.memOk = true := State.memOk_bankTurns (State.memOk_tickSamples (State.memOk_tickBarriers hm))
  exact State.memOk_with m1 rfl rfl rfl rfl

theorem State.memOk_setIsland {island mhz : Nat} : (s.setIsland island mhz).memOk = true := by
  unfold State.setIsland
  refine State.memOk_soricaTouch ?_
  exact hm

theorem State.memOk_governIsland {island mhz mv : Nat} : (s.governIsland island mhz mv).memOk = true := by
  unfold State.governIsland
  refine State.memOk_ite hm ?_
  extract_lets +onlyGivenNames s1
  have m1 : s1.memOk = true := hm
  exact State.memOk_ite m1 (State.memOk_setIsland m1)

theorem memOk_execThrottle {island mhz : Nat} : NextMemOk (execThrottle island mhz s) := by
  unfold execThrottle
  exact nextMemOk_ite hm ((State.sameMem_logMgmt _ _).memOk (State.memOk_setIsland hm))

theorem memOk_execMgmtHeartbeat : NextMemOk (execMgmtHeartbeat s) := by
  unfold execMgmtHeartbeat
  change State.memOk _ = true
  refine State.memOk_ite hm ?_
  exact hm

theorem memOk_execTakeover : NextMemOk (execTakeover s) := by
  unfold execTakeover
  refine nextMemOk_ite hm ?_
  extract_lets +onlyGivenNames c src s1
  have m1 : s1.memOk = true := by
    unfold s1
    split
    · exact hm
    · refine State.memOk_ite (State.memOk_drainEngine (State.memOk_finishCommand ?_)) hm
      exact hm
  clear_value s1
  change State.memOk _ = true
  refine (State.sameMem_logMgmt _ _).memOk ?_
  exact m1

theorem memOk_execPatrolScrub {row : Nat} : NextMemOk (execPatrolScrub row s) := by
  unfold execPatrolScrub
  extract_lets +onlyGivenNames stack
  refine nextMemOk_ite hm ?_
  extract_lets +onlyGivenNames ws
  change State.memOk _ = true
  refine State.memOk_each ?_ hm
  intro u1 w1 hu
  extract_lets +onlyGivenNames fixed s1
  have m1 : s1.memOk = true := State.memOk_hearthRead _ _ hu
  exact State.memOk_ite (State.memOk_logPhys _ _ _ _ _ _ _ m1) m1

theorem memOk_execZeroFill {row : Nat} : NextMemOk (execZeroFill row s) := by
  unfold execZeroFill
  refine nextMemOk_ite hm ?_
  extract_lets +onlyGivenNames inRow t
  have mt : t.memOk = true := State.memOk_quietRows hm
  clear_value t
  obtain ⟨hmem, hhost, hsynd, helide⟩ := State.memOk_iff.1 mt
  change (State.showUnfilled _ _).memOk = true
  refine State.memOk_showUnfilled ?_
  exact State.memOk_iff.2 ⟨Memory.wf_filter _ hmem, hhost, Tab.sortedFrom_filter _ hsynd, Tab.sortedFrom_erase _ helide⟩

theorem State.memOk_upset {u : Upset} : (s.upset u).memOk = true := by
  obtain ⟨hmem, hhost, hsynd, helide⟩ := State.memOk_iff.1 hm
  unfold State.upset
  split
  · refine State.memOk_ite hm ?_
    extract_lets +onlyGivenNames syn
    refine State.memOk_iff.2 ⟨?_, hhost, Tab.sortedFrom_set _ _ _ hsynd (Nat.zero_le _), helide⟩
    split
    · exact Memory.wf_writeN _ _ hmem
    · exact hmem
  · exact State.memOk_modCore hm
  · exact hm
  · exact State.memOk_ite hm hm
  · exact State.memOk_modHive hm
  · extract_lets +onlyGivenNames ix
    split
    · exact hm
    · extract_lets +onlyGivenNames s1
      have m1 : s1.memOk = true := (State.sameMem_countRes _ _ _ _ _).memOk hm
      exact State.memOk_ite (State.memOk_seqTrap m1) m1

theorem memOk_execI3cTemperatureReport : NextMemOk (execI3cTemperatureReport s) := by
  unfold execI3cTemperatureReport
  change State.memOk _ = true
  refine State.memOk_ite ?_ hm
  exact hm

theorem memOk_execRetiredByFault {kind index : Nat} : NextMemOk (execRetiredByFault kind index s) := by
  unfold execRetiredByFault
  exact State.memOk_ite hm (State.memOk_setSorica hm)

/-! ## Packed operations -/

theorem memOk_packed2 {x : Ctx} {b : VBody} {op : Fv → Fv → Option Fv} : (packed2 x s b op).MemOk := by
  unfold packed2
  exact memOk_perThreadF hm

theorem memOk_packedSelect {x : Ctx} {b : VBody} {big : Bool} : (packedSelect x s b big).MemOk := by
  unfold packedSelect
  exact memOk_perThreadF hm

/-! ## Special registers -/

theorem memOk_sfuOp {x : Ctx} {b : VBody} {op : Nat} : (sfuOp x s b op).MemOk := by
  unfold sfuOp
  refine Eff.memOk_ite hm ?_
  extract_lets +onlyGivenNames rs ws f p
  change State.memOk _ = true
  refine State.memOk_orFlags ?_
  exact State.memOk_with (State.memOk_fresh hm) rfl rfl rfl rfl

/-! ## System instructions -/

theorem memOk_execSysc {h : Hdr} {b : SBody} : NextMemOk (execSysc h b s) := by
  unfold execSysc
  refine memOk_issue hm ?_
  intro a u hu
  refine Eff.memOk_ite hu ?_
  extract_lets +onlyGivenNames f vec s1 s2
  have m1 : s1.memOk = true := State.memOk_fresh hu
  have m2 : s2.memOk = true := State.memOk_with m1 rfl rfl rfl rfl
  exact State.memOk_signal m2

theorem memOk_execSyscReply {id : Nat} {value : DWord} : NextMemOk (execSyscReply id value s) := by
  unfold execSyscReply
  split
  · exact hm
  · refine nextMemOk_ite hm ?_
    change State.memOk _ = true
    refine State.memOk_writeBack ?_
    exact hm

theorem memOk_execSfuWriteback {id : Nat} : NextMemOk (execSfuWriteback id s) := by
  unfold execSfuWriteback
  split
  · exact hm
  · refine nextMemOk_ite hm ?_
    change State.memOk _ = true
    refine State.memOk_writeBack ?_
    exact hm

/-! ## Every instruction and event -/

theorem nextMemOk_exec {i : Instr} : NextMemOk (exec i s) := by
  cases i with
  | nop _ _ => exact memOk_issue hm (fun _ _ hu => hu)
  | bra _ _ => exact memOk_issue hm (fun _ _ hu => memOk_xfer hu)
  | brx _ _ => exact memOk_issue hm (fun _ _ hu => memOk_xfer hu)
  | call _ _ => exact memOk_issue hm (fun _ _ hu => memOk_xfer hu)
  | callx _ _ => exact memOk_issue hm (fun _ _ hu => memOk_xfer hu)
  | ret _ _ => exact memOk_issue hm (fun _ _ hu => memOk_xfer hu)
  | exit _ _ => exact memOk_issue hm (fun _ _ hu => State.memOk_ite hu (State.memOk_exitHandler (State.memOk_endThreads hu)))
  | join _ _ => exact memOk_issue hm (fun _ _ hu => memOk_xfer hu)
  | yield _ _ => exact memOk_issue hm (fun _ _ hu => Eff.memOk_ite hu hu)
  | trap _ _ => exact memOk_issue hm (fun _ _ hu => Eff.memOk_ite hu trivial)
  | tret _ _ => exact memOk_issue hm (fun _ _ hu => Eff.memOk_ite trivial ⟨hu, fun _ hu1 => State.memOk_endHandler (State.memOk_modWarp hu1)⟩)
  | brk _ _ => exact memOk_execBrk hm
  | barArrive _ _ => exact memOk_issue hm (fun _ _ hu => State.memOk_ite hu (State.memOk_arriveActive hu))
  | barWait _ _ => exact memOk_issue hm (fun _ _ hu => Eff.memOk_ite hu (memOk_barWaitEff hu))
  | barSync _ _ => exact memOk_issue hm (fun _ _ hu => Eff.memOk_ite hu (memOk_barWaitEff (State.memOk_ite hu (State.memOk_arriveActive hu))))
  | barQuery _ _ => exact memOk_issue hm (fun _ _ hu => Eff.memOk_ite hu (State.memOk_writeBack hu))
  | drain _ _ =>
    exact memOk_issue hm (fun _ _ hu => Eff.memOk_ite hu (Eff.memOk_ite hu (State.memOk_closeWin (State.memOk_ite hu (State.memOk_arriveActive
      hu)))))
  | fence _ _ => exact memOk_execFence hm
  | owait _ _ =>
    exact memOk_issue hm (fun _ _ hu => Eff.memOk_ite hu (Eff.memOk_ite hu (State.memOk_closeWin (State.memOk_acquireL1 (State.memOk_raiseFloor
      hu)))))
  | cwait _ _ => exact memOk_execCwait hm
  | cyield _ _ => exact memOk_execCyield hm
  | glaunch _ _ => exact memOk_execGlaunch hm
  | gwait _ _ =>
    exact memOk_issue hm (fun _ _ hu => Eff.memOk_ite hu (Eff.memOk_ite hu (State.memOk_closeWin (State.memOk_acquireL1 (State.memOk_raiseFloor
      hu)))))
  | add _ _ => exact memOk_issue hm (fun _ _ hu => memOk_int2Op hu)
  | sub _ _ => exact memOk_issue hm (fun _ _ hu => memOk_int2Op hu)
  | mul _ _ => exact memOk_issue hm (fun _ _ hu => memOk_int2Op hu)
  | mulh _ _ => exact memOk_issue hm (fun _ _ hu => memOk_int2Op hu)
  | mad _ _ => exact memOk_issue hm (fun _ _ hu => memOk_intOp hu)
  | min _ _ => exact memOk_issue hm (fun _ _ hu => memOk_int2Op hu)
  | max _ _ => exact memOk_issue hm (fun _ _ hu => memOk_int2Op hu)
  | abs _ _ => exact memOk_issue hm (fun _ _ hu => memOk_int1Op hu)
  | neg _ _ => exact memOk_issue hm (fun _ _ hu => memOk_int1Op hu)
  | and _ _ => exact memOk_issue hm (fun _ _ hu => memOk_bit2Op hu)
  | or _ _ => exact memOk_issue hm (fun _ _ hu => memOk_bit2Op hu)
  | xor _ _ => exact memOk_issue hm (fun _ _ hu => memOk_bit2Op hu)
  | not _ _ => exact memOk_issue hm (fun _ _ hu => memOk_bit2Op hu)
  | andn _ _ => exact memOk_issue hm (fun _ _ hu => memOk_bit2Op hu)
  | shl _ _ => exact memOk_issue hm (fun _ _ hu => memOk_shiftOp hu)
  | shr _ _ => exact memOk_issue hm (fun _ _ hu => memOk_shiftOp hu)
  | sar _ _ => exact memOk_issue hm (fun _ _ hu => memOk_shiftOp hu)
  | rot _ _ => exact memOk_issue hm (fun _ _ hu => memOk_shiftOp hu)
  | sel _ _ => exact memOk_issue hm (fun _ _ hu => memOk_intOp hu)
  | mov _ _ => exact memOk_issue hm (fun _ _ hu => memOk_bit2Op hu)
  | cmp _ _ => exact memOk_issue hm (fun _ _ hu => memOk_perThreadP hu)
  | addi _ _ => exact memOk_issue hm (fun _ _ hu => memOk_immOp hu)
  | andi _ _ => exact memOk_issue hm (fun _ _ hu => memOk_intOp hu)
  | ori _ _ => exact memOk_issue hm (fun _ _ hu => memOk_intOp hu)
  | movi _ _ => exact memOk_issue hm (fun _ _ hu => memOk_immOp hu)
  | cmpi _ _ => exact memOk_issue hm (fun _ _ hu => memOk_perThreadP hu)
  | lea _ _ => exact memOk_issue hm (fun _ _ hu => memOk_wideOp hu)
  | add64 _ _ => exact memOk_issue hm (fun _ _ hu => memOk_wideOp hu)
  | mad64 _ _ => exact memOk_issue hm (fun _ _ hu => memOk_wideOp hu)
  | popc _ _ => exact memOk_issue hm (fun _ _ hu => memOk_bit1Op hu)
  | clz _ _ => exact memOk_issue hm (fun _ _ hu => memOk_bit1Op hu)
  | ctz _ _ => exact memOk_issue hm (fun _ _ hu => memOk_bit1Op hu)
  | brev _ _ => exact memOk_issue hm (fun _ _ hu => memOk_bit1Op hu)
  | bfe _ _ => exact memOk_issue hm (fun _ _ hu => memOk_intOp hu)
  | bfi _ _ => exact memOk_issue hm (fun _ _ hu => memOk_intOp hu)
  | prmt _ _ => exact memOk_issue hm (fun _ _ hu => memOk_intOp hu)
  | shfn _ _ => exact memOk_issue hm (fun _ _ hu => memOk_intOp hu)
  | lop3 _ _ => exact memOk_issue hm (fun _ _ hu => memOk_intOp hu)
  | shfl _ _ => exact memOk_issue hm (fun _ _ hu => memOk_results hu)
  | lred _ _ => exact memOk_issue hm (fun _ _ hu => Eff.memOk_ite (memOk_results hu) (memOk_results hu))
  | lscan _ _ => exact memOk_issue hm (fun _ _ hu => memOk_results hu)
  | vote _ _ => exact memOk_issue hm (fun _ _ hu => Eff.memOk_ite hu (memOk_results hu))
  | ballot _ _ => exact memOk_issue hm (fun _ _ hu => Eff.memOk_ite hu (memOk_results hu))
  | bcast _ _ => exact memOk_issue hm (fun _ _ hu => Eff.memOk_ite hu (memOk_results hu))
  | matchLanes _ _ => exact memOk_issue hm (fun _ _ hu => memOk_results hu)
  | prank _ _ => exact memOk_issue hm (fun _ _ hu => memOk_results hu)
  | plop _ _ => exact memOk_issue hm (fun _ _ hu => memOk_results hu)
  | pmask _ _ => exact memOk_issue hm (fun _ _ hu => memOk_results hu)
  | psetm _ _ => exact memOk_issue hm (fun _ _ hu => memOk_results hu)
  | pact _ _ => exact memOk_issue hm (fun _ _ hu => memOk_results hu)
  | fadd _ _ => exact memOk_issue hm (fun _ _ hu => memOk_fp2Op hu)
  | fsub _ _ => exact memOk_issue hm (fun _ _ hu => memOk_fp2Op hu)
  | fmul _ _ => exact memOk_issue hm (fun _ _ hu => memOk_fp2Op hu)
  | ffma _ _ => exact memOk_issue hm (fun _ _ hu => memOk_perThreadF hu)
  | fmin _ _ => exact memOk_issue hm (fun _ _ hu => memOk_fpSelect hu)
  | fmax _ _ => exact memOk_issue hm (fun _ _ hu => memOk_fpSelect hu)
  | fcmp _ _ => exact memOk_issue hm (fun _ _ hu => memOk_perThreadP hu)
  | frnd _ _ => exact memOk_issue hm (fun _ _ hu => memOk_perThreadF hu)
  | fclass _ _ => exact memOk_issue hm (fun _ _ hu => memOk_perThread hu)
  | fscale _ _ => exact memOk_issue hm (fun _ _ hu => memOk_perThreadF hu)
  | fexpt _ _ => exact memOk_issue hm (fun _ _ hu => memOk_perThreadF hu)
  | fdot2 _ _ => exact memOk_issue hm (fun _ _ hu => memOk_perThreadF hu)
  | hadd2 _ _ => exact memOk_issue hm (fun _ _ hu => memOk_packed2 hu)
  | hsub2 _ _ => exact memOk_issue hm (fun _ _ hu => memOk_packed2 hu)
  | hmul2 _ _ => exact memOk_issue hm (fun _ _ hu => memOk_packed2 hu)
  | hfma2 _ _ => exact memOk_issue hm (fun _ _ hu => memOk_perThreadF hu)
  | hmin2 _ _ => exact memOk_issue hm (fun _ _ hu => memOk_packedSelect hu)
  | hmax2 _ _ => exact memOk_issue hm (fun _ _ hu => memOk_packedSelect hu)
  | hcmp2 _ _ => exact memOk_issue hm (fun _ _ hu => memOk_perThreadF hu)
  | e8dot4 _ _ => exact memOk_issue hm (fun _ _ hu => memOk_perThreadF hu)
  | frcp _ _ => exact memOk_issue hm (fun _ _ hu => memOk_sfuOp hu)
  | frsq _ _ => exact memOk_issue hm (fun _ _ hu => memOk_sfuOp hu)
  | fsqrt _ _ => exact memOk_issue hm (fun _ _ hu => memOk_sfuOp hu)
  | fex2 _ _ => exact memOk_issue hm (fun _ _ hu => memOk_sfuOp hu)
  | flg2 _ _ => exact memOk_issue hm (fun _ _ hu => memOk_sfuOp hu)
  | fsin _ _ => exact memOk_issue hm (fun _ _ hu => memOk_sfuOp hu)
  | fcos _ _ => exact memOk_issue hm (fun _ _ hu => memOk_sfuOp hu)
  | fscs _ _ => exact memOk_issue hm (fun _ _ hu => memOk_sfuOp hu)
  | ftanh _ _ => exact memOk_issue hm (fun _ _ hu => memOk_sfuOp hu)
  | fsig _ _ => exact memOk_issue hm (fun _ _ hu => memOk_sfuOp hu)
  | ferf _ _ => exact memOk_issue hm (fun _ _ hu => memOk_sfuOp hu)
  | cvt _ _ => exact memOk_issue hm (fun _ _ hu => memOk_perThreadF hu)
  | cvtq _ _ => exact memOk_issue hm (fun _ _ hu => memOk_results hu)
  | cvtdq _ _ => exact memOk_issue hm (fun _ _ hu => memOk_results hu)
  | cvsc _ _ => exact memOk_issue hm (fun _ _ hu => memOk_results hu)
  | pack _ _ => exact memOk_issue hm (fun _ _ hu => memOk_perThreadF hu)
  | unpack _ _ => exact memOk_issue hm (fun _ _ hu => memOk_perThreadF hu)
  | ld _ _ => exact memOk_execLd hm
  | st _ _ => exact memOk_execSt hm
  | ldp _ _ => exact memOk_issue hm (fun _ _ hu => memOk_loadEff hu (memOk_checkLanes hu (fun _ _ hu1 => Ctx.memOk_globalLane hu1)))
  | stp _ _ => exact memOk_issue hm (fun _ _ hu => memOk_storeEff hu (memOk_checkLanes hu (fun _ _ hu1 => Ctx.memOk_globalLane hu1)))
  | ldc _ _ => exact memOk_issue hm (fun _ _ hu => memOk_loadEff hu (memOk_checkLanes hu (fun _ _ hu1 => Ctx.memOk_globalLane hu1)))
  | lds _ _ => exact memOk_execLds hm
  | sts _ _ => exact memOk_execSts hm
  | ldl _ _ => exact memOk_issue hm (fun _ _ hu => memOk_loadEff hu (memOk_checkLanes hu (fun _ _ hu1 => Ctx.memOk_privateLane hu1)))
  | stl _ _ => exact memOk_issue hm (fun _ _ hu => memOk_storeEff hu (memOk_checkLanes hu (fun _ _ hu1 => Ctx.memOk_privateLane hu1)))
  | pf _ _ => exact memOk_execPf hm
  | wbr _ _ => exact memOk_execWbr hm
  | invr _ _ => exact memOk_issue hm (fun _ _ hu => Eff.memOk_ite hu (State.memOk_modCore hu))
  | atom _ _ => exact memOk_issue hm (fun _ _ hu => memOk_atomEff hu)
  | ared _ _ => exact memOk_issue hm (fun _ _ hu => memOk_atomEff hu)
  | cas16 _ _ => exact memOk_issue hm (fun _ _ hu => memOk_atomEff hu)
  | txbeg _ _ => exact memOk_execTxbeg hm
  | txend _ _ => exact memOk_execTxend hm
  | txabt _ _ => exact memOk_issue hm (fun _ _ hu => Eff.memOk_ite hu (State.memOk_abortTx hu))
  | bcopy _ _ => exact memOk_issue hm (fun _ _ hu => memOk_copyIssue hu)
  | bloop _ _ => exact memOk_issue hm (fun _ _ hu => memOk_copyIssue hu)
  | brel _ _ => exact memOk_issue hm (fun _ _ hu => Eff.memOk_ite hu (State.memOk_modHive hu))
  | bmcast _ _ => exact memOk_issue hm (fun _ _ hu => memOk_copyIssue hu)
  | kcoll _ _ => exact memOk_execKcoll hm
  | mseal _ _ => exact memOk_execMseal hm
  | munseal _ _ => exact memOk_execMunseal hm
  | mmac _ _ => exact memOk_execMmac hm
  | mstart _ _ => exact memOk_execMstart hm
  | mzero _ _ => exact memOk_execMzero hm
  | mget _ _ => exact memOk_execMget hm
  | mput _ _ => exact memOk_execMput hm
  | mbwait _ _ => exact memOk_execMbwait hm
  | mbarr _ _ => exact memOk_execMbarr hm
  | mbra _ _ => exact memOk_execMbra hm
  | mloop _ _ => exact memOk_execMloop hm
  | mset _ _ => exact memOk_execMset hm
  | mpoint _ _ => exact memOk_execMpoint hm
  | mend _ _ => exact memOk_execMend hm
  | mfence _ _ => exact memOk_execMfence hm
  | gred _ _ => exact memOk_execGred hm
  | nred _ _ => exact memOk_execNred hm
  | nlaunch _ _ => exact memOk_execNlaunch hm
  | nstat _ _ => exact memOk_issue hm (fun _ _ hu => memOk_nearSelect hu)
  | nkill _ _ => exact memOk_issue hm (fun _ _ hu => memOk_nearSelect hu)
  | srd _ _ => exact memOk_issue hm (fun _ _ hu => Eff.memOk_ite hu (Eff.memOk_ite (memOk_results hu) (memOk_results hu)))
  | swr _ _ => exact memOk_issue hm (fun _ _ hu => Eff.memOk_ite hu (Eff.memOk_ite trivial (State.memOk_modWarp hu)))
  | sysc _ _ => exact memOk_execSysc hm
  | aopen _ _ => exact memOk_execAopen hm
  | acol _ _ _ => exact memOk_execAcol hm
  | awr => exact memOk_execAwr hm
  | anext => exact memOk_execAnext hm
  | aset _ _ _ => exact memOk_execAset hm
  | aadd _ _ _ _ => exact memOk_execAadd hm
  | aloop _ _ => exact memOk_execAloop hm
  | abr _ _ _ _ => exact memOk_execAbr hm
  | awq _ => exact memOk_execAwq hm
  | aend => exact memOk_execAend hm
  | xpop _ => exact memOk_execXpop hm
  | xpush _ _ => exact memOk_execXpush hm
  | xadd _ _ _ => exact memOk_execXadd hm
  | xmul _ _ _ => exact memOk_execXmul hm
  | xfma _ _ _ => exact memOk_execXfma hm
  | xmax _ _ _ => exact memOk_execXmax hm
  | xscale _ _ _ => exact memOk_execXscale hm
  | xcvt _ _ _ => exact memOk_execXcvt hm
  | xset _ _ _ => exact memOk_execXset hm
  | xsetAdd _ _ _ => exact memOk_execXsetAdd hm
  | xsetB _ _ => exact memOk_execXsetB hm
  | xloop _ _ => exact memOk_execXloop hm
  | xbr _ _ _ _ => exact memOk_execXbr hm
  | xend => exact memOk_execXend hm
  | pcreate _ => exact memOk_execPcreate hm
  | presize _ => exact memOk_execPresize hm
  | pdestroy _ => exact memOk_execPdestroy hm
  | logset _ => exact memOk_execLogset hm
  | setrate _ => exact memOk_execSetrate hm
  | setframe _ => exact memOk_execSetframe hm
  | elide _ => exact memOk_execElide hm
  | fuseRaiseSvn _ => exact memOk_execFuseRaiseSvn hm
  | fuseSetTestmode _ => exact memOk_execFuseSetTestmode hm
  | fuseRetireResource _ => exact memOk_execFuseRetireResource hm
  | ctxcreate _ => exact memOk_execCtxcreate hm
  | ctxreset _ => exact memOk_execCtxreset hm
  | qcreate _ => exact memOk_execQcreate hm
  | preempt _ => exact memOk_execPreempt hm
  | resume _ => exact memOk_execResume hm
  | reply _ => exact memOk_execReply hm
  | tlbinv _ => exact memOk_execTlbinv hm
  | icinv _ => exact memOk_execIcinv hm
  | flip _ => exact memOk_execFlip hm
  | claim _ => exact memOk_execClaim hm
  | unclaim _ => exact memOk_execUnclaim hm
  | keyload _ => exact memOk_execKeyload hm
  | attest _ => exact memOk_execAttest hm
  | boot _ => exact memOk_execBoot hm
  | launchDoorbell _ _ _ => exact memOk_execLaunchDoorbell hm
  | dumpNow _ _ => exact memOk_execDumpNow hm
  | countStopArm _ _ => exact memOk_execCountStopArm hm
  | traceRcountWrite _ _ _ => exact memOk_execTraceRcountWrite hm
  | registerWrite _ _ _ => exact memOk_execRegisterWrite hm
  | deviceReset => exact memOk_execDeviceReset hm
  | supplyRemoved => exact memOk_execSupplyRemoved hm
  | hotReset => exact memOk_execHotReset hm
  | functionLevelReset _ => exact memOk_execFunctionLevelReset hm
  | linkTraining _ _ _ => exact memOk_execLinkTraining hm
  | hostCxlMemAccess _ => exact memOk_execHostCxlMemAccess hm
  | backInvalidateReissue _ => exact memOk_execBackInvalidateReissue hm
  | throttle _ _ => exact memOk_execThrottle hm
  | vclockTick => exact memOk_execVclockTick hm
  | mgmtHeartbeat => exact memOk_execMgmtHeartbeat hm
  | takeover => exact memOk_execTakeover hm
  | patrolScrub _ => exact memOk_execPatrolScrub hm
  | zeroFill _ => exact memOk_execZeroFill hm
  | launchAccept _ => exact memOk_execLaunchAccept hm
  | dependencyReread _ => exact memOk_execDependencyReread hm
  | priorityPromotion _ => exact memOk_execPriorityPromotion hm
  | packageRangeHandout _ => exact memOk_execPackageRangeHandout hm
  | dieRangeHandout _ _ => exact memOk_execDieRangeHandout hm
  | hiveSteal _ _ => exact memOk_execHiveSteal hm
  | dieSteal _ _ => exact memOk_execDieSteal hm
  | teamPlace _ => exact memOk_execTeamPlace hm
  | fitWaitExpiry _ => exact memOk_execFitWaitExpiry hm
  | teamRetire _ _ => exact memOk_execTeamRetire hm
  | gridRetire _ => exact memOk_execGridRetire hm
  | instructionFetch _ => exact memOk_execInstructionFetch hm
  | fetchParityRefetch _ => exact memOk_execFetchParityRefetch hm
  | yieldExpiry _ _ _ => exact memOk_execYieldExpiry hm
  | sample _ _ => exact memOk_execSample hm
  | storeSend _ => exact memOk_execStoreSend hm
  | homeStore _ _ => exact memOk_execHomeStore hm
  | storeAck _ => exact memOk_execStoreAck hm
  | loadReply _ _ => exact memOk_execLoadReply hm
  | sfuWriteback _ => exact memOk_execSfuWriteback hm
  | tlbWalk _ _ _ => exact memOk_execTlbWalk hm
  | dramActivate _ _ _ _ => exact memOk_execDramActivate hm
  | dramPrecharge _ _ _ _ => exact memOk_execDramPrecharge hm
  | burst _ _ _ => exact memOk_execBurst hm
  | l2Writeback _ => exact memOk_execL2Writeback hm
  | syncEvict _ => exact memOk_execSyncEvict hm
  | atomicExecute _ => exact memOk_execAtomicExecute hm
  | atomicReply _ => exact memOk_execAtomicReply hm
  | txValidate _ _ _ => exact memOk_execTxValidate hm
  | soloGrant _ => exact memOk_execSoloGrant hm
  | soloTimeout _ => exact memOk_execSoloTimeout hm
  | cwaitReread _ _ _ => exact memOk_execCwaitReread hm
  | syscReply _ _ => exact memOk_execSyscReply hm
  | barrierTimeout _ _ _ => exact memOk_execBarrierTimeout hm
  | copyAccept _ _ => exact memOk_execCopyAccept hm
  | copyPart _ _ => exact memOk_execCopyPart hm
  | copyComplete _ _ => exact memOk_execCopyComplete hm
  | bloopIteration _ _ => exact memOk_execBloopIteration hm
  | mcastDelivery _ _ _ => exact memOk_execMcastDelivery hm
  | kcollSequence _ => exact memOk_execKcollSequence hm
  | gredReply _ => exact memOk_execGredReply hm
  | nredAccept _ => exact memOk_execNredAccept hm
  | nredBag _ => exact memOk_execNredBag hm
  | nredComplete _ => exact memOk_execNredComplete hm
  | stoveLaunch _ => exact memOk_execStoveLaunch hm
  | stoveEnd _ _ => exact memOk_execStoveEnd hm
  | nstatService _ => exact memOk_execNstatService hm
  | nkillService _ => exact memOk_execNkillService hm
  | frameStart _ => exact memOk_execFrameStart hm
  | ordinaryIntervalStart _ => exact memOk_execOrdinaryIntervalStart hm
  | stoveDeadline _ _ => exact memOk_execStoveDeadline hm
  | sealComplete _ _ => exact memOk_execSealComplete hm
  | slabReadDone _ => exact memOk_execSlabReadDone hm
  | passGrant _ _ => exact memOk_execPassGrant hm
  | passComplete _ => exact memOk_execPassComplete hm
  | mgetWriteback _ => exact memOk_execMgetWriteback hm
  | mputDone _ => exact memOk_execMputDone hm
  | mzeroDone _ => exact memOk_execMzeroDone hm
  | accForeignSpill _ _ => exact memOk_execAccForeignSpill hm
  | contextSave _ => exact memOk_execContextSave hm
  | teamRestore _ _ => exact memOk_execTeamRestore hm
  | quantumBoundary _ => exact memOk_execQuantumBoundary hm
  | countStop _ => exact memOk_execCountStop hm
  | i3cTemperatureReport => exact memOk_execI3cTemperatureReport hm
  | retiredByFault _ _ => exact memOk_execRetiredByFault hm
  | teamNotScreened _ _ => exact memOk_execTeamNotScreened hm

/-! ## Turns -/

theorem State.memOk_fetched {core ctx : Nat} {pc : DWord} {seq : Bool} : (s.fetched core ctx pc seq).2.memOk = true := by
  unfold State.fetched
  split
  · exact hm
  · split
    · exact State.memOk_of_snd (State.memOk_resolve hm) ‹_›
    · exact State.memOk_of_snd (State.memOk_resolve hm) ‹_›

theorem State.memOk_readTargets {core ctx vf : Nat} {l : List DWord} : SomeMemOk (s.readTargets core ctx vf l) := by
  unfold State.readTargets
  refine someMemOk_ite trivial (someMemOk_foldlM ?_ hm)
  intro u a hu
  split
  · exact trivial
  · rename_i t e
    have mt : t.memOk = true := State.memOk_of_ok (State.memOk_through hu) ‹_›
    split
    · rename_i t1 e1
      have mt1 : t1.memOk = true := State.memOk_of_snd (State.memOk_resolve mt) ‹_›
      exact State.memOk_ite mt1 (State.memOk_touchRun _ _ _ mt1)
    · exact State.memOk_of_snd (State.memOk_resolve mt) ‹_›

theorem State.memOk_noIssue {core : Nat} : (s.noIssue core).memOk = true := by
  unfold State.noIssue
  split
  · exact State.memOk_countPerf hm
  · exact hm

theorem State.memOk_leaveToBoundary {core slot entry : Nat} : (s.leaveToBoundary core slot entry).memOk = true := by
  unfold State.leaveToBoundary
  exact State.memOk_modWarp hm

theorem State.memOk_runFragment {core slot entry upset : Nat} {w : Warp} {hold : Bool} : NextMemOk (s.runFragment core slot entry upset w hold)
    := by
  unfold State.runFragment
  extract_lets +onlyGivenNames e ctx
  split
  · rename_i t e1
    have mt : t.memOk = true := State.memOk_of_snd (State.memOk_fetched hm) ‹_›
    exact nextMemOk_exec (State.memOk_noIssue mt)
  · rename_i t e1
    have mt : t.memOk = true := State.memOk_of_snd (State.memOk_fetched hm) ‹_›
    exact State.memOk_takeTrap mt
  · rename_i t e1
    have mt : t.memOk = true := State.memOk_of_snd (State.memOk_fetched hm) ‹_›
    exact nextMemOk_exec (State.memOk_noIssue mt)
  · rename_i t e1
    have mt : t.memOk = true := State.memOk_of_snd (State.memOk_fetched hm) ‹_›
    exact State.memOk_takeTrap mt
  · rename_i t e1
    have mt : t.memOk = true := State.memOk_of_snd (State.memOk_fetched hm) ‹_›
    refine nextMemOk_ite (State.memOk_leaveToBoundary mt) ?_
    extract_lets +onlyGivenNames role s1
    have m1 : s1.memOk = true := mt
    split
    · exact State.memOk_noIssue mt
    · rename_i t1 e2
      have mt1 : t1.memOk = true := State.memOk_of_some (State.memOk_readTargets mt) ‹_›
      refine nextMemOk_exec ?_
      exact mt1

theorem State.memOk_issueSelected {core slot entry upset : Nat} {w : Warp} : NextMemOk (s.issueSelected core slot entry upset w) := by
  unfold State.issueSelected
  extract_lets +onlyGivenNames e started
  split
  · exact nextMemOk_ite (State.memOk_takeTrap (State.memOk_ite (State.memOk_modWarp hm) hm)) (State.memOk_takeTrap hm)
  · extract_lets +onlyGivenNames s1
    have m1 : s1.memOk = true := State.memOk_ite (State.memOk_ite (State.memOk_modWarp hm) hm) hm
    exact State.memOk_runFragment m1

theorem State.memOk_issueTurn {core sched upset : Nat} {notReady : List Nat} : NextMemOk (s.issueTurn core sched upset notReady) := by
  unfold State.issueTurn
  split
  · exact State.memOk_noIssue hm
  · extract_lets +onlyGivenNames s1 s2
    have m1 : s1.memOk = true := State.memOk_ageOthers hm
    have m2 : s2.memOk = true := State.memOk_ite (State.memOk_modCore m1) m1
    split
    · exact m2
    · exact State.memOk_issueSelected m2

theorem State.memOk_unpair {core slot entry : Nat} : (s.unpair core slot entry).memOk = true := by
  unfold State.unpair
  exact State.memOk_modWarp hm

theorem State.memOk_secondTurn {core slot entry upset : Nat} : NextMemOk (s.secondTurn core slot entry upset) := by
  unfold State.secondTurn
  split
  · exact hm
  · extract_lets +onlyGivenNames e
    refine nextMemOk_ite hm (nextMemOk_ite (State.memOk_unpair hm) ?_)
    extract_lets +onlyGivenNames s1
    have m1 : s1.memOk = true := by
      unfold s1
      split
      · rename_i t e1
        have mt : t.memOk = true := State.memOk_of_snd (State.memOk_fetched hm) ‹_›
        exact memOk_nextOr mt (nextMemOk_exec mt)
      · exact hm
    split
    · exact m1
    · extract_lets +onlyGivenNames e2
      exact nextMemOk_ite m1 (State.memOk_runFragment m1)

theorem State.memOk_runSequencer {core team : Nat} {q : Sequencer} {hold : Bool} : NextMemOk (s.runSequencer core team q hold) := by
  unfold State.runSequencer
  extract_lets +onlyGivenNames ix
  split
  · rename_i t e
    have mt : t.memOk = true := State.memOk_of_snd (State.memOk_fetched hm) ‹_›
    exact nextMemOk_exec mt
  · rename_i t e
    have mt : t.memOk = true := State.memOk_of_snd (State.memOk_fetched hm) ‹_›
    exact State.memOk_seqTrap mt
  · rename_i t e
    have mt : t.memOk = true := State.memOk_of_snd (State.memOk_fetched hm) ‹_›
    exact nextMemOk_exec mt
  · rename_i t e
    have mt : t.memOk = true := State.memOk_of_snd (State.memOk_fetched hm) ‹_›
    exact State.memOk_seqTrap mt
  · rename_i t e
    have mt : t.memOk = true := State.memOk_of_snd (State.memOk_fetched hm) ‹_›
    refine nextMemOk_ite (State.memOk_modSeq mt) ?_
    split
    · exact mt
    · rename_i t1 e1
      have mt1 : t1.memOk = true := State.memOk_of_some (State.memOk_readTargets mt) ‹_›
      refine nextMemOk_exec ?_
      exact mt1

theorem State.memOk_sequencerTurn {core team : Nat} : NextMemOk (s.sequencerTurn core team) := by
  unfold State.sequencerTurn
  extract_lets +onlyGivenNames ix
  split
  · exact hm
  · extract_lets +onlyGivenNames ctx vf spent
    refine nextMemOk_ite hm ?_
    split
    · exact State.memOk_seqTrap hm
    · exact State.memOk_runSequencer (State.memOk_ite (State.memOk_modSeq hm) hm)

theorem State.memOk_stoveTurn {stack ch : Nat} {arith : Bool} : NextMemOk (s.stoveTurn stack ch arith) := by
  unfold State.stoveTurn
  extract_lets +onlyGivenNames k x
  refine nextMemOk_ite hm ?_
  split
  · exact State.memOk_stoveFault hm
  · split
    · exact State.memOk_stoveFault hm
    · exact State.memOk_stoveFault hm
    · refine nextMemOk_exec ?_
      exact hm

theorem State.memOk_boundaryIssue {core slot entry : Nat} : (s.boundaryIssue core slot entry).memOk = true := by
  unfold State.boundaryIssue
  split
  · exact hm
  · extract_lets +onlyGivenNames vf s1
    have m1 : s1.memOk = true := State.memOk_ite (State.memOk_grantSolo hm) hm
    split
    · exact m1
    · exact State.memOk_ite m1 (State.memOk_settleOps (memOk_nextOr m1 (State.memOk_runFragment m1)))

theorem State.memOk_boundaryTurn {core slot entry : Nat} : (s.boundaryTurn core slot entry).memOk = true := by
  unfold State.boundaryTurn
  extract_lets +onlyGivenNames s1
  have m1 : s1.memOk = true := State.memOk_boundaryIssue hm
  split
  · exact State.memOk_boundaryIssue m1
  · exact State.memOk_boundaryIssue m1
  · exact m1

theorem State.memOk_boundarySeqTurn {core team : Nat} : (s.boundarySeqTurn core team).memOk = true := by
  unfold State.boundarySeqTurn
  extract_lets +onlyGivenNames ix
  split
  · exact hm
  · exact State.memOk_ite hm (memOk_nextOr hm (State.memOk_runSequencer hm))

theorem State.memOk_act {t : Turn} : NextMemOk (s.act t) := by
  unfold State.act
  split
  · exact nextMemOk_ite (nextMemOk_exec hm) hm
  · exact nextMemOk_ite (State.memOk_issueTurn hm) hm
  · exact nextMemOk_ite (State.memOk_secondTurn hm) hm
  · exact nextMemOk_ite (State.memOk_sequencerTurn hm) hm
  · exact nextMemOk_ite (State.memOk_stoveTurn hm) hm
  · exact State.memOk_ite (State.memOk_boundaryTurn hm) hm
  · exact State.memOk_ite (State.memOk_boundarySeqTurn hm) hm
  · exact State.memOk_ite (State.memOk_endBoundary hm) hm
  · exact nextMemOk_ite (memOk_execCopyAccept hm) hm
  · exact State.memOk_ite (State.memOk_upset hm) hm
  · exact State.memOk_hostProtect hm
  · exact State.memOk_ite (State.memOk_governIsland hm) hm

theorem State.memOk_recordedTurn {t : Turn} {vf : Nat} {key : Nat × Nat} : NextMemOk (s.recordedTurn t vf key) := by
  unfold State.recordedTurn
  extract_lets +onlyGivenNames left
  refine nextMemOk_ite hm ?_
  split
  · rename_i t1 e
    have mt1 : t1.memOk = true := NextMemOk.of_eq (b := .next _) (State.memOk_act hm) ‹_›
    exact State.memOk_ite mt1 (State.memOk_flushOwn (State.memOk_modPart mt1))
  · exact State.memOk_act hm

theorem State.memOk_turn {t : Turn} : NextMemOk (s.turn t) := by
  unfold State.turn
  split
  · exact State.memOk_act hm
  · exact State.memOk_recordedTurn hm

theorem State.memOk_nextTurn : NextMemOk s.nextTurn := by
  unfold State.nextTurn
  split
  · exact nextMemOk_exec (State.memOk_restAges hm)
  · refine State.memOk_turn ?_
    refine State.memOk_restAges ?_
    exact hm

/-! ## The step -/

theorem memOk_step : NextMemOk (step s) := by
  unfold step
  exact State.memOk_nextTurn hm

end Sys2Proof.Machine
end

section
/-! SUPPORT. The step keeps memory canonical. -/

namespace Sys2Proof.Machine

/-- Settles O60: every next state is what the turn leaves of one with canonical memory. -/
theorem stepKeepsMemory : Obligations.StepKeepsMemory := by
  intro s t hm hstep
  have h : NextMemOk (step s) := memOk_step hm
  rw [hstep] at h
  exact h

end Sys2Proof.Machine
end

section
/-! SUPPORT. Loads at issue (09 R192; 13 R271 to R274): with no transaction open the lanes of `ld` are those of a plain load. -/

namespace Sys2Proof.Machine

/-- The form that a ready fragment issues is that of its instruction. -/
theorem Ready.form_eq {i : Instr} {s : State} {x : Ctx} (h : Ready i s x) : x.f = form i := by
  have hi := h.issuer
  unfold State.issuer at hi
  split at hi
  · split at hi
    · cases hi
    · split at hi
      · cases hi
      · dsimp only at hi
        split at hi
        · cases hi
          rfl
        · cases hi
  · cases hi

/-- Where no transaction of Active is open, every lane is a plain one. -/
theorem Ctx.txSplit_of_closed {x : Ctx} (ht : x.w.inTx x.act = 0) : x.txSplit = (x.threads, []) := by
  simp only [Ctx.txSplit, ht, threadsOf_zero, ite_self]
  simp

section
variable {x : Ctx} {s : State} {b : MBody} {acq : Nat} {r : Except FaultInfo (List (Nat × Parts)) × State} {vaOf : Nat → DWord}

theorem loadEff_of_fault {f : FaultInfo} {s1 : State} (hr : r = (.error f, s1)) : loadEff x s b acq r vaOf = .trap f := by rw [hr]; rfl

theorem loadEff_of_lanes {l : List (Nat × Parts)} {s1 : State} (ha : x.act ≠ 0) (hr : r = (.ok l, s1)) :
    loadEff x s b acq r vaOf = .done ((s1.bringLanes x.vf l).issueLoad x b.d (memSize b) (x.f.hdr.fs.getLsbD 0) acq (lanesAtomic l) (l.map memLane)
      (l.map fun y => (vaOf y.1).toNat)) := by
  rw [hr]
  exact if_neg ha

end

section
variable {s s1 : State} {h : Hdr} {b : MBody} {x : Ctx}

theorem execLd_lanes {l : List (Nat × Parts)} (hr : Ready (.ld h b) s x) (ht : x.w.inTx x.act = 0)
    (hl : checkLanes s.taken x.threads (fun t s => x.globalLane (x.ea b t) (memBytes b) .read false s) (x.ea b) = (.ok l, s1)) :
    execLd h b s = .next (((s1.bringLanes x.vf l).issueLoad x b.d (memSize b) (x.f.hdr.fs.getLsbD 0) (if ctlKind b = 1 then ctlScope b else 0)
      (lanesAtomic l) (l.map memLane) (l.map fun y => (x.ea b y.1).toNat)).completed x) := by
  have hf : x.f.hdr = h := by rw [hr.form_eq]; rfl
  refine issue_done hr ?_
  simp only [Ctx.txSplit_of_closed ht, hl, hf]
  have hm : (l.map memLane ++ []).map (fun y : LoadLane => (x.ea b y.thread).toNat) = l.map fun y => (x.ea b y.1).toNat := by
    rw [List.append_nil, List.map_map]
    rfl
  change txFinish x (State.issueLoad _ x b.d _ _ _ _ (l.map memLane ++ []) ((l.map memLane ++ []).map fun y : LoadLane => (x.ea b y.thread).toNat)) [] = _
  rw [txFinish_nil, hm, List.append_nil]
  rfl

theorem execLd_fault {f : FaultInfo} (hr : Ready (.ld h b) s x) (ht : x.w.inTx x.act = 0)
    (hl : checkLanes s.taken x.threads (fun t s => x.globalLane (x.ea b t) (memBytes b) .read false s) (x.ea b) = (.error f, s1)) :
    execLd h b s = .next (s.taken.trapAt x f) := by
  refine issue_trap hr ?_
  simp only [Ctx.txSplit_of_closed ht, hl]

end

/-- Settles O15: the effect of each load follows the outcome of its lane checks. -/
theorem loadsIssue : Obligations.LoadsIssue := by
  unfold Obligations.LoadsIssue
  intro s s1 h b x l f ha
  refine ⟨fun hr ht hl => ?_, fun hr hl => ?_, fun hr hl => ?_, fun hr hl => ?_, fun hr ht hl => ?_, fun hr hl => ?_, fun hr hl => ?_, fun hr hl => ?_⟩
  · exact (exec_ld h b s).trans (execLd_lanes hr ht hl)
  · exact (exec_ldp h b s).trans (issue_done hr (loadEff_of_lanes ha hl))
  · exact (exec_ldc h b s).trans (issue_done hr (loadEff_of_lanes ha hl))
  · exact (exec_ldl h b s).trans (issue_done hr (loadEff_of_lanes ha hl))
  · exact (exec_ld h b s).trans (execLd_fault hr ht hl)
  · exact (exec_ldp h b s).trans (issue_trap hr (loadEff_of_fault hl))
  · exact (exec_ldc h b s).trans (issue_trap hr (loadEff_of_fault hl))
  · exact (exec_ldl h b s).trans (issue_trap hr (loadEff_of_fault hl))

end Sys2Proof.Machine
end

section
/-! SUPPORT. The warps are left as they are by every operation of the memory system that translates, reads, writes or moves words: only a word that
reaches DRAM is noted in them (`State.reachDram`). -/

namespace Sys2Proof.Machine

/-- An operation that keeps a part of the state at each step keeps it over a fold that carries the state along. -/
theorem foldl_keeps {α β γ : Type} (p : State → γ) {f : β × State → α → β × State} (hf : ∀ r a, p (f r a).2 = p r.2) (l : List α) (r : β × State) :
    p (l.foldl f r).2 = p r.2 := by
  induction l generalizing r with
  | nil => rfl
  | cons a l ih => exact (ih (f r a)).trans (hf r a)

theorem State.each_warps {α : Type} {f : State → α → State} (hf : ∀ s a, (f s a).warps = s.warps) (s : State) (l : List α) :
    (s.each l f).warps = s.warps := State.each_keeps State.warps hf s l

section
variable (s : State)

/-! ## Words -/

@[simp] theorem State.countRes_warps (vf kind index code : Nat) : (s.countRes vf kind index code).warps = s.warps := rfl
@[simp] theorem State.setDram_warps (wa : Nat) (d : Word) (p : Bool) : (s.setDram wa d p).warps = s.warps := rfl
@[simp] theorem State.pushWrite_warps (wa : Nat) (d : Word) (p : Bool) : (s.pushWrite wa d p).warps = s.warps := rfl
@[simp] theorem State.markL2_warps (frame hint : Nat) : (s.markL2 frame hint).warps = s.warps := rfl

@[simp] theorem State.noteUndo_warps (wa : Nat) : (s.noteUndo wa).warps = s.warps := by
  unfold State.noteUndo
  split
  · rfl
  · split <;> rfl

/-- A change of the elision table leaves the warps as they are. -/
theorem State.warps_withElision (t : State) (e : Tab Word) : ({ t with elision := e } : State).warps = t.warps := rfl

@[simp] theorem State.materialise_warps (row : Nat) : (s.materialise row).warps = s.warps := by
  unfold State.materialise
  split
  · rfl
  · exact (State.warps_withElision _ _).trans (State.each_warps (fun s i => State.setDram_warps s _ _ _) s _)

@[simp] theorem State.l2Evict_warps (frame : Nat) : (s.l2Evict frame).warps = s.warps := by
  have h (l : List Nat) : (s.each l fun s w => s.pushWrite w (s.homeWord w).1 (s.homeWord w).2).warps = s.warps :=
    State.each_warps (fun s w => State.pushWrite_warps s _ _ _) s l
  exact h _

@[simp] theorem State.l2Trim_warps (frame n : Nat) : (s.l2Trim frame n).warps = s.warps := by
  induction n generalizing s with
  | zero => rfl
  | succ n ih =>
    unfold State.l2Trim
    split
    · rfl
    · split
      · simp
      · simp [ih]

@[simp] theorem State.l2Put_warps (wa : Nat) (x : L2Word) : (s.l2Put wa x).warps = s.warps := State.l2Trim_warps _ _ _

@[simp] theorem State.syncOut_warps (wa : Nat) : (s.syncOut wa).warps = s.warps := by
  unfold State.syncOut
  split
  · rfl
  · dsimp only
    split
    · rfl
    · exact State.l2Put_warps _ _ _

/-- Words entered into the engines' SRAM leave them as they are. -/
theorem State.warps_withSync (t : State) (x : Tab SyncWord) : ({ t with sync := x } : State).warps = t.warps := rfl

@[simp] theorem State.syncPut_warps (wa : Nat) (x : SyncWord) : (s.syncPut wa x).warps = s.warps := by
  unfold State.syncPut
  dsimp only
  rw [State.warps_withSync]
  split
  · rfl
  · split
    · rfl
    · simp

@[simp] theorem State.bringIn_warps (wa : Nat) : (s.bringIn wa).warps = s.warps := by
  unfold State.bringIn
  split
  · rfl
  · exact State.syncPut_warps _ _ _

@[simp] theorem State.homeWrite_warps (wa : Nat) (d : Word) (m : BitVec 4) (rel : List RelInfo) (a : Bool) :
    (s.homeWrite wa d m rel a).1.warps = s.warps := by
  have h : (((s.noteUndo wa).materialise (rowOfPa (4 * wa))).bringIn wa).warps = s.warps := by simp
  unfold State.homeWrite
  dsimp only
  split
  · exact h
  · split
    · exact h
    · exact (State.l2Put_warps _ _ _).trans h

@[simp] theorem State.flushBias_warps (pa n : Nat) : (s.flushBias pa n).warps = s.warps := by
  refine State.each_warps (fun s w => ?_) s _
  split
  · rfl
  · dsimp only
    split <;> rfl

/-! ## Records and logs -/

@[simp] theorem State.putRecord_warps (pa : Nat) (b : List Byte) : (s.putRecord pa b).warps = s.warps :=
  (State.flushBias_warps _ _ _).trans (State.each_warps (fun s _ => State.homeWrite_warps s _ _ _ _ _) s _)

@[simp] theorem State.recordWrite_warps (vf pa : Nat) (b : List Byte) : (s.recordWrite vf pa b).warps = s.warps := by
  refine State.each_warps (fun s i => ?_) s _
  dsimp only
  split
  · rfl
  · exact State.putRecord_warps _ _ _

@[simp] theorem State.logMgmt_warps (r : LogRec) : (s.logMgmt r).warps = s.warps := by
  unfold State.logMgmt
  split
  · rfl
  · exact State.countRes_warps s 0 23 0xFF 7

@[simp] theorem State.ringAppend_warps (vf : Nat) (g : LogRing) (r : LogRec) : (s.ringAppend vf g r).1.warps = s.warps := by
  unfold State.ringAppend
  dsimp only
  split
  · rfl
  · split
    · simp
    · simp

@[simp] theorem State.logHv_warps (r : LogRec) : (s.logHv r).warps = s.warps := by
  unfold State.logHv
  split
  · rfl
  · exact State.ringAppend_warps _ _ _ _

@[simp] theorem State.logPart_warps (vf : Nat) (r : LogRec) : (s.logPart vf r).warps = s.warps := by
  unfold State.logPart
  split
  · rfl
  · exact State.ringAppend_warps _ _ _ _

@[simp] theorem State.log_warps (vf c : Nat) (a : DWord) (v : Bool) (k i : Nat) (d : DWord) : (s.log vf c a v k i d).warps = s.warps := by
  unfold State.log
  dsimp only
  split <;> simp

@[simp] theorem State.logPhys_warps (vf c pa : Nat) (va : Option DWord) (k i : Nat) (d : DWord) :
    (s.logPhys vf c pa va k i d).warps = s.warps := by
  unfold State.logPhys
  dsimp only
  split <;> simp

/-! ## Reads of words and walks -/

@[simp] theorem State.hearthRead_warps (vf wa : Nat) : (s.hearthRead vf wa).2.2.warps = s.warps := by
  unfold State.hearthRead
  dsimp only
  split
  · rfl
  · split
    · simp
    · split <;> rfl

/-- A word of L2 or of an engine that is set right, with a corrected bit counted, leaves the warps as they are. -/
theorem State.warps_counted (t : State) (c : Prop) [Decidable c] (vf k i : Nat) : (if c then t.countRes vf k i 4 else t).warps = t.warps := by
  split <;> rfl

@[simp] theorem State.touch_warps (vf wa : Nat) : (s.touch vf wa).warps = s.warps := by
  have h0 : (if s.overflow.contains wa then (s.hearthRead vf wa).2.2.bringIn wa else s).warps = s.warps := by split <;> simp
  have hread {t : State} (c : Prop) [Decidable c] (ht : t.warps = s.warps) : (if c then (t.hearthRead vf wa).2.2 else t).warps = s.warps := by
    split
    · exact (State.hearthRead_warps t vf wa).trans ht
    · exact ht
  unfold State.touch
  extract_lets t0
  change t0.warps = s.warps at h0
  clear_value t0
  split
  · split
    · exact h0
    · exact (State.warps_counted t0 _ _ _ _).trans h0
  · next t1 _ _ =>
    refine hread _ ?_
    dsimp only [t1]
    split
    · split
      · exact h0
      · exact (State.warps_counted t0 _ _ _ _).trans h0
    · exact h0

@[simp] theorem State.countReads_warps (vf : Nat) (was : List Nat) : (s.countReads vf was).warps = s.warps := by
  unfold State.countReads
  exact (State.each_warps (fun s _ => State.countPerf_warps s _ _) _ _).trans (State.each_warps (fun s _ => State.countPerf_warps s _ _) _ _)

@[simp] theorem State.touchRun_warps (vf pa n : Nat) : (s.touchRun vf pa n).warps = s.warps := by
  unfold State.touchRun
  dsimp only
  rw [State.each_warps (fun s _ => State.touch_warps s _ _), State.countReads_warps]

@[simp] theorem State.walked_warps (die ctx : Nat) (va : DWord) : (s.walked die ctx va).warps = s.warps := by
  unfold State.walked
  dsimp only
  split
  · exact State.each_warps (fun s _ => State.touchRun_warps s _ _ _) s _
  · exact State.each_warps (fun s _ => State.touchRun_warps s _ _ _) s _

@[simp] theorem State.fillTlb_warps (core : Nat) (t : Trans) : (s.fillTlb core t).warps = s.warps := rfl

@[simp] theorem State.translate_warps (core ctx : Nat) (va : DWord) : (s.translate core ctx va).2.warps = s.warps := by
  unfold State.translate
  split
  · rfl
  · split
    · rfl
    · split
      · rfl
      · dsimp only
        split
        · simp
        · simp

@[simp] theorem State.resolve_warps (core ctx : Nat) (va : DWord) (kind : AccessKind) : (s.resolve core ctx va kind).2.warps = s.warps := by
  have h := State.translate_warps s core ctx va
  unfold State.resolve
  split <;> simp_all

@[simp] theorem State.resolveParts_warps (core ctx : Nat) (l : List (Nat × Nat)) (kind : AccessKind) :
    (s.resolveParts core ctx l kind).2.warps = s.warps := by
  refine foldl_keeps State.warps (fun r p => ?_) l _
  dsimp only
  split <;> exact State.resolve_warps _ _ _ _ _

@[simp] theorem Ctx.globalLane_warps (x : Ctx) (va : DWord) (n : Nat) (kind : AccessKind) (al : Bool) :
    (x.globalLane va n kind al s).2.warps = s.warps := by
  unfold Ctx.globalLane
  split
  · rfl
  · exact State.resolveParts_warps _ _ _ _ _

/-! ## Prefetches -/

@[simp] theorem State.queueRead_warps (vf wa n : Nat) (l : List (Nat × Nat)) : (s.queueRead vf wa n l).warps = s.warps := by
  unfold State.queueRead
  dsimp only
  split <;> rfl

theorem State.l1Room_warps {t : State} {core frame : Nat} (h : s.l1Room core frame = some t) : t.warps = s.warps := by
  unfold State.l1Room at h
  dsimp only at h
  split at h
  · cases h; rfl
  · split at h
    · cases h
    · cases h; rfl

@[simp] theorem State.l1Fill_warps (core wa hint : Nat) : (s.l1Fill core wa hint).warps = s.warps := by
  unfold State.l1Fill
  split
  · rfl
  · next t h =>
    have ht : t.warps = s.warps := State.l1Room_warps s h
    exact ht

@[simp] theorem State.prefetchWords_warps (core vf hint : Nat) (was : List Nat) : (s.prefetchWords core vf hint was).warps = s.warps := by
  refine State.each_warps (fun s wa => ?_) s _
  split
  · split
    · simp
    · rfl
  · dsimp only
    split <;> simp

end

end Sys2Proof.Machine
end
section
/-! SUPPORT. Comb accesses, prefetches and cache maintenance at issue (13 R272, R274, R276, R277). -/

namespace Sys2Proof.Machine

/-! ## Comb accesses -/

section
variable {s s1 : State} {h : Hdr} {b : MBody} {x : Ctx} {t : Team} {l : List (Nat × Parts)}

/-- `lds` whose lanes pass and that meets no poison leaves its bytes in flight. -/
theorem execLds_lanes (hr : Ready (.lds h b) s x) (ht : s.team? x.team = some t)
    (hl : checkLanes s.taken x.threads (fun k s => x.combLane t (x.ea b k) (memBytes b) false s) (fun _ => 0) = (.ok l, s1))
    {r : List LoadLane × Bool × State} (hf : l.foldl (fun (acc : List LoadLane × Bool × State) y =>
      let v := x.ldsBytes acc.2.2 t.cells (x.ea b y.1).toNat (memBytes b) y.1
      (acc.1 ++ [⟨y.1, [], some v.1⟩], acc.2.1 || v.2.1, v.2.2)) ([], false, s1) = r) (hp : r.2.1 = false) :
    execLds h b s = .next ((r.2.2.issueLoad x b.d (memSize b) (h.fs.getLsbD 0) 0 false r.1 (r.1.map fun _ => 0)).completed x) := by
  have ht' : s.taken.team? x.team = some t := ht
  refine issue_done hr ?_
  simp only [ht', hl, hf, hp, Bool.false_eq_true, if_false]

/-- `sts` whose lanes pass stores word by word what no higher-numbered thread stores. -/
theorem execSts_lanes (hr : Ready (.sts h b) s x) (ht : s.team? x.team = some t)
    (hl : checkLanes s.taken x.threads (fun k s => x.combLane t (x.ea b k) (memBytes b) true s) (fun _ => 0) = (.ok l, s1)) :
    execSts h b s = .next ((s1.each l fun s y => s.each (wordsOf (x.ea b y.1).toNat (memBytes b)) fun s w =>
      match combIndex t.cells (4 * w.1) with
      | some wi => x.combStore s s1.nextId y.1 wi (wordFrom (x.ea b y.1).toNat w.1 (x.groupBytes b.d (memBytes b) y.1))
          (combKept (fun k => (x.ea b k).toNat) (memBytes b) (l.map (·.1)) y.1 w)
      | none => s).completed x) := by
  have ht' : s.taken.team? x.team = some t := ht
  refine issue_done hr ?_
  simp only [ht', hl] <;> rfl

end

/-- Outside replay a thread reads the comb itself. -/
theorem Ctx.ldsBytes_of_unreplayed {x : Ctx} {u : State} (hu : u.replays x.vf = false) (cells : List Nat) (o n k : Nat) :
    x.ldsBytes u cells o n k = u.combRead x.vf (hiveOfCore x.core) cells o n := if_pos (by rw [hu]; rfl)

/-- Outside replay a comb store that keeps a byte writes the comb itself. -/
theorem Ctx.combStore_of_unreplayed {x : Ctx} {u : State} (hu : u.replays x.vf = false) {m : BitVec 4} (hm : m ≠ 0) (op k wi : Nat) (d : Word) :
    x.combStore u op k wi d m = u.combWrite x.vf (hiveOfCore x.core) wi d m ⟨0, x.core, none, x.pc⟩ := by
  unfold Ctx.combStore
  dsimp only
  rw [if_neg hm, if_pos (by rw [hu]; rfl)]

/-- The mask of the byte numbers below 4 that satisfy a condition. -/
theorem getLsbD_byteMask (p : Nat → Bool) {j : Nat} (hj : j < 4) :
    (BitVec.ofNat 4 ((List.range 4).foldl (fun acc j => if p j then acc + 2 ^ j else acc) 0)).getLsbD j = p j := by
  have hr : List.range 4 = [0, 1, 2, 3] := rfl
  rw [hr]
  simp only [List.foldl]
  obtain rfl | rfl | rfl | rfl : j = 0 ∨ j = 1 ∨ j = 2 ∨ j = 3 := by omega
  all_goals
    generalize p 0 = a, p 1 = b, p 2 = c, p 3 = d
    revert a b c d
    decide

theorem combKept_getLsbD (off : Nat → Nat) (n : Nat) (ts : List Nat) (k : Nat) (w : Nat × BitVec 4) {j : Nat} (hj : j < 4) :
    (combKept off n ts k w).getLsbD j =
      (w.2.getLsbD j && !ts.any fun z => decide (k < z) && decide (off z ≤ 4 * w.1 + j) && decide (4 * w.1 + j < off z + n)) :=
  getLsbD_byteMask _ hj

/-! ## Prefetches -/

/-- The parts of device memory outside SYNC pages that a thread's prefetch names. -/
def Ctx.pfLane (x : Ctx) (b : MBody) (t : Nat) (s : State) : List (Phys × Nat) × State :=
  match x.globalLane (x.ea b t) (memBytes b) .read false s with
  | (.error _, s) => ([], s)
  | (.ok ps, s) => (ps.filter fun p => !p.1.host && !p.1.sync, s)

/-- The words that the threads name are prefetched. -/
def Ctx.prefetch (x : Ctx) (h : Hdr) (b : MBody) (s : State) : State :=
  s.each x.threads fun s t =>
    (x.pfLane b t s).2.each (x.pfLane b t s).1 fun s p =>
      s.prefetchWords x.core x.vf (if p.1.copies != [] && p.1.atomicProp then 2 else h.hint.toNat) ((wordsOf p.1.pa p.2).map (·.1))

theorem Ctx.pfLane_snd (x : Ctx) (b : MBody) (t : Nat) (s : State) :
    (x.pfLane b t s).2 = (x.globalLane (x.ea b t) (memBytes b) .read false s).2 := by
  unfold Ctx.pfLane
  split <;> simp_all

theorem Ctx.prefetch_warps (x : Ctx) (h : Hdr) (b : MBody) (s : State) : (x.prefetch h b s).warps = s.warps := by
  refine State.each_warps (fun s t => ?_) s _
  rw [State.each_warps (fun s p => State.prefetchWords_warps s _ _ _ _), Ctx.pfLane_snd, Ctx.globalLane_warps]

theorem Ctx.memOk_prefetch {s : State} (hm : s.memOk = true) (x : Ctx) (h : Hdr) (b : MBody) : (x.prefetch h b s).memOk = true := by
  refine State.memOk_each (fun s t hs => ?_) hm
  refine State.memOk_each (fun s p hs => State.memOk_prefetchWords hs) ?_
  rw [Ctx.pfLane_snd]
  exact Ctx.memOk_globalLane hs

/-- A prefetch does nothing, waits for a flip of a page that it names, or prefetches. -/
theorem execPf_cases {h : Hdr} {b : MBody} {s : State} {x : Ctx} (hr : Ready (.pf h b) s x) :
    execPf h b s = .next (s.taken.completed x) ∨
    (execPf h b s = .next s.taken ∧ (x.threads.any fun t => (x.pfLane b t s.taken).1.any fun p => s.flipWaits p.1.pa s.nextId) = true) ∨
    execPf h b s = .next ((x.prefetch h b s.taken).completed x) := by
  by_cases hk : (!x.f.ok x.lr || x.shortStall s.taken) = true
  · exact .inl (issue_done hr (if_pos hk))
  · by_cases hw : (x.threads.any fun t => (x.pfLane b t s.taken).1.any fun p => s.flipWaits p.1.pa s.nextId) = true
    · refine .inr (.inl ⟨?_, hw⟩)
      exact (issue_ready hr _).trans (congrArg (fun e => Host.Outcome.next (finish x s.taken e)) ((if_neg hk).trans (if_pos hw)))
    · exact .inr (.inr (issue_done hr ((if_neg hk).trans (if_neg hw))))

/-- With no flip in progress nothing waits for one. -/
theorem State.flipWaits_of_none {s : State} (hf : s.flips = []) (pa id : Nat) : s.flipWaits pa id = false := by
  simp [State.flipWaits, hf]

/-! ## `wbr` and `invr` -/

/-- What `wbr` has noted of the words that it waits for. -/
def Ctx.wbrOwed (x : Ctx) : Option (List (Nat × Nat)) := if x.e.wait = .wbr then x.w.owed.find? x.entry else none

/-- `wbr` notes what it waits for, or forgets it. -/
def Ctx.noteOwed (x : Ctx) (l : Option (List (Nat × Nat))) (s : State) : State := s.modWarp x.core x.slot fun w => { w with
  owed := match l with
    | none => w.owed.erase x.entry
    | some l => w.owed.put x.entry l }

section
variable {s : State} {h : Hdr} {b : MBody} {x : Ctx} (hr : Ready (.wbr h b) s x) (ha : x.act ≠ 0)
include hr ha

theorem execWbr_unready (hw : s.taken.wbrReady x.core x.gctx (x.range b).1 (x.range b).2 x.wbrOwed = false) :
    execWbr h b s = .next ((x.noteOwed x.wbrOwed s.taken).waitIn x x.entry .wbr) := by
  unfold Ctx.wbrOwed at hw ⊢
  refine issue_wait hr ((if_neg ha).trans (if_pos ?_))
  simp [hw]

theorem execWbr_over (hw : s.taken.wbrReady x.core x.gctx (x.range b).1 (x.range b).2 x.wbrOwed = true)
    (ho : x.wbrOwed ≠ none ∨ s.taken.owedInRange x.core x.gctx (x.range b).1 (x.range b).2 = []) :
    execWbr h b s = .next ((x.noteOwed none s.taken).completed x) := by
  have hs : (!s.taken.wbrReady x.core x.gctx (x.range b).1 (x.range b).2 x.wbrOwed) = false := by rw [hw]; rfl
  unfold Ctx.wbrOwed at hs ho
  refine issue_done hr ((if_neg ha).trans ?_)
  dsimp only
  generalize (if x.e.wait = .wbr then x.w.owed.find? x.entry else none) = o at hs ho ⊢
  rw [if_neg (by rw [hs]; decide)]
  split
  · rfl
  · next hn =>
    have hl : s.taken.owedInRange x.core x.gctx (x.range b).1 (x.range b).2 = [] :=
      ho.resolve_left fun hne => hn (Option.isSome_iff_ne_none.mpr hne)
    rw [hl]
    rfl

theorem execWbr_words (hw : s.taken.wbrReady x.core x.gctx (x.range b).1 (x.range b).2 x.wbrOwed = true) (hn : x.wbrOwed = none)
    (hne : s.taken.owedInRange x.core x.gctx (x.range b).1 (x.range b).2 ≠ []) :
    execWbr h b s = .next ((x.noteOwed (some (s.taken.owedInRange x.core x.gctx (x.range b).1 (x.range b).2)) s.taken).waitIn x x.entry .wbr) := by
  unfold Ctx.wbrOwed at hw hn
  rw [hn] at hw
  refine issue_wait hr ((if_neg ha).trans ?_)
  simp only [hn, hw, Bool.not_true, Bool.false_eq_true, if_false, Option.isSome_none, List.isEmpty_iff, hne] <;> rfl

end

/-! ## The obligation -/

open Sys2Proof.Claims in
theorem combAccess : CombAccess := by
  intro s s1 h b x l t ht n off C r
  refine ⟨fun hr hl hp => execLds_lanes hr ht hl rfl hp, fun hr hl => execSts_lanes hr ht hl, ?_, ?_, ?_⟩
  · exact fun u o k hu => Ctx.ldsBytes_of_unreplayed hu t.cells o n k
  · exact fun u op k wi d m hu hm => Ctx.combStore_of_unreplayed hu hm op k wi d
  · exact fun ts k j w hj => combKept_getLsbD off n ts k w hj

open Sys2Proof.Claims in
theorem cacheMembers : CacheMembers := by
  intro s h b x r owed l ready note again bare prefetched
  have hnext (u : State) (hm : s.memOk = true → u.memOk = true) (hw : u.warps = s.warps) (hx : execPf h b s = .next (u.completed x)) :
      prefetched := ⟨u, hx, hm, by rw [hw]⟩
  have hpf (hr : Ready (.pf h b) s x) : prefetched ∨ (execPf h b s = .next s.taken ∧
      (x.threads.any fun t => (x.pfLane b t s.taken).1.any fun p => s.flipWaits p.1.pa s.nextId) = true) := by
    obtain hx | hx | hx := execPf_cases hr
    · exact .inl (hnext s.taken (fun hm => hm) rfl hx)
    · exact .inr hx
    · exact .inl (hnext _ (fun hm => Ctx.memOk_prefetch (s := s.taken) hm x h b) (Ctx.prefetch_warps x h b s.taken) hx)
  refine ⟨fun hr hf => ?_, fun hr => (hpf hr).imp_right And.left, fun hr ha => ⟨fun hw ho => execWbr_over hr ha hw ho,
    fun hw hn hne => execWbr_words hr ha hw hn hne, fun hw => ?_⟩, fun hr ha => issue_done hr (if_neg ha),
    fun hr ha => issue_done hr (if_pos ha), fun hr ha => issue_done hr (if_pos ha)⟩
  · refine (hpf hr).resolve_right fun hx => ?_
    simp [State.flipWaits_of_none hf] at hx
  · have hx := execWbr_unready hr ha hw
    cases ho : x.wbrOwed with
    | none =>
      have h1 : owed = none := ho
      rw [ho] at hx
      simp only [again, h1]
      exact hx
    | some o =>
      have h1 : owed = some o := ho
      rw [ho] at hx
      simp only [again, h1]
      exact hx

/-- Settles O17: the comb's accesses, then prefetches, which leave every warp as it is, and the two cache operations. -/
theorem combAndCaches : Obligations.CombAndCaches := ⟨combAccess, cacheMembers⟩

end Sys2Proof.Machine
end

section
/-! SUPPORT. How stores and loads in flight end (04 R87, R91, R124; 13 R271). -/

namespace Sys2Proof.Machine

@[simp] theorem State.homedL1_stores (s : State) (core wa : Nat) (m : BitVec 4) (lost : Bool) : (s.homedL1 core wa m lost).stores = s.stores := rfl

/-- A store that has taken effect stays, its clock noted, until it is acknowledged. -/
theorem State.storeDone_find? (s : State) (id : Nat) (y : Store) :
    (s.storeDone id y).stores.find? id = some { y with st := .homed s.vclock, copies := [] } := by
  have h : (s.storeDone id y).stores = s.stores.put id { y with st := .homed s.vclock, copies := [] } :=
    State.each_keeps State.stores (fun s w => State.homedL1_stores s _ _ _ _) _ _
  rw [h, Tab.find?_put_self]

section
variable {s s1 : State} {id : Nat} {y : Store} (hy : s.stores.find? id = some y)
include hy

theorem execStoreSend_passed (hp : y.st = .pending) (hn : y.replay = false)
    (ht : s.through y.vf id (s.traffic y.vf y.core true
      (((s.merged id y).flatMap fun z => z.2.places.flatMap fun a => bytesAt a z.2.bytes.length).dedup)) = .ok s1) :
    execStoreSend id s = .next { s1 with
      stores := s1.stores.map fun z => if ((s.merged id y).find? z.1).isSome then (z.1, { z.2 with st := .sent }) else z } := by
  simp [execStoreSend, hy, hp, hn, ht]

theorem execHomeStore_waits (hs : y.st = .sent) (hw : s.storeWaits id y = true) (copy : Nat) : execHomeStore id copy s = .next s := by
  simp [execHomeStore, hy, hs, hw]

theorem execHomeStore_host (hs : y.st = .sent) (ha : hostTag ≤ y.pa) (hw : s.storeWaits id y = false) (copy : Nat) :
    execHomeStore id copy s = .next ((s.hostStore y).storeDone id y) := by
  simp [execHomeStore, hy, hs, hw, ha]

theorem execHomeStore_device (hs : y.st = .sent) (ha : y.pa < hostTag) (hc : y.copies = []) (hw : s.storeWaits id y = false)
    (hx : s.applyStore y y.pa = some s1) (copy : Nat) : execHomeStore id copy s = .next (s1.storeDone id y) := by
  have ha' : ¬hostTag ≤ y.pa := by omega
  simp [execHomeStore, hy, hs, hw, ha', hc, hx]

theorem execStoreAck_device {stamp : DWord} (hs : y.st = .homed stamp) (ha : y.pa < hostTag) (hk : y.slot < 32) :
    execStoreAck id s = .next ((({ s with stores := s.stores.erase id } : State).ackL1 y stamp).ackWarp y.core y.slot stamp) := by
  have ha' : ¬hostTag ≤ y.pa := by omega
  unfold execStoreAck
  simp only [hy, hs, if_neg ha', if_pos hk]

end

section
variable {s s1 : State} {id : Nat} {l : Load} (hl : s.loads.find? id = some l) (hg : l.gred = none)
include hl hg

theorem execLoadReply_served {out : List (Nat × List Byte)} (h : s.serveLoad id l = .data s1 out) (ev : List Nat) :
    execLoadReply id ev s = .next ((({ s1 with loads := s1.loads.erase id } : State).writeBack l.core l.slot
      (out.flatMap fun y => groupWrites l.dst l.size l.sgn y.1 y.2)).modCore l.core fun c => c.replace ev) := by
  unfold execLoadReply
  simp only [hl, hg, h, Option.isSome_none, Bool.false_eq_true, if_false]

theorem execLoadReply_waits (h : s.serveLoad id l = .wait s1) (ev : List Nat) : execLoadReply id ev s = .next s1 := by
  unfold execLoadReply
  simp only [hl, hg, h, Option.isSome_none, Bool.false_eq_true, if_false]

end

open Sys2Proof.Claims in
theorem storeJourney : StoreJourney := by
  intro s s1 id copy y hy l as
  refine ⟨fun hp hn ht => execStoreSend_passed hy hp hn ht, fun hs ha hc hw hx => ⟨execHomeStore_device hy hs ha hc hw hx copy,
    s1.storeDone_find? id y⟩, fun hs ha hw => execHomeStore_host hy hs ha hw copy, fun hs hw => execHomeStore_waits hy hs hw copy,
    fun stamp hs ha hk => execStoreAck_device hy hs ha hk⟩

open Sys2Proof.Claims in
theorem loadReplies : LoadReplies := by
  intro s s1 id l out ev hl hg
  exact ⟨fun h => execLoadReply_served hl hg h ev, fun h => execLoadReply_waits hl hg h ev⟩

/-- Settles O18: each event of a store by its stage, and the answers that a load waits for. -/
theorem accessesComplete : Obligations.AccessesComplete := ⟨storeJourney, loadReplies⟩

end Sys2Proof.Machine
end

section
/-! SUPPORT. Rows, bursts, write-backs, migrations and walks (04 R77, R78, R84, R91, R94, R100; 05 R115). -/

namespace Sys2Proof.Machine

/-! ## Activates and precharges -/

section
variable {s : State} {stack ch sl bank : Nat}

section
variable {r : WordReq} {rest : List WordReq} (hq : s.bankReqs stack ch sl bank = r :: rest)
  (hc : s.openRows.find? (sliceBank stack ch sl bank) = none) (ho : (s.hearth stack).compute = false)
  (ht : (s.prechargeAt.find? (sliceBank stack ch sl bank)).getD 0 + 34 ≤ s.dclk)
include hq hc ho ht

/-- The activate of a closed slice-bank in an ordinary interval, tRP after its precharge, is decided by the row check. -/
theorem State.activateBank_closed : s.activateBank stack ch sl bank =
    if s.rowOk r.vf (4 * r.word) r.write r.near then
      { s with openRows := s.openRows.put (sliceBank stack ch sl bank) ⟨rowFieldOf (4 * r.word), s.dclk, false⟩ }
    else
      let t : State := { s with wordQ := s.wordQ.modify (stack * 32 + ch) fun q => q.erase r }
      if !r.write && s.reportsRead r.word then t else t.logPhys r.vf causeRowDenied (4 * r.word) none 4 stack 0 := by
  have ht' : ¬s.dclk < (s.prechargeAt.find? (sliceBank stack ch sl bank)).getD 0 + 34 := by omega
  unfold State.activateBank
  simp only [hq, hc, ho, ht', Option.isSome_none, Bool.or_self, decide_false, Bool.false_eq_true, if_false]

theorem State.activateBank_opens (hp : s.rowOk r.vf (4 * r.word) r.write r.near = true) : s.activateBank stack ch sl bank =
    { s with openRows := s.openRows.put (sliceBank stack ch sl bank) ⟨rowFieldOf (4 * r.word), s.dclk, false⟩ } := by
  rw [State.activateBank_closed hq hc ho ht, if_pos hp]

theorem State.activateBank_denied (hp : s.rowOk r.vf (4 * r.word) r.write r.near = false) : s.activateBank stack ch sl bank =
    if r.write = false ∧ s.reportsRead r.word = true then { s with wordQ := s.wordQ.modify (stack * 32 + ch) fun q => q.erase r }
    else ({ s with wordQ := s.wordQ.modify (stack * 32 + ch) fun q => q.erase r } : State).logPhys r.vf causeRowDenied (4 * r.word) none 4 stack 0 := by
  rw [State.activateBank_closed hq hc ho ht, if_neg (by rw [hp]; decide)]
  simp only [Bool.and_eq_true, Bool.not_eq_true']

end

section
variable {o : OpenRow} (ho : s.openRows.find? (sliceBank stack ch sl bank) = some o)
include ho

/-- An open row stays while a stove holds it, while its slice-bank's oldest request needs it, and for tRAS; then it closes. -/
theorem State.prechargeBank_open : s.prechargeBank stack ch sl bank =
    if o.stove = true ∨ (s.bankReqs stack ch sl bank).head?.map (fun r => rowFieldOf (4 * r.word)) = some o.row ∨ s.dclk < o.at_ + 80 then s
    else { s with openRows := s.openRows.erase (sliceBank stack ch sl bank), prechargeAt := s.prechargeAt.put (sliceBank stack ch sl bank) s.dclk } := by
  unfold State.prechargeBank
  simp only [ho]
  cases s.bankReqs stack ch sl bank <;> simp [or_assoc]

end

end

/-! ## Bursts -/

/-- A burst that is free to go takes the ready requests that their buckets let pass, and serves them in order. -/
theorem execBurst_goes {s : State} {stack ch : Nat} (hp : s.burstPick (stack * 32 + ch) (s.queueOf stack ch) ≠ []) (hc : (s.hearth stack).compute = false)
    (ht : (s.burstAt.find? (stack * 32 + ch)).getD 0 + 2 ≤ s.dclk) (hf : s.stoveFirst (stack * 32 + ch) = false)
    {k : Nat} (hk : stack * 32 + ch = k) {q : List WordReq} (hq : s.queueOf stack ch = q) {r : State × List WordReq}
    (hr : (s.burstPick k q).foldl (fun (acc : State × List WordReq) r => match acc.1.through r.vf r.id [(2, stack, 4)] with
      | .error s => (s, acc.2)
      | .ok s => (s, acc.2 ++ [r])) (s.holdReady q, []) = r) :
    execBurst stack ch 0 s = .next ((((r.2.map (·.vf)).dedup).foldl (fun (s : State) vf => s.countPerf vf 10) { r.1 with
      wordQ := r.1.wordQ.modify k fun q => q.filter fun y => !r.2.any fun p => p.id == y.id
      burstAt := (s.holdReady q).burstAt.put k (s.holdReady q).dclk
      burstRun := (s.holdReady q).burstRunAfter k (r.2.any (·.write)) }).each r.2 fun s r => s.serveReq false r) := by
  have ht' : ¬s.dclk < (s.burstAt.find? (stack * 32 + ch)).getD 0 + 2 := by omega
  subst hk hq hr
  unfold execBurst
  simp only [hc, hf, ht', hp, List.isEmpty_iff, decide_false, Bool.or_self, Bool.false_eq_true, if_false] <;> rfl

theorem execBurst_stoveFirst {s : State} {stack ch : Nat} (hf : s.stoveFirst (stack * 32 + ch) = true) (n : Nat) :
    execBurst stack ch n s = .next s := by
  unfold execBurst
  simp only [hf, Bool.or_true, if_true]

/-! ## Write-backs, engines and walks -/

/-- A frame without a dirty word leaves its slice. -/
theorem execL2Writeback_clean {s : State} {frame : Nat} (h : (s.l2.filter fun x => x.1 / 64 == frame && x.2.dirty != 0).map (·.1) = []) :
    execL2Writeback frame s = .next { s with l2 := s.l2.filter fun x => x.1 / 64 != frame, l2marks := s.l2marks.erase frame } := by
  unfold execL2Writeback
  simp only [h, List.isEmpty_nil, if_true, State.l2Evict, State.each_nil]

theorem execL2Writeback_dirty {s : State} {frame : Nat} (h : (s.l2.filter fun x => x.1 / 64 == frame && x.2.dirty != 0).map (·.1) ≠ []) :
    execL2Writeback frame s = .next (s.each ((s.l2.filter fun x => x.1 / 64 == frame && x.2.dirty != 0).map (·.1)) fun s w =>
      { s.pushWrite w (s.homeWord w).1 (s.homeWord w).2 with
        l2 := (s.pushWrite w (s.homeWord w).1 (s.homeWord w).2).l2.modify w fun x =>
          { x with data := (s.homeWord w).1, valid := allBytes, dirty := 0, poison := (s.homeWord w).2, err := 0 } }) := by
  have h' : ((s.l2.filter fun x => x.1 / 64 == frame && x.2.dirty != 0).map (·.1)).isEmpty = false := List.isEmpty_eq_false_iff.mpr h
  unfold execL2Writeback
  simp only [h', Bool.false_eq_true, if_false]

section
variable {s : State} {word : Nat} {z : SyncWord} (hz : s.sync.find? word = some z)
include hz

/-- A migrated word returns to its slice. -/
theorem State.syncOut_migrated (hp : z.page = false) : s.syncOut word =
    ({ s with sync := s.sync.erase word } : State).l2Put word ⟨z.data, allBytes, allBytes, z.poison || decide (2 ≤ z.err), 0⟩ := by
  unfold State.syncOut
  simp only [hz, hp, Bool.false_eq_true, if_false]

/-- A word of a SYNC page leaves for its own place in DRAM, in the overflow area. -/
theorem State.syncOut_page (hp : z.page = true) : s.syncOut word =
    { ({ s with sync := s.sync.erase word } : State).pushWrite word z.data (z.poison || decide (2 ≤ z.err)) with
      overflow := word :: s.overflow.filter (· ≠ word) } := by
  unfold State.syncOut
  simp only [hz, hp, if_true]

end

theorem execSyncEvict_waits {s : State} {word : Nat} (h : s.atomicWaits word = true) : execSyncEvict word s = .next s := by
  unfold execSyncEvict
  rw [if_pos h]

theorem execSyncEvict_out {s : State} {word : Nat} (h : s.atomicWaits word = false) : execSyncEvict word s = .next (s.syncOut word) := by
  unfold execSyncEvict
  rw [if_neg (by rw [h]; decide)]

theorem execTlbWalk_found {s : State} {core ctx : Nat} {va : DWord} {t : Trans} (hv : vaOk va = true) (hw : s.walk (dieOfCore core) ctx va = .ok t) :
    execTlbWalk core ctx va s = .next ((s.walked (dieOfCore core) ctx va).fillTlb core t) := by
  unfold execTlbWalk
  simp only [hv, hw, Bool.not_true, Bool.false_eq_true, if_false]

/-! ## The obligation -/

open Sys2Proof.Claims in
theorem dramRows : DramRows := by
  intro s stack ch sl bank r rest o ix wanted
  refine ⟨fun hq hc ho ht => ⟨fun hp => congrArg Host.Outcome.next (State.activateBank_opens hq hc ho ht hp),
    fun hp => congrArg Host.Outcome.next (State.activateBank_denied hq hc ho ht hp)⟩,
    fun ho hst hat hw => congrArg Host.Outcome.next ?_, fun ho hc => congrArg Host.Outcome.next ?_⟩
  · refine (State.prechargeBank_open ho).trans (if_neg ?_)
    rintro (h | h | h)
    · exact absurd (hst.symm.trans h) (by decide)
    · exact hw h
    · omega
  · refine (State.prechargeBank_open ho).trans (if_pos ?_)
    obtain h | h | h := hc
    · exact .inr (.inr h)
    · exact .inr (.inl h)
    · exact .inl h

open Sys2Proof.Claims in
theorem memoryEngines : MemoryEngines := by
  intro s stack ch frame word core ctx va z t k q pick s0 r s1 dirty queued
  refine ⟨fun hp hc ht hf => execBurst_goes hp hc ht hf rfl rfl rfl, fun hf => execBurst_stoveFirst hf 0, fun hd => execL2Writeback_clean hd,
    fun hd => execL2Writeback_dirty hd, fun hz hw => ⟨fun hp => ?_, fun hp => ?_⟩, fun hw => execSyncEvict_waits hw,
    fun hv hw => execTlbWalk_found hv hw⟩
  · exact (execSyncEvict_out hw).trans (congrArg Host.Outcome.next (State.syncOut_migrated hz hp))
  · exact (execSyncEvict_out hw).trans (congrArg Host.Outcome.next (State.syncOut_page hz hp))

/-- Settles O21: rows by what an activate and a precharge come to, then each engine's event. -/
theorem memoryHomes : Obligations.MemoryHomes := ⟨dramRows, memoryEngines⟩

end Sys2Proof.Machine
end

section
/-! SUPPORT. Function 0's commands on the log, rates, frames, elided pages and fuses (17 R366; 19 R390, R391, R399, R407). -/

namespace Sys2Proof.Machine
open Sys2Proof.Claims

section
variable {s : State} {op : Nat} {sel : (Nat → DWord) → Bool} {f : (Nat → DWord) → Mailbox → State → Answer}

/-- A command of function 0 that is taken and that its operation accepts answers OK. -/
theorem hvCommand_ok (ht : takes s 0 op) (hl : listedOp op = true) (hs : sel (argOf s 0) = true) {t : State} {r : List (Nat × DWord)}
    (hf : f (argOf s 0) (s.mailbox 0) s = .ok t r) : hvCommand op 0 s sel f = .next (t.finishCommand 0 .ok r) := by
  obtain ⟨hn, ho, hp, hb⟩ := ht
  refine (command_taken hn ho hl hp hb hs).trans ?_
  rw [if_neg (by decide), show f (fun i => (s.mailbox 0).args.getD i 0) (s.mailbox 0) s = .ok t r from hf]

/-- By another function it answers DENIED. -/
theorem hvCommand_denied {fn : Nat} (ht : takes s fn op) (hl : listedOp op = true) (hs : sel (argOf s fn) = true) (hfn : fn ≠ 0) :
    hvCommand op fn s sel f = .next (s.finishCommand fn .denied []) := by
  obtain ⟨hn, ho, hp, hb⟩ := ht
  refine (command_taken hn ho hl hp hb hs).trans ?_
  rw [if_pos hfn]

end

@[simp] theorem State.finishCommand_elision (s : State) (fn : Nat) (st : Status) (r : List (Nat × DWord)) :
    (s.finishCommand fn st r).elision = s.elision := rfl
@[simp] theorem State.finishCommand_mem (s : State) (fn : Nat) (st : Status) (r : List (Nat × DWord)) : (s.finishCommand fn st r).mem = s.mem := rfl

section
variable {s : State}

theorem execLogset_ok (ht : takes s 0 4) (h1 : 6 ≤ (argOf s 0 1).toNat) (h2 : (argOf s 0 1).toNat ≤ 16)
    (h3 : (argOf s 0 0).toNat + 32 * 2 ^ (argOf s 0 1).toNat ≤ 2 ^ 39) :
    execLogset 0 s = .next (({ s with hvLog := some ⟨(argOf s 0 0).toNat, (argOf s 0 1).toNat, 0, 0, false⟩ } : State).finishCommand 0 .ok []) := by
  refine hvCommand_ok ht rfl rfl (if_neg ?_)
  simp only [Bool.or_eq_true, decide_eq_true_eq, not_or, Nat.not_lt]
  exact ⟨⟨h1, h2⟩, h3⟩

theorem execSetrate_ok {p : Partition} {q : Nat} (ht : takes s 0 5) (hp : s.part? (argOf s 0 0).toNat = some p) (h1 : (argOf s 0 1).toNat ≤ 2)
    (h2 : (argOf s 0 2).toNat < [96, 12, 8].getD (argOf s 0 1).toNat 0) (h3 : (argOf s 0 3).toNat ≤ 65535) (h4 : 1 ≤ (argOf s 0 4).toNat)
    (h5 : (argOf s 0 4).toNat ≤ 2 ^ 24) (hq : p.bucketsAt (argOf s 0 0).toNat (argOf s 0 1).toNat (argOf s 0 2).toNat = [q]) :
    execSetrate 0 s = .next (({ s with buckets := s.buckets.put q { (s.buckets.find? q).getD Bucket.initial with
      next := some ((argOf s 0 3).toNat, (argOf s 0 4).toNat) } } : State).finishCommand 0 .ok []) := by
  refine hvCommand_ok ht rfl rfl ?_
  simp only [hp]
  rw [if_neg, hq]
  · rfl
  · simp only [Bool.or_eq_true, decide_eq_true_eq, not_or, Nat.not_lt, ge_iff_le, Nat.not_le]
    exact ⟨⟨⟨⟨h1, h2⟩, h3⟩, by omega⟩, h5⟩

theorem execSetframe_ok (ht : takes s 0 6) (h0 : (argOf s 0 0).toNat < 8) {v : Nat} (hv : (argOf s 0 1).toNat = v) (h1 : bitsOf v 63 49 = 0)
    (h2 : bitsOf v 31 17 = 0) (h3 : 256 ≤ bitsOf v 16 0) (h4 : bitsOf v 16 0 ≤ 65536) (h5 : bitsOf v 16 0 % 32 = 0) (h6 : bitsOf v 48 32 % 32 = 0)
    (h7 : bitsOf v 48 32 + 128 ≤ bitsOf v 16 0) : execSetframe 0 s = .next ((s.modHearth (argOf s 0 0).toNat fun h =>
      { h with next := h.next ++ [(s.dclk, bitsOf v 16 0, bitsOf v 48 32)] }).finishCommand 0 .ok []) := by
  subst hv
  refine hvCommand_ok ht rfl rfl (if_neg ?_)
  simp only [Bool.or_eq_true, decide_eq_true_eq, not_or, Nat.not_lt, Nat.not_le, ne_eq, not_not]
  exact ⟨⟨⟨⟨⟨⟨⟨h0, h1⟩, h2⟩, h3⟩, h4⟩, h5⟩, h6⟩, h7⟩

/-- A page that is elided while no other is: its words leave the caches, and both rows have the constant. -/
theorem execElide_ok (ht : takes s 0 7) (h0 : (argOf s 0 0).toNat % 4096 = 0) (h1 : (argOf s 0 0).toNat < 2 ^ 39)
    (h2 : reservedPa (argOf s 0 0).toNat = false) (h3 : (argOf s 0 1).toNat < 2 ^ 32) (he : s.elision = []) {t : State}
    (hd : s.drainPage ((argOf s 0 0).toNat / 4096) = t) : execElide 0 s = .next (({ t with
      elision := (t.elision.put ((argOf s 0 0).toNat / 2048) ((argOf s 0 1).setWidth 32)).put ((argOf s 0 0).toNat / 2048 + 1) ((argOf s 0 1).setWidth 32)
      rel := t.rel.filter fun x => x.1 / 4096 != (argOf s 0 0).toNat / 4096
      homeClk := t.homeClk + 1
      rowTime := (t.rowTime.put ((argOf s 0 0).toNat / 2048) (t.homeClk + 1)).put ((argOf s 0 0).toNat / 2048 + 1) (t.homeClk + 1) } :
        State).finishCommand 0 .ok []) := by
  subst hd
  refine hvCommand_ok ht rfl rfl ?_
  rw [if_neg, if_neg]
  · rfl
  · simp [he]
  · have h3' : narrow 32 (argOf s 0 1) = true := decide_eq_true h3
    simp only [Bool.or_eq_true, decide_eq_true_eq, not_or, Nat.not_le, ne_eq, not_not, h2, h3']
    exact ⟨⟨⟨h0, h1⟩, by decide⟩, by decide⟩

theorem execFuseRaiseSvn_ok (ht : takes s 0 8) (h : (argOf s 0 0).toNat = 0) :
    execFuseRaiseSvn 0 s = .next (({ s with fuses := { s.fuses with svn := min 64 (s.fuses.svn + 1) } } : State).finishCommand 0 .ok []) := by
  have h0 : argOf s 0 0 = 0 := BitVec.eq_of_toNat_eq h
  exact hvCommand_ok ht rfl (by rw [h0]; rfl) (if_neg (by rw [h0]; decide))

theorem execFuseSetTestmode_ok (ht : takes s 0 8) (h : (argOf s 0 0).toNat = 1) :
    execFuseSetTestmode 0 s = .next (({ s.wipe with fuses := { s.fuses with testmode := true } } : State).finishCommand 0 .ok []) :=
  hvCommand_ok ht rfl (by rw [h]; rfl) rfl

theorem execFuseRetireResource_ok (ht : takes s 0 8) (h : (argOf s 0 0).toNat = 2) {kind ix : Nat} (hk : (argOf s 0 1).toNat = kind)
    (hi : (argOf s 0 2).toNat = ix) (hn : ix < soricaCount kind) (hs : s.soricaSt kind ix = 0) {t : State}
    (htt : ({ s with fuses := { s.fuses with retired := (kind, ix) :: s.fuses.retired } } : State).soricaWrite kind ix 2 0xFF (s.soricaDetail kind ix) = t) :
    execFuseRetireResource 0 s = .next ((if kind = 2 then t.soricaTouch s 1 (ix / 192) else t).finishCommand 0 .ok []) := by
  subst hk hi htt
  refine hvCommand_ok ht rfl (by rw [h]; rfl) ((if_neg (Nat.not_le.mpr hn)).trans ?_)
  simp only [hs]

end

/-- Settles O41: each command by what its operation accepts; another function is refused before the arguments are looked at. -/
theorem hypervisorCommands : Obligations.HypervisorCommands := by
  intro s p a ok
  refine ⟨fun ht h1 h2 h3 => execLogset_ok ht h1 h2 h3, fun q ht hp h1 h2 h3 h4 h5 hq => execSetrate_ok ht hp h1 h2 h3 h4 h5 hq, ?_,
    fun ht h0 h1 h2 h3 he => ?_, fun ht h => execFuseRaiseSvn_ok ht h, fun ht h => ⟨_, execFuseSetTestmode_ok ht h, rfl, rfl, rfl, rfl⟩,
    fun ht h hn hs => execFuseRetireResource_ok ht h rfl rfl hn hs rfl, fun fn hfn =>
      ⟨fun ht => (exec_logset fn s).trans (hvCommand_denied ht rfl rfl hfn), fun ht => (exec_setrate fn s).trans (hvCommand_denied ht rfl rfl hfn),
      fun ht => (exec_setframe fn s).trans (hvCommand_denied ht rfl rfl hfn), fun ht => (exec_elide fn s).trans (hvCommand_denied ht rfl rfl hfn)⟩⟩
  · intro fl cl ht h0 h1 h2 h3 h4 h5 h6 h7
    exact execSetframe_ok ht h0 rfl h1 h2 h3 h4 h5 h6 h7
  · obtain ⟨t, hd⟩ : ∃ t, s.drainPage (a 0 / 4096) = t := ⟨_, rfl⟩
    refine ⟨_, execElide_ok ht h0 h1 h2 h3 he hd, ?_, ?_, fun hl hs hq => ?_⟩
    · rw [State.finishCommand_elision, Tab.find?_put_ne _ _ (Nat.ne_of_lt (Nat.lt_succ_self _)), Tab.find?_put_self]
    · rw [State.finishCommand_elision, Tab.find?_put_self]
    · rw [State.finishCommand_mem, ← State.drainWords_mem_of_empty hl hs hq fun w => w / 1024 == a 0 / 4096, ← hd]
      rfl

end Sys2Proof.Machine
end

section
/-! SUPPORT. The frame of accesses fails as stated: it takes any table of teams. Where a store ends the screen of a shadow (18 R372) and the table
lists the shadow's number twice, the second team stands under it afterwards, and its grid may be traced: the trace record is a write to memory. -/

namespace Sys2Proof.Machine
open Sys2Proof.Claims

/-! ## A shadow whose store ends its screen -/

/-- `st` of four bytes of v3 at s2 (R272). -/
def shadowStoreHdr : Hdr := ⟨7, 7, false, 0, false, false, 0, false, 0⟩
def shadowStoreBody : MBody := ⟨3, 0xC2, 0xFF, 0, 0, 0x40⟩
def shadowStore : Instr := .st shadowStoreHdr shadowStoreBody
def shadowStoreWord : BitVec 96 := (encodeStream shadowStore).getD 0

/-- A shadow that has stored one byte more than 16 KiB. -/
def fullScreen : Screen := ⟨none, true, none, false, List.replicate 16385 (2 ^ 40, 0), 0⟩

/-- The store's team, number 0, is a shadow of an untraced grid and lists no slot; a second team 0 behind it is of a traced grid, whose unit writes
from 0x2000 on. At its next PC the warp's newest deferral record is over, which is a trace event (Table 20.2). -/
def endingScreen : State :=
  let s := (State.reset.placeStream shadowStoreWord).modCore 0 fun c => { c with tlb := [⟨64, 0, 4096, 3⟩] }
  let s := s.modWarp 0 0 fun w => { w with deferrals := [⟨0, 1, 0, 0, 0x1001, []⟩] }
  { s with
    teams := s.teams.flatMap fun t => [(t.1, { t.2 with slots := [], screen := some fullScreen }), (t.1, { t.2 with grid := 100 })]
    grids := s.grids ++ s.grids.map fun g => (100, { g.2 with lr := { g.2.lr with flags := 1 } })
    parts := [(1, { (default : Partition) with traceMask := 1 })]
    traceUnits := [(0, { TraceUnit.reset with holder := some 1, base := 0x2000, n := 4 })]
    fuses := ⟨0, true, []⟩
    cur := .frag 0 0 0 0x1000 shadowStoreWord .alone 0 }

/-- The checked lanes of the store. -/
def shadowLanes (x : Ctx) : Except FaultInfo (List (Nat × Parts)) × State :=
  checkLanes endingScreen.taken x.threads (fun t s => x.globalLane (x.ea shadowStoreBody t) (memBytes shadowStoreBody) .write false s) (x.ea shadowStoreBody)

/-- The lanes pass, and byte 0x2000 is 0 in the state in which they are issued. -/
def shadowLanesPass (x : Ctx) : Bool :=
  match shadowLanes x with
  | (.ok l, s1) => homeByte (s1.bringLanes x.vf l) 0x2000 == 0
  | _ => false

theorem endingScreen_checks : ((endingScreen.issuer shadowStore).map fun x => x.checkIssue shadowStore endingScreen.taken == none && x.upset == 0 &&
    x.lr.flags % 2 == 0 && x.w.inTx x.act == 0 && shadowLanesPass x) = some true := by
  decide +kernel

theorem exists_ready_shadowStore : ∃ x l s1, Ready shadowStore endingScreen x ∧ x.lr.flags % 2 = 0 ∧ x.w.inTx x.act = 0 ∧
    shadowLanes x = (.ok l, s1) ∧ homeByte (s1.bringLanes x.vf l) 0x2000 = 0 := by
  obtain ⟨x, hx, hp⟩ := Option.map_eq_some_iff.mp endingScreen_checks
  simp only [Bool.and_eq_true, beq_iff_eq] at hp
  obtain ⟨⟨⟨⟨hc, hu⟩, hf⟩, ht⟩, hl⟩ := hp
  have hr : Ready shadowStore endingScreen x := ⟨hx, hc, hu, .inl (by decide), .inr ht⟩
  unfold shadowLanesPass at hl
  split at hl
  · next l s1 hs => exact ⟨x, l, s1, hr, hf, ht, hs, beq_iff_eq.mp hl⟩
  · cases hl

/-- The store issues, and its warp's trace record, the record's mask first, is at 0x2000; before, the byte was 0. -/
theorem shadowStore_traces : (match exec shadowStore endingScreen with
    | .next t => some (homeByte t 0x2000)
    | _ => none) = some 1 := by
  decide +kernel

theorem endingScreen_byte : homeByte endingScreen 0x2000 = 0 := by decide +kernel

/-- Refutes O50: `endingScreen`, whose table lists team 0 twice, goes by its store to a state in which byte 0x2000 is 1; it was 0 before, and with the
lanes' words brought in. -/
theorem not_accessFrame : ¬ Obligations.AccessFrame := by
  unfold Obligations.AccessFrame
  rintro ⟨h, -⟩
  obtain ⟨x, l, s1, hr, hf, ht, hl, hz⟩ := exists_ready_shadowStore
  have hafter := shadowStore_traces
  cases hexec : exec shadowStore endingScreen with
  | next t =>
    rw [hexec] at hafter
    have h1 : homeByte t 0x2000 = 1 := Option.some.inj hafter
    have hkeeps := (h endingScreen s1 t shadowStoreHdr shadowStoreBody x l hf ht (shadowStore, shadowLanes x)
      (List.mem_of_getElem? (i := 4) rfl) hl hr hexec).1
    obtain ⟨hb, -⟩ | ⟨hb, -⟩ := hkeeps
    · exact absurd (h1.symm.trans ((hb 0x2000).trans endingScreen_byte)) (by decide)
    · exact absurd (h1.symm.trans ((hb 0x2000).trans hz)) (by decide)
  | fault f =>
    rw [hexec] at hafter
    cases hafter
  | refused r =>
    rw [hexec] at hafter
    cases hafter

end Sys2Proof.Machine
end

section
/-! SUPPORT. The frame of a store at its home fails as stated: it takes any elision table. A store to an elided row has the row's constant written
out and its entry cleared (04 R97); where the table lists the row twice, the second entry then gives the row another constant. -/

namespace Sys2Proof.Machine
open Sys2Proof.Claims

/-- A store of one byte at address 3, on its way to its home. -/
def elidedStore : Store := { (default : Store) with vf := 1, pa := 3, bytes := [9], st := .sent, va := 3, op := 1 }

/-- Row 0 takes it; the elision table lists the row with the constants 0 and 1. -/
def twiceElided : State :=
  { State.reset with perms := [(0, ⟨1, true, true, true⟩)], elision := [(0, 0), (0, 1)], stores := [(1, elidedStore)] }

/-- The store meets the statement's conditions on its frame and its words. -/
theorem twiceElided_frame :
    ((twiceElided.l2Frames (elidedStore.pa / 256)).filter (· ≠ elidedStore.pa / 256)).length <
      twiceElided.waysOf (twiceElided.frameOwner (elidedStore.pa / 256)) (homeDie (256 * (elidedStore.pa / 256))) ∧
    (∀ w ∈ wordsOf elidedStore.pa elidedStore.bytes.length, twiceElided.rowOk elidedStore.vf (4 * w.1) true false = true ∧
      (twiceElided.homeWord w.1).2 = false ∧ twiceElided.overflow.contains w.1 = false) := by
  decide +kernel

/-- Byte 256, of another frame of the row, is 0 before the store and 1 after it. -/
theorem twiceElided_before : homeByte twiceElided 256 = 0 := by decide +kernel

theorem twiceElided_after : (match exec (.homeStore 1 0) twiceElided with
    | .next t => some (homeByte t 256)
    | _ => none) = some 1 := by
  decide +kernel

/-- Refutes O51: in `twiceElided` the store of byte 3 changes byte 256. -/
theorem not_storeFrame : ¬ Obligations.StoreFrame := by
  unfold Obligations.StoreFrame
  intro h
  have hafter := twiceElided_after
  cases hexec : exec (.homeStore 1 0) twiceElided with
  | next t =>
    rw [hexec] at hafter
    have hkeeps := (h twiceElided t).1 1 0 elidedStore rfl rfl (by decide) (by decide) twiceElided_frame.1 twiceElided_frame.2 hexec 256 (.inr (by decide))
    exact absurd ((Option.some.inj hafter).symm.trans (hkeeps.trans twiceElided_before)) (by decide)
  | fault f =>
    rw [hexec] at hafter
    cases hafter
  | refused r =>
    rw [hexec] at hafter
    cases hafter

end Sys2Proof.Machine
end

section
/-! SUPPORT. The copy class at issue (05 R103; 14 R309 to R311, R315 to R317): what a copy channel and a collective engine take from a fragment. -/

namespace Sys2Proof.Machine
open Sys2Proof.Claims

/-! ## Queues that take a producer's work (R103) -/

/-- A producer with room in its queues, in its turn at each of them, stalls at none and puts its work there. -/
theorem Ctx.enqueue_takes {x : Ctx} {s : State} {queues : List Nat} {room : Bool} (k : State → Eff) (hroom : room = true)
    (hturn : ∀ q ∈ queues, s.firstAt (x.producer q) = true) :
    x.enqueue s queues room k = k (s.each queues fun s q => s.unstall (x.producer q)) :=
  if_pos (by rw [hroom, List.all_eq_true.mpr hturn]; rfl)

/-- At one queue. -/
theorem Ctx.enqueue_takes_one {x : Ctx} {s : State} {q : Nat} {room : Bool} (k : State → Eff) (hroom : room = true)
    (hturn : s.firstAt (x.producer q) = true) : x.enqueue s [q] room k = k (s.unstall (x.producer q)) :=
  x.enqueue_takes k hroom (List.forall_mem_singleton.mpr hturn)

/-! ## Copies at a channel (R309 to R311) -/

section
variable {s : State} {x : Ctx} {b : VBody} {kind : CopyKind} {loopN stages pitch first nteams : Nat} {step : List Int}

/-- The operation that a fragment issues to a copy channel. -/
def Ctx.copyOp (x : Ctx) (b : VBody) (id : Nat) (kind : CopyKind) (loopN stages pitch : Nat) (step : List Int) (first nteams : Nat) : CopyOp where
  id := id
  kind := kind
  core := x.core
  slot := x.slot
  team := x.team
  vf := x.vf
  ctx := x.gctx
  layrec := x.scal b.a
  delta := (x.scal b.d).toNat % 2 ^ 32
  coord := x.coords b
  counter := x.counterIn b.c
  loopN := loopN
  stages := stages
  pitch := pitch
  step := step
  first := first
  nteams := nteams
  dest := []
  layout := none
  iter := 0
  part := 0
  started := false
  released := []
  delivered := []
  after := x.w.fenced
  data := []
  moved := []
  stopped := false

/-- The channel of the fragment's hive has the operation, counted in the warp's COPY counter, and accepts it next. -/
def State.queueCopy (s : State) (x : Ctx) (ch : Nat) (op : CopyOp) : State :=
  let hv := hiveOfCore x.core
  let t := ((s.unstall (x.producer (copyQueue hv ch))).fresh.2.modHive hv fun y => { y with copy := y.copy.put ch (y.channel ch ++ [op]) }).modWarp
    x.core x.slot fun w => w.pushOp 0 s.nextId
  { t with agenda := .acceptCopy hv ch :: s.agenda }

theorem copyAlign_aligned (ha : (x.scal b.a).toNat % 64 = 0) (hc : (x.scal b.c).toNat % 16 = 0) : copyAlign x b = none :=
  (if_neg (not_not_intro ha)).trans (if_neg (not_not_intro hc))

theorem copyAlign_record (ha : (x.scal b.a).toNat % 64 ≠ 0) : copyAlign x b = some (x.scal b.a) := if_pos ha

theorem copyAlign_counter (ha : (x.scal b.a).toNat % 64 = 0) (hc : (x.scal b.c).toNat % 16 ≠ 0) : copyAlign x b = some (x.scal b.c) :=
  (if_neg (not_not_intro ha)).trans (if_pos hc)

theorem copyIssue_misaligned {a : DWord} (hact : x.act ≠ 0) (h : copyAlign x b = some a) :
    copyIssue x s b kind loopN stages pitch step first nteams = .trap ⟨causeAlign, x.mask, a, none⟩ := by
  unfold copyIssue
  rw [if_neg hact, h]

theorem copyIssue_full (hact : x.act ≠ 0) (h : copyAlign x b = none) (hfull : 63 ≤ x.w.counter 0) :
    copyIssue x s b kind loopN stages pitch step first nteams = .stall s := by
  unfold copyIssue
  rw [if_neg hact, h]
  exact if_pos hfull

theorem copyIssue_taken (hact : x.act ≠ 0) (h : copyAlign x b = none) (hroom : x.w.counter 0 < 63)
    (ht : s.channelTakes x (b.mod.toNat % 16) (x.scal b.a) = true)
    (hf : s.firstAt (x.producer (copyQueue (hiveOfCore x.core) (b.mod.toNat % 16))) = true) :
    copyIssue x s b kind loopN stages pitch step first nteams =
      .done (s.queueCopy x (b.mod.toNat % 16) (x.copyOp b s.nextId kind loopN stages pitch step first nteams)) := by
  unfold copyIssue
  rw [if_neg hact, h]
  exact (if_neg (Nat.not_le.mpr hroom)).trans (x.enqueue_takes_one _ ht hf)

/-- An instruction of the copy class whose effect is an issue to a channel: queued, stalled at its counter, or trapped for the address that is
unaligned first. -/
theorem exec_copyIssue {i : Instr} {eff : Ctx → State → Eff} (hexec : exec i s = issue i s eff)
    (heff : eff x s.taken = copyIssue x s.taken b kind loopN stages pitch step first nteams) (hact : x.act ≠ 0) (hr : Ready i s x) :
    ((x.scal b.a).toNat % 64 = 0 → (x.scal b.c).toNat % 16 = 0 → x.w.counter 0 < 63 →
      s.taken.channelTakes x (b.mod.toNat % 16) (x.scal b.a) = true →
      s.taken.firstAt (x.producer (copyQueue (hiveOfCore x.core) (b.mod.toNat % 16))) = true → exec i s =
        .next ((s.taken.queueCopy x (b.mod.toNat % 16) (x.copyOp b s.nextId kind loopN stages pitch step first nteams)).completed x)) ∧
    ((x.scal b.a).toNat % 64 = 0 → (x.scal b.c).toNat % 16 = 0 → 63 ≤ x.w.counter 0 → exec i s = .next s.taken) ∧
    ((x.scal b.a).toNat % 64 ≠ 0 → exec i s = .next (s.taken.trapAt x ⟨causeAlign, x.mask, x.scal b.a, none⟩)) ∧
    ((x.scal b.a).toNat % 64 = 0 → (x.scal b.c).toNat % 16 ≠ 0 →
      exec i s = .next (s.taken.trapAt x ⟨causeAlign, x.mask, x.scal b.c, none⟩)) := by
  refine ⟨fun ha hc hroom ht hf => ?queued, fun ha hc hfull => ?stalls, fun ha => ?record, fun ha hc => ?counter⟩
  case queued => exact hexec.trans (issue_done hr (heff.trans (copyIssue_taken hact (copyAlign_aligned ha hc) hroom ht hf)))
  case stalls =>
    rw [hexec, issue_ready hr, heff, copyIssue_full hact (copyAlign_aligned ha hc) hfull]
    rfl
  case record => exact hexec.trans (issue_trap hr (heff.trans (copyIssue_misaligned hact (copyAlign_record ha))))
  case counter => exact hexec.trans (issue_trap hr (heff.trans (copyIssue_misaligned hact (copyAlign_counter ha hc))))

end

theorem copyIssueClaim : CopyIssue := by
  unfold CopyIssue
  intro s h b x hact
  refine ⟨exec_copyIssue rfl rfl hact, exec_copyIssue rfl rfl hact, exec_copyIssue (exec_bloop h b s) ?_ hact⟩
  dsimp only
  simp only [bne_iff_ne]

/-! ## Stages and groups (R315, R317) -/

/-- A change of a hive counts by what it makes of that hive. -/
theorem State.modHive_congr {s : State} {k : Nat} {f g : Hive → Hive} (h : f (s.hive k) = g (s.hive k)) : s.modHive k f = s.modHive k g :=
  congrArg (s.setHive k) h

/-- `brel` of a stage that the channel's current `bloop` has and that nobody has released since. -/
theorem execBrel_released {s : State} {h : Hdr} {b : VBody} {x : Ctx} {op : CopyOp} {l : List CopyOp} (hact : x.act ≠ 0) (hr : Ready (.brel h b) s x)
    (hq : (s.hive (hiveOfCore x.core)).copy.find? (b.mod.toNat % 16) = some (op :: l)) (hk : op.kind = .bloop) (hl : op.layout.isSome = true)
    (hst : bitsOf b.mod.toNat 6 4 < op.stages) (hnew : op.released.contains (bitsOf b.mod.toNat 6 4) = false) :
    execBrel h b s = .next ((s.taken.modHive (hiveOfCore x.core) fun y => { y with
      copy := y.copy.put (b.mod.toNat % 16) ({ op with released := bitsOf b.mod.toNat 6 4 :: op.released } :: l) }).completed x) := by
  refine issue_done hr ?_
  rw [if_neg hact]
  refine congrArg Eff.done (State.modHive_congr ?_)
  have hc : (s.taken.hive (hiveOfCore x.core)).channel (b.mod.toNat % 16) = op :: l := congrArg (·.getD []) hq
  have hmay : (op.kind == .bloop && op.layout.isSome && decide (bitsOf b.mod.toNat 6 4 < op.stages) &&
      !op.released.contains (bitsOf b.mod.toNat 6 4)) = true := by
    rw [hk, hl, decide_eq_true hst, hnew]
    rfl
  rw [hc]
  exact if_pos hmay

section
variable {s : State} {h : Hdr} {b : VBody} {x : Ctx} {t : Team} (hact : x.act ≠ 0) (hr : Ready (.kcoll h b) s x) (ht : s.team? x.team = some t)

/-- A team's next contribution to a group: its operands, its place in the group's order, and a number of its own. -/
def Ctx.contribution (x : Ctx) (b : VBody) (t : Team) (id : Nat) : Contribution :=
  let first := (x.scal b.e).toNat % 2 ^ 32
  let n := (x.scal b.e).toNat / 2 ^ 32
  { core := x.core, slot := x.slot, team := x.team, vf := x.vf, ctx := x.gctx, grid := t.grid, num := t.num, first := first, n := n,
    seq := ((t.colls.find? fun y => y.1 == first && y.2.1 == n).map (·.2.2)).getD 0, op := b.mod.toNat % 4, fn := b.mod.toNat / 4 % 8,
    count := (x.scal b.d).toNat, src := x.scal b.a, dst := x.scal b.b, counter := x.counterIn b.c, after := x.w.fenced, id := id, pos := 0 }

/-- The collective engine of the fragment's die has the contribution, counted in the warp's COLLECTIVE counter, and the team has made it. -/
def State.queueContribution (s : State) (x : Ctx) (c : Contribution) : State :=
  let die := dieOfCore x.core
  ((({ (s.unstall (x.producer (collQueue die))).fresh.2 with coll := s.coll.put die ((s.coll.find? die).getD [] ++ [c]) } : State).modTeam x.team fun t =>
    { t with colls := (c.first, c.n, c.seq + 1) :: t.colls.filter fun y => !(y.1 == c.first && y.2.1 == c.n) }).modWarp x.core x.slot fun w =>
      w.pushOp 3 s.nextId)

include hact hr ht

/-- `kcoll` of a member of its group, aligned, with room. -/
theorem execKcoll_queued (hlo : (x.scal b.e).toNat % 2 ^ 32 ≤ t.num) (hhi : t.num < (x.scal b.e).toNat % 2 ^ 32 + (x.scal b.e).toNat / 2 ^ 32)
    (hn : (x.scal b.e).toNat / 2 ^ 32 ≤ 65536) (ha : (x.scal b.a).toNat % 4 = 0) (hb : (x.scal b.b).toNat % 4 = 0)
    (hc : (x.scal b.c).toNat % 16 = 0) (hroom : x.w.counter 3 < 63) (hq : (s.taken.collQueued (dieOfCore x.core)).length < 64)
    (hf : s.taken.firstAt (x.producer (collQueue (dieOfCore x.core))) = true) :
    execKcoll h b s = .next ((s.taken.queueContribution x (x.contribution b t s.nextId)).completed x) := by
  refine issue_done hr ?_
  have ht' : s.taken.team? x.team = some t := ht
  have hmember : ¬ (decide (t.num < (x.scal b.e).toNat % 2 ^ 32) || decide ((x.scal b.e).toNat % 2 ^ 32 + (x.scal b.e).toNat / 2 ^ 32 ≤ t.num) ||
      decide (65536 < (x.scal b.e).toNat / 2 ^ 32)) = true := by
    rw [decide_eq_false (Nat.not_lt.mpr hlo), decide_eq_false (Nat.not_le.mpr hhi), decide_eq_false (Nat.not_lt.mpr hn)]
    decide
  have haligned : [x.scal b.a, x.scal b.b].find? (fun a => a.toNat % 4 != 0) = none := by
    simp only [List.find?_cons, List.find?_nil, ha, hb, bne_self_eq_false]
  dsimp only
  rw [ht']
  dsimp only
  rw [if_neg hact, if_neg hmember, haligned, if_neg (not_not_intro hc)]
  exact (if_neg (Nat.not_le.mpr hroom)).trans (x.enqueue_takes_one _ (decide_eq_true hq) hf)

/-- `kcoll` outside its group, or with a group larger than a grid can be. -/
theorem execKcoll_outside (hout : t.num < (x.scal b.e).toNat % 2 ^ 32 ∨ (x.scal b.e).toNat % 2 ^ 32 + (x.scal b.e).toNat / 2 ^ 32 ≤ t.num ∨
    65536 < (x.scal b.e).toNat / 2 ^ 32) : execKcoll h b s = .next (s.taken.trapAt x (plain causeReserved x.mask)) := by
  refine issue_trap hr ?_
  have ht' : s.taken.team? x.team = some t := ht
  dsimp only
  rw [ht']
  dsimp only
  rw [if_neg hact]
  exact if_pos (by simpa only [Bool.or_eq_true, decide_eq_true_eq, or_assoc] using hout)

end

theorem stagesAndGroups : StagesAndGroups := by
  unfold StagesAndGroups
  intro s h b x op l t hact
  exact ⟨execBrel_released hact, execKcoll_queued hact, execKcoll_outside hact⟩

/-- Settles O22, from the two claims it joins. -/
theorem copyClass : Obligations.CopyClass := ⟨copyIssueClaim, stagesAndGroups⟩

end Sys2Proof.Machine
end

section
/-! SUPPORT. The near-memory class at issue (05 R103; 06 R123; 15 R320, R323, R325, R331, R333, R334). -/

namespace Sys2Proof.Machine
open Sys2Proof.Claims

/-! ## Hearths that take a producer's requests -/

/-- The producer stalls no more at any of these hearths. -/
def State.unstallNear (s : State) (x : Ctx) (ks : List Nat) : State := s.each (ks.map nearKey) fun s q => s.unstall (x.producer q)

theorem Ctx.enqueue_takes_near {x : Ctx} {s : State} {ks : List Nat} {room : Bool} (k : State → Eff) (hroom : room = true)
    (hturn : ∀ j ∈ ks, s.firstAt (x.producer (nearKey j)) = true) : x.enqueue s (ks.map nearKey) room k = k (s.unstallNear x ks) :=
  x.enqueue_takes k hroom (List.forall_mem_map.mpr hturn)

section
variable {s s1 : State} {h : Hdr} {b : VBody} {x : Ctx} (hact : x.act ≠ 0) (hg : x.w.counter 2 < 63)

include hg in
theorem Ctx.not_gatherFull : ¬ (!x.gatherRoom) = true := by
  unfold Ctx.gatherRoom
  rw [decide_eq_true hg]
  decide

include hact hg

/-- `nred` whose commands are read and name stacks of the partition, with room for all of them. -/
theorem execNred_queued {bytes : List Byte} {n : Nat} {cmds : List (List Byte)} {ks : List Nat} (hr : Ready (.nred h b) s x)
    (hn : (x.scal b.b).toNat = n) (hlo : 1 ≤ n) (hhi : n ≤ 64) (ha : (x.scal b.a).toNat % 32 = 0)
    (hread : x.coreRead s.taken (x.scal b.a) (32 * n) = (some (.ok bytes), s1))
    (hcmds : ((List.range n).map fun i => (bytes.drop (32 * i)).take 32) = cmds) (hst : ∀ c ∈ cmds, s1.stackOf x.vf (fieldOf c 0x1D 1) = true)
    (hks : (cmds.map fun c => fieldOf c 0x1D 1).dedup = ks)
    (hroom : ∀ j ∈ ks, s1.nearRoom j (cmds.filter fun c => fieldOf c 0x1D 1 == j).length = true)
    (hturn : ∀ j ∈ ks, s1.firstAt (x.producer (nearKey j)) = true) :
    execNred h b s = .next ((((s1.unstallNear x ks).openGather x n).2.each cmds fun s c =>
      s.pushNear x (s1.unstallNear x ks).nextId (fieldOf c 0x1D 1) (.nred c (x.scal b.c))).completed x) := by
  refine issue_done hr ?_
  have hcount : ¬ (decide (n = 0) || decide (64 < n)) = true := by
    simp only [Bool.or_eq_true, decide_eq_true_eq]
    omega
  have hstacks : ¬ (cmds.any fun c => !s1.stackOf x.vf (fieldOf c 0x1D 1)) = true := by
    rw [List.any_eq_true]
    rintro ⟨c, hc, hbad⟩
    rw [hst c hc] at hbad
    cases hbad
  dsimp only
  rw [hn, if_neg hact, if_neg hcount, if_neg (not_not_intro ha), hread]
  dsimp only
  rw [hcmds, if_neg hstacks, if_neg (Ctx.not_gatherFull hg), hks]
  exact x.enqueue_takes_near _ (List.all_eq_true.mpr hroom) hturn

/-- `nlaunch` whose descriptor is read and names a stack of the partition, with room for it. -/
theorem execNlaunch_queued {bytes : List Byte} (hr : Ready (.nlaunch h b) s x) (ha : (x.scal b.a).toNat % 64 = 0)
    (hread : x.coreRead s.taken (x.scal b.a) 64 = (some (.ok bytes), s1)) (hst : s1.stackOf x.vf (fieldOf bytes 0x14 1) = true)
    (hroom : s1.nearRoom (fieldOf bytes 0x14 1) 1 = true) (hturn : s1.firstAt (x.producer (nearKey (fieldOf bytes 0x14 1))) = true) :
    execNlaunch h b s = .next ((((s1.unstallNear x [fieldOf bytes 0x14 1]).openGather x 1).2.pushNear x s1.nextId (fieldOf bytes 0x14 1)
      (.nlaunch bytes)).completed x) := by
  refine issue_done hr ?_
  have hstack : ¬ (!s1.stackOf x.vf (fieldOf bytes 0x14 1)) = true := by rw [hst]; decide
  dsimp only
  rw [if_neg hact, if_neg (not_not_intro ha), hread]
  dsimp only
  rw [if_neg hstack, if_neg (Ctx.not_gatherFull hg)]
  exact x.enqueue_takes_one _ hroom hturn

/-- A request for the stoves that a selector names, with room for it. -/
theorem nearSelect_queued {sel : DWord} (req : Word → NearReq) (hlo : bitsOf sel.toNat 31 3 = 0) (hhi : bitsOf sel.toNat 63 32 ≠ 0)
    (hroom : s.nearRoom (sel.toNat % 8) 1 = true) (hturn : s.firstAt (x.producer (nearKey (sel.toNat % 8))) = true) :
    nearSelect x s sel none req = .done (((s.unstallNear x [sel.toNat % 8]).openGather x 1).2.pushNear x s.nextId (sel.toNat % 8)
      (req ((sel >>> 32).setWidth 32))) := by
  have hsel : ¬ (!selectorOk sel) = true := by
    unfold selectorOk
    rw [hlo, bne_iff_ne.mpr hhi]
    decide
  unfold nearSelect
  rw [if_neg hact, if_neg hsel]
  dsimp only
  rw [if_neg (Ctx.not_gatherFull hg)]
  exact x.enqueue_takes_one _ hroom hturn

/-- `gred` whose lanes pass: one GATHER operation whose reply brings its sums. -/
theorem execGred_sent {m : MBody} {l : List (Nat × Parts)} (hr : Ready (.gred h m) s x)
    (hl : checkLanes s.taken x.threads (fun t s => x.globalLane (x.ea m t) 4 .nearRead true s) (x.ea m) = (.ok l, s1)) :
    execGred h m s = .next ((({ s1.fresh.2 with loads := s1.loads.put s1.nextId {
      core := x.core, slot := x.slot, entry := x.entry, vf := x.vf, ctx := x.gctx, pc := x.pc, lanes := l.map memLane, dst := m.d.toNat, size := 2,
      sgn := false, uni := false, hint := 2, acq := 0, gred := some (h.fs.toNat, m.c.toNat, x.word),
      vas := l.map fun y => (x.ea m y.1).toNat, floor := x.w.floor, got := [], far := [] } } : State).modWarp x.core x.slot fun w =>
        w.pushOp 2 s1.nextId).completed x) := by
  refine issue_done hr ?_
  dsimp only
  rw [hl]
  dsimp only
  rw [if_neg hact, if_neg (Ctx.not_gatherFull hg)]
  rfl

end

/-- Settles O24, instruction by instruction. -/
theorem nearIssue : Obligations.NearIssue := by
  unfold Obligations.NearIssue
  intro s s1 h b m x bytes l hact hg n va cmds k turn opened sel
  refine ⟨?nred, fun hr ha hread hst hroom hturn => ?nlaunch, fun hr hsel hbuf => ?nstat, fun hr hsel => ?nkill, execGred_sent hact hg⟩
  case nred =>
    intro hr hlo hhi ha hread hst ks hroom hturn
    have hn : (x.scal b.b).toNat = n := rfl
    have hcmds : ((List.range n).map fun i => (bytes.drop (32 * i)).take 32) = cmds := rfl
    have hks : (cmds.map fun c => fieldOf c 0x1D 1).dedup = ks := rfl
    -- the commands stay names: unfolded, each of the lists below would run the reads of the registers again
    clear_value ks cmds n
    exact execNred_queued hact hg hr hn hlo hhi ha hread hcmds hst hks hroom hturn
  case nlaunch => exact execNlaunch_queued hact hg hr ha hread hst hroom (hturn _ (List.mem_singleton_self _))
  case nstat =>
    obtain ⟨hlo, hhi, hroom, hturn⟩ := hsel
    refine issue_done hr ?_
    dsimp only
    rw [if_neg (not_not_intro hbuf)]
    exact nearSelect_queued hact hg _ hlo hhi hroom (hturn _ (List.mem_singleton_self _))
  case nkill =>
    obtain ⟨hlo, hhi, hroom, hturn⟩ := hsel
    exact issue_done hr (nearSelect_queued hact hg _ hlo hhi hroom (hturn _ (List.mem_singleton_self _)))

end Sys2Proof.Machine
end

section
/-! SUPPORT. The address thread of a stove (15 R321, R322, R336, R337, R339; 17 R367; 25 R430): its registers, branches and queues, and its rows. -/

namespace Sys2Proof.Machine
open Sys2Proof.Claims

/-! ## What an effect of a stove's thread comes to (R336) -/

section
variable {s t : State} {k : Nat} {arith : Bool} {x v : Stove} {eff : Nat → State → Stove → StoveEff} (h : s.stoveAt k arith x)
include h

theorem stove_suspend (he : eff k (s.stoveClk arith x) x = .suspend) :
    stoveIssue arith s eff = .next (((s.stoveClk arith x).suspendStove k).clockOf s) := by rw [stoveIssue_at h, he]; rfl

theorem stove_hold (he : eff k (s.stoveClk arith x) x = .hold t) : stoveIssue arith s eff = .next (t.clockOf s) := by
  rw [stoveIssue_at h, he]; rfl

theorem stove_doneSuspend (he : eff k (s.stoveClk arith x) x = .doneSuspend t v) : stoveIssue arith s eff =
    .next (((t.setStove k ((v.issuedAt arith t.dclk).setPc arith (x.pc arith + 1))).suspendStove k).clockOf s) := by
  rw [stoveIssue_at h, he]; rfl

/-- A branch with its target in the code goes there, or on. -/
theorem stove_branch {n : Nat} {taken : Bool} {imm : BitVec 15} (ht : x.target arith imm = some n)
    (he : eff k (s.stoveClk arith x) x = stoveBranch x arith t v taken imm) (hu : t = s.stoveClk arith x) : stoveIssue arith s eff =
      .next ((t.setStove k ((v.issuedAt arith t.dclk).setPc arith (if taken then n else x.pc arith + 1))).clockOf s) := by
  subst hu
  rw [stoveIssue_at h, he]
  unfold stoveBranch
  rw [ht]
  cases taken
  · rfl
  · simp only [Option.isNone_some, Bool.false_eq_true, if_false, if_true, stoveFinish, ht]

theorem stove_branch_out {taken : Bool} {imm : BitVec 15} (ht : x.target arith imm = none)
    (he : eff k (s.stoveClk arith x) x = stoveBranch x arith t v taken imm) :
    stoveIssue arith s eff = .next (((s.stoveClk arith x).stoveFault k (x.pc arith) causeBadTarget none).clockOf s) := by
  refine stove_fault h (he.trans ?_)
  unfold stoveBranch
  rw [ht]
  rfl

end

section
variable {x : Stove} {arith : Bool} {imm : BitVec 15}

theorem Stove.target_inCode (h : 0 ≤ (x.pc arith : Int) + imm.toInt ∧ (x.pc arith : Int) + imm.toInt < (x.code arith).length) :
    x.target arith imm = some ((x.pc arith : Int) + imm.toInt).toNat :=
  if_pos (by rw [decide_eq_true h.1, decide_eq_true h.2]; rfl)

theorem Stove.target_outside (h : ¬ (0 ≤ (x.pc arith : Int) + imm.toInt ∧ (x.pc arith : Int) + imm.toInt < (x.code arith).length)) :
    x.target arith imm = none :=
  if_neg (by rwa [Bool.and_eq_true, decide_eq_true_eq, decide_eq_true_eq])

end

/-! ## Registers, branches and queues (R337) -/

section
variable {s : State} {k : Nat} {x : Stove} {d a b : BitVec 4} {imm : BitVec 15} (h : s.stoveAt k false x)
include h

theorem execAset_sets (ha : a.toNat ≤ 7) : execAset d a imm s =
    stoveGoes s (s.stoveClk false x) k false { x with ag := x.ag.set 0 d.toNat (imm.signExtend 32 <<< (4 * a.toNat)) } (x.apc + 1) :=
  stove_done h (if_neg (Nat.not_lt.mpr ha))

theorem execAset_reserved (ha : 7 < a.toNat) :
    execAset d a imm s = .next (((s.stoveClk false x).stoveFault k x.apc causeReserved none).clockOf s) := stove_fault h (if_pos ha)

theorem execAadd_sets : execAadd d a b imm s = stoveGoes s (s.stoveClk false x) k false
    { x with ag := x.ag.set 0 d.toNat (x.agr a + x.agr b + imm.signExtend 32) } (x.apc + 1) := stove_done h rfl

theorem execAloop_decrements (hin : 0 ≤ (x.apc : Int) + imm.toInt ∧ (x.apc : Int) + imm.toInt < x.acode.length) : execAloop d imm s =
    stoveGoes s (s.stoveClk false x) k false { x with ag := x.ag.set 0 d.toNat (x.agr d - 1) }
      (if x.agr d - 1 ≠ 0 then ((x.apc : Int) + imm.toInt).toNat else x.apc + 1) := by
  have hexec := stove_branch (v := x.setAg d (x.agr d - 1)) (taken := x.agr d - 1 != 0) (eff := fun _ s x =>
    stoveBranch x false s (x.setAg d (x.agr d - 1)) (x.agr d - 1 != 0) imm) h (Stove.target_inCode hin) rfl rfl
  simp only [bne_iff_ne] at hexec
  exact hexec

theorem execAloop_outside (hout : ¬ (0 ≤ (x.apc : Int) + imm.toInt ∧ (x.apc : Int) + imm.toInt < x.acode.length)) : execAloop d imm s =
    .next (((s.stoveClk false x).stoveFault k x.apc causeBadTarget none).clockOf s) :=
  stove_branch_out h (t := s.stoveClk false x) (Stove.target_outside hout) rfl

theorem execAbr_goes (hd : d.toNat ≤ 4) (hin : 0 ≤ (x.apc : Int) + imm.toInt ∧ (x.apc : Int) + imm.toInt < x.acode.length) : execAbr d a b imm s =
    stoveGoes s (s.stoveClk false x) k false x
      (if stoveCond d.toNat (x.agr a) (x.agr b) then ((x.apc : Int) + imm.toInt).toNat else x.apc + 1) :=
  stove_branch h (Stove.target_inCode hin) (if_neg (Nat.not_lt.mpr hd)) rfl

theorem execAbr_reserved (hd : 4 < d.toNat) :
    execAbr d a b imm s = .next (((s.stoveClk false x).stoveFault k x.apc causeReserved none).clockOf s) := stove_fault h (if_pos hd)

theorem execAwq_held (hb : x.buffer.isSome = true) :
    execAwq d s = .next (((s.stoveClk false x).stoveFault k x.apc causeReserved none).clockOf s) := stove_fault h (if_pos hb)

theorem execAend_ends : execAend s = stoveGoes s ((s.stoveClk false x).closeRows k (x.rows.map (·.1))) k false
    { x with rows := [], aend := true } (x.apc + 1) := stove_done h rfl

/-- `awq` with an entry pushed at an earlier clock. -/
theorem execAwq_entry {n : Nat} {tag : Word} {w : BurstWords} {l : List (Nat × Word × BurstWords)} (hb : x.buffer = none)
    (hq : x.writeQ = (n, tag, w) :: l) (hn : n < (s.stoveClk false x).dclk) : execAwq d s = stoveGoes s (s.stoveClk false x) k false
      { x with writeQ := l, buffer := some (tag, w), ag := x.ag.set 0 d.toNat tag } (x.apc + 1) := by
  refine stove_done h ?_
  rw [hb, hq]
  exact if_neg (Nat.not_le.mpr hn)

/-- An entry pushed at this clock has not come yet. -/
theorem execAwq_young {n : Nat} {y : Word × BurstWords} {l : List (Nat × Word × BurstWords)} (hb : x.buffer = none)
    (hq : x.writeQ = (n, y) :: l) (hn : (s.stoveClk false x).dclk ≤ n) : execAwq d s = .next s.taken := by
  refine stove_stall h ?_
  rw [hb, hq]
  exact if_pos hn

theorem execAwq_empty (hb : x.buffer = none) (hq : x.writeQ = []) : execAwq d s = .next s.taken := by
  refine stove_stall h ?_
  rw [hb, hq]
  rfl

end

theorem addressOps : AddressOps := by
  unfold AddressOps
  intro s k d a b imm x h u goes faults t inCode set g cond
  exact ⟨execAset_sets h, execAset_reserved h, execAadd_sets h, execAloop_decrements h, execAloop_outside h, execAbr_goes h, execAbr_reserved h,
    fun _ _ _ _ hb hq hn => execAwq_entry h hb hq hn, fun _ _ _ hb hq hn => execAwq_young h hb hq hn, execAwq_empty h, execAwq_held h,
    execAend_ends h⟩

/-! ## Rows and bursts (R321, R322, R339) -/

@[simp] theorem State.stoveClk_rowOk (s : State) (arith : Bool) (x : Stove) (vf pa : Nat) (write near : Bool) :
    (s.stoveClk arith x).rowOk vf pa write near = s.rowOk vf pa write near := rfl

/-- A stove that closes rows leaves the frames of the hearths alone. -/
@[simp] theorem State.closeRows_hearth (s : State) (k : Nat) (banks : List Nat) (j : Nat) : (s.closeRows k banks).hearth j = s.hearth j := by
  refine State.each_keeps (·.hearth j) (fun s b => State.each_keeps (·.hearth j) (fun s sl => ?_) s _) s banks
  dsimp only
  split
  · rfl
  · split <;> rfl

section
variable {s : State} {k : Nat} {x : Stove} (h : s.stoveAt k false x)
include h

/-! ### `aopen` -/

section
variable {a b : BitVec 4} {bank row : Nat} (hbank : (x.agr a).toNat % 16 = bank) (hrow : (x.agr b).toNat % 2 ^ 16 = row)
include hbank hrow

theorem execAopen_denied (hok : s.rowOk x.vf (stovePa k bank row 0) false true = false) : execAopen a b s =
    .next (((s.stoveClk false x).stoveFault k x.apc causeRowDenied (some (stovePa k bank row 0))).clockOf s) := by
  subst hbank hrow
  exact stove_fault h (if_pos (by rw [State.stoveClk_rowOk, hok]; rfl))

variable (hok : s.rowOk x.vf (stovePa k bank row 0) false true = true)
include hok

theorem execAopen_open (hr : x.rows.find? bank = some row) : execAopen a b s = stoveGoes s (s.stoveClk false x) k false x (x.apc + 1) := by
  subst hbank hrow
  exact stove_done h ((if_neg (by rw [State.stoveClk_rowOk, hok]; decide)).trans (if_pos hr))

variable (hr : x.rows.find? bank ≠ some row)
include hr

theorem execAopen_opens (hin : (((s.hearth (k / 32)).ordinary ((s.stoveClk false x).activateAt k bank)).any fun o => decide (18 < o)) = false) :
    execAopen a b s = stoveGoes s ((s.stoveClk false x).holdRow k bank row ((s.stoveClk false x).activateAt k bank)) k false
      { x with rows := x.rows.put bank row } (x.apc + 1) := by
  subst hbank hrow
  refine stove_done h ((if_neg (by rw [State.stoveClk_rowOk, hok]; decide)).trans ((if_neg hr).trans ?_))
  rw [show openStoveRow k (s.stoveClk false x) x _ _ = some _ from if_neg (Bool.eq_false_iff.mp hin)]

theorem execAopen_late (hlate : (((s.hearth (k / 32)).ordinary ((s.stoveClk false x).activateAt k bank)).any fun o => decide (18 < o)) = true) :
    execAopen a b s = .next (((s.stoveClk false x).suspendStove k).clockOf s) := by
  subst hbank hrow
  refine stove_suspend h ((if_neg (by rw [State.stoveClk_rowOk, hok]; decide)).trans ((if_neg hr).trans ?_))
  rw [show openStoveRow k (s.stoveClk false x) x _ _ = none from if_pos hlate]

end

/-! ### `acol` -/

section
variable {a b : BitVec 4} {imm : BitVec 15}

theorem execAcol_closed (hr : x.rows.find? ((x.agr a).toNat % 16) = none) :
    execAcol a b imm s = .next (((s.stoveClk false x).stoveFault k x.apc causeReserved none).clockOf s) := by
  refine stove_fault h ?_
  dsimp only
  rw [hr]

variable {bank row : Nat} (hbank : (x.agr a).toNat % 16 = bank) (hr : x.rows.find? bank = some row)
include hbank hr

theorem execAcol_full (hfull : 16 ≤ x.dataQ.length) : execAcol a b imm s = .next s.taken := by
  subst hbank
  refine stove_stall h ?_
  dsimp only
  rw [hr]
  exact if_pos hfull

variable (hroom : x.dataQ.length < 16)
include hroom

theorem execAcol_limit (hlim : (s.stoveClk false x).burstLimit k x bank = true) :
    execAcol a b imm s = .next (((s.stoveClk false x).suspendStove k).clockOf s) := by
  subst hbank
  refine stove_suspend h ?_
  dsimp only
  rw [hr]
  exact (if_neg (Nat.not_le.mpr hroom)).trans (if_pos hlim)

variable (hlim : (s.stoveClk false x).burstLimit k x bank = false) {pa : Nat}
  (hpa : stovePa k bank row ((x.agr b + imm.signExtend 32).toNat % 32) = pa)
include hlim hpa

theorem execAcol_hostBias (hb : s.isHostBias pa = true) :
    execAcol a b imm s = .next (((s.stoveClk false x).stoveFault k x.apc causePagePerm (some pa)).clockOf s) := by
  subst hbank hpa
  refine stove_fault h ?_
  dsimp only
  rw [hr]
  exact (if_neg (Nat.not_le.mpr hroom)).trans ((if_neg (Bool.eq_false_iff.mp hlim)).trans (if_pos hb))

variable (hb : s.isHostBias pa = false) (hok : s.rowOk x.vf pa false true = true)
include hb hok

theorem execAcol_held {t : State} (hheld : (s.stoveClk false x).stoveHeld k x pa = some t) : execAcol a b imm s = .next (t.clockOf s) := by
  subst hbank hpa
  refine stove_hold h ?_
  dsimp only
  rw [hr]
  refine (if_neg (Nat.not_le.mpr hroom)).trans ((if_neg (Bool.eq_false_iff.mp hlim)).trans ((if_neg (Bool.eq_false_iff.mp hb)).trans ?_))
  rw [State.stoveClk_rowOk, hok, hheld]
  rfl

theorem execAcol_reads (hfree : (s.stoveClk false x).stoveHeld k x pa = none) :
    let u := s.stoveClk false x
    let y := takeBurst k u x bank
    execAcol a b imm s = stoveGoes s (y.1.readLine x.vf pa).2 k false
      { y.2 with dataQ := y.2.dataQ ++ [(u.beatAt k bank + 34, (y.1.readLine x.vf pa).1)] } (x.apc + 1) := by
  subst hbank hpa
  refine stove_done h ?_
  dsimp only
  rw [hr]
  refine (if_neg (Nat.not_le.mpr hroom)).trans ((if_neg (Bool.eq_false_iff.mp hlim)).trans ((if_neg (Bool.eq_false_iff.mp hb)).trans ?_))
  rw [State.stoveClk_rowOk, hok, hfree]
  rfl

end

/-! ### `awr` -/

theorem execAwr_empty (hb : x.buffer = none) : execAwr s = .next (((s.stoveClk false x).stoveFault k x.apc causeReserved none).clockOf s) := by
  refine stove_fault h ?_
  rw [hb]

section
variable {tag : Word} {w : BurstWords} (hbuf : x.buffer = some (tag, w)) (htag : bitsOf tag.toNat 31 25 = 0)
include hbuf htag

theorem execAwr_poison (hp : w.poison.any id = true) : execAwr s =
    .next (((s.stoveClk false x).stoveFault k x.apc causeUncorr (some (stovePa k (tagBank tag) (tagRow tag) (tagColumn tag)))).clockOf s) := by
  refine stove_fault h ?_
  rw [hbuf]
  exact (if_neg (not_not_intro htag)).trans (if_pos hp)

variable (hp : w.poison.any id = false) (hr : x.rows.find? (tagBank tag) = some (tagRow tag))
  (hlim : (s.stoveClk false x).burstLimit k x (tagBank tag) = false) {pa : Nat} (hpa : stovePa k (tagBank tag) (tagRow tag) (tagColumn tag) = pa)
include hp hr hlim hpa

omit hbuf htag hp hr hpa h in
/-- The row stands open, and no limit keeps the burst from it. -/
theorem rowHeld_inTime : (some (s.stoveClk false x, x)).filter (fun y : State × Stove => !y.1.burstLimit k y.2 (tagBank tag)) =
    some (s.stoveClk false x, x) :=
  if_pos (congrArg (!·) hlim)

/-- The burst may not be written there. -/
theorem execAwr_refused {c : Nat} (hc : (if s.isHostBias pa then some causePagePerm else s.nearWriteCause x.vf (pa / 4)) = some c) :
    execAwr s = .next (((s.stoveClk false x).stoveFault k x.apc c (some pa)).clockOf s) := by
  subst hpa
  refine stove_fault h ?_
  have hc' : (if (s.stoveClk false x).isHostBias _ then some causePagePerm else (s.stoveClk false x).nearWriteCause x.vf _) = some c := hc
  rw [hbuf]
  refine (if_neg (not_not_intro htag)).trans ((if_neg (Bool.eq_false_iff.mp hp)).trans ?_)
  dsimp only
  rw [if_pos hr, rowHeld_inTime hlim]
  dsimp only
  rw [hc']

theorem execAwr_writes (hb : s.isHostBias pa = false) (hc : s.nearWriteCause x.vf (pa / 4) = none)
    (hfree : (s.stoveClk false x).stoveHeld k x pa = none) :
    let y := takeBurst k (s.stoveClk false x) x (tagBank tag)
    execAwr s = stoveGoes s (y.1.each (w.words.zip (List.range 16)) fun s z => s.nearWrite (pa / 4 + z.2) z.1) k false
      { y.2 with buffer := none } (x.apc + 1) := by
  subst hpa
  refine stove_done h ?_
  have hc' : (if (s.stoveClk false x).isHostBias _ then some causePagePerm else (s.stoveClk false x).nearWriteCause x.vf _) = none :=
    (if_neg (Bool.eq_false_iff.mp hb)).trans hc
  rw [hbuf]
  refine (if_neg (not_not_intro htag)).trans ((if_neg (Bool.eq_false_iff.mp hp)).trans ?_)
  dsimp only
  rw [if_pos hr, rowHeld_inTime hlim]
  dsimp only
  rw [hc', hfree]

end

/-! ### `anext` -/

/-- A row of the stove has not stood tRAS yet. -/
def State.rowYoung (s : State) (k n : Nat) (x : Stove) : Prop :=
  ∃ y ∈ x.rows, ∃ o, s.openRows.find? (sliceBank (k / 32) (k % 32) 0 y.1) = some o ∧ n < o.at_ + 80

theorem execAnext_young (hy : s.rowYoung k (s.stoveClk false x).dclk x) : execAnext s = .next s.taken := by
  obtain ⟨y, hrow, o, ho, hyoung⟩ := hy
  refine stove_stall h (if_pos (List.any_eq_true.mpr ⟨y, hrow, ?_⟩))
  have ho' : (s.stoveClk false x).openRows.find? _ = some o := ho
  rw [ho']
  exact decide_eq_true hyoung

variable (hy : ¬ s.rowYoung k (s.stoveClk false x).dclk x)
include hy

/-- With every row old enough `anext` closes them all, and suspends the stove in an ordinary interval. -/
theorem execAnext_old : execAnext s = .next ((stoveFinish k false (s.stoveClk false x) x
    (if (s.hearth (k / 32)).compute then .done ((s.stoveClk false x).closeRows k (x.rows.map (·.1))) { x with rows := [] }
      else .doneSuspend ((s.stoveClk false x).closeRows k (x.rows.map (·.1))) { x with rows := [] })).clockOf s) := by
  refine (stoveIssue_at h _).trans (congrArg (fun e => Host.Outcome.next ((stoveFinish k false (s.stoveClk false x) x e).clockOf s)) ?_)
  have hcompute := congrArg Hearth.compute (State.closeRows_hearth (s.stoveClk false x) k (x.rows.map (·.1)) (k / 32))
  refine (if_neg ?_).trans (if_congr (Eq.to_iff (congrArg (· = true) hcompute)) rfl rfl)
  rw [List.any_eq_true]
  rintro ⟨y, hrow, hyoung⟩
  cases ho : (s.stoveClk false x).openRows.find? (sliceBank (k / 32) (k % 32) 0 y.1) with
  | none =>
    rw [ho] at hyoung
    cases hyoung
  | some o =>
    rw [ho] at hyoung
    exact hy ⟨y, hrow, o, ho, of_decide_eq_true hyoung⟩

theorem execAnext_computes (hc : (s.hearth (k / 32)).compute = true) : execAnext s =
    stoveGoes s ((s.stoveClk false x).closeRows k (x.rows.map (·.1))) k false { x with rows := [] } (x.apc + 1) := by
  rw [execAnext_old h hy, if_pos hc]
  rfl

theorem execAnext_ordinary (hc : (s.hearth (k / 32)).compute = false) :
    let t := (s.stoveClk false x).closeRows k (x.rows.map (·.1))
    execAnext s = .next (((t.setStove k (({ x with rows := [] }.issuedAt false t.dclk).setPc false (x.apc + 1))).suspendStove k).clockOf s) := by
  rw [execAnext_old h hy, if_neg (Bool.eq_false_iff.mp hc)]
  rfl

end

theorem stoveRows : StoveRows := by
  unfold StoveRows
  intro s k a b imm x h u bank row goes faults opens young
  refine ⟨execAopen_opens h rfl rfl, execAopen_late h rfl rfl, execAopen_open h rfl rfl, execAopen_denied h rfl rfl, ?acol,
    fun r hr hfull => execAcol_full h rfl hr hfull, fun r hr hroom hlim => execAcol_limit h rfl hr hroom hlim, execAcol_closed h, ?awr,
    fun tag w hbuf htag hp => execAwr_poison h hbuf htag hp, execAwr_empty h, execAnext_computes h,
    execAnext_ordinary h, execAnext_young h⟩
  case acol =>
    intro r hr hroom hlim pa y
    exact ⟨fun hb hok hfree => execAcol_reads h rfl hr hroom hlim rfl hb hok hfree,
      fun t hb hok hheld => execAcol_held h rfl hr hroom hlim rfl hb hok hheld, fun hb => execAcol_hostBias h rfl hr hroom hlim rfl hb⟩
  case awr =>
    intro tag w hbuf htag hp hr hlim pa y
    exact ⟨fun hb hc hfree => execAwr_writes h hbuf htag hp hr hlim rfl hb hc hfree,
      fun c hb hc => execAwr_refused h hbuf htag hp hr hlim rfl ((if_neg (Bool.eq_false_iff.mp hb)).trans hc),
      fun hb => execAwr_refused h hbuf htag hp hr hlim rfl (if_pos hb)⟩

/-- Settles O31, from the two claims it joins. -/
theorem addressThread : Obligations.AddressThread := ⟨addressOps, stoveRows⟩

end Sys2Proof.Machine
end

section
/-! SUPPORT. The mailbox's commands on contexts, queues, pages and instruction lines (18 R369, R379 to R381; 19 R387, R390, R392, R393). -/

namespace Sys2Proof.Machine
open Sys2Proof.Claims

/-! ## Commands that are taken (R388 to R390) -/

section
variable {s t : State} {op fn : Nat} {sel : (Nat → DWord) → Bool} {f : (Nat → DWord) → Mailbox → State → Answer} (ht : takes s fn op)
  (hl : listedOp op = true) (hs : sel (argOf s fn) = true)
include ht hl hs

theorem command_ok {r : List (Nat × DWord)} (hf : f (argOf s fn) (s.mailbox fn) s = .ok t r) :
    command op fn s sel f = .next (t.finishCommand fn .ok r) := by
  obtain ⟨hn, ho, hp, hb⟩ := ht
  refine (command_taken hn ho hl hp hb hs).trans ?_
  rw [show f (fun i => (s.mailbox fn).args.getD i 0) (s.mailbox fn) s = .ok t r from hf]

theorem command_fail {st : Status} (hf : f (argOf s fn) (s.mailbox fn) s = .fail t st) :
    command op fn s sel f = .next (t.finishCommand fn st []) := by
  obtain ⟨hn, ho, hp, hb⟩ := ht
  refine (command_taken hn ho hl hp hb hs).trans ?_
  rw [show f (fun i => (s.mailbox fn).args.getD i 0) (s.mailbox fn) s = .fail t st from hf]

theorem command_pending (hf : f (argOf s fn) (s.mailbox fn) s = .pending t) : command op fn s sel f = .next { t with mboxCur := some fn } := by
  obtain ⟨hn, ho, hp, hb⟩ := ht
  refine (command_taken hn ho hl hp hb hs).trans ?_
  rw [show f (fun i => (s.mailbox fn).args.getD i 0) (s.mailbox fn) s = .pending t from hf]

end

section
variable {s t : State} {op fn : Nat} {f : Nat → Context → (Nat → DWord) → State → Answer} (ht : takes s fn op) (hl : listedOp op = true)
include ht hl

/-- A command on a context that its first argument names. -/
theorem ctxCommand_ok {k : Nat} {c : Context} {r : List (Nat × DWord)} (hc : s.ctxArg fn (argOf s fn 0) = some (k, c))
    (hf : f k c (argOf s fn) s = .ok t r) : ctxCommand op fn s f = .next (t.finishCommand fn .ok r) := by
  refine command_ok ht hl rfl ?_
  rw [hc]
  exact hf

theorem ctxCommand_unnamed (hc : s.ctxArg fn (argOf s fn 0) = none) : ctxCommand op fn s f = .next (s.finishCommand fn .badarg []) := by
  refine command_fail ht hl rfl ?_
  rw [hc]

end

/-- Function 0 may name any VF, a VF only itself. -/
theorem mayName {fn vf : Nat} (h : fn = 0 ∨ vf = fn) : ¬ (decide (fn ≠ 0) && decide (vf ≠ fn)) = true := by
  simp only [Bool.and_eq_true, decide_eq_true_eq]
  exact fun ⟨h0, hne⟩ => h.elim h0 hne

/-! ## Contexts (R392) -/

section
variable {s s1 : State} {fn : Nat} {b : List Byte}

/-- A VF that names itself and a descriptor within its limits, with a context free, gets the lowest free one. -/
theorem execCtxcreate_ok {i : Nat} (ht : takes s fn 0x10) (hfn : fn ≠ 0) (h0 : (argOf s fn 0).toNat = fn) (hw : (argOf s fn 0).toNat < 256)
    (hp : (s.part? fn).isSome = true) (h1 : (argOf s fn 1).toNat % 64 = 0) (hq : s.argWaits (argOf s fn 1) 64 = false)
    (hb : s.argBytes fn (argOf s fn 1) 64 = (.ok b, s1)) (hok : s1.contextOk fn b = true)
    (hi : ((List.range 64).find? fun i => (s1.ctx? (fn * 64 + i)).isNone) = some i) : execCtxcreate fn s =
      .next (({ s1 with contexts := s1.contexts.put (fn * 64 + i) (contextOf fn b) } : State).finishCommand fn .ok [(0, BitVec.ofNat 64 i)]) := by
  refine command_ok ht rfl rfl ?_
  have hnarrow : narrow 8 (argOf s fn 0) = true := decide_eq_true hw
  have hgood : ¬ ((s.part? fn).isNone || decide ((argOf s fn 1).toNat % 64 ≠ 0)) = true := by
    rw [← Option.not_isSome, hp, h1]
    decide
  dsimp only
  rw [h0, hnarrow, if_neg (by decide), if_neg (mayName (.inr rfl)), if_neg hgood, hq, if_neg (by decide), hb]
  dsimp only
  rw [hok, if_neg (by decide), hi]
  dsimp only
  rw [if_neg hfn]

/-- A VF that names another. -/
theorem execCtxcreate_denied (ht : takes s fn 0x10) (hfn : fn ≠ 0) (h0 : (argOf s fn 0).toNat ≠ fn) (hw : (argOf s fn 0).toNat < 256) :
    execCtxcreate fn s = .next (s.finishCommand fn .denied []) := by
  refine command_fail ht rfl rfl ?_
  have hnarrow : narrow 8 (argOf s fn 0) = true := decide_eq_true hw
  dsimp only
  rw [hnarrow, if_neg (by decide), if_pos (by rw [decide_eq_true hfn, decide_eq_true h0]; rfl)]

theorem execCtxcreate_wide (ht : takes s fn 0x10) (hw : 256 ≤ (argOf s fn 0).toNat) :
    execCtxcreate fn s = .next (s.finishCommand fn .badarg []) := by
  refine command_fail ht rfl rfl ?_
  have hnarrow : narrow 8 (argOf s fn 0) = false := decide_eq_false (Nat.not_lt.mpr hw)
  dsimp only
  rw [hnarrow, if_pos (by decide)]

end

section
variable {s : State} {fn k : Nat} {c : Context} {p : Partition} (hc : s.ctxArg fn (argOf s fn 0) = some (k, c))
include hc

/-! ## Queues, pre-emption, replies (R104, R369, R379, R381) -/

theorem execQcreate_ok (ht : takes s fn 0x12) (hp : s.part? c.vf = some p) (h1 : (argOf s fn 1).toNat < 16) (h2 : (argOf s fn 2).toNat % 8 = 0)
    (h2' : (argOf s fn 2).toNat < 2 ^ 39) (h3 : 4 ≤ (argOf s fn 3).toNat) (h3' : (argOf s fn 3).toNat ≤ 12)
    (hq : p.queues.find? (argOf s fn 1).toNat = none) : execQcreate fn s = .next ((s.modPart c.vf fun p => { p with
      queues := p.queues.put (argOf s fn 1).toNat ⟨k, (argOf s fn 2).toNat, (argOf s fn 3).toNat, 0, 0⟩ }).finishCommand fn .ok []) := by
  refine ctxCommand_ok ht rfl hc ?_
  have hnarrow : narrow 39 (argOf s fn 2) = true := decide_eq_true h2'
  dsimp only
  rw [hp]
  dsimp only
  rw [if_neg, hq]
  · rfl
  · simp only [Bool.or_eq_true, decide_eq_true_eq, not_or, Nat.not_le, Nat.not_lt, ne_eq, not_not, hnarrow]
    exact ⟨⟨⟨⟨h1, h2⟩, by decide⟩, h3⟩, h3'⟩

theorem execPreempt_ok (ht : takes s fn 0x13) (hst : c.st = .live) : execPreempt fn s =
    .next (((s.haltContext k).modCtx k fun c => { c with saveCounter := some (fn, argOf s fn 1) }).finishCommand fn .ok []) := by
  refine ctxCommand_ok ht rfl hc ?_
  rw [hst]
  rfl

/-- A saved context whose cores are there. -/
theorem execResume_ok (ht : takes s fn 0x14) (hst : c.st = .saved) (hp : s.part? c.vf = some p)
    (hcores : ∀ t ∈ c.saved, s.coreThere p t.core = true) :
    execResume fn s = .next ((s.modCtx k fun c => { c with st := .live }).finishCommand fn .ok []) := by
  refine ctxCommand_ok ht rfl hc ?_
  have hthere : ¬ (c.saved.any fun t => !s.coreThere p t.core) = true := by
    rw [List.any_eq_true]
    rintro ⟨t, hmem, hgone⟩
    rw [hcores t hmem] at hgone
    cases hgone
  rw [hst, hp]
  exact if_neg hthere

/-- What the system handler's reply makes of the fragment on hold: it runs on, its own handler takes the trap, or the context ends (Table 18.2). -/
def State.replied (s : State) (k core slot e cause : Nat) (w : Warp) : Nat → State
  | 0 => (s.modWarp core slot fun w => w.modEntry e fun y => { y with wait := .none, seqd := false, paired := none }).nextHeldTrap core slot
  | 1 => s.enterHandler core slot e w.trap
  | _ => s.endContext k cause .faulted

theorem execReply_held {w : Warp} {e cause n : Nat} (ht : takes s fn 0x15) (h1 : (argOf s fn 1).toNat < 384) (h2 : (argOf s fn 2).toNat < 32)
    (hw : s.warp? (argOf s fn 1).toNat (argOf s fn 2).toNat = some w) (hh : w.holdEntry = some (e, cause)) (hk : s.ctxIdOfTeam w.team = k)
    (h3 : (argOf s fn 3).toNat = n) (hn : n < 256) : execReply fn s =
      .next ((s.replied k (argOf s fn 1).toNat (argOf s fn 2).toNat e cause w n).finishCommand fn .ok []) := by
  refine ctxCommand_ok ht rfl hc ?_
  have hnarrow : narrow 8 (argOf s fn 3) = true := decide_eq_true (by rw [h3]; exact hn)
  have hheld : ((s.warp? (argOf s fn 1).toNat (argOf s fn 2).toNat).bind fun w => (w.holdEntry).map fun e => (w, e)) = some (w, e, cause) := by
    rw [hw, Option.bind_some, hh, Option.map_some]
  dsimp only
  rw [if_neg, hheld]
  · dsimp only
    rw [if_neg (not_not_intro hk), h3]
    match n with
    | 0 => rfl
    | 1 => rfl
    | _ + 2 => rfl
  · simp only [Bool.or_eq_true, decide_eq_true_eq, not_or, Nat.not_le, hnarrow]
    exact ⟨⟨h1, h2⟩, by decide⟩

end

/-! ## Translations, instruction lines and bias (R387, R393) -/

theorem execIcinv_ok {s : State} {fn : Nat} {p : Partition} (ht : takes s fn 0x17) (hfn : fn = 0 ∨ (argOf s fn 0).toNat = fn)
    (hw : (argOf s fn 0).toNat < 256) (hp : s.part? (argOf s fn 0).toNat = some p) : execIcinv fn s = .next (({ s with
      cores := s.cores.map fun x => if p.hives.contains (hiveOfCore x.1) then (x.1, { x.2 with icache := [] }) else x } : State).finishCommand
        fn .ok []) := by
  refine command_ok ht rfl rfl ?_
  have hnarrow : narrow 8 (argOf s fn 0) = true := decide_eq_true hw
  dsimp only
  rw [hnarrow, if_neg (by decide), if_neg (mayName hfn), hp]

/-- The number at which a flip of a page began: its own, or that of the flip that waits already. -/
def State.flipId (s : State) (page : Nat) : Nat := ((s.flips.find? fun f => f.1 == page).map (·.2)).getD s.nextId

/-- A flip of a page has begun. -/
def State.flipBegun (s : State) (page : Nat) : State :=
  if (s.flips.find? fun f => f.1 == page).isSome then s else { s with flips := s.flips ++ [(page, s.flipId page)] }

/-- The flip of a page is over, and what waited goes on. -/
def State.flipEnds (s : State) (page : Nat) : State := ({ s with flips := s.flips.filter fun f => f.1 != page } : State).drainEngine

section
variable {s : State} (ht : takes s 0 0x18) (h0 : (argOf s 0 0).toNat % 4096 = 0) (h0' : (argOf s 0 0).toNat < 2 ^ 39)
  (hres : reservedPa (argOf s 0 0).toNat = false) (h1 : (argOf s 0 1).toNat < 2)
  (hbias : s.isHostBias (argOf s 0 0).toNat ≠ ((argOf s 0 1).toNat == 1)) {page : Nat} (hpage : (argOf s 0 0).toNat / 4096 = page)

include h0 h0' hres h1 hbias in
/-- The checks of function 0's flip of a page to the other bias pass. -/
theorem flip_checked (owned : Bool) (a b c d : Answer) (ho : owned = true) :
    (if decide ((argOf s 0 0).toNat % 4096 ≠ 0) || decide (2 ^ 39 ≤ (argOf s 0 0).toNat) || reservedPa (argOf s 0 0).toNat ||
      !narrow 1 (argOf s 0 1) then a else if !owned then b else if s.isHostBias (argOf s 0 0).toNat == (argOf s 0 1 == 1) then c else d) = d := by
  have hnarrow : narrow 1 (argOf s 0 1) = true := decide_eq_true h1
  have hone : (argOf s 0 1 == 1) = ((argOf s 0 1).toNat == 1) := by
    rw [Bool.eq_iff_iff, beq_iff_eq, beq_iff_eq, ← BitVec.toNat_inj]
    rfl
  rw [h0, hres, hnarrow, decide_eq_false (Nat.not_le.mpr h0'), ho, hone, beq_eq_false_iff_ne.mpr hbias]
  rfl

include ht h0 h0' hres h1 hbias hpage

theorem execFlip_waits (hw : ((s.flipBegun page).pageBusy page (s.flipId page) ||
    (s.flipBegun page).hostInFlight.any fun h => h.1 / 4096 == page) = true) : execFlip 0 s = .next { s.flipBegun page with mboxCur := some 0 } := by
  subst hpage
  exact command_pending ht rfl rfl ((flip_checked h0 h0' hres h1 hbias _ _ _ _ _ rfl).trans (if_pos hw))

variable (hw : ((s.flipBegun page).pageBusy page (s.flipId page) || (s.flipBegun page).hostInFlight.any fun h => h.1 / 4096 == page) = false)
include hw

theorem execFlip_toHost (h : (argOf s 0 1).toNat = 1) : execFlip 0 s = .next ((({ (s.flipBegun page).flushPage page with
    hostBias := page :: (s.flipBegun page).hostBias } : State).flipEnds page).finishCommand 0 .ok []) := by
  subst hpage
  refine command_ok ht rfl rfl ((flip_checked h0 h0' hres h1 hbias _ _ _ _ _ rfl).trans ((if_neg (Bool.eq_false_iff.mp hw)).trans ?_))
  have hone : argOf s 0 1 = 1 := BitVec.eq_of_toNat_eq h
  dsimp only
  rw [if_pos hone]
  rfl

theorem execFlip_toDevice (h : (argOf s 0 1).toNat = 0) : execFlip 0 s = .next ((({ s.flipBegun page with
    hostBias := (s.flipBegun page).hostBias.filter (· ≠ page) } : State).flipEnds page).finishCommand 0 .ok []) := by
  subst hpage
  refine command_ok ht rfl rfl ((flip_checked h0 h0' hres h1 hbias _ _ _ _ _ rfl).trans ((if_neg (Bool.eq_false_iff.mp hw)).trans ?_))
  have hone : ¬ argOf s 0 1 = 1 := fun e => by
    rw [e] at h
    cases h
  dsimp only
  rw [if_neg hone]
  rfl

end

/-- Settles O42, command by command. -/
theorem contextCommands : Obligations.ContextCommands := by
  unfold Obligations.ContextCommands
  intro s s1 fn k c p b a ok fail named
  refine ⟨fun i ht hfn h0 hw hp h1 hq hb hok hi => execCtxcreate_ok ht hfn h0 hw hp h1 hq hb hok hi, execCtxcreate_denied, execCtxcreate_wide,
    fun ht hc => (exec_ctxreset fn s).trans (ctxCommand_ok ht rfl hc rfl), fun ht hc => (exec_ctxreset fn s).trans (ctxCommand_unnamed ht rfl hc),
    fun ht hc hp h1 h2 h2' h3 h3' hq => execQcreate_ok hc ht hp h1 h2 h2' h3 h3' hq, fun ht hc => execPreempt_ok hc ht,
    fun ht hc => execResume_ok hc ht, ?reply,
    fun ht hc => (exec_tlbinv fn s).trans (ctxCommand_ok ht rfl hc rfl), execIcinv_ok, ?flip⟩
  case reply =>
    intro w e cause ht hc h1 h2 hw hh hk
    refine ⟨fun h3 => execReply_held hc ht h1 h2 hw hh hk h3 (by decide), fun h3 => execReply_held hc ht h1 h2 hw hh hk h3 (by decide),
      fun h3 h3' => ?_⟩
    obtain ⟨n, hn⟩ := Nat.exists_eq_add_of_le' h3
    exact execReply_held hc ht h1 h2 hw hh hk hn (hn ▸ h3')
  case flip =>
    intro ht h0 h0' hres h1 hfn hbias
    subst hfn
    exact ⟨execFlip_waits ht h0 h0' hres h1 hbias rfl, execFlip_toHost ht h0 h0' hres h1 hbias rfl, execFlip_toDevice ht h0 h0' hres h1 hbias rfl⟩

end Sys2Proof.Machine
end

section
/-! SUPPORT. What the host does (05 R104; 17 R351, R367; 19 R385 to R388, R402; 20 R410, R414, R416, R417): doorbells, windows, resets of a function,
link training, and reads and writes of device memory. -/

namespace Sys2Proof.Machine
open Sys2Proof.Claims

/-! ## Doorbells and windows (R104, R388, R410, R416, R417) -/

section
variable {s : State} {vf queue : Nat} {tail : Word} {p : Partition} {q : LQueue} (hp : s.part? vf = some p) (hup : s.fnUp vf = true)
  (hn : queue < 16) (hq : p.queues.find? queue = some q)

include hup hn in
/-- The doorbell reaches its queue. -/
theorem doorbell_reached : ¬ (!s.fnUp vf || decide (16 ≤ queue)) = true := by
  rw [hup, decide_eq_false (Nat.not_le.mpr hn)]
  decide

include hp hup hn hq

theorem execLaunchDoorbell_moves (hlo : (q.tail - q.head).toNat ≤ (tail - q.head).toNat) (hhi : (tail - q.head).toNat ≤ 2 ^ q.n) :
    execLaunchDoorbell vf queue tail s = .next (s.modPart vf fun p => { p with queues := p.queues.put queue { q with tail := tail } }) := by
  have hgood : ¬ (decide (2 ^ q.n < (tail - q.head).toNat) || decide ((tail - q.head).toNat < (q.tail - q.head).toNat)) = true := by
    rw [decide_eq_false (Nat.not_lt.mpr hhi), decide_eq_false (Nat.not_lt.mpr hlo)]
    decide
  unfold execLaunchDoorbell
  rw [hp]
  dsimp only
  rw [if_neg (doorbell_reached hup hn), hq]
  exact if_neg hgood

theorem execLaunchDoorbell_overruns (hbad : 2 ^ q.n < (tail - q.head).toNat) :
    execLaunchDoorbell vf queue tail s = .next (s.log vf 0xF3 0 false 8 4 (BitVec.ofNat 64 queue)) := by
  unfold execLaunchDoorbell
  rw [hp]
  dsimp only
  rw [if_neg (doorbell_reached hup hn), hq]
  exact if_pos (by rw [decide_eq_true hbad]; rfl)

end

section
variable {s : State} {fn u : Nat} {v : DWord}

theorem execDumpNow_held (h : s.holdsUnit fn u = true) :
    execDumpNow fn u s = .next (s.writeDumpCtl u (BitVec.ofNat 64 ((s.unit u).dumpCtl + 2 ^ 7))) := congrArg _ (if_pos h)

theorem execDumpNow_unheld (h : s.holdsUnit fn u = false) : execDumpNow fn u s = .next s := congrArg _ (if_neg (Bool.eq_false_iff.mp h))

theorem execCountStopArm_held (h : s.holdsUnit fn u = true) :
    execCountStopArm fn u s = .next (s.writeControl u (BitVec.ofNat 64 ({ s.unit u with arm := true } : TraceUnit).control)) := congrArg _ (if_pos h)

theorem execCountStopArm_unheld (h : s.holdsUnit fn u = false) : execCountStopArm fn u s = .next s := congrArg _ (if_neg (Bool.eq_false_iff.mp h))

theorem execTraceRcountWrite_held (h : s.holdsUnit fn u = true) (hv : v.toNat ≤ (s.unit u).wcount.toNat) :
    execTraceRcountWrite fn u v s = .next (s.modUnit u fun x => { x with rcount := v }) :=
  congrArg _ (if_pos (by rw [h, decide_eq_true hv]; rfl))

theorem execTraceRcountWrite_above (h : (s.unit u).wcount.toNat < v.toNat) : execTraceRcountWrite fn u v s = .next s :=
  congrArg _ (if_neg (by rw [decide_eq_false (Nat.not_le.mpr h), Bool.and_false]; decide))

theorem execTraceRcountWrite_unheld (h : s.holdsUnit fn u = false) : execTraceRcountWrite fn u v s = .next s :=
  congrArg _ (if_neg (by rw [h]; exact Bool.false_ne_true))

theorem execRegisterWrite_down (h : s.fnUp fn = false) (r : HostReg) : execRegisterWrite fn r v s = .next s := if_pos (by rw [h]; rfl)

section
variable (h : s.fnUp fn = true)
include h

/-- The function answers. -/
theorem fnUp_answers : ¬ (!s.fnUp fn) = true := by
  rw [h]
  decide

theorem execRegisterWrite_doorbell_rings (hs : (s.mailbox fn).status ≠ .pending) : execRegisterWrite fn .doorbell v s =
    .next { s.modMailbox fn (fun m => { m with status := .pending }) with mboxOrder := s.mboxOrder ++ [fn] } :=
  (if_neg (fnUp_answers h)).trans (congrArg Host.Outcome.next (if_neg hs))

theorem execRegisterWrite_doorbell_pending (hs : (s.mailbox fn).status = .pending) : execRegisterWrite fn .doorbell v s = .next s :=
  (if_neg (fnUp_answers h)).trans (congrArg Host.Outcome.next (if_pos hs))

theorem execRegisterWrite_mailboxOp : execRegisterWrite fn .mailboxOp v s = .next (s.modMailbox fn fun m => { m with op := v.setWidth 16 }) :=
  if_neg (fnUp_answers h)

theorem execRegisterWrite_mailboxArg (i : Nat) :
    execRegisterWrite fn (.mailboxArg i) v s = .next (s.modMailbox fn fun m => { m with args := m.args.set i v }) := if_neg (fnUp_answers h)

theorem execRegisterWrite_traceStopCnt (hu : s.holdsUnit fn u = true) :
    execRegisterWrite fn (.traceStopCnt u) v s = .next (s.modUnit u fun x => { x with stopcnt := v }) :=
  (if_neg (fnUp_answers h)).trans (congrArg Host.Outcome.next (if_pos hu))

theorem execRegisterWrite_traceDumpBase (hu : s.holdsUnit fn u = true) :
    execRegisterWrite fn (.traceDumpBase u) v s = .next (s.modUnit u fun x => { x with dumpbase := v }) :=
  (if_neg (fnUp_answers h)).trans (congrArg Host.Outcome.next (if_pos hu))

end

end

theorem hostWrites : HostWrites := by
  unfold HostWrites
  intro s fn vf queue u tail v p q
  refine ⟨fun hp hup hn hq => ⟨execLaunchDoorbell_moves hp hup hn hq, execLaunchDoorbell_overruns hp hup hn hq⟩,
    fun h => ⟨execDumpNow_held h, execCountStopArm_held h, execTraceRcountWrite_held h, execTraceRcountWrite_above⟩,
    fun h => ⟨execDumpNow_unheld h, execCountStopArm_unheld h, execTraceRcountWrite_unheld h⟩,
    execRegisterWrite_doorbell_rings (v := v), execRegisterWrite_doorbell_pending (v := v), execRegisterWrite_mailboxOp,
    execRegisterWrite_down, execRegisterWrite_mailboxArg,
    fun hu h => ⟨execRegisterWrite_traceStopCnt h hu, execRegisterWrite_traceDumpBase h hu⟩, fun h1 h64 => ?reset⟩
  case reset =>
    refine if_neg ?_
    simp only [Bool.or_eq_true, decide_eq_true_eq]
    omega

/-! ## Links (R385) -/

section
variable {s : State} {link width rate : Nat}

/-- A link trains to a width and a rate: with both links up the boot ROM goes on. -/
def State.linkTrained (s : State) (link width rate : Nat) : State :=
  let t := { s with links := s.links.set link (width, rate) }
  if s.bootStep = 1 ∧ (∀ l ∈ t.links, l.1 ≠ 0) then { t with bootStep := 3 } else t

/-- A first training, or one that neither widens nor speeds up the link. -/
theorem execLinkTraining_trains (hl : link < 2) (hw : linkWidths.contains width = true) (hr : linkRates.contains rate = true)
    (hold : (s.links.getD link (0, 0)).1 = 0 ∨ width ≤ (s.links.getD link (0, 0)).1 ∧ rate ≤ (s.links.getD link (0, 0)).2) :
    execLinkTraining link width rate s = .next (s.linkTrained link width rate) := by
  refine (if_neg ?_).trans (congrArg Host.Outcome.next (if_congr ?_ rfl rfl))
  · rw [hw, hr]
    simp only [Bool.or_eq_true, Bool.and_eq_true, decide_eq_true_eq, Bool.not_true, Bool.false_eq_true, or_false]
    omega
  · simp only [Bool.and_eq_true, decide_eq_true_eq, List.all_eq_true, bne_iff_ne]

/-- A link that is up never gains by training. -/
theorem execLinkTraining_gains (h0 : (s.links.getD link (0, 0)).1 ≠ 0)
    (h : (s.links.getD link (0, 0)).1 < width ∨ (s.links.getD link (0, 0)).2 < rate) : execLinkTraining link width rate s = .next s := by
  refine if_pos ?_
  simp only [Bool.or_eq_true, Bool.and_eq_true, decide_eq_true_eq]
  exact .inr ⟨h0, h⟩

end

/-! ## Reads and writes of device memory (R351, R367, R386, R387, R414) -/

/-- A run of bytes within one line is one piece. -/
theorem linePieces_line {pa : Nat} {bytes : List Byte} (hb : bytes ≠ []) (h : pa % 64 + bytes.length ≤ 64) : linePieces pa bytes = [(pa, bytes)] := by
  have hlen : 0 < bytes.length := List.length_pos_iff.mpr hb
  have hone : (pa + bytes.length + 63) / 64 - pa / 64 = 1 := by omega
  have hlo : max pa ((pa / 64 + 0) * 64) = pa := by omega
  have hhi : min (pa + bytes.length) ((pa / 64 + 0 + 1) * 64) = pa + bytes.length := by omega
  unfold linePieces
  rw [hone]
  show [_] = _
  simp only [hlo, hhi, Nat.sub_self, List.drop_zero, Nat.add_sub_cancel_left, List.take_length]

section
variable {s : State} {pa n : Nat} {bytes : List Byte}

/-- With no request of its own in flight the host reads the home. -/
theorem State.hostByte_quiet (h : s.hostInFlight = []) (a : Nat) : s.hostByte a = (s.homeWord (a / 4)).1.extractLsb' (8 * (a % 4)) 8 := by
  unfold State.hostByte
  rw [h]
  rfl

section
variable (hup : 6 ≤ s.bootStep ∧ (s.flit 0 = true ∨ s.flit 1 = true))
include hup

/-- The device answers the host. -/
theorem cxlUp : (decide (6 ≤ s.bootStep) && (s.flit 0 || s.flit 1)) = true := by
  simpa only [Bool.and_eq_true, Bool.or_eq_true, decide_eq_true_eq] using hup

section
variable (hn : pa + n ≤ 2 ^ 39) (hd : s.dramHeld pa n = false)
include hn hd

theorem cxlRead_served : ¬ (!(decide (6 ≤ s.bootStep) && (s.flit 0 || s.flit 1)) || decide (2 ^ 39 < pa + n) || s.dramHeld pa n) = true := by
  rw [cxlUp hup, decide_eq_false (Nat.not_lt.mpr hn), hd]
  decide

theorem hostRead_denied {a : Nat} (ha : hostDenied pa n = some a) : execHostCxlMemAccess (.read pa n) s = .next (s.refuseHost a) := by
  refine (if_neg (cxlRead_served hup hn hd)).trans ?_
  rw [ha]

theorem hostRead_answers (ha : hostDenied pa n = none) (hw : ∀ w ∈ wordsOf pa n, (s.homeWord w.1).2 = false) :
    execHostCxlMemAccess (.read pa n) s =
      .next { s.touchRun 0 pa n with hostRead := some ((List.range n).map fun i => s.hostByte (pa + i), 0) } := by
  have hclean : ((wordsOf pa n).any fun w => (s.homeWord w.1).2) = false := List.any_eq_false.mpr fun w hmem => by
    rw [hw w hmem]
    exact Bool.false_ne_true
  refine (if_neg (cxlRead_served hup hn hd)).trans ?_
  rw [ha]
  dsimp only
  rw [hclean]
  rfl

end

section
variable (hn : pa + bytes.length ≤ 2 ^ 39) (hopen : ∀ w ∈ wordsOf pa bytes.length, (s.hearth (stackOfPa (4 * w.1))).compute = false)
include hn hopen

theorem cxlWrite_served : ¬ (!(decide (6 ≤ s.bootStep) && (s.flit 0 || s.flit 1)) || decide (2 ^ 39 < pa + bytes.length) ||
    (wordsOf pa bytes.length).any fun w => (s.hearth (stackOfPa (4 * w.1))).compute) = true := by
  have hclosed : ((wordsOf pa bytes.length).any fun w => (s.hearth (stackOfPa (4 * w.1))).compute) = false :=
    List.any_eq_false.mpr fun w hmem => by
      rw [hopen w hmem]
      exact Bool.false_ne_true
  rw [cxlUp hup, decide_eq_false (Nat.not_lt.mpr hn), hclosed]
  decide

theorem hostWrite_denied {a : Nat} (ha : hostDenied pa bytes.length = some a) :
    execHostCxlMemAccess (.write pa bytes) s = .next (s.refuseHost a) := by
  refine (if_neg (cxlWrite_served hup hn hopen)).trans ?_
  rw [ha]

theorem hostWrite_line (ha : hostDenied pa bytes.length = none) (hb : bytes ≠ []) (h : pa % 64 + bytes.length ≤ 64) :
    execHostCxlMemAccess (.write pa bytes) s = .next (s.hostWriteLine pa bytes) := by
  refine (if_neg (cxlWrite_served hup hn hopen)).trans ?_
  rw [ha]
  dsimp only
  rw [linePieces_line hb h]
  rfl

end

end

theorem execBackInvalidateReissue_closed {line : Nat} (hc : (s.hearth (stackOfPa (64 * line))).compute = true) :
    execBackInvalidateReissue line s = .next s := if_pos hc

/-- The host's one request in flight on the line is performed, and is in flight no more. -/
theorem execBackInvalidateReissue_one {line : Nat} {h : Nat × List Byte} (hc : (s.hearth (stackOfPa (64 * line))).compute = false)
    (hone : (s.hostInFlight.filter fun h => h.1 / 64 == line) = [h]) : execBackInvalidateReissue line s =
      .next { s.hostWrite h.1 h.2 with hostInFlight := s.hostInFlight.filter fun y => y.1 / 64 != line } := by
  refine (if_neg (Bool.eq_false_iff.mp hc)).trans ?_
  rw [hone]
  rfl

end

theorem linksAndHostMemory : LinksAndHostMemory := by
  unfold LinksAndHostMemory
  intro s link width rate pa n line bytes up old
  refine ⟨fun hl hw hr h0 => execLinkTraining_trains hl hw hr (.inl h0), fun hl hw hr _ hw' hr' hb => ?falls, execLinkTraining_gains,
    fun hup hn hd ha hw => ⟨hostRead_answers hup hn hd ha hw, fun h i => State.hostByte_quiet h (pa + i)⟩,
    fun a hup hn hd ha => hostRead_denied hup hn hd ha,
    fun hup hn hopen => ⟨fun a ha => hostWrite_denied hup hn hopen ha, hostWrite_line hup hn hopen⟩,
    fun hc h hone => execBackInvalidateReissue_one hc hone, execBackInvalidateReissue_closed⟩
  case falls =>
    refine (execLinkTraining_trains hl hw hr (.inr ⟨hw', hr'⟩)).trans (congrArg Host.Outcome.next ?_)
    exact if_neg fun h => hb h.1

/-- Settles O45, from the two claims it joins. -/
theorem hostActions : Obligations.HostActions := ⟨hostWrites, linksAndHostMemory⟩

end Sys2Proof.Machine
end

section
/-! SUPPORT. Reads, writes and moves of words leave alone what is no word: the two clocks, and the loads and stores in flight (01 R22; 06 R124). -/

namespace Sys2Proof.Machine

/-- What no word of the memory system belongs to: the clocks, and the loads and stores in flight. -/
def State.outside (s : State) : DWord × Nat × Tab Load × Tab Store := (s.vclock, s.dclk, s.loads, s.stores)

/-- Changes in a row that each leave it alone leave it alone. -/
theorem State.each_outside {α : Type} {f : State → α → State} (hf : ∀ s a, (f s a).outside = s.outside) (s : State) (l : List α) :
    (s.each l f).outside = s.outside := State.each_keeps State.outside hf s l

/-- Either branch of a condition leaves it alone. -/
theorem State.outside_ite {c : Prop} {_ : Decidable c} {s t u : State} (ht : t.outside = s.outside) (hu : u.outside = s.outside) :
    (if c then t else u).outside = s.outside := by
  split <;> assumption

section
variable (s : State)

/-! ## Words at their homes -/

@[simp] theorem State.countRes_outside (vf kind index code : Nat) : (s.countRes vf kind index code).outside = s.outside := rfl
@[simp] theorem State.setDram_outside (wa : Nat) (d : Word) (p : Bool) : (s.setDram wa d p).outside = s.outside := rfl
@[simp] theorem State.pushWrite_outside (wa : Nat) (d : Word) (p : Bool) : (s.pushWrite wa d p).outside = s.outside := rfl

@[simp] theorem State.noteUndo_outside (wa : Nat) : (s.noteUndo wa).outside = s.outside := by
  unfold State.noteUndo
  split
  · rfl
  · exact State.outside_ite rfl rfl

/-- A change of the elision table. -/
theorem State.outside_withElision (t : State) (e : Tab Word) : ({ t with elision := e } : State).outside = t.outside := rfl

@[simp] theorem State.materialise_outside (row : Nat) : (s.materialise row).outside = s.outside := by
  unfold State.materialise
  split
  · rfl
  · exact (State.outside_withElision _ _).trans (State.each_outside (fun s i => State.setDram_outside s _ _ _) s _)

@[simp] theorem State.l2Evict_outside (frame : Nat) : (s.l2Evict frame).outside = s.outside := by
  have h (l : List Nat) : (s.each l fun s w => s.pushWrite w (s.homeWord w).1 (s.homeWord w).2).outside = s.outside :=
    State.each_outside (fun s w => State.pushWrite_outside s _ _ _) s l
  exact h _

@[simp] theorem State.l2Trim_outside (frame n : Nat) : (s.l2Trim frame n).outside = s.outside := by
  induction n generalizing s with
  | zero => rfl
  | succ n ih =>
    unfold State.l2Trim
    split
    · rfl
    · split
      · exact State.l2Evict_outside s frame
      · exact (ih _).trans (State.l2Evict_outside _ _)

@[simp] theorem State.l2Put_outside (wa : Nat) (x : L2Word) : (s.l2Put wa x).outside = s.outside := State.l2Trim_outside _ _ _

@[simp] theorem State.syncOut_outside (wa : Nat) : (s.syncOut wa).outside = s.outside := by
  unfold State.syncOut
  split
  · rfl
  · exact State.outside_ite rfl (State.l2Put_outside _ _ _)

/-- A change of what the engines' SRAM holds. -/
theorem State.outside_withSync (t : State) (x : Tab SyncWord) : ({ t with sync := x } : State).outside = t.outside := rfl

@[simp] theorem State.syncPut_outside (wa : Nat) (x : SyncWord) : (s.syncPut wa x).outside = s.outside := by
  unfold State.syncPut
  extract_lets others t
  have ht : t.outside = s.outside := by
    refine State.outside_ite rfl ?_
    split
    · rfl
    · exact State.syncOut_outside _ _
  exact ht

@[simp] theorem State.bringIn_outside (wa : Nat) : (s.bringIn wa).outside = s.outside :=
  State.outside_ite rfl (State.syncPut_outside _ _ _)

@[simp] theorem State.migrate_outside (wa : Nat) : (s.migrate wa).outside = s.outside := by
  unfold State.migrate
  extract_lets t
  have ht : t.outside = s.outside := (State.bringIn_outside _ _).trans (State.materialise_outside _ _)
  split
  · exact ht
  · exact (State.syncPut_outside _ _ _).trans ht

@[simp] theorem State.migrateRun_outside (pa n : Nat) : (s.migrateRun pa n).outside = s.outside :=
  State.each_outside (fun s _ => State.migrate_outside s _) s _

@[simp] theorem State.bringSync_outside (vf pa n : Nat) : (s.bringSync vf pa n).outside = s.outside := by
  refine State.each_outside (fun s w => ?_) s _
  split
  · exact (State.outside_withSync _ _).trans (State.migrate_outside s w.1)
  · rfl

@[simp] theorem State.homeWrite_outside (wa : Nat) (d : Word) (m : BitVec 4) (rel : List RelInfo) (a : Bool) :
    (s.homeWrite wa d m rel a).1.outside = s.outside := by
  unfold State.homeWrite
  extract_lets +onlyGivenNames t cur
  have ht : t.outside = s.outside := by simp [t]
  clear_value t
  split
  · exact ht
  · extract_lets +onlyGivenNames released u
    have hu : u.outside = s.outside := ht
    clear_value u
    split
    · exact hu
    · exact (State.l2Put_outside _ _ _).trans hu

@[simp] theorem State.flushBias_outside (pa n : Nat) : (s.flushBias pa n).outside = s.outside := by
  refine State.each_outside (fun s w => ?_) s _
  split
  · rfl
  · next x _ => exact State.outside_ite (c := x.dirty = 0) (s := s) rfl (State.pushWrite_outside s _ _ _)

/-! ## Records and logs -/

@[simp] theorem State.putRecord_outside (pa : Nat) (b : List Byte) : (s.putRecord pa b).outside = s.outside :=
  (State.flushBias_outside _ _ _).trans (State.each_outside (fun s _ => State.homeWrite_outside s _ _ _ _ _) s _)

@[simp] theorem State.recordWrite_outside (vf pa : Nat) (b : List Byte) : (s.recordWrite vf pa b).outside = s.outside := by
  refine State.each_outside (fun s i => ?_) s _
  dsimp only
  split
  · rfl
  · exact State.putRecord_outside s _ _

@[simp] theorem State.logMgmt_outside (r : LogRec) : (s.logMgmt r).outside = s.outside := by
  unfold State.logMgmt
  split
  · rfl
  · exact State.countRes_outside s 0 23 0xFF 7

@[simp] theorem State.ringAppend_outside (vf : Nat) (g : LogRing) (r : LogRec) : (s.ringAppend vf g r).1.outside = s.outside := by
  unfold State.ringAppend
  extract_lets pa r'
  split
  · rfl
  · split
    · exact State.logMgmt_outside _ _
    · exact State.recordWrite_outside _ _ _ _

@[simp] theorem State.logHv_outside (r : LogRec) : (s.logHv r).outside = s.outside := by
  unfold State.logHv
  split
  · rfl
  · exact State.ringAppend_outside _ _ _ _

@[simp] theorem State.logPart_outside (vf : Nat) (r : LogRec) : (s.logPart vf r).outside = s.outside := by
  unfold State.logPart
  split
  · rfl
  · exact State.ringAppend_outside _ _ _ _

@[simp] theorem State.log_outside (vf c : Nat) (a : DWord) (v : Bool) (k i : Nat) (d : DWord) : (s.log vf c a v k i d).outside = s.outside :=
  State.outside_ite (by simp) (State.logMgmt_outside _ _)

@[simp] theorem State.logPhys_outside (vf c pa : Nat) (va : Option DWord) (k i : Nat) (d : DWord) :
    (s.logPhys vf c pa va k i d).outside = s.outside :=
  State.outside_ite (by simp) (State.logMgmt_outside _ _)

/-! ## Reads of words and walks -/

@[simp] theorem State.hearthRead_outside (vf wa : Nat) : (s.hearthRead vf wa).2.2.outside = s.outside := by
  unfold State.hearthRead
  extract_lets stack v r
  split
  · rfl
  · split
    · exact State.logPhys_outside _ _ _ _ _ _ _ _
    · split <;> rfl

@[simp] theorem State.touch_outside (vf wa : Nat) : (s.touch vf wa).outside = s.outside := by
  unfold State.touch
  extract_lets t
  have ht : t.outside = s.outside := State.outside_ite (by simp) rfl
  clear_value t
  rw [← ht]
  split
  · next x _ => exact State.outside_ite (c := x.err = 0) rfl (State.outside_ite (c := x.err = 1) (State.countRes_outside t _ _ _ _) rfl)
  · next u _ _ =>
    have hu : u.outside = t.outside := by
      unfold u
      split
      · next x _ => exact State.outside_ite (c := x.err = 0) rfl (State.outside_ite (c := x.err = 1) (State.countRes_outside t _ _ _ _) rfl)
      · rfl
    exact State.outside_ite ((State.hearthRead_outside _ _ _).trans hu) hu

@[simp] theorem State.countReads_outside (vf : Nat) (was : List Nat) : (s.countReads vf was).outside = s.outside := by
  have h (code : Nat) (s : State) (l : List Nat) : (s.each l fun s _ => s.countPerf vf code).outside = s.outside :=
    State.each_outside (fun s _ => (rfl : (s.countPerf vf code).outside = s.outside)) s l
  exact (h 10 _ _).trans (h 11 s was)

@[simp] theorem State.touchRun_outside (vf pa n : Nat) : (s.touchRun vf pa n).outside = s.outside :=
  (State.each_outside (fun s _ => State.touch_outside s _ _) _ _).trans (State.countReads_outside _ _ _)

@[simp] theorem State.walked_outside (die ctx : Nat) (va : DWord) : (s.walked die ctx va).outside = s.outside := by
  unfold State.walked
  extract_lets path vf t new
  have ht : t.outside = s.outside := State.each_outside (fun s _ => State.touchRun_outside s _ _ _) s _
  exact State.outside_ite ht ht

@[simp] theorem State.homeWriteLogged_outside (vf wa : Nat) (d : Word) (m : BitVec 4) (rel : List RelInfo) (a : Bool) (src : LogSrc) :
    (s.homeWriteLogged vf wa d m rel a src).outside = s.outside :=
  State.outside_ite (by simp) (by simp)

theorem State.writePhys_outside {t : State} {vf pa : Nat} {b : List Byte} {rel : List RelInfo} {src : LogSrc}
    (h : s.writePhys vf pa b rel src = .ok t) : t.outside = s.outside := by
  unfold State.writePhys at h
  extract_lets ws at h
  split at h
  · cases h
  · cases h
    exact (State.flushBias_outside _ _ _).trans (State.each_outside (fun s _ => State.homeWriteLogged_outside s _ _ _ _ _ _ _) s _)

@[simp] theorem State.writeVirt_outside (die ctx vf : Nat) (va : DWord) (b : List Byte) (rel : List RelInfo) (src : LogSrc) :
    (s.writeVirt die ctx vf va b rel src).2.outside = s.outside := by
  refine foldl_keeps State.outside (fun r p => ?_) _ _
  split
  · rfl
  · extract_lets +onlyGivenNames t va1 w
    have hw : w.outside = t.outside := State.walked_outside _ _ _ _
    split
    · exact hw
    · extract_lets +onlyGivenNames part
      split
      · exact hw
      · extract_lets +onlyGivenNames v
        have hv : v.outside = t.outside := State.outside_ite ((State.bringSync_outside _ _ _ _).trans hw) hw
        refine (foldl_keeps State.outside (fun r pa => ?_) _ _).trans hv
        split
        · rfl
        · exact State.writePhys_outside _ ‹_›

end

end Sys2Proof.Machine
end

section
/-! SUPPORT. A tick of VCLOCK, and of the DRAM command clock twice: whatever the watchdogs, the samplers and the banks of that tick do, neither
clock is moved by them (01 R22; 06 R130). -/

namespace Sys2Proof.Machine

section
variable (s : State)

/-! ## Counters and what waits at the engines (R125, R126) -/

@[simp] theorem State.atomicWrite8_outside (vf pa x : Nat) (rel : List RelInfo) : (s.atomicWrite8 vf pa x rel).outside = s.outside :=
  (State.each_outside (fun s _ => State.homeWriteLogged_outside s _ _ _ _ _ _ _) _ _).trans (State.migrateRun_outside _ _ _)

@[simp] theorem State.applyCounter_outside (q : CounterReq) : (s.applyCounter q).outside = s.outside := by
  unfold State.applyCounter
  split
  · exact State.putRecord_outside _ _ _
  · extract_lets w
    have hw : w.outside = s.outside := State.outside_ite rfl (State.walked_outside _ _ _ _)
    clear_value w
    split
    · exact (State.log_outside _ _ _ _ _ _ _ _).trans hw
    · exact (State.logPhys_outside _ _ _ _ _ _ _ _).trans ((State.touchRun_outside _ _ _ _).trans hw)
    · extract_lets pa v
      have hv : v.outside = s.outside :=
        (State.touchRun_outside _ _ _ _).trans (State.outside_ite ((State.bringSync_outside _ _ _ _).trans hw) hw)
      clear_value v
      split
      · exact (State.atomicWrite8_outside _ _ _ _ _).trans hv
      · exact (State.atomicWrite8_outside _ _ _ _ _).trans hv
      · exact (State.atomicWrite8_outside _ _ _ _ _).trans hv
      · exact hv

@[simp] theorem State.counterUpdate_outside (q : CounterReq) : (s.counterUpdate q).outside = s.outside :=
  State.outside_ite rfl (State.applyCounter_outside _ _)

@[simp] theorem State.drainEngine_outside : s.drainEngine.outside = s.outside :=
  State.each_outside State.counterUpdate_outside { s with engineQ := [] } s.engineQ

@[simp] theorem State.endUpdate_outside (ctx vf : Nat) (counter : DWord) (op : CounterOp) (by_ : RelInfo) :
    (s.endUpdate ctx vf counter op by_).outside = s.outside := by
  unfold State.endUpdate
  extract_lets q
  split
  · exact State.counterUpdate_outside _ _
  · exact (State.counterUpdate_outside _ _).trans (State.outside_ite (State.bringSync_outside _ _ _ _) rfl)

@[simp] theorem State.ewKilled_outside (ctx vf : Nat) (counter : DWord) : (s.ewKilled ctx vf counter).outside = s.outside :=
  State.counterUpdate_outside _ _

/-! ## What a context ends (R370) -/

@[simp] theorem State.dump_outside (unit vf ctx cause : Nat) : (s.dump unit vf ctx cause).outside = s.outside := by
  unfold State.dump
  extract_lets u
  split
  · exact State.log_outside _ _ _ _ _ _ _ _
  · extract_lets seq nonce body hdr out
    exact State.outside_ite rfl (State.outside_ite (State.logPhys_outside _ _ _ _ _ _ _ _) (State.recordWrite_outside _ _ _ _))

@[simp] theorem State.releaseComb_outside (team : Nat) (t : Team) : (s.releaseComb team t).outside = s.outside := rfl

@[simp] theorem State.releaseSolo_outside (vf : Nat) (p : Nat × Nat × Nat → Bool) : (s.releaseSolo vf p).outside = s.outside :=
  State.drainEngine_outside _

@[simp] theorem State.modTile_outside (core k : Nat) (f : Tile → Tile) : (s.modTile core k f).outside = s.outside := rfl

@[simp] theorem State.handTile_outside (core tile team ctx : Nat) : (s.handTile core tile team ctx).outside = s.outside := rfl

@[simp] theorem State.noteGone_outside (core slot : Nat) : (s.noteGone core slot).outside = s.outside := by
  unfold State.noteGone
  split <;> rfl

@[simp] theorem State.closeRows_outside (k : Nat) (banks : List Nat) : (s.closeRows k banks).outside = s.outside := by
  refine State.each_outside (fun s b => State.each_outside (fun s sl => ?_) s _) s banks
  extract_lets ix
  split
  · rfl
  · exact State.outside_ite rfl rfl

@[simp] theorem State.killStove_outside (k : Nat) : (s.killStove k).outside = s.outside := by
  unfold State.killStove
  extract_lets +onlyGivenNames x closed src u
  have hu : u.outside = s.outside := State.closeRows_outside _ _ _
  split
  · exact hu
  · exact (State.ewKilled_outside _ _ _ _).trans hu

end

/-! ## The clocks -/

/-- VCLOCK and the DRAM command clock. -/
def State.clocks (s : State) : DWord × Nat := (s.vclock, s.dclk)

theorem State.clocks_of_outside {s t : State} (h : t.outside = s.outside) : t.clocks = s.clocks :=
  congrArg (fun o : DWord × Nat × Tab Load × Tab Store => (o.1, o.2.1)) h

/-- A state that differs from `s` elsewhere. -/
theorem State.clocks_with {s t : State} (hv : t.vclock = s.vclock) (hd : t.dclk = s.dclk) : t.clocks = s.clocks := by
  unfold State.clocks
  rw [hv, hd]

theorem State.each_clocks {α : Type} {f : State → α → State} (hf : ∀ s a, (f s a).clocks = s.clocks) (s : State) (l : List α) :
    (s.each l f).clocks = s.clocks := State.each_keeps State.clocks hf s l

theorem State.clocks_ite {c : Prop} {_ : Decidable c} {s t u : State} (ht : t.clocks = s.clocks) (hu : u.clocks = s.clocks) :
    (if c then t else u).clocks = s.clocks := by
  split <;> assumption

section
variable (s : State)

/-- A reading that no change of the parts a leaving team touches alters is kept when a team leaves. -/
theorem State.removeTeam_keeps {β : Type} (p : State → β)
    (hp : ∀ (s : State) stores warps stalls teams, p { s with stores := stores, warps := warps, stalls := stalls, teams := teams } = p s)
    (hgone : ∀ (s : State) core k, p (s.noteGone core k) = p s) (hcomb : ∀ (s : State) team t, p (s.releaseComb team t) = p s)
    (htile : ∀ (s : State) core k f, p (s.modTile core k f) = p s) (team : Nat) (t : Team) : p (s.removeTeam team t) = p s := by
  unfold State.removeTeam
  extract_lets +onlyGivenNames core u v w
  calc p _ = p w := hp w _ _ _ _
    _ = p v := State.each_keeps p (fun s _ => htile s _ _ _) v _
    _ = p u := hcomb _ _ _
    _ = p s := State.each_keeps p (fun s _ => hgone s _ _) s _

/-- A team that leaves takes the comb stores that are held for it along, but no time. -/
@[simp] theorem State.removeTeam_clocks (team : Nat) (t : Team) : (s.removeTeam team t).clocks = s.clocks :=
  State.removeTeam_keeps s State.clocks (fun _ _ _ _ _ => rfl) (fun s _ _ => State.clocks_of_outside (State.noteGone_outside s _ _))
    (fun _ _ _ => rfl) (fun _ _ _ _ => rfl) team t

@[simp] theorem State.endContext_clocks (ctx cause : Nat) (st : CtxState) : (s.endContext ctx cause st).clocks = s.clocks := by
  unfold State.endContext
  split
  · rfl
  · next c _ =>
    extract_lets s1 s2 ts gs left ours claims mine s3 s4 s5 s6 s7 s8 s9
    have h2 : s2.clocks = s.clocks := by
      refine State.clocks_ite (c := (st != .faulted) = true) rfl (State.each_clocks (fun s u => ?_) s1 _)
      split
      · exact State.clocks_of_outside (State.dump_outside s _ _ _ _)
      · rfl
    have h3 : s3.clocks = s2.clocks := State.clocks_with rfl rfl
    clear_value s3
    have h4 : s4.clocks = s3.clocks := State.each_clocks (fun s k => State.clocks_of_outside (State.killStove_outside s k)) s3 _
    have h5 : s5.clocks = s4.clocks := State.each_clocks (fun s _ => State.removeTeam_clocks s _ _) s4 ts
    have h6 : s6.clocks = s5.clocks := State.each_clocks (fun s _ => State.clocks_of_outside (State.handTile_outside s _ _ _ _)) s5 claims
    have h8 : s8.clocks = s6.clocks := State.clocks_of_outside (State.releaseSolo_outside s7 _ _)
    have h9 : s9.clocks = s8.clocks := by
      refine State.each_clocks (fun s g => ?_) s8 gs
      split
      · rfl
      · exact State.clocks_of_outside ((State.endUpdate_outside _ _ _ _ _ _).trans (State.endUpdate_outside s _ _ _ _ _))
    calc s9.clocks = s8.clocks := h9
      _ = s6.clocks := h8
      _ = s5.clocks := h6
      _ = s4.clocks := h5
      _ = s3.clocks := h4
      _ = s2.clocks := h3
      _ = s.clocks := h2

/-! ## What happens at a tick (R127, R131, R430) -/

@[simp] theorem State.fireWatchdog_clocks (ctx : Nat) : (s.fireWatchdog ctx).clocks = s.clocks := by
  unfold State.fireWatchdog
  split
  · next ix bar rest c _ _ =>
    split
    · next t g _ _ =>
      extract_lets core die wr u v
      have hwr : (wr.getD s).clocks = s.clocks := by
        unfold wr
        split
        · split
          · next w hw => 
            exact State.clocks_of_outside ((congrArg (fun r => r.2.outside) hw).symm.trans (State.writeVirt_outside s _ _ _ _ _ _ _))
          · rfl
        · rfl
      have hu : u.clocks = s.clocks := (State.clocks_of_outside (State.log_outside _ _ _ _ _ _ _ _)).trans hwr
      have hv : v.clocks = s.clocks :=
        (State.each_clocks (fun s y => State.clocks_of_outside (State.log_outside s _ _ _ _ _ _ _)) u rest).trans hu
      exact (State.endContext_clocks _ _ _ _).trans hv
    · rfl
  · rfl

@[simp] theorem State.tickBarriers_clocks : s.tickBarriers.clocks = s.clocks := by
  unfold State.tickBarriers
  extract_lets +onlyGivenNames fired
  have hfired : fired.clocks = s.clocks := by
    refine State.each_clocks (fun s k => ?_) s _
    split
    · rfl
    · exact State.fireWatchdog_clocks s k
  clear_value fired
  exact hfired

@[simp] theorem State.tickSamples_clocks : s.tickSamples.clocks = s.clocks := by
  refine State.clocks_ite (State.each_clocks (fun s core => ?_) s _) rfl
  split <;> rfl

@[simp] theorem State.activateBank_clocks (stack ch slice bank : Nat) : (s.activateBank stack ch slice bank).clocks = s.clocks := by
  unfold State.activateBank
  extract_lets ix
  split
  · rfl
  · next r _ _ =>
    refine State.clocks_ite rfl (State.clocks_ite rfl ?_)
    extract_lets t
    exact State.clocks_ite rfl (State.clocks_of_outside (State.logPhys_outside t _ _ _ _ _ _ _))

@[simp] theorem State.prechargeBank_clocks (stack ch slice bank : Nat) : (s.prechargeBank stack ch slice bank).clocks = s.clocks := by
  unfold State.prechargeBank
  extract_lets ix
  split
  · rfl
  · exact State.clocks_ite rfl rfl

@[simp] theorem State.bankTurns_clocks : s.bankTurns.clocks = s.clocks :=
  (State.each_clocks (fun s _ => State.activateBank_clocks s _ _ _ _) _ _).trans (State.each_clocks (fun s _ => State.prechargeBank_clocks s _ _ _ _) s _)

end

/-- Settles O58: the turns of the watchdogs, samplers and banks come first and move neither clock. -/
theorem clockTick : Obligations.ClockTick := by
  unfold Obligations.ClockTick
  intro s hp
  have hturns : s.tickBarriers.tickSamples.bankTurns.clocks = s.clocks := by simp
  obtain ⟨hv, hd⟩ := Prod.mk.inj hturns
  refine ⟨_, (exec_vclockTick s).trans (if_neg (by simp [hp])), congrArg (· + 1) hv, congrArg (· + 2) hd⟩

end Sys2Proof.Machine
end

section
/-! SUPPORT. Stores at issue (06 R124; 13 R272, R273, R275; 16 R347): what the store counter and L1 have room for is queued, and the rest stalls. -/

namespace Sys2Proof.Machine

/-! ## Stores that never stall (assumption 87) -/

theorem State.loads_of_outside {s t : State} (h : t.outside = s.outside) : t.loads = s.loads :=
  congrArg (fun o : DWord × Nat × Tab Load × Tab Store => o.2.2.1) h

theorem State.stores_of_outside {s t : State} (h : t.outside = s.outside) : t.stores = s.stores :=
  congrArg (fun o : DWord × Nat × Tab Load × Tab Store => o.2.2.2) h

@[simp] theorem State.bringLanes_outside (s : State) (vf : Nat) (l : List (Nat × Parts)) : (s.bringLanes vf l).outside = s.outside := by
  refine State.each_outside (fun s y => State.each_outside (fun s p => ?_) s y.2) s l
  split
  · exact State.bringSync_outside s _ _ _
  · rfl

theorem State.l1Room_outside {s t : State} {core frame : Nat} (h : s.l1Room core frame = some t) : t.outside = s.outside := by
  unfold State.l1Room at h
  extract_lets c l at h
  split at h
  · cases h; rfl
  · split at h
    · cases h
    · cases h; rfl

/-- Stores have been issued so far, and the loads in flight are those of `s`. -/
def StoresOn (s : State) (o : Option State) : Prop := ∃ t, o = some t ∧ t.loads = s.loads

theorem StoresOn.isSome {s : State} {o : Option State} (h : StoresOn s o) : o.isSome = true := by
  obtain ⟨t, rfl, -⟩ := h
  rfl

theorem StoresOn.map {s : State} {o : Option State} {f : State → State} (hf : ∀ t, (f t).loads = t.loads) (h : StoresOn s o) : StoresOn s (o.map f) := by
  obtain ⟨t, rfl, ht⟩ := h
  exact ⟨f t, rfl, (hf t).trans ht⟩

/-- Steps that can each be taken can be taken in a row. -/
theorem StoresOn.foldl {α : Type} {s : State} {f : Option State → α → Option State} (hf : ∀ a t, t.loads = s.loads → StoresOn s (f (some t) a))
    (l : List α) {o : Option State} (h : StoresOn s o) : StoresOn s (l.foldl f o) := by
  induction l generalizing o with
  | nil => exact h
  | cons a l ih =>
    obtain ⟨t, rfl, ht⟩ := h
    exact ih (hf a t ht)

/-- Bytes that L1 has no room for are not kept, where that is forced. -/
theorem State.keepRun_forced (s : State) (x : Ctx) (r : StoreRun) (hint : Nat) (rel : List RelInfo) : StoresOn s (s.keepRun x r hint rel true) := by
  refine StoresOn.foldl (fun w t ht => ?_) _ ⟨s, rfl, rfl⟩
  dsimp only [Option.bind_some]
  cases hroom : t.l1Room x.core (w.1 / 64) with
  | none => exact ⟨t, rfl, ht⟩
  | some u => exact ⟨_, rfl, (State.loads_of_outside (State.l1Room_outside hroom)).trans ht⟩

/-- A core without a load in flight has none that a store meets. -/
theorem State.loadsMeet_of_none {s : State} {core : Nat} (h : ∀ y ∈ s.loads, y.2.core ≠ core) (a n : Nat) : s.loadsMeet core a n = false := by
  unfold State.loadsMeet
  rw [List.any_eq_false]
  intro l hl
  simp [h l hl]

section
variable {s : State} {x : Ctx} (hs : ∀ y ∈ s.stores, y.2.core ≠ x.core) (hl : ∀ y ∈ s.loads, y.2.core ≠ x.core) (way : StoreWay)
  (runs : List StoreRun) (rel : Nat → List RelInfo)
include hs hl

theorem State.sendStores_isSome : (s.sendStores x way runs rel).isSome = true := by
  have hforce : (!(s.stores.any fun y => y.2.core == x.core)) = true := by
    rw [Bool.not_eq_true', List.any_eq_false]
    exact fun y hy => by simpa using hs y hy
  unfold State.sendStores
  simp only [hforce]
  rw [Option.isSome_map]
  refine (StoresOn.foldl (s := s) (fun r t ht => ?_) runs ⟨s, rfl, rfl⟩).isSome
  have hmeet : t.loadsMeet x.core (r.place.tagged + r.off) r.bytes.length = false := State.loadsMeet_of_none (ht ▸ hl) _ _
  dsimp only [Option.bind_some]
  rw [if_neg (Bool.eq_false_iff.mp hmeet)]
  refine StoresOn.map (fun _ => rfl) ?_
  split
  · exact ⟨t, rfl, ht⟩
  · obtain ⟨u, hu, hut⟩ := State.keepRun_forced t x r way.hint (rel r.thread)
    exact ⟨u, hu, hut.trans ht⟩

theorem State.issueStores_isSome (glob : Bool) : (s.issueStores x glob way runs rel).isSome = true := by
  unfold State.issueStores
  split
  · exact State.sendStores_isSome hs hl way runs rel
  · extract_lets t
    split
    · exact State.sendStores_isSome (s := t) hs hl way runs rel
    · have hmeet : ¬ (runs.any fun r => t.loadsMeet x.core (r.place.tagged + r.off) r.bytes.length) = true := by
        rw [Bool.not_eq_true, List.any_eq_false]
        exact fun r _ => Bool.eq_false_iff.mp (State.loadsMeet_of_none (s := t) hl _ _)
      rw [if_neg hmeet]
      rfl

end

/-! ## What the shared store comes to (R272) -/

/-- The runs that a store instruction's lanes keep. -/
def Ctx.runs (x : Ctx) (b : MBody) (l : List (Nat × Parts)) (va : Nat → DWord) : List StoreRun := storeRuns va (x.groupBytes b.d (memBytes b)) l

/-- Their issue, a release at a scope, from the state that the lanes' checks leave. -/
def Ctx.issuedStores (x : Ctx) (h : Hdr) (b : MBody) (s : State) (l : List (Nat × Parts)) (va : Nat → DWord) (scope : Nat) : Option State :=
  (s.bringLanes x.vf l).issueStores x (memSpace b == 0) ⟨h.hint.toNat, memSpace b == 3⟩ (x.runs b l va) fun t =>
    s.releaseInfo x.core x.slot t scope

section
variable {s s1 s2 : State} {h : Hdr} {b : MBody} {x : Ctx} {l : List (Nat × Parts)} {va : Nat → DWord} {scope : Nat} (hf : x.f.hdr = h) (hl : l ≠ [])
include hf hl

theorem storeLanes_issued (hroom : x.w.cntStore + (x.runs b l va).length ≤ 1023) (hi : x.issuedStores h b s1 l va scope = some s2) :
    storeLanes x s1 b l va scope = some (s2.noteRelease x.core x.slot scope) := by
  subst hf
  have hne : ¬ l.isEmpty = true := by rwa [List.isEmpty_iff]
  refine (if_neg hne).trans ((if_neg (Nat.not_lt.mpr hroom)).trans ?_)
  exact congrArg (Option.map _) hi

omit hf in
theorem storeLanes_counterFull (hroom : ¬ x.w.cntStore + (x.runs b l va).length ≤ 1023) : storeLanes x s1 b l va scope = none := by
  have hne : ¬ l.isEmpty = true := by rwa [List.isEmpty_iff]
  exact (if_neg hne).trans (if_pos (Nat.lt_of_not_le hroom))

theorem storeLanes_noRoom (hi : x.issuedStores h b s1 l va scope = none) : storeLanes x s1 b l va scope = none := by
  subst hf
  have hne : ¬ l.isEmpty = true := by rwa [List.isEmpty_iff]
  refine (if_neg hne).trans ?_
  split
  · rfl
  · exact congrArg (Option.map _) hi

/-- What a store whose lanes pass comes to, given what the shared store comes to: it completes, or stalls without the counter's or L1's room. -/
theorem storeOutcomes {i : Instr} (hdone : ∀ t, storeLanes x s1 b l va scope = some t → exec i s = .next (t.completed x))
    (hstall : storeLanes x s1 b l va scope = none → exec i s = .next s.taken) :
    (x.w.cntStore + (x.runs b l va).length ≤ 1023 → x.issuedStores h b s1 l va scope = some s2 →
      exec i s = .next ((s2.noteRelease x.core x.slot scope).completed x)) ∧
    (¬ x.w.cntStore + (x.runs b l va).length ≤ 1023 → exec i s = .next s.taken) ∧ (x.issuedStores h b s1 l va scope = none → exec i s = .next s.taken) :=
  ⟨fun hroom hi => hdone _ (storeLanes_issued hf hl hroom hi), fun hroom => hstall (storeLanes_counterFull hl hroom),
    fun hi => hstall (storeLanes_noRoom hf hl hi)⟩

end

/-! ## At issue -/

/-- The header that a ready fragment issues is that of its instruction. -/
theorem Ready.hdr_eq {i : Instr} {s : State} {x : Ctx} (hr : Ready i s x) : x.f.hdr = (form i).hdr := by rw [hr.form_eq]

/-- The scope of the release that a store makes; 0 where it makes none. -/
def releaseScope (b : MBody) : Nat := if ctlKind b = 2 then ctlScope b else 0

/-- A store that is no release past the core, or whose store counter is at 0, need not wait for it. -/
theorem releaseFree {b : MBody} {x : Ctx} (hs : 3 ≤ releaseScope b → x.w.cntStore = 0) :
    ¬ (decide (3 ≤ releaseScope b) && x.act != 0 && x.w.cntStore != 0) = true := by
  simp only [Bool.and_eq_true, decide_eq_true_eq, bne_iff_ne]
  rintro ⟨⟨h3, -⟩, hn⟩
  exact hn (hs h3)

/-- Without a transactional lane nothing is busy, and nothing enters a set. -/
theorem Ctx.txBusy_nil (x : Ctx) (s : State) (va : Nat → DWord) (n : Nat) : ¬ x.txBusy s va n [] = true := by
  unfold Ctx.txBusy
  exact Bool.false_ne_true

theorem Ctx.txLanes_nil (x : Ctx) (s : State) (va : Nat → DWord) (n : Nat) (bytes : Nat → Option (List Byte)) : x.txLanes s va n [] bytes = ([], s) := rfl

section
variable {s s1 : State} {h : Hdr} {b : MBody} {x : Ctx} {l : List (Nat × Parts)} {t : State}

theorem issue_stall {i : Instr} {eff : Ctx → State → Eff} (hr : Ready i s x) (he : eff x s.taken = .stall t) : issue i s eff = .next t := by
  rw [issue_ready hr, he]
  rfl

section
variable (hr : Ready (.st h b) s x) (ht : x.w.inTx x.act = 0)
  (hc : checkLanes s.taken x.threads (fun t s => x.globalLane (x.ea b t) (memBytes b) .write false s) (x.ea b) = (.ok l, s1))
include hr ht hc

/-- A release past the core waits for the store counter. -/
theorem execSt_waits (ha : x.act ≠ 0) (hs : 3 ≤ releaseScope b) (hn : x.w.cntStore ≠ 0) :
    execSt h b s = .next (s.taken.waitIn x x.entry .fence) := by
  have hguard : (decide (3 ≤ releaseScope b) && x.act != 0 && x.w.cntStore != 0) = true := by
    rw [decide_eq_true hs, bne_iff_ne.mpr ha, bne_iff_ne.mpr hn]
    rfl
  refine issue_wait hr ?_
  simp only [Ctx.txSplit_of_closed ht, hc, beq_iff_eq]
  exact if_pos hguard

variable (hs : 3 ≤ releaseScope b → x.w.cntStore = 0)
include hs

theorem execSt_issues (hi : storeLanes x s1 b l (x.ea b) (releaseScope b) = some t) : execSt h b s = .next (t.completed x) := by
  refine issue_done hr ?_
  simp only [Ctx.txSplit_of_closed ht, hc, beq_iff_eq]
  refine (if_neg (releaseFree hs)).trans ((if_neg (x.txBusy_nil s1 _ _)).trans ?_)
  unfold releaseScope at hi
  rw [x.txLanes_nil]
  dsimp only
  rw [hi]
  exact txFinish_nil t

theorem execSt_stalls (hi : storeLanes x s1 b l (x.ea b) (releaseScope b) = none) : execSt h b s = .next s.taken := by
  refine issue_stall hr ?_
  simp only [Ctx.txSplit_of_closed ht, hc, beq_iff_eq]
  refine (if_neg (releaseFree hs)).trans ((if_neg (x.txBusy_nil s1 _ _)).trans ?_)
  unfold releaseScope at hi
  rw [x.txLanes_nil]
  dsimp only
  rw [hi]

end

section
variable {r : Except FaultInfo (List (Nat × Parts)) × State} {va : Nat → DWord} (hr : r = (.ok l, s1))
include hr

theorem storeEff_issues (hi : storeLanes x s1 b l va 0 = some t) : storeEff x s b r va = .done t := by
  rw [hr]
  unfold storeEff
  dsimp only
  rw [hi]

theorem storeEff_stalls (hi : storeLanes x s1 b l va 0 = none) : storeEff x s b r va = .stall s := by
  rw [hr]
  unfold storeEff
  dsimp only
  rw [hi]

end

end

/-- Settles O16: each store comes to what the shared store of its lanes comes to. -/
theorem storesIssue : Obligations.StoresIssue := by
  unfold Obligations.StoresIssue
  intro s s1 s2 h b x l c ha hl n runs issued G room scope pva S
  refine ⟨fun hr ht hc hs => ?st, fun hr ht hc hs hn => ?release, fun hr hc => ?stp, fun hr hctx hc => ?stl, fun hs hld va scope => ?never⟩
  case st =>
    exact storeOutcomes (va := x.ea b) (scope := releaseScope b) hr.hdr_eq hl (fun t hi => (exec_st h b s).trans (execSt_issues hr ht hc hs hi))
      fun hi => (exec_st h b s).trans (execSt_stalls hr ht hc hs hi)
  case release => exact (exec_st h b s).trans (execSt_waits hr ht hc ha hs hn)
  case stp =>
    exact storeOutcomes (va := x.patternEa b) (scope := 0) hr.hdr_eq hl (fun t hi => (exec_stp h b s).trans (issue_done hr (storeEff_issues hc hi)))
      fun hi => (exec_stp h b s).trans (issue_stall hr (storeEff_stalls hc hi))
  case stl =>
    have hctx' : s.taken.ctx? x.gctx = some c := hctx
    have hva : (fun t => ((s.taken.ctx? x.gctx).map fun c => BitVec.ofNat 64 (x.privateVa c t (x.ea b t).toNat)).getD 0) = pva := by
      rw [hctx']
      rfl
    refine storeOutcomes (va := pva) (scope := 0) hr.hdr_eq hl (fun t hi => (exec_stl h b s).trans (issue_done hr ?_)) fun hi => (exec_stl h b s).trans (issue_stall hr ?_)
    · exact (congrArg (storeEff x s.taken b _) hva).trans (storeEff_issues hc hi)
    · exact (congrArg (storeEff x s.taken b _) hva).trans (storeEff_stalls hc hi)
  case never =>
    have hout := State.bringLanes_outside s1 x.vf l
    exact State.issueStores_isSome (State.stores_of_outside hout ▸ hs) (State.loads_of_outside hout ▸ hld) _ _ _ _

end Sys2Proof.Machine
end

section
/-! SUPPORT. Fetches of lines, the end of a `yield` period, samples and the barrier watchdog (09 R182, R183, R436; 10 R208; 20 R413; 18 R375). -/

namespace Sys2Proof.Machine
open Sys2Proof.Claims

/-! ## Fetches (R182, R399, R436) -/

section
variable {s u v s1 : State} {core slot entry ctx vf : Nat} {pc mask : DWord} {l : BitVec 512} {f : FaultInfo}

section
variable (hf : s.fetcher core slot entry = some (pc, mask, ctx, vf)) (hc : s.cachedLine core ctx pc = none)
  (hw : s.lineWaits core ctx (lineOf pc) = false)
include hf hc hw

section
variable (hp : s.through vf (fetchReq (.frag core slot entry)) (s.fetchCost core ctx vf (lineOf pc)) = .ok u)
include hp

theorem execInstructionFetch_frag_read (hl : u.fetchLine core ctx vf (lineOf pc) = (.ok l, s1)) :
    execInstructionFetch (.frag core slot entry) s = .next (s1.keepLine core ctx (lineOf pc) l) := by
  simp only [execInstructionFetch, hf, hc, hw, hp, hl, Option.isSome_none, Bool.or_self, Bool.false_eq_true, if_false]

/-- A line that cannot be read traps at the PC, no word having been fetched. -/
theorem execInstructionFetch_frag_fails (hl : u.fetchLine core ctx vf (lineOf pc) = (.error f, s1)) :
    execInstructionFetch (.frag core slot entry) s = .next (s1.takeTrap core slot entry pc 0 true false { f with mask := mask }) := by
  simp only [execInstructionFetch, hf, hc, hw, hp, hl, Option.isSome_none, Bool.or_self, Bool.false_eq_true, if_false]

end

theorem execInstructionFetch_frag_held (hp : s.through vf (fetchReq (.frag core slot entry)) (s.fetchCost core ctx vf (lineOf pc)) = .error v) :
    execInstructionFetch (.frag core slot entry) s = .next v := by
  simp only [execInstructionFetch, hf, hc, hw, hp, Option.isSome_none, Bool.or_self, Bool.false_eq_true, if_false]

end

theorem execInstructionFetch_seq_read {team : Nat} (hf : s.seqFetcher core team = some (pc, ctx, vf)) (hc : s.cachedLine core ctx pc = none)
    (hw : s.lineWaits core ctx (lineOf pc) = false)
    (hp : s.through vf (fetchReq (.seq core team)) (s.fetchCost core ctx vf (lineOf pc)) = .ok u)
    (hl : u.fetchLine core ctx vf (lineOf pc) = (.ok l, s1)) :
    execInstructionFetch (.seq core team) s = .next (s1.keepLine core ctx (lineOf pc) l) := by
  simp only [execInstructionFetch, hf, hc, hw, hp, hl, Option.isSome_none, Bool.or_self, Bool.false_eq_true, if_false]

/-- A slot that fails its parity is looked at once more, in the line as its home has it. -/
theorem execFetchParityRefetch_frag_read {old : BitVec 512} (hf : s.fetcher core slot entry = some (pc, mask, ctx, vf))
    (hc : s.cachedLine core ctx pc = some old) (hbad : slotParityOk old (slotOf pc) = false) (hw : s.lineWaits core ctx (lineOf pc) = false)
    (hp : s.through vf (fetchReq (.frag core slot entry)) (s.fetchCost core ctx vf (lineOf pc)) = .ok u)
    (hl : u.fetchLine core ctx vf (lineOf pc) = (.ok l, s1)) :
    execFetchParityRefetch (.frag core slot entry) s = .next (if slotParityOk l (slotOf pc) = true then s1.keepLine core ctx (lineOf pc) l
      else (s1.keepLine core ctx (lineOf pc) l).takeTrap core slot entry pc (slotWord l (slotOf pc)) false false (plain causeParity mask)) := by
  simp only [execFetchParityRefetch, hf, hc, hbad, hw, hp, hl, Bool.or_self, Bool.false_eq_true, if_false]

/-! ## The end of a `yield` (R208) -/

theorem execYieldExpiry_zero {w : Warp} (hw : s.warp? core slot = some w) (hy : (w.entry entry).wait = .yield 0) :
    execYieldExpiry core slot entry s = .next (s.modWarp core slot fun w => w.modEntry entry fun e => { e with wait := .none }) := by
  unfold execYieldExpiry
  rw [hw, Option.map_some, Option.getD_some, hy]
  exact congrArg Host.Outcome.next (if_pos rfl)

end

theorem fetchEvents : FetchEvents := by
  unfold FetchEvents
  intro s u s1 core slot entry pc mask ctx vf l f w
  refine ⟨fun hf hc hp => ⟨fun hl => ?read, fun hl => ?fails⟩, fun hf hc hp hl => ?sequencer, fun old hf hc hbad hp hl => ?again,
    fun v hf hc hw hv => ?held, fun hw hy => ?yield⟩
  case read =>
    obtain ⟨hw, hu⟩ := hp
    exact (exec_instructionFetch _ s).trans (execInstructionFetch_frag_read hf hc hw hu hl)
  case fails =>
    obtain ⟨hw, hu⟩ := hp
    exact (exec_instructionFetch _ s).trans (execInstructionFetch_frag_fails hf hc hw hu hl)
  case sequencer =>
    obtain ⟨hw, hu⟩ := hp
    exact (exec_instructionFetch _ s).trans (execInstructionFetch_seq_read hf hc hw hu hl)
  case again =>
    obtain ⟨hw, hu⟩ := hp
    exact (exec_fetchParityRefetch _ s).trans (execFetchParityRefetch_frag_read hf hc hbad hw hu hl)
  case held => exact (exec_instructionFetch _ s).trans (execInstructionFetch_frag_held hf hc hw hv)
  case yield => exact (exec_yieldExpiry core slot entry s).trans (execYieldExpiry_zero hw hy)

/-! ## Samples (R131, R413) -/

/-- A warp that issued at this clock has no reason to have waited. -/
theorem State.sampleReason_issued (s : State) (core slot entry : Nat) (w : Warp) (e : Nat) :
    s.sampleReason core slot entry w (some (slot, e)) = (0, s) := if_pos rfl

/-- The entry that issued at this clock is the one sampled. -/
theorem Warp.sampledEntry_issued (w : Warp) (e : Nat) : w.sampledEntry (some e) = e := rfl

section
variable {s : State} {core sched vf : Nat} {us : List Nat} (hs : s.samplingOf core = some (vf, us)) (h4 : sched < 4)
  (hd : (s.core core).due.contains sched = true)

/-- The scheduler's down-counter has been answered. -/
def State.sampleTaken (s : State) (core sched : Nat) : State := s.modCore core fun c => { c with due := c.due.filter (· ≠ sched) }

/-- The scheduler's pointer has moved on to a warp. -/
def State.sampleTurned (s : State) (core sched r : Nat) : State :=
  (s.sampleTaken core sched).modCore core fun c => { c with rot := c.rot.put sched r }

include h4 hd in
theorem sample_due : ¬ (decide (4 ≤ sched) || !(s.core core).due.contains sched) = true := by
  rw [hd, decide_eq_false (Nat.not_le.mpr h4)]
  decide

include hs h4 hd

theorem execSample_noWarp (hn : (s.sampleTaken core sched).nextSampled vf core sched (((s.core core).rot.find? sched).getD 0) = none) :
    execSample core sched s = .next (s.sampleTaken core sched) := by
  have hdue := sample_due h4 hd
  unfold State.sampleTaken at hn
  simp only [execSample, hs, if_neg hdue, hn]
  rfl

theorem execSample_issued {r e : Nat} {w : Warp} {p : Partition}
    (hn : (s.sampleTaken core sched).nextSampled vf core sched (((s.core core).rot.find? sched).getD 0) = some r)
    (hw : (s.sampleTurned core sched r).warp? core (4 * r + sched) = some w)
    (hl : (s.core core).lastIssue.find? sched = some (4 * r + sched, e))
    (hc : (s.sampleTurned core sched r).ctxLive ((s.sampleTurned core sched r).ctxIdOfTeam w.team) = true)
    (hp : (s.sampleTurned core sched r).part? vf = some p) (hr : p.reexec = false) :
    execSample core sched s = .next ((s.sampleTurned core sched r).each ((s.sampleTurned core sched r).samplersOf vf core us) fun s u =>
      (s.unitRecord u (w.entry e).pc (core * 2 ^ 23 + (4 * r + sched) * 2 ^ 18 + 2 ^ 17 + p.interval.toNat % 16 * 2 ^ 12 + 0 * 2 ^ 7 + 2 ^ 6 + e)
        (w.workcnt.setWidth 32)).countPerf vf (0x20 + 0)) := by
  have hdue := sample_due h4 hd
  unfold State.sampleTurned at *
  unfold State.sampleTaken at *
  have hissued : (some (4 * r + sched, e)).filter (fun f : Nat × Nat => f.1 == 4 * r + sched) = some (4 * r + sched, e) := by simp
  simp only [execSample, hs, if_neg hdue, hn, hw, hl, hissued, Option.map_some, Warp.sampledEntry_issued, hc, hp, hr, State.sampleReason_issued,
    Option.getD_some, Bool.not_true, Bool.or_self, Bool.false_eq_true, if_false, Option.isSome_some, if_true]

end

theorem samples : Samples := by
  unfold Samples
  intro s core sched vf r e us w p hs h4 hd s0 s1
  exact ⟨fun hn => (exec_sample core sched s).trans (execSample_noWarp hs h4 hd hn),
    fun hn hw hl hc hp hr => (exec_sample core sched s).trans (execSample_issued hs h4 hd hn hw hl hc hp hr)⟩

/-- Settles O37, from the two claims it joins. -/
theorem fetchAndSamples : Obligations.FetchAndSamples := ⟨fetchEvents, samples⟩

/-! ## The barrier watchdog (R375, R434) -/

/-- The one barrier of a context at its limit is captured where the diagnostic area takes the record. -/
theorem State.fireWatchdog_captured {s s1 : State} {ctx ix bar : Nat} {t : Team} {g : Grid} {c : Context} (hb : s.expiredBars ctx = [(ix, bar)])
    (hc : s.ctx? ctx = some c) (ht : s.team? ix = some t) (hg : s.gridOfTeam ix = some g)
    (hd : s.diagWritable (dieOfCore (ix / 8)) ctx c.vf c.diag = true)
    (hw : s.writeVirt (dieOfCore (ix / 8)) ctx c.vf c.diag (s.capture ix t g bar) [] ⟨0, ix / 8, some c.diag, 0⟩ = (none, s1)) :
    s.fireWatchdog ctx = (s1.log c.vf causeTimeout c.diag true 0 (ix / 8) 0).endContext ctx causeTimeout .faulted := by
  simp only [State.fireWatchdog, hb, hc, ht, hg, hd, hw, if_true, Option.getD_some, Option.isSome_some, State.each_nil]

/-- Settles O38: the watchdog fires for a barrier that stands at its limit, and for no other. -/
theorem watchdog : Obligations.Watchdog := by
  unfold Obligations.Watchdog
  intro s s1 core team bar t g c ix ctx
  refine ⟨fun hb hc ht hg hd hw => ?fires, fun hb => ?none⟩
  case fires =>
    have hat : (s.expiredBars ctx).contains (ix, bar) = true := by rw [hb]; simp
    exact (exec_barrierTimeout core team bar s).trans
      (congrArg Host.Outcome.next ((if_pos hat).trans (State.fireWatchdog_captured hb hc ht hg hd hw)))
  case none =>
    have hat : ¬ (s.expiredBars ctx).contains (ix, bar) = true := by rw [hb]; simp
    exact (exec_barrierTimeout core team bar s).trans (congrArg Host.Outcome.next (if_neg hat))

end Sys2Proof.Machine
end

section
/-! SUPPORT. What the copy channels and the collective engines carry out, event by event (05 R121; 14 R312 to R318; 17 R365). -/

namespace Sys2Proof.Machine
open Sys2Proof.Claims

section
variable {s s1 : State} {hive ch index : Nat} {op : CopyOp} {l : Layout}

/-! ## Acceptance (R121, R310, R313) -/

section
variable {b : List Byte} (hop : (((s.hive hive).channel ch).find? fun op => op.layout.isNone && !op.stopped) = some op)
  (hlive : s.ctxLive op.ctx = true) (howes : s.owesBefore op.core op.after = false)
  (hwait : s.engineWaits (dieOfHive hive) op.ctx op.layrec 128 .read = false)
  (hread : s.readVirt (dieOfHive hive) op.ctx op.vf op.layrec 128 .read = (.ok b, s1))
include hop hlive howes hwait hread

/-- A record outside its limits stops the operation. -/
theorem execCopyAccept_badRecord (hl : parseLayout b = none) :
    execCopyAccept hive ch s = .next (s1.stopCopy hive ch op causeReserved op.layrec) := by
  simp only [execCopyAccept, hop, hlive, howes, hwait, hread, hl, Bool.not_true, Bool.or_self, Bool.false_eq_true, if_false]

theorem execCopyAccept_begins (hl : parseLayout b = some l) (hloop : op.kind = .bloop → 1 ≤ op.loopN ∧ 1 ≤ op.stages ∧ op.stages ≤ 8) :
    execCopyAccept hive ch s = .next (s1.setOp hive ch { op with
      layout := some l, started := true
      dest := if op.kind == .bmcast then s1.resolveTeams (((s1.team? op.team).map (·.grid)).getD 0) op.first op.nteams else [] }) := by
  have hlimits : ¬ (op.kind == .bloop && (op.loopN == 0 || op.stages == 0 || decide (8 < op.stages))) = true := by
    simp only [Bool.and_eq_true, Bool.or_eq_true, beq_iff_eq, decide_eq_true_eq]
    rintro ⟨hk, hbad⟩
    have := hloop hk
    omega
  simp only [execCopyAccept, hop, hlive, howes, hwait, hread, hl, if_neg hlimits, Bool.not_true, Bool.or_self, Bool.false_eq_true, if_false]

end

/-! ## Parts (R312, R365) -/

/-- A channel's turn has been taken. -/
def State.turnCopy (s : State) (hive ch : Nat) : State := s.modHive hive fun h => { h with copyRot := (ch + 1) % 16 }

/-- Nothing bars the channel whose turn it is. -/
theorem State.inTurn (hn : s.nextChannel hive = some ch) (b : Bool) : ¬ (b && s.nextChannel hive != some ch) = true := by
  rw [hn, bne_self_eq_false, Bool.and_false]
  decide

section
variable (hr : s.partReady hive ch = some (op, l)) (hn : s.nextChannel hive = some ch)
  (hp : s.through op.vf op.id (s.partTraffic hive op l) = .ok s1)
include hr hn hp

/-- A part of a copy is moved up to its first error. -/
theorem execCopyPart_moves (hk : op.kind ≠ .bmcast) {r : State × Option (Nat × DWord)} (hm : (s1.turnCopy hive ch).movePart hive op l = r) :
    execCopyPart hive ch s = .next (match r.2 with
      | some c => r.1.stopCopy hive ch op c.1 c.2
      | none => r.1.setOp hive ch { op with part := op.part + 1 }) := by
  have hkind : ¬ (op.kind == .bmcast) = true := by rwa [beq_iff_eq]
  unfold State.turnCopy at hm
  simp only [execCopyPart, hr, if_neg (State.inTurn hn _), hp, if_neg hkind, hm]
  obtain ⟨t, _ | c⟩ := r <;> rfl

/-- A part of a multicast is read, and the last one announces its deliveries. -/
theorem execCopyPart_reads (hk : op.kind = .bmcast) {r : Except (Nat × DWord) (List (Word × Bool)) × State}
    (hm : (s1.turnCopy hive ch).readPart hive op l = r) : execCopyPart hive ch s = .next (match r.1 with
      | .error c => r.2.stopCopy hive ch op c.1 c.2
      | .ok vs => (r.2.setOp hive ch { op with part := op.part + 1, data := op.data.put op.part vs }).mcastSent op
          (if op.part + 1 = l.parts then op.remote hive else 0)) := by
  have hkind : (op.kind == .bmcast) = true := by rwa [beq_iff_eq]
  unfold State.turnCopy at hm
  simp only [execCopyPart, hr, if_neg (State.inTurn hn _), hp, if_pos hkind, hm]
  obtain ⟨_ | vs, t⟩ := r <;> rfl

end

/-! ## Completion and iterations (R314, R315) -/

/-- What the completion of an operation, or of an iteration, adds to the counter. -/
def State.copyCounted (s : State) (op : CopyOp) : State := s.counterAddOn op.ctx op.vf op.counter 1 (releaseBy op.core op.slot op.team 5)

theorem execCopyComplete_finished {rest : List CopyOp} (hh : s.headOp hive ch = some op) (hq : (s.hive hive).channel ch = op :: rest)
    (hl : op.layout = some l) (hs : op.started = true) (hp : l.parts ≤ op.part) (hst : op.stopped = false) (hk : op.kind ≠ .bmcast)
    (hw : s.counterWaitsOn op.ctx op.vf op.counter = false) :
    execCopyComplete hive ch s = .next (if op.kind ≠ .bloop ∨ op.loopN ≤ op.iter + 1
      then ((s.copyCounted op).modHive hive fun h => { h with copy := h.copy.put ch rest }).opDone op.core op.slot 0 op.id
      else (s.copyCounted op).setOp hive ch { op with started := false, iter := op.iter + 1, part := 0 }) := by
  have hkind : (op.kind != .bmcast) = true := by rwa [bne_iff_ne]
  simp only [execCopyComplete, hh, hq, hl, hs, hst, hkind, hw, Option.map_some, Option.getD_some, decide_eq_true hp, Bool.and_self, Bool.true_or,
    Bool.false_or, Bool.or_false, Bool.not_true, Bool.false_eq_true, if_false, List.drop_one, List.tail_cons, Bool.or_eq_true, bne_iff_ne,
    decide_eq_true_eq]
  rw [apply_ite Host.Outcome.next]
  rfl

theorem execCopyComplete_held (hh : s.headOp hive ch = some op) (hw : s.counterWaitsOn op.ctx op.vf op.counter = true) :
    execCopyComplete hive ch s = .next s := by
  simp only [execCopyComplete, hh, hw, Bool.or_true, if_true]

section
variable (hh : s.headOp hive ch = some op) (hk : op.kind = .bloop) (hl : op.layout = some l) (hs : op.started = false) (hst : op.stopped = false)
  (hlive : s.ctxLive op.ctx = true)

include hk hl hs hst hlive in
/-- A loop between two iterations. -/
theorem bloop_between : ¬ (op.kind != .bloop || op.layout.isNone || op.started || op.stopped || !s.ctxLive op.ctx) = true := by
  rw [hk, hl, hs, hst, hlive, Option.isNone_some]
  decide

include hh hk hl hs hst hlive

theorem execBloopIteration_first (hi : op.iter < op.stages) :
    execBloopIteration hive ch s = .next (s.setOp hive ch { op with started := true }) := by
  simp only [execBloopIteration, hh, if_neg (bloop_between hk hl hs hst hlive), if_pos hi]

theorem execBloopIteration_released (hi : op.stages ≤ op.iter) (hr : op.released.contains (op.iter % max 1 op.stages) = true) :
    execBloopIteration hive ch s = .next (s.setOp hive ch
      { op with started := true, released := op.released.filter (· ≠ op.iter % max 1 op.stages) }) := by
  simp only [execBloopIteration, hh, if_neg (bloop_between hk hl hs hst hlive), if_neg (Nat.not_lt.mpr hi), if_pos hr]

end

/-! ## Deliveries of a multicast (R316, R378) -/

theorem execMcastDelivery_writes {h : Nat} {gen : BitVec 16} {t : Team} (hh : s.headOp hive ch = some op) (hl : op.layout = some l)
    (hd : op.dest[index]? = some (some (h, gen))) (hdel : op.delivers l index = true) (hlive : s.ctxLive op.ctx = true)
    (ht : s.holderOf h gen = some t) (hn : s.nextChannel hive = some ch)
    (hp : s.through op.vf op.id (op.deliveryTraffic l hive h index) = .ok s1) {r : State × Option (Nat × DWord)}
    (hr : (s1.turnCopy hive ch).deliver hive op l h t (op.nextMove index) = r) :
    execMcastDelivery hive ch index s = .next (match r.2 with
      | some c => (r.1.stopCopy hive ch op c.1 c.2).mcastAcked op (op.remote hive)
      | none => if op.nextMove index + 1 < l.parts then r.1.setOp hive ch { op with moved := op.moved.put index (op.nextMove index + 1) }
          else (r.1.setOp hive ch { op with delivered := index :: op.delivered }).mcastAcked op (if h = hive then 0 else 1)) := by
  have hready : ¬ (!op.delivers l index || !s.ctxLive op.ctx) = true := by rw [hdel, hlive]; decide
  unfold State.turnCopy at hr
  simp only [execMcastDelivery, hh, hl, hd, if_neg hready, ht, if_neg (State.inTurn hn _), hp, hr]
  obtain ⟨u, _ | c⟩ := r <;> rfl

end

theorem copyEvents : CopyEvents := by
  unfold CopyEvents
  intro s s1 hive ch index op rest l
  refine ⟨fun b hop hlive howes hwait hread => ⟨fun hl => ?bad, fun hl hloop => ?begins⟩, fun hr hk hn hp => ?moves, fun hr hk hn hp => ?reads,
    fun hh hq hl hs hp hst hk hw => ?completes, fun hh hw => ?held,
    fun hh hk hl hs hst hlive => ⟨fun hi => ?first, fun hi hr => ?next⟩, fun h gen t hh hl hd hdel hlive ht hn hp => ?delivers⟩
  case bad => exact (exec_copyAccept hive ch s).trans (execCopyAccept_badRecord hop hlive howes hwait hread hl)
  case begins => exact (exec_copyAccept hive ch s).trans (execCopyAccept_begins hop hlive howes hwait hread hl hloop)
  case moves => exact (exec_copyPart hive ch s).trans (execCopyPart_moves hr hn hp hk rfl)
  case reads => exact (exec_copyPart hive ch s).trans (execCopyPart_reads hr hn hp hk rfl)
  case completes => exact (exec_copyComplete hive ch s).trans (execCopyComplete_finished hh hq hl hs hp hst hk hw)
  case held => exact (exec_copyComplete hive ch s).trans (execCopyComplete_held hh hw)
  case first => exact (exec_bloopIteration hive ch s).trans (execBloopIteration_first hh hk hl hs hst hlive hi)
  case next => exact (exec_bloopIteration hive ch s).trans (execBloopIteration_released hh hk hl hs hst hlive hi hr)
  case delivers => exact (exec_mcastDelivery hive ch index s).trans (execMcastDelivery_writes hh hl hd hdel hlive ht hn hp rfl)

/-! ## Collective sequences (R317, R318) -/

/-- The members' operations are equal and within their limits. -/
def Contribution.agrees (c : Contribution) (cs : List Contribution) : Prop :=
  1 ≤ c.count ∧ c.count ≤ 2 ^ 24 ∧ ∀ o ∈ cs, o.count = c.count ∧ o.op = c.op ∧ o.fn = c.fn

theorem Contribution.disagrees_iff {c : Contribution} {cs : List Contribution} :
    (decide (c.count = 0) || decide (2 ^ 24 < c.count) || cs.any fun o => o.count != c.count || o.op != c.op || o.fn != c.fn) = true ↔
      ¬ c.agrees cs := by
  have hmember : (cs.any fun o => o.count != c.count || o.op != c.op || o.fn != c.fn) = true ↔
      ¬ ∀ o ∈ cs, o.count = c.count ∧ o.op = c.op ∧ o.fn = c.fn := by
    simp only [List.any_eq_true, Bool.or_eq_true, bne_iff_ne, not_forall, not_and_or, exists_prop, or_assoc]
  unfold Contribution.agrees
  rw [Bool.or_eq_true, Bool.or_eq_true, hmember, decide_eq_true_eq, decide_eq_true_eq, not_and_or, not_and_or, Nat.not_le, Nat.not_le, Nat.lt_one_iff,
    or_assoc]

theorem counters_free {s : State} {cs : List Contribution} (h : ∀ o ∈ cs, s.counterWaitsOn o.ctx o.vf o.counter = false) :
    (cs.any fun o => s.counterWaitsOn o.ctx o.vf o.counter) = false :=
  List.any_eq_false.mpr fun o ho => Bool.eq_false_iff.mp (h o ho)

section
variable {s s1 : State} {die : Nat} {c : Contribution} {l : List Contribution} (hq : s.collQueued die = c :: l)
include hq

/-- What holds the update of one of its counters holds the sequence. -/
theorem execKcollSequence_counterWaits (hw : ¬ ∀ o ∈ s.sequence c, s.counterWaitsOn o.ctx o.vf o.counter = false) :
    execKcollSequence die s = .next s := by
  have hany : ((s.sequence c).any fun o => s.counterWaitsOn o.ctx o.vf o.counter) = true := by
    simpa using hw
  simp only [execKcollSequence, hq, hany, if_true]

section
variable (hfree : ∀ o ∈ s.sequence c, s.counterWaitsOn o.ctx o.vf o.counter = false)
include hfree

theorem execKcollSequence_abandoned (ha : s.abandoned c = true) :
    execKcollSequence die s = .next (s.collEnd die (s.sequence c) (some (causeAbandoned, 0))) := by
  simp only [execKcollSequence, hq, counters_free hfree, ha, Bool.false_eq_true, if_false, if_true]

variable (ha : s.abandoned c = false)
include ha

theorem execKcollSequence_incomplete (hn : (s.sequence c).length < c.n) : execKcollSequence die s = .next s := by
  simp only [execKcollSequence, hq, counters_free hfree, ha, Bool.false_eq_true, if_false, if_pos hn]

variable (hn : c.n ≤ (s.sequence c).length)
include hn

theorem execKcollSequence_disagreeing (hag : ¬ c.agrees (s.sequence c)) :
    execKcollSequence die s = .next (s.collEnd die (s.sequence c) (some (causeReserved, 0))) := by
  simp only [execKcollSequence, hq, counters_free hfree, ha, Bool.false_eq_true, if_false, if_neg (Nat.not_lt.mpr hn),
    if_pos (Contribution.disagrees_iff.mpr hag)]

/-! Sequences that are whole and agree. -/

section
variable (hag : c.agrees (s.sequence c))
include hag

theorem execKcollSequence_ends (hpos : c.count ≤ c.pos) : execKcollSequence die s = .next (s.collEnd die (s.sequence c) none) := by
  simp only [execKcollSequence, hq, counters_free hfree, ha, Bool.false_eq_true, if_false, if_neg (Nat.not_lt.mpr hn),
    if_neg (mt Contribution.disagrees_iff.mp (not_not_intro hag)), if_pos hpos]

variable (hpos : c.pos < c.count)
include hpos

theorem execKcollSequence_held (hh : s.collHeld die (s.sequence c) c = true) : execKcollSequence die s = .next s := by
  simp only [execKcollSequence, hq, counters_free hfree, ha, Bool.false_eq_true, if_false, if_neg (Nat.not_lt.mpr hn),
    if_neg (mt Contribution.disagrees_iff.mp (not_not_intro hag)), if_neg (Nat.not_le.mpr hpos), hh, if_true]

/-- One element more, or the end at its error. -/
theorem execKcollSequence_element (hh : s.collHeld die (s.sequence c) c = false)
    (hp : s.through c.vf c.id (s.collTraffic die (s.sequence c) c) = .ok s1) {r : State × Option (Nat × DWord)}
    (hr : s1.collElem die (s.sequence c) c c.pos = r) : execKcollSequence die s = .next (match r.2 with
      | some e => r.1.collEnd die (s.sequence c) (some e)
      | none => r.1.collStep (s.sequence c)) := by
  simp only [execKcollSequence, hq, counters_free hfree, ha, Bool.false_eq_true, if_false, if_neg (Nat.not_lt.mpr hn),
    if_neg (mt Contribution.disagrees_iff.mp (not_not_intro hag)), if_neg (Nat.not_le.mpr hpos), hh, hp, hr]
  obtain ⟨u, _ | e⟩ := r <;> rfl

end

end

end

theorem collectiveSequence : CollectiveSequence := by
  unfold CollectiveSequence
  intro s s1 die c l hq cs agree free
  refine ⟨fun hw => ?waits, fun hf ha => ?abandoned, fun hf ha hn => ?incomplete,
    fun hf ha hn hag => ⟨fun hpos => ?ends, fun hpos hh => ?held, fun hpos hh hp => ?element⟩, fun hf ha hn hag => ?disagreeing⟩
  case waits => exact (exec_kcollSequence die s).trans (execKcollSequence_counterWaits hq hw)
  case abandoned => exact (exec_kcollSequence die s).trans (execKcollSequence_abandoned hq hf ha)
  case incomplete => exact (exec_kcollSequence die s).trans (execKcollSequence_incomplete hq hf ha hn)
  case disagreeing => exact (exec_kcollSequence die s).trans (execKcollSequence_disagreeing hq hf ha hn hag)
  case ends => exact (exec_kcollSequence die s).trans (execKcollSequence_ends hq hf ha hn hag hpos)
  case held => exact (exec_kcollSequence die s).trans (execKcollSequence_held hq hf ha hn hag hpos hh)
  case element => exact (exec_kcollSequence die s).trans (execKcollSequence_element hq hf ha hn hag hpos hh hp rfl)

/-- Settles O23, from the two claims it joins. -/
theorem copyEngines : Obligations.CopyEngines := ⟨copyEvents, collectiveSequence⟩

end Sys2Proof.Machine
end

section
/-! SUPPORT. The mailbox's commands on claims, keys, quotes and boot (19 R391, R400, R404, R405, R408, R409). -/

namespace Sys2Proof.Machine
open Sys2Proof.Claims

/-! ## Claims (R400) -/

/-- The event selectors that an argument of `CLAIM` names, one for each counter of the bank. -/
def eventSelectors (a : DWord) : List Nat := (List.range 8).map fun i => bitsOf a.toNat (8 * i + 7) (8 * i)

theorem selectors_counted {l : List Nat} (h : ∀ c ∈ l, countedEvent c = true) : (l.any fun c => !countedEvent c) = false :=
  List.any_eq_false.mpr fun c hc => by rw [h c hc]; decide

section
variable {s : State} {fn : Nat}

section
variable (ht : takes s fn 0x20) (h0 : (argOf s fn 0).toNat = 10) (h1 : (argOf s fn 1).toNat < 64)
  (hmay : s.mayClaim fn 10 (argOf s fn 1).toNat = true)
  (hsel : ∀ c ∈ eventSelectors (argOf s fn 2), countedEvent c = true)
include ht h0 h1 hmay hsel

/-- A bank that nobody holds is the claimant's. -/
theorem execClaim_free (hb : s.banks.find? (argOf s fn 1).toNat = none) : execClaim fn s =
    .next ((s.takeBank (argOf s fn 1).toNat fn (eventSelectors (argOf s fn 2)) none).finishCommand fn .ok []) := by
  refine command_ok ht rfl rfl ?_
  have hhold : s.holding 10 (argOf s fn 1).toNat = (none, []) := by simp only [State.holding, if_true, hb]
  have hbank : soricaCount 10 = 64 := rfl
  have hany := selectors_counted hsel
  unfold eventSelectors at hany
  simp only [h0, hbank, hmay, hhold, hany, Nat.not_le.mpr h1]
  rfl

/-- One that it holds already is busy. -/
theorem execClaim_held {b : Bank} (hb : s.banks.find? (argOf s fn 1).toNat = some b) (hh : b.holder = some fn) (hr : ∀ y ∈ b.revoked, y.1 ≠ fn) :
    execClaim fn s = .next (s.finishCommand fn .busy []) := by
  refine command_fail ht rfl rfl ?_
  have hhold : s.holding 10 (argOf s fn 1).toNat = (some fn, b.revoked.map (·.1)) := by simp only [State.holding, if_true, hb, hh]
  have hbank : soricaCount 10 = 64 := rfl
  have hany := selectors_counted hsel
  unfold eventSelectors at hany
  have hkept : (b.revoked.map (·.1)).contains fn = false := by
    rw [List.contains_eq_mem, decide_eq_false_iff_not]
    exact fun hm => (List.mem_map.mp hm).elim fun y hy => hr y hy.1 hy.2
  simp only [h0, hbank, hmay, hhold, hany, hkept, Nat.not_le.mpr h1]
  simp

end

theorem execUnclaim_holder (ht : takes s fn 0x21) (h0 : (argOf s fn 0).toNat = 10 ∨ (argOf s fn 0).toNat = 11)
    (h1 : (argOf s fn 1).toNat < soricaCount (argOf s fn 0).toNat)
    (hh : (s.holding (argOf s fn 0).toNat (argOf s fn 1).toNat).1 = some fn) :
    execUnclaim fn s = .next ((s.unclaim fn (argOf s fn 0).toNat (argOf s fn 1).toNat).finishCommand fn .ok []) := by
  refine command_ok ht rfl rfl ?_
  dsimp only
  rw [if_neg, if_neg]
  · simp [hh]
  · simp only [Bool.or_eq_true, Bool.and_eq_true, decide_eq_true_eq, not_or, Nat.not_le]
    exact ⟨fun h => h0.elim h.1 h.2, h1⟩

/-! ## Keys and quotes (R404, R408, R409) -/

theorem execKeyload_opens {s1 s2 : State} {h ct key : List Byte} (ht : takes s fn 0x30) (hp : (s.part? fn).isSome = true)
    (h0 : (argOf s fn 0).toNat < 8) (hw : s.argWaits (argOf s fn 1) 185 = false) (hh : s.argBytes fn (argOf s fn 1) 137 = (.ok h, s1))
    (hn : fieldOf h 133 4 = 48) (hct : s1.argBytes fn (argOf s fn 1 + 137) 48 = (.ok ct, s2))
    (ho : Config.hpkeOpen s2.boots (toBytes 1 fn ++ toBytes 1 (argOf s fn 0).toNat) (h.take 133) ct = some key) : execKeyload fn s =
      .next ((s2.modPart fn fun p => { p with keys := Tab.put p.keys (argOf s fn 0).toNat key, dumpSeq := p.dumpSeq.erase (argOf s fn 0).toNat
        }).finishCommand fn .ok []) := by
  refine command_ok ht rfl rfl ?_
  have hnone : ¬ (s.part? fn).isNone = true := by rw [← Option.not_isSome, hp]; decide
  dsimp only
  rw [if_neg hnone, if_neg (Nat.not_le.mpr h0), hw, if_neg (by decide), hh]
  dsimp only
  rw [if_neg (not_not.mpr hn), hct]
  dsimp only
  rw [ho]

theorem execKeyload_unpartitioned (ht : takes s fn 0x30) (hp : s.part? fn = none) : execKeyload fn s = .next (s.finishCommand fn .denied []) :=
  command_fail ht rfl rfl (if_pos (by rw [hp]; rfl))

theorem execAttest_writes {s1 s2 : State} {nonce : List Byte} (ht : takes s fn 0x31) (hw : s.argWaits (argOf s fn 0) 64 = false)
    (hr : ∀ w ∈ wordsOf (argOf s fn 1).toNat 1024, s.recordWaits (4 * w.1) s.nextId = false)
    (hn : s.argBytes fn (argOf s fn 0) 64 = (.ok nonce, s1)) (ha : (argOf s fn 1).toNat + 1024 ≤ 2 ^ 39)
    (hq : s1.writePhys fn (argOf s fn 1).toNat (s1.quote fn nonce) [] ⟨7, s1.mgmtCore, none, 0⟩ = .ok s2) :
    execAttest fn s = .next (s2.finishCommand fn .ok []) := by
  refine command_ok ht rfl rfl ?_
  have hany := List.any_eq_false.mpr fun w hm => Bool.eq_false_iff.mp (hr w hm)
  rw [hw, hany, if_neg (by decide), hn]
  dsimp only
  rw [if_neg (Nat.not_lt.mpr ha), hq]

/-! ## Boot (R405) -/

/-- `BOOT` is open before the rest of the command set. -/
theorem command_boot {f : (Nat → DWord) → Mailbox → State → Answer} (hn : s.mboxNext = some 0) (ho : (s.mailbox 0).op = 0x100) :
    command 0x100 0 s anyArg f = match f (argOf s 0) (s.mailbox 0) s with
      | .fail s st => .next (s.finishCommand 0 st [])
      | .ok s r => .next (s.finishCommand 0 .ok r)
      | .pending s => .next { s with mboxCur := some 0 } := by
  have hop : (s.mailbox 0).op.toNat = 0x100 := by rw [ho]; rfl
  have hl : listedOp 0x100 = true := rfl
  have hpf : ¬ (0 : Nat) = pf1 := by decide
  unfold command
  simp only [hn, hop, hl, hpf, anyArg, bne_self_eq_false, Bool.not_true, Bool.or_self, Bool.and_false, decide_false, Bool.false_eq_true, if_false] <;>
    rfl

/-- The image that `BOOT` names: the first bytes of the boot window. -/
def State.bootImage (s : State) : List Byte := (List.range (argOf s 0 0).toNat).map fun i => s.bootWindow.get 0 i

/-- What a boot leaves: the image measured, the device up, its rows to be filled. -/
def State.booted (s : State) : State := { s with
  measure := sha512 (s.measure ++ sha512 s.bootImage)
  boots := s.boots + 1
  bootStep := 6
  unfilled := [(0, 2 ^ 28)]
  hearths := (List.range 8).foldl (fun (t : Tab Hearth) k => t.put k { Hearth.reset with frameAt := s.dclk }) []
  heartbeat := s.vclock }

/-- The ROM takes an image of a size within its limits that passes its checks. -/
theorem execBoot_image (hn : s.mboxNext = some 0) (ho : (s.mailbox 0).op = 0x100) (hs : s.bootStep = 3) (h1 : 1024 ≤ (argOf s 0 0).toNat)
    (h2 : (argOf s 0 0).toNat ≤ 2 ^ 24) :
    execBoot 0 s = if s.imageOk s.bootImage = true then .next (s.booted.finishCommand 0 .ok []) else .next (s.finishCommand 0 .badarg []) := by
  unfold execBoot
  have hsmall : ¬ (decide ((argOf s 0 0).toNat < 1024) || decide (2 ^ 24 < (argOf s 0 0).toNat)) = true := by
    rw [decide_eq_false (Nat.not_lt.mpr h1), decide_eq_false (Nat.not_lt.mpr h2)]
    decide
  have hopen : ¬ (decide ((0 : Nat) ≠ 0) || decide (s.bootStep ≠ 3)) = true := by
    rw [hs]
    decide
  rw [command_boot hn ho]
  dsimp only
  rw [if_neg hopen, if_neg hsmall]
  change (match if (!s.imageOk s.bootImage) = true then Answer.fail s .badarg else .ok s.booted [] with
    | .fail s st => _
    | .ok s r => _
    | .pending s => _) = _
  cases s.imageOk s.bootImage <;> rfl

end

/-- Settles O44, command by command. -/
theorem claimsAndKeys : Obligations.ClaimsAndKeys := by
  unfold Obligations.ClaimsAndKeys
  intro s s1 s2 fn h ct key nonce
  refine ⟨fun ht h0 h1 hmay hsel => ⟨fun hb => ?free, fun b hb hh hr => ?held⟩, fun ht h0 h1 hh => ?release,
    fun ht hp h0 hw hh hn hct ho => ?key, fun ht hp => ?noPartition, fun ht hw hr hn ha hq => ?quote,
    fun hn ho hs h1 h2 => ⟨fun hbad => ?refused, fun hok => ?boots⟩⟩
  case free => exact (exec_claim fn s).trans (execClaim_free ht h0 h1 hmay hsel hb)
  case held => exact (exec_claim fn s).trans (execClaim_held ht h0 h1 hmay hsel hb hh hr)
  case release => exact (exec_unclaim fn s).trans (execUnclaim_holder ht h0 h1 hh)
  case key => exact (exec_keyload fn s).trans (execKeyload_opens ht hp h0 hw hh hn hct ho)
  case noPartition => exact (exec_keyload fn s).trans (execKeyload_unpartitioned ht hp)
  case quote => exact (exec_attest fn s).trans (execAttest_writes ht hw hr hn ha hq)
  case refused => exact (exec_boot 0 s).trans ((execBoot_image hn ho hs h1 h2).trans (if_neg (Bool.eq_false_iff.mp hbad)))
  case boots => exact ⟨s.booted, (exec_boot 0 s).trans ((execBoot_image hn ho hs h1 h2).trans (if_pos hok)), rfl, rfl, rfl, rfl, rfl⟩

end Sys2Proof.Machine
end

section
/-! SUPPORT. What the matrix path carries out, event by event (07 R149; 14 R293, R299 to R304; 17 R364; 18 R384). -/

namespace Sys2Proof.Tab

/-- The later of two puts at an index stands, whether the table is in order or not. -/
theorem put_put {α : Type} (t : Tab α) (k : Nat) (x y : α) : put (put t k x) k y = put t k y := by
  induction t with
  | nil => simp [put]
  | cons z l ih =>
    obtain ⟨j, v⟩ := z
    rcases Nat.lt_trichotomy k j with hlt | rfl | hgt
    · simp [put, hlt]
    · simp [put]
    · have hnot : ¬ k < j := by omega
      have hne : j ≠ k := by omega
      simp only [put, if_neg hnot, if_neg hne, ih]

end Sys2Proof.Tab

namespace Sys2Proof.Machine

/-! ## Two changes of a hive in a row -/

section
variable {s : State} {k : Nat} {f g : Hive → Hive}

/-- A hive that does not become idle is listed as it was written, whether the table of hives is in order or not. -/
theorem State.modHive_hive_self (hf : f (s.hive k) ≠ Hive.empty) : (s.modHive k f).hive k = f (s.hive k) := by
  have hlisted : (s.modHive k f).hives = s.hives.put k (f (s.hive k)) := if_neg hf
  rw [State.hive, hlisted, Tab.get, Tab.find?_put_self]
  rfl

theorem State.modHive_modHive (hf : f (s.hive k) ≠ Hive.empty) (hg : g (f (s.hive k)) ≠ Hive.empty) :
    (s.modHive k f).modHive k g = s.modHive k fun h => g (f h) := by
  have hset : (s.modHive k f).modHive k g = (s.modHive k f).setHive k (g (f (s.hive k))) := by
    rw [← State.modHive_hive_self hf]
    rfl
  rw [hset]
  simp only [State.modHive, State.setHive, Tab.set, if_neg hf, if_neg hg, Tab.put_put]

end

/-- A change that no member of a list makes is not made. -/
theorem State.each_unchanged {α : Type} {f : State → α → State} {s : State} {l : List α} (hf : ∀ a ∈ l, f s a = s) : s.each l f = s := by
  induction l with
  | nil => rfl
  | cons a l ih =>
    have hstep : s.each (a :: l) f = (f s a).each l f := rfl
    rw [hstep, hf a List.mem_cons_self]
    exact ih fun b hb => hf b (List.mem_cons_of_mem a hb)

/-! ## Sealing (R293) -/

/-- A hive with the exponents of some cells forgotten: they are 0. -/
def Hive.dropExps (cells : List Nat) (h : Hive) : Hive := { h with exps := h.exps.filter fun e => !cells.contains (e.1 / 2048) }

/-- A hive one of whose regions has been sealed. -/
def Hive.withSealed (region : Nat) (r : Region) (h : Hive) : Hive := { h with regions := h.regions.put region { r with st := 2 } }

theorem Hive.dropExps_nil (h : Hive) : h.dropExps [] = h := by
  unfold Hive.dropExps
  simp only [List.contains_nil, Bool.not_false, List.filter_true]

theorem Hive.dropExps_cons (c : Nat) (l : List Nat) (h : Hive) : h.dropExps (c :: l) = (h.dropExps [c]).dropExps l := by
  unfold Hive.dropExps
  simp only [List.filter_filter, List.contains_cons, List.contains_nil, Bool.or_false, Bool.not_or, Bool.and_comm]

/-- A hive in which a region is listed is not idle. -/
theorem Hive.ne_empty_of_region {h : Hive} {region : Nat} {r : Region} (hr : h.regions.find? region = some r) : h ≠ Hive.empty := by
  rintro rfl
  exact Option.some_ne_none r hr.symm

theorem Hive.withSealed_ne_empty (region : Nat) (r : Region) (h : Hive) : h.withSealed region r ≠ Hive.empty :=
  Hive.ne_empty_of_region (Tab.find?_put_self h.regions region _)

section
variable {s : State} {vf hive cell region : Nat} {r : Region}

theorem State.scrubCell_unerred (he : ∀ e ∈ (s.hive hive).err, e.1 / 8192 ≠ cell) : s.scrubCell vf hive cell = s := by
  have hnone : ((s.hive hive).err.filter fun e => e.1 / 8192 == cell) = [] :=
    List.filter_eq_nil_iff.mpr fun e hmem => by simpa using he e hmem
  unfold State.scrubCell
  rw [hnone]
  rfl

theorem State.defineCell_defined (he : ∀ e ∈ (s.hive hive).err, e.1 / 8192 ≠ cell) (hu : (s.hive hive).undef.contains cell = false) :
    s.defineCell vf hive cell = s := by
  simp only [State.defineCell, State.scrubCell_unerred he, hu, Bool.not_false, if_true]

theorem State.gridOfTeam_some {ix : Nat} {t : Team} {g : Grid} (ht : s.team? ix = some t) (hg : s.grid? t.grid = some g) :
    s.gridOfTeam ix = some g := by
  rw [State.gridOfTeam, ht, Option.bind_some, hg]

/-- Cells sealed one after the other lose their exponents together. -/
theorem State.each_dropExps_withSealed (cells : List (Nat × Nat)) (hr : (s.hive hive).regions.find? region = some r) :
    (s.each cells fun s y => s.modHive hive (Hive.dropExps [y.1])).modHive hive (Hive.withSealed region r) =
      s.modHive hive fun h => (h.dropExps (cells.map (·.1))).withSealed region r := by
  induction cells generalizing s with
  | nil => simp only [State.each_nil, List.map_nil, Hive.dropExps_nil]
  | cons y l ih =>
    have hdrop : (s.hive hive).dropExps [y.1] ≠ Hive.empty := Hive.ne_empty_of_region (region := region) hr
    have hr' : ((s.modHive hive (Hive.dropExps [y.1])).hive hive).regions.find? region = some r := by
      rw [State.modHive_hive_self hdrop]
      exact hr
    calc (s.each (y :: l) fun s y => s.modHive hive (Hive.dropExps [y.1])).modHive hive (Hive.withSealed region r)
      _ = ((s.modHive hive (Hive.dropExps [y.1])).each l fun s y => s.modHive hive (Hive.dropExps [y.1])).modHive hive
          (Hive.withSealed region r) := rfl
      _ = (s.modHive hive (Hive.dropExps [y.1])).modHive hive fun h => (h.dropExps (l.map (·.1))).withSealed region r := ih hr'
      _ = s.modHive hive fun h => ((h.dropExps [y.1]).dropExps (l.map (·.1))).withSealed region r :=
        State.modHive_modHive hdrop (Hive.withSealed_ne_empty _ _ _)
      _ = s.modHive hive fun h => (h.dropExps ((y :: l).map (·.1))).withSealed region r :=
        congrArg (s.modHive hive) (funext fun h => congrArg (Hive.withSealed region r) (Hive.dropExps_cons y.1 (l.map (·.1)) h).symm)

section
variable {t : Team} {g : Grid} (hr : (s.hive hive).regions.find? region = some r) (hst : r.st = 1)
  (ht : s.team? (hive * 32 + r.owner) = some t) (hg : s.grid? t.grid = some g)
include hr hst ht hg

/-- A seal of 8-bit integers leaves the words as they are. -/
theorem execSealComplete_integers (hk : (g.lr.fmt.getD r.slot 0).toNat % 256 = 6) (hc : s.copyOpen r.before = false)
    (hu : ∀ k ∈ r.cells, (s.hive hive).undef.contains k = false) (he : ∀ e ∈ (s.hive hive).err, r.cells.contains (e.1 / 8192) = false) :
    execSealComplete hive region s = .next (s.modHive hive fun h => (h.dropExps r.cells).withSealed region r) := by
  have hdefined : (s.each r.cells fun s c => s.defineCell g.vf hive c) = s := State.each_unchanged fun c hmem =>
    State.defineCell_defined (fun e hmemErr heq => by simpa [heq, hmem] using he e hmemErr) (hu c hmem)
  have hone (c : Nat) : Hive.dropExps [c] = fun h => { h with exps := h.exps.filter fun e => e.1 / 2048 != c } := by
    funext h
    simp only [Hive.dropExps, List.contains_cons, List.contains_nil, Bool.or_false, bne]
  have hall := State.each_dropExps_withSealed (r.cells.zip (List.range r.cells.length)) hr
  rw [List.map_fst_zip (by rw [List.length_range])] at hall
  simp only [execSealComplete, hr, hst, Option.filter_some, beq_self_eq_true, if_true, ht, State.gridOfTeam_some ht hg, hc, hdefined, hk,
    Bool.false_eq_true, if_false, show ¬ 8 ≤ 6 by decide, ← hone, ← hall]
  rfl

theorem execSealComplete_awaitsCopies (hc : s.copyOpen r.before = true) : execSealComplete hive region s = .next s := by
  simp only [execSealComplete, hr, hst, Option.filter_some, beq_self_eq_true, if_true, ht, State.gridOfTeam_some ht hg, hc]

end
end

section
variable {s : State} {id team : Nat}

/-! ## Slab reads (R299, R414) -/

theorem execSlabReadDone_replays {y : Slab} {t : Team} {w : Warp} (hy : s.slabs.find? id = some y) (hd : y.data = none)
    (ht : s.team? y.team = some t) (hw : s.warp? (y.team / 8) (t.slots.getD y.warp 0) = some w) (hk : w.killed = false)
    (hr : ((s.part? (s.vfOfTeam y.team)).map (·.replay)).getD false = true) :
    execSlabReadDone id s = .next ((({ s with slabs := s.slabs.put id { y with data := some y.old } } : State).opDone (y.team / 8)
      (t.slots.getD y.warp 0) 1 id).pruneSlabs) := by
  simp only [execSlabReadDone, hy, hd, Option.isSome_none, ht, hw, hk, hr, Option.map_some, Option.getD_some, Bool.false_eq_true, if_false, if_true]

/-! ## Passes (R300, R301, R364) -/

theorem execPassGrant_only {hive cell : Nat} {p : Pass} (hp : (s.passes hive).filter (fun q => q.2.cell == cell) = [(id, p)])
    (hg : p.granted = false) (ho : s.posted.find? id = some ⟨team, .pass p⟩) (hready : s.grantable id team p = true)
    (hrefill : ((s.hive hive).regions.any fun r => r.2.refill && r.2.cells.contains cell) = false) :
    execPassGrant hive cell s = .next (s.setPass id { p with granted := true, old := none }) := by
  simp only [execPassGrant, hp, List.any_cons, hg, List.any_nil, Bool.or_self, Bool.false_eq_true, if_false, List.filter_cons, ho, Option.map_some,
    Option.getD_some, hready, if_true, List.filter_nil, List.foldl_nil, hrefill]
  exact congrArg Host.Outcome.next (if_pos rfl)

/-- A granted pass whose cell was not refilled and has no bits in error is added as the cell stands. -/
theorem execPassComplete_adds {p : Pass} (ho : s.posted.find? id = some ⟨team, .pass p⟩) (hg : p.granted = true) (hold : p.old = none)
    (h1 : p.tile1 = none) (he : ∀ e ∈ (s.hive p.hive).err, e.1 / 8192 ≠ p.cell) :
    execPassComplete id s = .next ((s.modTile (team / 8) p.tile0 fun t => passTile t (((s.slabs.find? p.slab).bind (·.data)).getD [])
      ((s.hive p.hive).cellWords p.cell) (s.hive p.hive).exps p 0 ((s.hive p.hive).poison.any fun w => w / 8192 == p.cell)).unpost id
      ⟨team, .pass p⟩) := by
  simp only [execPassComplete, ho, hg, Bool.not_true, Bool.false_eq_true, if_false, State.scrubCell_unerred he, hold, h1]

/-! ## Moves and zeros (R302 to R304) -/

theorem execMgetWriteback_writes {m : TileMove} {t : Team} {w : Warp} (ho : s.posted.find? id = some ⟨team, .mget m⟩)
    (hb : s.tileBefore id ⟨team, .mget m⟩ = false) (ht : s.team? team = some t)
    (hp : (m.elems.any ((s.core (team / 8)).tile m.tile).poison.contains) = false)
    (hw : s.warp? (team / 8) (t.slots.getD m.warp 0) = some w) (hk : w.killed = false) :
    execMgetWriteback id s = .next (((s.writeBack (team / 8) (t.slots.getD m.warp 0) ((threadsOf (w.launched &&& ~~~m.skip)).flatMap fun i =>
      (List.range m.count).map fun r => ⟨.v (m.vreg + r) i, (m.word ((s.core (team / 8)).tile m.tile) i r).setWidth 64⟩)).opDone (team / 8)
      (t.slots.getD m.warp 0) 1 id).unpost id ⟨team, .mget m⟩) := by
  simp only [execMgetWriteback, ho, hb, ht, hp, hw, hk, Option.map_some, Option.getD_some, Bool.false_eq_true, if_false]

/-- A tile with the elements of a move written from the registers of a slab. -/
def TileMove.into (m : TileMove) (data : Tab Word) (tile : Tile) : Tile := { tile with
  data := (List.range 64).foldl (fun d t => (List.range (m.count * perReg m.kind)).foldl (fun (d : Tab Word) i => d.set 0 (128 * t + m.col + i)
    (moveIn m.kind ((data.get 0 (64 * (i / perReg m.kind) + t)).toNat / 2 ^ (32 / perReg m.kind * (i % perReg m.kind)) %
      2 ^ (32 / perReg m.kind)))) d) tile.data
  poison := tile.poison.filter fun x => !m.elems.contains x }

theorem execMputDone_writes {m : TileMove} {data : Tab Word} (ho : s.posted.find? id = some ⟨team, .mput m⟩)
    (hd : (s.slabs.find? id).bind (·.data) = some data) (hb : s.tileBefore id ⟨team, .mput m⟩ = false) :
    execMputDone id s = .next ((s.modTile (team / 8) m.tile (m.into data)).unpost id ⟨team, .mput m⟩) := by
  simp only [execMputDone, ho, hd, hb, Bool.false_eq_true, if_false]
  rfl

theorem execMzeroDone_clears {tile : Nat} (ho : s.posted.find? id = some ⟨team, .mzero tile⟩)
    (hb : s.tileBefore id ⟨team, .mzero tile⟩ = false) :
    execMzeroDone id s = .next ((s.modTile (team / 8) tile fun y => { y with data := [], poison := [] }).unpost id ⟨team, .mzero tile⟩) := by
  simp only [execMzeroDone, ho, hb, Bool.false_eq_true, if_false]

/-! ## Spills (R384) -/

theorem execAccForeignSpill_spills {core tile ix : Nat} (ht : s.taker core tile = some ix)
    (hn : s.nextSpill (dieOfCore core) = some (core, tile)) :
    execAccForeignSpill core tile s = .next (s.spillTile core tile ix (s.ctxIdOfTeam ix) (s.vfOfTeam ix)) := by
  simp only [execAccForeignSpill, ht, hn, bne_self_eq_false, Bool.false_eq_true, if_false]

/-- A tile that nobody takes, or whose turn it is not, stays. -/
theorem execAccForeignSpill_waits {core tile : Nat} (hn : s.nextSpill (dieOfCore core) ≠ some (core, tile)) :
    execAccForeignSpill core tile s = .next s := by
  unfold execAccForeignSpill
  cases s.taker core tile with
  | none => rfl
  | some ix => exact if_pos (bne_iff_ne.mpr hn)

end

/-- Settles O30, event by event. -/
theorem matrixEvents : Obligations.MatrixEvents := by
  unfold Obligations.MatrixEvents
  intro s hive region id core tile team
  refine ⟨fun r t g hr hst ht hg hk hc hu he => ?seals, fun r t g hr hst ht hg hc => ?awaits, fun y t w hy hd ht hw hk hr => ?slab,
    fun p hp hg ho hready hrefill => ?grants, fun p ho hg hold h1 he => ?adds, fun m t w ho hb ht hp hw hk => ?gets,
    fun m data ho hd hb => ?puts, fun ho hb => ?zeroes, fun ix ht hn => ?spills, fun hn => ?stays⟩
  case seals => exact (exec_sealComplete hive region s).trans (execSealComplete_integers hr hst ht hg hk hc hu he)
  case awaits => exact (exec_sealComplete hive region s).trans (execSealComplete_awaitsCopies hr hst ht hg hc)
  case slab => exact (exec_slabReadDone id s).trans (execSlabReadDone_replays hy hd ht hw hk hr)
  case grants => exact (exec_passGrant hive tile s).trans (execPassGrant_only hp hg ho hready hrefill)
  case adds => exact (exec_passComplete id s).trans (execPassComplete_adds ho hg hold h1 he)
  case gets => exact (exec_mgetWriteback id s).trans (execMgetWriteback_writes ho hb ht hp hw hk)
  case puts => exact (exec_mputDone id s).trans (execMputDone_writes ho hd hb)
  case zeroes => exact (exec_mzeroDone id s).trans (execMzeroDone_clears ho hb)
  case spills => exact (exec_accForeignSpill core tile s).trans (execAccForeignSpill_spills ht hn)
  case stays => exact (exec_accForeignSpill core tile s).trans (execAccForeignSpill_waits hn)

end Sys2Proof.Machine
end

section
/-! SUPPORT. What an issue comes to that fails a check before its effect (09 R190, R194, R195; 14 R290; 15 R336; 25 R430). -/

namespace Sys2Proof.Machine

/-- An issuer is the fragment that the issuing agent names. -/
theorem State.cur_of_issuer {s : State} {i : Instr} {x : Ctx} (h : s.issuer i = some x) :
    ∃ core slot entry pc word role upset, s.cur = .frag core slot entry pc word role upset := by
  unfold State.issuer at h
  split at h
  · exact ⟨_, _, _, _, _, _, _, by assumption⟩
  · cases h

/-- Steps 4 to 9 of R195 know two causes. -/
theorem Ctx.checkIssue_cause {x : Ctx} {i : Instr} {s : State} {c : Nat} (h : x.checkIssue i s = some c) :
    c = causeReserved ∨ c = causeStallShort := by
  unfold Ctx.checkIssue at h
  obtain ⟨-, hc⟩ | ⟨-, hc⟩ := ite_eq_iff.mp h
  · exact .inl (Option.some.inj hc).symm
  · obtain ⟨-, hc⟩ | ⟨-, hc⟩ := ite_eq_iff.mp hc
    · exact .inr (Option.some.inj hc).symm
    · cases hc

/-- R190, R195: the cause that the checks answer is trapped, without the effect. -/
theorem issue_checked {s : State} {i : Instr} {x : Ctx} {c : Nat} (eff : Ctx → State → Eff) (hi : s.issuer i = some x)
    (hc : x.checkIssue i s.taken = some c) : issue i s eff = .next (s.taken.trapAt x (plain c x.mask)) := by
  obtain ⟨_, _, _, _, _, _, _, hcur⟩ := State.cur_of_issuer hi
  have hat : issueAt i s.taken eff x = s.taken.trapAt x (plain c x.mask) := by rw [issueAt, hc]
  unfold issue
  simp only [hcur, hi]
  exact congrArg _ hat

/-- R194: a matrix-stream instruction traps ILLEGAL_OPC in a warp, whatever its fields. -/
theorem seqIssue_warp {s : State} {i : Instr} {x : Ctx} (ok : SeqCtx → Bool) (eff : SeqCtx → State → SeqEff) (hi : s.issuer i = some x) :
    seqIssue i s ok eff = .next (s.taken.trapAt x (plain causeIllegal x.mask)) := by
  obtain ⟨_, _, _, _, _, _, _, hcur⟩ := State.cur_of_issuer hi
  unfold seqIssue
  simp only [hcur, hi]
  rfl

/-- R290: a sequencer's instruction with a bad field traps, without its effect. -/
theorem seqIssue_unchecked {s : State} {i : Instr} {x : SeqCtx} {ok : SeqCtx → Bool} (eff : SeqCtx → State → SeqEff) (hx : s.seqAt x)
    (hok : ok x = false) : seqIssue i s ok eff = .next (s.taken.seqTrap x.core x.slot x.pc ⟨causeReserved, 0, 0, none⟩) := by
  obtain ⟨word, hcur, hat⟩ := hx
  unfold seqIssue
  simp only [hcur, hat, hok]
  rfl

/-- R336: an operation of the other thread. -/
theorem stoveIssue_otherThread {s : State} {k : Nat} {arith isArith : Bool} {x : Stove} (eff : Nat → State → Stove → StoveEff)
    (h : s.stoveAt k arith x) (hne : arith ≠ isArith) :
    stoveIssue isArith s eff = .next (s.taken.stoveFault k (if arith then x.xpc else x.apc) causeIllegal none) := by
  obtain ⟨stack, ch, rfl, hcur, rfl, hready, hlast⟩ := h
  have hin : ¬ s.dclk + 1 < max s.dclk ((s.stove (stack * 32 + ch)).last arith) := by omega
  unfold stoveIssue
  simp only [hcur, hready, hin, bne_iff_ne.mpr hne]
  rfl

/-- R430: a thread that has issued at both DRAM clocks of this one. -/
theorem stoveIssue_busy {s : State} {stack ch : Nat} {arith isArith : Bool} (eff : Nat → State → Stove → StoveEff)
    (hcur : s.cur = .stove stack ch arith) (hready : (s.stove (stack * 32 + ch)).ready arith = true)
    (hlast : s.dclk + 1 < (s.stove (stack * 32 + ch)).last arith) : stoveIssue isArith s eff = .next s.taken := by
  have hout : s.dclk + 1 < max s.dclk ((s.stove (stack * 32 + ch)).last arith) := by omega
  unfold stoveIssue
  simp only [hcur, hready, hout]
  rfl

/-- Settles O33, from its four claims. -/
theorem issueChecks : Obligations.IssueChecks := by
  refine ⟨?fields, ?stream, ?sequencer, ?thread⟩
  case fields => exact fun s i x eff c hi hc => ⟨Ctx.checkIssue_cause hc, issue_checked eff hi hc⟩
  case stream => exact fun s i x ok eff hi => seqIssue_warp ok eff hi
  case sequencer => exact fun s i x ok eff hx hok => seqIssue_unchecked eff hx hok
  case thread =>
    refine fun s k arith isArith x eff => ⟨stoveIssue_otherThread eff, ?_⟩
    rintro stack ch hcur rfl hready hlast
    exact stoveIssue_busy eff hcur hready hlast

end Sys2Proof.Machine
end

section
/-! SUPPORT. Words and their fields: every word is packed from the fields read of it, and of no others; the decoders and the encoders read the same
tables (09 R180, R186, R190, R193, R194, Tables 9.4 to 9.7; 15 R336, Table 15.7). -/

namespace Sys2Proof.Laws

/-! ## Adjacent fields -/

theorem append_inj {m n : Nat} {a c : BitVec m} {b d : BitVec n} : a ++ b = c ++ d ↔ a = c ∧ b = d := by
  refine ⟨fun h => ⟨?_, ?_⟩, fun ⟨ha, hb⟩ => by rw [ha, hb]⟩
  · simpa only [BitVec.extractLsb'_append_eq_left] using congrArg (BitVec.extractLsb' n m) h
  · simpa only [BitVec.extractLsb'_append_eq_right] using congrArg (BitVec.extractLsb' 0 n) h

/-- A flag is the field of its one bit. -/
theorem ofBool_getLsbD {n : Nat} (x : BitVec n) (k : Nat) : BitVec.ofBool (x.getLsbD k) = x.extractLsb' k 1 := by
  rw [BitVec.getLsbD_eq_extractLsb']
  generalize x.extractLsb' k 1 = b
  decide +revert

/-! ## A body packs back from its fields: they are adjacent and fill it (Table 9.5) -/

theorem packV_vBodyOf (x : DWord) : packV (vBodyOf x) = x := by
  simp only [packV, vBodyOf, BitVec.extractLsb'_append_extractLsb'_eq_extractLsb']
  exact BitVec.extractLsb'_eq_self

theorem packI_iBodyOf (x : DWord) : packI (iBodyOf x) = x := by
  simp only [packI, iBodyOf, BitVec.extractLsb'_append_extractLsb'_eq_extractLsb']
  exact BitVec.extractLsb'_eq_self

theorem packM_mBodyOf (x : DWord) : packM (mBodyOf x) = x := by
  simp only [packM, mBodyOf, BitVec.extractLsb'_append_extractLsb'_eq_extractLsb']
  exact BitVec.extractLsb'_eq_self

theorem packJ_jBodyOf (x : DWord) : packJ (jBodyOf x) = x := by
  simp only [packJ, jBodyOf, BitVec.extractLsb'_append_extractLsb'_eq_extractLsb']
  exact BitVec.extractLsb'_eq_self

theorem packC_cBodyOf (x : DWord) : packC (cBodyOf x) = x := by
  simp only [packC, cBodyOf, BitVec.extractLsb'_append_extractLsb'_eq_extractLsb']
  exact BitVec.extractLsb'_eq_self

theorem packS_sBodyOf (x : DWord) : packS (sBodyOf x) = x := by
  simp only [packS, sBodyOf, BitVec.extractLsb'_append_extractLsb'_eq_extractLsb']
  exact BitVec.extractLsb'_eq_self

/-! ## Stream words (Table 9.4) -/

theorem packHdr_hdrOf (w : BitVec 96) : packHdr (opcOf w).toNat (hdrOf w) ++ bodyOf w = w := by
  simp only [packHdr, opcOf, hdrOf, bodyOf, ofBool_getLsbD, BitVec.ofNat_toNat, BitVec.setWidth_eq,
    BitVec.extractLsb'_append_extractLsb'_eq_extractLsb']
  exact BitVec.extractLsb'_eq_self

theorem packHdr_inj {opc opc' : Nat} {h h' : Hdr} (ho : opc < 1024) (ho' : opc' < 1024) (heq : packHdr opc h = packHdr opc' h') :
    opc = opc' ∧ h = h' := by
  obtain ⟨heq, hfs⟩ := append_inj.mp heq
  obtain ⟨heq, hreu⟩ := append_inj.mp heq
  obtain ⟨heq, hhint⟩ := append_inj.mp heq
  obtain ⟨heq, hu⟩ := append_inj.mp heq
  obtain ⟨heq, hyld⟩ := append_inj.mp heq
  obtain ⟨heq, hstall⟩ := append_inj.mp heq
  obtain ⟨heq, hgm⟩ := append_inj.mp heq
  obtain ⟨heq, hg2⟩ := append_inj.mp heq
  obtain ⟨heq, hg1⟩ := append_inj.mp heq
  rw [BitVec.ofBool_eq_iff_eq] at hgm hyld hu hreu
  refine ⟨?opcode, ?header⟩
  case opcode => simpa only [BitVec.toNat_ofNat, Nat.mod_eq_of_lt ho, Nat.mod_eq_of_lt ho'] using congrArg BitVec.toNat heq
  case header =>
    cases h
    cases h'
    simp_all only

/-- What is packed into a stream word is read of it: both pack into the same word. -/
theorem fields_packHdr {opc : Nat} (ho : opc < 1024) (h : Hdr) (x : DWord) :
    (opcOf (packHdr opc h ++ x)).toNat = opc ∧ hdrOf (packHdr opc h ++ x) = h ∧ bodyOf (packHdr opc h ++ x) = x := by
  obtain ⟨hhdr, hbody⟩ := append_inj.mp (packHdr_hdrOf (packHdr opc h ++ x))
  obtain ⟨hopc, hh⟩ := packHdr_inj (opcOf _).isLt ho hhdr
  exact ⟨hopc, hh, hbody⟩

/-- Each of the 156 stream instructions is read as itself by its class's table; the others have no stream word. -/
theorem classRead (i : Instr) : ClassRead.Statement i := by
  cases i with
  | nop h b => exact ClassRead.nop h b
  | bra h b => exact ClassRead.bra h b
  | brx h b => exact ClassRead.brx h b
  | call h b => exact ClassRead.call h b
  | callx h b => exact ClassRead.callx h b
  | ret h b => exact ClassRead.ret h b
  | exit h b => exact ClassRead.exit h b
  | join h b => exact ClassRead.join h b
  | yield h b => exact ClassRead.yield h b
  | trap h b => exact ClassRead.trap h b
  | tret h b => exact ClassRead.tret h b
  | brk h b => exact ClassRead.brk h b
  | barArrive h b => exact ClassRead.barArrive h b
  | barWait h b => exact ClassRead.barWait h b
  | barSync h b => exact ClassRead.barSync h b
  | barQuery h b => exact ClassRead.barQuery h b
  | drain h b => exact ClassRead.drain h b
  | fence h b => exact ClassRead.fence h b
  | owait h b => exact ClassRead.owait h b
  | cwait h b => exact ClassRead.cwait h b
  | cyield h b => exact ClassRead.cyield h b
  | glaunch h b => exact ClassRead.glaunch h b
  | gwait h b => exact ClassRead.gwait h b
  | add h b => exact ClassRead.add h b
  | sub h b => exact ClassRead.sub h b
  | mul h b => exact ClassRead.mul h b
  | mulh h b => exact ClassRead.mulh h b
  | mad h b => exact ClassRead.mad h b
  | min h b => exact ClassRead.min h b
  | max h b => exact ClassRead.max h b
  | abs h b => exact ClassRead.abs h b
  | neg h b => exact ClassRead.neg h b
  | and h b => exact ClassRead.and h b
  | or h b => exact ClassRead.or h b
  | xor h b => exact ClassRead.xor h b
  | not h b => exact ClassRead.not h b
  | andn h b => exact ClassRead.andn h b
  | shl h b => exact ClassRead.shl h b
  | shr h b => exact ClassRead.shr h b
  | sar h b => exact ClassRead.sar h b
  | rot h b => exact ClassRead.rot h b
  | sel h b => exact ClassRead.sel h b
  | mov h b => exact ClassRead.mov h b
  | cmp h b => exact ClassRead.cmp h b
  | addi h b => exact ClassRead.addi h b
  | andi h b => exact ClassRead.andi h b
  | ori h b => exact ClassRead.ori h b
  | movi h b => exact ClassRead.movi h b
  | cmpi h b => exact ClassRead.cmpi h b
  | lea h b => exact ClassRead.lea h b
  | add64 h b => exact ClassRead.add64 h b
  | mad64 h b => exact ClassRead.mad64 h b
  | popc h b => exact ClassRead.popc h b
  | clz h b => exact ClassRead.clz h b
  | ctz h b => exact ClassRead.ctz h b
  | brev h b => exact ClassRead.brev h b
  | bfe h b => exact ClassRead.bfe h b
  | bfi h b => exact ClassRead.bfi h b
  | prmt h b => exact ClassRead.prmt h b
  | shfn h b => exact ClassRead.shfn h b
  | lop3 h b => exact ClassRead.lop3 h b
  | shfl h b => exact ClassRead.shfl h b
  | lred h b => exact ClassRead.lred h b
  | lscan h b => exact ClassRead.lscan h b
  | vote h b => exact ClassRead.vote h b
  | ballot h b => exact ClassRead.ballot h b
  | bcast h b => exact ClassRead.bcast h b
  | matchLanes h b => exact ClassRead.matchLanes h b
  | prank h b => exact ClassRead.prank h b
  | plop h b => exact ClassRead.plop h b
  | pmask h b => exact ClassRead.pmask h b
  | psetm h b => exact ClassRead.psetm h b
  | pact h b => exact ClassRead.pact h b
  | fadd h b => exact ClassRead.fadd h b
  | fsub h b => exact ClassRead.fsub h b
  | fmul h b => exact ClassRead.fmul h b
  | ffma h b => exact ClassRead.ffma h b
  | fmin h b => exact ClassRead.fmin h b
  | fmax h b => exact ClassRead.fmax h b
  | fcmp h b => exact ClassRead.fcmp h b
  | frnd h b => exact ClassRead.frnd h b
  | fclass h b => exact ClassRead.fclass h b
  | fscale h b => exact ClassRead.fscale h b
  | fexpt h b => exact ClassRead.fexpt h b
  | fdot2 h b => exact ClassRead.fdot2 h b
  | hadd2 h b => exact ClassRead.hadd2 h b
  | hsub2 h b => exact ClassRead.hsub2 h b
  | hmul2 h b => exact ClassRead.hmul2 h b
  | hfma2 h b => exact ClassRead.hfma2 h b
  | hmin2 h b => exact ClassRead.hmin2 h b
  | hmax2 h b => exact ClassRead.hmax2 h b
  | hcmp2 h b => exact ClassRead.hcmp2 h b
  | e8dot4 h b => exact ClassRead.e8dot4 h b
  | frcp h b => exact ClassRead.frcp h b
  | frsq h b => exact ClassRead.frsq h b
  | fsqrt h b => exact ClassRead.fsqrt h b
  | fex2 h b => exact ClassRead.fex2 h b
  | flg2 h b => exact ClassRead.flg2 h b
  | fsin h b => exact ClassRead.fsin h b
  | fcos h b => exact ClassRead.fcos h b
  | fscs h b => exact ClassRead.fscs h b
  | ftanh h b => exact ClassRead.ftanh h b
  | fsig h b => exact ClassRead.fsig h b
  | ferf h b => exact ClassRead.ferf h b
  | cvt h b => exact ClassRead.cvt h b
  | cvtq h b => exact ClassRead.cvtq h b
  | cvtdq h b => exact ClassRead.cvtdq h b
  | cvsc h b => exact ClassRead.cvsc h b
  | pack h b => exact ClassRead.pack h b
  | unpack h b => exact ClassRead.unpack h b
  | ld h b => exact ClassRead.ld h b
  | st h b => exact ClassRead.st h b
  | ldp h b => exact ClassRead.ldp h b
  | stp h b => exact ClassRead.stp h b
  | ldc h b => exact ClassRead.ldc h b
  | lds h b => exact ClassRead.lds h b
  | sts h b => exact ClassRead.sts h b
  | ldl h b => exact ClassRead.ldl h b
  | stl h b => exact ClassRead.stl h b
  | pf h b => exact ClassRead.pf h b
  | wbr h b => exact ClassRead.wbr h b
  | invr h b => exact ClassRead.invr h b
  | atom h b => exact ClassRead.atom h b
  | ared h b => exact ClassRead.ared h b
  | cas16 h b => exact ClassRead.cas16 h b
  | txbeg h b => exact ClassRead.txbeg h b
  | txend h b => exact ClassRead.txend h b
  | txabt h b => exact ClassRead.txabt h b
  | bcopy h b => exact ClassRead.bcopy h b
  | bloop h b => exact ClassRead.bloop h b
  | brel h b => exact ClassRead.brel h b
  | bmcast h b => exact ClassRead.bmcast h b
  | kcoll h b => exact ClassRead.kcoll h b
  | mseal h b => exact ClassRead.mseal h b
  | munseal h b => exact ClassRead.munseal h b
  | mmac h b => exact ClassRead.mmac h b
  | mstart h b => exact ClassRead.mstart h b
  | mzero h b => exact ClassRead.mzero h b
  | mget h b => exact ClassRead.mget h b
  | mput h b => exact ClassRead.mput h b
  | mbwait h b => exact ClassRead.mbwait h b
  | mbarr h b => exact ClassRead.mbarr h b
  | mbra h b => exact ClassRead.mbra h b
  | mloop h b => exact ClassRead.mloop h b
  | mset h b => exact ClassRead.mset h b
  | mpoint h b => exact ClassRead.mpoint h b
  | mend h b => exact ClassRead.mend h b
  | mfence h b => exact ClassRead.mfence h b
  | gred h b => exact ClassRead.gred h b
  | nred h b => exact ClassRead.nred h b
  | nlaunch h b => exact ClassRead.nlaunch h b
  | nstat h b => exact ClassRead.nstat h b
  | nkill h b => exact ClassRead.nkill h b
  | srd h b => exact ClassRead.srd h b
  | swr h b => exact ClassRead.swr h b
  | sysc h b => exact ClassRead.sysc h b
  | _ => exact ClassRead.no rfl

theorem decodeStream_of_encodeStream {i : Instr} {w : BitVec 96} (he : encodeStream i = some w) : decodeStream w = some i := by
  unfold encodeStream at he
  split at he
  case h_1 opc h x hp =>
    cases he
    obtain ⟨hlt, hd⟩ := classRead i opc h x hp
    obtain ⟨hopc, hh, hx⟩ := fields_packHdr hlt h x
    rw [decodeStream, hopc, hh, hx, hd]
  case h_2 => cases he

/-- What a class's table reads has the parts it was read from: class by class, row by row. -/
theorem streamParts_of_decodeOpc {cls op : Nat} {h : Hdr} {x : DWord} {i : Instr} (hd : decodeOpc cls op h x = some i) :
    streamParts i = some (64 * cls + op, h, x) := by
  unfold decodeOpc at hd
  split at hd
  case h_17 => cases hd
  all_goals
    simp only [decodeControl, decodeSync, decodeInteger, decodeBit, decodeCrossLane, decodePredicate, decodeFp32, decodePacked, decodeSpecial,
      decodeConvert, decodeMemory, decodeAtomic, decodeCopy, decodeMatrix, decodeNear, decodeSystem] at hd
    split at hd
    all_goals cases hd
    all_goals simp only [streamParts, packV_vBodyOf, packI_iBodyOf, packM_mBodyOf, packJ_jBodyOf, packC_cBodyOf, packS_sBodyOf]

theorem encodeStream_of_decodeStream {i : Instr} {w : BitVec 96} (hd : decodeStream w = some i) : encodeStream i = some w := by
  have hp := streamParts_of_decodeOpc hd
  rw [Nat.div_add_mod] at hp
  rw [encodeStream, hp]
  exact congrArg some (packHdr_hdrOf w)

/-- How many operations Table 9.7 assigns to each class. -/
def assignedOps : List Nat := [12, 11, 29, 9, 8, 4, 12, 8, 11, 6, 12, 6, 5, 15, 5, 3]

/-- R194: class by class, the rows of the table are the operations below its count. -/
theorem decodeOpc_isSome {cls : Nat} (hc : cls < 16) (op : Nat) (h : Hdr) (x : DWord) :
    (decodeOpc cls op h x).isSome = true ↔ op < assignedOps.getD cls 0 := by
  unfold decodeOpc
  split
  case h_17 =>
    simp only [imp_false] at *
    omega
  all_goals
    simp only [decodeControl, decodeSync, decodeInteger, decodeBit, decodeCrossLane, decodePredicate, decodeFp32, decodePacked, decodeSpecial,
      decodeConvert, decodeMemory, decodeAtomic, decodeCopy, decodeMatrix, decodeNear, decodeSystem]
    split
    all_goals simp [assignedOps]
    -- what is left is no row of the table: `op` is none of the numbers below the count
    simp only [imp_false] at *
    omega

/-! ## Stove words (Table 15.7) -/

theorem packStove_fields (w : Word) :
    packStove (w.extractLsb' 27 5).toNat (w.extractLsb' 23 4) (w.extractLsb' 19 4) (w.extractLsb' 15 4) (w.extractLsb' 0 15) = w := by
  simp only [packStove, BitVec.ofNat_toNat, BitVec.setWidth_eq, BitVec.extractLsb'_append_extractLsb'_eq_extractLsb']
  exact BitVec.extractLsb'_eq_self

theorem packStove_inj {op op' : Nat} {d d' a a' b b' : BitVec 4} {i i' : BitVec 15} (ho : op < 32) (ho' : op' < 32)
    (heq : packStove op d a b i = packStove op' d' a' b' i') : op = op' ∧ d = d' ∧ a = a' ∧ b = b' ∧ i = i' := by
  obtain ⟨heq, hi⟩ := append_inj.mp heq
  obtain ⟨heq, hb⟩ := append_inj.mp heq
  obtain ⟨heq, ha⟩ := append_inj.mp heq
  obtain ⟨heq, hd⟩ := append_inj.mp heq
  have hop : op = op' := by
    simpa only [BitVec.toNat_ofNat, Nat.mod_eq_of_lt ho, Nat.mod_eq_of_lt ho'] using congrArg BitVec.toNat heq
  exact ⟨hop, hd, ha, hb, hi⟩

/-- What is packed into a stove word is read of it: both pack into the same word. -/
theorem fields_packStove {op : Nat} (ho : op < 32) (d a b : BitVec 4) (i : BitVec 15) :
    ((packStove op d a b i).extractLsb' 27 5).toNat = op ∧ (packStove op d a b i).extractLsb' 23 4 = d ∧
      (packStove op d a b i).extractLsb' 19 4 = a ∧ (packStove op d a b i).extractLsb' 15 4 = b ∧ (packStove op d a b i).extractLsb' 0 15 = i := by
  have heq := packStove_fields (packStove op d a b i)
  exact packStove_inj (BitVec.isLt _) ho heq

theorem exists_packStove (w : Word) : ∃ op d a b imm, op < 32 ∧ w = packStove op d a b imm :=
  ⟨_, _, _, _, _, BitVec.isLt _, (packStove_fields w).symm⟩

theorem stoveIf_eq_ok {ok : Bool} {i j : Instr} : stoveIf ok i = .ok j ↔ ok = true ∧ j = i := by
  cases ok
  · simp [stoveIf]
  · simp [stoveIf, eq_comm]

theorem stoveIf_ne_illegal {ok : Bool} {i : Instr} : stoveIf ok i ≠ .error .illegal := by
  cases ok
  · simp [stoveIf]
  · simp [stoveIf]

/-- The instructions without a stove word go by `cases`; each of the others is the row of the table that its fields, read back, select. -/
theorem decodeStove_of_encodeStove {i : Instr} {w : Word} (he : encodeStove i = some w) : decodeStove w = .ok i := by
  cases i
  all_goals cases he
  all_goals simp only [decodeStove, Nat.reduceLT, fields_packStove, stoveIf, beq_self_eq_true, Bool.and_self, if_true, BitVec.reduceToNat,
    BitVec.ofNat_eq_ofNat]

/-- Row by row: a field that the instruction does not keep has been checked to be 0. The rows of OP 24 differ in B. -/
theorem encodeStove_of_decodeStove {i : Instr} {w : Word} (hd : decodeStove w = .ok i) : encodeStove i = some w := by
  obtain ⟨op, d, a, b, imm, hop, rfl⟩ := exists_packStove w
  simp only [decodeStove, fields_packStove hop] at hd
  split at hd
  case h_19 =>
    split at hd
    case h_1 hb =>
      cases hd
      rw [BitVec.eq_of_toNat_eq (y := 0) hb]
      rfl
    case h_2 hb =>
      cases hd
      rw [BitVec.eq_of_toNat_eq (y := 1) hb]
      rfl
    case h_3 hb =>
      obtain ⟨himm, rfl⟩ := stoveIf_eq_ok.mp hd
      rw [BitVec.eq_of_toNat_eq (y := 2) hb, beq_iff_eq.mp himm]
      rfl
    case h_4 => cases hd
  case h_6 | h_8 | h_21 =>
    cases hd
    rfl
  all_goals simp_all [stoveIf_eq_ok]
  all_goals rfl

theorem decodeStove_illegal (w : Word) : decodeStove w = .error .illegal ↔
    (10 ≤ (w.extractLsb' 27 5).toNat ∧ (w.extractLsb' 27 5).toNat < 16) ∨ 28 ≤ (w.extractLsb' 27 5).toNat := by
  obtain ⟨op, d, a, b, imm, hop, rfl⟩ := exists_packStove w
  simp only [decodeStove, fields_packStove hop]
  split
  case h_19 =>
    split
    all_goals simp [stoveIf_ne_illegal]
  case h_23 =>
    simp only [imp_false] at *
    simp only [true_iff]
    omega
  all_goals simp [stoveIf_ne_illegal]

/-! ## The claims -/

/-- Settles O53: each decoder undoes its encoder, and is undone by it. -/
theorem decodeEncode : Obligations.DecodeEncode := by
  unfold Obligations.DecodeEncode
  exact ⟨fun _ _ => decodeStream_of_encodeStream, fun _ _ => encodeStream_of_decodeStream, fun _ _ => decodeStove_of_encodeStove,
    fun _ _ => encodeStove_of_decodeStove⟩

/-- Settles O54, table by table. -/
theorem assignedOpcodes : Obligations.AssignedOpcodes := by
  unfold Obligations.AssignedOpcodes
  exact ⟨fun w => decodeOpc_isSome (Nat.div_lt_of_lt_mul (opcOf w).isLt) _ _ _, decodeStove_illegal⟩

/-- Settles O55: the encoder writes these words, and what it writes is read back. -/
theorem decodedWords : Obligations.DecodedWords := by
  unfold Obligations.DecodedWords
  exact ⟨decodeStream_of_encodeStream rfl, decodeStream_of_encodeStream rfl, decodeStream_of_encodeStream rfl, decodeStove_of_encodeStove rfl,
    decodeStove_of_encodeStove rfl⟩

end Sys2Proof.Laws
end

section
/-! SUPPORT. Transfers of control (02 R32, R34; 10 R203 to R206): where the split table has room a transfer goes on, elsewhere it traps SPLIT_DEPTH.
What decides that is the split table alone, which neither results nor the completion of an instruction change. -/

namespace Sys2Proof.Machine
open Sys2Proof.Claims

/-! ## The split table of a warp -/

/-- The entries and the deferral records. -/
def Warp.splits (w : Warp) : Tab Entry × List Deferral := (w.entries, w.deferrals)

theorem Warp.entry_of_splits {v w : Warp} (h : v.splits = w.splits) (i : Nat) : v.entry i = w.entry i :=
  congrArg (fun p : Tab Entry × List Deferral => Tab.get p.1 Entry.empty i) h

theorem Warp.deferrals_of_splits {v w : Warp} (h : v.splits = w.splits) : v.deferrals = w.deferrals := congrArg Prod.snd h

theorem Warp.setFile_splits (w : Warp) (e : Elem) (d : DWord) : (w.setFile e d).splits = w.splits := by
  cases e with
  | v r t => rfl
  | s r =>
    dsimp only [Warp.setFile]
    split <;> rfl
  | p i t =>
    dsimp only [Warp.setFile]
    split <;> rfl

/-- Results that are written one by one keep the split table where each of them does. -/
theorem splits_foldl {f : Warp → RegWrite → Warp} (hf : ∀ w r, (f w r).splits = w.splits) (l : List RegWrite) (w : Warp) :
    (l.foldl f w).splits = w.splits := by
  induction l generalizing w with
  | nil => rfl
  | cons r l ih => exact (ih (f w r)).trans (hf w r)

theorem Warp.asRead_splits (w : Warp) (e : Nat) : (w.asRead e).splits = w.splits := by
  unfold Warp.asRead
  split
  · rfl
  · refine splits_foldl (fun w r => ?_) _ w
    exact Warp.setFile_splits w r.elem r.val

theorem writeBack_splits (l : List RegWrite) (w : Warp) : (l.foldl (fun w r => w.writeBack r.elem r.val) w).splits = w.splits :=
  splits_foldl (fun w r => Warp.setFile_splits { w with windows := w.windows.filter fun y => y.elem != r.elem } r.elem r.val) l w

/-! ## Room for a transfer (R32, R34) -/

/-- The split table takes these groups of entry `e`: the entry runs a branch again, or there is one group, a free entry for each, or a free
record (assumption 92). -/
def Warp.takesGroups (w : Warp) (e : Nat) (groups : List (DWord × DWord)) : Prop :=
  (w.entry e).reexec = true ∨ groups.length ≤ 1 ∨ groups.length ≤ w.freeEntries ∨ w.deferrals.length < 32

/-- A transfer that is refused has met none of the ways in which the table takes its groups. -/
theorem Warp.transfer_eq_none (w : Warp) (e : Nat) (b : DWord) (np : Nat → DWord) (taken : DWord) (recon : Option DWord) (keep : Bool) :
    w.transfer e b np taken recon keep = none ↔ ¬ w.takesGroups e (groupsOf (w.entry e).mask taken np) := by
  dsimp only [Warp.transfer, Warp.takesGroups]
  generalize groupsOf (w.entry e).mask taken np = groups
  match groups with
  | [] => simp
  | [g] => cases (w.entry e).reexec <;> simp
  | g :: g2 :: rest =>
    by_cases hre : (w.entry e).reexec = true
    · simp [hre]
    · by_cases hf : rest.length + 1 < w.freeEntries
      · simp [hre, hf]
      · by_cases hd : w.deferrals.length < 32 <;> simp [hre, hf, hd]

/-- A transfer of entry `e` finds the same room in both warps. -/
structure Warp.SameRoom (e : Nat) (v w : Warp) : Prop where
  st : ∀ i, (v.entry i).st = (w.entry i).st
  mask : (v.entry e).mask = (w.entry e).mask
  reexec : (v.entry e).reexec = (w.entry e).reexec
  deferrals : v.deferrals = w.deferrals

theorem Warp.SameRoom.takesGroups {e : Nat} {v w : Warp} (h : Warp.SameRoom e v w) (groups : List (DWord × DWord)) :
    v.takesGroups e groups ↔ w.takesGroups e groups := by
  unfold Warp.takesGroups Warp.freeEntries
  simp only [h.reexec, h.deferrals, h.st]

theorem Warp.SameRoom.of_splits {v w : Warp} (e : Nat) (h : v.splits = w.splits) : Warp.SameRoom e v w :=
  ⟨fun i => by rw [Warp.entry_of_splits h], by rw [Warp.entry_of_splits h], by rw [Warp.entry_of_splits h], Warp.deferrals_of_splits h⟩

theorem Warp.SameRoom.trans {e : Nat} {u v w : Warp} (h : Warp.SameRoom e u v) (h' : Warp.SameRoom e v w) : Warp.SameRoom e u w :=
  ⟨fun i => (h.st i).trans (h'.st i), h.mask.trans h'.mask, h.reexec.trans h'.reexec, h.deferrals.trans h'.deferrals⟩

theorem Entry.ne_empty_of_run {y : Entry} (h : y.st = .run) : y ≠ Entry.empty := by
  rintro rfl
  cases h

/-- A running entry that stays so and keeps its MASK, whatever else changes of it and of the warp around the split table. -/
theorem Warp.SameRoom.modEntry {v w : Warp} {e : Nat} {f : Entry → Entry} (h : v.splits = w.splits) (hrun : (w.entry e).st = .run)
    (hf : ∀ y, (f y).st = y.st ∧ (f y).mask = y.mask ∧ (f y).reexec = y.reexec) : Warp.SameRoom e (v.modEntry e f) w := by
  refine .trans ?_ (.of_splits e h)
  obtain ⟨hst, hmask, hre⟩ := hf (v.entry e)
  have hself : (v.modEntry e f).entry e = f (v.entry e) :=
    v.entry_setEntry_self e (Entry.ne_empty_of_run (hst.trans (by rw [Warp.entry_of_splits h, hrun])))
  refine ⟨fun i => ?_, by rw [hself, hmask], by rw [hself, hre], rfl⟩
  by_cases hi : i = e
  · rw [hi, hself, hst]
  · exact congrArg Entry.st (v.entry_setEntry_ne _ hi)

/-- The completion of an instruction leaves the split table the room that it had. -/
theorem State.advance_sameRoom {s : State} {x : Ctx} {w : Warp} (hw : s.warp? x.core x.slot = some w) (hrun : (w.entry x.entry).st = .run) :
    ∃ v, (s.advance x).warp? x.core x.slot = some v ∧ Warp.SameRoom x.entry v w := by
  unfold State.advance
  cases x.role
  all_goals
    refine ⟨_, (State.modWarp_warp? s _ _ _ _ _).trans (by rw [if_pos rfl, hw, Option.map_some]),
      Warp.SameRoom.modEntry ?_ hrun fun y => ?_⟩
    · rfl
    · exact ⟨rfl, rfl, rfl⟩

/-- A transfer finds no room just when the split table does not take its groups. -/
theorem State.jump_eq_none {s : State} {x : Ctx} {w : Warp} (np : Nat → DWord) (taken : DWord) (recon : Option DWord) (keep : Bool)
    (hw : s.warp? x.core x.slot = some w) (hrun : (w.entry x.entry).st = .run) :
    s.jump x np taken recon keep = none ↔ ¬ w.takesGroups x.entry (groupsOf (w.entry x.entry).mask taken np) := by
  obtain ⟨v, hv, hroom⟩ := s.advance_sameRoom hw hrun
  rw [← hroom.takesGroups, ← hroom.mask, ← Warp.transfer_eq_none v x.entry x.pc np taken recon keep]
  simp only [State.jump, hv]
  cases v.transfer x.entry x.pc np taken recon keep <;> simp

/-! ## The warp of a fragment that issues -/

/-- The fragment is one of its warp's entries, and runs. -/
theorem Ready.entry {i : Instr} {s : State} {x : Ctx} (h : Ready i s x) : x.e = x.w.entry x.entry ∧ x.e.st = .run := by
  obtain ⟨hcur, w, hw, -⟩ := h.cur
  have hi := h.issuer
  simp only [State.issuer, hcur, hw, Option.map_some] at hi
  split at hi
  · cases hi
  · obtain ⟨hrun, hxe⟩ := Option.ite_none_right_eq_some.mp hi
    rw [← Option.some.inj hxe]
    exact ⟨rfl, hrun⟩

/-- The warp has the split table that its fragment reads, whatever link is written. -/
theorem Ready.linked {i : Instr} {s : State} {x : Ctx} (h : Ready i s x) (link : List RegWrite) :
    ∃ w, (if x.act = 0 then s.taken else s.taken.writeBack x.core x.slot link).warp? x.core x.slot = some w ∧ w.splits = x.w.splits := by
  obtain ⟨-, w, hw, hx⟩ := h.cur
  have hread : x.w.splits = w.splits := by rw [hx, Warp.asRead_splits]
  split
  · exact ⟨w, hw, hread.symm⟩
  · refine ⟨_, (State.modWarp_warp? s.taken _ _ _ _ _).trans ?_, (writeBack_splits link w).trans hread.symm⟩
    rw [if_pos rfl]
    exact congrArg (Option.map _) hw

/-! ## Transfers at issue (R203 to R206) -/

section
variable {s : State} {x : Ctx} {target : Nat → DWord} {recon : Option DWord} {first : Bool} {link : List RegWrite}

/-- A transfer goes on where there is room for it, and traps where there is none. -/
theorem issue_transfer {i : Instr} {eff : Ctx → State → Eff} (hr : Ready i s x)
    (he : eff x s.taken = .jump (if x.act = 0 then s.taken else s.taken.writeBack x.core x.slot link) (nextPcs x target) (if first then x.act else 0)
      recon false) :
    (hasRoom x target first → ∃ t, went s x target first recon link = some t ∧ issue i s eff = .next t) ∧
      (¬ hasRoom x target first → issue i s eff = .next (s.taken.trapAt x (plain causeSplitDepth x.mask))) := by
  obtain ⟨w, hw, hsplits⟩ := hr.linked link
  obtain ⟨he', hrun⟩ := hr.entry
  have hent : w.entry x.entry = x.w.entry x.entry := Warp.entry_of_splits hsplits x.entry
  have hnone := State.jump_eq_none (nextPcs x target) (if first then x.act else 0) recon false hw (by rw [hent, ← he', hrun])
  rw [hent, (Warp.SameRoom.of_splits x.entry hsplits).takesGroups] at hnone
  rw [issue_ready hr, he]
  dsimp only [finish, went]
  refine ⟨fun hroom => ?_, fun hfull => by rw [hnone.mpr hfull]⟩
  obtain ⟨u, hu⟩ := Option.ne_none_iff_exists'.mp fun h => hnone.mp h hroom
  rw [hu]
  exact ⟨_, rfl, rfl⟩

/-- Targets and a reconvergence PC that pass their checks leave the transfer itself. -/
theorem xfer_of_canGo (hgo : canGo s.taken x target recon) : xfer x s.taken target recon true first link =
    .jump (if x.act = 0 then s.taken else s.taken.writeBack x.core x.slot link) (nextPcs x target) (if first then x.act else 0) recon false := by
  obtain ⟨htarget, hslot⟩ := hgo
  have hbad : x.badTargets s.taken target = [] := by
    refine List.filterMap_eq_nil_iff.mpr fun t ht => ?_
    split
    · rfl
    · next hne => rw [htarget t ht hne, Option.map_none]
  have hrecon : ¬ recon.any (fun r => !pcShapeOk r) = true := by
    cases recon with
    | none => simp
    | some r => simp [hslot r rfl]
  dsimp only [xfer]
  rw [hbad, if_pos rfl]
  exact if_neg hrecon

/-- A transfer that passes its checks. -/
theorem issue_xfer {i : Instr} (hr : Ready i s x) {eff : Ctx → State → Eff} (he : eff x s.taken = xfer x s.taken target recon true first link)
    (hgo : canGo s.taken x target recon) :
    (hasRoom x target first → ∃ t, went s x target first recon link = some t ∧ issue i s eff = .next t) ∧
      (¬ hasRoom x target first → issue i s eff = .next (s.taken.trapAt x (plain causeSplitDepth x.mask))) :=
  issue_transfer hr (he.trans (xfer_of_canGo hgo))

end

/-- Settles O7: each transfer checks its own targets, but for `join`, whose target needs no check. -/
theorem transfers : Obligations.Transfers := by
  unfold Obligations.Transfers
  intro s h j b x T
  refine ⟨fun hr hgo => ?bra, fun hr hgo => ?call, fun hr hgo => ?brx, fun hr hgo => ?callx, fun hr hgo => ?ret, fun hr => ?join⟩
  case bra => exact issue_xfer hr rfl hgo
  case call => exact issue_xfer hr rfl hgo
  case brx => exact issue_xfer hr rfl hgo
  case callx => exact issue_xfer hr rfl hgo
  case ret => exact issue_xfer hr rfl hgo
  case join => exact issue_transfer hr rfl

end Sys2Proof.Machine
end

section
/-! SUPPORT. The way into and out of the user trap handler, and the control class but for its transfers (10 R207 to R211; 03 R66). -/

namespace Sys2Proof.Machine
open Sys2Proof.Claims

/-! ## Into the handler (R210) -/

/-- The entry of a fragment in the handler. -/
def Entry.inHandler (e : Entry) (pc : DWord) : Entry :=
  { e with pc := pc, nclk := e.clockDue, age := 0, satAt := none, wait := .none, handler := true, seqd := false, reexec := false, paired := none }

/-- The warp whose fragment has entered the handler. -/
def Warp.inHandler (w : Warp) (entry : Nat) (pc : DWord) (regs : TrapRegs) : Warp :=
  ({ w with trap := regs, handler := some (entry, (w.entry entry).mask), handlerRe := (w.entry entry).reexec } : Warp).closeWindows.setEntry entry
    ((w.entry entry).inHandler pc)

/-- A handler PC that passes its check is entered. -/
theorem State.enterHandler_checked {s : State} {core slot : Nat} (entry : Nat) (regs : TrapRegs) {w : Warp} {g : Grid} (hw : s.warp? core slot = some w)
    (hg : s.gridOfTeam w.team = some g) (hh : g.lr.handler ≠ 0) (hpc : s.targetCause core g.ctx g.vf g.lr.handler = none) :
    s.enterHandler core slot entry regs = s.setWarp core slot (w.inHandler entry g.lr.handler regs) := by
  have hgo : ¬ (decide (g.lr.handler = 0) || (s.targetCause core g.ctx g.vf g.lr.handler).isSome) = true := by
    rw [hpc, decide_eq_false hh]
    decide
  dsimp only [State.enterHandler]
  rw [hw]
  dsimp only
  rw [hg]
  exact if_neg hgo

/-- Settles O10: the warp that has entered is the old one but for its trap registers, its windows and the trapping entry. -/
theorem handlerEntry : Obligations.HandlerEntry := by
  unfold Obligations.HandlerEntry
  intro s core slot entry regs w g hw hg hh hpc hmask
  have hself : (w.inHandler entry g.lr.handler regs).entry entry = (w.entry entry).inHandler g.lr.handler :=
    Warp.entry_setEntry_self _ entry (Entry.ne_empty_of_mask hmask)
  rw [State.enterHandler_checked entry regs hw hg hh hpc]
  refine ⟨w.inHandler entry g.lr.handler regs, by rw [State.setWarp_warp?, if_pos rfl], rfl, rfl, rfl, ?_⟩
  rw [hself]
  exact ⟨rfl, rfl, rfl, rfl, rfl, fun i hi => Warp.entry_setEntry_ne _ _ hi, rfl, rfl, rfl, rfl, rfl, rfl⟩

/-! ## `nop`, `exit`, `yield`, `brk` (R207 to R209) -/

theorem issue_stand {i : Instr} {s t : State} {x : Ctx} {k : Wait} {eff : Ctx → State → Eff} (hr : Ready i s x)
    (he : eff x s.taken = .stand t k) : issue i s eff = .next ((t.completed x).standAside x k) := by
  rw [issue_ready hr, he]
  rfl

theorem controlMembers : ControlMembers := by
  intro s h b x
  refine ⟨fun hr => ?nop, fun hr => ?exit, fun hr ha => ?yieldIdle, fun hr ha => ?yield, fun hr hu => ?brk⟩
  case nop => exact issue_done hr rfl
  case exit => exact issue_done hr rfl
  case yieldIdle => exact issue_done hr (if_pos ha)
  case yield => exact issue_stand hr (if_neg ha)
  case brk =>
    have hu' : s.taken.brkUnit x.vf x.gctx = none := hu
    exact issue_done hr (by rw [hu'])

/-! ## `trap` and `tret` (R211) -/

/-- A mode is 0 just when the operand is: only then is a branch that trapped under re-execution pending no more. -/
theorem Warp.leaveHandler_eq (w : Warp) (entry : Nat) (imm : Word) : w.leaveHandler entry imm.toNat =
    (if w.handlerRe = true ∧ imm = 0 then w.changeNewest entry fun r => some { r with p := r.p &&& ~~~(w.entry entry).mask } else w).modEntry
      entry fun e => { e with pc := if imm = 0 then nextPc w.trap.pc else w.trap.pc, seqd := false, reexec := w.handlerRe && imm != 0 } := by
  have hz : imm.toNat = 0 ↔ imm = 0 := (BitVec.toNat_eq (y := 0)).symm
  have hb : (imm.toNat != 0) = (imm != 0) := by rw [Bool.eq_iff_iff, bne_iff_ne, bne_iff_ne, ne_eq, hz]
  dsimp only [Warp.leaveHandler]
  simp only [hz, hb, Bool.and_eq_true, decide_eq_true_eq]
  split <;> rfl

theorem trapAndReturn : TrapAndReturn := by
  intro s h b x
  refine ⟨fun hr ha => ?trapIdle, fun hr ha => ?trap, fun hr hok => ?returns, fun hr hok => ?reserved⟩
  case trapIdle => exact issue_done hr (if_pos ha)
  case trap => exact issue_trap hr (if_neg ha)
  case returns =>
    simp only [← Warp.leaveHandler_eq]
    have hok' : ¬ (!x.tretOk h b) = true := by simp [hok]
    rw [exec_tret, execTret, issue_ready hr, if_neg hok']
    rfl
  case reserved => exact issue_trap hr (if_pos (by simp [hok]))

/-- Settles O12, from the two claims it joins. -/
theorem controlFlow : Obligations.ControlFlow := ⟨controlMembers, trapAndReturn⟩

end Sys2Proof.Machine
end

section
/-! SUPPORT. Numbered barriers (10 R212 to R217; 04 R127): what an arrival leaves of a barrier, and the instructions that arrive, query and wait. -/

namespace Sys2Proof.Machine

/-! ## Arrivals (R214) -/

/-- Every thread of a list is put at the same value, and none of them is put at another later. -/
theorem find?_foldl_put {α : Type} (g : α) {t : Nat} (l : List Nat) (p : Tab α) (h : p.find? t = some g ∨ t ∈ l) :
    (l.foldl (fun p t => Tab.put p t g) p).find? t = some g := by
  induction l generalizing p with
  | nil => exact h.resolve_right List.not_mem_nil
  | cons a l ih =>
    refine ih _ ?_
    by_cases hta : t = a
    · rw [hta]
      exact .inl (Tab.find?_put_self p a g)
    · rw [Tab.find?_put_ne p g hta]
      exact h.imp_right fun hm => (List.mem_cons.mp hm).resolve_left hta

section
variable (b : Barrier) (launched count size : Nat) (lin : List Nat)

/-- The barrier once an arrival has named its number, the count, or with 0 the threads of the team. -/
def Barrier.named : Barrier :=
  if b.arrived = 0 && b.expected = 0 then { b with expected := if count = 0 then launched else count }
  else if (if count = 0 then launched else count) != b.expected then { b with mism := true }
  else b

/-- The barrier with its arrivals counted, before a release. -/
def Barrier.counted : Barrier := { b.named launched count with
  arrived := min ((b.named launched count).arrived + size) 2047
  pend := lin.foldl (fun p t => Tab.put p t (b.named launched count).gen) (b.named launched count).pend }

/-- The first arrival of a generation sets EXPECTED, a later one with another number sets MISM. -/
theorem Barrier.named_eq : b.named launched count = { b with
    expected := if b.arrived = 0 ∧ b.expected = 0 then (if count = 0 then launched else count) else b.expected
    mism := if ¬(b.arrived = 0 ∧ b.expected = 0) ∧ (if count = 0 then launched else count) ≠ b.expected then true else b.mism } := by
  unfold Barrier.named
  generalize (if count = 0 then launched else count) = want
  by_cases hfirst : b.arrived = 0 ∧ b.expected = 0
  · simp [hfirst]
  · by_cases hwant : want = b.expected <;> simp [hfirst, hwant]

theorem Barrier.counted_eq : b.counted launched count size lin = { b.named launched count with
    arrived := min (b.arrived + size) 2047
    pend := lin.foldl (fun p t => Tab.put p t b.gen) b.pend } := by
  unfold Barrier.counted
  rw [Barrier.named_eq]

variable {b launched count size lin}

/-- Below the expected number an arrival only counts. -/
theorem Barrier.arrive_below (h : min (b.arrived + size) 2047 < (b.named launched count).expected) :
    b.arrive launched count size lin = (b.counted launched count size lin, false) := by
  have hc : ¬ (b.counted launched count size lin).expected ≤ (b.counted launched count size lin).arrived := by
    rw [Barrier.counted_eq]
    exact Nat.not_le.mpr h
  exact if_neg hc

/-- At the expected number it releases the generation. -/
theorem Barrier.arrive_reached (h : (b.named launched count).expected ≤ min (b.arrived + size) 2047) :
    b.arrive launched count size lin = ((b.counted launched count size lin).release, true) := by
  have hc : (b.counted launched count size lin).expected ≤ (b.counted launched count size lin).arrived := by
    rw [Barrier.counted_eq]
    exact h
  exact if_pos hc

end

/-- Settles O14: below the expected number the arrivals are counted, at it the generation is released. -/
theorem barrierArrival : Obligations.BarrierArrival := by
  unfold Obligations.BarrierArrival
  intro b launched count size lin want first expected mism n r
  have hexp : (b.named launched count).expected = expected := by rw [Barrier.named_eq]
  have hbelow : n < expected → r = (b.counted launched count size lin, false) := fun h => Barrier.arrive_below (hexp ▸ h)
  have hreached : expected ≤ n → r = ((b.counted launched count size lin).release, true) := fun h => Barrier.arrive_reached (hexp ▸ h)
  rw [Barrier.counted_eq, Barrier.named_eq] at hbelow hreached
  refine ⟨fun t ht => ?pend, fun h => ?below, fun h => ?reached⟩
  case pend =>
    have hp := find?_foldl_put b.gen lin b.pend (.inr ht)
    rcases Nat.lt_or_ge n expected with h | h
    · rw [hbelow h]
      exact hp
    · rw [hreached h]
      exact hp
  case below =>
    rw [hbelow h]
    exact ⟨rfl, rfl, rfl, rfl, rfl, rfl⟩
  case reached =>
    rw [hreached h]
    exact ⟨rfl, rfl, rfl, rfl, rfl, rfl, rfl⟩

/-! ## Instructions (R213 to R217) -/

section
variable {s t : State} {x : Ctx} {n : Nat} {d : BitVec 8}

/-- A wait whose generations are released returns their status. -/
theorem barWaitEff_ready (h : (t.barOf x n).ready (x.w.linear x.act) = true) : barWaitEff x t d n =
    .done ((((t.modTeam x.team fun u => u.setBar n ((t.barOf x n).finishWait (x.w.linear x.act)).2).raiseFloor x.core x.slot
      (t.barOf x n).floor).writeBack x.core x.slot [putS d ((t.barOf x n).finishWait (x.w.linear x.act)).1]).closeWin x) := if_pos h

theorem barWaitEff_waits (h : (t.barOf x n).ready (x.w.linear x.act) = false) : barWaitEff x t d n = .wait t (.bar n) :=
  if_neg (Bool.eq_false_iff.mp h)

/-- A `bar.sync` that does not wait yet arrives before it does. -/
theorem execBarSync_arrives {h : Hdr} {b : IBody} (hr : Ready (.barSync h b) s x) (ha : x.act ≠ 0) (hw : x.e.wait ≠ .bar (b.imm.toNat % 16)) :
    execBarSync h b s = .next (finish x s.taken (barWaitEff x (s.taken.arriveActive x b.imm.toNat) b.d (b.imm.toNat % 16))) := by
  rw [execBarSync, issue_ready hr, if_neg ha]
  dsimp only
  rw [if_neg hw]

end

/-- Settles O13, instruction by instruction. -/
theorem barrierMembers : Obligations.BarrierMembers := by
  unfold Obligations.BarrierMembers
  intro s h b x n lin back
  refine ⟨fun hr => ?arrive, fun hr ha => ?query, fun hr ha hready => ?waitReturns, fun hr ha hready => ?waits, fun hr ha hw hready => ?syncReturns,
    fun hr ha hw hready => ?syncWaits⟩
  case arrive => exact issue_done hr rfl
  case query => exact issue_done hr (if_neg ha)
  case waitReturns => exact issue_done hr ((if_neg ha).trans (barWaitEff_ready hready))
  case waits => exact issue_wait hr ((if_neg ha).trans (barWaitEff_waits hready))
  case syncReturns =>
    rw [exec_barSync, execBarSync_arrives hr ha hw, barWaitEff_ready hready]
    rfl
  case syncWaits =>
    rw [exec_barSync, execBarSync_arrives hr ha hw, barWaitEff_waits hready]
    rfl

end Sys2Proof.Machine
end

section
/-! SUPPORT. The waiting instructions (10 R218 to R222, R224): what each waits for, what it does then, and the rereads of a counter. -/

namespace Sys2Proof.Machine
open Sys2Proof.Claims

/-! ## `drain`, `fence`, `owait`, `gwait` (R218 to R220, R224) -/

section
variable {s : State} {x : Ctx} {h : Hdr} {b : IBody} (ha : x.act ≠ 0)
include ha

theorem execDrain_returns (hr : Ready (.drain h b) s x) (hc : x.w.cntStore = 0) : execDrain h b s =
    .next (((if b.imm.getLsbD 15 then s.taken else s.taken.arriveActive x b.imm.toNat).closeWin x).completed x) :=
  issue_done hr ((if_neg ha).trans (if_neg (by simp [hc])))

theorem execDrain_waits (hr : Ready (.drain h b) s x) (hc : x.w.cntStore ≠ 0) : execDrain h b s = .next (s.taken.waitIn x x.entry .drain) :=
  issue_wait hr ((if_neg ha).trans (if_pos (bne_iff_ne.mpr hc)))

theorem execOwait_returns (hr : Ready (.owait h b) s x) (hc : x.w.counter (b.mod.toNat % 4) ≤ b.imm.toNat) : execOwait h b s =
    .next ((((s.taken.raiseFloor x.core x.slot s.homeClk).acquireL1 x.core s.vclock).closeWin x).completed x) :=
  issue_done hr ((if_neg ha).trans (if_neg (Nat.not_lt.mpr hc)))

theorem execOwait_waits (hr : Ready (.owait h b) s x) (hc : b.imm.toNat < x.w.counter (b.mod.toNat % 4)) :
    execOwait h b s = .next (s.taken.waitIn x x.entry .owait) := issue_wait hr ((if_neg ha).trans (if_pos hc))

theorem execGwait_returns {v : VBody} (hr : Ready (.gwait h v) s x) (hc : ((s.team? x.team).map (·.children)).getD 0 = 0) : execGwait h v s =
    .next ((((s.taken.raiseFloor x.core x.slot s.homeClk).acquireL1 x.core s.vclock).closeWin x).completed x) := by
  have hc' : ¬ (((s.taken.team? x.team).map (·.children)).getD 0 != 0) = true := fun hne => bne_iff_ne.mp hne hc
  exact issue_done hr ((if_neg ha).trans (if_neg hc'))

theorem execGwait_waits {v : VBody} (hr : Ready (.gwait h v) s x) (hc : ((s.team? x.team).map (·.children)).getD 0 ≠ 0) :
    execGwait h v s = .next (s.taken.waitIn x x.entry .gwait) := by
  have hc' : (((s.taken.team? x.team).map (·.children)).getD 0 != 0) = true := bne_iff_ne.mpr hc
  exact issue_wait hr ((if_neg ha).trans (if_pos hc'))

/-! ### `fence` -/

theorem execFence_waits (hr : Ready (.fence h b) s x) (hw : x.w.fenceReady x.entry (b.mod.toNat % 4) (b.mod.toNat / 4 % 8) = false) :
    execFence h b s = .next (s.taken.waitIn x x.entry .fence) := issue_wait hr ((if_neg ha).trans (if_pos (by rw [hw]; rfl)))

/-- A fence of scope `.mem` first notes the words that it waits for. -/
theorem execFence_notes (hr : Ready (.fence h b) s x) (hw : x.w.fenceReady x.entry (b.mod.toNat % 4) (b.mod.toNat / 4 % 8) = true)
    (hs : b.mod.toNat / 4 % 8 = 7) (ho : x.w.owed.find? x.entry = none) (hn : x.w.wrote ≠ []) : execFence h b s =
      .next ((s.taken.modWarp x.core x.slot fun w => { w with owed := w.owed.put x.entry w.wrote }).waitIn x x.entry .fence) := by
  have hready : ¬ (!x.w.fenceReady x.entry (b.mod.toNat % 4) (b.mod.toNat / 4 % 8)) = true := by simp [hw]
  have hnote : (b.mod.toNat / 4 % 8 = 7 && (x.w.owed.find? x.entry).isNone && !x.w.wrote.isEmpty) = true := by simp [hs, ho, hn]
  exact issue_wait hr ((if_neg ha).trans ((if_neg hready).trans (if_pos hnote)))

/-- A fence whose words have been noted, or that has none to wait for, releases and acquires by its kind. -/
theorem execFence_returns (hr : Ready (.fence h b) s x) (hw : x.w.fenceReady x.entry (b.mod.toNat % 4) (b.mod.toNat / 4 % 8) = true)
    (hn : b.mod.toNat / 4 % 8 = 7 → x.w.owed.find? x.entry ≠ none ∨ x.w.wrote = []) :
    let wide := if b.mod.toNat / 4 % 8 = 7 then 5 else b.mod.toNat / 4 % 8
    let rel : State := if b.mod.toNat % 4 = 1 then s.taken else s.taken.fenceRel x wide
    let acq : State := if b.mod.toNat % 4 = 0 then rel else rel.fenceAcq x wide
    execFence h b s = .next ((acq.modWarp x.core x.slot fun w => { w with owed := w.owed.erase x.entry }).completed x) := by
  have hready : ¬ (!x.w.fenceReady x.entry (b.mod.toNat % 4) (b.mod.toNat / 4 % 8)) = true := by simp [hw]
  have hnote : ¬ (b.mod.toNat / 4 % 8 = 7 && (x.w.owed.find? x.entry).isNone && !x.w.wrote.isEmpty) = true := by
    simp only [Bool.and_eq_true, decide_eq_true_eq, Option.isNone_iff_eq_none, Bool.not_eq_true', List.isEmpty_eq_false_iff]
    rintro ⟨⟨hs, ho⟩, hne⟩
    exact (hn hs).elim (absurd ho) hne
  exact issue_done hr ((if_neg ha).trans ((if_neg hready).trans (if_neg hnote)))

end

theorem waitMembers : WaitMembers := by
  intro s h b v x ha kind scope wide rel acq
  exact ⟨execDrain_returns ha, execDrain_waits ha, execFence_returns ha, execFence_notes ha, execFence_waits ha, execOwait_returns ha,
    execOwait_waits ha, execGwait_returns ha, execGwait_waits ha⟩

/-! ## Counters (R221, R222) -/

section
variable {s s1 : State} {x : Ctx} {h : Hdr} {b : VBody} {p : Phys} (ha : x.act ≠ 0)

/-- The state in which a counter has been brought to where it is read. -/
def State.atCounter (s : State) (vf : Nat) (p : Phys) : State :=
  if p.host ∨ s.isHostBias p.pa = true then s else if p.sync = true then s.bringSync vf p.pa 16 else s.migrateRun p.pa 16

/-- The state in which a counter's error word has been written to D, as an acquire. -/
def State.tookCounter (s : State) (x : Ctx) (d : BitVec 8) (scope : Nat) (p : Phys) : State :=
  (((s.atCounter x.vf p).acquire x.core x.slot scope ((wordsOf p.named 16).foldl (fun l w => joinRel l (s.relOf w.1 w.2)) [])).writeBack x.core x.slot
    [putS d (s.counterBytes p).2]).closeWin x

/-- One evaluation whose checks pass: the counter is held back, is below its target, or has reached it. -/
theorem cwaitEff_read {d a c : BitVec 8} {cont : Option DWord} {scope : Nat} (hread : x.counterRead s (x.scal a) cont = (.ok p, s1)) :
    cwaitEff x s d a c cont scope =
      if s1.counterBusy x.core x.vf p then .wait s1 (if cont.isSome then .cyield else .cwait)
      else if (s1.counterBytes p).1 < (x.scal c).toNat then .wait (s1.atCounter x.vf p) (if cont.isSome then .cyield else .cwait)
      else cont.elim (.done (s1.tookCounter x d scope p)) (.goto (s1.tookCounter x d scope p)) := by
  have hplace : (if p.host || s1.isHostBias p.pa then s1 else if p.sync then s1.bringSync x.vf p.pa 16 else s1.migrateRun p.pa 16) =
      s1.atCounter x.vf p := by simp only [State.atCounter, Bool.or_eq_true]
  rw [cwaitEff, hread]
  dsimp only
  rw [hplace]
  cases cont <;> rfl

include ha

theorem execCwait_read (hr : Ready (.cwait h b) s x) (hread : x.counterRead s.taken (x.scal b.a) none = (.ok p, s1)) : execCwait h b s =
    .next (if s1.counterBusy x.core x.vf p then s1.waitIn x x.entry .cwait
      else if (s1.counterBytes p).1 < (x.scal b.b).toNat then (s1.atCounter x.vf p).waitIn x x.entry .cwait
      else (s1.tookCounter x b.d h.fs.toNat p).completed x) := by
  rw [execCwait, issue_ready hr, if_neg ha, cwaitEff_read hread, apply_ite (finish x s.taken), apply_ite (finish x s.taken)]
  rfl

theorem execCyield_read (hr : Ready (.cyield h b) s x)
    (hread : x.counterRead s.taken (x.scal b.a) (some (cyieldTarget x.pc b.mod)) = (.ok p, s1)) : execCyield h b s =
    .next (if s1.counterBusy x.core x.vf p then s1.waitIn x x.entry .cyield
      else if (s1.counterBytes p).1 < (x.scal b.b).toNat then (s1.atCounter x.vf p).waitIn x x.entry .cyield
      else (((s1.tookCounter x b.d h.fs.toNat p).fallThrough x).goOn x (cyieldTarget x.pc b.mod)).settleWarp x.core x.slot) := by
  rw [execCyield, issue_ready hr, if_neg ha, cwaitEff_read hread, apply_ite (finish x s.taken), apply_ite (finish x s.taken)]
  rfl

end

theorem counterWaits : CounterWaits := by
  intro s s1 h b x p ha r s2 got s3
  exact ⟨execCwait_read ha, execCyield_read ha⟩

/-! ## Rereads (R221, R222) -/

section
variable {s : State} {core slot entry : Nat} {w : Warp} {word : BitVec 96} {i : Instr}

/-- The state in which a waiting instruction is evaluated again. -/
def State.rereads (s : State) (core slot entry : Nat) (w : Warp) (word : BitVec 96) : State :=
  { s with cur := .frag core slot entry (w.entry entry).pc word (match (w.entry entry).paired with | some n => .second n | none => .alone) 0 }

theorem State.again_runs (run : Instr → State → Host.Outcome State Fault Refusal) (hw : s.warp? core slot = some w)
    (hrun : (w.entry entry).st = .run) (hword : w.stopWord.find? entry = some word) (hd : decodeStream word = some i) :
    s.again core slot entry run = run i (s.rereads core slot entry w word) := by
  simp only [State.again, hw, hword, hd, Option.bind_some, Option.map_some, hrun, if_true]
  rfl

/-- A reread of an instruction that waits for a counter evaluates it. -/
theorem execCwaitReread_waiting (hw : s.warp? core slot = some w) (hwait : (w.entry entry).wait = .cwait ∨ (w.entry entry).wait = .cyield)
    (hrun : (w.entry entry).st = .run) (hl : s.warpLive core slot = true) (hre : s.replays (s.vfOfTeam w.team) = false)
    (hword : w.stopWord.find? entry = some word) (hd : decodeStream word = some i)
    (hi : (∃ h b, i = .cwait h b) ∨ ∃ h b, i = .cyield h b) :
    execCwaitReread core slot entry s = exec i (s.rereads core slot entry w word) := by
  have hwaits : ((w.entry entry).wait == Wait.cwait || (w.entry entry).wait == Wait.cyield) = true := by
    rcases hwait with hk | hk <;> rw [hk] <;> decide
  simp only [execCwaitReread, hw, Option.map_some, Option.getD_some, hwaits, hl, hre, Bool.not_true, Bool.or_self, Bool.false_eq_true, if_false]
  rw [State.again_runs _ hw hrun hword hd]
  rcases hi with ⟨h, b, rfl⟩ | ⟨h, b, rfl⟩ <;> rfl

/-- A reread of a fragment that waits for nothing changes nothing. -/
theorem execCwaitReread_running (hw : s.warp? core slot = some w) (hwait : (w.entry entry).wait = .none) :
    execCwaitReread core slot entry s = .next s := by
  have hwaits : ((w.entry entry).wait == Wait.cwait || (w.entry entry).wait == Wait.cyield) = false := by rw [hwait]; decide
  simp only [execCwaitReread, hw, Option.map_some, Option.getD_some, hwaits, Bool.not_false, Bool.true_or, if_true]

end

theorem counterReread : CounterReread := by
  intro s core slot entry w word h b hw at_
  refine ⟨fun x p s1 hk hrun hl hre hword hd hr ha hread hbusy htarget => ?reached, fun hk hrun hl hre hword hd => ?cyield,
    fun hk hrun hl hre hword hd => ?cwait, execCwaitReread_running hw⟩
  case reached =>
    rw [exec_cwaitReread, execCwaitReread_waiting hw (.inl hk) hrun hl hre hword hd (.inl ⟨h, b, rfl⟩), exec_cwait]
    refine (execCwait_read ha hr hread).trans ?_
    rw [if_neg (by rw [hbusy]; decide), if_neg (Nat.not_lt.mpr htarget)]
    rfl
  case cyield => exact execCwaitReread_waiting hw (.inr hk) hrun hl hre hword hd (.inr ⟨h, b, rfl⟩)
  case cwait => exact execCwaitReread_waiting hw (.inl hk) hrun hl hre hword hd (.inl ⟨h, b, rfl⟩)

/-- Settles O39, from the three claims it joins. -/
theorem waits : Obligations.Waits := ⟨waitMembers, counterWaits, counterReread⟩

end Sys2Proof.Machine
end

section
/-! SUPPORT. The matrix sequencer's counters, branches, barriers, pointer and end (14 R291, R305 to R307). -/

namespace Sys2Proof.Machine
open Sys2Proof.Claims

section
variable {s : State} {x : SeqCtx} (hx : s.seqAt x)
include hx

/-! ## What an effect of a sequencer comes to (R290) -/

section
variable {i : Instr} {t : State} {ok : SeqCtx → Bool} {eff : SeqCtx → State → SeqEff} (hok : ok x = true)
include hok

theorem seqIssue_goto {pc : DWord} (he : eff x s.taken = .goto t pc) : seqIssue i s ok eff = .next (seqGoes t x pc) := by
  rw [seqIssue_at hx ok eff hok, he]
  rfl

theorem seqIssue_ended (he : eff x s.taken = .ended t) :
    seqIssue i s ok eff = .next ((t.modSeq x.ix fun q => { q with ended := true }).seqCount x) := by
  rw [seqIssue_at hx ok eff hok, he]
  rfl

end

/-! ## Branches (R291) -/

/-- A branch falls through at 0, goes to its target elsewhere, and traps where that has no valid slot. -/
theorem seqIssue_branch {o : Host.Outcome State Fault Refusal} {i : Instr} {ok : SeqCtx → Bool} {eff : SeqCtx → State → SeqEff} {n : Nat} {v : Word}
    {target : DWord} (ho : o = seqIssue i s ok eff) (hok : ok x = true) (he : eff x s.taken = seqBranch x s.taken n v target) :
    let counted : State := s.taken.modSeq x.ix fun q => { q with k := q.k.set 0 n v }
    (v = 0 → o = .next (seqGoes counted x (nextPc x.pc))) ∧
      (v ≠ 0 → s.taken.targetCause x.core x.g.ctx x.g.vf target = none → o = .next (seqGoes counted x target)) ∧
      (v ≠ 0 → s.taken.targetCause x.core x.g.ctx x.g.vf target = some causeBadTarget →
        o = .next (s.taken.seqTrap x.core x.slot x.pc ⟨causeBadTarget, 0, 0, none⟩)) := by
  subst ho
  refine ⟨fun hv => ?falls, fun hv ht => ?goes, fun hv ht => ?bad⟩
  case falls => exact seqIssue_done hx hok (he.trans (if_pos hv))
  case goes => exact seqIssue_goto hx hok (he.trans ((if_neg hv).trans (by rw [ht])))
  case bad => exact seqIssue_trap hx hok (he.trans ((if_neg hv).trans (by rw [ht]; rfl)))

/-! ## Barriers (R305, R306) -/

theorem execMbwait_ends {h : Hdr} {c : CBody} (hw : (Instr.mbwait h c).wellFormed = true) (ha : (x.t.bar (c.cmod.toNat % 16)).abandon = true) :
    execMbwait h c s = .next ((s.taken.modSeq x.ix fun q => { q with ended := true }).seqCount x) := seqIssue_ended hx hw (if_pos ha)

theorem execMbwait_waits {h : Hdr} {c : CBody} (hw : (Instr.mbwait h c).wellFormed = true) (ha : (x.t.bar (c.cmod.toNat % 16)).abandon = false)
    (hg : (x.t.bar (c.cmod.toNat % 16)).gen = (x.t.bar (c.cmod.toNat % 16)).sgen) : execMbwait h c s = .next s.taken :=
  seqIssue_wait hx hw ((if_neg (Bool.eq_false_iff.mp ha)).trans (if_pos hg))

/-- A generation that the sequencer has not consumed yet is consumed, as an acquire of what it carries. -/
theorem execMbwait_consumes {h : Hdr} {c : CBody} (hw : (Instr.mbwait h c).wellFormed = true) (ha : (x.t.bar (c.cmod.toNat % 16)).abandon = false)
    (hg : (x.t.bar (c.cmod.toNat % 16)).gen ≠ (x.t.bar (c.cmod.toNat % 16)).sgen) : execMbwait h c s =
      .next (seqGoes ((s.taken.modTeam x.ix fun t =>
        t.setBar (c.cmod.toNat % 16) { t.bar (c.cmod.toNat % 16) with sgen := (t.bar (c.cmod.toNat % 16)).sgen + 1 }).modSeq x.ix fun q =>
          { q with floor := max q.floor (x.t.bar (c.cmod.toNat % 16)).floor }) x (nextPc x.pc)) :=
  seqIssue_done hx hw ((if_neg (Bool.eq_false_iff.mp ha)).trans (if_neg hg))

theorem execMbarr_arrives {h : Hdr} {c : CBody} (hw : (Instr.mbarr h c).wellFormed = true) (hp : s.postedNone x.ix = true) : execMbarr h c s =
    .next (seqGoes (s.taken.arrive x.ix (c.cmod.toNat % 16) (c.cmod.toNat / 16) 1 [] 0 0 0
      (((s.warp? x.core (x.t.slots.headD 0)).map fun w => w.workcnt + 1).getD 1) true x.q.floor) x (nextPc x.pc)) :=
  seqIssue_done hx hw (if_pos hp)

theorem execMbarr_waits {h : Hdr} {c : CBody} (hw : (Instr.mbarr h c).wellFormed = true) (hp : s.postedNone x.ix = false) :
    execMbarr h c s = .next s.taken := seqIssue_wait hx hw (if_neg (Bool.eq_false_iff.mp hp))

end

/-- Settles O27, instruction by instruction. -/
theorem sequencerControl : Obligations.SequencerControl := by
  unfold Obligations.SequencerControl
  intro s h b j c x hx n t set y ended br
  refine ⟨fun hw => ?mset, fun hw => ?mbra, fun hw => ?mloop, fun hw => ⟨fun ha => ?abandoned, fun ha hg => ?waits, fun ha hg => ?consumes⟩,
    fun hw => ⟨fun hp => ?arrives, fun hp => ?posted⟩, fun hw => ?mpoint, fun hw => ?mend⟩
  case mset => exact (exec_mset h b s).trans (seqIssue_done hx hw rfl)
  case mbra => exact seqIssue_branch hx (exec_mbra h j s) hw rfl
  case mloop => exact seqIssue_branch hx (exec_mloop h j s) hw rfl
  case abandoned => exact execMbwait_ends hx hw ha
  case waits => exact execMbwait_waits hx hw ha hg
  case consumes => exact execMbwait_consumes hx hw ha hg
  case arrives => exact execMbarr_arrives hx hw hp
  case posted => exact execMbarr_waits hx hw hp
  case mpoint => exact (exec_mpoint h c s).trans (seqIssue_done hx hw rfl)
  case mend => exact (exec_mend h c s).trans (seqIssue_ended hx hw rfl)

end Sys2Proof.Machine
end

section
/-! SUPPORT. The system class (10 R225 to R227): `srd`, `swr`, `sysc`. -/

namespace Sys2Proof.Machine
open Sys2Proof.Claims

section
variable {s : State} {x : Ctx} {h : Hdr} {b : SBody}

/-! ## `srd` (R225) -/

theorem execSrd_scalar (hr : Ready (.srd h b) s x) (ha : x.act ≠ 0) (hd : 0xC0 ≤ b.d.toNat) : execSrd h b s =
    .next (s.taken.wrote x [putS b.d (specialReg s.taken x b.sel.toNat ((lowestOf (if x.u then x.mask else x.act)).getD 0))] 0) :=
  issue_results hr ((if_neg ha).trans (if_pos hd))

theorem execSrd_vector (hr : Ready (.srd h b) s x) (ha : x.act ≠ 0) (hd : ¬ 0xC0 ≤ b.d.toNat) : execSrd h b s =
    .next (s.taken.wrote x ((threadsOf x.act).map fun t =>
      ⟨.v b.d.toNat t, (if b.mod.getLsbD 0 then specialReg s.taken x b.sel.toNat t >>> 32 else specialReg s.taken x b.sel.toNat t) &&& 0xFFFFFFFF⟩) 0) :=
  issue_results hr ((if_neg ha).trans (if_neg hd))

end

theorem srdReads : SrdReads := by
  intro s h b x hr
  rw [exec_srd]
  by_cases ha : x.act = 0
  · rw [if_pos ha]
    exact issue_done hr (if_pos ha)
  · rw [if_neg ha]
    by_cases hd : 0xC0 ≤ b.d.toNat
    · rw [if_pos hd, execSrd_scalar hr ha hd]
    · rw [if_neg hd, execSrd_vector hr ha hd]

/-! ## `swr` and `sysc` (R226, R227) -/

section
variable {s : State} {x : Ctx} {h : Hdr} {b : SBody}

theorem execSwr_writes (hr : Ready (.swr h b) s x) (ha : x.act ≠ 0) (hv : x.scal b.d >>> 5 = 0) : execSwr h b s =
    .next ((s.taken.modWarp x.core x.slot fun w => { w with fpflags := (x.scal b.d).setWidth 5 }).completed x) := by
  have hv' : ¬ (x.scal b.d >>> 5 != 0) = true := fun hne => bne_iff_ne.mp hne hv
  exact issue_done hr ((if_neg ha).trans (if_neg hv'))

theorem execSwr_reserved (hr : Ready (.swr h b) s x) (ha : x.act ≠ 0) (hv : x.scal b.d >>> 5 ≠ 0) :
    execSwr h b s = .next (s.taken.trapAt x (plain causeReserved x.mask)) :=
  issue_trap hr ((if_neg ha).trans (if_pos (bne_iff_ne.mpr hv)))

theorem execSysc_requests (hr : Ready (.sysc h b) s x) (ha : x.act ≠ 0) : execSysc h b s =
    .next ((({ s.taken.fresh.2 with pend := s.pend.put s.nextId (⟨x.core, x.slot, [putS b.d 0], some (b.sel.toNat, x.scal b.d)⟩ : Pending) } :
      State).signal x.vf (((s.ctx? x.gctx).map (·.vector)).getD 0)).completed x) := issue_done hr (if_neg ha)

end

theorem systemWrites : SystemWrites := by
  intro s h b x
  refine ⟨execSwr_writes, execSwr_reserved, fun hr ha => issue_done hr (if_pos ha), fun hr => ?_⟩
  rw [exec_sysc]
  by_cases ha : x.act = 0
  · rw [if_pos ha]
    exact issue_done hr (if_pos ha)
  · rw [if_neg ha, execSysc_requests hr ha]

/-- Settles O6, from the two claims it joins. -/
theorem systemRegisters : Obligations.SystemRegisters := ⟨srdReads, systemWrites⟩

end Sys2Proof.Machine
end

section
/-! SUPPORT. Fixed-latency results: what the integer and bit classes (11 R229 to R240) and the cross-lane and predicate classes (11 R241 to R251)
write, each instruction from the shared operation of its class. -/

namespace Sys2Proof.Machine
open Sys2Proof.Claims

/-! ## Effects that only write results -/

theorem bitsOf_eq_div_mod (v hi lo : Nat) : bitsOf v hi lo = v / 2 ^ lo % 2 ^ (hi + 1 - lo) := by
  rw [bitsOf, Nat.shiftRight_eq_div_pow]

section
variable {i : Instr} {s : State}

theorem gives_of_results {eff : Ctx → State → Eff} {ws : Ctx → List RegWrite} {f : Ctx → BitVec 5} (he : exec i s = issue i s eff)
    (hw : ∀ x t, eff x t = results x t (ws x) (f x)) : Gives i s ws f :=
  fun x hr => he.trans (issue_results hr (hw x s.taken))

theorem Gives.congr_writes {ws vs : Ctx → List RegWrite} {f : Ctx → BitVec 5} (hg : Gives i s ws f) (hw : ∀ x, ws x = vs x) : Gives i s vs f := by
  obtain rfl : ws = vs := funext hw
  exact hg

/-- The integer and bit classes end in one operation (R235). -/
theorem gives_intOp {t : Nat} {sat : Bool} {d : BitVec 8} {f g : Ctx → Nat → Int} (he : exec i s = issue i s fun x u => intOp x u t sat d (f x))
    (hfg : ∀ x th, f x th = g x th) : Gives i s (fun x => ints x t sat d (g x)) fun _ => 0 := by
  obtain rfl : f = g := funext₂ hfg
  exact gives_of_results he fun _ _ => rfl

/-- The 64-bit sums (R238). -/
theorem gives_wideOp {d : BitVec 8} {f g : Ctx → Nat → Int} (he : exec i s = issue i s fun x u => wideOp x u d (f x))
    (hfg : ∀ x th, f x th = g x th) : Gives i s (fun x => wides x d (g x)) fun _ => 0 := by
  obtain rfl : f = g := funext₂ hfg
  exact gives_of_results he fun _ _ => rfl

theorem perThreadP_unflagged (x : Ctx) (t : State) (d : BitVec 8) (f : Nat → Bool) :
    perThreadP x t d (fun th => (f th, 0)) = results x t (preds x d f) 0 := by
  have hflags : ∀ l : List Nat, (l.map fun th => (th, f th, (0 : BitVec 5))).foldl (fun a r => a ||| r.2.2) 0 = 0 := by
    intro l
    induction l with
    | nil => rfl
    | cons _ l ih => rw [List.map_cons, List.foldl_cons, BitVec.or_self, ih]
  simp only [perThreadP, hflags, List.flatMap_map, preds]

/-- Comparisons, which raise no flag (R237). -/
theorem gives_perThreadP {d : BitVec 8} {f g : Ctx → Nat → Bool} (he : exec i s = issue i s fun x u => perThreadP x u d fun th => (f x th, 0))
    (hfg : ∀ x th, f x th = g x th) : Gives i s (fun x => preds x d (g x)) fun _ => 0 := by
  obtain rfl : f = g := funext₂ hfg
  exact gives_of_results he fun x u => perThreadP_unflagged x u d (f x)

end

/-! ## Integer and bit members (R229 to R240) -/

theorem ite_neg_eq_abs (p : Int) : (if p < 0 then -p else p) = |p| := by
  split
  next hp => exact (abs_of_neg hp).symm
  next hp => exact (abs_of_nonneg (not_lt.mp hp)).symm

theorem shiftLeft_eq_mul (w a n : Nat) : shiftLeft w a n = if w ≤ n then 0 else a * 2 ^ n % 2 ^ w := by
  rw [shiftLeft, Nat.shiftLeft_eq]

theorem shiftRight_eq_div (w a n : Nat) : shiftRight w a n = if w ≤ n then 0 else a / 2 ^ n := by
  rw [shiftRight, Nat.shiftRight_eq_div_pow]

theorem integerArithmetic : IntegerArithmetic := by
  intro s h b c t sat ti two
  exact ⟨gives_intOp (exec_add h b s) fun _ _ => rfl,
    gives_intOp (exec_sub h b s) fun _ _ => rfl,
    gives_intOp (exec_mul h b s) fun _ _ => rfl,
    gives_intOp (exec_mulh h b s) fun _ _ => rfl,
    gives_intOp (exec_mad h b s) fun _ _ => rfl,
    gives_intOp (exec_min h b s) fun _ _ => (min_def _ _).symm,
    gives_intOp (exec_max h b s) fun _ _ => (max_def _ _).symm,
    gives_intOp (exec_abs h b s) fun _ _ => ite_neg_eq_abs _,
    gives_intOp (exec_neg h b s) fun _ _ => rfl,
    gives_intOp (exec_addi h c s) fun _ _ => rfl,
    gives_intOp (exec_movi h c s) fun _ _ => rfl,
    gives_wideOp (exec_lea h b s) fun _ _ => by rw [bitsOf_eq_div_mod]; rfl,
    gives_wideOp (exec_add64 h b s) fun _ _ => rfl,
    gives_wideOp (exec_mad64 h b s) fun _ _ => rfl⟩

theorem integerBitwise : IntegerBitwise := by
  intro s h b c t w ti two shift
  exact ⟨gives_intOp (exec_and h b s) fun _ _ => rfl,
    gives_intOp (exec_or h b s) fun _ _ => rfl,
    gives_intOp (exec_xor h b s) fun _ _ => rfl,
    gives_intOp (exec_not h b s) fun _ _ => rfl,
    gives_intOp (exec_andn h b s) fun _ _ => rfl,
    gives_intOp (exec_mov h b s) fun _ _ => rfl,
    gives_intOp (exec_sel h b s) fun _ _ => by rw [bitsOf_eq_div_mod]; rfl,
    gives_intOp (exec_shl h b s) fun _ _ => congrArg Nat.cast (shiftLeft_eq_mul _ _ _),
    gives_intOp (exec_shr h b s) fun _ _ => congrArg Nat.cast (shiftRight_eq_div _ _ _),
    gives_intOp (exec_sar h b s) fun _ _ => rfl,
    gives_intOp (exec_rot h b s) fun _ _ => rfl,
    gives_intOp (exec_andi h c s) fun _ _ => rfl,
    gives_intOp (exec_ori h c s) fun _ _ => rfl,
    gives_perThreadP (exec_cmp h b s) fun _ _ => by rw [bitsOf_eq_div_mod]; rfl,
    gives_perThreadP (exec_cmpi h c s) fun _ _ => by rw [bitsOf_eq_div_mod]; rfl⟩

theorem bitMembers : BitMembers := by
  intro s h b t w one
  exact ⟨gives_intOp (exec_popc h b s) fun _ _ => rfl,
    gives_intOp (exec_clz h b s) fun _ _ => rfl,
    gives_intOp (exec_ctz h b s) fun _ _ => rfl,
    gives_intOp (exec_brev h b s) fun _ _ => rfl,
    gives_intOp (exec_bfe h b s) fun _ _ => rfl,
    gives_intOp (exec_bfi h b s) fun _ _ => rfl,
    gives_intOp (exec_prmt h b s) fun _ _ => rfl,
    gives_intOp (exec_shfn h b s) fun _ _ => rfl,
    gives_intOp (exec_lop3 h b s) fun _ _ => by rw [bitsOf_eq_div_mod]; rfl⟩

/-- Settles O2, from the three claims it joins. -/
theorem integerResults : Obligations.IntegerResults := ⟨integerArithmetic, integerBitwise, bitMembers⟩

/-! ## 32-bit results modulo 2^32 (R235) -/

theorem ofInt_toNat_word (v : Word) : BitVec.ofInt 32 (v.toNat : Int) = v :=
  (BitVec.ofInt_natCast ..).trans (BitVec.ofNat_toNat 32 v |>.trans (BitVec.setWidth_eq v))

section
variable {t : Nat} (ht : t < 2)
include ht

theorem tyBits_narrow : tyBits t = 32 := if_neg (Nat.not_le.mpr ht)

theorem Ctx.pat_narrow (x : Ctx) (c : BitVec 8) (th : Nat) : x.pat t c th = (x.op32 c th).toNat := if_neg (Nat.not_le.mpr ht)

theorem putTy_narrow (d : BitVec 8) (th : Nat) (v : Int) : putTy t d th v = put32 d th (BitVec.ofInt 32 v) (tySigned t) :=
  if_neg (Nat.not_le.mpr ht)

/-- Reading a word as an integer of either signedness does not change it modulo 2^32. -/
theorem ofInt_int_narrow (x : Ctx) (c : BitVec 8) (th : Nat) : BitVec.ofInt 32 (x.int t c th) = x.op32 c th := by
  rw [Ctx.int, patInt, Ctx.pat_narrow ht, tyBits_narrow ht]
  split
  · have hv := (x.op32 c th).isLt
    apply BitVec.eq_of_toNat_eq
    rw [BitVec.toNat_ofInt, sextNat]
    split <;> omega
  · exact ofInt_toNat_word _

theorem ints_narrow (x : Ctx) (d : BitVec 8) {f : Nat → Int} {g : Nat → Word} (hfg : ∀ th, BitVec.ofInt 32 (f th) = g th) :
    ints x t false d f = x.threads.map fun th => put32 d th (g th) (tySigned t) := by
  obtain rfl : (fun th => BitVec.ofInt 32 (f th)) = g := funext hfg
  exact List.map_congr_left fun th _ => putTy_narrow ht d th _

section
variable {i : Instr} {s : State} {d a c : BitVec 8} {fl : Ctx → BitVec 5} {g : Word → Word → Word}

/-- An operation on integers that is compatible with reduction modulo 2^32. -/
theorem Gives.ofInts {f : Int → Int → Int} (hg : Gives i s (fun x => ints x t false d fun th => f (x.int t a th) (x.int t c th)) fl)
    (hfg : ∀ p q, BitVec.ofInt 32 (f p q) = g (BitVec.ofInt 32 p) (BitVec.ofInt 32 q)) :
    Gives i s (fun x => x.threads.map fun th => put32 d th (g (x.op32 a th) (x.op32 c th)) (tySigned t)) fl :=
  hg.congr_writes fun x => ints_narrow ht x d fun th => by rw [hfg, ofInt_int_narrow ht, ofInt_int_narrow ht]

/-- An operation on patterns that is one on words. -/
theorem Gives.ofPats {f : Nat → Nat → Nat} (hg : Gives i s (fun x => ints x t false d fun th => f (x.pat t a th) (x.pat t c th)) fl)
    (hfg : ∀ p q : Word, f p.toNat q.toNat = (g p q).toNat) :
    Gives i s (fun x => x.threads.map fun th => put32 d th (g (x.op32 a th) (x.op32 c th)) (tySigned t)) fl :=
  hg.congr_writes fun x => ints_narrow ht x d fun th => by rw [Ctx.pat_narrow ht, Ctx.pat_narrow ht, hfg, ofInt_toNat_word]

end
end

/-- Settles O1: the exact results of O2, taken modulo 2^32. -/
theorem wrapArithmetic : Obligations.WrapArithmetic := by
  intro s h b ht hsat out
  obtain ⟨hadd, hsub, hmul, -, -, -, -, -, hneg, -⟩ := integerArithmetic s h b default
  obtain ⟨hand, hor, hxor, hnot, handn, hmov, -⟩ := integerBitwise s h b default
  rw [hsat] at hadd hsub hmul hneg
  rw [tyBits_narrow ht] at hnot handn
  exact ⟨hadd.ofInts ht fun p q => BitVec.ofInt_add p q,
    hsub.ofInts ht fun p q => by rw [Int.sub_eq_add_neg, BitVec.ofInt_add, BitVec.ofInt_neg, ← BitVec.sub_eq_add_neg],
    hmul.ofInts ht fun p q => BitVec.ofInt_mul p q,
    Gives.ofInts ht (c := b.b) (f := fun p _ => -p) (g := fun p _ => -p) hneg fun _ _ => BitVec.ofInt_neg,
    hand.ofPats ht fun p q => (BitVec.toNat_and p q).symm,
    hor.ofPats ht fun p q => (BitVec.toNat_or p q).symm,
    hxor.ofPats ht fun p q => (BitVec.toNat_xor p q).symm,
    Gives.ofPats ht (c := b.b) (f := fun p _ => 2 ^ 32 - 1 - p) (g := fun p _ => ~~~p) hnot fun p _ => by simp only [BitVec.toNat_not],
    Gives.ofPats ht (f := fun p q => p &&& (2 ^ 32 - 1 - q)) (g := fun p q => p &&& ~~~q) handn fun p q => by
      simp only [BitVec.toNat_and, BitVec.toNat_not],
    Gives.ofPats ht (c := b.b) (f := fun p _ => p) (g := fun p _ => p) hmov fun _ _ => rfl⟩

/-! ## Cross-lane members (R243 to R247) -/

theorem commit_nil (t : State) (x : Ctx) : t.commit x [] = t :=
  congrArg (fun u => ({ t with warps := u } : State)) (Tab.modify_id t.warps (warpIx x.core x.slot))

theorem orFlags_zero (t : State) (x : Ctx) : t.orFlags x 0 = t := by
  have hw : (fun w : Warp => ({ w with fpflags := w.fpflags ||| 0 } : Warp)) = fun w => w := by
    funext w
    rw [show w.fpflags ||| 0 = w.fpflags from BitVec.or_zero]
  show ({ t with warps := t.warps.modify (warpIx x.core x.slot) fun w => ({ w with fpflags := w.fpflags ||| 0 } : Warp) } : State) = t
  rw [hw, Tab.modify_id]

theorem results_nil (x : Ctx) (t : State) : results x t [] 0 = .done t := by rw [results, commit_nil, orFlags_zero]

/-- `vote`, `ballot` and `bcast` look at Active first (R28). -/
theorem gives_unlessEmpty {i : Instr} {s : State} {ws vs : Ctx → List RegWrite}
    (he : exec i s = issue i s fun x t => if x.act = 0 then .done t else results x t (ws x) 0) (hw : ∀ x, ws x = vs x) :
    Gives i s (fun x => if x.act = 0 then [] else vs x) fun _ => 0 := by
  obtain rfl : ws = vs := funext hw
  refine gives_of_results he fun x t => ?_
  by_cases ha : x.act = 0
  · rw [if_pos ha, if_pos ha, results_nil]
  · rw [if_neg ha, if_neg ha]

section
variable (l : List Nat) (f : Nat → Word)

/-- `match` pairs each thread with its value. -/
theorem filter_paired_eq (v : Word) : (((l.map fun t => (t, f t)).filter fun y => y.2 == v).map (·.1)) = l.filter fun u => f u == v := by
  rw [List.filter_map, List.map_map]
  exact List.map_id _

theorem all_paired_eq_head (t : Nat) :
    ((l.map fun u => (u, f u)).all fun z => z.2 == f t) = decide (∀ u ∈ t :: l, f u = f ((t :: l).headD 0)) := by
  rw [Bool.eq_iff_iff, List.all_map, List.all_eq_true, decide_eq_true_iff, List.forall_mem_cons]
  exact ⟨fun hl => ⟨rfl, fun u hu => eq_of_beq (hl u hu)⟩, fun hl u hu => beq_iff_eq.mpr (hl.2 u hu)⟩

end

theorem crossLaneMembers : CrossLaneMembers := by
  intro s h b ps g f toScalar total scans scan before qs verdict ballot lowest want from_ same none_
  have hps : BitVec.ofNat 8 (bitsOf b.mod.toNat 14 12) = ps := by rw [bitsOf_eq_div_mod]; rfl
  have hf : combine (ty b.mod) (bitsOf b.mod.toNat 4 2) (bitsOf b.mod.toNat 6 5) = f := by rw [bitsOf_eq_div_mod, bitsOf_eq_div_mod]; rfl
  have hscalar : 0xC0 ≤ b.d.toNat ↔ toScalar = true := decide_eq_true_iff.symm
  refine ⟨gives_of_results (exec_shfl h b s) fun x t => ?shfl, gives_of_results (exec_lred h b s) fun x t => ?lred,
    gives_of_results (exec_lscan h b s) fun x t => ?lscan, gives_unlessEmpty (exec_vote h b s) fun x => ?vote,
    gives_unlessEmpty (exec_ballot h b s) fun _ => if_congr hscalar rfl rfl,
    gives_unlessEmpty (exec_bcast h b s) fun _ => if_congr hscalar rfl rfl,
    gives_of_results (exec_matchLanes h b s) fun x t => ?matchLanes, gives_of_results (exec_prank h b s) fun _ _ => rfl⟩
  case shfl => rw [hps]
  case lred =>
    rw [hf]
    by_cases hd : 0xC0 ≤ b.d.toNat
    · rw [if_pos hd, if_pos (hscalar.mp hd)]
    · rw [if_neg hd, if_neg (hscalar.not.mp hd)]
  case lscan => exact hf ▸ rfl
  case vote => rw [bitsOf_eq_div_mod]; rfl
  case matchLanes =>
    rw [hps]
    dsimp only [same]
    generalize threadsOf x.act = l
    cases l with
    | nil => rfl
    | cons u l =>
      rw [List.flatMap_map]
      simp only [filter_paired_eq, ← all_paired_eq_head]
      rfl

/-! ## Predicate members (R248 to R251) -/

theorem predicateMembers : PredicateMembers := by
  intro s h b ix
  refine ⟨gives_of_results (exec_plop h b s) fun _ _ => rfl, gives_of_results (exec_pmask h b s) fun _ _ => rfl,
    gives_of_results (exec_psetm h b s) fun _ _ => rfl, gives_of_results (exec_pact h b s) fun x t => ?_⟩
  generalize b.mod.toNat % 4 = src
  match src with
  | 0 => rfl
  | 1 => rfl
  | _ + 2 => rfl

/-- Settles O3, from the two claims it joins. -/
theorem laneResults : Obligations.LaneResults := ⟨crossLaneMembers, predicateMembers⟩

end Sys2Proof.Machine
end

section
/-! SUPPORT. Floating-point results: what the FP32, packed and convert classes (12 R256 to R261, R264 to R266) write and which flags they raise. -/

namespace Sys2Proof.Machine
open Sys2Proof.Claims

/-! ## One result with flags per computing thread (R63) -/

/-- The classes pair each thread, or each Q4 group, with its value before they write it. -/
theorem results_paired {α : Type} (x : Ctx) (t : State) (l : List Nat) (v : Nat → α) (ws : Nat × α → List RegWrite) (fl : Nat × α → BitVec 5) :
    results x t ((l.map fun k => (k, v k)).flatMap ws) ((l.map fun k => (k, v k)).foldl (fun a r => a ||| fl r) 0) =
      results x t (l.flatMap fun k => ws (k, v k)) (l.foldl (fun a k => a ||| fl (k, v k)) 0) := by
  rw [List.flatMap_map, List.foldl_map]

theorem perThreadF_eq_results (x : Ctx) (t : State) (d : BitVec 8) (sg : Bool) (f : Nat → Word × BitVec 5) :
    perThreadF x t d sg f = results x t (flagged x d sg f) (flagsOf x f) := by
  rw [perThreadF, List.map_map, List.foldl_map]
  rfl

theorem perThreadP_eq_results (x : Ctx) (t : State) (d : BitVec 8) (f : Nat → Bool × BitVec 5) :
    perThreadP x t d f = results x t (preds x d fun th => (f th).1) (x.threads.foldl (fun a th => a ||| (f th).2) 0) :=
  results_paired x t x.threads f _ _

theorem flagsOf_unflagged (x : Ctx) (f : Nat → Word) : flagsOf x (fun th => (f th, 0)) = 0 :=
  List.foldlRecOn x.threads (motive := fun a => a = 0) _ rfl fun _ ha _ _ => ha.symm ▸ BitVec.or_self

section
variable {i : Instr} {s : State} {d : BitVec 8}

/-- The members of these classes but `fclass`, `fcmp` and the Q4 conversions end in one operation. -/
theorem gives_perThreadF {sg : Bool} {f : Ctx → Nat → Word × BitVec 5} (he : exec i s = issue i s fun x u => perThreadF x u d sg (f x)) :
    Gives i s (fun x => flagged x d sg (f x)) fun x => flagsOf x (f x) :=
  gives_of_results he fun x u => perThreadF_eq_results x u d sg (f x)

/-- `fclass`, which raises no flag (R259). -/
theorem gives_perThread {sg : Bool} {f : Ctx → Nat → Word} (he : exec i s = issue i s fun x u => perThread x u d sg (f x)) :
    Gives i s (fun x => flagged x d sg fun th => (f x th, 0)) fun x => flagsOf x fun th => (f x th, 0) :=
  gives_of_results he fun x u => (congrArg (results x u _) (flagsOf_unflagged x (f x))).symm

end

/-! ## FP32 and packed members (R256 to R261) -/

theorem fp32Members : Fp32Members := by
  intro s h b rm G two
  exact ⟨gives_perThreadF (exec_fadd h b s),
    gives_perThreadF (exec_fsub h b s),
    gives_perThreadF (exec_fmul h b s),
    gives_perThreadF (exec_ffma h b s),
    gives_perThreadF (exec_fmin h b s),
    gives_perThreadF (exec_fmax h b s),
    gives_perThreadF (exec_frnd h b s),
    gives_perThread (exec_fclass h b s),
    gives_perThreadF (exec_fscale h b s),
    gives_perThreadF (exec_fexpt h b s),
    gives_perThreadF (exec_fdot2 h b s),
    gives_of_results (exec_fcmp h b s) fun x t => perThreadP_eq_results x t b.d _⟩

theorem packedMembers : PackedMembers := by
  intro s h b rm fm G two pick
  exact ⟨gives_perThreadF (exec_hadd2 h b s),
    gives_perThreadF (exec_hsub2 h b s),
    gives_perThreadF (exec_hmul2 h b s),
    gives_perThreadF (exec_hfma2 h b s),
    gives_perThreadF (exec_hmin2 h b s),
    gives_perThreadF (exec_hmax2 h b s),
    gives_perThreadF (exec_hcmp2 h b s),
    gives_perThreadF (exec_e8dot4 h b s)⟩

/-! ## Convert members (R264 to R266) -/

theorem convertMembers : ConvertMembers := by
  intro s h b G fm n packed lanes
  exact ⟨gives_perThreadF (exec_cvt h b s),
    gives_perThreadF (exec_unpack h b s),
    gives_perThreadF (exec_pack h b s),
    gives_of_results (exec_cvtq h b s) fun x t => results_paired x t (q4Groups x) (q4Group x b) _ _,
    gives_of_results (exec_cvsc h b s) fun x t => results_paired x t (q4Groups x) (q4Group x b) _ _,
    gives_of_results (exec_cvtdq h b s) fun _ _ => rfl⟩

/-- Settles O4, from the three claims it joins. -/
theorem floatResults : Obligations.FloatResults := ⟨fp32Members, packedMembers, convertMembers⟩

end Sys2Proof.Machine
end

section
/-! SUPPORT. Special functions (12 R262): what they leave pending at issue, and the write-back of pending results and replies (R200, R227). -/

namespace Sys2Proof.Machine
open Sys2Proof.Claims

/-! ## Issue (R262) -/

/-- What special function `k` leaves to be written back; `fscs` writes a pair. -/
def sfuWrites (x : Ctx) (b : VBody) (k : Nat) : List RegWrite :=
  x.threads.flatMap fun t => put32 b.d t (sfuValue k (x.op32 b.a t)).1.1 false ::
    if k = 7 then [put32 (b.d + 1) t (sfuValue k (x.op32 b.a t)).1.2 false] else []

/-- The flags that special function `k` raises at issue. -/
def sfuFlags (x : Ctx) (b : VBody) (k : Nat) : BitVec 5 := x.threads.foldl (fun a t => a ||| (sfuValue k (x.op32 b.a t)).2) 0

/-- The state in which special function `k` is under way. -/
def State.sfuIssued (t : State) (x : Ctx) (b : VBody) (k : Nat) : State :=
  ({ t.fresh.2 with pend := t.pend.put t.nextId (⟨x.core, x.slot, sfuWrites x b k, none⟩ : Pending) } : State).orFlags x (sfuFlags x b k)

theorem sfuOp_of_active {x : Ctx} (t : State) (b : VBody) (k : Nat) (ha : x.act ≠ 0) : sfuOp x t b k = .done (t.sfuIssued x b k) := by
  simp only [sfuOp, if_neg ha, List.flatMap_map, List.foldl_map]
  rfl

/-- The special functions share one issue: `he` is the equation of the member. -/
theorem exec_sfu {i : Instr} {s : State} {x : Ctx} {b : VBody} {k : Nat} (he : exec i s = issue i s fun x u => sfuOp x u b k) (hr : Ready i s x) :
    exec i s = .next (if x.act = 0 then s.taken.completed x else (s.taken.sfuIssued x b k).completed x) := by
  by_cases ha : x.act = 0
  · rw [if_pos ha]
    exact he.trans (issue_done hr (if_pos ha))
  · rw [if_neg ha]
    exact he.trans (issue_done hr (sfuOp_of_active s.taken b k ha))

theorem specialFunctions : SpecialFunctions := by
  intro s h b x vals writes pending S
  exact ⟨exec_sfu (exec_frcp h b s),
    exec_sfu (exec_frsq h b s),
    exec_sfu (exec_fsqrt h b s),
    exec_sfu (exec_fex2 h b s),
    exec_sfu (exec_flg2 h b s),
    exec_sfu (exec_fsin h b s),
    exec_sfu (exec_fcos h b s),
    exec_sfu (exec_fscs h b s),
    exec_sfu (exec_ftanh h b s),
    exec_sfu (exec_fsig h b s),
    exec_sfu (exec_ferf h b s)⟩

/-! ## Write-back (R200, R227) -/

section
variable {s : State} {id : Nat} {p : Pending} (hp : s.pend.find? id = some p)
include hp

theorem execSfuWriteback_result (hn : p.sysc = none) :
    execSfuWriteback id s = .next (({ s with pend := s.pend.erase id } : State).writeBack p.core p.slot p.writes) := by
  simp only [execSfuWriteback, hp, hn, Option.isSome_none, Bool.false_eq_true, if_false]

theorem execSyscReply_request (v : DWord) (hn : p.sysc ≠ none) : execSyscReply id v s =
    .next (({ s with pend := s.pend.erase id } : State).writeBack p.core p.slot (p.writes.map fun r => { r with val := v })) := by
  simp only [execSyscReply, hp, Option.isNone_iff_eq_none, hn, if_false]

end

theorem pendingResults : PendingResults := fun s id _ v hp =>
  ⟨fun hn => (exec_sfuWriteback id s).trans (execSfuWriteback_result hp hn),
    fun hn => (exec_syscReply id v s).trans (execSyscReply_request hp v hn)⟩

/-- Settles O5, from the two claims it joins. -/
theorem specialResults : Obligations.SpecialResults := ⟨specialFunctions, pendingResults⟩

end Sys2Proof.Machine
end

section
/-! SUPPORT. Atomics at issue and at their engines (06 R124; 13 R275, R278 to R280, R287; 16 R347). -/

namespace Sys2Proof.Machine
open Sys2Proof.Claims

/-! ## Atomics at issue (R278 to R280) -/

/-- An atomic releases past its core. -/
def atomRelease (b : MBody) : Bool := decide (2 ≤ ctlKind b) && decide (3 ≤ ctlScope b)

/-- The lanes of an atomic as they leave; `second` is the distance of the second operand group, 0 for none. -/
def Ctx.atomLanes (x : Ctx) (b : MBody) (l : List (Nat × Parts)) (second : Nat) : List AtomLane :=
  let group (d : BitVec 8) (t : Nat) : BitVec 128 := BitVec.ofNat 128 (ofBytes (x.groupBytes d (memBytes b) t))
  l.filterMap fun y => (y.2.head?).map fun p =>
    if second = 0 then ⟨y.1, p.1, x.ea b y.1, group b.d y.1, 0⟩
    else ⟨y.1, p.1, x.ea b y.1, group (b.d + BitVec.ofNat 8 second) y.1, group b.d y.1⟩

/-- The store counter has room for an atomic's lanes, and no load of the core has still to take some of their bytes. -/
def Ctx.atomRoom (x : Ctx) (s : State) (b : MBody) (l : List (Nat × Parts)) : Prop :=
  x.w.cntStore + l.length ≤ 1023 ∧ ∀ y ∈ l, ∀ p ∈ y.2, s.loadsMeet x.core p.1.pa (memBytes b) = false

section
variable {s s1 : State} {b : MBody} {x : Ctx} {l : List (Nat × Parts)} {op second : Nat} {c16 : Bool} {dst : Option Nat} (ha : x.act ≠ 0)
  (hc : checkLanes s x.threads (fun t s => x.globalLane (x.ea b t) (memBytes b) .atomic true s) (x.ea b) = (.ok l, s1))

theorem Ctx.atomRoom_iff : x.atomRoom s b l ↔
    ¬ (decide (1023 < x.w.cntStore + l.length) || l.any fun y => y.2.any fun p => s.loadsMeet x.core p.1.pa (memBytes b)) = true := by
  simp only [Ctx.atomRoom, Bool.or_eq_true, decide_eq_true_eq, not_or, Nat.not_lt, List.any_eq_true, not_exists, not_and, Bool.not_eq_true]

theorem atomRelease_free (hrel : atomRelease b = true → x.w.cntStore = 0) :
    ¬ (decide (2 ≤ ctlKind b) && decide (3 ≤ ctlScope b) && x.w.cntStore != 0) = true := by
  rw [Bool.and_eq_true, bne_iff_ne]
  exact fun ⟨h, hn⟩ => hn (hrel h)

include ha hc

theorem atomEff_leaves (hrel : atomRelease b = true → x.w.cntStore = 0) (hroom : x.atomRoom s b l) :
    atomEff x s b op c16 dst second = .done ((s1.bringLanes x.vf l).issueAtomics x b op c16 dst (x.atomLanes b l second)) := by
  unfold atomEff
  dsimp only
  rw [hc]
  exact (if_neg ha).trans ((if_neg (atomRelease_free hrel)).trans (if_neg (Ctx.atomRoom_iff.mp hroom)))

theorem atomEff_stalls (hrel : atomRelease b = true → x.w.cntStore = 0) (hroom : ¬ x.atomRoom s b l) :
    atomEff x s b op c16 dst second = .stall s := by
  unfold atomEff
  dsimp only
  rw [hc]
  exact (if_neg ha).trans ((if_neg (atomRelease_free hrel)).trans (if_pos (not_not.mp fun h => hroom (Ctx.atomRoom_iff.mpr h))))

theorem atomEff_waits (hrel : atomRelease b = true) (hn : x.w.cntStore ≠ 0) : atomEff x s b op c16 dst second = .wait s .fence := by
  have hguard : (decide (2 ≤ ctlKind b) && decide (3 ≤ ctlScope b) && x.w.cntStore != 0) = true :=
    Bool.and_eq_true_iff.mpr ⟨hrel, bne_iff_ne.mpr hn⟩
  unfold atomEff
  dsimp only
  rw [hc]
  exact (if_neg ha).trans (if_pos hguard)

end

theorem atomicsIssue : AtomicsIssue := by
  unfold AtomicsIssue
  intro s s1 h b x l ha hc rel room group lanes A
  have outcomes {i : Instr} {op second : Nat} {c16 : Bool} {dst : Option Nat}
      (he : exec i s = issue i s fun x s => atomEff x s b op c16 dst second) : A i op c16 dst second := fun hr =>
    ⟨fun hrel hroom => he.trans (issue_done hr (atomEff_leaves ha hc hrel hroom)), fun hrel hroom => he.trans (issue_stall hr (atomEff_stalls ha hc hrel hroom)),
      fun hrel hn => he.trans (issue_wait hr (atomEff_waits ha hc hrel hn))⟩
  refine ⟨fun hr => ?atom, fun hr => ?ared, fun hr => ?cas16⟩
  case atom => exact outcomes (exec_atom h b s) hr
  case ared => exact outcomes (exec_ared h b s) hr
  case cas16 => exact outcomes (exec_cas16 h b s) hr

/-! ## Atomics at their engine (R278, R280, R287) -/

section
variable {s s1 : State} {id : Nat} {a : Atomic} (hid : s.atomics.find? id = some a)

/-- The words of an atomic's instruction as its engine finds them: those that are here have been touched, unless the instruction has begun. -/
def State.groupTouched (s : State) (a : Atomic) : State :=
  if a.begun = true then s else s.each (s.groupLanes a) fun s y => s.each y.words fun s w => if s.needsDram w then s else s.touch y.vf w

include hid

theorem execAtomicExecute_blocked (hb : s.atomicBlocked id a = true) : execAtomicExecute id s = .next s := by
  unfold execAtomicExecute
  rw [hid]
  exact if_pos (by rw [hb, Bool.or_true])

theorem execAtomicExecute_steps (ho : a.old = none) (hb : s.atomicBlocked id a = false) (hg : (s.groupTouched a).groupReady (s.groupLanes a) = .ready)
    (ht : (s.groupTouched a).through a.vf id ((s.groupTouched a).atomicTraffic a) = .ok s1) :
    execAtomicExecute id s = .next (((s1.each (s.groupLanes a) fun s y => s.migrateRun y.pa (2 ^ y.size)).beginGroup a).atomicStep id a) := by
  unfold State.groupTouched at hg ht
  unfold execAtomicExecute
  simp only [hid, ho, hb, Option.isSome_none, Bool.or_self, Bool.false_eq_true, if_false, hg, ht]

theorem execAtomicReply_writes {old : BitVec 128} (ho : a.old = some old) (hs : a.slot < 32) :
    let t := ((({ s with atomics := s.atomics.erase id } : State).ackWarp a.core a.slot a.stamp).writeBack a.core a.slot (a.writes old)).gotInfo
      a.core a.slot a.got
    execAtomicReply id s = .next (if a.kind = 1 ∨ a.kind = 3 then t.acquire a.core a.slot a.scope a.got else t) := by
  intro t
  unfold execAtomicReply
  simp only [hid, ho, if_neg (Nat.not_le.mpr hs), Bool.or_eq_true, decide_eq_true_eq]
  rfl

end

/-- The value of an atomic's bytes at their homes. -/
def State.atomicValue (s : State) (a : Atomic) : BitVec 128 :=
  BitVec.ofNat 128 (ofBytes ((List.range (2 ^ a.size)).map fun i => (s.homeWord ((a.pa + i) / 4)).1.extractLsb' (8 * ((a.pa + i) % 4)) 8))

/-- A value is written at the homes of an atomic's words, `k` in number. -/
def State.atomicWrite (s₀ : State) (a : Atomic) (k : Nat) (v : BitVec 128) : State :=
  ((s₀.each (wordsOf a.pa (2 ^ a.size)) fun s w => s.homeWriteLogged a.vf w.1 (wordFrom a.pa w.1 (toBytes (2 ^ a.size) v.toNat)) w.2
    (s₀.relNow a.core k a.rel) true ⟨6, homeDie a.pa, some a.va, 0⟩).pastL1 a.core a.words).wroteWords a.core a.slot a.words

/-- An atomic keeps what it has read, and what the writes that it read carry, for its reply. -/
def State.keepOld (s : State) (id : Nat) (a : Atomic) (m : BitVec 128) (got : List RelInfo) : State :=
  { s with atomics := s.atomics.put id { a with old := some m, stamp := s.vclock, got := got } }

/-- One step at the engine: a `cas16` that does not match writes nothing, and every other atomic the result of its operation (R280). -/
theorem State.atomicStep_eq (s : State) (id : Nat) (a : Atomic) {t : State} {m v : BitVec 128} (ht : s.migrateRun a.pa (2 ^ a.size) = t)
    (hm : t.atomicValue a = m) (hv : (if a.cas16 then a.x else atomOp a.op a.ty m a.x a.cmp) = v) :
    s.atomicStep id a = (if a.cas16 = true ∧ m ≠ a.cmp then t else t.atomicWrite a (wordsOf a.pa (2 ^ a.size)).length v).keepOld id a m
      ((wordsOf a.pa (2 ^ a.size)).foldl (fun l w => joinRel l (t.relOf w.1 w.2)) []) := by
  subst ht hm hv
  generalize hgot : (wordsOf a.pa (2 ^ a.size)).foldl (fun l w => joinRel l ((s.migrateRun a.pa (2 ^ a.size)).relOf w.1 w.2)) [] = got
  generalize htt : s.migrateRun a.pa (2 ^ a.size) = t at *
  have hlen : a.words.length = (wordsOf a.pa (2 ^ a.size)).length := List.length_map _
  have hstep : s.atomicStep id a = (if (a.cas16 && t.atomicValue a != a.cmp) = true then t else t.atomicWrite a a.words.length
      (if a.cas16 then (if t.atomicValue a = a.cmp then a.x else t.atomicValue a) else atomOp a.op a.ty (t.atomicValue a) a.x a.cmp)).keepOld id a
        (t.atomicValue a) got := by
    subst hgot htt
    rfl
  rw [hstep, hlen]
  by_cases hmiss : a.cas16 = true ∧ t.atomicValue a ≠ a.cmp
  · have hguard : (a.cas16 && t.atomicValue a != a.cmp) = true := by rw [hmiss.1, Bool.true_and, bne_iff_ne]; exact hmiss.2
    rw [if_pos hguard, if_pos hmiss]
  · have hguard : ¬ (a.cas16 && t.atomicValue a != a.cmp) = true := by rwa [Bool.and_eq_true, bne_iff_ne]
    rw [if_neg hguard, if_neg hmiss]
    by_cases hc : a.cas16 = true
    · have hm : t.atomicValue a = a.cmp := not_not.mp fun hne => hmiss ⟨hc, hne⟩
      rw [if_pos hc, if_pos hc, if_pos hm]
    · rw [if_neg hc, if_neg hc]

theorem atomicStep : AtomicStep := by
  unfold AtomicStep
  intro s s1 id a hid hs n ws s0 s2 m v s3
  refine ⟨fun ho hb hg ht => ?steps, fun _ hb => ?blocked, fun old ho => ?replies⟩
  case steps =>
    refine (exec_atomicExecute id s).trans ((execAtomicExecute_steps hid ho hb hg ht).trans (congrArg Host.Outcome.next ?_))
    exact State.atomicStep_eq _ id a (t := s2) (m := m) (v := v) rfl rfl rfl
  case blocked => exact (exec_atomicExecute id s).trans (execAtomicExecute_blocked hid hb)
  case replies => exact (exec_atomicReply id s).trans (execAtomicReply_writes hid ho hs)

/-- Settles O19, from the two claims it joins. -/
theorem atomics : Obligations.Atomics := ⟨atomicsIssue, atomicStep⟩

end Sys2Proof.Machine
end

section
/-! SUPPORT. Transactions of single threads: how they open, what an access inside does, how they commit and abort, the solo grant (13 R281 to R287). -/

namespace Sys2Proof.Machine
open Sys2Proof.Claims

/-! ## Opening a transaction (R281, R286) -/

/-- Transactions of the threads of Active are open, a solo one among them, and the predicates of `txbeg` tell whose it is. -/
def State.txOpened (s : State) (x : Ctx) (h : Hdr) (j : JBody) (solo : Option Nat) : State :=
  (s.openTx x (jTarget x.pc j) (jRecon x.pc j) solo).writeBack x.core x.slot ((threadsOf x.act).map fun t => putP (h.fs.setWidth 8) t (solo == some t))

/-- The first thread of Active that has aborted 8 times. -/
def Ctx.abortsAt8 (x : Ctx) : Option Nat := (threadsOf x.act).find? fun t => decide (8 ≤ x.w.aborts t)

/-- The handler and the reconvergence PC of a `txbeg` pass their checks. -/
def Ctx.txbegChecks (x : Ctx) (j : JBody) (s : State) : Prop :=
  x.act ≠ 0 ∧ s.targetCause x.core x.gctx x.vf (jTarget x.pc j) = none ∧ pcShapeOk (jRecon x.pc j) = true

section
variable {s : State} {h : Hdr} {j : JBody} {x : Ctx}

theorem txOpenEff_opens (ht : x.abortsAt8 = none) : txOpenEff h j x s = .done (s.txOpened x h j none) := by
  unfold txOpenEff
  rw [show (threadsOf x.act).find? (fun t => decide (8 ≤ x.w.aborts t)) = none from ht]
  rfl

theorem txOpenEff_asks {t : Nat} (ht : x.abortsAt8 = some t) (hs : s.holdsSolo x t = false) : txOpenEff h j x s = .wait (s.askSolo x t) .solo := by
  unfold txOpenEff
  rw [show (threadsOf x.act).find? (fun t => decide (8 ≤ x.w.aborts t)) = some t from ht]
  exact if_neg (Bool.eq_false_iff.mp hs)

theorem txOpenEff_solo {t : Nat} (ht : x.abortsAt8 = some t) (hs : s.holdsSolo x t = true) :
    txOpenEff h j x s = .done ((s.txOpened x h j (some t)).log x.vf causeSolo 0 false 0 x.core x.pc) := by
  unfold txOpenEff
  rw [show (threadsOf x.act).find? (fun t => decide (8 ≤ x.w.aborts t)) = some t from ht]
  exact if_pos hs

/-- A `txbeg` that passes its checks opens transactions for its threads, once those that have one open have left. -/
theorem execTxbeg_ready (hr : Ready (.txbeg h j) s x) (hk : x.txbegChecks j s.taken) {r : Eff}
    (he : (if x.w.inTx x.act = 0 then txOpenEff h j x s.taken else .stop (runAborting x s.taken (x.w.inTx x.act) (txOpenEff h j))) = r) :
    execTxbeg h j s = .next (finish x s.taken r) := by
  obtain ⟨ha, ht, hp⟩ := hk
  refine (issue_ready hr _).trans ?_
  dsimp only
  simp only [if_neg ha, ht, hp, Bool.not_true, Bool.false_eq_true, if_false]
  exact congrArg (fun r => Host.Outcome.next (finish x s.taken r)) he

section
variable (hr : Ready (.txbeg h j) s x) (hk : x.txbegChecks j s.taken) (hn : x.w.inTx x.act = 0)
include hr hk hn

theorem execTxbeg_opens (ht : x.abortsAt8 = none) : execTxbeg h j s = .next ((s.taken.txOpened x h j none).completed x) :=
  execTxbeg_ready hr hk ((if_pos hn).trans (txOpenEff_opens ht))

theorem execTxbeg_asks {t : Nat} (ht : x.abortsAt8 = some t) (hs : s.holdsSolo x t = false) :
    execTxbeg h j s = .next ((s.taken.askSolo x t).waitIn x x.entry .solo) :=
  execTxbeg_ready hr hk ((if_pos hn).trans (txOpenEff_asks ht hs))

theorem execTxbeg_solo {t : Nat} (ht : x.abortsAt8 = some t) (hs : s.holdsSolo x t = true) :
    execTxbeg h j s = .next (((s.taken.txOpened x h j (some t)).log x.vf causeSolo 0 false 0 x.core x.pc).completed x) :=
  execTxbeg_ready hr hk ((if_pos hn).trans (txOpenEff_solo ht hs))

end

theorem execTxbeg_aborts (hr : Ready (.txbeg h j) s x) (hk : x.txbegChecks j s.taken) (hn : x.w.inTx x.act ≠ 0) :
    execTxbeg h j s = .next (runAborting x s.taken (x.w.inTx x.act) (txOpenEff h j)) := execTxbeg_ready hr hk (if_neg hn)

end

/-! ## Commit and abort (R283, R284) -/

/-- The committing transactions that are not lost already. -/
def Ctx.txLive (x : Ctx) : List (Nat × Tx) := x.txCommitting.filter fun y => y.2.lost == 0

/-- The committing threads' survivors leave for their homes under a new number; the others are lost with REASON 1 (R283). -/
def State.sendCommits (s : State) (x : Ctx) : State :=
  s.fresh.2.modWarp x.core x.slot fun w => x.txLive.foldl (fun (w : Warp) y =>
    if ((txSurvivors x.txLive).map (·.1)).contains y.1 then
      { w with tx := w.tx.modify y.1 fun z => { z with commit := some s.nextId }, cntStore := w.cntStore + 1 }
    else w.loseTx y.1 1) w

section
variable {s : State} {h : Hdr} {b : VBody} {x : Ctx}

/-- The threads of transactions leave for their handlers, or, where they have none, for the next instruction. -/
def Ctx.txLeaves (x : Ctx) (s : State) (m : DWord) : Eff :=
  .jump s (fun t => if m.getLsbD t then x.w.abortPc t x.next else x.next) 0 (x.w.abortRecon m) true

theorem txCommitting_ne (hl : x.txLive ≠ []) : ¬ x.txCommitting.isEmpty = true := by
  rw [List.isEmpty_iff]
  exact fun hc => hl (by rw [Ctx.txLive, hc]; rfl)

/-- Transactions go to their homes once: the `txend` that waits for them does not send them again. -/
theorem txend_sends (hl : x.txLive ≠ []) (hw : x.e.wait ≠ .txend) : ¬ (decide (x.e.wait = .txend) || x.txLive.isEmpty) = true := by
  rw [Bool.or_eq_true, decide_eq_true_eq, List.isEmpty_iff]
  exact fun h => h.elim hw hl

section
variable (hr : Ready (.txend h b) s x)
include hr

theorem execTxend_none (hc : x.txCommitting = []) : execTxend h b s = .next (s.taken.completed x) := issue_done hr (if_pos (by rw [hc]; rfl))

theorem execTxend_waits (hl : x.txLive ≠ []) (hw : x.e.wait ≠ .txend) (hn : x.w.cntStore ≠ 0) :
    execTxend h b s = .next (s.taken.waitIn x x.entry .fence) :=
  issue_wait hr ((if_neg (txCommitting_ne hl)).trans ((if_neg (txend_sends hl hw)).trans (if_pos (bne_iff_ne.mpr hn))))

theorem execTxend_sends (hl : x.txLive ≠ []) (hw : x.e.wait ≠ .txend) (hn : x.w.cntStore = 0) :
    execTxend h b s = .next ((s.taken.sendCommits x).waitIn x x.entry .txend) :=
  issue_wait hr ((if_neg (txCommitting_ne hl)).trans ((if_neg (txend_sends hl hw)).trans (if_neg (by rw [hn]; decide))))

theorem execTxend_leaves (hc : x.txCommitting ≠ []) (hw : x.e.wait = .txend ∨ x.txLive = []) :
    let m := maskOf (x.txCommitting.map (·.1))
    execTxend h b s = .next (finish x s.taken (x.txLeaves
      (s.taken.modWarp x.core x.slot fun w => { w with tx := w.tx.filter fun t => !m.getLsbD t.1 }) m)) := by
  intro m
  refine (issue_ready hr _).trans (congrArg (fun r => Host.Outcome.next (finish x s.taken r)) ?_)
  refine (if_neg (by rwa [List.isEmpty_iff])).trans (if_pos ?_)
  rwa [Bool.or_eq_true, decide_eq_true_eq, List.isEmpty_iff]

end

section
variable (hr : Ready (.txabt h b) s x)
include hr

theorem execTxabt_none (hn : x.w.inTx x.act = 0) : execTxabt h b s = .next (s.taken.completed x) := issue_done hr (if_pos hn)

theorem execTxabt_aborts (hn : x.w.inTx x.act ≠ 0) : execTxabt h b s =
    .next (finish x s.taken (x.txLeaves (s.taken.abortTx x.core x.slot (x.w.inTx x.act) 5) (x.w.inTx x.act))) :=
  (issue_ready hr _).trans (congrArg (fun r => Host.Outcome.next (finish x s.taken r)) (if_neg hn))

end

end

theorem transactionMembers : TransactionMembers := by
  unfold TransactionMembers
  intro s h j b x checks opened at8 live
  refine ⟨fun hr hk hn ht => ?opens, fun t hr hk hn ht hs => ?asks, fun t hr hk hn ht hs => ?solo, fun hr hk hn => ?aborting, fun hr hc => ?none,
    fun hr hl hw hn => ?waits, fun hr hl hw hn => ?sends, fun hr hc hw => ?leaves, fun hr hn => ?closed, fun hr hn => ?aborts⟩
  case opens =>
    have h8 : x.abortsAt8 = none := List.find?_eq_none.mpr fun t hm => by simpa using ht t hm
    exact (exec_txbeg h j s).trans (execTxbeg_opens hr hk hn h8)
  case asks => exact (exec_txbeg h j s).trans (execTxbeg_asks hr hk hn ht hs)
  case solo => exact (exec_txbeg h j s).trans (execTxbeg_solo hr hk hn ht hs)
  case aborting => exact (exec_txbeg h j s).trans (execTxbeg_aborts hr hk hn)
  case none => exact (exec_txend h b s).trans (execTxend_none hr hc)
  case waits => exact (exec_txend h b s).trans (execTxend_waits hr hl hw hn)
  case sends => exact (exec_txend h b s).trans (execTxend_sends hr hl hw hn)
  case leaves => exact (exec_txend h b s).trans (execTxend_leaves hr hc hw)
  case closed => exact (exec_txabt h b s).trans (execTxabt_none hr hn)
  case aborts => exact (exec_txabt h b s).trans (execTxabt_aborts hr hn)

/-! ## Accesses inside a transaction (R282) -/

section
variable {s s1 s2 : State} {h : Hdr} {b : MBody} {x : Ctx} {l : List (Nat × Parts)}

section
variable (hr : Ready (.ld h b) s x)
  (hc : checkLanes s.taken x.txSplit.1 (fun t s => x.globalLane (x.ea b t) (memBytes b) .read false s) (x.ea b) = (.ok l, s1))
include hr hc

theorem execLd_txBusy (hb : x.txBusy s1 (x.ea b) (memBytes b) x.txSplit.2 = true) : execLd h b s = .next s1 := by
  refine issue_stall hr ?_
  simp only [hc]
  exact if_pos hb

theorem execLd_txReads (hb : x.txBusy s1 (x.ea b) (memBytes b) x.txSplit.2 = false)
    (hf : txFault (x.txLanes s1 (x.ea b) (memBytes b) x.txSplit.2 fun _ => none).1 (x.ea b) = none) :
    let reads := x.txLanes s1 (x.ea b) (memBytes b) x.txSplit.2 fun _ => none
    let own : List LoadLane := reads.1.filterMap fun y => match y.2 with
      | .ok _ bytes => some ⟨y.1, [], some bytes⟩
      | _ => none
    let all := l.map memLane ++ own
    execLd h b s = .next (finish x s.taken (txFinish x
      ((reads.2.bringLanes x.vf l).issueLoad x b.d (memSize b) (h.fs.getLsbD 0) (if ctlKind b = 1 then ctlScope b else 0) (lanesAtomic l) all
        (all.map fun y => (x.ea b y.thread).toNat)) reads.1)) := by
  intro reads own all
  refine (issue_ready hr _).trans (congrArg (fun r => Host.Outcome.next (finish x s.taken r)) ?_)
  simp only [hc]
  refine (if_neg (Bool.eq_false_iff.mp hb)).trans ?_
  rw [hf] <;> rfl

end

section
variable (hr : Ready (.st h b) s x)
  (hc : checkLanes s.taken x.txSplit.1 (fun t s => x.globalLane (x.ea b t) (memBytes b) .write false s) (x.ea b) = (.ok l, s1)) (hk : ctlKind b ≠ 2)
include hr hc hk

omit hr hc in
/-- A store that is no release waits for no counter. -/
theorem releaseFree_of_plain : ¬ (decide (3 ≤ releaseScope b) && x.act != 0 && x.w.cntStore != 0) = true :=
  releaseFree fun h3 => absurd h3 (by rw [releaseScope, if_neg hk]; decide)

theorem execSt_txBusy (hb : x.txBusy s1 (x.ea b) (memBytes b) x.txSplit.2 = true) : execSt h b s = .next s1 := by
  refine issue_stall hr ?_
  simp only [hc, beq_iff_eq]
  exact (if_neg (releaseFree_of_plain hk)).trans (if_pos hb)

theorem execSt_txWrites (hb : x.txBusy s1 (x.ea b) (memBytes b) x.txSplit.2 = false) :
    let writes := x.txLanes s1 (x.ea b) (memBytes b) x.txSplit.2 fun t => some (x.groupBytes b.d (memBytes b) t)
    storeLanes x writes.2 b l (x.ea b) 0 = some s2 → execSt h b s = .next (finish x s.taken (txFinish x s2 writes.1)) := by
  intro writes hs
  refine (issue_ready hr _).trans (congrArg (fun r => Host.Outcome.next (finish x s.taken r)) ?_)
  simp only [hc, beq_iff_eq]
  refine (if_neg (releaseFree_of_plain hk)).trans ((if_neg (Bool.eq_false_iff.mp hb)).trans ?_)
  dsimp only [writes] at hs
  rw [if_neg hk, hs]

end

end

theorem transactionalAccess : TransactionalAccess := by
  unfold TransactionalAccess
  intro s s1 h b x l n ts reads writes own all
  refine ⟨fun hr hc => ⟨fun hb => ?loadBusy, fun hb hf => ?reads⟩, fun s2 hr hc hk => ⟨fun hb => ?storeBusy, fun hb hs => ?writes⟩⟩
  case loadBusy => exact (exec_ld h b s).trans (execLd_txBusy hr hc hb)
  case reads => exact (exec_ld h b s).trans (execLd_txReads hr hc hb hf)
  case storeBusy => exact (exec_st h b s).trans (execSt_txBusy hr hc hk hb)
  case writes => exact (exec_st h b s).trans (execSt_txWrites hr hc hk hb hs)

/-! ## Commits, the solo grant, its loss (R283, R286) -/

section
variable {s s0 s1 : State} {core slot th vf id : Nat} {w : Warp} {t : Tx} {p : Partition}

/-- A commit that nothing holds back and that reaches its homes is validated there. -/
theorem execTxValidate_commits (hw : s.warp? core slot = some w) (ht : w.tx.find? th = some t) (hc : t.commit = some id)
    (hb : s.commitBlocked core id t = false)
    (hs : s.through (s.vfOfTeam w.team) id (s.traffic (s.vfOfTeam w.team) core true (t.writes.flatMap fun r => bytesAt (4 * r.addr) 4)) = .ok s0)
    (h1 : s0.commitTx core slot th = some s1) : execTxValidate core slot th s = .next s1 := by
  unfold execTxValidate
  simp only [hw, ht, hc, Option.bind_some, Option.map_some]
  refine (if_neg (Bool.eq_false_iff.mp hb)).trans ?_
  simp only [hs, h1]

/-- A solo attempt that has held the grant for 2^20 ticks, neither committing nor lost, aborts with REASON 8. -/
theorem execSoloTimeout_aborts (hp : s.part? vf = some p) (hh : p.soloHolder = some (core, slot, th)) (hl : p.soloSince + 2 ^ 20 ≤ s.vclock.toNat)
    (hw : s.warp? core slot = some w) (ht : w.tx.find? th = some t) (hc : t.commit = none) (hlost : t.lost = 0) :
    execSoloTimeout vf s = .next (s.abortInPlace core slot (maskOf [th]) 8) := by
  unfold execSoloTimeout
  simp only [hp, hh, Option.bind_some, Option.map_some]
  refine (if_neg (Nat.not_lt.mpr hl)).trans ?_
  simp only [hw, ht, hc, hlost, Option.bind_some]
  rfl

/-- The grant has passed to the first that waits for it. -/
def State.grantSoloTo (s : State) (vf core slot th : Nat) : State :=
  s.modPart vf fun p => { p with soloHolder := some (core, slot, th), soloSince := s.vclock.toNat, soloWait := p.soloWait.drop 1 }

/-- With the grant free, the first fragment that waits for it runs its `txbeg` again. -/
theorem execSoloGrant_runs {e : Nat} {word : BitVec 96} {h : Hdr} {j : JBody} (hp : s.part? vf = some p) (hh : p.soloHolder = none)
    (hr : p.replay = false) (hq : p.soloWait.head? = some (core, slot, th)) (hw : s.warp? core slot = some w) (he : w.entryOf th = some e)
    (hst : (w.entry e).st = .run) (hl : s.warpLive core slot = true) (hs : w.stopWord.find? e = some word)
    (hd : decodeStream word = some (.txbeg h j)) :
    execSoloGrant vf s = execTxbeg h j ((s.grantSoloTo vf core slot th).rereads core slot e w word) := by
  unfold execSoloGrant
  simp only [hp, hh, hr, hq, hw, he, hl, Option.bind_some, Option.isSome_none, Bool.or_self, Bool.false_eq_true, if_false, Bool.not_true]
  exact State.again_runs (s := s.grantSoloTo vf core slot th) _ hw hst hs hd

/-- The thread that the grant has passed to holds it. -/
theorem State.grantSoloTo_holds {x : Ctx} (hp : s.part? vf = some p) (hx : x.vf = vf) (hc : x.core = core) (hs : x.slot = slot) :
    (s.grantSoloTo vf core slot th).holdsSolo x th = true := by
  have hpart : (s.grantSoloTo vf core slot th).part? x.vf =
      some { p with soloHolder := some (core, slot, th), soloSince := s.vclock.toNat, soloWait := p.soloWait.drop 1 } := by
    rw [hx, State.grantSoloTo, State.modPart_part?, if_pos rfl, hp]
    rfl
  rw [State.holdsSolo, hpart, hc, hs]
  exact beq_self_eq_true _

end

theorem transactionEvents : TransactionEvents := by
  unfold TransactionEvents
  intro s s0 s1 core slot th vf id w t p
  refine ⟨fun hw ht hc hb hs h1 => ?validate, fun e word h j hp hh hr hq hw he hst hl hs hd => ⟨?runs, fun x hx hvf ha hn ht hpc h8 => ?opens⟩,
    fun hp hh hl hw ht hc hlost => ?timeout⟩
  case validate => exact (exec_txValidate core slot th s).trans (execTxValidate_commits hw ht hc hb hs h1)
  case runs => exact (exec_soloGrant vf s).trans (execSoloGrant_runs hp hh hr hq hw he hst hl hs hd)
  case opens =>
    obtain ⟨hcore, hslot⟩ : core = x.core ∧ slot = x.slot := by
      have hcur := hx.cur.1
      injection hcur with hcore hslot
      exact ⟨hcore, hslot⟩
    exact (exec_soloGrant vf s).trans ((execSoloGrant_runs hp hh hr hq hw he hst hl hs hd).trans
      (execTxbeg_solo hx ⟨ha, ht, hpc⟩ hn h8 (State.grantSoloTo_holds hp hvf hcore.symm hslot.symm)))
  case timeout => exact (exec_soloTimeout vf s).trans (execSoloTimeout_aborts hp hh hl hw ht hc hlost)

/-- Settles O20, from the claims it joins. -/
theorem transactions : Obligations.Transactions := ⟨transactionMembers, transactionalAccess, transactionEvents⟩

end Sys2Proof.Machine
end

section
/-! SUPPORT. The arithmetic thread of a stove (15 R336, R338; 25 R430), and what its operations and the counter instructions of a sequencer leave
unchanged (14 R291, R307). -/

namespace Sys2Proof.Tab

theorem find?_set_ne {α : Type} [DecidableEq α] (t : Tab α) (d : α) {k j : Nat} (x : α) (h : j ≠ k) : find? (set t d k x) j = find? t j := by
  unfold set
  split
  · exact find?_erase_ne t h
  · exact find?_put_ne t x h

end Sys2Proof.Tab

namespace Sys2Proof.Machine
open Sys2Proof.Claims

/-! ## Burst registers (R338) -/

theorem btOk_of_lt {r : BitVec 4} (h : r.toNat < 4) : btOk r = true := decide_eq_true h

theorem btOk_of_le {r : BitVec 4} (h : 4 ≤ r.toNat) : btOk r = false := decide_eq_false (Nat.not_lt.mpr h)

section
variable {x : Stove} {s : State} {d : BitVec 4} {reads : List (BitVec 4)} {f : Nat → Word}

/-- An operation on bursts is carried out where its fields name burst registers and no word that it reads is poisoned. -/
theorem stoveBurst_done (hd : d.toNat < 4) (hr : ∀ r ∈ reads, r.toNat < 4 ∧ (x.btr r).poison.any id = false) :
    stoveBurst x s d reads f = .done s (x.setBt d ⟨(List.range 16).map f, List.replicate 16 false⟩) := by
  have hfields : (!btOk d || reads.any fun r => !btOk r) = false := by
    rw [btOk_of_lt hd, Bool.not_true, Bool.false_or, List.any_eq_false]
    exact fun r hm => by simp [btOk_of_lt (hr r hm).1]
  have hclean : (reads.any fun r => (x.btr r).poison.any id) = false := List.any_eq_false.mpr fun r hm => Bool.eq_false_iff.mp (hr r hm).2
  exact (if_neg (Bool.eq_false_iff.mp hfields)).trans (if_neg (Bool.eq_false_iff.mp hclean))

theorem stoveBurst_reserved (hd : 4 ≤ d.toNat) : stoveBurst x s d reads f = .fault causeReserved none :=
  if_pos (by rw [btOk_of_le hd]; rfl)

theorem stoveBurst_poisoned {a : BitVec 4} (hd : d.toNat < 4) (ha : a.toNat < 4) (hp : (x.btr a).poison.any id = true) :
    stoveBurst x s d [a] f = .fault causeUncorr none := by
  have hfields : ¬ (!btOk d || [a].any fun r => !btOk r) = true := by simp [btOk_of_lt hd, btOk_of_lt ha]
  exact (if_neg hfields).trans (if_pos (by rw [List.any_cons, hp]; rfl))

end

/-! ## The arithmetic thread (R338, R430) -/

section
variable {s : State} {k : Nat} {x : Stove} {d a b : BitVec 4} {imm : BitVec 15} (h : s.stoveAt k true x)
include h

/-- An operation on bursts leaves its words in its register, none of them poisoned. -/
theorem stove_burst {reads : List (BitVec 4)} {f : Stove → Nat → Word} (hd : d.toNat < 4)
    (hr : ∀ r ∈ reads, r.toNat < 4 ∧ (x.btr r).poison.any id = false) :
    stoveIssue true s (fun _ s x => stoveBurst x s d reads (f x)) = stoveGoes s (s.stoveClk true x) k true
      (x.setBt d ⟨(List.range 16).map (f x), List.replicate 16 false⟩) (x.xpc + 1) := stove_done h (stoveBurst_done hd hr)

/-- An entry of the data queue is there tCL after its burst (R430). -/
theorem execXpop_entry {n : Nat} {y : BurstWords} {l : List (Nat × BurstWords)} (hd : d.toNat < 4) (hq : x.dataQ = (n, y) :: l)
    (hn : n ≤ (s.stoveClk true x).dclk) : execXpop d s =
      stoveGoes s (s.stoveClk true x) k true { x with dataQ := l, bt := x.bt.set BurstWords.zero d.toNat y } (x.xpc + 1) := by
  refine stove_done h ?_
  rw [btOk_of_lt hd, hq]
  exact if_neg (Nat.not_lt.mpr hn)

theorem execXpop_young {n : Nat} {y : BurstWords} {l : List (Nat × BurstWords)} (hd : d.toNat < 4) (hq : x.dataQ = (n, y) :: l)
    (hn : (s.stoveClk true x).dclk < n) : execXpop d s = .next s.taken := by
  refine stove_stall h ?_
  rw [btOk_of_lt hd, hq]
  exact if_pos hn

theorem execXpop_empty (hd : d.toNat < 4) (hq : x.dataQ = []) : execXpop d s = .next s.taken := by
  refine stove_stall h ?_
  rw [btOk_of_lt hd, hq]
  rfl

theorem execXpop_reserved (hd : 4 ≤ d.toNat) :
    execXpop d s = .next (((s.stoveClk true x).stoveFault k x.xpc causeReserved none).clockOf s) :=
  stove_fault h (if_pos (by rw [btOk_of_le hd]; rfl))

theorem execXpush_queues (ha : a.toNat < 4) (hq : x.writeQ.length < 16) : execXpush a b s = stoveGoes s (s.stoveClk true x) k true
    { x with writeQ := x.writeQ ++ [((s.stoveClk true x).dclk, x.xgr b, x.btr a)] } (x.xpc + 1) := by
  refine stove_done h ?_
  rw [btOk_of_lt ha]
  exact if_neg (Nat.not_le.mpr hq)

theorem execXpush_full (ha : a.toNat < 4) (hq : 16 ≤ x.writeQ.length) : execXpush a b s = .next s.taken := by
  refine stove_stall h ?_
  rw [btOk_of_lt ha]
  exact if_pos hq

theorem execXcvt_converts (hd : d.toNat < 4) (ha : a.toNat < 4) (hp : (x.btr a).poison.any id = false) (hi : imm.toNat ≤ 5) :
    execXcvt d a imm s = stoveGoes s (s.stoveClk true x) k true
      (x.setBt d ⟨(List.range 16).map fun j => stoveCvt imm.toNat (x.w a j), List.replicate 16 false⟩) (x.xpc + 1) :=
  stove_done h ((if_neg (Nat.not_lt.mpr hi)).trans (stoveBurst_done hd (List.forall_mem_singleton.mpr ⟨ha, hp⟩)))

theorem execXadd_reserved (hd : 4 ≤ d.toNat) :
    execXadd d a b s = .next (((s.stoveClk true x).stoveFault k x.xpc causeReserved none).clockOf s) := stove_fault h (stoveBurst_reserved hd)

theorem execXscale_reserved (hd : 4 ≤ d.toNat) :
    execXscale d a b s = .next (((s.stoveClk true x).stoveFault k x.xpc causeReserved none).clockOf s) := stove_fault h (stoveBurst_reserved hd)

theorem execXscale_poisoned (hd : d.toNat < 4) (ha : a.toNat < 4) (hp : (x.btr a).poison.any id = true) :
    execXscale d a b s = .next (((s.stoveClk true x).stoveFault k x.xpc causeUncorr none).clockOf s) :=
  stove_fault h (stoveBurst_poisoned hd ha hp)

theorem execXset_sets (ha : a.toNat ≤ 7) : execXset d a imm s =
    stoveGoes s (s.stoveClk true x) k true (x.setXg d (imm.signExtend 32 <<< (4 * a.toNat))) (x.xpc + 1) :=
  stove_done h (if_neg (Nat.not_lt.mpr ha))

theorem execXsetAdd_sets : execXsetAdd d a imm s =
    stoveGoes s (s.stoveClk true x) k true (x.setXg d (x.xgr a + imm.signExtend 32)) (x.xpc + 1) := stove_done h rfl

theorem execXend_ends : execXend s = stoveGoes s (s.stoveClk true x) k true { x with xend := true } (x.xpc + 1) := stove_done h rfl

theorem execXsetB_fills (hd : d.toNat < 4) : execXsetB d a s = stoveGoes s (s.stoveClk true x) k true
    (x.setBt d ⟨(List.range 16).map fun _ => x.xgr a, List.replicate 16 false⟩) (x.xpc + 1) := by
  refine stove_done h ?_
  rw [btOk_of_lt hd]
  rfl

theorem execXsetB_reserved (hd : 4 ≤ d.toNat) :
    execXsetB d a s = .next (((s.stoveClk true x).stoveFault k x.xpc causeReserved none).clockOf s) :=
  stove_fault h (if_pos (by rw [btOk_of_le hd]; rfl))

theorem execXloop_decrements (hin : 0 ≤ (x.xpc : Int) + imm.toInt ∧ (x.xpc : Int) + imm.toInt < x.xcode.length) : execXloop d imm s =
    stoveGoes s (s.stoveClk true x) k true (x.setXg d (x.xgr d - 1))
      (if x.xgr d - 1 ≠ 0 then ((x.xpc : Int) + imm.toInt).toNat else x.xpc + 1) := by
  have hexec := stove_branch (v := x.setXg d (x.xgr d - 1)) (taken := x.xgr d - 1 != 0) (eff := fun _ s x =>
    stoveBranch x true s (x.setXg d (x.xgr d - 1)) (x.xgr d - 1 != 0) imm) h (Stove.target_inCode hin) rfl rfl
  simp only [bne_iff_ne] at hexec
  exact hexec

theorem execXloop_outside (hout : ¬ (0 ≤ (x.xpc : Int) + imm.toInt ∧ (x.xpc : Int) + imm.toInt < x.xcode.length)) : execXloop d imm s =
    .next (((s.stoveClk true x).stoveFault k x.xpc causeBadTarget none).clockOf s) :=
  stove_branch_out h (t := s.stoveClk true x) (Stove.target_outside hout) rfl

theorem execXbr_goes (hd : d.toNat ≤ 4) (hin : 0 ≤ (x.xpc : Int) + imm.toInt ∧ (x.xpc : Int) + imm.toInt < x.xcode.length) : execXbr d a b imm s =
    stoveGoes s (s.stoveClk true x) k true x
      (if stoveCond d.toNat (x.xgr a) (x.xgr b) then ((x.xpc : Int) + imm.toInt).toNat else x.xpc + 1) :=
  stove_branch h (Stove.target_inCode hin) (if_neg (Nat.not_lt.mpr hd)) rfl

end

/-- Settles O32, operation by operation. -/
theorem arithmeticThread : Obligations.ArithmeticThread := by
  unfold Obligations.ArithmeticThread
  intro s k d a b imm x h u goes faults next t inCode g set cond burst word clean B
  have two {r q : BitVec 4} (hr : clean r ∧ clean q) : ∀ z ∈ [r, q], z.toNat < 4 ∧ (x.btr z).poison.any id = false :=
    List.forall_mem_cons.mpr ⟨hr.1, List.forall_mem_singleton.mpr hr.2⟩
  refine ⟨fun _ _ _ hd hq hn => execXpop_entry h hd hq hn, fun _ _ _ hd hq hn => execXpop_young h hd hq hn, execXpop_empty h, execXpush_queues h,
    execXpush_full h, fun hd hc => ?xadd, fun hd hc => ?xmul, fun hd hc => ?xfma, fun hd hc => ?xmax, fun hd hc => ?xscale,
    fun hd hc => execXcvt_converts h hd hc.1.1 hc.1.2 hc.2, fun hd _ => execXsetB_fills h hd, execXscale_poisoned h,
    fun hd => ⟨execXpop_reserved h hd, execXsetB_reserved h hd, execXadd_reserved h hd, execXscale_reserved h hd⟩,
    execXset_sets h, execXsetAdd_sets h, execXloop_decrements h, execXbr_goes h, execXloop_outside h, execXend_ends h⟩
  case xadd => exact stove_burst h (f := fun x j => (addF32 0 (x.w a j) (x.w b j)).1) hd (two hc)
  case xmul => exact stove_burst h (f := fun x j => mulF32 (x.w a j) (x.w b j)) hd (two hc)
  case xfma => exact stove_burst h (f := fun x j => fmaF32 (x.w a j) (x.xgr b) (x.w d j)) hd (two hc)
  case xmax => exact stove_burst h (f := fun x j => maxF32 (x.w a j) (x.w b j)) hd (two hc)
  case xscale => exact stove_burst h (f := fun x j => mulF32 (x.w a j) (x.xgr b)) hd (List.forall_mem_singleton.mpr hc)

/-! ## What a stove's operation leaves unchanged (R338) -/

/-- A state differs from another in one stove at most, with no agent at its issue. -/
def State.OnlyStove (s t : State) (k : Nat) : Prop :=
  t = { s with cur := .none, stoves := t.stoves } ∧ ∀ n, n ≠ k → t.stoves.find? n = s.stoves.find? n

/-- An effect that changes the state not at all: the operation waits, or is complete with its stove changed. -/
def StoveEff.Local (s : State) (e : StoveEff) : Prop := e = .stall ∨ ∃ v, e = .done s v

section
variable {s t : State} {k : Nat} {x : Stove} (h : s.stoveAt k true x)
include h

theorem stoveIssue_onlyStove {eff : Nat → State → Stove → StoveEff} (he : (eff k (s.stoveClk true x) x).Local (s.stoveClk true x))
    (ht : stoveIssue true s eff = .next t) : s.OnlyStove t k := by
  obtain hstall | ⟨v, hdone⟩ := he
  · rw [stove_stall h hstall] at ht
    cases ht
    exact ⟨rfl, fun _ _ => rfl⟩
  · rw [stove_done h hdone] at ht
    cases ht
    exact ⟨rfl, fun n hn => Tab.find?_set_ne _ _ _ hn⟩

end

/-- On burst registers without poison every operation of the arithmetic thread but `xloop` and `xbr` waits or is complete. -/
theorem stoveBurst_local {x : Stove} {s : State} {d : BitVec 4} {reads : List (BitVec 4)} {f : Nat → Word} (hd : d.toNat < 4)
    (hr : ∀ r ∈ reads, r.toNat < 4) (hclean : ∀ r, r < 4 → (x.bt.get BurstWords.zero r).poison.any id = false) : (stoveBurst x s d reads f).Local s :=
  .inr ⟨_, stoveBurst_done hd fun r hm => ⟨hr r hm, hclean _ (hr r hm)⟩⟩

section
variable {s t : State} {k : Nat} {x : Stove} {d a b : BitVec 4} {imm : BitVec 15} (h : s.stoveAt k true x)
include h

theorem execXpop_onlyStove (hd : d.toNat < 4) (ht : execXpop d s = .next t) : s.OnlyStove t k := by
  refine stoveIssue_onlyStove h ?_ ht
  rw [btOk_of_lt hd]
  cases hq : x.dataQ with
  | nil => exact .inl rfl
  | cons y l =>
    by_cases hn : (s.stoveClk true x).dclk < y.1
    · exact .inl (if_pos hn)
    · exact .inr ⟨_, if_neg hn⟩

theorem execXpush_onlyStove (ha : a.toNat < 4) (ht : execXpush a b s = .next t) : s.OnlyStove t k := by
  refine stoveIssue_onlyStove h ?_ ht
  rw [btOk_of_lt ha]
  by_cases hq : 16 ≤ x.writeQ.length
  · exact .inl (if_pos hq)
  · exact .inr ⟨_, if_neg hq⟩

theorem stoveBurst_onlyStove {reads : List (BitVec 4)} {f : Stove → Nat → Word} (hd : d.toNat < 4) (hr : ∀ r ∈ reads, r.toNat < 4)
    (hclean : ∀ r, r < 4 → (x.bt.get BurstWords.zero r).poison.any id = false)
    (ht : stoveIssue true s (fun _ s x => stoveBurst x s d reads (f x)) = .next t) : s.OnlyStove t k :=
  stoveIssue_onlyStove h (stoveBurst_local hd hr hclean) ht

theorem execXcvt_onlyStove (hd : d.toNat < 4) (ha : a.toNat < 4) (hi : imm.toNat ≤ 5)
    (hclean : ∀ r, r < 4 → (x.bt.get BurstWords.zero r).poison.any id = false) (ht : execXcvt d a imm s = .next t) : s.OnlyStove t k := by
  refine stoveIssue_onlyStove h ?_ ht
  rw [if_neg (Nat.not_lt.mpr hi)]
  exact stoveBurst_local hd (List.forall_mem_singleton.mpr ha) hclean

theorem execXset_onlyStove (ha : a.toNat ≤ 7) (ht : execXset d a imm s = .next t) : s.OnlyStove t k :=
  stoveIssue_onlyStove h (.inr ⟨_, if_neg (Nat.not_lt.mpr ha)⟩) ht

theorem execXsetB_onlyStove (hd : d.toNat < 4) (ht : execXsetB d a s = .next t) : s.OnlyStove t k := by
  refine stoveIssue_onlyStove h ?_ ht
  rw [btOk_of_lt hd]
  exact .inr ⟨_, rfl⟩

end

/-! ## What a sequencer's instruction leaves unchanged (R290, R291, R307) -/

/-- A state differs from another at most in one team, in WORKCNT of warps and in performance counters, with no agent at its issue. -/
def State.OnlyTeam (s t : State) (ix : Nat) : Prop :=
  t = { s with cur := .none, teams := t.teams, warps := t.warps, banks := t.banks } ∧ (∀ n, n ≠ ix → t.teams.find? n = s.teams.find? n) ∧
    ∀ n w, t.warps.find? n = some w → ∃ w0, s.warps.find? n = some w0 ∧ w = { w0 with workcnt := w.workcnt }

theorem State.modSeq_team?_ne (s : State) {ix n : Nat} (f : Sequencer → Sequencer) (h : n ≠ ix) : (s.modSeq ix f).teams.find? n = s.teams.find? n :=
  (Tab.find?_modify _ _ _ _).trans (if_neg h)

/-- The only change of warps is that WORKCNT of one rises. -/
theorem workcnt_only {l : Tab Warp} {n m : Nat} {w : Warp} (hw : (l.modify m fun w => { w with workcnt := w.workcnt + 1 }).find? n = some w) :
    ∃ w0, l.find? n = some w0 ∧ w = { w0 with workcnt := w.workcnt } := by
  rw [Tab.find?_modify] at hw
  split at hw
  · obtain ⟨w0, h0, rfl⟩ := Option.map_eq_some_iff.mp hw
    exact ⟨w0, h0, rfl⟩
  · exact ⟨w, hw, rfl⟩

theorem seqGoes_onlyTeam (s : State) (x : SeqCtx) (f : Sequencer → Sequencer) (pc : DWord) :
    s.OnlyTeam (seqGoes (s.taken.modSeq x.ix f) x pc) x.ix := by
  refine ⟨rfl, fun n hn => ?_, fun n w hw => workcnt_only hw⟩
  exact (State.modSeq_team?_ne _ _ hn).trans ((State.modSeq_team?_ne _ _ hn).trans (State.modSeq_team?_ne _ _ hn))

section
variable {s t : State} {x : SeqCtx} (hx : s.seqAt x)
include hx

theorem seqIssue_onlyTeam {i : Instr} {ok : SeqCtx → Bool} {eff : SeqCtx → State → SeqEff} {f : Sequencer → Sequencer} (hok : ok x = true)
    (he : eff x s.taken = .done (s.taken.modSeq x.ix f)) (ht : seqIssue i s ok eff = .next t) : s.OnlyTeam t x.ix := by
  rw [seqIssue_done hx hok he] at ht
  cases ht
  exact seqGoes_onlyTeam s x f _

end

/-- Settles O52: what each instruction comes to changes its team, or its stove, and nothing else. -/
theorem sequencerAndStoveFrame : Obligations.SequencerAndStoveFrame := by
  unfold Obligations.SequencerAndStoveFrame
  intro s t h b c d a e imm x k y
  refine ⟨fun hx i hi hw ht => ?sequencer, fun hy hclean i hi hw ht => ?stove⟩
  case sequencer =>
    simp only [List.mem_cons, List.not_mem_nil, or_false] at hi
    rcases hi with rfl | rfl
    case inl => exact seqIssue_onlyTeam hx hw rfl ((exec_mset h b s).symm.trans ht)
    case inr => exact seqIssue_onlyTeam hx hw rfl ((exec_mpoint h c s).symm.trans ht)
  case stove =>
    simp only [List.mem_cons, List.not_mem_nil, or_false] at hi
    rcases hi with rfl | rfl | rfl | rfl | rfl | rfl | rfl | rfl | rfl | rfl | rfl | rfl <;>
      simp only [Instr.wellFormed, Bool.and_eq_true, decide_eq_true_eq] at hw
    · exact execXpop_onlyStove hy hw ht
    · exact execXpush_onlyStove hy hw ht
    · exact stoveBurst_onlyStove (f := fun x j => (addF32 0 (x.w a j) (x.w e j)).1) hy hw.1.1 (by simp [hw]) hclean ht
    · exact stoveBurst_onlyStove (f := fun x j => mulF32 (x.w a j) (x.w e j)) hy hw.1.1 (by simp [hw]) hclean ht
    · exact stoveBurst_onlyStove (f := fun x j => fmaF32 (x.w a j) (x.xgr e) (x.w d j)) hy hw.1 (by simp [hw]) hclean ht
    · exact stoveBurst_onlyStove (f := fun x j => maxF32 (x.w a j) (x.w e j)) hy hw.1.1 (by simp [hw]) hclean ht
    · exact stoveBurst_onlyStove (f := fun x j => mulF32 (x.w a j) (x.xgr e)) hy hw.1 (by simp [hw]) hclean ht
    · exact execXcvt_onlyStove hy hw.1.1 hw.1.2 hw.2 hclean ht
    · exact execXset_onlyStove hy hw ht
    · exact stoveIssue_onlyStove hy (.inr ⟨_, rfl⟩) ((exec_xsetAdd d a imm s).symm.trans ht)
    · exact execXsetB_onlyStove hy hw ht
    · exact stoveIssue_onlyStove hy (.inr ⟨_, rfl⟩) ((exec_xend s).symm.trans ht)

end Sys2Proof.Machine
end

section
/-! SUPPORT. What the hearths carry out: indexed reductions burst by burst, and the replies of gather-reduces (05 R121; 15 R323 to R330, R339;
17 R367). -/

namespace Sys2Proof.Machine
open Sys2Proof.Claims

/-! ## Acceptance (R121, R325, R329) -/

/-- A command as its hearth takes it: no layout yet, no word, no bag. -/
def NearCmd.taken (q : NearCmd) : Nred := ⟨q, [], 0, false, [], none, none⟩

section
variable {s s1 s2 : State} {stack : Nat} {q : NearCmd} {bytes r : List Byte} {base : DWord} (hq : s.nearHead stack = some q)
  (hreq : q.req = .nred bytes base) (hb : (nredCmd bytes base).badCnt = false)
include hq hreq hb

/-- A command outside the limits of Table 15.3 stops at once. -/
theorem execNredAccept_refuses (ho : (nredCmd bytes base).ok = false) : execNredAccept stack s =
    .next ((s.takeNear stack q).nredError stack q.taken (nredCmd bytes base) causeReserved (nredCmd bytes base).lrec) := by
  unfold execNredAccept
  simp only [hq, hreq, hb, ho, Bool.false_eq_true, if_false, Bool.not_false, if_true]
  rfl

section
variable (ho : (nredCmd bytes base).ok = true)
  (hm : s.nearMay (s.nearWords (stack / 2) q.ctx (nredCmd bytes base).lrec 128) = true)
  (ht : s.through q.vf q.op (nearTraffic (stack / 2) false (s.nearWords (stack / 2) q.ctx (nredCmd bytes base).lrec 128)) = .ok s1)
  (hr : (s1.takeNear stack q).nearBytes (stack / 2) q.ctx q.vf (nredCmd bytes base).lrec 128 = (.ok r, s2))
include ho hm ht hr

theorem execNredAccept_takes (hl : layoutOk r = true) :
    execNredAccept stack s = .next (s2.setNred stack { q.taken with layout := r } (nredCmd bytes base)) := by
  unfold execNredAccept
  simp only [hq, hreq, hb, ho, hm, ht, hr, hl, Bool.false_eq_true, if_false, Bool.not_true]
  rfl

theorem execNredAccept_badLayout (hl : layoutOk r = false) : execNredAccept stack s =
    .next (s2.nredError stack q.taken (nredCmd bytes base) causeReserved (nredCmd bytes base).lrec) := by
  unfold execNredAccept
  simp only [hq, hreq, hb, ho, hm, ht, hr, hl, Bool.false_eq_true, if_false, Bool.not_true, Bool.not_false, if_true]
  rfl

end

end

/-! ## Bursts (R328, R329) -/

section
variable {s u : State} {stack : Nat} {n : Nred} {bytes : List Byte} {base : DWord} (hn : (s.hearth stack).nred = some n)
  (hreq : n.cmd.req = .nred bytes base)

section
variable (hs : n.stopped = false) (hb : n.bag < (nredCmd bytes base).nbags)
include hs hb

/-- A command with bags left has not come to its end. -/
theorem nredBag_goes : (n.stopped || decide ((nredCmd bytes base).nbags ≤ n.bag)) = false := by
  rw [hs, Bool.false_or, decide_eq_false_iff_not]
  exact Nat.not_le.mpr hb

include hn hreq

theorem execNredBag_bad {cause : Nat} {va : DWord} (hnext : s.nredNext stack n (nredCmd bytes base) = .bad cause va) :
    execNredBag stack s = .next (s.nredError stack n (nredCmd bytes base) cause va) := by
  unfold execNredBag
  simp only [hn, hreq, nredBag_goes hs hb, hnext, Bool.false_eq_true, if_false]

theorem execNredBag_readWaits {l : List Nat} (hnext : s.nredNext stack n (nredCmd bytes base) = .read l)
    (hu : s.nearBurst (stack / 2) n.cmd.vf n.cmd.op false l = .error u) : execNredBag stack s = .next (u.setNred stack n (nredCmd bytes base)) := by
  unfold execNredBag
  simp only [hn, hreq, nredBag_goes hs hb, hnext, hu, Bool.false_eq_true, if_false]

theorem execNredBag_reads {l : List Nat} (hnext : s.nredNext stack n (nredCmd bytes base) = .read l)
    (hu : s.nearBurst (stack / 2) n.cmd.vf n.cmd.op false l = .ok u) : execNredBag stack s =
      .next ((u.nearTake n.cmd.vf n.words l).2.setNred stack { n with words := (u.nearTake n.cmd.vf n.words l).1 } (nredCmd bytes base)) := by
  unfold execNredBag
  simp only [hn, hreq, nredBag_goes hs hb, hnext, hu, Bool.false_eq_true, if_false]

section
variable {l : List (Nat × Word)} (hnext : s.nredNext stack n (nredCmd bytes base) = .write l)
include hnext

/-- An output whose first word has no place any more stops the command. -/
theorem execNredBag_noPlace {e : Nat × DWord}
    (hline : s.nredLine (stack / 2) n.cmd.ctx n.cmd.vf ((nredCmd bytes base).outOf n.layout n.bag) l = [])
    (he : s.nredOut (stack / 2) n.cmd.ctx n.cmd.vf ((nredCmd bytes base).outOf n.layout n.bag) (l.headD (0, 0)).1 = .error e) :
    execNredBag stack s = .next (s.nredError stack n (nredCmd bytes base) e.1 e.2) := by
  unfold execNredBag
  simp only [hn, hreq, nredBag_goes hs hb, hnext, hline, he, Bool.false_eq_true, if_false]

variable {y : Nat × Word} {ys : List (Nat × Word)}
  (hline : s.nredLine (stack / 2) n.cmd.ctx n.cmd.vf ((nredCmd bytes base).outOf n.layout n.bag) l = y :: ys)
include hline

theorem execNredBag_writeWaits (hu : s.nearBurst (stack / 2) n.cmd.vf n.cmd.op true ((y :: ys).map (·.1)) = .error u) :
    execNredBag stack s = .next (u.setNred stack { n with out := some l } (nredCmd bytes base)) := by
  unfold execNredBag
  simp only [hn, hreq, nredBag_goes hs hb, hnext, hline, hu, Bool.false_eq_true, if_false]

theorem execNredBag_writes (hu : s.nearBurst (stack / 2) n.cmd.vf n.cmd.op true ((y :: ys).map (·.1)) = .ok u) :
    let rest := l.drop (y :: ys).length
    execNredBag stack s = .next ((u.each (y :: ys) fun s y => s.nearWrite y.1 y.2).setNred stack
      (if rest.isEmpty then { n with bag := n.bag + 1, words := [], out := none } else { n with out := some rest }) (nredCmd bytes base)) := by
  intro rest
  unfold execNredBag
  simp only [hn, hreq, nredBag_goes hs hb, hnext, hline, hu, Bool.false_eq_true, if_false]
  rfl

end

end

include hn hreq

/-- A command that has stopped or has no bag left adds 1 to its counter, which does not wait for the host. -/
theorem execNredComplete_adds (he : n.stopped = true ∨ (nredCmd bytes base).nbags ≤ n.bag)
    (hw : s.counterWaitsOn n.cmd.ctx n.cmd.vf (nredCmd bytes base).cnt = false) : execNredComplete stack s =
      .next (((s.counterAddOn n.cmd.ctx n.cmd.vf (nredCmd bytes base).cnt 1 (s.nearBy n.cmd.op)).gatherPart n.cmd.op).modHearth stack
        fun h => { h with nred := none }) := by
  have hended : (!n.stopped && decide (n.bag < (nredCmd bytes base).nbags)) = false := by
    rcases he with h | h
    · rw [h]; rfl
    · rw [decide_eq_false (Nat.not_lt.mpr h), Bool.and_false]
  unfold execNredComplete
  simp only [hn, hreq, hended, hw, Bool.or_self, Bool.false_eq_true, if_false]

end

theorem indexedReduce : IndexedReduce := by
  unfold IndexedReduce
  intro s s1 stack q n bytes r base hreq hcmd c new was
  subst hcmd
  refine ⟨fun s2 hq hb ho hm ht hr => ⟨fun hl => ?takes, fun hl => ?badLayout⟩, fun hq hb ho => ?refuses,
    fun hn hs hb => ⟨fun cause va hnext => ?bad, fun l hnext => ⟨fun u hu => ?readWaits, fun u hu => ?reads⟩, fun l hnext => ?write⟩,
    fun hn he hw => ?completes⟩
  case takes => exact (exec_nredAccept stack s).trans (execNredAccept_takes hq hreq hb ho hm ht hr hl)
  case badLayout => exact (exec_nredAccept stack s).trans (execNredAccept_badLayout hq hreq hb ho hm ht hr hl)
  case refuses => exact (exec_nredAccept stack s).trans (execNredAccept_refuses hq hreq hb ho)
  case bad => exact (exec_nredBag stack s).trans (execNredBag_bad hn hreq hs hb hnext)
  case readWaits => exact (exec_nredBag stack s).trans (execNredBag_readWaits hn hreq hs hb hnext hu)
  case reads => exact (exec_nredBag stack s).trans (execNredBag_reads hn hreq hs hb hnext hu)
  case completes => exact (exec_nredComplete stack s).trans (execNredComplete_adds hn hreq he hw)
  case write =>
    intro out line rest
    refine ⟨fun e hline he => (exec_nredBag stack s).trans (execNredBag_noPlace hn hreq hs hb hnext hline he), fun u hne hu => ?_, fun u hne hu => ?_⟩
    · obtain ⟨y, ys, hline⟩ := List.exists_cons_of_ne_nil hne
      rw [hline] at hu
      exact (exec_nredBag stack s).trans (execNredBag_writeWaits hn hreq hs hb hnext hline hu)
    · obtain ⟨y, ys, hline⟩ := List.exists_cons_of_ne_nil hne
      have hwrites := execNredBag_writes hn hreq hs hb hnext hline (hline ▸ hu)
      rw [← hline] at hwrites
      exact (exec_nredBag stack s).trans hwrites

/-! ## Gather-reduce (R323, R324) -/

section
variable {s : State} {l : Load}

/-- A lane that is read fails by poison only. -/
theorem gredCause_of_read {y : LoadLane} (h : y.fixed.isSome = true) : s.gredCause l y = if y.fixed == some [] then some causeUncorr else none := by
  unfold State.gredCause State.gredDenied
  rw [if_pos h]

/-- Of lanes that are all read, those fail that have read poison. -/
theorem gredFailing_eq (lanes : List LoadLane) (h : ∀ y ∈ lanes, y.fixed.isSome = true) :
    (lanes.filterMap fun y => (s.gredCause l y).map fun c => (y, c)) = (lanes.filter fun y => y.fixed == some []).map fun y => (y, causeUncorr) := by
  induction lanes with
  | nil => rfl
  | cons y ys ih =>
    have hys := ih fun z hz => h z (List.mem_cons_of_mem y hz)
    rw [List.filterMap_cons, gredCause_of_read (h y List.mem_cons_self), List.filter_cons]
    by_cases hy : (y.fixed == some []) = true
    · rw [if_pos hy, if_pos hy, List.map_cons, ← hys]
      rfl
    · rw [if_neg hy, if_neg hy, ← hys]
      rfl

/-- Nothing is left to wait for where every lane is read. -/
theorem gredWaits_of_read {lanes : List LoadLane} (h : ∀ y ∈ lanes, y.fixed.isSome = true) (f : LoadLane → Bool) :
    (lanes.any fun y => y.fixed.isNone && f y) = false := by
  rw [List.any_eq_false]
  intro y hy
  obtain ⟨b, hb⟩ := Option.isSome_iff_exists.mp (h y hy)
  rw [hb]
  exact Bool.false_ne_true

end

/-- One cause that all failing lanes share is the lowest of theirs. -/
theorem min?_causes_of_head {failing : List LoadLane} {y : LoadLane} (hy : failing.head? = some y) (cause : Nat) :
    ((failing.map fun y => (y, cause)).map (·.2)).min? = some cause := by
  have hpos : 0 < failing.length := List.length_pos_of_mem (List.mem_of_head? hy)
  rw [List.map_map, show ((·.2) ∘ fun y : LoadLane => (y, cause)) = fun _ => cause from rfl, List.map_const', List.min?_replicate_of_pos hpos]

/-- The reply of a gather-reduce has read what it may, and counted the bursts. -/
def State.gredRound (s : State) (id : Nat) (l0 : Load) : State :=
  let l := (s.gredRead id l0).1
  let u := (s.gredRead id l0).2
  let now := ((l.lanes.zip l0.lanes).filter fun y => y.1.fixed.isSome && y.2.fixed.isNone).map fun y => y.1.wa
  { u.each (List.range (burstsOf (firsts now))) (fun s _ => s.countPerf l.vf 10) with loads := u.loads.put id l }

/-- A gather-reduce is no longer in flight, and its GATHER operation is complete. -/
def State.gredEnded (s : State) (id : Nat) (l : Load) : State :=
  ({ s with loads := s.loads.erase id } : State).opDone l.core l.slot 2 id

/-- The partials as they are written: canonical NaNs for FP32 (R137). -/
def Load.partials (l : Load) (fs : Nat) : List Word :=
  if fs = 1 then gredPartials (fs == 1) (l.lanes.map LoadLane.word) else (gredPartials (fs == 1) (l.lanes.map LoadLane.word)).map canonF32

/-- The bytes that a gather-reduce's reply brings: one word of each group. -/
def Load.partialBytes (l : Load) : List Nat :=
  (((l.lanes.map LoadLane.word).map (·.1)).dedup.filterMap fun k => ((l.lanes.map LoadLane.word).find? fun y => y.1 == k).map (·.2.1)).flatMap fun w =>
    bytesAt (4 * w) 4

section
variable {s s1 : State} {id fs c : Nat} {l0 l : Load} {word : BitVec 96} {w : Warp} (hid : s.loads.find? id = some l0)
  (hg : l0.gred = some (fs, c, word)) (hl : (s.gredRead id l0).1 = l) (hw : (s.gredRound id l0).warp? l.core l.slot = some w)
  (hread : ∀ y ∈ l.lanes, y.fixed.isSome = true)
include hid hg hl hw hread

theorem execGredReply_partials (hne : l.lanes ≠ []) (hbad : (l.lanes.filter fun y => y.fixed == some []) = [])
    (ht : (s.gredRound id l0).through l.vf id ((s.gredRound id l0).traffic l.vf l.core false l.partialBytes) = .ok s1) :
    execGredReply id s = .next ((s1.gredEnded id l).writeBack l.core l.slot
      ((((l.partials fs).zip (l.lanes.map (·.thread))).filter fun y => !w.exited.getLsbD y.2).map (fun y => (⟨.v l.dst y.2, y.1.setWidth 64⟩ : RegWrite)) ++
        [⟨.s (c - 0xC0), BitVec.ofNat 64 (l.partials fs).length⟩])) := by
  subst hl
  unfold execGredReply
  simp -zeta only [hid, hg]
  extract_lets r l1 now u s' done bad s'' ls ps0 ps from_
  have hwarp : s'.warp? l1.core l1.slot = some w := hw
  have hthrough : s'.through l1.vf id (s'.traffic l1.vf l1.core false from_) = .ok s1 := ht
  have hnone : bad = [] := (gredFailing_eq _ hread).trans (by rw [hbad]; rfl)
  have hlanes : l1.lanes.isEmpty = false := by rwa [List.isEmpty_eq_false_iff]
  refine (if_neg (Bool.eq_false_iff.mp (gredWaits_of_read hread _))).trans ?_
  rw [hwarp, hnone]
  simp -zeta only [hthrough, hlanes, List.map_nil, List.min?_nil, Bool.false_eq_true, if_false]
  rfl

/-- Every lane that fails has read poison, so the trap has that cause and the mask of them all. -/
theorem execGredReply_poisoned {y : LoadLane} {e : Nat} (hy : (l.lanes.filter fun y => y.fixed == some []).head? = some y)
    (he : (lowestOf (maskOf ((l.lanes.filter fun y => y.fixed == some []).map (·.thread)) &&& w.live)).bind w.entryOf = some e) :
    execGredReply id s = .next (((s.gredRound id l0).gredEnded id l).takeTrap l.core l.slot e l.pc word false true
      ⟨causeUncorr, maskOf ((l.lanes.filter fun y => y.fixed == some []).map (·.thread)), l.vaOf y, some ((y.parts.headD (0, 0)).1)⟩) := by
  subst hl
  unfold execGredReply
  simp -zeta only [hid, hg]
  extract_lets r l1 now u s' done bad s'' ls ps0 ps from_
  have hwarp : s'.warp? l1.core l1.slot = some w := hw
  have hfail : bad = (l1.lanes.filter fun y => y.fixed == some []).map fun y => (y, causeUncorr) := gredFailing_eq _ hread
  refine (if_neg (Bool.eq_false_iff.mp (gredWaits_of_read hread _))).trans ?_
  have hmin : (bad.map (·.2)).min? = some causeUncorr := by
    rw [hfail]
    exact min?_causes_of_head hy causeUncorr
  have hall : (bad.filter fun y => y.2 == causeUncorr) = bad := by
    rw [hfail, List.filter_eq_self]
    intro z hz
    obtain ⟨a, -, rfl⟩ := List.mem_map.mp hz
    rfl
  have hmask : (bad.map fun y => y.1.thread) = (l1.lanes.filter fun y => y.fixed == some []).map (·.thread) := by
    rw [hfail, List.map_map]
    rfl
  have hfirst : ((bad.head?.map fun y => y.1).getD default) = y := by
    rw [hfail, List.head?_map, hy]
    rfl
  rw [hwarp, hmin]
  simp -zeta only [hall]
  extract_lets at_ first f
  have hf : f = ⟨causeUncorr, maskOf ((l1.lanes.filter fun y => y.fixed == some []).map (·.thread)), l1.vaOf y, some ((y.parts.headD (0, 0)).1)⟩ := by
    simp only [f, first, at_, hmask, hfirst]
  have hentry : (lowestOf (f.mask &&& w.live)).bind w.entryOf = some e := by rwa [hf]
  rw [hentry, hf]
  rfl

end

theorem gatherReduce : GatherReduce := by
  unfold GatherReduce
  intro s s1 id l0 fs c word w hid hg l u now u1 ended bad hw hne hread ls ps ps' from_
  refine ⟨fun hbad ht => ?partials, fun y e hy he => ?poisoned⟩
  case partials => exact (exec_gredReply id s).trans (execGredReply_partials hid hg rfl hw hread hne hbad ht)
  case poisoned => exact (exec_gredReply id s).trans (execGredReply_poisoned hid hg rfl hw hread hy he)

/-- Settles O25: a hearth's acceptance, bursts and end are each one equation of the command in progress; a lane of a gather-reduce that has been read
fails only by poison, so the reply either brings the partials of all lanes or traps the poisoned ones. -/
theorem nearEngines : Obligations.NearEngines := ⟨indexedReduce, gatherReduce⟩

end Sys2Proof.Machine
end

section
/-! SUPPORT. What the hearths do with stoves: launches, ends, inspections and kills (15 R331 to R334), and the frame of a
channel (15 R339; 17 R366, R367). -/

namespace Sys2Proof.Machine
open Sys2Proof.Claims

/-! ## Launches (R331) -/

/-- The words of both microprograms of a launch. -/
def State.launchWords (s : State) (stack : Nat) (q : NearCmd) (d : List Byte) : List Nat :=
  s.nearWords (stack / 2) q.ctx (BitVec.ofNat 64 (fieldOf d 0 8)) (4 * fieldOf d 0x10 2) ++
    s.nearWords (stack / 2) q.ctx (BitVec.ofNat 64 (fieldOf d 8 8)) (4 * fieldOf d 0x12 2)

section
variable {s s1 s2 s3 : State} {stack : Nat} {q : NearCmd} {d a x : List Byte} (hq : s.nearHead stack = some q) (hreq : q.req = .nlaunch d)
  (hfree : s.counterWaitsOn q.ctx q.vf (namedCounter (BitVec.ofNat 64 (fieldOf d 0x20 8))) = false)
include hq hreq hfree

theorem execStoveLaunch_refuses (ho : s.launchOk q.vf stack d = false) :
    let cnt := BitVec.ofNat 64 (fieldOf d 0x20 8)
    execStoveLaunch stack s = .next (s.refuseLaunch stack q cnt causeReserved (if cnt.toNat % 16 = 0 then 0 else cnt)) := by
  unfold execStoveLaunch
  simp only [hq, hreq, hfree, ho, Bool.false_eq_true, if_false, Bool.not_false, if_true]

theorem execStoveLaunch_loads (ho : s.launchOk q.vf stack d = true)
    (hidle : ∀ c ∈ (List.range 32).filter (fun c => (fieldOf d 0x18 4).testBit c),
      (s.stove (32 * stack + c)).busy = false ∧ ∀ l ∈ (s.hearth stack).launches, l.2.chans.contains c = false)
    (hwords : ∀ w ∈ s.launchWords stack q d, s.wordQueued w = false ∧ s.flipWaits (4 * w) s.nextId = false)
    (ht : s.through q.vf q.op (nearTraffic (stack / 2) false (s.launchWords stack q d)) = .ok s1)
    (ha : s1.nearCode stack q (BitVec.ofNat 64 (fieldOf d 0 8)) (fieldOf d 0x10 2) = (.ok a, s2))
    (hx : s2.nearCode stack q (BitVec.ofNat 64 (fieldOf d 8 8)) (fieldOf d 0x12 2) = (.ok x, s3)) :
    let chans := (List.range 32).filter fun c => (fieldOf d 0x18 4).testBit c
    execStoveLaunch stack s =
      .next (((s3.takeNear stack q).each chans fun s c => s.setStove (32 * stack + c) (launchedStove q d c (codeWords a) (codeWords x))).modHearth stack
        fun h => { h with launches := h.launches.put q.op ⟨q.vf, q.ctx, chans, BitVec.ofNat 64 (fieldOf d 0x20 8)⟩ }) := by
  have hchans : (((List.range 32).filter fun c => (fieldOf d 0x18 4).testBit c).any fun c =>
      (s.stove (32 * stack + c)).busy || (s.hearth stack).launches.any fun l => l.2.chans.contains c) = false := by
    rw [List.any_eq_false]
    intro c hc
    obtain ⟨hbusy, hlaunch⟩ := hidle c hc
    rw [hbusy, Bool.false_or, List.any_eq_false.mpr fun l hl => Bool.eq_false_iff.mp (hlaunch l hl)]
    exact Bool.false_ne_true
  have hmay : ((s.launchWords stack q d).any fun w => s.wordQueued w || s.flipWaits (4 * w) s.nextId) = false := by
    rw [List.any_eq_false]
    intro w hw
    obtain ⟨hqueue, hflip⟩ := hwords w hw
    rw [hqueue, hflip]
    exact Bool.false_ne_true
  unfold State.launchWords at hmay ht
  unfold execStoveLaunch
  simp only [hq, hreq, hfree, ho, hchans, hmay, ht, ha, hx, Bool.false_eq_true, if_false, Bool.not_true]

end

/-! ## Ends, inspections and kills (R332 to R334) -/

theorem execStoveEnd_leaves {s : State} {stack ch : Nat} {l : Launch} (hl : (s.hearth stack).launches.find? (s.stove (32 * stack + ch)).launch = some l)
    (hc : l.chans.contains ch = true) (he : (s.stove (32 * stack + ch)).ended = true)
    (hw : s.counterWaitsOn l.ctx l.vf (namedCounter l.counter) = false) :
    let y := s.stove (32 * stack + ch)
    let s1 := s.setStove (32 * stack + ch) (if y.st = .faulted ∨ y.st = .killed then y else { y.discard with st := .idle })
    let rest := l.chans.filter fun c => c != ch
    execStoveEnd stack ch s = .next (if rest ≠ [] then s1.modHearth stack fun h => { h with launches := h.launches.put y.launch { l with chans := rest } }
      else ((s1.counterAddOn l.ctx l.vf (namedCounter l.counter) 1 (s1.nearBy y.launch)).gatherPart y.launch).modHearth stack fun h =>
        { h with launches := h.launches.erase y.launch }) := by
  intro y s1 rest
  unfold execStoveEnd
  simp only [hl, hc, he, hw, Bool.not_true, Bool.or_self, Bool.false_eq_true, if_false, Bool.or_eq_true, beq_iff_eq]
  by_cases hrest : rest = []
  · have hempty : (l.chans.filter fun c => c != ch).isEmpty = true := List.isEmpty_iff.mpr hrest
    rw [if_neg (not_not_intro hrest)]
    simp only [hempty, Bool.not_true, Bool.false_eq_true, if_false]
    rfl
  · have hempty : (l.chans.filter fun c => c != ch).isEmpty = false := List.isEmpty_eq_false_iff.mpr hrest
    rw [if_pos hrest]
    simp only [hempty, Bool.not_false, if_true]
    rfl

/-- Only a stove that waits for its first compute interval may report either of two states. -/
theorem Stove.code6_pick {y : Stove} (h : y.st ≠ .loaded) (pick : Nat) : y.code6 pick = y.code6 0 := by
  cases hy : y.st with
  | loaded => exact absurd hy h
  | idle | running | suspended | faulted | killed => simp only [Stove.code6, hy]

theorem execNstatService_one {s s1 s2 : State} {stack ch : Nat} {q : NearCmd} {mask : Word} {buf c : DWord} {p : Partition} (hq : s.nearHead stack = some q)
    (hreq : q.req = .nstat mask buf c) (hsel : (List.range 32).filter mask.getLsbD = [ch]) (hw : s.counterWaits q.ctx q.vf c = false)
    (he : s.engineWaits (stack / 2) q.ctx buf 16 .write = false)
    (ht : s.through q.vf q.op ((nearTraffic (stack / 2) true (s.nearWords (stack / 2) q.ctx buf 16)).filter fun y => y.1 == 1) = .ok s1)
    (hp : s1.part? q.vf = some p) (hown : p.channels.contains (32 * stack + ch) = true) (hst : (s1.stove (32 * stack + ch)).st ≠ .loaded)
    (hwrite : (s1.takeNear stack q).writeVirt (stack / 2) q.ctx q.vf buf
      (statusRecord (s1.stove (32 * stack + ch)) ((s1.stove (32 * stack + ch)).code6 0)) [] ⟨4, stack, some buf, 0⟩ = (none, s2)) :
    execNstatService stack s = .next ((s2.counterAdd q.ctx q.vf c 1 (s2.nearBy q.op)).gatherPart q.op) := by
  have hmine : (((s1.takeNear stack q).part? q.vf).map fun p => p.channels.contains (32 * stack + ch)).getD false = true := by
    rw [show (s1.takeNear stack q).part? q.vf = some p from hp]
    exact hown
  have hstove : (s1.takeNear stack q).stove (32 * stack + ch) = s1.stove (32 * stack + ch) := rfl
  have hload : ((s1.stove (32 * stack + ch)).st == .loaded) = false := beq_eq_false_iff_ne.mpr hst
  unfold execNstatService
  simp only [hq, hreq, hsel, hw, he, ht, List.length_singleton, Nat.mul_one, Bool.or_self, Bool.false_eq_true, if_false]
  have hbuf : buf + BitVec.ofNat 64 (16 * 0) = buf := BitVec.add_zero buf
  have hone : [ch].zip (List.range 32) = [(ch, 0)] := rfl
  simp only [hone, State.each, List.foldl_cons, List.foldl_nil, hmine, hstove, hload, Stove.code6_pick hst, if_true, Bool.false_eq_true, if_false,
    hbuf, hwrite]

theorem execNkillService_kills {s : State} {stack : Nat} {q : NearCmd} {mask : Word} {c : DWord} (hq : s.nearHead stack = some q)
    (hreq : q.req = .nkill mask c) (hw : s.counterWaits q.ctx q.vf c = false) :
    let t := (s.takeNear stack q).each ((List.range 32).filter mask.getLsbD) fun s c =>
      if (((s.part? q.vf).map fun p => p.channels.contains (32 * stack + c)).getD false) = true ∧ (s.stove (32 * stack + c)).busy = true ∧
        (s.stove (32 * stack + c)).vf = q.vf ∧ (s.stove (32 * stack + c)).ended = false then s.killStove (32 * stack + c) else s
    execNkillService stack s = .next ((t.counterAdd q.ctx q.vf c 1 (t.nearBy q.op)).gatherPart q.op) := by
  unfold execNkillService
  simp only [hq, hreq, hw, Bool.false_eq_true, if_false, Bool.and_eq_true, beq_iff_eq, Bool.not_eq_true', and_assoc]

theorem stoveLaunches : StoveLaunches := by
  unfold StoveLaunches
  intro s s1 s2 s3 stack ch q d a x cnt chans av xv was free
  refine ⟨fun hq hreq hfree ho hidle hwords ht ha hx => ?loads, fun hq hreq hfree ho => ?refuses, fun l hl hc he hw => ?ends,
    fun mask buf c p hq hreq hsel hw he ht hp hown hst hwrite => ?inspects, fun mask c hq hreq hw => ?kills⟩
  case loads => exact (exec_stoveLaunch stack s).trans (execStoveLaunch_loads hq hreq hfree ho hidle hwords ht ha hx)
  case refuses => exact (exec_stoveLaunch stack s).trans (execStoveLaunch_refuses hq hreq hfree ho)
  case ends => exact (exec_stoveEnd stack ch s).trans (execStoveEnd_leaves hl hc he hw)
  case inspects => exact (exec_nstatService stack s).trans (execNstatService_one hq hreq hsel hw he ht hp hown hst hwrite)
  case kills => exact (exec_nkillService stack s).trans (execNkillService_kills hq hreq hw)

/-! ## The frame (R339, R366, R367) -/

theorem frameStart_goes {s : State} {stack : Nat} (hstack : stack < 8) (hboot : 6 ≤ s.bootStep) (hclk : (s.hearth stack).frameAt ≤ s.dclk) :
    (decide (8 ≤ stack) || decide (s.bootStep < 6) || decide (s.dclk < (s.hearth stack).frameAt)) = false := by
  simp only [Bool.or_eq_false_iff, decide_eq_false_iff_not]
  omega

theorem channelFrame : ChannelFrame := by
  unfold ChannelFrame
  intro s stack ch h v s1
  refine ⟨fun hstack hboot hclk hv => ?ordinary, fun hstack hboot hclk hv => ?compute, fun hcomp hord => ?interval, fun hcomp hord hst haend => ?deadline⟩
  case ordinary =>
    refine (exec_frameStart stack s).trans ?_
    unfold execFrameStart
    refine (if_neg (Bool.eq_false_iff.mp (frameStart_goes hstack hboot hclk))).trans ?_
    exact if_pos hv
  case compute =>
    refine (exec_frameStart stack s).trans ?_
    unfold execFrameStart
    refine (if_neg (Bool.eq_false_iff.mp (frameStart_goes hstack hboot hclk))).trans ?_
    exact if_neg hv
  case interval =>
    refine (exec_ordinaryIntervalStart stack s).trans ?_
    unfold execOrdinaryIntervalStart
    refine congrArg Host.Outcome.next (if_pos ?_)
    rw [Bool.and_eq_true, decide_eq_true_eq]
    exact ⟨hcomp, hord⟩
  case deadline =>
    refine (exec_stoveDeadline stack ch s).trans ?_
    unfold execStoveDeadline
    refine congrArg Host.Outcome.next (if_pos ?_)
    simp only [Bool.and_eq_true, decide_eq_true_eq, beq_iff_eq, Bool.not_eq_true']
    exact ⟨⟨⟨hcomp, hord⟩, hst⟩, haend⟩

/-- Settles O26: each event of the hearth is one equation of the request at the head of its queue; a stove that is not loaded leaves no choice of the
state it reports, and the guards of a frame are decided by its clocks. -/
theorem stoveEngines : Obligations.StoveEngines := ⟨stoveLaunches, channelFrame⟩

end Sys2Proof.Machine
end

section
/-! SUPPORT. How teams come to their cores: ranges handed out and stolen, and the head of a hive's queue (17 R357 to R361, R372). -/

namespace Sys2Proof.Machine
open Sys2Proof.Claims

/-! ## Ranges (R357, R359) -/

section
variable {s : State} {vf die hive d h v : Nat} {p : Partition} {r : Range} {l : List Range} (hp : s.part? vf = some p)

theorem State.nextReturned_none (hr : p.returned = []) : s.nextReturned p = none := by
  unfold State.nextReturned
  rw [hr]
  rfl

include hp

/-- With no range returned, the next range of the grid that is handed out next goes to the die in rotation. -/
theorem execPackageRangeHandout_hands {k : Nat} {g : Grid}
    (hd : rotate (p.dies.filter fun d => ((s.pkgQ.find? (pkgIx vf d)).getD []).length < 8) p.pkgRot = some d) (hr : p.returned = [])
    (hg : s.nextGrid p = some (k, g)) :
    let rp := if g.lr.inOrder then 1 else min (2 ^ 20) (max 1 (ceilDiv g.lr.teams (8 * p.hives.length)))
    let hi := min (g.handed + rp) g.lr.teams
    execPackageRangeHandout vf s = .next (((s.pushPkg p vf d ⟨k, g.handed, hi - 1, 1⟩).modGrid k fun g => { g with handed := hi }).modPart vf fun p =>
      { p with pkgRot := (d + 1) % 4, pool := if hi = g.lr.teams then p.pool.filter (· ≠ k) else p.pool }) := by
  intro rp hi
  unfold execPackageRangeHandout
  simp only [hp, hd, State.nextReturned_none hr, hg]
  rfl

/-- The oldest range at a die is cut for the hive in rotation. -/
theorem execDieRangeHandout_cuts (hq : s.pkgQ.find? (pkgIx vf die) = some (r :: l))
    (hh : rotate ((p.hivesOn die).filter fun h => ((s.dieQ.find? h).getD []).length < 4) ((p.dieRot.find? die).getD 0) = some h) :
    let last := min (r.lo + r.cut - 1) r.hi
    execDieRangeHandout die vf s = .next (({ s with
      dieQ := s.dieQ.put h (((s.dieQ.find? h).getD []) ++ [{ r with hi := last }])
      pkgQ := s.pkgQ.put (pkgIx vf die) (if last = r.hi then l else { r with lo := last + 1 } :: l) } : State).modPart vf fun p =>
        { p with dieRot := p.dieRot.put die (h + 1) }) := by
  intro last
  unfold execDieRangeHandout
  simp only [hp, hq, Option.getD_some, hh]
  rfl

/-- An idle hive takes the upper half of the youngest range of the fullest queue of its die, where a team of it fits. -/
theorem execHiveSteal_takes (hh : p.hives.contains hive = true) (hq : s.dieQ.find? hive = none)
    (hv : s.victim s.dieQ ((p.hivesOn (hive / 24)).filter (· ≠ hive)) = some (v, r))
    (hf : ((s.grid? r.grid).bind fun g => s.fitHive hive g none).isSome = true) :
    let c := cutUpper ((s.dieQ.find? v).getD []) r
    execHiveSteal hive vf s = .next { s with dieQ := (s.dieQ.put v c.1).put hive [c.2] } := by
  intro c
  obtain ⟨y, hy⟩ := Option.isSome_iff_exists.mp hf
  unfold execHiveSteal
  simp only [hp]
  refine (if_neg (by rw [hh, hq]; decide)).trans ?_
  simp only [hv, hy]
  rfl

/-- So does a die, of which a hive has room. -/
theorem execDieSteal_takes (hq : s.pkgQ.find? (pkgIx vf die) = none) (hroom : ∃ h ∈ p.hivesOn die, ((s.dieQ.find? h).getD []).length < 4)
    (hv : s.victim s.pkgQ ((p.dies.filter (· ≠ die)).map (pkgIx vf)) = some (v, r)) :
    let c := cutUpper ((s.pkgQ.find? v).getD []) r
    execDieSteal die vf s = .next (({ s with pkgQ := s.pkgQ.put v c.1 } : State).pushPkg p vf die c.2) := by
  intro c
  have hfull : ((p.hivesOn die).all fun h => decide (4 ≤ ((s.dieQ.find? h).getD []).length)) = false := by
    obtain ⟨h, hm, hl⟩ := hroom
    exact List.all_eq_false.mpr ⟨h, hm, by simpa using hl⟩
  unfold execDieSteal
  simp only [hp]
  refine (if_neg (by rw [hq, hfull]; decide)).trans ?_
  simp only [hv]
  rfl

end

theorem rangeHandouts : RangeHandouts := by
  unfold RangeHandouts
  intro s vf die hive d h v p r l hp
  exact ⟨fun k g hd hr hg => execPackageRangeHandout_hands hp hd hr hg, execDieRangeHandout_cuts hp, execHiveSteal_takes hp, execDieSteal_takes hp⟩

/-! ## Placement (R360, R361, R372) -/

section
variable {s : State} {hive : Nat} {r : Range} {l : List Range} {g : Grid}

/-- The head of a hive's queue is looked at where no shadow waits for a place. -/
theorem execTeamPlace_head (hs : s.shadowFor hive = none) (hl : s.leftShadow hive = none) (hq : s.dieQ.find? hive = some (r :: l))
    (hg : s.grid? r.grid = some g) : execTeamPlace hive s = .next (s.placeHead hive r l g) := by
  unfold execTeamPlace
  simp only [hs, hl, hq, Option.getD_some, hg]

theorem State.placeHead_starts {c : Nat × List Nat} (ht : g.turnOf r.lo = true) (hf : s.fitHive hive g none = some c) :
    s.placeHead hive r l g = ({ s with fitWait := s.fitWait.erase hive } : State).startFrom hive r g c := by
  unfold State.placeHead
  simp only [hf]
  exact if_pos ht

/-- A team that does not fit begins its wait; with no later range nothing goes first. -/
theorem State.placeHead_waits (hf : s.fitHive hive g none = none) (hw : s.fitWait.find? hive = none) :
    s.placeHead hive r [] g = { s with fitWait := s.fitWait.put hive (r.grid, r.lo, s.vclock.toNat, false) } := by
  unfold State.placeHead
  simp only [hf, hw]
  rfl

theorem execFitWaitExpiry_expires {k n t : Nat} {e : Bool} (hw : s.fitWait.find? hive = some (k, n, t, e)) (ht : t + 65536 ≤ s.vclock.toNat) :
    execFitWaitExpiry hive s = .next { s with fitWait := s.fitWait.put hive (k, n, t, true) } := by
  unfold execFitWaitExpiry
  rw [hw]
  exact congrArg Host.Outcome.next (if_pos ht)

/-- A screened team without a shadow is screened no more once 65,536 clocks have passed. -/
theorem execTeamNotScreened_ends {core team : Nat} {tm : Team} {x : Screen} (htm : s.team? (teamIx core team) = some tm) (hx : tm.screen = some x)
    (ho : x.other = none) (hsh : x.shadow = false) (ht : x.since + 65536 ≤ s.vclock.toNat) :
    ∃ u : State, execTeamNotScreened core team s = .next u ∧ u.team? (teamIx core team) = some { tm with screen := none } := by
  refine ⟨_, rfl, ?_⟩
  have hlate : (tm.screen.filter fun x => !(x.other.isNone && !x.shadow && decide (x.since + 65536 ≤ s.vclock.toNat))) = none := by
    rw [hx, Option.filter_some, ho, hsh, decide_eq_true ht]
    rfl
  rw [State.modTeam_team?, if_pos rfl]
  refine (congrArg (Option.map _) htm).trans ?_
  exact congrArg (fun o => some { tm with screen := o }) hlate

end

theorem teamPlacement : TeamPlacement := by
  unfold TeamPlacement
  intro s hive core team t r l g
  refine ⟨fun hs hl hq hg => ⟨fun c ht hf => ?starts, fun hf hw hnil => ?waits⟩, fun k n e hw ht => execFitWaitExpiry_expires hw ht,
    fun tm x htm hx ho hsh ht => execTeamNotScreened_ends htm hx ho hsh ht⟩
  case starts => exact (execTeamPlace_head hs hl hq hg).trans (congrArg Host.Outcome.next (State.placeHead_starts ht hf))
  case waits =>
    subst hnil
    exact (execTeamPlace_head hs hl hq hg).trans (congrArg Host.Outcome.next (State.placeHead_waits hf hw))

/-- Settles O35: what the distributors hand out and take, and what a hive places. -/
theorem placement : Obligations.Placement := ⟨rangeHandouts, teamPlacement⟩

end Sys2Proof.Machine
end

section
/-! SUPPORT. Function 0's commands on partitions: creation, resizing, destruction (19 R390, R391, R394 to R396). -/

namespace Sys2Proof.Tab

/-- Indices that are all given one value hold it, and one that held it keeps it. -/
theorem find?_foldl_put {α : Type} (x : α) {k : Nat} (l : List Nat) {t : Tab α} (h : k ∈ l ∨ find? t k = some x) :
    find? (l.foldl (fun t j => t.put j x) t) k = some x := by
  induction l generalizing t with
  | nil => exact h.resolve_left List.not_mem_nil
  | cons j l ih =>
    refine ih ?_
    rw [find?_put]
    by_cases hk : k = j
    · exact .inr (if_pos hk)
    · rw [if_neg hk]
      exact h.imp_left fun hm => (List.mem_cons.mp hm).resolve_left hk

end Sys2Proof.Tab

namespace Sys2Proof.Machine
open Sys2Proof.Claims

/-! ## Commands of function 0 that are refused or that wait (R388, R389) -/

section
variable {s t : State} {op : Nat} {sel : (Nat → DWord) → Bool} {f : (Nat → DWord) → Mailbox → State → Answer} (ht : takes s 0 op)
  (hl : listedOp op = true) (hs : sel (argOf s 0) = true)
include ht hl hs

theorem hvCommand_fail {st : Status} (hf : f (argOf s 0) (s.mailbox 0) s = .fail t st) :
    hvCommand op 0 s sel f = .next (t.finishCommand 0 st []) := command_fail ht hl hs ((if_neg (by decide)).trans hf)

theorem hvCommand_pending (hf : f (argOf s 0) (s.mailbox 0) s = .pending t) : hvCommand op 0 s sel f = .next { t with mboxCur := some 0 } :=
  command_pending ht hl hs ((if_neg (by decide)).trans hf)

end

/-! ## Who owns what: the partitions and the entries of rows -/

/-- The partitions and the entries of the rows. -/
def State.owners (s : State) : Tab Partition × Tab Perm := (s.parts, s.perms)

theorem State.each_owners {α : Type} {f : State → α → State} (hf : ∀ s a, (f s a).owners = s.owners) (s : State) (l : List α) :
    (s.each l f).owners = s.owners := State.each_keeps State.owners hf s l

theorem State.l2Evict_owners (s : State) (frame : Nat) : (s.l2Evict frame).owners = s.owners := by
  exact State.each_owners (f := fun s w => let h := s.homeWord w; s.pushWrite w h.1 h.2) (fun _ _ => rfl) s _

theorem State.l2Trim_owners (s : State) (frame n : Nat) : (s.l2Trim frame n).owners = s.owners := by
  induction n generalizing s with
  | zero => rfl
  | succ n ih =>
    unfold State.l2Trim
    split
    · rfl
    · split
      · exact State.l2Evict_owners s frame
      · exact (ih _).trans (State.l2Evict_owners _ _)

theorem State.trimWays_owners (s : State) : s.trimWays.owners = s.owners := State.each_owners (fun _ _ => State.l2Trim_owners _ _ _) s _

theorem State.soricaTouch_owners (s before : State) (kind ix : Nat) : (s.soricaTouch before kind ix).owners = s.owners := by
  unfold State.soricaTouch
  dsimp only
  split <;> rfl

theorem State.setSorica_owners (s : State) (kind ix st owner : Nat) : (s.setSorica kind ix st owner).owners = s.owners := by
  unfold State.setSorica
  dsimp only
  split
  · exact State.soricaTouch_owners _ _ _ _
  · rfl

/-- Rows that are given to a partition have its entry with all rights (R115). -/
theorem State.giveRows_perms (s : State) {vf row : Nat} {rows : List Nat} (h : row ∈ rows) :
    (s.giveRows vf rows).perms.get Perm.reset row = ⟨vf, true, true, true⟩ :=
  congrArg (fun o => o.getD Perm.reset) (Tab.find?_foldl_put _ rows (.inl h))

/-! ## Creation (R394) -/

/-- A partition as `PCREATE` makes it of a list, with its log ring and its mode. -/
def ResList.partition (l : ResList) (base n : Nat) (replay : Bool) : Partition := {
  hives := l.hives, cells := l.cells, stks := l.stks, channels := l.channels, l2ways := l.l2ways, traceMask := l.traceMask
  perfMask := l.perfMask, compMask := l.compMask, ranges := l.ranges, link := l.link, replay := replay
  log := ⟨base, n, 0, 0, false⟩, queues := [], queueRot := 0, pool := [], pkgRot := 0, dieRot := [], keys := []
  dumpSeq := [], interval := 0, boundary := 0, undo := [], undoDone := 0, gone := [], startVals := []
  ckpt := if replay then some Checkpoint.empty else none
  reexec := false, hostHeld := [], hostLog := [], rehost := [], replayTo := 0, trail := [], retrail := []
  soloHolder := none, soloSince := 0, soloWait := [], returned := [] }

/-- The rows and the entries of a list are the partition's, and in replay its hives keep what their combs hold (R414). -/
def State.granted (s : State) (vf : Nat) (l : ResList) (replay : Bool) : State :=
  let s := (s.giveRows vf (rowsOf l.ranges)).each l.entries fun s e => s.setSorica e.1 e.2 1 vf
  if replay then s.each l.hives fun s h => s.modHive h fun y => { y with start := some y.comb } else s

/-- A partition holds the resources of a list. -/
def State.created (s : State) (vf : Nat) (l : ResList) (p : Partition) : State :=
  let s := s.granted vf l p.replay
  ({ s with parts := s.parts.put vf p } : State).trimWays

theorem State.granted_owners (s : State) (vf : Nat) (l : ResList) (replay : Bool) :
    (s.granted vf l replay).owners = (s.giveRows vf (rowsOf l.ranges)).owners := by
  have hentries := State.each_owners (fun (s : State) (e : Nat × Nat) => State.setSorica_owners s e.1 e.2 1 vf) (s.giveRows vf (rowsOf l.ranges)) l.entries
  unfold State.granted
  dsimp only
  split
  · exact (State.each_owners (f := fun s h => s.modHive h fun y => { y with start := some y.comb }) (fun _ _ => rfl) _ l.hives).trans hentries
  · exact hentries

theorem State.created_part? (s : State) (vf : Nat) (l : ResList) (p : Partition) : (s.created vf l p).part? vf = some p :=
  (congrArg (fun o : Tab Partition × Tab Perm => o.1.find? vf) (State.trimWays_owners _)).trans (Tab.find?_put_self _ _ _)

theorem State.created_perms (s : State) {vf row : Nat} {l : ResList} (p : Partition) (h : row ∈ rowsOf l.ranges) :
    (s.created vf l p).perms.get Perm.reset row = ⟨vf, true, true, true⟩ := by
  have hperms : (s.created vf l p).perms = (s.giveRows vf (rowsOf l.ranges)).perms :=
    (congrArg Prod.snd (State.trimWays_owners _)).trans (congrArg Prod.snd (s.granted_owners vf l p.replay))
  rw [hperms]
  exact s.giveRows_perms h

section
variable {s s1 : State} {l : ResList} (hvf : 1 ≤ (argOf s 0 0).toNat) (hvf' : (argOf s 0 0).toNat ≤ 64)
  (hn : 6 ≤ (argOf s 0 3).toNat) (hn' : (argOf s 0 3).toNat ≤ 16) (hlog : (argOf s 0 2).toNat + 32 * 2 ^ (argOf s 0 3).toNat ≤ 2 ^ 39)
  (hm : (argOf s 0 4).toNat < 2)
include hvf hvf' hn hn' hlog hm

theorem pcreate_args : ¬ (decide ((argOf s 0 0).toNat = 0) || decide (64 < (argOf s 0 0).toNat) || decide ((argOf s 0 3).toNat < 6) ||
    decide (16 < (argOf s 0 3).toNat) || decide (2 ^ 39 < (argOf s 0 2).toNat + 32 * 2 ^ (argOf s 0 3).toNat) || !narrow 1 (argOf s 0 4)) = true := by
  have hmode : narrow 1 (argOf s 0 4) = true := decide_eq_true hm
  simp only [Bool.or_eq_true, decide_eq_true_eq, not_or, hmode, Bool.not_true, Bool.false_eq_true, not_false_eq_true, and_true]
  omega

variable (ht : takes s 0 1) (hp : s.part? (argOf s 0 0).toNat = none) (hw : s.listWaits (argOf s 0 1) = false)
  (hr : s.readList (argOf s 0 1) = (.ok l, s1)) (hc : l.consistent = true)
include ht hp hw hr hc

theorem execPcreate_nores (ha : s1.available (argOf s 0 0).toNat [] l = false) : execPcreate 0 s = .next (s1.finishCommand 0 .nores []) := by
  refine hvCommand_fail ht rfl rfl ((if_neg (pcreate_args hvf hvf' hn hn' hlog hm)).trans ?_)
  simp only [hp, hw, hr, hc, ha]
  rfl

theorem execPcreate_creates (ha : s1.available (argOf s 0 0).toNat [] l = true) : execPcreate 0 s =
    .next ((s1.created (argOf s 0 0).toNat l (l.partition (argOf s 0 2).toNat (argOf s 0 3).toNat ((argOf s 0 4).getLsbD 0))).finishCommand 0 .ok []) := by
  refine hvCommand_ok ht rfl rfl ((if_neg (pcreate_args hvf hvf' hn hn' hlog hm)).trans ?_)
  simp only [hp, hw, hr, hc, ha]
  rfl

end

/-! ## Resizing (R395) -/

section
variable {s : State} (ht : takes s 0 2)
include ht

theorem execPresize_unnamed (hp : s.part? (argOf s 0 0).toNat = none) : execPresize 0 s = .next (s.finishCommand 0 .badarg []) := by
  refine hvCommand_fail ht rfl rfl ?_
  dsimp only
  rw [hp]

/-- A resizing that ends no context and leaves no grid without room gives the partition the resources of its new list. -/
theorem execPresize_resizes {s1 : State} {p : Partition} {l : ResList} (hp : s.part? (argOf s 0 0).toNat = some p)
    (hw : s.listWaits (argOf s 0 1) = false) (hr : s.readList (argOf s 0 1) = (.ok l, s1)) (hc : l.consistent = true)
    (ha : s1.available (argOf s 0 0).toNat p.toList.entries l = true)
    (hhives : s1.contextsOn (p.hives.filter fun h => !l.hives.contains h) = [])
    (hchans : s1.contextsUsing (p.channels.filter fun c => !l.channels.contains c) = [])
    (hgrids : ∀ g ∈ s1.grids, g.2.vf ≠ (argOf s 0 0).toNat) :
    execPresize 0 s = .next ((s1.applyList (argOf s 0 0).toNat p l).finishCommand 0 .ok []) := by
  have hmine (f : Nat × Grid → Bool) : (s1.grids.filter fun g => g.2.vf == (argOf s 0 0).toNat && f g) = [] :=
    List.filter_eq_nil_iff.mpr fun g hg => by simp [hgrids g hg]
  refine hvCommand_ok ht rfl rfl ?_
  simp only [hp, hw, hr, hc, ha, hhives, hchans, Bool.and_assoc, hmine]
  simp only [Bool.not_true, Bool.false_eq_true, if_false, List.append_nil, List.dedup_nil, List.isEmpty_nil, List.map_nil, Bool.or_self,
    Bool.and_false, State.each_nil]

end

/-! ## Destruction (R396) -/

/-- A partition's contexts have ended and its queues are closed, unless the command that ends them has begun before. -/
def State.quitting (s : State) (vf : Nat) : State :=
  if s.mboxCur = some 0 then s else (s.resetContexts fun _ c => c.vf == vf).modPart vf fun p => { p with queues := [] }

section
variable {s : State} (ht : takes s 0 3)
include ht

theorem execPdestroy_unnamed (hp : s.part? (argOf s 0 0).toNat = none) : execPdestroy 0 s = .next (s.finishCommand 0 .badarg []) := by
  refine hvCommand_fail ht rfl rfl ?_
  dsimp only
  rw [hp]

section
variable {p : Partition} (hp : s.part? (argOf s 0 0).toNat = some p)
include hp

theorem execPdestroy_waits (ho : (s.quitting (argOf s 0 0).toNat).owesUpdates (argOf s 0 0).toNat = true) :
    execPdestroy 0 s = .next { s.quitting (argOf s 0 0).toNat with mboxCur := some 0 } := by
  refine hvCommand_pending ht rfl rfl ?_
  dsimp only
  rw [hp]
  exact if_pos ho

theorem execPdestroy_ends (ho : (s.quitting (argOf s 0 0).toNat).owesUpdates (argOf s 0 0).toNat = false) :
    let vf := (argOf s 0 0).toNat
    let t := (((((s.quitting vf).unclaimAll vf).takeRows (rowsOf p.ranges)).freeEntries p.toList.entries).clearStoves p.channels)
    execPdestroy 0 s = .next (({ t with
      parts := t.parts.erase vf, hives := t.hives.map fun h => if p.hives.contains h.1 then (h.1, { h.2 with start := none }) else h,
      contexts := t.contexts.filterVals fun c => c.vf != vf, buckets := t.buckets.filter fun b => b.1 / 768 != vf,
      heldReq := t.heldReq.filter fun b => b.1 / 768 != vf, pkgQ := t.pkgQ.filter fun q => q.1 / 4 != vf } : State).finishCommand 0 .ok []) := by
  intro vf t
  refine hvCommand_ok ht rfl rfl ?_
  dsimp only
  rw [hp]
  exact if_neg (Bool.eq_false_iff.mp ho)

end

end

/-- Settles O43, command by command. -/
theorem partitionCommands : Obligations.PartitionCommands := by
  unfold Obligations.PartitionCommands
  intro s s1 p l a vf fail
  refine ⟨fun ht hvf hvf' hn hn' hlog hm hp hw hr hc => ⟨fun ha => ?nores, fun ha => ?creates⟩,
    fun ht hp hw hr hc ha hhives hchans hgrids => ?resizes, fun ht hp => ?resizeUnnamed, fun ht hp => ⟨fun ho => ?waits, fun ho => ?ends⟩,
    fun ht hp => ?destroyUnnamed⟩
  case nores => exact (exec_pcreate 0 s).trans (execPcreate_nores hvf hvf' hn hn' hlog hm ht hp hw hr hc ha)
  case creates =>
    exact ⟨_, _, (exec_pcreate 0 s).trans (execPcreate_creates hvf hvf' hn hn' hlog hm ht hp hw hr hc ha), State.created_part? _ _ _ _, rfl, rfl, rfl, rfl,
      rfl, rfl, fun row hrow => State.created_perms _ _ hrow⟩
  case resizes => exact (exec_presize 0 s).trans (execPresize_resizes ht hp hw hr hc ha hhives hchans hgrids)
  case resizeUnnamed => exact (exec_presize 0 s).trans (execPresize_unnamed ht hp)
  case waits => exact (exec_pdestroy 0 s).trans (execPdestroy_waits ht hp ho)
  case ends => exact (exec_pdestroy 0 s).trans (execPdestroy_ends ht hp ho)
  case destroyUnnamed => exact (exec_pdestroy 0 s).trans (execPdestroy_unnamed ht hp)

end Sys2Proof.Machine
end

section
/-! SUPPORT. The state after reset (19 R404, Table 19.10 step 1). -/

namespace Sys2Proof.Machine

/-- No row belongs to a function. -/
theorem reset_owner (row : Nat) : (State.reset.perms.get Perm.reset row).owner = 0x7F := rfl

/-- No function has given a command. -/
theorem reset_mailbox (fn : Nat) : (State.reset.mailbox fn).status = .ok := rfl

/-- Settles O59, reading by reading: every table of the reset state is empty. -/
theorem resetState : Obligations.ResetState := by
  unfold Obligations.ResetState
  exact ⟨reset_memOk, rfl, rfl, rfl, rfl, rfl, rfl, rfl, rfl, reset_owner, rfl, reset_mailbox, rfl⟩

end Sys2Proof.Machine
end
